-- ==== Sys2Proof/Word.lean ====
section
/-! DEFINITION. The words the model is written with: bytes, engine words and the sparse tables keyed by number. -/

namespace Sys2Proof

/-- One byte of a memory, a payload or a frame. -/
abbrev Byte := BitVec 8

/-- A loop-engine data word (R315). -/
abbrev W24 := BitVec 24

/-- A loop-engine accumulator: guard, upper and lower field (R315). -/
abbrev W56 := BitVec 56

/-- A table of like things by number: entries in rising order of number. A number that has no entry stands for the
default thing, so a table of things at reset is the empty list. -/
abbrev Table (α : Type) := List (Nat × α)

/-- A string of bytes: a payload, a frame or a record. -/
abbrev Bytes := List Byte

end Sys2Proof
end

