-- ==== Sys2Proof/Syntax.lean ====
section
/-! DEFINITION. The commands of the block: one constructor of Instr for every row of spec/opcode_table.json, and the
types of their operands. Every row but the exact-instant rows and the engine instructions carries `dt`, the number of
400 MHz time-clock periods since the command before it (log 1). -/

namespace Sys2Proof

/-- What ECC finds at a read (R23, R606): nothing, a single-bit error, a double-bit error that the re-read clears or confirms. -/
inductive EccRead where
  | clean
  | corrected
  | cleared
  | confirmed
  deriving DecidableEq, Repr

/-- A mailbox request as the firmware takes it (R362): the mailbox it stands in, its tag and its payload bytes; the
length is the number of payload bytes, and the code is the row's own. `ecc` is what ECC finds where the command itself reads
MRAM, the capture SRAM or LPDDR4 (R23, R606 kind 6). -/
structure Request where
  mb : Nat
  tag : Nat
  payload : Bytes
  ecc : EccRead := .clean
  deriving DecidableEq, Repr

/-- A port of a ring (R77). -/
inductive Port where
  | p
  | q
  deriving DecidableEq, Repr

/-- An axis or an interpolation group (R670). -/
inductive Mover where
  | axis (n : Nat)
  | group (n : Nat)
  deriving DecidableEq, Repr

/-- The switch inputs of an axis (R250). -/
inductive Switch where
  | limPos
  | limNeg
  | home
  deriving DecidableEq, Repr

/-- Direction of a break (R108, R674): both, Q-ward only, P-ward only. -/
inductive BreakDir where
  | both
  | qWard
  | pWard
  deriving DecidableEq, Repr

/-- A register of the PCIe function's configuration space that a write addresses (R349, R350): one that the host programs, or one
that the device fixes. -/
inductive PciReg where
  | command
  | bar0
  | bar2
  | maxPayload
  | maxReadReq
  | aer (n : Nat)
  | fixed
  deriving DecidableEq, Repr

/-- Where a host access goes that no row of its own carries (R351 to R353): to an offset of BAR0, to a register of the PCIe
configuration space, or to the quad-SPI target, whose whole transaction the four lines carry in the clocks between the edges of
`QSPI_CS_N`. -/
inductive HostPlace where
  | bar0 (offset : Nat)
  | config (reg : PciReg)
  | qspi (clocks : List (BitVec 4))
  deriving DecidableEq, Repr

/-- What the debug access halts and releases (R348, R413). -/
inductive HaltTarget where
  | engine (e : Nat)
  | timeClock
  deriving DecidableEq, Repr

/-- Correction factors of one ADC core (R443, R454): offset and linearity in 1/256 LSB, gain in 2^-22. -/
structure CoreFactors where
  offset : Int
  gain : Nat
  lin : List Int
  deriving DecidableEq, Repr

/-- The PTP event messages the device sends (R472). -/
inductive PtpKind where
  | sync
  | delayReq
  | pdelayReq
  | pdelayResp
  | announce
  deriving DecidableEq, Repr

/-- What a received PTP message brings to the servo and the port (R474, log 17): whether it is a Sync that gives an
offset measurement, whether it is a Pdelay_Req, the offset in 2^-16 ns (device minus master) as the stamp at the SGMII balls gives it, the
measured rate correction in ppb, the mean path delay in 1/16 ns, the port state the best master clock algorithm leaves, and the
identities. -/
structure PtpRx where
  port : Nat
  isSync : Bool
  isPdelayReq : Bool := false
  offset : Int
  ratePpb : Int
  meanPath : Nat
  portState : Nat
  parent : Bytes
  grandmaster : Bytes
  deriving DecidableEq, Repr

/-- A pair of wires of an encoder channel (A 0, B 1, Z 2) that stays at one level, or no longer does (R426). -/
structure WirePair where
  pair : Nat
  stuck : Bool
  deriving DecidableEq, Repr

/-- The filtered level of the Z pair of an encoder channel (R428). -/
structure ZLevel where
  ch : Nat
  high : Bool
  deriving DecidableEq, Repr

/-- What the eye scan of a lane found (R634): height in mV and width in 0.001 UI with the settings in use, and the best candidate
setting with its height and width. -/
structure EyeScan where
  lane : Nat
  height : Nat
  width : Nat
  candidate : Option (Nat × Nat × Nat) := none
  deriving DecidableEq, Repr

/-- What the sensors of a truing pass gave (R624 to R635): the smallest slack in ps, per engine the stretched fraction in 0.001 %, drifts, MRAM
margin in percent, the normalised slowdown and the one that 0.800 V can compensate in 0.001 %, and the eye scans. -/
structure TruingReadings where
  slackPs : Int
  fMax : List Nat
  stretched : Bool
  voltageConfirmed : Bool
  refDrift : Int
  bandgapDrift : Int
  mramMargin : Nat
  slowdown : Int
  lifeLimit : Int
  eyes : List EyeScan
  deriving DecidableEq, Repr

/-- One item of a partner's mirrored state (R573, log 22). Positions, velocities and accelerations are T24.F24 raw
values. -/
inductive MirrorItem where
  | taskState (task : Nat) (words : List W24)
  | setPoint (axis : Nat) (x v a : Int)
  | source (axis src : Nat)
  | gear (axis : Nat) (ratio : Int)
  | phase (axis : Nat) (enabled : Bool)
  | param (object sub inst : Nat) (value : Int)
  | devState (code : Nat)
  deriving DecidableEq, Repr

/-- The stream of one cycle as the close frame delivers it (R573, R574): its cycle and its items, and whether the frame
count and the CRC of the close frame check. -/
structure MirrorStream where
  cycle : Nat
  checks : Bool
  items : List MirrorItem
  deriving DecidableEq, Repr

/-- What the boot ROM and the firmware's start found (R537, R614, R657, R661): the slot whose image runs and its bytes as the flash gives
them, from the header on, the readings of the boot truing pass, whether S2's signature agrees with the safety image, and shavings slots
found damaged. -/
structure BootResult where
  slot : Nat
  image : Bytes
  truing : TruingReadings
  s2Agrees : Bool
  damagedSlots : List Nat
  deriving DecidableEq, Repr

/-- The read of a task's inputs by the prefetch of an engine, with what ECC finds (R23, R287), and whether the permitted point at which the
task would displace a standard law is that law's end (R310). -/
structure PrefetchRead where
  engine : Nat
  ecc : EccRead := .clean
  stdEnds : Bool := false
  deriving DecidableEq, Repr

/-- An engine whose task completes, with what ECC finds at the reads of its program and data memories by then (R23, R298, R606 kind 2). -/
structure EngineRead where
  engine : Nat
  ecc : EccRead := .clean
  deriving DecidableEq, Repr

/-- The mailbox that the firmware serves, with what ECC finds at its reads of the supervisor RAM and of the request in shared state SRAM
(R23, R606 kinds 1 and 4). -/
structure MailRead where
  mb : Nat
  supervisor : EccRead := .clean
  sram : EccRead := .clean
  deriving DecidableEq, Repr

/-- The comparison of the two state vectors, with what ECC finds at S1's reads of its RAM (R23, R534, R606 kind 5) and the channel
whose self-test has failed since the last one, if any (R535). -/
structure VectorRead where
  differ : Bool
  selfTest : Option Bool := none
  ecc : EccRead := .clean
  deriving DecidableEq, Repr

/-- What a DMA channel's read of a burst finds (R23, R513): no error, a single-bit error, or a read that fails. -/
inductive BurstRead where
  | good
  | corrected
  | failed
  deriving DecidableEq, Repr

/-- What the read of a chain entry brought (R519, R524): what host memory holds there, and how the read went. -/
structure EntryRead where
  bytes : Bytes := []
  read : BurstRead := .good
  deriving DecidableEq, Repr

/-- What the clock monitor measures (R25): whether the time clock is beyond ±1 % for more than 100 µs, or no longer, `dt` after the
command before. -/
structure ClockReading where
  dt : Nat
  beyond : Bool
  deriving DecidableEq, Repr

/-- The instructions of the JTAG port (R695). -/
inductive JtagInstr where
  | bypass
  | idcode
  | samplePreload
  | extest
  | clamp
  deriving DecidableEq, Repr

/-- Number of an X register of a loop engine. -/
abbrev XReg := Fin 16
/-- Number of an accumulator of a loop engine. -/
abbrev Acc := Fin 4
/-- Number of a pointer, offset or length register of a loop engine. -/
abbrev PReg := Fin 8

/-- Post-modification of a pointer (R321). -/
inductive PMod where
  | keep
  | inc
  | dec
  | addM
  deriving DecidableEq, Repr

/-- A parallel move (R321). -/
inductive Move where
  | none
  | ldX (p : PReg) (m : PMod) (r : XReg)
  | stX (p : PReg) (m : PMod) (r : XReg)
  | ldL (p : PReg) (m : PMod) (a : Acc)
  | ldU (p : PReg) (m : PMod) (a : Acc)
  | stL (p : PReg) (m : PMod) (a : Acc)
  | stU (p : PReg) (m : PMod) (a : Acc)
  deriving DecidableEq, Repr

/-- The commands of the block, one constructor for each row of spec/opcode_table.json, in its order. -/
inductive Instr where
  /-- `SYS_CAPS` (R672): Returns identity, capability words and resource counts of the part. -/
  | sysCaps (dt : Nat) (q : Request)
  /-- `SYS_RESET` (R29): Posts its response and resets the device into BOOT 100 µs later. -/
  | sysReset (dt : Nat) (q : Request)
  /-- `SYS_STANDBY` (R648): Deasserts PWR_EN after the response is posted and enters STANDBY with an optional wake second. -/
  | sysStandby (dt : Nat) (q : Request)
  /-- `SYS_OPERATE` (R29): Moves the device from PREOP to OPERATIONAL. -/
  | sysOperate (dt : Nat) (q : Request)
  /-- `SYS_PREOP` (R29): Stops and disables enabled axes, then moves the device from OPERATIONAL to PREOP, completing pending. -/
  | sysPreop (dt : Nat) (q : Request)
  /-- `SYS_PREOP_DONE` (R29): Once all axes have stopped and are disabled, the state changes to PREOP and the pending SYS_PREOP is notified. -/
  | sysPreopDone (dt : Nat)
  /-- `SAFE_HOLD` (R32): Enters SAFE_HOLD, stopping every enabled axis on its stop ramp with its remaining distance kept. -/
  | safeHold (dt : Nat) (q : Request)
  /-- `SAFE_HOLD_RELEASE` (R29): Returns from SAFE_HOLD to the state held before, unless a safety demand is still active. -/
  | safeHoldRelease (dt : Nat) (q : Request)
  /-- `FAULT_CLEAR` (R30): Leaves FAULT for PREOP or CONFIG when no device-fault cause is active. -/
  | faultClear (dt : Nat) (q : Request)
  /-- `POWER_DOMAIN` (R650): Switches the capture SRAM, LPDDR4 or local axis unit domain on or off, completing pending. -/
  | powerDomain (dt : Nat) (q : Request)
  /-- `POWER_DOMAIN_SWITCHED` (R650): A domain finishes switching on or off, the POWER_DOMAIN notification is posted, and held DMA channels resume. -/
  | powerDomainSwitched (dt : Nat) (domain : Nat)
  /-- `PD_HOLD_MAX_EXPIRY` (R525): The DMA hold time expires before a power-down; channels still in flight abort with POWER_ABORT and the domain powers down. -/
  | pdHoldMaxExpiry (dt : Nat)
  /-- `BOOT_INFO` (R660): Returns the booted slot, the patch outcome, the reset source and the rollback fuses blown. -/
  | bootInfo (dt : Nat) (q : Request)
  /-- `FW_STAGE_WRITE` (R660): Writes bytes into the staging slot or the patch area; a write at offset 0 first erases the target. -/
  | fwStageWrite (dt : Nat) (q : Request)
  /-- `FW_STAGE_COMMIT` (R660): Checks and arms a staged slot or patch, clears the patch area, or blows rollback fuses. -/
  | fwStageCommit (dt : Nat) (q : Request)
  /-- `PARAM_READ` (R372): Reads 1 to 11 parameter entries. -/
  | paramRead (dt : Nat) (q : Request)
  /-- `PARAM_WRITE` (R373): Checks all entries and cross-parameter constraints, then applies the writes together or none of them. -/
  | paramWrite (dt : Nat) (q : Request)
  /-- `PLAN_LOAD` (R671): Writes bytes into the standby plan buffer and leaves the buffer unverified. -/
  | planLoad (dt : Nat) (q : Request)
  /-- `PLAN_COMMIT` (R74): Verifies the standby plan; activates it in CONFIG, otherwise arms a switch and completes pending. -/
  | planCommit (dt : Nat) (q : Request)
  /-- `PLAN_VERIFY_DONE` (R66): Plan verification ends with a refusal payload, an activation, or an armed switch tick. -/
  | planVerifyDone (dt : Nat)
  /-- `PLAN_SWITCH` (R74): At the armed switch tick the buffers are exchanged and PLAN_COMMIT is notified. -/
  | planSwitch
  /-- `CYCLE_START` (R76): Checks the ring binding and schedules the first tick at least 1 ms ahead on N mod 256 = 0, completing pending. -/
  | cycleStart (dt : Nat) (q : Request)
  /-- `CYCLE_FIRST_TICK` (R76): The first tick of the cycle occurs, the device enters PREOP, and CYCLE_START is notified. -/
  | cycleFirstTick
  /-- `CYCLE_STOP` (R29): Stops the cycle and returns the device from PREOP to CONFIG. -/
  | cycleStop (dt : Nat) (q : Request)
  /-- `PLAN_STATUS` (R703): Returns plan IDs, standby state, switch tick, budget use and derating. -/
  | planStatus (dt : Nat) (q : Request)
  /-- `PLAN_STORE` (R72): Copies the active plan into the MRAM stored-plan partition. -/
  | planStore (dt : Nat) (q : Request)
  /-- `PLAN_RECALL` (R72): Copies the stored plan into the standby buffer, unverified. -/
  | planRecall (dt : Nat) (q : Request)
  /-- `FLOW_PLACE` (R303): Moves one flow to a named engine after a budget test, by a drain. -/
  | flowPlace (dt : Nat) (q : Request)
  /-- `RING_ENUMERATE` (R114): Enumerates ring A, B or both by enumeration frames and address assignment, completing pending. -/
  | ringEnumerate (dt : Nat) (q : Request)
  /-- `ENUM_FRAME_RETURN` (R114): An enumeration frame returns good at the opposite port with the nodes' records. -/
  | enumFrameReturn (dt : Nat) (ring : Nat) (port : Port) (frame : Bytes)
  /-- `ENUM_TIMEOUT` (R114): No good enumeration frame has arrived at port Q within 1 ms, so a second pass is sent from port Q. -/
  | enumTimeout (dt : Nat) (ring : Nat)
  /-- `RING_STATUS` (R674): Returns nodes by position, breaks and closure counts. -/
  | ringStatus (dt : Nat) (q : Request)
  /-- `NODE_IDENTITY` (R674): Returns the identity record of one node. -/
  | nodeIdentity (dt : Nat) (q : Request)
  /-- `NODE_ENABLE` (R119): Releases a hot-joined node from pre-operational. -/
  | nodeEnable (dt : Nat) (q : Request)
  /-- `NODE_ALIAS_SET` (R120): Writes a node's stored alias, used from the next enumeration. -/
  | nodeAliasSet (dt : Nat) (q : Request)
  /-- `NODE_PARAM_READ` (R674): Runs acyclic service 0x01 on a node, completing pending. -/
  | nodeParamRead (dt : Nat) (q : Request)
  /-- `NODE_PARAM_WRITE` (R674): Runs acyclic service 0x02 on a node, completing pending. -/
  | nodeParamWrite (dt : Nat) (q : Request)
  /-- `TUNNEL_CONFIG` (R120): Opens or closes the Ethernet tunnel of a ring. -/
  | tunnelConfig (dt : Nat) (q : Request)
  /-- `AXIS_ENABLE` (R200): Starts the enable sequence of an axis, completing pending. -/
  | axisEnable (dt : Nat) (q : Request)
  /-- `AXIS_ENABLED` (R200): At the first tick at least brake_release after the brake timer started, the axis becomes enabled and AXIS_ENABLE is notified. -/
  | axisEnabled (dt : Nat) (axis : Nat)
  /-- `AXIS_ENABLE_TIMEOUT` (R200): The power stage is not reported on within enable_timeout, so the enables are cleared and AXIS_ENABLE fails. -/
  | axisEnableTimeout (dt : Nat) (axis : Nat)
  /-- `AXIS_DISABLE` (R201): Stops the axis, engages the brake and clears its enables, completing pending. -/
  | axisDisable (dt : Nat) (q : Request)
  /-- `BRAKE_ENGAGE_EXPIRY` (R201): After the brake_engage hold, power stage enable and axis-enabled are cleared and the disable completes. -/
  | brakeEngageExpiry (dt : Nat) (axis : Nat)
  /-- `AXIS_STATUS` (R675): Returns the enable phase, mode, source, ratio, faults and diagnostics of an axis. -/
  | axisStatus (dt : Nat) (q : Request)
  /-- `AXIS_SOURCE` (R191): Changes the set-point source of an idle axis. -/
  | axisSource (dt : Nat) (q : Request)
  /-- `GEAR_RATIO` (R195): Ramps the gear ratio to ratio_num over ratio_den under jerk limits. -/
  | gearRatio (dt : Nat) (q : Request)
  /-- `GEAR_ENGAGE` (R704): Switches a standing axis to source 3 with a ratio ramp from 0. -/
  | gearEngage (dt : Nat) (q : Request)
  /-- `GEAR_DISENGAGE` (R195): Ramps the ratio to 0, then reverts the axis to source 0. -/
  | gearDisengage (dt : Nat) (q : Request)
  /-- `GEAR_RAMP_END` (R195): A ratio ramp reaches its target; the exact ratio resumes, or the axis reverts to source 0 at ratio 0. -/
  | gearRampEnd (dt : Nat) (axis : Nat)
  /-- `AXIS_FAULT_CLEAR` (R602): Clears an axis or group fault when no cause persists. -/
  | axisFaultClear (dt : Nat) (q : Request)
  /-- `LAW_LOAD` (R345): Stages law block segments; the last segment starts the checks and the load into every engine, completing pending. -/
  | lawLoad (dt : Nat) (q : Request)
  /-- `LAW_UNLOAD` (R345): Frees a user law block that no plan references. -/
  | lawUnload (dt : Nat) (q : Request)
  /-- `LAW_INFO` (R345): Lists the standard laws and the loaded user blocks. -/
  | lawInfo (dt : Nat) (q : Request)
  /-- `LAW_COEF_WRITE` (R345): Writes coefficient words into a task's input block, effective at the next tick. -/
  | lawCoefWrite (dt : Nat) (q : Request)
  /-- `LAW_TEST` (R345): Runs one task on a named engine and reports the clocks to DONE, ES and any fault. -/
  | lawTest (dt : Nat) (q : Request)
  /-- `MOVE_ABS` (R245): Starts or queues a move to an absolute target. -/
  | moveAbs (dt : Nat) (q : Request)
  /-- `MOVE_REL` (R245): Starts or queues a move by a signed distance. -/
  | moveRel (dt : Nat) (q : Request)
  /-- `STOP` (R254): Brings an axis or group to standstill on its stop ramp and discards its remaining distance and queue. -/
  | stop (dt : Nat) (q : Request)
  /-- `HOLD` (R255): Stops an axis or group on its stop ramp, keeping the remaining distance and queue. -/
  | hold (dt : Nat) (q : Request)
  /-- `RESUME` (R256): Completes a held axis's remaining distance and continues its queue. -/
  | resume (dt : Nat) (q : Request)
  /-- `HOME` (R264): Runs the homing sequence of home_mode, completing pending. -/
  | home (dt : Nat) (q : Request)
  /-- `HOMING_REFERENCE_SHIFT` (R268): At the first tick of standstill after the reference, positions are shifted to home_offset and HOME completes. -/
  | homingReferenceShift (dt : Nat) (axis : Nat)
  /-- `HOMING_NOT_FOUND` (R264): A search leg travels home_dist_max without finding its reference, stops, and HOME fails. -/
  | homingNotFound (dt : Nat) (axis : Nat)
  /-- `HOMING_CHATTER` (R267): The qualified edges of a leg exceed homing_chatter_max, so homing ends without a reference. -/
  | homingChatter (dt : Nat) (axis : Nat)
  /-- `GROUP_DEFINE` (R259): Sets or dissolves the member list of an interpolation group. -/
  | groupDefine (dt : Nat) (q : Request)
  /-- `GROUP_MOVE` (R261): Moves all group members along one path profile. -/
  | groupMove (dt : Nat) (q : Request)
  /-- `GROUP_LIMITS` (R253): Re-plans a running group path under new path limits. -/
  | groupLimits (dt : Nat) (q : Request)
  /-- `MOTION_STATUS` (R676): Returns the profile state, queue and remaining distance of an axis or group. -/
  | motionStatus (dt : Nat) (q : Request)
  /-- `MOVE_COMPLETE` (R239): A move reaches its target at a tick and the next queued move starts. -/
  | moveComplete (dt : Nat) (who : Mover)
  /-- `SWITCH_QUALIFIED` (R250): A limit or home input has held its new level for sw_filter, so its edge is qualified. -/
  | switchQualified (dt : Nat) (axis : Nat) (sw : Switch)
  /-- `STEPPER_HOLD_DELAY_EXPIRY` (R271): After hold_delay at standstill, a mode-6 axis switches off or shorts its coils, or reduces them to hold_current. -/
  | stepperHoldDelayExpiry (dt : Nat) (axis : Nat)
  /-- `STEPPER_WAKE_DONE` (R272): After wake_time at running current, the pending stepper move starts. -/
  | stepperWakeDone (dt : Nat) (axis : Nat)
  /-- `PWM_TRIP_CLEAR` (R404): Clears a trip latch when its input is high. -/
  | pwmTripClear (dt : Nat) (q : Request)
  /-- `PWM_STATUS` (R677): Returns the output sources, latches and counts of one timer. -/
  | pwmStatus (dt : Nat) (q : Request)
  /-- `ENC_INDEX_ARM` (R429): Arms the armed-once index mode of one channel. -/
  | encIndexArm (dt : Nat) (q : Request)
  /-- `ENC_FAULT_CLEAR` (R427): Clears ENC_FAULT unless a wire fault persists. -/
  | encFaultClear (dt : Nat) (q : Request)
  /-- `PROBE_ARM` (R434): Arms a probe in single mode. -/
  | probeArm (dt : Nat) (q : Request)
  /-- `PROBE_READ` (R435): Returns queued probe records and removes them from the queue. -/
  | probeRead (dt : Nat) (q : Request)
  /-- `ADC_REF_ENABLE` (R450): Switches the ADC reference buffer on or off. -/
  | adcRefEnable (dt : Nat) (q : Request)
  /-- `ADC_REF_READY` (R450): 500 µs after switch-on the reference is ready and results no longer carry REF_NOT_READY. -/
  | adcRefReady (dt : Nat)
  /-- `ADC_CALIBRATE` (R451): Starts the self-calibration of all five cores, completing pending. -/
  | adcCalibrate (dt : Nat) (q : Request)
  /-- `ADC_CALIBRATE_DONE` (R451): The 2.4 ms calibration ends, the factors are stored, and ADC_CALIBRATE is notified. -/
  | adcCalibrateDone (dt : Nat) (factors : List CoreFactors)
  /-- `ADC_CAL_SAVE` (R453): Writes the core factors to MRAM. -/
  | adcCalSave (dt : Nat) (q : Request)
  /-- `ADC_CAL_RESTORE` (R453): Loads the core factors from MRAM. -/
  | adcCalRestore (dt : Nat) (q : Request)
  /-- `LOCAL_IN_STATUS` (R677): Returns DIN levels, encoder states, core assignment and miss counts. -/
  | localInStatus (dt : Nat) (q : Request)
  /-- `TIME_READ` (R678): Returns device time with its fraction, trim, slew and traceability. -/
  | timeRead (dt : Nat) (q : Request)
  /-- `TIME_SET` (R466): Steps or slews device time by the stated offset. -/
  | timeSet (dt : Nat) (q : Request)
  /-- `SLEW_DONE` (R466): A slew has removed its offset; slew ramps to 0 and time becomes traceable. -/
  | slewDone (dt : Nat)
  /-- `TIME_TRIM` (R480): Sets the frequency trim under the ramp limits. -/
  | timeTrim (dt : Nat) (q : Request)
  /-- `PTP_CONFIG` (R480): Starts or stops the PTP stack with the present parameters. -/
  | ptpConfig (dt : Nat) (q : Request)
  /-- `PTP_STATUS` (R678): Returns PTP state, port states, offset and identities. -/
  | ptpStatus (dt : Nat) (q : Request)
  /-- `PTP_MESSAGE_RX` (R474): A PTP message is received and stamped, and the servo corrects trim and offset. -/
  | ptpMessageRx (dt : Nat) (m : PtpRx)
  /-- `PTP_MESSAGE_TX` (R472): A PTP event message leaves a plant port with its stamp written on the fly; a Pdelay_Resp answers the waiting
  Pdelay_Req of a number. -/
  | ptpMessageTx (dt : Nat) (port : Nat) (kind : PtpKind) (req : Nat)
  /-- `PLANT_FRAME_RX` (R475): A plant-port frame that is not for the PTP stack is discarded and counted. -/
  | plantFrameRx (dt : Nat) (port : Nat)
  /-- `TOUT_SET` (R476): Programs a timed pulse output in once or periodic mode. -/
  | toutSet (dt : Nat) (q : Request)
  /-- `TOUT_STOP` (R477): Ends a timed output after the pulse in progress. -/
  | toutStop (dt : Nat) (q : Request)
  /-- `TOUT_PULSE` (R476): A timed output pulse starts at its instant and ends after its width. -/
  | toutPulse (out : Nat)
  /-- `PLANT_TX` (R478): Queues an Ethernet frame from LPDDR4 on a plant port, timed or untimed. -/
  | plantTx (dt : Nat) (q : Request)
  /-- `TIMED_FRAME_LAUNCH` (R478): A queued timed frame leaves so that its timestamp point crosses the media interface at its launch instant. -/
  | timedFrameLaunch (port : Nat)
  /-- `CAL_SEG_LIST` (R505): Writes entries of the calipers segment list. -/
  | calSegList (dt : Nat) (q : Request)
  /-- `CAL_MASK_WRITE` (R679): Writes envelope points of one channel. -/
  | calMaskWrite (dt : Nat) (q : Request)
  /-- `CAL_ARM` (R494): Arms a segmented record, completing pending at its stop. -/
  | calArm (dt : Nat) (q : Request)
  /-- `CAL_STOP` (R496): Stops the record with stop_reason 5. -/
  | calStop (dt : Nat) (q : Request)
  /-- `CAL_FORCE` (R490): Triggers the armed record at the command's completion stamp. -/
  | calForce (dt : Nat) (q : Request)
  /-- `CAL_STATUS` (R679): Returns the calipers state, stop reason, counts and sync state. -/
  | calStatus (dt : Nat) (q : Request)
  /-- `CAL_READ` (R500): Returns up to 224 bytes of a completed segment. -/
  | calRead (dt : Nat) (q : Request)
  /-- `CAL_SKEW_CALIBRATE` (R504): Measures channel skew against 64 reference pulses, completing pending. -/
  | calSkewCalibrate (dt : Nat) (q : Request)
  /-- `CAL_SKEW_STORE` (R504): Stores or restores the skew values in MRAM. -/
  | calSkewStore (dt : Nat) (q : Request)
  /-- `CAL_BUS_MEASURE` (R502): Measures the trigger-bus delays by round trips to the leader, completing pending. -/
  | calBusMeasure (dt : Nat) (q : Request)
  /-- `CAL_ROW` (R489): A calipers row is taken at a tick or at the end of an ADC run, triggers and masks are evaluated, and the segment advances. -/
  | calRow (dt : Nat) (run : Option (Bool × Nat))
  /-- `TRIG_BUS_EDGE` (R503): A falling edge on a trigger-bus line is stamped and may trigger the record. -/
  | trigBusEdge (dt : Nat) (line : Nat)
  /-- `SYNC_CLK_LOST` (R501): No SYNC_CLK edge has arrived for 10 µs, so sync_state becomes lost. -/
  | syncClkLost (dt : Nat)
  /-- `DMA_SETUP` (R518): Writes the RW registers of a host DMA channel. -/
  | dmaSetup (dt : Nat) (q : Request)
  /-- `DMA_START` (R518): Starts a DMA transfer, completing pending. -/
  | dmaStart (dt : Nat) (q : Request)
  /-- `DMA_LIST_WRITE` (R521): Writes chain entries into a channel's list area in descending index order. -/
  | dmaListWrite (dt : Nat) (q : Request)
  /-- `DMA_APPEND` (R520): Increments DMA_TAIL and wakes a parked channel. -/
  | dmaAppend (dt : Nat) (q : Request)
  /-- `DMA_CLOSE` (R520): Clears open so that the chain completes at its end entry. -/
  | dmaClose (dt : Nat) (q : Request)
  /-- `DMA_ABORT` (R522): Ends a transfer after the burst in progress. -/
  | dmaAbort (dt : Nat) (q : Request)
  /-- `DMA_STATUS` (R518): Returns the registers of one DMA channel. -/
  | dmaStatus (dt : Nat) (q : Request)
  /-- `DMA_ENTRY_READ` (R519): The engine reads a chain entry and either starts its segment or handles an end entry. -/
  | dmaEntryRead (dt : Nat) (ch : Nat) (entry : EntryRead)
  /-- `DMA_BURST` (R513): A channel moves one burst of up to 256 bytes through the buffer. -/
  | dmaBurst (dt : Nat) (ch : Nat) (data : Bytes) (read : BurstRead)
  /-- `SAFETY_STATUS` (R557): Returns the safety state and the states of pairs, functions and outputs. -/
  | safetyStatus (dt : Nat) (q : Request)
  /-- `SAFETY_IMAGE_READ` (R557): Returns bytes of the active safety image. -/
  | safetyImageRead (dt : Nat) (q : Request)
  /-- `SAFETY_CONN_STATUS` (R557): Returns the state and counters of one safety connection. -/
  | safetyConnStatus (dt : Nat) (q : Request)
  /-- `PAIR_STATUS` (R590): Returns the pair state, grip and partner data. -/
  | pairStatus (dt : Nat) (q : Request)
  /-- `PAIR_JOIN` (R589): Starts the return of a unit into a redundant pair, completing pending. -/
  | pairJoin (dt : Nat) (q : Request)
  /-- `PAIR_RESYNC_TIMEOUT` (R589): Two seconds pass without readiness, so PAIR_JOIN completes with PAIR_NOT_READY and the resync restarts. -/
  | pairResyncTimeout (dt : Nat)
  /-- `GRIP_RELEASE` (R589): The holder requests release of the grip to a ready partner. -/
  | gripRelease (dt : Nat) (q : Request)
  /-- `EVENT_READ` (R617): Returns up to 7 records of the live event ring. -/
  | eventRead (dt : Nat) (q : Request)
  /-- `SHAVINGS_STATUS` (R617): Returns the slot headers and the live ring counts. -/
  | shavingsStatus (dt : Nat) (q : Request)
  /-- `SHAVINGS_READ` (R617): Returns raw bytes of a shavings slot. -/
  | shavingsRead (dt : Nat) (q : Request)
  /-- `SHAVINGS_FREEZE` (R611): Triggers a shavings freeze by host command, completing pending. -/
  | shavingsFreeze (dt : Nat) (q : Request)
  /-- `SHAVINGS_COMMIT_DONE` (R612): The commit engine finishes copying the frozen set to an MRAM slot and raises SHAVINGS_COMMITTED. -/
  | shavingsCommitDone (dt : Nat)
  /-- `DISPATCH_ENGINE_STATS` (R305): Returns the dispatch statistics of one engine. -/
  | dispatchEngineStats (dt : Nat) (q : Request)
  /-- `DISPATCH_LEVEL_STATS` (R306): Returns the ready-list statistics per priority level. -/
  | dispatchLevelStats (dt : Nat) (q : Request)
  /-- `DISPATCH_FLOW_STATS` (R307): Returns the placement and wait histogram of one flow. -/
  | dispatchFlowStats (dt : Nat) (q : Request)
  /-- `DISPATCH_STATS_CLEAR` (R304): Clears the dispatch maxima, counts and histograms. -/
  | dispatchStatsClear (dt : Nat) (q : Request)
  /-- `TRUING_RUN` (R636): Starts a truing pass at once, completing pending. -/
  | truingRun (dt : Nat) (q : Request)
  /-- `TRUING_STATUS` (R636): Returns the truing parameters, slack and history. -/
  | truingStatus (dt : Nat) (q : Request)
  /-- `TRUING_PASS_START` (R626): A truing pass starts when truing_interval expires. -/
  | truingPassStart (dt : Nat)
  /-- `TRUING_PASS_END` (R632): A pass ends; its V and δ are adopted or refused, or the pass is incomplete. -/
  | truingPassEnd (dt : Nat) (r : TruingReadings)
  /-- `AVS_READBACK` (R631): 1 ms after a voltage step the read-back confirms the step, retries it, or raises AVS_FAULT. -/
  | avsReadback (dt : Nat) (mv : Nat)
  /-- `TICK` (R42): A cycle opens: burst 1 leaves, profiles and set-points advance, and per-tick duties run. -/
  | tick
  /-- `OUTPUT_SNAPSHOT` (R379): 400 ns before a tick the output buffer is taken as one snapshot. -/
  | outputSnapshot
  /-- `BURST_LAUNCH` (R49): A down burst launches once its conditions hold or at its deadline, freezing its content. -/
  | burstLaunch (dt : Nat) (ring : Nat) (k : Nat)
  /-- `BUNDLE_DEADLINE_FAIL` (R51): A bundle that has not committed by its latest burst deadline fails on every ring and timer it touches. -/
  | bundleDeadlineFail (dt : Nat) (bundle : Nat)
  /-- `OUTPUT_MISSED` (R56): A second consecutive missed output raises an axis fault. -/
  | outputMissed (dt : Nat) (axis : Nat)
  /-- `BUNDLE_FAILED` (R56): A second consecutive bundle failure raises a group fault. -/
  | bundleFailed (dt : Nat) (bundle : Nat)
  /-- `PI_INPUT_PUBLISH` (R375): After the last burst the device writes the input buffer of the cycle and updates latest. -/
  | piInputPublish (dt : Nat)
  /-- `ACYCLIC_FRAME_TX` (R47): A waiting acyclic frame leaves in the acyclic window if it ends by A. -/
  | acyclicFrameTx (dt : Nat) (ring : Nat)
  /-- `UP_FRAME_RX` (R98): A good up frame of the current cycle is taken, and its slices and stamps are stored. -/
  | upFrameRx (dt : Nat) (ring : Nat) (port : Port) (frame : Bytes)
  /-- `BURST_CLOSURE_RX` (R99): The device's own down burst arrives good at the opposite port and counts as a closure. -/
  | burstClosureRx (dt : Nat) (ring : Nat) (port : Port) (frame : Bytes)
  /-- `GATHER_DEADLINE` (R98): At t₀ + G_r the slices of nodes without a good copy become invalid for the cycle. -/
  | gatherDeadline (dt : Nat) (ring : Nat)
  /-- `ACYCLIC_FRAME_RX` (R106): An acyclic response, tunnel frame or safety frame from a node is received. -/
  | acyclicFrameRx (dt : Nat) (ring : Nat) (port : Port) (frame : Bytes)
  /-- `ACYCLIC_RESPONSE_TIMEOUT` (R106): No response by the end of the next acyclic window, so the request is resent once or fails with ACYCLIC_LOST. -/
  | acyclicResponseTimeout (dt : Nat) (node : Nat)
  /-- `LANE_SIGNAL_LOSS` (R108): A lane loses signal or block lock; the break is located and RING_BREAK is raised. -/
  | laneSignalLoss (dt : Nat) (ring : Nat) (hop : Nat) (dir : BreakDir)
  /-- `RING_CLOSED` (R109): After 64 consecutive closures of both copies the ring is reported closed. -/
  | ringClosed (dt : Nat) (ring : Nat)
  /-- `NODE_LOST` (R110): A node without a good up frame for node_loss_cycles is lost and its axes fault. -/
  | nodeLost (dt : Nat) (node : Nat)
  /-- `TUNNEL_TX_SLOT` (R381): A host write of tx_tail hands tunnel slots to the device's LPDDR4 queue. -/
  | tunnelTxSlot (dt : Nat) (ring : Nat) (tail : BitVec 16)
  /-- `TASK_READY` (R284): A task's inputs are present or their deadline has passed, so it joins its ready list. -/
  | taskReady (dt : Nat) (task : Nat)
  /-- `TASK_DISPATCH` (R287): The engine switches its prefetched candidate into the active slot. -/
  | taskDispatch (dt : Nat) (read : PrefetchRead)
  /-- `TASK_COMPLETE` (R290): A task's writeback ends and it commits alone or joins its bundle. -/
  | taskComplete (dt : Nat) (engine : EngineRead) (clocks : Nat)
  /-- `TASK_OVERRUN` (R54): A task exhausts its derated budget and is preempted and marked overrun. -/
  | taskOverrun (dt : Nat) (engine : Nat)
  /-- `LAW_FAULT` (R298): A task ends on a law fault and is re-run once. -/
  | lawFault (dt : Nat) (engine : Nat) (code : Nat)
  /-- `ENGINE_FAULT` (R300): An engine leaves service; its flows move to their fallbacks and its memory test starts. -/
  | engineFault (dt : Nat) (engine : Nat)
  /-- `ENGINE_STALL` (R294): An engine passes 65,600 clocks without a permitted point and is treated as faulted. -/
  | engineStall (dt : Nat) (engine : Nat)
  /-- `ENGINE_TEST_DONE` (R300): An engine's memory test ends; it returns to service or is lost. -/
  | engineTestDone (dt : Nat) (engine : Nat) (pass : Bool)
  /-- `NOP` (R328): Performs the parallel moves only. -/
  | nop (e : Nat) (m1 m2 : Move)
  /-- `PSET` (R323): Sets an accumulator to a signed fractional product. -/
  | pset (e : Nat) (ad : Acc) (neg : Bool) (xa xb : XReg) (m1 m2 : Move)
  /-- `PSETR` (R324): Sets an accumulator to a product and rounds it. -/
  | psetr (e : Nat) (ad : Acc) (neg : Bool) (xa xb : XReg) (m1 m2 : Move)
  /-- `PACC` (R323): Accumulates a signed fractional product. -/
  | pacc (e : Nat) (ad : Acc) (neg : Bool) (xa xb : XReg) (m1 m2 : Move)
  /-- `PACCR` (R324): Accumulates a product and rounds. -/
  | paccr (e : Nat) (ad : Acc) (neg : Bool) (xa xb : XReg) (m1 m2 : Move)
  /-- `PSETU` (R323): Sets an accumulator to a signed by unsigned product. -/
  | psetu (e : Nat) (ad : Acc) (neg : Bool) (xa xb : XReg) (m1 m2 : Move)
  /-- `PSETUR` (R324): Sets an accumulator to a signed by unsigned product and rounds. -/
  | psetur (e : Nat) (ad : Acc) (neg : Bool) (xa xb : XReg) (m1 m2 : Move)
  /-- `PACCU` (R323): Accumulates a signed by unsigned product. -/
  | paccu (e : Nat) (ad : Acc) (neg : Bool) (xa xb : XReg) (m1 m2 : Move)
  /-- `PACCUR` (R324): Accumulates a signed by unsigned product and rounds. -/
  | paccur (e : Nat) (ad : Acc) (neg : Bool) (xa xb : XReg) (m1 m2 : Move)
  /-- `AADD` (R328): Adds two accumulators. -/
  | aadd (e : Nat) (ad ar : Acc) (m1 m2 : Move)
  /-- `ASUB` (R328): Subtracts one accumulator from another. -/
  | asub (e : Nat) (ad ar : Acc) (m1 m2 : Move)
  /-- `AADX` (R328): Adds a shifted X register to an accumulator. -/
  | aadx (e : Nat) (ad : Acc) (xa : XReg) (m1 m2 : Move)
  /-- `ASBX` (R328): Subtracts a shifted X register from an accumulator. -/
  | asbx (e : Nat) (ad : Acc) (xa : XReg) (m1 m2 : Move)
  /-- `ACMP` (R328): Sets flags from the difference of two accumulators. -/
  | acmp (e : Nat) (ad ar : Acc) (m1 m2 : Move)
  /-- `ACPX` (R328): Sets flags from an accumulator minus a shifted X register. -/
  | acpx (e : Nat) (ad : Acc) (xa : XReg) (m1 m2 : Move)
  /-- `ACPY` (R328): Copies one accumulator to another. -/
  | acpy (e : Nat) (ad ar : Acc) (m1 m2 : Move)
  /-- `ALDX` (R328): Loads a shifted X register into an accumulator. -/
  | aldx (e : Nat) (ad : Acc) (xa : XReg) (m1 m2 : Move)
  /-- `AZRO` (R328): Clears an accumulator. -/
  | azro (e : Nat) (ad : Acc) (m1 m2 : Move)
  /-- `ANEG` (R328): Negates an accumulator. -/
  | aneg (e : Nat) (ad : Acc) (m1 m2 : Move)
  /-- `AABS` (R328): Takes the absolute value of an accumulator. -/
  | aabs (e : Nat) (ad : Acc) (m1 m2 : Move)
  /-- `RND` (R324): Rounds an accumulator convergently at bit 24. -/
  | rnd (e : Nat) (ad : Acc) (m1 m2 : Move)
  /-- `ASAT` (R325): Saturates an accumulator to 48 bits. -/
  | asat (e : Nat) (ad : Acc) (m1 m2 : Move)
  /-- `ASHL` (R328): Shifts an accumulator left with saturation. -/
  | ashl (e : Nat) (ad : Acc) (sh : Nat) (m1 m2 : Move)
  /-- `ASHR` (R328): Shifts an accumulator right arithmetically. -/
  | ashr (e : Nat) (ad : Acc) (sh : Nat) (m1 m2 : Move)
  /-- `SCLB` (R331): Scales an accumulator by the block exponent BX. -/
  | sclb (e : Nat) (ad : Acc) (m1 m2 : Move)
  /-- `BEXPA` (R331): Updates BX from an accumulator's leading sign bits. -/
  | bexpa (e : Nat) (ad : Acc) (m1 m2 : Move)
  /-- `QSTEP` (R332): Performs one unsigned restoring division step. -/
  | qstep (e : Nat) (ad : Acc) (xa : XReg) (m1 m2 : Move)
  /-- `MAXI` (R330): Keeps the larger value and captures its repeat index. -/
  | maxi (e : Nat) (ad : Acc) (xa : XReg) (m1 m2 : Move)
  /-- `MINI` (R330): Keeps the smaller value and captures its repeat index. -/
  | mini (e : Nat) (ad : Acc) (xa : XReg) (m1 m2 : Move)
  /-- `XHI` (R325): Moves the saturated upper word of an accumulator to an X register. -/
  | xhi (e : Nat) (xd : XReg) (ad : Acc) (m1 m2 : Move)
  /-- `XHIR` (R324): Moves the rounded and saturated upper word of an accumulator to an X register. -/
  | xhir (e : Nat) (xd : XReg) (ad : Acc) (m1 m2 : Move)
  /-- `XLO` (R325): Moves the saturated lower word of an accumulator to an X register. -/
  | xlo (e : Nat) (xd : XReg) (ad : Acc) (m1 m2 : Move)
  /-- `XCPY` (R328): Copies one X register to another. -/
  | xcpy (e : Nat) (xd xa : XReg) (m1 m2 : Move)
  /-- `XADD` (R328): Adds X registers modulo 2^24. -/
  | xadd (e : Nat) (xd xa xb : XReg) (m1 m2 : Move)
  /-- `XSUB` (R328): Subtracts X registers modulo 2^24. -/
  | xsub (e : Nat) (xd xa xb : XReg) (m1 m2 : Move)
  /-- `XAND` (R328): Bitwise and of X registers. -/
  | xand (e : Nat) (xd xa xb : XReg) (m1 m2 : Move)
  /-- `XIOR` (R328): Bitwise inclusive or of X registers. -/
  | xior (e : Nat) (xd xa xb : XReg) (m1 m2 : Move)
  /-- `XEOR` (R328): Bitwise exclusive or of X registers. -/
  | xeor (e : Nat) (xd xa xb : XReg) (m1 m2 : Move)
  /-- `XBIT` (R328): Tests one bit of an X register into Z. -/
  | xbit (e : Nat) (xa : XReg) (bit : Nat) (m1 m2 : Move)
  /-- `BEXP` (R331): Updates BX from an X register's leading sign bits. -/
  | bexp (e : Nat) (xa : XReg) (m1 m2 : Move)
  /-- `SCLBX` (R331): Scales an X register by BX. -/
  | sclbx (e : Nat) (xd xa : XReg) (m1 m2 : Move)
  /-- `SREG` (R329): Moves a value between an X register and a special register. -/
  | sreg (e : Nat) (xn : XReg) (sel : Nat) (index : PReg) (toSpecial : Bool) (m1 m2 : Move)
  /-- `BXSET` (R328): Sets the block exponent BX. -/
  | bxset (e : Nat) (v : BitVec 7) (m1 m2 : Move)
  /-- `DONE` (R343): Ends the task and starts its writeback. -/
  | done (e : Nat) (m1 m2 : Move)
  /-- `BRC` (R334): Branches on a condition after two delay slots. -/
  | brc (e : Nat) (cc : Nat) (t : BitVec 14)
  /-- `CALL` (R328): Pushes a return address and branches after two delay slots. -/
  | call (e : Nat) (t : BitVec 14)
  /-- `RET` (R328): Returns to the popped address after two delay slots. -/
  | ret (e : Nat)
  /-- `DECBR` (R328): Decrements an X register and branches while it is non-zero. -/
  | decbr (e : Nat) (xn : XReg) (t : BitVec 14)
  /-- `REP` (R333): Executes the next instruction n times without interruption. -/
  | rep (e : Nat) (n : Nat) (m1 m2 : Move)
  /-- `XIMM` (R328): Loads an immediate into an X register. -/
  | ximm (e : Nat) (xd : XReg) (v : W24)
  /-- `PIMM` (R328): Loads an immediate into a pointer. -/
  | pimm (e : Nat) (p : PReg) (v : BitVec 16)
  /-- `MIMM` (R328): Loads a signed immediate into an offset register. -/
  | mimm (e : Nat) (p : PReg) (v : BitVec 16)
  /-- `LIMM` (R328): Loads an immediate into a modulo length register. -/
  | limm (e : Nat) (p : PReg) (v : BitVec 16)
  /-- `DEBUG_HALT_REQUEST` (R348): A JTAG halt request halts a loop engine at its next permitted point, only in CONFIG. -/
  | debugHaltRequest (dt : Nat) (target : HaltTarget)
  /-- `DEBUG_SINGLE_STEP` (R348): A halted engine executes one instruction, branch group or REP. -/
  | debugSingleStep (dt : Nat) (engine : Nat)
  /-- `FEEDBACK_LOST` (R173): After fb_miss_max invalid samples the axis faults and is stopped. -/
  | feedbackLost (dt : Nat) (axis : Nat)
  /-- `FOLLOWING_ERROR` (R175): The following error exceeds fe_limit for fe_time cycles, raising an axis fault. -/
  | followingError (dt : Nat) (axis : Nat)
  /-- `STREAM_LOST` (R192): After stream_miss_max missing entries the profile unit takes over and stops the axis. -/
  | streamLost (dt : Nat) (axis : Nat)
  /-- `SLOT_SAMPLE` (R420): At the timer mid-period the encoder is latched, the injected set is triggered and SSI requests start. -/
  | slotSample (slot : Nat)
  /-- `PWM_UPDATE_POINT` (R396): At an update point shadow values move into the active registers and the output source may change. -/
  | pwmUpdatePoint (timer : Nat)
  /-- `BOOT_REFRESH` (R401): After boot_refresh_periods at 100 % a refresh pulse is inserted at the boundary. -/
  | bootRefresh (dt : Nat) (pair : Nat)
  /-- `TRIP_INPUT` (R402): A low trip input sets its latch and forces mapped outputs to safe levels, faulting mapped axes. -/
  | tripInput (dt : Nat) (input : Nat) (low : Bool)
  /-- `ENC_INDEX_EVENT` (R428): An edge of Z; one at the low-count end of its pulse latches the count and time and may reset the count. -/
  | encIndexEvent (dt : Nat) (z : ZLevel)
  /-- `ENC_ILLEGAL_TRANSITION` (R425): A quadrature sample in which A and B change together is counted and may raise ENC_FAULT. -/
  | encIllegalTransition (dt : Nat) (ch : Nat)
  /-- `ENC_WIRE_FAULT` (R426): Both wires of a pair stay at one level for more than 100 ns, raising ENC_FAULT. -/
  | encWireFault (dt : Nat) (ch : Nat) (w : WirePair)
  /-- `DIN_RAW_EDGE` (R433): A general input edge is stamped and encoder counts are latched. -/
  | dinRawEdge (dt : Nat) (n : Nat) (level : Bool)
  /-- `PROBE_EDGE` (R434): A selected probe edge latches time and position into the queue or the single latch. -/
  | probeEdge (dt : Nat) (n : Nat) (rising : Bool)
  /-- `SSI_EXCHANGE_DONE` (R439): An SSI frame ends; it is checked, decoded, or re-requested once. -/
  | ssiExchangeDone (dt : Nat) (ch : Nat) (frame : Nat) (lowAtStart : Bool)
  /-- `ADC_TRIGGER` (R445): A trigger source starts a regular sequence or injected set run, or is missed. -/
  | adcTrigger (dt : Nat) (inj : Bool) (i : Nat)
  /-- `ADC_CONVERSION_DONE` (R443): A conversion result is corrected, flagged and written. -/
  | adcConversionDone (dt : Nat) (inj : Bool) (i : Nat) (code : Int)
  /-- `ADC_LIVE_CAL_START` (R452): At live_cal_interval the spare takes over a group and the freed core starts calibrating. -/
  | adcLiveCalStart (dt : Nat)
  /-- `ADC_LIVE_CAL_DONE` (R452): A core's 1.2 ms live calibration ends and its factors are judged. -/
  | adcLiveCalDone (dt : Nat) (f : CoreFactors)
  /-- `SIN_CHANGE` (R539): A safety input changes level; its pair may demand and its functions react. -/
  | sinChange (dt : Nat) (n : Nat) (on1 on2 : Bool)
  /-- `SIN_DISCREPANCY` (R539): One input of a pair is not followed within sin_discrepancy, giving a discrepancy fault. -/
  | sinDiscrepancy (dt : Nat) (pair : Nat)
  /-- `QUALIFIED_RESET` (R540): A falling edge on the reset input after a 50 ms to 5 s on level releases waiting functions. -/
  | qualifiedReset (dt : Nat)
  /-- `SS1_TIME_EXPIRY` (R541): At the end of ss1_time an SS1 function applies its STO and brake outputs. -/
  | ss1TimeExpiry (dt : Nat) (fn : Nat)
  /-- `SAFETY_VECTOR_EXCHANGE` (R534): Every 250 µs S1 and S2 exchange and compare their state vectors. -/
  | safetyVectorExchange (dt : Nat) (vectors : VectorRead)
  /-- `SAFETY_VECTOR_MISSING` (R534): No vector from the other channel within 500 µs counts as a cross-comparison failure. -/
  | safetyVectorMissing (dt : Nat)
  /-- `TEST_PULSE` (R546): An energized safety output is pulsed off and its readback checked. -/
  | testPulse (dt : Nat) (out : Nat) (readsOff : Bool)
  /-- `SAFE_MSG_TX` (R550): Every conn_period cycles the producer sends its message of each connection. -/
  | safeMsgTx (dt : Nat) (conn : Nat) (agree : Bool)
  /-- `SAFE_ECHO_RX` (R550): A node reply is checked and a valid echo advances the sequence. -/
  | safeEchoRx (dt : Nat) (conn : Nat) (msg : Bytes)
  /-- `SAFE_CONN_WATCHDOG_EXPIRY` (R551): No valid echo by last restart plus conn_wd; the connection stops, raises SAFE_CONN_LOST and restarts. -/
  | safeConnWatchdogExpiry (dt : Nat) (conn : Nat)
  /-- `CLOCK_MONITOR` (R25): The time clock deviates beyond ±1 % for more than 100 µs, a device fault that de-energizes safety outputs. -/
  | clockMonitor (reading : ClockReading)
  /-- `CLOCK_HALTED` (R413): The time clock runs again after a stop, raising a device fault and entering FAULT. -/
  | clockHalted (dt : Nat)
  /-- `MIRROR_TIME_FRAME_RX` (R572): A partner's time frame is received as heartbeat and time reference. -/
  | mirrorTimeFrameRx (dt : Nat) (frame : Bytes)
  /-- `MIRROR_STREAM_COMPLETE` (R574): A close frame checks, and the tailstock adopts and compares the mirrored state. -/
  | mirrorStreamComplete (dt : Nat) (st : MirrorStream)
  /-- `MIRROR_LOST` (R574): After mirror_loss_cycles with neither a stream nor a time frame, MIRROR_LOST is raised. -/
  | mirrorLost (dt : Nat)
  /-- `GRANT_RECORD_RX` (R581): A witness grant record updates the lease or moves the grip. -/
  | grantRecordRx (dt : Nat) (record : Bytes)
  /-- `REQUEST_BURST` (R582): A non-holder that saw no holder burst 1 by the gather deadline launches a request burst at the next tick. -/
  | requestBurst (dt : Nat)
  /-- `SYS_WATCHDOG_EXPIRY` (R20): The supervisor watchdog expires; the shavings record is committed and the device restarts in BOOT. -/
  | sysWatchdogExpiry (dt : Nat)
  /-- `HOST_WATCHDOG_EXPIRY` (R385): No heartbeat within host_wd_time; HOST_LOST is raised and SAFE_HOLD may be entered. -/
  | hostWatchdogExpiry (dt : Nat)
  /-- `RESET_N_ASSERT` (R652): RESET_N low idles the ports, de-energizes safety outputs and resets the device into BOOT. -/
  | resetNAssert (dt : Nat) (lowNs : Nat) (taken : Bool)
  /-- `RESET_RELEASE` (R653): With the main rails valid, RESET_N release samples the straps and starts BOOT. -/
  | resetRelease (dt : Nat) (hostSel : Bool) (pairSel : Nat)
  /-- `FIRMWARE_STARTED` (R657): An authenticated image runs; indices are cleared, mb_ready is set and the device enters CONFIG or FAULT. -/
  | firmwareStarted (dt : Nat) (b : BootResult)
  /-- `MAIN_RAILS_LOST` (R644): A rail monitor fires and the device enters STANDBY. -/
  | mainRailsLost (dt : Nat)
  /-- `POWER_FAIL` (R611): PFAIL_N or the detector freezes the shavings record and commits it before the rails drop. -/
  | powerFail (dt : Nat) (byPin : Bool)
  /-- `AON_SUPPLY_APPLIED` (R646): VAON_MAIN or VBAT is applied from OFF, the device enters STANDBY and PWR_EN is asserted. -/
  | aonSupplyApplied (dt : Nat) (main : Bool)
  /-- `AON_SUPPLY_LOST` (R646): Both always-on supplies are lost and the device is OFF. -/
  | aonSupplyLost (dt : Nat)
  /-- `AON_SUPPLY_SWITCH` (R646): The always-on domain switches between VAON_MAIN and VBAT without a glitch. -/
  | aonSupplySwitch (dt : Nat) (toMain : Bool)
  /-- `WAKE` (R648): WAKE_N low for 1 ms or the wake second reasserts PWR_EN. -/
  | wake (dt : Nat) (byPin : Bool)
  /-- `PCIE_LINK_RESET` (R350): A hot reset, PERST_N or link down resets the PCIe function only. -/
  | pcieLinkReset (dt : Nat) (linkUp : Bool)
  /-- `MAILBOX_COMMAND_START` (R364): The firmware takes the next request of a mailbox once a response entry is free. -/
  | mailboxCommandStart (dt : Nat) (mail : MailRead)
  /-- `NOTIFY_POST` (R368): A queued notification is posted to MB7 when room exists. -/
  | notifyPost (dt : Nat)
  /-- `MB_REQ_WRITE` (R363): A req_tail write rings the mailbox doorbell or is rejected with index_error. -/
  | mbReqWrite (dt : Nat) (mb : Nat) (tail : BitVec 16)
  /-- `MB_RSP_WRITE` (R363): An rsp_head write consumes responses or is rejected with index_error. -/
  | mbRspWrite (dt : Nat) (mb : Nat) (head : BitVec 16)
  /-- `MB_STAT_WRITE` (R361): A write of 1 clears index_error or notify_lost. -/
  | mbStatWrite (dt : Nat) (mb : Nat) (value : BitVec 32)
  /-- `TUN_RX_HEAD_WRITE` (R381): The host consumes received tunnel slots. -/
  | tunRxHeadWrite (dt : Nat) (ring : Nat) (head : BitVec 16)
  /-- `TUN_STAT_READ` (R361): Reading TUNr_STAT returns the reject and drop counts and clears them. -/
  | tunStatRead (dt : Nat) (ring : Nat)
  /-- `RESET_REQ` (R357): A DEV_CONTROL write with reset_req and key 0xA5C3 resets the device. -/
  | resetReq (dt : Nat) (value : BitVec 32)
  /-- `IRQ_MASTER` (R357): A DEV_CONTROL write sets or clears the interrupt master enable. -/
  | irqMaster (dt : Nat) (value : BitVec 32)
  /-- `HOST_HEARTBEAT` (R385): Any write services the host watchdog. -/
  | hostHeartbeat (dt : Nat) (value : BitVec 32)
  /-- `TIME_NS_READ` (R357): Reading TIME_NS latches the seconds for TIME_SEC_LO and TIME_SEC_HI. -/
  | timeNsRead (dt : Nat)
  /-- `EV_STATUS_WRITE` (R604): Writing 1 clears event status bits. -/
  | evStatusWrite (dt : Nat) (n : Nat) (value : BitVec 32)
  /-- `BAR2_WRITE` (R359): A host write into BAR2 is stored, or discarded in a read-only region with BAR2_WRITE_DENIED. -/
  | bar2Write (dt : Nat) (offset : Nat) (data : Bytes)
  /-- `REGISTER_WRITE` (R12): A write to a register with no behaviour of its own stores its RW fields. -/
  | registerWrite (dt : Nat) (place : HostPlace) (data : Bytes)
  /-- `MAIN_RAILS_VALID` (R644): All main rail monitors have seen their rails above threshold for 1 ms, and with RESET_N released and PWR_EN asserted the device leaves STANDBY for BOOT. -/
  | mainRailsValid (dt : Nat)
  /-- `BOOT_FAULT` (R658): The boot ROM ends its checks with no slot accepted or a strap conflict, reports boot_cause and stays in BOOT without serving mailboxes. -/
  | bootFault (dt : Nat) (cause : Nat)
  /-- `LAW_LOAD_DONE` (R345): The checks and the write of a law block into every engine in service end, and the pending LAW_LOAD is notified. -/
  | lawLoadDone (dt : Nat)
  /-- `FW_STAGE_COMMIT_DONE` (R660): The authentication or fuse operation of a pending FW_STAGE_COMMIT of a target ends and its notification is posted with the final status. -/
  | fwStageCommitDone (dt : Nat) (target : Nat)
  /-- `PAIR_IDENTITY_TIMEOUT` (R589): The 10 ms for the identity check of PAIR_JOIN pass without a matching partner, and PAIR_JOIN completes with PAIR_MISMATCH. -/
  | pairIdentityTimeout (dt : Nat)
  /-- `MIRROR_BULK_FRAME_RX` (R589): A bulk frame of the holder's state snapshot arrives on the mirror lane and is applied to the resyncing unit. -/
  | mirrorBulkFrameRx (dt : Nat) (items : List MirrorItem)
  /-- `FORWARDED_BURST_COPY` (R555): A holder's burst copy passes through the non-holder, which forwards it, writes its request, status and partner safety area with a CRC adjustment, and compares fresh slices with its own outputs. -/
  | forwardedBurstCopy (dt : Nat) (ring : Nat) (port : Port) (frame : Bytes)
  /-- `SYNC_CLK_EDGE` (R501): A follower stamps a SYNC_CLK edge, updates its median sync_offset and reaches or keeps sync_state locked. -/
  | syncClkEdge (dt : Nat)
  /-- `CAL_BUS_RETRY_WAIT` (R502): After a discarded round trip the random wait of 5 to 50 µs ends and the follower drives its next 200 ns bus pulse. -/
  | calBusRetryWait (dt : Nat) (waitNs : Nat)
  /-- `CAL_NO_ECHO_TIMEOUT` (R502): 100 ms pass without 16 kept round trips and CAL_BUS_MEASURE completes with CAL_NO_ECHO. -/
  | calNoEchoTimeout (dt : Nat)
  /-- `ENC_COUNT_EDGE` (R423): A filtered edge on an encoder A or B input changes the channel count under its counting mode. -/
  | encCountEdge (dt : Nat) (ch : Nat) (a b : Bool)
  /-- `PTP_LOST` (R474): A plant port leaves the SLAVE state; trim is held, slew ramps to 0, ptp_state becomes 4 and PTP_LOST is raised. -/
  | ptpLost (dt : Nat) (port : Nat) (portState : Nat)
  /-- `CYCLE_HW_FAULT` (R33): An internal check failure in a ring controller, the dispatcher or the tick generator raises a device fault and the device enters FAULT. -/
  | cycleHwFault (dt : Nat) (cause : Nat)
  /-- `DEBUG_RESUME` (R348): A debug request releases a halted loop engine or time clock so that it runs on. -/
  | debugResume (dt : Nat) (target : HaltTarget)
  /-- `OUTPUT_FAULT` (R546): A safety output readback shows on while de-energized or off while energized outside a pulse, latching the output off and putting its functions into demand. -/
  | outputFault (dt : Nat) (out : Nat) (cause : Nat)
  /-- `BOUNDARY_SCAN_INSTRUCTION` (R695): A JTAG instruction is loaded and takes effect, driving or sampling balls under EXTEST, CLAMP or SAMPLE/PRELOAD within its limits. -/
  | boundaryScanInstruction (dt : Nat) (instr : JtagInstr) (cells : List (Nat × Bool))
  deriving DecidableEq, Repr

end Sys2Proof
end

