-- ==== Sys2Proof/Config.lean ====
section
/-! DEFINITION. What the release and the part fix and the spec leaves open: the free values, each an opaque constant
without a body. No proof can see a value of one. The log entry is named at each. -/

namespace Sys2Proof.Config

/-- Engine words that are unspecified at task entry: output words and scratch words (R318, log 14). Applied to the
free-value counter of the state and the data address. -/
opaque freeWord : Nat → Nat → BitVec 24

/-- Where an output of a standard law falls inside the 2 LSB that R181 leaves open around the exact evaluation
(log 12): 0 to 4, standing for -2 to +2. Applied to the free-value counter and the number of the output word. -/
opaque lawJitter : Nat → Nat → Fin 5

/-- Output words of a standard law whose rule the manual does not give: the resonance watch of R347 (log 12). -/
opaque watchWord : Nat → Nat → BitVec 24

/-- Program words 0x0000 to 0x1FFF: the standard law library of the running firmware (R317, log 13). Applied to the patch
level and the word address. -/
opaque stdWord : Nat → Nat → BitVec 48

/-- load_addr of a standard law as the library of the running firmware defines it (R345, log 13). Applied to the patch
level and the law_id. -/
opaque stdLoadAddr : Nat → Nat → Nat
/-- word_count of a standard law (R345, log 13). -/
opaque stdWordCount : Nat → Nat → Nat
/-- Entry offset k of a standard law, 0xFFFF for unused (R345, log 13). -/
opaque stdEntry : Nat → Nat → Nat → Nat
/-- in_min of a standard law (R345, log 13). -/
opaque stdInMin : Nat → Nat → Nat
/-- st_min of a standard law (R345, log 13). -/
opaque stdStMin : Nat → Nat → Nat
/-- out_min of a standard law (R345, log 13). -/
opaque stdOutMin : Nat → Nat → Nat
/-- run_max of a standard law (R345, log 13). -/
opaque stdRunMax : Nat → Nat → Nat

/-- Nanoseconds, 0 to 400, from the last row of a calipers segment to the re-arm (R495, log 14). Applied to the free-value
counter of the state. -/
opaque rearmNs : Nat → Fin 401

/-- Whether the direction output of mode 5 is on for negative steps (R407; log 34). -/
opaque dirOnNegative : Bool

/-- Safety address of the node of a connection (R548): no parameter of the safety image holds it (log 26). Applied to the
number of the connection. -/
opaque nodeSafeAddr : Nat → Nat

/-- Length of the payload of a node service whose layout the node defines (R103, R114, log 29): kind 0 is the alias write of
NODE_ALIAS_SET, 1 the configuration at binding, 2 a loss count, 3 the change to operational, 4 an address assignment; the
second argument lists the values that the service carries. -/
opaque nodePayloadLen : Nat → List Nat → Fin 1537
/-- Byte of such a payload by kind, values and index (log 29). -/
opaque nodePayloadByte : Nat → List Nat → Nat → BitVec 8

/-- Clocks that the spill of a preempted context into the preemption area takes (R291; log 41). Applied to the free-value counter. -/
opaque spillClocks : Nat → Nat
/-- Bytes of a preemption area that a spill writes: where it begins in the region of R358, how many, and each of them; the layout of a
saved context is the dispatcher's own (R291; log 41). Applied to the free-value counter, the last one to the byte's place too. -/
opaque spillAt : Nat → Fin 294912
opaque spillLen : Nat → Fin 294912
opaque spillByte : Nat → Nat → BitVec 8

/-- The status, 0x8000 or above, of a command whose own read of MRAM, the capture SRAM or LPDDR4 fails lastingly (R606 kind 6; log 36): the
catalogue has none for it. Applied to the code of the command. -/
opaque eccStatus : Nat → Fin 32768

/-- What a signed field of so many bits holds where the quantity that it reports lies beyond the field (log 24). Applied to the width
and the quantity. -/
opaque beyondField : Nat → Int → Nat

/-- Hash of a public key that the part is fused with (R657, log 18). Applied to the index of the key. -/
opaque keyHash : Nat → List (BitVec 8)

end Sys2Proof.Config
end

