-- ==== Sys2Proof/Machine/State.lean ====
section
/-! DEFINITION. The state of the block as plain data: every register, memory, queue, counter, mode and pin that the spec
gives it, in structures of one unit each, with its value at reset as the default of its field. Reset values that the spec
does not give are named in log entries 4 to 8, 14 to 16 and 19. Instants are device time in units of 2^-32 ns (log 10),
stamps are device time in whole ns, positions and their derivatives are in units of 2^-48 turn (R237). -/

namespace Sys2Proof.Machine

/-- The three parts of R3. -/
inductive Variant where
  | ck1280
  | ck1264
  | ck1232
  deriving DecidableEq, Repr

/-- Device states of R28. -/
inductive DevMode where
  | off
  | standby
  | boot
  | config
  | preop
  | operational
  | safeHold
  | fault
  deriving DecidableEq, Repr

/-- What a part and its board fix: variant (log 4), serial number, usable LPDDR4 capacity in MB, straps (log 7). -/
structure Board where
  variant : Variant := .ck1280
  serial : Nat := 0x1F4E4B8000000001
  lpddrMb : Nat := 3584
  qspi : Bool := false
  pairSel : Nat := 0
  /-- Fuses: the SHA-256 hashes of the four public keys, and their revocation bits (R657; log 18). -/
  keyHashes : Table Bytes := [(0, Config.keyHash 0), (1, Config.keyHash 1), (2, Config.keyHash 2), (3, Config.keyHash 3)]
  revoked : Nat := 0
  deriving DecidableEq, Repr

/-- A command that completed with 0x0001 and has not been notified (R29, R366, R368): its code, mailbox and tag, and
the number of the thing it acts on (an axis, a ring, a node, a DMA channel, a domain; else 0). -/
structure PendCmd where
  code : Nat
  mb : Nat
  tag : Nat
  key : Nat := 0
  deriving DecidableEq, Repr

/-- Device state and what belongs to it (R28 to R37, R355, R357). -/
structure Dev where
  mode : DevMode := .boot
  /-- State held before SAFE_HOLD (R29); read in SAFE_HOLD only (log 5). -/
  held : DevMode := .preop
  /-- FAULT entered from BOOT or CONFIG, without a cycle (R28). -/
  faultNoCycle : Bool := false
  /-- CYCLE_HW_FAULT causes that are active: 1 ring A, 2 ring B, 3 dispatcher, 4 tick generator (R33, R600). -/
  hwFaults : List Nat := []
  bootCause : Nat := 0
  mbReady : Bool := false
  fwRunning : Bool := false
  fwPatch : Nat := 0
  traceable : Bool := false
  irqMaster : Bool := false
  beat : BitVec 32 := 0
  secLatch : Nat := 0
  qspiWindow : BitVec 8 := 0
  /-- Host watchdog (R385): last service while it runs. -/
  hostWd : Option Nat := none
  /-- The clock deviates from the S2 oscillator (R25, R30). -/
  clockOff : Bool := false
  /-- A power fail has come and the supply is not back (R30, R611). -/
  powerFailing : Bool := false
  /-- SYS_RESET was accepted: the reset follows its response (R672). -/
  resetAsked : Bool := false
  /-- SYS_PREOP waits for the axes to stop (R29). -/
  preopPending : Bool := false
  deriving DecidableEq, Repr

/-- A row of the mailbox and tunnel registers (R361). -/
structure RingRegs where
  reqTail : BitVec 16 := 0
  reqHead : BitVec 16 := 0
  rspHead : BitVec 16 := 0
  rspTail : BitVec 16 := 0
  ctrl : BitVec 7 := 0
  indexError : Bool := false
  notifyLost : Bool := false
  /-- TUNr_STAT counts (R361). -/
  txRejected : Nat := 0
  rxDropped : Nat := 0
  deriving DecidableEq, Repr

/-- A request that the firmware has taken and not answered (R364, R366): code, tag, declared length and payload. -/
structure Running where
  code : Nat
  tag : Nat
  len : Nat
  payload : Bytes
  deriving DecidableEq, Repr

/-- A notification that waits for MB7 (R368). -/
structure Notice where
  code : Nat
  tag : Nat
  status : Nat
  payload : Bytes
  stamp : Nat
  deriving DecidableEq, Repr

/-- One entry of the mailbox ring of the shavings record (R608): a request as posted and its response, with the stamp
of posting. -/
structure MbRecord where
  mb : Nat
  tag : Nat
  at_ : Nat
  request : Bytes
  response : Option Bytes
  deriving DecidableEq, Repr

/-- What the host programs in the configuration space of the PCIe function (R349, R350): the command register, the bases of
BAR0 and of BAR2 with BAR3, the payload and read request sizes in bytes, and the registers of Advanced Error Reporting by
index. The reset values are those of PCIe (PRESUMED, log 47). -/
structure PciCfg where
  command : BitVec 16 := 0
  bar0 : BitVec 32 := 0
  bar2 : BitVec 64 := 0
  maxPayload : Nat := 128
  maxReadReq : Nat := 512
  aer : Table (BitVec 32) := []
  deriving DecidableEq, Repr

/-- The host interface (R349 to R391). -/
structure HostIf where
  mbs : Table RingRegs := []
  tuns : Table RingRegs := []
  running : Table Running := []
  notices : List Notice := []
  /-- Last completion stamp (R669), in ns of device time. -/
  lastStamp : Option Nat := none
  /-- EV_STATUS and EV_ENABLE as 256-bit words, EV_ROUTE bytes that are not 0 (R354, R382, R604). -/
  evStatus : BitVec 256 := 0
  /-- Sources raised while enabled at the last instant at which one was, and that instant (R604; log 46). -/
  evNew : BitVec 256 := 0
  evNewAt : Nat := 0
  /-- Host writes into read-only regions of BAR2 (R359). -/
  deniedWrites : Nat := 0
  evEnable : BitVec 256 := 0
  evRoute : Table (BitVec 8) := []
  /-- MSI-X table bytes at their reset values where unlisted (R349; log 8), pending bits, messages sent. -/
  msixTable : List Host.Cell := []
  msixPending : BitVec 32 := 0
  msixSent : List Nat := []
  linkUp : Bool := false
  pci : PciCfg := {}
  /-- What the quad-SPI target drove in the data phase of the last transaction, one value a clock (R352). -/
  qspiOut : List (BitVec 4) := []
  /-- Mailboxes 1 to 6 that have had their command in the present round (R366). -/
  turn : List Nat := []
  /-- Output snapshot for the next tick (R379): tick number and the 8,192 bytes taken. -/
  snapTick : Option Nat := none
  snapshot : List Host.Cell := []
  deriving DecidableEq, Repr

/-- A parameter write that has not taken effect (R15): its completion stamp, key and raw value. -/
structure WaitingWrite where
  stamp : Nat
  key : Nat
  value : Int
  deriving DecidableEq, Repr

/-- The parameter store (R14, R15, R373). A key is object × 65,536 + sub-index × 256 + instance. `written` holds the
values last written, `active` the values in force where they differ from the default, `waiting` the writes that wait for
a tick in the order of their stamps. -/
structure Params where
  written : Table Int := []
  active : Table Int := []
  waiting : List WaitingWrite := []
  deriving DecidableEq, Repr

/-- The refusal payload of R71. -/
structure Refused where
  step : Nat
  kind : Nat := 0
  item : Nat := 0
  faultCase : Nat := 0
  faultIndex : Nat := 0
  residue : Nat := 0
  ring : Nat := 0xFF
  required : Nat := 0
  available : Nat := 0
  deriving DecidableEq, Repr

/-- Standby buffer states of R703. -/
inductive Standby where
  | empty
  | unverified
  | verifying
  | verified
  | armed
  deriving DecidableEq, Repr

/-- The two plan buffers and the verification in progress (R58, R66, R72 to R76, R703). Buffers are lists of bytes
without the zero bytes. -/
structure PlanSt where
  active : Option (List Host.Cell) := none
  standby : List Host.Cell := []
  standbySt : Standby := .empty
  /-- Verification in progress: the switch tick the command named (R66, R74). -/
  verifying : Option Nat := none
  /-- The mailbox whose PLAN_COMMIT verifies and has no response yet (R72). -/
  verifyMb : Nat := 0
  armed : Option Nat := none
  /-- Derating with which the active plan was verified (R66). -/
  verifiedAt : Nat := 0
  /-- Budget use in 0.01 % (R69). -/
  budgetUse : Nat := 0
  marginLow : Bool := false
  deriving DecidableEq, Repr

/-- A burst of the cycle on one ring (R49): its launch instant, its end of frame, its frame bytes. -/
structure Burst where
  k : Nat
  at_ : Nat
  ends : Nat
  frame : Bytes
  deriving DecidableEq, Repr

/-- State of a task within a cycle (R50 to R57, R284, R299). -/
inductive TaskPhase where
  | waiting
  | ready
  | service
  | complete
  | committed
  | failed
  | overrun
  | cancelled
  deriving DecidableEq, Repr

/-- A task in the present cycle: its phase, when it became ready, when its first instruction ran, when it completed,
when its output committed, its results in the commit buffer (state and output words, ES), re-run and overrun marks. -/
structure TaskSt where
  phase : TaskPhase := .waiting
  readyAt : Nat := 0
  startAt : Nat := 0
  doneAt : Nat := 0
  commitAt : Nat := 0
  results : List W24 := []
  es : BitVec 8 := 0
  rerun : Bool := false
  /-- Class of the fault that the re-run follows: 0 none, 1 law fault, 2 engine fault; and its code. -/
  faultKind : Nat := 0
  faultCode : Nat := 0
  /-- Engine on which the re-run after a law fault runs (R299). -/
  rerunOn : Option Nat := none
  /-- Engine on which the law fault occurred (R299). -/
  faultOn : Nat := 0
  /-- Start of the present stretch in the active slot, and instruction clocks of the stretches before it (R292). -/
  resumeAt : Nat := 0
  used : Nat := 0
  /-- The context is saved at a preemption (R291). -/
  preempted : Bool := false
  /-- The voltage was limited (R225). -/
  volt : Bool := false
  deriving DecidableEq, Repr

/-- What a task carries from cycle to cycle. -/
structure TaskLong where
  /-- Not dispatched again until the next plan switch (R299). -/
  parked : Bool := false
  /-- The firmware has zeroed the state block since the task last committed (R339; log 5). -/
  zeroed : Bool := true
  /-- The axis of the task was captured since the task last committed: its next run begins from states of 0 (R200, R206). -/
  capture : Bool := false
  /-- State words of a standard law as last committed, whose layout in the state block is internal to the library (R181; log 22). -/
  std : List W24 := []
  deriving DecidableEq, Repr

/-- A bundle in the present cycle, and its run of failed cycles (R51, R56). -/
structure BundleSt where
  commitAt : Option Nat := none
  failed : Bool := false
  misses : Nat := 0
  raised : Bool := false
  deriving DecidableEq, Repr

/-- The cycle (R41 to R57, R76). -/
structure Cyc where
  running : Bool := false
  rate : Nat := 0
  tick : Nat := 0
  t0 : Nat := 0
  /-- Scheduled first tick of CYCLE_START (R76). -/
  first : Option Nat := none
  /-- Cycles since CYCLE_FIRST_TICK, for the rules that look one cycle back. -/
  count : Nat := 0
  bursts : Table (List Burst) := []
  tasks : Table TaskSt := []
  long : Table TaskLong := []
  bundles : Table BundleSt := []
  published : Bool := false
  /-- The cycle that ends at the coming tick was closed by the plan switch already (R57, R74). -/
  closed : Bool := false
  deriving DecidableEq, Repr

/-- Up frame of a node as taken in a cycle (R93, R98). -/
structure UpFrame where
  nodeState : Nat
  alias_ : Nat
  status : Nat
  epochSeen : Nat
  holderSeen : Nat
  lostCycles : Nat
  arrivalQw : Nat
  arrivalPw : Nat
  sample : Int
  apply_ : Int
  applyTag : Nat
  residual : Int
  slices : Bytes
  deriving DecidableEq, Repr

/-- What service 0x05 tells a node (R103, R121, R133, R149, R224): the loss count, the period and the slot time, the initial delays
towards ports P and Q, extrap_cycles, the slices of its axes, and for each central-current axis its number, trip level, stop action
and delay. -/
structure NodeConfig where
  lossCount : Nat
  period : Nat
  slotTime : Nat
  delayP : Nat
  delayQ : Nat
  extrapCycles : Nat
  slices : List (List Nat)
  central : List (List Int)
  deriving DecidableEq, Repr

/-- An acyclic service in flight at a node (R102 to R106). -/
structure Acyclic where
  service : Nat
  seq : Nat
  payload : Bytes
  serial : Nat := 0
  /-- Address that service 0x04 assigns; 0 for the other services. -/
  addr : Nat := 0
  /-- Code of the command that asked for the service; 0 for the firmware's own. -/
  cmd : Nat := 0
  /-- What a configuration by service 0x05 says. -/
  config : Option NodeConfig := none
  resent : Bool := false
  /-- Cycle in which the request left; none while it waits for the acyclic window. -/
  sentIn : Option Nat := none
  deriving DecidableEq, Repr

/-- A node of a ring at its position (R113 to R121, R138 to R144). -/
structure Node where
  record : Bytes := []
  address : Nat := 0
  /-- Plan entry to which the node is bound. -/
  bound : Bool := false
  /-- Hot-joined and waiting for NODE_ENABLE (R119). -/
  joined : Bool := false
  alias_ : Nat := 0
  state : Nat := 0
  up : Option UpFrame := none
  prevUp : Option UpFrame := none
  /-- The last up frame taken since the node was bound (R377). -/
  lastUp : Option UpFrame := none
  /-- First sample stamp that the node reported since it was bound, in 1/16 ns (R185). -/
  firstSample : Option Int := none
  missed : Nat := 0
  lost : Bool := false
  seq : Nat := 0
  /-- Acyclic services to the node, oldest first; the first is in flight, the others wait (R102 to R106). -/
  services : List Acyclic := []
  crcP : Nat := 0
  crcQ : Nat := 0
  resends : Nat := 0
  /-- Last 64 values of theta in 1/16 ns, newest first, and its median (R142). -/
  thetas : List Int := []
  clockOffset : Int := 0
  clockRange : Bool := false
  locked : Bool := false
  deriving DecidableEq, Repr

/-- An acyclic frame that waits for the acyclic window (R47, R104). -/
structure WaitingFrame where
  port : Port
  frame : Bytes
  deriving DecidableEq, Repr

/-- Enumeration in progress (R114). -/
structure Enum where
  /-- The first frame waits for the end of the truing pass (R626). -/
  waits : Bool := false
  second : Bool := false
  sentAt : Nat := 0
  /-- Records of the first pass, in order from port P. -/
  records : List Bytes := []
  done : Bool := false
  deriving DecidableEq, Repr

/-- One Ethernet frame of the tunnel (R107). -/
structure TunFrame where
  address : Nat
  bytes : Bytes
  deriving DecidableEq, Repr

/-- One ring (R77 to R128, R138 to R142). Nodes are held by position, from 1. -/
structure Ring where
  nodes : Table Node := []
  enum : Option Enum := none
  mismatch : Bool := false
  aliasConflict : Bool := false
  breakHop : Option Nat := none
  breakDir : BreakDir := .both
  /-- Further broken hops with their directions (R108, R110). -/
  breakHop2 : Table BreakDir := []
  /-- Hops whose break up frames of this cycle have shown and RING_BREAK has not reported yet (R108). -/
  breakNew : List Nat := []
  closures : Nat := 0
  /-- Closures of this cycle by direction (R99), those of the cycle before, and the count of `closures` that the cycle before found. -/
  closeQ : Bool := false
  closeP : Bool := false
  wasQ : Bool := false
  wasP : Bool := false
  heldClosures : Nat := 0
  closedQw : Option Nat := none
  closedPw : Option Nat := none
  /-- Closures of the cycle before (R138 pairs the stamps of cycle N with the up frames of cycle N + 1). -/
  prevLoop : Option Nat := none
  closedReported : Bool := true
  calNode : Nat := 0
  tunnelOpen : Bool := false
  tunTx : List TunFrame := []
  tunRx : List TunFrame := []
  waiting : List WaitingFrame := []
  /-- Acyclic frames sent in this window and when the ports become free, P and Q. -/
  freeP : Nat := 0
  freeQ : Nat := 0
  sent : List WaitingFrame := []
  depP : Nat := 0
  depQ : Nat := 0
  prevDepP : Nat := 0
  prevDepQ : Nat := 0
  /-- Per hop: last 64 values in 1/16 ns, newest first; medians; HOP_OVER_PLAN found (R139 to R141). -/
  hops : Table (List Int) := []
  hopMedians : Table Int := []
  hopOver : List Nat := []
  /-- The gather deadline of this cycle has passed (R98). -/
  gathered : Bool := false
  /-- The enumeration window of R118 is open in this cycle; it was open in the cycle before (R128). -/
  window : Bool := false
  windowWas : Bool := false
  deriving DecidableEq, Repr

/-- A segment of constant jerk (R237): start instant, duration, state at the start and jerk. -/
structure Seg where
  t : Nat
  dur : Nat
  x : Int
  v : Int
  a : Int
  j : Int
  deriving DecidableEq, Repr

/-- Position, velocity, acceleration and jerk of a profile at the last tick (R237). -/
structure Kin where
  x : Int := 0
  v : Int := 0
  a : Int := 0
  j : Int := 0
  deriving DecidableEq, Repr

/-- Limits of a move (R240), units of 2^-48. -/
structure Limits where
  v : Int := 0
  a : Int := 0
  d : Int := 0
  j : Int := 0
  deriving DecidableEq, Repr

/-- Profile states of 0x4250.01 (R274). -/
inductive ProfState where
  | idle
  | moving
  | stopping
  | held
  | homing
  | group
  deriving DecidableEq, Repr

/-- A move: its target and its distance as resolved when it was accepted (R248), whether it is relative, and the dir
field of R245. -/
structure QMove where
  target : Int
  delta : Int
  rel : Bool := false
  dir : Nat := 0
  deriving DecidableEq, Repr

/-- A group move: the path limits, per member its target and its distance (R261). -/
structure GMove where
  lim : Limits
  targets : List Int
  deltas : List Int
  rel : Bool := false
  dir : Nat := 0
  deriving DecidableEq, Repr

/-- A motion command or limit write that was accepted and takes effect at the next tick (R247, R706). -/
inductive MotionCmd where
  | move (m : QMove)
  | stop
  | hold
  | resume
  | home
  | limits (l : Limits)
  /-- Writes of move limits of an axis with one stamp: parameter and value (R253). -/
  | axisLimits (w : List (Nat × Int))
  | groupMove (g : GMove)
  deriving DecidableEq, Repr

/-- A motion command with its completion stamp. -/
structure WaitingMotion where
  stamp : Nat
  cmd : MotionCmd
  deriving DecidableEq, Repr

/-- Phases of a homing (R264 to R268). -/
inductive HomePhase where
  | backOff
  | backStop
  | search
  | creepDown
  | creep
  | stopFound
  | stopReverse
  | stopFail (status : Nat)
  deriving DecidableEq, Repr

/-- A running homing with the parameter values in force at HOME (R264 to R270). -/
structure Homing where
  mode : Nat
  dirNeg : Bool
  phase : HomePhase
  reversed : Bool := false
  legStart : Int
  edges : Nat := 0
  found : Option Int := none
  /-- The tick in which a limit was last qualified active (R279). -/
  limitTick : Option Nat := none
  /-- The tick in which the reference was found (R279). -/
  foundTick : Option Nat := none
  /-- Instant of the reference edge, whose position samples still to come may enclose (R250). -/
  foundEdge : Option Nat := none
  /-- The tick of the last counted edge, and the count before that tick (R279). -/
  edgeTick : Nat × Nat := (0, 0)
  vel : Int
  creep : Int
  acc : Int
  dec : Int
  jerk : Int
  offset : Int
  chatterMax : Nat
  distMax : Int
  deriving DecidableEq, Repr

/-- Steps of the enable and disable sequences (R200, R201). -/
inductive EnPhase where
  | disabled
  /-- Accepted; waits for the tick of cycle E + 1, or after a local stop of E + 2. -/
  | accepted (stamp : Nat) (release : Bool)
  /-- Captured; power stage enable set; waits for drive_status bit 0. -/
  | powering (since : Nat)
  /-- Brake release set; the brake timer runs. -/
  | braking (since : Nat)
  | enabled
  /-- Stopping on a ramp before the disable. -/
  | stopping
  /-- At standstill, brake released no more, held for brake_engage. -/
  | holding (since : Nat)
  deriving DecidableEq, Repr

/-- One valid feedback sample: position in user turns (2^-48), raw feedback turns (2^-24), instant. -/
structure Sample where
  x : Int
  raw : Int
  at_ : Nat
  deriving DecidableEq, Repr

/-- Gearing of an axis (R193 to R195, R205): the ratio exact or with 32 fraction bits, its rate, the ramp. -/
structure Gear where
  num : Int := 0
  den : Nat := 1
  /-- Ratio in units of 2^-32 and its rate in 2^-32 per s at the last tick. -/
  r : Int := 0
  rdot : Int := 0
  /-- The exact ratio holds in this cycle (R194): no ramp was in force at its tick. -/
  exact : Bool := true
  ramping : Bool := false
  /-- Ramp segments in the form of a profile over r: x is r, v is its rate, a is the rate of the rate. -/
  segs : List Seg := []
  toNum : Int := 0
  toDen : Nat := 1
  disengaging : Bool := false
  rem : Int := 0
  lastMaster : Option Int := none
  vm : Int := 0
  /-- Cycles for which an analogue master input was invalid (R196). -/
  badMaster : Nat := 0
  /-- Master of kind 3 (analogue velocity): its integrated position, 2^-48 turn. -/
  anPos : Int := 0
  /-- Tick number of the cycle in which the master was last evaluated (R193). -/
  doneIn : Option Nat := none
  deriving DecidableEq, Repr

/-- Committed outputs of an axis (R53, R168, R169, R217, R342): the words of the output block of each of its tasks as last
committed and the diagnostics they carry. -/
structure AxisOut where
  torque : Int := 0
  posCmd : Int := 0
  velCmd : Int := 0
  torqueFf : Int := 0
  duty : List Int := []
  uAlpha : Int := 0
  uBeta : Int := 0
  dtheta : Int := 0
  control : Nat := 0
  /-- Stamp of the commit in this cycle, none while it has not come. -/
  commitAt : Option Nat := none
  /-- Stamp of the valid sample of the cycle of that commit (R185). -/
  smpAt : Option Nat := none
  failed : Bool := false
  deriving DecidableEq, Repr

/-- Stepper coils of a mode-6 axis (R271, R272). -/
inductive Coil where
  | running
  | holdCurrent
  | off
  | shorted
  deriving DecidableEq, Repr

/-- A switch input of an axis (R250): raw level, instant and position of the raw edge, qualified level. -/
structure SwitchSt where
  raw : Bool := false
  edgeAt : Nat := 0
  edgePos : Int := 0
  qualified : Bool := false
  deriving DecidableEq, Repr

/-- One axis (R164 to R208, R209 to R236, R237 to R278). -/
structure Axis where
  phase : EnPhase := .disabled
  /-- Node or stage asked to clear its enables at the next fresh slice. -/
  control : Nat := 0
  axisEnabled : Bool := false
  source : Nat := 0
  kin : Kin := {}
  prof : ProfState := .idle
  segs : List Seg := []
  target : Int := 0
  lim : Limits := {}
  finalD : Int := 0
  finalJ : Int := 0
  queue : List QMove := []
  remaining : Int := 0
  /-- A stop in progress keeps the remaining distance (R255). -/
  keep : Bool := false
  /-- The stop follows the move in force to its target (R255). -/
  toTarget : Bool := false
  waiting : List WaitingMotion := []
  /-- Tick, in ns, at which a completed move left the axis idle (R277). -/
  idleAt : Option Nat := none
  homing : Option Homing := none
  homed : Bool := false
  homeRef : Int := 0
  homeEdges : Nat := 0
  /-- User position less raw position after a homing shift (R268), and the remainders of R166. -/
  shift : Int := 0
  rawUser : Int := 0
  fbRem : Int := 0
  lastRaw : Option Int := none
  cmdUnwrapped : Int := 0
  cmdLastX : Int := 0
  fb : Option Sample := none
  fbPrev : Option Sample := none
  xfb : Int := 0
  vfb : Int := 0
  fbValid : Bool := false
  /-- Sample of the present cycle was taken or marked invalid (R284). -/
  fbThisCycle : Bool := false
  /-- The valid sample of the present cycle: reading in its own unit and sample stamp. -/
  sample : Option (Int × Nat) := none
  invalidRun : Nat := 0
  feCycles : Nat := 0
  feValue : Int := 0
  delayMeas : Nat := 0
  delayUsed : Nat := 0
  delayMax : Nat := 0
  delayKnown : Bool := false
  delayDiscarded : Nat := 0
  saturations : Nat := 0
  fbInvalid : Nat := 0
  dclink : Nat := 0
  /-- V_dc as last valid, and the DC-link factor that it gave, as a numerator and a divisor (R180). -/
  vdc : Option Nat := none
  dcFac : Int × Nat := (1, 1)
  driveStatus : Nat := 0
  sto : Bool := false
  currents : List Int := []
  /-- Local axis in mode 4: the position of this cycle, none where it is invalid, and whether the currents are valid (R422). -/
  posPart : Option (Option (Int × Nat)) := none
  curPart : Option Bool := none
  out : AxisOut := {}
  gear : Gear := {}
  streamMisses : Nat := 0
  streamRun : Nat := 0
  /-- The stream miss count as the last committed cycle left it (R206). -/
  streamKept : Nat := 0
  /-- The miss total of the last committed cycle (R206). -/
  missesKept : Nat := 0
  /-- Consecutive missed outputs (R56) and whether the fault of this run was raised. -/
  outMisses : Nat := 0
  outRaised : Bool := false
  /-- Consecutive failures of the cascade task of modes 3 and 4 (R230), and the fault raised for them. -/
  cascMisses : Nat := 0
  cascRaised : Bool := false
  faults : List Nat := []
  /-- Diagnostics as the tasks last committed them, by sub-index of 0x4140 and 0x4154. -/
  diag40 : Table Int := []
  diag54 : Table Int := []
  voltLimited : Nat := 0
  applyMissed : Nat := 0
  limPos : SwitchSt := {}
  limNeg : SwitchSt := {}
  homeSw : SwitchSt := {}
  coil : Coil := .off
  attended : Bool := true
  stillSince : Option Nat := none
  wake : Option Nat := none
  wakeMove : Option QMove := none
  stopRequest : Bool := false
  applyStamp : Option Nat := none
  /-- Stamp of the sample of the cycle whose compares that update point took (R185). -/
  applySmp : Option Nat := none
  /-- Tick number of the cycle in which the last fresh slice left (R48, R233). -/
  freshIn : Option Nat := none
  /-- Tick number of the capture cycle (R200, R341). -/
  captureAt : Option Nat := none
  /-- slice_flags and torque_act of the last good up slice (R95, R170). -/
  sliceFlags : Nat := 0
  torqueAct : Int := 0
  deriving DecidableEq, Repr

/-- One interpolation group (R258 to R263). -/
structure Group where
  members : List Nat := []
  prof : ProfState := .idle
  starts : List Int := []
  move : Option GMove := none
  dom : Nat := 0
  len : Int := 0
  kin : Kin := {}
  segs : List Seg := []
  finalD : Int := 0
  finalJ : Int := 0
  queue : List GMove := []
  remaining : Int := 0
  keep : Bool := false
  /-- The stop follows the move in force to its target (R255). -/
  toTarget : Bool := false
  waiting : List WaitingMotion := []
  idleAt : Option Nat := none
  faults : List Nat := []
  /-- Tick from which coils of members are driven before the path begins (R272). -/
  wake : Option Nat := none
  deriving DecidableEq, Repr

/-- A flow of the active plan (R286, R297, R302). -/
structure Flow where
  engine : Option Nat := none
  epoch : Nat := 0
  drainTo : Option Nat := none
  service : Option Nat := none
  /-- A FLOW_PLACE holds the flow away from its home (R303). -/
  placed : Bool := false
  /-- No task of the flow starts before: a task ended at its next permitted point runs until then (R57). -/
  freeAt : Nat := 0
  bins : Table Nat := []
  waitMax : Nat := 0
  deriving DecidableEq, Repr

/-- Registers of a loop engine (R315, R316); the lists hold X0 to X15, A0 to A3, P0 to P7, M0 to M7, L0 to L7. -/
structure ERegs where
  x : List W24 := List.replicate 16 0
  a : List W56 := List.replicate 4 0
  p : List (BitVec 16) := List.replicate 8 0
  m : List (BitVec 16) := List.replicate 8 0
  l : List (BitVec 14) := List.replicate 8 0
  lc : BitVec 17 := 0
  ix : BitVec 17 := 0
  bx : BitVec 7 := 47
  es : BitVec 8 := 0
  stack : List (BitVec 14) := []
  deriving DecidableEq, Repr

/-- A load on its way (R334, R335): it lands at the end of the next instruction. -/
inductive Landing where
  | x (r : Nat) (v : W24)
  | lower (a : Nat) (v : W24)
  | upper (a : Nat) (v : W24)
  deriving DecidableEq, Repr

/-- Execution state of a loop engine (R317, R333 to R338, R343, R348). -/
structure ECore where
  regs : ERegs := {}
  /-- Accumulators as stores and branch conditions see them (R334). -/
  aOld : List W56 := List.replicate 4 0
  /-- N, Z, G as branch conditions see them. -/
  nzgOld : BitVec 8 := 0
  landing : List Landing := []
  pc : Nat := 0
  /-- Pending branch: its target if taken and the delay slots left. -/
  branch : Option (Option Nat × Nat) := none
  /-- Repeat in progress: repetitions in all and done. -/
  rep : Option (Nat × Nat) := none
  halted : Bool := false
  haltAsked : Bool := false
  fault : Option (Nat × Nat) := none
  done : Bool := false
  clocks : Nat := 0
  /-- The run since the last permitted point (R293). -/
  run : Nat := 0
  /-- Data memory of the bank in use: words that were written or copied in. -/
  data : Table W24 := []
  inLen : Nat := 0
  stLen : Nat := 0
  outLen : Nat := 0
  /-- Number of the free values of this task's unspecified words (R318, log 14). -/
  freeNo : Nat := 0
  deriving DecidableEq, Repr

/-- Engine states of R305. -/
inductive EngState where
  | inService
  | underTest
  | lost
  deriving DecidableEq, Repr

/-- What a standard law gives: output words, stored words, saturation, and a voltage that was limited (R181, R220). -/
structure LawRes where
  outs : List W24 := []
  std : List W24 := []
  sat : Bool := false
  volt : Bool := false
  deriving DecidableEq, Repr

/-- A task preempted on an engine, with its context and the instant at which its spill ends (R291). -/
structure Saved where
  task : Nat
  epoch : Nat
  core : ECore
  law : LawRes := {}
  spilt : Nat := 0
  deriving DecidableEq, Repr

/-- A prefetched candidate that another one displaced: the task, the instants at which its copy was complete and at which it was displaced,
and its bank (R287, R308). -/
structure Displaced where
  task : Nat
  ready : Nat
  at_ : Nat
  core : ECore := {}
  law : LawRes := {}
  deriving DecidableEq, Repr

/-- One loop engine with the dispatcher's part of it (R286 to R305). -/
structure Engine where
  state : EngState := .inService
  core : ECore := {}
  /-- What the standard law of the task in the active slot gives. -/
  law : LawRes := {}
  active : Option Nat := none
  epoch : Nat := 0
  /-- The active slot has been empty since. -/
  freeAt : Nat := 0
  /-- Candidate prefetched into the next slot, the instant its copy is complete, and its bank (R287, R318). -/
  next : Option Nat := none
  nextReady : Nat := 0
  nextCore : ECore := {}
  nextLaw : LawRes := {}
  /-- Candidates displaced since the last switch, oldest first (R308). -/
  displaced : List Displaced := []
  chain : List Saved := []
  /-- An engine fault came while a test ran (R300). -/
  testBad : Bool := false
  /-- The test passed: the flows of the engine return at the next tick (R300). -/
  returning : Bool := false
  busyNow : Nat := 0
  busyLast : Nat := 0
  busyMax : Nat := 0
  busyHist : List Nat := []
  overruns : Nat := 0
  lawFaults : Nat := 0
  engFaults : Nat := 0
  preemptions : Nat := 0
  deriving DecidableEq, Repr

/-- Statistics of a priority level (R306). -/
structure LevelStat where
  depthMax : Nat := 0
  dispatched : Nat := 0
  deriving DecidableEq, Repr

/-- What DISPATCH_... commands return: a copy taken at a tick (R304). -/
structure DispSnap where
  engines : Table Bytes := []
  levels : Bytes := []
  flows : Table Bytes := []
  deriving DecidableEq, Repr

/-- A loaded user law block (R344, R345). -/
structure LawBlock where
  lawId : Nat
  loadAddr : Nat
  wordCount : Nat
  inMin : Nat
  stMin : Nat
  outMin : Nat
  runMax : Nat
  entries : List Nat
  deriving DecidableEq, Repr

/-- Dispatcher and engines (R282 to R348). -/
structure Disp where
  engines : Table Engine := []
  flows : Table Flow := []
  /-- Ready lists by level: task-table indexes in order (R285). -/
  ready : Table (List Nat) := []
  levels : Table LevelStat := []
  snap : DispSnap := {}
  /-- Program memory, one image for every engine (R317). -/
  prog : Table (BitVec 48) := []
  blocks : List LawBlock := []
  staged : Bytes := []
  /-- Images whose last segment has come, oldest first; true where an unload of the same law_id came meanwhile (R682). -/
  loading : List (Bytes × Bool) := []
  /-- A LAW_TEST that a debug halt holds: engine, mailbox, window base, clock limit (R348). -/
  test : Option (Nat × Nat × Nat × Nat) := none
  /-- Coefficient words that wait for the next tick (R345): stamp, byte address, words. -/
  coefs : List (Nat × Nat × List W24) := []
  deriving DecidableEq, Repr

/-- One pair of a PWM timer (R395 to R401): the source of R400 that it follows, a refresh pulse, complete carrier periods at
100 %, the dead times in force, and the dead-time count of R397: the ideal level of H, the instant at which the switch that it
names turns on, a turn-on that was cancelled, the last turn-off of each switch, and how far the edges have been taken. -/
structure PwmPair where
  source : Nat := 4
  refreshAt : Nat := 0
  refreshEnd : Option Nat := none
  fullPeriods : Nat := 0
  dtRise : Nat := 200
  dtFall : Nat := 200
  ideal : Bool := false
  onAt : Nat := 0
  blocked : Bool := false
  hOff : Nat := 0
  lOff : Nat := 0
  seen : Nat := 0
  deriving DecidableEq, Repr

/-- Steps of mode 5 that are being sent (R407): from an instant, over a span, so many of them; `spaced` where the spacing
is 2 × step_width. -/
structure StepRun where
  start : Nat
  span : Nat
  count : Nat
  spaced : Bool
  deriving DecidableEq, Repr

/-- One PWM timer (R393 to R407). Compares are in fine steps of 625 ps, periods in steps of 2.5 ns. -/
structure Timer where
  running : Bool := false
  period : Nat := 12500
  shadowPeriod : Nat := 12500
  compares : List Nat := [0, 0, 0]
  shadows : List Nat := [0, 0, 0]
  /-- Duties of the last commit, and the periods against which the shadows and the active compares were converted
  (R398, R399). -/
  duties : List Int := [0, 0, 0]
  shadowConv : Nat := 12500
  conv : Nat := 12500
  committed : Bool := false
  /-- The stamp of that commit, and the last update point passed (R398). -/
  commitAt : Nat := 0
  updatedAt : Option Nat := none
  /-- The next boundary or mid-period, and whether it is a mid-period (R394). -/
  nextAt : Nat := 0
  up : Bool := false
  /-- The last boundary and the last mid-period passed. -/
  boundAt : Nat := 0
  midAt : Option Nat := none
  pairs : List PwmPair := [{}, {}, {}]
  /-- boot_refresh_periods and boot_refresh_width as they stand at the outputs (R410), and the coils shorted (R408). -/
  brPeriods : Nat := 16
  brWidth : Nat := 0
  shorted : Bool := false
  /-- The carrier period in progress ran with compares of another period (R399). -/
  mixed : Bool := false
  inconsistent : Nat := 0
  refreshes : Nat := 0
  stepLimited : Nat := 0
  /-- Mode 5 (R407): target to be taken at the next update point with the task period, count sent, direction, steps. -/
  target : Option (Int × Nat) := none
  owed : Int := 0
  stepPos : Int := 0
  dirNeg : Bool := false
  steps : Option StepRun := none
  /-- The task period with which the last target was taken. -/
  stepEvery : Nat := 0
  /-- The outputs stay at their idle levels from the next update point on (R173). -/
  idleNext : Bool := false
  /-- Slot sample instant of the present cycle (R420). -/
  sampleAt : Option Nat := none
  deriving DecidableEq, Repr

/-- A trip input (R402 to R405, R411). -/
structure Trip where
  latched : Bool := false
  low : Bool := false
  count : Nat := 0
  deriving DecidableEq, Repr

/-- Local PWM unit (R392 to R419). -/
structure PwmUnit where
  timers : Table Timer := []
  trips : Table Trip := []
  deriving DecidableEq, Repr

/-- One incremental channel (R422 to R432). -/
structure EncCh where
  running : Bool := false
  count : Int := 0
  a : Bool := false
  b : Bool := false
  z : Bool := false
  /-- Instants at which the filtered levels of A, B and Z last changed (R424). -/
  aAt : Option Nat := none
  bAt : Option Nat := none
  zAt : Option Nat := none
  dir : Bool := false
  lastEdge : Option Nat := none
  /-- Last edge at the slot sample before, and changes of direction in this interval and in the one before (R431). -/
  prevEdge : Option Nat := none
  turned : Bool := false
  prevTurned : Bool := false
  latchCount : Int := 0
  latchAt : Option Nat := none
  /-- Speed in 2^-48 feedback turn/s. -/
  speed : Int := 0
  phaseErrors : Nat := 0
  lastIllegal : Option Nat := none
  msStart : Nat := 0
  msErrors : Nat := 0
  fault : Bool := false
  faultCause : Nat := 0
  /-- Pairs whose wires stay at one level (R426). -/
  stuckPairs : List Nat := []
  wireFaults : Nat := 0
  armed : Bool := false
  resetDone : Bool := false
  firstIndex : Bool := false
  /-- Index latch: count and instant (R428, R429). -/
  index : Option (Int × Nat) := none
  indexDev : Int := 0
  deriving DecidableEq, Repr

/-- A general digital input (R433). -/
structure DinSt where
  level : Bool := false
  edgeAt : Nat := 0
  latched : List Int := []
  deriving DecidableEq, Repr

/-- A probe record (R434, R435). -/
structure ProbeRec where
  stamp : Nat
  /-- The position source of the edge (R434). -/
  src : Nat := 0
  rising : Bool
  valid : Bool
  done : Bool
  single : Bool
  pos : Int
  deriving DecidableEq, Repr

/-- A probe input (R434 to R436). -/
structure ProbeSt where
  armed : Bool := false
  queue : List ProbeRec := []
  overflows : Nat := 0
  /-- Position of the latest complete latch (R487). -/
  latest : Option Int := none
  /-- The instant at which that latch was complete, and the position before it (R510). -/
  latestAt : Nat := 0
  before : Option Int := none
  deriving DecidableEq, Repr

/-- An SSI channel (R437 to R441). -/
structure SsiCh where
  /-- Request running: slot, attempt. -/
  request : Option (Nat × Nat) := none
  startedAt : Nat := 0
  /-- The exchange that runs belongs to an earlier cycle (R458). -/
  stale : Bool := false
  /-- Continuous count of the last sample (R438). -/
  pos : Option Int := none
  retries : Nat := 0
  invalid : Nat := 0
  checkFailed : Bool := false
  deriving DecidableEq, Repr

/-- Latest result of an analogue input (R443, R454). -/
structure AdcResult where
  value : Int := 0
  stamp : Nat := 0
  flags : Nat := 0
  deriving DecidableEq, Repr

/-- A running regular sequence or injected set (R445 to R449). -/
structure AdcRun where
  next : Nat
  trigAt : Nat
  /-- Common sampling instant of an injected set (R447), and the start of the entry before the next (R446). -/
  common : Option Nat := none
  lastStart : Nat := 0
  /-- A calibration has abandoned the run (R451). -/
  cut : Bool := false
  /-- Inputs that the run converts, in order. -/
  entries : List Nat := []
  /-- Results of the run so far. -/
  results : List (Nat × AdcResult) := []
  /-- A run that was triggered when every entry of this one had started (R449): its trigger instant and entries. -/
  after : Option (Nat × List Nat) := none
  /-- Results of the last complete run (R489). -/
  last : List (Nat × AdcResult) := []
  deriving DecidableEq, Repr

/-- ADC block (R442 to R454). -/
structure Adc where
  /-- Group that each core serves: 0 to 3, 0xFE spare, 0xFF faulty. -/
  cores : List Nat := [0, 1, 2, 3, 0xFE]
  /-- Conversion boundary of each core, and the groups whose next conversion is the first after a takeover. -/
  freeAt : Table Nat := []
  takeover : List Nat := []
  regular : Table AdcRun := []
  injected : Table AdcRun := []
  seqMissed : Table Nat := []
  injMissed : Table Nat := []
  results : Table AdcResult := []
  previous : Table AdcResult := []
  /-- The results as the last tick found them (R444). -/
  atTick : Table AdcResult := []
  ref : Nat := 0
  refAt : Nat := 0
  calState : Nat := 0
  calStart : Option Nat := none
  factors : Table CoreFactors := []
  stored : Option (List CoreFactors) := none
  /-- Live calibration: core under calibration, start, and the core whose turn comes next. -/
  live : Option Nat := none
  liveAt : Nat := 0
  lastLive : Nat := 0
  turn : Nat := 0
  deriving DecidableEq, Repr

/-- Local feedback (R420 to R454). -/
structure LocalIn where
  encs : Table EncCh := []
  dins : Table DinSt := []
  probes : Table ProbeSt := []
  ssis : Table SsiCh := []
  adc : Adc := {}
  deriving DecidableEq, Repr

/-- A timed output (R476, R477). -/
structure Tout where
  mode : Nat := 0
  start : Nat := 0
  width : Nat := 0
  period : Nat := 0
  next : Nat := 0
  pulseEnd : Option Nat := none
  skipped : Nat := 0
  deriving DecidableEq, Repr

/-- A frame queued on a plant port (R478). -/
structure PlantFrame where
  launch : Option Nat
  addr : Nat
  len : Nat
  /-- The instant from which an untimed frame waits for its port. -/
  queuedAt : Nat := 0
  deriving DecidableEq, Repr

/-- What the device writes into a PTP message as it leaves (R469, R472, R473): stamp in whole ns and correction in 2^-16 ns, the
timeTraceable bit of an Announce, messageLength, over UDP the UDP length, the IPv4 total length and the two bytes at the end. -/
structure PtpTx where
  kind : PtpKind
  stampNs : Nat := 0
  correction : Nat := 0
  traceable : Bool := false
  messageLen : Nat
  udpLen : Nat := 0
  ipLen : Nat := 0
  tail : Nat := 0
  deriving DecidableEq, Repr

/-- A plant port (R470 to R479, R481). -/
structure PlantPort where
  timed : List PlantFrame := []
  untimed : List PlantFrame := []
  launched : List PlantFrame := []
  freeAt : Nat := 0
  discarded : Nat := 0
  state : Nat := 3
  meanPath : Nat := 0
  slaveAt : Option Nat := none
  /-- Receive stamps of the Pdelay_Req messages that wait for a response, oldest first (R472). -/
  pdelayReqs : List Nat := []
  /-- What the last PTP message sent carried (R469, R472, R473). -/
  lastTx : Option PtpTx := none
  /-- The bytes of the last frame that left for the host (R478). -/
  lastSent : Bytes := []
  deriving DecidableEq, Repr

/-- Time unit (R462 to R486). -/
structure TimeSt where
  /-- Device time in units of 2^-32 ns, below 2^48 s. -/
  now : Nat := 0
  stopped : Bool := false
  /-- For how long the time clock has stood since the last reset, and in the stop that lasts, in 2^-32 ns: the safety unit counts on (R413). -/
  stoppedFor : Nat := 0
  haltFor : Nat := 0
  /-- For how long the device has been powered, in 2^-32 ns; the count of whole hours stands in MRAM (R635). -/
  poweredFor : Nat := 0
  trimReq : Int := 0
  trim : Int := 0
  slew : Int := 0
  slewReq : Int := 0
  /-- Offset still to be removed by the slew, in 2^-32 ns. -/
  slewLeft : Int := 0
  /-- Rate correction in 2^-32 ns per time-clock period. -/
  rho : Int := 0
  keeper : Nat := 0
  ptpRunning : Bool := false
  ptpRole : Nat := 0
  ptpState : Nat := 0
  ptpOffset : Int := 0
  locks : Nat := 0
  offsetLarge : Bool := false
  parent : Bytes := List.replicate 10 0
  grandmaster : Bytes := List.replicate 8 0
  ports : Table PlantPort := []
  touts : Table Tout := []
  deriving DecidableEq, Repr

/-- Configuration of a capture channel at CAL_ARM (R488, R506). -/
structure CapCh where
  signal : Nat
  quantity : Nat
  maskPoints : Nat
  maskStart : Int
  deriving DecidableEq, Repr

/-- Calipers configuration in force (R506). -/
structure CalConf where
  rowClock : Nat
  segments : Nat
  listLen : Nat
  kind : Nat
  channel : Nat
  dir : Nat
  level : Int
  hyst : Int
  high : Int
  index : Nat
  maskEnable : Bool
  spill : Bool
  spillBase : Nat
  spillSize : Nat
  chans : List CapCh
  deriving DecidableEq, Repr

/-- A completed segment: number, place (capture SRAM or LPDDR4), length (R495, R499, R500). -/
structure CalSeg where
  number : Nat
  inDdr : Bool
  addr : Nat
  len : Nat
  deriving DecidableEq, Repr

/-- Skew calibration in progress (R504): the output, the channel mask, the first programmed instant, pulses sent, per channel
its edges less their programmed instants in 1/16 ns, and the results of an analogue input around the present pulse: its number, stamps and
values. -/
structure SkewCal where
  tout : Nat
  channels : Nat
  first : Nat
  pulses : Nat := 0
  edges : Table (List Int) := []
  wave : Table (Nat × List (Nat × Int)) := []
  deriving DecidableEq, Repr

/-- Trigger-bus measurement in progress (R502): the line, round trips kept, delays of the lines measured before, the
instant of the follower's own pulse. -/
structure BusCal where
  line : Nat := 0
  trips : List Int := []
  delays : List Nat := []
  drivenAt : Option Nat
  started : Nat
  deriving DecidableEq, Repr

/-- A row of a record (R489): its instant and its values. -/
structure CalRow where
  at_ : Nat
  values : List Int
  deriving DecidableEq, Repr

/-- Calipers (R487 to R512). -/
structure Calipers where
  state : Nat := 0
  stopReason : Nat := 0
  conf : Option CalConf := none
  segList : Table (Nat × Nat) := []
  /-- Envelope points by channel × 2 + side, then point, and the width at which they were written (R679). -/
  masks : Table (Table Int) := []
  maskWidth : Table Nat := []
  /-- Rows kept for the pre-trigger part, oldest first, and the rows of the segment in progress. -/
  pre : List CalRow := []
  rows : List CalRow := []
  preCount : Nat := 0
  /-- Accepted trigger: its stamp and its kind code. -/
  trigAt : Option Nat := none
  trigSrc : Nat := 0
  trigMissed : Nat := 0
  /-- Missed triggers that the next segment counts, and sync_offset at the accepted trigger (R495, R497). -/
  missedNext : Nat := 0
  trigSync : Int := 0
  /-- Edge and window conditions (R490): a row below and a row above since the arm, the last row inside the window, no row
  since the arm. -/
  sawLow : Bool := false
  sawHigh : Bool := false
  wasIn : Option Bool := none
  fresh : Bool := true
  segNo : Nat := 0
  segments : Nat := 0
  done : List CalSeg := []
  nextAddr : Nat := 0
  rearmAt : Nat := 0
  dead : Nat := 0
  lastRow : Option Nat := none
  /-- Bytes copied to the spill region (R499). -/
  spilled : Nat := 0
  /-- The row of the last tick, not yet taken (R487 to R489). -/
  heldRow : Option CalRow := none
  /-- Pulses that the device drives on the bus lines: start and end. -/
  busPulse : Table (Nat × Nat) := []
  /-- Ends of the last low pulses seen on the lines (R502), and the stamps of the last edges (R503). -/
  busLowEnd : Table Nat := []
  busStamp : Table Nat := []
  busDelay : Table Nat := []
  bus : Option BusCal := none
  skewVals : Table Int := []
  skewStored : Option (Table Int) := none
  skew : Option SkewCal := none
  syncState : Nat := 0
  syncOffset : Int := 0
  syncEdges : List Int := []
  syncMedians : List Int := []
  syncLast : Option Nat := none
  deriving DecidableEq, Repr

/-- Segment of a DMA transfer in progress (R519 to R524). -/
structure DmaRun where
  entryAddr : Nat := 0
  src : Nat := 0
  dst : Nat := 0
  left : Nat := 0
  inSeg : Bool := false
  deriving DecidableEq, Repr

/-- One DMA channel (R507 to R527). -/
structure DmaCh where
  src : Nat := 0
  dst : Nat := 0
  list : Nat := 0
  count : Nat := 0
  ctrl : Nat := 0
  tail : Nat := 0
  state : Nat := 0
  status : Nat := 0
  bytes : Nat := 0
  result : Nat := 0
  run : DmaRun := {}
  sum : Nat := 0
  oddByte : Option Byte := none
  /-- pcie_out_hi as the transfer started with it (R15, R515). -/
  outHi : Nat := 0
  /-- The first read of the burst failed and is done once more (R524). -/
  retried : Bool := false
  /-- The segment in `run` has not begun: it has not been checked yet (R517, R526). -/
  held : Bool := false
  deriving DecidableEq, Repr

/-- DMA engine and power domains (R507 to R527, R650). -/
structure DmaSt where
  chans : Table DmaCh := []
  transients : Nat := 0
  /-- The bursts in the DMA buffer, oldest first, with their channels (R21, R513). -/
  buffer : List (Nat × Bytes) := []
  /-- Channels that have had their turn of this round (R513). -/
  served : List Nat := []
  /-- Domain switches in progress: the direction (true is on) and the start. -/
  switching : Table (Bool × Nat) := []
  domainsOff : List Nat := []
  deriving DecidableEq, Repr

/-- Where a pair stands between released and demanding (R539): both inputs at their demanding levels, one has left its
released level, one has left its demanding level, both at their released levels. -/
inductive SinPhase where
  | demanding
  | leaving
  | returning
  | released
  deriving DecidableEq, Repr

/-- A safety input pair (R538, R539): the levels of its two inputs as S1 and S2 read them, and the instant of the first
change of the two in ns. -/
structure SinPair where
  on1a : Bool := false
  on2a : Bool := false
  on1b : Bool := false
  on2b : Bool := false
  changedAt : Nat := 0
  phase : SinPhase := .demanding
  discrepancy : Bool := false
  deriving DecidableEq, Repr

/-- A safety function (R541, R542): fn_state, the start of its demand in ns, whether a qualified reset has been seen since
BOOT, and whether that reset came since the last comparison (R560). -/
structure SafeFn where
  state : Nat := 2
  since : Nat := 0
  resetSeen : Bool := false
  freshReset : Bool := false
  deriving DecidableEq, Repr

/-- A safety output (R546, R547): energized, fault latched, faults counted, the instants in ns of the next pulse and of the
end of the last one, the switch that the next pulse opens, a qualified reset seen since the latch, the last switch-off in ns. -/
structure Sout where
  on : Bool := false
  latched : Bool := false
  faults : Nat := 0
  pulseNext : Nat := 0
  pulseEnd : Nat := 0
  bySw2 : Bool := false
  clearPending : Bool := false
  offAt : Nat := 0
  deriving DecidableEq, Repr

/-- A safety connection (R548 to R553): state, sequence number and flags and data of the current message, whether a message
of a new number is still to be composed, whether the current number has left and when in ns, the last echo in ns, the data of the last
valid reply, the message that stands ready to leave. -/
structure SafeConn where
  state : Nat := 0
  seq : Nat := 0
  flags : Nat := 0
  data : Bytes := []
  isNew : Bool := true
  departed : Bool := false
  wdAt : Nat := 0
  lastEcho : Nat := 0
  reply : Bytes := []
  out : Option Bytes := none
  crcErrors : Nat := 0
  seqErrors : Nat := 0
  timeouts : Nat := 0
  resetDemand : Bool := false
  deriving DecidableEq, Repr

/-- Safety unit (R533 to R558): the image, safety_state, fault_cause, the reset input as S1 and S2 read it and the start of
its on level in ns, successive differences and the last comparison (R534), base of the test pulses in ns, the last change of the
filtered level of input n in channel S1 (key 2n) and S2 (2n + 1) in ns (R538). -/
structure Safety where
  image : Bytes := []
  state : Nat := 0
  faultCause : Nat := 0
  pairs : Table SinPair := []
  fns : Table SafeFn := []
  outs : Table Sout := []
  conns : Table SafeConn := []
  resetOn1 : Bool := false
  resetOn2 : Bool := false
  resetAt : Nat := 0
  diffs : Nat := 0
  exchangedAt : Nat := 0
  pulseBase : Nat := 0
  levelAt : Table Nat := []
  deriving DecidableEq, Repr

/-- The partner's last time frame (R572). -/
structure PartnerFrame where
  pairId : Nat
  devState : Nat
  flags : Nat
  tick : Nat
  departure : Nat
  epoch : Nat
  holder : Nat
  divergences : Nat
  leaseEnd : Nat
  planId : Nat
  fwVersion : Nat
  arrival : Nat
  tie : Nat
  deriving DecidableEq, Repr

/-- Steps of PAIR_JOIN (R589). -/
inductive JoinStep where
  | identity (since : Nat)
  | timeLock (since : Nat)
  | firstTick
  | resync (since : Nat)
  deriving DecidableEq, Repr

/-- Redundant pair (R559 to R598). -/
structure Pair where
  id : Nat := 0
  state : Nat := 0
  joined : Bool := false
  grip : Bool := false
  epoch : Nat := 0
  holder : Nat := 0
  leaseEnd : Nat := 0
  fenced : Bool := false
  release : Bool := false
  request : Nat := 0
  partner : Option PartnerFrame := none
  heardAt : Nat := 0
  heard : Bool := false
  mirrorValid : Bool := false
  silent : Nat := 0
  /-- MIRROR_LOST has been raised for the present silence (R574). -/
  mirrorLost : Bool := false
  confirmed : Nat := 0
  adopted : Nat := 0
  timeLocked : Bool := false
  offset : Int := 0
  tie : Nat := 0
  ties : List Int := []
  divergences : Nat := 0
  skipped : Nat := 0
  skipAxes : Table Nat := []
  checkFails : List Nat := []
  lastDivergence : Option Nat := none
  witnessLost : Bool := false
  /-- Rings on which a good copy of the holder's burst 1 of this cycle has passed, and those where none passed in the cycle
  before (R582). -/
  burst1Rings : List Nat := []
  missedRings : List Nat := []
  renewed : Bool := false
  join : Option JoinStep := none
  /-- A grant record that makes the unit the holder, or ends its hold, from the next tick on (R581, R582). -/
  turn : Option Bool := none
  /-- Fresh slices of the holder that wait for the unit's own output of the cycle, by axis (R576). -/
  shadow : Table Bytes := []
  /-- The time frame sent at the last tick (R572). -/
  timeFrame : Bytes := []
  /-- Axes whose fresh slice of this cycle has passed in a good copy (R576). -/
  copied : List Nat := []
  /-- Complete streams that wait for the tick of their adoption, with their cycle (R574). -/
  streams : List (Nat × List MirrorItem) := []
  /-- The unit's own state words at the end of the cycle before, by task (R574). -/
  own : Table (List W24) := []
  deriving DecidableEq, Repr

/-- An event record (R609). -/
structure EvRec where
  seq : Nat
  stamp : Nat
  source : Nat
  cls : Nat
  flags : Nat
  kind : Nat
  inst : Nat
  cause : Nat
  repeats : Nat
  detail : Bytes
  deriving DecidableEq, Repr

/-- A signal row (R610): tick number, stamp, valid bits, values. -/
structure SigRow where
  tick : Nat
  stamp : Nat
  valid : Nat
  values : List Int
  deriving DecidableEq, Repr

/-- A freeze in progress (R611, R612). -/
structure Freeze where
  trigger : Nat
  stamp : Nat
  source : Nat
  slot : Nat
  commitSeq : Nat
  protected_ : Bool
  records : List EvRec
  rows : List SigRow
  mbs : List MbRecord
  mode : Nat
  planId : Nat
  fwVersion : Nat
  ident : Nat
  /-- Instant in ns at which the commit begins: the trigger, or the end of an MRAM test write that it met (R641). -/
  begins : Nat
  tick : Nat
  rate : Nat
  select : List (Nat × Nat)
  dropped : Nat
  deriving DecidableEq, Repr

/-- Events and the shavings record (R599 to R623). Lists are oldest first. -/
structure Events where
  records : List EvRec := []
  nextSeq : Nat := 1
  rows : List SigRow := []
  mbs : List MbRecord := []
  freeze : Option Freeze := none
  queued : List EvRec := []
  dropped : Nat := 0
  /-- Transient outcomes of the last 3,600 s: stamp and kind (R607). -/
  transients : List (Nat × Nat) := []
  transientCount : Nat := 0
  wearAt : Option Nat := none
  /-- Stamps of axis and group faults of the last 1,000 ms (R603). -/
  faultStamps : List Nat := []
  storm : Bool := false
  /-- Sources raised since the last calipers row, with their stamps in ns (R487, R490). -/
  lines : List (Nat × Nat) := []
  /-- Sources raised since the last signal row (R487, R610). -/
  raised : List Nat := []
  /-- Corrected single-bit errors (R23). -/
  eccCorrected : Nat := 0
  deriving DecidableEq, Repr

/-- Truing and voltage scaling (R624 to R643). -/
structure Truing where
  running : Bool := false
  /-- The pass in progress is that of RING_ENUMERATE, of lanes alone (R626). -/
  lanesOnly : Bool := false
  /-- The lanes that the pass measures, bit by bit (R626). -/
  laneMask : Nat := 0
  startedAt : Nat := 0
  /-- Stress clocks that each engine has completed in the pass, and the instant since which the stress program runs on an engine
  without these being counted yet (R627). -/
  stress : Table Nat := []
  stressOn : Table Nat := []
  /-- Engines that faulted during the pass (R639). -/
  left : List Nat := []
  /-- truing_guard as the pass computes with it, and that of the result to be adopted (R15, R637). -/
  guard : Nat := 30000
  adoptGuard : Nat := 30000
  /-- Start of the pass's MRAM test write; none where it has not come (R641). -/
  mramTest : Option Nat := none
  /-- Cause of the last TRUING_DONE, and whether the margin is exhausted (R626, R633). -/
  cause : Nat := 0
  exhausted : Bool := false
  lastEnd : Nat := 0
  derating : Nat := 30250
  slowdown : Int := 0
  mvReq : Nat := 750
  mvRead : Nat := 0
  mvConfirmed : Nat := 750
  /-- A derating and voltage that take effect at the next tick (R632). -/
  adopting : Option (Nat × Nat) := none
  /-- Voltage step in progress: target, start, retried. -/
  step : Option (Nat × Nat × Bool) := none
  lifeRemaining : Nat := 0xFFFF
  passes : Nat := 0
  minSlack : Int := 0
  fMax : Table Nat := []
  history : List (Nat × Int) := []
  refDrift : Int := 0
  bandgapDrift : Int := 0
  mramMargin : Nat := 0
  /-- Eye height, eye width and equaliser setting by lane (R634, R637). -/
  lanes : Table (Nat × Nat × Nat) := []
  /-- Lanes whose new eye height, eye width and equaliser setting wait for a tick guard, one lane a cycle (R634). -/
  eqWaiting : List (Nat × Nat × Nat × Nat) := []
  storedMv : Option Nat := none
  deriving DecidableEq, Repr

/-- Supplies, reset and boot (R644 to R667). -/
structure Power where
  railsValid : Bool := true
  resetLow : Bool := false
  pwrEn : Bool := true
  pwrOffAt : Nat := 0
  standbyAsked : Bool := false
  wakeSec : Nat := 0
  vaonMain : Bool := true
  vbat : Bool := true
  aonFromMain : Bool := true
  slot : Nat := 0
  preferredFailed : Bool := false
  patch : Nat := 0
  rejectCause : Nat := 0
  resetSource : Nat := 1
  fuses : Nat := 0
  version : Nat := 0
  rollback : Nat := 0
  /-- Component lengths of the running image (R655, R659). -/
  lens : List Nat := []
  /-- Bytes written to a flash slot by FW_STAGE_WRITE, by slot (R660); the slot that the boot record prefers (R657), none where
  no command has set it; a patch is armed in the patch area (R659, R660). -/
  staging : Table (List Host.Cell) := []
  preferred : Option Nat := none
  patchArmed : Bool := false
  portsIdle : Bool := false
  deriving DecidableEq, Repr

/-- JTAG access (R695; log 19): instruction in force, boundary cells driven and sampled. -/
structure Jtag where
  instr : JtagInstr := .idcode
  driven : List (Nat × Bool) := []
  sampled : List (Nat × Bool) := []
  deriving DecidableEq, Repr

/-- The memories that hold bytes: shared state SRAM, capture SRAM, LPDDR4, MRAM, the RAMs of the supervisor and of S1, and host memory as the
DMA wrote it (R21, R22, R515). The firmware's own data in its two RAMs is not modelled: they hold what the ROM loads (log 18). Each is a
canonical list: addresses strictly rising, no byte equal to 0, which is what an unlisted address reads as (log 6). After reset no input
buffer exists, which the word latest of the process image says (R374). -/
structure Mems where
  sram : List Host.Cell := [(0x340000, 0xFF), (0x340001, 0xFF), (0x340002, 0xFF), (0x340003, 0xFF)]
  capture : List Host.Cell := []
  ddr : List Host.Cell := []
  mram : List Host.Cell := []
  host : List Host.Cell := []
  supervisor : List Host.Cell := []
  s1 : List Host.Cell := []
  /-- A plan image is stored in MRAM (R72). -/
  planStored : Bool := false
  deriving DecidableEq, Repr

/-- The block. -/
structure State where
  board : Board := {}
  dev : Dev := {}
  host : HostIf := {}
  par : Params := {}
  plan : PlanSt := {}
  cyc : Cyc := {}
  rings : Table Ring := []
  axes : Table Axis := []
  groups : Table Group := []
  disp : Disp := {}
  pwm : PwmUnit := {}
  loc : LocalIn := {}
  time : TimeSt := {}
  cal : Calipers := {}
  dma : DmaSt := {}
  safe : Safety := {}
  pair : Pair := {}
  ev : Events := {}
  tru : Truing := {}
  power : Power := {}
  jtag : Jtag := {}
  mem : Mems := {}
  /-- Pending commands in the order of their acceptance (R366, R368). -/
  pend : List PendCmd := []
  /-- The model's own counter of free values (log 14). -/
  free : Nat := 0
  /-- The commands that wait, first in, first out. -/
  pending : List Instr := []
  deriving DecidableEq, Repr

/-- The block right after reset: entered BOOT, device time from the keeper, every field at the value of its
declaration. -/
def State.reset : State := {}

/-- Reasons for which a step stops with a fault. No meaning of this model answers one: every command of the table has
an effect that the spec gives. -/
inductive Fault where
  /-- Raised by no command; kept so that the type has a name to give. Safe: it is never answered. -/
  | none
  deriving DecidableEq, Repr

/-- Reasons for which a step is refused. -/
inductive Refusal where
  /-- An arm of exec whose meaning is not written yet answers it with the row's mnemonic. Safe: the run ends there. -/
  | notModelled (mnemonic : String)
  deriving DecidableEq, Repr

end Sys2Proof.Machine
end

