-- ==== Sys2Proof/Machine/ParamTable.lean ====
section
/-! DEFINITION. The parameter tables of every chapter (R14 to R17, R700, R701): for each object and sub-index its type,
range, default and when a write takes effect, in raw values, and how many instances each object has. -/

namespace Sys2Proof.Machine

/-- Types of R16. -/
inductive PType where
  | u8 | u16 | u24 | s24 | u32 | s48 | q23 | t24 | time
  deriving DecidableEq, Repr

/-- The Effective column of R15; `ro` for a parameter that cannot be written. -/
inductive Eff where
  | ro | now | tick | enable | pass | adopted | calArm | ptpConfig | home | gearRatio | pairJoin | cycleStart | dmaStart
  deriving DecidableEq, Repr

/-- A row of a parameter table: the first and last sub-index it covers, type, ranges, default, effect. -/
structure PDef where
  first : Nat
  last : Nat
  ty : PType
  ranges : List (Int × Int)
  dflt : Int
  eff : Eff
  deriving DecidableEq, Repr

/-- Object 0x1010 (R385). -/
def rows1010 : List PDef := [
  ⟨1, 1, .u16, [(0, 10000)], 0, .now⟩,
  ⟨2, 2, .u8, [(0, 1)], 0, .now⟩]

/-- Object 0x3000 (R121, R144). -/
def rows3000 : List PDef := [
  ⟨1, 1, .u8, [(2, 16)], 4, .cycleStart⟩,
  ⟨2, 2, .u8, [(0, 1)], 1, .tick⟩,
  ⟨3, 3, .u8, [(8, 19)], 8, .ro⟩]

/-- Object 0x3010 (R121, R144). -/
def rows3010 : List PDef := [
  ⟨1, 1, .u8, [(0, 5)], 0, .ro⟩,
  ⟨2, 2, .u32, [(0, 4294967295)], 0, .ro⟩,
  ⟨3, 3, .u32, [(0, 4294967295)], 0, .ro⟩,
  ⟨4, 4, .u32, [(0, 4294967295)], 0, .ro⟩,
  ⟨5, 5, .u24, [(0, 32000)], 0, .ro⟩,
  ⟨6, 6, .u24, [(0, 32000)], 0, .ro⟩,
  ⟨7, 7, .s24, [(-8388608, 8388607)], 0, .ro⟩,
  ⟨8, 8, .u8, [(0, 1)], 0, .ro⟩]

/-- Object 0x4100 (R182). -/
def rows4100 : List PDef := [
  ⟨1, 1, .u8, [(0, 7)], 0, .enable⟩,
  ⟨2, 2, .s24, [(-8388608, -1), (1, 8388607)], 1, .enable⟩,
  ⟨3, 3, .u24, [(1, 16777215)], 1, .enable⟩,
  ⟨4, 4, .u32, [(1, 4294967295)], 1000, .enable⟩,
  ⟨5, 5, .u24, [(1, 16777215)], 8000, .enable⟩,
  ⟨6, 6, .u24, [(1, 16777215)], 5600, .tick⟩,
  ⟨7, 7, .u8, [(0, 1)], 1, .tick⟩,
  ⟨8, 8, .u8, [(1, 8)], 3, .tick⟩,
  ⟨9, 9, .u24, [(0, 8388607)], 0, .enable⟩,
  ⟨10, 10, .u8, [(0, 15), (255, 255)], 255, .enable⟩,
  ⟨11, 11, .u16, [(1, 10000)], 100, .enable⟩,
  ⟨12, 12, .u16, [(0, 10000)], 0, .enable⟩,
  ⟨13, 13, .u16, [(0, 10000)], 0, .enable⟩]

/-- Object 0x4110 (R197). -/
def rows4110 : List PDef := [
  ⟨1, 1, .u8, [(0, 3)], 0, .ro⟩,
  ⟨2, 2, .u8, [(0, 3)], 0, .enable⟩,
  ⟨3, 3, .u8, [(0, 127)], 0, .enable⟩,
  ⟨4, 4, .s24, [(-8388608, 8388607)], 1, .gearRatio⟩,
  ⟨5, 5, .u24, [(1, 16777215)], 1, .gearRatio⟩,
  ⟨6, 6, .u24, [(1, 16777215)], 1000, .tick⟩,
  ⟨7, 7, .u24, [(1, 16777215)], 10000, .tick⟩,
  ⟨8, 8, .u24, [(1, 16777215)], 4096, .enable⟩,
  ⟨9, 9, .t24, [(-140737488355328, 140737488355327)], 16777216, .tick⟩,
  ⟨10, 10, .t24, [(-140737488355328, 140737488355327)], 0, .tick⟩,
  ⟨11, 11, .u8, [(1, 16)], 4, .tick⟩]

/-- Object 0x4120 (R183). -/
def rows4120 : List PDef := [
  ⟨1, 1, .t24, [(0, 140737488355327)], 838860800, .tick⟩,
  ⟨2, 2, .t24, [(0, 140737488355327)], 8388608, .tick⟩,
  ⟨3, 3, .u16, [(0, 65535)], 16, .tick⟩,
  ⟨4, 4, .u24, [(0, 16777215)], 4194304, .tick⟩,
  ⟨5, 5, .u24, [(0, 16777215)], 30000, .tick⟩,
  ⟨6, 6, .u8, [(0, 1)], 1, .tick⟩,
  ⟨7, 7, .u24, [(0, 250000)], 0, .enable⟩]

/-- Object 0x4124 (R184). -/
def rows4124 : List PDef := [
  ⟨1, 1, .u24, [(0, 16777215)], 65536, .tick⟩,
  ⟨2, 2, .u24, [(0, 100000)], 1000, .tick⟩,
  ⟨3, 3, .u24, [(0, 16777215)], 0, .tick⟩,
  ⟨4, 4, .u24, [(0, 100000)], 20000, .tick⟩,
  ⟨5, 5, .q23, [(0, 8388607)], 8388607, .tick⟩,
  ⟨6, 6, .q23, [(0, 8388607)], 4194304, .tick⟩]

/-- Object 0x4128 (R190). -/
def rows4128 : List PDef := [
  ⟨1, 1, .u16, [(0, 65535)], 3000, .tick⟩,
  ⟨2, 2, .u16, [(0, 65535)], 10, .tick⟩,
  ⟨3, 3, .u16, [(0, 65535)], 256, .tick⟩]

/-- Object 0x4130 (R188). -/
def rows4130 : List PDef := [
  ⟨1, 1, .u16, [(0, 32000)], 0, .tick⟩,
  ⟨2, 2, .u16, [(1, 32000)], 100, .tick⟩,
  ⟨3, 3, .u8, [(0, 60)], 0, .tick⟩,
  ⟨4, 4, .u16, [(0, 32000)], 0, .tick⟩,
  ⟨5, 5, .u16, [(1, 32000)], 100, .tick⟩,
  ⟨6, 6, .u8, [(0, 60)], 0, .tick⟩]

/-- Object 0x4140 (R187). -/
def rows4140 : List PDef := [
  ⟨1, 1, .u24, [(0, 250000)], 0, .ro⟩,
  ⟨2, 2, .u24, [(0, 250000)], 0, .ro⟩,
  ⟨3, 3, .u24, [(0, 250000)], 0, .ro⟩,
  ⟨4, 4, .u32, [(0, 4294967295)], 0, .ro⟩,
  ⟨5, 5, .t24, [(-140737488355328, 140737488355327)], 0, .ro⟩,
  ⟨6, 6, .t24, [(-140737488355328, 140737488355327)], 0, .ro⟩,
  ⟨7, 7, .t24, [(-140737488355328, 140737488355327)], 0, .ro⟩,
  ⟨8, 8, .q23, [(-8388608, 8388607)], 0, .ro⟩,
  ⟨9, 9, .u24, [(0, 16777215)], 0, .ro⟩,
  ⟨10, 10, .u32, [(0, 4294967295)], 0, .ro⟩,
  ⟨11, 11, .u32, [(0, 4294967295)], 0, .ro⟩]

/-- Object 0x4150 (R224). -/
def rows4150 : List PDef := [
  ⟨1, 1, .u8, [(1, 64)], 4, .enable⟩,
  ⟨2, 2, .u24, [(0, 16777215)], 0, .enable⟩,
  ⟨3, 3, .u32, [(1, 4294967295)], 10000, .enable⟩,
  ⟨4, 4, .u8, [(2, 3)], 3, .enable⟩,
  ⟨5, 5, .u24, [(0, 16777215)], 1000, .tick⟩,
  ⟨6, 6, .u24, [(0, 100000)], 2000, .tick⟩,
  ⟨7, 7, .u24, [(0, 16777215)], 0, .tick⟩,
  ⟨8, 8, .u24, [(0, 16777215)], 0, .tick⟩,
  ⟨9, 9, .u24, [(0, 16777215)], 0, .tick⟩,
  ⟨10, 10, .u8, [(0, 1)], 0, .tick⟩,
  ⟨11, 11, .q23, [(-8388608, 8388607)], 0, .tick⟩,
  ⟨12, 12, .q23, [(0, 8388607)], 7969178, .tick⟩,
  ⟨13, 13, .q23, [(0, 8388607)], 7549747, .enable⟩,
  ⟨14, 14, .u8, [(0, 1)], 0, .enable⟩,
  ⟨15, 15, .u16, [(0, 10000)], 10, .enable⟩]

/-- Object 0x4154 (R225). -/
def rows4154 : List PDef := [
  ⟨1, 1, .q23, [(-8388608, 8388607)], 0, .ro⟩,
  ⟨2, 2, .q23, [(-8388608, 8388607)], 0, .ro⟩,
  ⟨3, 3, .q23, [(-8388608, 8388607)], 0, .ro⟩,
  ⟨4, 4, .q23, [(-8388608, 8388607)], 0, .ro⟩,
  ⟨5, 5, .u24, [(0, 16777215)], 0, .ro⟩,
  ⟨6, 6, .s24, [(-8388608, 8388607)], 0, .ro⟩,
  ⟨7, 7, .u32, [(0, 4294967295)], 0, .ro⟩,
  ⟨8, 8, .u32, [(0, 4294967295)], 0, .ro⟩]

/-- Object 0x4160 (R421). -/
def rows4160 : List PDef := [
  ⟨1, 1, .u8, [(0, 2)], 1, .enable⟩]

/-- Object 0x4200 (R257). -/
def rows4200 : List PDef := [
  ⟨1, 1, .t24, [(1, 140737488355327)], 167772160, .tick⟩,
  ⟨2, 2, .t24, [(1, 140737488355327)], 1677721600, .tick⟩,
  ⟨3, 3, .t24, [(1, 140737488355327)], 1677721600, .tick⟩,
  ⟨4, 4, .t24, [(1, 140737488355327)], 167772160000, .tick⟩]

/-- Object 0x4210 (R251, R257). -/
def rows4210 : List PDef := [
  ⟨3, 3, .u8, [(0, 23), (255, 255)], 255, .enable⟩,
  ⟨4, 4, .u8, [(0, 23), (255, 255)], 255, .enable⟩,
  ⟨5, 5, .u8, [(0, 23), (255, 255)], 255, .enable⟩,
  ⟨6, 6, .u8, [(0, 7)], 0, .enable⟩,
  ⟨7, 7, .u16, [(0, 10000)], 2000, .tick⟩,
  ⟨1, 1, .t24, [(1, 140737488355327)], 16777216000, .tick⟩,
  ⟨2, 2, .t24, [(1, 140737488355327)], 1677721600000, .tick⟩]

/-- Object 0x4220 (R270). -/
def rows4220 : List PDef := [
  ⟨1, 1, .u8, [(0, 4)], 0, .home⟩,
  ⟨2, 2, .u8, [(0, 1)], 0, .home⟩,
  ⟨3, 3, .t24, [(1, 140737488355327)], 16777216, .home⟩,
  ⟨4, 4, .t24, [(1, 140737488355327)], 1677722, .home⟩,
  ⟨5, 5, .t24, [(1, 140737488355327)], 167772160, .home⟩,
  ⟨6, 6, .t24, [(1, 140737488355327)], 1677721600, .home⟩,
  ⟨7, 7, .t24, [(1, 140737488355327)], 16777216000, .home⟩,
  ⟨8, 8, .t24, [(-140737488355328, 140737488355327)], 0, .home⟩,
  ⟨9, 9, .u8, [(1, 16)], 4, .home⟩,
  ⟨10, 10, .t24, [(0, 140737488355327)], 0, .home⟩]

/-- Object 0x4240 (R273). -/
def rows4240 : List PDef := [
  ⟨1, 1, .u8, [(0, 1)], 0, .tick⟩,
  ⟨2, 2, .q23, [(0, 8388607)], 4194304, .tick⟩,
  ⟨3, 3, .u16, [(0, 10000)], 200, .tick⟩,
  ⟨4, 4, .u8, [(0, 1)], 0, .now⟩,
  ⟨5, 5, .u16, [(0, 100)], 5, .tick⟩]

/-- Object 0x4250 (R274). -/
def rows4250 : List PDef := [
  ⟨1, 1, .u8, [(0, 5)], 0, .ro⟩,
  ⟨2, 2, .u8, [(0, 8)], 0, .ro⟩,
  ⟨3, 3, .t24, [(-140737488355328, 140737488355327)], 0, .ro⟩,
  ⟨4, 4, .u8, [(0, 1)], 0, .ro⟩,
  ⟨5, 5, .t24, [(-140737488355328, 140737488355327)], 0, .ro⟩,
  ⟨6, 6, .u8, [(0, 255)], 0, .ro⟩,
  ⟨7, 7, .t24, [(-140737488355328, 140737488355327)], 0, .ro⟩]

/-- Object 0x4260 (R412). -/
def rows4260 : List PDef := [
  ⟨1, 1, .u24, [(1, 16777215)], 12800, .enable⟩,
  ⟨2, 2, .u16, [(8, 4095)], 400, .enable⟩,
  ⟨3, 3, .u16, [(0, 4095)], 800, .enable⟩,
  ⟨4, 4, .q23, [(0, 8388607)], 6710886, .tick⟩,
  ⟨5, 5, .u24, [(1, 16777215)], 1500, .tick⟩,
  ⟨6, 6, .u16, [(4, 65532)], 200, .enable⟩]

/-- Object 0x6000 (R410). -/
def rows6000 : List PDef := [
  ⟨1, 1, .u8, [(0, 1)], 0, .enable⟩,
  ⟨2, 2, .u16, [(100, 65535)], 12500, .tick⟩,
  ⟨3, 3, .u24, [(0, 16777215)], 0, .enable⟩,
  ⟨4, 4, .u8, [(0, 2)], 0, .enable⟩,
  ⟨5, 5, .u8, [(0, 1)], 0, .enable⟩,
  ⟨6, 6, .u8, [(0, 63)], 0, .enable⟩,
  ⟨7, 7, .u8, [(1, 255)], 16, .tick⟩,
  ⟨8, 8, .u16, [(0, 4095)], 0, .tick⟩]

/-- Object 0x6010 (R410). -/
def rows6010 : List PDef := [
  ⟨1, 1, .u16, [(0, 2047)], 200, .tick⟩,
  ⟨2, 2, .u16, [(0, 2047)], 200, .tick⟩,
  ⟨3, 3, .u8, [(0, 2)], 0, .now⟩,
  ⟨4, 4, .u8, [(0, 2)], 0, .now⟩]

/-- Object 0x6020 (R411). -/
def rows6020 : List PDef := [
  ⟨1, 1, .u8, [(0, 255)], 0, .now⟩,
  ⟨2, 2, .u8, [(0, 1)], 0, .ro⟩,
  ⟨3, 3, .u32, [(0, 4294967295)], 0, .ro⟩]

/-- Object 0x6100 (R432). -/
def rows6100 : List PDef := [
  ⟨1, 1, .u8, [(0, 2)], 0, .enable⟩,
  ⟨2, 2, .u24, [(4, 16777215)], 4096, .enable⟩,
  ⟨3, 3, .u8, [(0, 15)], 2, .enable⟩,
  ⟨4, 4, .u8, [(0, 1)], 1, .enable⟩,
  ⟨5, 5, .u16, [(1, 1000)], 8, .tick⟩,
  ⟨6, 6, .u8, [(0, 2)], 0, .enable⟩,
  ⟨7, 7, .u24, [(0, 16777215)], 4, .tick⟩,
  ⟨8, 8, .u8, [(0, 1)], 0, .tick⟩,
  ⟨9, 9, .u16, [(1, 1000)], 100, .tick⟩,
  ⟨10, 10, .u8, [(0, 1)], 0, .enable⟩]

/-- Object 0x6104 (R432). -/
def rows6104 : List PDef := [
  ⟨1, 1, .s48, [(-140737488355328, 140737488355327)], 0, .ro⟩,
  ⟨2, 2, .t24, [(-140737488355328, 140737488355327)], 0, .ro⟩,
  ⟨3, 3, .u32, [(0, 4294967295)], 0, .ro⟩,
  ⟨4, 4, .s24, [(-8388608, 8388607)], 0, .ro⟩,
  ⟨5, 5, .u32, [(0, 4294967295)], 0, .ro⟩,
  ⟨6, 6, .u8, [(0, 31)], 0, .ro⟩]

/-- Object 0x6110 (R441). -/
def rows6110 : List PDef := [
  ⟨1, 1, .u8, [(8, 40)], 24, .enable⟩,
  ⟨2, 2, .u8, [(0, 8)], 2, .enable⟩,
  ⟨3, 3, .u8, [(0, 3)], 2, .enable⟩,
  ⟨4, 4, .u16, [(1, 100)], 40, .enable⟩,
  ⟨5, 5, .u16, [(1, 100)], 20, .enable⟩,
  ⟨6, 6, .u8, [(0, 1)], 0, .enable⟩,
  ⟨7, 7, .u16, [(0, 65535)], 0, .enable⟩,
  ⟨8, 8, .u16, [(0, 1000)], 0, .enable⟩,
  ⟨9, 9, .u8, [(1, 24)], 12, .enable⟩,
  ⟨10, 10, .u8, [(0, 255)], 0, .enable⟩,
  ⟨11, 11, .u8, [(0, 1)], 0, .enable⟩,
  ⟨12, 12, .u32, [(0, 4294967295)], 0, .ro⟩,
  ⟨13, 13, .u32, [(0, 4294967295)], 0, .ro⟩]

/-- Object 0x6120 (R436). -/
def rows6120 : List PDef := [
  ⟨1, 1, .u8, [(0, 3)], 0, .tick⟩,
  ⟨2, 2, .u8, [(0, 1)], 0, .tick⟩,
  ⟨3, 3, .u8, [(0, 7), (128, 255)], 0, .tick⟩,
  ⟨4, 4, .u8, [(0, 16)], 0, .ro⟩,
  ⟨5, 5, .u32, [(0, 4294967295)], 0, .ro⟩]

/-- Object 0x6200 (R454). -/
def rows6200 : List PDef := [
  ⟨1, 1, .u24, [(0, 0), (100, 3600000)], 1000, .tick⟩,
  ⟨2, 2, .u16, [(1, 1024)], 8, .tick⟩,
  ⟨3, 3, .u8, [(0, 2)], 0, .ro⟩,
  ⟨4, 4, .u8, [(0, 2)], 0, .ro⟩,
  ⟨5, 5, .u8, [(0, 4), (255, 255)], 4, .ro⟩]

/-- Object 0x6210 (R454). -/
def rows6210 : List PDef := [
  ⟨1, 1, .q23, [(-8388608, 8388607)], 0, .ro⟩,
  ⟨2, 2, .time, [(0, 1208925819614629174706175)], 0, .ro⟩,
  ⟨3, 3, .u8, [(0, 15)], 0, .ro⟩]

/-- Object 0x6220 (R454). -/
def rows6220 : List PDef := [
  ⟨1, 1, .u8, [(0, 4), (16, 23), (32, 39), (48, 71), (80, 80)], 0, .tick⟩,
  ⟨2, 2, .u16, [(0, 65535)], 0, .tick⟩,
  ⟨3, 3, .u8, [(0, 16)], 0, .tick⟩,
  ⟨16, 31, .u8, [(0, 15)], 0, .tick⟩]

/-- Object 0x6224 (R454). -/
def rows6224 : List PDef := [
  ⟨1, 1, .u8, [(0, 4), (16, 23), (32, 39), (48, 71), (80, 80)], 0, .tick⟩,
  ⟨2, 2, .u16, [(0, 65535)], 0, .tick⟩,
  ⟨3, 3, .u8, [(0, 4)], 0, .tick⟩,
  ⟨16, 19, .u8, [(0, 15)], 0, .tick⟩]

/-- Object 0x6228 (R454). -/
def rows6228 : List PDef := [
  ⟨1, 1, .u24, [(80, 16777215)], 4000, .tick⟩,
  ⟨2, 2, .u24, [(0, 16777215)], 0, .tick⟩]

/-- Object 0x6230 (R454). -/
def rows6230 : List PDef := [
  ⟨1, 1, .s24, [(-8388608, 8388607)], 0, .ro⟩,
  ⟨2, 2, .u24, [(0, 16777215)], 4194304, .ro⟩,
  ⟨3, 18, .s24, [(-8388608, 8388607)], 0, .ro⟩]

/-- Object 0x7000 (R481). -/
def rows7000 : List PDef := [
  ⟨1, 1, .s24, [(-100000, 100000)], 0, .ro⟩,
  ⟨2, 2, .s24, [(-200000, 200000)], 0, .ro⟩,
  ⟨3, 3, .s48, [(-140737488355328, 140737488355327)], 0, .ro⟩,
  ⟨4, 4, .u8, [(0, 3)], 0, .ptpConfig⟩,
  ⟨5, 5, .u8, [(0, 127)], 0, .ptpConfig⟩,
  ⟨6, 6, .u8, [(0, 255)], 128, .ptpConfig⟩,
  ⟨7, 7, .u8, [(0, 255)], 128, .ptpConfig⟩,
  ⟨8, 8, .u8, [(0, 255)], 248, .ptpConfig⟩,
  ⟨9, 9, .u8, [(0, 1)], 0, .ptpConfig⟩,
  ⟨10, 10, .u24, [(1, 1000000)], 1000, .tick⟩,
  ⟨11, 11, .u24, [(1000, 16000000)], 1000000, .tick⟩,
  ⟨12, 12, .s48, [(-140737488355328, 140737488355327)], 0, .ro⟩,
  ⟨13, 13, .u8, [(0, 5)], 0, .ro⟩]

/-- Object 0x7010 (R481). -/
def rows7010 : List PDef := [
  ⟨1, 1, .u8, [(0, 1)], 0, .ptpConfig⟩,
  ⟨2, 2, .u8, [(0, 1)], 0, .ptpConfig⟩,
  ⟨3, 3, .s24, [(-7, 0)], -3, .ptpConfig⟩,
  ⟨4, 4, .s24, [(0, 3)], 1, .ptpConfig⟩,
  ⟨5, 5, .s24, [(-7, 0)], 0, .ptpConfig⟩,
  ⟨6, 6, .u24, [(0, 32000)], 0, .now⟩,
  ⟨7, 7, .u24, [(0, 32000)], 0, .now⟩,
  ⟨8, 8, .s24, [(-8388608, 8388607)], 0, .now⟩,
  ⟨9, 9, .u32, [(0, 4294967295)], 0, .ro⟩,
  ⟨10, 10, .u8, [(1, 9)], 3, .ro⟩]

/-- Object 0x7020 (R481). -/
def rows7020 : List PDef := [
  ⟨1, 1, .u8, [(0, 1)], 0, .now⟩,
  ⟨2, 2, .u8, [(0, 2)], 0, .ro⟩,
  ⟨3, 3, .u32, [(0, 4294967295)], 0, .ro⟩]

/-- Object 0x8000 (R506). -/
def rows8000 : List PDef := [
  ⟨1, 1, .u8, [(0, 0), (16, 19), (32, 39)], 0, .calArm⟩,
  ⟨2, 2, .u8, [(1, 32)], 1, .calArm⟩,
  ⟨3, 3, .u24, [(1, 65536)], 1, .calArm⟩,
  ⟨4, 4, .u24, [(1, 65536)], 1, .calArm⟩,
  ⟨5, 5, .u8, [(0, 5)], 0, .calArm⟩,
  ⟨6, 6, .u8, [(0, 31)], 0, .calArm⟩,
  ⟨7, 7, .u8, [(0, 2)], 0, .calArm⟩,
  ⟨8, 8, .s48, [(-140737488355328, 140737488355327)], 0, .calArm⟩,
  ⟨9, 9, .s48, [(0, 140737488355327)], 0, .calArm⟩,
  ⟨10, 10, .s48, [(-140737488355328, 140737488355327)], 0, .calArm⟩,
  ⟨11, 11, .u8, [(0, 255)], 0, .calArm⟩,
  ⟨12, 12, .u8, [(0, 3), (255, 255)], 255, .now⟩,
  ⟨13, 13, .u8, [(0, 1)], 0, .calArm⟩,
  ⟨14, 14, .u8, [(0, 1)], 0, .calArm⟩,
  ⟨15, 15, .u32, [(0, 1048575)], 0, .calArm⟩,
  ⟨16, 16, .u32, [(1, 917504)], 256, .calArm⟩,
  ⟨17, 17, .u8, [(0, 2)], 0, .now⟩,
  ⟨18, 18, .u8, [(0, 3)], 0, .ro⟩,
  ⟨19, 19, .u8, [(0, 6)], 0, .ro⟩,
  ⟨20, 20, .u8, [(0, 3)], 0, .ro⟩,
  ⟨21, 21, .s24, [(-8388608, 8388607)], 0, .ro⟩]

/-- Object 0x8010 (R506). -/
def rows8010 : List PDef := [
  ⟨1, 1, .u16, [(0, 511)], 0, .calArm⟩,
  ⟨2, 2, .u8, [(1, 25)], 5, .calArm⟩,
  ⟨3, 3, .u16, [(0, 4096)], 0, .calArm⟩,
  ⟨4, 4, .s24, [(-65535, 65534)], 0, .calArm⟩,
  ⟨5, 5, .s24, [(-8388608, 8388607)], 0, .ro⟩]

/-- Object 0x8020 (R506). -/
def rows8020 : List PDef := [
  ⟨1, 1, .u16, [(0, 1600)], 0, .ro⟩]

/-- Object 0x9000 (R527). -/
def rows9000 : List PDef := [
  ⟨1, 1, .u24, [(10, 10000)], 100, .tick⟩,
  ⟨2, 2, .u32, [(0, 4294967295)], 0, .dmaStart⟩,
  ⟨3, 3, .u32, [(0, 4294967295)], 0, .ro⟩]

/-- Object 0xA000 (R558). -/
def rowsA000 : List PDef := [
  ⟨1, 1, .u8, [(0, 3)], 0, .ro⟩,
  ⟨2, 2, .u16, [(1, 65535)], 0, .ro⟩,
  ⟨3, 3, .u32, [(0, 4294967295)], 0, .ro⟩,
  ⟨4, 4, .u8, [(0, 15), (255, 255)], 255, .ro⟩,
  ⟨5, 5, .u16, [(50, 1000)], 250, .ro⟩,
  ⟨6, 6, .u16, [(100, 5000)], 500, .ro⟩]

/-- Object 0xA010 (R558). -/
def rowsA010 : List PDef := [
  ⟨1, 1, .u8, [(0, 2)], 0, .ro⟩,
  ⟨2, 2, .u16, [(0, 10000)], 1000, .ro⟩,
  ⟨3, 3, .u16, [(1, 1000)], 50, .ro⟩,
  ⟨4, 4, .u8, [(0, 2)], 0, .ro⟩]

/-- Object 0xA020 (R558). -/
def rowsA020 : List PDef := [
  ⟨1, 1, .u8, [(0, 2)], 0, .ro⟩,
  ⟨2, 2, .u16, [(0, 65535)], 0, .ro⟩,
  ⟨3, 3, .u8, [(0, 255)], 0, .ro⟩,
  ⟨4, 4, .u8, [(0, 1)], 0, .ro⟩,
  ⟨5, 5, .u16, [(1, 30000)], 1000, .ro⟩,
  ⟨6, 6, .u8, [(0, 1)], 1, .ro⟩,
  ⟨7, 7, .u8, [(0, 3)], 2, .ro⟩]

/-- Object 0xA030 (R558). -/
def rowsA030 : List PDef := [
  ⟨1, 1, .u16, [(0, 65535)], 0, .ro⟩,
  ⟨2, 2, .u8, [(0, 127)], 0, .ro⟩,
  ⟨3, 3, .u16, [(2, 256)], 8, .ro⟩,
  ⟨4, 4, .u16, [(1, 1000)], 100, .ro⟩,
  ⟨5, 5, .u8, [(1, 16)], 2, .ro⟩,
  ⟨6, 6, .u16, [(0, 65535)], 0, .ro⟩,
  ⟨7, 7, .u32, [(0, 4294967295)], 0, .ro⟩,
  ⟨8, 8, .u8, [(0, 1)], 0, .ro⟩,
  ⟨9, 9, .u8, [(0, 2)], 0, .ro⟩,
  ⟨10, 10, .u32, [(0, 4294967295)], 0, .ro⟩,
  ⟨11, 11, .u32, [(0, 4294967295)], 0, .ro⟩]

/-- Object 0xA040 (R558). -/
def rowsA040 : List PDef := [
  ⟨1, 1, .u8, [(0, 127)], 0, .ro⟩,
  ⟨2, 2, .u8, [(0, 127)], 0, .ro⟩]

/-- Object 0xA050 (R558). -/
def rowsA050 : List PDef := [
  ⟨1, 1, .u8, [(0, 3)], 0, .ro⟩,
  ⟨2, 2, .u32, [(0, 4294967295)], 0, .ro⟩]

/-- Object 0xB000 (R591). -/
def rowsB000 : List PDef := [
  ⟨1, 1, .u8, [(0, 2)], 0, .ro⟩,
  ⟨2, 2, .u8, [(2, 16)], 3, .pairJoin⟩,
  ⟨3, 3, .u24, [(0, 16777215)], 4, .tick⟩,
  ⟨4, 4, .u8, [(1, 16)], 4, .tick⟩,
  ⟨5, 5, .u24, [(0, 32000)], 800, .pairJoin⟩,
  ⟨6, 6, .u8, [(0, 5)], 0, .ro⟩,
  ⟨7, 7, .u32, [(0, 4294967295)], 0, .ro⟩,
  ⟨8, 8, .u32, [(0, 4294967295)], 0, .ro⟩,
  ⟨9, 9, .u24, [(0, 32000)], 0, .ro⟩,
  ⟨10, 10, .s24, [(-8388608, 8388607)], 0, .ro⟩,
  ⟨11, 11, .u32, [(0, 4294967295)], 0, .ro⟩,
  ⟨12, 12, .u32, [(0, 4294967295)], 0, .ro⟩]

/-- Object 0xC000 (R618). -/
def rowsC000 : List PDef := [
  ⟨1, 1, .u16, [(1, 10000)], 60, .tick⟩,
  ⟨2, 2, .u8, [(0, 255)], 16, .tick⟩,
  ⟨3, 3, .u16, [(0, 3600)], 10, .now⟩,
  ⟨4, 4, .u8, [(0, 2)], 0, .now⟩,
  ⟨5, 5, .u32, [(0, 4294967295)], 0, .ro⟩]

/-- Object 0xC010 (R618). -/
def rowsC010 : List PDef := [
  ⟨1, 1, .u16, [(0, 511), (65535, 65535)], 65535, .tick⟩,
  ⟨2, 2, .u8, [(1, 25)], 5, .tick⟩]

/-- Object 0xC100 (R637). -/
def rowsC100 : List PDef := [
  ⟨1, 1, .u32, [(60, 86400)], 3600, .tick⟩,
  ⟨2, 2, .u24, [(1000, 100000)], 30000, .adopted⟩,
  ⟨3, 3, .u16, [(25, 200)], 60, .pass⟩,
  ⟨4, 4, .u8, [(0, 1)], 1, .pass⟩,
  ⟨5, 5, .u16, [(0, 500)], 20, .pass⟩,
  ⟨16, 16, .u24, [(1250, 1000000)], 30250, .ro⟩,
  ⟨17, 17, .s24, [(-8388608, 8388607)], 0, .ro⟩,
  ⟨18, 18, .u16, [(700, 800)], 750, .ro⟩,
  ⟨19, 19, .u16, [(0, 65535)], 0, .ro⟩,
  ⟨20, 20, .u16, [(0, 65535)], 65535, .ro⟩,
  ⟨21, 21, .u8, [(0, 2)], 0, .ro⟩,
  ⟨22, 22, .u32, [(0, 4294967295)], 0, .ro⟩,
  ⟨23, 23, .s24, [(-8388608, 8388607)], 0, .ro⟩,
  ⟨24, 24, .s24, [(-8388608, 8388607)], 0, .ro⟩,
  ⟨25, 25, .u8, [(0, 100)], 0, .ro⟩,
  ⟨26, 26, .u32, [(0, 4294967295)], 0, .ro⟩]

/-- Object 0xC110 (R637). -/
def rowsC110 : List PDef := [
  ⟨1, 1, .u16, [(0, 1000)], 0, .ro⟩,
  ⟨2, 2, .u16, [(0, 1000)], 0, .ro⟩,
  ⟨3, 3, .u16, [(0, 65535)], 0, .ro⟩,
  ⟨4, 4, .u16, [(10, 500)], 40, .pass⟩]

/-- The rows of an object; none where no object has the number. -/
def objectRows (obj : Nat) : List PDef :=
  if obj = 0x1010 then rows1010
  else if obj = 0x3000 then rows3000
  else if obj = 0x3010 then rows3010
  else if obj = 0x4100 then rows4100
  else if obj = 0x4110 then rows4110
  else if obj = 0x4120 then rows4120
  else if obj = 0x4124 then rows4124
  else if obj = 0x4128 then rows4128
  else if obj = 0x4130 then rows4130
  else if obj = 0x4140 then rows4140
  else if obj = 0x4150 then rows4150
  else if obj = 0x4154 then rows4154
  else if obj = 0x4160 then rows4160
  else if obj = 0x4200 then rows4200
  else if obj = 0x4210 then rows4210
  else if obj = 0x4220 then rows4220
  else if obj = 0x4240 then rows4240
  else if obj = 0x4250 then rows4250
  else if obj = 0x4260 then rows4260
  else if obj = 0x6000 then rows6000
  else if obj = 0x6010 then rows6010
  else if obj = 0x6020 then rows6020
  else if obj = 0x6100 then rows6100
  else if obj = 0x6104 then rows6104
  else if obj = 0x6110 then rows6110
  else if obj = 0x6120 then rows6120
  else if obj = 0x6200 then rows6200
  else if obj = 0x6210 then rows6210
  else if obj = 0x6220 then rows6220
  else if obj = 0x6224 then rows6224
  else if obj = 0x6228 then rows6228
  else if obj = 0x6230 then rows6230
  else if obj = 0x7000 then rows7000
  else if obj = 0x7010 then rows7010
  else if obj = 0x7020 then rows7020
  else if obj = 0x8000 then rows8000
  else if obj = 0x8010 then rows8010
  else if obj = 0x8020 then rows8020
  else if obj = 0x9000 then rows9000
  else if obj = 0xA000 then rowsA000
  else if obj = 0xA010 then rowsA010
  else if obj = 0xA020 then rowsA020
  else if obj = 0xA030 then rowsA030
  else if obj = 0xA040 then rowsA040
  else if obj = 0xA050 then rowsA050
  else if obj = 0xB000 then rowsB000
  else if obj = 0xC000 then rowsC000
  else if obj = 0xC010 then rowsC010
  else if obj = 0xC100 then rowsC100
  else if obj = 0xC110 then rowsC110
  else []

/-- Number of instances of an object on the CK-1280 (R6, R14). -/
def objectCount (obj : Nat) : Nat :=
  if obj = 0x1010 then 1
  else if obj = 0x3000 then 1
  else if obj = 0x3010 then 128
  else if obj = 0x4100 then 128
  else if obj = 0x4110 then 128
  else if obj = 0x4120 then 128
  else if obj = 0x4124 then 128
  else if obj = 0x4128 then 128
  else if obj = 0x4130 then 128
  else if obj = 0x4140 then 128
  else if obj = 0x4150 then 128
  else if obj = 0x4154 then 128
  else if obj = 0x4160 then 128
  else if obj = 0x4200 then 128
  else if obj = 0x4210 then 128
  else if obj = 0x4220 then 128
  else if obj = 0x4240 then 128
  else if obj = 0x4250 then 128
  else if obj = 0x4260 then 128
  else if obj = 0x6000 then 8
  else if obj = 0x6010 then 24
  else if obj = 0x6020 then 4
  else if obj = 0x6100 then 8
  else if obj = 0x6104 then 8
  else if obj = 0x6110 then 4
  else if obj = 0x6120 then 8
  else if obj = 0x6200 then 1
  else if obj = 0x6210 then 16
  else if obj = 0x6220 then 4
  else if obj = 0x6224 then 8
  else if obj = 0x6228 then 4
  else if obj = 0x6230 then 5
  else if obj = 0x7000 then 1
  else if obj = 0x7010 then 2
  else if obj = 0x7020 then 8
  else if obj = 0x8000 then 1
  else if obj = 0x8010 then 32
  else if obj = 0x8020 then 4
  else if obj = 0x9000 then 1
  else if obj = 0xA000 then 1
  else if obj = 0xA010 then 8
  else if obj = 0xA020 then 16
  else if obj = 0xA030 then 128
  else if obj = 0xA040 then 8
  else if obj = 0xA050 then 10
  else if obj = 0xB000 then 1
  else if obj = 0xC000 then 1
  else if obj = 0xC010 then 32
  else if obj = 0xC100 then 1
  else if obj = 0xC110 then 5
  else 0

/-- The row of an object and sub-index. -/
def paramDef (obj sub : Nat) : Option PDef :=
  (objectRows obj).find? (fun d => Nat.ble d.first sub && Nat.ble sub d.last)

/-! Names of the parameters: object × 256 + sub-index. -/

namespace Par
abbrev nodeLossCycles : Nat := 0x300001
abbrev enumWindow : Nat := 0x300002
abbrev nodeState : Nat := 0x301001
abbrev crcErrorsP : Nat := 0x301002
abbrev crcErrorsQ : Nat := 0x301003
abbrev acyclicResends : Nat := 0x301004
abbrev extrapCycles : Nat := 0x300003
abbrev hopDelayP : Nat := 0x301005
abbrev hopDelayQ : Nat := 0x301006
abbrev clockOffset : Nat := 0x301007
abbrev clockLocked : Nat := 0x301008
abbrev axisMode : Nat := 0x410001
abbrev fbNum : Nat := 0x410002
abbrev fbDen : Nat := 0x410003
abbrev torqueFs : Nat := 0x410004
abbrev dclinkFs : Nat := 0x410005
abbrev dclinkNom : Nat := 0x410006
abbrev dclinkFf : Nat := 0x410007
abbrev fbMissMax : Nat := 0x410008
abbrev modulo : Nat := 0x410009
abbrev dclinkSrc : Nat := 0x41000A
abbrev enableTimeout : Nat := 0x41000B
abbrev brakeRelease : Nat := 0x41000C
abbrev brakeEngage : Nat := 0x41000D
abbrev velLimit : Nat := 0x412001
abbrev feLimit : Nat := 0x412002
abbrev feTime : Nat := 0x412003
abbrev vffGain : Nat := 0x412004
abbrev posKp : Nat := 0x412005
abbrev delayComp : Nat := 0x412006
abbrev delayInit : Nat := 0x412007
abbrev velKp : Nat := 0x412401
abbrev velKi : Nat := 0x412402
abbrev affGain : Nat := 0x412403
abbrev velLp : Nat := 0x412404
abbrev torqueLimit : Nat := 0x412405
abbrev intLimit : Nat := 0x412406
abbrev delayMeas : Nat := 0x414001
abbrev delayUsed : Nat := 0x414002
abbrev delayMax : Nat := 0x414003
abbrev delayDiscarded : Nat := 0x414004
abbrev posFb : Nat := 0x414005
abbrev velFb : Nat := 0x414006
abbrev followingError : Nat := 0x414007
abbrev torqueOut : Nat := 0x414008
abbrev dclinkMeas : Nat := 0x414009
abbrev saturations : Nat := 0x41400A
abbrev fbInvalid : Nat := 0x41400B
abbrev n1Freq : Nat := 0x413001
abbrev n1Width : Nat := 0x413002
abbrev n1Depth : Nat := 0x413003
abbrev n2Freq : Nat := 0x413004
abbrev n2Width : Nat := 0x413005
abbrev n2Depth : Nat := 0x413006
abbrev kv : Nat := 0x412801
abbrev tn : Nat := 0x412802
abbrev kpv : Nat := 0x412803
abbrev spSource : Nat := 0x411001
abbrev masterKind : Nat := 0x411002
abbrev masterIndex : Nat := 0x411003
abbrev ratioNum : Nat := 0x411004
abbrev ratioDen : Nat := 0x411005
abbrev ratioRate : Nat := 0x411006
abbrev ratioRate2 : Nat := 0x411007
abbrev pulsePerTurn : Nat := 0x411008
abbrev anScale : Nat := 0x411009
abbrev anOffset : Nat := 0x41100A
abbrev streamMissMax : Nat := 0x41100B
abbrev polePairs : Nat := 0x415001
abbrev commOffset : Nat := 0x415002
abbrev curFs : Nat := 0x415003
abbrev sensors : Nat := 0x415004
abbrev ccKp : Nat := 0x415005
abbrev ccKi : Nat := 0x415006
abbrev ld : Nat := 0x415007
abbrev lq : Nat := 0x415008
abbrev psi : Nat := 0x415009
abbrev ccDecouple : Nat := 0x41500A
abbrev idRef : Nat := 0x41500B
abbrev modLimit : Nat := 0x41500C
abbrev ccTrip : Nat := 0x41500D
abbrev stopAction : Nat := 0x41500E
abbrev ascDelay : Nat := 0x41500F
abbrev iD : Nat := 0x415401
abbrev iQ : Nat := 0x415402
abbrev uD : Nat := 0x415403
abbrev uQ : Nat := 0x415404
abbrev thetaS : Nat := 0x415405
abbrev advance : Nat := 0x415406
abbrev voltLimited : Nat := 0x415407
abbrev applyMissed : Nat := 0x415408
abbrev limPosDin : Nat := 0x421003
abbrev limNegDin : Nat := 0x421004
abbrev homeDin : Nat := 0x421005
abbrev swPolarity : Nat := 0x421006
abbrev swFilter : Nat := 0x421007
abbrev profVel : Nat := 0x420001
abbrev profAcc : Nat := 0x420002
abbrev profDec : Nat := 0x420003
abbrev profJerk : Nat := 0x420004
abbrev stopDec : Nat := 0x421001
abbrev stopJerk : Nat := 0x421002
abbrev homeMode : Nat := 0x422001
abbrev homeDir : Nat := 0x422002
abbrev homeVel : Nat := 0x422003
abbrev homeCreep : Nat := 0x422004
abbrev homeAcc : Nat := 0x422005
abbrev homeStopDec : Nat := 0x422006
abbrev homeJerk : Nat := 0x422007
abbrev homeOffset : Nat := 0x422008
abbrev homingChatterMax : Nat := 0x422009
abbrev homeDistMax : Nat := 0x42200A
abbrev stbyMode : Nat := 0x424001
abbrev holdCurrent : Nat := 0x424002
abbrev holdDelay : Nat := 0x424003
abbrev stepTest : Nat := 0x424004
abbrev wakeTime : Nat := 0x424005
abbrev profState : Nat := 0x425001
abbrev queueDepth : Nat := 0x425002
abbrev remaining : Nat := 0x425003
abbrev homed : Nat := 0x425004
abbrev homeRef : Nat := 0x425005
abbrev homeEdges : Nat := 0x425006
abbrev profTarget : Nat := 0x425007
abbrev hostWdTime : Nat := 0x101001
abbrev hostWdAction : Nat := 0x101002
abbrev pwmCountMode : Nat := 0x600001
abbrev pwmPeriod : Nat := 0x600002
abbrev pwmPhase : Nat := 0x600003
abbrev pwmUpdate : Nat := 0x600004
abbrev shadowMode : Nat := 0x600005
abbrev pwmPolarity : Nat := 0x600006
abbrev bootRefreshPeriods : Nat := 0x600007
abbrev bootRefreshWidth : Nat := 0x600008
abbrev dtRise : Nat := 0x601001
abbrev dtFall : Nat := 0x601002
abbrev safeH : Nat := 0x601003
abbrev safeL : Nat := 0x601004
abbrev tripMap : Nat := 0x602001
abbrev tripLatched : Nat := 0x602002
abbrev tripCount : Nat := 0x602003
abbrev stepsPerTurn : Nat := 0x426001
abbrev stepWidth : Nat := 0x426002
abbrev dirSetup : Nat := 0x426003
abbrev runCurrent : Nat := 0x426004
abbrev coilRes : Nat := 0x426005
abbrev fullSteps : Nat := 0x426006
abbrev fbLocal : Nat := 0x416001
abbrev encCountMode : Nat := 0x610001
abbrev encCpt : Nat := 0x610002
abbrev encFilter : Nat := 0x610003
abbrev encWireCheck : Nat := 0x610004
abbrev phaseErrMax : Nat := 0x610005
abbrev encIndexMode : Nat := 0x610006
abbrev indexTol : Nat := 0x610007
abbrev indexFault : Nat := 0x610008
abbrev encStandstill : Nat := 0x610009
abbrev zPolarity : Nat := 0x61000A
abbrev encCount : Nat := 0x610401
abbrev encSpeed : Nat := 0x610402
abbrev phaseErrors : Nat := 0x610403
abbrev indexDev : Nat := 0x610404
abbrev wireFaults : Nat := 0x610405
abbrev encState : Nat := 0x610406
abbrev prbEdge : Nat := 0x612001
abbrev prbMode : Nat := 0x612002
abbrev prbSource : Nat := 0x612003
abbrev prbQueued : Nat := 0x612004
abbrev prbOverflows : Nat := 0x612005
abbrev ssiPosBits : Nat := 0x611001
abbrev ssiStatusBits : Nat := 0x611002
abbrev ssiCheck : Nat := 0x611003
abbrev ssiClock : Nat := 0x611004
abbrev ssiRecovery : Nat := 0x611005
abbrev ssiGray : Nat := 0x611006
abbrev ssiLatency : Nat := 0x611007
abbrev ssiSampleDelay : Nat := 0x611008
abbrev ssiTurnBits : Nat := 0x611009
abbrev ssiErrorMask : Nat := 0x61100A
abbrev ssiTriggerSlot : Nat := 0x61100B
abbrev ssiRetries : Nat := 0x61100C
abbrev ssiInvalid : Nat := 0x61100D
abbrev liveCalInterval : Nat := 0x620001
abbrev adcDriftLimit : Nat := 0x620002
abbrev refState : Nat := 0x620003
abbrev calState6200 : Nat := 0x620004
abbrev spareCore : Nat := 0x620005
abbrev ainResult : Nat := 0x621001
abbrev ainStamp : Nat := 0x621002
abbrev ainFlags : Nat := 0x621003
abbrev seqTrigger : Nat := 0x622001
abbrev seqDelay : Nat := 0x622002
abbrev seqLength : Nat := 0x622003
abbrev seqEntry0 : Nat := 0x622010
abbrev injTrigger : Nat := 0x622401
abbrev injDelay : Nat := 0x622402
abbrev injLength : Nat := 0x622403
abbrev injEntry0 : Nat := 0x622410
abbrev atimPeriod : Nat := 0x622801
abbrev atimPhase : Nat := 0x622802
abbrev calOffset : Nat := 0x623001
abbrev calGain : Nat := 0x623002
abbrev calLin0 : Nat := 0x623003
abbrev rateTrim : Nat := 0x700001
abbrev rateTotal : Nat := 0x700002
abbrev slewRemaining : Nat := 0x700003
abbrev ptpRole : Nat := 0x700004
abbrev ptpDomain : Nat := 0x700005
abbrev ptpPriority1 : Nat := 0x700006
abbrev ptpPriority2 : Nat := 0x700007
abbrev ptpClockClass : Nat := 0x700008
abbrev ptpTransport : Nat := 0x700009
abbrev ptpLockLimit : Nat := 0x70000A
abbrev ptpStepLimit : Nat := 0x70000B
abbrev ptpOffset : Nat := 0x70000C
abbrev ptpState : Nat := 0x70000D
abbrev ptpPortEnable : Nat := 0x701001
abbrev delayMech : Nat := 0x701002
abbrev logSync : Nat := 0x701003
abbrev logAnnounce : Nat := 0x701004
abbrev logMinDelayReq : Nat := 0x701005
abbrev phyTxDelay : Nat := 0x701006
abbrev phyRxDelay : Nat := 0x701007
abbrev delayAsym : Nat := 0x701008
abbrev meanPathDelay : Nat := 0x701009
abbrev portState : Nat := 0x70100A
abbrev toutPolarity : Nat := 0x702001
abbrev toutState : Nat := 0x702002
abbrev toutSkipped : Nat := 0x702003
abbrev calRowClock : Nat := 0x800001
abbrev calChannels : Nat := 0x800002
abbrev calSegments : Nat := 0x800003
abbrev segListLen : Nat := 0x800004
abbrev trigKind : Nat := 0x800005
abbrev trigChannel : Nat := 0x800006
abbrev trigDir : Nat := 0x800007
abbrev trigLevel : Nat := 0x800008
abbrev trigHyst : Nat := 0x800009
abbrev trigHigh : Nat := 0x80000A
abbrev trigIndex : Nat := 0x80000B
abbrev trigOutLine : Nat := 0x80000C
abbrev maskEnable : Nat := 0x80000D
abbrev spillEnable : Nat := 0x80000E
abbrev spillBase : Nat := 0x80000F
abbrev spillSize : Nat := 0x800010
abbrev busRole : Nat := 0x800011
abbrev calState8000 : Nat := 0x800012
abbrev stopReason : Nat := 0x800013
abbrev syncState : Nat := 0x800014
abbrev syncOffset : Nat := 0x800015
abbrev capSignal : Nat := 0x801001
abbrev capQuantity : Nat := 0x801002
abbrev maskPoints : Nat := 0x801003
abbrev maskStart : Nat := 0x801004
abbrev calSkew : Nat := 0x801005
abbrev busDelay : Nat := 0x802001
abbrev pdHoldMax : Nat := 0x900001
abbrev pcieOutHi : Nat := 0x900002
abbrev dmaTransients : Nat := 0x900003
abbrev safetyState : Nat := 0xA00001
abbrev safeAddr : Nat := 0xA00002
abbrev imageSig : Nat := 0xA00003
abbrev resetSin : Nat := 0xA00004
abbrev tpWidth : Nat := 0xA00005
abbrev tpPeriod : Nat := 0xA00006
abbrev pairMode : Nat := 0xA01001
abbrev sinFilter : Nat := 0xA01002
abbrev sinDiscrepancy : Nat := 0xA01003
abbrev pairStateA010 : Nat := 0xA01004
abbrev fnKind : Nat := 0xA02001
abbrev fnTrigger : Nat := 0xA02002
abbrev fnSout : Nat := 0xA02003
abbrev fnLocal : Nat := 0xA02004
abbrev ss1Time : Nat := 0xA02005
abbrev fnRestart : Nat := 0xA02006
abbrev fnState : Nat := 0xA02007
abbrev connId : Nat := 0xA03001
abbrev connNode : Nat := 0xA03002
abbrev connPeriod : Nat := 0xA03003
abbrev connWd : Nat := 0xA03004
abbrev connLen : Nat := 0xA03005
abbrev connFns : Nat := 0xA03006
abbrev connSig : Nat := 0xA03007
abbrev connMode : Nat := 0xA03008
abbrev connState : Nat := 0xA03009
abbrev connErrors : Nat := 0xA0300A
abbrev connTimeouts : Nat := 0xA0300B
abbrev rtConn : Nat := 0xA04001
abbrev rtBit : Nat := 0xA04002
abbrev soutState : Nat := 0xA05001
abbrev soutFaults : Nat := 0xA05002
abbrev pairId : Nat := 0xB00001
abbrev gripCycles : Nat := 0xB00002
abbrev mirrorTol : Nat := 0xB00003
abbrev mirrorLossCycles : Nat := 0xB00004
abbrev tieDelay : Nat := 0xB00005
abbrev pairStateB000 : Nat := 0xB00006
abbrev gripEpoch : Nat := 0xB00007
abbrev leaseEnd : Nat := 0xB00008
abbrev tieMeasured : Nat := 0xB00009
abbrev partnerOffset : Nat := 0xB0000A
abbrev divergences : Nat := 0xB0000B
abbrev comparesSkipped : Nat := 0xB0000C
abbrev transientRateMax : Nat := 0xC00001
abbrev faultStormMax : Nat := 0xC00002
abbrev shvHoldoff : Nat := 0xC00003
abbrev pfailSource : Nat := 0xC00004
abbrev transientCount : Nat := 0xC00005
abbrev shvSignal : Nat := 0xC01001
abbrev shvQuantity : Nat := 0xC01002
abbrev truingInterval : Nat := 0xC10001
abbrev truingGuard : Nat := 0xC10002
abbrev slackTarget : Nat := 0xC10003
abbrev avsEnable : Nat := 0xC10004
abbrev lifeWarn : Nat := 0xC10005
abbrev derating : Nat := 0xC10010
abbrev slowdown : Nat := 0xC10011
abbrev coreMvReq : Nat := 0xC10012
abbrev coreMvRead : Nat := 0xC10013
abbrev lifeRemaining : Nat := 0xC10014
abbrev truingState : Nat := 0xC10015
abbrev passes : Nat := 0xC10016
abbrev refDrift : Nat := 0xC10017
abbrev bandgapDrift : Nat := 0xC10018
abbrev mramMargin : Nat := 0xC10019
abbrev opHours : Nat := 0xC1001A
abbrev eyeHeight : Nat := 0xC11001
abbrev eyeWidth : Nat := 0xC11002
abbrev eqSetting : Nat := 0xC11003
abbrev eyeMin : Nat := 0xC11004
end Par

end Sys2Proof.Machine
end

