-- ==== Sys2Proof/Machine/Ops.lean ====
section
/-! DEFINITION. The named operations that every unit shares: tables, the canonical byte memories, byte strings, device
time, and reading and writing the parameter store. -/

namespace Sys2Proof.Machine

/-! ### Tables -/

/-- The entry of number `k`, if the table has one. -/
def tfind {α : Type} : Table α → Nat → Option α
  | [], _ => none
  | (i, v) :: r, k => if i = k then some v else tfind r k

/-- The thing of number `k`; the default where the table has no entry. -/
def tget {α : Type} (t : Table α) (d : α) (k : Nat) : α := (tfind t k).getD d

/-- Writes the thing of number `k`, keeping the entries in rising order of number. -/
def tput {α : Type} : Table α → Nat → α → Table α
  | [], k, v => [(k, v)]
  | (i, w) :: r, k, v =>
    if k < i then (k, v) :: (i, w) :: r else if k = i then (k, v) :: r else (i, w) :: tput r k v

/-- Removes the entry of number `k`. -/
def tdel {α : Type} : Table α → Nat → Table α
  | [], _ => []
  | (i, w) :: r, k => if i = k then tdel r k else (i, w) :: tdel r k

/-- Changes the thing of number `k`. -/
def tmod {α : Type} (t : Table α) (d : α) (k : Nat) (f : α → α) : Table α := tput t k (f (tget t d k))

/-- Changes every entry of a table. -/
def tmap {α : Type} (t : Table α) (f : Nat → α → α) : Table α := t.map (fun e => (e.1, f e.1 e.2))

/-! ### Memories -/

/-- The byte at an address; 0 where the list has no entry (log 6). -/
def memGet : List Host.Cell → Nat → Byte
  | [], _ => 0
  | (i, v) :: r, a => if i = a then v else memGet r a

/-- Removes the entry of an address. -/
def memClear : List Host.Cell → Nat → List Host.Cell
  | [], _ => []
  | (i, v) :: r, a => if a < i then (i, v) :: r else if a = i then r else (i, v) :: memClear r a

/-- Sets the entry of an address to a byte that is not 0. -/
def memSet : List Host.Cell → Nat → Byte → List Host.Cell
  | [], a, b => [(a, b)]
  | (i, v) :: r, a, b =>
    if a < i then (a, b) :: (i, v) :: r else if a = i then (a, b) :: r else (i, v) :: memSet r a b

/-- Writes one byte and keeps the canonical form: writing 0 removes the entry. -/
def memPut (m : List Host.Cell) (a : Nat) (b : Byte) : List Host.Cell :=
  if b = 0 then memClear m a else memSet m a b

/-- The canonical form of a memory: addresses strictly rising from `lo`, no byte 0. -/
def Memory.wfFrom : Nat → List Host.Cell → Bool
  | _, [] => true
  | lo, (i, v) :: r => Nat.ble lo i && v != 0 && Memory.wfFrom (i + 1) r

/-- The canonical form of a memory. -/
def Memory.wf (m : List Host.Cell) : Bool := Memory.wfFrom 0 m

/-- Reads `n` bytes from an address upward. -/
def memRead (m : List Host.Cell) (a : Nat) : Nat → Bytes
  | 0 => []
  | n + 1 => memGet m a :: memRead m (a + 1) n

/-- Writes bytes from an address upward. -/
def memWrite (m : List Host.Cell) (a : Nat) : Bytes → List Host.Cell
  | [] => m
  | b :: r => memWrite (memPut m a b) (a + 1) r

/-- The canonical list of bytes that lie from an address upward. -/
def cellsFrom (a : Nat) : Bytes → List Host.Cell
  | [] => []
  | b :: r => if b = 0 then cellsFrom (a + 1) r else (a, b) :: cellsFrom (a + 1) r

/-- The entries of the `n` addresses from `a`, moved to begin at 0. -/
def memSlice (m : List Host.Cell) (a n : Nat) : List Host.Cell :=
  (m.filter (fun c => Nat.ble a c.1 && Nat.blt c.1 (a + n))).map (fun c => (c.1 - a, c.2))

/-- Clears `n` bytes from an address upward. -/
def memZero (m : List Host.Cell) (a n : Nat) : List Host.Cell :=
  m.filter (fun c => Nat.blt c.1 a || Nat.ble (a + n) c.1)

/-- Copies a canonical list of bytes to the addresses from `a` upward, over `n` bytes. -/
def memPaste (m : List Host.Cell) (a n : Nat) (src : List Host.Cell) : List Host.Cell :=
  m.filter (fun c => Nat.blt c.1 a) ++ (src.filter (fun c => Nat.blt c.1 n)).map (fun c => (c.1 + a, c.2)) ++
    m.filter (fun c => Nat.ble (a + n) c.1)

/-! ### Byte strings (R11) -/

/-- `n` bytes of a number, least significant first. -/
def leBytes : Nat → Nat → Bytes
  | 0, _ => []
  | n + 1, v => BitVec.ofNat 8 v :: leBytes n (v / 256)

/-- The number that bytes spell, least significant first. -/
def leNat : Bytes → Nat
  | [] => 0
  | b :: r => b.toNat + 256 * leNat r

/-- `n` bytes of a number, most significant first (network order). -/
def beBytes (n v : Nat) : Bytes := (leBytes n v).reverse

/-- An integer as an unsigned number of `w` bits, two's complement. -/
def twos (w : Nat) (v : Int) : Nat := (v % (2 ^ w : Nat)).toNat

/-- The signed value of the low `w` bits of a number. -/
def signed (w : Nat) (v : Nat) : Int :=
  let u := v % 2 ^ w
  if u < 2 ^ (w - 1) then (u : Int) else (u : Int) - (2 ^ w : Nat)

/-- `n` bytes of a signed integer. -/
def sleBytes (n : Nat) (v : Int) : Bytes := leBytes n (twos (8 * n) v)

/-- Bytes `o` to `o + n - 1` of a string; bytes past its end are 0. -/
def slice (b : Bytes) (o n : Nat) : Bytes :=
  let r := (b.drop o).take n
  r ++ List.replicate (n - r.length) 0

/-- Unsigned field of `n` bytes at byte `o`. -/
def uAt (b : Bytes) (o n : Nat) : Nat := leNat (slice b o n)

/-- Signed field of `n` bytes at byte `o`. -/
def sAt (b : Bytes) (o n : Nat) : Int := signed (8 * n) (uAt b o n)

/-- Replaces the bytes from `o` on by `v`; the string keeps its length where it is long enough. -/
def patch (b : Bytes) (o : Nat) (v : Bytes) : Bytes := slice b 0 o ++ v ++ b.drop (o + v.length)

/-- `n` zero bytes. -/
def zeros (n : Nat) : Bytes := List.replicate n 0

/-- Bit `i` of a number. -/
def bitOf (v i : Nat) : Bool := v / 2 ^ i % 2 == 1

/-- 1 for true. -/
def bit (b : Bool) : Nat := if b then 1 else 0

/-- Bits `i` upward of a number, `n` of them. -/
def bitsOf (v i n : Nat) : Nat := v / 2 ^ i % 2 ^ n

/-! ### Integer arithmetic -/

/-- Quotient rounded to the nearest integer, a tie to the even one (convergent rounding); divisor above 0. -/
def rdiv (n d : Int) : Int :=
  let q := n / d
  let r := n % d
  if 2 * r > d ∨ (2 * r = d ∧ q % 2 = 1) then q + 1 else q

/-- Quotient rounded up; divisor above 0. -/
def cdivN (n d : Nat) : Nat := (n + d - 1) / d

/-- Newton steps towards the integer square root of `n`, from above. -/
def isqrtGo (n : Nat) : Nat → Nat → Nat
  | 0, x => x
  | f + 1, x =>
    let y := (x + n / x) / 2
    if y < x then isqrtGo n f y else x

/-- The integer square root: the largest number whose square is at most `n`. -/
def isqrt (n : Nat) : Nat := if n = 0 then 0 else isqrtGo n (n.log2 + 8) (2 ^ (n.log2 / 2 + 1))

/-- A value held inside bounds. -/
def clampI (v lo hi : Int) : Int := if v < lo then lo else if v > hi then hi else v

/-- The sign of an integer. -/
def sgn (v : Int) : Int := if v < 0 then -1 else if v = 0 then 0 else 1

/-- Saturating increment of a 32-bit counter. -/
def inc32 (n : Nat) : Nat := if n < 4294967295 then n + 1 else 4294967295

/-- Puts an integer into a sorted list. -/
def insertI (v : Int) : List Int → List Int
  | [] => [v]
  | w :: r => if v ≤ w then v :: w :: r else w :: insertI v r

/-- A list in rising order. -/
def sortI (l : List Int) : List Int := l.foldr insertI []

/-- Median of a list of integers: the middle one of the sorted list, the lower of the two middle ones rounded with the
upper towards the even value where the list has an even length. -/
def median (l : List Int) : Int :=
  let m := sortI l
  let n := m.length
  if n = 0 then 0
  else if n % 2 = 1 then (m[n / 2]?).getD 0
  else rdiv ((m[n / 2 - 1]?).getD 0 + (m[n / 2]?).getD 0) 2

/-! ### Device time (R462 to R464) -/

/-- Units of device time in a nanosecond: 2^32 (log 10). -/
abbrev nsU : Nat := 4294967296
/-- Units in a second. -/
abbrev secU : Nat := 1000000000 * nsU
/-- Device time wraps after 2^48 s (R462). -/
abbrev wrapU : Nat := 281474976710656 * secU
/-- Units in 2.5 ns, the nominal step of a time-clock period. -/
abbrev stepU : Nat := 10737418240
/-- Units in 625 ps, a fine step (R395, R463). -/
abbrev fineU : Nat := 2684354560

/-- Device time in whole nanoseconds: what a TIME stamp holds. -/
def nowNs (s : State) : Nat := s.time.now / nsU

/-- Seconds of device time. -/
def nowSec (s : State) : Nat := s.time.now / secU

/-- A TIME of ten bytes from nanoseconds (R16). -/
def timeBytes (ns : Nat) : Bytes := leBytes 6 (ns / 1000000000) ++ leBytes 4 (ns % 1000000000)

/-- The rate correction of a number of ppb per time-clock period, rounded convergently to 2^-32 ns (R464). -/
def rhoOf (ppb : Int) : Int := rdiv (ppb * stepU) 1000000000

/-- Device time and the slew's remaining offset after `n` time-clock periods (R462, R464, R466). -/
def tickClock (n : Nat) (t : TimeSt) : TimeSt :=
  let slewStep := t.rho - rhoOf t.trim
  { t with
    now := ((t.now + n * stepU : Int) + n * t.rho).toNat % wrapU,
    slewLeft := if t.slew = 0 then t.slewLeft else t.slewLeft - n * slewStep }

/-- Time-clock periods until a slew has removed its offset. -/
def slewClocks (t : TimeSt) : Nat := if t.slewLeft * sgn t.slew ≤ 0 then 0 else cdivN t.slewLeft.natAbs (t.rho - rhoOf t.trim).natAbs

/-- `n` time-clock periods pass. While the cycle is stopped a slew ends in the period that removes its offset (R465, R466); while it runs,
the ramp at the ticks ends it. -/
def runClock (running : Bool) (n : Nat) (t : TimeSt) : TimeSt :=
  let k := slewClocks t
  if running || t.slew == 0 || Nat.blt n k then tickClock n t
  else tickClock (n - k) { tickClock k t with slew := 0, rho := rhoOf t.trim }

/-- Time-clock periods until device time has gone on by a span. -/
def clocksFor (running : Bool) (span : Nat) (t : TimeSt) : Nat :=
  let k := slewClocks t
  let v := ((stepU : Int) + t.rho).toNat
  if running || t.slew == 0 || Nat.ble span (k * v) then cdivN span v
  else k + cdivN (span - k * v) ((stepU : Int) + rhoOf t.trim).toNat

/-- Seconds of the keeper after device time has gone on (R468): it takes the seconds of device time at a carry. -/
def keptSec (old new keeper : Nat) : Nat := if new / secU = old / secU then keeper else new / secU

/-- Device time in ns as the clocks of the safety unit would count it: they run on while the time clock stands (R25, R413). -/
def safeNs (s : State) : Nat := (s.time.now + s.time.stoppedFor) / nsU

/-- Powered operating hours (R635). -/
def opHours (s : State) : Nat := s.time.poweredFor / (3600 * secU) % 4294967296

/-- Lets `n` time-clock periods pass. Device time stands still while the time clock is stopped (R413); in STANDBY the
keeper counts on its own crystal, taken as exact (R468); in OFF nothing counts. -/
def advance (n : Nat) (s : State) : State :=
  match s.dev.mode with
  | .off => s
  | .standby =>
    let t := (s.time.now + n * stepU) % wrapU
    { s with time := { s.time with now := t, keeper := (s.time.keeper + (s.time.now + n * stepU) / secU - s.time.now / secU) % 281474976710656 } }
  | _ =>
    if s.time.stopped then
      { s with time := { s.time with stoppedFor := s.time.stoppedFor + n * stepU, haltFor := s.time.haltFor + n * stepU,
                                     poweredFor := s.time.poweredFor + n * stepU } }
    else
      let t := runClock s.cyc.running n s.time
      { s with time := { t with keeper := keptSec s.time.now t.now s.time.keeper, poweredFor := s.time.poweredFor + n * stepU } }

/-- Lets time pass until device time reaches or passes an instant. -/
def advanceTo (at_ : Nat) (s : State) : State :=
  if at_ ≤ s.time.now then s
  else advance (clocksFor s.cyc.running (at_ - s.time.now) s.time) s

/-! ### Variants (R3, R5, R355, R356) -/

/-- A wire fault of an encoder channel is active (R426). -/
def EncCh.wire (e : EncCh) : Bool := e.stuckPairs != []

/-- Number of axes. -/
def axisCount : Variant → Nat
  | .ck1280 => 128 | .ck1264 => 64 | .ck1232 => 32
/-- Number of rings. -/
def ringCount : Variant → Nat
  | .ck1280 => 2 | _ => 1
/-- Nodes per ring. -/
def nodeMax : Variant → Nat
  | .ck1232 => 32 | _ => 64
/-- Number of loop engines. -/
def engineCount : Variant → Nat
  | .ck1280 => 16 | .ck1264 => 8 | .ck1232 => 4
/-- Local axis unit slots. -/
def slotCount : Variant → Nat
  | .ck1280 => 8 | .ck1264 => 4 | .ck1232 => 0
/-- A local axis unit, a safety unit and calipers are present. -/
def hasLocal : Variant → Bool
  | .ck1232 => false | _ => true
/-- Central current, mirror link and timed frame launch are present. -/
def isFull : Variant → Bool
  | .ck1280 => true | _ => false
/-- PCIe device ID. -/
def deviceId : Variant → Nat
  | .ck1280 => 0x4B80 | .ck1264 => 0x4B64 | .ck1232 => 0x4B32
/-- CAPS0 of R356. -/
def caps0 : Variant → Nat
  | .ck1280 => 0xFFFF01FF | .ck1264 => 0x00FF0139 | .ck1232 => 0x000F0101
/-- CAPS1 of R356. -/
def caps1 : Variant → Nat
  | .ck1280 => 0x40800FFF | .ck1264 => 0x4040030F | .ck1232 => 0x20200000

/-- The variant of the part. -/
def State.var (s : State) : Variant := s.board.variant

/-- IDENT (R355). -/
def identWord (s : State) : Nat := deviceId s.var + 0xB0 * 65536

/-- FW_VERSION (R355): 0 until firmware runs, then release 3.2 with its patch level. -/
def fwWord (s : State) : Nat := if s.dev.fwRunning then 0x00030200 + s.dev.fwPatch % 256 else 0

/-- The period of a rate code in ns (R41). -/
def periodNs : Nat → Nat
  | 0 => 125000 | 1 => 62500 | 2 => 31250 | _ => 15625
/-- Engine clocks per cycle (R41). -/
def cycleClocks (rate : Nat) : Nat := periodNs rate * 8 / 10
/-- Base rate in Hz (R41). -/
def rateHz (rate : Nat) : Nat := 1000000000 / periodNs rate
/-- The period of the running cycle in ns. -/
def State.period (s : State) : Nat := periodNs s.cyc.rate
/-- Device time of tick `n` in ns under R43. -/
def tickNs (rate n : Nat) : Nat := n * periodNs rate
/-- Device time of tick `n` in units. -/
def tickU (rate n : Nat) : Nat := tickNs rate n * nsU

/-! ### Parameters (R14, R15) -/

/-- Key of instance `i` of a parameter given as object × 256 + sub-index. -/
def pkey (n i : Nat) : Nat := n * 256 + i

/-- Whether an instance of an object is absent on a variant (R5, R14). -/
def absentParam (v : Variant) (obj i : Nat) : Bool :=
  let hi := obj / 4096
  let o := obj / 16
  if hi = 4 then
    Nat.ble (axisCount v) i || ((obj = 0x4150 || obj = 0x4154 || obj = 0x4240 || obj = 0x4260 || obj = 0x4160) && !hasLocal v)
  else if obj = 0x3010 then Nat.ble (ringCount v) (i / 64) || Nat.ble (nodeMax v) (i % 64)
  else if o = 0x600 then Nat.ble (slotCount v) i
  else if o = 0x601 then Nat.ble (3 * slotCount v) i
  else if o = 0x602 then !hasLocal v
  else if o = 0x610 || o = 0x612 then Nat.ble (slotCount v) i
  else if o = 0x611 then Nat.ble (slotCount v) (2 * i)
  else if hi = 6 then
    !hasLocal v || (obj = 0x6210 && Nat.ble (2 * slotCount v) i) || (obj = 0x6224 && Nat.ble (slotCount v) i)
  else if hi = 8 then !hasLocal v
  else if hi = 10 then !hasLocal v
  else if hi = 11 then !isFull v
  else if obj = 0xC110 then !(isFull v || Nat.blt i 2)
  else false

/-- The switch parameters of an axis are absent without a local axis unit (R250). -/
def absentSwitch (v : Variant) (n : Nat) : Bool :=
  !hasLocal v && Nat.ble Par.limPosDin n && Nat.ble n Par.swFilter

/-- The default of a parameter (R15, R701). -/
def pDefault (n : Nat) : Int :=
  match paramDef (n / 256) (n % 256) with
  | some d => d.dflt
  | none => 0

/-- The value in force of a parameter (R15): 0 where the instance is absent. -/
def par (s : State) (n i : Nat) : Int :=
  if absentParam s.var (n / 256) i || absentSwitch s.var n then 0
  else (tfind s.par.active (pkey n i)).getD (pDefault n)

/-- The value in force as a natural number. -/
def parN (s : State) (n i : Nat) : Nat := (par s n i).toNat

/-- The value last written (R15). -/
def parWritten (s : State) (n i : Nat) : Int :=
  if absentParam s.var (n / 256) i || absentSwitch s.var n then 0
  else (tfind s.par.written (pkey n i)).getD (pDefault n)

/-- Puts a value in force. -/
def parSet (s : State) (n i : Nat) (v : Int) : State :=
  { s with par := { s.par with active := tput s.par.active (pkey n i) v } }

/-- Takes the values last written of the parameters of one kind and one selection of keys into force. -/
def parPromote (s : State) (sel : Nat → Nat → Bool) (e : Eff) : State :=
  { s with par := { s.par with
      active := s.par.written.foldl
        (fun t w =>
          let n := w.1 / 256
          match paramDef (n / 256) (n % 256) with
          | some d => if d.eff = e ∧ sel n (w.1 % 256) then tput t w.1 w.2 else t
          | none => t)
        s.par.active } }

/-- The writes that wait and take effect at a tick of device time `ns`: their stamps are strictly earlier (R15). They
apply in stamp order (R202). -/
def parTick (ns : Nat) (p : Params) : Params :=
  { p with
    active := (p.waiting.filter (fun w => Nat.blt w.stamp ns)).foldl (fun t w => tput t w.key w.value) p.active,
    waiting := p.waiting.filter (fun w => !Nat.blt w.stamp ns) }

/-- An axis. -/
def State.axis (s : State) (a : Nat) : Axis := tget s.axes {} a
/-- Changes an axis. -/
def State.onAxis (s : State) (a : Nat) (f : Axis → Axis) : State := { s with axes := tmod s.axes {} a f }
/-- A ring. -/
def State.ring (s : State) (r : Nat) : Ring := tget s.rings {} r
/-- Changes a ring. -/
def State.onRing (s : State) (r : Nat) (f : Ring → Ring) : State := { s with rings := tmod s.rings {} r f }
/-- What a task carries from cycle to cycle. -/
def State.long (s : State) (i : Nat) : TaskLong := tget s.cyc.long {} i
/-- Changes what a task carries from cycle to cycle. -/
def State.onLong (s : State) (i : Nat) (f : TaskLong → TaskLong) : State := { s with cyc := { s.cyc with long := tmod s.cyc.long {} i f } }
/-- A loop engine. -/
def State.engine (s : State) (e : Nat) : Engine := tget s.disp.engines {} e
/-- Changes a loop engine. -/
def State.onEngine (s : State) (e : Nat) (f : Engine → Engine) : State :=
  { s with disp := { s.disp with engines := tmod s.disp.engines {} e f } }
/-- An interpolation group. -/
def State.group (s : State) (g : Nat) : Group := tget s.groups {} g
/-- Changes an interpolation group. -/
def State.onGroup (s : State) (g : Nat) (f : Group → Group) : State := { s with groups := tmod s.groups {} g f }
/-- A mailbox's registers. -/
def State.mbox (s : State) (m : Nat) : RingRegs := tget s.host.mbs {} m
/-- Changes a mailbox's registers. -/
def State.onMbox (s : State) (m : Nat) (f : RingRegs → RingRegs) : State :=
  { s with host := { s.host with mbs := tmod s.host.mbs {} m f } }
/-- Reads the shared state SRAM. -/
def State.sramRead (s : State) (a n : Nat) : Bytes := memRead s.mem.sram a n
/-- Writes the shared state SRAM. -/
def State.sramWrite (s : State) (a : Nat) (b : Bytes) : State :=
  { s with mem := { s.mem with sram := memWrite s.mem.sram a b } }

end Sys2Proof.Machine
end

