-- ==== Sys2Proof/Machine/Profile.lean ====
section
/-! DEFINITION. Jerk-limited profiles: evaluation at an instant (R237), the seven-segment move from rest (R240, R241),
stop ramps (R254), re-planning in motion (R253), and ratio ramps (R195, R205). Positions and derivatives are integers in
units of 2^-48, durations in units of 2^-32 ns; the internal precision is named in log 11. -/

namespace Sys2Proof.Machine

/-- Time units in a second, as an integer. -/
abbrev tS : Int := 4294967296000000000

/-- State of a segment after `tau` time units (R237). -/
def segAt (g : Seg) (tau : Int) : Kin :=
  { x := g.x + rdiv (6 * tS * tS * g.v * tau + 3 * tS * g.a * tau * tau + g.j * tau * tau * tau) (6 * tS * tS * tS),
    v := g.v + rdiv (2 * tS * g.a * tau + g.j * tau * tau) (2 * tS * tS),
    a := g.a + rdiv (g.j * tau) tS,
    j := g.j }

/-- State at the end of a segment. -/
def segEnd (g : Seg) : Kin := segAt g g.dur

/-- Instant at which a plan ends. -/
def planEnd : List Seg → Nat → Nat
  | [], t => t
  | g :: r, _ => planEnd r (g.t + g.dur)

/-- State of a plan at an instant: the segment that holds it; after the last one, none. -/
def planAt : List Seg → Nat → Option Kin
  | [], _ => none
  | g :: r, t => if t < g.t + g.dur then some (segAt g ((t : Int) - g.t)) else planAt r t

/-- State at the end of a plan that starts from `k`. -/
def planLast (k : Kin) : List Seg → Kin
  | [] => k
  | g :: r => planLast (segEnd g) r

/-- Builds a plan from a start state and a list of jerks and durations; segments of no duration are left out. -/
def build (t : Nat) (k : Kin) : List (Int × Nat) → List Seg
  | [] => []
  | (j, d) :: r =>
    if d = 0 then build t k r
    else
      let g : Seg := { t := t, dur := d, x := k.x, v := k.v, a := k.a, j := j }
      g :: build (t + d) (segEnd g) r

/-- Duration of `n / d` seconds in time units, rounded; 0 where the divisor is not above 0. -/
def durOf (n d : Int) : Nat := if d ≤ 0 then 0 else (rdiv (n * tS) d).toNat

/-- Duration of the square root of `n / d` seconds. -/
def durSqrt (n d : Int) : Nat :=
  if d ≤ 0 ∨ n ≤ 0 then 0 else isqrt ((n * tS * tS / d).toNat)

/-- The square root of `n` in units of 2^-48, where `n` is in units of 2^-96. -/
def sqrtQ (n : Int) : Int := (isqrt n.toNat : Int)

/-- T_jX of R240 for a peak velocity. -/
def jerkTime (v x j : Int) : Nat := if v * j ≥ x * x then durOf x j else durSqrt v j

/-- T_X of R240. -/
def phaseTime (v x j : Int) : Nat :=
  if v * j ≥ x * x then durOf (v * j + x * x) (x * j) else 2 * durSqrt v j

/-- s_X of R240: the distance of a phase, v T_X / 2. -/
def phaseDist (v x j : Int) : Int := v * phaseTime v x j / (2 * tS)

/-- The largest velocity in [lo, hi) at which a rising distance is at most `goal`, by halving. -/
def bisect (dist : Int → Int) (goal : Int) : Nat → Int → Int → Int
  | 0, lo, _ => lo
  | f + 1, lo, hi =>
    let m := (lo + hi) / 2
    if dist m ≤ goal then bisect dist goal f m hi else bisect dist goal f lo m

/-- Peak velocity of R241. -/
def peakVel (dist : Int) (l : Limits) : Int :=
  let f := fun v => phaseDist v l.a l.j + phaseDist v l.d l.j
  if f l.v ≤ dist then l.v else bisect f dist 104 0 l.v

/-- The move of signed distance `delta` from rest at `x` (R240 to R242); empty where the distance is 0. -/
def planRest (t : Nat) (x delta : Int) (l : Limits) : List Seg :=
  if delta = 0 then []
  else
    let s := sgn delta
    let dist := s * delta
    let v := peakVel dist l
    if v ≤ 0 then []
    else
      let ta := phaseTime v l.a l.j
      let tja := jerkTime v l.a l.j
      let td := phaseTime v l.d l.j
      let tjd := jerkTime v l.d l.j
      let tc := if v < l.v then 0 else (rdiv (2 * dist * tS - v * (ta + td : Nat)) (2 * v)).toNat
      build t { x := x } [(s * l.j, tja), (0, ta - 2 * tja), (-(s * l.j), tja), (0, tc), (-(s * l.j), tjd),
        (0, td - 2 * tjd), (s * l.j, tjd)]

/-- Jerks and durations of a stop ramp from velocity `v > 0` and acceleration `a`, both along the motion (R254): jerk
against the motion until the deceleration is D', D' held, jerk towards 0. -/
def stopShape (v a d j : Int) : List (Int × Nat) :=
  -- velocity left if the acceleration is brought to 0 at once
  if a < 0 ∧ 2 * j * v < a * a then
    -- no D' is feasible: jerk towards 0 at once, as small as it may be
    if v ≤ 0 then [] else [(rdiv (a * a) (2 * v), durOf (2 * v) (-a))]
  else
    let b := min d (sqrtQ (j * v + a * a / 2))
    if a < 0 ∧ b < -a then
      -- the deceleration already exceeds D': it falls to D' first
      let vEnd := 2 * j * v - a * a
      [(j, durOf (-a - b) j), (0, durOf vEnd (2 * j * b)), (j, durOf b j)]
    else
      let hold := 2 * j * v + a * a - 2 * b * b
      [(-j, durOf (a + b) j), (0, if hold ≤ 0 then 0 else durOf hold (2 * j * b)), (j, durOf b j)]

/-- Multiplies every jerk by a sign. -/
def signed3 (s : Int) (l : List (Int × Nat)) : List (Int × Nat) := l.map (fun e => (s * e.1, e.2))

/-- The stop ramp of R254 from a state in motion. -/
def planStop (t : Nat) (k : Kin) (d j : Int) : List Seg :=
  let s := if k.v = 0 then sgn k.a else sgn k.v
  if s = 0 then [] else build t { k with j := 0 } (signed3 s (stopShape (s * k.v) (s * k.a) d j))

/-- Where a plan from `k` ends. -/
def endOf (k : Kin) (p : List Seg) : Int := (planLast k p).x

/-- Jerks and durations that bring velocity `v` and acceleration `a` (along the motion) to velocity `w` and acceleration
0, speeding up under `acc` and slowing down under `dec`. -/
def changeVel (v a w acc dec j : Int) : List (Int × Nat) :=
  let z := v + sgn a * (a * a / (2 * j))
  if w ≥ z then
    let b := min acc (sqrtQ (j * (w - v) + a * a / 2))
    let hold := 2 * j * (w - v) + a * a - 2 * b * b
    [(j, durOf (b - a) j), (0, if hold ≤ 0 then 0 else durOf hold (2 * j * b)), (-j, durOf b j)]
  else
    let b := min dec (sqrtQ (j * (v - w) + a * a / 2))
    let hold := 2 * j * (v - w) + a * a - 2 * b * b
    [(-j, durOf (a + b) j), (0, if hold ≤ 0 then 0 else durOf hold (2 * j * b)), (j, durOf b j)]

/-- Final state of a shape from a start state. -/
def shapeEnd (k : Kin) (p : List (Int × Nat)) : Kin := planLast k (build 0 k p)

/-- Re-planning from a state in motion towards `target` at rest (R253), all values along the way to the target:
`k.x` is 0 and the distance is `goal`. -/
def replanShape (k : Kin) (goal : Int) (l : Limits) (dO jO : Int) :
    List (Int × Nat) × Option (Int × Int) :=
  -- first exception: the acceleration falls to its new bound at jerk J
  let stopFrom := fun (k : Kin) (d j : Int) => stopShape k.v k.a d j
  let stopAt := fun (k : Kin) (d j : Int) => (shapeEnd k (stopFrom k d j)).x
  -- ... but only as far as a stop at the target allows
  let ease := fun (j : Int) (d : Nat) =>
    let after := fun (n : Int) => stopAt (shapeEnd k [(j, n.toNat)]) dO jO
    [(j, if after d ≤ goal then d else (bisect after goal 104 0 d).toNat)]
  let pre : List (Int × Nat) :=
    if k.a > l.a ∧ 0 ≤ k.v then ease (-l.j) (durOf (k.a - l.a) l.j)
    else if k.a < -l.d ∧ 0 < k.v then ease l.j (durOf (-k.a - l.d) l.j)
    else []
  let k1 := shapeEnd k pre
  if stopAt k1 l.d l.j > goal then
    -- third exception: D' and J' between the new and the kept values
    let dP := if stopAt k1 l.d jO ≤ goal then l.d
      else -(bisect (fun m => stopAt k1 (-m) jO) goal 104 (-dO) (-l.d))
    let dP := if stopAt k1 dP jO ≤ goal then dP else dO
    let jP := if stopAt k1 dP l.j ≤ goal then l.j
      else -(bisect (fun m => stopAt k1 dP (-m)) goal 104 (-jO) (-l.j))
    let jP := if stopAt k1 dP jP ≤ goal then jP else jO
    (pre ++ stopFrom k1 dP jP, some (dP, jP))
  else
    -- bring the acceleration to 0 at once, then stop
    let z := changeVel k1.v k1.a (k1.v + sgn k1.a * (k1.a * k1.a / (2 * l.j))) l.a l.d l.j
    let kz := shapeEnd k1 z
    -- cruise velocity w: the way at w = V, or the w that ends at the target
    let way := fun (w : Int) =>
      let c := changeVel k1.v k1.a w l.a l.d l.j
      let q := shapeEnd k1 c
      (c, q, stopFrom { q with a := 0 } l.d l.j)
    let dist := fun (w : Int) => let (_, q, st) := way w; (shapeEnd { q with a := 0 } st).x
    let top := l.v
    if top < kz.v ∧ goal < dist top then
      -- second exception: the unit slows down towards V, and goes on to the stop before it has eased to it
      match changeVel k1.v k1.a top l.a l.d l.j with
      | [e1, e2, (j3, d3)] =>
        let part := fun (n : Nat) => [e1, e2, (j3, n)]
        let all := fun (n : Nat) => let q := shapeEnd k1 (part n); part n ++ stopFrom q l.d l.j
        let n := (bisect (fun n => (shapeEnd k1 (all n.toNat)).x) goal 104 0 d3).toNat
        (pre ++ all n, none)
      | c => (pre ++ c, none)
    else if kz.v ≤ top ∧ k1.a < 0 ∧ (shapeEnd kz (stopFrom kz l.d l.j)).x > goal then
      -- the deceleration eases to a_m and then goes on to the stop
      let f := fun m => (shapeEnd k1 ((l.j, durOf (m - k1.a) l.j) ::
        (let q := shapeEnd k1 [(l.j, durOf (m - k1.a) l.j)]; stopFrom q l.d l.j))).x
      let m := bisect f goal 104 k1.a 0
      let e := [(l.j, durOf (m - k1.a) l.j)]
      let q := shapeEnd k1 e
      (pre ++ e ++ stopFrom q l.d l.j, none)
    else
      if dist top ≤ goal then
        let (c, q, st) := way top
        (pre ++ c ++ [(0, durOf (goal - (shapeEnd { q with a := 0 } st).x) top)] ++ st, none)
      else
        let w := bisect dist goal 104 kz.v top
        let (c, _, st) := way w
        (pre ++ c ++ st, none)

/-- The re-plan of R253 and the kept deceleration and jerk where one was used (PROFILE_DEC_KEPT). -/
def replan (t : Nat) (k : Kin) (target : Int) (l : Limits) (dO jO : Int) :
    List Seg × Option (Int × Int) :=
  let s := sgn (target - k.x)
  if s = 0 then (planStop t k dO jO, none)
  else
    let r := replanShape { x := 0, v := s * k.v, a := s * k.a } (s * (target - k.x)) l dO jO
    (build t { k with j := 0 } (signed3 s r.1), r.2)

/-- A ratio ramp from ratio `r` with rate `rdot` to `goal` under the two limits of R195, with a jerk-limited transition
(R205): the ratio is the position of a profile whose velocity and acceleration limits are the two rates; the rate is
first led to the value from which the triangle or trapezium of R195 ends at the goal. -/
def planRatio (t : Nat) (r rdot goal rate1 rate2 : Int) : List Seg :=
  -- distance covered while the rate falls to 0
  let brake := sgn rdot * (rdot * rdot / (2 * rate2))
  let d := goal - r - brake
  let s := if d = 0 then sgn rdot else sgn d
  if s = 0 then []
  else
    -- peak rate w along s: rise from s*rdot to w, hold, fall to 0
    let v0 := s * rdot
    let dist := s * (goal - r)
    let w := min rate1 (sqrtQ (max 0 (rate2 * dist + v0 * v0 / 2)))
    let up := w - v0
    let way := sgn up * (w * w - v0 * v0) / (2 * rate2) + w * w / (2 * rate2)
    let k : Kin := { x := r, v := rdot }
    let ramp := fun (t : Nat) (k : Kin) (a : Int) (n : Nat) =>
      if n = 0 then ([], t, k)
      else
        let g : Seg := { t := t, dur := n, x := k.x, v := k.v, a := a, j := 0 }
        ([g], t + n, { segEnd g with a := 0 })
    let (g1, t1, k1) := ramp t k (s * rate2 * sgn up) (durOf (sgn up * up) rate2)
    let (g2, t2, k2) := ramp t1 k1 0 (if w ≤ 0 then 0 else durOf (dist - way) w)
    let (g3, _, _) := ramp t2 k2 (-(s * rate2)) (durOf w rate2)
    g1 ++ g2 ++ g3

end Sys2Proof.Machine
end

