-- ==== Sys2Proof/Machine/Flags.lean ====
section
/-! DEFINITION. Check codes of the spec (CRC-32 of frames, CRC-32C of images, CRC-16 of slices, the SSI checks) and the
status flags of the loop engines (R316, R326). -/

namespace Sys2Proof.Machine

/-- One bit step of a reflected CRC. -/
def crcStep (poly c : Nat) : Nat := if c % 2 = 1 then Nat.xor (c / 2) poly else c / 2

/-- Eight bit steps. -/
def crcByte (poly c : Nat) : Nat := (List.range 8).foldl (fun c _ => crcStep poly c) c

/-- A reflected CRC over bytes, from a register value. -/
def crcGo (poly c : Nat) (b : Bytes) : Nat := b.foldl (fun c x => crcByte poly (Nat.xor c x.toNat)) c

/-- CRC-32 as the IEEE 802.3 frame check sequence (R82). -/
def crc32 (b : Bytes) : Nat := Nat.xor (crcGo 0xEDB88320 0xFFFFFFFF b) 0xFFFFFFFF

/-- CRC-32C (R58, R344, R523, R616). -/
def crc32c (b : Bytes) : Nat := Nat.xor (crcGo 0x82F63B78 0xFFFFFFFF b) 0xFFFFFFFF

/-- One bit step of an unreflected CRC of `w` bits. -/
def crcUp (w poly c : Nat) : Nat :=
  if bitOf c (w - 1) then Nat.xor (c * 2 % 2 ^ w) poly else c * 2 % 2 ^ w

/-- An unreflected CRC of `w` bits over bits, most significant first. -/
def crcBits (w poly c : Nat) (l : List Bool) : Nat :=
  l.foldl (fun c b => crcUp w poly (Nat.xor c (if b then 2 ^ (w - 1) else 0))) c

/-- The bits of a byte, most significant first. -/
def byteBits (b : Byte) : List Bool :=
  [bitOf b.toNat 7, bitOf b.toNat 6, bitOf b.toNat 5, bitOf b.toNat 4, bitOf b.toNat 3, bitOf b.toNat 2,
   bitOf b.toNat 1, bitOf b.toNat 0]

/-- CRC-16 of slices: polynomial 0x1021, initial value 0xFFFF, unreflected (R92). -/
def crc16 (b : Bytes) : Nat := crcBits 16 0x1021 0xFFFF (b.flatMap byteBits)

/-- The low `n` bits of a number, most significant first. -/
def numBits : Nat → Nat → List Bool
  | 0, _ => []
  | n + 1, v => bitOf v n :: numBits n v

/-- CRC-6 of R438: x^6 + x + 1, initial value 0, transmitted inverted. -/
def crc6 (bits : List Bool) : Nat := 63 - crcBits 6 0x03 0 bits

/-- CRC-8 of R438: polynomial 0x07, initial value 0, not inverted. -/
def crc8 (bits : List Bool) : Nat := crcBits 8 0x07 0 bits

/-- Parity bit that makes the number of ones even. -/
def evenParity (bits : List Bool) : Nat := (bits.filter id).length % 2

/-! ### Engine status register (R316) -/

/-- Bits of ES. -/
abbrev esSST : Nat := 0
abbrev esSAC : Nat := 1
abbrev esN : Nat := 2
abbrev esZ : Nat := 3
abbrev esG : Nat := 4

/-- Writes one bit of ES. -/
def esPut (es : BitVec 8) (i : Nat) (v : Bool) : BitVec 8 :=
  if v then es ||| BitVec.ofNat 8 (2 ^ i) else es &&& ~~~(BitVec.ofNat 8 (2 ^ i))

/-- Sets a sticky bit where the condition holds. -/
def esStick (es : BitVec 8) (i : Nat) (v : Bool) : BitVec 8 := if v then esPut es i true else es

/-- N, Z and G of a 56-bit result (R316, R326): G is set when bits [55:47] are not all equal. -/
def esAcc (es : BitVec 8) (r : W56) : BitVec 8 :=
  esPut (esPut (esPut es esN r.msb) esZ (r == 0)) esG
    (!(r.extractLsb' 47 9 == 0 || r.extractLsb' 47 9 == BitVec.allOnes 9))

/-- N and Z of a 24-bit result, G cleared (R326). -/
def esWord (es : BitVec 8) (r : W24) : BitVec 8 := esPut (esPut (esPut es esN r.msb) esZ (r == 0)) esG false

end Sys2Proof.Machine
end

