-- ==== Sys2Proof/Machine/Operands.lean ====
section
/-! DEFINITION. Operand forms of the commands: containers of R16 with the checks of R17, request payload layouts
(R668), the code, states, variants and length of every mailbox command (R672 to R680), and status codes (R370, R681). -/

namespace Sys2Proof.Machine

/-! ### Containers (R16, R17) -/

/-- Bytes of a container. -/
def contLen : PType → Nat
  | .u8 => 1 | .u16 => 2 | .u24 => 4 | .s24 => 4 | .u32 => 4 | .s48 => 8 | .q23 => 4 | .t24 => 8 | .time => 10

/-- Type codes of R372. -/
def typeCode : PType → Nat
  | .u8 => 1 | .u16 => 2 | .u24 => 3 | .s24 => 4 | .u32 => 5 | .s48 => 6 | .q23 => 7 | .t24 => 8 | .time => 9

/-- Value of a container of ten bytes that holds a TIME: nanoseconds in all. -/
def timeOf (b : Bytes) : Option Int :=
  let ns := uAt b 6 4
  if ns < 1000000000 then some ((uAt b 0 6 * 1000000000 + ns : Nat) : Int) else none

/-- The value in a container; none where the container breaks R17. -/
def contVal (t : PType) (b : Bytes) : Option Int :=
  let n := contLen t
  let v := uAt b 0 n
  match t with
  | .u8 | .u16 | .u32 => some v
  | .u24 => if v < 2 ^ 24 then some v else none
  | .s24 | .q23 => let i := signed 24 v; if twos 32 i = v then some i else none
  | .s48 | .t24 => let i := signed 48 v; if twos 64 i = v then some i else none
  | .time => timeOf b

/-- A value as a signed field of `w` bits holds it; free where it lies beyond the field, on which the spec is silent (log 24). -/
def fieldVal (w : Nat) (v : Int) : Int :=
  if -(2 ^ (w - 1) : Nat) ≤ v ∧ v < (2 ^ (w - 1) : Nat) then v else signed w (Config.beyondField w v)

/-- A T24.F24 or S48 container, whose upper bytes carry the sign (R17). -/
def t48 (v : Int) : Bytes := sleBytes 8 (fieldVal 48 v)
/-- An S24 or Q1.23 container. -/
def c24 (v : Int) : Bytes := sleBytes 4 (fieldVal 24 v)
/-- A U24 container. -/
def cu24 (v : Nat) : Bytes := leBytes 4 (v % 2 ^ 24)

/-- The container of a value, with the extension of R17. -/
def contBytes (t : PType) (v : Int) : Bytes :=
  match t with
  | .time => timeBytes v.toNat
  | .s24 | .q23 => c24 v
  | .s48 | .t24 => t48 v
  | .u24 => cu24 v.toNat
  | .u8 | .u16 | .u32 => sleBytes (contLen t) v
/-- U8, U16 and U32 fields. -/
def b8 (v : Nat) : Bytes := leBytes 1 v
def b16 (v : Nat) : Bytes := leBytes 2 v
def b32 (v : Nat) : Bytes := leBytes 4 v
def b64 (v : Nat) : Bytes := leBytes 8 v

/-- A T24.F24 field of a payload at byte `o`. -/
def t48At (p : Bytes) (o : Nat) : Option Int := contVal .t24 (slice p o 8)

/-! ### Status codes (R370, R681) -/

namespace St
abbrev ok : Nat := 0
abbrev pend : Nat := 1
abbrev unsupported : Nat := 0x8001
abbrev badParam : Nat := 0x8002
abbrev badState : Nat := 0x8003
abbrev stateChanged : Nat := 0x8004
abbrev badCommand : Nat := 0x8005
abbrev badLength : Nat := 0x8006
abbrev mailboxClass : Nat := 0x8007
abbrev fwAuth : Nat := 0x8110
abbrev fwVersion : Nat := 0x8111
abbrev fwRollback : Nat := 0x8112
abbrev planFormat : Nat := 0x8201
abbrev planSwitchLate : Nat := 0x820B
abbrev planNone : Nat := 0x820C
abbrev planNotStored : Nat := 0x820D
abbrev planBudget : Nat := 0x8208
abbrev nodeNoResponse : Nat := 0x8301
abbrev nodeAbsent : Nat := 0x8302
abbrev aliasConflict : Nat := 0x8303
abbrev ringMismatch : Nat := 0x8304
abbrev nodeError : Nat := 0x8305
abbrev axisEnableTimeout : Nat := 0x8401
abbrev axisAborted : Nat := 0x8402
abbrev lawFormat : Nat := 0x8420
abbrev lawOverlap : Nat := 0x8421
abbrev lawInUse : Nat := 0x8422
abbrev lawEncoding : Nat := 0x8423
abbrev motionBusy : Nat := 0x8501
abbrev queueFull : Nat := 0x8502
abbrev limitActive : Nat := 0x8503
abbrev homingLimit : Nat := 0x8504
abbrev homingChatter : Nat := 0x8505
abbrev homingNotFound : Nat := 0x8506
abbrev homingAborted : Nat := 0x8507
abbrev tripStillActive : Nat := 0x8601
abbrev encWireActive : Nat := 0x8602
abbrev adcRefNotReady : Nat := 0x8603
abbrev adcCalNone : Nat := 0x8604
abbrev timeSourcePtp : Nat := 0x8701
abbrev timeLate : Nat := 0x8702
abbrev launchConflict : Nat := 0x8703
abbrev launchQueueFull : Nat := 0x8704
abbrev timeSourcePair : Nat := 0x8705
abbrev calMemory : Nat := 0x8801
abbrev calNoEcho : Nat := 0x8802
abbrev calSkewNoEdge : Nat := 0x8803
abbrev calSkewNone : Nat := 0x8804
abbrev windowExceeded : Nat := 0x8901
abbrev powerAbort : Nat := 0x8902
abbrev dmaOverlap : Nat := 0x8903
abbrev dmaReadError : Nat := 0x8904
abbrev dmaBusy : Nat := 0x8905
abbrev dmaAborted : Nat := 0x8906
abbrev gripNotHeld : Nat := 0x8B01
abbrev pairMismatch : Nat := 0x8B02
abbrev pairNotReady : Nat := 0x8B03
end St

/-! ### The mailbox commands (R672 to R680) -/

/-- A row of the command tables: the code, the fixed payload length (none where the layout ends in a repeated part), the
states in which the command is accepted as a set of state codes of R28, the variants (0 all, 1 CK-1280 and CK-1264,
2 CK-1280 only). -/
structure CmdRow where
  code : Nat
  len : Option Nat
  states : Nat
  var : Nat
  deriving DecidableEq, Repr

/-- System and firmware (R672). -/
def cmds01 : List CmdRow := [
  ⟨0x0101, some 0, 124, 0⟩,
  ⟨0x0102, some 4, 124, 0⟩,
  ⟨0x0103, some 8, 76, 0⟩,
  ⟨0x0104, some 0, 8, 0⟩,
  ⟨0x0105, some 0, 16, 0⟩,
  ⟨0x0106, some 0, 24, 0⟩,
  ⟨0x0107, some 0, 32, 0⟩,
  ⟨0x0108, some 0, 64, 0⟩,
  ⟨0x0109, some 4, 12, 0⟩,
  ⟨0x010A, some 0, 4, 0⟩,
  ⟨0x010B, none, 4, 0⟩,
  ⟨0x010C, some 4, 4, 0⟩,
  ⟨0x0110, none, 124, 0⟩,
  ⟨0x0111, none, 124, 0⟩]

/-- Plans (R673). -/
def cmds02 : List CmdRow := [
  ⟨0x0201, none, 124, 0⟩,
  ⟨0x0202, some 8, 124, 0⟩,
  ⟨0x0203, some 0, 4, 0⟩,
  ⟨0x0204, some 0, 8, 0⟩,
  ⟨0x0205, some 0, 124, 0⟩,
  ⟨0x0206, some 0, 12, 0⟩,
  ⟨0x0207, some 0, 124, 0⟩,
  ⟨0x0208, some 4, 56, 0⟩]

/-- Rings and nodes (R674). -/
def cmds03 : List CmdRow := [
  ⟨0x0301, some 4, 4, 0⟩,
  ⟨0x0302, some 4, 124, 0⟩,
  ⟨0x0303, some 4, 124, 0⟩,
  ⟨0x0304, some 4, 24, 0⟩,
  ⟨0x0305, some 4, 12, 0⟩,
  ⟨0x0306, none, 124, 0⟩,
  ⟨0x0307, none, 124, 0⟩,
  ⟨0x0308, some 4, 28, 0⟩]

/-- Axes and laws (R675). -/
def cmds04 : List CmdRow := [
  ⟨0x0401, some 4, 16, 0⟩,
  ⟨0x0402, some 4, 120, 0⟩,
  ⟨0x0403, some 4, 124, 0⟩,
  ⟨0x0404, some 4, 24, 0⟩,
  ⟨0x0405, some 4, 16, 0⟩,
  ⟨0x0406, some 4, 16, 0⟩,
  ⟨0x0407, some 4, 16, 0⟩,
  ⟨0x0408, some 4, 120, 0⟩,
  ⟨0x0410, none, 124, 0⟩,
  ⟨0x0411, some 4, 124, 0⟩,
  ⟨0x0412, some 4, 124, 0⟩,
  ⟨0x0413, none, 124, 0⟩,
  ⟨0x0414, some 24, 4, 0⟩]

/-- Motion (R676). -/
def cmds05 : List CmdRow := [
  ⟨0x0501, some 16, 16, 0⟩,
  ⟨0x0502, some 16, 16, 0⟩,
  ⟨0x0503, some 4, 48, 0⟩,
  ⟨0x0504, some 4, 48, 0⟩,
  ⟨0x0505, some 4, 16, 0⟩,
  ⟨0x0506, some 4, 16, 0⟩,
  ⟨0x0507, none, 24, 0⟩,
  ⟨0x0508, none, 16, 0⟩,
  ⟨0x0509, some 40, 16, 0⟩,
  ⟨0x050A, some 4, 124, 0⟩]

/-- Local inputs and outputs (R677). -/
def cmds06 : List CmdRow := [
  ⟨0x0601, some 4, 120, 1⟩,
  ⟨0x0602, some 4, 124, 1⟩,
  ⟨0x0603, some 4, 120, 1⟩,
  ⟨0x0604, some 4, 120, 1⟩,
  ⟨0x0605, some 4, 120, 1⟩,
  ⟨0x0606, some 4, 120, 1⟩,
  ⟨0x0607, some 4, 124, 1⟩,
  ⟨0x0608, some 0, 124, 1⟩,
  ⟨0x0609, some 0, 12, 1⟩,
  ⟨0x060A, some 0, 12, 1⟩,
  ⟨0x060B, some 0, 124, 1⟩]

/-- Time and plant ports (R678). -/
def cmds07 : List CmdRow := [
  ⟨0x0701, some 0, 124, 0⟩,
  ⟨0x0702, some 22, 124, 0⟩,
  ⟨0x0703, some 4, 124, 0⟩,
  ⟨0x0704, some 4, 12, 0⟩,
  ⟨0x0705, some 0, 124, 0⟩,
  ⟨0x0706, some 28, 120, 0⟩,
  ⟨0x0707, some 4, 120, 0⟩,
  ⟨0x0708, some 24, 124, 0⟩]

/-- Calipers (R679). -/
def cmds08 : List CmdRow := [
  ⟨0x0801, none, 124, 1⟩,
  ⟨0x0802, none, 124, 1⟩,
  ⟨0x0803, some 0, 120, 1⟩,
  ⟨0x0804, some 0, 120, 1⟩,
  ⟨0x0805, some 0, 120, 1⟩,
  ⟨0x0806, some 0, 124, 1⟩,
  ⟨0x0807, some 12, 124, 1⟩,
  ⟨0x0808, some 8, 8, 1⟩,
  ⟨0x0809, some 4, 12, 1⟩,
  ⟨0x080A, some 0, 4, 1⟩]

/-- DMA (R679). -/
def cmds09 : List CmdRow := [
  ⟨0x0901, some 32, 124, 0⟩,
  ⟨0x0902, some 4, 124, 0⟩,
  ⟨0x0903, none, 124, 0⟩,
  ⟨0x0904, some 4, 124, 0⟩,
  ⟨0x0905, some 4, 124, 0⟩,
  ⟨0x0906, some 4, 124, 0⟩,
  ⟨0x0907, some 4, 124, 0⟩]

/-- Safety (R679). -/
def cmds10 : List CmdRow := [
  ⟨0x0A01, some 0, 124, 1⟩,
  ⟨0x0A02, some 8, 124, 1⟩,
  ⟨0x0A03, some 4, 124, 1⟩]

/-- Redundancy (R680). -/
def cmds11 : List CmdRow := [
  ⟨0x0B01, some 0, 124, 2⟩,
  ⟨0x0B02, some 0, 4, 2⟩,
  ⟨0x0B03, some 0, 56, 2⟩]

/-- Diagnostics and truing (R304, R680). -/
def cmds12 : List CmdRow := [
  ⟨0x0C01, some 4, 124, 0⟩,
  ⟨0x0C02, some 0, 124, 0⟩,
  ⟨0x0C03, some 8, 124, 0⟩,
  ⟨0x0C04, some 0, 124, 0⟩,
  ⟨0x0C10, some 1, 120, 0⟩,
  ⟨0x0C11, some 0, 120, 0⟩,
  ⟨0x0C12, some 2, 120, 0⟩,
  ⟨0x0C13, some 0, 120, 0⟩,
  ⟨0x0C20, some 0, 124, 0⟩,
  ⟨0x0C21, some 4, 124, 0⟩]

/-- The rows of one code group. -/
def cmdGroup (g : Nat) : List CmdRow :=
  match g with
  | 1 => cmds01
  | 2 => cmds02
  | 3 => cmds03
  | 4 => cmds04
  | 5 => cmds05
  | 6 => cmds06
  | 7 => cmds07
  | 8 => cmds08
  | 9 => cmds09
  | 10 => cmds10
  | 11 => cmds11
  | 12 => cmds12
  | _ => []

/-- The row of a command code. -/
def cmdRow (code : Nat) : Option CmdRow := (cmdGroup (code / 256)).find? (fun r => r.code == code)

/-! Command codes. -/

namespace Cmd
abbrev sysCaps : Nat := 0x0101
abbrev sysReset : Nat := 0x0102
abbrev sysStandby : Nat := 0x0103
abbrev sysOperate : Nat := 0x0104
abbrev sysPreop : Nat := 0x0105
abbrev safeHold : Nat := 0x0106
abbrev safeHoldRelease : Nat := 0x0107
abbrev faultClear : Nat := 0x0108
abbrev powerDomain : Nat := 0x0109
abbrev bootInfo : Nat := 0x010A
abbrev fwStageWrite : Nat := 0x010B
abbrev fwStageCommit : Nat := 0x010C
abbrev paramRead : Nat := 0x0110
abbrev paramWrite : Nat := 0x0111
abbrev planLoad : Nat := 0x0201
abbrev planCommit : Nat := 0x0202
abbrev cycleStart : Nat := 0x0203
abbrev cycleStop : Nat := 0x0204
abbrev planStatus : Nat := 0x0205
abbrev planStore : Nat := 0x0206
abbrev planRecall : Nat := 0x0207
abbrev flowPlace : Nat := 0x0208
abbrev ringEnumerate : Nat := 0x0301
abbrev ringStatus : Nat := 0x0302
abbrev nodeIdentity : Nat := 0x0303
abbrev nodeEnable : Nat := 0x0304
abbrev nodeAliasSet : Nat := 0x0305
abbrev nodeParamRead : Nat := 0x0306
abbrev nodeParamWrite : Nat := 0x0307
abbrev tunnelConfig : Nat := 0x0308
abbrev axisEnable : Nat := 0x0401
abbrev axisDisable : Nat := 0x0402
abbrev axisStatus : Nat := 0x0403
abbrev axisSource : Nat := 0x0404
abbrev gearRatio : Nat := 0x0405
abbrev gearEngage : Nat := 0x0406
abbrev gearDisengage : Nat := 0x0407
abbrev axisFaultClear : Nat := 0x0408
abbrev lawLoad : Nat := 0x0410
abbrev lawUnload : Nat := 0x0411
abbrev lawInfo : Nat := 0x0412
abbrev lawCoefWrite : Nat := 0x0413
abbrev lawTest : Nat := 0x0414
abbrev moveAbs : Nat := 0x0501
abbrev moveRel : Nat := 0x0502
abbrev stop : Nat := 0x0503
abbrev hold : Nat := 0x0504
abbrev resume : Nat := 0x0505
abbrev home : Nat := 0x0506
abbrev groupDefine : Nat := 0x0507
abbrev groupMove : Nat := 0x0508
abbrev groupLimits : Nat := 0x0509
abbrev motionStatus : Nat := 0x050A
abbrev pwmTripClear : Nat := 0x0601
abbrev pwmStatus : Nat := 0x0602
abbrev encIndexArm : Nat := 0x0603
abbrev encFaultClear : Nat := 0x0604
abbrev probeArm : Nat := 0x0605
abbrev probeRead : Nat := 0x0606
abbrev adcRefEnable : Nat := 0x0607
abbrev adcCalibrate : Nat := 0x0608
abbrev adcCalSave : Nat := 0x0609
abbrev adcCalRestore : Nat := 0x060A
abbrev localInStatus : Nat := 0x060B
abbrev timeRead : Nat := 0x0701
abbrev timeSet : Nat := 0x0702
abbrev timeTrim : Nat := 0x0703
abbrev ptpConfig : Nat := 0x0704
abbrev ptpStatus : Nat := 0x0705
abbrev toutSet : Nat := 0x0706
abbrev toutStop : Nat := 0x0707
abbrev plantTx : Nat := 0x0708
abbrev calSegList : Nat := 0x0801
abbrev calMaskWrite : Nat := 0x0802
abbrev calArm : Nat := 0x0803
abbrev calStop : Nat := 0x0804
abbrev calForce : Nat := 0x0805
abbrev calStatus : Nat := 0x0806
abbrev calRead : Nat := 0x0807
abbrev calSkewCalibrate : Nat := 0x0808
abbrev calSkewStore : Nat := 0x0809
abbrev calBusMeasure : Nat := 0x080A
abbrev dmaSetup : Nat := 0x0901
abbrev dmaStart : Nat := 0x0902
abbrev dmaListWrite : Nat := 0x0903
abbrev dmaAppend : Nat := 0x0904
abbrev dmaClose : Nat := 0x0905
abbrev dmaAbort : Nat := 0x0906
abbrev dmaStatus : Nat := 0x0907
abbrev safetyStatus : Nat := 0x0A01
abbrev safetyImageRead : Nat := 0x0A02
abbrev safetyConnStatus : Nat := 0x0A03
abbrev pairStatus : Nat := 0x0B01
abbrev pairJoin : Nat := 0x0B02
abbrev gripRelease : Nat := 0x0B03
abbrev eventRead : Nat := 0x0C01
abbrev shavingsStatus : Nat := 0x0C02
abbrev shavingsRead : Nat := 0x0C03
abbrev shavingsFreeze : Nat := 0x0C04
abbrev dispatchEngineStats : Nat := 0x0C10
abbrev dispatchLevelStats : Nat := 0x0C11
abbrev dispatchFlowStats : Nat := 0x0C12
abbrev dispatchStatsClear : Nat := 0x0C13
abbrev truingRun : Nat := 0x0C20
abbrev truingStatus : Nat := 0x0C21
end Cmd

end Sys2Proof.Machine
end

