-- ==== Sys2Proof/Machine/Events.lean ====
section
/-! DEFINITION. Events and the shavings record: event records and their folding (R609), status bits, routes and messages
(R382, R383, R604), transient outcomes (R606, R607), freezing and committing the record (R611 to R616). Reactions to the
classes of R601 are in Machine/Reactions.lean. -/

namespace Sys2Proof.Machine

/-! Event sources of R600. -/

namespace Ev
abbrev sysWatchdog : Nat := 0
abbrev powerFail : Nat := 1
abbrev clockMonitor : Nat := 2
abbrev clockHalted : Nat := 3
abbrev hostLost : Nat := 4
abbrev bar2Denied : Nat := 5
abbrev faultStorm : Nat := 6
abbrev cycleHwFault : Nat := 7
abbrev taskOverrun : Nat := 16
abbrev emitHold : Nat := 17
abbrev taskLate : Nat := 18
abbrev nonpreemptOver : Nat := 19
abbrev groupUnbundled : Nat := 20
abbrev flowUnverified : Nat := 21
abbrev flowUnplaced : Nat := 22
abbrev marginLow : Nat := 23
abbrev marginExhausted : Nat := 24
abbrev outputMissed : Nat := 25
abbrev bundleFailed : Nat := 26
abbrev taskFault : Nat := 32
abbrev engineFault : Nat := 33
abbrev engineLost : Nat := 34
abbrev ringBreak : Nat := 48
abbrev ringClosed : Nat := 49
abbrev nodeLost : Nat := 50
abbrev nodeRefused : Nat := 51
abbrev nodeJoined : Nat := 52
abbrev aliasConflict : Nat := 53
abbrev ringMismatch : Nat := 54
abbrev acyclicLost : Nat := 55
abbrev hopOverPlan : Nat := 56
abbrev nodeClockRange : Nat := 57
abbrev positionRange : Nat := 80
abbrev feedbackLost : Nat := 81
abbrev followingError : Nat := 82
abbrev streamLost : Nat := 83
abbrev masterLost : Nat := 84
abbrev delayRange : Nat := 85
abbrev notchBypassed : Nat := 86
abbrev limitStop : Nat := 96
abbrev profileDecKept : Nat := 97
abbrev ccTiming : Nat := 112
abbrev ccOvercurrent : Nat := 113
abbrev ccApplyMissed : Nat := 114
abbrev pwmTrip : Nat := 128
abbrev pwmInconsistent : Nat := 129
abbrev stepRateLimit : Nat := 130
abbrev encPhase : Nat := 144
abbrev encFault : Nat := 145
abbrev indexMismatch : Nat := 146
abbrev probeOverflow : Nat := 147
abbrev ssiRetry : Nat := 148
abbrev ssiInvalid : Nat := 149
abbrev ssiTiming : Nat := 150
abbrev adcTriggerMissed : Nat := 151
abbrev adcDrift : Nat := 152
abbrev adcCoreFault : Nat := 153
abbrev timeStepped : Nat := 160
abbrev timeOffsetLarge : Nat := 161
abbrev ptpLocked : Nat := 162
abbrev ptpLost : Nat := 163
abbrev toutSkipped : Nat := 164
abbrev launchSkipped : Nat := 165
abbrev calStopped : Nat := 176
abbrev calMaskFail : Nat := 177
abbrev dmaFailed : Nat := 184
abbrev safetyFault : Nat := 192
abbrev safetyImage : Nat := 193
abbrev sinDiscrepancy : Nat := 194
abbrev soutFault : Nat := 195
abbrev safeConnLost : Nat := 196
abbrev safetyDemand : Nat := 197
abbrev mirrorLost : Nat := 208
abbrev mirrorDivergence : Nat := 209
abbrev gripLost : Nat := 210
abbrev gripAcquired : Nat := 211
abbrev pairSelfCheck : Nat := 212
abbrev witnessLost : Nat := 213
abbrev pairReady : Nat := 214
abbrev eccDouble : Nat := 224
abbrev wearTransient : Nat := 225
abbrev shavingsCommitted : Nat := 226
abbrev shavingsIncomplete : Nat := 227
abbrev truingDone : Nat := 240
abbrev avsFault : Nat := 241
abbrev serviceLifeLow : Nat := 242
end Ev

/-! Class codes of R601. -/

namespace Cls
abbrev info : Nat := 0
abbrev warn : Nat := 1
abbrev axis : Nat := 2
abbrev group : Nat := 3
abbrev device : Nat := 4
end Cls

/-! inst_kind codes of R609. -/

namespace Kind
abbrev none : Nat := 0
abbrev axis : Nat := 1
abbrev group : Nat := 2
abbrev node : Nat := 3
abbrev channel : Nat := 4
abbrev engine : Nat := 5
abbrev flow : Nat := 6
abbrev conn : Nat := 7
abbrev ring : Nat := 8
abbrev bundle : Nat := 9
abbrev fn : Nat := 10
end Kind

/-- What a raise carries (R609): source, class, flags, kind and number of its instance, cause, detail (8 bytes), and
the stamp in ns where it is not the present instant. -/
structure Raise where
  source : Nat
  cls : Nat
  kind : Nat := 0
  inst : Nat := 0
  cause : Nat := 0
  detail : Bytes := []
  flags : Nat := 0
  at_ : Option Nat := none

/-- State codes of R28 as DEV_STATE reports them. -/
def modeCode : DevMode → Nat
  | .off => 0 | .standby => 0 | .boot => 1 | .config => 2 | .preop => 3 | .operational => 4 | .safeHold => 5 | .fault => 6

/-- Bits of a mask from the list of set positions. -/
def bitN (w : Nat) (i : Nat) : BitVec w := BitVec.ofNat w (2 ^ i)

/-! ### Interrupts (R350, R382, R383) -/

/-- Vector control of an entry of the MSI-X table is bit 0 of its byte 12; its reset value is 1 (log 8). The table holds
the difference to the reset value. -/
def msixMasked (s : State) (v : Nat) : Bool := !bitOf (memGet s.host.msixTable (16 * v + 12)).toNat 0

/-- Sends one MSI-X message, or sets the pending bit of a masked vector; nothing while interrupts may not reach the host
or on the quad-SPI port (R353, R357, R383). -/
def sendMsix (s : State) (v : Nat) : State :=
  if !s.dev.irqMaster || s.board.qspi || Nat.ble 32 v then s
  else if msixMasked s v then { s with host := { s.host with msixPending := s.host.msixPending ||| bitN 32 v } }
  else { s with host := { s.host with msixSent := s.host.msixSent ++ [v] } }

/-- Interrupt of a mailbox or tunnel that posts an entry (R361, R383): CTRL bit 0 enables, bit 1 selects the pin, bits
[6:2] the vector. -/
def ctrlIrq (s : State) (ctrl : BitVec 7) : State :=
  let c := ctrl.toNat
  if bitOf c 0 && !bitOf c 1 then sendMsix s (c / 4) else s

/-- Whether a pin IRQn_N is driven low (R383). -/
def irqLow (s : State) (n : Nat) : Bool :=
  let byEvent := s.host.evRoute.any (fun e =>
    e.2.toNat % 4 == 1 && e.2.toNat / 4 % 32 == n && s.host.evStatus.getLsbD e.1)
  let routed := fun (r : RingRegs) => bitOf r.ctrl.toNat 0 && bitOf r.ctrl.toNat 1 && r.ctrl.toNat / 4 == n &&
    r.rspHead != r.rspTail
  s.dev.irqMaster && Nat.blt n 4 && (byEvent || s.host.mbs.any (fun e => routed e.2) || s.host.tuns.any (fun e => routed e.2))

/-- Sources raised while enabled at the present instant (R604). -/
def evHeld (s : State) : BitVec 256 := if s.host.evNewAt = s.time.now then s.host.evNew else 0

/-- Sets the status bit of a source that is raised while enabled, and reports it (R382, R383, R604). -/
def reportEvent (s : State) (src : Nat) : State :=
  if !s.host.evEnable.getLsbD src then s
  else
    let was := s.host.evStatus.getLsbD src
    let s1 := { s with host := { s.host with evStatus := s.host.evStatus ||| bitN 256 src,
                                              evNew := evHeld s ||| bitN 256 src, evNewAt := s.time.now } }
    let route := (tget s.host.evRoute 0 src).toNat
    if !was && route % 4 == 2 then sendMsix s1 (route / 4 % 32) else s1

/-! ### Records (R609, R612) -/

/-- Whether a raise is folded into a record (R609, R707). -/
def folds (r : Raise) (ns : Nat) (e : EvRec) : Bool :=
  Nat.ble r.cls 1 && e.inst == r.inst && e.kind == r.kind && e.cause == r.cause && Nat.ble e.stamp ns && Nat.blt ns (e.stamp + 1000000)

/-- Folds a raise into the last record of its source, if that record takes it; records run oldest first. -/
def foldInto (r : Raise) (ns : Nat) (l : List EvRec) : Option (List EvRec) :=
  match l.reverse with
  | [] => none
  | last :: before =>
    let rec go (done : List EvRec) : List EvRec → Option (List EvRec)
      | [] => none
      | e :: rest =>
        if e.source = r.source then
          if folds r ns e then some (rest.reverse ++ [{ e with repeats := min (e.repeats + 1) 65535 }] ++ done) else none
        else go (e :: done) rest
    go [] (last :: before)

/-- Keeps the last `n` entries of a list. -/
def keepLast {α : Type} (n : Nat) (l : List α) : List α := l.drop (l.length - n)

/-- A record stands before another of the same stamp: ascending source, then instance (R605). The record of a watchdog reset follows those
of the failures that it makes lasting (R622). -/
def recBefore (a b : EvRec) : Bool :=
  if a.source == Ev.sysWatchdog && bitOf b.flags 1 then false
  else Nat.blt a.source b.source || (a.source == b.source && Nat.blt a.inst b.inst)

/-- Adds a record at the end, before the records of its own stamp that it precedes; numbers run on (R605, R609). -/
def addRecord (l : List EvRec) (e : EvRec) : List EvRec :=
  let later := (l.reverse.takeWhile (fun x => x.stamp == e.stamp && recBefore e x)).reverse
  match later with
  | [] => l ++ [e]
  | f :: _ => l.take (l.length - later.length) ++ { e with seq := f.seq } ::
      later.map (fun x => { x with seq := (x.seq + 1) % 4294967296 })

/-! ### Triggers of the calipers (R490 to R493, R495, R507, R508) -/

/-- bus_delay of a line in units of device time; that of a leader is 0 (R502). -/
def busDelayU (s : State) (line : Nat) : Nat := if par s Par.busRole 0 = 1 then 0 else tget s.cal.busDelay 0 line * (nsU / 16)

/-- The device pulls a line low for 200 ns from an instant; the edge is stamped there plus its own bus_delay (R493, R503). -/
def driveBus (s : State) (line at_ : Nat) : State :=
  { s with cal := { s.cal with busPulse := tput s.cal.busPulse line (at_, at_ + 200 * nsU), busLowEnd := tput s.cal.busLowEnd line (at_ + 200 * nsU),
                               busStamp := tput s.cal.busStamp line (at_ + busDelayU s line) } }

/-- A trigger with a stamp: accepted while armed and not before the re-arm; otherwise missed (R495, R507, R508). The segment
that follows counts the missed ones: before a trigger is accepted that is the present one, then the next. -/
def acceptTrigger (s : State) (stamp src : Nat) : State :=
  let k := s.cal
  let missed : State := { s with cal := if k.state = 1 ∧ k.trigAt = none then { k with trigMissed := inc32 k.trigMissed }
                                        else { k with missedNext := inc32 k.missedNext } }
  if k.state = 1 ∧ k.rearmAt ≤ stamp then
    match k.trigAt with
    | none =>
      let s1 : State := { s with cal := { k with trigAt := some stamp, trigSrc := src, trigSync := k.syncOffset } }
      let line := parN s Par.trigOutLine 0
      if line < 4 then driveBus s1 line s.time.now else s1
    | some t =>
      if stamp < t then { missed with cal := { missed.cal with trigAt := some stamp, trigSrc := src, trigSync := k.syncOffset } } else missed
  else if k.state = 1 ∨ k.state = 2 then missed
  else s

/-- An event line is raised while a record runs: rows show it, and it triggers a record of kind 4 at once (R487, R490, R493). -/
def raiseLine (s : State) (source ns : Nat) : State :=
  if s.cal.state = 1 ∨ s.cal.state = 2 then
    let s1 : State := { s with ev := { s.ev with lines := s.ev.lines ++ [(source, ns)] } }
    match s.cal.conf with
    | some c => if c.kind = 4 ∧ c.index = source then acceptTrigger s1 (ns * nsU) 4 else s1
    | none => s1
  else s

/-- Writes an event record, or folds it (R609). While a commit runs, a record stamped at or before its trigger still belongs to
the frozen set, and a later one is queued (R612). -/
def record (s0 : State) (r : Raise) : State :=
  let ns := r.at_.getD (nowNs s0)
  let s := raiseLine s0 r.source ns
  let hasQueued := s.ev.queued.any (fun e => e.source == r.source)
  let folded := if hasQueued then none else foldInto r ns s.ev.records
  let foldedQ := if hasQueued then foldInto r ns s.ev.queued else none
  let ev : Events := { s.ev with raised := if s.ev.raised.contains r.source then s.ev.raised else s.ev.raised ++ [r.source] }
  match folded, foldedQ with
  | some l, _ => { s with ev := { ev with records := l } }
  | none, some l => { s with ev := { ev with queued := l } }
  | none, none =>
    let e : EvRec := { seq := ev.nextSeq, stamp := ns, source := r.source, cls := r.cls, flags := r.flags, kind := r.kind,
                       inst := r.inst, cause := r.cause, repeats := 0, detail := slice r.detail 0 8 }
    let next := (ev.nextSeq + 1) % 4294967296
    match ev.freeze with
    | none => { s with ev := { ev with records := keepLast 8192 (addRecord ev.records e), nextSeq := next } }
    | some f =>
      if ns ≤ f.stamp ∧ ev.queued = [] then
        { s with ev := { ev with records := keepLast 8192 (addRecord ev.records e), nextSeq := next,
                                 freeze := some { f with records := keepLast 8192 (addRecord f.records e) } } }
      else if ev.queued.length < 256 then { s with ev := { ev with queued := addRecord ev.queued e, nextSeq := next } }
      else { s with ev := { ev with dropped := ev.dropped + 1 } }

/-- The 32 bytes of an event record (R609). -/
def evBytes (e : EvRec) : Bytes :=
  b32 e.seq ++ timeBytes e.stamp ++ b8 e.source ++ b8 e.cls ++ b8 e.flags ++ b8 e.kind ++ b16 e.inst ++ b16 e.cause ++
    b16 e.repeats ++ slice e.detail 0 8

/-! ### The shavings record (R608 to R616) -/

/-- Base of a slot in MRAM (R22). -/
def slotBase (slot : Nat) : Nat := slot * 589824

/-- The MRAM bytes of a slot header. -/
def slotHeader (s : State) (slot : Nat) : Bytes := memRead s.mem.mram (slotBase slot) 4096

/-- A slot is damaged when its complete byte is not 0xA5 or its CRCs fail (R614). -/
def slotDamaged (s : State) (slot : Nat) : Bool :=
  let h := slotHeader s slot
  if uAt h 6 1 != 0xA5 then true
  else uAt h 4092 4 != crc32c (slice h 8 4084) ||
    uAt h 184 4 != crc32c (memRead s.mem.mram (slotBase slot + 0x1000) 0x8C000)

/-- commit_seq of a slot; 0 where it is damaged. -/
def slotSeq (s : State) (slot : Nat) : Nat := if slotDamaged s slot then 0 else uAt (slotHeader s slot) 8 4

/-- Trigger stamp of a slot in ns. -/
def slotStamp (s : State) (slot : Nat) : Nat := (timeOf (slice (slotHeader s slot) 12 10)).getD 0 |>.toNat

/-- The slot of the next commit, and whether that commit is protected (R614, R707). -/
def chooseSlot (s : State) (ns : Nat) : Nat × Bool :=
  let hold := parN s Par.shvHoldoff 0 * 1000000000
  let q0 := slotSeq s 0
  let q1 := slotSeq s 1
  let last := if q0 = 0 ∧ q1 = 0 then none else if q1 < q0 then some 0 else some 1
  let prot := match last with
    | none => true
    | some l => Nat.blt (slotStamp s l + hold) ns
  let first := if q0 = 0 then 0 else if q1 = 0 then 1 else if q0 < q1 then 0 else 1
  let taken := slotSeq s first ≠ 0 ∧ uAt (slotHeader s first) 51 1 = 1 ∧ ns < slotStamp s first + hold ∧ slotStamp s first ≤ ns
  (if taken then 1 - first else first, prot)

/-- The instant in ns at which a commit triggered at `ns` begins: at once, or at the end of the test write that it meets, which takes 2 µs
(R641; log 48). -/
def commitBegins (s : State) (ns : Nat) : Nat :=
  match s.tru.mramTest with
  | some b => if s.tru.running then max ns (b / nsU + 2000) else ns
  | none => ns

/-- The record freezes at the stamp of a trigger (R611, R612); a trigger during a commit starts none (R619). Of triggers that
fall together the first of R611 counts (R623). -/
def freezeRecord (s : State) (trigger source ns : Nat) : State :=
  match s.ev.freeze with
  | some f =>
    if f.stamp = ns ∧ trigger < f.trigger then { s with ev := { s.ev with freeze := some { f with trigger := trigger, source := source } } }
    else s
  | none =>
    let (slot, prot) := chooseSlot s ns
    let f : Freeze := {
      trigger := trigger, stamp := ns, source := source, slot := slot, protected_ := prot,
      commitSeq := max (slotSeq s 0) (slotSeq s 1) + 1,
      records := s.ev.records.filter (fun e => Nat.ble e.stamp ns),
      rows := s.ev.rows.filter (fun e => Nat.ble e.stamp ns),
      mbs := s.ev.mbs.filter (fun e => Nat.ble e.at_ ns),
      mode := modeCode s.dev.mode,
      planId := match s.plan.active with | some p => leNat (memRead p 12 4) | none => 0,
      fwVersion := fwWord s, ident := identWord s, begins := commitBegins s ns,
      tick := if s.cyc.running then s.cyc.tick % 4294967296 else 0,
      rate := if s.cyc.running then s.cyc.rate else 0xFF,
      select := (List.range 32).map (fun i => (parN s Par.shvSignal i, parN s Par.shvQuantity i)),
      dropped := s.ev.dropped }
    { s with ev := { s.ev with freeze := some f, dropped := 0 } }

/-- The 272 bytes of a signal row (R610). -/
def rowBytes (r : SigRow) : Bytes := b64 r.tick ++ b32 r.valid ++ zeros 4 ++ r.values.flatMap (sleBytes 8)

/-- The 512 bytes of a command of the mailbox ring (R608, R615). -/
def mbBytes (m : MbRecord) : Bytes := slice m.request 0 256 ++ slice (m.response.getD []) 0 256

/-- Header bytes 0 to 183 of a commit (R616). -/
def headerHead (f : Freeze) : Bytes :=
  List.flatten [
    b32 0x48534B43, b16 1, b8 0xA5, b8 f.trigger, b32 f.commitSeq, timeBytes f.stamp, b8 f.source, b8 f.mode,
    b32 f.planId, b32 f.fwVersion, b32 f.ident, b32 f.tick, b16 f.records.length, b16 0, b16 f.rows.length,
    b16 0, b8 f.mbs.length, b8 0, b8 f.rate, b8 (bit f.protected_), b32 f.dropped,
    f.select.flatMap (fun e => b16 e.1 ++ b8 e.2 ++ b8 0)]

/-- The whole slot of a commit (R615, R616): entries lie from index 0, so the oldest index is 0 (log 22). -/
def slotBytes (f : Freeze) : Bytes :=
  let body := slice (f.records.flatMap evBytes) 0 262144 ++ slice (f.rows.flatMap rowBytes) 0 278528 ++
    slice (f.mbs.flatMap mbBytes) 0 32768 ++ zeros 12288
  let head := headerHead f ++ b32 (crc32c body) ++ zeros 3904
  head ++ b32 (crc32c (head.drop 8)) ++ body

/-- The commit of the frozen set to its slot, and the records that waited enter the event ring (R612, R614 to R616). -/
def commitFrozen (s : State) (f : Freeze) : State :=
  { s with
    mem := { s.mem with mram := memPaste s.mem.mram (slotBase f.slot) 589824 (cellsFrom 0 (slotBytes f)) },
    ev := { s.ev with freeze := none, records := keepLast 8192 (s.ev.records ++ s.ev.queued), queued := [] } }

/-- Record and report of a raise, with the routed shavings trigger of R611; no reaction of its class. -/
def raiseOnly (s : State) (r : Raise) : State :=
  let s1 := reportEvent (record s r) r.source
  let routed := (tget s.host.evRoute 0 r.source).toNat % 4 == 3
  if routed then freezeRecord s1 7 r.source (r.at_.getD (nowNs s)) else s1

/-! ### Transient outcomes (R606, R607) -/

/-- How many transients of a kind are in a list. -/
def kindCount (l : List (Nat × Nat)) (k : Nat) : Nat := (l.filter (fun e => e.2 == k)).length

/-- The kind with the most transients, the lowest number on a tie. -/
def mostKind (l : List (Nat × Nat)) : Nat :=
  ((List.range 12).map (· + 1)).foldl (fun b k => if kindCount l b < kindCount l k then k else b) 1

/-- Counts a transient outcome of a kind and raises WEAR_TRANSIENT as R607 says. -/
def countTransient (s : State) (kind : Nat) : State :=
  let ns := nowNs s
  let win := (s.ev.transients.filter (fun e => Nat.blt ns (e.1 + 3600000000000))) ++ [(ns, kind)]
  let s1 := { s with ev := { s.ev with transients := win, transientCount := inc32 s.ev.transientCount } }
  let quiet := match s.ev.wearAt with
    | none => true
    | some w => Nat.ble (w + 3600000000000) ns
  if Nat.blt (parN s Par.transientRateMax 0) win.length && quiet then
    raiseOnly { s1 with ev := { s1.ev with wearAt := some ns } }
      { source := Ev.wearTransient, cls := Cls.warn, cause := mostKind win, detail := b32 win.length }
  else s1

/-- A transient outcome: the record of class information with flags bit 0, and its count (R606). -/
def transient (s : State) (kind : Nat) (r : Raise) : State :=
  countTransient (raiseOnly s { r with cls := Cls.info, flags := 1 }) kind

end Sys2Proof.Machine
end

