-- ==== Sys2Proof/Machine/Mailbox.lean ====
section
/-! DEFINITION. Serving mailbox commands: completion stamps (R365, R669), notifications (R368), the order of checks (R371),
responses (R365), and pending commands (R366). -/

namespace Sys2Proof.Machine

/-- The next completion stamp: device time, or 1 ns after the stamp before it where that is not earlier (R669). -/
def nextStamp (s : State) : Nat :=
  match s.host.lastStamp with
  | none => nowNs s
  | some l => if nowNs s ≤ l then l + 1 else nowNs s

/-- Marks a stamp as the last one given. -/
def useStamp (s : State) (t : Nat) : State := { s with host := { s.host with lastStamp := some t } }

/-- A response entry of 256 bytes (R365). -/
def entryBytes (code tag status stamp : Nat) (payload : Bytes) : Bytes :=
  b16 code ++ b16 tag ++ b16 payload.length ++ b16 status ++ timeBytes stamp ++ zeros 6 ++ slice payload 0 232

/-- Base of a mailbox's request ring; its response ring follows 16 KB later (R358). -/
def reqRing (m : Nat) : Nat := 0x300000 + 0x8000 * m
def rspRing (m : Nat) : Nat := 0x304000 + 0x8000 * m

/-- Responses that stand in a mailbox's ring (R361). -/
def rspCount (r : RingRegs) : Nat := (r.rspTail - r.rspHead).toNat
/-- Requests that the host has posted and the device has not taken (R361). -/
def reqCount (r : RingRegs) : Nat := (r.reqTail - r.reqHead).toNat

/-- A response entry of the mailbox is free (R364). -/
def rspFree (s : State) (m : Nat) : Bool := Nat.blt (rspCount (s.mbox m)) 64

/-- Writes an entry into a response ring, advances rsp_tail and raises the mailbox's interrupt (R361, R383). -/
def postEntry (s : State) (m : Nat) (entry : Bytes) : State :=
  let r := s.mbox m
  let s1 := s.sramWrite (rspRing m + 256 * (r.rspTail.toNat % 64)) entry
  ctrlIrq (s1.onMbox m (fun r => { r with rspTail := r.rspTail + 1 })) r.ctrl

/-- Posts a notification on MB7, or queues it, or loses it (R368). -/
def notify (s : State) (code tag status : Nat) (payload : Bytes) : State :=
  if !s.dev.mbReady then s
  else
    let t := nextStamp s
    let s1 := useStamp s t
    if s.host.notices = [] ∧ rspFree s 7 then postEntry s1 7 (entryBytes code tag status t payload)
    else if s.host.notices.length < 256 then
      { s1 with host := { s1.host with
          notices := s1.host.notices ++ [{ code := code, tag := tag, status := status, payload := payload, stamp := t }] } }
    else s1.onMbox 7 (fun r => { r with notifyLost := true })

/-- Posts the oldest queued notification while MB7 has a free entry (R368). -/
def postNotice (s : State) : State :=
  match s.host.notices with
  | [] => s
  | n :: r =>
    if rspFree s 7 then
      postEntry { s with host := { s.host with notices := r } } 7 (entryBytes n.code n.tag n.status n.stamp n.payload)
    else s

/-- Registers a command that completed with 0x0001. -/
def addPend (s : State) (code : Nat) (q : Request) (key : Nat := 0) : State :=
  { s with pend := s.pend ++ [{ code := code, mb := q.mb, tag := q.tag, key := key }] }

/-- The final outcome of every pending command of a code and key arrives on MB7 (R366, R368). -/
def finish (s : State) (code key status : Nat) (payload : Bytes := []) : State :=
  (s.pend.filter (fun p => p.code == code && p.key == key)).foldl
    (fun s p => notify s p.code p.tag status (b8 p.mb ++ zeros 3 ++ payload))
    { s with pend := s.pend.filter (fun p => !(p.code == code && p.key == key)) }

/-- Removes the first pending command of a code. -/
def dropFirst (code : Nat) : List PendCmd → List PendCmd
  | [] => []
  | p :: r => if p.code = code then r else p :: dropFirst code r

/-- The final outcome of the oldest pending command of a code arrives on MB7. -/
def finishOne (s : State) (code status : Nat) (payload : Bytes := []) : State :=
  match s.pend.find? (fun p => p.code == code) with
  | some p => notify { s with pend := dropFirst code s.pend } p.code p.tag status (b8 p.mb ++ zeros 3 ++ payload)
  | none => s

/-- The final outcome of one pending command arrives on MB7. -/
def finishThis (s : State) (p : PendCmd) (status : Nat) : State :=
  notify { s with pend := s.pend.erase p } p.code p.tag status (b8 p.mb ++ zeros 3)

/-- A command of the code and key is pending. -/
def isPending (s : State) (code key : Nat) : Bool := s.pend.any (fun p => p.code == code && p.key == key)

/-- What a command's own rules answer: success with a response payload, accepted and pending, a response that another row
posts later, a refusal status with its payload and no effect, or a refusal whose checks have raised events. -/
inductive Reply where
  | ok (s : State) (payload : Bytes)
  | pend (s : State)
  | later (s : State)
  | err (status : Nat) (payload : Bytes)
  | errWith (s : State) (status : Nat) (payload : Bytes)

/-- Width in bytes of a calipers channel's value (R487, R488). -/
def capWidth (signal quantity : Nat) : Nat :=
  if signal < 0x80 then
    if quantity ≤ 4 then 4 else if quantity ≤ 7 then 8 else if quantity ≤ 9 then 4 else if quantity ≤ 12 then 8
    else if quantity ≤ 18 then 4 else if quantity = 21 ∨ quantity = 23 ∨ quantity = 25 then 8 else 4
  else if signal < 0x90 then 4 else if signal < 0xA8 then 8 else 4

/-- The payload length fits the command's layout (R668, R669, R371). -/
def lenOk (s : State) (code : Nat) (fixed : Option Nat) (p : Bytes) : Bool :=
  let n := p.length
  match fixed with
  | some l => n == l
  | none =>
    if code = Cmd.paramRead ∨ code = Cmd.paramWrite then Nat.ble 4 n && n == 4 + 20 * uAt p 0 1
    else if code = Cmd.fwStageWrite ∨ code = Cmd.planLoad ∨ code = Cmd.lawLoad then Nat.ble 9 n && Nat.ble n 248
    else if code = Cmd.nodeParamRead ∨ code = Cmd.nodeParamWrite then Nat.ble 4 n && n == 4 + uAt p 2 2
    else if code = Cmd.lawCoefWrite then Nat.ble 8 n && n == 8 + 4 * uAt p 4 1
    else if code = Cmd.groupDefine then Nat.ble 4 n && n == 4 + uAt p 1 1
    else if code = Cmd.groupMove then
      let g := uAt p 0 1
      Nat.ble 40 n && (if g < 16 then n == 40 + 8 * (s.group g).members.length else n % 8 == 0)
    else if code = Cmd.calSegList then Nat.ble 4 n && n == 4 + 4 * uAt p 2 1
    else if code = Cmd.calMaskWrite then
      let ch := uAt p 0 1
      let w := capWidth (parWritten s Par.capSignal ch).toNat (parWritten s Par.capQuantity ch).toNat
      Nat.ble 8 n && n == 8 + w * uAt p 4 1
    else if code = Cmd.dmaListWrite then Nat.ble 8 n && n == 8 + 8 * uAt p 1 1
    else false

/-- Commands that a unit of a redundant pair serves only while it holds the grip (R575). -/
def needsGrip (code : Nat) (p : Bytes) : Bool :=
  (Nat.ble 0x0401 code && Nat.ble code 0x0408 && code != Cmd.axisStatus) ||
  (Nat.ble 0x0501 code && Nat.ble code 0x0509) ||
  code == Cmd.ringEnumerate || code == Cmd.nodeEnable || code == Cmd.nodeAliasSet || code == Cmd.nodeParamWrite ||
  code == Cmd.tunnelConfig ||
  (code == Cmd.paramWrite && (List.range (uAt p 0 1)).any (fun i =>
    let o := uAt p (4 + 20 * i) 2
    Nat.ble 0x3000 o && Nat.ble o 0x4FFF))

/-- The unit is of a redundant pair and does not hold the grip. -/
def lacksGrip (s : State) : Bool := s.pair.id != 0 && !s.pair.grip

/-- The checks of R371 up to the device state; none when they pass. -/
def preCheck (s : State) (code len : Nat) (q : Request) : Option Nat :=
  match cmdRow code with
  | none => some St.badCommand
  | some r =>
    if 248 < len ∨ len ≠ q.payload.length ∨ !lenOk s code r.len q.payload then some St.badLength
    else if q.mb = 0 ∧ code ≠ Cmd.stop ∧ code ≠ Cmd.hold ∧ code ≠ Cmd.safeHold then some St.mailboxClass
    else if (r.var = 1 ∧ !hasLocal s.var) ∨ (r.var = 2 ∧ !isFull s.var) then some St.unsupported
    else if !bitOf r.states (modeCode s.dev.mode) then some St.badState
    else none

/-- A posted request of a mailbox stands in its ring and could start (R364, R366). -/
def startable (s : State) (m : Nat) : Bool :=
  reqCount (s.mbox m) != 0 && (tfind s.host.running m).isNone && rspFree s m

/-- A posted request of MB0 that can start now, or as soon as the MB0 command in service is answered (R366). -/
def urgentWaits (s : State) : Bool := reqCount (s.mbox 0) != 0 && ((tfind s.host.running 0).isSome || rspFree s 0)

/-- The turn of a mailbox (R366): MB0 always; of the others, one command from each, so that a mailbox that has had its command
waits while another that could start has not had its own. -/
def inTurn (s : State) (m : Nat) : Bool :=
  m == 0 || !s.host.turn.contains m || (List.range 7).all (fun k => k == 0 || s.host.turn.contains k || !startable s k)

/-- A mailbox may start a command now: no posted MB0 command comes before it, and it has its turn (R366). -/
def mayStart (s : State) (m : Nat) : Bool := (m == 0 || !urgentWaits s) && inTurn s m

/-- Marks the turn of a mailbox as taken; a round ends with the first mailbox of the next (R366). -/
def takeTurn (s : State) (m : Nat) : State :=
  { s with host := { s.host with turn := if m = 0 then s.host.turn else if s.host.turn.contains m then [m] else m :: s.host.turn } }

/-- Whether the firmware can serve this request now: it serves the mailboxes, and the request is the one the mailbox has
taken, or the mailbox has taken none, holds no request posted before it, has a free response entry and may start (R364, R366;
log 23). A mailbox whose PLAN_COMMIT verifies starts no other command. -/
def servable (s : State) (code : Nat) (q : Request) : Bool :=
  s.dev.mbReady && Nat.blt q.mb 7 && !(s.plan.verifying.isSome && s.plan.verifyMb == q.mb) &&
  (match tfind s.host.running q.mb with
   | some r => r.code == code && r.tag == q.tag && r.payload == q.payload
   | none => rspFree s q.mb && reqCount (s.mbox q.mb) == 0 && mayStart s q.mb)

/-- The request entry as posted (R362). -/
def requestBytes (code tag len : Nat) (payload : Bytes) : Bytes :=
  b16 code ++ b16 tag ++ b16 len ++ zeros 2 ++ slice payload 0 248

/-- Fills the response of the oldest command of the mailbox that has none (R608). -/
def mbAnswer (m : Nat) (resp : Bytes) : List MbRecord → List MbRecord
  | [] => []
  | e :: r => if e.mb = m ∧ e.response = none then { e with response := some resp } :: r else e :: mbAnswer m resp r

/-- Posts the response of a request and ends it (R364 to R366, R608). -/
def respond (s : State) (code : Nat) (q : Request) (status stamp : Nat) (payload : Bytes) : State :=
  let e := entryBytes code q.tag status stamp payload
  let s1 := postEntry s q.mb e
  { s1 with host := { s1.host with running := tdel s1.host.running q.mb },
            ev := { s1.ev with mbs := mbAnswer q.mb e s1.ev.mbs } }

/-- A command that arrives in its row without having been posted is recorded as posted now and takes its mailbox's turn (R366,
R608; log 23). -/
def noteRequest (s : State) (code : Nat) (q : Request) : State :=
  match tfind s.host.running q.mb with
  | some _ => s
  | none =>
    takeTurn { s with ev := { s.ev with mbs := keepLast 64 (s.ev.mbs ++
        [{ mb := q.mb, tag := q.tag, at_ := nowNs s, request := requestBytes code q.tag q.payload.length q.payload,
           response := none }]) } } q.mb

/-- Serves a mailbox command: time passes, the checks of R371 run, the command's own rules run at the completion stamp,
the grip is judged (R575), and the one response is posted. Where the request cannot be served now, time alone passes. -/
def serve (code : Nat) (body : State → Request → Nat → Reply) (dt : Nat) (q : Request) (s0 : State) : State :=
  let s1 := advance dt s0
  if !servable s1 code q then s1
  else
    let len := match tfind s1.host.running q.mb with | some r => r.len | none => q.payload.length
    let s2 := noteRequest s1 code q
    let t := nextStamp s2
    let s := useStamp s2 t
    match preCheck s code len q with
    | some st => respond s code q st t []
    | none =>
      match body s q t with
      | .err st p => respond s code q st t p
      | .errWith s' st p => respond s' code q st t p
      | .ok s' p => if needsGrip code q.payload && lacksGrip s then respond s code q St.gripNotHeld t [] else respond s' code q St.ok t p
      | .later s' =>
        let r : Running := { code := code, tag := q.tag, len := len, payload := q.payload }
        { s' with host := { s'.host with running := tput s'.host.running q.mb r } }
      | .pend s' =>
        if needsGrip code q.payload && lacksGrip s then respond s code q St.gripNotHeld t [] else respond s' code q St.pend t []

/-- The response of a request whose row left it open is posted now (R365, R669). -/
def respondLater (s : State) (mb code status : Nat) (payload : Bytes) : State :=
  match tfind s.host.running mb with
  | some r =>
    let t := nextStamp s
    respond (useStamp s t) code { mb := mb, tag := r.tag, payload := r.payload } status t payload
  | none => s

/-- A field check of a command: `BAD_PARAM` where it fails (R371 step 6). -/
def need (c : Bool) (r : Reply) : Reply := if c then r else .err St.badParam []

/-- A state check of a command's own rules: the status where it fails. -/
def orElse (c : Bool) (st : Nat) (r : Reply) : Reply := if c then r else .err st []

/-- Reserved bytes of a payload are 0 (R13). -/
def resv (p : Bytes) (o n : Nat) : Bool := uAt p o n == 0

/-- A check of the instance: BAD_PARAM beyond the CK-1280 range (R6), UNSUPPORTED where the part lacks it (R5). Which of
UNSUPPORTED and BAD_PARAM answers a request that names an absent instance and has another bad field, R371 leaves open within its
step 6: each command answers with the check that its meaning makes first (DESIGN CHOICE, log 47). -/
def inst (n full have_ : Nat) (r : Reply) : Reply :=
  if full ≤ n then .err St.badParam [] else if have_ ≤ n then .err St.unsupported [] else r

end Sys2Proof.Machine
end

