-- ==== Sys2Proof/Machine/Plan.lean ====
section
/-! DEFINITION. Reading a plan image: header, section directory and entries (R58 to R65, R282). An image is a canonical list
of bytes; a plan without an image reads as one in which every section is absent. -/

namespace Sys2Proof.Machine

/-- A plan image. -/
abbrev Image := List Host.Cell

/-- Unsigned field of `n` bytes of an image. -/
def iu (m : Image) (o n : Nat) : Nat := leNat (memRead m o n)

/-- The image of the active plan; empty where none is active. -/
def State.image (s : State) : Image := s.plan.active.getD []

/-- A section as its directory entry gives it: type, count, offset (R59). -/
structure Section where
  ty : Nat
  count : Nat
  off : Nat
  deriving DecidableEq, Repr

/-- The sections of an image (R59). -/
def sections (m : Image) : List Section :=
  (List.range (iu m 6 2)).map (fun i => { ty := iu m (32 + 8 * i) 1, count := iu m (34 + 8 * i) 2, off := iu m (36 + 8 * i) 4 })

/-- The first section of a type. -/
def sectionOf (m : Image) (ty : Nat) : Option Section := (sections m).find? (fun x => x.ty == ty)

/-- Entries of a type, as their byte offsets in the image. -/
def entriesOf (m : Image) (ty size : Nat) : List Nat :=
  match sectionOf m ty with
  | some x => (List.range x.count).map (fun i => x.off + size * i)
  | none => []

/-- plan_id, rate_code and flags of the header (R58). -/
def planId (m : Image) : Nat := iu m 12 4
def planRate (m : Image) : Nat := iu m 16 1
def planFlags (m : Image) : Nat := iu m 17 1

/-- Cycle section fields (R61), ns from the tick. -/
def cycOff (m : Image) : Nat := match sectionOf m 1 with | some x => x.off | none => 524288
def burstCount (m : Image) : Nat := iu m (cycOff m) 1
def gatherOf (m : Image) (ring : Nat) : Nat := iu m (cycOff m + 4 + 4 * ring) 4
def acyclicEnd (m : Image) : Nat := iu m (cycOff m + 12) 4
/-- Launch bounds of burst `k`, counted from 1. -/
def launchMin (m : Image) (k : Nat) : Nat := iu m (cycOff m + 16 + 4 * (k - 1)) 4
def launchMax (m : Image) (k : Nat) : Nat := iu m (cycOff m + 32 + 4 * (k - 1)) 4

/-- The ring section of a ring (R62). -/
def ringSec (m : Image) (r : Nat) : Option Section := (sections m).find? (fun x => x.ty == 2 && iu m x.off 1 == r)
/-- A ring of the plan is used. -/
def usesRing (m : Image) (r : Nat) : Bool := (ringSec m r).isSome
def ringOff (m : Image) (r : Nat) : Nat := match ringSec m r with | some x => x.off | none => 524288
/-- Number of nodes of a ring section. -/
def planNodes (m : Image) (r : Nat) : Nat := match ringSec m r with | some x => x.count | none => 0
/-- Frame length of burst `k` on a ring. -/
def frameLen (m : Image) (r k : Nat) : Nat := iu m (ringOff m r + 4 + 2 * (k - 1)) 2
def hopP (m : Image) (r : Nat) : Nat := iu m (ringOff m r + 12) 2

/-- A node entry (R62). -/
structure PNode where
  addr : Nat
  flags : Nat
  alias_ : Nat
  upLaunch : Nat
  upLen : Nat
  hopMax : Nat
  latencyMax : Nat
  deriving DecidableEq, Repr

/-- Node entry `i` of a ring, counted from 0. -/
def pnode (m : Image) (r i : Nat) : PNode :=
  let o := ringOff m r + 16 + 16 * i
  { addr := iu m o 1, flags := iu m (o + 1) 1, alias_ := iu m (o + 2) 2, upLaunch := iu m (o + 4) 4,
    upLen := iu m (o + 8) 2, hopMax := iu m (o + 10) 2, latencyMax := iu m (o + 12) 2 }

/-- Node entries of a ring, in order. -/
def pnodes (m : Image) (r : Nat) : List PNode := (List.range (planNodes m r)).map (pnode m r)

/-- A slice map entry (R63); an offset of none lies outside the window. -/
structure Slice where
  axis : Nat
  ring : Nat
  node : Nat
  earliest : Nat
  latest : Nat
  downLen : Nat
  upLen : Nat
  upOff : Nat
  downOff : List (Option Nat)
  deriving DecidableEq, Repr

/-- The slice at a byte offset of the image. -/
def sliceAt (m : Image) (o : Nat) : Slice :=
  { axis := iu m o 1, ring := iu m (o + 1) 1, node := iu m (o + 2) 1, earliest := iu m (o + 3) 1 % 16,
    latest := iu m (o + 3) 1 / 16, downLen := iu m (o + 4) 1, upLen := iu m (o + 5) 1, upOff := iu m (o + 6) 2,
    downOff := (List.range 4).map (fun k => let v := iu m (o + 8 + 2 * k) 2; if v = 0xFFFF then none else some v) }

/-- The slice map. -/
def slices (m : Image) : List Slice := (entriesOf m 3 16).map (sliceAt m)
/-- The slice of an axis. -/
def sliceOf (m : Image) (a : Nat) : Option Slice := (slices m).find? (fun x => x.axis == a)
/-- The axis is a local axis of the plan (R63). -/
def isLocalAxis (m : Image) (a : Nat) : Bool := match sliceOf m a with | some x => x.ring == 255 | none => false
/-- Slot of a local axis. -/
def slotOf (m : Image) (a : Nat) : Option Nat :=
  match sliceOf m a with | some x => if x.ring = 255 then some x.node else none | none => none
/-- The axis of a slot. -/
def axisOfSlot (m : Image) (slot : Nat) : Option Nat :=
  ((slices m).find? (fun x => x.ring == 255 && x.node == slot)).map (·.axis)

/-- A task table entry with its descriptor (R64, R282). -/
structure PTask where
  index : Nat
  flow : Nat
  prio : Nat
  entry : Nat
  base : Nat
  inLen : Nat
  stLen : Nat
  outLen : Nat
  /-- d(τ) in ns. -/
  deadline : Nat
  budget : Nat
  axis : Nat
  subExp : Nat
  subPhase : Nat
  bundle : Nat
  affinity : Nat
  lawId : Nat
  release : Nat
  nonpreempt : Nat
  inputs : Nat
  deriving DecidableEq, Repr

/-- The task entry at a byte offset. -/
def taskAt (m : Image) (i o : Nat) : PTask :=
  let fp := iu m o 2
  let w := iu m (o + 4) 4
  { index := i, flow := fp % 4096, prio := fp / 4096 % 8, entry := iu m (o + 2) 2 % 16384, base := w % 1048576 * 4,
    inLen := w / 1048576, stLen := iu m (o + 8) 2 % 4096, outLen := iu m (o + 10) 1, deadline := iu m (o + 11) 2 * 10,
    budget := iu m (o + 13) 3, axis := iu m (o + 16) 1, subExp := iu m (o + 17) 1, subPhase := iu m (o + 18) 1,
    bundle := iu m (o + 19) 1, affinity := iu m (o + 20) 2, lawId := iu m (o + 22) 2, release := iu m (o + 24) 4,
    nonpreempt := iu m (o + 28) 2, inputs := iu m (o + 30) 1 }

/-- Number of tasks. -/
def taskCount (m : Image) : Nat := match sectionOf m 4 with | some x => x.count | none => 0
/-- Task `i` of the plan. -/
def ptask (m : Image) (i : Nat) : Option PTask :=
  match sectionOf m 4 with
  | some x => if i < x.count then some (taskAt m i (x.off + 32 * i)) else none
  | none => none
/-- The task table, in order. -/
def ptasks (m : Image) : List PTask := (List.range (taskCount m)).filterMap (ptask m)

/-- A bundle table entry (R65). -/
structure PBundle where
  id : Nat
  kind : Nat
  latest : Nat
  group : Nat
  members : Nat
  deriving DecidableEq, Repr

/-- The bundle table. -/
def pbundles (m : Image) : List PBundle :=
  (entriesOf m 5 8).map (fun o =>
    { id := iu m o 1, kind := iu m (o + 1) 1, latest := iu m (o + 2) 1, group := iu m (o + 3) 1, members := iu m (o + 4) 2 })
/-- The bundle of an identifier. -/
def pbundle (m : Image) (b : Nat) : Option PBundle := (pbundles m).find? (fun x => x.id == b)

/-- A flow table entry (R65). -/
structure PFlow where
  id : Nat
  home : Nat
  fallback : Nat
  deriving DecidableEq, Repr

/-- The flow table. -/
def pflows (m : Image) : List PFlow :=
  (entriesOf m 6 4).map (fun o => { id := iu m o 2 % 4096, home := iu m (o + 2) 1, fallback := iu m (o + 3) 1 })
/-- The entry of a flow. -/
def pflow (m : Image) (f : Nat) : Option PFlow := (pflows m).find? (fun x => x.id == f)

/-- A central-current entry (R65). -/
structure PCentral where
  axis : Nat
  ring : Nat
  node : Nat
  sampleAt : Nat
  applyAt : Nat
  applyLead : Nat
  deriving DecidableEq, Repr

/-- The central-current table. -/
def pcentrals (m : Image) : List PCentral :=
  (entriesOf m 7 16).map (fun o =>
    { axis := iu m o 1, ring := iu m (o + 1) 1, node := iu m (o + 2) 1, sampleAt := iu m (o + 4) 4,
      applyAt := iu m (o + 8) 4, applyLead := iu m (o + 12) 2 })
/-- The central-current entry of an axis. -/
def pcentral (m : Image) (a : Nat) : Option PCentral := (pcentrals m).find? (fun x => x.axis == a)

/-- Tasks that serve an axis. -/
def axisTasks (m : Image) (a : Nat) : List PTask := (ptasks m).filter (fun t => t.axis == a)
/-- Law identifiers of the standard library (R164, R215, R347). -/
abbrev lawCascade : Nat := 1
abbrev lawSetPoint : Nat := 2
abbrev lawMaster : Nat := 3
abbrev lawStepper : Nat := 4
abbrev lawCurrent : Nat := 5
abbrev lawWatch : Nat := 0x10

/-- A law identifier of a user block (R164). -/
def userLaw (l : Nat) : Bool := Nat.ble 0x8000 l

/-- The law tasks of an axis in table order: no gearing master, no resonance watch. -/
def lawTasks (m : Image) (a : Nat) : List PTask := (axisTasks m a).filter (fun t => t.lawId != lawMaster && t.lawId != lawWatch)

/-- The main law of an axis (R164, R165): the task of the standard law, else the first user law in table order; further user laws of
the axis are auxiliary (log 47). -/
def mainOf (m : Image) (a : Nat) : Option PTask :=
  match (lawTasks m a).find? (fun t => !userLaw t.lawId && t.lawId != lawCurrent) with
  | some t => some t
  | none => (lawTasks m a).find? (fun t => userLaw t.lawId)

/-- The current task of an axis of mode 3 or 4 (R164, R210): the standard current law, else the first user law after the main one. -/
def currentOf (m : Image) (a : Nat) : Option PTask :=
  match (lawTasks m a).find? (fun t => t.lawId == lawCurrent) with
  | some t => some t
  | none =>
    match mainOf m a with
    | some u => (lawTasks m a).find? (fun t => userLaw t.lawId && Nat.blt u.index t.index)
    | none => none

/-- The task runs in the cycle of a tick number (R44). -/
def dueIn (t : PTask) (tick : Nat) : Bool := tick % 2 ^ t.subExp == t.subPhase

/-! ### The output snapshot (R379) -/

/-- Place of input buffer and of output buffer `n` mod 2 (R358). -/
def inBuf (n : Nat) : Nat := 0x350000 + 0x10000 * (n % 2)
def outBuf (n : Nat) : Nat := 0x370000 + 0x10000 * (n % 2)

/-- The tick that comes next: of the running cycle, or the first one of a cycle that is scheduled (R42, R76), with its rate. -/
def comingTick (s : State) : Option (Nat × Nat) :=
  if s.cyc.running then some (s.cyc.tick + 1, s.cyc.rate) else s.cyc.first.map (fun n => (n, planRate s.image))

/-- The output buffer of a tick is taken as one snapshot (R379). -/
def takeOutputs (n : Nat) (s : State) : State :=
  { s with host := { s.host with snapTick := some n, snapshot := memSlice s.mem.sram (outBuf n) 8192 } }

/-- Instant of the snapshot for a tick: 400 ns before it. -/
def snapAt (t : Nat × Nat) : Nat := tickU t.2 t.1 - 400 * nsU

/-- A write that arrives later than the snapshot of the coming tick finds it taken (R379, R390, R391). -/
def snapBefore (s : State) : State :=
  match comingTick s with
  | some t => if s.host.snapTick ≠ some t.1 ∧ snapAt t < s.time.now then takeOutputs t.1 s else s
  | none => s

/-- A write at the very instant of the snapshot of the coming tick is part of it, though it be taken already (R379, R390). -/
def snapAgain (s : State) : State :=
  match comingTick s with
  | some t => if s.host.snapTick = some t.1 ∧ s.time.now ≤ snapAt t then takeOutputs t.1 s else s
  | none => s

/-- The node position that a ring address stands at (R116), if a node bears it. -/
def nodeAt (s : State) (r addr : Nat) : Option Nat :=
  ((s.ring r).nodes.find? (fun e => e.2.address == addr)).map (·.1)

/-- The node that serves a ring axis. -/
def axisNode (s : State) (a : Nat) : Option (Nat × Nat) :=
  match sliceOf s.image a with
  | some x => if x.ring = 255 then none else (nodeAt s x.ring x.node).map (fun p => (x.ring, p))
  | none => none

/-- A node by ring and position. -/
def State.node (s : State) (r p : Nat) : Node := tget (s.ring r).nodes {} p
/-- Changes a node. -/
def State.onNode (s : State) (r p : Nat) (f : Node → Node) : State :=
  s.onRing r (fun g => { g with nodes := tmod g.nodes {} p f })

/-- Instance number of a node in records and parameters: 64 times the ring plus the address less 1 (R14). -/
def nodeInst (r addr : Nat) : Nat := 64 * r + addr - 1

end Sys2Proof.Machine
end

