-- ==== Sys2Proof/Machine/RingConf.lean ====
section
/-! DEFINITION. The node services that carry a configuration (R102, R103, R121, R133, R149, R151, R224, R570). -/

namespace Sys2Proof.Machine

/-- Sum of a field over a list. -/
def sumOf {α : Type} (f : α → Nat) (l : List α) : Nat := l.foldl (fun n x => n + f x) 0

/-- d_P and d_Q of node entry `i`, counted from 0, in ns (R100). -/
def delayP (m : Image) (r i : Nat) : Nat :=
  80 + hopP m r + sumOf (fun nd => nd.latencyMax + nd.hopMax) ((pnodes m r).take i)
def delayQ (m : Image) (r i : Nat) : Nat :=
  80 + sumOf (·.hopMax) ((pnodes m r).drop i) + sumOf (·.latencyMax) ((pnodes m r).drop (i + 1))

/-- H_r of R46 in ns. -/
def ringDelay (m : Image) (r : Nat) : Nat := (List.range (planNodes m r)).foldl (fun h i => max h (max (delayP m r i) (delayQ m r i))) 0

/-- Wire time of `n` bytes in 0.1 ns: 0.8 ns a byte. -/
def wire (n : Nat) : Nat := 8 * n

/-- Place in the plan of the node with an alias; alias 0 binds nothing (R117). -/
def aliasIndex (m : Image) (r al : Nat) : Option Nat := if al = 0 then none else (pnodes m r).findIdx? (fun e => e.alias_ == al)

/-! ### Services of a node (R102, R103) -/

/-- Payload of a service whose layout the node defines: free bytes for a kind and a value (log 29). -/
def nodePayload (kind : Nat) (values : List Nat) : Bytes :=
  (List.range (Config.nodePayloadLen kind values).val).map (Config.nodePayloadByte kind values)

/-- Queues a service at a node with the next sequence number of the node. -/
def pushService (r p : Nat) (sv : Acyclic) (s : State) : State :=
  s.onNode r p (fun n =>
    let q := (n.seq + 1) % 65536
    { n with seq := q, services := n.services ++ [{ sv with seq := q }] })

/-- The loss count that nodes receive (R121, R151, R570). -/
def lossCount (s : State) : Nat :=
  let n := parN s Par.nodeLossCycles 0
  if s.pair.id = 0 then n else max n (parN s Par.gripCycles 0 + 3)

/-- extrap_cycles (R149). -/
def extrapOf (s : State) : Nat := if s.pair.id = 0 then 8 else max 8 (parN s Par.gripCycles 0 + 3)

/-- What the device tells a node by service 0x05 (R103, R121, R133, R149, R224): the slot-time record with the initial delays of its plan
entry, less the 80 ns of the device port, and what its axes need. A node without an entry gets zeros for these. -/
def configOf (s : State) (r p : Nat) : NodeConfig :=
  let m := s.image
  let n := s.node r p
  let i := aliasIndex m r n.alias_
  let e := i.map (pnode m r)
  let addr := (e.map (·.addr)).getD 0
  let own := (slices m).filter (fun x => x.ring == r && x.node == addr && addr != 0)
  { lossCount := lossCount s, period := periodNs (planRate m), slotTime := (e.map (·.upLaunch)).getD 0,
    delayP := (i.map (fun k => delayP m r k - 80)).getD 0, delayQ := (i.map (fun k => delayQ m r k - 80)).getD 0,
    extrapCycles := extrapOf s,
    slices := own.map (fun x => [x.axis, x.earliest, x.latest, x.downLen, x.upLen, x.upOff] ++ x.downOff.map (·.getD 0xFFFF)),
    central := (own.filter (fun x => par s Par.axisMode x.axis == 3)).map (fun x =>
      [(x.axis : Int), par s Par.ccTrip x.axis, par s Par.stopAction x.axis, par s Par.ascDelay x.axis]) }

/-- The values of a configuration in one list, each part after its length. -/
def configValues (c : NodeConfig) : List Nat :=
  [c.lossCount, c.period, c.slotTime, c.delayP, c.delayQ, c.extrapCycles, c.slices.length] ++ c.slices.flatten ++
    c.central.flatten.map (twos 32)

/-- Configures a node by service 0x05 (R114 step 6, R119); `joined` carries the address of a node that joins. The payload's layout is the
node's: free bytes for the values that it carries (log 29). -/
def configureNode (r p joined : Nat) (s : State) : State :=
  let c := configOf s r p
  pushService r p { service := 5, seq := 0, payload := nodePayload 1 (s.free :: configValues c), addr := joined, config := some c }
    { s with free := s.free + 1 }

/-- An enable of a mode-3 axis puts its trip level, stop action and delay into force, and the device sends them to its node by service
0x05 (R224). -/
def sendCentral (a : Nat) (s : State) : State :=
  match axisNode s a with
  | some (r, p) => if par s Par.axisMode a = 3 then configureNode r p 0 s else s
  | none => s

end Sys2Proof.Machine
end

