-- ==== Sys2Proof/Machine/MotionOps.lean ====
section
/-! DEFINITION. Operations that motion commands, faults and state changes share: limits, the start of moves, stop ramps and
takeover from other sources (R252 to R257, R262), homing legs (R264 to R268), group paths (R258 to R263), busy (R247),
and the ends of the enable and disable sequences (R201, R204, R207). -/

namespace Sys2Proof.Machine

/-! ### Units -/

/-- A T24.F24 value in units of 2^-48. -/
def q48 (v : Int) : Int := v * 16777216
/-- A value in units of 2^-48 rounded to T24.F24 (R237). -/
def t24 (x : Int) : Int := rdiv x 16777216
/-- One turn in units of 2^-48. -/
abbrev turnQ : Int := 281474976710656

/-- The modulus of an axis in units of 2^-48, 0 for a linear axis (R167). -/
def modQ (s : State) (a : Nat) : Int := par s Par.modulo a * turnQ
/-- A position wrapped into [0, m) (R167). -/
def wrapPos (m x : Int) : Int := if m ≤ 0 then x else x % m
/-- The shortest signed difference modulo m, half the modulus taken as positive (R167). -/
def shortDiff (m d : Int) : Int :=
  if m ≤ 0 then d
  else
    let r := d % m
    if m < 2 * r then r - m else r

/-- The move limits of an axis that are in force (R240, R257). -/
def axisLimits (s : State) (a : Nat) : Limits :=
  { v := q48 (par s Par.profVel a), a := q48 (par s Par.profAcc a), d := q48 (par s Par.profDec a),
    j := q48 (par s Par.profJerk a) }

/-- Stop ramp parameters of an axis (R254, R257). -/
def stopDJ (s : State) (a : Nat) : Int × Int := (q48 (par s Par.stopDec a), q48 (par s Par.stopJerk a))

/-- Device time of the tick of the present cycle in units. -/
def tickNow (s : State) : Nat := s.cyc.t0

/-- x* of an axis as its record word holds it, in T24.F24 (R237, R341), in units of 2^-48. -/
def recordPos (s : State) (a : Nat) : Int := wrapPos (modQ s a) (q48 (t24 (wrapPos (modQ s a) (s.axis a).kin.x)))

/-! ### The delay used and the extrapolated position (R185) -/

/-- A position or rate in units of 2^-48 as a fixed-point number. -/
abbrev q96 : Int := turnQ

/-- Sample instant less tick in 1/16 ns (R185, R341); without a valid sample that of the last one, referred to its own tick. -/
def sampleOff (s : State) (a : Nat) : Int :=
  let x := s.axis a
  match x.sample, x.fb with
  | some (_, t), _ => ((t : Int) - s.cyc.t0) / 268435456
  | none, some q => ((q.at_ % (s.period * nsU) : Nat) : Int) / 268435456
  | none, none => 0

/-- The delay used of an axis in 1/16 ns (R185). -/
def tauUsed (s : State) (a : Nat) : Nat :=
  let x := s.axis a
  let m := s.image
  if x.delayKnown then x.delayUsed
  else if parN s Par.delayInit a ≠ 0 then 16 * parN s Par.delayInit a
  else
    match sliceOf m a with
    | some sl =>
      if sl.ring = 255 then (if par s Par.pwmCountMode sl.node = 1 then 40 else 80) * parN s Par.pwmPeriod sl.node
      else
        let first : Int := match nodeAt s sl.ring sl.node with | some p => ((s.node sl.ring p).firstSample).getD 0 | none => 0
        (((16 * launchMax m sl.latest + wire (frameLen m sl.ring sl.latest) * 16 / 10 + 16 * ringDelay m sl.ring : Nat) : Int) - first).toNat
    | none => 0

/-- τ_d and τ_s in 1/16 ns, 0 without delay_comp (R185, R221). -/
def tauLaw (s : State) (a : Nat) : Int × Int :=
  if par s Par.delayComp a = 0 then (0, 0) else ((tauUsed s a : Int), sampleOff s a + tauUsed s a)

/-- A fixed-point rate over a time in 1/16 ns. -/
def overTime (v : Int) (t16 : Int) : Int := v * t16 / 16000000000

/-- x̂ in units of 2^-96 turn (R185). -/
def xHat (s : State) (a : Nat) : Int :=
  let x := s.axis a
  x.xfb * q96 + overTime (x.vfb * q96) (tauLaw s a).1

/-- x̂ in units of 2^-48, wrapped: the position that a capture takes (R200, R272). -/
def xCapture (s : State) (a : Nat) : Int := wrapPos (modQ s a) (rdiv (xHat s a) q96)

/-! ### Moves (R238, R245, R248) -/

/-- Distance of a move from a standstill (R245). -/
def moveDelta (m : Int) (q : QMove) (x : Int) : Int :=
  if q.rel then q.delta
  else if m ≤ 0 then q.target - x
  else if q.dir = 1 then (q.target - x) % m
  else if q.dir = 2 then -((x - q.target) % m)
  else shortDiff m (q.target - x)

/-- A limit switch that is qualified active blocks motion of a sign (R252). -/
def limitBlocks (x : Axis) (d : Int) : Bool := (decide (0 < d) && x.limPos.qualified) || (decide (d < 0) && x.limNeg.qualified)

/-- The axis stands still at its position, which wraps; a remaining distance moves with it. -/
def standStill (m : Int) (x : Axis) (pos : Int) (p : ProfState) (rest : Int) : Axis :=
  { x with kin := { x := wrapPos m pos }, segs := [], prof := p, remaining := rest, target := wrapPos m pos + rest }

/-- Starts a move from standstill at an instant (R238, R240). -/
def startMove (m : Int) (l : Limits) (t : Nat) (q : QMove) (x : Axis) : Axis :=
  let d := moveDelta m q x.kin.x
  { x with prof := .moving, segs := planRest t x.kin.x d l, target := x.kin.x + d, lim := l, finalD := l.d, finalJ := l.j,
           remaining := 0, keep := false, kin := { x := x.kin.x } }

/-- The coils of a mode-6 axis must be driven before it moves (R272). -/
def needsWake (s : State) (a : Nat) (x : Axis) : Bool :=
  par s Par.axisMode a == 6 && (x.coil == .off || x.coil == .shorted)

/-- Starts a move at a tick, after the wake time where the coils of a stepper are off (R238, R272). -/
def beginMove (s : State) (a : Nat) (t : Nat) (q : QMove) (x : Axis) : Axis :=
  if needsWake s a x then
    let p := if x.fbValid then xCapture s a else x.kin.x
    { x with prof := .moving, coil := .running, wake := some t, wakeMove := some q, stillSince := none, keep := false,
             kin := { x := p }, target := p + moveDelta (modQ s a) q p, remaining := 0 }
  else startMove (modQ s a) (axisLimits s a) t q { x with coil := .running, stillSince := none }

/-- The next queued move of an idle axis starts at a tick; one whose first motion is towards a qualified active limit is
removed with the rest of the queue (R238, R248, R252). -/
def startQueued (s : State) (a : Nat) (t : Nat) (x : Axis) : Axis :=
  match x.queue with
  | [] => x
  | q :: r =>
    if limitBlocks x (moveDelta (modQ s a) q x.kin.x) then { x with queue := [] }
    else beginMove s a t q { x with queue := r }

/-! ### Stops (R252, R254, R255) -/

/-- What a gearing becomes when the axis leaves it. -/
def noGear (g : Gear) : Gear :=
  { g with num := 0, den := 1, r := 0, rdot := 0, exact := true, ramping := false, segs := [], disengaging := false, rem := 0,
           lastMaster := none, vm := 0, toNum := 0, toDen := 1 }

/-- The homing stop ramp from the present state (R264). -/
def homingRamp (h : Homing) (t : Nat) (k : Kin) : List Seg := planStop t k h.dec h.jerk

/-- The move in force ends at its target no farther along the path than a stop ramp would (R255). -/
def stopsSooner (x : Axis) (ramp : List Seg) : Bool :=
  let stop := (planLast x.kin ramp).x - x.kin.x
  let way := x.target - x.kin.x
  decide (0 ≤ way * stop) && decide (way.natAbs ≤ stop.natAbs)

/-- STOP (keep false) or HOLD (keep true) of one axis at a tick, from the state of that tick (R252, R254, R255, R269,
R275, R276). Homing ends without a reference and keeps no remaining distance; its queue goes as with a move. -/
def stopAxis (s : State) (a : Nat) (keep : Bool) (t : Nat) (x : Axis) : Axis :=
  let (d, j) := stopDJ s a
  if 2 ≤ x.source then
    { x with source := 0, gear := noGear x.gear, prof := .stopping, segs := planStop t x.kin d j, keep := false, toTarget := false, queue := [],
             remaining := 0, target := x.kin.x }
  else
    match x.prof with
    | .idle | .group => x
    | .homing =>
      match x.homing with
      | some h =>
        let ramp := homingRamp h t x.kin
        { x with prof := .stopping, segs := ramp, keep := keep, toTarget := false, queue := if keep then x.queue else [], homing := none,
                 remaining := 0, target := (planLast x.kin ramp).x, homed := false }
      | none => x
    | .held => if keep then x else { x with prof := .idle, queue := [], remaining := 0, target := x.kin.x }
    | .stopping => if keep then x else { x with keep := false, queue := [] }
    | .moving =>
      match x.wakeMove with
      | some q =>
        let e := moveDelta (modQ s a) q x.kin.x
        if keep then { x with prof := .held, keep := false, wake := none, wakeMove := none, remaining := e, target := x.kin.x + e,
                              lim := if x.keep then x.lim else axisLimits s a }
        else { x with prof := .idle, wake := none, wakeMove := none, queue := [], remaining := 0, target := x.kin.x }
      | none =>
        let ramp := planStop t x.kin d j
        if keep then
          if stopsSooner x ramp then { x with prof := .stopping, keep := true, toTarget := true }
          else { x with prof := .stopping, keep := true, toTarget := false, segs := ramp }
        else { x with prof := .stopping, keep := false, toTarget := false, segs := ramp, queue := [] }

/-- A homing that a stop would end is running (R269). -/
def homingRuns (x : Axis) : Bool := x.prof == .homing && x.homing.isSome

/-- STOP or HOLD of one axis at a tick; a homing that it ends completes with HOMING_ABORTED (R269). -/
def stopAt (s : State) (a : Nat) (keep : Bool) (t : Nat) : State :=
  let x := s.axis a
  let s1 := s.onAxis a (stopAxis s a keep t)
  if homingRuns x && !decide (2 ≤ x.source) then finish s1 Cmd.home a St.homingAborted else s1

/-! ### Homing (R264 to R270) -/

/-- A duration that no run reaches: the cruise of a search leg. -/
abbrev longDur : Nat := 2 ^ 120

/-- Direction of a leg as a sign. -/
def legSign (h : Homing) : Int := if h.dirNeg then -1 else 1

/-- Motion at a velocity from rest or from motion, held until something ends it (R264). -/
def runAt (t : Nat) (k : Kin) (v acc dec j : Int) : List Seg :=
  let sg := if v < 0 then -1 else (1 : Int)
  build t { k with j := 0 } (signed3 sg (changeVel (sg * k.v) (sg * k.a) (sg * v) acc dec j) ++ [(0, longDur)])

/-- The reference input of a homing mode is qualified active (R264, R265). -/
def refActive (x : Axis) (h : Homing) : Bool :=
  if h.mode = 1 then (if h.dirNeg then x.limNeg.qualified else x.limPos.qualified)
  else if h.mode = 0 ∨ h.mode = 3 then x.homeSw.qualified else false

/-- A search leg starts from rest; where the reference input is active already, the back-off comes first (R265). -/
def startLeg (t : Nat) (h : Homing) (x : Axis) : Axis :=
  let back := refActive x h
  let v := if back then -(legSign h * h.vel) else legSign h * h.vel
  { x with prof := .homing, segs := runAt t { x := x.kin.x } v h.acc h.dec h.jerk,
           homing := some { h with phase := if back then .backOff else .search, legStart := x.kin.x, edges := 0 },
           homeEdges := 0 }

/-- The homing of an axis with the parameter values that its HOME finds in force (R264, R270). -/
def homingOf (s : State) (a : Nat) : Homing :=
  { mode := parN s Par.homeMode a, dirNeg := par s Par.homeDir a == 1, phase := .search, legStart := (s.axis a).kin.x,
    vel := q48 (par s Par.homeVel a), creep := q48 (par s Par.homeCreep a), acc := q48 (par s Par.homeAcc a),
    dec := q48 (par s Par.homeStopDec a), jerk := q48 (par s Par.homeJerk a), offset := q48 (par s Par.homeOffset a),
    chatterMax := parN s Par.homingChatterMax a, distMax := q48 (par s Par.homeDistMax a) }

/-- HOME takes effect at a tick: mode 4 takes the present position as the reference, the others start a leg (R264). -/
def startHoming (s : State) (a : Nat) (t : Nat) (x : Axis) : Axis :=
  let h := homingOf s a
  if h.mode = 4 then
    { x with prof := .homing, segs := [], homing := some { h with phase := .stopFound, found := some x.kin.x, legStart := x.kin.x } }
  else startLeg t h x

/-- Homing stops on its ramp because the reference was found at a position; `edge` is the instant of an edge between two samples (R250). -/
def foundAt (t : Nat) (pos : Int) (h : Homing) (x : Axis) (edge : Option Nat := none) : Axis :=
  { x with segs := homingRamp h t x.kin,
           homing := some { h with phase := .stopFound, found := some pos, foundTick := some t, foundEdge := edge } }

/-- Homing ends without a reference: the axis stops on the homing stop ramp, not homed (R264, R266, R267, R269). Moves queued
behind it are discarded, of which the spec says nothing (DESIGN CHOICE, log 51). -/
def failHoming (t : Nat) (h : Homing) (x : Axis) : Axis :=
  { x with prof := .stopping, keep := false, toTarget := false, remaining := 0, queue := [], homing := none, homed := false, segs := homingRamp h t x.kin }

/-- What the end of the homing plan at a tick leads to: a new search leg after a back-off, the reversed leg after a limit
(R265, R266). -/
def homingStill (t : Nat) (x : Axis) : Axis :=
  match x.homing with
  | none => x
  | some h =>
    match h.phase with
    | .backStop =>
      { x with segs := runAt t { x := x.kin.x } (legSign h * h.vel) h.acc h.dec h.jerk, homing := some { h with phase := .search } }
    | .stopReverse => startLeg t { h with dirNeg := !h.dirNeg, reversed := true } x
    | _ => x

/-! ### Interpolation groups (R258 to R263) -/

/-- The group that an axis belongs to. -/
def groupOf (s : State) (a : Nat) : Option Nat := (s.groups.find? (fun e => e.2.members.contains a)).map (·.1)

/-- The group that a stop, hold or resume of a member axis acts on (R262). -/
def actingGroup (s : State) (a : Nat) : Option Nat := if (s.axis a).source = 1 then groupOf s a else none

/-- The axis with the distance of largest magnitude, the lowest axis on a tie, and that distance (R261). -/
def dominant : List (Nat × Int) → Nat × Int
  | [] => (0, 0)
  | [e] => e
  | e :: l =>
    let b := dominant l
    if b.2.natAbs < e.2.natAbs ∨ (b.2.natAbs = e.2.natAbs ∧ e.1 < b.1) then e else b

/-- Distances of a group move from the members' positions (R245, R261). -/
def groupDeltas (s : State) (g : Group) (m : GMove) : List Int :=
  (g.members.zip (m.targets.zip m.deltas)).map (fun e =>
    let md := modQ s e.1
    moveDelta md { target := e.2.1, delta := e.2.2, rel := m.rel, dir := m.dir } (s.axis e.1).kin.x)

/-- A group move is laid out from the members' standstill: their starts, the distances `ds`, the dominant member (R261). -/
def layGroup (s : State) (m : GMove) (ds : List Int) (g : Group) : Group :=
  let (a, d) := dominant (g.members.zip ds)
  { g with prof := .moving, starts := g.members.map (fun b => (s.axis b).kin.x), move := some { m with deltas := ds },
           dom := a, len := d.natAbs, kin := {}, segs := [], finalD := m.lim.d, finalJ := m.lim.j, remaining := 0, keep := false,
           wake := none }

/-- The path of a group that is laid out begins at an instant, over what is left of it (R240, R256). -/
def runPath (t : Nat) (g : Group) : Group :=
  match g.move with
  | some m => { g with prof := .moving, segs := planRest t g.kin.x (g.len - g.kin.x) m.lim, finalD := m.lim.d, finalJ := m.lim.j,
                       remaining := 0, keep := false, wake := none }
  | none => g

/-- Members whose coils must be driven before the path begins (R272). -/
def sleepers (s : State) (g : Group) : List Nat := g.members.filter (fun a => needsWake s a (s.axis a))

/-- Drives the coils of a member for its wake time; with an encoder its x* is first captured (R272). -/
def wakeMember (t : Nat) (s : State) (a : Nat) : State :=
  s.onAxis a (fun x => { x with coil := .running, stillSince := none, wake := some t,
                                kin := { x := if x.fbValid then xCapture s a else x.kin.x } })

/-- A group move from standstill with the distances that `dist` gives from the members' positions: the path begins at once, or after the
wake times of members whose coils are off (R261, R272). -/
def startPath (s : State) (n t : Nat) (m : GMove) (dist : State → Group → List Int) : State :=
  let sl := sleepers s (s.group n)
  if sl = [] then s.onGroup n (fun g => runPath t (layGroup s m (dist s g) g))
  else
    let s1 := sl.foldl (wakeMember t) s
    s1.onGroup n (fun g => { layGroup s1 m (dist s1 g) g with wake := some t })

/-- Smallest of the members' stop values scaled to the path (R262). -/
def scaledMin (len : Int) : List (Int × Int) → Option Int
  | [] => none
  | (d, v) :: r =>
    let rest := scaledMin len r
    if d = 0 then rest
    else
      let x := v * len / d.natAbs
      match rest with
      | none => some x
      | some y => some (min x y)

/-- Deceleration and jerk of the group stop ramp (R262). -/
def groupStopDJ (s : State) (g : Group) : Int × Int :=
  match g.move with
  | none => (turnQ, turnQ)
  | some m =>
    let ds := g.members.zip m.deltas
    ((scaledMin g.len (ds.map (fun e => (e.2, (stopDJ s e.1).1)))).getD turnQ,
     (scaledMin g.len (ds.map (fun e => (e.2, (stopDJ s e.1).2)))).getD turnQ)

/-- STOP or HOLD of a group at a tick (R262, R275, R276); a stop discards the path whichever comes first (R280). -/
def stopGroup (s : State) (keep : Bool) (t : Nat) (g : Group) : Group :=
  match g.prof with
  | .idle | .group | .homing => g
  | .held => if keep then g else { g with prof := .idle, queue := [], remaining := 0, move := none }
  | .stopping => if keep then g else { g with keep := false, queue := [] }
  | .moving =>
    if g.wake.isSome then
      (if keep then { g with prof := .held, wake := none, remaining := g.len - g.kin.x }
       else { g with prof := .idle, wake := none, queue := [], remaining := 0, move := none })
    else
    let (d, j) := groupStopDJ s g
    let ramp := planStop t g.kin d j
    let past := decide (g.len ≤ (planLast g.kin ramp).x)
    if keep then
      if past then { g with prof := .stopping, keep := true, toTarget := true }
      else { g with prof := .stopping, keep := true, toTarget := false, segs := ramp }
    else { g with prof := .stopping, keep := false, toTarget := false, segs := ramp, queue := [] }

/-- Position, velocity and acceleration of member `i` on the path (R261). -/
def memberKin (g : Group) (i : Nat) : Option Kin :=
  match g.move, g.starts[i]? with
  | some m, some x0 =>
    let d := (m.deltas[i]?).getD 0
    if g.len = 0 then some { x := x0 }
    else some { x := x0 + rdiv (d * g.kin.x) g.len, v := rdiv (d * g.kin.v) g.len, a := rdiv (d * g.kin.a) g.len,
                j := rdiv (d * g.kin.j) g.len }
  | _, _ => none

/-- What is left of the path for member `i` (R261, R274). -/
def memberWay (g : Group) (i : Nat) : Int :=
  match g.move with
  | some m => let d := (m.deltas[i]?).getD 0
              if g.len = 0 then 0 else d - rdiv (d * g.kin.x) g.len
  | none => 0

/-- The members with source 1 take the set-points of the path, and where it stands as their own target; a disabled one has left it
(R207, R263). -/
def followGroup (s : State) (n : Nat) : State :=
  let g := s.group n
  g.members.zipIdx.foldl (fun s e =>
    match memberKin g e.2 with
    | some k => s.onAxis e.1 (fun x =>
        if x.source = 1 ∧ x.phase ≠ .disabled then
          (let p := if k.v = 0 ∧ k.a = 0 then wrapPos (modQ s e.1) k.x else k.x
           { x with kin := { k with x := p }, target := p })
        else x)
    | none => s) s

/-! ### Busy (R247) -/

/-- Commands that make an axis or a group busy until they take effect: all but limit writes (R247, R706). -/
def makesBusy : MotionCmd → Bool
  | .limits _ | .axisLimits _ => false
  | _ => true

/-- A unit is idle (R247): it stands still with no move, no remaining distance and an empty queue, a held unit with nothing left
included. -/
def idleUnit (p : ProfState) (rest : Int) (noQueue : Bool) : Bool := noQueue && (p == .idle || (p == .held && rest == 0))

/-- An axis is busy for a command of a completion stamp (R247, R277). -/
def busyAxis (x : Axis) (stamp : Nat) : Bool :=
  !idleUnit x.prof x.remaining (x.queue == []) || x.waiting.any (fun w => makesBusy w.cmd) ||
    (match x.idleAt with | some t => Nat.ble stamp t | none => false)

/-- A group is busy. -/
def busyGroup (g : Group) (stamp : Nat) : Bool :=
  !idleUnit g.prof g.remaining (g.queue == []) || g.waiting.any (fun w => makesBusy w.cmd) ||
    (match g.idleAt with | some t => Nat.ble stamp t | none => false)

/-- A member is busy through its own profile unit or through its group (R247, R259). -/
def busyMember (s : State) (a stamp : Nat) : Bool :=
  busyAxis (s.axis a) stamp || (match groupOf s a with | some g => busyGroup (s.group g) stamp | none => false)

/-- Adds a motion command to those that wait for the next tick. -/
def waitAxis (a stamp : Nat) (c : MotionCmd) (s : State) : State :=
  s.onAxis a (fun x => { x with waiting := x.waiting ++ [{ stamp := stamp, cmd := c }] })
/-- Adds a motion command to those of a group. -/
def waitGroup (g stamp : Nat) (c : MotionCmd) (s : State) : State :=
  s.onGroup g (fun x => { x with waiting := x.waiting ++ [{ stamp := stamp, cmd := c }] })

/-! ### Enable and disable (R200, R201, R204, R207) -/

/-- Control bits of the down slice (R168). -/
abbrev ctlPower : Nat := 1
abbrev ctlBrake : Nat := 2
abbrev ctlReset : Nat := 4

/-- The axis is enabled or stops before its disable: its law controls the drive. -/
def axisOn (x : Axis) : Bool :=
  match x.phase with
  | .enabled | .stopping => true
  | _ => false

/-- The axis is in an enable sequence. -/
def enabling (x : Axis) : Bool :=
  match x.phase with
  | .accepted _ _ | .powering _ | .braking _ => true
  | _ => false

/-- The axis is disabled at once: enables and brake release are cleared, and waiting commands of its disable and homing
complete (R201, R207). -/
def disabledNow (s : State) (a : Nat) : State :=
  let x := s.axis a
  let s1 := s.onAxis a (fun x => { x with phase := .disabled, control := 0, axisEnabled := false })
  let s2 := if homingRuns x then
      finish (s1.onAxis a (fun x => { x with homing := none, homed := false, prof := .idle, segs := [], kin := { x := x.kin.x } })) Cmd.home a
        St.homingAborted
    else s1
  finish s2 Cmd.axisDisable a St.ok

/-- Step 2 of R201: brake release is cleared and the hold runs. -/
def engageBrake (now : Nat) (x : Axis) : Axis :=
  { x with phase := .holding now, control := if x.control % 4 = 3 then x.control - ctlBrake else x.control }

/-- An enable sequence ends (R204): AXIS_ENABLE completes with AXIS_ABORTED, and the axis goes on with R201 from the step
it has reached. -/
def abortEnable (s : State) (a : Nat) (status : Nat := St.axisAborted) : State :=
  match (s.axis a).phase with
  | .braking _ => finish (s.onAxis a (engageBrake s.time.now)) Cmd.axisEnable a status
  | .accepted _ _ | .powering _ => disabledNow (finish s Cmd.axisEnable a status) a
  | _ => s

/-- A stop of an axis that begins at the next tick, with or without its disable at standstill (R32, R33, R201, R601). A
member that follows a group path stops with its group: where the member is disabled, the group's remaining path is
discarded (R263). -/
def requestStop (keep disable : Bool) (s : State) (a : Nat) : State :=
  let x := s.axis a
  let now := nowNs s
  if enabling x then (if disable then abortEnable s a else s)
  else if !axisOn x then s
  else
    let s1 := if disable then s.onAxis a (fun x => { x with phase := .stopping }) else s
    match actingGroup s a with
    | some g => waitGroup g now (if disable || !keep then .stop else .hold) s1
    | none => waitAxis a now (if keep then .hold else .stop) s1

/-- The stop of an axis on entry into FAULT (R33): on its ramp with the remaining distance, or its group's remaining path, kept, and
disabled at standstill. -/
def faultStop (s : State) (a : Nat) : State :=
  let x := s.axis a
  if enabling x then abortEnable s a
  else if !axisOn x then s
  else
    let s1 := s.onAxis a (fun x => { x with phase := .stopping })
    match actingGroup s a with
    | some g => waitGroup g (nowNs s) .hold s1
    | none => waitAxis a (nowNs s) .hold s1

/-- A set-point source that is lost gives way to the profile unit, on an axis that is not enabled too (R192, R196): it stands or stops, and
the source is 0. -/
def leaveSource (s : State) (a : Nat) : State :=
  let x := s.axis a
  if axisOn x || enabling x || Nat.blt x.source 2 then s else waitAxis a (nowNs s) .stop s

/-- STO disables an axis at once (R207). R207 does not say which source an axis on source 2 or 3 has then: it reverts to source 0, as after a
stop (DESIGN CHOICE, log 51). -/
def stoDisable (s : State) (a : Nat) : State :=
  let x := s.axis a
  if axisOn x || enabling x || (match x.phase with | .holding _ => true | _ => false) then
    let s0 := match actingGroup s a with
      | some g => waitGroup g (nowNs s) .stop s
      | none => s
    let s1 := if enabling x then finish s0 Cmd.axisEnable a St.axisAborted else s0
    let aborts := homingRuns x || x.waiting.any (fun w => w.cmd == .home)
    let s2 := if aborts then finish s1 Cmd.home a St.homingAborted else s1
    let s3 := s2.onAxis a (fun x =>
      { x with homed := x.homed && !aborts, kin := { x := x.kin.x }, segs := [], prof := .idle, queue := [], remaining := 0, target := x.kin.x, homing := none,
               wake := none, wakeMove := none, waiting := [], source := if 2 ≤ x.source then 0 else x.source,
               gear := if 2 ≤ x.source then noGear x.gear else x.gear })
    let s4 := match slotOf s.image a with
      | some n => { s3 with pwm := { s3.pwm with timers := tmod s3.pwm.timers {} n (fun t => { t with idleNext := true }) } }
      | none => s3
    disabledNow s4 a
  else s

/-- Axes of the part. -/
def allAxes (s : State) : List Nat := List.range (axisCount s.var)

end Sys2Proof.Machine
end

