-- ==== Sys2Proof/Machine/Reactions.lean ====
section
/-! DEFINITION. Raising events with the reaction of their class (R601 to R603, R611, R708), and the changes of the device
state with what each one ends (R29, R32, R33, R36, R75, R204, R388). -/

namespace Sys2Proof.Machine

/-! ### Changes of the device state -/

/-- The notification code of a state change (R368). -/
abbrev notifyState : Nat := 0xF001

/-- A plan switch that is verifying or armed ends with a state change (R75). -/
def cancelPlan (s : State) : State :=
  match s.plan.verifying, s.plan.armed with
  | some _, _ =>
    respondLater { s with plan := { s.plan with verifying := none, standbySt := .unverified } } s.plan.verifyMb Cmd.planCommit
      St.stateChanged []
  | none, some _ =>
    finish { s with plan := { s.plan with armed := none, standbySt := .verified } } Cmd.planCommit 0 St.stateChanged
  | none, none => s

/-- Enable sequences end with a change of the device state (R204). -/
def abortEnables (s : State) : State :=
  (s.axes.filter (fun e => enabling e.2)).foldl (fun s e => abortEnable s e.1) s

/-- The device state changes: what it ends completes first, then NOTIFY_STATE is posted (R29, R75, R204, R368, R388). -/
def changeState (s : State) (m : DevMode) : State :=
  if s.dev.mode = m then s
  else
    let old := modeCode s.dev.mode
    let s1 := abortEnables (cancelPlan s)
    notify { s1 with dev := { s1.dev with mode := m } } notifyState 0 St.ok (b8 old ++ b8 (modeCode m) ++ zeros 2)

/-- A pending SYS_PREOP or CYCLE_START ends with STATE_CHANGED when a change of higher precedence occurs (R36). -/
def cancelTransitions (s : State) : State :=
  let s1 := if s.dev.preopPending then
      finish { s with dev := { s.dev with preopPending := false } } Cmd.sysPreop 0 St.stateChanged
    else s
  match s1.cyc.first with
  | some _ => finish { s1 with cyc := { s1.cyc with first := none } } Cmd.cycleStart 0 St.stateChanged
  | none => s1

/-- Enters SAFE_HOLD: every enabled axis stops with its remaining distance kept (R29, R32, R36). -/
def enterSafeHold (s : State) : State :=
  match s.dev.mode with
  | .preop | .operational =>
    let held := s.dev.mode
    let s1 := changeState (cancelTransitions s) .safeHold
    let s2 := { s1 with dev := { s1.dev with held := held } }
    (allAxes s2).foldl (requestStop true false) s2
  | _ => s

/-- Enters FAULT as R29 and R33 say: without a cycle from CONFIG, at the end of BOOT from BOOT; from the states with a
cycle every enabled axis stops and is disabled. -/
def enterFault (s : State) : State :=
  match s.dev.mode with
  | .config =>
    let s1 := changeState (cancelTransitions s) .fault
    { s1 with dev := { s1.dev with faultNoCycle := true } }
  | .preop | .operational | .safeHold =>
    let s1 := changeState (cancelTransitions s) .fault
    let s2 := { s1 with dev := { s1.dev with faultNoCycle := false } }
    (allAxes s2).foldl faultStop s2
  | .boot => { s with dev := { s.dev with faultNoCycle := true } }
  | _ => s

/-! ### Raises -/

/-- A device fault: record and report, the trigger of the shavings record, and FAULT (R601, R611). -/
def raiseDevice (s : State) (r : Raise) (trigger : Nat := 1) : State :=
  let s1 := raiseOnly s { r with cls := Cls.device }
  enterFault (freezeRecord s1 trigger r.source (r.at_.getD (nowNs s)))

/-- The stamps of axis and group faults that lie in the window of R603. -/
def stormWindow (s : State) : List Nat := s.ev.faultStamps.filter (fun t => Nat.blt (nowNs s) (t + 1000000000))

/-- The count of R603 exceeds fault_storm_max. -/
def stormNow (s : State) : Bool :=
  let m := parN s Par.faultStormMax 0
  m != 0 && Nat.blt m (stormWindow s).length

/-- Counts an axis or group fault and raises FAULT_STORM once for each excursion (R603, R708). -/
def countFault (s : State) (ns : Nat) : State :=
  -- the excursion ended if the count fell back before this stamp
  let was := s.ev.storm && stormNow s
  let s1 := { s with ev := { s.ev with faultStamps := stormWindow s ++ [ns], storm := was } }
  if stormNow s1 && !was then
    raiseDevice { s1 with ev := { s1.ev with storm := true } }
      { source := Ev.faultStorm, cls := Cls.device }
  else s1

/-- Adds a fault source to the active faults of an axis (R602). -/
def addFault (src : Nat) (l : List Nat) : List Nat := if l.contains src then l else l ++ [src]

/-- An axis fault without a reaction of its own class: record, report, active fault, count (R601 to R603). -/
def noteAxisFault (s : State) (src a : Nat) (cause : Nat := 0) (detail : Bytes := []) (flags : Nat := 0) : State :=
  let s1 := raiseOnly s { source := src, cls := Cls.axis, kind := Kind.axis, inst := a, cause := cause, detail := detail, flags := flags }
  countFault (s1.onAxis a (fun x => { x with faults := addFault src x.faults })) (nowNs s)

/-- An axis fault with the reaction of R601: the axis stops on its stop ramp with the remaining distance kept and is then
disabled. -/
def raiseAxis (s : State) (src a : Nat) (cause : Nat := 0) (detail : Bytes := []) (flags : Nat := 0) : State :=
  requestStop true true (noteAxisFault s src a cause detail flags) a

/-- A group fault of a group with the reaction of R601: the group stops with its remaining path kept; its members stay
enabled. -/
def raiseGroup (s : State) (src kind inst g : Nat) (flags : Nat := 0) : State :=
  let s1 := raiseOnly s { source := src, cls := Cls.group, kind := kind, inst := inst, flags := flags }
  let s2 := countFault (s1.onGroup g (fun x => { x with faults := addFault src x.faults })) (nowNs s)
  waitGroup g (nowNs s2) .hold s2

/-- A warning. -/
def raiseWarn (s : State) (src : Nat) (kind : Nat := 0) (inst : Nat := 0) (cause : Nat := 0) (detail : Bytes := [])
    (flags : Nat := 0) : State :=
  raiseOnly s { source := src, cls := Cls.warn, kind := kind, inst := inst, cause := cause, detail := detail, flags := flags }

/-- An information event. -/
def raiseInfo (s : State) (src : Nat) (kind : Nat := 0) (inst : Nat := 0) (cause : Nat := 0) (detail : Bytes := []) : State :=
  raiseOnly s { source := src, cls := Cls.info, kind := kind, inst := inst, cause := cause, detail := detail }

/-! ### ECC (R23, R606) -/

/-- A corrected single-bit error is counted (R23). -/
def eccFixed (s : State) : State := { s with ev := { s.ev with eccCorrected := inc32 s.ev.eccCorrected } }

/-- A double-bit error that the re-read clears is a transient outcome of its kind (R606). -/
def eccCleared (s : State) (kind : Nat) (of inst : Nat := 0) : State :=
  transient s kind { source := Ev.eccDouble, cls := Cls.info, kind := of, inst := inst }

/-- What ECC finds at a read that goes on: a corrected error is counted, a cleared one is a transient of its kind (R23, R606). -/
def noteRead (s : State) (kind : Nat) (ecc : EccRead) (of inst : Nat := 0) : State :=
  match ecc with
  | .corrected => eccFixed s
  | .cleared => eccCleared s kind of inst
  | .clean | .confirmed => s

/-- A double-bit error in the rest of shared state SRAM that the re-read confirms: a device fault (R606 kind 4). -/
def eccDevice (s : State) : State := raiseDevice s { source := Ev.eccDouble, cls := Cls.device, flags := 2 }

/-- The rules of a command that reads MRAM, the capture SRAM or LPDDR4, with what ECC finds (R23, R606 kind 6): a confirmed error fails the
command where its own checks let it read. -/
def withRead (code : Nat) (body : State → Request → Nat → Reply) (lost : State → Request → State := fun s _ => s) :
    State → Request → Nat → Reply := fun s q t =>
  match body s q t, q.ecc with
  | .err st p, _ => .err st p
  | .errWith s' st p, _ => .errWith s' st p
  | _, .confirmed =>
    .errWith (raiseWarn (lost s q) Ev.eccDouble 0 0 0 [] 2) (0x8000 + (Config.eccStatus code).val) []
  | r, .clean => r
  | _, e => body (noteRead s 6 e) q t

end Sys2Proof.Machine
end

