-- ==== Sys2Proof/Machine/Motion.lean ====
section
/-! DEFINITION. The motion commands and events: moves, stops, homing, interpolation groups, switches and steppers at
standstill (spec 07, R676). -/

namespace Sys2Proof.Machine

/-- Outcome of an effect on everything but the queue. -/
abbrev Out := Host.Outcome State Fault Refusal

/-! ### Payload fields -/

/-- The axis or group that a number · flags field names (R670). -/
def moverOf (p : Bytes) : Option Mover :=
  let n := uAt p 0 1
  let f := uAt p 1 1
  if f % 128 ≠ 0 then none
  else if f = 128 then (if n < 16 then some (.group n) else none)
  else if n < 128 then some (.axis n) else none

/-- Continues with the axis or group that the payload names; reserved bytes are 0. -/
def withMover (s : State) (p : Bytes) (k : Mover → Reply) : Reply :=
  need (resv p 2 2)
    (match moverOf p with
     | none => .err St.badParam []
     | some (.axis a) => if axisCount s.var ≤ a then .err St.unsupported [] else k (.axis a)
     | some (.group g) => k (.group g))

/-- Largest position of a linear axis in units of 2^-48 (R245, R167). -/
abbrev posMax : Int := 8388607 * turnQ

/-- The thing a mover's stop, hold or resume acts on (R262). -/
def actsOn (s : State) : Mover → Mover
  | .axis a => match actingGroup s a with | some g => .group g | none => .axis a
  | .group g => .group g

/-! ### Moves -/

/-- Moves that wait after the last stop that waits. -/
def movesAfterStop : List WaitingMotion → List QMove
  | [] => []
  | w :: r =>
    match w.cmd with
    | .move m => if r.any (fun v => v.cmd == .stop) then movesAfterStop r else m :: movesAfterStop r
    | _ => movesAfterStop r

/-- A STOP waits for the next tick. -/
def stopWaits (x : Axis) : Bool := x.waiting.any (fun w => w.cmd == .stop)

/-- How many moves stand in the queue behind the move in force, those that wait for the tick counted (R248, R706). -/
def queuedMoves (x : Axis) : Nat :=
  let w := (movesAfterStop x.waiting).length
  if stopWaits x then w
  else if idleUnit x.prof x.remaining (x.queue == []) && !x.waiting.any (fun v => v.cmd == .home) then w - 1 else x.queue.length + w

/-- Where an axis comes to rest by the STOP that waits for the next tick, or by that whose ramp it follows (R254, R706). -/
def stopEnd (s : State) (a : Nat) : Int :=
  let x := s.axis a
  let t := s.cyc.t0 + s.period * nsU
  let (d, j) := match x.homing with
    | some h => (h.dec, h.jerk)
    | none => stopDJ s a
  if x.prof = .stopping then (planLast x.kin x.segs).x
  else match planAt x.segs t with
    | some k => (planLast k (planStop t k d j)).x
    | none => if x.prof = .moving ∧ x.wakeMove = none then x.target else x.kin.x

/-- The target that the next queued move is measured from (R248); after a STOP it is the standstill (R706). -/
def lastTarget (s : State) (a : Nat) (busy : Bool) : Int :=
  let x := s.axis a
  match (movesAfterStop x.waiting).getLast?, x.queue.getLast? with
  | some m, _ => m.target
  | none, some m => if stopWaits x then stopEnd s a else m.target
  | none, none =>
    if !busy || x.prof == .idle then x.kin.x
    else if stopWaits x || (x.prof == .stopping && !x.keep) then stopEnd s a
    else x.target

/-- MOVE_ABS and MOVE_REL (R245 to R248, R252, R277). An axis whose move in force ended at the tick of the command's stamp is busy, and a
move with queue set starts at that tick. -/
def moveBody (rel : Bool) (s : State) (q : Request) (t : Nat) : Reply :=
  let p := q.payload
  let a := uAt p 0 1
  let f := uAt p 1 1
  let dir := f / 2 % 4
  inst a 128 (axisCount s.var) <|
  need (f < 8 ∧ dir ≠ 3 ∧ resv p 2 6 = true) <|
  match t48At p 8 with
  | none => .err St.badParam []
  | some v =>
    let x := s.axis a
    let m := modQ s a
    let val := q48 v
    let busy := busyAxis x t
    let base := lastTarget s a busy
    let target := if rel then wrapPos m (base + val) else val
    let mv : QMove := { target := target, delta := 0, rel := rel, dir := dir }
    let mv := { mv with delta := if rel then val else moveDelta m mv base }
    need (dir = 0 ∨ (rel = false ∧ 0 < m)) <|
    need (if 0 < m then rel = true ∨ (0 ≤ val ∧ val < m) else -posMax ≤ target ∧ target ≤ posMax) <|
    orElse (x.phase == .enabled && x.source == 0) St.badState <|
    if busy then
      if f % 2 = 0 then .err St.motionBusy []
      else if 8 ≤ queuedMoves x then .err St.queueFull []
      else if idleUnit x.prof x.remaining (x.queue == []) && x.waiting == [] then
        .ok (s.onAxis a (fun x => startQueued s a s.cyc.t0 { x with prof := .idle, queue := [mv] })) []
      else .ok (waitAxis a t (.move mv) s) []
    else if limitBlocks x mv.delta then .err St.limitActive []
    else .ok (waitAxis a t (.move mv) s) []

/-- MOVE_ABS -/
def execMoveAbs (dt : Nat) (q : Request) (s : State) : Out := .next (serve Cmd.moveAbs (moveBody false) dt q s)
/-- MOVE_REL -/
def execMoveRel (dt : Nat) (q : Request) (s : State) : Out := .next (serve Cmd.moveRel (moveBody true) dt q s)

/-! ### STOP, HOLD, RESUME -/

/-- STOP (R254, R262, R275): takes effect at the next tick. -/
def stopBody (s : State) (q : Request) (t : Nat) : Reply :=
  withMover s q.payload fun m =>
    match actsOn s m with
    | .axis a => .ok (waitAxis a t .stop s) []
    | .group g => if (s.group g).members = [] then .err St.badState [] else .ok (waitGroup g t .stop s) []

/-- HOLD (R255, R262, R275); in SAFE_HOLD it has no effect (R243). -/
def holdBody (s : State) (q : Request) (t : Nat) : Reply :=
  withMover s q.payload fun m =>
    match actsOn s m with
    | .axis a => if s.dev.mode = .safeHold then .ok s [] else .ok (waitAxis a t .hold s) []
    | .group g =>
      if (s.group g).members = [] then .err St.badState []
      else if s.dev.mode = .safeHold then .ok s [] else .ok (waitGroup g t .hold s) []

/-- The members of a group that a path would move towards an active limit (R252). -/
def groupBlocked (s : State) (g : Group) (ds : List Int) : Bool :=
  (g.members.zip ds).any (fun e => limitBlocks (s.axis e.1) e.2)

/-- Group moves that wait after the last stop that waits. -/
def groupMovesAfterStop : List WaitingMotion → List GMove
  | [] => []
  | w :: r =>
    match w.cmd with
    | .groupMove m => if r.any (fun v => v.cmd == .stop) then groupMovesAfterStop r else m :: groupMovesAfterStop r
    | _ => groupMovesAfterStop r

/-- What makes RESUME find an axis or a group moving: a stop, a hold, a RESUME or a HOME accepted before it (R256, R706). -/
def resumeBars (l : List WaitingMotion) : Bool :=
  l.any (fun w => match w.cmd with | .stop | .hold | .resume | .home => true | _ => false)

/-- The first move that would follow: of the queue, else of those that wait. -/
def firstQueued (x : Axis) : Option QMove := match x.queue with | w :: _ => some w | [] => (movesAfterStop x.waiting).head?

/-- The first group move that would follow. -/
def firstGroupQueued (g : Group) : Option GMove := match g.queue with | w :: _ => some w | [] => (groupMovesAfterStop g.waiting).head?

/-- RESUME (R252, R256, R602, R706). A move accepted before it in the cycle starts an idle axis or group, also one that stands held with nothing
left; on another it counts as queued. -/
def resumeBody (s : State) (q : Request) (t : Nat) : Reply :=
  withMover s q.payload fun m =>
    match actsOn s m with
    | .axis a =>
      let x := s.axis a
      let d := match firstQueued x with | some w => moveDelta (modQ s a) w x.kin.x | none => 0
      orElse (x.phase == .enabled) St.badState <|
      if idleUnit x.prof x.remaining (x.queue == []) = true then
        .err (if x.waiting.any (fun w => makesBusy w.cmd) then St.motionBusy else St.badState) []
      else if x.prof = .held ∧ resumeBars x.waiting = false then
        if limitBlocks x (if x.remaining ≠ 0 then x.remaining else d) then .err St.limitActive []
        else .ok (waitAxis a t .resume s) []
      else .err St.motionBusy []
    | .group n =>
      let g := s.group n
      if g.members = [] ∨ g.faults ≠ [] then .err St.badState []
      else if g.members.any (fun a => (s.axis a).phase != .enabled || (s.axis a).source != 1) then .err St.badState []
      else if idleUnit g.prof g.remaining (g.queue == []) = true then
        .err (if g.waiting.any (fun w => makesBusy w.cmd) then St.motionBusy else St.badState) []
      else if g.prof = .held ∧ resumeBars g.waiting = false then
        let ds := if g.remaining ≠ 0 then (match g.move with | some w => w.deltas | none => [])
          else (match firstGroupQueued g with | some w => groupDeltas s g w | none => [])
        if groupBlocked s g ds then .err St.limitActive [] else .ok (waitGroup n t .resume s) []
      else .err St.motionBusy []

/-- STOP -/
def execStop (dt : Nat) (q : Request) (s : State) : Out := .next (serve Cmd.stop stopBody dt q s)
/-- HOLD -/
def execHold (dt : Nat) (q : Request) (s : State) : Out := .next (serve Cmd.hold holdBody dt q s)
/-- RESUME -/
def execResume (dt : Nat) (q : Request) (s : State) : Out := .next (serve Cmd.resume resumeBody dt q s)

/-! ### HOME -/

/-- The axis's feedback is a local incremental channel (R264, R421). -/
def hasLocalEnc (s : State) (a : Nat) : Bool :=
  (slotOf s.image a).isSome && par s Par.fbLocal a == 1

/-- HOME (R246, R247, R250, R264, R270). -/
def homeBody (s0 : State) (q : Request) (t : Nat) : Reply :=
  let p := q.payload
  let a := uAt p 0 1
  inst a 128 (axisCount s0.var) <|
  need (resv p 1 3) <|
  let x := s0.axis a
  let s := parPromote s0 (fun _ i => i == a) .home
  let mode := parN s Par.homeMode a
  orElse (hasLocal s.var || mode == 4) St.unsupported <|
  need ((mode ≠ 2 ∧ mode ≠ 3) ∨ hasLocalEnc s a = true) <|
  orElse (x.phase == .enabled && x.source == 0) St.badState <|
  orElse (!busyAxis x t) St.motionBusy <|
  .pend (addPend (waitAxis a t .home s) Cmd.home q a)

/-- HOME -/
def execHome (dt : Nat) (q : Request) (s : State) : Out := .next (serve Cmd.home homeBody dt q s)

/-- A homing leg moves. -/
def legMoves (h : Homing) : Bool :=
  match h.phase with
  | .backOff | .backStop | .search | .creepDown | .creep => true
  | _ => false

/-- Ends a homing without a reference with a status (R264, R266, R267). -/
def endHoming (s : State) (a status : Nat) (h : Homing) : State :=
  finish (s.onAxis a (fun x => { failHoming s.cyc.t0 h x with homeEdges := h.edges })) Cmd.home a status

/-- HOMING_REFERENCE_SHIFT (R267, R268): at standstill after the reference, x* and x_fb shift by one amount, and a queued move starts
(R248). With more edges than homing_chatter_max no reference is applied. -/
def execHomingReferenceShift (dt : Nat) (axis : Nat) (s0 : State) : Out :=
  let s := advance dt s0
  let x := s.axis axis
  match x.prof, x.homing with
  | .homing, some h =>
    match h.phase, h.found with
    | .stopFound, some ref =>
      if h.chatterMax < h.edges then .next (endHoming s axis St.homingChatter h)
      else if planEnd x.segs 0 ≤ s.cyc.t0 then
        let m := modQ s axis
        let pos := (planLast x.kin x.segs).x
        let d := h.offset - ref
        let move := fun (v : Sample) => { v with x := wrapPos m (v.x + d) }
        let s1 := s.onAxis axis (fun x =>
          { standStill m x (pos + d) .idle 0 with
            xfb := wrapPos m (x.xfb + d), shift := x.shift + d, fb := x.fb.map move, fbPrev := x.fbPrev.map move,
            cmdLastX := x.cmdLastX + d, homing := none, homed := true, homeRef := ref, homeEdges := h.edges,
            attended := false })
        .next ((finish s1 Cmd.home axis St.ok (t48 (t24 ref))).onAxis axis (fun x => startQueued s1 axis s.cyc.t0 x))
      else .next s
    | _, _ => .next s
  | _, _ => .next s

/-- HOMING_NOT_FOUND (R264): a leg has travelled home_dist_max. -/
def execHomingNotFound (dt : Nat) (axis : Nat) (s0 : State) : Out :=
  let s := advance dt s0
  let x := s.axis axis
  match x.homing with
  | some h =>
    if x.prof = .homing ∧ legMoves h = true ∧ h.distMax ≠ 0 ∧ h.distMax.natAbs ≤ (x.kin.x - h.legStart).natAbs then
      .next (endHoming s axis St.homingNotFound h)
    else .next s
  | none => .next s

/-- HOMING_CHATTER (R267): more qualified edges than homing_chatter_max. -/
def execHomingChatter (dt : Nat) (axis : Nat) (s0 : State) : Out :=
  let s := advance dt s0
  let x := s.axis axis
  match x.homing with
  | some h =>
    if x.prof = .homing ∧ h.chatterMax < h.edges then .next (endHoming s axis St.homingChatter h) else .next s
  | none => .next s

/-! ### Groups -/

/-- Law tasks of an axis without its current task (R260). -/
def pathTasks (m : Image) (a : Nat) : List PTask :=
  (lawTasks m a).filter (fun t => (currentOf m a).map (·.index) != some t.index)

/-- The active plan has a bundle that matches a group (R260). -/
def groupBundled (m : Image) (g : Nat) (members : List Nat) : Bool :=
  let want := members.flatMap (fun a => (pathTasks m a).map (·.index))
  (pbundles m).any (fun b => b.kind == 1 && b.group == g &&
    (let got := ((ptasks m).filter (fun t => t.bundle == b.id)).map (·.index)
     got.all want.contains && want.all got.contains))

/-- Raises GROUP_UNBUNDLED for a group without a matching bundle (R260). -/
def checkBundled (s : State) (g : Nat) : State :=
  let ms := (s.group g).members
  if ms = [] ∨ groupBundled s.image g ms = true then s else raiseWarn s Ev.groupUnbundled Kind.group g

/-- No value stands twice in a list. -/
def noRepeats : List Nat → Bool
  | [] => true
  | a :: r => !r.contains a && noRepeats r

/-- GROUP_DEFINE (R259, R260, R281). -/
def groupDefineBody (s : State) (q : Request) (t : Nat) : Reply :=
  let p := q.payload
  let g := uAt p 0 1
  let n := uAt p 1 1
  let ms := (p.drop 4).map (·.toNat)
  need (g < 16 ∧ n ≤ 16 ∧ resv p 2 2 = true) <|
  need (ms.all (fun a => Nat.blt a (axisCount s.var)) && noRepeats ms) <|
  need (ms.all (fun a => match groupOf s a with | some h => h == g | none => true)) <|
  let old := (s.group g).members
  orElse (!((old ++ ms).any (fun a => busyMember s a t)) && !busyGroup (s.group g) t) St.motionBusy <|
  let s1 := (old.filter (fun a => !ms.contains a)).foldl
    (fun s a => s.onAxis a (fun x => if x.source = 1 then { x with source := 0 } else x)) s
  let s2 := s1.onGroup g (fun x => { faults := x.faults, members := ms, idleAt := x.idleAt })
  .ok (checkBundled s2 g) []

/-- The four path limits at byte 8 of a payload; none where one breaks its range (R257, R676, R700). -/
def pathLimits (p : Bytes) : Option Limits :=
  match t48At p 8, t48At p 16, t48At p 24, t48At p 32 with
  | some v, some a, some d, some j =>
    let ok := fun (x : Int) => decide (1 ≤ x) && decide (x ≤ 0x7FFFFFFFFFFF)
    if ok v && ok a && ok d && ok j then some { v := q48 v, a := q48 a, d := q48 d, j := q48 j } else none
  | _, _, _, _ => none

/-- Where the members of a group come to rest by the STOP that waits for the next tick, or by that whose ramp the path follows (R262, R706). -/
def groupStopEnd (s : State) (g : Group) : List Int :=
  let t := s.cyc.t0 + s.period * nsU
  let (d, j) := groupStopDJ s g
  let p := if g.prof = .stopping then (planLast g.kin g.segs).x
    else match planAt g.segs t with
      | some k => (planLast k (planStop t k d j)).x
      | none => if g.prof = .moving ∧ g.wake = none then g.len else g.kin.x
  g.members.zipIdx.map (fun e => match memberKin { g with kin := { x := p } } e.2 with | some k => k.x | none => (s.axis e.1).kin.x)

/-- Positions that the next group move is measured from (R248, R261); after a STOP they are those of the standstill (R706). -/
def groupBase (s : State) (g : Group) : List Int :=
  let now := g.members.map (fun a => (s.axis a).kin.x)
  let stops := g.waiting.any (fun v => v.cmd == .stop)
  match (groupMovesAfterStop g.waiting).getLast?, g.queue.getLast?, g.move with
  | some m, _, _ => m.targets
  | none, some m, _ => if stops then groupStopEnd s g else m.targets
  | none, none, some m =>
    if g.prof = .idle then now
    else if stops || (g.prof == .stopping && !g.keep) then groupStopEnd s g
    else m.targets
  | none, none, none => now

/-- How many group moves stand in the queue (R248, R261). -/
def queuedGroup (g : Group) : Nat :=
  let w := (groupMovesAfterStop g.waiting).length
  if g.waiting.any (fun v => v.cmd == .stop) then w
  else if idleUnit g.prof g.remaining (g.queue == []) then w - 1 else g.queue.length + w

/-- The next queued group move starts at a tick (R238, R252, R261, R272). -/
def startGroupQueued (s : State) (n : Nat) (t : Nat) : State :=
  let g := s.group n
  match g.queue with
  | [] => s
  | m :: r =>
    if groupBlocked s g (groupDeltas s g m) then s.onGroup n (fun g => { g with queue := [] })
    else startPath (s.onGroup n (fun g => { g with queue := r })) n t m (fun s g => groupDeltas s g m)

/-- GROUP_MOVE (R245 to R248, R252, R261, R277, R602). -/
def groupMoveBody (s : State) (q : Request) (t : Nat) : Reply :=
  let p := q.payload
  let n := uAt p 0 1
  let f := uAt p 1 1
  let dir := f / 2 % 4
  let rel := bitOf f 3
  need (n < 16 ∧ f < 16 ∧ dir ≠ 3 ∧ resv p 2 6 = true ∧ (rel = false ∨ dir = 0)) <|
  let g := s.group n
  if g.members = [] then .err St.badState []
  else
    let vals := (List.range g.members.length).filterMap (fun i => t48At p (40 + 8 * i))
    match pathLimits p with
    | none => .err St.badParam []
    | some l =>
      need (vals.length = g.members.length) <|
      let base := groupBase s g
      let items := g.members.zip ((vals.map q48).zip base)
      let targets := items.map (fun e => if rel then wrapPos (modQ s e.1) (e.2.2 + e.2.1) else e.2.1)
      need ((g.members.zip (vals.map q48 |>.zip targets)).all (fun e =>
        let m := modQ s e.1
        if 0 < m then rel || (decide (0 ≤ e.2.1) && decide (e.2.1 < m))
        else decide (-posMax ≤ e.2.2) && decide (e.2.2 ≤ posMax))) <|
      let mv0 : GMove := { lim := l, targets := targets, deltas := vals.map q48, rel := rel, dir := dir }
      let ds := (items.zip targets).map (fun e =>
        if rel then e.1.2.1 else moveDelta (modQ s e.1.1) { target := e.2, delta := 0, dir := dir } e.1.2.2)
      let mv := { mv0 with deltas := ds }
      orElse (g.faults == [] && g.members.all (fun a => (s.axis a).phase == .enabled && (s.axis a).source == 1)) St.badState <|
      if busyGroup g t then
        if f % 2 = 0 then .err St.motionBusy []
        else if 8 ≤ queuedGroup g then .err St.queueFull []
        else if idleUnit g.prof g.remaining (g.queue == []) && g.waiting == [] then
          .ok (startGroupQueued (s.onGroup n (fun g => { g with prof := .idle, queue := [mv] })) n s.cyc.t0) []
        else .ok (waitGroup n t (.groupMove mv) s) []
      else if groupBlocked s g ds then .err St.limitActive []
      else .ok (waitGroup n t (.groupMove mv) s) []

/-- GROUP_LIMITS (R253, R259, R602, R676): new path limits from the next tick. -/
def groupLimitsBody (s : State) (q : Request) (t : Nat) : Reply :=
  let p := q.payload
  let n := uAt p 0 1
  need (n < 16 ∧ resv p 1 7 = true) <|
  match pathLimits p with
  | none => .err St.badParam []
  | some l =>
    let g := s.group n
    orElse (g.members != [] && g.faults == []) St.badState (.ok (waitGroup n t (.limits l) s) [])

/-- Code of a profile state (R274). -/
def profCode : ProfState → Nat
  | .idle => 0 | .moving => 1 | .stopping => 2 | .held => 3 | .homing => 4 | .group => 5

/-- prof_state of an axis: 5 while it follows a running group path, and held with a held one (R274). -/
def profStateOf (s : State) (a : Nat) : Nat :=
  match actingGroup s a with
  | some g =>
    match (s.group g).prof with
    | .idle => profCode (s.axis a).prof
    | .held => profCode .held
    | _ => 5
  | none => profCode (s.axis a).prof

/-- Remaining distance of an axis (R274). -/
def remainingOf (x : Axis) : Int :=
  match x.prof with
  | .moving => x.target - x.kin.x
  | .stopping => if x.keep then x.target - x.kin.x else 0
  | .held => x.remaining
  | _ => 0

/-- Target of an axis as MOTION_STATUS reports it, and its distance from there: a member of a group whose path runs has
its end on the path (R261, R676; log 24). -/
def reportedWay (s : State) (a : Nat) : Int × Int :=
  let x := s.axis a
  let own := (x.target, remainingOf x)
  match actingGroup s a with
  | none => own
  | some n =>
    let g := s.group n
    match g.move with
    | some mv =>
      let i := (g.members.findIdx? (fun b => b == a)).getD 0
      let goal := (g.starts[i]?).getD 0 + (mv.deltas[i]?).getD 0
      if g.prof = .moving ∨ g.prof = .held ∨ g.keep then (goal, memberWay g i) else own
    | none => own

/-- MOTION_STATUS (R676). -/
def motionStatusBody (s : State) (q : Request) (_ : Nat) : Reply :=
  withMover s q.payload fun m =>
    match m with
    | .axis a =>
      let x := s.axis a
      let w := modQ s a
      let way := reportedWay s a
      .ok s (b8 (profStateOf s a) ++ b8 x.queue.length ++ b8 (bit x.homed) ++ zeros 5 ++ t48 (t24 way.2) ++
        t48 (t24 (wrapPos w way.1)) ++ t48 (t24 (wrapPos w x.kin.x)) ++ t48 (t24 x.kin.v))
    | .group n =>
      let g := s.group n
      if g.members = [] then .ok s (zeros 40)
      else
        let d := s.axis g.dom
        let w := modQ s g.dom
        let i := (g.members.findIdx? (fun a => a == g.dom)).getD 0
        let tgt := match g.move with
          | some mv => (g.starts[i]?).getD 0 + (mv.deltas[i]?).getD 0
          | none => d.kin.x
        let rest := match g.prof with | .moving => g.len - g.kin.x | .stopping => if g.keep then g.len - g.kin.x else 0
                                      | .held => g.remaining | _ => 0
        let code := match g.prof with | .moving | .stopping => 5 | c => profCode c
        .ok s (b8 code ++ b8 g.queue.length ++ b8 0 ++ zeros 5 ++ t48 (t24 rest) ++ t48 (t24 (wrapPos w tgt)) ++
          t48 (t24 (wrapPos w d.kin.x)) ++ t48 (t24 d.kin.v))

/-- GROUP_DEFINE -/
def execGroupDefine (dt : Nat) (q : Request) (s : State) : Out := .next (serve Cmd.groupDefine groupDefineBody dt q s)
/-- GROUP_MOVE -/
def execGroupMove (dt : Nat) (q : Request) (s : State) : Out := .next (serve Cmd.groupMove groupMoveBody dt q s)
/-- GROUP_LIMITS -/
def execGroupLimits (dt : Nat) (q : Request) (s : State) : Out := .next (serve Cmd.groupLimits groupLimitsBody dt q s)
/-- MOTION_STATUS -/
def execMotionStatus (dt : Nat) (q : Request) (s : State) : Out := .next (serve Cmd.motionStatus motionStatusBody dt q s)

/-! ### Events -/

/-- A move that waits with the stamp of the present tick joins the queue: a move command of the tick at which the move in force completes
(R277). -/
def joinQueue (now : Nat) (x : Axis) : Axis :=
  match x.waiting with
  | w :: r => (match w.cmd with | .move m => if w.stamp = now then { x with queue := x.queue ++ [m], waiting := r } else x | _ => x)
  | [] => x

/-- The same of a group. -/
def joinGroupQueue (now : Nat) (g : Group) : Group :=
  match g.waiting with
  | w :: r => (match w.cmd with | .groupMove m => if w.stamp = now then { g with queue := g.queue ++ [m], waiting := r } else g | _ => g)
  | [] => g

/-- MOVE_COMPLETE (R239, R248, R261, R277): the target is reached at the last tick; the next queued move starts at that tick. -/
def execMoveComplete (dt : Nat) (who : Mover) (s0 : State) : Out :=
  let s := advance dt s0
  match who with
  | .axis a =>
    let x := s.axis a
    if x.prof = .moving ∧ x.wakeMove = none ∧ planEnd x.segs 0 ≤ s.cyc.t0 then
      .next (s.onAxis a (fun x =>
        startQueued s a s.cyc.t0
          { (standStill (modQ s a) (joinQueue (s.cyc.t0 / nsU) x) x.target .idle 0) with attended := false, idleAt := some (s.cyc.t0 / nsU) }))
    else .next s
  | .group n =>
    let g := s.group n
    if g.prof = .moving ∧ g.wake = none ∧ planEnd g.segs 0 ≤ s.cyc.t0 then
      let s1 := s.onGroup n (fun g => { (joinGroupQueue (s.cyc.t0 / nsU) g) with prof := .idle, kin := { x := g.len }, segs := [], remaining := 0, idleAt := some (s.cyc.t0 / nsU) })
      let s2 := followGroup s1 n
      let s3 := g.members.foldl (fun s a => s.onAxis a (fun x => { x with attended := false })) s2
      .next (startGroupQueued s3 n s.cyc.t0)
    else .next s

/-- The switch input of an axis. -/
def switchOf (x : Axis) : Switch → SwitchSt
  | .limPos => x.limPos | .limNeg => x.limNeg | .home => x.homeSw

/-- Writes the switch input of an axis. -/
def putSwitch (x : Axis) (w : SwitchSt) : Switch → Axis
  | .limPos => { x with limPos := w } | .limNeg => { x with limNeg := w } | .home => { x with homeSw := w }

/-- The switch is the reference input of a homing (R264). -/
def isReference (h : Homing) : Switch → Bool
  | .home => h.mode == 0 || h.mode == 3
  | .limPos => h.mode == 1 && !h.dirNeg
  | .limNeg => h.mode == 1 && h.dirNeg

/-- The switch is a limit switch. -/
def isLimit : Switch → Bool
  | .home => false
  | _ => true

/-- The homing as a limit of a tick finds it: the reference edges of that tick are ignored (R279). -/
def withoutReference (t : Nat) (h : Homing) : Homing :=
  let h1 := if h.edgeTick.1 = t then { h with edges := h.edgeTick.2 } else h
  if h1.phase = .stopFound ∧ h1.foundTick = some t then { h1 with phase := .search, found := none, foundTick := none } else h1

/-- A qualified edge during homing (R264 to R267). A limit and a reference edge in one tick: the limit is handled first, the
reference edge is ignored, whichever is reported first (R279). In mode 3 the index counts as soon as the switch edge has come, also while the
axis still slows to `home_creep`: the rule does not say whether it must have reached it (DESIGN CHOICE, log 51). -/
def homingEdge (s : State) (a : Nat) (sw : Switch) (w : SwitchSt) (h0 : Homing) : State :=
  let t := s.cyc.t0
  let h := if isLimit sw && w.qualified && !isReference h0 sw then { withoutReference t h0 with limitTick := some t } else h0
  if isReference h sw && h.limitTick == some t then s
  else if isReference h sw then
    let h1 := { h with edges := h.edges + 1, edgeTick := if h.edgeTick.1 = t then h.edgeTick else (t, h.edges) }
    let s1 := s.onAxis a (fun x => { x with homeEdges := h1.edges, homing := some h1 })
    match h.phase, w.qualified with
    | .search, true =>
      if h.mode = 3 then
        s1.onAxis a (fun x =>
          { x with homing := some { h1 with phase := .creep },
                   segs := runAt t x.kin (legSign h * h.creep) h.acc h.dec h.jerk })
      else s1.onAxis a (fun x => foundAt t w.edgePos h1 x (some w.edgeAt))
    | .backOff, false =>
      s1.onAxis a (fun x => { x with segs := homingRamp h t x.kin, homing := some { h1 with phase := .backStop } })
    | _, _ => s1
  else if isLimit sw && w.qualified && legMoves h then
    if h.reversed then endHoming s a St.homingLimit h
    else s.onAxis a (fun x => { x with segs := homingRamp h t x.kin, homing := some { h with phase := .stopReverse }, homeEdges := h.edges })
  else s

/-- A limit switch that is qualified active stops motion towards it (R252). -/
def limitStop (s : State) (a : Nat) (v : Int) (sw : Switch) : State :=
  let towards := match sw with | .limPos => decide (0 < v) | .limNeg => decide (v < 0) | .home => false
  if towards then
    let s1 := raiseWarn s Ev.limitStop Kind.axis a
    match actingGroup s a with
    | some g => waitGroup g (nowNs s) .hold s1
    | none => waitAxis a (nowNs s) .hold s1
  else s

/-- SWITCH_QUALIFIED (R250, R252, R264 to R267): the input has held its new level for sw_filter. -/
def execSwitchQualified (dt : Nat) (axis : Nat) (sw : Switch) (s0 : State) : Out :=
  let s := advance dt s0
  let x := s.axis axis
  let w := switchOf x sw
  if w.raw ≠ w.qualified ∧ w.edgeAt + parN s Par.swFilter axis * 1000 * nsU ≤ s.time.now then
    let w1 := { w with qualified := w.raw }
    let s1 := s.onAxis axis (fun x => putSwitch x w1 sw)
    match x.prof, x.homing with
    | .homing, some h => .next (homingEdge s1 axis sw w1 h)
    | _, _ => if w1.qualified && isLimit sw then .next (limitStop s1 axis x.kin.v sw) else .next s1
  else .next s

/-- A mode-6 axis is in its attended phase (R271). -/
def attendedNow (s : State) (a : Nat) : Bool :=
  (s.axis a).attended || par s Par.stepTest a == 1 || s.dev.mode == .safeHold

/-- STEPPER_HOLD_DELAY_EXPIRY (R271): v* and a* have been 0 for hold_delay. -/
def execStepperHoldDelayExpiry (dt : Nat) (axis : Nat) (s0 : State) : Out :=
  let s := advance dt s0
  match (s.axis axis).stillSince with
  | some t =>
    if par s Par.axisMode axis = 6 ∧ t + parN s Par.holdDelay axis * 1000000 * nsU ≤ s.time.now then
      let c := if attendedNow s axis then Coil.holdCurrent else if par s Par.stbyMode axis = 0 then .off else .shorted
      .next (s.onAxis axis (fun x => { x with coil := c }))
    else .next s
  | none => .next s

/-- A member of a group has had its wake time: once no member waits, the path begins at a tick (R272). -/
def wakePath (s : State) (a start : Nat) : State :=
  let s1 := s.onAxis a (fun x => { x with wake := none })
  match actingGroup s a with
  | some n =>
    if (s.group n).wake.isSome && (s.group n).members.all (fun b => (s1.axis b).wake.isNone) then s1.onGroup n (runPath start) else s1
  | none => s1

/-- STEPPER_WAKE_DONE (R272): after wake_time at running current the move starts at a tick. -/
def execStepperWakeDone (dt : Nat) (axis : Nat) (s0 : State) : Out :=
  let s := advance dt s0
  let x := s.axis axis
  match x.wake, x.wakeMove with
  | some t, some q =>
    let ready := t + parN s Par.wakeTime axis * 1000000 * nsU
    if ready ≤ s.time.now then
      let start := if ready ≤ s.cyc.t0 then s.cyc.t0 else s.cyc.t0 + s.period * nsU
      let l := if x.keep then x.lim else axisLimits s axis
      .next (s.onAxis axis (fun x => startMove (modQ s axis) l start q { x with wake := none, wakeMove := none }))
    else .next s
  | some t, none =>
    let ready := t + parN s Par.wakeTime axis * 1000000 * nsU
    if ready ≤ s.time.now then .next (wakePath s axis (if ready ≤ s.cyc.t0 then s.cyc.t0 else s.cyc.t0 + s.period * nsU))
    else .next s
  | none, _ => .next s

end Sys2Proof.Machine
end

