-- ==== Sys2Proof/Machine/AxisCmd.lean ====
section
/-! DEFINITION. The commands of an axis and the axis events: enable and disable (R165, R199 to R201, R204), set-point sources
and gearing (R191 to R195, R704), fault clear (R602), and the axis faults of the law (R173, R175). -/

namespace Sys2Proof.Machine

/-! ### What stands in the way of an enable -/

/-- A safety function holds its STO (R541, R558). -/
def fnOff (s : State) (f : Nat) : Bool := par s Par.fnKind f != 0 && Nat.ble 2 (tget s.safe.fns {} f).state

/-- A safety function that serves the axis is present in a set of functions (R541): local axes by fn_local, ring axes by the
connections of their node. -/
def servesAxis (s : State) (a f : Nat) : Bool :=
  match sliceOf s.image a with
  | none => false
  | some x =>
    if x.ring = 255 then bitOf (parN s Par.fnLocal f) 0
    else (List.range 128).any (fun c =>
      par s Par.connId c != 0 && parN s Par.connNode c == nodeInst x.ring x.node && bitOf (parN s Par.connFns c) f)

/-- The safety unit is in the safety fault or has no valid configuration: no safety output is energized (R535, R537). -/
def safetyDown (s : State) : Bool := s.safe.state == 2 || s.safe.state == 3

/-- A safety function has de-energized the power stage of the axis, by its own state or in the safety fault (R30, R199, R535, R537). -/
def axisSafetyOff (s : State) (a : Nat) : Bool :=
  hasLocal s.var && (List.range 16).any (fun f => (fnOff s f || (safetyDown s && par s Par.fnKind f != 0)) && servesAxis s a f)

/-- A set trip latch is mapped to a timer (R402, R405). -/
def timerTripped (s : State) (n : Nat) : Bool :=
  (List.range 4).any (fun j => (tget s.pwm.trips {} j).latched && bitOf (parN s Par.tripMap j) n)

/-- The standard law of a mode (R164, R165). -/
def modeLaw (mode : Nat) : Nat :=
  if mode = 1 ∨ mode = 3 ∨ mode = 4 then lawCascade else if mode = 2 then lawSetPoint
  else if mode = 5 ∨ mode = 6 then lawStepper else 0

/-- The plan has the tasks that the mode needs, and no task of the axis uses another standard law (R165). -/
def tasksFit (m : Image) (a mode : Nat) : Bool :=
  let ts := (axisTasks m a).filter (fun t => t.lawId != lawMaster)
  let main := ts.filter (fun t => t.lawId == modeLaw mode)
  let cur := ts.filter (fun t => t.lawId == 5)
  let usr := ts.filter (fun t => userLaw t.lawId)
  let needsCur := mode == 3 || mode == 4
  let missing := (if main = [] then 1 else 0) + (if needsCur ∧ cur = [] then 1 else 0)
  Nat.ble missing usr.length && ts.all (fun t => t.lawId == modeLaw mode || userLaw t.lawId || (needsCur && t.lawId == 5))

/-- The checks of R165 and R421: the mode agrees with the plan. -/
def modeFits (s : State) (a : Nat) : Bool :=
  let m := s.image
  let mode := parN s Par.axisMode a
  if mode = 0 then false
  else if mode = 7 then true
  else
    (match sliceOf m a with
     | none => false
     | some x => (x.ring == 255) == Nat.ble 4 mode) &&
    (mode != 3 || (pcentral m a).isSome) && tasksFit m a mode && (mode != 4 || par s Par.fbLocal a != 0)

/-- The axis's node is bound and past init, and no hot-joined node that waits (R119, R137, R199). -/
def nodeReady (s : State) (a : Nat) : Bool :=
  let mode := parN s Par.axisMode a
  if mode = 7 ∨ 4 ≤ mode then true
  else match axisNode s a with
    | some (r, p) => let n := s.node r p; n.bound && n.state != 1 && !n.joined
    | none => false

/-- An object of axes (R14) whose values of kind "at next enable" AXIS_ENABLE takes: all but fb_local, which the next CYCLE_START takes
(R421). -/
def isAxisObj (n : Nat) : Bool := n / 1048576 == 4 && n / 256 != 0x4160

/-! ### Switch inputs (R250, R251) -/

/-- The input that a switch of an axis names. -/
def switchDin (s : State) (a : Nat) : Switch → Option Nat
  | .limPos => let n := parN s Par.limPosDin a; if n < 24 ∧ hasLocal s.var then some n else none
  | .limNeg => let n := parN s Par.limNegDin a; if n < 24 ∧ hasLocal s.var then some n else none
  | .home => let n := parN s Par.homeDin a; if n < 24 ∧ hasLocal s.var then some n else none

/-- The inversion bit of a switch. -/
def switchBit : Switch → Nat
  | .limPos => 0 | .limNeg => 1 | .home => 2

/-- The level of a switch after its inversion. -/
def switchActive (s : State) (a : Nat) (sw : Switch) (level : Bool) : Bool :=
  level != bitOf (parN s Par.swPolarity a) (switchBit sw)

/-- The switches of an axis when their parameters take effect: the level that the input has held for sw_filter is
qualified (R250). An axis without an input has the switch inactive. -/
def syncSwitches (s : State) (a : Nat) : State :=
  [Switch.limPos, .limNeg, .home].foldl (fun s sw =>
    match switchDin s a sw with
    | none => s.onAxis a (fun x => putSwitch x {} sw)
    | some n =>
      let din : DinSt := tget s.loc.dins {} n
      let act := switchActive s a sw din.level
      let old := din.edgeAt + parN s Par.swFilter a * 1000 * nsU ≤ s.time.now
      s.onAxis a (fun x =>
        let w := switchOf x sw
        putSwitch x { w with raw := act, edgeAt := din.edgeAt, qualified := if old then act else w.qualified } sw)) s

/-- Takes the axis's written values of kind "at next enable" into force; a new scale or modulus clears `homed` and the
remainders (R15, R250, R269). -/
def promoteEnable (s : State) (a : Nat) : State :=
  let s1 := parPromote s (fun n i => isAxisObj n && i == a) .enable
  let same := fun n => decide (par s n a = par s1 n a)
  let s2 := syncSwitches s1 a
  if same Par.fbNum && same Par.fbDen && same Par.modulo then s2
  else s2.onAxis a (fun x => { x with homed := false, shift := 0, fbRem := 0, lastRaw := none, fb := none, fbPrev := none })

/-- AXIS_ENABLE (R165, R199, R200). -/
def axisEnableBody (s0 : State) (q : Request) (t : Nat) : Reply :=
  let p := q.payload
  let a := uAt p 0 1
  inst a 128 (axisCount s0.var) <|
  need (resv p 1 3) <|
  let s := promoteEnable s0 a
  let x := s.axis a
  need (modeFits s a) <|
  orElse (nodeReady s a && x.faults == [] && !axisSafetyOff s a && x.phase == .disabled) St.badState <|
  let release := match axisNode s a with | some (r, p) => (s.node r p).state == 4 || bitOf (s.axis a).sliceFlags 3 | none => false
  .pend (addPend (sendCentral a (s.onAxis a (fun x => { x with phase := .accepted t release, attended := true }))) Cmd.axisEnable q a)

/-- AXIS_DISABLE (R201, R204). -/
def axisDisableBody (s : State) (q : Request) (_ : Nat) : Reply :=
  let p := q.payload
  let a := uAt p 0 1
  inst a 128 (axisCount s.var) <|
  need (resv p 1 3) <|
  let s1 := addPend s Cmd.axisDisable q a
  match (s.axis a).phase with
  | .disabled => .ok s []
  | .stopping | .holding _ => .pend s1
  | .enabled => .pend (requestStop false true s1 a)
  | _ => .pend (abortEnable s1 a)

/-- AXIS_ENABLE -/
def execAxisEnable (dt : Nat) (q : Request) (s : State) : Out := .next (serve Cmd.axisEnable axisEnableBody dt q s)
/-- AXIS_DISABLE -/
def execAxisDisable (dt : Nat) (q : Request) (s : State) : Out := .next (serve Cmd.axisDisable axisDisableBody dt q s)

/-- AXIS_ENABLED (R200): the first tick at least brake_release after the brake timer started. -/
def execAxisEnabled (dt : Nat) (axis : Nat) (s0 : State) : Out :=
  let s := advance dt s0
  match (s.axis axis).phase with
  | .braking t =>
    if t + parN s Par.brakeRelease axis * 1000000 * nsU ≤ s.cyc.t0 then
      .next (finish (s.onAxis axis (fun x => { x with phase := .enabled })) Cmd.axisEnable axis St.ok)
    else .next s
  | _ => .next s

/-- AXIS_ENABLE_TIMEOUT (R200): the power stage is not reported on within enable_timeout. -/
def execAxisEnableTimeout (dt : Nat) (axis : Nat) (s0 : State) : Out :=
  let s := advance dt s0
  match (s.axis axis).phase with
  | .powering t =>
    if t + parN s Par.enableTimeout axis * 1000000 * nsU ≤ s.time.now then
      .next (disabledNow (finish s Cmd.axisEnable axis St.axisEnableTimeout) axis)
    else .next s
  | _ => .next s

/-- BRAKE_ENGAGE_EXPIRY (R201): steps 3 and 4. -/
def execBrakeEngageExpiry (dt : Nat) (axis : Nat) (s0 : State) : Out :=
  let s := advance dt s0
  match (s.axis axis).phase with
  | .holding t =>
    let hold := if par s Par.axisMode axis = 7 then 0 else parN s Par.brakeEngage axis
    if t + hold * 1000000 * nsU ≤ s.time.now then .next (disabledNow s axis) else .next s
  | _ => .next s

/-! ### AXIS_STATUS -/

/-- Code of an enable phase (R675). -/
def phaseCode (x : Axis) : Nat :=
  match x.phase with
  | .disabled => 0 | .enabled => 2 | .accepted _ _ | .powering _ | .braking _ => 1 | .stopping | .holding _ => 3

/-- Diagnostics 0x4140.01 to 0x4140.0B (R187). -/
def diag40 (s : State) (a sub : Nat) : Int :=
  let x := s.axis a
  match sub with
  | 3 => x.delayMax
  | 4 => x.delayDiscarded
  | 10 => x.saturations
  | 11 => x.fbInvalid
  | _ => tget x.diag40 0 sub

/-- The gear ratio in force in units of 2^-32 (R195, R675). -/
def ratioNow (x : Axis) : Int := if x.gear.ramping then x.gear.r else rdiv (x.gear.num * 4294967296) x.gear.den

/-- AXIS_STATUS (R675). -/
def axisStatusBody (s : State) (q : Request) (_ : Nat) : Reply :=
  let p := q.payload
  let a := uAt p 0 1
  inst a 128 (axisCount s.var) <|
  need (resv p 1 3) <|
  let x := s.axis a
  let gf := match groupOf s a with | some g => (s.group g).faults | none => []
  let d := diag40 s a
  .ok s (b8 a ++ b8 (phaseCode x) ++ b8 (parN s Par.axisMode a) ++ b8 x.source ++ slice ((x.faults ++ gf).flatMap b8) 0 8 ++
    c24 (par s Par.ratioNum a) ++ cu24 (parN s Par.ratioDen a) ++ sleBytes 8 (ratioNow x) ++ cu24 (d 1).toNat ++
    cu24 (d 2).toNat ++ cu24 (d 3).toNat ++ b32 (d 4).toNat ++ t48 (d 5) ++ t48 (d 6) ++ t48 (d 7) ++ c24 (d 8) ++
    cu24 (d 9).toNat ++ b32 (d 10).toNat ++ b32 (d 11).toNat)

/-- AXIS_STATUS -/
def execAxisStatus (dt : Nat) (q : Request) (s : State) : Out := .next (serve Cmd.axisStatus axisStatusBody dt q s)

/-! ### Sources and gearing -/

/-- The active plan has a master task in the axis's flow (R193). -/
def hasMaster (m : Image) (a : Nat) : Bool :=
  let fl := (lawTasks m a).map (·.flow)
  (ptasks m).any (fun t => t.lawId == lawMaster && fl.contains t.flow)

/-- An axis may be the master of another one: its source is 0 or 2, or it is virtual, and it is not geared itself (R193). -/
def canLead (s : State) (i : Nat) : Bool :=
  let x := s.axis i
  Nat.blt i (axisCount s.var) && (x.source == 0 || x.source == 2 || (par s Par.axisMode i == 7 && x.source != 3))

/-- The gearing of an axis fits R193: an axis master is another axis that may lead, and no geared axis follows this one. -/
def gearFits (s : State) (a : Nat) : Bool :=
  let i := parN s Par.masterIndex a
  (par s Par.masterKind a != 0 || (i != a && canLead s i)) &&
    (allAxes s).all (fun b => !((s.axis b).source == 3 && par s Par.masterKind b == 0 && parN s Par.masterIndex b == a && b != a))

/-- The profile unit takes over from the present set-point: it stands, or stops on its stop ramp (R191, R252). -/
def takeOver (s : State) (a src : Nat) (x : Axis) : Axis :=
  if x.kin.v = 0 ∧ x.kin.a = 0 then
    { x with source := src, prof := .idle, segs := [], remaining := 0, target := x.kin.x, gear := noGear x.gear }
  else
    let (d, j) := stopDJ s a
    { x with source := src, prof := .stopping, keep := false, toTarget := false, segs := planStop s.cyc.t0 x.kin d j, remaining := 0,
             target := x.kin.x, gear := noGear x.gear }

/-- AXIS_SOURCE (R191, R193, R258). -/
def axisSourceBody (s : State) (q : Request) (_ : Nat) : Reply :=
  let p := q.payload
  let a := uAt p 0 1
  let src := uAt p 1 1
  inst a 128 (axisCount s.var) <|
  need (src < 4 ∧ resv p 2 2 = true) <|
  need (src != 1 || (groupOf s a).isSome) <|
  need (src != 3 || src == (s.axis a).source || gearFits s a) <|
  let x := s.axis a
  let still := (x.prof == .idle || x.prof == .held) && x.queue == [] && !x.waiting.any (fun w => makesBusy w.cmd) &&
    (match actingGroup s a with | some g => (s.group g).prof == .idle && (s.group g).queue == [] | none => true)
  orElse still St.motionBusy <|
  orElse (src != 3 || hasMaster s.image a) St.badState <|
  if src = x.source then .ok s []
  else if src = 3 then
    .ok (s.onAxis a (fun x => { x with
      source := 3, prof := .idle, remaining := 0, segs := [],
      gear := let n := par s Par.ratioNum a
              let d := parN s Par.ratioDen a
              { noGear x.gear with num := n, den := d, r := rdiv (n * 4294967296) d } })) []
  else if src = 2 then .ok (s.onAxis a (fun x => { x with source := 2, prof := .idle, remaining := 0, segs := [], streamRun := 0,
                                                          streamKept := 0, missesKept := x.streamMisses, gear := noGear x.gear })) []
  else .ok (s.onAxis a (takeOver s a src)) []

/-- Device time of the next tick in units. -/
def nextTickU (s : State) : Nat := s.cyc.t0 + s.period * nsU

/-- Ratio and its rate at an instant. -/
def ratioAt (g : Gear) (t : Nat) : Int × Int :=
  if g.ramping then
    match planAt g.segs t with
    | some k => (k.x, k.v)
    | none => let k := planLast { x := g.r } g.segs; (k.x, 0)
  else (rdiv (g.num * 4294967296) g.den, 0)

/-- Starts a ratio ramp at the next tick from the ratio and rate that hold there (R195, R205). -/
def rampTo (s : State) (a : Nat) (num : Int) (den : Nat) (off : Bool) (x : Axis) : Axis :=
  let t := nextTickU s
  let (r, rd) := ratioAt x.gear t
  let rate1 := par s Par.ratioRate a * 4294967296 / 1000
  let rate2 := par s Par.ratioRate2 a * 4294967296 / 1000
  { x with gear := { x.gear with
      ramping := true, disengaging := off, toNum := num, toDen := den,
      segs := planRatio t r rd (rdiv (num * 4294967296) den) rate1 rate2 } }

/-- Takes ratio_num and ratio_den into force (R197). -/
def promoteRatio (s : State) (a : Nat) : State := parPromote s (fun _ i => i == a) .gearRatio

/-- GEAR_RATIO (R195, R205, R704). -/
def gearRatioBody (s0 : State) (q : Request) (_ : Nat) : Reply :=
  let p := q.payload
  let a := uAt p 0 1
  inst a 128 (axisCount s0.var) <|
  need (resv p 1 3) <|
  let x := s0.axis a
  orElse (x.phase == .enabled && x.source == 3) St.badState <|
  let s := promoteRatio s0 a
  .ok (s.onAxis a (rampTo s a (par s Par.ratioNum a) (parN s Par.ratioDen a) false)) []

/-- GEAR_ENGAGE (R195, R704). -/
def gearEngageBody (s0 : State) (q : Request) (t : Nat) : Reply :=
  let p := q.payload
  let a := uAt p 0 1
  inst a 128 (axisCount s0.var) <|
  need (resv p 1 3) <|
  let x := s0.axis a
  orElse (x.phase == .enabled) St.badState <|
  orElse (x.source != 3) St.motionBusy <|
  orElse (x.source == 0) St.badState <|
  orElse (!busyAxis x t && x.kin.v == 0 && x.kin.a == 0) St.motionBusy <|
  orElse (hasMaster s0.image a) St.badState <|
  need (gearFits s0 a) <|
  let s := promoteRatio s0 a
  .ok (s.onAxis a (fun x =>
    rampTo s a (par s Par.ratioNum a) (parN s Par.ratioDen a) false { x with source := 3, gear := { noGear x.gear with exact := false } })) []

/-- GEAR_DISENGAGE (R195, R205, R704). -/
def gearDisengageBody (s : State) (q : Request) (_ : Nat) : Reply :=
  let p := q.payload
  let a := uAt p 0 1
  inst a 128 (axisCount s.var) <|
  need (resv p 1 3) <|
  let x := s.axis a
  orElse (x.phase == .enabled && x.source == 3) St.badState (.ok (s.onAxis a (rampTo s a 0 1 true)) [])

/-- AXIS_SOURCE -/
def execAxisSource (dt : Nat) (q : Request) (s : State) : Out := .next (serve Cmd.axisSource axisSourceBody dt q s)
/-- GEAR_RATIO -/
def execGearRatio (dt : Nat) (q : Request) (s : State) : Out := .next (serve Cmd.gearRatio gearRatioBody dt q s)
/-- GEAR_ENGAGE -/
def execGearEngage (dt : Nat) (q : Request) (s : State) : Out := .next (serve Cmd.gearEngage gearEngageBody dt q s)
/-- GEAR_DISENGAGE -/
def execGearDisengage (dt : Nat) (q : Request) (s : State) : Out := .next (serve Cmd.gearDisengage gearDisengageBody dt q s)

/-- GEAR_RAMP_END (R195): at the last tick the ramp has reached its target. -/
def execGearRampEnd (dt : Nat) (axis : Nat) (s0 : State) : Out :=
  let s := advance dt s0
  let g := (s.axis axis).gear
  if g.ramping ∧ planEnd g.segs 0 ≤ s.cyc.t0 then
    if g.disengaging then
      .next (s.onAxis axis (fun x =>
        { standStill (modQ s axis) x x.kin.x .idle 0 with source := 0, gear := noGear x.gear }))
    else
      .next (s.onAxis axis (fun x => { x with gear := { x.gear with
        ramping := false, segs := [], num := g.toNum, den := g.toDen, rdot := 0, rem := 0, exact := true,
        r := rdiv (g.toNum * 4294967296) g.toDen } }))
  else .next s

/-! ### AXIS_FAULT_CLEAR (R602) -/

/-- A cause of an axis fault persists (R405, R427, R602). -/
def axisCausePersists (s : State) (a : Nat) : Bool :=
  let m := s.image
  let x := s.axis a
  let tripped := match slotOf m a with | some n => timerTripped s n | none => false
  let enc := match slotOf m a with
    | some n => par s Par.fbLocal a == 1 && ((tget s.loc.encs {} n).fault || (tget s.loc.encs {} n).wire)
    | none => false
  let lost := match axisNode s a with | some (r, p) => (s.node r p).lost | none => false
  let unplaced := x.faults.contains Ev.flowUnplaced &&
    (axisTasks m a).any (fun t => (tget s.disp.flows {} t.flow).engine == none)
  tripped || enc || lost || unplaced || x.sto || axisSafetyOff s a

/-- The record of a cleared fault (R602, R609). -/
def recordClear (s : State) (kind inst cls src : Nat) : State :=
  record s { source := src, cls := cls, kind := kind, inst := inst, flags := 4 }

/-- AXIS_FAULT_CLEAR (R602). -/
def axisFaultClearBody (s : State) (q : Request) (_ : Nat) : Reply :=
  withMover s q.payload fun m =>
    match m with
    | .axis a =>
      let fs := (s.axis a).faults
      if fs = [] then .ok s []
      else
        orElse (!axisCausePersists s a) St.badState <|
        .ok (fs.foldl (fun s f => recordClear s Kind.axis a Cls.axis f) (s.onAxis a (fun x => { x with faults := [] }))) []
    | .group g =>
      let fs := (s.group g).faults
      .ok (fs.foldl (fun s f => recordClear s Kind.group g Cls.group f) (s.onGroup g (fun x => { x with faults := [] }))) []

/-- AXIS_FAULT_CLEAR -/
def execAxisFaultClear (dt : Nat) (q : Request) (s : State) : Out := .next (serve Cmd.axisFaultClear axisFaultClearBody dt q s)

/-! ### Axis faults of the law -/

/-- The feedback of an axis is lost: the axis fault, `homed` cleared, and the stop request or the idle levels (R173, R269). -/
def loseFeedback (s : State) (a : Nat) : State :=
  let s1 := raiseAxis s Ev.feedbackLost a
  match slotOf s.image a with
  | some n =>
    { s1.onAxis a (fun x => { x with homed := false, out := { x.out with torque := 0 } }) with
      pwm := { s1.pwm with timers := tmod s1.pwm.timers {} n (fun t => { t with idleNext := true }) } }
  | none => s1.onAxis a (fun x => { x with homed := false, stopRequest := true })

/-- A gearing master is lost (R196): the axis fault, and the stop from which the axis reverts to source 0. -/
def loseMaster (s : State) (a : Nat) : State :=
  if (s.axis a).faults.contains Ev.masterLost then s else leaveSource (raiseAxis s Ev.masterLost a) a

/-- FEEDBACK_LOST (R173, R269): fb_miss_max consecutive invalid samples. -/
def execFeedbackLost (dt : Nat) (axis : Nat) (s0 : State) : Out :=
  let s := advance dt s0
  let x := s.axis axis
  if parN s Par.fbMissMax axis ≤ x.invalidRun ∧ x.faults.contains Ev.feedbackLost = false then
    .next (loseFeedback s axis)
  else .next s

/-- FOLLOWING_ERROR (R175): the following error exceeded fe_limit for fe_time cycles. -/
def execFollowingError (dt : Nat) (axis : Nat) (s0 : State) : Out :=
  let s := advance dt s0
  let x := s.axis axis
  let n := parN s Par.feTime axis
  if n ≠ 0 ∧ n ≤ x.feCycles ∧ x.faults.contains Ev.followingError = false then
    .next (raiseAxis s Ev.followingError axis 0 (t48 (t24 x.feValue)))
  else .next s

end Sys2Proof.Machine
end

