-- ==== Sys2Proof/Machine/TimeCmd.lean ====
section
/-! DEFINITION. Device time and the plant ports: rate correction and phase (R464 to R466), steps and what they skip (R482,
R483), the PTP servo (R472 to R475, R485), timed pulse outputs (R476, R477, R484) and frame launch (R478, R479). -/

namespace Sys2Proof.Machine

/-! ### Rate correction -/

/-- A value moved towards a goal by at most `b`. -/
def stepTo (cur goal b : Int) : Int := cur + clampI (goal - cur) (-b) b

/-- The largest number k of ramp steps such that k + (k - 1) + … + 1 steps of `u` remove at most `left`; at least 1. -/
def rampSteps (u left : Nat) : Nat := max 1 ((isqrt (8 * (left / max u 1) + 1) - 1) / 2)

/-- The slew towards which the ramp of R465 moves: the asked one, or as much as the ramp back to 0 can still leave (R466). -/
def slewGoal (periodNs : Nat) (t : TimeSt) : Int :=
  if t.slewReq = 0 ∨ t.slewLeft * sgn t.slewReq ≤ 0 then 0
  else
    let u := 500 * periodNs * nsU / 1000000000
    sgn t.slewReq * min t.slewReq.natAbs (500 * rampSteps u t.slewLeft.natAbs)

/-- A new rate takes effect at once while the cycle is stopped (R465); a slew whose offset is removed is over (R464). -/
def retuneNow (t : TimeSt) : TimeSt :=
  let slew := if t.slewLeft * sgn t.slewReq ≤ 0 then 0 else t.slewReq
  { t with trim := t.trimReq, slew := slew, rho := rhoOf (t.trimReq + slew) }

/-- One ramp step of at most 0.5 ppm at a tick (R465). The slew takes its part first, so that its ramp back to 0 is never late (R466). -/
def retuneTick (periodNs : Nat) (t : TimeSt) : TimeSt :=
  let slew := stepTo t.slew (slewGoal periodNs t) 500
  let trim := stepTo t.trim t.trimReq (500 - (slew - t.slew).natAbs)
  { t with trim := trim, slew := slew, rho := rhoOf (trim + slew) }

/-- Changes the time unit, with the rate at once while the cycle is stopped. -/
def withTime (s : State) (f : TimeSt → TimeSt) : State :=
  if s.cyc.running then { s with time := f s.time } else { s with time := retuneNow (f s.time) }

/-- Starts a slew of an offset in 2^-32 ns (R466, R474; a slew of the servo uses the same rate, log 24). -/
def startSlew (d : Int) (t : TimeSt) : TimeSt := { t with slewReq := 100000 * sgn d, slewLeft := d }

/-! ### Steps (R466, R482, R483) -/

/-- An instant moved with a step. -/
def shiftN (d : Int) (n : Nat) : Nat := (n + d).toNat

/-- An instant in ns moved with a step. -/
def shiftNs (d : Int) (n : Nat) : Nat := (n + d / nsU).toNat

/-- Spans that no rule keeps in device time go on from the instants that correspond to their starts (R463, log 24). -/
def shiftSpans (d : Int) (s : State) : State :=
  { s with
    dev := { s.dev with hostWd := s.dev.hostWd.map (shiftN d) },
    loc := { s.loc with adc := { s.loc.adc with refAt := shiftN d s.loc.adc.refAt,
                                                calStart := s.loc.adc.calStart.map (shiftN d) } },
    time := { s.time with ports := tmap s.time.ports (fun _ p =>
      { p with freeAt := shiftN d p.freeAt, untimed := p.untimed.map (fun f => { f with queuedAt := shiftN d f.queuedAt }),
               pdelayReqs := p.pdelayReqs.map (shiftN d) }) },
    cal := { s.cal with rearmAt := shiftN d s.cal.rearmAt, trigAt := s.cal.trigAt.map (shiftN d),
                        pre := if s.cal.state = 1 then [] else s.cal.pre, syncLast := s.cal.syncLast.map (shiftN d) },
    dma := { s.dma with switching := tmap s.dma.switching (fun _ w => (w.1, shiftN d w.2)) },
    safe := { s.safe with
      resetAt := shiftNs d s.safe.resetAt, exchangedAt := shiftNs d s.safe.exchangedAt, pulseBase := shiftNs d s.safe.pulseBase,
      levelAt := tmap s.safe.levelAt (fun _ t => shiftNs d t),
      fns := tmap s.safe.fns (fun _ f => { f with since := shiftNs d f.since }),
      outs := tmap s.safe.outs (fun _ o => { o with pulseNext := shiftNs d o.pulseNext, pulseEnd := shiftNs d o.pulseEnd, offAt := shiftNs d o.offAt }),
      pairs := tmap s.safe.pairs (fun _ p => { p with changedAt := shiftNs d p.changedAt }) },
    tru := { s.tru with startedAt := shiftN d s.tru.startedAt, lastEnd := shiftN d s.tru.lastEnd,
                        step := s.tru.step.map (fun w => (w.1, shiftN d w.2.1, w.2.2)) } }

/-- First instant S + i × p that lies after an instant, or at it where `atOk`. -/
def firstPulse (start period from_ : Nat) (atOk : Bool) : Nat :=
  if start > from_ ∨ (atOk ∧ start = from_) ∨ period = 0 then start
  else if atOk then start + cdivN (from_ - start) period * period else start + ((from_ - start) / period + 1) * period

/-- What a step does to one timed output. -/
def stepTout (old new : Nat) (o : Tout) : Tout × Bool :=
  if o.mode = 1 ∧ old ≤ o.next ∧ o.next < new then ({ o with mode := 0, skipped := inc32 o.skipped }, true)
  else if o.mode = 2 then ({ o with next := firstPulse o.start o.period new false }, false)
  else (o, false)

/-- The timed frames of a port that a step has passed, and the others. -/
def stepPort (old new : Nat) (p : PlantPort) : PlantPort × Nat :=
  let gone := fun (f : PlantFrame) => match f.launch with | some l => Nat.ble old l && Nat.blt l new | none => false
  ({ p with timed := p.timed.filter (fun f => !gone f) }, (p.timed.filter gone).length)

/-- A step of device time by an offset in 2^-32 ns (R466, R474): TIME_STEPPED and what the step passes. -/
def stepTime (s : State) (d : Int) : State :=
  let old := s.time.now
  let new := ((s.time.now + d) % (wrapU : Nat)).toNat
  let s1 := shiftSpans d s
  let s2 := { s1 with time := { s1.time with now := new },
                      host := { s1.host with lastStamp := if d < 0 then none else s1.host.lastStamp } }
  let s3 := raiseInfo s2 Ev.timeStepped
  let s4 := (List.range 8).foldl (fun s n =>
    let r := stepTout old new (tget s.time.touts {} n)
    if s.time.touts = [] then s
    else
      let s' := { s with time := { s.time with touts := tput s.time.touts n r.1 } }
      if r.2 then raiseWarn s' Ev.toutSkipped Kind.channel n else s') s3
  (List.range 2).foldl (fun s n =>
    let r := stepPort old new (tget s.time.ports {} n)
    if r.2 = 0 then s
    else (List.range r.2).foldl (fun s _ => raiseWarn s Ev.launchSkipped Kind.channel n)
      { s with time := { s.time with ports := tput s.time.ports n r.1 } }) s4

/-! ### The time commands -/

/-- A plant port. -/
def State.port (s : State) (n : Nat) : PlantPort := tget s.time.ports {} n
/-- Changes a plant port. -/
def State.onPort (s : State) (n : Nat) (f : PlantPort → PlantPort) : State :=
  { s with time := { s.time with ports := tmod s.time.ports {} n f } }
/-- A plant port is in the SLAVE state (portState 9 of IEEE 1588). -/
def anySlave (s : State) : Bool := (s.port 0).state == 9 || (s.port 1).state == 9
/-- A plant port is in the SLAVE state by a change stamped at or before a completion stamp (R485). -/
def slaveBy (s : State) (t : Nat) : Bool :=
  (List.range 2).any (fun n => (s.port n).state == 9 && (match (s.port n).slaveAt with | some u => Nat.ble (u / nsU) t | none => true))
/-- The unit takes its time from the holder of the grip (R571). -/
def followsPair (s : State) : Bool := s.pair.id != 0 && !s.pair.grip

/-- Whole ns of a span of 2^-32 ns, rounded convergently. -/
def spanNs (d : Int) : Int := rdiv d nsU
/-- Whole ns of an offset of 2^-16 ns, rounded convergently. -/
def offsetNs (d : Int) : Int := rdiv d 65536

/-- TIME_READ (R480, R678). -/
def timeReadBody (s : State) (_ : Request) (_ : Nat) : Reply :=
  .ok s (timeBytes (nowNs s) ++ b16 (s.time.now % nsU / 65536) ++ c24 s.time.trim ++ c24 s.time.slew ++
    t48 (spanNs s.time.slewLeft) ++ b8 (bit s.dev.traceable) ++ zeros 7)

/-- TIME_SET (R466, R469, R485, R571). -/
def timeSetBody (s : State) (q : Request) (t : Nat) : Reply :=
  let p := q.payload
  let mode := uAt p 0 1
  match timeOf (slice p 2 10), timeOf (slice p 12 10) with
  | some v, some r =>
    let d := v - r
    need (Nat.ble mode 1 && resv p 1 1 && (mode == 0 || decide (d.natAbs ≤ 1000000000))) <|
    orElse (mode == 1 || !s.cyc.running) St.badState <|
    orElse (!slaveBy s t) St.timeSourcePtp <|
    orElse (!followsPair s) St.timeSourcePair <|
    let done := { s with dev := { s.dev with traceable := true } }
    if mode = 0 then .ok (stepTime done (d * nsU)) []
    else if d = 0 then .ok (withTime done (startSlew 0)) []
    else .ok (withTime s (startSlew (d * nsU))) []
  | _, _ => .err St.badParam []

/-- TIME_TRIM (R464, R466, R480, R571). -/
def timeTrimBody (s : State) (q : Request) (t : Nat) : Reply :=
  match contVal .s24 (slice q.payload 0 4) with
  | some v =>
    need (decide (-100000 ≤ v) && decide (v ≤ 100000)) <|
    orElse (!slaveBy s t) St.timeSourcePtp <|
    orElse (!followsPair s) St.timeSourcePair <|
    .ok (withTime s (fun t => { t with trimReq := v })) []
  | none => .err St.badParam []

/-- TIME_READ -/
def execTimeRead (dt : Nat) (q : Request) (s : State) : Out := .next (serve Cmd.timeRead timeReadBody dt q s)
/-- TIME_SET -/
def execTimeSet (dt : Nat) (q : Request) (s : State) : Out := .next (serve Cmd.timeSet timeSetBody dt q s)
/-- TIME_TRIM -/
def execTimeTrim (dt : Nat) (q : Request) (s : State) : Out := .next (serve Cmd.timeTrim timeTrimBody dt q s)

/-- SLEW_DONE (R466, R469): a slew has removed its offset. Under the servo it does not make time traceable. -/
def execSlewDone (dt : Nat) (s0 : State) : Out :=
  let s := advance dt s0
  if s.time.slewReq ≠ 0 ∧ s.time.slewLeft * sgn s.time.slewReq ≤ 0 then
    .next (withTime { s with dev := { s.dev with traceable := s.dev.traceable || !anySlave s } }
      (fun t => { t with slewReq := 0, slewLeft := 0 }))
  else .next s

/-! ### PTP -/

/-- A port leaves SLAVE (R474): trim is held, slew ramps to 0, ptp_state becomes 4, PTP_LOST is raised. -/
def leaveSlave (s : State) (n st : Nat) : State :=
  let s1 := withTime (s.onPort n (fun p => { p with state := st, slaveAt := none }))
    (fun t => { t with trimReq := t.trim, slewReq := 0, slewLeft := 0, ptpState := 4, locks := 0, offsetLarge := false })
  raiseWarn s1 Ev.ptpLost Kind.channel n

/-- A port is enabled by the parameters that the stack runs with. -/
def portOn (s : State) (n : Nat) : Bool := s.time.ptpRunning && par s Par.ptpPortEnable n == 1

/-- ptp_state from the port states where no port is or was SLAVE (R481). -/
def masterState (s : State) : Nat := if (s.port 0).state = 6 ∨ (s.port 1).state = 6 then 5 else 1

/-- The state a port may take after a message (R470, R571): never SLAVE under role 3, beside a port in SLAVE, or while the unit follows its
pair. -/
def portMayBe (s : State) (n st : Nat) : Bool :=
  st != 9 || (s.time.ptpRole != 3 && !followsPair s && (s.port (1 - n)).state != 9)

/-- The port state that the best master clock algorithm leaves. A slew that runs as a port enters SLAVE goes on under the servo, which
holds what is left of it as its offset (R485). -/
def newPortState (s : State) (n st : Nat) : State :=
  let was := (s.port n).state
  if was = st ∨ !portMayBe s n st then s
  else if was = 9 then leaveSlave s n st
  else
    let s1 := s.onPort n (fun p => { p with state := st, slaveAt := if st = 9 then some s.time.now else p.slaveAt })
    if st = 9 then { s1 with time := { s1.time with ptpState := 2, locks := 0, offsetLarge := false, ptpOffset := rdiv (-s1.time.slewLeft) 65536 } }
    else if s1.time.ptpState = 1 ∨ s1.time.ptpState = 5 then { s1 with time := { s1.time with ptpState := masterState s1 } }
    else s1

/-- One Sync measurement of the servo (R474): offset in 2^-16 ns, rate in ppb. -/
def servo (s : State) (offset ratePpb : Int) : State :=
  let d := -offset * 65536
  let big := fun (lim : Nat) => decide ((lim : Int) * 65536 < offset.natAbs)
  let s1 := withTime s (fun t => { t with trimReq := clampI ratePpb (-100000) 100000, ptpOffset := offset })
  let s2 :=
    if !s1.cyc.running then
      if big (parN s Par.ptpLockLimit 0) then
        stepTime (withTime s1 (fun t => { t with slewReq := 0, slewLeft := 0, offsetLarge := false })) d
      else withTime s1 (fun t => { startSlew d t with offsetLarge := false })
    else if !big (parN s Par.ptpStepLimit 0) then
      { s1 with time := { startSlew d s1.time with offsetLarge := false } }
    else
      let s3 := { s1 with time := { s1.time with slewReq := 0, slewLeft := 0, offsetLarge := true } }
      if s1.time.offsetLarge then s3 else raiseWarn s3 Ev.timeOffsetLarge
  let n := if big (parN s Par.ptpLockLimit 0) then 0 else s2.time.locks + 1
  let s4 := { s2 with time := { s2.time with locks := min n 16 } }
  if 16 ≤ n ∧ s4.time.ptpState = 2 then
    raiseInfo { s4 with time := { s4.time with ptpState := 3 }, dev := { s4.dev with traceable := true } } Ev.ptpLocked
  else s4

/-- The offset of a Sync: the stamp at the balls less phy_rx_delay, and delay_asym as delayAsymmetry (R471). -/
def syncOffset (s : State) (n : Nat) (raw : Int) : Int := raw - ((parN s Par.phyRxDelay n : Int) + par s Par.delayAsym n) * 4096

/-- PTP_MESSAGE_RX (R471, R472, R474, R485): the port state, and in SLAVE the servo; a Pdelay_Req on a port that measures peer delay waits
with its stamp for its response. -/
def execPtpMessageRx (dt : Nat) (m : PtpRx) (s0 : State) : Out :=
  let s := advance dt s0
  if Nat.blt m.port 2 && portOn s m.port then
    let s1 := newPortState s m.port m.portState
    let s2 := s1.onPort m.port (fun p => { p with
      meanPath := m.meanPath % 4294967296,
      pdelayReqs := if m.isPdelayReq && par s1 Par.delayMech m.port == 1 then
        p.pdelayReqs ++ [s1.time.now - parN s1 Par.phyRxDelay m.port * (nsU / 16)] else p.pdelayReqs })
    let s3 := { s2 with time := { s2.time with parent := slice m.parent 0 10, grandmaster := slice m.grandmaster 0 8 } }
    if m.isSync && (s3.port m.port).state == 9 then .next (servo s3 (syncOffset s3 m.port m.offset) m.ratePpb) else .next s3
  else .next s

/-- PTP_LOST (R474): a plant port leaves the SLAVE state. -/
def execPtpLost (dt : Nat) (port : Nat) (portState : Nat) (s0 : State) : Out :=
  let s := advance dt s0
  if (s.port port).state = 9 ∧ portState ≠ 9 then .next (leaveSlave s port portState) else .next s

/-- PTP_CONFIG (R480, R481). -/
def ptpConfigBody (s : State) (q : Request) (_ : Nat) : Reply :=
  let p := q.payload
  let run := uAt p 0 1
  need (Nat.ble run 1 && resv p 1 3) <|
  let s1 := if run = 1 then parPromote s (fun _ _ => true) .ptpConfig else s
  let on := fun n => par s1 Par.ptpPortEnable n == 1
  let role := parN s1 Par.ptpRole 0
  need (run == 0 || role != 1 || (on 0 != on 1)) <|
  let s2 := (List.range 2).foldl (fun s n => if (s.port n).state = 9 then leaveSlave s n 3 else s) s1
  let up := run == 1 && role != 0
  let s3 := (List.range 2).foldl (fun s n => s.onPort n (fun p => { p with state := if up && on n then 4 else 3 })) s2
  .ok { s3 with time := { s3.time with ptpRunning := up, ptpRole := if up then role else 0,
                                       ptpState := if up then 1 else 0, locks := 0, offsetLarge := false } } []

/-- PTP_STATUS (R480, R678): the mean path delay is that of the SLAVE port, else of ETH0 (log 24). -/
def ptpStatusBody (s : State) (_ : Request) (_ : Nat) : Reply :=
  let mp := if (s.port 1).state = 9 then (s.port 1).meanPath else (s.port 0).meanPath
  .ok s (b8 s.time.ptpState ++ b8 (s.port 0).state ++ b8 (s.port 1).state ++ zeros 1 ++ t48 (offsetNs s.time.ptpOffset) ++
    b32 mp ++ zeros 4 ++ slice s.time.parent 0 10 ++ zeros 2 ++ slice s.time.grandmaster 0 8)

/-- PTP_CONFIG -/
def execPtpConfig (dt : Nat) (q : Request) (s : State) : Out := .next (serve Cmd.ptpConfig ptpConfigBody dt q s)
/-- PTP_STATUS -/
def execPtpStatus (dt : Nat) (q : Request) (s : State) : Out := .next (serve Cmd.ptpStatus ptpStatusBody dt q s)

/-! ### Frames of the plant ports -/

/-- Wire time of a frame in units: preamble, frame, check sequence and gap at 8 ns a byte (R479). -/
def wireU (len : Nat) : Nat := (len + 24) * 8 * nsU
/-- The preamble and start delimiter before the message timestamp point (R471). -/
abbrev preU : Nat := 64 * nsU

/-- Where the first timed frame of a port begins on the wire. -/
def nextTimed (p : PlantPort) : Option Nat :=
  p.timed.foldl (fun b f => match f.launch, b with
    | some l, some m => some (min (l - preU) m)
    | some l, none => some (l - preU)
    | none, b => b) none

/-- A frame of a wire time may leave now: the port is free and the frame ends before the next timed one (R479). -/
def mayLeave (p : PlantPort) (now wire : Nat) : Bool :=
  Nat.ble p.freeAt now && (match nextTimed p with | some l => Nat.ble (now + wire) l | none => true)

/-- The bytes of a frame of the host, from LPDDR4 (R478). -/
def frameBytes (s : State) (f : PlantFrame) : Bytes := memRead s.mem.ddr (f.addr - 0x100000000) f.len

/-- Untimed frames that have left by an instant, in order: each begins when the port is free (R478, R479). -/
def drainUntimed (now : Nat) (bytes : PlantFrame → Bytes) : Nat → PlantPort → PlantPort
  | 0, p => p
  | n + 1, p =>
    match p.untimed with
    | [] => p
    | f :: r =>
      let b := max p.freeAt f.queuedAt
      if Nat.ble b now && mayLeave p b (wireU f.len) then
        drainUntimed now bytes n { p with untimed := r, launched := p.launched ++ [f], freeAt := b + wireU f.len, lastSent := bytes f }
      else p

/-- Untimed frames of a port that have left by now. -/
def State.drain (s : State) (n : Nat) : State := s.onPort n (fun p => drainUntimed s.time.now (frameBytes s) p.untimed.length p)

/-- messageLength of a PTP message (R470, R473), as IEEE 1588-2019 has it. -/
def messageLen : PtpKind → Nat
  | .sync | .delayReq => 44 | .pdelayReq | .pdelayResp => 54 | .announce => 64

/-- The two bytes that follow an event message over UDP (R473). -/
def ptpTail : PtpKind → Nat
  | .announce => 0 | _ => 2

/-- Messages go over UDP and IPv4 (R470). -/
def overUdp (s : State) : Bool := par s Par.ptpTransport 0 == 1

/-- Frame length of a PTP message (R470, R473): in Ethernet, or over UDP with 28 bytes of headers and the bytes that follow. -/
def ptpLen (s : State) (kind : PtpKind) : Nat :=
  max 60 (14 + messageLen kind + if overUdp s then 28 + ptpTail kind else 0)

/-- One's complement sum of big-endian 16-bit words. -/
def onesSum : Bytes → Nat
  | a :: b :: l => let t := onesSum l + a.toNat * 256 + b.toNat; if 65536 ≤ t then t - 65535 else t
  | [a] => a.toNat * 256
  | [] => 0

/-- The two bytes that keep the UDP checksum of a message valid after a stamp and a correction have been written into fields of zeros
(R472, R473). -/
def keepSum (stampNs correction : Nat) : Nat :=
  let written := (leBytes 6 (stampNs / 1000000000)).reverse ++ (leBytes 4 (stampNs % 1000000000)).reverse ++ (leBytes 8 correction).reverse
  65535 - onesSum written

/-- What a message that leaves carries: `at_` is the stamp of its timestamp point, `rx` that of the request it answers (R469, R472,
R473). -/
def ptpFields (s : State) (kind : PtpKind) (at_ rx : Nat) : PtpTx :=
  let stamp := match kind with | .sync | .delayReq | .pdelayReq => at_ / nsU | _ => 0
  let corr := match kind with | .sync | .delayReq | .pdelayReq => at_ % nsU / 65536 | .pdelayResp => (at_ - rx) / 65536 | .announce => 0
  let udp := 8 + messageLen kind + ptpTail kind
  { kind := kind, stampNs := stamp, correction := corr, traceable := kind == .announce && s.dev.traceable, messageLen := messageLen kind,
    udpLen := if overUdp s then udp else 0, ipLen := if overUdp s then 20 + udp else 0,
    tail := if overUdp s && kind != .announce then keepSum stamp corr else 0 }

/-- A port sends a kind of message (R470): a master Sync and Announce, a slave Delay_Req under request-response, a port that is neither
initialising, faulty nor disabled the peer messages under peer delay. -/
def maySend (s : State) (n : Nat) (kind : PtpKind) : Bool :=
  let st := (s.port n).state
  let peer := par s Par.delayMech n == 1
  match kind with
  | .sync | .announce => st == 6
  | .delayReq => !peer && (st == 8 || st == 9)
  | .pdelayReq | .pdelayResp => peer && Nat.ble 4 st

/-- PTP_MESSAGE_TX (R469 to R473): the stamp of the timestamp point, behind preamble and start delimiter, and the correction are written
as the message leaves. A Pdelay_Resp answers the waiting request of a number, oldest 0. -/
def execPtpMessageTx (dt : Nat) (port : Nat) (kind : PtpKind) (req : Nat) (s0 : State) : Out :=
  let s := (advance dt s0).drain port
  let rx := if kind = .pdelayResp then (s.port port).pdelayReqs[req]? else some 0
  match rx with
  | none => .next s
  | some t =>
    if Nat.blt port 2 && portOn s port && maySend s port kind && mayLeave (s.port port) s.time.now (wireU (ptpLen s kind)) then
      let at_ := s.time.now + preU + parN s Par.phyTxDelay port * (nsU / 16)
      .next (s.onPort port (fun p =>
        { p with lastTx := some (ptpFields s kind at_ t), freeAt := s.time.now + wireU (ptpLen s kind),
                 pdelayReqs := if kind = .pdelayResp then p.pdelayReqs.eraseIdx req else p.pdelayReqs }))
    else .next s

/-- PLANT_FRAME_RX (R475): the frame is discarded and counted. -/
def execPlantFrameRx (dt : Nat) (port : Nat) (s0 : State) : Out :=
  let s := advance dt s0
  if port < 2 ∧ s.dev.mode ≠ .off ∧ s.dev.mode ≠ .standby then .next (s.onPort port (fun p => { p with discarded := p.discarded + 1 }))
  else .next s

/-- A range lies in the LPDDR4 data area while its domain is powered (R515). -/
def inDdrData (s : State) (addr len : Nat) : Bool :=
  Nat.ble 0x100000000 addr && Nat.ble (addr + len) (0x100000000 + s.board.lpddrMb * 1048576 - 16777216) &&
  !s.dma.domainsOff.contains 1

/-- Two timed frames overlap on the wire (R479). -/
def wiresOverlap (l1 n1 l2 n2 : Nat) : Bool := Nat.blt l1 (l2 + wireU n2) && Nat.blt l2 (l1 + wireU n1)

/-- An untimed frame waits for its port from an instant on. -/
def queueUntimed (now addr len : Nat) (p : PlantPort) : PlantPort :=
  { p with untimed := p.untimed ++ [{ launch := none, addr := addr, len := len, queuedAt := now }] }

/-- PLANT_TX (R478, R479, R678). -/
def plantTxBody (s : State) (q : Request) (t : Nat) : Reply :=
  let p := q.payload
  let port := uAt p 0 1
  let flags := uAt p 1 1
  let len := uAt p 2 2
  let addr := uAt p 4 8
  let timed := flags == 1
  need (Nat.blt port 2 && Nat.ble flags 1 && Nat.ble 60 len && Nat.ble len 1514) <|
  orElse (!timed || isFull s.var) St.unsupported <|
  match timeOf (slice p 12 10) with
  | none =>
    if timed then .err St.badParam []
    else orElse (inDdrData s addr len) St.windowExceeded <|
      .ok ((s.onPort port (queueUntimed s.time.now addr len)).drain port) []
  | some ns =>
    orElse (inDdrData s addr len) St.windowExceeded <|
    if !timed then
      .ok ((s.onPort port (queueUntimed s.time.now addr len)).drain port) []
    else
      let l := ns.toNat * nsU + uAt p 22 2 * 65536
      orElse (Nat.ble ((t + 10000) * nsU) l) St.timeLate <|
      orElse (!(s.port port).timed.any (fun f => match f.launch with | some m => wiresOverlap l len m f.len | none => false))
        St.launchConflict <|
      orElse (Nat.blt (s.port port).timed.length 64) St.launchQueueFull <|
      .ok (s.onPort port (fun x => { x with timed := x.timed ++ [{ launch := some l, addr := addr, len := len }] })) []

/-- PLANT_TX -/
def execPlantTx (dt : Nat) (q : Request) (s : State) : Out := .next (serve Cmd.plantTx plantTxBody dt q s)

/-- The timed frame with the earliest launch. -/
def firstTimed : List PlantFrame → Option PlantFrame
  | [] => none
  | f :: r => match firstTimed r with
    | none => some f
    | some g => if f.launch.getD 0 ≤ g.launch.getD 0 then some f else some g

/-- TIMED_FRAME_LAUNCH (R478): the next timed frame of the port leaves at its launch instant. -/
def execTimedFrameLaunch (port : Nat) (s0 : State) : Out :=
  match firstTimed (s0.port port).timed with
  | some f =>
    let l := f.launch.getD 0
    let s := (advanceTo l s0).drain port
    if l ≤ s.time.now then
      .next (s.onPort port (fun p => { p with timed := p.timed.erase f, launched := p.launched ++ [f], freeAt := l - preU + wireU f.len,
                                              lastSent := frameBytes s f })
        |>.drain port)
    else .next s
  | none => .next s0

/-! ### Timed pulse outputs -/

/-- Changes a timed output. -/
def State.onTout (s : State) (n : Nat) (f : Tout → Tout) : State :=
  { s with time := { s.time with touts := tmod s.time.touts {} n f } }

/-- TOUT_SET (R476, R477, R484). -/
def toutSetBody (s : State) (q : Request) (t : Nat) : Reply :=
  let p := q.payload
  let n := uAt p 0 1
  let mode := uAt p 1 1
  let w := uAt p 16 4
  let width := w * fineU
  let period := uAt p 20 4 * nsU + uAt p 24 2 * 65536
  match timeOf (slice p 4 10) with
  | none => .err St.badParam []
  | some ns =>
    need (Nat.blt n 8 && Nat.ble mode 1 && resv p 2 2 && resv p 26 2 && Nat.ble 16 w && Nat.ble w 1600000000 &&
      (mode == 0 || (Nat.ble (50 * nsU) period && Nat.ble (width + 10 * nsU) period))) <|
    let start := ns.toNat * nsU + uAt p 14 2 * 65536
    let soon := (t + 10000) * nsU
    if mode = 0 then
      orElse (Nat.ble soon start) St.timeLate <|
      .ok (s.onTout n (fun o => { o with mode := 1, start := start, width := width, period := 0, next := start })) []
    else
      .ok (s.onTout n (fun o => { o with mode := 2, start := start, width := width, period := period,
                                         next := firstPulse start period soon true })) []

/-- TOUT_STOP (R477): after the pulse in progress the output is idle. -/
def toutStopBody (s : State) (q : Request) (_ : Nat) : Reply :=
  let p := q.payload
  need (Nat.blt (uAt p 0 1) 8 && resv p 1 3) <|
  .ok (s.onTout (uAt p 0 1) (fun o => { o with mode := 0 })) []

/-- TOUT_SET -/
def execToutSet (dt : Nat) (q : Request) (s : State) : Out := .next (serve Cmd.toutSet toutSetBody dt q s)
/-- TOUT_STOP -/
def execToutStop (dt : Nat) (q : Request) (s : State) : Out := .next (serve Cmd.toutStop toutStopBody dt q s)

/-- The fine step nearest an instant, the earlier of two (R463). -/
def fineAt (i : Nat) : Nat := (2 * i + fineU - 1) / (2 * fineU) * fineU

/-- TOUT_PULSE (R463, R476, R484): a pulse starts at the fine step nearest its instant and ends after its width; a pulse in progress of a
former program keeps its own width. -/
def execToutPulse (out : Nat) (s0 : State) : Out :=
  let o := tget s0.time.touts {} out
  if o.mode = 0 then .next s0
  else
    let rise := fineAt o.next
    let s := advanceTo rise s0
    if rise ≤ s.time.now then
      -- a skew calibration ends its output after 64 pulses (R504)
      let sk := match s.cal.skew with
        | some k => if k.tout = out then some { k with pulses := k.pulses + 1 } else some k
        | none => none
      let last := match sk with | some k => k.tout == out && Nat.ble 64 k.pulses | none => false
      .next ({ s with cal := { s.cal with skew := sk } }.onTout out (fun o =>
        { o with mode := if o.mode = 1 ∨ last = true then 0 else o.mode, pulseEnd := some (max (o.pulseEnd.getD 0) (rise + o.width)),
                 next := o.next + o.period }))
    else .next s

/-- The level of a timed output at an instant (R476): active inside its pulse, high when active unless tout_polarity is 1. -/
def toutLevel (s : State) (n : Nat) : Bool :=
  let active := match (tget s.time.touts {} n).pulseEnd with | some e => Nat.blt s.time.now e | none => false
  active != (par s Par.toutPolarity n == 1)

/-- On entry into CONFIG the programs of the timed outputs are cleared (R476). -/
def clearTouts (s : State) : State :=
  { s with time := { s.time with touts := tmap s.time.touts (fun _ o => { skipped := o.skipped }) } }

end Sys2Proof.Machine
end

