-- ==== Sys2Proof/Machine/Dma.lean ====
section
/-! DEFINITION. The DMA engine (R513 to R532): windows and checks, chains, checksums, errors, and the hold of a transfer
before a power-down. Host memory belongs to the host: what a read of it brings is an operand of the row (log 25). -/

namespace Sys2Proof.Machine

/-! ### Windows (R515, R516) -/

/-- The windows of R515. -/
inductive Win where
  | sram
  | capture
  | ddr
  | firmware
  | host
  deriving DecidableEq, Repr

/-- End of the LPDDR4 data area as an offset in LPDDR4. -/
def ddrEnd (s : State) : Nat := (s.board.lpddrMb - 16) * 1048576

/-- The window that an address lies in. -/
def winOf (s : State) (a : Nat) : Option Win :=
  if a < 0x400000 then some .sram
  else if 0x1000000 ≤ a ∧ a < 0x1400000 then (if hasLocal s.var then some .capture else none)
  else if 0x100000000 ≤ a ∧ a < 0x100000000 + ddrEnd s then some .ddr
  else if 0x100000000 ≤ a ∧ a < 0x100000000 + s.board.lpddrMb * 1048576 then some .firmware
  else if 0x8000000000 ≤ a ∧ a < 0x10000000000 then (if s.board.qspi then none else some .host)
  else none

/-- A channel may read a segment from a window (R516). -/
def srcOk (ch : Nat) : Win → Bool
  | .firmware => Nat.blt ch 24
  | _ => true

/-- A channel may write a segment to a window (R516). -/
def dstOk (ch : Nat) : Win → Bool
  | .ddr | .host => true
  | _ => Nat.blt ch 24

/-- First and last byte of a range lie in one window of which a condition holds. -/
def rangeOk (s : State) (ok : Win → Bool) (a n : Nat) : Bool :=
  match winOf s a, winOf s (a + n - 1) with
  | some w, some w' => w == w' && ok w
  | _, _ => false

/-- The number of the host list area that an address lies in (R521). -/
def listArea (a : Nat) : Option Nat := if 0x3F0000 ≤ a ∧ a < 0x3F4000 then some ((a - 0x3F0000) / 0x800) else none

/-- An entry of a chain that begins at `base` may be read at `a` (R516, R517, R521). -/
def listOk (s : State) (ch base a : Nat) : Bool :=
  match winOf s a with
  | some .sram => Nat.blt ch 24 || ((listArea base).isSome && listArea base == listArea (a + 7))
  | some .ddr | some .host => winOf s (a + 7) == winOf s a
  | some _ => Nat.blt ch 24
  | none => false

/-- The power domain of a window (R650). -/
def domainOf : Win → Option Nat
  | .capture => some 0
  | .ddr | .firmware => some 1
  | _ => none

/-- A domain is off or is being powered down (R526). -/
def domainDown (s : State) (d : Nat) : Bool :=
  s.dma.domainsOff.contains d || (match tfind s.dma.switching d with | some (on, _) => !on | none => false)

/-- An address lies in a domain that is off or going down. -/
def addrDown (s : State) (a : Nat) : Bool :=
  match winOf s a with
  | some w => (match domainOf w with | some d => domainDown s d | none => false)
  | none => false

/-- An address lies in a given domain. -/
def addrIn (s : State) (d a : Nat) : Bool :=
  match winOf s a with | some w => domainOf w == some d | none => false

/-- Host bus address of a host-memory address, with the upper part that the transfer started with (R15, R515). -/
def hostBus (hi a : Nat) : Nat := (a - 0x8000000000) + hi * 4294967296

/-! ### Bytes behind an address -/

/-- Reads device memory; host memory is not read here. -/
def dmaGet (s : State) (a n : Nat) : Bytes :=
  match winOf s a with
  | some .sram => memRead s.mem.sram a n
  | some .capture => memRead s.mem.capture (a - 0x1000000) n
  | some .ddr | some .firmware => memRead s.mem.ddr (a - 0x100000000) n
  | _ => zeros n

/-- Writes bytes to device memory or host memory. -/
def dmaPut (s : State) (hi a : Nat) (b : Bytes) : State :=
  match winOf s a with
  | some .sram =>
    let s1 := snapBefore s
    { s1 with mem := { s1.mem with sram := memWrite s1.mem.sram a b } }
  | some .capture => { s with mem := { s.mem with capture := memWrite s.mem.capture (a - 0x1000000) b } }
  | some .ddr | some .firmware => { s with mem := { s.mem with ddr := memWrite s.mem.ddr (a - 0x100000000) b } }
  | some .host => { s with mem := { s.mem with host := memWrite s.mem.host (hostBus hi a) b } }
  | none => s

/-! ### Channels -/

/-- Channel states of R518. -/
abbrev dmaIdle : Nat := 0
abbrev dmaRunning : Nat := 1
abbrev dmaParked : Nat := 2
abbrev dmaHold : Nat := 3
abbrev dmaDone : Nat := 4
abbrev dmaFailedSt : Nat := 5

/-- A channel. -/
def State.chan (s : State) (c : Nat) : DmaCh := tget s.dma.chans {} c
/-- Changes a channel. -/
def State.onChan (s : State) (c : Nat) (f : DmaCh → DmaCh) : State :=
  { s with dma := { s.dma with chans := tmod s.dma.chans {} c f } }

/-- Fields of DMA_CTRL (R518). -/
def DmaCh.mode (c : DmaCh) : Nat := bitsOf c.ctrl 1 2
def DmaCh.check (c : DmaCh) : Nat := bitsOf c.ctrl 3 2
def DmaCh.isOpen (c : DmaCh) : Bool := bitOf c.ctrl 5

/-- Running, parked or in POWER_HOLD (R518). -/
def DmaCh.busy (c : DmaCh) : Bool := c.state == dmaRunning || c.state == dmaParked || c.state == dmaHold

/-- A 16-bit sum with its carries folded back in (R523). -/
def fold16 (n : Nat) : Nat :=
  let a := n / 65536 + n % 65536
  a / 65536 + a % 65536

/-- The sum of byte pairs from a running sum; the second part is a byte left over (R523). -/
def sumGo : Nat → Option Byte → Bytes → Nat × Option Byte
  | c, o, [] => (c, o)
  | c, none, b :: r => sumGo c (some b) r
  | c, some h, b :: r => sumGo (fold16 (c + h.toNat * 256 + b.toNat)) none r

/-- The running checksum after bytes were written (R523). -/
def DmaCh.add (c : DmaCh) (b : Bytes) : DmaCh :=
  if c.check = 1 then { c with sum := crcGo 0x82F63B78 c.sum b }
  else if c.check = 2 then
    let r := sumGo c.sum c.oddByte b
    { c with sum := r.1, oddByte := r.2 }
  else c

/-- DMA_RESULT at the end of a transfer (R523). -/
def DmaCh.final (c : DmaCh) : Nat :=
  if c.check = 1 then Nat.xor c.sum 0xFFFFFFFF
  else if c.check = 2 then (match c.oddByte with | some h => fold16 (c.sum + h.toNat * 256) | none => c.sum)
  else 0

/-- What the notification of DMA_START carries (R522, R679). -/
def dmaFinal (c : DmaCh) : Bytes := b32 c.result ++ b64 c.bytes

/-! ### The calipers spill (R499, R514) -/

/-- The channel of the calipers spill. -/
abbrev spillCh : Nat := 23

/-- The firmware starts channel 23 on the oldest complete segment that is not yet copied: a single transfer from the capture SRAM to the
spill region (R499, R514). -/
def spillStart (s : State) : State :=
  if (s.chan spillCh).busy then s
  else match s.cal.conf, s.cal.done.find? (fun g => !g.inDdr) with
    | some c, some g =>
      if !c.spill then s
      else
        let src := 0x1000000 + g.addr
        let dst := 0x100000000 + c.spillBase + s.cal.spilled
        s.onChan spillCh (fun x => { x with
          src := src, dst := dst, count := g.len, ctrl := 1, tail := 0, bytes := 0, result := 0, state := dmaRunning, retried := false,
          held := true, sum := 0, oddByte := none, run := { src := src, dst := dst, left := g.len, inSeg := true } })
    | _, _ => s

/-- A copy of channel 23 is complete: the segment stands in LPDDR4, and the next one follows (R499, R500). -/
def spillDone (s : State) : State :=
  match s.cal.conf, s.cal.done.find? (fun g => !g.inDdr) with
  | some c, some g =>
    if !c.spill then s
    else
      let at_ := c.spillBase + s.cal.spilled
      spillStart { s with cal := { s.cal with
        spilled := s.cal.spilled + g.len,
        done := s.cal.done.map (fun x => if x.number = g.number then { x with inDdr := true, addr := at_ } else x) } }
  | _, _ => s

/-- A transfer completes (R520, R523). `DMA_CTRL`.start stands while it runs (R518; log 25). -/
def dmaComplete (s : State) (ch : Nat) : State :=
  let c := s.chan ch
  let c' := { c with state := dmaDone, status := St.ok, result := c.final, run := {}, held := false, ctrl := c.ctrl - c.ctrl % 2 }
  let s1 := s.onChan ch (fun _ => c')
  if ch = spillCh then spillDone s1 else finish s1 Cmd.dmaStart ch St.ok (dmaFinal c')

/-- A transfer ends with a status and DMA_RESULT 0 (R522 to R525). -/
def dmaEnd (s : State) (ch status : Nat) : State :=
  let c := s.chan ch
  let c' := { c with state := dmaFailedSt, status := status, result := 0, run := {}, held := false, retried := false, ctrl := c.ctrl - c.ctrl % 2 }
  let s1 : State := { s.onChan ch (fun _ => c') with dma := { (s.onChan ch (fun _ => c')).dma with buffer := s.dma.buffer.filter (fun e => e.1 != ch) } }
  if ch = spillCh then s1 else finish s1 Cmd.dmaStart ch status (dmaFinal c')

/-- A transfer fails: DMA_FAILED names the channel (R524). -/
def dmaFail (s : State) (ch status : Nat) (flags : Nat := 0) : State :=
  dmaEnd (raiseWarn s Ev.dmaFailed Kind.channel ch 0 [] flags) ch status

/-! ### Commands -/

/-- Runs a command on a host channel (R514). -/
def withChan (p : Bytes) (k : Nat → Reply) : Reply :=
  let ch := uAt p 0 1
  need (Nat.ble 24 ch && Nat.blt ch 32) (k ch)

/-- DMA_SETUP (R518, R679). -/
def dmaSetupBody (s : State) (q : Request) (_ : Nat) : Reply :=
  let p := q.payload
  withChan p fun ch =>
  let ctrl := uAt p 1 1
  let count := uAt p 4 4
  let mode := bitsOf ctrl 1 2
  need (resv p 2 2 && ctrl % 2 == 0 && Nat.blt ctrl 64 && mode != 3 && bitsOf ctrl 3 2 != 3 &&
    (if mode = 0 then Nat.ble 1 count && Nat.blt count 16777216 else count == 0) &&
    Nat.blt (uAt p 8 8) 0x10000000000 && Nat.blt (uAt p 16 8) 0x10000000000 && Nat.blt (uAt p 24 8) 0x10000000000 &&
    uAt p 24 8 % 8 == 0) <|
  orElse (!(s.chan ch).busy) St.dmaBusy <|
  .ok (s.onChan ch (fun c => { c with src := uAt p 8 8, dst := uAt p 16 8, list := uAt p 24 8, count := count, ctrl := ctrl })) []

/-- DMA_START (R518, R519, R522): a single transfer has its segment at once; a chain begins at its first entry. -/
def dmaStartBody (s : State) (q : Request) (_ : Nat) : Reply :=
  let p := q.payload
  withChan p fun ch =>
  need (resv p 1 3) <|
  orElse (!(s.chan ch).busy) St.dmaBusy <|
  let s1 := parPromote s (fun _ _ => true) .dmaStart
  .pend (addPend (s1.onChan ch (fun c =>
    { c with tail := 0, bytes := 0, result := 0, state := dmaRunning, retried := false, ctrl := c.ctrl - c.ctrl % 2 + 1,
             outHi := parN s1 Par.pcieOutHi 0,
             sum := if c.check = 1 then 0xFFFFFFFF else 0, oddByte := none, held := c.mode == 0,
             run := { entryAddr := c.list, src := c.src, dst := c.dst, left := if c.mode = 0 then c.count else 0,
                      inSeg := c.mode == 0 } })) Cmd.dmaStart q ch)

/-- Writes entries from the highest index down (R521). -/
def writeEntries (s : State) (base index : Nat) (p : Bytes) : Nat → State
  | 0 => s
  | n + 1 => writeEntries (s.sramWrite (base + 8 * (index + n)) (slice p (8 + 8 * n) 8)) base index p n

/-- DMA_LIST_WRITE (R521, R679). -/
def dmaListWriteBody (s : State) (q : Request) (_ : Nat) : Reply :=
  let p := q.payload
  withChan p fun ch =>
  let count := uAt p 1 1
  let index := uAt p 2 2
  need (Nat.ble 1 count && Nat.ble count 30 && resv p 4 4) <|
  orElse (Nat.ble (index + count) 256) St.windowExceeded <|
  .ok (writeEntries s (0x3F0000 + 0x800 * (ch - 24)) index p count) []

/-- DMA_APPEND (R520, R522, R529, R530). -/
def dmaAppendBody (s : State) (q : Request) (_ : Nat) : Reply :=
  let p := q.payload
  withChan p fun ch =>
  need (resv p 1 3) <|
  let c := s.chan ch
  orElse ((c.state == dmaRunning || c.state == dmaParked) && c.isOpen) St.badState <|
  .ok (s.onChan ch (fun c => { c with tail := (c.tail + 1) % 65536, state := dmaRunning })) []

/-- DMA_CLOSE (R520, R522): a parked channel completes at once. -/
def dmaCloseBody (s : State) (q : Request) (_ : Nat) : Reply :=
  let p := q.payload
  withChan p fun ch =>
  need (resv p 1 3) <|
  let c := s.chan ch
  orElse ((c.state == dmaRunning || c.state == dmaParked) && c.isOpen) St.badState <|
  let s1 := s.onChan ch (fun c => { c with ctrl := c.ctrl - 32 })
  .ok (if c.state = dmaParked then dmaComplete s1 ch else s1) []

/-- DMA_ABORT (R522, R528): between bursts the transfer ends at once. -/
def dmaAbortBody (s : State) (q : Request) (_ : Nat) : Reply :=
  let p := q.payload
  withChan p fun ch =>
  need (resv p 1 3) <|
  orElse (s.chan ch).busy St.badState <|
  .ok (dmaEnd s ch St.dmaAborted) []

/-- DMA_STATUS (R518, R679). -/
def dmaStatusBody (s : State) (q : Request) (_ : Nat) : Reply :=
  let p := q.payload
  withChan p fun ch =>
  need (resv p 1 3) <|
  let c := s.chan ch
  .ok s (b64 c.src ++ b64 c.dst ++ b32 c.count ++ b32 c.ctrl ++ b64 c.list ++ b16 c.tail ++ b8 c.state ++ zeros 1 ++
    b16 c.status ++ zeros 2 ++ b64 c.bytes ++ b32 c.result)

/-- DMA_SETUP -/
def execDmaSetup (dt : Nat) (q : Request) (s : State) : Out := .next (serve Cmd.dmaSetup dmaSetupBody dt q s)
/-- DMA_START -/
def execDmaStart (dt : Nat) (q : Request) (s : State) : Out := .next (serve Cmd.dmaStart dmaStartBody dt q s)
/-- DMA_LIST_WRITE -/
def execDmaListWrite (dt : Nat) (q : Request) (s : State) : Out := .next (serve Cmd.dmaListWrite dmaListWriteBody dt q s)
/-- DMA_APPEND -/
def execDmaAppend (dt : Nat) (q : Request) (s : State) : Out := .next (serve Cmd.dmaAppend dmaAppendBody dt q s)
/-- DMA_CLOSE -/
def execDmaClose (dt : Nat) (q : Request) (s : State) : Out := .next (serve Cmd.dmaClose dmaCloseBody dt q s)
/-- DMA_ABORT -/
def execDmaAbort (dt : Nat) (q : Request) (s : State) : Out := .next (serve Cmd.dmaAbort dmaAbortBody dt q s)
/-- DMA_STATUS -/
def execDmaStatus (dt : Nat) (q : Request) (s : State) : Out := .next (serve Cmd.dmaStatus dmaStatusBody dt q s)

/-! ### The engine -/

/-- The channel pauses in POWER_HOLD (R526). -/
def dmaPause (s : State) (ch : Nat) : State := s.onChan ch (fun c => { c with state := dmaHold })

/-- Host memory cannot be reached (R524): the link is down, or Bus Master Enable is clear. -/
def hostGone (s : State) : Bool := !s.host.linkUp || !bitOf s.host.pci.command.toNat 2

/-- An address in host memory that cannot be reached. -/
def linkGone (s : State) (a : Nat) : Bool := winOf s a == some .host && hostGone s

/-- A running transfer addresses host memory: by its segment, or by the list entry that it reads next (R524). -/
def usesHost (s : State) (c : DmaCh) : Bool :=
  c.state == dmaRunning &&
    (if c.run.inSeg then !c.held && (winOf s c.run.src == some .host || winOf s c.run.dst == some .host) else winOf s c.run.entryAddr == some .host)

/-- Transfers that address host memory fail where it can no longer be reached (R524). -/
def dropHostDma (s : State) : State :=
  if hostGone s then (s.dma.chans.filter (fun e => usesHost s e.2)).foldl (fun s e => dmaFail s e.1 St.dmaReadError) s else s

/-- The segment of a channel begins: power, windows and overlap are checked before any byte is read (R517, R526). -/
def dmaBegin (s : State) (ch : Nat) : State :=
  let r := (s.chan ch).run
  if addrDown s r.src || addrDown s r.dst then dmaPause s ch
  else if r.left = 0 then dmaComplete s ch
  else if !rangeOk s (srcOk ch) r.src r.left || !rangeOk s (dstOk ch) r.dst r.left then dmaFail s ch St.windowExceeded
  else if r.src < r.dst + r.left ∧ r.dst < r.src + r.left then dmaFail s ch St.dmaOverlap
  else s.onChan ch (fun c => { c with held := false, state := dmaRunning })

/-- The segment that a chain entry names (R519). -/
def segFrom (c : DmaCh) (addr len : Nat) : DmaRun :=
  { entryAddr := c.run.entryAddr + 8, inSeg := true, left := len,
    src := if c.mode = 1 then addr else c.run.src, dst := if c.mode = 1 then c.run.dst else addr }

/-- The kind of R606 of a failed read at an address: a completion error of the host, or an ECC error. -/
def readKind (s : State) (a : Nat) : Nat :=
  match winOf s a with
  | some .host => 12
  | some .sram => 4
  | _ => 6

/-- A read at an address failed: once more, then DMA_READ_ERROR with the record of its kind (R524, R606). -/
def dmaReadFails (s : State) (ch a : Nat) : State :=
  let c := s.chan ch
  if c.retried then
    let s1 := match readKind s a with
      | 12 => s
      | 4 => raiseDevice s { source := Ev.eccDouble, cls := Cls.device, kind := Kind.channel, inst := ch, flags := 2 }
      | _ => raiseWarn s Ev.eccDouble Kind.channel ch 0 [] 2
    dmaFail s1 ch St.dmaReadError 2
  else s.onChan ch (fun c => { c with retried := true })

/-- A read succeeded at its retry (R524, R606). -/
def dmaRetried (s : State) (ch a : Nat) : State :=
  if !(s.chan ch).retried then s
  else
    let s1 := s.onChan ch (fun c => { c with retried := false })
    let s2 := { s1 with dma := { s1.dma with transients := inc32 s1.dma.transients } }
    transient s2 (readKind s a)
      { source := if readKind s a = 12 then Ev.dmaFailed else Ev.eccDouble, cls := Cls.info, kind := Kind.channel, inst := ch }

/-- What a read at an address brings: it fails and is tried once more, or its errors are corrected and noted (R23, R524). -/
def dmaRead (s : State) (ch a : Nat) (read : BurstRead) (go : State → State) : State :=
  match read with
  | .failed => dmaReadFails s ch a
  | .corrected => go (dmaRetried (eccFixed s) ch a)
  | .good => go (dmaRetried s ch a)

/-- The engine reads the entry at which the channel stands (R519, R520). `seen` is what host memory holds there. -/
def dmaEntry (s : State) (ch : Nat) (seen : EntryRead) : State :=
  let c := s.chan ch
  let a := c.run.entryAddr
  if addrDown s a then dmaPause s ch
  else if !listOk s ch c.list a then dmaFail s ch St.windowExceeded
  else if linkGone s a then dmaFail s ch St.dmaReadError
  else dmaRead s ch a seen.read fun s =>
    let e := if winOf s a = some .host then slice seen.bytes 0 8 else dmaGet s a 8
    if uAt e 5 3 = 0 then
      if c.isOpen then s.onChan ch (fun c => { c with state := dmaParked }) else dmaComplete s ch
    else dmaBegin (s.onChan ch (fun c => { c with run := segFrom c (uAt e 0 5) (uAt e 5 3), held := true })) ch

/-- DMA_ENTRY_READ (R519, R520, R524). -/
def execDmaEntryRead (dt : Nat) (ch : Nat) (entry : EntryRead) (s0 : State) : Out :=
  let s := advance dt s0
  let c := s.chan ch
  if c.state = dmaRunning ∧ c.mode ≠ 0 ∧ !c.run.inSeg then .next (dmaEntry s ch entry) else .next s

/-- The read engine fetches the next burst of a channel into the buffer (R513): at most 256 bytes, where the channel holds less than 4 KB
there and no more than 16 channels hold data; `data` is what host memory holds. -/
def fetchBurst (s : State) (ch : Nat) (data : Bytes) : State :=
  let r := (s.chan ch).run
  let n := min 256 r.left
  let mine := (s.dma.buffer.filter (fun e => e.1 == ch)).foldl (fun n e => n + e.2.length) 0
  let others := ((s.dma.buffer.map (·.1)).eraseDups.filter (· != ch)).length
  if 4096 < mine + n ∨ 16 ≤ others then s
  else
    let b := if winOf s r.src = some .host then slice data 0 n else dmaGet s r.src n
    { s with dma := { s.dma with buffer := s.dma.buffer ++ [(ch, b)] } }

/-- The write engine writes the oldest burst of a channel whole, and the checksum takes it (R513, R523). A segment that is over leaves a chain
in POWER_HOLD where it lay in a domain that is being powered down (R525). -/
def drainBurst (s : State) (ch : Nat) : State :=
  match s.dma.buffer.find? (fun e => e.1 == ch) with
  | none => s
  | some e =>
    let b := e.2
    let c0 := s.chan ch
    let r := c0.run
    let n := b.length
    let put := dmaPut s c0.outHi r.dst b
    let s1 : State := { put with dma := { put.dma with buffer := s.dma.buffer.erase e } }
    let s2 : State := s1.onChan ch (fun c =>
      { c.add b with bytes := c.bytes + n,
                     run := { r with src := r.src + n, dst := r.dst + n, left := r.left - n, inSeg := decide (n < r.left) } })
    if n < r.left then s2
    else if (s2.chan ch).mode = 0 then dmaComplete s2 ch
    else if addrDown s r.src || addrDown s r.dst then dmaPause s2 ch
    else s2

/-- A channel has a burst to move (R513). -/
def runnable (s : State) (c : DmaCh) : Bool :=
  c.state == dmaRunning && c.run.inSeg && (!c.held || !(addrDown s c.run.src || addrDown s c.run.dst))

/-- The engines serve the runnable channels in turn, one burst a turn (R513): a channel that has had its turn waits while another has not. -/
def dmaTurn (s : State) (ch : Nat) : Bool :=
  !s.dma.served.contains ch || s.dma.chans.all (fun e => e.1 == ch || s.dma.served.contains e.1 || !runnable s e.2)

/-- Marks the turn of a channel as taken; a round ends with the first channel of the next. -/
def takeDmaTurn (s : State) (ch : Nat) : State :=
  { s with dma := { s.dma with served := if s.dma.served.contains ch then [ch] else ch :: s.dma.served } }

/-- DMA_BURST (R23, R513, R517, R523, R524, R526): in its turn a channel moves one burst through the buffer (log 25). -/
def execDmaBurst (dt : Nat) (ch : Nat) (data : Bytes) (read : BurstRead) (s0 : State) : Out :=
  let s1 := advance dt s0
  let c := s1.chan ch
  if c.state = dmaRunning ∧ c.run.inSeg ∧ dmaTurn s1 ch = true then
    let s2 := takeDmaTurn s1 ch
    let s := if c.held then dmaBegin s2 ch else s2
    let c := s.chan ch
    if c.state = dmaRunning ∧ c.run.inSeg then
      if linkGone s c.run.src || linkGone s c.run.dst then .next (dmaFail s ch St.dmaReadError)
      else .next (dmaRead s ch c.run.src read (fun s => drainBurst (fetchBurst s ch data) ch))
    else .next s
  else .next s1

/-! ### Power-down of a domain (R525, R526) -/

/-- Channels with a segment in flight that addresses a domain. -/
def inFlight (s : State) (d : Nat) : List Nat :=
  (s.dma.chans.filter (fun e => e.2.state == dmaRunning && e.2.run.inSeg && !e.2.held &&
    (addrIn s d e.2.run.src || addrIn s d e.2.run.dst))).map (·.1)

/-- What a channel in POWER_HOLD waits for is powered (R526): the domains of its segment, or those of the list entry it stands at and of the
segment that the entry names, as far as device memory shows it. -/
def mayResume (s : State) (c : DmaCh) : Bool :=
  let side := fun (r : DmaRun) => !(addrDown s r.src || addrDown s r.dst)
  if c.held then side c.run
  else if addrDown s c.run.entryAddr then false
  else if winOf s c.run.entryAddr == some .host then !addrDown s (if c.mode = 1 then c.run.dst else c.run.src)
  else
    let e := dmaGet s c.run.entryAddr 8
    uAt e 5 3 == 0 || side (segFrom c (uAt e 0 5) (uAt e 5 3))

/-- Channels in POWER_HOLD resume (R526). -/
def resumeChans (s : State) : State :=
  { s with dma := { s.dma with chans := tmap s.dma.chans (fun _ c =>
      if c.state = dmaHold ∧ mayResume s c then { c with state := dmaRunning } else c) } }

end Sys2Proof.Machine
end

