-- ==== Sys2Proof/Machine/Sample.lean ====
section
/-! DEFINITION. Feedback samples as they arrive: the axis position in user units (R166, R167), the velocity of the last two
valid samples (R172), invalid samples (R173), and the positions of switch and probe edges that two samples enclose (R250,
R434). A reading is in counts for an encoder and in 2^-24 feedback turns otherwise. -/

namespace Sys2Proof.Machine

/-- The position source of an axis: none, an encoder, an SSI channel, or its ring node (R421). -/
inductive Source where
  | none
  | enc (ch : Nat)
  | ssi (ch : Nat)
  | node
  deriving DecidableEq, Repr

/-- Where the samples of an axis come from. -/
def sourceOf (s : State) (a : Nat) : Source :=
  match sliceOf s.image a with
  | none => .none
  | some x =>
    if x.ring ≠ 255 then .node
    else if par s Par.fbLocal a = 1 then .enc x.node
    else if par s Par.fbLocal a = 2 then .ssi (x.node / 2)
    else .none

/-- The conversion of a reading to user turns of 2^-48, as a numerator and a divisor (R166, R432). -/
def scaleOf (s : State) (a : Nat) : Int × Int :=
  match sourceOf s a with
  | .enc ch => (par s Par.fbNum a * turnQ, par s Par.fbDen a * par s Par.encCpt ch)
  | _ => (par s Par.fbNum a * 16777216, par s Par.fbDen a)

/-- Difference of two readings: both wrap at 48 bits. -/
def readDiff (r l : Int) : Int := signed 48 (twos 48 (r - l))

/-- The user position, in 2^-48 turn, that a reading stands for, without taking it as a sample. -/
def userAt (s : State) (a : Nat) (r : Int) : Int :=
  let x := s.axis a
  let (n, d) := scaleOf s a
  match x.lastRaw with
  | some l => x.rawUser + (readDiff r l * n + x.fbRem) / d + x.shift
  | none => r * n / d + x.shift

/-- The position at an instant that two samples enclose, by linear interpolation (R250). -/
def between (p q : Sample) (m : Int) (at_ : Nat) : Int :=
  wrapPos m (p.x + shortDiff m (q.x - p.x) * ((at_ : Int) - p.at_) / (((q.at_ : Int) - p.at_)))

/-- Two samples enclose an instant. -/
def encloses (p q : Sample) (at_ : Nat) : Bool := Nat.ble p.at_ at_ && Nat.ble at_ q.at_ && Nat.blt p.at_ q.at_

/-- A switch edge that the last two samples enclose gets its position (R250). -/
def edgeBetween (m : Int) (x : Axis) (w : SwitchSt) : SwitchSt :=
  match x.fbPrev, x.fb with
  | some p, some q => if encloses p q w.edgeAt then { w with edgePos := between p q m w.edgeAt } else w
  | _, _ => w

/-- A reference edge that was qualified before a sample enclosed it gets its position (R250). -/
def refineFound (m : Int) (x : Axis) : Axis :=
  match x.homing, x.fbPrev, x.fb with
  | some h, some p, some q =>
    match h.foundEdge with
    | some e => if encloses p q e then { x with homing := some { h with found := some (between p q m e), foundEdge := none } } else x
    | none => x
  | _, _, _ => x

/-- A probe latch is complete (R487, R510): the position of the latest one, the instant at which it is known, and what stood before. -/
def latchDone (now : Nat) (pos : Int) (p : ProbeSt) : ProbeSt :=
  { p with latest := some pos, latestAt := now, before := if p.latestAt < now then p.latest else p.before }

/-- Completes the probe records of an axis that the last two samples enclose (R434). -/
def probeBetween (a : Nat) (m : Int) (now : Nat) (x : Axis) (pr : ProbeSt) : ProbeSt :=
  match x.fbPrev, x.fb with
  | some p, some q =>
    let hit := fun (r : ProbeRec) => !r.done && r.src == 0x80 + a && encloses p q (r.stamp * nsU)
    let pos := fun (r : ProbeRec) => t24 (between p q m (r.stamp * nsU))
    let q1 := { pr with queue := pr.queue.map (fun r => if hit r then { r with done := true, valid := true, pos := pos r } else r) }
    pr.queue.foldl (fun c r => if hit r then latchDone now (pos r) c else c) q1
  | _, _ => pr

/-- Velocity of the last two valid samples in 2^-48 turn/s (R172). -/
def velOf (m : Int) (p q : Sample) (keep : Int) : Int :=
  if p.at_ < q.at_ then rdiv (shortDiff m (q.x - p.x) * tS) ((q.at_ : Int) - p.at_) else keep

/-- A valid sample of an axis is taken: the reading and its stamp (R166, R167, R172, R250, R434). -/
def takeSample (s : State) (a : Nat) (r : Int) (at_ : Nat) : State :=
  let x := s.axis a
  let (n, d) := scaleOf s a
  let m := modQ s a
  let acc := match x.lastRaw with
    | some l => readDiff r l * n + x.fbRem
    | none => r * n
  let base := match x.lastRaw with | some _ => x.rawUser | none => 0
  let user := base + acc / d
  let smp : Sample := { x := wrapPos m (user + x.shift), raw := r, at_ := at_ }
  let x1 := { x with
    sample := some (r, at_), fbThisCycle := true, fbValid := true, invalidRun := 0, lastRaw := some r, rawUser := user,
    fbRem := acc % d, fbPrev := x.fb, fb := some smp,
    vfb := match x.fb with | some p => velOf m p smp x.vfb | none => x.vfb }
  let ring := match sourceOf s a with | .enc _ => false | _ => true
  let x2 := if ring then
      { x1 with limPos := edgeBetween m x1 x1.limPos, limNeg := edgeBetween m x1 x1.limNeg, homeSw := edgeBetween m x1 x1.homeSw }
    else x1
  let s1 := s.onAxis a (fun _ => if ring then refineFound m x2 else x2)
  { s1 with loc := { s1.loc with probes := tmap s1.loc.probes (fun _ pr => probeBetween a m s.time.now x2 pr) } }

/-- A valid V_dc of an axis: it and the factor that it gives are kept (R180, R222). -/
def takeVdc (s : State) (a v : Nat) : State :=
  let nom := parN s Par.dclinkNom a
  s.onAxis a (fun x => { x with vdc := some v, dcFac := (4 * nom, max (4 * v) nom) })

/-- The sample of an axis is invalid in this cycle (R173, R187). -/
def missSample (s : State) (a : Nat) : State :=
  s.onAxis a (fun x => if x.fbThisCycle then x else
    { x with sample := none, fbThisCycle := true, fbValid := false, invalidRun := x.invalidRun + 1, fbInvalid := inc32 x.fbInvalid })

/-- The sample of a local axis in mode 4, once its position and both its currents are known (R422). -/
def joinLocal (s : State) (a : Nat) : State :=
  let x := s.axis a
  if x.fbThisCycle then s
  else match x.posPart, x.curPart with
    | some (some (r, at_)), some true => takeSample s a r at_
    | some _, some _ => missSample s a
    | _, _ => s

/-- The position of a local axis in this cycle: a reading with its stamp, or none where it is invalid (R422). -/
def localPosition (s : State) (a : Nat) (p : Option (Int × Nat)) : State :=
  if par s Par.axisMode a = 4 then joinLocal (s.onAxis a (fun x => { x with posPart := some p })) a
  else match p with
    | some (r, at_) => takeSample s a r at_
    | none => missSample s a

/-- Axes whose position source is an encoder channel. -/
def axesOnEnc (s : State) (ch : Nat) : List Nat := (allAxes s).filter (fun a => sourceOf s a == .enc ch)
/-- Axes whose position source is an SSI channel. -/
def axesOnSsi (s : State) (ch : Nat) : List Nat := (allAxes s).filter (fun a => sourceOf s a == .ssi ch)
/-- Axes geared to an encoder channel (R193). -/
def gearedToEnc (s : State) (ch : Nat) : List Nat :=
  (allAxes s).filter (fun a => (s.axis a).source == 3 && par s Par.masterKind a == 1 && parN s Par.masterIndex a == ch)

/-- A change of a count by an index reset moves x_fb and the stored samples of the axes on the channel (R429). -/
def shiftEnc (ch : Nat) (change : Int) (s : State) : State :=
  (axesOnEnc s ch).foldl (fun s a =>
    let (n, d) := scaleOf s a
    let u := rdiv (change * n) d
    let m := modQ s a
    let mv := fun (p : Sample) => { p with x := wrapPos m (p.x + u), raw := p.raw + change }
    s.onAxis a (fun x =>
      { x with lastRaw := x.lastRaw.map (· + change), rawUser := x.rawUser + u, fb := x.fb.map mv, fbPrev := x.fbPrev.map mv,
               xfb := wrapPos m (x.xfb + u) })) s

/-! ### Switch inputs (R250) -/

/-- A raw edge of an input at the switches of an axis. -/
def rawEdge (s : State) (n : Nat) (level : Bool) (a : Nat) : State :=
  [Switch.limPos, .limNeg, .home].foldl (fun s sw =>
    if switchDin s a sw = some n then
      let pos := match sourceOf s a with
        | .enc ch => wrapPos (modQ s a) (userAt s a (tget s.loc.encs {} ch).count)
        | _ => (s.axis a).xfb
      s.onAxis a (fun x => putSwitch x { switchOf x sw with raw := switchActive s a sw level, edgeAt := s.time.now, edgePos := pos } sw)
    else s) s

end Sys2Proof.Machine
end

