-- ==== Sys2Proof/Machine/LocalPwm.lean ====
section
/-! DEFINITION. The local PWM outputs (R392 to R419): the carrier and its update points, shadow registers, the sources that
drive the outputs, refresh pulses, trip inputs and the step generator. -/

namespace Sys2Proof.Machine

/-! ### The carrier (R394 to R396) -/

/-- A timer. -/
def State.timer (s : State) (k : Nat) : Timer := tget s.pwm.timers {} k
/-- Changes a timer. -/
def State.onTimer (s : State) (k : Nat) (f : Timer → Timer) : State :=
  { s with pwm := { s.pwm with timers := tmod s.pwm.timers {} k f } }

/-- Steps of 2.5 ns from a boundary to the mid-period, and from there to the next boundary (R394). -/
def halfSteps (saw : Bool) (n : Nat) : Nat × Nat := if saw then (n / 2, n - n / 2) else (n, n)

/-- The timer counts in sawtooth mode. -/
def isSaw (s : State) (k : Nat) : Bool := par s Par.pwmCountMode k == 1

/-- A half point is an update point under pwm_update (R396). -/
def isUpdate (s : State) (k : Nat) (mid : Bool) : Bool :=
  let u := par s Par.pwmUpdate k
  u == 2 || (u == 1) == mid

/-- The compare value of a bipolar Q1.23 duty against a period, rounded half to even (R395). -/
def compareOf (d : Int) (n : Nat) : Nat := (rdiv ((8388608 + d) * 4 * n) 16777216).toNat

/-- The carrier period in progress runs with compares of another period (R399). -/
def judgeMixed (t : Timer) : Timer := { t with mixed := t.mixed || decide (t.conv ≠ t.period) }

/-- The counter passes its mid-period: the carrier period in progress keeps the length that it began with (R394; log 35). -/
def passMid (s : State) (k : Nat) : State :=
  let b := (halfSteps (isSaw s k) (s.timer k).period).2
  s.onTimer k (fun t => { t with midAt := some t.nextAt, up := false, nextAt := t.nextAt + b * stepU })

/-- The counter passes a boundary, from which the period in force runs (R394). -/
def passBound (s : State) (k : Nat) : State :=
  let a := (halfSteps (isSaw s k) (s.timer k).period).1
  s.onTimer k (fun t => { t with boundAt := t.nextAt, up := true, nextAt := t.nextAt + a * stepU })

/-! ### Sources (R392, R400) -/

/-- The mode of the axis that a slot serves; 0 where it serves none. -/
def slotMode (s : State) (k : Nat) : Nat :=
  match axisOfSlot s.image k with | some a => parN s Par.axisMode a | none => 0

/-- The pairs of a timer that a mode uses (R392). -/
def usesPair (mode i : Nat) : Bool :=
  if mode = 4 ∨ mode = 6 then Nat.blt i 3 else if mode = 5 then Nat.blt i 2 else false

/-- The axis of the slot is enabled with power stage enable in its last committed control word (R400). -/
def driven (s : State) (k : Nat) : Bool :=
  match axisOfSlot s.image k with
  | some a => let x := s.axis a
    (match x.phase with | .disabled | .accepted _ _ => false | _ => true) && bitOf x.out.control 0
  | none => false

/-- The last committed control word of a mode-6 axis asks for shorted coils (R408, R409). -/
def coilsShorted (s : State) (k : Nat) : Bool :=
  match axisOfSlot s.image k with
  | some a => par s Par.axisMode a == 6 && bitOf (s.axis a).out.control 1
  | none => false

/-- The source of a pair at an update point (R400). -/
def sourceAt (s : State) (k i : Nat) : Nat :=
  if timerTripped s k then 1
  else if !(s.timer k).idleNext && driven s k && usesPair (slotMode s k) i then 3 else 4

/-- The source that a pair follows now: a refresh pulse in progress comes after a trip only (R400). -/
def pairSource (s : State) (p : PwmPair) : Nat :=
  if p.source = 1 then 1
  else match p.refreshEnd with
    | some e => if s.time.now < e then 2 else p.source
    | none => p.source

/-! ### Edges and dead time (R395, R397, R401) -/

/-- Output H is ideally on at an instant of the half of the carrier in progress, with a compare value (R395). -/
def idealOn (saw : Bool) (t : Timer) (c at_ : Nat) : Bool :=
  if saw || t.up then decide (at_ < t.boundAt + c * fineU) else decide (t.nextAt ≤ at_ + c * fineU)

/-- The instant at which the ideal level of H changes inside the half in progress, where it lies there. -/
def idealEdge (saw : Bool) (t : Timer) (c : Nat) : Nat := if saw || t.up then t.boundAt + c * fineU else t.nextAt - c * fineU

/-- The end of the ideal low that a refresh pulse is: dt_rise before the end of its width, so that L turns on dt_fall after its start and
H at its end (R401). -/
def refreshLowEnd (p : PwmPair) : Nat := match p.refreshEnd with | some e => e - p.dtRise * stepU | none => 0

/-- A refresh pulse holds the ideal level of H low. -/
def inRefresh (p : PwmPair) (at_ : Nat) : Bool := Nat.ble p.refreshAt at_ && Nat.blt at_ (refreshLowEnd p)

/-- The ideal level of H of pair `i` with a refresh pulse taken into account. -/
def idealNow (saw : Bool) (t : Timer) (i : Nat) (p : PwmPair) (at_ : Nat) : Bool :=
  idealOn saw t ((t.compares[i]?).getD 0) at_ && !inRefresh p at_

/-- The switch that the ideal level names has turned on. -/
def PwmPair.turnedOn (p : PwmPair) (at_ : Nat) : Bool := !p.blocked && Nat.ble p.onAt at_

/-- The last turn-offs where every switch that is on turns off at an instant. -/
def switchOff (at_ : Nat) (p : PwmPair) : PwmPair :=
  { p with hOff := if p.turnedOn at_ && p.ideal then at_ else p.hOff, lOff := if p.turnedOn at_ && !p.ideal then at_ else p.lOff,
           blocked := true }

/-- The ideal level of H changes (R397): the switch that was on turns off at once, its partner turns on after what is left of the dead
time since that partner's counterpart turned off. An edge that comes while a count runs cancels the turn-on, and both stay off until the
next edge. -/
def deadEdge (at_ : Nat) (new : Bool) (p : PwmPair) : PwmPair :=
  if new = p.ideal then p
  else
    let q := switchOff at_ p
    { q with ideal := new, blocked := !p.blocked && Nat.blt at_ p.onAt,
             onAt := max at_ (if new then q.lOff + p.dtRise * stepU else q.hOff + p.dtFall * stepU) }

/-- A pair begins to follow the carrier at an update point. -/
def startPair (at_ : Nat) (new : Bool) (p : PwmPair) : PwmPair :=
  { p with ideal := new, blocked := false, onAt := max at_ (if new then p.lOff + p.dtRise * stepU else p.hOff + p.dtFall * stepU) }

/-- The edges of a pair up to an instant of the half in progress. -/
def runPair (saw : Bool) (t : Timer) (i upTo : Nat) (p : PwmPair) : PwmPair :=
  let e := idealEdge saw t ((t.compares[i]?).getD 0)
  let r := refreshLowEnd p
  let q := [min e r, max e r].foldl (fun p at_ =>
    if p.seen < at_ ∧ at_ ≤ upTo then deadEdge at_ (idealNow saw t i p at_) p else p) p
  { q with seen := max p.seen upTo }

/-- The pair follows the carrier: source 3 in mode 4, or a bridge input of mode 6 whose coils are not shorted (R392, R400, R408). -/
def follows (mode : Nat) (shorted : Bool) (i source : Nat) : Bool :=
  source == 3 && (mode == 4 || (mode == 6 && Nat.blt i 2 && !shorted))

/-- H of pair `i` of a timer is on whatever the carrier does: the driver enable of mode 5, the bridge enable of mode 6 (R392, R407,
R408). -/
def enablePair (mode i : Nat) : Bool := (mode == 5 && i == 1) || (mode == 6 && i == 2)

/-- H of a pair has been on through the whole carrier period that began at an instant (R401). -/
def fullPeriod (mode : Nat) (t : Timer) (i start : Nat) (p : PwmPair) : Bool :=
  p.source == 3 && Nat.ble p.onAt start && (match p.refreshEnd with | some e => Nat.ble e start | none => true) &&
    (if follows mode t.shorted i p.source then p.ideal && !p.blocked else enablePair mode i)

/-- What the end of a carrier period does: the counts of 100 % periods restart or go on (R401), and a period that ran with
compares of another period is counted (R399). -/
def endPeriod (s : State) (k : Nat) : State :=
  let t := s.timer k
  let mode := slotMode s k
  let pairs := t.pairs.zipIdx.map (fun (p, i) =>
    if fullPeriod mode t i t.boundAt p then { p with fullPeriods := min (p.fullPeriods + 1) 255 } else { p with fullPeriods := 0 })
  let s1 := s.onTimer k (fun t => { t with pairs := pairs, mixed := false,
                                           inconsistent := if t.mixed then inc32 t.inconsistent else t.inconsistent })
  if t.mixed then raiseWarn s1 Ev.pwmInconsistent Kind.channel k else s1

/-- The edges of every pair of a timer up to an instant. -/
def runPairs (s : State) (k upTo : Nat) : State :=
  let saw := isSaw s k
  let mode := slotMode s k
  s.onTimer k (fun t => { t with pairs := t.pairs.zipIdx.map (fun (p, i) =>
    if follows mode t.shorted i p.source then runPair saw t i upTo p else p) })

/-- The edge at a half point, at which the carrier goes on into its next half. -/
def edgePairs (s : State) (k at_ : Nat) : State :=
  let saw := isSaw s k
  let mode := slotMode s k
  s.onTimer k (fun t => { t with pairs := t.pairs.zipIdx.map (fun (p, i) =>
    if follows mode t.shorted i p.source then { deadEdge at_ (idealNow saw t i p at_) p with seen := at_ } else p) })

/-- The counter passes its next half point, which is no update point. -/
def passHalf (s : State) (k : Nat) : State :=
  let u := (s.timer k).nextAt
  let s1 := runPairs s k (u - 1)
  let s2 := if (s.timer k).up then passMid s1 k else (passBound (endPeriod s1 k) k).onTimer k judgeMixed
  edgePairs s2 k u

/-! ### Commit and transfer (R398, R399) -/

/-- A new pwm_period reaches the period shadow at a tick (R398). -/
def pwmPeriodTick (s : State) (k : Nat) : State := s.onTimer k (fun t => { t with shadowPeriod := parN s Par.pwmPeriod k })

/-- The transfer at an update point (R398, R399): a commit counts that is stamped at or before it. -/
def transfer (immediate : Bool) (u : Nat) (t : Timer) : Timer :=
  if t.committed && Nat.blt u t.commitAt then t
  else if immediate then
    { t with period := t.shadowPeriod, compares := t.shadows, conv := t.shadowConv, committed := false }
  else
    let t1 := if !t.committed && t.shadowPeriod != t.period then
        { t with shadows := t.duties.map (fun d => compareOf d t.shadowPeriod), shadowConv := t.shadowPeriod, committed := true }
      else t
    if t1.committed then
      let sh := if t1.shadowConv = t1.shadowPeriod then t1.shadows else t1.duties.map (fun d => compareOf d t1.shadowPeriod)
      { t1 with period := t1.shadowPeriod, compares := sh, shadows := sh, shadowConv := t1.shadowPeriod,
                conv := t1.shadowPeriod, committed := false }
    else t1

/-- The law output of a slot's axis commits: the duties are converted against the period shadow (R398, R399). A commit stamped at an update
point that has just passed is taken at it. -/
def pwmCommit (s : State) (k : Nat) (duties : List Int) : State :=
  let s1 := s.onTimer k (fun t =>
    { t with duties := duties, shadows := duties.map (fun d => compareOf d t.shadowPeriod), shadowConv := t.shadowPeriod,
             committed := true, commitAt := s.time.now })
  if (s.timer k).updatedAt = some s.time.now then s1.onTimer k (transfer (par s Par.shadowMode k == 1) s.time.now) else s1

/-! ### The step generator of mode 5 (R407) -/

/-- How many steps of `n` fit when they are spaced at `gap` over `span`. -/
def stepsFit (span gap n : Nat) : Nat := min n (cdivN span (max gap 1))

/-- The instant of step `i` of a run, rounded down to 2.5 ns (R407). -/
def stepInstant (r : StepRun) (gap i : Nat) : Nat :=
  let off := if r.spaced then i * gap else i * r.span / max r.count 1
  r.start + off / stepU * stepU

/-- The distance at which an axis spaces steps that would lie closer (R407). -/
def stepGap (s : State) (a : Nat) : Nat := 2 * parN s Par.stepWidth a * stepU

/-- The steps of the run in progress that have not begun by an instant, with their sign. -/
def stepsLeft (t : Timer) (gap u : Nat) : Int :=
  match t.steps with
  | some r =>
    let n := ((List.range r.count).filter (fun i => Nat.ble u (stepInstant r gap i))).length
    if t.dirNeg then -(n : Int) else n
  | none => 0

/-- A run of steps begins at an update point: `owed` steps over the interval `every` (R407). -/
def runSteps (s : State) (k a u every : Nat) (owed : Int) : State :=
  let t := s.timer k
  let neg := decide (owed < 0)
  let d := if neg != t.dirNeg then parN s Par.dirSetup a * stepU else 0
  let span := every - d
  let n := owed.natAbs
  let gap := stepGap s a
  let tight := decide (2 ≤ n ∧ span < n * gap)
  let m := if span = 0 then 0 else if tight then stepsFit span gap n else n
  let sent : Int := if neg then -(m : Int) else m
  let s1 := s.onTimer k (fun t =>
    { t with dirNeg := neg, owed := owed - sent, stepPos := signed 48 (twos 48 (t.stepPos + sent)), stepEvery := every,
             steps := some { start := u + d, span := span, count := m, spaced := tight },
             stepLimited := if tight then inc32 t.stepLimited else t.stepLimited })
  if tight then raiseWarn s1 Ev.stepRateLimit Kind.axis a else s1

/-- The steps from an update point on (R407): a new target counts from the steps sent by then, those of the run in progress that have not
begun included in what is owed. Without one the run in progress goes on, then what it left follows in the next interval. -/
def takeSteps (s : State) (k : Nat) (u : Nat) : State :=
  match axisOfSlot s.image k with
  | none => s
  | some a =>
    if parN s Par.axisMode a ≠ 5 then s
    else
      let t := s.timer k
      match t.target with
      | some (goal, every) =>
        let sent := t.stepPos - stepsLeft t (stepGap s a) u
        let owed := signed 48 (twos 48 (goal - sent))
        let s1 := s.onTimer k (fun t => { t with target := none, stepPos := signed 48 (twos 48 sent), owed := 0, steps := none, stepEvery := every })
        if owed = 0 then s1 else runSteps s1 k a u every owed
      | none =>
        match t.steps with
        | some r =>
          if u < r.start + r.span then s
          else if t.owed = 0 then s.onTimer k (fun t => { t with steps := none })
          else runSteps s k a u t.stepEvery t.owed
        | none => s

/-! ### PWM_UPDATE_POINT -/

/-- A pair at an update point: its source, the dead times that have taken effect, and its edge where it follows the carrier (R396, R397,
R400, R410). A switch that safe levels held on turns off here. -/
def pairAtUpdate (s : State) (k : Nat) (was : Bool) (u i : Nat) (p : PwmPair) : PwmPair :=
  let t := s.timer k
  let src := sourceAt s k i
  let held := p.source == 1 && src != 1
  let p1 := { p with source := src, onAt := if src = 3 ∧ p.source ≠ 3 then u else p.onAt, dtRise := parN s Par.dtRise (3 * k + i), dtFall := parN s Par.dtFall (3 * k + i), seen := u,
                     hOff := if held && par s Par.safeH (3 * k + i) == 1 then u else p.hOff,
                     lOff := if held && par s Par.safeL (3 * k + i) == 1 then u else p.lOff }
  let on := idealNow (isSaw s k) t i p1 u
  if follows (slotMode s k) t.shorted i src then if was then deadEdge u on p1 else startPair u on p1
  else if was then switchOff u p1 else p1

/-- What happens at the update point of a timer (R396, R398 to R400, R407, R408, R410, R414). -/
def updateAt (s : State) (k : Nat) : State :=
  let t := s.timer k
  let u := t.nextAt
  let s1 := runPairs s k (u - 1)
  let s2 := (if t.up then passMid s1 k else endPeriod s1 k).onTimer k (fun t =>
    { transfer (par s Par.shadowMode k == 1) u t with updatedAt := some u })
  let s3 := takeSteps ((if t.up then s2 else passBound s2 k).onTimer k judgeMixed) k u
  let mode := slotMode s3 k
  let s4 := s3.onTimer k (fun t => { t with
    brPeriods := parN s3 Par.bootRefreshPeriods k, brWidth := parN s3 Par.bootRefreshWidth k, shorted := coilsShorted s3 k })
  let s5 := s4.onTimer k (fun w => { w with
    pairs := w.pairs.zipIdx.map (fun (p, i) => pairAtUpdate s4 k (follows mode t.shorted i p.source) u i p),
    idleNext := w.idleNext && driven s3 k })
  match axisOfSlot s.image k with
  | some a =>
    let x := s5.axis a
    -- the apply instant of a local axis (R185, R396)
    match x.out.commitAt with
    | some c => if c ≤ u then s5.onAxis a (fun x => { x with applyStamp := some u, applySmp := x.out.smpAt, out := { x.out with commitAt := none } }) else s5
    | none => s5
  | none => s5

/-- PWM_UPDATE_POINT (R396, R398): the next update point of a running timer. -/
def execPwmUpdatePoint (timer : Nat) (s0 : State) : Out :=
  let t := s0.timer timer
  if !t.running then .next s0
  else
    let s := if isUpdate s0 timer t.up then s0 else passHalf (advanceTo t.nextAt s0) timer
    let u := (s.timer timer).nextAt
    let s1 := advanceTo u s
    if u ≤ s1.time.now then .next (updateAt s1 timer) else .next s1

/-- A boundary that is no update point and has come is passed. -/
def passBoundary (s : State) (k : Nat) : State :=
  let t := s.timer k
  if t.running && !t.up && !isUpdate s k false && Nat.ble t.nextAt s.time.now then passHalf s k else s

/-- BOOT_REFRESH (R401): after boot_refresh_periods at 100 % a refresh pulse is inserted at the boundary that has just passed. -/
def execBootRefresh (dt : Nat) (pair : Nat) (s0 : State) : Out :=
  let k := pair / 3
  let i := pair % 3
  let s := passBoundary (advance dt s0) k
  let t := s.timer k
  match t.pairs[i]? with
  | some p =>
    if t.running ∧ t.brWidth ≠ 0 ∧ p.source ≠ 1 ∧ t.brPeriods ≤ p.fullPeriods ∧ t.up ∧ s.time.now < t.boundAt + 2 * stepU then
      let now := t.boundAt
      let on := follows (slotMode s k) t.shorted i p.source
      let p1 := if on then runPair (isSaw s k) t i now p else p
      let p2 := { p1 with fullPeriods := 0, refreshAt := now, refreshEnd := some (now + t.brWidth * stepU) }
      .next (s.onTimer k (fun t => { t with
        refreshes := inc32 t.refreshes,
        pairs := t.pairs.set i (if on then deadEdge now (idealNow (isSaw s k) t i p2 now) p2 else p2) }))
    else .next s
  | none => .next s

/-! ### Trip inputs (R402 to R405) -/

/-- Timers that a trip input forces, of those present. -/
def trippedTimers (s : State) (j : Nat) : List Nat :=
  (List.range (slotCount s.var)).filter (fun k => bitOf (parN s Par.tripMap j) k)

/-- A trip forces the outputs of a timer at once and ends a dead-time count and a refresh pulse (R402). -/
def forceSafe (s : State) (k : Nat) : State :=
  let s1 := runPairs s k s.time.now
  let mode := slotMode s k
  s1.onTimer k (fun t => { t with pairs := t.pairs.zipIdx.map (fun (p, i) =>
    let q := if follows mode t.shorted i p.source then switchOff s.time.now p else p
    { q with source := 1, refreshEnd := none }) })

/-- The axis fault of a mapped timer: the axis is disabled without a stop ramp (R405). -/
def tripAxis (s : State) (k : Nat) : State :=
  match axisOfSlot s.image k with
  | some a =>
    let m := slotMode s k
    if 4 ≤ m ∧ m ≤ 6 then stoDisable (noteAxisFault s Ev.pwmTrip a) a else s
  | none => s

/-- A low level sets the latch, forces the mapped outputs and faults the mapped axes (R402, R405). -/
def setTrip (s : State) (j : Nat) : State :=
  let t : Trip := tget s.pwm.trips {} j
  if t.latched then { s with pwm := { s.pwm with trips := tput s.pwm.trips j { t with low := true } } }
  else
    let s1 := { s with pwm := { s.pwm with trips := tput s.pwm.trips j { t with low := true, latched := true, count := inc32 t.count } } }
    let s2 := (trippedTimers s j).foldl forceSafe s1
    let s3 := raiseWarn s2 Ev.pwmTrip Kind.channel j
    (trippedTimers s j).foldl tripAxis s3

/-- TRIP_INPUT (R402, R405). The path works without the time clock. In OFF and STANDBY the latches have no supply, and only the level at the
ball is known, for the boot that follows. -/
def execTripInput (dt : Nat) (input : Nat) (low : Bool) (s0 : State) : Out :=
  let s := advance dt s0
  if input < 4 ∧ hasLocal s.var then
    if low ∧ s.dev.mode ≠ .off ∧ s.dev.mode ≠ .standby then .next (setTrip s input)
    else .next { s with pwm := { s.pwm with trips := tmod s.pwm.trips {} input (fun t => { t with low := low }) } }
  else .next s

/-- The inputs that are low at the end of a reset set their latches (R402, R405). -/
def lowTrips (s : State) : State :=
  (List.range 4).foldl (fun s j => if (tget s.pwm.trips {} j).low && hasLocal s.var then setTrip s j else s) s

/-- PWM_TRIP_CLEAR (R404, R416): the outputs pass to their next source at the next update point. -/
def pwmTripClearBody (s : State) (q : Request) (_ : Nat) : Reply :=
  let p := q.payload
  let j := uAt p 0 1
  need (Nat.blt j 4 && resv p 1 3) <|
  orElse (!(tget s.pwm.trips {} j).low) St.tripStillActive <|
  .ok { s with pwm := { s.pwm with trips := tmod s.pwm.trips {} j (fun t => { t with latched := false }) } } []

/-- PWM_STATUS (R406, R677). -/
def pwmStatusBody (s : State) (q : Request) (_ : Nat) : Reply :=
  let p := q.payload
  let k := uAt p 0 1
  inst k 8 (slotCount s.var) <|
  need (resv p 1 3) <|
  let t := s.timer k
  let latch := (List.range 4).foldl (fun n j =>
    if (tget s.pwm.trips {} j).latched && bitOf (parN s Par.tripMap j) k then n + 2 ^ j else n) 0
  .ok s (b8 k ++ b8 latch ++ t.pairs.flatMap (fun p => b8 (pairSource s p)) ++ zeros 3 ++ b32 t.inconsistent ++
    b32 t.refreshes ++ b32 t.stepLimited)

/-- PWM_TRIP_CLEAR -/
def execPwmTripClear (dt : Nat) (q : Request) (s : State) : Out := .next (serve Cmd.pwmTripClear pwmTripClearBody dt q s)
/-- PWM_STATUS -/
def execPwmStatus (dt : Nat) (q : Request) (s : State) : Out := .next (serve Cmd.pwmStatus pwmStatusBody dt q s)

/-! ### Start and stop with the cycle (R394) -/

/-- The timers start with the first tick of the cycle: the first boundary lies pwm_phase after it. -/
def startTimers (s : State) : State :=
  (List.range (slotCount s.var)).foldl (fun s k =>
    let n := parN s Par.pwmPeriod k
    s.onTimer k (fun t =>
      { ({} : Timer) with
        running := true, period := n, shadowPeriod := n, conv := n, shadowConv := n, stepPos := t.stepPos,
        compares := [compareOf 0 n, compareOf 0 n, compareOf 0 n], shadows := [compareOf 0 n, compareOf 0 n, compareOf 0 n],
        nextAt := s.cyc.t0 + parN s Par.pwmPhase k * stepU,
        brPeriods := parN s Par.bootRefreshPeriods k, brWidth := parN s Par.bootRefreshWidth k,
        pairs := (List.range 3).map (fun i =>
          { source := if timerTripped s k then 1 else 4, dtRise := parN s Par.dtRise (3 * k + i), dtFall := parN s Par.dtFall (3 * k + i) }) })) s

/-- The counters stop at CYCLE_STOP. -/
def stopTimers (s : State) : State :=
  { s with pwm := { s.pwm with timers := tmap s.pwm.timers (fun _ t =>
      { t with running := false, steps := none, owed := 0, target := none,
               pairs := t.pairs.map (fun p => { p with source := if p.source = 1 then 1 else 4, refreshEnd := none }) }) } }

end Sys2Proof.Machine
end

