-- ==== Sys2Proof/Machine/Quant.lean ====
section
/-! DEFINITION. The values of signals that calipers rows and shavings rows take (R487, R488, R610). -/

namespace Sys2Proof.Machine

/-- Motion diagnostics 0x4250.01 to 0x4250.07 (R274). -/
def diag250 (s : State) (a sub : Nat) : Int :=
  let x := s.axis a
  match sub with
  | 1 => profStateOf s a
  | 2 => x.queue.length
  | 3 => t24 (reportedWay s a).2
  | 4 => bit x.homed
  | 5 => t24 x.homeRef
  | 6 => x.homeEdges
  | _ => t24 (wrapPos (modQ s a) (reportedWay s a).1)

/-- Diagnostics of the current law 0x4154.01 to 0x4154.08 (R234); 0 in other modes than 3 and 4 (R488). -/
def diag54Of (s : State) (a sub : Nat) : Int :=
  let x := s.axis a
  match sub with
  | 7 => x.voltLimited
  | 8 => x.applyMissed
  | _ => if par s Par.axisMode a = 3 ∨ par s Par.axisMode a = 4 then tget x.diag54 0 sub else 0

/-- A quantity of an axis (R488). -/
def axisQuantity (s : State) (a q : Nat) : Int :=
  let x := s.axis a
  if q ≤ 9 then diag40 s a q
  else if q = 10 then t24 (wrapPos (modQ s a) x.kin.x)
  else if q = 11 then t24 x.kin.v
  else if q = 12 then t24 x.kin.a
  else if q ≤ 18 then diag54Of s a (q - 12)
  else diag250 s a (q - 18)

/-- The axis is enabled and in the active plan, or virtual: its quantities are not 0 in rows (R511). -/
def axisInRow (s : State) (a : Nat) : Bool :=
  (match (s.axis a).phase with | .disabled | .accepted _ _ => false | _ => true) &&
  ((sliceOf s.image a).isSome || par s Par.axisMode a == 7)

/-- A signal code names something that this part has (R487). -/
def signalHere (s : State) (code : Nat) : Bool :=
  let n := slotCount s.var
  if code < 0x80 then Nat.blt code (axisCount s.var)
  else if code < 0x90 then Nat.blt (code - 0x80) (2 * n)
  else if code < 0x98 then Nat.blt (code - 0x90) n
  else if code < 0xA0 then Nat.blt (code - 0x98) n
  else if code < 0xA8 then Nat.blt (code - 0xA0) n
  else if code < 0xC0 then Nat.blt (code - 0xA8) (3 * n)
  else if code < 0x100 then false
  else Nat.blt code 0x200

/-- enc_speed of a channel in T24.F24 (R431). -/
def encSpeed (e : EncCh) : Int := t24 e.speed

/-- The value of a signal (R487); `lines` are the sources that count as raised for event lines. -/
def signalValue (s : State) (lines : List Nat) (code q : Nat) : Int :=
  if !signalHere s code then 0
  else if code < 0x80 then (if axisInRow s code then axisQuantity s code q else 0)
  else if code < 0x90 then (tget s.loc.adc.results {} (code - 0x80)).value
  else if code < 0x98 then (tget s.loc.encs {} (code - 0x90)).count
  else if code < 0xA0 then encSpeed (tget s.loc.encs {} (code - 0x98))
  else if code < 0xA8 then ((tget s.loc.probes {} (code - 0xA0)).latest).getD 0
  else if code < 0xC0 then bit (tget s.loc.dins {} (code - 0xA8)).level
  else bit (lines.contains (code - 0x100))

end Sys2Proof.Machine
end

