-- ==== Sys2Proof/Machine/Calipers.lean ====
section
/-! DEFINITION. The calipers (R487 to R512): rows, triggers, segments, mask tests, memory and spill, several devices on one
trigger bus, channel skew, and the calipers commands. -/

namespace Sys2Proof.Machine

/-- Changes the calipers. -/
def State.onCal (s : State) (f : Calipers → Calipers) : State := { s with cal := f s.cal }

/-- The record is armed or capturing. -/
def calBusy (s : State) : Bool := s.cal.state == 1 || s.cal.state == 2

/-- The capture SRAM is powered (R505). -/
def captureOn (s : State) : Bool := !s.dma.domainsOff.contains 0

/-! ### Configuration (R487, R489, R494, R499, R506) -/

/-- Bytes of the capture SRAM. -/
abbrev captureSize : Nat := 4194304

/-- Entry `i` of the segment list; an entry that was never written takes the trigger row alone (log 5). -/
def segEntry (s : State) (len i : Nat) : Nat × Nat := tget s.cal.segList (0, 1) (min i (len - 1))

/-- Width of a channel's value. -/
def CapCh.width (c : CapCh) : Nat := capWidth c.signal c.quantity

/-- The configuration that the parameters give. -/
def calConfOf (s : State) : CalConf :=
  { rowClock := parN s Par.calRowClock 0, segments := parN s Par.calSegments 0, listLen := parN s Par.segListLen 0,
    kind := parN s Par.trigKind 0, channel := parN s Par.trigChannel 0, dir := parN s Par.trigDir 0,
    level := par s Par.trigLevel 0, hyst := par s Par.trigHyst 0, high := par s Par.trigHigh 0, index := parN s Par.trigIndex 0,
    maskEnable := par s Par.maskEnable 0 == 1, spill := par s Par.spillEnable 0 == 1, spillBase := parN s Par.spillBase 0 * 4096,
    spillSize := parN s Par.spillSize 0 * 4096,
    chans := (List.range (parN s Par.calChannels 0)).map (fun c =>
      { signal := parN s Par.capSignal c, quantity := parN s Par.capQuantity c, maskPoints := parN s Par.maskPoints c,
        maskStart := par s Par.maskStart c }) }

/-- Bytes of a row (R489). -/
def CalConf.rowBytes (c : CalConf) : Nat :=
  (if c.rowClock = 0 then 0 else 4) + c.chans.foldl (fun n ch => n + ch.width) 0

/-- Bytes of the list and the envelopes (R499). -/
def CalConf.fixedBytes (c : CalConf) : Nat :=
  4 * c.listLen + c.chans.foldl (fun n ch => n + 2 * ch.maskPoints * ch.width) 0

/-- Rows of the largest entry of the segment list. -/
def largestEntry (s : State) (len : Nat) : Nat :=
  let written := s.cal.segList.filter (fun e => Nat.blt e.1 len)
  written.foldl (fun n e => max n (e.2.1 + e.2.2)) (if written.length < len then 1 else 0)

/-- Inputs that the runs of a row clock convert. -/
def runInputs (s : State) (clock : Nat) : List Nat :=
  if clock < 0x20 then
    let q := clock - 0x10
    (List.range (parN s Par.seqLength q)).map (fun e => parN s (Par.seqEntry0 + e) q)
  else
    let i := clock - 0x20
    match axisOfSlot s.image i with
    | some a => if par s Par.axisMode a = 4 then [2 * i, 2 * i + 1]
                else (List.range (parN s Par.injLength i)).map (fun e => parN s (Par.injEntry0 + e) i)
    | none => (List.range (parN s Par.injLength i)).map (fun e => parN s (Par.injEntry0 + e) i)

/-- A channel may be recorded under a row clock (R487, R489). -/
def chanFits (s : State) (c : CalConf) (ch : CapCh) : Bool :=
  signalHere s ch.signal &&
  (c.rowClock == 0 || (Nat.ble 0x80 ch.signal && Nat.blt ch.signal 0x90 && (runInputs s c.rowClock).contains (ch.signal - 0x80)))

/-- All envelope points of a channel have been written at its present width (R679). -/
def maskWritten (s : State) (i : Nat) (ch : CapCh) : Bool :=
  ch.maskPoints == 0 ||
  (tget s.cal.maskWidth 0 i == ch.width &&
    (List.range ch.maskPoints).all (fun p =>
      (tfind (tget s.cal.masks [] (2 * i)) p).isSome && (tfind (tget s.cal.masks [] (2 * i + 1)) p).isSome))

/-- CAL_ARM accepts the configuration (R487, R489, R499, R515, R679). -/
def confFits (s : State) (c : CalConf) : Bool :=
  c.chans.all (chanFits s c) && c.chans.zipIdx.all (fun (ch, i) => maskWritten s i ch) &&
  (!(Nat.ble 1 c.kind && Nat.ble c.kind 3) || Nat.blt c.channel c.chans.length) && (c.kind != 5 || Nat.blt c.index 4) &&
  (!c.spill || Nat.ble (c.spillBase + c.spillSize) (ddrEnd s))

/-! ### The trigger bus (R493, R501 to R503) -/

/-- The device itself pulls a line low now. -/
def drivesNow (s : State) (line : Nat) : Bool :=
  match tfind s.cal.busPulse line with
  | some (a, b) => Nat.ble a s.time.now && Nat.blt s.time.now b
  | none => false

/-! ### Segments (R494 to R497) -/

/-- Short pre-trigger part (R495). -/
def shortPre (s : State) (c : CalConf) : Bool := Nat.blt s.cal.preCount (segEntry s c.listLen s.cal.segNo).1

/-- The bytes of a row; at ADC rate its instant less the trigger stamp leads, in ns (R489). -/
def calRowBytes (c : CalConf) (trig : Nat) (r : CalRow) : Bytes :=
  (if c.rowClock = 0 then [] else sleBytes 4 (clampI (((r.at_ : Int) - trig) / nsU) (-2147483648) 2147483647)) ++
    (c.chans.zip r.values).flatMap (fun (ch, v) => sleBytes ch.width v)

/-- A mask violation: row in the segment, channel, side (R498). -/
structure Violation where
  row : Nat
  chan : Nat
  side : Nat

/-- Tick number of the first row of a segment whose rows are the ticks; else 0 (R497). -/
def firstRowTick (s : State) (c : CalConf) : List CalRow → Nat
  | r :: _ => if c.rowClock = 0 then r.at_ / nsU / s.period else 0
  | [] => 0

/-- Row, channel and side of a violation in the header (R497). -/
def violBytes : Option Violation → Bytes
  | some v => b32 v.row ++ b8 v.chan ++ b8 v.side
  | none => b32 0xFFFFFFFF ++ b8 0xFF ++ b8 0

/-- The 64-byte header (R497). -/
def segHeader (s : State) (c : CalConf) (rows : List CalRow) (v : Option Violation) (cut : Bool) : Bytes :=
  let k := s.cal
  let trig := k.trigAt.getD 0
  let post := rows.length - k.preCount
  List.flatten [
    b32 k.segNo, b8 (bit v.isSome + 2 * bit (shortPre s c) + 4 * bit (k.syncState == 2) + 8 * bit cut), b8 k.trigSrc,
    timeBytes (trig / nsU), b16 (trig % nsU / 65536), zeros 2, b32 (rows.length - post), b32 post, b32 k.dead,
    b32 k.trigMissed, sleBytes 4 k.trigSync, b32 (firstRowTick s c rows), violBytes v, b16 c.rowBytes,
    b32 (64 + rows.length * c.rowBytes), zeros 8]

/-- Bytes that a segment of an entry of the list takes (R494, R497). -/
def segBytes (s : State) (c : CalConf) (i : Nat) : Nat := 64 + ((segEntry s c.listLen i).1 + (segEntry s c.listLen i).2) * c.rowBytes

/-- Where the segment after one that ends at an address begins: right behind it; with spill the memory is a circular buffer, in which a segment
that would not fit before the end begins anew at its start (R499; log 24). -/
def segStart (s : State) (c : CalConf) (i addr : Nat) : Nat :=
  if c.spill && Nat.blt captureSize (addr + segBytes s c i) then c.fixedBytes else addr

/-- The segment in progress gets its header and is readable (R496, R497, R499, R500); with spill channel 23 copies it. -/
def closeSegment (s : State) (c : CalConf) (v : Option Violation) (cut : Bool) : State :=
  let k := s.cal
  let rows := k.rows
  let bytes := segHeader s c rows v cut ++ rows.flatMap (calRowBytes c (k.trigAt.getD 0))
  let len := bytes.length
  let s1 : State := { s with mem := { s.mem with capture := memPaste s.mem.capture k.nextAddr len (cellsFrom 0 bytes) } }
  let s2 := s1.onCal (fun k => { k with
    segments := k.segments + 1, nextAddr := segStart s c (k.segNo + 1) (k.nextAddr + len), rows := [],
    done := k.done ++ [{ number := k.segNo, inDdr := false, addr := k.nextAddr, len := len }] })
  if c.spill then spillStart s2 else s2

/-- The record stops (R496): a segment cut short is closed, CAL_STOPPED is raised and CAL_ARM completes. -/
def calStop (s : State) (reason : Nat) : State :=
  if !calBusy s then s
  else
    let s1 := match s.cal.conf with
      | some c => if s.cal.state = 2 ∧ s.cal.rows ≠ [] then closeSegment s c none true else s
      | none => s
    let s2 := s1.onCal (fun k => { k with state := 3, stopReason := reason, trigAt := none, pre := [], rows := [] })
    finish (raiseInfo s2 Ev.calStopped 0 0 reason) Cmd.calArm 0 St.ok (b8 reason ++ zeros 3 ++ b32 s2.cal.segments)

/-- After a complete segment the unit re-arms, or the record stops (R495, R496). -/
def nextSegment (s : State) (c : CalConf) (last : Nat) : State :=
  if c.segments ≤ s.cal.segNo + 1 then
    let s1 := s.onCal (fun k => { k with rows := [], trigAt := none })
    calStop s1 1
  else
    let d := (Config.rearmNs s.free).val
    { s.onCal (fun k => { k with
        state := 1, segNo := k.segNo + 1, pre := [], rows := [], preCount := 0, trigAt := none,
        trigMissed := k.missedNext, missedNext := 0, sawLow := false, sawHigh := false, fresh := true, rearmAt := last + d * nsU, dead := d }) with
      free := s.free + 1 }

/-! ### Triggers (R490 to R493, R507, R508) -/

/-- What a row makes of the channel conditions (R490): the condition holds, and the memory of it. -/
def condition (c : CalConf) (k : Calipers) (v : Int) : Bool × Calipers :=
  match c.kind with
  | 1 =>
    let up := decide (c.level ≤ v) && k.sawLow
    let down := decide (v ≤ c.level) && k.sawHigh
    let hit := (c.dir != 1 && up) || (c.dir != 0 && down)
    (hit, { k with sawLow := (k.sawLow && !up) || decide (v < c.level - c.hyst),
                   sawHigh := (k.sawHigh && !down) || decide (c.level + c.hyst < v) })
  | 2 =>
    let hit := k.fresh && (if c.dir = 0 then decide (c.level ≤ v) else if c.dir = 1 then decide (v < c.level) else true)
    (hit, { k with fresh := k.fresh && !hit })
  | 3 =>
    let inside := decide (c.level ≤ v) && decide (v ≤ c.high)
    let hit := match k.wasIn with
      | some w => (c.dir != 1 && inside && !w) || (c.dir != 0 && !inside && w)
      | none => false
    (hit, { k with wasIn := some inside })
  | _ => (false, k)

/-! ### Rows (R489, R492, R498) -/

/-- A violation of the envelopes in a row of a segment (R498). -/
def rowViolates (s : State) (c : CalConf) (i : Nat) (r : CalRow) : Option Violation :=
  let idx : Int := (i : Int) - s.cal.preCount
  (c.chans.zipIdx.zip r.values).findSome? (fun ((ch, n), v) =>
    let p := idx - ch.maskStart
    if p < 0 ∨ (ch.maskPoints : Int) ≤ p then none
    else
      match tfind (tget s.cal.masks [] (2 * n)) p.toNat, tfind (tget s.cal.masks [] (2 * n + 1)) p.toNat with
      | some hi, some lo => if hi < v then some { row := i, chan := n, side := 1 }
                            else if v < lo then some { row := i, chan := n, side := 2 } else none
      | _, _ => none)

/-- The first violation among the rows of a segment from row `from_` on. -/
def firstViolation (s : State) (c : CalConf) (from_ : Nat) : Option Violation :=
  if !c.maskEnable then none
  else (s.cal.rows.zipIdx.filter (fun e => Nat.ble from_ e.2)).findSome? (fun (r, i) => rowViolates s c i r)

/-- Bytes of the complete segments that are not copied yet. -/
def uncopied (s : State) : Nat := (s.cal.done.filter (fun g => !g.inDdr)).foldl (fun n g => n + g.len) 0

/-- The rows of the segment fit the memory (R499): the capture SRAM; with spill, beside the segments not yet copied, and the remaining region. -/
def rowsFit (s : State) (c : CalConf) (n : Nat) : Bool :=
  let len := 64 + n * c.rowBytes
  let a := s.cal.nextAddr
  Nat.ble (a + len) captureSize &&
    (!c.spill || (Nat.ble (s.cal.spilled + uncopied s + len) c.spillSize &&
      s.cal.done.all (fun g => g.inDdr || Nat.ble (g.addr + g.len) a || Nat.ble (a + len) g.addr)))

/-- How many of the first `n` rows of the segment fit the memory (R499). -/
def rowRoom (s : State) (c : CalConf) : Nat → Nat
  | 0 => 0
  | n + 1 => if rowsFit s c (n + 1) then n + 1 else rowRoom s c n

/-- The newest rows of the segment, from row `from_` on, are judged: violation, memory, end (R495, R496, R498, R509). -/
def judgeRows (s : State) (c : CalConf) (from_ : Nat) : State :=
  let n := s.cal.rows.length
  let last := match s.cal.rows.getLast? with | some r => r.at_ | none => 0
  if !rowsFit s c n then calStop (s.onCal (fun k => { k with rows := k.rows.take (rowRoom s c n) })) (if c.spill then 4 else 3)
  else
    match firstViolation s c from_ with
    | some v =>
      let s1 := s.onCal (fun k => { k with rows := k.rows.take (v.row + 1) })
      let s2 := closeSegment s1 c (some v) (decide (v.row + 1 < s.cal.preCount + (segEntry s c.listLen s.cal.segNo).2))
      calStop (raiseWarn s2 Ev.calMaskFail Kind.channel v.chan) 2
    | none =>
      if s.cal.preCount + (segEntry s c.listLen s.cal.segNo).2 ≤ n then nextSegment (closeSegment s c none false) c last else s

/-- Event lines raised at or before an instant of units (R487). -/
def linesBy (s : State) (at_ : Nat) : List (Nat × Nat) := s.ev.lines.filter (fun e => Nat.ble (e.2 * nsU) at_)

/-- The capture begins with the rows at or after the stamp of the accepted trigger; those before it are the pre-trigger part (R492, R495). -/
def beginCapture (s : State) (c : CalConf) (pre post : List CalRow) : State :=
  judgeRows (s.onCal (fun k => { k with state := 2, preCount := pre.length, rows := pre ++ post, pre := [] })) c 0

/-- An accepted trigger whose stamp lies at or before rows that are already taken: the first of them is its trigger row (R492). -/
def settleTrigger (s : State) (c : CalConf) : State :=
  match s.cal.state, s.cal.trigAt with
  | 1, some t =>
    let before := s.cal.pre.filter (fun r => Nat.blt r.at_ t)
    let after := s.cal.pre.filter (fun r => !Nat.blt r.at_ t)
    if after = [] then s else beginCapture s c before after
  | _, _ => s

/-- A trigger between rows (R490 to R493). -/
def calTrigger (s : State) (stamp src : Nat) : State :=
  let s1 := acceptTrigger s stamp src
  match s1.cal.conf with
  | some c => settleTrigger s1 c
  | none => s1

/-- The trigger channel of the record carries a signal. -/
def trigSignal (s : State) : Option (CalConf × CapCh) :=
  match s.cal.conf with
  | some c => (c.chans[c.channel]?).map (fun ch => (c, ch))
  | none => none

/-- A latch of a probe triggers an edge trigger on its channel (R491). -/
def calProbe (s : State) (n stamp : Nat) : State :=
  match trigSignal s with
  | some (c, ch) =>
    if c.kind = 1 ∧ ch.signal = 0xA0 + n then calTrigger s ((stamp : Int) + tget s.cal.skewVals 0 c.channel * (nsU / 16 : Nat)).toNat 1
    else s
  | none => s

/-- A row is taken at an instant with its values (R489 to R498). -/
def takeRow (s0 : State) (c : CalConf) (r : CalRow) : State :=
  let s1 := settleTrigger s0 c
  let s2 : State := { s1 with ev := { s1.ev with lines := s1.ev.lines.filter (fun e => Nat.blt r.at_ (e.2 * nsU)) } }
  if r.at_ < s2.cal.rearmAt ∨ calBusy s2 = false then s2
  else
    let v := (r.values[c.channel]?).getD 0
    let probe : Bool := match c.chans[c.channel]? with | some ch => Nat.ble 0xA0 ch.signal && Nat.blt ch.signal 0xA8 | none => false
    let (hit, k) := if c.kind = 1 ∧ probe = true then (false, s2.cal) else condition c s2.cal v
    let s3 := s2.onCal (fun _ => { k with lastRow := some r.at_ })
    let stamp := if c.rowClock = 0 then r.at_ else ((r.at_ : Int) + tget s3.cal.skewVals 0 c.channel * (nsU / 16 : Nat)).toNat
    let s4 := if hit then acceptTrigger s3 stamp c.kind else s3
    if s4.cal.state = 2 then
      let n := s4.cal.rows.length
      judgeRows (s4.onCal (fun k => { k with rows := k.rows ++ [r] })) c n
    else
      -- a row that meets a channel condition is the trigger row itself (R492)
      let byRow := hit && decide (s4.cal.trigSrc = c.kind)
      let starts : Bool := match s4.cal.trigAt with | some t => decide (t ≤ r.at_) || byRow | none => false
      if starts then beginCapture s4 c s4.cal.pre [r]
      else s4.onCal (fun k => { k with pre := keepLast (segEntry s4 c.listLen k.segNo).1 (k.pre ++ [r]) })

/-- The position of a probe that a row at an instant shows: the latest latch that was complete before it (R510). -/
def probeShown (s : State) (n at_ : Nat) : Int :=
  let p : ProbeSt := tget s.loc.probes {} n
  (if p.latestAt < at_ then p.latest else p.before).getD 0

/-- The row of a tick is held with the values of the last committed cycle and of the tick, before anything of the new cycle moves them (R487 to
R489, R510). -/
def holdRow (s : State) : State :=
  match s.cal.conf with
  | some c =>
    if !calBusy s || c.rowClock != 0 then s
    else
      let at_ := s.cyc.t0
      let vals := c.chans.map (fun ch =>
        if 0xA0 ≤ ch.signal ∧ ch.signal < 0xA8 then (if signalHere s ch.signal then probeShown s (ch.signal - 0xA0) at_ else 0)
        else signalValue s [] ch.signal ch.quantity)
      s.onCal (fun k => { k with heldRow := some { at_ := at_, values := vals } })
  | none => s

/-- The values of a held row with the event lines raised since the row before it (R487). -/
def rowValues (s : State) (c : CalConf) (r : CalRow) : List Int :=
  let ls := (linesBy s r.at_).map (·.1)
  (c.chans.zip r.values).map (fun (ch, v) => if 0x100 ≤ ch.signal then bit (ls.contains (ch.signal - 0x100)) else v)

/-- The last complete run of the ADC, if there was one: the sampling instant of its first entry and its results. -/
def runDone (s : State) (inj : Bool) (i : Nat) : Option (Nat × List (Nat × AdcResult)) :=
  match tfind (if inj then s.loc.adc.injected else s.loc.adc.regular) i with
  | some r =>
    match r.last with
    | (_, f) :: _ => some (f.stamp, r.last)
    | [] => none
  | none => none

/-- The latest result of an input in a run. -/
def runResult (l : List (Nat × AdcResult)) (n : Nat) : Int :=
  l.foldl (fun v e => if e.1 = n then e.2.value else v) 0

/-- CAL_ROW (R489): at a tick, or at the end of an ADC run. -/
def execCalRow (dt : Nat) (run : Option (Bool × Nat)) (s0 : State) : Out :=
  let s := advance dt s0
  match s.cal.conf with
  | none => .next s
  | some c =>
    if !calBusy s then .next s
    else
      match run with
      | none =>
        match s.cal.heldRow with
        | some r => .next (takeRow (s.onCal (fun k => { k with heldRow := none })) c { r with values := rowValues s c r })
        | none => .next s
      | some (inj, i) =>
        if c.rowClock = (if inj then 0x20 else 0x10) + i then
          match runDone s inj i with
          | some (at_, l) =>
            if s.cal.lastRow = some at_ then .next s
            else .next (takeRow s c { at_ := at_, values := c.chans.map (fun ch => runResult l (ch.signal - 0x80)) })
          | none => .next s
        else .next s

/-! ### Commands (R505, R679) -/

/-- CAL_SEG_LIST (R494, R505). -/
def calSegListBody (s : State) (q : Request) (_ : Nat) : Reply :=
  let p := q.payload
  let i := uAt p 0 2
  let n := uAt p 2 1
  need (Nat.ble 1 n && Nat.ble n 60 && resv p 3 1 && Nat.ble (i + n) 65536 &&
    (List.range n).all (fun k => Nat.ble 1 (uAt p (6 + 4 * k) 2))) <|
  orElse (captureOn s && !calBusy s) St.badState <|
  .ok (s.onCal (fun c => { c with segList := (List.range n).foldl (fun t k =>
    tput t (i + k) (uAt p (4 + 4 * k) 2, uAt p (6 + 4 * k) 2)) c.segList })) []

/-- Container type of a channel's value (R487, R488). A value narrower than four bytes stands in four, as an unsigned number. -/
def capType (signal quantity : Nat) : PType :=
  let wide (d : Option PDef) : PType :=
    match d with
    | some d => if contLen d.ty < 4 then .u32 else d.ty
    | none => .u32
  if signal < 0x80 then
    if quantity ≤ 9 then wide (paramDef 0x4140 quantity)
    else if quantity ≤ 12 then .t24
    else if quantity ≤ 18 then wide (paramDef 0x4154 (quantity - 12))
    else wide (paramDef 0x4250 (quantity - 18))
  else if signal < 0x90 then .q23
  else if signal < 0xA8 then (if 0x98 ≤ signal ∧ signal < 0xA0 then .t24 else .s48)
  else .u24

/-- The value of an envelope point, which stands in the container of its channel's value; none where the container breaks R17
(R16, R17, R487, R488). -/
def maskPoint (s : State) (ch : Nat) (b : Bytes) : Option Int :=
  contVal (capType (parWritten s Par.capSignal ch).toNat (parWritten s Par.capQuantity ch).toNat) b

/-- CAL_MASK_WRITE (R17, R498, R679). -/
def calMaskWriteBody (s : State) (q : Request) (_ : Nat) : Reply :=
  let p := q.payload
  let ch := uAt p 0 1
  let side := uAt p 1 1
  let pt := uAt p 2 2
  let n := uAt p 4 1
  let w := capWidth (parWritten s Par.capSignal ch).toNat (parWritten s Par.capQuantity ch).toNat
  need (Nat.blt ch 32 && Nat.ble side 1 && resv p 5 3 && Nat.ble 1 n && Nat.ble n (if w = 8 then 30 else 60) &&
    Nat.ble (pt + n) 4096 && (List.range n).all (fun k => (maskPoint s ch (slice p (8 + w * k) w)).isSome)) <|
  orElse (captureOn s && !calBusy s) St.badState <|
  .ok (s.onCal (fun c =>
    let fresh := tget c.maskWidth 0 ch != w
    let m0 := if fresh then tdel (tdel c.masks (2 * ch)) (2 * ch + 1) else c.masks
    { c with maskWidth := tput c.maskWidth ch w,
             masks := tput m0 (2 * ch + side) ((List.range n).foldl (fun t k => tput t (pt + k) ((maskPoint s ch (slice p (8 + w * k) w)).getD 0))
               (tget m0 [] (2 * ch + side))) })) []

/-- A change of a channel's width leaves its envelope points unwritten (R679). -/
def dropMasks (s : State) (ch : Nat) : State :=
  let w := capWidth (parWritten s Par.capSignal ch).toNat (parWritten s Par.capQuantity ch).toNat
  if tget s.cal.maskWidth 0 ch = w then s
  else s.onCal (fun c => { c with masks := tdel (tdel c.masks (2 * ch)) (2 * ch + 1), maskWidth := tdel c.maskWidth ch })

/-- The copies of the record before are given up: its segments are no longer held (R496). -/
def dropSpill (s : State) : State := if (s.chan spillCh).busy then s.onChan spillCh (fun c => { c with state := dmaIdle, run := {}, held := false }) else s

/-- CAL_ARM (R494 to R496, R499). -/
def calArmBody (s0 : State) (q : Request) (t : Nat) : Reply :=
  orElse (captureOn s0 && !calBusy s0) St.badState <|
  let s := parPromote s0 (fun _ _ => true) .calArm
  let c := calConfOf s
  need (confFits s c) <|
  orElse (Nat.ble (c.fixedBytes + 64 + largestEntry s c.listLen * c.rowBytes) captureSize) St.calMemory <|
  .pend (addPend (({ dropSpill s with ev := { s.ev with lines := [] } } : State).onCal (fun k => { k with
    state := 1, stopReason := 0, conf := some c, pre := [], rows := [], preCount := 0, trigAt := none, trigSrc := 0,
    trigMissed := 0, missedNext := 0, sawLow := false, sawHigh := false, wasIn := none, fresh := true, segNo := 0, segments := 0, done := [],
    nextAddr := c.fixedBytes, rearmAt := t * nsU, dead := 0, lastRow := none, heldRow := none, spilled := 0 })) Cmd.calArm q)

/-- CAL_STOP (R496). -/
def calStopBody (s : State) (_ : Request) (_ : Nat) : Reply :=
  orElse (captureOn s) St.badState (.ok (calStop s 5) [])

/-- CAL_FORCE (R490, R679). -/
def calForceBody (s : State) (_ : Request) (t : Nat) : Reply :=
  orElse (captureOn s && s.cal.state == 1) St.badState (.ok (calTrigger s (t * nsU) 6) [])

/-- CAL_STATUS (R505, R679). -/
def calStatusBody (s : State) (_ : Request) (_ : Nat) : Reply :=
  let k := s.cal
  .ok s (b8 k.state ++ b8 k.stopReason ++ b8 k.syncState ++ zeros 1 ++ b32 k.segments ++ b64 k.spilled ++ c24 k.syncOffset)

/-- CAL_READ (R500, R679). -/
def calReadBody (s : State) (q : Request) (_ : Nat) : Reply :=
  let p := q.payload
  let off := uAt p 4 4
  let n := uAt p 8 1
  match s.cal.done.find? (fun g => g.number == uAt p 0 4) with
  | none => .err St.badParam []
  | some g =>
    need (Nat.ble 1 n && Nat.ble n 224 && resv p 9 3 && Nat.ble (off + n) g.len) <|
    .ok s (memRead (if g.inDdr then s.mem.ddr else s.mem.capture) (g.addr + off) n)

/-- CAL_SEG_LIST -/
def execCalSegList (dt : Nat) (q : Request) (s : State) : Out := .next (serve Cmd.calSegList calSegListBody dt q s)
/-- CAL_MASK_WRITE -/
def execCalMaskWrite (dt : Nat) (q : Request) (s : State) : Out := .next (serve Cmd.calMaskWrite calMaskWriteBody dt q s)
/-- CAL_ARM -/
def execCalArm (dt : Nat) (q : Request) (s : State) : Out := .next (serve Cmd.calArm calArmBody dt q s)
/-- CAL_STOP -/
def execCalStop (dt : Nat) (q : Request) (s : State) : Out := .next (serve Cmd.calStop calStopBody dt q s)
/-- CAL_FORCE -/
def execCalForce (dt : Nat) (q : Request) (s : State) : Out := .next (serve Cmd.calForce calForceBody dt q s)
/-- CAL_STATUS -/
def execCalStatus (dt : Nat) (q : Request) (s : State) : Out := .next (serve Cmd.calStatus calStatusBody dt q s)
/-- CAL_READ -/
def execCalRead (dt : Nat) (q : Request) (s : State) : Out := .next (serve Cmd.calRead (withRead Cmd.calRead calReadBody) dt q s)

/-! ### Channel skew (R504) -/

/-- CAL_SKEW_CALIBRATE (R504): 64 pulses of 10 µs at 1 ms on the named output, the first 10 µs after the completion
stamp (log 24). -/
def calSkewCalibrateBody (s : State) (q : Request) (t : Nat) : Reply :=
  let p := q.payload
  let n := uAt p 0 1
  need (Nat.blt n 8 && resv p 1 3) <|
  orElse (captureOn s && s.cal.skew == none) St.badState <|
  let first := (t + 10000) * nsU
  let s1 := s.onTout n (fun o => { o with mode := 2, start := first, width := 10000 * nsU, period := 1000000 * nsU, next := first })
  .pend (addPend (s1.onCal (fun k => { k with skew := some { tout := n, channels := uAt p 4 4, first := first } }))
    Cmd.calSkewCalibrate q)

/-- An edge of a channel less the programmed instant nearest to it, in 1/16 ns. -/
def skewEdge (k : SkewCal) (at_ : Int) : Int :=
  let ms : Int := 1000000 * nsU
  let d := at_ - k.first
  rdiv ((d - rdiv d ms * ms) * 16) nsU

/-- Notes an edge of a channel in a skew calibration, at most 64. -/
def noteSkew (s : State) (ch : Nat) (at_ : Int) : State :=
  match s.cal.skew with
  | some k =>
    if bitOf k.channels ch ∧ (tget k.edges [] ch).length < 64 then
      s.onCal (fun c => { c with skew := some { k with edges := tmod k.edges [] ch (· ++ [skewEdge k at_]) } })
    else s
  | none => s

/-- A probe latch in a skew calibration (R504). -/
def skewProbe (s : State) (n : Nat) (at_ : Nat) : State :=
  (List.range 32).foldl (fun s ch => if parN s Par.capSignal ch = 0xA0 + n then noteSkew s ch at_ else s) s

/-- The 50 % crossing of the rising edge in the results around a pulse, in units: between the first two results that enclose half of the span
from the smallest to the largest of them, by linear interpolation (R504; log 24). -/
def crossing (lo hi : Int) : List (Nat × Int) → Option Int
  | (t1, a) :: (t2, b) :: r =>
    if 2 * a < lo + hi ∧ lo + hi ≤ 2 * b then some ((t1 : Int) + ((t2 : Int) - t1) * (lo + hi - 2 * a) / (2 * (b - a)))
    else crossing lo hi ((t2, b) :: r)
  | _ => none

/-- The edge that the results around a pulse show. -/
def waveEdge (l : List (Nat × Int)) : Option Int :=
  match l with
  | [] => none
  | e :: r => crossing (r.foldl (fun m x => min m x.2) e.2) (r.foldl (fun m x => max m x.2) e.2) l

/-- The results gathered around a pulse of a channel are judged. -/
def endWave (s : State) (ch : Nat) : State :=
  match s.cal.skew with
  | none => s
  | some k =>
    let s1 := s.onCal (fun c => { c with skew := some { k with wave := tdel k.wave ch } })
    match waveEdge (tget k.wave (0, []) ch).2 with
    | some at_ => noteSkew s1 ch at_
    | none => s1

/-- A result of an analogue input in a skew calibration (R504): it belongs to the pulse whose programmed instant is nearest. -/
def skewAin (s : State) (n : Nat) (new : AdcResult) : State :=
  match s.cal.skew with
  | none => s
  | some k =>
    let pulse := (rdiv ((new.stamp : Int) - k.first) (1000000 * nsU : Nat)).toNat
    if new.stamp + 500000 * nsU < k.first ∨ 63 < pulse then s
    else
      (List.range 32).foldl (fun s ch =>
        if parN s Par.capSignal ch = 0x80 + n ∧ bitOf k.channels ch then
          let was := match s.cal.skew with | some k => (tget k.wave (pulse, []) ch).1 | none => pulse
          let s1 := if was ≠ pulse then endWave s ch else s
          s1.onCal (fun c => { c with skew := c.skew.map (fun k =>
            { k with wave := tput k.wave ch (pulse, (tget k.wave (pulse, []) ch).2 ++ [(new.stamp, new.value)]) }) })
        else s) s

/-- The calibration ends 1 ms after its last pulse (R504): channels with 32 edges or more get their new skew. -/
def skewEnd (s0 : State) : State :=
  let past : Bool := match s0.cal.skew with | some k => decide (k.first + 64000000 * nsU ≤ s0.time.now) | none => false
  let s := if past then (List.range 32).foldl endWave s0 else s0
  match s.cal.skew with
  | none => s
  | some k =>
    if past then
      let named := (List.range 32).filter (fun ch => bitOf k.channels ch)
      let good := named.filter (fun ch => Nat.ble 32 (tget k.edges [] ch).length)
      let vals := good.foldl (fun t ch => tput t ch (clampI (-(median (tget k.edges [] ch))) (-8388608) 8388607)) s.cal.skewVals
      let s1 := s.onCal (fun c => { c with skew := none, skewVals := vals })
      finish (s1.onTout k.tout (fun o => { o with mode := 0 })) Cmd.calSkewCalibrate 0
        (if good.length = named.length then St.ok else St.calSkewNoEdge)
    else s

/-- CAL_SKEW_STORE (R504, R679). -/
def calSkewStoreBody (s : State) (q : Request) (t : Nat) : Reply :=
  let p := q.payload
  let op := uAt p 0 1
  need (Nat.ble op 1 && resv p 1 3) <|
  orElse (captureOn s) St.badState <|
  if op = 0 then .ok (s.onCal (fun c => { c with skewStored := some c.skewVals })) []
  else match s.cal.skewStored with
    | some v => withRead Cmd.calSkewStore (fun s _ _ => .ok (s.onCal (fun c => { c with skewVals := v })) []) (fun s _ => s) s q t
    | none => .err St.calSkewNone []

/-- CAL_SKEW_CALIBRATE -/
def execCalSkewCalibrate (dt : Nat) (q : Request) (s : State) : Out :=
  .next (serve Cmd.calSkewCalibrate calSkewCalibrateBody dt q s)
/-- CAL_SKEW_STORE -/
def execCalSkewStore (dt : Nat) (q : Request) (s : State) : Out := .next (serve Cmd.calSkewStore calSkewStoreBody dt q s)

/-! ### Several devices (R501 to R503) -/

/-- CAL_BUS_MEASURE (R502): the first pulse leaves once line 0 has been high for 5 µs. -/
def calBusMeasureBody (s : State) (q : Request) (t : Nat) : Reply :=
  orElse (captureOn s && par s Par.busRole 0 == 2 && s.cal.bus == none) St.badState <|
  let at_ := max ((t + 5000) * nsU) (tget s.cal.busLowEnd 0 0 + 5000 * nsU)
  .pend (addPend (driveBus (s.onCal (fun c => { c with bus := some { drivenAt := some at_, started := t * nsU } })) 0 at_)
    Cmd.calBusMeasure q)

/-- CAL_BUS_MEASURE -/
def execCalBusMeasure (dt : Nat) (q : Request) (s : State) : Out := .next (serve Cmd.calBusMeasure calBusMeasureBody dt q s)

/-- An answer arrives at a follower that measures (R502). -/
def busAnswer (s : State) (b : BusCal) (drivenAt : Nat) : State :=
  let trip := (s.time.now : Int) - drivenAt
  if trip < 1000 * nsU ∨ 1200 * nsU < trip then s.onCal (fun c => { c with bus := some { b with drivenAt := none } })
  else
    let trips := b.trips ++ [trip]
    let next := s.time.now + 5200 * nsU
    if trips.length < 16 then
      driveBus (s.onCal (fun c => { c with bus := some { b with trips := trips, drivenAt := some next } })) b.line next
    else
      let d := (clampI (rdiv ((median trips - 1000 * nsU) * 16) (2 * nsU)) 0 1600).toNat
      let delays := b.delays ++ [d]
      if b.line < 3 then
        driveBus (s.onCal (fun c => { c with bus := some { b with line := b.line + 1, trips := [], delays := delays, drivenAt := some next } }))
          (b.line + 1) next
      else
        let s1 := s.onCal (fun c => { c with bus := none, busDelay := delays.zipIdx.map (fun (d, i) => (i, d)) })
        finish s1 Cmd.calBusMeasure 0 St.ok (delays.flatMap b16)

/-- TRIG_BUS_EDGE (R490, R493, R502, R503): a falling edge on a trigger-bus line, which stays low for 200 ns; a follower's own pulse waits until
the line has been high for 5 µs. -/
def execTrigBusEdge (dt : Nat) (line : Nat) (s0 : State) : Out :=
  let s1 := advance dt s0
  if 4 ≤ line ∨ !hasLocal s1.var ∨ drivesNow s1 line then .next s1
  else
    let s := s1.onCal (fun c => { c with busLowEnd := tput c.busLowEnd line (s1.time.now + 200 * nsU),
                                         busStamp := tput c.busStamp line (s1.time.now - busDelayU s1 line) })
    match s.cal.bus with
    | some b =>
      match b.drivenAt with
      | some d =>
        if b.line ≠ line then .next s
        else if d ≤ s.time.now then .next (busAnswer s b d)
        else
          let at_ := s.time.now + 5200 * nsU
          .next (driveBus (s.onCal (fun c => { c with bus := some { b with drivenAt := some at_ } })) line at_)
      | none => .next s
    | none =>
      let s1 := if par s Par.busRole 0 = 1 ∧ s.dev.mode = .config then driveBus s line (s.time.now + 1000 * nsU) else s
      match s1.cal.conf with
      | some c => if c.kind = 5 ∧ c.index = line then .next (calTrigger s1 (s.time.now - busDelayU s line) 5) else .next s1
      | none => .next s1

/-- CAL_BUS_RETRY_WAIT (R502): after a discarded round trip the follower drives its next pulse. -/
def execCalBusRetryWait (dt : Nat) (waitNs : Nat) (s0 : State) : Out :=
  let s := advance dt s0
  match s.cal.bus with
  | some b =>
    let discarded : Bool := match b.drivenAt with
      | none => true
      | some d => decide (d + 1200 * nsU < s.time.now)
    if discarded = true ∧ 5000 ≤ waitNs ∧ waitNs ≤ 50000 then
      let at_ := max s.time.now (tget s.cal.busLowEnd 0 b.line + 5000 * nsU)
      .next (driveBus (s.onCal (fun c => { c with bus := some { b with drivenAt := some at_ } })) b.line at_)
    else .next s
  | none => .next s

/-- CAL_NO_ECHO_TIMEOUT (R502). -/
def execCalNoEchoTimeout (dt : Nat) (s0 : State) : Out :=
  let s := advance dt s0
  match s.cal.bus with
  | some b =>
    if b.started + 100000000 * nsU ≤ s.time.now then
      .next (finish (s.onCal (fun c => { c with bus := none })) Cmd.calBusMeasure 0 St.calNoEcho)
    else .next s
  | none => .next s

/-- SYNC_CLK_EDGE (R501): a follower stamps the edge; medians are of blocks of 64 edges, each edge against the nearest
multiple of 40 ns (log 24). -/
def execSyncClkEdge (dt : Nat) (s0 : State) : Out :=
  let s := advance dt s0
  if par s Par.busRole 0 ≠ 2 ∨ !hasLocal s.var then .next s
  else
    let at_ := (s.time.now : Int) - busDelayU s 0
    let step : Int := 40 * nsU
    let diff := rdiv ((rdiv at_ step * step - at_) * 16) nsU
    let edges := s.cal.syncEdges ++ [diff]
    let s1 := s.onCal (fun c => { c with syncLast := some s.time.now, syncEdges := edges,
                                         syncState := if c.syncState = 0 ∨ c.syncState = 3 then 1 else c.syncState })
    if edges.length < 64 then .next s1
    else
      let meds := keepLast 16 (s1.cal.syncMedians ++ [median edges])
      let lo := meds.foldl min (median edges)
      let hi := meds.foldl max (median edges)
      .next (s1.onCal (fun c => { c with syncEdges := [], syncMedians := meds, syncOffset := median edges,
                                         syncState := if meds.length = 16 ∧ hi - lo ≤ 64 then 2 else 1 }))

/-- SYNC_CLK as a leader drives it (R501): a rising edge at every multiple of 40 ns of its device time; the spec does not give the duty, which is
taken as half (DESIGN CHOICE, log 24). -/
def syncClkHigh (s : State) : Bool := par s Par.busRole 0 == 1 && Nat.blt (s.time.now % (40 * nsU)) (20 * nsU)

/-- SYNC_CLK_LOST (R501): no edge for 10 µs, counted from the last one, or from the write that made the device a follower. -/
def execSyncClkLost (dt : Nat) (s0 : State) : Out :=
  let s := advance dt s0
  match s.cal.syncLast with
  | some t =>
    if par s Par.busRole 0 = 2 ∧ t + 10000 * nsU ≤ s.time.now then
      .next (s.onCal (fun c => { c with syncState := 3, syncEdges := [], syncMedians := [], syncLast := none }))
    else .next s
  | none => .next s

end Sys2Proof.Machine
end

