-- ==== Sys2Proof/Machine/LocalIn.lean ====
section
/-! DEFINITION. Local feedback and analogue inputs (R420 to R461): the slot sample, incremental channels, general inputs and
probes, SSI channels, the ADC, and their commands. -/

namespace Sys2Proof.Machine

/-- Changes the local inputs. -/
def State.onLoc (s : State) (f : LocalIn → LocalIn) : State := { s with loc := f s.loc }
/-- An encoder channel. -/
def State.enc (s : State) (k : Nat) : EncCh := tget s.loc.encs {} k
/-- Changes an encoder channel. -/
def State.onEnc (s : State) (k : Nat) (f : EncCh → EncCh) : State := s.onLoc (fun l => { l with encs := tmod l.encs {} k f })
/-- A probe input. -/
def State.probe (s : State) (k : Nat) : ProbeSt := tget s.loc.probes {} k
/-- Changes a probe input. -/
def State.onProbe (s : State) (k : Nat) (f : ProbeSt → ProbeSt) : State := s.onLoc (fun l => { l with probes := tmod l.probes {} k f })
/-- An SSI channel. -/
def State.ssi (s : State) (k : Nat) : SsiCh := tget s.loc.ssis {} k
/-- Changes an SSI channel. -/
def State.onSsi (s : State) (k : Nat) (f : SsiCh → SsiCh) : State := s.onLoc (fun l => { l with ssis := tmod l.ssis {} k f })
/-- Changes the ADC. -/
def State.onAdc (s : State) (f : Adc → Adc) : State := s.onLoc (fun l => { l with adc := f l.adc })

/-- Number of SSI channels (R4). -/
def ssiCount (v : Variant) : Nat := (slotCount v + 1) / 2

/-! ### Incremental channels (R423 to R432) -/

/-- ENC_FAULT with a cause (R427, R269): the axes on the channel lose their feedback, the axes geared to it their master. While the
fault is active a further cause raises nothing, but a wire fault is a loss of its own to a master (R196). -/
def encFault (s : State) (k cause : Nat) : State :=
  if (s.enc k).fault then (if cause = 1 then (gearedToEnc s k).foldl loseMaster s else s)
  else
    let s1 := raiseWarn (s.onEnc k (fun e => { e with fault := true, faultCause := cause })) Ev.encFault Kind.channel k cause
    let s2 := (axesOnEnc s1 k).foldl (fun s a =>
      let x := s.axis a
      if x.phase = .disabled then s.onAxis a (fun x => { x with homed := false })
      else if x.faults.contains Ev.feedbackLost then s.onAxis a (fun x => { x with homed := false })
      else loseFeedback s a) s1
    (gearedToEnc s2 k).foldl loseMaster s2

/-- A change of the count by one step in a direction, at an instant (R423, R431). -/
def countStep (e : EncCh) (d : Int) (at_ : Nat) : EncCh :=
  let down := decide (d < 0)
  { e with count := signed 48 (twos 48 (e.count + d)), turned := e.turned || (e.lastEdge.isSome && down != e.dir), dir := down,
           lastEdge := some at_ }

/-- What filtered levels of A and B do to the count (R423). -/
def countEdge (mode : Nat) (e : EncCh) (a b : Bool) (at_ : Nat) : EncCh :=
  let e1 := { e with a := a, b := b }
  match mode with
  | 0 => if a != e.a then countStep e1 (if a != b then 1 else -1) at_
         else if b != e.b then countStep e1 (if a == b then 1 else -1) at_ else e1
  | 1 => if a && !e.a then countStep e1 (if b then 1 else -1) at_ else e1
  | _ =>
    let e2 := if a && !e.a then countStep e1 1 at_ else e1
    if b && !e.b then countStep e2 (-1) at_ else e2

/-- An illegal transition (R425, R461): the count stays, and ENC_FAULT follows two in consecutive samples or too many in
one millisecond. -/
def illegal (s : State) (k : Nat) : State :=
  let e := s.enc k
  let ms := nowNs s / 1000000
  let n := if e.msStart = ms then e.msErrors + 1 else 1
  let consecutive := match e.lastIllegal with
    | some t => decide (s.time.now < t + 2 * ((stepU : Int) + s.time.rho).toNat)
    | none => false
  let s1 := s.onEnc k (fun e => { e with a := !e.a, b := !e.b, phaseErrors := inc32 e.phaseErrors, msStart := ms, msErrors := n,
                                         lastIllegal := some s.time.now })
  let s2 := raiseWarn s1 Ev.encPhase Kind.channel k
  if consecutive then encFault s2 k 2
  else if parN s Par.phaseErrMax k < n then encFault s2 k 3
  else s2

/-- The level of an input that the filter passes at an instant (R424): a level has lasted `enc_filter` samples before another one counts. -/
def filtered (s : State) (k : Nat) (old new : Bool) (changed : Option Nat) : Bool :=
  match changed with
  | some t => if s.time.now < t + parN s Par.encFilter k * stepU then old else new
  | none => new

/-- ENC_COUNT_EDGE (R423, R424): filtered levels of A and B. While the channel does not run it follows them without counting. The rows of
one 2.5 ns sample come with its count edges and its index event before the latches of R456 (log 35). -/
def execEncCountEdge (dt : Nat) (ch : Nat) (a0 b0 : Bool) (s0 : State) : Out :=
  let s := advance dt s0
  let e := s.enc ch
  let a := filtered s ch e.a a0 e.aAt
  let b := filtered s ch e.b b0 e.bAt
  let stamp := fun (e : EncCh) => { e with aAt := if a != e.a then some s.time.now else e.aAt, bAt := if b != e.b then some s.time.now else e.bAt }
  if ¬(ch < slotCount s.var) then .next s
  else if e.running then
    let mode := parN s Par.encCountMode ch
    if mode = 0 ∧ a ≠ e.a ∧ b ≠ e.b then .next (illegal (s.onEnc ch (fun e => { (stamp e) with a := e.a, b := e.b })) ch)
    else .next (s.onEnc ch (fun e => countEdge mode (stamp e) a b s.time.now))
  else .next (s.onEnc ch (fun e => { (stamp e) with a := a, b := b }))

/-- ENC_ILLEGAL_TRANSITION (R425). -/
def execEncIllegalTransition (dt : Nat) (ch : Nat) (s0 : State) : Out :=
  let s := advance dt s0
  if (s.enc ch).running ∧ ch < slotCount s.var ∧ par s Par.encCountMode ch = 0 then .next (illegal s ch) else .next s

/-- A pair is compared single-ended (R426): A and B, and Z where the channel uses its index. -/
def pairChecked (s : State) (ch pair : Nat) : Bool :=
  par s Par.encWireCheck ch == 1 && (Nat.blt pair 2 || (pair == 2 && par s Par.encIndexMode ch != 0))

/-- ENC_WIRE_FAULT (R426): a pair has stayed at one level for more than 100 ns, or no longer does. Each pair is held and counted on its
own. -/
def execEncWireFault (dt : Nat) (ch : Nat) (w : WirePair) (s0 : State) : Out :=
  let s := advance dt s0
  if (s.enc ch).running ∧ ch < slotCount s.var ∧ pairChecked s ch w.pair = true then
    if w.stuck then
      if (s.enc ch).stuckPairs.contains w.pair then .next s
      else .next (encFault (s.onEnc ch (fun e =>
        { e with stuckPairs := e.stuckPairs ++ [w.pair], wireFaults := inc32 e.wireFaults })) ch 1)
    else .next (s.onEnc ch (fun e => { e with stuckPairs := e.stuckPairs.filter (· != w.pair) }))
  else .next s

/-- The multiple of counts per turn nearest to a count, ties upward (R429). -/
def nearestTurn (cpt c : Int) : Int := (2 * c + cpt) / (2 * cpt) * cpt

/-- A checked deviation of an index (R430). -/
def checkIndex (s : State) (k : Nat) (dev : Int) : State :=
  if (parN s Par.indexTol k : Int) < dev.natAbs then
    let s1 := raiseWarn s Ev.indexMismatch Kind.channel k 0 (c24 dev)
    if par s Par.indexFault k = 1 then encFault s1 k 4 else s1
  else s

/-- A homing that searches its index finds it, while the axis moves in the search direction (R264, R428), but for an index in
the tick of a limit (R279). -/
def homingIndex (ch : Nat) (count : Int) (s : State) : State :=
  (axesOnEnc s ch).foldl (fun s a =>
    let x := s.axis a
    match x.prof, x.homing with
    | .homing, some h =>
      let waits := (h.mode == 2 && h.phase == .search) || (h.mode == 3 && h.phase == .creep)
      if waits && decide (0 < legSign h * x.kin.v) && h.limitTick != some s.cyc.t0 then
        s.onAxis a (foundAt s.cyc.t0 (wrapPos (modQ s a) (userAt s a count)) h)
      else s
    | _, _ => s) s

/-- The level that Z takes at an index event (R428): with z_polarity taken into account it rises while the channel counts up and falls while
it counts down. -/
def indexEdge (s : State) (k : Nat) (high : Bool) : Bool := (high != (par s Par.zPolarity k == 1)) == !(s.enc k).dir

/-- ENC_INDEX_EVENT (R428 to R430, R456, R457): a filtered level of Z. At the low-count end of its pulse the edge is an index event, whose
latch is the count before a reset. -/
def execEncIndexEvent (dt : Nat) (z : ZLevel) (s0 : State) : Out :=
  let s1 := advance dt s0
  let ch := z.ch
  let lv := filtered s1 ch (s1.enc ch).z z.high (s1.enc ch).zAt
  let s := s1.onEnc ch (fun e => { e with z := lv, zAt := if lv != e.z then some s1.time.now else e.zAt })
  let e := s.enc ch
  if !Nat.blt ch (slotCount s.var) || lv == (s1.enc ch).z then .next s1
  else if !e.running || !indexEdge s ch lv then .next s
  else
    let c := e.count
    let base := nearestTurn (par s Par.encCpt ch) c
    let s1 := homingIndex ch c (s.onEnc ch (fun e => { e with index := some (c, s.time.now) }))
    match parN s Par.encIndexMode ch with
    | 1 =>
      let dev := c - base
      let s2 := shiftEnc ch (-dev) (s1.onEnc ch (fun e => { e with count := base, indexDev := dev, firstIndex := true }))
      .next (if e.firstIndex then checkIndex s2 ch dev else s2)
    | 2 =>
      if e.armed then .next (shiftEnc ch (-c) (s1.onEnc ch (fun e => { e with count := 0, armed := false, resetDone := true })))
      else if e.resetDone then .next (checkIndex (s1.onEnc ch (fun e => { e with indexDev := c - base })) ch (c - base))
      else .next s1
    | _ => .next s1

/-- ENC_INDEX_ARM (R429, R677). -/
def encIndexArmBody (s : State) (q : Request) (_ : Nat) : Reply :=
  let p := q.payload
  let k := uAt p 0 1
  inst k 8 (slotCount s.var) <|
  need (resv p 1 3) <|
  orElse (par s Par.encIndexMode k == 2) St.badState <|
  .ok (s.onEnc k (fun e => { e with armed := true, resetDone := false })) []

/-- ENC_FAULT_CLEAR (R427, R461): the clear also ends the index state. -/
def encFaultClearBody (s : State) (q : Request) (_ : Nat) : Reply :=
  let p := q.payload
  let k := uAt p 0 1
  inst k 8 (slotCount s.var) <|
  need (resv p 1 3) <|
  orElse (!(s.enc k).wire) St.encWireActive <|
  .ok (s.onEnc k (fun e => { e with fault := false, faultCause := 0, firstIndex := false, armed := false, resetDone := false })) []

/-- ENC_INDEX_ARM -/
def execEncIndexArm (dt : Nat) (q : Request) (s : State) : Out := .next (serve Cmd.encIndexArm encIndexArmBody dt q s)
/-- ENC_FAULT_CLEAR -/
def execEncFaultClear (dt : Nat) (q : Request) (s : State) : Out := .next (serve Cmd.encFaultClear encFaultClearBody dt q s)

/-- enc_state (R432). -/
def encStateCode (e : EncCh) : Nat := bit e.wire + 2 * bit e.fault + 4 * bit e.armed + 8 * bit e.resetDone + 16 * bit e.dir

/-- The channel speed formed at a slot sample instant (R431), 2^-48 feedback turn/s. -/
def speedAt (cpt standstill : Nat) (e : EncCh) (at_ : Nat) : Int :=
  let per := fun (m : Int) (d : Nat) => if d = 0 then e.speed else rdiv (m * turnQ * tS) ((cpt : Int) * d)
  match e.lastEdge, e.latchAt with
  | some ed, some before =>
    if ed + standstill * 1000000 * nsU ≤ at_ then 0
    else
      let m := readDiff e.count e.latchCount
      if m ≠ 0 then
        match e.prevEdge with
        | some pe => if !e.turned && !e.prevTurned && decide (pe < ed) then per m (ed - pe) else per m (at_ - before)
        | none => per m (at_ - before)
      else
        let cap := if at_ ≤ ed then (e.speed.natAbs : Int) else rdiv (turnQ * tS) ((cpt : Int) * (at_ - ed : Nat))
        sgn e.speed * min (e.speed.natAbs : Int) cap
  | _, _ => 0

/-! ### SSI channels (R437 to R441) -/

/-- Bits of an SSI check code. -/
def ssiCheckBits : Nat → Nat
  | 0 => 0 | 1 => 1 | 2 => 6 | _ => 8

/-- Bits of an SSI frame (R437). -/
def ssiBits (s : State) (j : Nat) : Nat :=
  parN s Par.ssiPosBits j + parN s Par.ssiStatusBits j + ssiCheckBits (parN s Par.ssiCheck j)

/-- A number of SSI clock periods in units, rounded up (R437). -/
def ssiClocks (s : State) (j n : Nat) : Nat := cdivN (n * 10000 * nsU) (max 1 (parN s Par.ssiClock j))

/-- Frame time in units: m + 1 clock periods (R437). -/
def ssiFrameU (s : State) (j : Nat) : Nat := ssiClocks s j (ssiBits s j + 1)

/-- The instant at which bit `i` of the exchange that runs is sampled: falling edge i + 2, the first one being its start, delayed by
ssi_sample_delay (R437). -/
def ssiSampleAt (s : State) (j i : Nat) : Nat := (s.ssi j).startedAt + ssiClocks s j (i + 1) + parN s Par.ssiSampleDelay j * nsU

/-- The clock pair of a channel is high (R437): it idles high, and each clock period begins with its falling edge; the spec does not give the
duty, which is taken as half (DESIGN CHOICE, log 35). -/
def ssiClkHigh (s : State) (j : Nat) : Bool :=
  match (s.ssi j).request with
  | none => true
  | some _ =>
    let t := s.time.now - (s.ssi j).startedAt
    Nat.blt s.time.now (s.ssi j).startedAt || Nat.ble (ssiFrameU s j) t ||
      Nat.ble 1 ((2 * t * max 1 (parN s Par.ssiClock j)) / (10000 * nsU) % 2)

/-- The exchange that runs is over: its frame time has passed and its last bit is sampled. -/
def ssiOver (s : State) (j : Nat) : Bool :=
  Nat.ble ((s.ssi j).startedAt + ssiFrameU s j) s.time.now && Nat.ble (ssiSampleAt s j (ssiBits s j - 1)) s.time.now

/-- The timing check of R440: it fails when two exchanges do not fit half a period. -/
def ssiTooSlow (s : State) (j periodNs : Nat) : Bool :=
  let clk := max 1 (parN s Par.ssiClock j)
  Nat.blt (periodNs * clk) (4 * ((ssiBits s j + 1) * 10000 + parN s Par.ssiRecovery j * 1000 * clk))

/-- The check of R440 at CYCLE_START and at a plan switch. -/
def checkSsi (periodNs : Nat) (s : State) : State :=
  (List.range (ssiCount s.var)).foldl (fun s j =>
    let bad := ssiTooSlow s j periodNs
    let s1 := s.onSsi j (fun c => { c with checkFailed := bad })
    if bad then raiseWarn s1 Ev.ssiTiming Kind.channel j else s1) s

/-- Gray to binary over `n` bits. -/
def unGray : Nat → Nat → Nat
  | 0, v => v
  | n + 1, v => Nat.xor v (unGray n (v / 2))

/-- An exchange is good: check, status bits, line at the start (R438, R439). -/
def ssiGood (s : State) (j frame : Nat) (low : Bool) : Bool :=
  let nc := ssiCheckBits (parN s Par.ssiCheck j)
  let ns := parN s Par.ssiStatusBits j
  let body := frame / 2 ^ nc
  let bits := numBits (parN s Par.ssiPosBits j + ns) body
  let chk := frame % 2 ^ nc
  let ok := match parN s Par.ssiCheck j with
    | 0 => true
    | 1 => chk == evenParity bits
    | 2 => chk == crc6 bits
    | _ => chk == crc8 bits
  !low && ok && Nat.land (body % 2 ^ ns) (parN s Par.ssiErrorMask j) == 0

/-- The position value of a frame as a continuous count (R438). -/
def ssiCount48 (s : State) (j frame : Nat) (prev : Option Int) : Int :=
  let n := parN s Par.ssiPosBits j
  let raw := frame / 2 ^ (ssiCheckBits (parN s Par.ssiCheck j) + parN s Par.ssiStatusBits j) % 2 ^ n
  let v : Int := if par s Par.ssiGray j = 1 then unGray n raw % 2 ^ n else raw
  match prev with
  | none => v
  | some p => p + signed n (twos n (v - p))

/-- Axes of a slot whose source is a channel. -/
def ssiAxes (s : State) (j : Nat) : List Nat := axesOnSsi s j

/-- SSI_EXCHANGE_DONE (R438, R439). An exchange of an earlier cycle ends without a sample: the request of the present cycle
has failed by it and is requested once more (R458). -/
def execSsiExchangeDone (dt : Nat) (ch : Nat) (frame : Nat) (lowAtStart : Bool) (s0 : State) : Out :=
  let s := advance dt s0
  match (s.ssi ch).request with
  | none => .next s
  | some (slot, attempt) =>
    if ssiOver s ch = false then .next s
    else if (s.ssi ch).stale then
      .next (s.onSsi ch (fun x => { x with request := some (slot, 2), stale := false,
                                           startedAt := s.time.now + parN s Par.ssiRecovery ch * 1000 * nsU }))
    else if ssiGood s ch frame lowAtStart then
      let c := ssiCount48 s ch frame (s.ssi ch).pos
      let s1 := s.onSsi ch (fun x => { x with request := none, pos := some c,
                                              retries := if attempt = 2 then inc32 x.retries else x.retries })
      let s2 := if attempt = 2 then transient s1 8 { source := Ev.ssiRetry, cls := Cls.info, kind := Kind.channel, inst := ch } else s1
      let at_ := (s.ssi ch).startedAt + parN s Par.ssiLatency ch * nsU
      let raw := c * 2 ^ (24 - parN s Par.ssiTurnBits ch)
      .next ((ssiAxes s2 ch).foldl (fun s a => localPosition s a (some (raw, at_))) s2)
    else if attempt = 1 then
      .next (s.onSsi ch (fun x => { x with request := some (slot, 2),
                                           startedAt := s.time.now + parN s Par.ssiRecovery ch * 1000 * nsU }))
    else
      let s1 := s.onSsi ch (fun x => { x with request := none, invalid := inc32 x.invalid })
      let s2 := raiseWarn s1 Ev.ssiInvalid Kind.channel ch 0 [] 2
      .next ((ssiAxes s2 ch).foldl (fun s a => localPosition s a none) s2)

/-- A slot sample instant starts the request of a channel (R420, R440); where an exchange still runs, the request fails
(R458). -/
def startSsi (s : State) (slot j : Nat) : State :=
  let c := s.ssi j
  if c.checkFailed then (ssiAxes s j).foldl (fun s a => localPosition s a none) s
  else match c.request with
    | some _ => s.onSsi j (fun x => { x with request := some (slot, 1), stale := true })
    | none => s.onSsi j (fun x => { x with request := some (slot, 1), startedAt := s.time.now })

/-! ### ADC runs (R442 to R449) -/

/-- The group of an input (R442). -/
def groupOfAin (n : Nat) : Nat := n % 4

/-- The core that serves a group. -/
def coreOf (c : Adc) (g : Nat) : Option Nat := c.cores.findIdx? (fun x => x == g)

/-- An injected set serves a mode-4 axis of its slot (R447). -/
def injMode4 (s : State) (i : Nat) : Bool := slotMode s i == 4

/-- A run's entries are not all started (R449). -/
def AdcRun.active (r : AdcRun) : Bool := Nat.blt r.next r.entries.length

/-- A trigger is missed (R449). -/
def adcMissed (s : State) (inj : Bool) (i : Nat) : State :=
  let s1 := s.onAdc (fun a => if inj then { a with injMissed := tmod a.injMissed 0 i inc32 }
                              else { a with seqMissed := tmod a.seqMissed 0 i inc32 })
  raiseWarn s1 Ev.adcTriggerMissed Kind.channel (if inj then 4 + i else i)

/-- A claim of a run on a core: the core, the instant from which the run waits for it or has it, and the instant at which the entry starts
where nothing else goes first. -/
structure Claim where
  core : Nat
  from_ : Nat
  start : Nat
  deriving DecidableEq, Repr

/-- The claims of the entries of a regular run that are not written yet (R446): each follows the start of the entry before it. -/
def regClaims (a : Adc) : List Nat → Nat → Table Nat → List Claim
  | [], _, _ => []
  | n :: l, p, free =>
    match coreOf a (groupOfAin n) with
    | none => []
    | some c =>
      let st := max p (tget free 0 c)
      { core := c, from_ := st, start := st } :: regClaims a l st (tput free c (st + 200 * nsU))

/-- The first instant at which the cores of all groups of an injected set are free (R447). -/
def commonStart (a : Adc) (r : AdcRun) : Nat :=
  r.common.getD (r.entries.foldl (fun t n => match coreOf a (groupOfAin n) with | some c => max t (tget a.freeAt 0 c) | none => t) r.trigAt)

/-- The claims of the entries of an injected set that are not written yet (R447): the first of each group at the common instant, those behind
it at the conversion boundaries that follow. -/
def injClaims (a : Adc) (r : AdcRun) : List Nat → List Nat → Table Nat → List Claim
  | [], _, _ => []
  | n :: l, seen, free =>
    match coreOf a (groupOfAin n) with
    | none => []
    | some c =>
      let st := if seen.contains (groupOfAin n) then max r.trigAt (tget free 0 c) else commonStart a r
      { core := c, from_ := max r.trigAt (tget free 0 c), start := st } ::
        injClaims a r l (groupOfAin n :: seen) (tput free c (st + 200 * nsU))

/-- The claims of a run. -/
def claimsOf (a : Adc) (inj : Bool) (r : AdcRun) : List Claim :=
  let l := r.entries.drop r.next
  if inj then injClaims a r l (r.results.map (fun e => groupOfAin e.1)) a.freeAt else regClaims a l (max r.trigAt r.lastStart) a.freeAt

/-- Rank of a run among those that wait for a core: injected sets before sequences, lower numbers first (R446, R447). -/
def runRank (inj : Bool) (i : Nat) : Nat := if inj then i else 16 + i

/-- Every run with its rank and its claims. -/
def allClaims (a : Adc) : List (Nat × List Claim) :=
  a.injected.map (fun e => (runRank true e.1, claimsOf a true e.2)) ++ a.regular.map (fun e => (runRank false e.1, claimsOf a false e.2))

/-- Another run goes first on the core of a claim: it has waited there longer, or as long with a lower rank (R446 to R448). -/
def behind (a : Adc) (rank : Nat) (c : Claim) : Bool :=
  (allClaims a).any (fun e => e.1 != rank && e.2.any (fun d =>
    d.core == c.core && (Nat.blt d.from_ c.from_ || (d.from_ == c.from_ && Nat.blt e.1 rank))))

/-- The claim of an injected set that starts with its others at the common instant waits where any of them does (R447). -/
def heldBack (a : Adc) (inj : Bool) (i : Nat) (r : AdcRun) (c : Claim) : Bool :=
  if inj && r.common.isNone then (claimsOf a inj r).any (behind a (runRank inj i)) else behind a (runRank inj i) c

/-- The claims of a run whose entries have started by an instant. -/
def startedClaims (a : Adc) (inj : Bool) (i now : Nat) (r : AdcRun) : List Claim :=
  (claimsOf a inj r).takeWhile (fun c => Nat.ble c.start now && !heldBack a inj i r c)

/-- Entries of a run that are started and not yet written. -/
def inProgress (a : Adc) (inj : Bool) (i now : Nat) (r : AdcRun) : Nat := (startedClaims a inj i now r).length

/-- A run of a sequence or set has entries not started (R449). -/
def notStarted (a : Adc) (inj : Bool) (i now : Nat) (r : AdcRun) : Bool :=
  r.after.isSome || Nat.blt (inProgress a inj i now r) (r.entries.length - r.next)

/-- A conversion runs on a core: it started before an instant and is not over. -/
def converting (a : Adc) (core now : Nat) : Bool :=
  Nat.blt now (tget a.freeAt 0 core) ||
    a.injected.any (fun e => (startedClaims a true e.1 now e.2).any (fun c => c.core == core && Nat.blt c.start now)) ||
    a.regular.any (fun e => (startedClaims a false e.1 now e.2).any (fun c => c.core == core && Nat.blt c.start now))

/-- The entries of an injected set in the order in which they start: those that come first in their group, then those that
come second, and so on (R447). -/
def byRound (l : List Nat) : List Nat :=
  let rank := fun (k : Nat) => ((l.take k).filter (fun n => groupOfAin n == groupOfAin ((l[k]?).getD 0))).length
  (List.range 4).flatMap (fun r => (l.zipIdx.filter (fun e => rank e.2 == r)).map (·.1))

/-- Starts a run at a trigger that occurred at an instant, or misses it (R445 to R447, R449). -/
def adcStart (s : State) (inj : Bool) (i at_ : Nat) : State :=
  let a := s.loc.adc
  let old := tfind (if inj then a.injected else a.regular) i
  let busy := match old with | some r => notStarted a inj i at_ r | none => false
  if busy || a.calStart.isSome then adcMissed s inj i
  else
    let m4 := inj && injMode4 s i
    let entries :=
      if m4 then [2 * i, 2 * i + 1]
      else if inj then byRound ((List.range (parN s Par.injLength i)).map (fun e => parN s (Par.injEntry0 + e) i))
      else (List.range (parN s Par.seqLength i)).map (fun e => parN s (Par.seqEntry0 + e) i)
    let delay := if m4 then 0 else if inj then parN s Par.injDelay i else parN s Par.seqDelay i
    let trig := at_ + delay * stepU
    let r : AdcRun := match old with
      | some o => if o.active then { o with after := some (trig, entries) }
                  else { next := 0, trigAt := trig, entries := entries, last := o.last }
      | none => { next := 0, trigAt := trig, entries := entries }
    s.onAdc (fun a => if inj then { a with injected := tput a.injected i r } else { a with regular := tput a.regular i r })

/-- A timer with the half point behind it that has come and is no update point. -/
def timerNow (s : State) (k : Nat) : Timer :=
  let t := s.timer k
  if t.running && !isUpdate s k t.up && Nat.ble t.nextAt s.time.now then (passHalf s k).timer k else t

/-- The instant of a trigger source, where it has occurred in the time-clock period that ends now (R445). -/
def triggerAt (s : State) (src : Nat) : Option Nat :=
  let now := s.time.now
  let fresh := fun (x : Nat) => Nat.ble x now && Nat.blt now (x + ((stepU : Int) + s.time.rho).toNat)
  let first := fun (l : List Nat) => l.find? fresh
  if 1 ≤ src ∧ src ≤ 4 then
    let z := s.cyc.t0 + parN s Par.atimPhase (src - 1) * stepU
    let p := parN s Par.atimPeriod (src - 1) * stepU
    let x := z + (now - z) / p * p
    if z ≤ now ∧ x < s.cyc.t0 + s.period * nsU then first [x] else none
  else if 0x10 ≤ src ∧ src < 0x18 then
    let t := timerNow s (src - 0x10)
    if t.running then first (t.boundAt :: (if t.up then [] else [t.nextAt])) else none
  else if 0x20 ≤ src ∧ src < 0x28 then
    let t := timerNow s (src - 0x20)
    if t.running then first (t.midAt.toList ++ (if t.up then [t.nextAt] else [])) else none
  else if 0x30 ≤ src ∧ src < 0x48 then
    let k := (src - 0x30) / 3
    let t := timerNow s k
    let c := (t.compares[(src - 0x30) % 3]?).getD 0
    if t.running ∧ 0 < c ∧ c < 4 * t.period then first (idealEdge (isSaw s k) t c :: (if isSaw s k then [t.boundAt] else [])) else none
  else if src = 0x50 then first [s.cyc.t0]
  else none

/-- ADC_TRIGGER (R445): the source of a sequence or set occurs. A set that serves a mode-4 axis ignores its own source. -/
def execAdcTrigger (dt : Nat) (inj : Bool) (i : Nat) (s0 : State) : Out :=
  let s := advance dt s0
  let have_ := if inj then decide (i < slotCount s.var) else decide (i < 4)
  let src := if inj then parN s Par.injTrigger i else parN s Par.seqTrigger i
  match triggerAt s src with
  | some at_ => if hasLocal s.var ∧ s.cyc.running ∧ have_ = true ∧ (inj && injMode4 s i) = false then .next (adcStart s inj i at_) else .next s
  | none => .next s

/-- The corrected result of a raw code (R443). -/
def adcCorrect (f : CoreFactors) (c : Int) : Int × Bool :=
  let i := ((c + 32768) / 4096).toNat
  let y := rdiv ((256 * c - f.offset) * f.gain + ((f.lin[i]?).getD 0) * 4194304) 1073741824
  (clampI y (-32768) 32767 * 256, decide (c ≤ -32768) || decide (32767 ≤ c) || decide (y < -32768) || decide (32767 < y))

/-- The currents of a mode-4 axis, and its sample when both results of its set are written (R422); a set that a slot sample
of an earlier cycle triggered gives none. -/
def injSample (s : State) (i : Nat) (r : AdcRun) : State :=
  match axisOfSlot s.image i with
  | none => s
  | some a =>
    if s.cyc.t0 ≤ r.trigAt ∧ (s.timer i).sampleAt.isSome then
      let bad := r.results.any (fun e => bitOf e.2.flags 0 || bitOf e.2.flags 3)
      joinLocal (s.onAxis a (fun x =>
        { x with currents := if bad then x.currents else r.results.map (fun e => e.2.value), curPart := some (!bad) })) a
    else s

/-- ADC_CONVERSION_DONE (R442 to R449): the result of the next entry of a run, written 180 ns after its sampling at the first instant at
which the entry could start. -/
def execAdcConversionDone (dt : Nat) (inj : Bool) (i : Nat) (code : Int) (s0 : State) : Out :=
  let s := advance dt s0
  let a := s.loc.adc
  match tfind (if inj then a.injected else a.regular) i with
  | none => .next s
  | some r =>
    match r.entries[r.next]? with
    | none => .next s
    | some n =>
      let g := groupOfAin n
      match (claimsOf a inj r).head? with
      | none => .next s
      | some cl =>
        let at_ := cl.start
        let core := cl.core
        if at_ + 180 * nsU ≤ s.time.now ∧ heldBack a inj i r cl = false then
          let c := clampI code (-32768) 32767
          let valid := (tfind a.factors core).isSome
          let (v, over_) := adcCorrect (tget a.factors ⟨0, 4194304, List.replicate 16 0⟩ core) c
          let ready := a.ref != 0 && Nat.ble (a.refAt + 500000 * nsU) at_
          let took := a.takeover.contains g
          let res : AdcResult := { value := v, stamp := at_,
                                   flags := bit (!ready) + 2 * bit over_ + 4 * bit took + 8 * bit (!valid) }
          let r1 := { r with next := r.next + 1, results := r.results ++ [(n, res)], lastStart := at_,
                             common := if inj && r.common.isNone then some at_ else r.common }
          let r2 := if r1.active then r1
            else match r1.after with
              | some (t, l) => { next := 0, trigAt := t, entries := l, last := r1.results }
              | none => if r1.cut then r1 else { r1 with last := r1.results }
          let old := tget a.results {} n
          let s1 := s.onAdc (fun a => { a with
            results := tput a.results n res, previous := tput a.previous n old, freeAt := tput a.freeAt core (at_ + 200 * nsU),
            takeover := a.takeover.filter (fun x => x != g),
            injected := if inj then tput a.injected i r2 else a.injected,
            regular := if inj then a.regular else tput a.regular i r2 })
          let s2 := skewAin s1 n res
          .next (if inj && injMode4 s i && !r1.active then injSample s2 i r1 else s2)
        else .next s

/-- The latest result of an input at or before an instant; none where it is invalid or older than 2P (R443, R444). -/
def ainAt (s : State) (n at_ : Nat) : Option Int :=
  let pick := fun (r : AdcResult) => decide (r.stamp + 180 * nsU ≤ at_ ∧ 0 < r.stamp)
  let cur : AdcResult := tget s.loc.adc.results {} n
  let prev : AdcResult := tget s.loc.adc.previous {} n
  let tick : AdcResult := tget s.loc.adc.atTick {} n
  let r := if pick cur then some cur else if pick prev then some prev else if pick tick then some tick else none
  match r with
  | some r => if bitOf r.flags 0 ∨ r.stamp + 2 * s.period * nsU < at_ then none else some r.value
  | none => none

/-! ### SLOT_SAMPLE (R420 to R422, R431) -/

/-- The latch of an encoder at a slot sample instant. -/
def latchEnc (s : State) (k : Nat) : State :=
  let at_ := s.time.now
  s.onEnc k (fun e =>
    { e with speed := speedAt (parN s Par.encCpt k) (parN s Par.encStandstill k) e at_, latchCount := e.count, latchAt := some at_,
             prevEdge := e.lastEdge, prevTurned := e.turned, turned := false })

/-- A mode-4 axis whose injected trigger was missed has no valid sample in the cycle (R422). -/
def currentsStart (s : State) (slot at_ : Nat) : State :=
  match axisOfSlot s.image slot, tfind s.loc.adc.injected slot with
  | some a, some r => if r.next = 0 ∧ r.trigAt = at_ then s else s.onAxis a (fun x => { x with curPart := some false })
  | some a, none => s.onAxis a (fun x => { x with curPart := some false })
  | none, _ => s

/-- SLOT_SAMPLE (R420): the first mid-period of the timer in the cycle. -/
def execSlotSample (slot : Nat) (s0 : State) : Out :=
  let t := s0.timer slot
  if !(t.running ∧ t.sampleAt = none ∧ s0.cyc.running ∧ slot < slotCount s0.var) then .next s0
  else
    let (a, _) := halfSteps (isSaw s0 slot) t.period
    let ahead := if t.up then t.nextAt else t.nextAt + a * stepU
    let mid := match t.midAt with
      | some m => if s0.cyc.t0 ≤ m then m else ahead
      | none => ahead
    if mid < s0.cyc.t0 ∨ s0.cyc.t0 + s0.period * nsU ≤ mid then .next s0
    else
      let s := advanceTo mid s0
      if s.time.now < mid then .next s
      else
        let s1 := latchEnc (s.onTimer slot (fun t => { t with sampleAt := some mid })) slot
        let s2 := if injMode4 s1 slot then currentsStart (adcStart s1 true slot mid) slot mid else s1
        let j := slot / 2
        let s3 := if parN s2 Par.ssiTriggerSlot j = slot % 2 ∧ j < ssiCount s2.var then startSsi s2 slot j else s2
        match axisOfSlot s3.image slot with
        | some ax =>
          let src := parN s3 Par.dclinkSrc ax
          let s4 := match ainAt s3 src mid with
            | some v =>
              let vdc := (rdiv (v * parN s3 Par.dclinkFs ax) 8388608).toNat
              (takeVdc s3 ax vdc).onAxis ax (fun x => { x with dclink := vdc })
            -- the last valid value stays in use (R180)
            | none => s3
          match sourceOf s4 ax with
          | .enc ch => .next (localPosition s4 ax (if (s4.enc ch).fault then none else some ((s4.enc ch).latchCount, mid)))
          | _ => .next s4
        | none => .next s3

/-! ### General inputs and probes (R433 to R436) -/

/-- DIN_RAW_EDGE (R250, R433): the edge is stamped and every encoder count is latched. -/
def execDinRawEdge (dt : Nat) (n : Nat) (level : Bool) (s0 : State) : Out :=
  let s := advance dt s0
  if 3 * slotCount s.var ≤ n ∨ s.dev.mode = .off ∨ s.dev.mode = .standby ∨ (tget s.loc.dins {} n).level = level then .next s
  else
    let counts := (List.range (slotCount s.var)).map (fun k => (s.enc k).count)
    let s1 := s.onLoc (fun l => { l with dins := tput l.dins n { level := level, edgeAt := s.time.now, latched := counts } })
    .next ((allAxes s1).foldl (fun s a => rawEdge s n level a) s1)

/-- A probe edge is selected by prb_edge (R436). -/
def probeTakes (edge : Nat) (rising : Bool) : Bool := bitOf edge (if rising then 0 else 1)

/-- PROBE_EDGE (R434, R491). -/
def execProbeEdge (dt : Nat) (n : Nat) (rising : Bool) (s0 : State) : Out :=
  let s := advance dt s0
  let pr := s.probe n
  let single := par s Par.prbMode n == 1
  if !(n < slotCount s.var ∧ s.cyc.running ∧ probeTakes (parN s Par.prbEdge n) rising = true ∧ (!single || pr.armed) = true) then .next s
  else
    let src := parN s Par.prbSource n
    let enc := decide (src < 8)
    let pos := if enc then (s.enc src).count else 0
    let r : ProbeRec := { stamp := nowNs s, src := src, rising := rising, valid := enc, done := enc, single := single, pos := pos }
    let known := fun (p : ProbeSt) => if enc then latchDone s.time.now pos p else p
    let s1 :=
      if pr.queue.length < 16 then s.onProbe n (fun p => known { p with queue := p.queue ++ [r], armed := p.armed && !single })
      else
        raiseWarn (s.onProbe n (fun p => known { p with overflows := inc32 p.overflows, armed := p.armed && !single }))
          Ev.probeOverflow Kind.channel n
    .next (skewProbe (calProbe s1 n s.time.now) n s.time.now)

/-- Records whose enclosing samples did not come within 2P are complete and invalid (R434). -/
def expireProbes (s : State) : State :=
  s.onLoc (fun l => { l with probes := tmap l.probes (fun _ p => { p with
    queue := p.queue.map (fun r => if !r.done ∧ (r.stamp + 2 * s.period) < nowNs s then { r with done := true } else r) }) })

/-- The 24 bytes of a probe record (R435). -/
def probeBytes (r : ProbeRec) : Bytes :=
  timeBytes r.stamp ++ b8 (if r.rising then 1 else 2) ++ b8 (bit r.valid + 2 * bit r.single) ++ t48 r.pos ++ zeros 4

/-- Complete records at the front of a queue. -/
def doneFront : List ProbeRec → List ProbeRec
  | [] => []
  | r :: l => if r.done then r :: doneFront l else []

/-- PROBE_ARM (R434, R677). -/
def probeArmBody (s : State) (q : Request) (_ : Nat) : Reply :=
  let p := q.payload
  let k := uAt p 0 1
  inst k 8 (slotCount s.var) <|
  need (resv p 1 3) <|
  orElse (par s Par.prbMode k == 1) St.badState <|
  .ok (s.onProbe k (fun p => { p with armed := true })) []

/-- PROBE_READ (R435). -/
def probeReadBody (s : State) (q : Request) (_ : Nat) : Reply :=
  let p := q.payload
  let k := uAt p 0 1
  inst k 8 (slotCount s.var) <|
  need (resv p 1 3) <|
  let l := (doneFront (s.probe k).queue).take 9
  .ok (s.onProbe k (fun p => { p with queue := p.queue.drop l.length })) (b8 l.length ++ zeros 3 ++ l.flatMap probeBytes)

/-- PROBE_ARM -/
def execProbeArm (dt : Nat) (q : Request) (s : State) : Out := .next (serve Cmd.probeArm probeArmBody dt q s)
/-- PROBE_READ -/
def execProbeRead (dt : Nat) (q : Request) (s : State) : Out := .next (serve Cmd.probeRead probeReadBody dt q s)

/-! ### Reference and calibration (R450 to R454, R460) -/

/-- ref_state (R450, R454): ready from 500 µs after the switch-on. -/
def refReady (s : State) : Bool := s.loc.adc.ref != 0 && Nat.ble (s.loc.adc.refAt + 500000 * nsU) s.time.now

/-- A live calibration is abandoned: the freed core is the spare again (R460). -/
def dropLive (a : Adc) : Adc :=
  match a.live with
  | some c => { a with live := none, cores := a.cores.set c 0xFE }
  | none => a

/-- Factors are valid after a calibration or a restore. -/
def calStateOf (a : Adc) : Nat := if a.factors = [] then 0 else 2

/-- The reference is switched off (R450, R460): a live calibration is dropped, and one by command ends. -/
def refOff (s : State) : State :=
  let s1 := s.onAdc (fun a => { dropLive a with ref := 0 })
  match s.loc.adc.calStart with
  | some _ => finish (s1.onAdc (fun a => { a with calStart := none, calState := calStateOf a })) Cmd.adcCalibrate 0 St.adcRefNotReady
  | none => s1

/-- ADC_REF_ENABLE (R450, R460). -/
def adcRefEnableBody (s : State) (q : Request) (_ : Nat) : Reply :=
  let p := q.payload
  let on := uAt p 0 1
  need (Nat.ble on 1 && resv p 1 3) <|
  if on = 1 then
    .ok (if s.loc.adc.ref = 0 then s.onAdc (fun a => { a with ref := 1, refAt := s.time.now }) else s) []
  else .ok (refOff s) []

/-- ADC_REF_READY (R450). -/
def execAdcRefReady (dt : Nat) (s0 : State) : Out :=
  let s := advance dt s0
  if refReady s then .next (s.onAdc (fun a => { a with ref := 2 })) else .next s

/-- An enabled axis uses an ADC input (R451). -/
def adcInUse (s : State) : Bool :=
  (allAxes s).any (fun a =>
    let x := s.axis a
    (match x.phase with | .disabled => false | _ => true) &&
    (par s Par.axisMode a == 4 || ((par s Par.axisMode a == 6) && Nat.blt (parN s Par.dclinkSrc a) 16) ||
      (x.source == 3 && Nat.ble 2 (parN s Par.masterKind a))))

/-- A regular run that a calibration abandons: a conversion in progress completes (R451). -/
def endRun (a : Adc) (now i : Nat) (r : AdcRun) : AdcRun :=
  { r with entries := r.entries.take (r.next + inProgress a false i now r), after := none, cut := true }

/-- ADC_CALIBRATE (R451, R460). -/
def adcCalibrateBody (s : State) (q : Request) (_ : Nat) : Reply :=
  orElse (refReady s) St.adcRefNotReady <|
  orElse (!adcInUse s && s.loc.adc.calStart == none) St.badState <|
  .pend (addPend (s.onAdc (fun a => { dropLive a with
    calStart := some s.time.now, calState := 1, regular := tmap a.regular (endRun a s.time.now) })) Cmd.adcCalibrate q)

/-- ADC_CALIBRATE_DONE (R451): 2.4 ms later the measured factors are stored. -/
def execAdcCalibrateDone (dt : Nat) (factors : List CoreFactors) (s0 : State) : Out :=
  let s := advance dt s0
  match s.loc.adc.calStart with
  | some t =>
    if t + 2400000 * nsU ≤ s.time.now ∧ factors.length = 5 then
      let s1 := s.onAdc (fun a => { a with calStart := none, calState := 2, factors := factors.zipIdx.map (fun (f, i) => (i, f)),
                                           lastLive := s.time.now })
      .next (finish s1 Cmd.adcCalibrate 0 St.ok)
    else .next s
  | none => .next s

/-- ADC_CAL_SAVE (R453, R677). -/
def adcCalSaveBody (s : State) (_ : Request) (_ : Nat) : Reply :=
  orElse (s.loc.adc.calState == 2) St.adcCalNone <|
  .ok (s.onAdc (fun a => { a with stored := some (a.factors.map (·.2)) })) []

/-- ADC_CAL_RESTORE (R453, R677). -/
def adcCalRestoreBody (s : State) (_ : Request) (_ : Nat) : Reply :=
  match s.loc.adc.stored with
  | none => .err St.adcCalNone []
  | some l =>
    orElse (!adcInUse s && s.loc.adc.calStart == none) St.badState <|
    .ok (s.onAdc (fun a => { a with factors := l.zipIdx.map (fun (f, i) => (i, f)), calState := 2, lastLive := s.time.now })) []

/-- ADC_REF_ENABLE -/
def execAdcRefEnable (dt : Nat) (q : Request) (s : State) : Out := .next (serve Cmd.adcRefEnable adcRefEnableBody dt q s)
/-- ADC_CALIBRATE -/
def execAdcCalibrate (dt : Nat) (q : Request) (s : State) : Out := .next (serve Cmd.adcCalibrate adcCalibrateBody dt q s)
/-- ADC_CAL_SAVE -/
def execAdcCalSave (dt : Nat) (q : Request) (s : State) : Out := .next (serve Cmd.adcCalSave adcCalSaveBody dt q s)
/-- ADC_CAL_RESTORE -/
def execAdcCalRestore (dt : Nat) (q : Request) (s : State) : Out := .next (serve Cmd.adcCalRestore (withRead Cmd.adcCalRestore adcCalRestoreBody) dt q s)

/-- An injected entry triggered before an instant waits for a core (R452, R459). -/
def injWaits (a : Adc) (core now : Nat) : Bool :=
  a.injected.any (fun e => Nat.blt e.2.trigAt now && (claimsOf a true e.2).any (fun c => c.core == core))

/-- ADC_LIVE_CAL_START (R452, R459): at a conversion boundary the spare takes over the group whose turn it is, the freed core is calibrated. -/
def execAdcLiveCalStart (dt : Nat) (s0 : State) : Out :=
  let s := advance dt s0
  let a := s.loc.adc
  let iv := parN s Par.liveCalInterval 0
  match coreOf a 0xFE, coreOf a a.turn with
  | some spare, some core =>
    if iv ≠ 0 ∧ a.lastLive + iv * 1000000 * nsU ≤ s.time.now ∧ a.calState = 2 ∧ refReady s ∧ a.live = none ∧ a.calStart = none ∧
        injWaits a core s.time.now = false ∧ converting a core s.time.now = false then
      .next (s.onAdc (fun a => { a with cores := (a.cores.set spare a.turn).set core 0xFD, live := some core, liveAt := s.time.now,
                                        lastLive := s.time.now, takeover := a.takeover ++ [a.turn], turn := (a.turn + 1) % 4 }))
    else .next s
  | _, _ => .next s

/-- ADC_LIVE_CAL_DONE (R452): 1.2 ms later the offset and gain are judged and the core becomes the spare. -/
def execAdcLiveCalDone (dt : Nat) (f : CoreFactors) (s0 : State) : Out :=
  let s := advance dt s0
  let a := s.loc.adc
  match a.live with
  | none => .next s
  | some c =>
    if s.time.now < a.liveAt + 1200000 * nsU then .next s
    else
      let old := tget a.factors ⟨0, 4194304, List.replicate 16 0⟩ c
      let faulty := decide (131072 < f.offset.natAbs) || decide (2 * 4194304 < 100 * ((f.gain : Int) - 4194304).natAbs)
      let s1 := if (parN s Par.adcDriftLimit 0) * 256 < (f.offset - old.offset).natAbs then
          raiseWarn s Ev.adcDrift Kind.channel c else s
      if faulty then
        .next (raiseWarn (s1.onAdc (fun a => { a with live := none, cores := a.cores.set c 0xFF })) Ev.adcCoreFault Kind.channel c)
      else
        .next (s1.onAdc (fun a => { a with live := none, cores := a.cores.set c 0xFE,
                                           factors := tput a.factors c { old with offset := f.offset, gain := f.gain } }))

/-- The code of a core in LOCAL_IN_STATUS: a core under live calibration shows as the spare (log 24). -/
def coreCode (c : Nat) : Nat := if c = 0xFD then 0xFE else c

/-- LOCAL_IN_STATUS (R455, R677). -/
def localInStatusBody (s : State) (_ : Request) (_ : Nat) : Reply :=
  let n := slotCount s.var
  let din := (List.range (3 * n)).foldl (fun v k => if (tget s.loc.dins {} k).level then v + 2 ^ k else v) 0
  .ok s (b32 din ++ (List.range 8).flatMap (fun k => b8 (if k < n then encStateCode (s.enc k) else 0)) ++
    s.loc.adc.cores.flatMap (fun c => b8 (coreCode c)) ++ zeros 3 ++
    (List.range 4).flatMap (fun j => b32 (s.ssi j).retries) ++ (List.range 4).flatMap (fun j => b32 (s.ssi j).invalid) ++
    (List.range 4).flatMap (fun i => b32 (tget s.loc.adc.seqMissed 0 i)) ++
    (List.range 8).flatMap (fun i => b32 (tget s.loc.adc.injMissed 0 i)))

/-- LOCAL_IN_STATUS -/
def execLocalInStatus (dt : Nat) (q : Request) (s : State) : Out := .next (serve Cmd.localInStatus localInStatusBody dt q s)

/-! ### With the cycle -/

/-- The inputs run from CYCLE_START (R429, R432): counts are 0, the first index is not checked. -/
def startInputs (s : State) : State :=
  let s1 := s.onLoc (fun l => { l with
    encs := (List.range (slotCount s.var)).map (fun k =>
      let e := tget l.encs {} k
      (k, { ({} : EncCh) with running := true, a := e.a, b := e.b, z := e.z, stuckPairs := e.stuckPairs, fault := e.fault,
                              faultCause := e.faultCause, phaseErrors := e.phaseErrors, wireFaults := e.wireFaults })),
    ssis := tmap l.ssis (fun _ c => { c with request := none, pos := none, stale := false }),
    adc := { l.adc with cores := if l.adc.cores.any (fun c => c == 0xFF) then l.adc.cores else [0, 1, 2, 3, 0xFE],
                        live := none, takeover := [], regular := [], injected := [] } })
  s1

/-- The inputs stop at CYCLE_STOP. -/
def stopInputs (s : State) : State :=
  s.onLoc (fun l => { l with encs := tmap l.encs (fun _ e => { e with running := false, speed := 0 }),
                             ssis := tmap l.ssis (fun _ c => { c with request := none, stale := false }),
                             adc := { l.adc with regular := [], injected := [] } })

end Sys2Proof.Machine
end

