-- ==== Sys2Proof/Machine/Diag.lean ====
section
/-! DEFINITION. The commands of the shavings record and its commit (R608 to R623), and the signal rows (R610). -/

namespace Sys2Proof.Machine

/-- The signal row of a tick (R610): an unselected entry or one of a signal the part does not have is not valid. `v` is the state at the
tick, in which the values of the last committed cycle still stand. -/
def signalRow (v s : State) (tick : Nat) : SigRow :=
  let picks := (List.range 32).map (fun i => (parN s Par.shvSignal i, parN s Par.shvQuantity i))
  { tick := tick, stamp := nowNs s,
    valid := picks.foldr (fun e v => 2 * v + bit (e.1 != 0xFFFF && signalHere s e.1)) 0,
    values := picks.map (fun e => if e.1 = 0xFFFF then 0 else signalValue v s.ev.raised e.1 e.2) }

/-- The row is taken unless a commit runs; a row of the trigger's own instant still belongs to the frozen set (R608, R612). -/
def takeSignalRow (v s : State) (tick : Nat) : State :=
  let r := signalRow v s tick
  match s.ev.freeze with
  | some f =>
    if r.stamp ≤ f.stamp then
      { s with ev := { s.ev with raised := [], rows := keepLast 1024 (s.ev.rows ++ [r]),
                                 freeze := some { f with rows := keepLast 1024 (f.rows ++ [r]) } } }
    else { s with ev := { s.ev with raised := [] } }
  | none => { s with ev := { s.ev with raised := [], rows := keepLast 1024 (s.ev.rows ++ [r]) } }

/-- The test write of a pass that the commit kept off begins after it (R641). -/
def laterTest (s : State) : State :=
  if s.tru.running && !s.tru.lanesOnly && s.tru.mramTest.isNone then { s with tru := { s.tru with mramTest := some s.time.now } } else s

/-- The commit ends: SHAVINGS_COMMITTED, the pending SHAVINGS_FREEZE, and idle ring ports after a power fail (R611, R612). -/
def endCommit (s : State) (f : Freeze) : State :=
  let s1 := raiseInfo (commitFrozen s f) Ev.shavingsCommitted
  let s2 := laterTest (finish s1 Cmd.shavingsFreeze 0 St.ok (b8 f.slot ++ zeros 3 ++ b32 f.commitSeq))
  if f.trigger = 3 then { s2 with power := { s2.power with portsIdle := true } } else s2

/-- SHAVINGS_COMMIT_DONE (R612, R641): not before the commit has begun. -/
def execShavingsCommitDone (dt : Nat) (s0 : State) : Out :=
  let s := advance dt s0
  .next (match s.ev.freeze with
    | some f => if nowNs s < f.begins then s else endCommit s f
    | none => s)

/-- Records from a number on; from the oldest where that one has been overwritten (R617). -/
def recordsFrom (l : List EvRec) (n : Nat) : List EvRec :=
  match l with
  | [] => []
  | e :: _ =>
    let ahead := (n + 4294967296 - e.seq) % 4294967296
    if ahead < l.length then l.drop ahead else if 2147483648 ≤ ahead then l else []

/-- EVENT_READ (R617, R680). -/
def eventReadBody (s : State) (q : Request) (_ : Nat) : Reply :=
  let l := (recordsFrom s.ev.records (uAt q.payload 0 4)).take 7
  .ok s (b8 l.length ++ zeros 3 ++ l.flatMap evBytes)

/-- SHAVINGS_STATUS (R617, R680). -/
def shavingsStatusBody (s : State) (_ : Request) (_ : Nat) : Reply :=
  .ok s (memRead s.mem.mram (slotBase 0) 56 ++ memRead s.mem.mram (slotBase 1) 56 ++ b16 s.ev.records.length ++
    b16 s.ev.rows.length ++ b8 s.ev.mbs.length ++ zeros 3)

/-- SHAVINGS_READ (R617, R680). -/
def shavingsReadBody (s : State) (q : Request) (_ : Nat) : Reply :=
  let slot := uAt q.payload 0 1
  let n := uAt q.payload 1 1
  let o := uAt q.payload 4 4
  need (Nat.blt slot 2 && Nat.ble 1 n && Nat.ble n 224 && resv q.payload 2 2 && Nat.ble (o + n) 589824)
    (.ok s (memRead s.mem.mram (slotBase slot + o) n))

/-- SHAVINGS_FREEZE (R611, R617): pending until the commit; during a commit it starts none and ends with that one (R619). -/
def shavingsFreezeBody (s : State) (q : Request) (t : Nat) : Reply :=
  .pend (addPend (freezeRecord s 6 0xFF t) Cmd.shavingsFreeze q)

/-- A slot whose read fails lastingly is marked damaged: its complete byte no longer is 0xA5 (R606 kind 6, R614). SHAVINGS_STATUS reads both
headers, of which the operand does not name one: the slot of its payload's first byte, 0 without one (log 36). -/
def damageRead (s : State) (q : Request) : State :=
  { s with mem := { s.mem with mram := memPaste s.mem.mram (slotBase (uAt q.payload 0 1) + 6) 1 [] } }

/-- EVENT_READ -/
def execEventRead (dt : Nat) (q : Request) (s : State) : Out := .next (serve Cmd.eventRead eventReadBody dt q s)
/-- SHAVINGS_STATUS -/
def execShavingsStatus (dt : Nat) (q : Request) (s : State) : Out := .next (serve Cmd.shavingsStatus (withRead Cmd.shavingsStatus shavingsStatusBody damageRead) dt q s)
/-- SHAVINGS_READ -/
def execShavingsRead (dt : Nat) (q : Request) (s : State) : Out := .next (serve Cmd.shavingsRead (withRead Cmd.shavingsRead shavingsReadBody damageRead) dt q s)
/-- SHAVINGS_FREEZE -/
def execShavingsFreeze (dt : Nat) (q : Request) (s : State) : Out := .next (serve Cmd.shavingsFreeze shavingsFreezeBody dt q s)

end Sys2Proof.Machine
end

