-- ==== Sys2Proof/Machine/EngineOps.lean ====
section
/-! DEFINITION. A loop engine: its operations on accumulators, words and flags (R323 to R332), parallel moves and pointers
(R321, R322), what each instruction sees and when results land (R334, R335), repeats, branches and law faults (R333,
R336, R338), the instruction word (R320, R328), and runs of a task from program memory (R343, R348). -/

namespace Sys2Proof.Machine

/-! ### Values -/

/-- Largest and smallest accumulator (R325). -/
abbrev aMax : Int := 36028797018963967
abbrev aMin : Int := -36028797018963968
/-- Largest and smallest 48-bit value. -/
abbrev wMax : Int := 140737488355327
abbrev wMin : Int := -140737488355328

/-- Saturation to the accumulator range. -/
def sat56 (v : Int) : Int := clampI v aMin aMax
/-- Saturation to 48 bits (R325). -/
def sat48 (v : Int) : Int := clampI v wMin wMax
/-- Saturation to 24 bits. -/
def sat24 (v : Int) : Int := clampI v (-8388608) 8388607

/-- Convergent rounding at bit 24 (R324). -/
def rnd24 (v : Int) : Int := rdiv v 16777216 * 16777216

/-- Registers by number. -/
def ERegs.xr (r : ERegs) (i : Nat) : W24 := (r.x[i]?).getD 0
def ERegs.ar (r : ERegs) (i : Nat) : W56 := (r.a[i]?).getD 0
def ERegs.pr (r : ERegs) (i : Nat) : BitVec 16 := (r.p[i]?).getD 0
def ERegs.mr (r : ERegs) (i : Nat) : BitVec 16 := (r.m[i]?).getD 0
def ERegs.lr (r : ERegs) (i : Nat) : BitVec 14 := (r.l[i]?).getD 0
def ERegs.setX (r : ERegs) (i : Nat) (v : W24) : ERegs := { r with x := r.x.set i v }
def ERegs.setA (r : ERegs) (i : Nat) (v : W56) : ERegs := { r with a := r.a.set i v }
def ERegs.setP (r : ERegs) (i : Nat) (v : BitVec 16) : ERegs := { r with p := r.p.set i v }

/-- What an operation gives: the registers, the X and A registers and the pointer it wrote, and a law fault code. -/
structure OpOut where
  regs : ERegs
  wx : Option Nat := none
  wa : Option Nat := none
  wp : Option Nat := none
  fault : Option Nat := none

/-- The operations of R328 other than branches, REP and DONE. -/
inductive EOp where
  | nop
  | prod (acc uns rnd : Bool) (ad : Nat) (neg : Bool) (xa xb : Nat)
  | aadd (ad ar : Nat) | asub (ad ar : Nat) | aadx (ad xa : Nat) | asbx (ad xa : Nat)
  | acmp (ad ar : Nat) | acpx (ad xa : Nat) | acpy (ad ar : Nat) | aldx (ad xa : Nat)
  | azro (ad : Nat) | aneg (ad : Nat) | aabs (ad : Nat) | rnd (ad : Nat) | asat (ad : Nat)
  | ashl (ad sh : Nat) | ashr (ad sh : Nat) | sclb (ad : Nat) | bexpa (ad : Nat) | qstep (ad xa : Nat)
  | maxi (ad xa : Nat) | mini (ad xa : Nat)
  | xhi (rnd : Bool) (xd ad : Nat) | xlo (xd ad : Nat) | xcpy (xd xa : Nat)
  | xadd (xd xa xb : Nat) | xsub (xd xa xb : Nat) | xand (xd xa xb : Nat) | xior (xd xa xb : Nat) | xeor (xd xa xb : Nat)
  | xbit (xa b : Nat) | bexp (xa : Nat) | sclbx (xd xa : Nat)
  | sreg (xn sel index : Nat) (toSpecial : Bool)
  | bxset (v : BitVec 7)
  | done
  | brc (cc : Nat) (t : BitVec 14) | call (t : BitVec 14) | ret | decbr (xn : Nat) (t : BitVec 14)
  | rep (n : Nat)
  | ximm (xd : Nat) (v : W24) | pimm (p : Nat) (v : BitVec 16) | mimm (p : Nat) (v : BitVec 16) | limm (p : Nat) (v : BitVec 16)
  deriving DecidableEq, Repr

/-- Writes an accumulator with N, Z and G of the saturated result, SAC where it was saturated (R325, R326). -/
def putAcc (r : ERegs) (ad : Nat) (v : Int) : OpOut :=
  let w : W56 := BitVec.ofInt 56 (sat56 v)
  { regs := { r.setA ad w with es := esStick (esAcc r.es w) esSAC (decide (sat56 v ≠ v)) }, wa := some ad }

/-- The flags of a result that is not written (R326). -/
def cmpAcc (r : ERegs) (v : Int) : OpOut := { regs := { r with es := esAcc r.es (BitVec.ofInt 56 (sat56 v)) } }

/-- Writes an X register with N and Z of the word (R326). -/
def putX (r : ERegs) (xd : Nat) (v : W24) : OpOut := { regs := { r.setX xd v with es := esWord r.es v }, wx := some xd }

/-- Moves a field of the 48-bit saturation of a value to an X register; SST where the clamp changes it (R325). -/
def xferX (r : ERegs) (xd : Nat) (v : Int) (upper : Bool) : OpOut :=
  let c := sat48 v
  { regs := { r.setX xd (BitVec.ofInt 24 (if upper then c / 16777216 else c)) with
      es := esStick r.es esSST (decide (c ≠ v)) }, wx := some xd }

/-- sx(Xa) << 24. -/
def xWide (r : ERegs) (xa : Nat) : Int := (r.xr xa).toInt * 16777216

/-- Number of bits below the top one that equal it, of a `w`-bit value (R331). -/
def signRun (w : Nat) (v : Nat) : Nat :=
  let top := bitOf v (w - 1)
  let rec go : Nat → Nat
    | 0 => 0
    | n + 1 => if bitOf v n == top then go n + 1 else 0
  go (w - 1)

/-- BX ← min(BX, r) (R331). -/
def minBX (r : ERegs) (v : Int) : OpOut := { regs := { r with bx := if v < r.bx.toInt then BitVec.ofInt 7 v else r.bx } }

/-- A product of R323. -/
def product (r : ERegs) (uns neg : Bool) (xa xb : Nat) : Int :=
  let b : Int := if uns then (r.xr xb).toNat else (r.xr xb).toInt
  let p := (r.xr xa).toInt * b * 2
  if neg then -p else p

/-- Takes the operand as the new extremum (R330). -/
def extreme (r : ERegs) (idx ad xa : Nat) (up : Bool) : OpOut :=
  let v := xWide r xa
  let a := (r.ar ad).toInt
  if (if up then a < v else v < a) then { regs := { r.setA ad (BitVec.ofInt 56 v) with ix := BitVec.ofNat 17 idx }, wa := some ad }
  else { regs := r }

/-- A law fault of an operation. -/
def opFault (r : ERegs) (code : Nat) : OpOut := { regs := r, fault := some code }

/-- Reads a special register into an X register, or writes it (R329). -/
def sregOp (r : ERegs) (xn sel index : Nat) (toSpecial : Bool) : OpOut :=
  if 7 ≤ sel ∨ (toSpecial ∧ sel = 3) ∨ (3 ≤ sel ∧ index ≠ 0) then opFault r 1
  else if toSpecial then
    let v := r.xr xn
    match sel with
    | 0 => { regs := r.setP index (v.setWidth 16), wp := some index }
    | 1 => { regs := { r with m := r.m.set index (v.setWidth 16) } }
    | 2 => { regs := { r with l := r.l.set index (v.setWidth 14) } }
    | 4 => { regs := { r with ix := v.setWidth 17 } }
    | 5 => { regs := { r with bx := v.setWidth 7 } }
    | _ => { regs := { r with es := (v.setWidth 5).setWidth 8 } }
  else
    let v : W24 := match sel with
      | 0 => (r.pr index).setWidth 24
      | 1 => (r.mr index).signExtend 24
      | 2 => (r.lr index).setWidth 24
      | 3 => r.lc.setWidth 24
      | 4 => r.ix.setWidth 24
      | 5 => r.bx.signExtend 24
      | _ => r.es.setWidth 24
    { regs := r.setX xn v, wx := some xn }

/-- Effect of an operation on the registers; `idx` is the repeat index (R328 to R332). Branches, REP and DONE have their
effect in `execSingle`. -/
def runOp (op : EOp) (idx : Nat) (r : ERegs) : OpOut :=
  let a := fun (i : Nat) => (r.ar i).toInt
  match op with
  | .nop | .done | .brc _ _ | .call _ | .ret | .rep _ => { regs := r }
  | .prod acc uns rnd ad neg xa xb =>
    let p := product r uns neg xa xb
    let v := if acc then a ad + p else p
    if rnd then
      let o := putAcc r ad (rnd24 (sat56 v))
      { o with regs := { o.regs with es := esStick o.regs.es esSAC (decide (sat56 v ≠ v)) } }
    else putAcc r ad v
  | .aadd ad ar => putAcc r ad (a ad + a ar)
  | .asub ad ar => putAcc r ad (a ad - a ar)
  | .aadx ad xa => putAcc r ad (a ad + xWide r xa)
  | .asbx ad xa => putAcc r ad (a ad - xWide r xa)
  | .acmp ad ar => cmpAcc r (a ad - a ar)
  | .acpx ad xa => cmpAcc r (a ad - xWide r xa)
  | .acpy ad ar => putAcc r ad (a ar)
  | .aldx ad xa => putAcc r ad (xWide r xa)
  | .azro ad => putAcc r ad 0
  | .aneg ad => putAcc r ad (-(a ad))
  | .aabs ad => putAcc r ad (a ad).natAbs
  | .rnd ad => putAcc r ad (rnd24 (a ad))
  | .asat ad =>
    let c := sat48 (a ad)
    let o := putAcc r ad c
    { o with regs := { o.regs with es := esStick o.regs.es esSST (decide (c ≠ a ad)) } }
  | .ashl ad sh => if 55 < sh then opFault r 1 else putAcc r ad (a ad * (2 ^ sh : Nat))
  | .ashr ad sh => if 55 < sh then opFault r 1 else putAcc r ad (a ad / (2 ^ sh : Nat))
  | .sclb ad =>
    let b := r.bx.toInt
    putAcc r ad (if 0 ≤ b then a ad * (2 ^ b.toNat : Nat) else a ad / (2 ^ (-b).toNat : Nat))
  | .bexpa ad => minBX r ((signRun 56 (r.ar ad).toNat : Int) - 8)
  | .qstep ad xa =>
    let d := (r.ar ad) <<< 1
    let x := (r.xr xa).toNat
    let d' := if x ≤ d.toNat / 16777216 then d - BitVec.ofNat 56 (x * 16777216) + 1 else d
    { regs := r.setA ad d', wa := some ad }
  | .maxi ad xa => extreme r idx ad xa true
  | .mini ad xa => extreme r idx ad xa false
  | .xhi rnd xd ad => xferX r xd (if rnd then rnd24 (a ad) else a ad) true
  | .xlo xd ad => xferX r xd (a ad) false
  | .xcpy xd xa => putX r xd (r.xr xa)
  | .xadd xd xa xb => putX r xd (r.xr xa + r.xr xb)
  | .xsub xd xa xb => putX r xd (r.xr xa - r.xr xb)
  | .xand xd xa xb => putX r xd (r.xr xa &&& r.xr xb)
  | .xior xd xa xb => putX r xd (r.xr xa ||| r.xr xb)
  | .xeor xd xa xb => putX r xd (r.xr xa ^^^ r.xr xb)
  | .xbit xa b =>
    if 23 < b then opFault r 1
    else { regs := { r with es := esPut (esPut (esPut r.es esN false) esZ (!(r.xr xa).getLsbD b)) esG false } }
  | .bexp xa => minBX r (signRun 24 (r.xr xa).toNat)
  | .sclbx xd xa =>
    let b := r.bx.toInt
    let v := (r.xr xa).toInt
    if 0 ≤ b then
      let w := v * (2 ^ b.toNat : Nat)
      let o := putX r xd (BitVec.ofInt 24 (sat24 w))
      { o with regs := { o.regs with es := esStick o.regs.es esSST (decide (sat24 w ≠ w)) } }
    else putX r xd (BitVec.ofInt 24 (v / (2 ^ (-b).toNat : Nat)))
  | .sreg xn sel index d => sregOp r xn sel index d
  | .bxset v => { regs := { r with bx := v } }
  | .decbr xn _ => { regs := r.setX xn (r.xr xn - 1), wx := some xn }
  | .ximm xd v => { regs := r.setX xd v, wx := some xd }
  | .pimm p v => { regs := r.setP p v, wp := some p }
  | .mimm p v => { regs := { r with m := r.m.set p v } }
  | .limm p v => if 16384 ≤ v.toNat then opFault r 1 else { regs := { r with l := r.l.set p (v.setWidth 14) } }

/-! ### Moves (R321, R322, R335) -/

/-- Pointer and post-modification of a move. -/
def movePtr : Move → Option (Nat × PMod)
  | .none => Option.none
  | .ldX p m _ | .stX p m _ | .ldL p m _ | .ldU p m _ | .stL p m _ | .stU p m _ => some (p.val, m)

/-- The register or accumulator word that a move loads. -/
def moveDest : Move → Option (Nat × Nat)
  | .ldX _ _ r => some (0, r.val)
  | .ldL _ _ a => some (1, a.val)
  | .ldU _ _ a => some (2, a.val)
  | _ => none

/-- The pointer that a move modifies. -/
def moveModifies (m : Move) : Option Nat :=
  match (movePtr m) with
  | some (p, .keep) => let _ := p; none
  | some (p, _) => some p
  | none => none

/-- Two moves that may not stand in one instruction (R335). -/
def clash (m1 m2 : Move) : Bool :=
  ((moveModifies m1).isSome && (moveModifies m1) == (moveModifies m2)) || ((moveDest m1).isSome && (moveDest m1) == (moveDest m2))

/-- The address that a move uses (R322). -/
def moveAddr (r : ERegs) (m : Move) : Option Nat := (movePtr m).map (fun e => (r.pr e.1).toNat)

/-- The smallest k with 2^k ≥ L. -/
def log2Up (l : Nat) : Nat := if l ≤ 1 then 0 else (l - 1).log2 + 1

/-- The pointer after a move (R322). -/
def nextPtr (r : ERegs) (p : Nat) (m : PMod) : BitVec 16 :=
  let off : Int := match m with | .keep => 0 | .inc => 1 | .dec => -1 | .addM => (r.mr p).toInt
  let v : Int := (r.pr p).toNat
  let l := (r.lr p).toNat
  if l = 0 ∨ m = .keep then BitVec.ofInt 16 (v + off)
  else
    let b : Int := ((r.pr p).toNat / 2 ^ log2Up l * 2 ^ log2Up l : Nat)
    BitVec.ofInt 16 (b + (v - b + off) % l)

/-- Modifies the pointer of a move unless the operation wrote that pointer. -/
def bumpPtr (old : ERegs) (wp : Option Nat) (m : Move) (r : ERegs) : ERegs :=
  match (movePtr m) with
  | some (p, md) => if md = .keep ∨ wp = some p then r else r.setP p (nextPtr old p md)
  | none => r

/-- A word of the data memory; one that nothing has written is unspecified (R318; log 14). -/
def ECore.word (c : ECore) (a : Nat) : W24 := (tfind c.data a).getD (Config.freeWord c.freeNo a)

/-- The load that a move starts (R334). -/
def moveLoad (c : ECore) : Move → List Landing
  | .ldX p _ r => [.x r.val (c.word (c.regs.pr p.val).toNat)]
  | .ldL p _ a => [.lower a.val (c.word (c.regs.pr p.val).toNat)]
  | .ldU p _ a => [.upper a.val (c.word (c.regs.pr p.val).toNat)]
  | _ => []

/-- The word that a move stores, and whether a saturation changed it (R321, R325). -/
def moveStore (c : ECore) : Move → Option (Nat × W24 × Bool)
  | .stX p _ r => some ((c.regs.pr p.val).toNat, c.regs.xr r.val, false)
  | .stL p _ a =>
    let v := ((c.aOld[a.val]?).getD 0).toInt
    some ((c.regs.pr p.val).toNat, BitVec.ofInt 24 (sat48 v), decide (sat48 v ≠ v))
  | .stU p _ a =>
    let v := ((c.aOld[a.val]?).getD 0).toInt
    some ((c.regs.pr p.val).toNat, BitVec.ofInt 24 (sat48 v / 16777216), decide (sat48 v ≠ v))
  | _ => none

/-- Applies the store of a move to the data memory and the sticky flag. -/
def doStore (c : ECore) (m : Move) (d : Table W24 × Bool) : Table W24 × Bool :=
  match moveStore c m with
  | some (a, w, sat) => (tput d.1 a w, d.2 || sat)
  | none => d

/-- An accumulator after a word has landed (R321). -/
def landA (v : W56) : Landing → W56
  | .lower _ w => (v >>> 24 <<< 24) ||| w.setWidth 56
  | .upper _ w => (w.signExtend 56) <<< 24
  | .x _ _ => v

/-- The loads of the instruction before land, except into a register that this operation wrote (R335). -/
def landAll (l : List Landing) (wx wa : Option Nat) (x : List W24) (a : List W56) : List W24 × List W56 :=
  l.foldl (fun s e =>
    match e with
    | .x r w => if wx = some r then s else (s.1.set r w, s.2)
    | .lower r _ | .upper r _ => if wa = some r then s else (s.1, s.2.set r (landA ((s.2[r]?).getD 0) e))) (x, a)

/-! ### Instructions -/

/-- A law fault at the present address (R338). -/
def ECore.fail (c : ECore) (code : Nat) : ECore := { c with fault := some (code, c.pc) }

/-- Largest data address a task may use, plus 1 (R318). -/
abbrev dataEnd : Nat := 0x3F00

/-- One instruction with its moves: operation, moves, landing loads, visibility (R321 to R326, R334, R335). -/
def execSingle (op : EOp) (m1 m2 : Move) (idx : Nat) (c : ECore) : ECore :=
  if clash m1 m2 then c.fail 2
  else if (moveAddr c.regs m1).any (Nat.ble dataEnd) || (moveAddr c.regs m2).any (Nat.ble dataEnd) then c.fail 3
  else
    let o := runOp op idx c.regs
    match o.fault with
    | some code => c.fail code
    | none =>
      let (data, sat) := doStore c m2 (doStore c m1 (c.data, false))
      let (x, a) := landAll c.landing o.wx o.wa o.regs.x o.regs.a
      let (_, old) := landAll c.landing o.wx o.wa c.regs.x c.regs.a
      let r1 := { o.regs with x := x, a := a, es := esStick o.regs.es esSST sat }
      { c with
        regs := bumpPtr c.regs o.wp m2 (bumpPtr c.regs o.wp m1 r1),
        aOld := old, nzgOld := c.regs.es, landing := moveLoad c m1 ++ moveLoad c m2, data := data, clocks := c.clocks + 1 }

/-- A branch condition (R327); N, Z and G are those of two instructions before (R334). -/
def condHolds (cc : Nat) (nzg es : BitVec 8) : Option Bool :=
  let n := nzg.getLsbD esN
  let z := nzg.getLsbD esZ
  let g := nzg.getLsbD esG
  match cc with
  | 0 => some true | 1 => some z | 2 => some (!z) | 3 => some n | 4 => some (!n) | 5 => some (!n && !z)
  | 6 => some (n || z) | 7 => some g | 8 => some (!g) | 9 => some (es.getLsbD esSST) | 10 => some (es.getLsbD esSAC)
  | _ => none

/-- The next address, and the end of a branch's delay slots (R334). -/
def advancePc (c : ECore) : ECore :=
  match c.branch with
  | none => { c with pc := c.pc + 1 }
  | some (t, n) =>
    if n ≤ 1 then { c with pc := t.getD (c.pc + 1), branch := none } else { c with pc := c.pc + 1, branch := some (t, n - 1) }

/-- Operations that a REP may repeat: op 0x00 to 0x2C (R333). -/
def repeatable : EOp → Bool
  | .done | .brc _ _ | .call _ | .ret | .decbr _ _ | .rep _ | .ximm _ _ | .pimm _ _ | .mimm _ _ | .limm _ _ => false
  | _ => true

/-- Operations that may not stand in a delay slot (R336). -/
def slotIllegal : EOp → Bool
  | .done | .brc _ _ | .call _ | .ret | .decbr _ _ | .rep _ => true
  | _ => false

/-- Repetitions k to n - 1 of an instruction (R333); stops at a fault. -/
def repeatRun (op : EOp) (m1 m2 : Move) (n : Nat) : Nat → ECore → ECore
  | 0, c => c
  | left + 1, c =>
    if c.fault.isSome then c
    else repeatRun op m1 m2 n left
      (execSingle op m1 m2 (n - (left + 1)) { c with regs := { c.regs with lc := BitVec.ofNat 17 (left + 1) } })

/-- Starts a branch to a target after two delay slots; `none` falls through. -/
def branchTo (t : Option Nat) (c : ECore) : ECore := { c with pc := c.pc + 1, branch := some (t, 2) }

/-- An instruction that is not repeated: operation and moves, then where execution continues (R333, R334, R336, R343). -/
def execFlow (op : EOp) (m1 m2 : Move) (c : ECore) : ECore :=
  if c.branch.isSome && slotIllegal op then c.fail 2
  else
    let c1 := execSingle op m1 m2 0 c
    if c1.fault.isSome then c1
    else
      match op with
      | .brc cc t =>
        match condHolds cc c.nzgOld c.regs.es with
        | none => c.fail 1
        | some true => branchTo (some t.toNat) c1
        | some false => branchTo none c1
      | .call t =>
        if 4 ≤ c.regs.stack.length then c.fail 5
        else branchTo (some t.toNat) { c1 with regs := { c1.regs with stack := BitVec.ofNat 14 (c.pc + 3) :: c1.regs.stack } }
      | .ret =>
        match c.regs.stack with
        | [] => c.fail 5
        | t :: r => branchTo (some t.toNat) { c1 with regs := { c1.regs with stack := r } }
      | .decbr xn t => branchTo (if c.regs.xr xn = 1 then none else some t.toNat) c1
      | .rep n => if 65536 < n then c.fail 1 else { c1 with pc := c.pc + 1, rep := some (n, 0) }
      | .done => { c1 with pc := c.pc + 1, done := true }
      | _ => advancePc c1

/-- A permitted point: no delay slot and no repeat is open (R337). -/
def permitted (c : ECore) : Bool := c.branch.isNone && c.rep.isNone

/-- A halt request takes effect at a permitted point (R348). -/
def takeHalt (c : ECore) : ECore := if c.haltAsked && permitted c then { c with halted := true, haltAsked := false } else c

/-- One instruction on an engine, with all its repetitions where a REP stands before it. An engine that has faulted, has
ended its task or is halted runs none; a fetch beyond 0x3FEF is a law fault (R333, R338, R343, R348). -/
def execInstr (op : EOp) (m1 m2 : Move) (c : ECore) : ECore :=
  if c.fault.isSome || c.done || c.halted then c
  else if 0x3FF0 ≤ c.pc then c.fail 4
  else
    match c.rep with
    | none => takeHalt (execFlow op m1 m2 c)
    | some (n, _) =>
      if !repeatable op then c.fail 2
      else
        let c1 := repeatRun op m1 m2 n n c
        if c1.fault.isSome then c1
        else takeHalt { c1 with regs := { c1.regs with lc := 0 }, rep := none, pc := c.pc + 1 }

/-! ### Instruction words (R320, R321, R328) -/

/-- Bits `hi` down to `lo` of a word. -/
def wbits (w : BitVec 48) (hi lo : Nat) : Nat := bitsOf w.toNat lo (hi - lo + 1)

/-- An X register number below 16, an accumulator number below 4, a pointer number below 8. -/
def x16 (n : Nat) : XReg := ⟨n % 16, Nat.mod_lt _ (by decide)⟩
def a4 (n : Nat) : Acc := ⟨n % 4, Nat.mod_lt _ (by decide)⟩
def p8 (n : Nat) : PReg := ⟨n % 8, Nat.mod_lt _ (by decide)⟩

/-- A move slot; none where it is illegal (R321). -/
def decodeMove (v : Nat) : Option Move :=
  let p := p8 (bitsOf v 9 3)
  let m := match bitsOf v 7 2 with | 0 => PMod.keep | 1 => .inc | 2 => .dec | _ => .addM
  let r := bitsOf v 0 4
  let acc := fun (f : Acc → Move) => if 4 ≤ r then none else some (f (a4 r))
  match bitsOf v 4 3 with
  | 0 => if v = 0 then some .none else none
  | 1 => some (.ldX p m (x16 r))
  | 2 => some (.stX p m (x16 r))
  | 3 => acc (.ldL p m)
  | 4 => acc (.ldU p m)
  | 5 => acc (.stL p m)
  | 6 => acc (.stU p m)
  | _ => none

/-- The operation of a word; none for a reserved op or a field that the instruction does not use and is not 0 (R328,
R338). -/
def decodeOp (w : BitVec 48) : Option EOp :=
  let f1 := wbits w 39 36
  let f2 := wbits w 35 32
  let ad := wbits w 31 30
  let as_ := wbits w 29 28
  let rn := wbits w 27 27 == 1
  let neg := wbits w 26 26 == 1
  let z := fun (hi lo : Nat) (o : EOp) => if wbits w hi lo = 0 then some o else none
  let z2 := fun (h1 l1 h2 l2 : Nat) (o : EOp) => if wbits w h1 l1 = 0 ∧ wbits w h2 l2 = 0 then some o else none
  let prod := fun (acc uns : Bool) => z2 29 28 25 24 (.prod acc uns rn ad neg f1 f2)
  let adOnly := fun (o : EOp) => z2 39 32 29 24 o
  let adAs := fun (o : EOp) => z2 39 32 27 24 o
  let adX := fun (o : EOp) => z2 35 32 29 24 o
  match wbits w 47 40 with
  | 0x00 => z 39 24 .nop
  | 0x01 => prod false false
  | 0x02 => prod true false
  | 0x03 => prod false true
  | 0x04 => prod true true
  | 0x08 => adAs (.aadd ad as_)
  | 0x09 => adAs (.asub ad as_)
  | 0x0A => adX (.aadx ad f1)
  | 0x0B => adX (.asbx ad f1)
  | 0x0C => adAs (.acmp ad as_)
  | 0x0D => adX (.acpx ad f1)
  | 0x0E => adAs (.acpy ad as_)
  | 0x0F => adX (.aldx ad f1)
  | 0x10 => adOnly (.azro ad)
  | 0x11 => adOnly (.aneg ad)
  | 0x12 => adOnly (.aabs ad)
  | 0x13 => adOnly (.rnd ad)
  | 0x14 => adOnly (.asat ad)
  | 0x15 => z 39 32 (.ashl ad (wbits w 29 24))
  | 0x16 => z 39 32 (.ashr ad (wbits w 29 24))
  | 0x17 => adOnly (.sclb ad)
  | 0x18 => adOnly (.bexpa ad)
  | 0x19 => adX (.qstep ad f1)
  | 0x1A => adX (.maxi ad f1)
  | 0x1B => adX (.mini ad f1)
  | 0x20 => if wbits w 35 32 = 0 ∧ wbits w 29 28 = 0 ∧ wbits w 26 24 = 0 then some (.xhi rn f1 ad) else none
  | 0x21 => adX (.xlo f1 ad)
  | 0x22 => z 31 24 (.xcpy f1 f2)
  | 0x23 => z 27 24 (.xadd f1 f2 (wbits w 31 28))
  | 0x24 => z 27 24 (.xsub f1 f2 (wbits w 31 28))
  | 0x25 => z 27 24 (.xand f1 f2 (wbits w 31 28))
  | 0x26 => z 27 24 (.xior f1 f2 (wbits w 31 28))
  | 0x27 => z 27 24 (.xeor f1 f2 (wbits w 31 28))
  | 0x28 => z 30 24 (.xbit f1 (wbits w 35 31))
  | 0x29 => z 35 24 (.bexp f1)
  | 0x2A => z 31 24 (.sclbx f1 f2)
  | 0x2B => z 27 24 (.sreg f1 f2 (wbits w 31 29) (wbits w 28 28 == 1))
  | 0x2C => z 39 31 (.bxset (BitVec.ofNat 7 (wbits w 30 24)))
  | 0x2F => z 39 24 .done
  | 0x30 => z 34 14 (.brc (wbits w 39 35) (BitVec.ofNat 14 (wbits w 13 0)))
  | 0x31 => z 39 14 (.call (BitVec.ofNat 14 (wbits w 13 0)))
  | 0x32 => z 39 0 .ret
  | 0x33 => z 35 14 (.decbr f1 (BitVec.ofNat 14 (wbits w 13 0)))
  | 0x34 => some (.rep (wbits w 39 24))
  | 0x35 => some (.rep (65536 + wbits w 39 24))
  | 0x38 => z 35 24 (.ximm f1 (BitVec.ofNat 24 (wbits w 23 0)))
  | 0x39 => z2 39 39 35 16 (.pimm (wbits w 38 36) (BitVec.ofNat 16 (wbits w 15 0)))
  | 0x3A => z2 39 39 35 16 (.mimm (wbits w 38 36) (BitVec.ofNat 16 (wbits w 15 0)))
  | 0x3B => z2 39 39 35 16 (.limm (wbits w 38 36) (BitVec.ofNat 16 (wbits w 15 0)))
  | _ => none

/-- A word carries move slots: op 0x00 to 0x2F and REP (R320). -/
def hasMoves (w : BitVec 48) : Bool := let op := wbits w 47 40; Nat.ble op 0x2F || op == 0x34 || op == 0x35

/-- The instruction of a word; none is a law fault of code 1 (R338). -/
def decodeWord (w : BitVec 48) : Option (EOp × Move × Move) :=
  match decodeOp w with
  | none => none
  | some o =>
    if hasMoves w then
      match decodeMove (wbits w 23 12), decodeMove (wbits w 11 0) with
      | some m1, some m2 => some (o, m1, m2)
      | _, _ => none
    else some (o, .none, .none)

/-- A word of the program memory: below 0x2000 the standard library, from 0x2000 on what LAW_LOAD wrote (R317; log 13). -/
def progWord (s : State) (a : Nat) : BitVec 48 :=
  if a < 0x2000 then Config.stdWord s.dev.fwPatch a else tget s.disp.prog 0 a

/-- Fetches and executes one instruction. -/
def fetchRun (s : State) (c : ECore) : ECore :=
  if c.fault.isSome || c.done || c.halted then c
  else if 0x3FF0 ≤ c.pc then c.fail 4
  else
    match decodeWord (progWord s c.pc) with
    | some (o, m1, m2) => execInstr o m1 m2 c
    | none => c.fail 1

/-- Runs until DONE, a fault, a halt, or a number of clocks (R343, R345). -/
def runClocks (s : State) (limit : Nat) : Nat → ECore → ECore
  | 0, c => c
  | n + 1, c => if c.fault.isSome || c.done || c.halted || Nat.ble limit c.clocks then c else runClocks s limit n (fetchRun s c)

/-- Registers at task entry (R315, R339). -/
def entryRegs (flags tick inLen stLen outLen : Nat) : ERegs :=
  let p2 := inLen + stLen
  { x := BitVec.ofNat 24 flags :: BitVec.ofNat 24 tick :: List.replicate 14 0,
    p := [0, BitVec.ofNat 16 inLen, BitVec.ofNat 16 p2, BitVec.ofNat 16 (p2 + outLen), 0, 0, 0, 0] }

/-- The words of a byte string of the shared SRAM, bits [23:0] of each container (R319). -/
def sramWords (s : State) (base : Nat) (n : Nat) : List W24 :=
  (List.range n).map (fun i => BitVec.ofNat 24 (leNat (s.sramRead (base + 4 * i) 3)))

/-- A table of words from an address on. -/
def wordTable (a : Nat) (ws : List W24) : Table W24 := (ws.zipIdx).map (fun e => (a + e.2, e.1))

/-- The core of an engine at the entry of a task: the bank filled, registers as R315 says (R287, R318, R319). -/
def entryCore (s : State) (entry base inLen stLen outLen flags : Nat) : ECore :=
  { regs := entryRegs flags s.cyc.tick inLen stLen outLen, pc := entry,
    data := wordTable 0 (sramWords s base (inLen + stLen)), inLen := inLen, stLen := stLen, outLen := outLen,
    freeNo := s.free }

/-- Words of the data memory. -/
def ECore.words (c : ECore) (a n : Nat) : List W24 := (List.range n).map (fun i => c.word (a + i))

/-- An engine command: an engine that the part has and that is in service executes one instruction. -/
def runRow (e : Nat) (op : EOp) (m1 m2 : Move) (s : State) : Host.Outcome State Fault Refusal :=
  if e < engineCount s.var ∧ (s.engine e).state = .inService then
    .next (s.onEngine e (fun g => { g with core := execInstr op m1 m2 g.core }))
  else .next s

end Sys2Proof.Machine
end

