-- ==== Sys2Proof/Machine/Safety.lean ====
section
/-! DEFINITION. The safety unit (R533 to R567): the safety image, input pairs, functions, outputs, connections, the comparison
of the two channels, and the reactions of the device. Its clocks count as device time does, and run on while the time clock stands (log 26). -/

namespace Sys2Proof.Machine

/-- A pair. -/
def State.sin (s : State) (p : Nat) : SinPair := tget s.safe.pairs {} p
/-- A function. -/
def State.fn (s : State) (f : Nat) : SafeFn := tget s.safe.fns {} f
/-- A safety output: 0 to 7 SOUT, 8 STO_A, 9 STO_B. -/
def State.sout (s : State) (n : Nat) : Sout := tget s.safe.outs {} n
/-- A connection. -/
def State.conn (s : State) (c : Nat) : SafeConn := tget s.safe.conns {} c
/-- Changes the safety unit. -/
def State.onSafe (s : State) (g : Safety → Safety) : State := { s with safe := g s.safe }
/-- Changes a function. -/
def State.onFn (s : State) (f : Nat) (g : SafeFn → SafeFn) : State := s.onSafe (fun u => { u with fns := tmod u.fns {} f g })
/-- Changes an output. -/
def State.onSout (s : State) (n : Nat) (g : Sout → Sout) : State := s.onSafe (fun u => { u with outs := tmod u.outs {} n g })
/-- Changes a connection. -/
def State.onConn (s : State) (c : Nat) (g : SafeConn → SafeConn) : State :=
  s.onSafe (fun u => { u with conns := tmod u.conns {} c g })

/-! ### The safety image (R536, R537, R553) -/

/-- CRC of R548: polynomial 0x741B8CD7, unreflected, initial value all ones, no final exclusive-or. -/
def safeCrc (b : Bytes) : Nat := crcBits 32 0x741B8CD7 0xFFFFFFFF (b.flatMap byteBits)

/-- A record of the image sets this parameter: a value of the safety configuration, not a state or a count. -/
def safeParam (obj sub : Nat) : Bool :=
  (obj == 0xA000 && Nat.ble 4 sub && Nat.ble sub 6) || (obj == 0xA010 && Nat.ble 1 sub && Nat.ble sub 3) ||
  (obj == 0xA020 && Nat.ble 1 sub && Nat.ble sub 6) || (obj == 0xA030 && Nat.ble 1 sub && Nat.ble sub 8) ||
  (obj == 0xA040 && Nat.ble 1 sub && Nat.ble sub 2)

/-- A value lies in one of the ranges. -/
def inRanges (v : Int) (l : List (Int × Int)) : Bool := l.any (fun r => decide (r.1 ≤ v) && decide (v ≤ r.2))

/-- One record of 8 bytes: the key and value it sets; none where it is not a value of the configuration (R536). -/
def safeRecord (b : Bytes) : Option (Nat × Int) :=
  let obj := uAt b 0 2
  let sub := uAt b 2 1
  let i := uAt b 3 1
  match paramDef obj sub with
  | none => none
  | some d =>
    if !safeParam obj sub ∨ objectCount obj ≤ i then none
    else match contVal d.ty (slice b 4 4) with
      | some v =>
        if inRanges v d.ranges ∧ uAt b (4 + contLen d.ty) (4 - contLen d.ty) = 0 then some (pkey (obj * 256 + sub) i, v) else none
      | none => none

/-- The values of all records; none where one is bad. -/
def safeRecords (b : Bytes) : Nat → Option (Table Int)
  | 0 => some []
  | n + 1 =>
    match safeRecords b n, safeRecord (slice b (12 + 8 * n) 8) with
    | some t, some (k, v) => some (tput t k v)
    | _, _ => none

/-- A value of an image: what a record sets, else the default. -/
def safeVal (t : Table Int) (n i : Nat) : Int := (tfind t (pkey n i)).getD (pDefault n)

/-- The checks of R540 and R553 over the values of an image. -/
def safeConsistent (t : Table Int) : Bool :=
  let v := fun n i => safeVal t n i
  let conns := (List.range 128).filter (fun c => v Par.connId c != 0)
  let fns := (List.range 16).filter (fun f => v Par.fnKind f != 0)
  let triggers := (List.range 8).filter (fun r => fns.any (fun f => bitOf (v Par.fnTrigger f).toNat (8 + r)))
  (v Par.resetSin 0 == 255 || v Par.pairMode ((v Par.resetSin 0).toNat / 2) == 0) &&
  conns.all (fun c => decide (v Par.connPeriod c * 375 ≤ v Par.connWd c * 1000)) &&
  noRepeats (conns.map (fun c => (v Par.connId c).toNat)) &&
  triggers.all (fun r => v Par.connId (v Par.rtConn r).toNat != 0)

/-- The values that an image puts in force; none where S1 finds a defect of format, signature or range (R536, R537, R553). -/
def parseSafety (b : Bytes) : Option (Table Int) :=
  let n := uAt b 6 2
  if uAt b 0 4 ≠ 0x46534B43 ∨ uAt b 4 2 ≠ 1 ∨ n = 0 ∨ 2048 < n ∨ uAt b 8 2 = 0 ∨ uAt b 10 2 ≠ 0 ∨ b.length ≠ 16 + 8 * n then none
  else if safeCrc (slice b 0 (12 + 8 * n)) ≠ uAt b (12 + 8 * n) 4 then none
  else match safeRecords b n with
    | some t =>
      if safeConsistent t then
        some (tput (tput t (pkey Par.safeAddr 0) (uAt b 8 2)) (pkey Par.imageSig 0) (uAt b (12 + 8 * n) 4))
      else none
    | none => none

/-- The parameters of the safety unit take the values of an image over their defaults. -/
def putSafe (t : Table Int) (s : State) : State :=
  { s with par := { s.par with
      active := t.foldl (fun a e => tput a e.1 e.2) (s.par.active.filter (fun e => e.1 / 16777216 != 0xA0)) } }

/-! ### Functions and outputs (R541 to R547) -/

/-- A remote trigger demands (R545). -/
def remoteDemands (s : State) (r : Nat) : Bool :=
  let c := s.conn (parN s Par.rtConn r)
  let b := parN s Par.rtBit r
  c.state != 2 || !bitOf (uAt c.reply (b / 8) 1) (b % 8)

/-- A pair demands: it is in any condition other than released (R538). -/
def pairDemands (s : State) (p : Nat) : Bool := (s.sin p).phase != .released || (s.sin p).discrepancy

/-- A function is set up. -/
def fnUsed (s : State) (f : Nat) : Bool := par s Par.fnKind f != 0

/-- A trigger of the function demands (R541). -/
def fnTriggered (s : State) (f : Nat) : Bool :=
  let t := parN s Par.fnTrigger f
  (List.range 8).any (fun p => bitOf t p && pairDemands s p) || (List.range 8).any (fun r => bitOf t (8 + r) && remoteDemands s r)

/-- The output is a target of the function (R541). -/
def isTarget (s : State) (f n : Nat) : Bool :=
  if n < 8 then bitOf (parN s Par.fnSout f) n else bitOf (parN s Par.fnLocal f) 0

/-- Both channels may energize the output: the unit runs, a function names it, none that names it holds its STO, no fault
is latched. -/
def soutWanted (s : State) (n : Nat) : Bool :=
  let fns := (List.range 16).filter (fun f => fnUsed s f && isTarget s f n)
  s.safe.state == 1 && !fns.isEmpty && fns.all (fun f => Nat.ble (s.fn f).state 1) && !(s.sout n).latched

/-- The number of safety outputs. -/
abbrev soutCount : Nat := 10

/-- Both channels de-energize an output. -/
def soutOff (now : Nat) (o : Sout) : Sout := { o with on := false, offAt := if o.on then now else o.offAt }

/-- Outputs that may not be energized switch off at once (R533, R541). -/
def dropOutputs (s : State) : State :=
  (List.range soutCount).foldl (fun s n => if (s.sout n).on && !soutWanted s n then s.onSout n (soutOff (safeNs s)) else s) s

/-- The instant in ns of the first scheduled pulse of an output after an instant (R546). -/
def nextPulse (s : State) (n now : Nat) : Nat :=
  let per := max 1 (parN s Par.tpPeriod 0 * 1000000)
  let first := s.safe.pulseBase + per * n / 10
  if now < first then first else first + ((now - first) / per + 1) * per

/-- Outputs that may be energized switch on at a comparison; not before the end of a pulse. Pulses that fell due while the
output was de-energized are skipped, and the next one falls in its normal place (R542, R547). -/
def raiseOutputs (s : State) : State :=
  (List.range soutCount).foldl (fun s n =>
    if !(s.sout n).on && soutWanted s n && Nat.ble (s.sout n).pulseEnd (safeNs s) then s.onSout n (fun o => { o with on := true, pulseNext := nextPulse s n (safeNs s) })
    else s) s

/-- A function starts to demand (R541, R543): its state, the event and its shavings trigger, SAFE_HOLD. -/
def startDemand (s : State) (f : Nat) : State :=
  let now := safeNs s
  let ss1 := par s Par.fnKind f == 2
  let s1 := s.onFn f (fun x => { x with state := if ss1 then 1 else 2, since := now,
                                        resetSeen := x.resetSeen && !x.freshReset, freshReset := false })
  let s2 := raiseWarn s1 Ev.safetyDemand Kind.fn f
  enterSafeHold (freezeRecord (dropOutputs s2) 4 Ev.safetyDemand (nowNs s))

/-- What its triggers do to a function in demand (R542). -/
def settleFn (s : State) (f : Nat) : State :=
  let x := s.fn f
  if fnTriggered s f then (if x.state = 3 then s.onFn f (fun x => { x with state := 2 }) else s)
  else if x.state = 0 then s
  else if par s Par.fnRestart f = 0 ∧ x.resetSeen then s.onFn f (fun x => { x with state := 0 })
  else if x.state = 2 then s.onFn f (fun x => { x with state := 3 })
  else s

/-- Every function follows its triggers; new demands start (R541, R542). -/
def evalFns (s : State) : State :=
  (List.range 16).foldl (fun s f =>
    if !fnUsed s f then s
    else if fnTriggered s f && (s.fn f).state == 0 then startDemand s f else settleFn s f) s

/-- A safety demand is active (R29). -/
def safetyDemand (s : State) : Bool := hasLocal s.var && (List.range 16).any (fun f => fnUsed s f && (s.fn f).state != 0)

/-- The stop request of R543 acts on an axis. -/
def safetyStops (s : State) (a : Nat) : Bool :=
  hasLocal s.var && (List.range 16).any (fun f => fnUsed s f && (s.fn f).state != 0 && servesAxis s a f)

/-! ### Safety fault (R535) -/

/-- The unit enters the safety fault state (R535). -/
def safetyFault (s : State) (cause : Nat) (flags : Nat := 0) : State :=
  if s.safe.state ≠ 0 ∧ s.safe.state ≠ 1 then s
  else
    let s1 := dropOutputs (s.onSafe (fun u => { u with state := 2, faultCause := cause }))
    raiseDevice s1 { source := Ev.safetyFault, cls := Cls.device, cause := cause, flags := flags } 4

/-- The clock monitor trips (R25, R413, R535): a device fault, and the safety unit takes its outputs off by itself. -/
def clockTrips (s : State) : State :=
  let s1 := raiseDevice s { source := Ev.clockMonitor, cls := Cls.device }
  if hasLocal s.var then safetyFault s1 2 else s1

/-- A difference between the channels' vectors; the fourth in succession is a failure (R534). -/
def noteDifference (s : State) : State :=
  let s1 := s.onSafe (fun u => { u with diffs := u.diffs + 1 })
  if 4 ≤ s1.safe.diffs then safetyFault s1 1 else s1

/-- SAFETY_VECTOR_EXCHANGE (R23, R534, R542): the channels compare; where they agree, released targets are energized. A double-bit error in the
RAM of S1 that the re-read confirms is a safety fault (R606; log 36), as is a failed self-test of a channel (R535). -/
def execSafetyVectorExchange (dt : Nat) (vectors : VectorRead) (s0 : State) : Out :=
  let s := advance dt s0
  if !hasLocal s.var ∨ (s.dev.mode ≠ .boot ∧ s.safe.state = 0) then .next s
  else if vectors.ecc = .confirmed then .next (safetyFault s 3 2)
  else if let some s2 := vectors.selfTest then .next (safetyFault s (if s2 then 4 else 3))
  else
    let s := noteRead s 5 vectors.ecc
    let now := safeNs s
    if vectors.differ then .next (noteDifference (s.onSafe (fun u => { u with exchangedAt := now })))
    else
      let s1 := s.onSafe (fun u => { u with diffs := 0, exchangedAt := now, fns := tmap u.fns (fun _ x => { x with freshReset := false }) })
      .next (raiseOutputs (evalFns s1))

/-- SAFETY_VECTOR_MISSING (R534): no vector from the other channel within 500 µs. -/
def execSafetyVectorMissing (dt : Nat) (s0 : State) : Out :=
  let s := advance dt s0
  .next (if hasLocal s.var ∧ s.safe.exchangedAt + 500000 ≤ safeNs s then safetyFault s 1 else s)

/-! ### Inputs (R538 to R540) -/

/-- Inputs of a pair at their released levels, as both channels read them (R538). -/
def relLevels (mode : Nat) (x : SinPair) : Bool × Bool :=
  (x.on1a && x.on2a, if mode = 2 then !x.on1b && !x.on2b else x.on1b && x.on2b)

/-- The time within which the second input must follow, in ns. -/
def discNs (s : State) (p : Nat) : Nat := parN s Par.sinDiscrepancy p * 1000000

/-- The second input has not followed in time (R539, R562). -/
def pairLate (s : State) (p : Nat) : Bool :=
  let x := s.sin p
  (x.phase == .leaving || x.phase == .returning) && !x.discrepancy && Nat.blt (x.changedAt + discNs s p) (safeNs s)

/-- The discrepancy fault of a pair (R539). -/
def discrepancyFault (s : State) (p : Nat) : State :=
  evalFns (raiseWarn (s.onSafe (fun u => { u with pairs := tmod u.pairs {} p (fun x => { x with discrepancy := true }) }))
    Ev.sinDiscrepancy Kind.channel p)

/-- A pair after a change of its levels (R538, R539). -/
def judgePair (mode now : Nat) (x : SinPair) : SinPair :=
  let r := relLevels mode x
  if !r.1 ∧ !r.2 then { x with phase := .demanding, discrepancy := false }
  else if x.discrepancy then x
  else match x.phase with
    | .demanding =>
      if r.1 ∧ r.2 then { x with phase := .released } else { x with phase := .returning, changedAt := now }
    | .returning => if r.1 ∧ r.2 then { x with phase := .released } else x
    | .released => if r.1 ∧ r.2 then x else { x with phase := .leaving, changedAt := now }
    | .leaving => x

/-- A qualified reset (R540, R542, R546, R550, R560, R567). -/
def qualifiedReset (s : State) : State :=
  if s.safe.state ≠ 1 then s
  else
    let s1 := (List.range 16).foldl (fun s f =>
      let x := s.fn f
      if !fnUsed s f ∨ fnTriggered s f ∨ (x.state ≠ 0 ∧ s.safe.exchangedAt < x.since) then s
      else s.onFn f (fun x => { x with state := 0, freshReset := x.freshReset || !x.resetSeen, resetSeen := true })) s
    s1.onSafe (fun u => { u with
      outs := tmap u.outs (fun n o => if o.latched then { o with clearPending := true, pulseNext := nextPulse s n (safeNs s) } else o),
      conns := tmap u.conns (fun _ c => if c.state = 0 then c else { c with resetDemand := true }) })

/-- The reset input falls: a qualified reset after an on level of 50 ms to 5 s (R540). -/
def resetFalls (s : State) : State :=
  let held := safeNs s - s.safe.resetAt
  let s1 := s.onSafe (fun u => { u with resetOn1 := false, resetOn2 := false })
  if 50000000 ≤ held ∧ held ≤ 5000000000 then qualifiedReset s1 else s1

/-- The filtered level of an input in a channel when a new level comes: a level stands for sin_filter before another one counts
(R538). -/
def sinLevel (s : State) (n ch : Nat) (old new : Bool) : Bool :=
  match tfind s.safe.levelAt (2 * n + ch) with
  | some t => if safeNs s < t + parN s Par.sinFilter (n / 2) * 1000 then old else new
  | none => new

/-- Notes when the filtered level of an input changes in a channel. -/
def noteLevel (n ch : Nat) (old new : Bool) (s : State) : State :=
  if old = new then s else s.onSafe (fun u => { u with levelAt := tput u.levelAt (2 * n + ch) (safeNs s) })

/-- The reset input is on in both channels. -/
def resetLevel (s : State) : Bool := s.safe.resetOn1 && s.safe.resetOn2

/-- The filtered levels of an input in S1 and S2. -/
def sinLevels (s : State) (n : Nat) : Bool × Bool :=
  if parN s Par.resetSin 0 = n then (s.safe.resetOn1, s.safe.resetOn2)
  else if n % 2 = 0 then ((s.sin (n / 2)).on1a, (s.sin (n / 2)).on2a) else ((s.sin (n / 2)).on1b, (s.sin (n / 2)).on2b)

/-- SIN_CHANGE (R538 to R540): an input changes its filtered level in S1 and S2. -/
def execSinChange (dt : Nat) (n : Nat) (new1 new2 : Bool) (s0 : State) : Out :=
  let sa := advance dt s0
  let (old1, old2) := sinLevels sa n
  let on1 := sinLevel sa n 0 old1 new1
  let on2 := sinLevel sa n 1 old2 new2
  let s := noteLevel n 1 old2 on2 (noteLevel n 0 old1 on1 sa)
  if 16 ≤ n ∨ !hasLocal sa.var then .next sa
  else if parN s Par.resetSin 0 = n then
    if on1 && on2 then
      .next (if resetLevel s then s else s.onSafe (fun u => { u with resetOn1 := true, resetOn2 := true, resetAt := safeNs s }))
    else if resetLevel s then .next ((resetFalls s).onSafe (fun u => { u with resetOn1 := on1, resetOn2 := on2 }))
    else .next (s.onSafe (fun u => { u with resetOn1 := on1, resetOn2 := on2 }))
  else
    let p := n / 2
    let s1 := if pairLate s p then discrepancyFault s p else s
    let mode := parN s Par.pairMode p
    let now := safeNs s
    let set := fun x : SinPair => if n % 2 = 0 then { x with on1a := on1, on2a := on2 } else { x with on1b := on1, on2b := on2 }
    .next (evalFns (s1.onSafe (fun u => { u with
      pairs := tmod u.pairs {} p (fun x => if mode = 0 then set x else judgePair mode now (set x)) })))

/-- SIN_DISCREPANCY (R539, R562). -/
def execSinDiscrepancy (dt : Nat) (pair : Nat) (s0 : State) : Out :=
  let s := advance dt s0
  .next (if pair < 8 ∧ hasLocal s.var ∧ pairLate s pair then discrepancyFault s pair else s)

/-- QUALIFIED_RESET (R540, R542): the falling edge after an on level of 50 ms to 5 s. -/
def execQualifiedReset (dt : Nat) (s0 : State) : Out :=
  let s := advance dt s0
  .next (if hasLocal s.var ∧ resetLevel s then resetFalls s else s)

/-- SS1_TIME_EXPIRY (R541, R544, R561): at the end of ss1_time the STO of kind 1. -/
def execSs1TimeExpiry (dt : Nat) (fn : Nat) (s0 : State) : Out :=
  let s := advance dt s0
  let x := s.fn fn
  if fn < 16 ∧ hasLocal s.var ∧ fnUsed s fn ∧ x.state = 1 ∧ x.since + parN s Par.ss1Time fn * 1000000 ≤ safeNs s then
    .next (dropOutputs (settleFn (s.onFn fn (fun x => { x with state := 2 })) fn))
  else .next s

/-! ### Outputs (R546, R547) -/

/-- An output fault: the output is latched off, its functions demand, SOUT_FAULT (R546); its cause counts the conditions of the rule from
1 (log 26). -/
def latchOutput (s : State) (n cause : Nat) : State :=
  let s1 := s.onSout n (fun o => { (soutOff (safeNs s) o) with latched := true, clearPending := false, faults := inc32 o.faults })
  let s2 := raiseWarn s1 Ev.soutFault Kind.channel n cause
  (List.range 16).foldl (fun s f =>
    if fnUsed s f && isTarget s f n then
      if (s.fn f).state = 0 then startDemand s f else s
    else s) s2

/-- TEST_PULSE (R546, R547): the pulse of an energized output, or of one whose latch waits for it after a reset. -/
def execTestPulse (dt : Nat) (out : Nat) (readsOff : Bool) (s0 : State) : Out :=
  let s := advance dt s0
  let o := s.sout out
  let now := safeNs s
  if soutCount ≤ out ∨ !hasLocal s.var ∨ s.safe.state ≠ 1 ∨ now < o.pulseNext ∨ !(o.on || (o.latched && o.clearPending)) then .next s
  else
    let s1 := s.onSout out (fun o => { o with pulseNext := nextPulse s out now, bySw2 := !o.bySw2,
                                              pulseEnd := if o.on then now + parN s Par.tpWidth 0 * 1000 else o.pulseEnd })
    if !readsOff then .next (latchOutput s1 out 1)
    else .next (s1.onSout out (fun o => if o.latched then { o with latched := false, clearPending := false } else o))

/-- A readback contradicts an output (R546): on (cause 2) while it is de-energized, 2 ms after a switch-off; off (cause 3) while it is
energized, outside its pulses. -/
def readbackWrong (s : State) (n cause : Nat) : Bool :=
  let o := s.sout n
  if cause = 2 then !o.on && Nat.ble (o.offAt + 2000000) (safeNs s) else cause == 3 && o.on && Nat.ble o.pulseEnd (safeNs s)

/-- OUTPUT_FAULT (R546): a readback shows on while de-energized, or off while energized outside pulses. -/
def execOutputFault (dt : Nat) (out : Nat) (cause : Nat) (s0 : State) : Out :=
  let s := advance dt s0
  .next (if soutCount ≤ out ∨ !hasLocal s.var ∨ !readbackWrong s out cause then s else latchOutput s out cause)

/-- sout_state (R558). -/
def soutCode (s : State) (n : Nat) : Nat :=
  let o := s.sout n
  if o.latched then 3 else if !o.on then 0 else if safeNs s < o.pulseEnd then 2 else 1

/-! ### Connections (R548 to R553) -/

/-- A connection is set up. -/
def connUsed (s : State) (c : Nat) : Bool := Nat.blt c 128 && par s Par.connId c != 0

/-- The identity prefix of a message of the connection (R548). -/
def connPrefix (s : State) (c : Nat) (fromNode : Bool) : Bytes :=
  let own := b16 (parN s Par.safeAddr 0)
  let node := b16 (Config.nodeSafeAddr c)
  (if fromNode then node ++ own else own ++ node) ++ b16 (parN s Par.connId c) ++ b16 (parN s Par.connWd c) ++ b32 (parN s Par.connSig c)

/-- A message without its CRC. -/
def msgBody (s : State) (c seq flags : Nat) (data : Bytes) : Bytes :=
  b16 (parN s Par.connId c) ++ b16 seq ++ b8 flags ++ b8 data.length ++ data

/-- The data of a new message (R549): every bit is 1 while no function named in conn_fns holds its STO. -/
def connData (s : State) (c : Nat) : Bytes :=
  let held := (List.range 16).any (fun f => bitOf (parN s Par.connFns c) f && fnUsed s f && Nat.ble 2 (s.fn f).state)
  List.replicate (parN s Par.connLen c) (if held then 0 else 0xFF)

/-- A connection starts: number 1 with the restart and fail-safe flags (R550). -/
def startConn (now : Nat) (c : SafeConn) : SafeConn :=
  { c with state := 1, seq := 1, flags := 5, data := [], isNew := true, departed := false, wdAt := now, reply := [], out := none }

/-- The number after a number (R550). -/
def nextSeq (n : Nat) : Nat := if n = 65535 then 1 else n + 1

/-- The ring and address of a connection's node. -/
def connNode (s : State) (c : Nat) : Nat × Nat := (parN s Par.connNode c / 64, parN s Par.connNode c % 64 + 1)

/-- The check of a connection against a plan: its watchdog against the plan's rate, its node in the plan (R553). -/
def connFits (s : State) (m : Image) (c : Nat) : Bool :=
  let (r, addr) := connNode s c
  Nat.ble (3 * parN s Par.connPeriod c * periodNs (planRate m)) (parN s Par.connWd c * 1000000) &&
  (pnodes m r).any (fun n => n.addr == addr)

/-- The connections that fail the check against a plan stop and are reported; those that pass start where they do not run
(R550, R553). -/
def checkConns (m : Image) (s : State) : State :=
  if !hasLocal s.var then s
  else
    let now := safeNs s
    evalFns ((List.range 128).foldl (fun s c =>
      if !connUsed s c then s
      else if !connFits s m c then
        raiseWarn (s.onConn c (fun x => { x with state := 0, out := none })) Ev.safeConnLost Kind.conn c
      else if (s.conn c).state = 0 then s.onConn c (startConn now) else s) s)

/-- The connections stop with the cycle. -/
def stopConns (s : State) : State :=
  if !hasLocal s.var then s
  else evalFns (s.onSafe (fun u => { u with conns := tmap u.conns (fun _ c => { c with state := 0, out := none }) }))

/-- The message that a connection sends now and the connection after it (R535, R548 to R550). -/
def composeMsg (s : State) (c : Nat) : SafeConn :=
  let x := s.conn c
  let fsv := s.safe.state == 2 || bitOf x.flags 0
  if x.isNew then
    let restart := bitOf x.flags 2
    { x with isNew := false, departed := false,
             flags := (if fsv then 1 else 0) + (if x.resetDemand then 2 else 0) + (if restart then 4 else 0),
             data := if fsv then zeros (parN s Par.connLen c) else connData s c }
  else if s.safe.state = 2 then { x with flags := if fsv && !bitOf x.flags 0 then x.flags + 1 else x.flags, data := zeros (parN s Par.connLen c) }
  else x

/-- The message that stands ready leaves: the watchdog runs from the first departure of a number (R551). -/
def departMsg (now : Nat) (x : SafeConn) : SafeConn :=
  if x.out.isSome && !x.departed then { x with departed := true, wdAt := now } else x

/-- The bytes of the current message; a message on which the channels disagree has its CRC inverted (R550). -/
def msgBytes (s : State) (c : Nat) (x : SafeConn) (agree : Bool) : Bytes :=
  let body := msgBody s c x.seq x.flags x.data
  let crc := safeCrc (connPrefix s c false ++ body)
  body ++ b32 (if agree then crc else 4294967295 - crc)

/-- SAFE_MSG_TX (R548 to R550, R552): the message stands ready for burst 1, or for an acyclic frame of service 0x06. -/
def execSafeMsgTx (dt : Nat) (conn : Nat) (agree : Bool) (s0 : State) : Out :=
  let s := advance dt s0
  if !hasLocal s.var ∨ !connUsed s conn ∨ (s.conn conn).state = 0 ∨ !s.cyc.running ∨
      s.cyc.tick % parN s Par.connPeriod conn ≠ 0 then .next s
  else
    let x := composeMsg s conn
    let s1 := s.onConn conn (fun _ => { x with out := some (msgBytes s conn x agree) })
    .next (if agree then s1 else noteDifference s1)

/-- A connection has timed out: it stops, its triggers demand, SAFE_CONN_LOST, and it restarts (R551). -/
def loseConn (s : State) (c : Nat) : State :=
  let now := safeNs s
  let s1 := raiseWarn (s.onConn c (fun x => { x with state := 0, timeouts := inc32 x.timeouts })) Ev.safeConnLost Kind.conn c
  evalFns ((evalFns s1).onConn c (startConn now))

/-- The producer's watchdog has expired: an item stamped exactly at its instant comes too late (R551). -/
def connExpired (s : State) (c : Nat) : Bool :=
  let x := s.conn c
  x.state != 0 && !x.isNew && x.departed && Nat.ble (x.wdAt + parN s Par.connWd c * 1000000) (safeNs s)

/-- A reply with a good CRC and layout on its connection. -/
def echoGood (s : State) (c : Nat) (msg : Bytes) : Bool :=
  let n := uAt msg 5 1
  msg.length == 10 + n && Nat.ble 1 n && Nat.ble n 16 && uAt msg 0 2 == parN s Par.connId c && Nat.blt (uAt msg 4 1) 8 &&
  uAt msg (6 + n) 4 == safeCrc (connPrefix s c true ++ slice msg 0 (6 + n))

/-- SAFE_ECHO_RX (R545, R548 to R551): a valid echo of the current number advances it. -/
def execSafeEchoRx (dt : Nat) (conn : Nat) (msg : Bytes) (s0 : State) : Out :=
  let s1 := advance dt s0
  if !hasLocal s1.var ∨ !connUsed s1 conn ∨ (s1.conn conn).state = 0 then .next s1
  else
    let s := if connExpired s1 conn then loseConn s1 conn else s1
    let x := s.conn conn
    if !echoGood s conn msg then .next (s.onConn conn (fun x => { x with crcErrors := inc32 x.crcErrors }))
    else if x.isNew ∨ !x.departed ∨ uAt msg 2 2 ≠ x.seq then .next (s.onConn conn (fun x => { x with seqErrors := inc32 x.seqErrors }))
    else
      let data := slice msg 6 (uAt msg 5 1)
      .next (evalFns (s.onConn conn (fun x => { x with
        state := 2, seq := nextSeq x.seq, isNew := true, lastEcho := safeNs s,
        resetDemand := x.resetDemand && !bitOf x.flags 1, flags := 0,
        reply := if bitOf (uAt msg 4 1) 0 then [] else data })))

/-- SAFE_CONN_WATCHDOG_EXPIRY (R551). -/
def execSafeConnWatchdogExpiry (dt : Nat) (conn : Nat) (s0 : State) : Out :=
  let s := advance dt s0
  .next (if hasLocal s.var ∧ connUsed s conn ∧ connExpired s conn then loseConn s conn else s)

/-! ### Entry into BOOT (R537, R542) and the commands (R557) -/

/-- At the end of BOOT S1 and S2 take the image; a configuration failure leaves every output off (R535, R537). -/
def adoptSafety (image : Bytes) (s2Agrees : Bool) (s : State) : State :=
  if !hasLocal s.var then s
  else
    let now := safeNs s
    match parseSafety image with
    | some t =>
      if s2Agrees then
        let s1 := putSafe t (s.onSafe (fun u => { u with image := image, state := 1, pulseBase := now, exchangedAt := now }))
        let s2 := (List.range soutCount).foldl (fun s n => s.onSout n (fun o => { o with pulseNext := nextPulse s n now })) s1
        let s3 := (List.range 8).foldl (fun s p =>
          let mode := parN s Par.pairMode p
          if mode = 0 then s else s.onSafe (fun u => { u with pairs := tmod u.pairs {} p (judgePair mode now) })) s2
        evalFns s3
      else raiseDevice (s.onSafe (fun u => { u with state := 3, faultCause := 5 })) { source := Ev.safetyImage, cls := Cls.device, cause := 5 }
    | none => raiseDevice (s.onSafe (fun u => { u with state := 3, faultCause := 5 })) { source := Ev.safetyImage, cls := Cls.device, cause := 5 }

/-- pair_state (R558). -/
def pairCode (s : State) (p : Nat) : Nat :=
  if (s.sin p).discrepancy then 2 else if pairDemands s p then 0 else 1

/-- SAFETY_STATUS (R557, R679). -/
def safetyStatusBody (s : State) (_ : Request) (_ : Nat) : Reply :=
  .ok s (b8 s.safe.state ++ b8 s.safe.faultCause ++ b8 (bit (resetLevel s)) ++ zeros 1 ++
    (List.range 8).flatMap (fun p => b8 (pairCode s p)) ++ (List.range 16).flatMap (fun f => b8 (s.fn f).state) ++
    (List.range soutCount).flatMap (fun n => b8 (soutCode s n)) ++ zeros 2)

/-- SAFETY_IMAGE_READ (R557, R679): bytes of the active image; past its end BAD_PARAM (log 26). -/
def safetyImageReadBody (s : State) (q : Request) (_ : Nat) : Reply :=
  let o := uAt q.payload 0 4
  let n := uAt q.payload 4 1
  need (resv q.payload 5 3 && Nat.ble 1 n && Nat.ble n 224 && Nat.ble (o + n) s.safe.image.length) (.ok s (slice s.safe.image o n))

/-- SAFETY_CONN_STATUS (R557, R679). -/
def safetyConnStatusBody (s : State) (q : Request) (_ : Nat) : Reply :=
  let c := uAt q.payload 0 1
  let x := s.conn c
  need (resv q.payload 1 3 && Nat.blt c 128)
    (.ok s (b16 (parN s Par.connId c) ++ b8 x.state ++ zeros 1 ++ b16 x.seq ++ zeros 2 ++ timeBytes x.lastEcho ++ zeros 2 ++
      b32 x.crcErrors ++ b32 x.seqErrors ++ b32 x.timeouts))

/-- SAFETY_STATUS -/
def execSafetyStatus (dt : Nat) (q : Request) (s : State) : Out := .next (serve Cmd.safetyStatus safetyStatusBody dt q s)
/-- SAFETY_IMAGE_READ -/
def execSafetyImageRead (dt : Nat) (q : Request) (s : State) : Out := .next (serve Cmd.safetyImageRead safetyImageReadBody dt q s)
/-- SAFETY_CONN_STATUS -/
def execSafetyConnStatus (dt : Nat) (q : Request) (s : State) : Out := .next (serve Cmd.safetyConnStatus safetyConnStatusBody dt q s)

end Sys2Proof.Machine
end

