-- ==== Sys2Proof/Machine/LawCmd.lean ====
section
/-! DEFINITION. Law blocks and the debug access: LAW_LOAD, LAW_UNLOAD, LAW_INFO, LAW_COEF_WRITE, LAW_TEST (R344 to R347, R671,
R675, R682), halts, single steps and resumption (R348, R413). -/

namespace Sys2Proof.Machine

/-- The standard laws (R347). -/
def stdLaws : List Nat := [1, 2, 3, 4, 5, 0x10]

/-- The block of a standard law as the library of the running firmware defines it (R345; log 13). -/
def stdBlock (patch l : Nat) : LawBlock :=
  { lawId := l, loadAddr := Config.stdLoadAddr patch l % 0x2000, wordCount := Config.stdWordCount patch l,
    inMin := Config.stdInMin patch l, stMin := Config.stdStMin patch l, outMin := Config.stdOutMin patch l,
    runMax := Config.stdRunMax patch l, entries := (List.range 4).map (fun k => Config.stdEntry patch l k) }

/-- Puts a block into a list in rising order of load_addr. -/
def insBlock (b : LawBlock) : List LawBlock → List LawBlock
  | [] => [b]
  | c :: r => if b.loadAddr ≤ c.loadAddr then b :: c :: r else c :: insBlock b r

/-- All blocks in rising order of load_addr: the standard laws come first (R675). -/
def allBlocks (s : State) : List LawBlock :=
  (stdLaws.map (stdBlock s.dev.fwPatch)).foldr insBlock [] ++ s.disp.blocks.foldr insBlock []

/-- The block that a law_id names (R346). -/
def blockOf (s : State) (l : Nat) : Option LawBlock :=
  if stdLaws.contains l then some (stdBlock s.dev.fwPatch l) else s.disp.blocks.find? (fun b => b.lawId == l)

/-- The header of a law block image (R344). -/
def blockHead (b : Bytes) : LawBlock :=
  { lawId := uAt b 4 2, wordCount := uAt b 6 2, loadAddr := uAt b 8 2, inMin := uAt b 10 2, stMin := uAt b 12 2,
    outMin := uAt b 14 2, runMax := uAt b 16 2, entries := (List.range 4).map (fun k => uAt b (24 + 2 * k) 2) }

/-- Word `i` of a law block image. -/
def codeWord (b : Bytes) (i : Nat) : Nat := uAt b (32 + 8 * i) 8

/-- Magic, length, CRC, law_id, addresses and reserved fields of an image (R344, R345). -/
def blockFormat (b : Bytes) : Bool :=
  let h := blockHead b
  let n := 36 + 8 * h.wordCount
  uAt b 0 4 == 0x424C4B43 && b.length == n && uAt b (n - 4) 4 == crc32c (b.take (n - 4)) && Nat.ble 0x8000 h.lawId &&
    Nat.ble 1 h.wordCount && Nat.ble h.wordCount 8176 && Nat.ble 0x2000 h.loadAddr && Nat.ble h.loadAddr 0x3FEF &&
    Nat.ble (h.loadAddr + h.wordCount) 0x3FF0 && uAt b 18 6 == 0 && uAt b 24 2 != 0xFFFF &&
    h.entries.all (fun e => e == 0xFFFF || Nat.blt e h.wordCount) &&
    (List.range h.wordCount).all (fun i => Nat.blt (codeWord b i) (2 ^ 48))

/-- A loaded block overlaps the block or has its law_id (R345). -/
def blockOverlaps (s : State) (h : LawBlock) : Bool :=
  s.disp.blocks.any (fun c => c.lawId == h.lawId ||
    (Nat.blt c.loadAddr (h.loadAddr + h.wordCount) && Nat.blt h.loadAddr (c.loadAddr + c.wordCount)))

/-- A decoded word breaks cause 1 of R338. -/
def staticFault : EOp → Bool
  | .brc cc _ => Nat.ble 11 cc
  | .rep n => Nat.blt 65536 n
  | o => (runOp o 0 {}).fault == some 1

/-- The word at `i` is bad in itself or in what it follows in address order (R336, R345). -/
def wordBad (b : Bytes) (i : Nat) : Bool :=
  let at_ := fun (k : Nat) => (decodeWord (BitVec.ofNat 48 (codeWord b k))).map (·.1)
  let isBranch := fun (o : Option EOp) => match o with
    | some (.brc _ _) | some (.call _) | some .ret | some (.decbr _ _) => true
    | _ => false
  match at_ i with
  | none => true
  | some o =>
    staticFault o ||
    (slotIllegal o && ((Nat.ble 1 i && isBranch (at_ (i - 1))) || (Nat.ble 2 i && isBranch (at_ (i - 2))))) ||
    (Nat.ble 1 i && !repeatable o && (match at_ (i - 1) with | some (.rep _) => true | _ => false))

/-- The first bad word of an image. -/
def firstBad (b : Bytes) : Option Nat := (List.range (blockHead b).wordCount).find? (wordBad b)

/-- LAW_LOAD (R345, R671): stages a segment; the last one starts the checks and completes pending. -/
def lawLoadBody (s : State) (q : Request) (_ : Nat) : Reply :=
  let p := q.payload
  let f := uAt p 0 1
  let off := uAt p 4 4
  let base := if off = 0 then [] else s.disp.staged
  need (f < 2 ∧ resv p 1 3 = true ∧ off = base.length) <|
  let img := base ++ p.drop 8
  if f = 1 then
    .pend (addPend { s with disp := { s.disp with staged := [], loading := s.disp.loading ++ [(img, false)] } } Cmd.lawLoad q)
  else .ok { s with disp := { s.disp with staged := img } } []

/-- LAW_LOAD -/
def execLawLoad (dt : Nat) (q : Request) (s : State) : Out := .next (serve Cmd.lawLoad lawLoadBody dt q s)

/-- LAW_LOAD_DONE (R345, R682): the checks end, and a block that passes stands in the program memory of every engine. -/
def execLawLoadDone (dt : Nat) (s0 : State) : Out :=
  let s := advance dt s0
  match s.disp.loading with
  | [] => .next s
  | (b, freed) :: rest =>
    let s1 := { s with disp := { s.disp with loading := rest } }
    let h := blockHead b
    if !blockFormat b then .next (finishOne s1 Cmd.lawLoad St.lawFormat)
    else if blockOverlaps s h then .next (finishOne s1 Cmd.lawLoad St.lawOverlap)
    else match firstBad b with
      | some i => .next (finishOne s1 Cmd.lawLoad St.lawEncoding (b16 i ++ zeros 2))
      | none =>
        let prog := (List.range h.wordCount).foldl
          (fun t i => tput t (h.loadAddr + i) (BitVec.ofNat 48 (codeWord b i))) s1.disp.prog
        let blocks := if freed then s1.disp.blocks else s1.disp.blocks ++ [h]
        .next (finishOne { s1 with disp := { s1.disp with prog := prog, blocks := blocks } } Cmd.lawLoad St.ok)

/-- A plan image names a law (R345). -/
def planUses (m : Image) (l : Nat) : Bool := (ptasks m).any (fun t => t.lawId == l)

/-- LAW_UNLOAD (R345, R682). -/
def lawUnloadBody (s : State) (q : Request) (_ : Nat) : Reply :=
  let p := q.payload
  let l := uAt p 0 2
  let loaded := s.disp.blocks.any (fun b => b.lawId == l)
  let loading := s.disp.loading.any (fun e => (blockHead e.1).lawId == l && !e.2)
  need (resv p 2 2 = true ∧ userLaw l = true ∧ (loaded || loading) = true) <|
  orElse (!planUses s.image l && !(s.plan.standbySt != .empty && planUses s.plan.standby l)) St.lawInUse <|
  .ok { s with disp := { s.disp with
    blocks := s.disp.blocks.filter (fun b => b.lawId != l),
    loading := s.disp.loading.map (fun e => if (blockHead e.1).lawId = l then (e.1, true) else e) } } []

/-- LAW_UNLOAD -/
def execLawUnload (dt : Nat) (q : Request) (s : State) : Out := .next (serve Cmd.lawUnload lawUnloadBody dt q s)

/-- One block of the LAW_INFO response (R675). -/
def blockInfo (b : LawBlock) : Bytes :=
  b16 b.lawId ++ b16 b.loadAddr ++ b16 b.wordCount ++ b16 b.inMin ++ b16 b.stMin ++ b16 b.outMin ++ b16 b.runMax ++ zeros 2 ++
    b.entries.flatMap b16

/-- LAW_INFO (R345, R675). -/
def lawInfoBody (s : State) (q : Request) (_ : Nat) : Reply :=
  let p := q.payload
  let all := allBlocks s
  let got := (all.drop (uAt p 0 1)).take 9
  need (resv p 1 3) (.ok s (b8 all.length ++ b8 got.length ++ zeros 2 ++ got.flatMap blockInfo))

/-- LAW_INFO -/
def execLawInfo (dt : Nat) (q : Request) (s : State) : Out := .next (serve Cmd.lawInfo lawInfoBody dt q s)

/-- LAW_COEF_WRITE (R345, R675): the words wait for the next tick together. -/
def lawCoefWriteBody (s : State) (q : Request) (t : Nat) : Reply :=
  let p := q.payload
  let n := uAt p 4 1
  let off := uAt p 2 2
  let vals := (List.range n).filterMap (fun i => contVal .s24 (slice p (8 + 4 * i) 4))
  orElse s.plan.active.isSome St.planNone <|
  match ptask s.image (uAt p 0 2) with
  | none => .err St.badParam []
  | some k =>
    need (1 ≤ n ∧ n ≤ 60 ∧ resv p 5 3 = true ∧ vals.length = n ∧ off + n ≤ k.inLen ∧ (k.axis = 255 ∨ 24 ≤ off)) <|
    .ok { s with disp := { s.disp with
      coefs := s.disp.coefs ++ [(t, k.base + 4 * off, vals.map (BitVec.ofInt 24))] } } []

/-- LAW_COEF_WRITE -/
def execLawCoefWrite (dt : Nat) (q : Request) (s : State) : Out := .next (serve Cmd.lawCoefWrite lawCoefWriteBody dt q s)

/-- Writes engine words to the shared SRAM, sign-extended (R319). -/
def putWords (s : State) (base : Nat) (ws : List W24) : State := s.sramWrite base (ws.flatMap (fun w => sleBytes 4 w.toInt))

/-- Size of the shared state SRAM (R21). -/
abbrev sramSize : Nat := 4194304

/-- Runs the task of a LAW_TEST to its end or its clock limit; a `REP` that skips its word is two fetches in one clock (R343, R345). -/
def runTest (s : State) (limit : Nat) (c : ECore) : ECore := runClocks s limit (2 * limit + 8) c

/-- What a LAW_TEST that has come to its end leaves, and its response: clocks, ES, the code and address of a law fault (R345, R675). -/
def testEnd (s : State) (base : Nat) (c : ECore) : State × Bytes :=
  let s1 := if c.done then putWords s (base + 4 * c.inLen) (c.words c.inLen (c.stLen + c.outLen)) else s
  let (code, addr) := match c.fault with | some f => f | none => if c.done then (0, 0) else (0xFF, 0)
  (s1, b32 c.clocks ++ b8 c.regs.es.toNat ++ b8 code ++ b16 addr)

/-- A LAW_TEST on an engine that a halt no longer holds, or whose step reached its end, ends with its response (R348). -/
def endTest (s : State) (e : Nat) : State :=
  match s.disp.test with
  | some (g, mb, base, limit) =>
    let c := (s.engine e).core
    if g = e ∧ (c.fault.isSome || c.done || Nat.ble limit c.clocks || !c.halted) then
      let r := testEnd { s with disp := { s.disp with test := none } } base c
      respondLater r.1 mb Cmd.lawTest St.ok r.2
    else s
  | none => s

/-- LAW_TEST (R345, R348, R675): runs a task on one engine from the window in the shared SRAM and writes the state and output blocks back.
A halt that stands at the engine, or is asked for, takes effect at the first permitted point, and the response waits. -/
def lawTestBody (s : State) (q : Request) (_ : Nat) : Reply :=
  let p := q.payload
  let e := uAt p 0 1
  let limit := uAt p 4 4
  let m : Image := cellsFrom 0 (slice p 8 16)
  let k := taskAt m 0 0
  inst e 16 (engineCount s.var) <|
  need (resv p 1 3 = true ∧ 1 ≤ limit ∧ limit ≤ 1000000) <|
  need (k.base + 4 * (k.inLen + k.stLen + k.outLen) ≤ sramSize) <|
  orElse ((s.engine e).state == .inService) St.badState <|
  orElse s.disp.test.isNone St.badState <|
  let g := (s.engine e).core
  let c0 := takeHalt { entryCore s k.entry k.base k.inLen k.stLen k.outLen 0 with haltAsked := g.haltAsked || g.halted }
  let c := runTest s limit c0
  let s1 := { s.onEngine e (fun g => { g with core := c }) with free := s.free + 1 }
  if c.halted then .later { s1 with disp := { s1.disp with test := some (e, q.mb, k.base, limit) } }
  else
    let r := testEnd s1 k.base c
    .ok r.1 r.2

/-- LAW_TEST -/
def execLawTest (dt : Nat) (q : Request) (s : State) : Out := .next (serve Cmd.lawTest lawTestBody dt q s)

/-! ### Debug access (R348, R413) -/

/-- DEBUG_HALT_REQUEST: only in CONFIG; an engine halts at its next permitted point, the time clock stops. -/
def execDebugHaltRequest (dt : Nat) (target : HaltTarget) (s0 : State) : Out :=
  let s := advance dt s0
  if s.dev.mode = .config then
    match target with
    | .engine e =>
      if e < engineCount s.var then
        .next (s.onEngine e (fun g => { g with core := takeHalt { g.core with haltAsked := true } }))
      else .next s
    | .timeClock => .next { s with time := { s.time with stopped := true, haltFor := 0 } }
  else .next s

/-- One instruction, a branch with its two delay slots, or a REP with its repetitions (R348). -/
def singleStep (s : State) : Nat → ECore → ECore
  | 0, c => c
  | n + 1, c =>
    let c1 := fetchRun s c
    if c1.fault.isSome || c1.done || permitted c1 then c1 else singleStep s n c1

/-- DEBUG_SINGLE_STEP: a halted engine runs one step and is halted again. -/
def execDebugSingleStep (dt : Nat) (engine : Nat) (s0 : State) : Out :=
  let s := advance dt s0
  if s.dev.mode = .config ∧ engine < engineCount s.var ∧ (s.engine engine).core.halted = true then
    .next (endTest (s.onEngine engine (fun g =>
      { g with core := { singleStep s 3 { g.core with halted := false } with halted := true } })) engine)
  else .next s

/-- A halted engine runs on, and the LAW_TEST on it with it (R348). -/
def resumeEngine (s : State) (e : Nat) : State :=
  let go := fun (c : ECore) => { c with halted := false, haltAsked := false }
  let run := fun (c : ECore) => match s.disp.test with
    | some (g, _, _, limit) => if g = e then runTest s limit (go c) else go c
    | none => go c
  endTest (s.onEngine e (fun g => { g with core := run g.core })) e

/-- The debug access holds an engine only in CONFIG (R348): when the cycle begins, every engine runs on, and a LAW_TEST that was halted ends
(DESIGN CHOICE, log 51). -/
def releaseEngines (s : State) : State :=
  (List.range (engineCount s.var)).foldl (fun s e =>
    let c := (s.engine e).core
    if c.halted || c.haltAsked then resumeEngine s e else s) s

/-- The time clock runs again after a stop (R33, R413, R535): a stop of more than 100 µs trips the clock monitor, and CLOCK_HALTED is a device
fault. -/
def clockRuns (s : State) : State :=
  let s1 := { s with time := { s.time with stopped := false, haltFor := 0 } }
  let s2 := if 100000 * nsU < s.time.haltFor ∧ s.dev.clockOff = false then clockTrips s1 else s1
  raiseDevice s2 { source := Ev.clockHalted, cls := Cls.device }

/-- DEBUG_RESUME: a halted engine or the halted time clock runs on (R348, R413). -/
def execDebugResume (dt : Nat) (target : HaltTarget) (s0 : State) : Out :=
  let s := advance dt s0
  match target with
  | .engine e => if s.dev.mode = .config ∧ e < engineCount s.var then .next (resumeEngine s e) else .next s
  | .timeClock => if s.time.stopped then .next (clockRuns s) else .next s

/-- CLOCK_HALTED (R33, R413): the time clock runs again after a stop. Where no debug halt stands, the stop is a failure of the clock, and the
time that the command brings is the time for which it stood (log 26). -/
def execClockHalted (dt : Nat) (s0 : State) : Out :=
  .next (clockRuns (advance dt { s0 with time := { s0.time with stopped := true } }))

end Sys2Proof.Machine
end

