-- ==== Sys2Proof/Machine/Verify.lean ====
section
/-! DEFINITION. Verification of a plan image: the ten steps of R66 with the ceiling of R67, the budget test of R68 and R69, the
slot arithmetic of R100, and the refusal payload of R71. Times in 0.1 ns where wire times enter (0.8 ns a byte). -/

namespace Sys2Proof.Machine

/-- The first refusal of a list of checks. -/
def firstRefusal : List (Option Refused) → Option Refused
  | [] => none
  | some r :: _ => some r
  | none :: t => firstRefusal t

/-- A refusal where a condition fails. -/
def refuse (ok : Bool) (r : Refused) : Option Refused := if ok then none else some r

/-- The first refusal over numbered items. -/
def eachBad {α : Type} (l : List α) (f : Nat → α → Option Refused) : Option Refused := firstRefusal (l.zipIdx.map (fun e => f e.2 e.1))

/-! ### Steps 1 and 2: format and CRC -/

/-- Bytes of an image from `o`, `n` of them, are 0. -/
def zeroAt (m : Image) (o n : Nat) : Bool := iu m o n == 0

/-- Bytes of a section of a type. -/
def sectionBytes (x : Section) : Nat :=
  match x.ty with
  | 1 => 48 | 2 => 16 + 16 * x.count | 3 => 16 * x.count | 4 => 32 * x.count | 5 => 8 * x.count | 6 => 4 * x.count | _ => 16 * x.count

/-- The reserved fields of a section are 0 and its own counts and numbers fit (R61 to R65). -/
def sectionReserved (m : Image) (x : Section) : Bool :=
  let each := fun (size : Nat) (f : Nat → Bool) => (List.range x.count).all (fun i => f (x.off + size * i))
  match x.ty with
  | 1 => x.count == 1 && zeroAt m (x.off + 1) 3
  | 2 => Nat.ble (iu m x.off 1) 1 && iu m (x.off + 1) 1 == x.count && Nat.ble 1 x.count && Nat.ble x.count 64 && zeroAt m (x.off + 2) 2 &&
      zeroAt m (x.off + 14) 2 && (List.range x.count).all (fun i => Nat.blt (iu m (x.off + 17 + 16 * i) 1) 4 && zeroAt m (x.off + 30 + 16 * i) 2)
  | 4 => each 32 (fun o => Nat.blt (iu m (o + 30) 1) 8 && zeroAt m (o + 31) 1)
  | 5 => each 8 (fun o => zeroAt m (o + 6) 2)
  | 6 => each 4 (fun o => Nat.blt (iu m o 2) 4096)
  | 7 => each 16 (fun o => zeroAt m (o + 3) 1 && zeroAt m (o + 14) 2)
  | _ => true

/-- Step 1: magic, format, lengths, directory, alignment, reserved fields, mandatory sections (R58 to R65). -/
def verifyFormat (m : Image) : Option Refused :=
  let bad : Refused := { step := 1 }
  let n := iu m 8 4
  let secs := sections m
  let types := secs.map (fun x => if x.ty = 2 then 0x200 + iu m x.off 1 else x.ty)
  firstRefusal [
    refuse (iu m 0 4 == 0x4C504B43 && iu m 4 2 == 2 && Nat.ble 1 (iu m 6 2) && Nat.ble (iu m 6 2) 9 && n % 4 == 0 &&
      Nat.ble n 524288 && Nat.ble (36 + 8 * iu m 6 2) n && Nat.blt (planFlags m) 4 && zeroAt m 18 14) bad,
    eachBad secs (fun i x =>
      refuse (Nat.ble 1 x.ty && Nat.ble x.ty 7 && zeroAt m (33 + 8 * i) 1 && x.off % 4 == 0 && Nat.ble (32 + 8 * secs.length) x.off &&
        Nat.ble (x.off + sectionBytes x + 4) n && sectionReserved m x) { bad with kind := 1, item := i }),
    refuse (noRepeats types && [1, 2, 3, 4].all (fun t => secs.any (fun x => x.ty == t)) &&
      (secs.any (fun x => x.ty == 7) == bitOf (planFlags m) 0)) bad]

/-- Step 2: the CRC-32C in the last 4 bytes (R58). -/
def verifyCrc (m : Image) : Option Refused :=
  let n := iu m 8 4
  refuse (crc32c (memRead m 0 (n - 4)) == iu m (n - 4) 4) { step := 2 }

/-! ### Step 3: variant -/

/-- A ring that the part has. -/
def ringHere (v : Variant) (r : Nat) : Bool := Nat.blt r (ringCount v)

/-- Step 3: the limits of the variant (R3). -/
def verifyVariant (v : Variant) (m : Image) : Option Refused :=
  let bad : Refused := { step := 3 }
  firstRefusal [
    refuse (isFull v || planFlags m == 0) bad,
    eachBad (sections m) (fun i x =>
      refuse (x.ty != 2 || (ringHere v (iu m x.off 1) && Nat.ble x.count (nodeMax v))) { bad with kind := 1, item := i, ring := iu m x.off 1 }),
    firstRefusal ([0, 1].map (fun r => eachBad (pnodes m r) (fun _ nd =>
      refuse (Nat.ble 1 nd.addr && Nat.ble nd.addr (nodeMax v)) { bad with kind := 2, item := nd.addr, ring := r }))),
    eachBad (slices m) (fun _ x =>
      refuse (Nat.blt x.axis (axisCount v) && (if x.ring = 255 then hasLocal v && Nat.blt x.node (slotCount v) else ringHere v x.ring))
        { bad with kind := 3, item := x.axis }),
    eachBad (ptasks m) (fun i t =>
      refuse ((t.axis == 255 || Nat.blt t.axis (axisCount v)) && Nat.blt t.affinity (2 ^ engineCount v) &&
        (!bitOf t.inputs 1 || ringHere v 1) && (!bitOf t.inputs 2 || hasLocal v)) { bad with kind := 4, item := i }),
    eachBad (pflows m) (fun _ f =>
      refuse (Nat.blt f.home (engineCount v) && (f.fallback == 255 || Nat.blt f.fallback (engineCount v))) { bad with kind := 6, item := f.id }),
    eachBad (pcentrals m) (fun _ c => refuse (Nat.blt c.axis (axisCount v) && ringHere v c.ring) { bad with kind := 3, item := c.axis })]

/-! ### Step 4: structure -/

/-- The plan gives an axis a current task (R164, R210): it has a central-current entry, or it is a local axis whose main law is the
standard cascade, which on a local axis is mode 4's alone. -/
def needsCurrent (m : Image) (a : Nat) : Bool :=
  (pcentral m a).isSome || ((sliceOf m a).any (fun x => x.ring == 255) && (mainOf m a).any (fun t => t.lawId == lawCascade))

/-- A current task (R164, R210 to R212): the standard current law, or the user law in its place. -/
def isCurrentTask (m : Image) (t : PTask) : Bool :=
  t.lawId == lawCurrent || (needsCurrent m t.axis && currentOf m t.axis == some t)

/-- The bundle entry of a task. -/
def bundleOf (m : Image) (t : PTask) : Option PBundle := if t.bundle = 255 then none else pbundle m t.bundle

/-- Burst times: launch bounds, spacing, acyclic window, tick guard (R46, R61). -/
def verifyTimes (m : Image) : Option Refused :=
  let bad : Refused := { step := 4, kind := 7 }
  let n := burstCount m
  let per := periodNs (planRate m)
  let rings := [0, 1].filter (usesRing m)
  let ks := (List.range 4).map (· + 1)
  firstRefusal [
    refuse (Nat.ble (planRate m) 3) { step := 4 },
    refuse (Nat.ble 1 n && Nat.ble n 4 && launchMin m 1 == 0 && launchMax m 1 == 0) bad,
    firstRefusal (ks.map (fun k =>
      if n < k then refuse (launchMin m k == 0 && launchMax m k == 0 && rings.all (fun r => frameLen m r k == 0)) { bad with item := k }
      else refuse (Nat.ble (launchMin m k) (launchMax m k))
        { bad with item := k, required := launchMin m k, available := launchMax m k })),
    firstRefusal (rings.flatMap (fun r => ks.map (fun k =>
      if k < n then
        let need := 10 * launchMax m k + wire (frameLen m r k) + 1000
        refuse (Nat.ble need (10 * launchMax m (k + 1))) { bad with item := k, ring := r, required := cdivN need 10, available := launchMax m (k + 1) }
      else none))),
    firstRefusal (rings.map (fun r =>
      let open_ := 10 * launchMax m n + wire (frameLen m r n) + 1000
      refuse (Nat.ble (open_ + 10000) (10 * acyclicEnd m)) { bad with item := n, ring := r, required := cdivN (open_ + 10000) 10, available := acyclicEnd m })),
    refuse (Nat.ble (acyclicEnd m + 500) per) { step := 4, required := acyclicEnd m + 500, available := per },
    refuse ([0, 1].all (fun r => usesRing m r || gatherOf m r == 0)) { step := 4 }]

/-- A slice map entry: its axis once, its ring and node in the plan, its window and offsets (R48, R63, R66, R91). The window of a local
axis, whose slice no burst carries, is not checked by itself (DESIGN CHOICE, log 47); its latest burst counts where its task is a
member of a bundle (R52). -/
def verifySlice (m : Image) (x : Slice) : Bool :=
  ((slices m).filter (fun y => y.axis == x.axis)).length == 1 &&
  (x.ring == 255 ||
    (usesRing m x.ring && (pnodes m x.ring).any (fun nd => nd.addr == x.node) && Nat.ble 2 x.earliest && Nat.ble x.earliest x.latest &&
     Nat.ble x.latest (burstCount m) && Nat.ble 8 x.downLen && Nat.ble 8 x.upLen &&
     (x.downOff.zipIdx).all (fun e =>
       let k := e.2 + 1
       match e.1 with
       | none => !(Nat.ble x.earliest k && Nat.ble k x.latest)
       | some o => Nat.ble x.earliest k && Nat.ble k x.latest && Nat.ble 40 o && Nat.ble (o + x.downLen + 24) (frameLen m x.ring k))))

/-- The range of a task's state and output blocks, in bytes of the shared SRAM (R283). -/
def ownBlocks (t : PTask) : Nat × Nat := (t.base + 4 * t.inLen, t.base + 4 * (t.inLen + t.stLen + t.outLen))

/-- A task entry: descriptor ranges, window, sub-rate, flow, law block (R44, R193, R212, R282, R283, R341, R346, R360). -/
def verifyTask (s : State) (m : Image) (i : Nat) (t : PTask) : Bool :=
  let o := match sectionOf m 4 with | some x => x.off + 32 * i | none => 0
  let per := periodNs (planRate m)
  Nat.blt (iu m o 2) 0x8000 && Nat.blt (iu m (o + 2) 2) 0x4000 && Nat.blt (iu m (o + 8) 2) 0x1000 &&
  Nat.ble 10 t.deadline && Nat.blt t.deadline (per / 10 * 10) && Nat.ble 1 t.budget && Nat.ble t.budget (cycleClocks (planRate m)) &&
  Nat.ble (t.base + 4 * (t.inLen + t.stLen + t.outLen)) 0x300000 &&
  Nat.ble t.subExp 8 && Nat.blt t.subPhase (2 ^ t.subExp) &&
  (t.lawId != lawMaster || t.subExp == 0) && (!isCurrentTask m t || t.subExp == 0) &&
  (t.axis == 255 || Nat.ble 24 t.inLen) &&
  (match pflow m t.flow with
   | some f => bitOf t.affinity f.home && (f.fallback == 255 || bitOf t.affinity f.fallback)
   | none => false) &&
  (ptasks m).all (fun u => (u.flow != t.flow || u.affinity == t.affinity) &&
    (u.flow == t.flow || Nat.ble (ownBlocks u).2 (ownBlocks t).1 || Nat.ble (ownBlocks t).2 (ownBlocks u).1 ||
      (ownBlocks u).1 == (ownBlocks u).2 || (ownBlocks t).1 == (ownBlocks t).2)) &&
  (!bitOf t.inputs 0 || usesRing m 0) && (!bitOf t.inputs 1 || usesRing m 1) &&
  (match blockOf s t.lawId with
   | some b => b.entries.any (fun e => e != 0xFFFF && b.loadAddr + e == t.entry) && Nat.ble b.inMin t.inLen && Nat.ble b.stMin t.stLen &&
       Nat.ble b.outMin t.outLen && Nat.ble b.runMax t.nonpreempt
   | none => false)

/-- A bundle entry with its members (R52, R65, R211). -/
def verifyBundle (m : Image) (b : PBundle) : Bool :=
  let mem := (ptasks m).filter (fun t => t.bundle == b.id)
  let ringsOf := mem.map (fun t => match sliceOf m t.axis with | some x => x.ring | none => 255)
  Nat.ble 1 b.kind && Nat.ble b.kind 3 && (Nat.blt b.group 16 || b.group == 255) && b.id != 255 && mem.length == b.members &&
  ((pbundles m).filter (fun c => c.id == b.id)).length == 1 && Nat.ble 2 b.latest && Nat.ble b.latest (burstCount m) &&
  mem.all (fun t => match sliceOf m t.axis with | some x => x.latest == b.latest | none => true) &&
  (b.kind != 2 ||
    (mem.all (fun t => isCurrentTask m t && (pcentral m t.axis).isSome) &&
     ringsOf.all (fun r => r != 255 && ringsOf.all (fun q => q == r))))

/-- The tasks of an axis with central current: their current tasks stand in bundles of kind 2 (R211, R212). An entry whose ring or node
is not that of the axis's slice-map entry, and a second entry of one axis, are refused too, which no rule lists (DESIGN CHOICE, log 47). -/
def verifyCentral (m : Image) (c : PCentral) : Bool :=
  (match sliceOf m c.axis with | some x => x.ring == c.ring && x.node == c.node | none => false) &&
  (pnodes m c.ring).any (fun nd => nd.addr == c.node && bitOf nd.flags 1) && Nat.blt c.sampleAt c.applyAt &&
  Nat.blt c.applyAt (2 * periodNs (planRate m)) &&
  (pcentrals m).all (fun d => d.ring != c.ring || d.node != c.node || (d.sampleAt == c.sampleAt && d.applyAt == c.applyAt)) &&
  ((pcentrals m).filter (fun d => d.axis == c.axis)).length == 1 &&
  (axisTasks m c.axis).all (fun t => !isCurrentTask m t || (match bundleOf m t with | some b => b.kind == 2 | none => false))

/-- Mirror volume of a plan in bytes (R573). -/
def mirrorVolume (m : Image) : Nat :=
  1024 + (slices m).foldl (fun n x => n + 128 + (axisTasks m x.axis).foldl (fun k t => k + 4 * t.stLen) 0) 0

/-- The further checks of a pair plan (R570, R573). -/
def verifyPair (s : State) (m : Image) : Bool :=
  let rings := [0, 1].filter (usesRing m)
  !bitOf (planFlags m) 1 ||
  ((rings.flatMap (fun r => (pnodes m r).filter (fun nd => bitOf nd.flags 0))).length == 1 &&
   rings.all (fun r => Nat.ble (parN s Par.tieDelay 0 + 1600) (16 * hopP m r)) &&
   !(slices m).any (fun x => x.ring == 255) && Nat.ble (wire (mirrorVolume m) + 10000) (10 * periodNs (planRate m)))

/-- Step 4: structure. -/
def verifyStructure (s : State) (m : Image) : Option Refused :=
  let bad : Refused := { step := 4 }
  firstRefusal [
    verifyTimes m,
    eachBad (slices m) (fun _ x => refuse (verifySlice m x) { bad with kind := 3, item := x.axis }),
    eachBad (pflows m) (fun _ f => refuse (((pflows m).filter (fun g => g.id == f.id)).length == 1) { bad with kind := 6, item := f.id }),
    eachBad (ptasks m) (fun i t => refuse (verifyTask s m i t && (t.bundle == 255 || (pbundle m t.bundle).isSome)) { bad with kind := 4, item := i }),
    eachBad (pbundles m) (fun _ b => refuse (verifyBundle m b) { bad with kind := 5, item := b.id }),
    eachBad (pcentrals m) (fun _ c => refuse (verifyCentral m c) { bad with kind := 3, item := c.axis }),
    refuse (verifyPair s m) bad]

/-- Step 5: the central-current ceiling (R67). A plan that names no central-current axis meets it, whatever its flags bit 0 (DESIGN
CHOICE, log 47). -/
def verifyCurrent (m : Image) : Option Refused :=
  let cs := pcentrals m
  let bad : Refused := { step := 5 }
  if cs.isEmpty then none
  else firstRefusal [
    refuse (planRate m == 1 || planRate m == 2) bad,
    firstRefusal ([0, 1].map (fun r =>
      refuse (!cs.any (fun c => c.ring == r) || Nat.ble (planNodes m r) (if planRate m = 2 then 16 else 48))
        { bad with ring := r })),
    refuse (Nat.ble cs.length 48) bad]

/-! ### Steps 6 and 7: slots and gather limits -/

/-- Step 6: the conditions of R100, whose healthy case holds every path that a break leaves open, so that the case named is always the
healthy one. The first failing condition is looked for ring by ring, node by node in table order, all conditions of a node before
the next node (DESIGN CHOICE, log 47). -/
def verifySlots (m : Image) : Option Refused :=
  let per := periodNs (planRate m)
  firstRefusal ([0, 1].map (fun r => eachBad (pnodes m r) (fun i nd =>
    let bad : Refused := { step := 6, kind := 2, item := nd.addr, ring := r }
    let w := wire nd.upLen
    let d := max (delayP m r i) (delayQ m r i)
    firstRefusal [
      refuse (Nat.ble (w + 256) (10 * nd.latencyMax)) { bad with required := cdivN (w + 256) 10, available := nd.latencyMax },
      refuse (Nat.ble nd.latencyMax 120) { bad with required := nd.latencyMax, available := 120 },
      refuse (Nat.ble (10 * nd.upLaunch + w + 5000) (10 * per)) { bad with required := cdivN (10 * nd.upLaunch + w) 10, available := per - 500 },
      refuse (Nat.ble (10 * nd.upLaunch + w + 10 * d) (10 * acyclicEnd m))
        { bad with required := cdivN (10 * nd.upLaunch + w + 10 * d) 10, available := acyclicEnd m }])))

/-- Step 7: the gather limit and the task release limit (R46). Its limits, as those of step 9, take the worst path of H_r, which the
healthy case holds too; fault_case and fault_index are 0 in both (DESIGN CHOICE, log 47). -/
def verifyGather (m : Image) : Option Refused :=
  firstRefusal [
    firstRefusal ([0, 1].map (fun r => eachBad (pnodes m r) (fun _ nd =>
      let need := 10 * nd.upLaunch + wire nd.upLen + 10 * ringDelay m r
      refuse (Nat.ble need (10 * gatherOf m r))
        { step := 7, kind := 2, item := nd.addr, ring := r, required := cdivN need 10, available := gatherOf m r }))),
    eachBad (ptasks m) (fun i t => firstRefusal ([0, 1].map (fun r =>
      refuse (!bitOf t.inputs r || Nat.ble (gatherOf m r) t.release)
        { step := 7, kind := 4, item := i, ring := r, required := gatherOf m r, available := t.release })))]

/-! ### Step 8: the budget test -/

/-- Where flows run: engine by flow. -/
abbrev Placement := Table Nat

/-- Derated budget of a task (R68). -/
def derated (b delta : Nat) : Nat := cdivN (b * (1000000 + delta)) 1000000

/-- Flows on their home engines. -/
def homePlaces (m : Image) : Placement := (pflows m).foldl (fun t f => tput t f.id f.home) []

/-- The placement with one engine lost: its flows on their fallbacks; none where a flow has none. -/
def placesLost (m : Image) (base : Placement) (e : Nat) : Option Placement :=
  (pflows m).foldl (fun o f => match o with
    | none => none
    | some t => if (tget base 256 f.id) = e then (if f.fallback = 255 ∨ f.fallback = e then none else some (tput t f.id f.fallback)) else o)
    (some base)

/-- The first flow that a lost engine leaves without an engine. -/
def flowLost (m : Image) (base : Placement) (e : Nat) : Nat :=
  (((pflows m).find? (fun f => tget base 256 f.id == e && (f.fallback == 255 || f.fallback == e))).map (·.id)).getD 0

/-- Budget figures of one task among those on its engine at one residue: the clocks of S with B, and the latest release over S
in ns (R68). -/
def budgetOf (delta : Nat) (onEngine : List PTask) (t : PTask) : Nat × Nat :=
  let inS := fun x : PTask => Nat.ble x.deadline t.deadline || Nat.ble x.prio t.prio
  let charge := fun x : PTask => derated x.budget delta + 64 + 64 * (onEngine.filter (fun y => Nat.blt y.prio x.prio)).length
  let sSet := onEngine.filter inS
  (sumOf charge sSet + (onEngine.filter (fun x => !inS x)).foldl (fun b x => max b x.nonpreempt) 0,
   sSet.foldl (fun r x => max r x.release) 0)

/-- A share in rational form: the larger of two, by numerator and divisor. -/
def maxShare (p q : Nat × Nat) : Nat × Nat := if p.1 * q.2 < q.1 * p.2 then q else p

/-- The outcome of a budget test: the first refusal, or the budget use so far. -/
abbrev BudgetOut := Except Refused (Nat × Nat)

/-- The test of every task on every engine at one residue under one placement. -/
def budgetAt (delta faultCase faultIndex residue : Nat) (tasks : List PTask) (place : Placement) (out : BudgetOut) : BudgetOut :=
  let due := tasks.filter (fun t => dueIn t residue)
  due.foldl (fun o t => match o with
    | .error r => .error r
    | .ok use =>
      let e := tget place 256 t.flow
      let (clk, rel) := budgetOf delta (due.filter (fun x => tget place 256 x.flow == e)) t
      let have_ := 8 * (t.deadline - rel)
      if t.deadline < rel ∨ have_ < 10 * clk then
        .error { step := 8, kind := 4, item := t.index, faultCase := faultCase, faultIndex := faultIndex, residue := residue,
                 required := clk, available := have_ / 10 }
      else .ok (maxShare use (10 * clk, max have_ 1))) out

/-- Every residue under one placement; residues repeat with the largest sub-rate of the plan. -/
def budgetResidues (delta faultCase faultIndex : Nat) (tasks : List PTask) (place : Placement) (out : BudgetOut) : BudgetOut :=
  let span := 2 ^ (tasks.foldl (fun k t => max k t.subExp) 0)
  (List.range span).foldl (fun o n => budgetAt delta faultCase faultIndex n tasks place o) out

/-- The budget test under a base placement: healthy, then with each engine lost (R68, R70). -/
def budgetTest (v : Variant) (m : Image) (delta : Nat) (base : Placement) : BudgetOut :=
  let tasks := ptasks m
  (List.range (engineCount v)).foldl (fun o e => match o with
    | .error r => .error r
    | .ok _ =>
      match placesLost m base e with
      | none => .error { step := 8, kind := 6, item := flowLost m base e, faultCase := 2, faultIndex := e }
      | some p => if p = base then o else budgetResidues delta 2 e tasks p o)
    (budgetResidues delta 0 0 tasks base (.ok (0, 1)))

/-- Budget use in 0.01 %, rounded to the nearest (R69; log 27). -/
def usePct (u : Nat × Nat) : Nat := min 65535 (rdiv (u.1 * 10000) (max u.2 1)).toNat

/-- More than 80 % (R69). -/
def overMargin (u : Nat × Nat) : Bool := Nat.blt (4 * u.2) (5 * u.1)

/-! ### Steps 9 and 10 -/

/-- The task produces an emitted output (R702): on a ring axis, the current task where it has a central-current entry, else the main law. -/
def emits (m : Image) (t : PTask) : Bool :=
  match sliceOf m t.axis with
  | none => false
  | some x => x.ring != 255 && (if (pcentral m t.axis).isSome then isCurrentTask m t else mainOf m t.axis == some t)

/-- Latest burst of the window of an axis. -/
def latestOf (m : Image) (a : Nat) : Nat := match sliceOf m a with | some x => x.latest | none => 0

/-- Step 9: the emit limits (R46, R66). -/
def verifyEmit (m : Image) : Option Refused :=
  firstRefusal [
    eachBad (ptasks m) (fun i t =>
      refuse (!emits m t || Nat.ble (t.deadline + 50) (launchMax m (latestOf m t.axis)))
        { step := 9, kind := 4, item := i, required := t.deadline + 50, available := launchMax m (latestOf m t.axis) }),
    eachBad (pcentrals m) (fun _ c =>
      let l := latestOf m c.axis
      let need := 10 * launchMax m l + wire (frameLen m c.ring l) + 10 * (ringDelay m c.ring + c.applyLead)
      refuse (Nat.ble need (10 * c.applyAt)) { step := 9, kind := 3, item := c.axis, ring := c.ring, required := cdivN need 10, available := c.applyAt })]

/-- Bytes of a section as they stand, with its length; of ring sections the one of a ring. -/
def sectionText (m : Image) (x : Option Section) : Bytes := match x with | some y => memRead m y.off (sectionBytes y) | none => []

/-- The tasks of an axis by law and data window, as they must correspond in a hot switch (R73). -/
def taskKeys (m : Image) (a : Nat) : List (List Nat) := (axisTasks m a).map (fun t => [t.lawId, t.base, t.inLen, t.stLen, t.outLen])

/-- Removes the first occurrence of an element; none where it does not occur. -/
def takeOut (k : List Nat) : List (List Nat) → Option (List (List Nat))
  | [] => none
  | x :: r => if x = k then some r else (takeOut k r).map (x :: ·)

/-- Two lists hold the same elements, each as often. -/
def sameBag : List (List Nat) → List (List Nat) → Bool
  | [], l => l.isEmpty
  | k :: r, l => match takeOut k l with | some l' => sameBag r l' | none => false

/-- Step 10: the hot-switch rule, for the axes that are enabled now (R73). -/
def verifyHot (s : State) (m : Image) : Option Refused :=
  let a := s.image
  let bad : Refused := { step := 10 }
  firstRefusal [
    refuse (planRate a == planRate m && planFlags a == planFlags m) bad,
    firstRefusal ([1, 3, 7].map (fun ty => refuse (sectionText a (sectionOf a ty) == sectionText m (sectionOf m ty)) { bad with kind := 1, item := ty })),
    firstRefusal ([0, 1].map (fun r => refuse (sectionText a (ringSec a r) == sectionText m (ringSec m r)) { bad with kind := 1, item := 2, ring := r })),
    firstRefusal ((allAxes s).map (fun x =>
      refuse (!axisOn (s.axis x) || sameBag (taskKeys a x) (taskKeys m x)) { bad with kind := 3, item := x }))]

/-! ### The whole verification -/

/-- Status of a step (R66). -/
def stepStatus (n : Nat) : Nat := 0x8200 + n

/-- A refusal ends the verification; else the rest of it decides. -/
@[inline] def unlessRefused (r : Option Refused) (rest : BudgetOut) : BudgetOut :=
  match r with
  | some r => .error r
  | none => rest

/-- Steps 9 and 10 after a budget test that has passed; a refusal of the test stands. -/
def afterBudget (s : State) (m : Image) (hot : Bool) : BudgetOut → BudgetOut
  | .error r => .error r
  | .ok u => unlessRefused (verifyEmit m) (unlessRefused (if hot then verifyHot s m else none) (.ok u))

/-- Verification under a derating and a placement: a refusal, or the budget use (R66). -/
def verifyWith (s : State) (m : Image) (delta : Nat) (place : Placement) (hot : Bool) : BudgetOut :=
  unlessRefused (verifyFormat m) <| unlessRefused (verifyCrc m) <| unlessRefused (verifyVariant s.var m) <|
  unlessRefused (verifyStructure s m) <| unlessRefused (verifyCurrent m) <| unlessRefused (verifySlots m) <|
  unlessRefused (verifyGather m) <| afterBudget s m hot (budgetTest s.var m delta place)

/-- Verification of a plan on its home engines (R66). -/
def verifyPlan (s : State) (m : Image) (delta : Nat) (hot : Bool) : BudgetOut := verifyWith s m delta (homePlaces m) hot

/-- The 16 bytes of R71. -/
def refusedBytes (r : Refused) : Bytes :=
  b8 r.step ++ b8 r.kind ++ b16 r.item ++ b8 r.faultCase ++ b8 r.faultIndex ++ b8 r.residue ++ b8 r.ring ++ b32 r.required ++ b32 r.available

/-- Budget use of the active plan under a placement, as a new computation of R69: MARGIN_LOW where it first exceeds 80 %. -/
def noteUse (s : State) (u : Nat × Nat) (fresh : Bool) : State :=
  let over_ := overMargin u
  let s1 := { s with plan := { s.plan with budgetUse := usePct u, marginLow := over_ } }
  if over_ && (fresh || !s.plan.marginLow) then raiseWarn s1 Ev.marginLow (detail := b32 (usePct u)) else s1

/-- The budget use that a test gives is noted; a refusal leaves the state. -/
def noteOut (s : State) (fresh : Bool) : BudgetOut → State
  | .ok u => noteUse s u fresh
  | .error _ => s

end Sys2Proof.Machine
end

