-- ==== Sys2Proof/Machine/Truing.lean ====
section
/-! DEFINITION. Truing passes, the derating, the core voltage, lane equalisers and service life (R624 to R642). Sensor readings are
operands of the rows (log 21). -/

namespace Sys2Proof.Machine

/-- Changes the truing state. -/
def State.onTru (s : State) (f : Truing → Truing) : State := { s with tru := f s.tru }

/-! ### The stress program (R627, R628, R639) -/

/-- One engine clock of 1.25 ns in units of device time. -/
abbrev engineClk : Nat := 5368709120

/-- A task of the cycle has come to its end. -/
def phaseOver : TaskPhase → Bool
  | .complete | .committed | .failed | .overrun | .cancelled => true
  | .waiting | .ready | .service => false

/-- A task is placed on an engine for the present cycle: by its flow, or as a re-run (R286, R299). -/
def placedOn (s : State) (t : PTask) (e : Nat) : Bool :=
  match (tget s.cyc.tasks {} t.index).rerunOn with
  | some g => g == e
  | none => (tget s.disp.flows {} t.flow).engine == some e

/-- Every task placed on an engine for the present cycle has completed, failed or been cancelled (R627). -/
def stressFree (s : State) (e : Nat) : Bool :=
  (ptasks s.image).all (fun t => !placedOn s t e || !dueIn t s.cyc.tick || (tget s.cyc.long {} t.index).parked ||
    phaseOver (tget s.cyc.tasks {} t.index).phase)

/-- The instant before which the stress program ends in a cycle (R627); none while the cycle is stopped. -/
def stressEnd (s : State) : Option Nat := if s.cyc.running then some (s.cyc.t0 + (s.period - 500) * nsU) else none

/-- The stress program runs on an engine now (R627): on one in service, during a pass that is not of lanes alone, in the slack of a
running cycle. It stops at once when a task becomes a candidate (of the 8 clocks that R627 allows none is used; log 48). -/
def stressRuns (s : State) (e : Nat) : Bool :=
  s.tru.running && !s.tru.lanesOnly && (tget s.disp.engines {} e).state == .inService &&
    (match stressEnd s with | some t => stressFree s e && Nat.blt s.time.now t | none => true)

/-- Clocks of the stress program from an instant to now, or to its end in the cycle. -/
def stressClocks (s : State) (since : Nat) : Nat :=
  ((match stressEnd s with | some t => min s.time.now t | none => s.time.now) - since) / engineClk

/-- The stress clocks of an engine are counted up to now, and its program goes on or stops. -/
def stressEngine (s : State) (t : Truing) (e : Nat) : Truing :=
  { t with
    stress := match tfind t.stressOn e with
      | some b => tput t.stress e (tget t.stress 0 e + stressClocks s b)
      | none => t.stress,
    stressOn := if stressRuns s e then tput t.stressOn e s.time.now else tdel t.stressOn e }

/-- The same of every engine: at each change of what the dispatcher holds, of the cycle and of the pass. -/
def stressSync (s : State) : State := s.onTru (fun t => (List.range (engineCount s.var)).foldl (stressEngine s) t)

/-- An engine that faults during a pass leaves the stress requirement (R639). -/
def leaveStress (s : State) (e : Nat) : State :=
  if s.tru.running then (stressSync s).onTru (fun t => { t with left := t.left ++ [e], stressOn := tdel t.stressOn e }) else s

/-- Stress clocks that each in-service engine owes a pass (R627). -/
abbrev stressNeeded : Nat := 16384

/-- Every in-service engine has completed its stress clocks; engines under test or lost are left out (R627, R628, R639). -/
def stressDone (s : State) : Bool :=
  (List.range (engineCount s.var)).all (fun e =>
    (tget s.disp.engines {} e).state != .inService || Nat.ble stressNeeded (tget s.tru.stress 0 e))

/-- The largest stretched fraction in 0.001 % of the engines in service and of those that faulted during the pass (R629, R639). -/
def largestStretch (s : State) (r : TruingReadings) : Nat :=
  (((r.fMax.zipIdx).filter (fun e => (tget s.disp.engines {} e.2).state == .inService || s.tru.left.contains e.2)).map (·.1)).foldl max 0

/-! ### A pass -/

/-- The mask of all lanes (R637). -/
abbrev allLanes : Nat := 0x1F

/-- A pass starts with the lanes that it measures: the parameters of the next pass take effect, and the stress program and the MRAM test write begin, the test write
not during a commit (R15, R626, R627, R641). -/
def startPass (lanesOnly : Bool) (laneMask : Nat) (s : State) : State :=
  stressSync ((parPromote s (fun _ _ => true) .pass).onTru (fun t =>
    { t with running := true, lanesOnly := lanesOnly, laneMask := laneMask, startedAt := s.time.now, stress := [], stressOn := [], left := [],
             guard := (parWritten s Par.truingGuard 0).toNat,
             mramTest := if lanesOnly || s.ev.freeze.isSome then none else some s.time.now }))

/-- The derating that a complete pass computes, in ppm (R629): 250,000 × f_max is 5/2 of f_max in 0.001 %. -/
def passDerating (guard transients fMax : Nat) : Nat :=
  250 * cdivN (2 * (250 + guard + min (100 * transients) 10000) + 5 * fMax) 500

/-- Transient outcomes of the last 3,600 s (R607, R629, R707). -/
def hourTransients (s : State) : Nat := (s.ev.transients.filter (fun e => Nat.blt (nowNs s) (e.1 + 3600000000000))).length

/-- The core voltage that a pass requests, in mV (R630); unchanged where the device makes no request. -/
def passVoltage (s : State) (r : TruingReadings) : Nat :=
  let v := s.tru.mvConfirmed
  let goal : Int := par s Par.slackTarget 0
  if par s Par.avsEnable 0 = 0 then v
  else
    let w : Int :=
      if r.slackPs < goal then (v : Int) + 5 * ((goal - r.slackPs + 3) / 4)
      else if goal + 20 < r.slackPs ∧ r.stretched = false ∧ s.cyc.running = false then (v : Int) - 5
      else v
    (clampI w 700 800).toNat

/-- A derating and voltage take effect, with the guard that the pass computed with (R15, R632): the voltage is stored in MRAM. -/
def adoptNow (delta mv : Nat) (s : State) : State :=
  (parSet s Par.truingGuard 0 s.tru.adoptGuard).onTru (fun t => { t with
    derating := delta, mvConfirmed := mv, mvReq := mv, storedMv := some mv, exhausted := false, adopting := none })

/-- At the next tick while the cycle runs, else at once (R632). -/
def adopt (delta mv : Nat) (s : State) : State :=
  let s1 := s.onTru (fun t => { t with adoptGuard := t.guard })
  if s.cyc.running then s1.onTru (fun t => { t with adopting := some (delta, mv), exhausted := false }) else adoptNow delta mv s1

/-- The derating under which a plan that is verified now will run: the one to be adopted at the next tick, else the one in force
(R66, R632). -/
def planDerating (s : State) : Nat := match s.tru.adopting with | some e => e.1 | none => s.tru.derating

/-- The armed standby plan under a new derating: its switch is cancelled where it no longer fits (R66, R75). -/
def recheckStandby (delta : Nat) (s : State) : State :=
  match s.plan.armed with
  | none => s
  | some _ =>
    match verifyPlan s s.plan.standby delta s.cyc.running with
    | .ok _ => s
    | .error r =>
      finish { s with plan := { s.plan with armed := none, standbySt := .unverified } } Cmd.planCommit 0 (stepStatus r.step) (refusedBytes r)

/-- Step 1 to 3 of R632: the active plan is verified under a new derating before it is adopted; the cause of TRUING_DONE. A plan
that fails at another step than 8 or 9, of which R632 says nothing, is taken as one that does not fit (DESIGN CHOICE, log 48). -/
def judgeResult (delta mv : Nat) (s : State) : State × Nat :=
  if delta = s.tru.derating then (adopt delta mv s, 0)
  else
    match s.plan.active with
    | none => (adopt delta mv (recheckStandby delta s), 0)
    | some m =>
      match verifyPlan s m delta false with
      | .ok u => (adopt delta mv (recheckStandby delta (noteUse { s with plan := { s.plan with verifiedAt := delta } } u false)), 0)
      | .error r =>
        let s1 := raiseWarn s Ev.marginExhausted (cause := r.step) (detail := b32 r.required)
        (s1.onTru (fun t => { t with exhausted := true, mvReq := t.mvConfirmed,
                                     step := if mv = t.mvConfirmed then t.step else some (t.mvConfirmed, s.time.now, false) }), 1)

/-- The lane is on the part, and the pass measures it. -/
def laneMeasured (s : State) (lane : Nat) : Bool :=
  bitOf s.tru.laneMask lane && (if lane = 4 then isFull s.var else Nat.blt lane (2 * ringCount s.var))

/-- The candidate that is adopted: its eye height exceeds that of the settings in use by at least 10 % (R634). -/
def betterEq (e : EyeScan) : Option (Nat × Nat × Nat) := e.candidate.filter (fun c => Nat.ble (11 * e.height) (10 * c.2.1) && Nat.blt e.height c.2.1)

/-- The scan of a lane: the eye of the settings in use is stored; a better setting is adopted with its eye, while the cycle runs in the
guard of a tick (R634). -/
def takeEye (s : State) (e : EyeScan) : State :=
  if !laneMeasured s e.lane then s
  else
    let s1 := s.onTru (fun t => { t with
      lanes := tmod t.lanes (0, 0, 0) e.lane (fun l => (e.height, e.width, l.2.2)),
      eqWaiting := t.eqWaiting.filter (fun w => w.1 != e.lane) ++
        (match betterEq e with | some (eq, h, w) => [(e.lane, h, w, eq)] | none => []) })
    if (e.height : Int) < par s Par.eyeMin e.lane then raiseWarn s1 Ev.serviceLifeLow Kind.channel e.lane e.lane else s1

/-- One waiting equaliser setting is adopted in the guard of a tick (R634). -/
def takeEq (s : State) : State :=
  match s.tru.eqWaiting with
  | [] => s
  | (lane, l) :: r => s.onTru (fun t => { t with eqWaiting := r, lanes := tput t.lanes lane l })

/-- All waiting equaliser settings are adopted. -/
def takeEqs (s : State) : State := (List.range s.tru.eqWaiting.length).foldl (fun s _ => takeEq s) s

/-- Lane results of a pass (R634): without a cycle the new settings are adopted at once. -/
def takeEyes (s : State) (r : TruingReadings) : State :=
  let s1 := r.eyes.foldl takeEye s
  if s.cyc.running then s1 else takeEqs s1

/-- What the end of the cycle leaves of a truing result that waits for a tick: without a cycle it takes effect at once (R632, R634;
log 48). -/
def settleTruing (s : State) : State :=
  let s1 := match s.tru.adopting with | some e => adoptNow e.1 e.2 s | none => s
  takeEqs s1

/-- The fourth root of a number of hours, in 2^-16 (log 21). -/
def root4 (h : Nat) : Nat := isqrt (isqrt (h * 2 ^ 64))

/-- The hours at which the fit k × t^0.25 of a history by least squares reaches a slowdown (R635): k = Σ s t^0.25 ÷ Σ t^0.5; none where k
is not positive, since the fit does not reach it. -/
def fitReaches (hist : List (Nat × Int)) (limit : Int) : Option Nat :=
  let num : Int := (hist.map (fun h => h.2 * (root4 h.1 : Int))).sum
  let den : Nat := (hist.map (fun h => root4 h.1 * root4 h.1)).sum
  if num ≤ 0 then none else some ((limit * den / num).toNat ^ 4 / 2 ^ 64)

/-- life_remaining in 0.1 year of 8,760 h (R635): 0xFFFF with less than 168 h of history or without a projection; a longer projection
reads 0xFFFE (log 21). -/
def lifeLeft (hist : List (Nat × Int)) (now : Nat) (limit : Int) : Nat :=
  let first := match hist with | (h, _) :: _ => h | [] => now
  if now < first + 168 then 0xFFFF
  else match fitReaches hist limit with
    | some t => min ((t - now) / 876) 0xFFFE
    | none => 0xFFFF

/-- What a complete pass reports, its history and the projected life (R635). -/
def takeHealth (s : State) (r : TruingReadings) : State :=
  let hist := keepLast 256 (s.tru.history ++ [(opHours s, r.slowdown)])
  let life := lifeLeft hist (opHours s) r.lifeLimit
  let s1 := s.onTru (fun t => { t with
    slowdown := r.slowdown, history := hist, refDrift := r.refDrift, bandgapDrift := r.bandgapDrift,
    mramMargin := if t.mramTest.isSome then r.mramMargin else t.mramMargin, lifeRemaining := life, minSlack := r.slackPs,
    fMax := (r.fMax.zipIdx).map (fun e => (e.2, e.1)) })
  if (life : Int) < par s Par.lifeWarn 0 then raiseWarn s1 Ev.serviceLifeLow (cause := 0xFFFF) else s1

/-- The result of a pass and the cause of its TRUING_DONE (R626 to R632). -/
def passResult (s : State) (complete : Bool) (r : TruingReadings) : State × Nat :=
  if s.tru.lanesOnly then (takeEyes s r, 0)
  else if !complete then (s, 2)
  else
    let delta0 := passDerating s.tru.guard (hourTransients s) (largestStretch s r)
    let delta := if s.cyc.running then max delta0 s.tru.derating else delta0
    let mv := passVoltage s r
    let s1 := takeEyes (takeHealth s r) r
    if mv ≠ s.tru.mvConfirmed ∧ !r.voltageConfirmed then
      ((raiseWarn s1 Ev.avsFault (detail := b16 mv)).onTru (fun t => { t with mvReq := t.mvConfirmed }), 1)
    else judgeResult delta mv s1

/-- A pass is over with a cause: TRUING_DONE, and TRUING_RUN is confirmed (R626, R636). -/
def closePass (s1 : State) (cause : Nat) : State :=
  let s2 := s1.onTru (fun t => { t with running := false, lanesOnly := false, cause := cause, lastEnd := s1.time.now,
                                        passes := inc32 t.passes, stressOn := [] })
  let delta := match s2.tru.adopting with | some (d, _) => d | none => s2.tru.derating
  finish (raiseInfo s2 Ev.truingDone (cause := cause)) Cmd.truingRun 0 St.ok (b8 cause ++ zeros 3 ++ b32 delta)

/-- The end of a pass with its readings (R626, R628). -/
def endPass (s : State) (complete : Bool) (r : TruingReadings) : State :=
  let p := passResult s complete r
  closePass p.1 p.2

/-- A power fail during a pass abandons it: nothing of it is adopted (R640). -/
def abandonPass (s : State) : State := if s.tru.running then closePass s 3 else s

/-- A pass has nothing left to wait for: one of lanes alone, one whose stress clocks are complete, or one whose 200 ms are over
(R626, R628). -/
def passOver (s : State) : Bool :=
  s.tru.lanesOnly || stressDone s || Nat.ble (s.tru.startedAt + 200000000 * nsU) s.time.now

/-- Device time from the end of a pass to the next, in units (R626, R628, R633). -/
def passGap (s : State) : Nat :=
  let n := parN s Par.truingInterval 0
  (if s.tru.exhausted || s.tru.cause == 2 then min 60 n else n) * secU

/-- TRUING_PASS_START (R626, R628, R633). -/
def execTruingPassStart (dt : Nat) (s0 : State) : Out :=
  let s := advance dt s0
  .next (if !s.tru.running ∧ 2 ≤ modeCode s.dev.mode ∧ s.tru.lastEnd + passGap s ≤ s.time.now then startPass false allLanes s else s)

/-- AVS_READBACK (R631): 1 ms after a step the read-back confirms it within 10 mV, or the step is retried once. -/
def execAvsReadback (dt : Nat) (mv : Nat) (s0 : State) : Out :=
  let s := advance dt s0
  match s.tru.step with
  | none => .next s
  | some (goal, at_, retried) =>
    if s.time.now < at_ + 1000000 * nsU then .next s
    else if mv ≤ goal + 10 ∧ goal ≤ mv + 10 then
      .next (s.onTru (fun t => { t with mvRead := mv, mvConfirmed := goal, mvReq := goal, step := none }))
    else if retried then
      .next ((raiseWarn s Ev.avsFault (detail := b16 mv)).onTru (fun t => { t with mvRead := mv, mvReq := t.mvConfirmed, step := none }))
    else .next (s.onTru (fun t => { t with mvRead := mv, step := some (goal, s.time.now, true) }))

/-- TRUING_RUN (R636, R638): a pass at once, or the one that runs. -/
def truingRunBody (s : State) (q : Request) (_ : Nat) : Reply :=
  .pend (addPend (if s.tru.running then s else startPass false allLanes s) Cmd.truingRun q)

/-- truing_state (R637). -/
def truingCode (s : State) : Nat := if s.tru.running then 1 else if s.tru.exhausted then 2 else 0

/-- TRUING_STATUS (R636, R680). -/
def truingStatusBody (s : State) (q : Request) (_ : Nat) : Reply :=
  let t := s.tru
  let part := (t.history.drop (uAt q.payload 0 1)).take 16
  need (resv q.payload 1 3)
    (.ok s (b32 t.derating ++ c24 t.slowdown ++ b16 t.mvReq ++ b16 t.mvRead ++ b16 t.lifeRemaining ++ b8 (truingCode s) ++
      b8 part.length ++ b32 t.passes ++ c24 t.minSlack ++
      (List.range 16).flatMap (fun e => b16 (if e < engineCount s.var then tget t.fMax 0 e else 0)) ++
      part.flatMap (fun h => b32 h.1 ++ c24 h.2)))

/-- TRUING_RUN -/
def execTruingRun (dt : Nat) (q : Request) (s : State) : Out := .next (serve Cmd.truingRun truingRunBody dt q s)
/-- TRUING_STATUS -/
def execTruingStatus (dt : Nat) (q : Request) (s : State) : Out := .next (serve Cmd.truingStatus truingStatusBody dt q s)

end Sys2Proof.Machine
end

