-- ==== Sys2Proof/Machine/LawMath.lean ====
section
/-! DEFINITION. The standard laws evaluated exactly (R171 to R181, R189, R203, R208, R219 to R222, R232, R234, R407 to
R409). Values are fixed-point numbers in units of 2^-96, far below every destination format; each output word is then free
within the 2 LSB that R181 leaves open (log 12). -/

namespace Sys2Proof.Machine

/-! ### Fixed-point arithmetic -/

/-- One in units of 2^-96. -/
abbrev fx : Int := 79228162514264337593543950336
/-- 2π, √3 and ln 10 in units of 2^-96. -/
abbrev fxTwoPi : Int := 497805226624462170461043889244
abbrev fxSqrt3 : Int := 137227202865029797602485611888
abbrev fxLn10 : Int := 182429585950654714090129938606

/-- Product and quotient of fixed-point numbers. -/
def fmul (a b : Int) : Int := a * b / fx
def fdiv (a b : Int) : Int := if b = 0 then 0 else a * fx / b

/-- Terms of a series in x²: each is the one before times -x² / (k (k + 1)). -/
def powerSum (x2 : Int) : Nat → Int → Int → Int
  | 0, _, _ => 0
  | n + 1, k, t => t + powerSum x2 n (k + 2) (-(fmul t x2) / (k * (k + 1)))

/-- Sine of an angle in [0, π/2]. -/
def sinRad (x : Int) : Int := powerSum (fmul x x) 24 2 x
/-- Cosine of an angle in [0, π/2]. -/
def cosRad (x : Int) : Int := powerSum (fmul x x) 24 1 fx

/-- Sine of an angle in turns. -/
def sinT (t : Int) : Int :=
  let f := t % fx
  let r := fmul (f % (fx / 4)) fxTwoPi
  match f / (fx / 4) with
  | 0 => sinRad r
  | 1 => cosRad r
  | 2 => -sinRad r
  | _ => -cosRad r

/-- Cosine of an angle in turns. -/
def cosT (t : Int) : Int := sinT (t + fx / 4)

/-- Terms of the series of e^-y. -/
def expSum (y : Int) : Nat → Int → Int → Int
  | 0, _, _ => 0
  | n + 1, k, t => t + expSum y n (k + 1) (-(fmul t y) / k)

/-- Squares a number `n` times. -/
def squareN : Nat → Int → Int
  | 0, v => v
  | n + 1, v => squareN n (fmul v v)

/-- e^-y for y ≥ 0. -/
def expNeg (y : Int) : Int := squareN 12 (expSum (y / 4096) 24 1 fx)

/-- Square root of a fixed-point number. -/
def fsqrt (v : Int) : Int := (isqrt ((v * fx).toNat) : Int)

/-! ### Stored states and output words -/

/-- Two engine words of a 48-bit value, low word first. -/
def pair48 (v : Int) : List W24 := [BitVec.ofInt 24 v, BitVec.ofInt 24 (v / 16777216)]

/-- The 48-bit value in words `i` and `i + 1` of a list. -/
def word48 (l : List W24) (i : Nat) : Int := signed 48 (((l[i]?).getD 0).toNat + 16777216 * ((l[i + 1]?).getD 0).toNat)

/-- A stored state of a standard law: 48 bits, 2^-47 of full scale (R181), and whether it was saturated. -/
def store47 (v : Int) : Int × Bool :=
  let r := rdiv v 562949953421312
  let c := clampI r wMin wMax
  (c, decide (c ≠ r))

/-- A stored state as a fixed-point number. -/
def load47 (l : List W24) (i : Nat) : Int := word48 l i * 562949953421312

/-- An output within 2 LSB of an exact value, saturated to its type: `unit` is the LSB in units of 2^-96, `no` the free-value counter,
`k` the number of the output (R181; log 12). -/
def openOut (no k : Nat) (unit v lo hi : Int) : Int :=
  let l := -((2 * unit - v) / unit)
  let h := (v + 2 * unit) / unit
  clampI (l + min ((Config.lawJitter no k).val : Int) (h - l)) lo hi

/-- An exact value of which no output within 2 LSB fits the type: it saturates (R181; log 12). -/
def beyond (unit v lo hi : Int) : Bool := decide (v + 2 * unit < lo * unit ∨ hi * unit < v - 2 * unit)

/-- LSB of Q1.23 and of T24.F24 in units of 2^-96. -/
abbrev lsbQ : Int := 9444732965739290427392
abbrev lsbT : Int := 4722366482869645213696

/-- A Q1.23 output. -/
def outQ (no k : Nat) (v : Int) : Int := openOut no k lsbQ v (-8388608) 8388607
/-- A T24.F24 output. -/
def outT (no k : Nat) (v : Int) : Int := openOut no k lsbT v wMin wMax
/-- A value that saturates as a Q1.23 and as a T24.F24 output. -/
def beyondQ (v : Int) : Bool := beyond lsbQ v (-8388608) 8388607
def beyondT (v : Int) : Bool := beyond lsbT v wMin wMax
/-- Words of values. -/
def w24 (v : Int) : List W24 := [BitVec.ofInt 24 v]

/-! ### Filters (R178, R189) -/

/-- α of the low-pass: corner in 0.1 Hz, task period in ns (R178). -/
def lpAlpha (corner period : Nat) : Int := fx - expNeg (fxTwoPi * corner * period / 10000000000)

/-- The notch is on at a task period (R188, R189): its frequency is not 0 and below 0.45 ÷ T. -/
def notchOn (f0 period : Nat) : Bool := f0 != 0 && Nat.blt (f0 * period * 100) 45000000000

/-- Coefficients b0, b1, b2, a1, a2 of a notch over a0 (R189), numerator and denominator divided by K². -/
def notchCoefs (f0 width depth period : Nat) : Int × Int × Int × Int × Int :=
  let h := (f0 : Int) * period * fx / 2000000000
  let g := fdiv (sinT h) (cosT h)
  let g2 := fmul g g
  let zp := (width : Int) * fx / (2 * f0)
  let zz := if depth = 0 then 0 else fmul zp (expNeg (fxLn10 * depth / 20))
  let a0 := fx + 2 * fmul zp g + g2
  (fdiv (fx + 2 * fmul zz g + g2) a0, fdiv (2 * (g2 - fx)) a0, fdiv (fx - 2 * fmul zz g + g2) a0, fdiv (2 * (g2 - fx)) a0,
   fdiv (fx - 2 * fmul zp g + g2) a0)

/-- One sample through a notch with two states: output, new states. -/
def notchRun (c : Int × Int × Int × Int × Int) (x s1 s2 : Int) : Int × Int × Int :=
  let (b0, b1, b2, a1, a2) := c
  let y := fmul b0 x + s1
  (y, fmul b1 x - fmul a1 y + s2, fmul b2 x - fmul a2 y)

/-- A notch of an axis by its parameters; off, it passes its input and keeps its states (R203). -/
def notchStage (s : State) (a fq wd dp period : Nat) (x s1 s2 : Int) : Int × Int × Int :=
  let f0 := parN s fq a
  if notchOn f0 period then notchRun (notchCoefs f0 (parN s wd a) (parN s dp a) period) x s1 s2 else (x, s1, s2)

/-! ### Inputs of the laws -/

/-- Task period T in ns (R171). -/
def taskPeriod (s : State) (t : PTask) : Nat := 2 ^ t.subExp * s.period

/-- x*, v*, a* of an axis in the words of its record, as fixed-point numbers (R341). -/
def setPoint (s : State) (a : Nat) : Int × Int × Int :=
  let k := (s.axis a).kin
  (q48 (t24 (wrapPos (modQ s a) k.x)) * q96, q48 (t24 k.v) * q96, q48 (t24 k.a) * q96)

/-- x*_a (R185). -/
def setAhead (s : State) (a : Nat) : Int :=
  let (x, v, ac) := setPoint s a
  let ts := (tauLaw s a).2
  x + overTime v ts + overTime (overTime ac ts) ts / 2

/-- The shortest difference of two positions as fixed-point numbers. -/
def fxDiff (s : State) (a : Nat) (d : Int) : Int := shortDiff (modQ s a * q96) d

/-- Following error x* - x_fb in units of 2^-48 (R175). -/
def followErr (s : State) (a : Nat) : Int := shortDiff (modQ s a) ((s.axis a).kin.x - (s.axis a).xfb)

/-- Acceleration feed-forward (R177). -/
def affOf (s : State) (a : Nat) : Int := par s Par.affGain a * (setPoint s a).2.2 / 16777216

/-- A run of a task is the first one after the axis's capture (R200, R341): where the task is not due in the capture cycle, or that run
does not commit, the states of 0 are still to come (log 24). -/
def capturing (s : State) (t : PTask) : Bool := (s.long t.index).capture

/-- Safety holds the torque of an axis off: as its up slice reports it, of a local axis from the instant on (R207, R234). -/
def stoActs (s : State) (a : Nat) : Bool := (s.axis a).sto || (isLocalAxis s.image a && axisSafetyOff s a)

/-- The diagnostic words of a cascade or set-point task (R342). -/
def diagWords (s : State) (a no : Nat) (torque : Int) : List W24 :=
  let x := s.axis a
  pair48 (outT no 8 (x.xfb * q96)) ++ pair48 (outT no 9 (x.vfb * q96)) ++ pair48 (outT no 10 (followErr s a * q96)) ++ w24 torque ++
    w24 x.dclink

/-- A diagnostic of a cascade or set-point task saturates (R181). -/
def diagBeyond (s : State) (a : Nat) : Bool := beyondT ((s.axis a).xfb * q96) || beyondT ((s.axis a).vfb * q96) || beyondT (followErr s a * q96)

/-! ### Cascade (R174 to R179) -/

/-- The velocity integrator of a cycle (R176): `sat` is the sign of an output that stood at its limit in the cycle before. -/
def integrate (s : State) (a period : Nat) (sat i0 ev : Int) : Int :=
  let x := s.axis a
  if !x.fbValid || stoActs s a || (sat != 0 && sgn ev == sat) then i0
  else
    let lim := par s Par.intLimit a * lsbQ
    clampI (i0 + par s Par.velKp a * par s Par.velKi a * period * ev / 10485760000000000) (-lim) lim

/-- The cascade (R174 to R179). Stored words: integrator, low-pass, two per notch, the sign of a limited output. The spec does not say what the
low-pass state does while `vel_lp` is 0: it follows u, so that a filter switched on starts without a step (DESIGN CHOICE, log 51). -/
def cascadeLaw (s : State) (t : PTask) (no : Nat) (old0 : List W24) : LawRes :=
  let a := t.axis
  let x := s.axis a
  let old := if capturing s t then [] else old0
  let per := taskPeriod s t
  let vl := q48 (par s Par.velLimit a) * q96
  let ex := fxDiff s a (setAhead s a - xHat s a)
  let vcmd := clampI (par s Par.posKp a * ex / 1000 + par s Par.vffGain a * (setPoint s a).2.1 / 4194304) (-vl) vl
  let ev := vcmd - x.vfb * q96
  let i := integrate s a per ((old[12]?).getD 0).toInt (load47 old 0) ev
  let u := par s Par.velKp a * ev / 1048576 + i + affOf s a
  let y := if par s Par.velLp a = 0 then u else load47 old 2 + fmul (lpAlpha (parN s Par.velLp a) per) (u - load47 old 2)
  let (y1, p1, p2) := notchStage s a Par.n1Freq Par.n1Width Par.n1Depth per y (load47 old 4) (load47 old 6)
  let (y2, r1, r2) := notchStage s a Par.n2Freq Par.n2Width Par.n2Depth per y1 (load47 old 8) (load47 old 10)
  let lim := par s Par.torqueLimit a * lsbQ
  let tau := clampI y2 (-lim) lim
  let quiet := capturing s t || (isLocalAxis s.image a && x.faults.contains Ev.feedbackLost)
  let word := if quiet then 0 else outQ no 0 tau
  let sts := [i, y, p1, p2, r1, r2].map store47
  let mode := parN s Par.axisMode a
  { outs := w24 word ++ (if mode = 1 then w24 x.control else []) ++ diagWords s a no word,
    std := sts.flatMap (fun e => pair48 e.1) ++ w24 (if lim ≤ y2.natAbs then sgn y2 else 0),
    sat := sts.any (·.2) || diagBeyond s a }

/-! ### Set-point law (R166, R169, R171) -/

/-- The unwrapped command of an axis after a run, in units of 2^-48 user turn (R166): it advances by the shortest difference. -/
def unwrapNext (s : State) (a : Nat) (xa : Int) : Int :=
  let x := s.axis a
  x.cmdUnwrapped + shortDiff (modQ s a) (xa - x.cmdLastX)

/-- The set-point law of mode 2. -/
def setPointLaw (s : State) (t : PTask) (no : Nat) : LawRes :=
  let a := t.axis
  let inv := fun (v : Int) => v * par s Par.fbDen a / par s Par.fbNum a
  let pos := inv (unwrapNext s a (rdiv (setAhead s a) q96) * q96)
  let vel := inv (setPoint s a).2.1
  let tq := outQ no 2 (affOf s a)
  { outs := pair48 (outT no 0 pos) ++ pair48 (outT no 1 vel) ++ w24 tq ++ w24 (s.axis a).control ++ diagWords s a no tq, std := [],
    sat := beyondT pos || beyondT vel || beyondQ (affOf s a) || diagBeyond s a }

/-! ### Current law (R219 to R222, R232, R234) -/

/-- Position in feedback turns of a reading. -/
def feedTurns (s : State) (a : Nat) (raw : Int) : Int :=
  match sourceOf s a with
  | .enc ch => raw * fx / par s Par.encCpt ch
  | _ => raw * lsbT

/-- ω_e in electrical turns per second from the last two valid samples (R219 step 2, R232). -/
def omegaE (s : State) (a : Nat) : Int :=
  let x := s.axis a
  match x.fbPrev, x.fb with
  | some p, some q =>
    if p.at_ < q.at_ then par s Par.polePairs a * (feedTurns s a (readDiff q.raw p.raw) * tS / ((q.at_ : Int) - p.at_)) else 0
  | _, _ => 0

/-- Phase currents of the cycle as fixed-point fractions of cur_fs: Q1.15 of a node, Q1.23 of the ADC. -/
def phaseCurrents (s : State) (a : Nat) : Int × Int × Int :=
  let x := s.axis a
  let unit := if isLocalAxis s.image a then lsbQ else 256 * lsbQ
  let c := fun (i : Nat) => (x.currents[i]?).getD 0 * unit
  (c 0, c 1, c 2)

/-- i_α and i_β (R219 step 3). -/
def clarke (s : State) (a : Nat) : Int × Int :=
  let (ia, ib, ic) := phaseCurrents s a
  if isLocalAxis s.image a = false ∧ par s Par.sensors a = 3 ∧ bitOf (s.axis a).driveStatus 6 then
    ((2 * ia - ib - ic) / 3, fdiv (ib - ic) fxSqrt3)
  else (ia, fdiv (ia + 2 * ib) fxSqrt3)

/-- The DC-link factor as a numerator and a divisor: that of the last valid V_dc, and 1 without feed-forward (R180, R222). -/
def dcFactor (s : State) (a : Nat) : Int × Int :=
  if par s Par.dclinkFf a = 0 then (1, 1) else ((s.axis a).dcFac.1, (s.axis a).dcFac.2)

/-- Duties of the three phases from the scaled vector (R222). -/
def modulate (ua ub : Int) : List Int :=
  let b := -ua / 2 + fmul (fxSqrt3 / 2) ub
  let c := -ua / 2 - fmul (fxSqrt3 / 2) ub
  let mid := (max (max ua b) c + min (min ua b) c) / 2
  [ua, b, c].map (fun u => clampI (fdiv (2 * (u - mid)) fxSqrt3) (-fx) fx)

/-- The integrator of a component after its limit (R220): it does not advance in the direction of the limit. -/
def limitPi (old new u lim : Int) : Int × Int × Bool :=
  let c := clampI u (-lim) lim
  if c = u then (c, new, false) else (c, if sgn (new - old) = sgn u then old else new, true)

/-- The turn of the electrical angle in one period, as dtheta gives it. -/
def dthetaOf (s : State) (a : Nat) : Int := omegaE s a * s.period / 1000000000

/-- A word of the payload of a ring axis's current task saturates: the scaled vector or dtheta (R181, R217). -/
def vectorBeyond (s : State) (a : Nat) (ua ub : Int) : Bool :=
  let (n, d) := dcFactor s a
  !isLocalAxis s.image a &&
    (beyondQ (ua * n / d) || beyondQ (ub * n / d) || beyond 1208925819614629174706176 (dthetaOf s a) (-32768) 32767)

/-- Output words of a current task (R342): duties, then the scaled vector and dtheta in mode 3, control, diagnostics. -/
def currentOuts (s : State) (a no : Nat) (ua ub : Int) (diag : List Int) : List W24 :=
  let (n, d) := dcFactor s a
  let sa := ua * n / d
  let sb := ub * n / d
  let duties := (modulate sa sb).zipIdx.map (fun e => BitVec.ofInt 24 (outQ no e.2 e.1))
  let dth := openOut no 5 1208925819614629174706176 (dthetaOf s a) (-32768) 32767
  let ctl := (s.axis a).control
  duties ++ (if isLocalAxis s.image a then w24 (ctl % 2) else w24 (outQ no 3 sa) ++ w24 (outQ no 4 sb) ++ w24 dth ++ w24 ctl) ++
    diag.flatMap w24

/-- The current law with the command i_q* as a Q1.23 word. Stored words: I_d, I_q, u_α, u_β, each in 48 bits. -/
def currentLaw (s : State) (t : PTask) (no : Nat) (iqCmd : Int) (old0 : List W24) : LawRes :=
  let a := t.axis
  let x := s.axis a
  let old := if capturing s t then [] else old0
  let w := omegaE s a
  let per : Int := s.period
  if !x.fbValid then
    let g := w * per / 1000000000
    let ua := fmul (load47 old 4) (cosT g) - fmul (load47 old 6) (sinT g)
    let ub := fmul (load47 old 4) (sinT g) + fmul (load47 old 6) (cosT g)
    { sat := vectorBeyond s a ua ub, outs := currentOuts s a no ua ub ((List.range 6).map (fun k => tget x.diag54 0 (k + 1))),
      std := (old ++ List.replicate 4 0).take 4 ++ pair48 (store47 ua).1 ++ pair48 (store47 ub).1 }
  else
    let th := (par s Par.polePairs a * feedTurns s a ((x.fb.map (·.raw)).getD 0) + par s Par.commOffset a * lsbT) % fx
    let (ial, ibe) := clarke s a
    let id := fmul ial (cosT th) + fmul ibe (sinT th)
    let iq := fmul ibe (cosT th) - fmul ial (sinT th)
    let nom := max (par s Par.dclinkNom a) 1
    let fs := par s Par.curFs a
    -- u = gain × e with the gain in fractions of V_ref per fraction of cur_fs
    let kp := par s Par.ccKp a * fs * fxSqrt3 / (nom * 100000)
    let ed := par s Par.idRef a * lsbQ - id
    let eq := iqCmd * lsbQ - iq
    let hold := stoActs s a
    let step := fun (e : Int) => if hold then 0 else fmul kp e * par s Par.ccKi a * per / 1000000000
    let i0d := load47 old 0
    let i0q := load47 old 2
    let we := fmul fxTwoPi w
    let volt := fmul we fxSqrt3
    let on := par s Par.ccDecouple a = 1
    let ffd := if on then -(fmul volt iq * par s Par.lq a * fs / (nom * 100000000)) else 0
    let ffq := if on then fmul volt id * par s Par.ld a * fs / (nom * 100000000) + volt * par s Par.psi a / (nom * 100000) else 0
    let lim := par s Par.modLimit a * lsbQ
    let (ud, id1, ld) := limitPi i0d (i0d + step ed) (fmul kp ed + i0d + step ed + ffd) lim
    let limQ := fsqrt (fmul lim lim - fmul ud ud)
    let (uq, iq1, lq) := limitPi i0q (i0q + step eq) (fmul kp eq + i0q + step eq + ffq) limQ
    let td := (tauLaw s a).1
    let adv := w * (2 * td + 16 * per) / 32000000000
    let ta := th + adv
    let ua := fmul ud (cosT ta) - fmul uq (sinT ta)
    let ub := fmul ud (sinT ta) + fmul uq (cosT ta)
    let diag := [outQ no 8 id, outQ no 9 iq, outQ no 10 ud, outQ no 11 uq,
      openOut no 12 lsbT th (-2) 16777217 % 16777216, openOut no 13 lsbT adv (-8388608) 8388607]
    let sts := [id1, iq1, ua, ub].map store47
    { outs := currentOuts s a no ua ub diag, std := sts.flatMap (fun e => pair48 e.1), volt := ld || lq,
      sat := sts.any (·.2) || beyondQ id || beyondQ iq || beyond lsbT adv (-8388608) 8388607 || vectorBeyond s a ua ub }

/-! ### Stepper law (R271, R407, R408) -/

/-- The stepper law: the step target of mode 5, exact with its remainder carried, or the coil duties of mode 6. -/
def stepperLaw (s : State) (t : PTask) (no : Nat) : LawRes :=
  let a := t.axis
  let x := s.axis a
  if par s Par.axisMode a = 5 then
    let n := unwrapNext s a (recordPos s a) * par s Par.stepsPerTurn a / turnQ
    { outs := pair48 (clampI n wMin wMax) ++ w24 (x.control % 2), std := [], sat := decide (clampI n wMin wMax ≠ n) }
  else
    let th := (recordPos s a * q96 * par s Par.fullSteps a / 4) % fx
    let cur := (match x.coil with | .holdCurrent => par s Par.holdCurrent a | _ => par s Par.runCurrent a) * lsbQ
    let (n, d) := dcFactor s a
    let duty := fun (i : Int) =>
      clampI (i * par s Par.curFs a * par s Par.coilRes a / (100000 * max (par s Par.dclinkNom a) 1) * n / d) (-fx) fx
    let ctl := match x.coil with | .off => 0 | .shorted => x.control % 2 + 2 | _ => x.control % 2
    { outs := w24 (outQ no 0 (duty (fmul cur (cosT th)))) ++ w24 (outQ no 1 (duty (fmul cur (sinT th)))) ++ w24 ctl, std := [] }

end Sys2Proof.Machine
end

