-- ==== Sys2Proof/Machine/DispatchOps.lean ====
section
/-! DEFINITION. The dispatcher's operations: readiness, ready lists and candidates (R284 to R287, R291), the axis record (R341),
commits and bundles (R50 to R53, R290, R295, R296, R342), abandoned tasks and re-runs (R299), placements (R286, R300, R301),
the end of a cycle (R57) and the statistics (R304 to R307). -/

namespace Sys2Proof.Machine

/-! ### Access -/

/-- An engine clock of 1.25 ns in units of device time (R24). -/
abbrev clkU : Nat := 5368709120

/-- A task of the present cycle. -/
def State.task (s : State) (i : Nat) : TaskSt := tget s.cyc.tasks {} i
/-- Changes a task of the present cycle. -/
def State.onTask (s : State) (i : Nat) (f : TaskSt → TaskSt) : State := { s with cyc := { s.cyc with tasks := tmod s.cyc.tasks {} i f } }
/-- A bundle of the present cycle. -/
def State.bundle (s : State) (b : Nat) : BundleSt := tget s.cyc.bundles {} b
/-- Changes a bundle. -/
def State.onBundle (s : State) (b : Nat) (f : BundleSt → BundleSt) : State :=
  { s with cyc := { s.cyc with bundles := tmod s.cyc.bundles {} b f } }
/-- A flow. -/
def State.flow (s : State) (f : Nat) : Flow := tget s.disp.flows {} f
/-- Changes a flow. -/
def State.onFlow (s : State) (f : Nat) (g : Flow → Flow) : State := { s with disp := { s.disp with flows := tmod s.disp.flows {} f g } }
/-- The ready list of a level. -/
def State.level (s : State) (l : Nat) : List Nat := tget s.disp.ready [] l
/-- Changes the ready list of a level. -/
def State.onLevel (s : State) (l : Nat) (f : List Nat → List Nat) : State := { s with disp := { s.disp with ready := tmod s.disp.ready [] l f } }

/-- An engine that is in service. -/
def serves (s : State) (e : Nat) : Bool := Nat.blt e (engineCount s.var) && (s.engine e).state == .inService

/-- A task is the current task of its axis (R210): the standard current law, or in modes 3 and 4 the user law in its place. -/
def isCurrent (s : State) (t : PTask) : Bool :=
  let mode := parN s Par.axisMode t.axis
  t.lawId == lawCurrent || ((mode == 3 || mode == 4) && currentOf s.image t.axis == some t)

/-- A task is the main law of its axis. -/
def isMain (s : State) (t : PTask) : Bool := t.axis != 255 && mainOf s.image t.axis == some t

/-- The task whose output goes out: the current task in modes 3 and 4, else the main law (R342). -/
def goesOut (s : State) (t : PTask) : Bool :=
  let mode := parN s Par.axisMode t.axis
  t.axis != 255 && (if mode = 3 ∨ mode = 4 then isCurrent s t else isMain s t)

/-! ### Readiness (R284, R341) -/

/-- The task runs in the present cycle (R44, R299). -/
def dueNow (s : State) (t : PTask) : Bool := dueIn t s.cyc.tick && !(s.long t.index).parked

/-- Feedback of the axis is present or its deadline has passed; without an axis the release has passed (R284). So it is for the task of
an axis that has no slice-map entry, of which R284 says nothing (DESIGN CHOICE, log 44). -/
def inputsThere (s : State) (t : PTask) : Bool :=
  let past := fun (ns : Nat) => Nat.ble (s.cyc.t0 + ns * nsU) s.time.now
  if t.axis = 255 then past t.release
  else match sliceOf s.image t.axis with
    | none => past t.release
    | some x =>
      (s.axis t.axis).fbThisCycle ||
        (if x.ring = 255 then sourceOf s t.axis == .none && (tget s.pwm.timers {} x.node).sampleAt.isSome else past (gatherOf s.image x.ring))

/-- A task has completed, failed or been cancelled. -/
def taskOver (k : TaskSt) : Bool :=
  match k.phase with
  | .complete | .committed | .failed | .overrun | .cancelled => true
  | _ => false

/-- Every earlier task of the flow in this cycle is over (R284). -/
def flowClear (s : State) (t : PTask) : Bool :=
  (ptasks s.image).all (fun u => !(u.flow == t.flow && Nat.blt u.index t.index && dueNow s u) || taskOver (s.task u.index))

/-- Number of stored words that a standard law keeps outside the SRAM (R181; log 22). -/
def stdLen (law : Nat) : Nat := if law = lawCascade then 13 else if law = lawCurrent then 8 else 0

/-- The current command of an axis: the output of the cascade task that completed in this cycle, else the last committed one (R210,
R230). -/
def iqCmd (s : State) (a : Nat) : Int :=
  match (axisTasks s.image a).find? (fun t => isMain s t && ((s.task t.index).phase == .complete || (s.task t.index).phase == .committed)) with
  | some t => ((((s.task t.index).results)[if userLaw t.lawId then t.stLen else stdLen t.lawId]?).getD 0).toInt
  | none => (s.axis a).out.torque

/-- The axis record, words 0 to 23 (R341). -/
def axisRecord (s : State) (t : PTask) : List W24 :=
  let a := t.axis
  let x := s.axis a
  let mode := parN s Par.axisMode a
  let flags := bit x.fbValid + 2 * bit x.axisEnabled + 4 * bit (capturing s t) + 8 * parN s Par.delayComp a + 16 * bit (stoActs s a)
  let fb := match x.fb with | some q => rdiv (feedTurns s a q.raw) lsbT | none => 0
  let cur := fun (i : Nat) => if mode = 3 then (x.currents[i]?).getD 0 * 256 else if mode = 4 then (x.currents[i]?).getD 0 else 0
  w24 flags ++ w24 x.control ++ w24 x.driveStatus ++ w24 (x.vdc.getD 0) ++ pair48 fb ++ w24 (sampleOff s a) ++ w24 (tauUsed s a) ++
    pair48 (t24 (wrapPos (modQ s a) x.kin.x)) ++ pair48 (t24 x.kin.v) ++ pair48 (t24 x.kin.a) ++ w24 (taskPeriod s t) ++ w24 0 ++
    w24 (cur 0) ++ w24 (cur 1) ++ w24 (cur 2) ++ w24 (if mode = 3 ∨ mode = 4 then iqCmd s a else 0) ++ List.replicate 4 0

/-- A task joins the tail of its level; of those that became ready at the same instant the table order holds (R285). -/
def joinTail (s : State) (i : Nat) (l : List Nat) : List Nat :=
  let later := fun (j : Nat) => (s.task j).readyAt == s.time.now && !(s.task j).rerun && !(s.task j).preempted && Nat.blt i j
  let back := (l.reverse.takeWhile later).reverse
  l.take (l.length - back.length) ++ i :: back

/-! ### Inputs and evaluation (R287, R290, R318, R339, R347) -/

/-- The SRAM as a task of a flow sees it: with the results of the flow's completed tasks that have not committed (R290). -/
def flowView (s : State) (f : Nat) : State :=
  (ptasks s.image).foldl (fun v t =>
    if t.flow = f ∧ (s.task t.index).phase = .complete ∧ userLaw t.lawId then putWords v (t.base + 4 * t.inLen) (s.task t.index).results
    else if t.flow = f ∧ (s.task t.index).phase = .complete then
      putWords v (t.base + 4 * (t.inLen + t.stLen)) ((s.task t.index).results.drop (stdLen t.lawId))
    else v) s

/-- Call flags in X0 (R339). -/
def callFlags (s : State) (t : PTask) : Nat := bit (s.task t.index).rerun + 2 * bit (s.long t.index).zeroed + 4 * t.subExp

/-- x_fb of an axis at a run of its law (R172, R173). -/
def runFeedback (s : State) (t : PTask) : State :=
  if isMain s t then
    s.onAxis t.axis (fun x =>
      let m := modQ s t.axis
      match x.fbValid, x.fb with
      | true, some q => { x with xfb := q.x }
      | _, _ => { x with xfb := wrapPos m (x.xfb + rdiv (x.vfb * taskPeriod s t) 1000000000) })
  else s

/-- Output words of a standard law filled up to out_len; words that no rule gives are free (R318, R342). -/
def fillOut (no outLen : Nat) (outs : List W24) : List W24 :=
  (List.range outLen).map (fun k => (outs[k]?).getD (Config.freeWord no (16384 + k)))

/-- A standard law is evaluated (R347). -/
def evalLaw (s : State) (t : PTask) : LawRes :=
  let no := s.free
  let old := (s.long t.index).std
  if t.lawId = lawCascade then cascadeLaw s t no old
  else if t.lawId = lawSetPoint then setPointLaw s t no
  else if t.lawId = lawCurrent then currentLaw s t no (iqCmd s t.axis) old
  else if t.lawId = lawStepper then stepperLaw s t no
  else if t.lawId = 0x10 then { outs := (List.range t.outLen).map (Config.watchWord no), std := [] }
  else { outs := [], std := [] }

/-! ### Candidates (R286, R287, R291) -/

/-- The engine that runs a task now (R286, R299). -/
def runsOn (s : State) (t : PTask) : Option Nat :=
  match (s.task t.index).rerunOn with
  | some e => some e
  | none => (s.flow t.flow).engine

/-- A ready task that an engine may take: one in service, preempted, or one whose flow has none in service and does not drain (R285,
R302). The re-run of a task that was in service when a drain began belongs to the old placement (R299, R302). -/
def mayRun (s : State) (e i : Nat) : Bool :=
  match ptask s.image i with
  | none => false
  | some t =>
    let f := s.flow t.flow
    runsOn s t == some e && (f.service == some i || (f.service.isNone && (f.drainTo.isNone || (s.task i).rerunOn.isSome)))

/-- The candidate of an engine: the earliest of its tasks in the lowest level that holds one (R286). -/
def candidate (s : State) (e : Nat) : Option Nat :=
  (List.range 8).foldl (fun o l => match o with | some i => some i | none => (s.level l).find? (mayRun s e)) none

/-- Clocks of a prefetch: descriptor, copy, and the restore of a preempted context (R288). -/
def prefetchClocks (s : State) (t : PTask) : Nat :=
  8 + cdivN (t.inLen + t.stLen) 8 + (if (s.task t.index).preempted then 32 else 0)

/-- The next slot of an engine takes a candidate: the other bank is filled from the SRAM of this instant, and words that commit later do
not reach it; a standard law sees the same instant. A preempted task gets its context back, once its spill has ended (R287, R291, R318). -/
def fillNext (s : State) (e : Nat) (t : PTask) : State :=
  let n := prefetchClocks s t * clkU
  let at_ := s.time.now + n
  match (s.engine e).chain.find? (fun c => c.task == t.index) with
  | some c => s.onEngine e (fun g => { g with next := some t.index, nextReady := max s.time.now c.spilt + n, nextCore := c.core, nextLaw := c.law })
  | none =>
    let core := entryCore (flowView s t.flow) t.entry t.base t.inLen t.stLen t.outLen (callFlags s t)
    let law := if userLaw t.lawId then {} else evalLaw (if (s.task t.index).rerun then s else runFeedback s t) t
    { s.onEngine e (fun g => { g with next := some t.index, nextReady := at_, nextCore := core, nextLaw := law }) with free := s.free + 1 }

/-- Level of a task. -/
def prioOf (s : State) (i : Nat) : Nat := match ptask s.image i with | some t => t.prio | none => 8

/-- A task leaves the ready lists. -/
def leaveLists (s : State) (i : Nat) : State := s.onLevel (prioOf s i) (fun l => l.filter (· != i))

/-- A task leaves its engine and its flow is free (R285). -/
def leaveEngine (s : State) (i : Nat) : State :=
  let es := tmap s.disp.engines (fun _ g =>
    { g with active := if g.active = some i then none else g.active, chain := g.chain.filter (fun c => c.task != i) })
  let s1 := { s with disp := { s.disp with engines := es } }
  match ptask s.image i with
  | some t => s1.onFlow t.flow (fun f => if f.service = some i then { f with service := none } else f)
  | none => s1

/-- The deepest a level has been (R306). -/
def noteDepth (s : State) (l : Nat) : State :=
  let v : LevelStat := tget s.disp.levels {} l
  { s with disp := { s.disp with levels := tput s.disp.levels l { v with depthMax := max v.depthMax (s.level l).length } } }

/-- A task joins the head of its level (R291, R299). -/
def joinHead (s : State) (i : Nat) : State := noteDepth (s.onLevel (prioOf s i) (fun l => i :: l)) (prioOf s i)

/-! ### Running (R288, R289, R292, R293, R309, R337) -/

/-- b' of R68 in clocks. -/
def budgetClocks (s : State) (t : PTask) : Nat := derated t.budget s.tru.derating

/-- Copy clocks beyond 24, which count against the budget (R289). -/
def copyExcess (t : PTask) : Nat := cdivN (t.inLen + t.stLen) 8 - 24

/-- Clocks of the writeback (R288). -/
def writeback (t : PTask) : Nat := 8 + cdivN (t.stLen + t.outLen) 8

/-- Clocks after the first instruction at which the budget counter reaches b' (R292). -/
def clockLimit (s : State) (t : PTask) : Nat := budgetClocks s t - copyExcess t

/-- Clocks that the active task has run at an instant, and the instant at which it has run a number of clocks; preempted time and switches
do not count (R292). -/
def clocksAt (s : State) (i at_ : Nat) : Nat := (s.task i).used + (at_ - (s.task i).resumeAt) / clkU
def instantAt (s : State) (i clocks : Nat) : Nat := (s.task i).resumeAt + (clocks - (s.task i).used) * clkU

/-- The program runs to its end, or to the first permitted point at or after a number of clocks; runs between permitted points that are
longer than `most` are collected (R293, R333, R337, R343). -/
def runTask (s : State) (limit most : Nat) : Nat → Nat → List Nat → ECore → ECore × List Nat
  | 0, _, runs, c => (c, runs)
  | n + 1, from_, runs, c =>
    if c.fault.isSome || c.done || c.halted || (Nat.ble limit c.clocks && permitted c) then (c, runs)
    else
      let c1 := fetchRun s c
      if permitted c1 then
        runTask s limit most n c1.clocks (if most < c1.clocks - from_ then runs ++ [c1.clocks - from_] else runs) c1
      else runTask s limit most n from_ runs c1

/-- Fetches that a number of clocks can hold: a REP of 0 and the word that it skips are two fetches in one clock (R333, R343). -/
def fetches (clocks : Nat) : Nat := 2 * clocks + 8

/-- Clocks at the last permitted point at or before a number of clocks (R294). -/
def lastPoint (s : State) (limit : Nat) : Nat → ECore → Nat
  | 0, c => c.clocks
  | n + 1, c =>
    let c1 := (runTask s (c.clocks + 1) 0 (fetches limit) c.clocks [] c).1
    if c1.fault.isSome || c1.done || c1.halted || Nat.blt limit c1.clocks then c.clocks else lastPoint s limit n c1

/-- The active task of an engine, of a user law, run on so. -/
def runActive (s : State) (e : Nat) (t : PTask) (limit : Nat) : ECore × List Nat :=
  let c := (s.engine e).core
  runTask s limit t.nonpreempt (fetches limit) c.clocks [] c

/-- A program that has been run to its end or to the limit of its budget has exhausted the budget; a writeback that ends with it has not
(R54, R292, R309). -/
def overran (s : State) (t : PTask) (c : ECore) : Bool :=
  !c.done || Nat.blt (budgetClocks s t) (copyExcess t + c.clocks + writeback t)

/-- NONPREEMPT_OVER for each run that was too long (R293). -/
def noteRuns (s : State) (t : PTask) (runs : List Nat) : State :=
  runs.foldl (fun s r => raiseWarn s Ev.nonpreemptOver Kind.flow t.flow 0 (b16 t.index ++ zeros 2 ++ b32 r)) s

/-- Busy clocks of an engine (R305). -/
def busyMore (s : State) (e n : Nat) : State := s.onEngine e (fun g => { g with busyNow := g.busyNow + n })

/-- A task that an engine may take stands in its ready list. -/
def inList (s : State) (e i : Nat) : Bool := mayRun s e i && (s.level (prioOf s i)).contains i

/-- The active slot of an engine is empty from an instant on. A candidate whose copy was complete then and which a later one displaced had
been decided, and stands in the next slot again (R287, R308). -/
def slotEmpty (s : State) (e at_ : Nat) : State :=
  s.onEngine e (fun g =>
    match g.displaced.find? (fun d => Nat.blt (max at_ d.ready) d.at_ && inList s e d.task) with
    | some d => { g with freeAt := at_, next := some d.task, nextReady := d.ready, nextCore := d.core, nextLaw := d.law, displaced := [] }
    | none => { g with freeAt := at_ })

/-- Where the active task of an engine stands at its first permitted point from an instant on: its core, its long runs, its clocks. None
where it ends there or exhausts its budget before (R291, R310). -/
def preemptPoint (s : State) (e : Nat) (t : PTask) (from_ : Nat) : Option (ECore × List Nat × Nat) :=
  let r := clocksAt s t.index from_
  let (c, runs) := if userLaw t.lawId then runActive s e t r else ({ (s.engine e).core with clocks := r }, [])
  if c.done || c.fault.isSome || Nat.ble (clockLimit s t) (max r c.clocks) then none else some (c, runs, c.clocks)

/-- What the next slot of an engine waits for besides its active slot: its copy, and the end of a task of its flow that was stopped (R57,
R287). -/
def nextFrom (s : State) (e : Nat) (t : PTask) : Nat := max (s.engine e).nextReady (s.flow t.flow).freeAt

/-- The instant at which an engine decides for the task in its next slot: its active slot is empty, or the task there, of a numerically
higher level, stands at a permitted point; a chain has at most 7 links (R287 to R291, R308). -/
def decideAt (s : State) (e : Nat) (t : PTask) : Option Nat :=
  let g := s.engine e
  match g.active.bind (ptask s.image) with
  | none => some (max (nextFrom s e t) g.freeAt)
  | some u =>
    if Nat.blt t.prio u.prio && Nat.blt g.chain.length 7 then
      (preemptPoint s e u (nextFrom s e t)).map (fun r => max (nextFrom s e t) (instantAt s u.index r.2.2))
    else none

/-- The engine has decided for the task in its next slot before now: a task that became ready later is no part of it (R308). -/
def decided (s : State) (e : Nat) : Bool :=
  match (s.engine e).next.bind (ptask s.image) with
  | some u => inList s e u.index && (decideAt s e u).any (fun d => Nat.blt d s.time.now)
  | none => false

/-- The next slot of an engine is given up; a complete copy is remembered until the engine switches (R287, R308). -/
def displace (now : Nat) (g : Engine) : Engine :=
  match g.next with
  | some i =>
    { g with next := none, nextReady := 0,
             displaced := g.displaced ++ [{ task := i, ready := g.nextReady, at_ := now, core := g.nextCore, law := g.nextLaw }] }
  | none => g

/-- Every engine's next slot follows its candidate until the engine has decided; a displaced prefetch is abandoned (R287, R308). -/
def refill (s : State) : State :=
  stressSync <| (List.range (engineCount s.var)).foldl (fun s e =>
    let c := if serves s e then candidate s e else none
    if (s.engine e).next = c || (serves s e && decided s e) then s
    else
      let s1 := s.onEngine e (displace s.time.now)
      match c.bind (ptask s.image) with
      | some t => fillNext s1 e t
      | none => s1) s

/-- At DONE a saturation counts for the axis that the task serves (R181, R325). -/
def noteSat (s : State) (t : PTask) (es : BitVec 8) : State :=
  if t.axis ≠ 255 ∧ (es.getLsbD esSST || es.getLsbD esSAC) then s.onAxis t.axis (fun x => { x with saturations := inc32 x.saturations }) else s

/-- A saturation of a program that has reached DONE counts, whatever becomes of its results (R325). -/
def noteDone (s : State) (t : PTask) (c : ECore) : State := if c.done then noteSat s t c.regs.es else s

/-- A task in service is ended at its next permitted point after a number of clocks: its engine and its flow are free from then on (R54,
R57, R296). Clocks of a writeback that has begun are busy ones (R305). -/
def stopService (s : State) (t : PTask) (clocks : Nat) : State :=
  match s.disp.engines.find? (fun g => g.2.active == some t.index) with
  | none =>
    -- preempted: it stands at a permitted point
    let ran := (s.disp.engines.find? (fun g => g.2.chain.any (fun c => c.task == t.index))).map (·.1)
    leaveEngine (match ran with | some e => busyMore s e (s.task t.index).used | none => s) t.index
  | some (e, _) =>
    let (c, runs) := if userLaw t.lawId then runActive s e t clocks else ({ clocks := clocks }, [])
    let end_ := instantAt s t.index (max c.clocks clocks)
    let busy := if c.done then min (c.clocks + writeback t) (max c.clocks clocks) else c.clocks
    let s1 := slotEmpty (noteDone (noteRuns (busyMore s e busy) t runs) t c) e end_
    (leaveEngine s1 t.index).onFlow t.flow (fun f => { f with freeAt := end_ })

/-! ### Commit (R53, R290, R295, R342) -/

/-- Signed value of word `i`, and of words `i` and `i + 1`. -/
def wAt (l : List W24) (i : Nat) : Int := ((l[i]?).getD 0).toInt

/-- Words of the payload image (R342, R409). -/
def payloadWords (mode : Nat) (cur : Bool) : Nat :=
  if mode = 1 then 2 else if mode = 2 then 6 else if mode = 3 then (if cur then 7 else 1) else if mode = 4 then (if cur then 4 else 1)
  else if mode = 5 ∨ mode = 6 then 3 else 0

/-- The output block of a task becomes the committed output of its axis (R342, R409). -/
def takeOutput (mode : Nat) (cur : Bool) (w : List W24) (o : AxisOut) : AxisOut :=
  let ctl := fun (k : Nat) => ((w[k]?).getD 0).toNat % 65536
  if mode = 1 then { o with torque := wAt w 0, control := ctl 1 }
  else if mode = 2 then { o with posCmd := word48 w 0, velCmd := word48 w 2, torqueFf := wAt w 4, control := ctl 5 }
  else if mode = 3 then
    if cur then { o with duty := [wAt w 0, wAt w 1, wAt w 2], uAlpha := wAt w 3, uBeta := wAt w 4, dtheta := wAt w 5, control := ctl 6 }
    else { o with torque := wAt w 0 }
  else if mode = 4 then
    if cur then { o with duty := [wAt w 0, wAt w 1, wAt w 2], control := ctl 3 } else { o with torque := wAt w 0 }
  else if mode = 5 then { o with posCmd := word48 w 0, control := ctl 2 }
  else if mode = 6 then { o with duty := [wAt w 0, wAt w 1], control := ctl 2 }
  else o

/-- The diagnostics that an output block carries after its payload; one that out_len does not cover reads 0 (R187, R225, R342). -/
def takeDiag (mode : Nat) (cur main : Bool) (tau : Nat) (w : List W24) (x : Axis) : Axis :=
  let n := payloadWords mode cur
  let d := w.drop n
  let one := fun (k : Nat) => wAt d k
  let two := fun (k : Nat) => if k + 2 ≤ d.length then word48 d k else 0
  let uns := fun (k : Nat) => (((d[k]?).getD 0).toNat : Int)
  if cur then { x with diag54 := [(1, one 0), (2, one 1), (3, one 2), (4, one 3), (5, uns 4), (6, one 5)] }
  else if main ∧ 1 ≤ mode ∧ mode ≤ 4 then
    { x with diag40 := [(1, rdiv x.delayMeas 16), (2, rdiv tau 16), (5, two 0), (6, two 2), (7, two 4), (8, one 6), (9, uns 7)] }
  else x

/-- The outputs of a slot reach its timer (R342, R398, R407 to R409). -/
def timerCommit (s : State) (t : PTask) (mode slot : Nat) (o : AxisOut) : State :=
  if mode = 4 then pwmCommit s slot o.duty
  else if mode = 5 then
    { s with pwm := { s.pwm with timers := tmod s.pwm.timers {} slot (fun g => { g with target := some (o.posCmd, taskPeriod s t * nsU) }) } }
  else if mode = 6 then pwmCommit s slot (o.duty ++ [if bitOf o.control 0 then 8388607 else -8388608])
  else s

/-- The committed output of an axis: payload, diagnostics, counts, the end of a run of misses (R56, R187, R225, R230, R342). -/
def commitAxis (s : State) (t : PTask) (w : List W24) (k : TaskSt) : State :=
  let a := t.axis
  let mode := parN s Par.axisMode a
  let cur := isCurrent s t
  let s1 := s.onAxis a (fun x =>
    let x0 := takeDiag mode cur (isMain s t) (tauUsed s a) w { x with voltLimited := if k.volt then inc32 x.voltLimited else x.voltLimited }
    let x1 := if isMain s t ∧ !goesOut s t then { x0 with cascMisses := 0, cascRaised := false } else x0
    let o := takeOutput mode cur w x1.out
    if goesOut s t then
      { x1 with out := { o with commitAt := some s.time.now, failed := false, smpAt := if x.fbThisCycle && x.fbValid then x.fb.map (·.at_) else none },
                outMisses := if t.bundle = 255 then 0 else x1.outMisses,
                outRaised := if t.bundle = 255 then false else x1.outRaised }
    else { x1 with out := o })
  match slotOf s.image a with
  | some slot => if goesOut s t then timerCommit s1 t mode slot (s1.axis a).out else s1
  | none => s1

/-- A task commits: its state block and its output block reach the shared SRAM, and its axis takes the output (R53, R290). -/
def commitTask (s : State) (i : Nat) : State :=
  match ptask s.image i with
  | none => s
  | some t =>
    let k := s.task i
    let user := userLaw t.lawId
    let n := if user then t.stLen else stdLen t.lawId
    let outs := k.results.drop n
    -- the state block of a standard law is internal to the library (R181; log 22)
    let st := if user then k.results.take n else (List.range t.stLen).map (fun j => Config.freeWord s.free (t.inLen + j))
    let s1 := putWords s (t.base + 4 * t.inLen) (st ++ outs)
    let s2 := (s1.onTask i (fun k => { k with phase := .committed, commitAt := s.time.now })).onLong i (fun l =>
      { l with zeroed := false, capture := false, std := if user then [] else k.results.take n })
    let s3 := if t.axis = 255 ∨ t.lawId = lawMaster then s2 else commitAxis s2 t outs k
    { s3 with free := if user then s3.free else s3.free + 1 }

/-- Members of a bundle that run in this cycle. -/
def dueMembers (s : State) (b : Nat) : List PTask := (ptasks s.image).filter (fun t => t.bundle == b && dueIn t s.cyc.tick)

/-- D_l of the latest burst of a bundle (R51). -/
def bundleLimit (s : State) (b : PBundle) : Nat := s.cyc.t0 + launchMax s.image b.latest * nsU

/-- A bundle fails (R51, R53, R56, R296): members that have not started are cancelled, those in service end, states and outputs of
the cycle are discarded; the first failure of a run is a transient outcome. -/
def failBundle (s : State) (b : Nat) : State :=
  if (s.bundle b).failed || (s.bundle b).commitAt.isSome then s
  else
    let s1 := s.onBundle b (fun x => { x with failed := true, misses := x.misses + 1 })
    let s2 := (dueMembers s1 b).foldl (fun s t =>
      let k := s.task t.index
      let s' := if goesOut s t then s.onAxis t.axis (fun x => { x with out := { x.out with failed := true } }) else s
      match k.phase with
      | .waiting | .ready => (stopService (leaveLists s' t.index) t 0).onTask t.index (fun k => { k with phase := .cancelled })
      | .service => (stopService s' t (clocksAt s' t.index s'.time.now)).onTask t.index (fun k => { k with phase := .failed })
      | .complete => s'.onTask t.index (fun k => { k with phase := .failed })
      | _ => s') s1
    let s3 := if (s2.bundle b).misses = 1 then
        transient s2 11 { source := Ev.bundleFailed, cls := Cls.info, kind := Kind.bundle, inst := b }
      else s2
    refill s3

/-- A bundle commits all members when the last one completes (R51, R295). -/
def tryBundle (s : State) (b : PBundle) : State :=
  let ms := dueMembers s b.id
  if (s.bundle b.id).failed || (s.bundle b.id).commitAt.isSome then s
  else if bundleLimit s b < s.time.now then failBundle s b.id
  else if ms.all (fun t => (s.task t.index).phase == .complete) then
    ms.foldl (fun s t => commitTask s t.index)
      (s.onBundle b.id (fun x => { x with commitAt := some s.time.now, misses := 0, raised := false }))
  else s

/-- A drain ends with the commit of the task in service (R302). -/
def endDrain (s : State) (f : Nat) : State :=
  match (s.flow f).drainTo, (s.flow f).service with
  | some e, none => s.onFlow f (fun x => { x with engine := some e, epoch := (x.epoch + 1) % 256, drainTo := none })
  | _, _ => s

/-- The flow's tasks of this cycle that completed have committed or ended: no result waits in a commit buffer, and none of them is to be
re-run at the present placement (R299, R302). -/
def flowSettled (s : State) (f : Nat) : Bool :=
  (ptasks s.image).all (fun t => t.flow != f ||
    ((s.task t.index).phase != .complete && !((s.task t.index).phase == .ready && (s.task t.index).rerunOn.isSome)))

/-- Ends every drain whose flow has settled. -/
def endDrains (s : State) : State := s.disp.flows.foldl (fun s e => if flowSettled s e.1 then endDrain s e.1 else s) s

/-- What follows every change of the tasks in service: drains end, and the next slots follow their candidates (R287, R302). -/
def settle (s : State) : State := refill (endDrains s)

/-! ### Tasks that end abnormally (R54, R299) -/

/-- A failure of the self-check of a unit of a pair, in the present cycle (R577). -/
def noteCheck (s : State) : State :=
  if s.pair.id = 0 then s else { s with pair := { s.pair with checkFails := keepLast 64 (s.pair.checkFails ++ [s.cyc.tick]) } }

/-- Cause with which the fault of a task's re-run is lasting: the law fault's code, or an engine fault (R298, R299). -/
def rerunCause (k : TaskSt) : Nat := if k.faultKind = 1 then k.faultCode else 0x10

/-- A lasting task fault (R299, R577, R606): the axis fault, or the warning of a task without an axis, which is not dispatched again
until the next plan switch. -/
def lastingFault (s0 : State) (t : PTask) (code : Nat) : State :=
  let s := noteCheck s0
  if t.axis = 255 then
    raiseWarn (s.onLong t.index (fun l => { l with parked := true })) Ev.taskFault Kind.flow t.flow code [] 2
  else raiseAxis s Ev.taskFault t.axis code [] 2

/-- A task is marked overrun (R54): it ends at its next permitted point, its bundle fails; a re-run that overruns makes its fault lasting. -/
def overrunTask (s : State) (e : Nat) (t : PTask) : State :=
  let k := s.task t.index
  let s0 := stopService (leaveLists s t.index) t (min (clockLimit s t) (clocksAt s t.index s.time.now))
  let s1 := s0.onTask t.index (fun k => { k with phase := .overrun })
  let s2 := raiseWarn (s1.onEngine e (fun g => { g with overruns := inc32 g.overruns })) Ev.taskOverrun Kind.flow t.flow
  let s3 := if k.rerun then lastingFault s2 t (rerunCause k) else s2
  let s4 := if t.bundle = 255 then s3 else failBundle s3 t.bundle
  settle s4

/-- The engine of the re-run that follows a law fault (R299). -/
def rerunEngine (s : State) (e : Nat) (t : PTask) : Nat :=
  let fb := match pflow s.image t.flow with | some f => f.fallback | none => 255
  if fb ≠ e ∧ serves s fb then fb
  else ((List.range (engineCount s.var)).find? (fun g => g != e && bitOf t.affinity g && serves s g)).getD e

/-- A task that a fault abandoned (R299, R312, R313): `kind` 1 a law fault, 2 an engine fault. It is re-run once; a re-run that fails
makes the fault lasting, and its bundle fails. -/
def abandonTask (s : State) (e kind code : Nat) (t : PTask) : State :=
  let k := s.task t.index
  let s1 := leaveEngine (leaveLists s t.index) t.index
  if t.bundle ≠ 255 ∧ (s.bundle t.bundle).failed then s1.onTask t.index (fun k => { k with phase := .failed })
  else if k.rerun then
    let s2 := lastingFault (s1.onTask t.index (fun k => { k with phase := .failed })) t (rerunCause k)
    if t.bundle = 255 then s2 else failBundle s2 t.bundle
  else
    let s2 := s1.onTask t.index (fun k => { k with
      phase := .ready, rerun := true, preempted := false, readyAt := s.time.now, faultKind := kind, faultCode := code, used := 0,
      faultOn := e, rerunOn := if kind = 1 then some (rerunEngine s e t) else none })
    joinHead s2 t.index

/-! ### Placement (R286, R297, R300, R301) -/

/-- Affinity of a flow: that of its tasks. -/
def flowAffinity (m : Image) (f : Nat) : Nat := match (ptasks m).find? (fun t => t.flow == f) with | some t => t.affinity | none => 0

/-- Flows placed on an engine. -/
def flowsOn (s : State) (e : Nat) : Nat := (s.disp.flows.filter (fun x => x.2.engine == some e)).length

/-- The in-service engine of an affinity that carries the fewest flows, the lowest-numbered on a tie (R301). -/
def emptiest (s : State) (aff : Nat) : Option Nat :=
  ((List.range (engineCount s.var)).filter (fun e => bitOf aff e && serves s e)).foldl (fun o e => match o with
    | none => some e
    | some b => if flowsOn s e < flowsOn s b then some e else some b) none

/-- Axes that a flow serves. -/
def flowAxes (m : Image) (f : Nat) : List Nat :=
  (((ptasks m).filter (fun t => t.flow == f && t.axis != 255)).map (·.axis)).eraseDups

/-- Places a flow that its engine cannot run on an engine, or under R301 where that one is out of service. -/
def placeOr (s : State) (f : Nat) (want : Option Nat) (epoch : Nat) : State :=
  let put := fun (s : State) (e : Option Nat) => s.onFlow f (fun x => { x with engine := e, epoch := epoch, drainTo := none, placed := false })
  match want with
  | some e => if serves s e then put s (some e) else
      (match emptiest (put s none) (flowAffinity s.image f) with
       | some g => raiseWarn (put s (some g)) Ev.flowUnverified Kind.flow f
       | none => (flowAxes s.image f).foldl (fun s a => raiseAxis s Ev.flowUnplaced a) (put s none))
  | none =>
    match emptiest (put s none) (flowAffinity s.image f) with
    | some g => raiseWarn (put s (some g)) Ev.flowUnverified Kind.flow f
    | none => (flowAxes s.image f).foldl (fun s a => raiseAxis s Ev.flowUnplaced a) (put s none)

/-- The engine that a flow goes to when one is lost (R300 step 2). -/
def refuge (m : Image) (f e : Nat) : Option Nat :=
  match pflow m f with
  | some p => if p.fallback = e then (if p.home = e then none else some p.home) else if p.fallback = 255 then none else some p.fallback
  | none => none

/-- At a plan activation every flow is placed on its home engine at epoch 0 (R286, R314). The flows are placed in table order, so that where
R301 asks for the engine that carries the fewest flows those placed before count (DESIGN CHOICE, log 44). -/
def placeHome (s : State) : State :=
  let s0 := { s with disp := { s.disp with flows := tmap s.disp.flows (fun _ x => { x with engine := none, service := none, drainTo := none, placed := false }) } }
  (pflows s.image).foldl (fun s p =>
    if serves s p.home then s.onFlow p.id (fun x => { x with engine := some p.home, epoch := 0, drainTo := none })
    else placeOr s p.id (refuge s.image p.id p.home) 0) s0

/-- Every flow of a faulted engine moves, with a new epoch (R300 step 2, R311). -/
def flee (s : State) (e : Nat) : State :=
  (s.disp.flows.filter (fun x => x.2.engine == some e)).foldl (fun s x =>
    placeOr s x.1 (refuge s.image x.1 e) ((x.2.epoch + 1) % 256)) s

/-- Flows whose home is an engine that passed its test return to it at a tick; one that FLOW_PLACE holds elsewhere stays (R300, R303). -/
def returnFlows (s : State) : State :=
  (s.disp.engines.filter (fun x => x.2.returning)).foldl (fun s x =>
    ((pflows s.image).filter (fun p => p.home == x.1)).foldl (fun s p =>
      s.onFlow p.id (fun f => if f.engine = some x.1 ∨ f.placed then f else { f with engine := some x.1, epoch := (f.epoch + 1) % 256, drainTo := none }))
      (s.onEngine x.1 (fun g => { g with returning := false }))) s

/-- Re-runs that wait for an engine that is gone go to another one (R299). -/
def moveReruns (s : State) (e : Nat) : State :=
  s.cyc.tasks.foldl (fun s k =>
    match ptask s.image k.1 with
    | some t => if k.2.rerunOn = some e ∧ k.2.phase = .ready then s.onTask k.1 (fun x => { x with rerunOn := some (rerunEngine s x.faultOn t) }) else s
    | none => s) s

/-- What the active task of an engine has done up to now counts, though a fault ends it: its long runs, and a saturation where it has
reached DONE (R293, R325). -/
def noteActive (s : State) (e : Nat) : State :=
  match (s.engine e).active.bind (ptask s.image) with
  | some t =>
    if userLaw t.lawId then
      let n := clocksAt s t.index s.time.now
      let (c, runs) := runActive s e t (lastPoint s n (n + 1) (s.engine e).core)
      noteDone (noteRuns s t runs) t (if n < c.clocks then { c with done := false } else c)
    else s
  | none => s

/-- An engine fault (R298, R300): the engine leaves service, its tasks in service are abandoned, its flows move, its test starts. -/
def faultEngine (s9 : State) (e : Nat) (flags : Nat := 0) : State :=
  let g := s9.engine e
  let s := if g.state = .inService then noteActive s9 e else s9
  let s0 := raiseWarn (s.onEngine e (fun g => { g with engFaults := inc32 g.engFaults })) Ev.engineFault Kind.engine e 0 [] flags
  match g.state with
  | .lost => s
  | .underTest => s0.onEngine e (fun g => { g with testBad := true })
  | .inService =>
    let tasks := (match g.active with | some i => [i] | none => []) ++ g.chain.map (·.task)
    let ran := (match g.active with | some i => clocksAt s i s.time.now | none => 0) + g.chain.foldl (fun n c => n + (s.task c.task).used) 0
    let s1 := (busyMore (leaveStress s0 e) e ran).onEngine e (fun g => { g with state := .underTest, testBad := false, returning := false, next := none, displaced := [], core := {}, freeAt := s.time.now })
    let s2 := flee s1 e
    let s3 := tasks.foldl (fun s i => match ptask s.image i with | some t => abandonTask s e 2 0x10 t | none => s) s2
    settle ((moveReruns s3 e).onEngine e (fun g => { g with active := none, chain := [] }))

/-- Bin of a dispatch wait in clocks (R307). -/
def waitBin (c : Nat) : Nat := if c < 8 then 0 else min 14 ((c / 8).log2 + 1)

/-- A dispatch wait enters the flow's histogram. -/
def noteWait (s : State) (f c : Nat) : State :=
  s.onFlow f (fun x => { x with bins := tmod x.bins 0 (waitBin c) inc32, waitMax := max x.waitMax (min c 4294967295) })

/-! ### Dispatch (R287 to R291, R297, R307, R310) -/

/-- A saved context is spilled into the preemption areas of the shared SRAM, whose layout is the dispatcher's own (R291, R358; log 41). -/
def spill (s : State) : State :=
  let a := (Config.spillAt s.free).val
  let b := (List.range (min (Config.spillLen s.free).val (294912 - a))).map (Config.spillByte s.free)
  { s with mem := { s.mem with sram := memWrite s.mem.sram (0x3A8000 + a) b }, free := s.free + 1 }

/-- Puts the active task back at the head of its list with its context saved; the spill of the bank begins (R291). -/
def preempt (s : State) (e : Nat) (t : PTask) (c : ECore) (runs : List Nat) (used : Nat) : State :=
  let end_ := instantAt s t.index used + Config.spillClocks s.free * clkU
  let s1 := (noteRuns (spill s) t runs).onEngine e (fun g => { g with
    active := none, chain := { task := t.index, epoch := g.epoch, core := c, law := g.law, spilt := end_ } :: g.chain,
    preemptions := inc32 g.preemptions })
  joinHead (s1.onTask t.index (fun k => { k with phase := .ready, preempted := true, used := used })) t.index

/-- The state in which the active slot of an engine is empty for its next one: as it is, or with the task there preempted (R287 to R291). -/
def freed (s : State) (e : Nat) (t : PTask) : State :=
  match (s.engine e).active.bind (ptask s.image) with
  | none => s
  | some u =>
    match preemptPoint s e u (nextFrom s e t) with
    | some r => preempt s e u r.1 r.2.1 r.2.2
    | none => s

/-- The next slot switches into the active one; the first instruction runs at an instant (R287, R288, R291, R297, R307). -/
def switchIn (s : State) (e : Nat) (t : PTask) (first : Nat) : State :=
  let i := t.index
  let k := s.task i
  let s1 := (leaveLists s i).onFlow t.flow (fun f => { f with service := some i })
  let lv : LevelStat := tget s.disp.levels {} t.prio
  let s2 := { s1 with disp := { s1.disp with levels := tput s1.disp.levels t.prio { lv with dispatched := inc32 lv.dispatched } } }
  let s3 := s2.onTask i (fun k => { k with phase := .service, preempted := false, resumeAt := first, startAt := if k.preempted then k.startAt else first })
  let epoch := match (s.engine e).chain.find? (fun c => c.task == i) with | some c => c.epoch | none => (s.flow t.flow).epoch
  let s4 := s3.onEngine e (fun g => { g with
    active := some i, epoch := epoch, core := g.nextCore, law := g.nextLaw, next := none, displaced := [], busyNow := g.busyNow + 32,
    chain := g.chain.filter (fun c => c.task != i) })
  if k.preempted || k.rerun then s4 else runFeedback (noteWait s4 t.flow ((first - k.readyAt) / clkU)) t

/-- A confirmed double-bit error in the inputs of a task (R23, R299, R606): the task fails, and its bundle; of a re-run the fault is lasting. -/
def failInputs (s : State) (t : PTask) : State :=
  let s1 := noteCheck (raiseWarn s Ev.eccDouble Kind.flow t.flow 0 [] 2)
  let s2 := (stopService (leaveLists s1 t.index) t 0).onTask t.index (fun k => { k with phase := .failed })
  let s3 := if (s.task t.index).rerun then lastingFault s2 t (rerunCause (s.task t.index)) else s2
  settle (if t.bundle = 255 then s3 else failBundle s3 t.bundle)

/-! ### Completion (R290 to R293) -/

/-- What the evaluation of a law leaves at its axis outside the committed state: the unwrapped command of R166, the following-error
timer of R175, which counts from the capture on as long as axis-enabled stands (log 40). -/
def afterLaw (s : State) (t : PTask) : State :=
  let a := t.axis
  let mode := parN s Par.axisMode a
  if !isMain s t then s
  else
    s.onAxis a (fun x =>
      let xa := if mode = 5 then recordPos s a else rdiv (setAhead s a) q96
      let x1 := if mode = 2 ∨ mode = 5 then { x with cmdUnwrapped := unwrapNext s a xa, cmdLastX := xa } else x
      let fe := followErr s a
      if (mode = 1 ∨ mode = 3 ∨ mode = 4) ∧ x.axisEnabled ∧ x.fbValid then
        if q48 (par s Par.feLimit a) < fe.natAbs then { x1 with feCycles := x1.feCycles + 1, feValue := fe } else { x1 with feCycles := 0, feValue := fe }
      else x1)

/-- The results of a task enter the commit buffer, and it commits alone or with its bundle, or is discarded (R53, R290, R293,
R295, R299). -/
def completeTask (s : State) (t : PTask) (results : List W24) (es : BitVec 8) (volt : Bool) : State :=
  let i := t.index
  let k := s.task i
  let s1 := (leaveEngine (noteSat s t es) i).onTask i (fun k => { k with
    phase := .complete, doneAt := s.time.now, results := results, es := es, volt := volt })
  let s2 := if s.cyc.t0 + t.deadline * nsU < s.time.now then raiseWarn s1 Ev.taskLate Kind.flow t.flow else s1
  let s3 := if k.rerun then
      transient s2 9 { source := Ev.taskFault, cls := Cls.info, kind := if t.axis = 255 then Kind.flow else Kind.axis,
                       inst := if t.axis = 255 then t.flow else t.axis, cause := rerunCause k }
    else s2
  let s4 := match bundleOf s.image t with
    | some b => if (s3.bundle b.id).failed then s3.onTask i (fun k => { k with phase := .failed }) else tryBundle s3 b
    | none =>
      let late : Bool := match sliceOf s.image t.axis with
        | some x => t.axis != 255 && x.ring != 255 && Nat.blt (s.cyc.t0 + launchMax s.image x.latest * nsU) s.time.now
        | none => false
      if late then s3.onTask i (fun k => { k with phase := .failed }) else commitTask s3 i
  settle s4

/-! ### The end of a cycle (R57) -/

/-- A task that has not started at the next tick is discarded and marked overrun. -/
def discardUnstarted (s : State) (t : PTask) : State :=
  let s1 := (leaveLists s t.index).onTask t.index (fun k => { k with phase := .overrun })
  let s2 := s1.onFlow t.flow (fun f => { f with bins := tmod f.bins 0 15 inc32 })
  match runsOn s t with
  | some e => s2.onEngine e (fun g => { g with overruns := inc32 g.overruns })
  | none => s2

/-- A missed output of an axis outside any bundle (R56): the first of a run is a transient outcome. -/
def missOutput (s : State) (a : Nat) : State :=
  let s1 := s.onAxis a (fun x => { x with outMisses := x.outMisses + 1 })
  if (s1.axis a).outMisses = 1 then transient s1 11 { source := Ev.outputMissed, cls := Cls.info, kind := Kind.axis, inst := a } else s1

/-- A cascade task that fails (R56, R230): the first failure of a run is a transient outcome. -/
def missCascade (s : State) (a : Nat) : State :=
  let s1 := s.onAxis a (fun x => { x with cascMisses := x.cascMisses + 1 })
  if (s1.axis a).cascMisses = 1 then transient s1 11 { source := Ev.outputMissed, cls := Cls.info, kind := Kind.axis, inst := a } else s1

/-- Discards what the previous cycle left, fails bundles that never committed, counts the missed outputs of local axes (R51, R56, R57). -/
def closeTasks (s : State) : State :=
  let due := (ptasks s.image).filter (fun t => dueNow s t)
  let s1 := (pbundles s.image).foldl (fun s b => if dueMembers s b.id = [] then s else failBundle s b.id) s
  let s2 := due.foldl (fun s t =>
    match (s.task t.index).phase with
    | .waiting => discardUnstarted s t
    | .ready =>
      if (s.task t.index).preempted then
        (match runsOn s t with | some e => overrunTask s e t | none => discardUnstarted s t)
      else discardUnstarted s t
    | .service =>
      (match (s.disp.engines.find? (fun g => g.2.active == some t.index)) with
       | some g => overrunTask s g.1 t
       | none => s.onTask t.index (fun k => { k with phase := .overrun }))
    | _ => s) s1
  due.foldl (fun s t =>
    if t.bundle != 255 || (s.task t.index).phase == .committed then s
    else if goesOut s t then (if isLocalAxis s.image t.axis then missOutput s t.axis else s)
    else if isMain s t then missCascade s t.axis else s) s2

/-- Busy clocks of the cycle that ends (R305). -/
def closeBusy (g : Engine) : Engine :=
  { g with busyLast := g.busyNow, busyMax := max g.busyMax g.busyNow, busyNow := 0, busyHist := keepLast 1024 (g.busyHist ++ [g.busyNow]),
           active := none, chain := [], next := none, displaced := [] }

/-- The dispatcher's part of a tick: the cycle that ends is closed under the plan that it ran (R57). -/
def closeCycle (s : State) : State :=
  let s1 := closeTasks s
  { s1 with
    disp := { s1.disp with
      engines := (List.range (engineCount s1.var)).foldl (fun t e => tmod t {} e closeBusy) s1.disp.engines,
      flows := tmap s1.disp.flows (fun _ f => { f with
        service := none,
        engine := (match f.drainTo with | some e => some e | none => f.engine),
        epoch := if f.drainTo.isSome then (f.epoch + 1) % 256 else f.epoch, drainTo := none }),
      ready := [] },
    cyc := { s1.cyc with tasks := [], bundles := tmap s1.cyc.bundles (fun _ b => { b with commitAt := none, failed := false }) } }

/-! ### Statistics (R304 to R307) -/

/-- Mean of the busy clocks in 1/256 clock. -/
def busyAvg (g : Engine) : Nat := if g.busyHist = [] then 0 else g.busyHist.foldl (· + ·) 0 * 256 / g.busyHist.length

/-- The response of DISPATCH_ENGINE_STATS (R305). -/
def engineStats (s : State) (e : Nat) : Bytes :=
  let g := s.engine e
  b8 e ++ b8 (match g.state with | .inService => 0 | .underTest => 1 | .lost => 2) ++ b8 (flowsOn s e) ++ b8 0 ++ b32 g.busyLast ++
    b32 g.busyMax ++ b32 (busyAvg g) ++ b32 g.overruns ++ b32 g.lawFaults ++ b32 g.engFaults ++ b32 g.preemptions

/-- The response of DISPATCH_LEVEL_STATS (R306); `depth` gives the lists at the snapshot. -/
def levelStats (s : State) : Bytes :=
  (List.range 8).flatMap (fun l =>
    let v : LevelStat := tget s.disp.levels {} l
    b16 (s.level l).length ++ b16 v.depthMax ++ b32 v.dispatched)

/-- The response of DISPATCH_FLOW_STATS (R307). -/
def flowStats (s : State) (f : Nat) : Bytes :=
  let x := s.flow f
  let home := match pflow s.image f with | some p => p.home | none => 255
  let st := if x.drainTo.isSome then 2 else match x.engine with | none => 3 | some e => if e = home then 0 else 1
  b16 f ++ b8 (x.engine.getD 255) ++ b8 x.epoch ++ b8 st ++ zeros 3 ++ (List.range 16).flatMap (fun k => b32 (tget x.bins 0 k)) ++ b32 x.waitMax

/-- The snapshot taken at a tick (R304). -/
def takeDispSnap (s : State) : State :=
  { s with disp := { s.disp with snap := {
      engines := (List.range (engineCount s.var)).map (fun e => (e, engineStats s e)),
      levels := levelStats s,
      flows := (pflows s.image).map (fun p => (p.id, flowStats s p.id)) } } }

end Sys2Proof.Machine
end

