-- ==== Sys2Proof/Machine/Crypto.lean ====
section
/-! DEFINITION. The two algorithms that secure boot names (R656, R657): SHA-256 and the verification of an ECDSA P-256 signature. The
spec gives neither; both follow their standards, FIPS 180-4 and FIPS 186-4 (PRESUMED, log 18). -/

namespace Sys2Proof.Machine

/-- Big-endian number of a byte string. -/
def beNat (b : Bytes) : Nat := leNat b.reverse

/-- The continuation at a number that is computed first. -/
def forced {α : Type} (v : Nat) (k : Nat → α) : α :=
  match v with
  | 0 => k 0
  | n + 1 => k (n + 1)

/-! ### SHA-256 -/

/-- Words of 32 bits. -/
abbrev w32 : Nat := 4294967296

/-- The cube root of a number, rounded down, bit by bit from bit `k - 1`; `r` holds the bits found. -/
def cubeRoot (n : Nat) : Nat → Nat → Nat
  | 0, r => r
  | k + 1, r => forced (r + 2 ^ k) fun t => cubeRoot n k (if Nat.ble (t * t * t) n then t else r)

/-- The first 64 primes: a number below 312 that no other number below 18 divides. -/
def shaPrimes : List Nat :=
  (List.range 312).filter (fun n => Nat.ble 2 n && (List.range 18).all (fun d => Nat.ble d 1 || Nat.ble n d || n % d != 0))

/-- Round constants: the first 32 bits of the fraction of the cube root of each prime. -/
def shaK : List Nat := shaPrimes.map (fun n => cubeRoot (n * 2 ^ 96) 35 0 % w32)

/-- The eight working words. -/
structure ShaSt where
  a : Nat := 0x6a09e667
  b : Nat := 0xbb67ae85
  c : Nat := 0x3c6ef372
  d : Nat := 0xa54ff53a
  e : Nat := 0x510e527f
  f : Nat := 0x9b05688c
  g : Nat := 0x1f83d9ab
  h : Nat := 0x5be0cd19
  deriving DecidableEq, Repr

/-- Rotation to the right. -/
def rotr (x n : Nat) : Nat := (x >>> n) ||| (x <<< (32 - n) % w32)

/-- One round with a round constant and a word of the schedule. -/
def shaRound (s : ShaSt) (k w : Nat) : ShaSt :=
  forced ((s.h + (rotr s.e 6 ^^^ rotr s.e 11 ^^^ rotr s.e 25) + ((s.e &&& s.f) ^^^ ((w32 - 1 - s.e) &&& s.g)) + k + w) % w32) fun t1 =>
  forced ((t1 + (rotr s.a 2 ^^^ rotr s.a 13 ^^^ rotr s.a 22) + ((s.a &&& s.b) ^^^ (s.a &&& s.c) ^^^ (s.b &&& s.c))) % w32) fun a =>
  forced ((s.d + t1) % w32) fun e =>
  { a := a, b := s.a, c := s.b, d := s.c, e := e, f := s.e, g := s.f, h := s.g }

/-- The word of the schedule that follows a window of sixteen. -/
def shaNext (w : List Nat) : Nat :=
  let x := fun (i : Nat) => (w[i]?).getD 0
  ((rotr (x 14) 17 ^^^ rotr (x 14) 19 ^^^ (x 14 >>> 10)) + x 9 + (rotr (x 1) 7 ^^^ rotr (x 1) 18 ^^^ (x 1 >>> 3)) + x 0) % w32

/-- The rounds of a block: each takes the head of the window, to which the next word joins. -/
def shaRounds : List Nat → List Nat → ShaSt → ShaSt
  | [], _, s => s
  | k :: ks, w, s => forced (shaNext w) fun n => shaRounds ks (w.drop 1 ++ [n]) (shaRound s k ((w[0]?).getD 0))

/-- A block of 64 bytes. -/
def shaBlock (s : ShaSt) (b : Bytes) : ShaSt :=
  let w := (List.range 16).map (fun i => beNat ((b.drop (4 * i)).take 4))
  let t := shaRounds shaK w s
  forced ((s.a + t.a) % w32) fun a => forced ((s.b + t.b) % w32) fun b => forced ((s.c + t.c) % w32) fun c =>
  forced ((s.d + t.d) % w32) fun d => forced ((s.e + t.e) % w32) fun e => forced ((s.f + t.f) % w32) fun f =>
  forced ((s.g + t.g) % w32) fun g => forced ((s.h + t.h) % w32) fun h =>
  { a := a, b := b, c := c, d := d, e := e, f := f, g := g, h := h }

/-- The blocks of a padded message. -/
def shaBlocks : Nat → Bytes → ShaSt → ShaSt
  | 0, _, s => s
  | n + 1, b, s => shaBlocks n (b.drop 64) (shaBlock s (b.take 64))

/-- SHA-256 of a byte string. -/
def sha256 (b : Bytes) : Bytes :=
  let n := (b.length + 72) / 64
  let s := shaBlocks n (b ++ [0x80] ++ zeros (64 * n - b.length - 9) ++ beBytes 8 (8 * b.length)) {}
  [s.a, s.b, s.c, s.d, s.e, s.f, s.g, s.h].flatMap (beBytes 4)

/-! ### ECDSA P-256 -/

/-- The prime, the order and the constant of the curve y² = x³ - 3x + b. -/
abbrev p256 : Nat := 0xffffffff00000001000000000000000000000000ffffffffffffffffffffffff
abbrev n256 : Nat := 0xffffffff00000000ffffffffffffffffbce6faada7179e84f3b9cac2fc632551
abbrev b256 : Nat := 0x5ac635d8aa3a93e7b3ebbd55769886bc651d06b0cc53b0f63bce3c3e27d2604b

/-- A point in Jacobian coordinates; Z = 0 is the point at infinity. -/
structure EcPoint where
  x : Nat := 1
  y : Nat := 1
  z : Nat := 0
  deriving DecidableEq, Repr

/-- The base point. -/
def ecBase : EcPoint :=
  { x := 0x6b17d1f2e12c4247f8bce6e563a440f277037d812deb33a0f4a13945d898c296,
    y := 0x4fe342e2fe1a7f9b8ee7eb4a7c0f9e162bce33576b315ececbb6406837bf51f5, z := 1 }

/-- Difference modulo the prime of a number and one below 2^258. -/
def subP (a b : Nat) : Nat := (a + 4 * p256 - b) % p256

/-- Twice a point. -/
def ecDouble (q : EcPoint) : EcPoint :=
  forced (q.z * q.z % p256) fun d => forced (q.y * q.y % p256) fun g => forced (q.x * g % p256) fun be =>
  forced (3 * (subP q.x d * (q.x + d)) % p256) fun al =>
  forced (subP (al * al % p256) (8 * be % p256)) fun x =>
  forced (subP (al * subP (4 * be % p256) x % p256) (8 * (g * g) % p256)) fun y =>
  forced (2 * (q.y * q.z) % p256) fun z => { x := x, y := y, z := z }

/-- The sum of two points. -/
def ecAdd (q r : EcPoint) : EcPoint :=
  if q.z = 0 then r
  else if r.z = 0 then q
  else
    forced (q.z * q.z % p256) fun qq => forced (r.z * r.z % p256) fun rr =>
    forced (q.x * rr % p256) fun u => forced (r.x * qq % p256) fun v =>
    forced (q.y * (rr * r.z) % p256) fun s => forced (r.y * (qq * q.z) % p256) fun t =>
    if u = v then (if s = t then ecDouble q else {})
    else
      forced (subP v u) fun h => forced (subP t s) fun d =>
      forced (h * h % p256) fun hh => forced (h * hh % p256) fun hhh => forced (u * hh % p256) fun w =>
      forced (subP (subP (d * d % p256) hhh) (2 * w % p256)) fun x =>
      forced (subP (d * subP w x % p256) (s * hhh % p256)) fun y =>
      forced (h * (q.z * r.z) % p256) fun z => { x := x, y := y, z := z }

/-- u·G + v·Q over the bits of the two numbers below `n`, most significant first. -/
def ecSum (u v : Nat) (q g : EcPoint) : Nat → EcPoint → EcPoint
  | 0, t => t
  | n + 1, t =>
    let d := ecDouble t
    let e := if u.testBit n then ecAdd d g else d
    ecSum u v q g n (if v.testBit n then ecAdd e q else e)

/-- A power modulo a number over the bits of the exponent below `n`, most significant first. -/
def powMod (m b e : Nat) : Nat → Nat → Nat
  | 0, t => t
  | n + 1, t => forced (t * t % m) fun d => if e.testBit n then forced (d * b % m) fun f => powMod m b e n f else powMod m b e n d

/-- A point of the curve by its coordinates. -/
def onCurve (x y : Nat) : Bool :=
  Nat.blt x p256 && Nat.blt y p256 && y * y % p256 == subP ((x * x % p256 * x + b256) % p256) (3 * x % p256)

/-- The signature (r, s) of a hash verifies under the public key (x, y), each number 32 bytes, most significant first. -/
def ecdsaOk (key hash sig : Bytes) : Bool :=
  forced (beNat (key.take 32)) fun x => forced (beNat (key.drop 32)) fun y =>
  forced (beNat (sig.take 32)) fun r => forced (beNat (sig.drop 32)) fun s =>
  if onCurve x y && Nat.blt 0 r && Nat.blt r n256 && Nat.blt 0 s && Nat.blt s n256 then
    forced (powMod n256 s (n256 - 2) 256 1) fun w =>
    forced (beNat hash * w % n256) fun u => forced (r * w % n256) fun v =>
    let t := ecSum u v { x := x, y := y, z := 1 } ecBase 256 {}
    forced t.z fun z =>
      z != 0 && (t.x == r * (z * z) % p256 || (Nat.blt (r + n256) p256 && t.x == (r + n256) * (z * z) % p256))
  else false

end Sys2Proof.Machine
end

