-- ==== Sys2Proof/Machine/Image.lean ====
section
/-! DEFINITION. The images of the boot flash and the patch (R655 to R659): the header, the checks of an image, the records of a patch.
Bytes are read through a function of address and length, so that a slot and the patch area are read alike. -/

namespace Sys2Proof.Machine

/-- The patch area in MRAM (R22). -/
abbrev patchBase : Nat := 1703936
abbrev patchSize : Nat := 262144
/-- Bytes of a flash slot (R655). -/
abbrev slotSize : Nat := 8388608
/-- Bytes of a header (R655), and of the four components at most. -/
abbrev headSize : Nat := 192
abbrev compsMax : Nat := 4194304

/-- The fields of an image header, and the bytes that its signature covers (R656). -/
structure ImageHead where
  magic : Nat
  format : Nat
  keyIndex : Nat
  version : Nat
  rollback : Nat
  len : List Nat
  digest : Bytes
  pubkey : Bytes
  signature : Bytes
  signed : Bytes
  deriving DecidableEq, Repr

/-- The header at the start of an image (R656). -/
def readHead (rd : Nat → Nat → Bytes) : ImageHead :=
  let b := rd 0 headSize
  { magic := uAt b 0 4, format := uAt b 4 2, keyIndex := uAt b 6 1, version := uAt b 8 4, rollback := uAt b 12 4,
    len := (List.range 4).map (fun i => uAt b (16 + 4 * i) 4), digest := slice b 32 32, pubkey := slice b 64 64,
    signature := slice b 128 64, signed := slice b 0 128 }

/-- Length and offset of a component (R655). -/
def ImageHead.compLen (h : ImageHead) (i : Nat) : Nat := (h.len[i]?).getD 0
def ImageHead.compAt (h : ImageHead) (i : Nat) : Nat := headSize + (h.len.take i).foldl (· + ·) 0

/-- Bytes of all components, or of the body of a patch. -/
def ImageHead.total (h : ImageHead) : Nat := h.len.foldl (· + ·) 0

/-- Check 1 of R657: magic, format and lengths. -/
def imageHeadOk (patch : Bool) (h : ImageHead) : Bool :=
  h.format == 1 &&
    (if patch then h.magic == 0x54504B43 && (h.len.drop 1).all (· == 0) && Nat.ble (headSize + h.total) patchSize
     else h.magic == 0x50514B43 && h.len.all (· % 4 == 0) && Nat.ble h.total compsMax)

/-- The first check of R657 that an image fails, 0 where it passes all. -/
def imageFails (b : Board) (fuses : Nat) (patch : Bool) (rd : Nat → Nat → Bytes) : Nat :=
  let h := readHead rd
  if !imageHeadOk patch h then 1
  else if !Nat.blt h.keyIndex 4 || bitOf b.revoked h.keyIndex || sha256 h.pubkey != tget b.keyHashes [] h.keyIndex then 2
  else if Nat.blt h.rollback fuses then 3
  else if !ecdsaOk h.pubkey (sha256 h.signed) h.signature then 4
  else if sha256 (rd headSize h.total) != h.digest then 5
  else 0

/-- A record of a patch: component, offset, data (R659). -/
structure PatchRec where
  comp : Nat
  offset : Nat
  data : Bytes
  deriving DecidableEq, Repr

/-- The records of a patch body; none where the body is no sequence of records (R659; log 18). -/
def patchRecs : Nat → Bytes → Option (List PatchRec)
  | _, [] => some []
  | 0, _ => none
  | n + 1, b =>
    let len := uAt b 8 4
    if b.length < 12 + len ∨ len % 4 ≠ 0 ∨ 2 < uAt b 0 1 then none
    else (patchRecs n (b.drop (12 + len))).map (fun l => { comp := uAt b 0 1, offset := uAt b 4 4, data := slice b 12 len } :: l)

/-- The records of the patch that the area holds. -/
def recsOf (rd : Nat → Nat → Bytes) : Option (List PatchRec) :=
  let n := (readHead rd).total
  patchRecs (n / 12 + 1) (rd headSize n)

/-- The number of the first check that a patch fails against an image of a version and component lengths (R659, R672): 1 to 5 those of
R657, 6 the version, 7 a record outside its component. -/
def patchFails (b : Board) (fuses version : Nat) (lens : List Nat) (rd : Nat → Nat → Bytes) : Nat :=
  let v := (readHead rd).version
  let k := imageFails b fuses true rd
  if k ≠ 0 then k
  else if v / 256 ≠ version / 256 ∨ v % 256 ≤ version % 256 then 6
  else match recsOf rd with
    | none => 7
    | some l => if l.all (fun r => Nat.ble (r.offset + r.data.length) ((lens[r.comp]?).getD 0)) then 0 else 7

/-- A component with the records of a patch written into it (R659). -/
def patched (recs : List PatchRec) (i : Nat) (c : Bytes) : Bytes :=
  recs.foldl (fun c r => if r.comp = i then c.take r.offset ++ r.data ++ c.drop (r.offset + r.data.length) else c) c

end Sys2Proof.Machine
end

