-- ==== Sys2Proof/Machine/Power.lean ====
section
/-! DEFINITION. Supplies, standby, reset and boot (R29, R350, R385, R468, R643 to R667), the supervisor and host watchdogs
(R20, R385), and the clock monitor (R25). -/

namespace Sys2Proof.Machine

/-- The strap levels name a pair that the part cannot form (R653). -/
def strapConflict (b : Board) : Bool := b.pairSel == 3 || Nat.blt 3 b.pairSel || (b.pairSel != 0 && !isFull b.variant)

/-- pair_id as read from the straps (R568, R653). -/
def strapPair (b : Board) : Nat := if strapConflict b then 0 else b.pairSel

/-! ### What a reset leaves (R389, R468, R650 to R654) -/

/-- The local inputs after a reset: pin levels stay what they are, factors stored in MRAM stay (R453). -/
def resetLocal (l : LocalIn) : LocalIn :=
  { encs := tmap l.encs (fun _ e => { a := e.a, b := e.b, z := e.z, stuckPairs := e.stuckPairs }),
    dins := tmap l.dins (fun _ d => { level := d.level }),
    adc := { stored := l.adc.stored } }

/-- The trip inputs after a reset: the levels at the balls stay what they are (R402). -/
def resetTrips (p : PwmUnit) : PwmUnit := { trips := tmap p.trips (fun _ t => { low := t.low }) }

/-- The safety unit after a reset: the levels at its inputs stay what they are; everything demands (R38, R541). -/
def resetSafety (x : Safety) : Safety :=
  { pairs := tmap x.pairs (fun _ p => { on1a := p.on1a, on2a := p.on2a, on1b := p.on1b, on2b := p.on2b }),
    resetOn1 := x.resetOn1, resetOn2 := x.resetOn2, resetAt := x.resetAt }

/-- Truing after a reset: what MRAM holds stays; the first AVS request is the stored voltage, or 750 mV (R631). -/
def resetTruing (now : Nat) (t : Truing) : Truing :=
  { storedMv := t.storedMv, history := t.history, lanes := t.lanes,
    mvReq := t.storedMv.getD 750, step := some (t.storedMv.getD 750, now, false) }

/-- Supplies, staging and the boot record stay through a reset (R655 to R660). A commit that it cuts short leaves its target invalid: the
staged slot holds no image, and a patch does not run (R665). -/
def resetPower (source : Nat) (cutSlot cutPatch : Bool) (p : Power) : Power :=
  { p with staging := if cutSlot then tput p.staging (1 - p.slot) [] else p.staging, standbyAsked := false, resetSource := source, portsIdle := false, version := 0, slot := 0, lens := [], preferredFailed := false,
           patch := 0, rejectCause := 0, rollback := 0, patchArmed := p.patchArmed && !cutPatch }

/-- Base of the process-image header (R374). -/
abbrev piHead : Nat := 0x340000

/-- The process-image header of a device that has no cycle and no complete input buffer (R374). -/
def resetHead (m : List Host.Cell) : List Host.Cell := memWrite m piHead (b32 0xFFFFFFFF ++ zeros 8)

/-- The state after a reset: every unit at its reset value but what MRAM, the always-on domain and the pins hold. Memories
keep their bytes while they are supplied (log 28). -/
def afterReset (mode : DevMode) (source : Nat) (s : State) : State :=
  { board := s.board,
    dev := { mode := mode, bootCause := if strapConflict s.board then 6 else 0 },
    cal := { skewStored := s.cal.skewStored },
    loc := resetLocal s.loc, pwm := resetTrips s.pwm, safe := resetSafety s.safe, tru := resetTruing s.time.now s.tru,
    time := { now := s.time.now, keeper := s.time.keeper, stoppedFor := s.time.stoppedFor, poweredFor := s.time.poweredFor },
    pair := { id := strapPair s.board },
    power := resetPower source (isPending s Cmd.fwStageCommit 0) (isPending s Cmd.fwStageCommit 1 || isPending s Cmd.fwStageCommit 2) s.power,
    jtag := s.jtag,
    mem := { s.mem with sram := resetHead s.mem.sram }, free := s.free, pending := s.pending }

/-- A commit in progress completes (R20, R662). -/
def finishCommit (s : State) : State :=
  match s.ev.freeze with
  | some f => commitFrozen s f
  | none => s

/-- Entry into BOOT (R29, R402, R468, R651): device time starts from the keeper's seconds, and a trip input that is low sets its latch. -/
def enterBoot (source : Nat) (s0 : State) : State :=
  let s := finishCommit s0
  let now := s.time.keeper * secU
  lowTrips (afterReset .boot source { s with time := { s.time with now := now } })

/-- Volatile memories lose their contents with the main rails (R21). -/
def loseMemories (s : State) : State := { s with mem := { s.mem with sram := [], capture := [], ddr := [], supervisor := [], s1 := [] } }

/-- Entry into STANDBY (R29, R468). -/
def enterStandby (s : State) : State :=
  loseMemories (afterReset .standby s.power.resetSource { s with time := { s.time with now := max s.time.now (s.time.keeper * secU) } })

/-- The main domain runs. -/
def powered (s : State) : Bool :=
  match s.dev.mode with
  | .off | .standby => false
  | _ => true

/-- With rails valid, RESET_N released and PWR_EN asserted the device leaves STANDBY (R29, R644, R645, R667). -/
def tryBoot (s : State) : State :=
  if s.dev.mode = .standby ∧ s.power.railsValid ∧ !s.power.resetLow ∧ s.power.pwrEn then enterBoot 1 s else s

/-- OFF: the always-on domain is off; its keeper restarts at 0 (R646). -/
def enterOff (s : State) : State :=
  let s1 := afterReset .off s.power.resetSource (loseMemories s)
  { s1 with time := { s1.time with now := 0, keeper := 0 }, power := { s1.power with pwrEn := false, wakeSec := 0 } }

/-! ### Rails and supplies -/

/-- MAIN_RAILS_VALID (R29, R644, R667). Rails that a power fail did not bring down are valid again: its cause is over (R30; log 28). -/
def execMainRailsValid (dt : Nat) (s0 : State) : Out :=
  let s := advance dt s0
  .next (if powered s ∧ s.power.railsValid then { s with dev := { s.dev with powerFailing := false } } else tryBoot { s with power := { s.power with railsValid := true } })

/-- A commit that the loss of the rails cuts short leaves its slot damaged; one of 300 µs or more has ended, and one that still waited
for a test write has not touched its slot (R612 to R614, R641, R649). -/
def cutCommit (s : State) : State :=
  match s.ev.freeze with
  | none => s
  | some f =>
    if f.stamp + 300000 ≤ nowNs s then commitFrozen s f
    else if nowNs s < f.begins then s
    else { s with mem := { s.mem with mram := memZero s.mem.mram (slotBase f.slot) 8 } }

/-- MAIN_RAILS_LOST (R29, R644, R649, R697: VDDIO_33 alone counts): the device enters STANDBY; OFF where no always-on supply is left. -/
def execMainRailsLost (dt : Nat) (s0 : State) : Out :=
  let s := advance dt s0
  let s1 := { s with power := { s.power with railsValid := false } }
  .next (if powered s then
      let s2 := enterStandby (cutCommit s1)
      if s2.power.vaonMain || s2.power.vbat then s2 else enterOff s2
    else s1)

/-- A power fail (R611, R612, R640, R649): by the pin or by the detector, as pfail_source selects; the record freezes. -/
def failPower (byPin : Bool) (s : State) : State :=
  let sel := parN s Par.pfailSource 0
  if powered s ∧ (sel = 0 ∨ (sel = 1 ∧ byPin) ∨ (sel = 2 ∧ !byPin)) then
      let s1 := { s with dev := { s.dev with powerFailing := true } }
      abandonPass (enterFault (freezeRecord (raiseOnly s1 { source := Ev.powerFail, cls := Cls.device }) 3 0xFF (nowNs s)))
    else s

/-- AON_SUPPLY_APPLIED (R29, R646, R648): from OFF the device enters STANDBY with the keeper at 0 and PWR_EN asserted. -/
def execAonSupplyApplied (dt : Nat) (main : Bool) (s0 : State) : Out :=
  let s := advance dt s0
  let p := if main then { s.power with vaonMain := true } else { s.power with vbat := true }
  .next (if s.dev.mode = .off then
      let s1 : State := { s with power := { p with aonFromMain := main, pwrEn := true }, dev := { s.dev with mode := .standby },
                                 time := { s.time with now := 0, keeper := 0 } }
      tryBoot s1
    else { s with power := p })

/-- AON_SUPPLY_LOST (R29, R646): from STANDBY the device is OFF; a device whose rails stand becomes OFF when they go. -/
def execAonSupplyLost (dt : Nat) (s0 : State) : Out :=
  let s := advance dt s0
  let s1 := { s with power := { s.power with vaonMain := false, vbat := false } }
  .next (if s.dev.mode = .standby then enterOff s1 else s1)

/-- AON_SUPPLY_SWITCH (R646): no count is lost. -/
def execAonSupplySwitch (dt : Nat) (toMain : Bool) (s0 : State) : Out :=
  let s := advance dt s0
  .next (if s.dev.mode = .off ∨ (!toMain ∧ !s.power.vbat) then s
    else { s with power := { s.power with aonFromMain := toMain, vaonMain := toMain } })

/-- WAKE (R648, R664, R667): by WAKE_N or by the wake second, no sooner than 100 ms after the deassertion of PWR_EN. -/
def execWake (dt : Nat) (byPin : Bool) (s0 : State) : Out :=
  let s := advance dt s0
  let due := byPin || (s.power.wakeSec != 0 && Nat.ble s.power.wakeSec s.time.keeper)
  .next (if s.dev.mode = .standby ∧ !s.power.pwrEn ∧ due ∧ s.power.pwrOffAt + 100000000 * nsU ≤ s.time.now then
      tryBoot { s with power := { s.power with pwrEn := true, wakeSec := 0 } }
    else s)

/-! ### Resets -/

/-- RESET_N_ASSERT (R29, R651, R652, R662): below 100 ns ignored; from 1 µs a reset; in between as the part takes it (log
20). A device without main power only holds its reset. -/
def execResetNAssert (dt : Nat) (lowNs : Nat) (taken : Bool) (s0 : State) : Out :=
  let s := advance dt s0
  .next (if lowNs < 100 ∨ (lowNs < 1000 ∧ !taken) then s
    else
      let s1 := if powered s then enterBoot 2 s else s
      { s1 with power := { s1.power with resetLow := true } })

/-- RESET_RELEASE (R29, R653, R698): the straps are sampled here and nowhere else; a strap conflict keeps the device in BOOT with boot_cause 6. -/
def execResetRelease (dt : Nat) (hostSel : Bool) (pairSel : Nat) (s0 : State) : Out :=
  let s := advance dt s0
  .next (if !s.power.resetLow then s
    else
      let b := { s.board with qspi := hostSel, pairSel := pairSel }
      let s1 : State := { s with board := b, power := { s.power with resetLow := false } }
      if powered s then
        { s1 with dev := { s1.dev with bootCause := if strapConflict b then 6 else 0 }, pair := { id := strapPair b } }
      else tryBoot s1)

/-- The outcomes of a task, an axis and a bundle that a watchdog reset makes lasting: a re-run, a first missed output, a first failed
bundle (R56, R299, R606, R622). -/
def endTaskRetries (s : State) : State :=
  let s1 := (ptasks s.image).foldl (fun s t =>
    let k := s.task t.index
    if k.rerun && (k.phase == .ready || k.phase == .service) then lastingFault s t (rerunCause k) else s) s
  let s2 := s1.axes.foldl (fun s e =>
    if e.2.outMisses == 1 || e.2.cascMisses == 1 then noteAxisFault s Ev.outputMissed e.1 0 [] 2 else s) s1
  s2.cyc.bundles.foldl (fun s e =>
    if e.2.misses == 1 then raiseOnly s { source := Ev.bundleFailed, cls := Cls.group, kind := Kind.bundle, inst := e.1, flags := 2 } else s) s2

/-- A watchdog reset during a retry makes its outcome lasting (R606, R622): DMA reads, acyclic requests, SSI exchanges, engines under test,
and those of the tasks. -/
def endRetries (s : State) : State :=
  let s1 := s.dma.chans.foldl (fun s e =>
    if e.2.retried then dmaReadFails s e.1 (if e.2.run.inSeg then e.2.run.src else e.2.run.entryAddr) else s) s
  let s2 := s1.rings.foldl (fun s g => g.2.nodes.foldl (fun s e =>
    if (e.2.services.take 1).any (fun v => v.resent) then raiseWarn s Ev.acyclicLost Kind.node (nodeInst g.1 e.2.address) 0 [] 2 else s) s) s1
  let s3 := s2.loc.ssis.foldl (fun s e =>
    if (e.2.request.map (·.2)) == some 2 then raiseWarn s Ev.ssiInvalid Kind.channel e.1 0 [] 2 else s) s2
  let s4 := s3.disp.engines.foldl (fun s e =>
    if e.2.state == .underTest then raiseWarn s Ev.engineLost Kind.engine e.1 0 [] 2 else s) s3
  endTaskRetries s4

/-- A watchdog reset (R20, R611, R622, R651): what was at its retry is recorded as lasting, the record is committed, then the device restarts
in BOOT. -/
def watchdogReset (s0 : State) : State :=
  let s := endRetries s0
  enterBoot 3 (freezeRecord (raiseOnly s { source := Ev.sysWatchdog, cls := Cls.device }) 2 0xFF (nowNs s))

/-- SYS_WATCHDOG_EXPIRY (R20, R611, R651). -/
def execSysWatchdogExpiry (dt : Nat) (s0 : State) : Out :=
  let s := advance dt s0
  .next (if powered s ∧ s.dev.fwRunning then watchdogReset s else s)

/-- HOST_WATCHDOG_EXPIRY (R385): past the deadline, since a write exactly at it counts as arrived. -/
def execHostWatchdogExpiry (dt : Nat) (s0 : State) : Out :=
  let s := advance dt s0
  .next (match s.dev.hostWd with
    | some at_ =>
      let limit := parN s Par.hostWdTime 0
      if limit ≠ 0 ∧ at_ + limit * 1000000 * nsU < s.time.now then
        let s1 := raiseWarn { s with dev := { s.dev with hostWd := none } } Ev.hostLost
        if par s Par.hostWdAction 0 = 1 then enterSafeHold s1 else s1
      else s
    | none => s)

/-- PCIE_LINK_RESET (R350, R524): the PCIe function alone returns to its reset values, Bus Master Enable among them. -/
def execPcieLinkReset (dt : Nat) (linkUp : Bool) (s0 : State) : Out :=
  let s := advance dt s0
  .next (if powered s ∧ !s.board.qspi then
      dropHostDma { s with host := { s.host with linkUp := linkUp, msixTable := [], msixPending := 0, pci := {} } }
    else s)

/-- CLOCK_MONITOR (R25, R30, R33, R535): a deviation is a device fault, and the safety unit takes its outputs off by itself; its end ends
the cause. On a CK-1232, whose safety unit is absent, the device fault comes all the same (DESIGN CHOICE, log 28: R3 takes the unit away,
R25 puts the monitor into it, and R599 keeps its event). -/
def execClockMonitor (reading : ClockReading) (s0 : State) : Out :=
  let s := advance reading.dt s0
  .next (if !powered s then s
    else if !reading.beyond then { s with dev := { s.dev with clockOff := false } }
    else clockTrips { s with dev := { s.dev with clockOff := true } })

/-! ### Boot (R657 to R661) -/

/-- BOOT_FAULT (R31, R658). -/
def execBootFault (dt : Nat) (cause : Nat) (s0 : State) : Out :=
  let s := advance dt s0
  .next (if s.dev.mode = .boot ∧ !s.dev.mbReady ∧ !s.power.resetLow ∧ 1 ≤ cause ∧ cause ≤ 6 then
      { s with dev := { s.dev with bootCause := cause } }
    else s)

/-- Each damaged slot is reported (R614). -/
def reportSlots (extra : List Nat) (s : State) : State :=
  (List.range 2).foldl (fun s k =>
    if slotDamaged s k || extra.contains k then raiseWarn s Ev.shavingsIncomplete Kind.channel k else s) s

/-- The firmware starts to serve: indices 0, then mb_ready (R363), then CONFIG, or FAULT where a device fault was raised
during BOOT (R29). -/
def serveMailboxes (s : State) : State :=
  let zero := fun (_ : Nat) (r : RingRegs) => { r with reqTail := 0, reqHead := 0, rspHead := 0, rspTail := 0 }
  let s1 := { s with host := { s.host with mbs := tmap s.host.mbs zero, tuns := tmap s.host.tuns zero, running := [] },
                     dev := { s.dev with mbReady := true } }
  if s.dev.faultNoCycle then changeState s1 .fault else changeState s1 .config

/-- What the ROM reads in a slot: the bytes staged there, else those of the flash as the row gives them (R655). -/
def flashSlot (s : State) (k : Nat) (image : Bytes) : Nat → Nat → Bytes :=
  match tfind s.power.staging k with
  | some m => memRead m
  | none => slice image

/-- What the patch area holds. -/
def patchBytes (s : State) (a n : Nat) : Bytes := memRead s.mem.mram (patchBase + a) n

/-- The slot that the boot record prefers (R657). -/
def preferredSlot (s : State) : Nat := s.power.preferred.getD 0

/-- The ROM may have accepted a slot (R657): a staged one passes its checks, and the preferred one, where staged, only stands back where it
fails. For bytes that the block does not hold, the row's word that an authenticated image runs stands (log 18). -/
def mayBoot (s : State) (k : Nat) : Bool :=
  let fails := fun (j : Nat) => (tfind s.power.staging j).map (fun m => imageFails s.board s.power.fuses false (memRead m))
  (fails k).getD 0 == 0 && (k == preferredSlot s || fails (preferredSlot s) != some 0)

/-- The components of the accepted slot, patched where the patch applies, are loaded (R655, R657, R659); BOOT_INFO tells the outcome
(R660, R672). -/
def loadImage (s : State) (k : Nat) (rd : Nat → Nat → Bytes) : State :=
  let h := readHead rd
  let fails := if s.power.patchArmed then patchFails s.board s.power.fuses h.version h.len (patchBytes s) else 0
  let applies := s.power.patchArmed && fails == 0
  let recs := if applies then (recsOf (patchBytes s)).getD [] else []
  let version := if applies then (readHead (patchBytes s)).version else h.version
  let comp := fun (i : Nat) => patched recs i (rd (h.compAt i) (h.compLen i))
  { s with
    dev := { s.dev with fwRunning := true, fwPatch := version % 256 },
    mem := { s.mem with supervisor := cellsFrom 0 (comp 0), s1 := cellsFrom 0 (comp 1) },
    power := { s.power with slot := k, preferredFailed := k != preferredSlot s, lens := h.len, version := version, rollback := h.rollback,
                            patch := if applies then 1 else if s.power.patchArmed then 2 else 0, rejectCause := fails } }

/-- The safety image of a slot (R536, R655). -/
def safetyPart (rd : Nat → Nat → Bytes) : Bytes := rd ((readHead rd).compAt 3) ((readHead rd).compLen 3)

/-- FIRMWARE_STARTED (R29, R363, R537, R614, R626, R655 to R661): the load of the image, the boot truing pass and the start of S1 lie
before it. -/
def execFirmwareStarted (dt : Nat) (b : BootResult) (s0 : State) : Out :=
  let s := advance dt s0
  .next (if s.dev.mode ≠ .boot ∨ s.dev.mbReady ∨ s.dev.bootCause ≠ 0 ∨ s.power.resetLow ∨ mayBoot s b.slot = false then s
    else
      let rd := flashSlot s b.slot b.image
      let s2 := endPass (startPass false 0 (loadImage s b.slot rd)) true b.truing
      let s3 := reportSlots b.damagedSlots (adoptSafety (safetyPart rd) b.s2Agrees s2)
      serveMailboxes s3)

end Sys2Proof.Machine
end

