-- ==== Sys2Proof/Machine/System.lean ====
section
/-! DEFINITION. The system and firmware commands (R29 to R36, R648, R650, R657 to R660, R672) and the ends of those that
complete pending. -/

namespace Sys2Proof.Machine

/-! ### Identity -/

/-- Free words of the user program area (R317, R672). -/
def lawWords (s : State) : Nat := 0x1FF0 - s.disp.blocks.foldl (fun n b => n + b.wordCount) 0

/-- SYS_CAPS (R672). -/
def sysCapsBody (s : State) (_ : Request) (_ : Nat) : Reply :=
  .ok s (b32 (identWord s) ++ b32 (fwWord s) ++ b32 (caps0 s.var) ++ b32 (caps1 s.var) ++ leBytes 8 s.board.serial ++
    b8 (if hasLocal s.var then 5 else 0) ++ b8 8 ++ b8 2 ++ b8 8 ++ b32 s.board.lpddrMb ++ b32 524288 ++ b16 (lawWords s) ++
    b8 s.pair.id ++ zeros 1)

/-- BOOT_INFO (R660, R672). -/
def bootInfoBody (s : State) (_ : Request) (_ : Nat) : Reply :=
  let p := s.power
  .ok s (b8 p.slot ++ b8 (bit p.preferredFailed) ++ b8 p.patch ++ b8 p.rejectCause ++ b8 p.resetSource ++ b8 p.fuses ++ zeros 2 ++
    b32 p.version)

/-! ### Transitions (R29) -/

/-- SYS_RESET (R29, R672): the key. -/
def sysResetBody (s : State) (q : Request) (_ : Nat) : Reply :=
  need (uAt q.payload 0 2 == 0xA5C3 && resv q.payload 2 2) (.ok { s with dev := { s.dev with resetAsked := true } } [])

/-- SYS_STANDBY (R29, R648): the wake second. -/
def sysStandbyBody (s : State) (q : Request) (_ : Nat) : Reply :=
  need (resv q.payload 6 2)
    (.ok { s with power := { s.power with standbyAsked := true, wakeSec := uAt q.payload 0 6 } } [])

/-- SYS_OPERATE (R29). -/
def sysOperateBody (s : State) (_ : Request) (_ : Nat) : Reply := .ok (changeState s .operational) []

/-- SYS_PREOP (R29): enabled axes stop, their remaining distance discarded, and are disabled. -/
def sysPreopBody (s : State) (q : Request) (_ : Nat) : Reply :=
  let s1 := addPend { s with dev := { s.dev with preopPending := true } } Cmd.sysPreop q
  .pend ((allAxes s1).foldl (requestStop false true) s1)

/-- SAFE_HOLD (R29, R32). -/
def safeHoldBody (s : State) (_ : Request) (_ : Nat) : Reply := .ok (enterSafeHold s) []

/-- SAFE_HOLD_RELEASE (R29). -/
def safeHoldReleaseBody (s : State) (_ : Request) (_ : Nat) : Reply :=
  orElse (!safetyDemand s) St.badState (.ok (changeState s s.dev.held) [])

/-- A cause of a device fault is active (R30): a failed check in the cycle hardware, a clock that deviates, a supply that fails, or the
excursion of R603. -/
def faultCauseActive (s : State) : Bool :=
  s.dev.hwFaults != [] || s.dev.clockOff || s.dev.powerFailing || (s.ev.storm && stormNow s)

/-- The device enters CONFIG (R476, R496): the programs of the timed outputs are cleared and an armed record stops. -/
def enterConfig (s : State) : State := calStop (clearTouts (changeState s .config)) 6

/-- FAULT_CLEAR (R29, R30). -/
def faultClearBody (s : State) (_ : Request) (_ : Nat) : Reply :=
  orElse (!faultCauseActive s) St.badState
    (let s1 : State := { s with dev := { s.dev with faultNoCycle := false } }
     .ok (if s.cyc.running then changeState s1 .preop else enterConfig s1) [])

/-! ### Power domains (R525, R650) -/

/-- The domain is present (R3, R650). -/
def domainHere (s : State) (d : Nat) : Bool := d == 1 || hasLocal s.var

/-- What refuses to switch a domain off (R650). -/
def domainBusy (s : State) (d : Nat) : Bool :=
  if d = 1 then
    s.rings.any (fun e => e.2.tunnelOpen) ||
      ((s.cal.state == 1 || s.cal.state == 2) && (match s.cal.conf with | some c => c.spill | none => false))
  else if d = 2 then (slices s.image).any (fun x => x.ring == 255)
  else false

/-- POWER_DOMAIN (R650). -/
def powerDomainBody (s : State) (q : Request) (_ : Nat) : Reply :=
  let d := uAt q.payload 0 1
  let on := uAt q.payload 1 1
  need (Nat.blt d 3 && Nat.blt on 2 && resv q.payload 2 2) <|
  orElse (domainHere s d) St.unsupported <|
  orElse (!(on == 0 && domainBusy s d)) St.badState <|
    let s1 := if on = 0 ∧ d = 0 then calStop s 6 else s
    .pend (addPend { s1 with dma := { s1.dma with switching := tput s1.dma.switching d (on == 1, s1.time.now) } } Cmd.powerDomain q d)

/-- Time of a switch-on in ns (R650). -/
def switchOnNs (d : Nat) : Nat := if d = 0 then 200000 else if d = 1 then 20000000 else 1000000

/-- What a domain holds after it was off (R650; log 6). -/
def domainBack (d : Nat) (s : State) : State :=
  if d = 0 then { s with mem := { s.mem with capture := [] } }
  else if d = 1 then { s with mem := { s.mem with ddr := [] } }
  else { s with loc := { s.loc with adc := { s.loc.adc with ref := 0, calState := 0, calStart := none, factors := [] } } }

/-- The switch of a domain ends: POWER_DOMAIN is confirmed and channels go on (R526, R650). -/
def endSwitch (s0 : State) (d : Nat) (on : Bool) : State :=
  let s := if !on && d == 2 then refOff s0 else s0
  let off := s.dma.domainsOff.filter (fun x => x != d)
  let s1 : State := { s with dma := { s.dma with switching := tdel s.dma.switching d, domainsOff := if on then off else off ++ [d] } }
  finish (resumeChans (if on && s.dma.domainsOff.contains d then domainBack d s1 else s1)) Cmd.powerDomain d St.ok

/-- POWER_DOMAIN_SWITCHED (R525, R526, R650): on after its time; off as soon as no channel is in flight there. -/
def execPowerDomainSwitched (dt : Nat) (domain : Nat) (s0 : State) : Out :=
  let s := advance dt s0
  .next (match tfind s.dma.switching domain with
    | some (true, at_) => if at_ + switchOnNs domain * nsU ≤ s.time.now then endSwitch s domain true else s
    | some (false, _) => if inFlight s domain = [] then endSwitch s domain false else s
    | none => s)

/-- A held power-down that has waited pd_hold_max: channels in flight there are aborted, then the domain powers down (R525). -/
def expireHold (s : State) (d : Nat) : State :=
  match tfind s.dma.switching d with
  | some (false, at_) =>
    if at_ + parN s Par.pdHoldMax 0 * 1000 * nsU ≤ s.time.now ∧ inFlight s d ≠ [] then
      endSwitch ((inFlight s d).foldl (fun s c => dmaFail s c St.powerAbort) s) d false
    else s
  | _ => s

/-- PD_HOLD_MAX_EXPIRY (R525). -/
def execPdHoldMaxExpiry (dt : Nat) (s0 : State) : Out :=
  let s := advance dt s0
  .next (expireHold (expireHold s 0) 1)

/-! ### Firmware staging (R657 to R660, R665) -/

/-- FW_STAGE_WRITE (R660): a write at offset 0 first erases the target. -/
def fwStageWriteBody (s : State) (q : Request) (_ : Nat) : Reply :=
  let p := q.payload
  let target := uAt p 0 1
  let o := uAt p 4 4
  let data := p.drop 8
  let size := if target = 0 then slotSize else patchSize
  need (Nat.blt target 2 && resv p 1 3 && Nat.ble (o + data.length) size) <|
  if target = 0 then
    let k := 1 - s.power.slot
    let old := if o = 0 then [] else tget s.power.staging [] k
    .ok { s with power := { s.power with staging := tput s.power.staging k (memWrite old o data) } } []
  else
    let old := if o = 0 then memZero s.mem.mram patchBase patchSize else s.mem.mram
    .ok { s with mem := { s.mem with mram := memWrite old (patchBase + o) data }, power := { s.power with patchArmed := false } } []

/-- FW_STAGE_COMMIT (R660): pending until its checks or its fuse operation end. -/
def fwStageCommitBody (s : State) (q : Request) (_ : Nat) : Reply :=
  let target := uAt q.payload 0 1
  need (Nat.blt target 4 && resv q.payload 1 3) (.pend (addPend s Cmd.fwStageCommit q target))

/-- What a commit of a target does (R660). -/
def stageDone (s : State) (target : Nat) : State :=
  if target = 0 then { s with power := { s.power with preferred := some (1 - s.power.slot) } }
  else if target = 1 then { s with power := { s.power with patchArmed := true } }
  else if target = 2 then
    { s with mem := { s.mem with mram := memZero s.mem.mram patchBase patchSize }, power := { s.power with patchArmed := false } }
  else { s with power := { s.power with fuses := max s.power.fuses (min 64 s.power.rollback) } }

/-- The check that the target of a commit fails, 0 for none (R657, R659, R660); targets 2 and 3 have no check to fail. -/
def stageFails (s : State) (target : Nat) : Nat :=
  let p := s.power
  if target = 0 then imageFails s.board p.fuses false (memRead (tget p.staging [] (1 - p.slot)))
  else if target = 1 then patchFails s.board p.fuses p.version p.lens (patchBytes s)
  else 0

/-- The status of a commit whose check fails (R660). -/
def stageStatus (fails : Nat) : Nat :=
  if fails = 3 then St.fwRollback else if fails ≤ 5 then St.fwAuth else St.fwVersion

/-- FW_STAGE_COMMIT_DONE (R660; log 18): the oldest pending commit of the target ends; a refusal changes neither the boot record nor
the patch state. -/
def execFwStageCommitDone (dt : Nat) (target : Nat) (s0 : State) : Out :=
  let s := advance dt s0
  .next (match s.pend.find? (fun p => p.code == Cmd.fwStageCommit && p.key == target) with
    | none => s
    | some p =>
      let k := stageFails s target
      if k = 0 then finishThis (stageDone s target) p St.ok else finishThis s p (stageStatus k))

/-! ### Rows -/

/-- SYS_CAPS -/
def execSysCaps (dt : Nat) (q : Request) (s : State) : Out := .next (serve Cmd.sysCaps sysCapsBody dt q s)

/-- SYS_RESET (R29, R672): the reset follows 100 µs after the response is posted (log 28). -/
def execSysReset (dt : Nat) (q : Request) (s : State) : Out :=
  let s1 := serve Cmd.sysReset sysResetBody dt q s
  .next (if s1.dev.resetAsked then enterBoot 4 (advance 40000 s1) else s1)

/-- SYS_STANDBY (R29, R532, R648): after the response PWR_EN is deasserted and the device enters STANDBY. -/
def execSysStandby (dt : Nat) (q : Request) (s : State) : Out :=
  let s1 := serve Cmd.sysStandby sysStandbyBody dt q s
  .next (if s1.power.standbyAsked then
      let s2 := enterStandby (finishCommit { s1 with power := { s1.power with pwrEn := false } })
      { s2 with power := { s2.power with pwrOffAt := s2.time.now } }
    else s1)

/-- SYS_OPERATE -/
def execSysOperate (dt : Nat) (q : Request) (s : State) : Out := .next (serve Cmd.sysOperate sysOperateBody dt q s)
/-- SYS_PREOP -/
def execSysPreop (dt : Nat) (q : Request) (s : State) : Out := .next (serve Cmd.sysPreop sysPreopBody dt q s)

/-- SYS_PREOP_DONE (R29): once every axis is disabled. -/
def execSysPreopDone (dt : Nat) (s0 : State) : Out :=
  let s := advance dt s0
  .next (if s.dev.preopPending ∧ s.dev.mode = .operational ∧ s.axes.all (fun e => e.2.phase == .disabled) then
      finish (changeState { s with dev := { s.dev with preopPending := false } } .preop) Cmd.sysPreop 0 St.ok
    else s)

/-- SAFE_HOLD -/
def execSafeHold (dt : Nat) (q : Request) (s : State) : Out := .next (serve Cmd.safeHold safeHoldBody dt q s)
/-- SAFE_HOLD_RELEASE -/
def execSafeHoldRelease (dt : Nat) (q : Request) (s : State) : Out :=
  .next (serve Cmd.safeHoldRelease safeHoldReleaseBody dt q s)
/-- FAULT_CLEAR -/
def execFaultClear (dt : Nat) (q : Request) (s : State) : Out := .next (serve Cmd.faultClear faultClearBody dt q s)
/-- POWER_DOMAIN -/
def execPowerDomain (dt : Nat) (q : Request) (s : State) : Out := .next (serve Cmd.powerDomain powerDomainBody dt q s)
/-- BOOT_INFO -/
def execBootInfo (dt : Nat) (q : Request) (s : State) : Out := .next (serve Cmd.bootInfo bootInfoBody dt q s)
/-- FW_STAGE_WRITE -/
def execFwStageWrite (dt : Nat) (q : Request) (s : State) : Out := .next (serve Cmd.fwStageWrite fwStageWriteBody dt q s)
/-- FW_STAGE_COMMIT -/
def execFwStageCommit (dt : Nat) (q : Request) (s : State) : Out := .next (serve Cmd.fwStageCommit fwStageCommitBody dt q s)

end Sys2Proof.Machine
end

