-- ==== Sys2Proof/Machine/Host.lean ====
section
/-! DEFINITION. The host interface: BAR0 registers as the host reads and writes them (R351 to R357, R361, R382, R604), the
windows of BAR2 (R358, R359), the mailbox rings (R363 to R368), and the host watchdog's service (R385). -/

namespace Sys2Proof.Machine

/-- Host accesses reach the device: the main domain runs and RESET_N is released (R652). -/
def hostOpen (s : State) : Bool := powered s && !s.power.resetLow

/-! ### Reading BAR0 (R354 to R357, R361) -/

/-- A tunnel's registers. -/
def State.tun (s : State) (r : Nat) : RingRegs := tget s.host.tuns {} r
/-- Changes a tunnel's registers. -/
def State.onTun (s : State) (r : Nat) (f : RingRegs → RingRegs) : State :=
  { s with host := { s.host with tuns := tmod s.host.tuns {} r f } }

/-- DEV_STATE (R357). -/
def devStateWord (s : State) : Nat :=
  modeCode s.dev.mode + 16 * s.dev.bootCause + 256 * bit s.dev.mbReady + 512 * bit s.cyc.running + 1024 * bit s.dev.traceable +
    2048 * bit s.plan.armed.isSome

/-- MBm_STAT (R361, R364). -/
def mbStatWord (s : State) (m : Nat) : Nat :=
  let r := s.mbox m
  bit r.indexError + 2 * bit (!rspFree s m) + 4 * bit (m == 7 && r.notifyLost)

/-- The fixed identity of the PCIe function (R349): vendor, device, revision, subsystem vendor and subsystem, class code and
programming interface. -/
structure PciIdent where
  vendor : Nat
  device : Nat
  revision : Nat
  subVendor : Nat
  subsystem : Nat
  classCode : Nat
  progIf : Nat
  deriving DecidableEq, Repr

/-- The identity of a part (R3, R349). -/
def pciIdent (s : State) : PciIdent :=
  { vendor := 0x1F4E, device := deviceId s.var, revision := 0xB0, subVendor := 0x1F4E, subsystem := deviceId s.var,
    classCode := 0x0880, progIf := 0 }

/-- A byte of the MSI-X table as the host reads it: the vector control of an entry is 1 at reset (log 8). MSI-X is not there on
the quad-SPI port (R353). -/
def msixByte (s : State) (i : Nat) : Byte :=
  if s.board.qspi then 0 else
  let b := memGet s.host.msixTable i
  if i % 16 = 12 then b ^^^ 1 else b

/-- The word of BAR0 at an offset (R354); reserved offsets read 0 (R12). -/
def bar0Word (s : State) (o : Nat) : Nat :=
  if o = 0 then identWord s
  else if o = 4 then fwWord s
  else if o = 8 then caps0 s.var
  else if o = 0xC then caps1 s.var
  else if o = 0x10 then s.board.serial % 4294967296
  else if o = 0x14 then s.board.serial / 4294967296 % 4294967296
  else if o = 0x20 then devStateWord s
  else if o = 0x24 then bit s.dev.irqMaster
  else if o = 0x28 then s.dev.beat.toNat
  else if o = 0x30 then nowNs s % 1000000000
  else if o = 0x34 then s.dev.secLatch % 4294967296
  else if o = 0x38 then s.dev.secLatch / 4294967296 % 65536
  else if o = 0x40 then s.dev.qspiWindow.toNat
  else if 0x100 ≤ o ∧ o < 0x180 then
    let m := (o - 0x100) / 16
    let r := s.mbox m
    if o % 16 = 0 then r.reqTail.toNat + 65536 * r.reqHead.toNat
    else if o % 16 = 4 then r.rspHead.toNat + 65536 * r.rspTail.toNat
    else if o % 16 = 8 then r.ctrl.toNat
    else mbStatWord s m
  else if 0x180 ≤ o ∧ o < 0x1A0 then
    let r := s.tun ((o - 0x180) / 16)
    if o % 16 = 0 then r.reqTail.toNat + 65536 * r.reqHead.toNat
    else if o % 16 = 4 then r.rspHead.toNat + 65536 * r.rspTail.toNat
    else if o % 16 = 8 then r.ctrl.toNat
    else r.txRejected + 65536 * r.rxDropped
  else if 0x200 ≤ o ∧ o < 0x220 then bitsOf s.host.evStatus.toNat (8 * (o - 0x200)) 32
  else if 0x220 ≤ o ∧ o < 0x240 then bitsOf s.host.evEnable.toNat (8 * (o - 0x220)) 32
  else if 0x300 ≤ o ∧ o < 0x400 then
    leNat ((List.range 4).map (fun i => tget s.host.evRoute 0 (o - 0x300 + i)))
  else if 0x800 ≤ o ∧ o < 0xA00 then leNat ((List.range 4).map (fun i => msixByte s (o - 0x800 + i)))
  else if o = 0xA00 then (if s.board.qspi then 0 else s.host.msixPending.toNat)
  else 0

/-- What a read of a word of BAR0 does besides: TIME_NS latches the seconds (R357, R384), TUNr_STAT clears its counts (R361). -/
def bar0Touch (s : State) (o : Nat) : State :=
  if o = 0x30 then { s with dev := { s.dev with secLatch := nowSec s } }
  else if (o = 0x18C ∨ o = 0x19C) ∧ (o - 0x18C) / 16 < ringCount s.var then
    s.onTun ((o - 0x18C) / 16) (fun r => { r with txRejected := 0, rxDropped := 0 })
  else s

/-- Reads `n` bytes of BAR0 from an offset upward, as reads of 8, 16, 32 or 64 bits and transactions of the quad-SPI target do
(R351, R353): each word is read once, the lower address first, and gives the bytes addressed. `w` is the word begun, if any. -/
def bar0Bytes : Nat → Nat → Option Nat → State → State × Bytes
  | 0, _, _, s => (s, [])
  | n + 1, o, w, s =>
    let v := w.getD (bar0Word s (o - o % 4))
    let s1 := if w.isNone then bar0Touch s (o - o % 4) else s
    let r := bar0Bytes n (o + 1) (if o % 4 = 3 then none else some v) s1
    (r.1, BitVec.ofNat 8 (v / 256 ^ (o % 4)) :: r.2)

/-! ### Mailbox and tunnel indices (R361, R363) -/

/-- A tail write is allowed: no more than `n` entries between head and tail, and the tail does not move backwards. -/
def tailOk (n : Nat) (head old new : BitVec 16) : Bool := Nat.ble (old - head).toNat (new - head).toNat && Nat.ble (new - head).toNat n

/-- A head write is allowed: it does not pass the tail and does not move backwards. -/
def headOk (tail old new : BitVec 16) : Bool := Nat.ble (new - old).toNat (tail - old).toNat

/-- The request entry of an index in a mailbox's ring, 256 bytes (R361, R362). -/
def reqEntry (s : State) (m : Nat) (i : Nat) : Bytes := s.sramRead (reqRing m + 256 * (i % 64)) 256

/-- The commands of the entries that a doorbell posts, as the shavings record holds them (R608). -/
def postedRecords (s : State) (m : Nat) (old : BitVec 16) (n : Nat) : List MbRecord :=
  (List.range n).map (fun i =>
    let e := reqEntry s m (old.toNat + i)
    { mb := m, tag := uAt e 2 2, at_ := nowNs s, request := e, response := none })

/-- A doorbell write of req_tail (R363, R608). -/
def ringDoorbell (s : State) (m : Nat) (tail : BitVec 16) : State :=
  if !s.dev.mbReady || Nat.ble 8 m then s
  else
    let r := s.mbox m
    if m = 7 ∨ tailOk 64 r.reqHead r.reqTail tail = false then s.onMbox m (fun r => { r with indexError := true })
    else
      let s1 : State := { s with ev := { s.ev with mbs := keepLast 64 (s.ev.mbs ++ postedRecords s m r.reqTail (tail - r.reqTail).toNat) } }
      s1.onMbox m (fun r => { r with reqTail := tail })

/-- A write of rsp_head (R363). -/
def moveRspHead (s : State) (m : Nat) (head : BitVec 16) : State :=
  if !s.dev.mbReady || Nat.ble 8 m then s
  else
    let r := s.mbox m
    if headOk r.rspTail r.rspHead head then s.onMbox m (fun r => { r with rspHead := head })
    else s.onMbox m (fun r => { r with indexError := true })

/-- A write of MBm_STAT clears the bits written as 1 (R361). -/
def clearStat (s : State) (m : Nat) (v : Nat) : State :=
  if 8 ≤ m then s
  else s.onMbox m (fun r => { r with indexError := r.indexError && !bitOf v 0, notifyLost := r.notifyLost && !(bitOf v 2 && m == 7) })

/-! ### The Ethernet tunnel's staging rings (R107, R381) -/

/-- Slot of a staging ring; direction 0 transmits, 1 receives (R358, R381). -/
def tunSlot (r d i : Nat) : Nat := 0x390000 + 0x6000 * (2 * r + d) + 1536 * (i % 16)

/-- The device moves the transmit slot at the head to the queue of R107, or discards it and counts it (R381). A frame that meets
a full queue is discarded and counted with it. -/
def takeTunSlot (s : State) (r : Nat) : State :=
  let g := s.tun r
  let b := s.sramRead (tunSlot r 0 g.reqHead.toNat) 1522
  let n := uAt b 0 2
  let addr := uAt b 2 1
  let known := (s.ring r).nodes.any (fun e => e.2.address == addr && e.2.bound)
  let s1 := s.onTun r (fun g => { g with reqHead := g.reqHead + 1 })
  if n < 60 ∨ 1514 < n ∨ known = false ∨ 256 ≤ (s.ring r).tunTx.length then
    s1.onTun r (fun g => { g with txRejected := min 65535 (g.txRejected + 1) })
  else s1.onRing r (fun g => { g with tunTx := g.tunTx ++ [{ address := addr, bytes := slice b 8 n }] })

/-- The device takes up to `n` posted transmit slots while the tunnel is open (R381). -/
def drainTunTx (r : Nat) : Nat → State → State
  | 0, s => s
  | n + 1, s => if (s.tun r).reqHead = (s.tun r).reqTail ∨ (s.ring r).tunnelOpen = false then s else drainTunTx r n (takeTunSlot s r)

/-- Received frames go to free receive slots, with the interrupt of the tunnel (R381, R383). -/
def drainTunRx (r : Nat) : Nat → State → State
  | 0, s => s
  | n + 1, s =>
    let g := s.tun r
    match (s.ring r).tunRx with
    | [] => s
    | f :: rest =>
      if 16 ≤ (g.rspTail - g.rspHead).toNat then s
      else
        let s1 := (s.onRing r (fun x => { x with tunRx := rest })).sramWrite (tunSlot r 1 g.rspTail.toNat)
          (b16 f.bytes.length ++ b8 f.address ++ zeros 5 ++ f.bytes)
        drainTunRx r n (ctrlIrq (s1.onTun r (fun g => { g with rspTail := g.rspTail + 1 })) g.ctrl)

/-- A write of tx_tail: the slots are taken while the tunnel is open. A write that breaks R363 changes nothing. -/
def moveTxTail (s : State) (r : Nat) (tail : BitVec 16) : State :=
  let g := s.tun r
  if !s.dev.mbReady || Nat.ble (ringCount s.var) r || !tailOk 16 g.reqHead g.reqTail tail then s
  else drainTunTx r 16 (s.onTun r (fun g => { g with reqTail := tail }))

/-- A write of rx_head: slots are free again for frames that wait. -/
def moveRxHead (s : State) (r : Nat) (head : BitVec 16) : State :=
  let g := s.tun r
  if !s.dev.mbReady || Nat.ble (ringCount s.var) r || !headOk g.rspTail g.rspHead head then s
  else drainTunRx r 16 (s.onTun r (fun g => { g with rspHead := head }))

/-! ### Other registers -/

/-- A write of DEV_CONTROL (R357): irq_master is applied; reset_req resets with its key alone. -/
def writeControl (s : State) (v : Nat) : State :=
  let s1 : State := { s with dev := { s.dev with irqMaster := bitOf v 0 } }
  if bitOf v 1 && v / 65536 == 0xA5C3 then enterBoot 4 s1 else s1

/-- A write of HOST_HEARTBEAT (R357, R385): the watchdog runs while host_wd_time is not 0. -/
def serviceHost (s : State) (v : BitVec 32) : State :=
  { s with dev := { s.dev with beat := v, hostWd := if par s Par.hostWdTime 0 = 0 then none else some s.time.now } }

/-- A write of EV_STATUSn clears the bits written as 1, but not those of sources that are raised in the same clock (R604). -/
def clearEvStatus (s : State) (n : Nat) (v : BitVec 32) : State :=
  if 8 ≤ n then s
  else { s with host := { s.host with evStatus := s.host.evStatus &&& (~~~(BitVec.ofNat 256 (v.toNat * 2 ^ (32 * n))) ||| evHeld s) } }

/-- Replaces word `n` of a 256-bit row of bits. -/
def putWord256 (w : BitVec 256) (n : Nat) (v : Nat) : BitVec 256 :=
  BitVec.ofNat 256 (w.toNat - bitsOf w.toNat (32 * n) 32 * 2 ^ (32 * n) + v % 4294967296 * 2 ^ (32 * n))

/-- Writes a route byte; its bit 7 is reserved (R382). -/
def putRoute (t : Table (BitVec 8)) (src : Nat) (b : Byte) : Table (BitVec 8) :=
  let v : BitVec 8 := b &&& 0x7F
  if v = 0 then tdel t src else tput t src v

/-- Bit i of a vector control byte alone can be written; the bytes above it are reserved. -/
def putMsixByte (t : List Host.Cell) (i : Nat) (b : Byte) : List Host.Cell :=
  if i % 16 < 12 then memPut t i b else if i % 16 = 12 then memPut t i ((b &&& 1) ^^^ 1) else t

/-- Pending messages of vectors that are not masked are sent (R351: the rules of PCIe). -/
def flushMsix (s : State) : State :=
  (List.range 32).foldl (fun s v =>
    if s.host.msixPending.getLsbD v && !msixMasked s v then
      sendMsix { s with host := { s.host with msixPending := s.host.msixPending &&& ~~~(bitN 32 v) } } v
    else s) s

/-- A write of bytes into the MSI-X table (R349, R351); it is not available on the quad-SPI port (R353). -/
def writeMsix (s : State) (o : Nat) (data : Bytes) : State :=
  if s.board.qspi then s
  else
    let t := (data.zipIdx).foldl (fun t e => if o - 0x800 + e.2 < 512 then putMsixByte t (o - 0x800 + e.2) e.1 else t) s.host.msixTable
    flushMsix { s with host := { s.host with msixTable := t } }

/-- A 32-bit write at an offset of BAR0 (R354): the register's own behaviour, or its RW fields (R12). -/
def writeWord (s : State) (o v : Nat) : State :=
  if o = 0x24 then writeControl s v
  else if o = 0x28 then serviceHost s (BitVec.ofNat 32 v)
  else if o = 0x40 then { s with dev := { s.dev with qspiWindow := BitVec.ofNat 8 v } }
  else if 0x100 ≤ o ∧ o < 0x180 then
    let m := (o - 0x100) / 16
    if o % 16 = 0 then ringDoorbell s m (BitVec.ofNat 16 v)
    else if o % 16 = 4 then moveRspHead s m (BitVec.ofNat 16 v)
    else if o % 16 = 8 then s.onMbox m (fun r => { r with ctrl := BitVec.ofNat 7 v })
    else clearStat s m v
  else if 0x180 ≤ o ∧ o < 0x1A0 then
    let r := (o - 0x180) / 16
    if ringCount s.var ≤ r then s
    else if o % 16 = 0 then moveTxTail s r (BitVec.ofNat 16 v)
    else if o % 16 = 4 then moveRxHead s r (BitVec.ofNat 16 v)
    else if o % 16 = 8 then s.onTun r (fun r => { r with ctrl := BitVec.ofNat 7 v })
    else s
  else if 0x200 ≤ o ∧ o < 0x220 then clearEvStatus s ((o - 0x200) / 4) (BitVec.ofNat 32 v)
  else if 0x220 ≤ o ∧ o < 0x240 then
    { s with host := { s.host with evEnable := putWord256 s.host.evEnable ((o - 0x220) / 4) v } }
  else if 0x300 ≤ o ∧ o < 0x400 then
    { s with host := { s.host with
        evRoute := ((leBytes 4 v).zipIdx).foldl (fun t e => putRoute t (o - 0x300 + e.2) e.1) s.host.evRoute } }
  else s

/-- The words of a write to BAR0, the lower address first (R351); a part of a word at the end is discarded (R353). -/
def writeWords (s : State) (o : Nat) : Bytes → State
  | a :: b :: c :: d :: r => writeWords (writeWord s o (leNat [a, b, c, d])) (o + 4) r
  | _ => s

/-- A write to BAR0 (R351). -/
def writeBar0 (s : State) (o : Nat) (data : Bytes) : State :=
  if 0x800 ≤ o ∧ o < 0xA00 then writeMsix s o data else if o % 4 = 0 then writeWords s o data else s

/-! ### BAR2 (R358, R359) -/

/-- What R358 says of a host write at an offset: stored, denied, or discarded. -/
inductive Bar2 where
  | stored
  | denied
  | ignored
  deriving DecidableEq, Repr

/-- The region of an offset of BAR2 (R358). Offsets below 4 MB that the table does not list are taken as reserved (R12). -/
def bar2Region (o : Nat) : Bar2 :=
  if o < 0x300000 then .denied
  else if o < 0x340000 then (if (o - 0x300000) % 0x8000 < 0x4000 then .stored else .denied)
  else if o < 0x341000 then .denied
  else if o < 0x350000 then .ignored
  else if o < 0x370000 then .denied
  else if o < 0x390000 then .stored
  else if o < 0x3A8000 then (if (o - 0x390000) % 0xC000 < 0x6000 then .stored else .denied)
  else if o < 0x400000 then .denied
  else .ignored

/-- One host access writes bytes at their offsets in BAR2: each is stored or discarded by its region; an access that meets a
read-only region is counted and raises BAR2_WRITE_DENIED once (R359). -/
def writeCells (s9 : State) (l : List (Nat × Byte)) : State :=
  let s := if l.any (fun e => bar2Region e.1 == .stored) then snapBefore s9 else s9
  let m := l.foldl (fun m e => if bar2Region e.1 = .stored then memPut m e.1 e.2 else m) s.mem.sram
  let s1 : State := snapAgain { s with mem := { s.mem with sram := m } }
  if l.any (fun e => bar2Region e.1 == .denied) then
    raiseWarn { s1 with host := { s1.host with deniedWrites := inc32 s1.host.deniedWrites } } Ev.bar2Denied
  else s1

/-- A host write into BAR2, of any size and alignment (R351, R359). -/
def writeBar2 (s : State) (o : Nat) (data : Bytes) : State := writeCells s (data.zipIdx.map (fun e => (o + e.2, e.1)))

/-- A byte of BAR2 as the host reads it: the SRAM below 4 MB, 0 beyond (R358). -/
def bar2Byte (s : State) (o : Nat) : Byte := if o < 0x400000 then memGet s.mem.sram o else 0

/-! ### The configuration space (R349, R350) -/

/-- A configuration write: BAR0 of 4 KB and BAR2 of 16 MB decode their upper bits alone; sizes that the function lacks and the
registers that the device fixes discard it (log 47). -/
def writeConfig (s : State) (r : PciReg) (v : Nat) : State :=
  if s.board.qspi then s
  else
    let put := fun (f : PciCfg → PciCfg) => ({ s with host := { s.host with pci := f s.host.pci } } : State)
    match r with
    | .command => dropHostDma (put (fun p => { p with command := BitVec.ofNat 16 v }))
    | .bar0 => put (fun p => { p with bar0 := BitVec.ofNat 32 (v - v % 4096) })
    | .bar2 => put (fun p => { p with bar2 := BitVec.ofNat 64 (v - v % 16777216) })
    | .maxPayload => if v = 128 ∨ v = 256 then put (fun p => { p with maxPayload := v }) else s
    | .maxReadReq => if [128, 256, 512, 1024, 2048, 4096].contains v then put (fun p => { p with maxReadReq := v }) else s
    | .aer n => put (fun p => { p with aer := tput p.aer n (BitVec.ofNat 32 v) })
    | .fixed => s

/-! ### The quad-SPI target (R352, R353) -/

/-- The number that a string of line values spells, the first the most significant. -/
def nibbles (l : List (BitVec 4)) : Nat := l.foldl (fun n b => 16 * n + b.toNat) 0

/-- The whole bytes of a string of line values, high nibble first. -/
def nibbleBytes : List (BitVec 4) → Bytes
  | h :: l :: r => BitVec.ofNat 8 (16 * h.toNat + l.toNat) :: nibbleBytes r
  | _ => []

/-- The line values of bytes, high nibble first. -/
def byteNibbles (b : Bytes) : List (BitVec 4) := b.flatMap (fun x => [BitVec.ofNat 4 (x.toNat / 16), BitVec.ofNat 4 x.toNat])

/-- Offset in BAR2 of byte `i` of a transaction: the window of QSPI_WIN, which wraps at its end (R353). -/
def qspiOffset (s : State) (addr i : Nat) : Nat := 65536 * s.dev.qspiWindow.toNat + (addr % 65536 + i) % 65536

/-- A write of the target: the register space below bit 23, the window above it. A transaction whose bits 22 to 12 are not 0 in
the register space is ignored (log 47); a word cut short is discarded. -/
def qspiWrite (s : State) (addr : Nat) (data : Bytes) : State :=
  if bitOf addr 23 then writeCells s (data.zipIdx.map (fun e => (qspiOffset s addr e.2, e.1)))
  else if bitsOf addr 12 11 = 0 then writeBar0 s addr data else s

/-- A read of the target of as many bytes as its data clocks begin. -/
def qspiRead (s : State) (addr n : Nat) : State × Bytes :=
  if bitOf addr 23 then (s, (List.range n).map (fun i => bar2Byte s (qspiOffset s addr i)))
  else if bitsOf addr 12 11 = 0 then bar0Bytes n addr none s else (s, zeros n)

/-- A transaction of the target (R352): opcode of two clocks, address of six, ten dummy clocks for a read, then data. With any other
opcode, or cut before its data, the transaction does nothing. -/
def qspiTransaction (s : State) (c : List (BitVec 4)) : State :=
  let addr := nibbles ((c.drop 2).take 6)
  if !s.board.qspi || Nat.blt c.length 8 then s
  else if nibbles (c.take 2) = 0x5A then qspiWrite s addr (nibbleBytes (c.drop 8))
  else if nibbles (c.take 2) = 0xA5 then
    let d := c.length - 18
    let r := qspiRead s addr ((d + 1) / 2)
    { r.1 with host := { r.1.host with qspiOut := (byteNibbles r.2).take d } }
  else s

/-- A host access of REGISTER_WRITE; a configuration register takes its bytes in little-endian order. -/
def hostAccessAt (s : State) (data : Bytes) : HostPlace → State
  | .bar0 o => writeBar0 s o data
  | .config r => writeConfig s r (leNat data)
  | .qspi c => qspiTransaction s c

/-! ### Taking requests (R362, R364 to R366) -/

/-- The firmware can take a request of a mailbox now (R364, R366). -/
def mayTake (s : State) (m : Nat) : Bool := s.dev.mbReady && Nat.blt m 7 && startable s m && mayStart s m

/-- The firmware takes the next request of a mailbox; a code that no command has is answered at once (R364, R366, R371). -/
def takeRequest (s : State) (m : Nat) : State :=
  let r := s.mbox m
  if !mayTake s m then s
  else
    let e := reqEntry s m r.reqHead.toNat
    let len := uAt e 4 2
    let w : Running := { code := uAt e 0 2, tag := uAt e 2 2, len := len, payload := slice e 8 (min len 248) }
    let s1 := takeTurn (s.onMbox m (fun r => { r with reqHead := r.reqHead + 1 })) m
    let s2 : State := { s1 with host := { s1.host with running := tput s1.host.running m w } }
    match cmdRow w.code with
    | some _ => s2
    | none => respondLater s2 m w.code St.badCommand []

/-! ### Rows -/

/-- MAILBOX_COMMAND_START (R23, R364, R366, R606). A confirmed double-bit error in the supervisor RAM is a device fault and then a watchdog
reset; one in the request's entry is a device fault, and the request is not taken (log 36). -/
def execMailboxCommandStart (dt : Nat) (mail : MailRead) (s0 : State) : Out :=
  let s := advance dt s0
  if !mayTake s mail.mb then .next s
  else if mail.supervisor = .confirmed then .next (watchdogReset (eccDevice s))
  else
    let s1 := noteRead s 1 mail.supervisor
    if mail.sram = .confirmed then .next (eccDevice s1)
    else .next (takeRequest (noteRead s1 4 mail.sram) mail.mb)

/-- NOTIFY_POST (R368). -/
def execNotifyPost (dt : Nat) (s : State) : Out :=
  let s1 := advance dt s
  .next (if s1.dev.mbReady then postNotice s1 else s1)

/-- A host access that reaches the device does its work. -/
def hostAccess (dt : Nat) (f : State → State) (s : State) : Out :=
  let s1 := advance dt s
  .next (if hostOpen s1 then f s1 else s1)

/-- MB_REQ_WRITE (R363). -/
def execMbReqWrite (dt : Nat) (mb : Nat) (tail : BitVec 16) (s : State) : Out := hostAccess dt (fun s => ringDoorbell s mb tail) s
/-- MB_RSP_WRITE (R363). -/
def execMbRspWrite (dt : Nat) (mb : Nat) (head : BitVec 16) (s : State) : Out := hostAccess dt (fun s => moveRspHead s mb head) s
/-- MB_STAT_WRITE (R361). -/
def execMbStatWrite (dt : Nat) (mb : Nat) (value : BitVec 32) (s : State) : Out := hostAccess dt (fun s => clearStat s mb value.toNat) s
/-- TUNNEL_TX_SLOT (R381). -/
def execTunnelTxSlot (dt : Nat) (ring : Nat) (tail : BitVec 16) (s : State) : Out := hostAccess dt (fun s => moveTxTail s ring tail) s
/-- TUN_RX_HEAD_WRITE (R381). -/
def execTunRxHeadWrite (dt : Nat) (ring : Nat) (head : BitVec 16) (s : State) : Out :=
  hostAccess dt (fun s => moveRxHead s ring head) s
/-- TUN_STAT_READ (R361): the counts clear as they are read. -/
def execTunStatRead (dt : Nat) (ring : Nat) (s : State) : Out :=
  hostAccess dt (fun s => if ring < ringCount s.var then bar0Touch s (0x18C + 16 * ring) else s) s
/-- RESET_REQ (R29, R357). -/
def execResetReq (dt : Nat) (value : BitVec 32) (s : State) : Out := hostAccess dt (fun s => writeControl s value.toNat) s
/-- IRQ_MASTER (R357): the same register. -/
def execIrqMaster (dt : Nat) (value : BitVec 32) (s : State) : Out := hostAccess dt (fun s => writeControl s value.toNat) s
/-- HOST_HEARTBEAT (R385). -/
def execHostHeartbeat (dt : Nat) (value : BitVec 32) (s : State) : Out := hostAccess dt (fun s => serviceHost s value) s
/-- TIME_NS_READ (R357, R384): the seconds are latched. -/
def execTimeNsRead (dt : Nat) (s : State) : Out := hostAccess dt (fun s => bar0Touch s 0x30) s
/-- EV_STATUS_WRITE (R604). -/
def execEvStatusWrite (dt : Nat) (n : Nat) (value : BitVec 32) (s : State) : Out := hostAccess dt (fun s => clearEvStatus s n value) s
/-- BAR2_WRITE (R358, R359). -/
def execBar2Write (dt : Nat) (offset : Nat) (data : Bytes) (s : State) : Out := hostAccess dt (fun s => writeBar2 s offset data) s
/-- REGISTER_WRITE (R12, R349 to R353). -/
def execRegisterWrite (dt : Nat) (place : HostPlace) (data : Bytes) (s : State) : Out :=
  hostAccess dt (fun s => hostAccessAt s data place) s

end Sys2Proof.Machine
end

