-- ==== Sys2Proof/Machine/Params.lean ====
section
/-! DEFINITION. PARAM_READ and PARAM_WRITE (R5, R6, R13 to R17, R372, R373): the values of read-only parameters, the checks of an
entry, the constraints between parameters, and when a write takes effect. -/

namespace Sys2Proof.Machine

/-! ### Reading -/

/-- Median delay of a hop, in the range of its parameter (R144). -/
def hopValue (s : State) (r h : Nat) : Int := clampI (tget (s.ring r).hopMedians 0 h) 0 32000

/-- Read-only values of a ring node (R121, R144); 0 where no node bears the address. -/
def nodeValue (s : State) (sub i : Nat) : Int :=
  let r := i / 64
  match nodeAt s r (i % 64 + 1) with
  | none => 0
  | some p =>
    let n := s.node r p
    match sub with
    | 1 => n.state | 2 => n.crcP | 3 => n.crcQ | 4 => n.resends | 5 => hopValue s r (p - 1) | 6 => hopValue s r p
    | 7 => n.clockOffset | _ => bit n.locked

/-- Read-only values of an incremental channel (R432). -/
def encValue (e : EncCh) : Nat → Int
  | 1 => e.count | 2 => encSpeed e | 3 => e.phaseErrors | 4 => e.indexDev | 5 => e.wireFaults | _ => encStateCode e

/-- The core that is the spare, 255 for none (R454). -/
def spareCore (d : Adc) : Nat := (d.cores.findIdx? (fun c => coreCode c == 0xFE)).getD 255

/-- Read-only values of the ADC, of a result, and of the factors of a core (R454). -/
def adcValue (d : Adc) : Nat → Int
  | 3 => d.ref | 4 => d.calState | _ => spareCore d
def resultValue (r : AdcResult) : Nat → Int
  | 1 => r.value | 2 => r.stamp / nsU | _ => r.flags
def factorValue (f : Option CoreFactors) (sub : Nat) : Int :=
  match f with
  | some f => if sub = 1 then f.offset else if sub = 2 then f.gain else (f.lin[sub - 3]?).getD 0
  | none => if sub = 2 then 4194304 else 0

/-- Read-only values of local feedback (R432, R436, R441, R454). -/
def localValue (s : State) (obj sub i : Nat) : Int :=
  if obj = 0x6104 then encValue (s.enc i) sub
  else if obj = 0x6110 then (if sub = 12 then (s.ssi i).retries else (s.ssi i).invalid)
  else if obj = 0x6120 then (if sub = 4 then (s.probe i).queue.length else (s.probe i).overflows)
  else if obj = 0x6200 then adcValue s.loc.adc sub
  else if obj = 0x6210 then resultValue (tget s.loc.adc.results {} i) sub
  else factorValue (tfind s.loc.adc.factors i) sub

/-- Read-only values of time, calipers, DMA and safety (R481, R506, R527, R558). -/
def unitValue (s : State) (obj sub i : Nat) : Int :=
  if obj = 0x7000 then
    (match sub with
     | 1 => s.time.trim | 2 => s.time.trim + s.time.slew | 3 => spanNs s.time.slewLeft | 12 => offsetNs s.time.ptpOffset | _ => s.time.ptpState)
  else if obj = 0x7010 then (if sub = 9 then (s.port i).meanPath else (s.port i).state)
  else if obj = 0x7020 then (let o : Tout := tget s.time.touts {} i; if sub = 2 then o.mode else o.skipped)
  else if obj = 0x8000 then
    (match sub with | 18 => s.cal.state | 19 => s.cal.stopReason | 20 => s.cal.syncState | _ => s.cal.syncOffset)
  else if obj = 0x8010 then tget s.cal.skewVals 0 i
  else if obj = 0x8020 then (tget s.cal.busDelay 0 i : Nat)
  else if obj = 0x9000 then s.dma.transients
  else if obj = 0xA000 then (if sub = 1 then s.safe.state else par s (obj * 256 + sub) i)
  else if obj = 0xA010 then (if sub = 4 then pairCode s i else par s (obj * 256 + sub) i)
  else if obj = 0xA020 then (if sub = 7 then (s.fn i).state else par s (obj * 256 + sub) i)
  else if obj = 0xA030 then
    (let c := s.conn i
     match sub with | 9 => c.state | 10 => c.crcErrors + c.seqErrors | 11 => c.timeouts | _ => par s (obj * 256 + sub) i)
  else if obj = 0xA050 then (if sub = 1 then soutCode s i else (s.sout i).faults)
  else par s (obj * 256 + sub) i

/-- Read-only values of the pair, events and truing (R591, R618, R637). -/
def lateValue (s : State) (obj sub i : Nat) : Int :=
  if obj = 0xB000 then
    (match sub with
     | 1 => s.pair.id | 6 => s.pair.state | 7 => s.pair.epoch | 8 => s.pair.leaseEnd % 4294967296
     | 9 => clampI s.pair.tie 0 32000 | 10 => clampI s.pair.offset (-8388608) 8388607 | 11 => s.pair.divergences | _ => s.pair.skipped)
  else if obj = 0xC000 then s.ev.transientCount
  else if obj = 0xC100 then
    (match sub with
     | 16 => s.tru.derating | 17 => s.tru.slowdown | 18 => s.tru.mvReq | 19 => s.tru.mvRead | 20 => s.tru.lifeRemaining
     | 21 => truingCode s | 22 => s.tru.passes | 23 => s.tru.refDrift | 24 => s.tru.bandgapDrift | 25 => s.tru.mramMargin
     | _ => opHours s)
  else (let l : Nat × Nat × Nat := tget s.tru.lanes (0, 0, 0) i; match sub with | 1 => l.1 | 2 => l.2.1 | _ => l.2.2)

/-- The value in force of a read-only parameter. -/
def roValue (s : State) (obj sub i : Nat) : Int :=
  if obj = 0x3000 then extrapOf s
  else if obj = 0x3010 then nodeValue s sub i
  else if obj = 0x4110 then (s.axis i).source
  else if obj = 0x4140 then diag40 s i sub
  else if obj = 0x4154 then diag54Of s i sub
  else if obj = 0x4250 then diag250 s i sub
  else if obj = 0x6020 then (let t : Trip := tget s.pwm.trips {} i; if sub = 2 then bit t.latched else t.count)
  else if obj < 0x7000 then localValue s obj sub i
  else if obj < 0xB000 then unitValue s obj sub i
  else lateValue s obj sub i

/-- The old view of a native gain (R190): converted, rounded convergently, saturated at 65,535. -/
def oldView (sub : Nat) (v : Int) : Int :=
  let c := if sub = 1 then rdiv v 10 else if sub = 3 then rdiv v 256 else if v = 0 then 0 else max 1 (rdiv 10000 v)
  min c 65535

/-- The native gain behind the old view (R190). -/
def nativeOf (sub : Nat) : Nat := if sub = 1 then Par.posKp else if sub = 2 then Par.velKi else Par.velKp

/-- The native value of a value written to the old view (R190). -/
def toNative (sub : Nat) (v : Int) : Int := if sub = 1 then v * 10 else if sub = 3 then v * 256 else if v = 0 then 0 else rdiv 10000 v

/-- The parameter instance is absent on this part (R5, R250). -/
def absentHere (s : State) (obj sub i : Nat) : Bool := absentParam s.var obj i || absentSwitch s.var (obj * 256 + sub)

/-- What a read of a parameter returns (R5, R15, R190). -/
def readParam (s : State) (obj sub i : Nat) (d : PDef) : Int :=
  if absentHere s obj sub i then 0
  else if obj = 0x4128 then oldView sub (parWritten s (nativeOf sub) i)
  else if d.eff = .ro then roValue s obj sub i
  else parWritten s (obj * 256 + sub) i

/-! ### Entries (R372, R373) -/

/-- An entry of a request. -/
structure PEntry where
  obj : Nat
  sub : Nat
  inst : Nat
  ty : Nat
  bytes : Bytes
  deriving DecidableEq, Repr

/-- Entry `k` of a payload. -/
def entryAt (p : Bytes) (k : Nat) : PEntry :=
  let b := slice p (4 + 20 * k) 20
  { obj := uAt b 0 2, sub := uAt b 2 1, inst := uAt b 3 1, ty := uAt b 4 1, bytes := b }

/-- The definition that an entry names, where object, sub-index, instance, type and reserved bytes check (R6, R13, R14, R373). -/
def entryDef (e : PEntry) : Option PDef :=
  match paramDef e.obj e.sub with
  | some d => if e.inst < objectCount e.obj ∧ e.ty = typeCode d.ty ∧ uAt e.bytes 5 3 = 0 then some d else none
  | none => none

/-- Value of an entry to be written: its container, the zero rest, and the range (R17, R372, R373). -/
def entryValue (d : PDef) (e : PEntry) : Option Int :=
  let n := contLen d.ty
  match contVal d.ty (slice e.bytes 8 12) with
  | some v => if inRanges v d.ranges ∧ uAt e.bytes (8 + n) (12 - n) = 0 then some v else none
  | none => none

/-- A write of an entry: the key it sets, its value, when it takes effect, and whether it is discarded because the instance is
absent (R5, R190). -/
structure PWrite where
  entry : Nat
  n : Nat
  inst : Nat
  value : Int
  eff : Eff
  absent : Bool
  deriving DecidableEq, Repr

/-- The native range holds a value. -/
def inNative (n : Nat) (v : Int) : Bool :=
  match paramDef (n / 256) (n % 256) with
  | some d => inRanges v d.ranges
  | none => false

/-- The write that an entry stands for, or the status with which it fails by itself (R165, R190, R373, R454, R506). -/
def entryWrite (s : State) (k : Nat) (e : PEntry) : Except Nat PWrite :=
  match entryDef e with
  | none => .error St.badParam
  | some d =>
    match entryValue d e with
    | none => .error St.badParam
    | some v =>
      let absent := absentHere s e.obj e.sub e.inst
      let n := e.obj * 256 + e.sub
      if d.eff = .ro then .error St.badParam
      else if e.obj = 0x4128 then
        if inNative (nativeOf e.sub) (toNative e.sub v) then
          .ok { entry := k, n := nativeOf e.sub, inst := e.inst, value := toNative e.sub v, eff := .tick, absent := absent }
        else .error St.badParam
      else if n = Par.fullSteps ∧ v % 4 ≠ 0 then .error St.badParam
      else if absent then .ok { entry := k, n := n, inst := e.inst, value := v, eff := d.eff, absent := true }
      else if n = Par.axisMode ∧ ((v = 3 ∧ !isFull s.var) ∨ (4 ≤ v ∧ v ≤ 6 ∧ !hasLocal s.var)) then .error St.unsupported
      else if ((e.obj = 0x6220 ∨ e.obj = 0x6224) ∧ 16 ≤ e.sub) ∧ (2 * slotCount s.var : Int) ≤ v then .error St.badParam
      else if (e.obj = 0x8000 ∨ e.obj = 0x8010 ∨ e.obj = 0x8020) ∧ n ≠ Par.trigOutLine ∧ n ≠ Par.busRole ∧ calBusy s then
        .error St.badState
      else .ok { entry := k, n := n, inst := e.inst, value := if n = Par.tripMap then v % 2 ^ slotCount s.var else v, eff := d.eff, absent := false }

/-- The value that a command leaves: its own last write, else the value last written (R15, R373). An absent instance, whose writes
are discarded, is judged as the CK-1280 defines it before any write: at the defaults (R5; log 47). -/
def leaves (s : State) (ws : List PWrite) (n i : Nat) : Int :=
  match (ws.filter (fun w => w.n == n && w.inst == i)).getLast? with
  | some w => w.value
  | none => if absentHere s (n / 256) (n % 256) i then pDefault n else parWritten s n i

/-- The safe levels of a pair are frozen: its timer is mapped to a set latch (R403). -/
def pairFrozen (s : State) (pair : Nat) : Bool :=
  (List.range 4).any (fun j => (tget s.pwm.trips {} j).latched && bitOf (parN s Par.tripMap j) (pair / 3))

/-- The constraints of the parameter that a write sets hold on the values that the command leaves (R188, R193, R270, R401, R403,
R437, R441). -/
def constraintOk (s : State) (ws : List PWrite) (w : PWrite) : Bool :=
  let v := fun n i => leaves s ws n i
  let i := w.inst
  let obj := w.n / 256
  if obj = 0x4130 then
    (if w.n = Par.n1Freq ∨ w.n = Par.n1Width then decide (v Par.n1Freq i = 0 ∨ v Par.n1Width i ≤ v Par.n1Freq i)
     else if w.n = Par.n2Freq ∨ w.n = Par.n2Width then decide (v Par.n2Freq i = 0 ∨ v Par.n2Width i ≤ v Par.n2Freq i) else true)
  else if w.n = Par.homeVel ∨ w.n = Par.homeCreep then decide (v Par.homeCreep i < v Par.homeVel i)
  else if w.n = Par.masterKind ∨ w.n = Par.masterIndex then
    !(v Par.masterKind i == 0 && (s.axis (v Par.masterIndex i).toNat).source == 3)
  else if w.n = Par.bootRefreshWidth then
    v Par.bootRefreshWidth i == 0 ||
      (List.range 3).all (fun k => decide (v Par.dtRise (3 * i + k) + v Par.dtFall (3 * i + k) < v Par.bootRefreshWidth i))
  else if w.n = Par.dtRise ∨ w.n = Par.dtFall then
    v Par.bootRefreshWidth (i / 3) == 0 || decide (v Par.dtRise i + v Par.dtFall i < v Par.bootRefreshWidth (i / 3))
  else if w.n = Par.safeH ∨ w.n = Par.safeL then !(v Par.safeH i == 1 && v Par.safeL i == 1) && !pairFrozen s i
  else if w.n = Par.tripMap then !(tget s.pwm.trips {} i).latched
  else if w.n = Par.ssiTurnBits then decide (v Par.ssiTurnBits i ≤ v Par.ssiPosBits i)
  else if w.n = Par.ssiPosBits ∨ w.n = Par.ssiStatusBits ∨ w.n = Par.ssiCheck then
    decide (v Par.ssiPosBits i + v Par.ssiStatusBits i + ssiCheckBits (v Par.ssiCheck i).toNat ≤ 56) &&
      (w.n != Par.ssiPosBits || decide (v Par.ssiTurnBits i ≤ v Par.ssiPosBits i))
  else true

/-- The first failing entry with its status, or the writes (R373). -/
def checkWrites (s : State) (p : Bytes) : Except (Nat × Nat) (List PWrite) :=
  let rs := (List.range (uAt p 0 1)).map (fun k => entryWrite s k (entryAt p k))
  let ws := rs.filterMap (fun r => match r with | .ok w => some w | .error _ => none)
  let bad := rs.zipIdx.filterMap (fun e =>
    match e.1 with
    | .error st => some (e.2, st)
    | .ok w => if constraintOk s ws w then none else some (e.2, St.badParam))
  match bad with
  | b :: _ => .error b
  | [] => .ok (ws.filter (fun w => !w.absent))

/-! ### Effects -/

/-- Task period of an axis's law in ns; none without a plan that runs it. -/
def lawPeriod (s : State) (a : Nat) : Option Nat :=
  ((axisTasks s.image a).find? (fun t => t.lawId == lawCascade)).map (fun t => periodNs (planRate s.image) * 2 ^ t.subExp)

/-- A notch of the value last written lies at or above 0.45 ÷ T and is bypassed (R189). -/
def notchOver (s : State) (a n : Nat) : Bool :=
  match lawPeriod s a with
  | some t => decide (0 < parWritten s n a) && decide (450000000 ≤ parWritten s n a * t)
  | none => false

/-- The evaluation of R189 for one notch of an axis: NOTCH_BYPASSED. -/
def judgeNotch (a k : Nat) (s : State) : State :=
  if notchOver s a (if k = 1 then Par.n1Freq else Par.n2Freq) then raiseWarn s Ev.notchBypassed Kind.axis a else s

/-- Both notches of every axis that a plan runs: the evaluation at a plan switch. -/
def judgeNotches (s : State) : State := (allAxes s).foldl (fun s a => judgeNotch a 2 (judgeNotch a 1 s)) s

/-- What follows at once from a write besides its value (R189, R385, R501, R679). -/
def afterWrite (w : PWrite) (s : State) : State :=
  if w.n = Par.hostWdTime ∧ w.value = 0 then { s with dev := { s.dev with hostWd := none } }
  else if w.n / 256 = 0x4130 then judgeNotch w.inst (if w.n % 256 ≤ 3 then 1 else 2) s
  else if w.n = Par.busRole then
    (if w.value = 2 ∧ s.cal.syncState ≠ 0 then s
     else s.onCal (fun c => { c with
       syncState := if w.value = 2 then 1 else 0, syncEdges := [], syncMedians := [], syncLast := if w.value = 2 then some s.time.now else none,
       busDelay := if w.value = 1 then [] else c.busDelay }))
  else if w.n = Par.capSignal ∨ w.n = Par.capQuantity then dropMasks s w.inst
  else s

/-- One write with the command's completion stamp (R15, R202). -/
def applyWrite (stamp : Nat) (s : State) (w : PWrite) : State :=
  let k := pkey w.n w.inst
  let p : Params := { s.par with written := tput s.par.written k w.value }
  let p1 : Params := match w.eff with
    | .now => { p with active := tput p.active k w.value }
    | .tick => { p with waiting := p.waiting ++ [{ stamp := stamp, key := k, value := w.value }] }
    | _ => p
  afterWrite w { s with par := p1 }

/-- The response payload: count, first failing entry, entries (R372). -/
def paramReply (n bad : Nat) (entries : Bytes) : Bytes := b8 n ++ b8 bad ++ zeros 2 ++ entries

/-- Count and reserved bytes of a request (R13, R372). -/
def countOk (p : Bytes) : Bool := Nat.ble 1 (uAt p 0 1) && Nat.ble (uAt p 0 1) 11 && resv p 1 3

/-- An entry as a read answers it: its value filled in. -/
def filled (s : State) (e : PEntry) : Bytes :=
  match entryDef e with
  | some d => slice e.bytes 0 8 ++ slice (contBytes d.ty (readParam s e.obj e.sub e.inst d)) 0 12
  | none => e.bytes

/-- An entry of a read passes the checks of R373, which hold for reads as for writes: what it names, and the container and range of
the value that it carries (R5, R17; log 47). -/
def readOk (e : PEntry) : Bool :=
  match entryDef e with
  | some d => (entryValue d e).isSome
  | none => false

/-- PARAM_READ (R372, R373). -/
def paramReadBody (s : State) (q : Request) (_ : Nat) : Reply :=
  let p := q.payload
  let n := uAt p 0 1
  let es := (List.range n).map (entryAt p)
  need (countOk p) <|
  match es.findIdx? (fun e => !readOk e) with
  | some k => .err St.badParam (paramReply n k (p.drop 4))
  | none => .ok s (paramReply n 0xFF (es.flatMap (filled s)))

/-- PARAM_WRITE (R373). -/
def paramWriteBody (s : State) (q : Request) (t : Nat) : Reply :=
  let p := q.payload
  let n := uAt p 0 1
  need (countOk p) <|
  match checkWrites s p with
  | .error (k, st) => .err st (paramReply n k (p.drop 4))
  | .ok ws => .ok (ws.foldl (applyWrite t) s) (paramReply n 0xFF (p.drop 4))

/-- PARAM_READ -/
def execParamRead (dt : Nat) (q : Request) (s : State) : Out := .next (serve Cmd.paramRead paramReadBody dt q s)
/-- PARAM_WRITE -/
def execParamWrite (dt : Nat) (q : Request) (s : State) : Out := .next (serve Cmd.paramWrite paramWriteBody dt q s)

end Sys2Proof.Machine
end

