-- ==== Sys2Proof/Machine/RingFrame.lean ====
section
/-! DEFINITION. Frames of a ring and the node services that they carry: trailers (R82), enumeration frames and their records
(R112, R113), acyclic frames (R102), the port towards a node (R104), and the queue of services of a node (R103, R106). -/

namespace Sys2Proof.Machine

/-! ### Frames (R81 to R83) -/

/-- A frame with its trailer (R82); the bytes before it number a multiple of 8. -/
def withTrailer (b : Bytes) : Bytes :=
  let h := b ++ b16 (b.length + 8) ++ zeros 2
  h ++ b32 (crc32 h)

/-- A copy is good when its CRC and frame_len check (R82). -/
def goodFrame (f : Bytes) : Bool :=
  let n := f.length
  Nat.ble 16 n && n % 8 == 0 && uAt f (n - 8) 2 == n && uAt f (n - 4) 4 == crc32 (f.take (n - 4))

/-- Pads with zeros to a multiple of 8. -/
def padTo8 (b : Bytes) : Bytes := b ++ zeros ((8 - b.length % 8) % 8)

/-- A block on the wire (R79, R81): a control block of a type with its seven data bytes, or eight data bytes. -/
inductive Block where
  | control (type : Nat) (data : Bytes)
  | data (bytes : Bytes)
  deriving DecidableEq, Repr

/-- The data blocks of a number of frame bytes. -/
def dataBlocks : Nat → Bytes → List Block
  | 0, _ => []
  | n + 1, f => .data (f.take 8) :: dataBlocks n (f.drop 8)

/-- The blocks of a frame (R79, R81): a start block, the frame bytes, a terminate block. -/
def frameBlocks (f : Bytes) : List Block :=
  .control 0x78 [0x55, 0x55, 0x55, 0x55, 0x55, 0x55, 0xD7] :: dataBlocks (f.length / 8) f ++ [.control 0x87 (zeros 7)]

/-- The frame bytes that a receiver takes from blocks after a start block (R79, R84): idle blocks and the frames that a suspend and a
resume block enclose lie between the two parts of a frame; any other control block is an error block, which makes the copy bad. -/
def joinBlocks : List Block → Bytes → Bool → Option Bytes
  | [], _, _ => none
  | .data b :: l, f, held => joinBlocks l (if held then f else f ++ b) held
  | .control t d :: l, f, held =>
    if t = 0x4B ∧ d.head? = some 0xA1 then joinBlocks l f true
    else if t = 0x4B ∧ d.head? = some 0xA2 then joinBlocks l f false
    else if t = 0x87 then (if held then joinBlocks l f held else some f)
    else if t = 0x1E ∨ (t = 0x78 ∧ held = true) then joinBlocks l f held
    else none

/-- The frame bytes of a received sequence of blocks; none for a copy that an error block breaks. -/
def readBlocks : List Block → Option Bytes
  | .control 0x78 _ :: l => joinBlocks l [] false
  | _ => none

/-- Wire time of a frame of a number of frame bytes, in units (R46, R81): 8 bytes of the start block and 8 of the terminate block go
with them. -/
def frameU (bytes : Nat) : Nat := cdivN (8 * (bytes + 16) * nsU) 10

/-- The other port. -/
def otherPort : Port → Port
  | .p => .q | .q => .p

/-- The unit belongs to a pair and its mirror link runs (R568, R572). -/
def pairUp (s : State) : Bool :=
  s.pair.id != 0 && isFull s.var && (match s.dev.mode with | .off | .standby | .boot => false | _ => true)

/-- The unit forwards every frame between the two ports of a ring (R78, R568). -/
def relays (s : State) (r : Nat) : Bool := pairUp s && s.pair.joined && !s.pair.grip && Nat.blt r (ringCount s.var)

/-- The acyclic frames that a ring has sent: of this cycle, or of the last row that sent any while no cycle runs. -/
def sendFrames (r : Nat) (l : List WaitingFrame) (s : State) : State :=
  s.onRing r (fun g => { g with sent := if s.cyc.running then g.sent ++ l else l })

/-- A frame that arrives at a port of a unit that does not hold the grip leaves the other port (R78, R568). -/
def relay (r : Nat) (port : Port) (f : Bytes) (s : State) : State :=
  if relays s r then sendFrames r [{ port := otherPort port, frame := f }] s else s

/-! ### Enumeration frames (R112, R113) -/

/-- An enumeration frame as the device sends it. -/
def enumFrame (flags : Nat) : Bytes := withTrailer (b8 3 ++ b8 flags ++ zeros 14)

/-- The records of an enumeration frame: identities of 32 bytes and markers of 8. -/
def enumRecords : Nat → Bytes → List Bytes
  | 0, _ => []
  | n + 1, b =>
    match b with
    | [] => []
    | k :: _ =>
      if k = 2 then slice b 0 32 :: enumRecords n (b.drop 32)
      else if k = 1 then slice b 0 8 :: enumRecords n (b.drop 8)
      else []

/-- The records of a good frame, as many as its record_count says. -/
def frameRecords (f : Bytes) : List Bytes :=
  (enumRecords (f.length / 8) ((f.take (f.length - 8)).drop 16)).take (uAt f 3 1)

/-- Fields of an identity record (R113). -/
def recAddr (b : Bytes) : Nat := uAt b 1 1
def recAlias (b : Bytes) : Nat := uAt b 2 2
def recSerial (b : Bytes) : Nat := uAt b 16 4
def recCaps (b : Bytes) : Nat := uAt b 21 1
def recLatency (b : Bytes) : Nat := uAt b 22 2
def recRate (b : Bytes) : Nat := uAt b 24 1

/-! ### The path to a node (R104, R108) -/

/-- The broken hops of a ring. -/
def brokenHops (g : Ring) : List Nat := g.breakHop.toList ++ g.breakHop2.map (·.1)

/-- The planned delays towards ports P and Q of a node, by its alias, in ns; equal where the plan does not name it, which then sends
from port P (R104; log 29). -/
def plannedDelays (s : State) (r : Nat) (n : Node) : Nat × Nat :=
  match aliasIndex s.image r n.alias_ with
  | some i => (delayP s.image r i, delayQ s.image r i)
  | none => (0, 0)

/-- The port from which the device sends to the node at a position (R104). A break in one direction cuts the path as one in
both does. -/
def routePort (s : State) (r p : Nat) : Port :=
  let g := s.ring r
  let cutP := (brokenHops g).any (fun h => Nat.blt h p)
  let cutQ := (brokenHops g).any (fun h => Nat.ble p h)
  let (dp, dq) := plannedDelays s r (s.node r p)
  if dp ≤ dq then (if cutP then .q else .p) else if cutQ then .p else .q

/-- Queues a service whose payload the spec does not lay out: the payload is a free value of its kind, of the number that it
carries, and of the counter (log 29). -/
def pushOpaque (r p service kind value : Nat) (serial addr cmd : Nat) (s : State) : State :=
  pushService r p { service := service, seq := 0, payload := nodePayload kind [s.free, value], serial := serial,
                    addr := addr, cmd := cmd } { s with free := s.free + 1 }

/-- Assigns an address by service 0x04 (R103, R114, R116). -/
def assignAddress (r p addr : Nat) (s : State) : State :=
  pushOpaque r p 4 4 addr (recSerial (s.node r p).record) addr 0 s

/-- Frame bytes of a service request: header, payload, trailer (R102). Requests have one segment. -/
def requestFrame (dest : Nat) (sv : Acyclic) : Bytes :=
  withTrailer (padTo8 (b8 4 ++ b8 dest ++ b8 0 ++ b8 sv.service ++ b16 sv.seq ++ b16 sv.payload.length ++ b8 4 ++ zeros 3 ++
    b32 sv.serial ++ sv.payload))

/-- Frame bytes of a message without a response: a tunnel frame or a safety message (R102, R103). -/
def messageFrame (dest service seq : Nat) (payload : Bytes) : Bytes :=
  withTrailer (padTo8 (b8 4 ++ b8 dest ++ b8 0 ++ b8 service ++ b16 seq ++ b16 payload.length ++ b8 4 ++ zeros 3 ++ b32 0 ++ payload))

/-- The positions of a ring's nodes. -/
def positions (s : State) (r : Nat) : List Nat := (s.ring r).nodes.map (·.1)

/-- The node of an instance number (R14): by its address, or by the address that a waiting service 0x04 gives it. -/
def nodeByInst (s : State) (inst : Nat) : Option (Nat × Nat) :=
  let r := inst / 64
  let a := inst % 64 + 1
  match nodeAt s r a with
  | some p => some (r, p)
  | none =>
    ((s.ring r).nodes.find? (fun e => e.2.address == 0 && (e.2.services.head?.map (·.addr)) == some a)).map (fun e => (r, e.1))

end Sys2Proof.Machine
end

