-- ==== Sys2Proof/Machine/RingSvc.lean ====
section
/-! DEFINITION. Enumeration (R114 to R117), hot join (R118, R119), the ring commands (R120), and acyclic traffic (R47, R104 to
R107). -/

namespace Sys2Proof.Machine

/-! ### Binding (R86, R101, R116, R117, R155, R213) -/

/-- The plan entry of an alias; alias 0 binds nothing (R117). -/
def aliasEntry (m : Image) (r al : Nat) : Option PNode := if al = 0 then none else (pnodes m r).find? (fun e => e.alias_ == al)

/-- The node of a record may be bound to a plan entry: its forwarding latency (R86, R101) in 0.1 ns, the witness role (R155) and
central current (R213). -/
def nodeFits (m : Image) (b : Bytes) (e : PNode) : Bool :=
  Nat.ble (10 * recLatency b + wire e.upLen + 256) (10 * e.latencyMax) &&
  (!bitOf e.flags 0 || bitOf (recCaps b) 0) &&
  (!bitOf e.flags 1 || (bitOf (recCaps b) 1 && Nat.ble (planRate m) (recRate b)))

/-- The address that a node has or that its last service 0x04 gives it. -/
def targetAddr (n : Node) : Nat := ((n.services.filter (fun v => v.service == 4)).getLast?.map (·.addr)).getD n.address

/-- Positions of a ring's nodes that carry an alias. -/
def aliasHolders (g : Ring) (al : Nat) : List Nat := (g.nodes.filter (fun e => e.2.alias_ == al)).map (·.1)
/-- Those that are bound. -/
def boundHolders (g : Ring) (al : Nat) : List Nat := (g.nodes.filter (fun e => e.2.alias_ == al && e.2.bound)).map (·.1)

/-- The plan entry to which the node at a position is to be bound (R116, R117): of nodes with one alias, the one that is
already bound, or none. -/
def bindEntry (m : Image) (r : Nat) (g : Ring) (p : Nat) : Option PNode :=
  let al := (tget g.nodes {} p).alias_
  let l := aliasHolders g al
  if l.length = 1 ∨ boundHolders g al = [p] then aliasEntry m r al else none

/-- The aliases that several nodes of a ring carry, each once. -/
def sharedAliases (g : Ring) : List Nat :=
  ((g.nodes.map (fun e => e.2.alias_)).filter (fun al => al != 0 && Nat.blt 1 (aliasHolders g al).length)).foldl
    (fun l al => if l.contains al then l else l ++ [al]) []

/-- Two or more nodes that are not bound carry one alias (R117): CYCLE_START is refused. -/
def aliasClash (g : Ring) : Bool :=
  (sharedAliases g).any (fun al => Nat.ble 2 ((aliasHolders g al).length - (boundHolders g al).length))

/-- Raises ALIAS_CONFLICT once for every alias that several nodes carry (R117). The rule names no instance: the record carries the ring
as its kind and instance and the alias as its detail (DESIGN CHOICE, log 29). -/
def aliasConflicts (r : Nat) (s : State) : State :=
  (sharedAliases (s.ring r)).foldl (fun s al => raiseWarn s Ev.aliasConflict Kind.ring r 0 (b16 al)) s

/-- Numbers rise strictly. -/
def rising : List Nat → Bool
  | a :: b :: l => Nat.blt a b && rising (b :: l)
  | _ => true

/-- Gives a node an address where it has another. -/
def moveTo (r p addr : Nat) (s : State) : State := if targetAddr (s.node r p) = addr then s else assignAddress r p addr s

/-- A node that was not bound is bound: its conditions of R708, and those of its hops, start as ended. -/
def setBound (r p : Nat) (s : State) : State :=
  if (s.node r p).bound then s
  else
    (s.onNode r p (fun n => { n with bound := true, thetas := [], clockRange := false, missed := 0, lost := false })).onRing r (fun g =>
      { g with hopOver := g.hopOver.filter (fun h => h + 1 != p && h != p) })

/-- Binds one node to its entry or refuses it (R101). -/
def bindNode (m : Image) (r p : Nat) (e : PNode) (s : State) : State :=
  let n := s.node r p
  if nodeFits m n.record e then setBound r p s
  else
    raiseWarn (s.onNode r p (fun n => { n with bound := false })) Ev.nodeRefused Kind.node (nodeInst r e.addr)

/-- The entry of each node of a ring by position, as a plan binds them (R116, R117). -/
def bindPlan (m : Image) (r : Nat) (g : Ring) : List (Nat × Option PNode) := g.nodes.map (fun e => (e.1, bindEntry m r g e.1))

/-- The plan addresses of the nodes present do not increase with position (R116). Nodes without an entry do not count. -/
def misplaced (m : Image) (r : Nat) (g : Ring) : Bool := !rising ((bindPlan m r g).filterMap (fun e => e.2.map (·.addr)))

/-- The status with which CYCLE_START refuses a ring, 0 for none (R116, R117). Where both hold, ALIAS_CONFLICT answers (DESIGN CHOICE,
log 29). -/
def bindStatus (m : Image) (r : Nat) (g : Ring) : Nat :=
  if aliasClash g then St.aliasConflict else if misplaced m r g then St.ringMismatch else 0

/-- The events of a binding: ALIAS_CONFLICT and RING_MISMATCH (R116, R117). -/
def bindAlarms (m : Image) (r : Nat) (s : State) : State :=
  let s1 := aliasConflicts r s
  if misplaced m r (s.ring r) then raiseWarn s1 Ev.ringMismatch Kind.ring r else s1

/-- A node that no entry binds has its positional address; a blank one stays blank (R117, R119). -/
def keepPlace (r p : Nat) (s : State) : State :=
  (if targetAddr (s.node r p) = 0 then s else moveTo r p p s).onNode r p (fun n => { n with bound := false })

/-- Binds the nodes of a ring to a plan (R116, R117). A node without an entry keeps its positional address, which the rules do not
compare with plan addresses; where its address is not its present position, since a hot join has moved it or a former plan named it, it
gets that of its position by service 0x04 (DESIGN CHOICE, log 29). -/
def bindRing (m : Image) (r : Nat) (s : State) : State :=
  let g := s.ring r
  let s1 := bindAlarms m r s
  let s2 :=
    if misplaced m r g then
      (bindPlan m r g).foldl (fun s e => keepPlace r e.1 s) s1
    else
      (bindPlan m r g).foldl (fun s e => match e.2 with
        | some n => bindNode m r e.1 n (moveTo r e.1 n.addr s)
        | none => keepPlace r e.1 s) s1
  s2.onRing r (fun h => { h with mismatch := misplaced m r g, aliasConflict := aliasClash g })

/-! ### RING_ENUMERATE (R114) -/

/-- Completes the oldest pending command of a code and key. -/
def finishFirst (s : State) (code key status : Nat) (payload : Bytes) : State :=
  match s.pend.find? (fun p => p.code == code && p.key == key) with
  | some p =>
    notify { s with pend := s.pend.erase p } p.code p.tag status (b8 p.mb ++ zeros 3 ++ payload)
  | none => s

/-- The number of nodes of a ring of the mask. -/
def nodesOf (s : State) (mask r : Nat) : Nat := if bitOf mask r then (s.ring r).nodes.length else 0

/-- Enumeration of a ring is over and its nodes have answered. -/
def ringQuiet (s : State) (r : Nat) : Bool :=
  let g := s.ring r
  (match g.enum with | some e => e.done | none => true) && g.nodes.all (fun e => e.2.services.isEmpty)

/-- RING_ENUMERATE completes when the rings of its mask are done (R114, R674). -/
def finishEnum (s : State) : State :=
  match s.pend.find? (fun p => p.code == Cmd.ringEnumerate) with
  | some p =>
    let rs := [0, 1].filter (fun r => bitOf p.key r)
    if rs.all (ringQuiet s) then
      let s1 := rs.foldl (fun s r => s.onRing r (fun g => { g with enum := none })) s
      finish s1 Cmd.ringEnumerate p.key St.ok (b8 (nodesOf s p.key 0) ++ b8 (nodesOf s p.key 1) ++ zeros 2)
    else s
  | none => s

/-- Services that commands wait for end as those of nodes that answer no more when an enumeration clears the nodes. -/
def dropServices (r : Nat) (s : State) : State :=
  (s.ring r).nodes.foldl (fun s e =>
    e.2.services.foldl (fun s v => if v.cmd = 0 then s else finishFirst s v.cmd v.addr St.nodeNoResponse []) s) s

/-- The enumeration of one ring begins; its first frame waits for the pass of R626. -/
def startEnum (s : State) (r : Nat) : State :=
  let s1 := dropServices r s
  s1.onRing r (fun g =>
    { g with nodes := [], mismatch := false, aliasConflict := false, calNode := 0, hops := [], hopMedians := [], hopOver := [],
             enum := some { waits := true } })

/-- The first frame of an enumeration that waits for no pass any more leaves from port P with flags bit 0 set (R114 step 1, R626). -/
def launchEnum (s : State) (r : Nat) : State :=
  match (s.ring r).enum with
  | some e =>
    if e.waits && !s.tru.running then
      sendFrames r [{ port := .p, frame := enumFrame 1 }] (s.onRing r (fun g => { g with enum := some { e with waits := false, sentAt := s.time.now } }))
    else s
  | none => s

/-- The enumerations that waited for a pass. -/
def launchEnums (s : State) : State := [0, 1].foldl launchEnum s

/-- TRUING_PASS_END (R626, R628 to R635): once the pass has nothing left to wait for. -/
def execTruingPassEnd (dt : Nat) (r : TruingReadings) (s0 : State) : Out :=
  let s := stressSync (advance dt s0)
  .next (if s.tru.running ∧ passOver s then launchEnums (endPass s (stressDone s) r) else s)

/-- POWER_FAIL (R611, R612, R640, R649): a pass that it abandons holds no enumeration back. -/
def execPowerFail (dt : Nat) (byPin : Bool) (s0 : State) : Out := .next (launchEnums (failPower byPin (advance dt s0)))

/-- The lanes of the rings of a mask: 2 × ring for port P, the next for port Q (R637). -/
def ringLanes (mask : Nat) : Nat := (if bitOf mask 0 then 3 else 0) + (if bitOf mask 1 then 12 else 0)

/-- The command's own rules (R114, R674). -/
def ringEnumerateBody (s : State) (q : Request) (_ : Nat) : Reply :=
  let p := q.payload
  let mask := uAt p 0 1
  need (resv p 1 3 && mask != 0 && Nat.blt mask 4)
    (orElse (!(bitOf mask 1 && ringCount s.var == 1)) St.unsupported
      (orElse (!s.pend.any (fun e => e.code == Cmd.ringEnumerate)) St.badState
        (let s1 := ([0, 1].filter (fun r => bitOf mask r)).foldl startEnum s
         .pend (addPend (if s1.tru.running then s1 else startPass true (ringLanes mask) s1) Cmd.ringEnumerate q mask))))

/-- RING_ENUMERATE (R114). -/
def execRingEnumerate (dt : Nat) (q : Request) (s : State) : Out := .next (serve Cmd.ringEnumerate ringEnumerateBody dt q s)

/-- The nodes of a pass are known: in order from port P, those of the first pass hold their positional addresses (R114 steps 3
to 6). -/
def passDone (r : Nat) (first second : List Bytes) (s : State) : State :=
  let recs := (first ++ second).take (nodeMax s.var)
  let nodes : Table Node := recs.zipIdx.map (fun e =>
    (e.2 + 1, { record := e.1, alias_ := recAlias e.1, address := if e.2 < first.length then recAddr e.1 else 0 }))
  let s1 := s.onRing r (fun g => { g with nodes := nodes, enum := g.enum.map (fun e => { e with done := true }) })
  let late := (positions s1 r).filter (fun p => Nat.blt first.length p)
  let s2 := late.foldl (fun s p => assignAddress r p p s) s1
  let s3 := if usesRing s.image r then bindRing s.image r s2 else s2
  finishEnum ((positions s3 r).foldl (fun s p => configureNode r p 0 s) s3)

/-! ### Hot join (R118, R119, R125 to R127) -/

/-- Nodes of a ring as a hot-join frame shows them: the old nodes that are left, and the new list. Blank nodes stand between
the markers around them; nodes between two markers that did not answer give way to them. -/
def joinList (startKnown endKnown : Bool) : List Bytes → List Node → List Node → List Node → List Node
  | [], blanks, rest, out => out ++ blanks ++ (if endKnown && !blanks.isEmpty then [] else rest)
  | b :: l, blanks, rest, out =>
    if uAt b 0 1 = 2 then
      joinList startKnown endKnown l (blanks ++ [{ record := b, alias_ := recAlias b }]) rest out
    else
      match rest.findIdx? (fun n => n.address == recAddr b) with
      | none => joinList startKnown endKnown l blanks rest out
      | some i =>
        let kept := if !blanks.isEmpty && startKnown then [] else rest.take i
        joinList true endKnown l [] (rest.drop (i + 1)) (out ++ kept ++ blanks ++ (rest.drop i).take 1)

/-- The things at the two ends of each hop: the addresses of nodes, 256 for port P and 255 for port Q. -/
def hopEnds (l : List Node) : List (Nat × Nat) :=
  let a := l.map (fun n => n.address)
  (256 :: a).zip (a ++ [255])

/-- Values of hops move with the ends of the hop. -/
def moveHops {α : Type} (old new : List Node) (t : Table α) : Table α :=
  (hopEnds new).zipIdx.filterMap (fun e =>
    match (hopEnds old).findIdx? (· == e.1) with
    | some i => (tfind t i).map (fun v => (e.2, v))
    | none => none)

/-- The nearest node with an address below and above a position, as addresses (R119). -/
def neighbourLow (g : Ring) (p : Nat) : Nat :=
  g.nodes.foldl (fun a e => if e.1 < p ∧ targetAddr e.2 ≠ 0 then targetAddr e.2 else a) 0
def neighbourHigh (g : Ring) (p : Nat) : Nat :=
  match g.nodes.find? (fun e => Nat.blt p e.1 && targetAddr e.2 != 0) with
  | some e => targetAddr e.2
  | none => 256

/-- Binds a hot-joined node, or refuses it (R119, R127). A node that no plan entry names, or whose alias a bound node holds, has no plan
address: NODE_REFUSED names it by its position, as the node instance 64 × ring + position − 1 (DESIGN CHOICE, log 29). -/
def joinNode (r : Nat) (s : State) (p : Nat) : State :=
  let n := s.node r p
  let g := s.ring r
  if n.address ≠ 0 ∨ n.services ≠ [] then s
  else
    let refuse := fun (s : State) (inst : Nat) => raiseWarn s Ev.nodeRefused Kind.node inst
    match aliasEntry s.image r n.alias_ with
    | none => refuse s (64 * r + p - 1)
    | some e =>
      if g.nodes.any (fun o => o.1 != p && o.2.alias_ == n.alias_ && (o.2.bound || o.2.joined)) then
        refuse (raiseWarn s Ev.aliasConflict Kind.ring r 0 (b16 n.alias_)) (64 * r + p - 1)
      else if nodeFits s.image n.record e && Nat.blt (neighbourLow g p) e.addr && Nat.blt e.addr (neighbourHigh g p) then
        configureNode r p e.addr (assignAddress r p e.addr (s.onNode r p (fun n => { n with joined := true })))
      else refuse s (nodeInst r e.addr)

/-- A hot-join frame came back (R118, R119). -/
def hotJoin (r : Nat) (port : Port) (f : Bytes) (s : State) : State :=
  let fromQ := bitOf (uAt f 1 1) 1
  let full := if fromQ then port == Port.p else port == Port.q
  let recs := if fromQ then (frameRecords f).reverse else frameRecords f
  let old := (s.ring r).nodes.map (·.2)
  let new := (joinList (!fromQ || full) (fromQ || full) recs [] old []).take (nodeMax s.var)
  let nodes : Table Node := new.zipIdx.map (fun e => (e.2 + 1, e.1))
  let s1 := s.onRing r (fun g =>
    { g with nodes := nodes, hops := moveHops old new g.hops, hopMedians := moveHops old new g.hopMedians,
             hopOver := (moveHops old new (g.hopOver.map (fun h => (h, ())))).map (·.1) })
  (positions s1 r).foldl (joinNode r) s1

/-- ENUM_FRAME_RETURN (R78, R114 steps 2 to 4, R118, R128): a good enumeration frame. A frame of the first pass that comes back at
port P brings the records of the nodes that it reached. A hot-join frame that was suspended across the tick comes back in the cycle
after its window. -/
def execEnumFrameReturn (dt : Nat) (ring : Nat) (port : Port) (frame : Bytes) (s0 : State) : Out :=
  let s := relay ring port frame (advance dt s0)
  let flags := uAt frame 1 1
  if !goodFrame frame || uAt frame 0 1 != 3 || Nat.ble (ringCount s.var) ring then .next s
  else if bitOf flags 2 then
    .next (if s.cyc.running && ((s.ring ring).window || (s.ring ring).windowWas) then hotJoin ring port frame s else s)
  else
    match (s.ring ring).enum with
    | none => .next s
    | some e =>
      if e.done || e.waits then .next s
      else if bitOf flags 1 then
        .next (if e.second then passDone ring e.records (frameRecords frame).reverse s else s)
      else if e.second then .next s
      else if port = .p then .next (s.onRing ring (fun g => { g with enum := some { e with records := frameRecords frame } }))
      else if s.time.now ≤ e.sentAt + 1000000 * nsU then .next (passDone ring (frameRecords frame) [] s)
      else .next s

/-- ENUM_TIMEOUT (R114 step 4): the second frame leaves from port Q; where that one is lost too, the first pass stands. -/
def execEnumTimeout (dt : Nat) (ring : Nat) (s0 : State) : Out :=
  let s := advance dt s0
  match (s.ring ring).enum with
  | none => .next s
  | some e =>
    if e.done || e.waits || Nat.blt s.time.now (e.sentAt + 1000000 * nsU) || Nat.ble (ringCount s.var) ring then .next s
    else if e.second then .next (passDone ring e.records [] s)
    else
      let s1 := s.onRing ring (fun g => { g with enum := some { e with second := true, sentAt := s.time.now } })
      .next (sendFrames ring [{ port := .q, frame := enumFrame 3 }] s1)

/-! ### The other ring commands (R120, R674) -/

/-- A ring argument. -/
def ringArg (s : State) (r : Nat) (k : Reply) : Reply := inst r 2 (ringCount s.var) k

/-- A node argument: an instance of R14. -/
def nodeArg (s : State) (n : Nat) (k : Reply) : Reply :=
  if 128 ≤ n then .err St.badParam []
  else if ringCount s.var ≤ n / 64 ∨ nodeMax s.var ≤ n % 64 then .err St.unsupported []
  else k

/-- A node argument whose node is present. -/
def presentNode (s : State) (n : Nat) (k : Nat → Nat → Reply) : Reply :=
  nodeArg s n (match nodeAt s (n / 64) (n % 64 + 1) with | some p => k (n / 64) p | none => .err St.nodeAbsent [])

/-- Direction codes of R674. -/
def breakCode : BreakDir → Nat
  | .both => 0 | .qWard => 1 | .pWard => 2

/-- The entry of a position in RING_STATUS. -/
def statusEntry (n : Node) : Bytes := b8 n.address ++ b8 n.state ++ b16 n.alias_

/-- RING_STATUS (R674). -/
def ringStatusBody (s : State) (q : Request) (_ : Nat) : Reply :=
  let p := q.payload
  let r := uAt p 0 1
  let first := uAt p 1 1
  need (resv p 2 2 && Nat.blt r 2 && Nat.ble 1 first && Nat.ble first 64)
    (ringArg s r
      (let g := s.ring r
       let l := ((g.nodes.filter (fun e => Nat.ble first e.1)).take 54).map (fun e => statusEntry e.2)
       .ok s (b8 r ++ b8 g.nodes.length ++ b8 (g.breakHop.getD 0xFF) ++ b8 (if g.breakHop.isSome then breakCode g.breakDir else 0) ++
         b32 g.closures ++ b8 l.length ++ zeros 3 ++ l.flatten)))
/-- RING_STATUS. -/
def execRingStatus (dt : Nat) (q : Request) (s : State) : Out := .next (serve Cmd.ringStatus ringStatusBody dt q s)

/-- NODE_IDENTITY (R674). -/
def nodeIdentityBody (s : State) (q : Request) (_ : Nat) : Reply :=
  let p := q.payload
  need (resv p 1 3) (presentNode s (uAt p 0 1) (fun r k =>
    let n := s.node r k
    .ok s (slice n.record 0 32 ++ b8 k ++ b8 (bit n.bound) ++ zeros 2)))
/-- NODE_IDENTITY. -/
def execNodeIdentity (dt : Nat) (q : Request) (s : State) : Out := .next (serve Cmd.nodeIdentity nodeIdentityBody dt q s)

/-- NODE_ENABLE (R119): a node that hot-joined leaves pre-operational by service 0x05. -/
def nodeEnableBody (s : State) (q : Request) (_ : Nat) : Reply :=
  let p := q.payload
  need (resv p 1 3) (presentNode s (uAt p 0 1) (fun r k =>
    .ok (if (s.node r k).joined && (s.node r k).bound then pushOpaque r k 5 3 0 0 0 0 (s.onNode r k (fun n => { n with joined := false })) else s) []))
/-- NODE_ENABLE. -/
def execNodeEnable (dt : Nat) (q : Request) (s : State) : Out := .next (serve Cmd.nodeEnable nodeEnableBody dt q s)

/-- NODE_ALIAS_SET (R120): a parameter write of the node's stored alias; the node defines where it lies. -/
def nodeAliasSetBody (s : State) (q : Request) (_ : Nat) : Reply :=
  let p := q.payload
  let n := uAt p 0 1
  need (resv p 1 1) (presentNode s n (fun r k =>
    .pend (addPend (pushOpaque r k 2 0 (uAt p 2 2) 0 n Cmd.nodeAliasSet s) Cmd.nodeAliasSet q n)))
/-- NODE_ALIAS_SET. -/
def execNodeAliasSet (dt : Nat) (q : Request) (s : State) : Out := .next (serve Cmd.nodeAliasSet nodeAliasSetBody dt q s)

/-- The parameter services of a node (R674). -/
def nodeParamBody (code service : Nat) (s : State) (q : Request) (_ : Nat) : Reply :=
  let p := q.payload
  let n := uAt p 0 1
  let len := uAt p 2 2
  need (resv p 1 1 && Nat.ble len 240) (presentNode s n (fun r k =>
    .pend (addPend (pushService r k { service := service, seq := 0, payload := slice p 4 len, addr := n, cmd := code } s) code q n)))
/-- NODE_PARAM_READ. -/
def execNodeParamRead (dt : Nat) (q : Request) (s : State) : Out :=
  .next (serve Cmd.nodeParamRead (nodeParamBody Cmd.nodeParamRead 1) dt q s)
/-- NODE_PARAM_WRITE. -/
def execNodeParamWrite (dt : Nat) (q : Request) (s : State) : Out :=
  .next (serve Cmd.nodeParamWrite (nodeParamBody Cmd.nodeParamWrite 2) dt q s)

/-- TUNNEL_CONFIG (R107, R120, R381): the queues lie in LPDDR4, so its domain must be on; slots posted before are taken now. -/
def tunnelConfigBody (s : State) (q : Request) (_ : Nat) : Reply :=
  let p := q.payload
  let r := uAt p 0 1
  let on := uAt p 1 1
  need (resv p 2 2 && Nat.blt r 2 && Nat.blt on 2)
    (ringArg s r
      (orElse (on == 0 || !domainDown s 1) St.badState
        (.ok (drainTunTx r 16 (s.onRing r (fun g => { g with tunnelOpen := on == 1 }))) [])))
/-- TUNNEL_CONFIG. -/
def execTunnelConfig (dt : Nat) (q : Request) (s : State) : Out := .next (serve Cmd.tunnelConfig tunnelConfigBody dt q s)

/-! ### Acyclic traffic (R47, R104 to R107) -/

/-- What a waiting acyclic frame belongs to. -/
inductive TxSource where
  | waiting
  | service (p : Nat)
  | safety (conn : Nat)
  | tunnel
  deriving DecidableEq, Repr

/-- A frame that could leave: its port, its bytes, its source. -/
structure TxItem where
  port : Port
  frame : Bytes
  src : TxSource
  deriving DecidableEq, Repr

/-- The port for a service: the nodes beyond a break that have no address yet are reached from port Q in an enumeration (R114
step 4). -/
def servicePort (s : State) (r p : Nat) : Port :=
  if (s.node r p).address = 0 ∧ !s.cyc.running then .q else routePort s r p

/-- The sequence number of a frame of the device's own to a node without a response. -/
def nextSeqOf (s : State) (r p : Nat) : Nat := ((s.node r p).seq + 1) % 65536

/-- The frames of a ring that wait for the acyclic window, in the order in which they are tried: enumeration frames, one service
of each node, safety messages, tunnel frames. -/
def txItems (s : State) (r : Nat) : List TxItem :=
  let g := s.ring r
  let waiting := (g.waiting.take 1 |>.filter (fun w => w.port == .p || g.breakHop.isSome)).map
    (fun w => { port := w.port, frame := w.frame, src := TxSource.waiting })
  let services := g.nodes.filterMap (fun e =>
    match e.2.services with
    | v :: _ => if v.sentIn.isNone then
        some { port := servicePort s r e.1, frame := requestFrame e.2.address v, src := TxSource.service e.1 } else none
    | [] => none)
  let safety := (List.range 128).filterMap (fun c =>
    if connUsed s c && par s Par.connMode c == 1 && (connNode s c).1 == r then
      match (s.conn c).out, nodeAt s r (connNode s c).2 with
      | some b, some p => some { port := routePort s r p, frame := messageFrame (connNode s c).2 6 (nextSeqOf s r p) b, src := TxSource.safety c }
      | _, _ => none
    else none)
  let tunnel := if g.tunnelOpen then
      (g.tunTx.take 1).map (fun f =>
        let p := (nodeAt s r f.address).getD 1
        { port := routePort s r p, frame := messageFrame f.address 3 (nextSeqOf s r p) f.bytes, src := TxSource.tunnel })
    else []
  waiting ++ services ++ safety ++ tunnel

/-- A frame of a number of bytes may leave a port now (R47): the port is free; while the cycle runs, 100 ns have passed since
the last burst has left it, and the last bit leaves by t0 + A. -/
def windowOpen (s : State) (r : Nat) (port : Port) (bytes : Nat) : Bool :=
  let g := s.ring r
  let now := s.time.now
  let free := match port with | .p => g.freeP | .q => g.freeQ
  let m := s.image
  let window := if usesRing m r then
      match (tget s.cyc.bursts [] r).find? (fun b => b.k == burstCount m) with
      | some b => Nat.ble (b.ends + 100 * nsU) now
      | none => false
    else true
  Nat.ble free now &&
    (!s.cyc.running || (window && Nat.ble (now + frameU bytes) (s.cyc.t0 + acyclicEnd m * nsU)))

/-- Uses up the next sequence number of a node. -/
def useSeq (s : State) (r p : Nat) : State := s.onNode r p (fun n => { n with seq := (n.seq + 1) % 65536 })

/-- A frame has left: its source notes it. A request that leaves while no cycle runs counts, once the cycle runs, as sent in cycle 0, so
that it is overdue at once; R106 bounds a request by cycles only (DESIGN CHOICE, log 29). -/
def txDone (r : Nat) (i : TxItem) (s : State) : State :=
  match i.src with
  | .waiting => s.onRing r (fun g => { g with waiting := g.waiting.drop 1 })
  | .service p =>
    s.onNode r p (fun n => { n with services := match n.services with
      | v :: l => { v with sentIn := some (if s.cyc.running then s.cyc.tick else 0) } :: l
      | [] => [] })
  | .safety c =>
    let s1 := match nodeAt s r (connNode s c).2 with | some p => useSeq s r p | none => s
    s1.onConn c (fun x => { (departMsg (safeNs s) x) with out := none })
  | .tunnel =>
    let s1 := match (s.ring r).tunTx with
      | f :: _ => (match nodeAt s r f.address with | some p => useSeq s r p | none => s)
      | [] => s
    s1.onRing r (fun g => { g with tunTx := g.tunTx.drop 1 })

/-- The ports of a ring are driven: the device is powered and not held in reset, and no frozen outputs hold them idle (R156). -/
def ringDriven (s : State) (r : Nat) : Bool := powered s && !s.power.resetLow && !s.power.portsIdle && Nat.blt r (ringCount s.var)

/-- The controller of a ring has failed its check: it sends no valid down frame (R33). -/
def ringSilent (s : State) (r : Nat) : Bool := s.dev.hwFaults.contains (r + 1)

/-- ACYCLIC_FRAME_TX (R33, R47, R104). -/
def execAcyclicFrameTx (dt : Nat) (ring : Nat) (s0 : State) : Out :=
  let s := advance dt s0
  if !ringDriven s ring || ringSilent s ring then .next s
  else
    match (txItems s ring).find? (fun i => windowOpen s ring i.port i.frame.length) with
    | none => .next s
    | some i =>
      let done := s.time.now + frameU i.frame.length
      let s1 := (txDone ring i s).onRing ring (fun g =>
        match i.port with | .p => { g with freeP := done } | .q => { g with freeQ := done })
      .next (drainTunTx ring 16 (sendFrames ring [{ port := i.port, frame := i.frame }] s1))

/-- A node whose service 0x04 failed keeps its address and is not bound. A node that joins stays blank, its waiting configuration is
dropped, and NODE_REFUSED names it (R119). -/
def failAssign (r p : Nat) (sv : Acyclic) (s : State) : State :=
  let keep (n : Node) : List Acyclic := if n.joined then n.services.filter (fun v => v.service != 5 || v.cmd != 0) else n.services
  let s1 := s.onNode r p (fun n => { n with bound := false, joined := false, services := keep n })
  if (s.node r p).joined then raiseWarn s1 Ev.nodeRefused Kind.node (nodeInst r sv.addr) else s1

/-- A node that refuses its configuration, or that joins and does not answer it (R119, R214): NODE_REFUSED. A node that joins stays unbound,
with the address that its 0x04 gave it: R119 does not say how it becomes blank again (DESIGN CHOICE, log 29). -/
def refuseConfig (r p : Nat) (sv : Acyclic) (s : State) : State :=
  let n := s.node r p
  let s1 := if sv.addr = 0 then s else s.onNode r p (fun n => { n with bound := false, joined := false })
  raiseWarn s1 Ev.nodeRefused Kind.node (nodeInst r (if sv.addr = 0 then n.address else sv.addr))

/-- A service of a node ends: with the node's answer, or with NODE_NO_RESPONSE (R106, R114, R119, R214, R674). -/
def endService (r p : Nat) (sv : Acyclic) (status : Nat) (reply : Bytes) (s : State) : State :=
  let s1 := s.onNode r p (fun n => { n with services := n.services.drop 1 })
  let good : Bool := status == St.ok
  let s2 :=
    if sv.cmd ≠ 0 then
      let reads := sv.cmd == Cmd.nodeParamRead || sv.cmd == Cmd.nodeParamWrite
      finishFirst s1 sv.cmd sv.addr status (if good && reads then b16 reply.length ++ zeros 2 ++ reply else [])
    else if sv.service = 4 then (if good then s1.onNode r p (fun n => { n with address := sv.addr }) else failAssign r p sv s1)
    else if sv.service = 5 then
      (if !good then (if status = St.nodeError ∨ sv.addr ≠ 0 then refuseConfig r p sv s1 else s1)
       else if sv.addr ≠ 0 then raiseInfo (setBound r p s1) Ev.nodeJoined Kind.node (nodeInst r sv.addr) else s1)
    else s1
  finishEnum s2

/-- The instant by which the response to a service that left in cycle `c` counts (R106); no bound while no cycle runs. -/
def responseEnd (s : State) (c : Nat) : Option Nat :=
  if s.cyc.running then some (tickU s.cyc.rate (c + 1) + acyclicEnd s.image * nsU) else none

/-- The node whose service a response answers (R106): the same sequence number and service, from the node's address. -/
def answeredNode (s : State) (r : Nat) (f : Bytes) : Option (Nat × Acyclic) :=
  (s.ring r).nodes.findSome? (fun e =>
    match e.2.services with
    | v :: _ =>
      let c := v.sentIn.getD 0
      let late := match responseEnd s c with | some t => Nat.blt t s.time.now | none => false
      if v.sentIn.isSome && !late && v.seq == uAt f 4 2 && v.service == uAt f 3 1 &&
          (e.2.address == uAt f 2 1 || (v.service == 4 && v.addr == uAt f 2 1)) then some (e.1, v) else none
    | [] => none)

/-- A response (R106, R674): an error response, or a reply longer than 224 bytes to a parameter service, is NODE_ERROR. The first frame
that answers ends the service whether or not it carries the last-segment flag of R102: no rule says how segments of a response are
joined (DESIGN CHOICE, log 29). -/
def takeResponse (r : Nat) (f : Bytes) (s : State) : State :=
  match answeredNode s r f with
  | none => s
  | some (p, v) =>
    let reply := slice f 16 (uAt f 6 2)
    let reads := v.service == 1 || v.service == 2
    let bad := bitOf (uAt f 8 1) 1 || (reads && Nat.blt 224 reply.length)
    let s1 := if v.resent then
        transient s 7 { source := Ev.acyclicLost, cls := Cls.info, kind := Kind.node, inst := nodeInst r (s.node r p).address }
      else s
    endService r p v (if bad then St.nodeError else St.ok) reply s1

/-- A tunnel frame from a node joins the queue of R107, or is discarded and counted. -/
def takeTunnel (r : Nat) (f : Bytes) (s : State) : State :=
  let n := uAt f 6 2
  let g := s.ring r
  if !g.tunnelOpen then s
  else if n < 60 ∨ 1514 < n ∨ 256 ≤ g.tunRx.length then s.onTun r (fun t => { t with rxDropped := min 65535 (t.rxDropped + 1) })
  else drainTunRx r 16 (s.onRing r (fun g => { g with tunRx := g.tunRx ++ [{ address := uAt f 2 1, bytes := slice f 16 n }] }))

/-- ACYCLIC_FRAME_RX (R78, R105 to R107). A safety message of service 0x06 reaches the safety unit in its own row. -/
def execAcyclicFrameRx (dt : Nat) (ring : Nat) (port : Port) (frame : Bytes) (s0 : State) : Out :=
  let s := relay ring port frame (advance dt s0)
  let fits := Nat.ble (24 + uAt frame 6 2) frame.length
  if !ringDriven s ring || !goodFrame frame || uAt frame 0 1 != 4 || uAt frame 1 1 != 0 || !fits then .next s
  else if bitOf (uAt frame 8 1) 0 then .next (takeResponse ring frame s)
  else if uAt frame 3 1 = 3 then .next (takeTunnel ring frame s)
  else .next s

/-- ACYCLIC_RESPONSE_TIMEOUT (R106): the request is sent once more with its number, and after that given up. -/
def execAcyclicResponseTimeout (dt : Nat) (node : Nat) (s0 : State) : Out :=
  let s := advance dt s0
  match nodeByInst s node with
  | none => .next s
  | some (r, p) =>
    match (s.node r p).services with
    | [] => .next s
    | v :: rest =>
      match v.sentIn with
      | none => .next s
      | some c =>
        let due := match responseEnd s c with | some t => Nat.blt t s.time.now | none => true
        if !due then .next s
        else if v.resent then
          .next (endService r p v St.nodeNoResponse [] (raiseWarn s Ev.acyclicLost Kind.node node 0 [] 2))
        else
          .next (s.onNode r p (fun n =>
            { n with resends := inc32 n.resends, services := { v with resent := true, sentIn := none } :: rest }))

end Sys2Proof.Machine
end

