-- ==== Sys2Proof/Machine/RingRx.lean ====
section
/-! DEFINITION. What arrives at the ring ports: up frames and their slices (R93 to R98, R170, R218), closures (R99, R109), the
gather deadline (R98), lost nodes (R110), breaks (R108), and the ring's calibration (R138 to R142). -/

namespace Sys2Proof.Machine

/-! ### Geometry of a pair (R569) -/

/-- The pair's port that a port of this unit stands for: of unit 2 the opposite one. -/
def pairPort (s : State) (p : Port) : Port := if s.pair.id = 2 then otherPort p else p
/-- t_tie in 1/16 ns: as measured last, before a first measurement tie_delay. -/
def tieNow (s : State) : Nat := if s.pair.tie = 0 then parN s Par.tieDelay 0 else s.pair.tie
/-- t_tie + lambda_F in units. -/
def tieOffset (s : State) : Int := ((tieNow s + 1600 : Nat) : Int) * 268435456
/-- An instant of departure at a port of this unit as the departure field of the copy gives it. -/
def depField (s : State) (own : Port) (at_ : Nat) : Nat :=
  if s.pair.id = 2 then (match own with | .p => ((at_ : Int) - tieOffset s).toNat | .q => ((at_ : Int) + tieOffset s).toNat) else at_
/-- An instant of arrival at a port of this unit referred to the pair's port. -/
def arrField (s : State) (own : Port) (at_ : Nat) : Nat :=
  if s.pair.id = 2 then (match own with | .p => ((at_ : Int) + tieOffset s).toNat | .q => ((at_ : Int) - tieOffset s).toNat) else at_

/-! ### Up frames (R93 to R98) -/

/-- The fields of an up frame (R93). -/
def upFields (f : Bytes) : UpFrame :=
  { nodeState := uAt f 3 1, alias_ := uAt f 4 2, status := uAt f 6 2, epochSeen := uAt f 8 4, holderSeen := uAt f 12 1,
    lostCycles := uAt f 13 1, arrivalQw := uAt f 24 4, arrivalPw := uAt f 28 4, sample := sAt f 32 4, apply_ := sAt f 36 4,
    applyTag := uAt f 40 1, residual := sAt f 44 4, slices := (f.take (f.length - 8)).drop 48 }

/-- Slices of a ring's node (R63). -/
def nodeSlices (m : Image) (r addr : Nat) : List Slice := (slices m).filter (fun x => x.ring == r && x.node == addr)

/-- A slice copy checks: its CRC-16 and its cycle tag (R92, R95). -/
def sliceGood (tag : Nat) (b : Bytes) : Bool := uAt b 1 1 == tag && uAt b 2 2 == crc16 (b.take 2 ++ b.drop 4)

/-- A measured delay of an axis, in 1/16 ns (R185, R216): out of range it is discarded. -/
def noteDelay (s : State) (a : Nat) (d : Int) : State :=
  if d ≤ 0 ∨ 32 * (s.period : Int) < d then
    raiseWarn (s.onAxis a (fun x => { x with delayDiscarded := inc32 x.delayDiscarded })) Ev.delayRange Kind.axis a
  else
    let n := d.toNat
    let s1 := s.onAxis a (fun x =>
      { x with delayMeas := n, delayUsed := n, delayKnown := true, delayMax := max x.delayMax (rdiv d 16).toNat })
    match pcentral s.image a with
    | some c =>
      if par s Par.axisMode a = 3 ∧ 1600 < (d - 16 * ((c.applyAt : Int) - c.sampleAt)).natAbs then
        raiseWarn s1 Ev.ccTiming Kind.axis a
      else s1
    | none => s1

/-- The measured delay that an up frame brings to an axis whose slice was fresh in the cycle before, unless its node extrapolates, and the
fresh slice that a mode-3 node did not apply (R185, R186, R233). -/
def delayFrom (n : Node) (u : UpFrame) (extrapolates : Bool) (a : Nat) (s : State) : State :=
  let last := s.cyc.tick - 1
  if (s.axis a).freshIn ≠ some last then s
  else if u.applyTag = last % 256 then
    match n.prevUp with
    | some v => if extrapolates then s else noteDelay s a (u.apply_ - v.sample)
    | none => s
  else if par s Par.axisMode a = 3 then
    raiseWarn (s.onAxis a (fun x => { x with applyMissed := inc32 x.applyMissed })) Ev.ccApplyMissed Kind.axis a
  else s

/-- The status of a drive as an up slice reports it: the brake sequence of R200 begins with bit 0. -/
def driveStatus (status : Nat) (a : Nat) (s : State) : State :=
  let x := s.axis a
  let s1 := s.onAxis a (fun x => { x with driveStatus := status, sto := bitOf status 3 })
  let s2 := match x.phase with
    | .powering _ =>
      if bitOf status 0 then
        s1.onAxis a (fun x => { x with phase := .braking s.time.now, control := if bitOf x.control 1 then x.control else x.control + ctlBrake })
      else s1
    | _ => s1
  if par s Par.axisMode a = 3 ∧ bitOf status 5 ∧ !bitOf x.driveStatus 5 then stoDisable (noteAxisFault s2 Ev.ccOvercurrent a) a else s2

/-- An up slice of an axis is taken (R95, R170, R173, R218, R229). The slices of a node in init are invalid (R137). V_dc belongs to the
sample: an invalid one leaves the factor as it was (R180; log 24). -/
def takeUpSlice (n : Node) (u : UpFrame) (b : Bytes) (a : Nat) (s : State) : State :=
  if u.nodeState = 1 ∨ sliceGood (s.cyc.tick % 256) b = false then missSample (delayFrom n u false a s) a
  else
    let cc : Bool := par s Par.axisMode a == 3
    let flags := uAt b 0 1
    let dcl := uAt b (if cc then 16 else 12) 2
    let s1 := s.onAxis a (fun x =>
      { x with sliceFlags := flags, dclink := dcl,
               torqueAct := if cc then x.torqueAct else sAt b 14 2,
               currents := if cc then [sAt b 10 2, sAt b 12 2, sAt b 14 2] else x.currents })
    let s2 := delayFrom n u (bitOf flags 2) a (driveStatus (uAt b (if cc then 18 else 10) 2) a s1)
    if bitOf flags 0 then takeSample (takeVdc s2 a dcl) a (signed 48 (uAt b 4 6)) (((s.cyc.t0 : Int) + u.sample * 268435456).toNat)
    else missSample s2 a

/-- RING_BREAK for a hop and the direction in which it is down (R108). -/
def reportBreak (r hop : Nat) (d : BreakDir) (s : State) : State :=
  raiseWarn s Ev.ringBreak Kind.ring r 0 (b8 hop ++ b8 (breakCode d))

/-- The direction in which a hop of a ring is broken, if it is. -/
def breakAt (g : Ring) (hop : Nat) : Option BreakDir := if g.breakHop = some hop then some g.breakDir else tfind g.breakHop2 hop

/-- Notes a broken hop: the first one and the further ones are held apart (R108, R110, R674). -/
def putBreak (hop : Nat) (d : BreakDir) (g : Ring) : Ring :=
  if g.breakHop.isNone ∨ g.breakHop = some hop then { g with breakHop := some hop, breakDir := d }
  else { g with breakHop2 := tput g.breakHop2 hop d }

/-- The direction that a hop's break has once a lane of it is found down in a direction, where that is new (R108). -/
def breakGrows (g : Ring) (hop : Nat) (d : BreakDir) : Option BreakDir :=
  match breakAt g hop with
  | none => some d
  | some .both => none
  | some o => if o = d then none else some .both

/-- A lane is down in a direction of a hop (R108): the break and its direction are noted, RING_BREAK is raised for what is new, and the
closures start anew. -/
def noteBreak (r hop : Nat) (d : BreakDir) (s : State) : State :=
  let s1 := s.onRing r (fun g => { g with closures := 0, heldClosures := 0, closedReported := false })
  match breakGrows (s.ring r) hop d with
  | some v => reportBreak r hop v (s1.onRing r (fun g => { putBreak hop v g with breakNew := g.breakNew.filter (· != hop) }))
  | none => s1

/-- An up frame shows a lane down (R108): the break is noted, and what is new is reported at the next tick, when the up frames of the nodes
on both sides of the hop are in. -/
def seeBreak (r hop : Nat) (d : BreakDir) (s : State) : State :=
  s.onRing r (fun g =>
    let h : Ring := { g with closures := 0, heldClosures := 0, closedReported := false }
    match breakGrows g hop d with
    | some v => { putBreak hop v h with breakNew := if g.breakNew.contains hop then g.breakNew else g.breakNew ++ [hop] }
    | none => h)

/-- The status bits 0 and 1 of an up frame locate the breaks beside its node (R93, R108): without a P-side receive the hop towards port
P is down Q-ward, without a Q-side receive the next hop is down P-ward. -/
def breaksSeen (r p : Nat) (u : UpFrame) (s : State) : State :=
  let s1 := if bitOf u.status 0 then s else seeBreak r (p - 1) .qWard s
  if bitOf u.status 1 then s1 else seeBreak r p .pWard s1

/-- The direction of a break that the evidence of a whole cycle gives (R99, R108): where the node that would see the other lane of the hop
is silent, that lane is down too unless the ring closed through it. -/
def breakJudged (g : Ring) (hop : Nat) (d : BreakDir) : BreakDir :=
  let silent := fun (p : Nat) => match tfind g.nodes p with | some n => n.bound && n.up.isNone | none => false
  match d with
  | .qWard => if silent hop && !g.closeP then .both else d
  | .pWard => if silent (hop + 1) && !g.closeQ then .both else d
  | .both => d

/-- The breaks that the up frames of a cycle showed are reported at the tick that ends it, one RING_BREAK a hop (R108). -/
def reportBreaks (r : Nat) (s : State) : State :=
  (s.ring r).breakNew.foldl (fun s hop =>
    match breakAt (s.ring r) hop with
    | some d =>
      let v := breakJudged (s.ring r) hop d
      reportBreak r hop v (s.onRing r (fun g => { putBreak hop v g with breakNew := g.breakNew.filter (· != hop) }))
    | none => s.onRing r (fun g => { g with breakNew := g.breakNew.filter (· != hop) })) s

/-- A first good copy of a node's up frame is taken (R98, R108, R137). The alias that it carries replaces the enumerated one at once, also
one that NODE_ALIAS_SET has stored since; bindings use it from the next CYCLE_START (DESIGN CHOICE, log 29). -/
def takeUp (r p : Nat) (f : Bytes) (s : State) : State :=
  let n := s.node r p
  let u := upFields f
  let inst := nodeInst r n.address
  let s1 := s.onNode r p (fun n =>
    { n with state := u.nodeState, alias_ := u.alias_, up := some u, lastUp := some u, missed := 0, lost := false, locked := u.nodeState != 1,
             firstSample := match n.firstSample with | some v => some v | none => some u.sample })
  let s2 := if n.locked && u.nodeState == 1 then raiseWarn s1 Ev.nodeClockRange Kind.node inst else s1
  (nodeSlices s.image r n.address).foldl (fun s x => takeUpSlice n u (slice f x.upOff x.upLen) x.axis s) (breaksSeen r p u s2)

/-- Counts a bad copy at a port for the node that its address byte names. -/
def badCopy (r : Nat) (port : Port) (f : Bytes) (s : State) : State :=
  match nodeAt s r (uAt f 1 1) with
  | some p =>
    if uAt f 1 1 = 0 then s
    else s.onNode r p (fun n => match port with | .p => { n with crcP := inc32 n.crcP } | .q => { n with crcQ := inc32 n.crcQ })
  | none => s

/-- UP_FRAME_RX (R78, R98, R124): the first copy that is good and of the current cycle, by t0 + G_r. -/
def execUpFrameRx (dt : Nat) (ring : Nat) (port : Port) (frame : Bytes) (s0 : State) : Out :=
  let s := relay ring port frame (advance dt s0)
  let own := pairPort s port
  if !s.cyc.running || !ringDriven s ring || uAt frame 0 1 != 2 then .next s
  else if !goodFrame frame then .next (badCopy ring own frame s)
  else
    match nodeAt s ring (uAt frame 1 1) with
    | none => .next s
    | some p =>
      let n := s.node ring p
      if n.bound && n.up.isNone && uAt frame 2 1 == s.cyc.tick % 256 &&
          Nat.ble s.time.now (s.cyc.t0 + gatherOf s.image ring * nsU) then .next (takeUp ring p frame s)
      else .next s

/-- GATHER_DEADLINE (R98): the slices of nodes without a good copy are invalid for the cycle. -/
def execGatherDeadline (dt : Nat) (ring : Nat) (s0 : State) : Out :=
  let s := advance dt s0
  if !s.cyc.running || !usesRing s.image ring || Nat.blt s.time.now (s.cyc.t0 + gatherOf s.image ring * nsU) ||
      (s.ring ring).gathered then .next s
  else
    let s1 := s.onRing ring (fun g =>
      { g with gathered := true, nodes := tmap g.nodes (fun _ n => if n.bound && n.up.isNone then { n with missed := n.missed + 1 } else n) })
    .next ((slices s.image).foldl (fun s x => if x.ring = ring then missSample s x.axis else s) s1)

/-- NODE_LOST (R110): no good copy in node_loss_cycles consecutive cycles; each of its axes faults. -/
def execNodeLost (dt : Nat) (node : Nat) (s0 : State) : Out :=
  let s := advance dt s0
  match nodeAt s (node / 64) (node % 64 + 1) with
  | none => .next s
  | some p =>
    let r := node / 64
    let n := s.node r p
    if n.bound && !n.lost && Nat.ble (parN s Par.nodeLossCycles 0) n.missed then
      let s1 := raiseWarn (s.onNode r p (fun n => { n with lost := true })) Ev.nodeLost Kind.node node
      .next ((nodeSlices s.image r n.address).foldl (fun s x => raiseAxis s Ev.nodeLost x.axis) s1)
    else .next s

/-! ### Closures and breaks (R99, R108 to R110) -/

/-- The frame is a good down burst that this ring's other port sent: its burst bit 3 names the port that it left (R82, R88, R99). -/
def ownBurst (s : State) (r : Nat) (port : Port) (f : Bytes) : Bool :=
  goodFrame f && uAt f 0 1 == 1 && uAt f 2 1 == r && bitOf (uAt f 1 1) 3 == (pairPort s port == .p)

/-- Both copies of a cycle have closed the ring. -/
def closedNow (g : Ring) : Bool := g.closeQ && g.closeP

/-- A closure of the present cycle, in the direction that ends at a port of the pair (R99). Burst 1 brings the loop delay in 1/16 ns: its
arrival less its departure and its residence (R138). -/
def noteClosure (end_ : Port) (k at_ residence : Nat) (g : Ring) : Ring :=
  let loop := fun (dep : Nat) => some ((at_ - dep) / 268435456 - residence)
  match end_ with
  | .q => { g with closeQ := true, closedQw := if k = 1 ∧ g.closedQw.isNone then loop g.depP else g.closedQw }
  | .p => { g with closeP := true, closedPw := if k = 1 ∧ g.closedPw.isNone then loop g.depQ else g.closedPw }

/-- A closure of the cycle before, by a burst that left in it and is back after the tick (R99, R109): where it completes that cycle, the
run of closed cycles goes on. -/
def lateClosure (end_ : Port) (g : Ring) : Ring :=
  let h : Ring := match end_ with | .q => { g with wasQ := true } | .p => { g with wasP := true }
  if h.wasQ && h.wasP && !(g.wasQ && g.wasP) then { h with closures := g.heldClosures + 1 } else h

/-- BURST_CLOSURE_RX (R99, R138): a good own burst is back at the opposite port, and counts for the cycle in which it left. -/
def execBurstClosureRx (dt : Nat) (ring : Nat) (port : Port) (frame : Bytes) (s0 : State) : Out :=
  let s := advance dt s0
  if !s.cyc.running || !ringDriven s ring || !usesRing s.image ring || !ownBurst s ring port frame then .next s
  else
    let tag := uAt frame 3 1
    if tag = s.cyc.tick % 256 then
      .next (s.onRing ring (noteClosure (pairPort s port) (uAt frame 1 1 % 8) (arrField s port s.time.now) (uAt frame 24 4)))
    else if (tag + 1) % 256 = s.cyc.tick % 256 then .next (s.onRing ring (lateClosure (pairPort s port)))
    else .next s

/-- The last hop of a ring: behind its last node; while an enumeration has not found the nodes yet, that of the most nodes. -/
def lastHop (s : State) (r : Nat) : Nat :=
  let g := s.ring r
  match g.enum with
  | some e => if e.done then g.nodes.length else nodeMax s.var
  | none => g.nodes.length

/-- LANE_SIGNAL_LOSS (R79, R108, R110, R126): a lane that loses signal or block lock, or is in the high-bit-error-rate state, is down. While
an enumeration has emptied the node list the break is noted for any hop the part may have; the second frame of R114 notes none, since
its count j is no evidence of R108 (DESIGN CHOICE, log 29). -/
def execLaneSignalLoss (dt : Nat) (ring : Nat) (hop : Nat) (dir : BreakDir) (s0 : State) : Out :=
  let s := advance dt s0
  .next (if !ringDriven s ring || Nat.blt (lastHop s ring) hop then s else noteBreak ring hop dir s)

/-- RING_CLOSED (R109): both copies have closed the ring in 64 consecutive cycles. -/
def execRingClosed (dt : Nat) (ring : Nat) (s0 : State) : Out :=
  let s := advance dt s0
  let g := s.ring ring
  if Nat.blt ring (ringCount s.var) && Nat.ble 64 g.closures && !g.closedReported then
    .next (raiseInfo (s.onRing ring (fun g => { g with closedReported := true, breakHop := none, breakHop2 := [], breakDir := .both }))
      Ev.ringClosed Kind.ring ring)
  else .next s

/-! ### Calibration (R138 to R142) -/

/-- Keeps the last 64 of a list, newest first. -/
def keep64 (v : Int) (l : List Int) : List Int := (v :: l).take 64

/-- u_i and v_i of a node in 1/16 ns, where both copies of burst 1 arrived (R94, R138). -/
def stampsOf (g : Ring) (t0 : Nat) (n : Node) : Option (Int × Int) :=
  match n.up with
  | some u =>
    if u.arrivalQw = 4294967295 ∨ u.arrivalPw = 4294967295 then none
    else some ((u.arrivalQw : Int) - ((g.prevDepP : Int) - t0) / 268435456, (u.arrivalPw : Int) - ((g.prevDepQ : Int) - t0) / 268435456)
  | none => none

/-- D_P, D_Q and theta of a node in 1/16 ns (R138), each rounded to the nearest, ties to even: the rule gives no rounding (DESIGN CHOICE,
log 29). -/
def nodeDelays (l : Int) (lam : Int) (uv : Int × Int) : Int × Int × Int :=
  (rdiv (l - lam + uv.1 - uv.2) 2, rdiv (l - lam - uv.1 + uv.2) 2, rdiv (uv.1 + uv.2 - l + lam) 2)

/-- A value joins a hop's last 64. -/
def hopValueIn (h : Nat) (v : Int) (g : Ring) : Ring :=
  let l := keep64 v (tget g.hops [] h)
  { g with hops := tput g.hops h l, hopMedians := tput g.hopMedians h (median l) }

/-- The hop values that the stamps of a cycle give (R138, R139); delays by position. -/
def hopsIn (n : Nat) (lam : Nat → Int) (dp dq : Nat → Option Int) (g : Ring) : Ring :=
  (List.range (n + 1)).foldl (fun g h =>
    if h = 0 then (match dp 1 with | some v => hopValueIn 0 v g | none => g)
    else if h = n then (match dq n with | some v => hopValueIn n v g | none => g)
    else match dp h, dp (h + 1) with
      | some a, some b => hopValueIn h (b - a - lam h) g
      | _, _ => g) g

/-- The planned maximum of a hop in ns (R62): hop 0 is hop_p, the others are the hop_max of the node before them. -/
def hopPlanned (m : Image) (r : Nat) (g : Ring) (h : Nat) : Option Nat :=
  if h = 0 then some (hopP m r)
  else ((pnodes m r).find? (fun e => e.addr == (tget g.nodes {} h).address)).map (·.hopMax)

/-- HOP_OVER_PLAN for a ring's hops, once per excursion (R141). -/
def judgeHops (r : Nat) (s : State) : State :=
  let g := s.ring r
  g.hopMedians.foldl (fun s e =>
    let past := match hopPlanned s.image r g e.1 with | some m => decide ((16 * m : Int) < e.2) | none => false
    let was := (s.ring r).hopOver.contains e.1
    if past && !was then
      raiseWarn (s.onRing r (fun g => { g with hopOver := g.hopOver ++ [e.1] })) Ev.hopOverPlan Kind.ring r 0 (b8 e.1)
    else if !past && was then s.onRing r (fun g => { g with hopOver := g.hopOver.filter (· != e.1) })
    else s) s

/-- NODE_CLOCK_RANGE for a node whose median lies outside 5 ns over 64 cycles, once per excursion (R142). -/
def judgeClock (r p : Nat) (s : State) : State :=
  let n := s.node r p
  let far : Bool := n.thetas.length == 64 && Nat.blt 80 n.clockOffset.natAbs
  let s1 := s.onNode r p (fun n => { n with clockRange := far })
  if far && !n.clockRange then raiseWarn s1 Ev.nodeClockRange Kind.node (nodeInst r n.address) else s1

/-- The calibration of a ring at a tick from the cycle that ended at it: its up frames hold the arrival stamps of the cycle before,
whose loop delay and departures the ring kept (R138 to R142). `t0` is the tick of that cycle before. -/
def calibrate (t0 : Nat) (r : Nat) (s : State) : State :=
  let g := s.ring r
  match g.prevLoop, g.breakHop with
  | some l, none =>
    let n := g.nodes.length
    let lam := fun p => 16 * (recLatency (tget g.nodes {} p).record : Int)
    let dd := g.nodes.map (fun e => (e.1, (stampsOf g t0 e.2).map (nodeDelays l (lam e.1))))
    let val := fun (p : Nat) => (dd.find? (fun e => e.1 == p)).bind (·.2)
    let s1 := s.onRing r (fun g =>
      let g1 := hopsIn n lam (fun p => (val p).map (·.1)) (fun p => (val p).map (·.2.1)) g
      { g1 with nodes := tmap g1.nodes (fun p n =>
          match val p with
          | some v => let t := keep64 v.2.2 n.thetas; { n with thetas := t, clockOffset := median t }
          | none => n) })
    judgeHops r ((positions s1 r).foldl (fun s p => judgeClock r p s) s1)
  | _, _ => s

/-- cal_delay_p and cal_delay_q of a position in 1/16 ns (R139). A hop without a median yet counts as 0: the spec does not say what an
entry carries before it (DESIGN CHOICE, log 29). -/
def calDelays (g : Ring) (p : Nat) : Nat × Nat :=
  let hop := fun h => (tget g.hopMedians 0 h).toNat
  let lam := fun k => 16 * recLatency (tget g.nodes {} k).record
  let n := g.nodes.length
  (hop 0 + ((List.range (p - 1)).map (fun k => lam (k + 1) + hop (k + 1))).sum,
   ((List.range (n + 1 - p)).map (fun k => hop (p + k))).sum + ((List.range (n - p)).map (fun k => lam (p + 1 + k))).sum)

/-- The next bound address for the calibration entry (R90). -/
def nextCal (g : Ring) : Nat :=
  let l := (g.nodes.filter (fun e => e.2.bound && e.2.address != 0)).map (fun e => e.2.address)
  match l.find? (fun a => Nat.blt g.calNode a) with
  | some a => a
  | none => l.head?.getD 0

end Sys2Proof.Machine
end

