-- ==== Sys2Proof/Machine/Gear.lean ====
section
/-! DEFINITION. Gearing (R193 to R196, R205, R206): the master position of a geared axis and the set-point that follows it; a stream that
is lost (R192, R206). -/

namespace Sys2Proof.Machine

/-- What a gearing master gives in a cycle: the value that the next cycle compares with, its increment since the last evaluation as
a numerator and a divisor in 2^-48 turn, its acceleration, and whether the input was valid. -/
structure Master where
  mark : Int
  num : Int := 0
  den : Int := 1
  acc : Int := 0
  ok : Bool := true

/-- An analogue input as a master reads it: `an_offset` + a × `an_scale` in units of 2^-48, from the latest result written at or before the
tick; none where it is not valid (R193, R443, R444). -/
def anMaster (s : State) (a : Nat) : Option Int :=
  (ainAt s (parN s Par.masterIndex a) s.cyc.t0).map (fun v => q48 (par s Par.anOffset a) + 2 * v * par s Par.anScale a)

/-- The master of a geared axis in this cycle (R193, R194). -/
def masterOf (s : State) (a : Nat) : Master :=
  let g := (s.axis a).gear
  let i := parN s Par.masterIndex a
  let step := fun (m : Int) => match g.lastMaster with | some l => m - l | none => 0
  match parN s Par.masterKind a with
  | 0 =>
    let k := (s.axis i).kin
    { mark := k.x, num := shortDiff (modQ s i) (step k.x), acc := k.a }
  | 1 =>
    let c := (s.enc i).latchCount
    { mark := c, num := (match g.lastMaster with | some l => readDiff c l | none => 0) * turnQ, den := max 1 (par s Par.pulsePerTurn a) }
  | 2 =>
    match anMaster s a with
    | some m => { mark := m, num := step m }
    | none => { mark := g.lastMaster.getD 0, ok := false }
  | _ =>
    match anMaster s a with
    | some v => let m := g.anPos + rdiv (v * s.period) 1000000000
                { mark := m, num := m - g.anPos }
    | none => { mark := g.anPos, ok := false }

/-- An analogue master that is invalid for fb_miss_max cycles is lost (R196). -/
def judgeMaster (s : State) (a : Nat) (ok : Bool) : State :=
  let s1 := s.onAxis a (fun x => { x with gear := { x.gear with badMaster := if ok then 0 else x.gear.badMaster + 1 } })
  if !ok && Nat.ble (parN s Par.fbMissMax a) (s1.axis a).gear.badMaster then loseMaster s1 a else s1

/-- The set-point that a geared axis takes from its master: position, velocity, acceleration, and the remainder of the division, which
the exact ratio carries (R194). -/
def gearStep (g : Gear) (k : Kin) (modulus period : Int) (m : Master) : Kin × Int :=
  let vm := m.num * 1000000000 / (m.den * period)
  if g.exact then
    let n := g.num * m.num + g.rem
    let d := (g.den : Int) * m.den
    ({ x := wrapPos modulus (k.x + n / d), v := g.num * vm / g.den, a := g.num * m.acc / g.den }, n % d)
  else
    ({ x := wrapPos modulus (k.x + rdiv (g.r * m.num) (4294967296 * m.den)), v := rdiv (g.r * vm) 4294967296,
       a := rdiv (g.r * m.acc + g.rdot * vm) 4294967296 }, 0)

/-- The set-point of a geared axis goes on with its present velocity and acceleration, in the cycle that has no earlier master value (R191). -/
def gearCoast (k : Kin) (modulus period : Int) : Kin :=
  { x := wrapPos modulus (k.x + rdiv (k.v * period) 1000000000), v := k.v, a := k.a }

/-- The set-point of a geared axis follows its master once in each cycle, with the ratio of the cycle's tick (R194, R195, R205, R206). In
the capture cycle it holds (R200), and it starts from the present x*, v* and a* (R191). -/
def gearAdvance (s : State) (a : Nat) : State :=
  let x := s.axis a
  let g := x.gear
  if x.source ≠ 3 ∨ g.doneIn = some s.cyc.tick then s
  else
    let m := masterOf s a
    let (k, rem) := if x.captureAt = some s.cyc.tick then (x.kin, g.rem)
      else if g.lastMaster = none then (gearCoast x.kin (modQ s a) s.period, g.rem) else gearStep g x.kin (modQ s a) s.period m
    judgeMaster (s.onAxis a (fun x => { x with
      kin := k, target := k.x,
      gear := { g with rem := rem, lastMaster := some m.mark, vm := m.num * 1000000000 / (m.den * s.period),
                       anPos := if parN s Par.masterKind a = 3 then m.mark else g.anPos, doneIn := some s.cyc.tick } })) a m.ok

/-- A master task evaluates the masters of the axes geared in its flow (R193). -/
def gearFlow (s : State) (f : Nat) : State :=
  (flowAxes s.image f).foldl gearAdvance s

/-- At the end of a cycle the masters that no task has evaluated advance too (R206). -/
def gearRest (s : State) : State := (allAxes s).foldl gearAdvance s

/-- The ratio of a ramp at a tick holds for the cycle that the tick opens (R195, R205, R206). -/
def gearTick (t : Nat) (x : Axis) : Axis :=
  if x.source = 3 then { x with gear := { x.gear with exact := !x.gear.ramping, r := (ratioAt x.gear t).1, rdot := (ratioAt x.gear t).2 } } else x

/-! ### Streams (R192, R206) -/

/-- The main task of an axis has not committed in a cycle in which it is due: as long as that is so, and when the cycle ends so, the
cycle counts as discarded (R53, R206). -/
def mainDiscarded (s : State) (a : Nat) : Bool :=
  (axisTasks s.image a).any (fun t => isMain s t && dueNow s t && (s.task t.index).phase != .committed)

/-- The stream miss count of an axis: in a discarded cycle that of the last committed one (R206). -/
def streamCount (s : State) (a : Nat) : Nat := if mainDiscarded s a then (s.axis a).streamKept else (s.axis a).streamRun

/-- The miss total of an axis since its enable, by the same rule (R206, R376). -/
def missTotal (s : State) (a : Nat) : Nat := if mainDiscarded s a then (s.axis a).missesKept else (s.axis a).streamMisses

/-- STREAM_LOST (R192, R206): stream_miss_max consecutive missing entries; the profile unit takes over and stops the axis. -/
def execStreamLost (dt : Nat) (axis : Nat) (s0 : State) : Out :=
  let s := advance dt s0
  let x := s.axis axis
  if x.source = 2 ∧ parN s Par.streamMissMax axis ≤ streamCount s axis ∧ x.faults.contains Ev.streamLost = false then
    .next (leaveSource (raiseAxis s Ev.streamLost axis) axis)
  else .next s

end Sys2Proof.Machine
end

