-- ==== Sys2Proof/Machine/Tasks.lean ====
section
/-! DEFINITION. The dispatcher's events and commands: tasks become ready, are dispatched, complete, overrun and fault (R284 to
R299), engines fault and are tested (R298 to R301), outputs and bundles are missed (R51, R56), and the statistics commands (R304
to R307). -/

namespace Sys2Proof.Machine

/-! ### Tasks -/

/-- What the device writes into the input block of a task that serves an axis: the axis record, and for a standard law the coefficient area,
whose layout is internal to the library, so that its words are free (R341; log 22). -/
def writeRecord (s : State) (t : PTask) : State :=
  if t.axis = 255 then s
  else if userLaw t.lawId then putWords s t.base (axisRecord s t)
  else
    let coefs := (List.range (t.inLen - 24)).map (fun j => Config.freeWord s.free (24 + j))
    { putWords s t.base (axisRecord s t ++ coefs) with free := s.free + 1 }

/-- TASK_READY (R284, R285, R291, R341): the axis record is written and the task joins the tail of its level. -/
def execTaskReady (dt : Nat) (task : Nat) (s0 : State) : Out :=
  let s := advance dt s0
  match ptask s.image task with
  | some t =>
    if s.cyc.running && dueNow s t && (s.task task).phase == .waiting && inputsThere s t && flowClear s t then
      let s2 := (writeRecord s t).onTask task (fun k => { k with phase := .ready, readyAt := s.time.now })
      .next (refill (noteDepth (s2.onLevel t.prio (joinTail s2 task)) t.prio))
    else .next s
  | none => .next s

/-- A read of a task's inputs with what ECC found (R23, R606 kind 3). -/
def noteEcc (s : State) (t : PTask) (ecc : EccRead) : State := noteRead s 3 ecc Kind.flow t.flow

/-- The permitted point at which the next slot would displace a standard law is that law's end: the law completes, and an ordinary switch
follows (R310). The row says so, since the points of a standard law are internal to the library. -/
def stdEnds (s : State) (read : PrefetchRead) : Bool :=
  read.stdEnds && ((s.engine read.engine).active.bind (ptask s.image)).any (fun u => !userLaw u.lawId)

/-- TASK_DISPATCH (R23, R287, R288, R291, R310): the prefetched candidate switches in as soon as the active slot is empty, or its task stands
at a permitted point, and the 32 clocks of the switch have passed. -/
def execTaskDispatch (dt : Nat) (read : PrefetchRead) (s0 : State) : Out :=
  let s := advance dt s0
  let engine := read.engine
  let g := s.engine engine
  match g.next.bind (ptask s.image) with
  | some t =>
    if !(s.cyc.running && serves s engine && Nat.ble g.nextReady s.time.now) then .next s
    else if read.ecc = .confirmed then .next (failInputs s t)
    else if stdEnds s read then .next s
    else match decideAt s engine t with
      | some at_ =>
        if at_ + 32 * clkU ≤ s.time.now then
          .next (refill (switchIn (noteEcc (freed s engine t) t read.ecc) engine t (at_ + 32 * clkU)))
        else .next s
      | none => .next s
  | none => .next s

/-- The active task of an engine that serves. -/
def activeTask (s : State) (e : Nat) : Option PTask := if serves s e then ((s.engine e).active).bind (ptask s.image) else none

/-- A law fault of the active task after a number of clocks (R298, R299). -/
def lawFaultTask (s : State) (e : Nat) (t : PTask) (code clocks : Nat) : State :=
  let s1 := slotEmpty (busyMore s e clocks) e (instantAt s t.index clocks)
  settle (abandonTask (s1.onEngine e (fun g => { g with lawFaults := inc32 g.lawFaults })) e 1 code t)

/-- A user task reaches its end: its results complete when the writeback has ended, or its fault or its overrun is judged. -/
def completeUser (s : State) (e : Nat) (t : PTask) : State :=
  let (c, runs) := runActive s e t (clockLimit s t)
  match c.fault with
  | some (code, _) => if s.time.now < instantAt s t.index c.clocks then s else lawFaultTask (noteRuns s t runs) e t code c.clocks
  | none =>
    if overran s t c then
      if s.time.now < instantAt s t.index (max c.clocks (clockLimit s t)) then s
      else overrunTask s e t
    else if s.time.now < instantAt s t.index (c.clocks + writeback t) then s
    else
      let s1 := slotEmpty (busyMore (s.onEngine e (fun g => { g with core := c })) e (c.clocks + writeback t)) e (instantAt s t.index c.clocks)
      completeTask (noteRuns s1 t runs) t (c.words c.inLen (c.stLen + c.outLen)) c.regs.es false

/-- A task of a standard law that took a number of clocks; a master task moves the set-points of its flow (R193). -/
def completeStd (s : State) (e : Nat) (t : PTask) (clocks : Nat) : State :=
  if clockLimit s t < clocks + writeback t then
    -- DONE lies before the end of the budget where the writeback alone exceeds it (R325)
    if s.time.now < instantAt s t.index (clockLimit s t) then s
    else overrunTask (if clocks ≤ clockLimit s t then noteSat s t (esStick 0 esSST (s.engine e).law.sat) else s) e t
  else if s.time.now < instantAt s t.index (clocks + writeback t) then s
  else
    let r := (s.engine e).law
    let s1 := slotEmpty (busyMore s e (clocks + writeback t)) e (instantAt s t.index clocks)
    let s2 := if t.lawId = lawMaster then gearFlow s1 t.flow else s1
    let s3 := { afterLaw s2 t with free := s2.free + 1 }
    completeTask s3 t (r.std ++ fillOut s2.free t.outLen r.outs) (esStick 0 esSST r.sat) r.volt

/-- The result of a task whose flow has changed its placement is discarded when its writeback ends: the task gives nothing in this cycle
(R297). What it ran counts (R293, R305, R325). -/
def dropStale (s : State) (e : Nat) (t : PTask) (clocks : Nat) : State :=
  let (c, runs) := if userLaw t.lawId then runActive s e t (clockLimit s t) else ({ clocks := clocks, done := true }, [])
  let n := c.clocks + (if c.done then writeback t else 0)
  if s.time.now < instantAt s t.index n then s
  else
    let s1 := slotEmpty (noteDone (noteRuns (busyMore s e n) t runs) t c) e (instantAt s t.index c.clocks)
    settle ((leaveEngine s1 t.index).onTask t.index (fun k => { k with phase := .failed }))

/-- TASK_COMPLETE (R23, R290, R292, R293, R295, R297, R298, R309): the writeback of the active task ends. A double-bit error in the engine's
memories that the re-read confirms is an engine fault. -/
def execTaskComplete (dt : Nat) (read : EngineRead) (clocks : Nat) (s0 : State) : Out :=
  let engine := read.engine
  let s := noteRead (advance dt s0) 2 (if (activeTask (advance dt s0) engine).isSome then read.ecc else .clean) Kind.engine engine
  match activeTask s engine with
  | some t =>
    if read.ecc = .confirmed then .next (faultEngine s engine 2)
    else if (s.engine engine).epoch ≠ (s.flow t.flow).epoch then .next (dropStale s engine t clocks)
    else if userLaw t.lawId then .next (completeUser s engine t)
    else .next (completeStd s engine t clocks)
  | none => .next s

/-- TASK_OVERRUN (R54, R292, R296, R309): the budget of the active task is exhausted. The program of a user law tells when; a task of a
standard law whose writeback ends with the budget completes. -/
def execTaskOverrun (dt : Nat) (engine : Nat) (s0 : State) : Out :=
  let s := advance dt s0
  match activeTask s engine with
  | some t =>
    if userLaw t.lawId then
      let c := (runActive s engine t (clockLimit s t)).1
      if c.fault.isNone ∧ overran s t c then .next (completeUser s engine t) else .next s
    else if instantAt s t.index (clockLimit s t) < s.time.now then .next (overrunTask s engine t)
    else .next s
  | none => .next s

/-- LAW_FAULT (R298, R299, R338): a task of a user law faults where its program does. -/
def execLawFault (dt : Nat) (engine : Nat) (code : Nat) (s0 : State) : Out :=
  let s := advance dt s0
  match activeTask s engine with
  | some t =>
    if userLaw t.lawId then
      if ((runActive s engine t (clockLimit s t)).1.fault.map (·.1)) = some code then .next (completeUser s engine t) else .next s
    else if 1 ≤ code ∧ code ≤ 5 then .next (lawFaultTask s engine t code (clocksAt s t.index s.time.now))
    else .next s
  | none => .next s

/-! ### Engines -/

/-- The device is up: its engines run. -/
def enginesUp (s : State) : Bool :=
  match s.dev.mode with
  | .off | .standby | .boot => false
  | _ => true

/-- ENGINE_FAULT (R298, R300). -/
def execEngineFault (dt : Nat) (engine : Nat) (s0 : State) : Out :=
  let s := advance dt s0
  if enginesUp s && Nat.blt engine (engineCount s.var) then .next (faultEngine s engine) else .next s

/-- Clocks since the last permitted point of the active task. Of a user law the program tells it; the points of a standard law are
internal to the library, and its stretch in the active slot counts (R294; log 41). -/
def sincePoint (s : State) (e : Nat) (t : PTask) : Nat :=
  let n := clocksAt s t.index s.time.now
  if userLaw t.lawId then n - (lastPoint s n (n + 1) (s.engine e).core) else n - (s.task t.index).used

/-- ENGINE_STALL (R294, R298): 65,600 clocks without a permitted point. -/
def execEngineStall (dt : Nat) (engine : Nat) (s0 : State) : Out :=
  let s := advance dt s0
  match activeTask s engine with
  | some t => if 65600 ≤ sincePoint s engine t then .next (faultEngine s engine) else .next s
  | none => .next s

/-- ENGINE_TEST_DONE (R300): the memory test passes or fails. -/
def execEngineTestDone (dt : Nat) (engine : Nat) (pass : Bool) (s0 : State) : Out :=
  let s := advance dt s0
  let g := s.engine engine
  if g.state = .underTest ∧ engine < engineCount s.var then
    if pass && !g.testBad then
      .next (refill (transient (s.onEngine engine (fun g => { g with state := .inService, returning := true, core := {} })) 10
        { source := Ev.engineFault, cls := Cls.info, kind := Kind.engine, inst := engine }))
    else
      .next (raiseWarn ((noteCheck s).onEngine engine (fun g => { g with state := .lost, testBad := false })) Ev.engineLost Kind.engine engine 0 [] 2)
  else .next s

/-! ### Missed outputs (R51, R56) -/

/-- BUNDLE_DEADLINE_FAIL (R51): the latest burst's deadline has passed without the bundle's commit. -/
def execBundleDeadlineFail (dt : Nat) (bundle : Nat) (s0 : State) : Out :=
  let s := advance dt s0
  match pbundle s.image bundle with
  | some b =>
    if s.cyc.running && !(dueMembers s bundle).isEmpty && Nat.blt (bundleLimit s b) s.time.now then .next (settle (failBundle s bundle))
    else .next s
  | none => .next s

/-- OUTPUT_MISSED (R56, R230): two consecutive cycles without the output, or the cascade, of an axis outside any bundle. -/
def execOutputMissed (dt : Nat) (axis : Nat) (s0 : State) : Out :=
  let s := advance dt s0
  let x := s.axis axis
  if 2 ≤ x.outMisses ∧ x.outRaised = false then
    .next (raiseAxis (s.onAxis axis (fun x => { x with outRaised := true })) Ev.outputMissed axis 0 [] 2)
  else if 2 ≤ x.cascMisses ∧ x.cascRaised = false then
    .next (raiseAxis (s.onAxis axis (fun x => { x with cascRaised := true })) Ev.outputMissed axis 0 [] 2)
  else .next s

/-- The axes that a bundle serves. -/
def bundleAxes (m : Image) (b : Nat) : List Nat :=
  (((ptasks m).filter (fun t => t.bundle == b && t.axis != 255)).map (·.axis)).eraseDups

/-- An axis follows the path of a group: it is a member, and the group moves or is held on a path (R259). -/
def onPath (s : State) (g a : Nat) : Bool := (s.group g).members.contains a && (s.group g).prof != .idle

/-- A group fault of one axis: it stops with its remaining distance kept and stays enabled. -/
def holdFaulted (src : Nat) (s : State) (a : Nat) : State :=
  requestStop true false (s.onAxis a (fun x => { x with faults := addFault src x.faults })) a

/-- BUNDLE_FAILED (R56, R231): two consecutive failures are a group fault of the axes that the bundle serves. The group of the bundle holds
its path, and each axis that does not follow that path stops by itself. -/
def execBundleFailed (dt : Nat) (bundle : Nat) (s0 : State) : Out :=
  let s := advance dt s0
  let b := s.bundle bundle
  if 2 ≤ b.misses ∧ b.raised = false then
    let s1 := s.onBundle bundle (fun b => { b with raised := true })
    match pbundle s.image bundle with
    | some p =>
      if p.group < 16 then
        let others := (bundleAxes s.image bundle).filter (fun a => !onPath s p.group a)
        .next (others.foldl (holdFaulted Ev.bundleFailed) (raiseGroup s1 Ev.bundleFailed Kind.bundle bundle p.group 2))
      else
        let s2 := countFault (raiseOnly s1 { source := Ev.bundleFailed, cls := Cls.group, kind := Kind.bundle, inst := bundle, flags := 2 }) (nowNs s1)
        .next ((bundleAxes s.image bundle).foldl (holdFaulted Ev.bundleFailed) s2)
    | none => .next s
  else .next s

/-! ### Statistics commands (R304 to R307) -/

/-- DISPATCH_ENGINE_STATS (R305). -/
def dispatchEngineStatsBody (s : State) (q : Request) (_ : Nat) : Reply :=
  let p := q.payload
  let e := uAt p 0 1
  inst e 16 (engineCount s.var) <|
  need (resv p 1 3) (.ok s ((tfind s.disp.snap.engines e).getD (engineStats { s with disp := { engines := [] } } e)))

/-- DISPATCH_LEVEL_STATS (R306). -/
def dispatchLevelStatsBody (s : State) (_ : Request) (_ : Nat) : Reply := .ok s (slice s.disp.snap.levels 0 64)

/-- DISPATCH_FLOW_STATS (R307). -/
def dispatchFlowStatsBody (s : State) (q : Request) (_ : Nat) : Reply :=
  let p := q.payload
  let f := uAt p 0 2
  need (resv p 2 2 && (pflow s.image f).isSome) (.ok s ((tfind s.disp.snap.flows f).getD (flowStats s f)))

/-- DISPATCH_STATS_CLEAR (R304): maxima, counts and histograms; busy_avg is kept. -/
def dispatchStatsClearBody (s : State) (_ : Request) (_ : Nat) : Reply :=
  let d := s.disp
  .ok { s with disp := { d with
    engines := tmap d.engines (fun _ g => { g with busyMax := 0, overruns := 0, lawFaults := 0, engFaults := 0, preemptions := 0 }),
    flows := tmap d.flows (fun _ f => { f with bins := [], waitMax := 0 }),
    levels := [] } } []

/-- DISPATCH_ENGINE_STATS -/
def execDispatchEngineStats (dt : Nat) (q : Request) (s : State) : Out := .next (serve Cmd.dispatchEngineStats dispatchEngineStatsBody dt q s)
/-- DISPATCH_LEVEL_STATS -/
def execDispatchLevelStats (dt : Nat) (q : Request) (s : State) : Out := .next (serve Cmd.dispatchLevelStats dispatchLevelStatsBody dt q s)
/-- DISPATCH_FLOW_STATS -/
def execDispatchFlowStats (dt : Nat) (q : Request) (s : State) : Out := .next (serve Cmd.dispatchFlowStats dispatchFlowStatsBody dt q s)
/-- DISPATCH_STATS_CLEAR -/
def execDispatchStatsClear (dt : Nat) (q : Request) (s : State) : Out := .next (serve Cmd.dispatchStatsClear dispatchStatsClearBody dt q s)

end Sys2Proof.Machine
end

