-- ==== Sys2Proof/Machine/Cycle.lean ====
section
/-! DEFINITION. The plan and cycle commands (R58, R66, R71 to R76, R673, R703), the activation and the switch of plans (R73, R74,
R286, R314), the start and the stop of the cycle (R29, R76, R394, R440, R553), placements (R302, R303) and failures of the cycle
hardware (R33). -/

namespace Sys2Proof.Machine

/-! ### Plan buffers (R72, R703) -/

/-- A verification runs or a switch is armed (R703). -/
def planBusy (s : State) : Bool := s.plan.standbySt == .verifying || s.plan.standbySt == .armed

/-- PLAN_LOAD (R72, R671, R673, R703). -/
def planLoadBody (s : State) (q : Request) (_ : Nat) : Reply :=
  let p := q.payload
  let o := uAt p 0 4
  let data := p.drop 8
  need (resv p 4 4 && Nat.ble (o + data.length) 524288) <|
  orElse (!planBusy s) St.badState <|
  .ok { s with plan := { s.plan with standby := memWrite (if o = 0 then [] else s.plan.standby) o data, standbySt := .unverified } } []

/-- PLAN_COMMIT (R66, R72, R74, R703): the verification starts, and the response waits for its end (log 30). -/
def planCommitBody (s : State) (q : Request) (_ : Nat) : Reply :=
  let n := uAt q.payload 0 8
  need (n % 256 == 0) <|
  orElse (!planBusy s) St.badState <|
  .later { s with plan := { s.plan with verifying := some n, verifyMb := q.mb, standbySt := .verifying } }

/-- Place of the stored plan in MRAM (R22). -/
abbrev storedPlanAt : Nat := 1179648

/-- PLAN_STORE (R72, R673). -/
def planStoreBody (s : State) (_ : Request) (_ : Nat) : Reply :=
  match s.plan.active with
  | none => .err St.planNone []
  | some m => .ok { s with mem := { s.mem with mram := memPaste s.mem.mram storedPlanAt 524288 m, planStored := true } } []

/-- PLAN_RECALL (R72, R703). -/
def planRecallBody (s : State) (_ : Request) (_ : Nat) : Reply :=
  orElse (!planBusy s) St.badState <|
  orElse s.mem.planStored St.planNotStored <|
  .ok { s with plan := { s.plan with standby := memSlice s.mem.mram storedPlanAt 524288, standbySt := .unverified } } []

/-- Code of a standby state (R703). -/
def standbyCode : Standby → Nat
  | .empty => 0 | .unverified => 1 | .verifying => 2 | .verified => 3 | .armed => 4

/-- PLAN_STATUS (R673, R703). -/
def planStatusBody (s : State) (_ : Request) (_ : Nat) : Reply :=
  let p := s.plan
  .ok s (b32 (planId s.image) ++ b32 (if p.standbySt = .empty then 0 else planId p.standby) ++ b8 (standbyCode p.standbySt) ++
    b8 (planRate s.image) ++ zeros 2 ++ b64 (p.armed.getD 0) ++ b16 p.budgetUse ++ zeros 2 ++ b32 s.tru.derating)

/-- PLAN_LOAD -/
def execPlanLoad (dt : Nat) (q : Request) (s : State) : Out := .next (serve Cmd.planLoad planLoadBody dt q s)
/-- PLAN_COMMIT -/
def execPlanCommit (dt : Nat) (q : Request) (s : State) : Out := .next (serve Cmd.planCommit planCommitBody dt q s)
/-- PLAN_STORE -/
def execPlanStore (dt : Nat) (q : Request) (s : State) : Out := .next (serve Cmd.planStore planStoreBody dt q s)
/-- PLAN_RECALL -/
def execPlanRecall (dt : Nat) (q : Request) (s : State) : Out := .next (serve Cmd.planRecall (withRead Cmd.planRecall planRecallBody) dt q s)
/-- PLAN_STATUS -/
def execPlanStatus (dt : Nat) (q : Request) (s : State) : Out := .next (serve Cmd.planStatus planStatusBody dt q s)

/-! ### Activation (R69, R72, R74, R286, R314) -/

/-- The buffers are exchanged (R72, R703). -/
def exchange (s : State) : State :=
  let p := s.plan
  { s with plan := { p with active := some p.standby, standby := p.active.getD [],
                            standbySt := if p.active.isSome then .verified else .empty, verifying := none, armed := none,
                            verifiedAt := planDerating s } }

/-- The budget use of the plan that has become active (R69). -/
def noteNewPlan (s : State) : State :=
  noteOut s true (verifyPlan s s.image (planDerating s) false)

/-- The state blocks of tasks are zeroed (R53, R339). -/
def zeroBlocks (ts : List PTask) (s : State) : State :=
  { s with mem := { s.mem with sram := ts.foldl (fun m t => memZero m (t.base + 4 * t.inLen) (4 * t.stLen)) s.mem.sram } }

/-- The task of the former plan that a task of the new one continues: of the same enabled axis, with the same law and data window
(R73). -/
def formerTask (s : State) (old : Image) (t : PTask) : Option PTask :=
  if t.axis != 255 && axisOn (s.axis t.axis) then
    (axisTasks old t.axis).find? (fun u =>
      u.lawId == t.lawId && u.base == t.base && u.inLen == t.inLen && u.stLen == t.stLen && u.outLen == t.outLen)
  else none

/-- What tasks carry over a switch: the continued ones their states, the others nothing (R73; log 31). -/
def carryTasks (s : State) (old : Image) : State :=
  let m := s.image
  let s1 := zeroBlocks ((ptasks m).filter (fun t => (formerTask s old t).isNone)) s
  { s1 with cyc := { s1.cyc with
      tasks := [], bundles := [],
      long := (ptasks m).map (fun t => (t.index, match formerTask s old t with
        | some u => { s.long u.index with parked := false }
        | none => {})) } }

/-- The checks that a plan switch repeats: notches, groups (R189, R260). -/
def recheckPlan (s : State) : State := (List.range 16).foldl checkBundled (judgeNotches s)

/-- Every plan activation starts with the conditions of R708 ended. -/
def endExcursions (s : State) : State :=
  { s with ev := { s.ev with storm := false },
           rings := tmap s.rings (fun _ g => { g with hopOver := [], nodes := tmap g.nodes (fun _ n => { n with clockRange := false }) }) }

/-- A verified plan becomes the active one (R72, R286). -/
def activate (s : State) : State :=
  let old := s.image
  recheckPlan (noteNewPlan (placeHome (carryTasks (exchange (endExcursions s)) old)))

/-- The stream miss count stays at that of the last committed cycle where the task of a cycle is discarded (R206). -/
def keepStreams (s : State) : State :=
  { s with axes := tmap s.axes (fun a x =>
      if x.source ≠ 2 then x else
        { x with streamRun := streamCount s a, streamKept := streamCount s a, streamMisses := missTotal s a, missesKept := missTotal s a }) }

/-- The end of a cycle: masters that no task has evaluated, stream miss counts, the dispatcher's tasks (R57, R206). -/
def endOfCycle (s : State) : State := closeCycle (keepStreams (gearRest s))

/-- The plan switch at its tick (R73, R74, R314): the cycle that ends is closed under the plan that it ran. -/
def switchPlan (n : Nat) (s : State) : State :=
  let s1 := if s.cyc.running then
      (let c := endOfCycle s
       ({ c with cyc := { c.cyc with closed := true } } : State))
    else s
  let s2 := activate s1
  let s3 := if s2.cyc.running then checkSsi s2.period (checkConns s2.image s2) else s2
  finish s3 Cmd.planCommit 0 St.ok (b64 n)

/-- The switch that is due at a tick: where an axis that was enabled since the verification breaks the hot-switch rule, the plan no longer
fits and the switch is cancelled, as under R75 (R73; log 47). -/
def dueSwitch (n : Nat) (s : State) : State :=
  match (if s.cyc.running then verifyHot s s.plan.standby else none) with
  | none => switchPlan n s
  | some r =>
    finish { s with plan := { s.plan with armed := none, standbySt := .unverified } } Cmd.planCommit 0 (stepStatus r.step) (refusedBytes r)

/-- Rate on whose period the tick number of a switch counts (R74): that of the active plan; without one that of the standby plan. -/
def switchRate (s : State) : Nat :=
  if s.cyc.running then s.cyc.rate else match s.plan.active with | some m => planRate m | none => planRate s.plan.standby

/-- Arms a switch, or finds that its tick has passed (R74). -/
def armSwitch (s : State) (named : Nat) : State :=
  let per := periodNs (switchRate s) * nsU
  let n := if named = 0 then (s.time.now / per / 256 + 1) * 256 else named
  let mb := s.plan.verifyMb
  if named ≠ 0 ∧ named * per ≤ s.time.now then
    respondLater { s with plan := { s.plan with verifying := none, standbySt := .verified } } mb Cmd.planCommit St.planSwitchLate []
  else
    let tag := match tfind s.host.running mb with | some r => r.tag | none => 0
    let s1 : State := { s with plan := { s.plan with verifying := none, armed := some n, standbySt := .armed } }
    respondLater (addPend s1 Cmd.planCommit { mb := mb, tag := tag, payload := [] } 0) mb Cmd.planCommit St.pend []

/-- First tick of a cycle (R76): the first number with N mod 256 = 0 at least 1 ms after an instant in ns. -/
def firstTick (rate at_ : Nat) : Nat := cdivN (at_ + 1000000) (256 * periodNs rate) * 256

/-- In CONFIG a verified plan becomes active at once (R72); a start that waits for its first tick counts it under the new plan. -/
def activateNow (s : State) : State :=
  let s1 := activate s
  { s1 with cyc := { s1.cyc with first := s1.cyc.first.map (fun _ => firstTick (planRate s1.image) (nowNs s1)) } }

/-- PLAN_VERIFY_DONE (R66, R71, R72, R74, R632, R703). -/
def execPlanVerifyDone (dt : Nat) (s0 : State) : Out :=
  let s := advance dt s0
  match s.plan.verifying with
  | none => .next s
  | some n =>
    match verifyPlan s s.plan.standby (planDerating s) s.cyc.running with
    | .error r =>
      .next (respondLater { s with plan := { s.plan with verifying := none, standbySt := .unverified } } s.plan.verifyMb Cmd.planCommit
        (stepStatus r.step) (refusedBytes r))
    | .ok _ =>
      if s.dev.mode = .config then .next (respondLater (activateNow s) s.plan.verifyMb Cmd.planCommit St.ok [])
      else .next (armSwitch s n)

/-- PLAN_SWITCH (R74): the armed tick, which while the cycle runs is the next one. -/
def execPlanSwitch (s : State) : Out :=
  match s.plan.armed with
  | none => .next s
  | some n =>
    if s.cyc.running then
      if n = s.cyc.tick + 1 then .next (dueSwitch n (advanceTo (tickU s.cyc.rate n) s)) else .next s
    else .next (switchPlan n (advanceTo (tickU (switchRate s) n) s))

/-! ### CYCLE_START (R29, R66, R76, R116, R117, R650) -/

/-- The active plan needs the local axis unit and its domain is off (R650). -/
def needsDomain (s : State) : Bool := (slices s.image).any (fun x => x.ring == 255) && s.dma.domainsOff.contains 2

/-- Rings that the plan uses. -/
def planRings (s : State) : List Nat := (List.range (ringCount s.var)).filter (usesRing s.image)

/-- The status with which the rings refuse a start (R116, R117): ALIAS_CONFLICT before RING_MISMATCH, 0 for none. -/
def ringsStatus (s : State) : Nat :=
  let l := (planRings s).map (fun r => bindStatus s.image r (s.ring r))
  if l.contains St.aliasConflict then St.aliasConflict else if l.contains St.ringMismatch then St.ringMismatch else 0

/-- Nodes are bound on every ring of the plan; those of a ring without a section are unbound. -/
def bindRings (s : State) : State :=
  (List.range (ringCount s.var)).foldl (fun s r =>
    if usesRing s.image r then bindRing s.image r s
    else s.onRing r (fun g => { g with nodes := tmap g.nodes (fun _ n => { n with bound := false }) })) s

/-- Services 0x05 to every bound node (R137). -/
def configureNodes (s : State) : State :=
  (List.range (ringCount s.var)).foldl (fun s r =>
    (positions s r).foldl (fun s p => if (s.node r p).bound then configureNode r p 0 s else s) s) s

/-- An object whose values of kind "at next enable" the next CYCLE_START takes: those of the local axis unit, and fb_local (R14, R421). -/
def isLocalObj (n : Nat) : Bool := n / 1048576 == 6 || n / 256 == 0x4160

/-- What an accepted CYCLE_START does (R15, R76, R137). -/
def acceptStart (s : State) (q : Request) (t : Nat) : Reply :=
  let s1 := parPromote (parPromote s (fun _ _ => true) .cycleStart) (fun n _ => isLocalObj n) .enable
  let s2 := configureNodes s1
  .pend (addPend { s2 with cyc := { s2.cyc with first := some (firstTick (planRate s2.image) t) } } Cmd.cycleStart q)

/-- CYCLE_START (R29, R66, R76, R673). -/
def cycleStartBody (s : State) (q : Request) (t : Nat) : Reply :=
  orElse s.cyc.first.isNone St.badState <|
  match s.plan.active with
  | none => .err St.planNone []
  | some m =>
    let again : Except Refused (Nat × Nat) :=
      if s.plan.verifiedAt = s.tru.derating then .ok (0, 1) else verifyPlan s m s.tru.derating false
    match again with
    | .error r => .err (stepStatus r.step) (refusedBytes r)
    | .ok u =>
      let s1 := if s.plan.verifiedAt = s.tru.derating then s
        else noteUse { s with plan := { s.plan with verifiedAt := s.tru.derating } } u false
      orElse (!needsDomain s1) St.badState <|
      let st := ringsStatus s1
      if st ≠ 0 then .errWith ((planRings s).foldl (fun s r => bindAlarms s.image r s) s) st [] else acceptStart (bindRings s1) q t

/-- CYCLE_START -/
def execCycleStart (dt : Nat) (q : Request) (s : State) : Out := .next (serve Cmd.cycleStart cycleStartBody dt q s)

/-! ### The first tick and the stop -/

/-- An axis as a cycle finds it at its start. -/
def startAxis (x : Axis) : Axis :=
  { x with
    fb := none, fbPrev := none, lastRaw := none, fbRem := 0, fbValid := false, fbThisCycle := false, sample := none, posPart := none,
    curPart := none, invalidRun := 0,
    feCycles := 0, streamRun := 0, streamKept := 0, missesKept := x.streamMisses, outMisses := 0, outRaised := false, cascMisses := 0,
    cascRaised := false, out := {}, applyStamp := none, applySmp := none, freshIn := none,
    captureAt := none, delayKnown := false, idleAt := none, vfb := 0 }

/-- A node as a cycle finds it at its start. -/
def startNode (n : Node) : Node := { n with up := none, prevUp := none, lastUp := none, missed := 0, lost := false }

/-- A ring as a cycle finds it at its start. -/
def startRing (g : Ring) : Ring :=
  { g with nodes := tmap g.nodes (fun _ n => startNode n), closedQw := none, closedPw := none, prevLoop := none, depP := 0, depQ := 0,
           prevDepP := 0, prevDepQ := 0, gathered := false, window := false, windowWas := false, waiting := [], sent := [],
           closeQ := false, closeP := false, wasQ := false, wasP := false, heldClosures := 0 }

/-- The header of the process image (R374). -/
def writePiHead (s : State) (latest : Option Nat) : State :=
  let cur := if s.cyc.running then 1 else 0
  let l := match latest with | some n => b32 n | none => s.sramRead piHead 4
  s.sramWrite piHead (l ++ b8 s.cyc.rate ++ b8 cur ++ zeros 2 ++ b32 s.period)

/-- The cycle begins at a tick: every unit that runs with it starts (R76, R286, R374, R394, R440, R550, R696). -/
def startCycle (n : Nat) (s : State) : State :=
  let rate := planRate s.image
  let s1 : State := { s with
    cyc := { running := true, rate := rate, tick := n, t0 := tickU rate n },
    axes := tmap s.axes (fun _ x => startAxis x), rings := tmap s.rings (fun _ g => startRing g) }
  let s2 := placeHome (zeroBlocks (ptasks s1.image) s1)
  let s3 := writePiHead (startInputs (startTimers (clearTouts s2))) none
  let s4 := checkConns s3.image (checkSsi s3.period s3)
  (List.range 4).foldl (fun s j => if (tget s.pwm.trips {} j).low ∧ hasLocal s.var then setTrip s j else s) s4

/-- CYCLE_START is confirmed at its first tick, with the change to PREOP (R29, R76). -/
def beginCycle (n : Nat) (s : State) : State := finish (changeState (startCycle n (releaseEngines s)) .preop) Cmd.cycleStart 0 St.ok (b64 n)

/-- What ends with the cycle once its axes are disabled: timers and inputs stop, breaks that wait for a tick are reported, and a rate that
ramps takes its value at once (R29, R108, R374, R394, R465). -/
def endUnits (s0 : State) : State :=
  let s1 := (List.range (ringCount s0.var)).foldl (fun s r => reportBreaks r s) s0
  let s2 : State := { s1 with
    host := { s1.host with snapTick := none },
    rings := tmap s1.rings (fun _ g => { g with waiting := [] }),
    time := retuneNow s1.time,
    cyc := { s1.cyc with running := false, tasks := [], bundles := [], bursts := [], first := none, closed := false },
    disp := { s1.disp with
      ready := [],
      engines := tmap s1.disp.engines (fun _ g => { g with
        active := none, next := none, chain := [], busyNow := 0 }) } }
  stopInputs (stopTimers (writePiHead (stressSync s2) none))

/-- The cycle ends by CYCLE_STOP: the axes are disabled with it (R29). -/
def endCycle (s0 : State) : State :=
  let s := settleTruing (stressSync s0)
  endUnits ((allAxes s).foldl (fun s a => if (s.axis a).phase = .disabled then s
    else stoDisable (if enabling (s.axis a) then abortEnable s a else s) a) s)

/-- A unit that stands at once where a stop has begun, with what the stop keeps of its move (R33, R255). -/
def haltUnit (s : State) (a : Nat) (x : Axis) : Axis :=
  if x.prof ≠ .stopping then x
  else if x.keep then standStill (modQ s a) { x with keep := false } x.kin.x .held (x.target - x.kin.x)
  else standStill (modQ s a) x x.kin.x .idle 0

/-- A group path that stands at once where a hold has begun. -/
def haltGroup (s : State) (n : Nat) : State :=
  s.onGroup n (fun g0 =>
    let g := stopGroup s true s.cyc.t0 g0
    if g.prof ≠ .stopping then g
    else { g with prof := if g.keep then .held else .idle, keep := false, segs := [], kin := { x := g.kin.x }, remaining := g.len - g.kin.x })

/-- An axis as a failure of the cycle hardware leaves it: no cycle carries its stop ramp any more, so it stands where it is with its
remaining distance and its queue kept, and is disabled (R33; DEDUCED, log 28). -/
def haltAxis (s : State) (a : Nat) : State :=
  if (s.axis a).phase = .disabled then s
  else
    let s1 := if enabling (s.axis a) then finish s Cmd.axisEnable a St.axisAborted else s
    let s2 := stopAt s1 a true s.cyc.t0
    disabledNow (s2.onAxis a (haltUnit s a)) a

/-- The cycle ends by a failure of its hardware (R28, R33). -/
def breakCycle (s0 : State) : State :=
  let s := settleTruing (stressSync s0)
  endUnits ((allAxes s).foldl haltAxis ((List.range 16).foldl haltGroup s))

/-- Engines that were lost return to service (R300). -/
def reviveEngines (s : State) : State :=
  { s with disp := { s.disp with engines := tmap s.disp.engines (fun _ g => { g with
      state := if g.state = .lost then .inService else g.state }) } }

/-- CYCLE_STOP (R29, R300, R673). What the end of the connections demands finds the device in CONFIG. -/
def cycleStopBody (s : State) (_ : Request) (_ : Nat) : Reply := .ok (reviveEngines (stopConns (enterConfig (endCycle s)))) []

/-- CYCLE_STOP -/
def execCycleStop (dt : Nat) (q : Request) (s : State) : Out := .next (serve Cmd.cycleStop cycleStopBody dt q s)

/-- CYCLE_HW_FAULT (R28, R33): the FAULT of a fault in the cycle hardware has no cycle, so that no ring carries a valid down frame any
more (log 28). -/
def execCycleHwFault (dt : Nat) (cause : Nat) (s0 : State) : Out :=
  let s := advance dt s0
  if s.cyc.running && Nat.ble 1 cause && Nat.ble cause 4 && !s.dev.hwFaults.contains cause && (cause != 2 || ringCount s.var == 2) then
    let s1 := raiseDevice { s with dev := { s.dev with hwFaults := s.dev.hwFaults ++ [cause] } } { source := Ev.cycleHwFault, cls := Cls.device, cause := cause }
    .next (stopConns (breakCycle s1))
  else .next s

/-! ### FLOW_PLACE (R302, R303) -/

/-- Where flows run with one of them placed anew (R303). -/
def placesWith (s : State) (f e : Nat) : Placement :=
  (pflows s.image).foldl (fun t p => match (s.flow p.id).engine with
    | some g => tput t p.id (match (s.flow p.id).drainTo with | some d => d | none => g)
    | none => t) ([] : Placement) |> fun t => tput t f e

/-- The placement with engine `e` lost, as R300 places its flows (R303): none where a flow is left with no engine in service. -/
def placesAfter (s : State) (base : Placement) (e : Nat) : Option Placement :=
  (pflows s.image).foldl (fun o p => match o with
    | none => none
    | some t => if tget base 256 p.id = e then
        (match refuge s.image p.id e with
         | some g => if serves s g then some (tput t p.id g) else none
         | none => none) else o) (some base)

/-- The first flow that the loss of engine `e` leaves with no engine in service (R303). -/
def flowLeft (s : State) (base : Placement) (e : Nat) : Nat :=
  (((pflows s.image).find? (fun p => tget base 256 p.id == e &&
    (match refuge s.image p.id e with | some g => !serves s g | none => true))).map (·.id)).getD 0

/-- The budget test of R303. -/
def placeTest (s : State) (base : Placement) : BudgetOut :=
  let m := s.image
  let tasks := ptasks m
  let d := s.tru.derating
  match (pflows m).find? (fun p => (tfind base p.id).isNone) with
  | some p => .error { step := 8, kind := 6, item := p.id }
  | none =>
    (List.range (engineCount s.var)).foldl (fun o e => match o with
      | .error r => .error r
      | .ok _ =>
        match placesAfter s base e with
        | none => .error { step := 8, kind := 6, item := flowLeft s base e, faultCase := 2, faultIndex := e }
        | some p => if p = base then o else budgetResidues d 2 e tasks p o)
      (budgetResidues d 0 0 tasks base (.ok (0, 1)))

/-- A placement away from the home engine, which holds until another one ends it (R303). -/
def placedAway (s : State) (f e : Nat) : Bool := match pflow s.image f with | some p => p.home != e | none => false

/-- A flow moves to an engine: at once with a new epoch, or by a drain while a task of it is in service or waits in a commit buffer (R297,
R302). -/
def moveFlow (s : State) (f e : Nat) : State :=
  let x := s.flow f
  if x.engine = some e then s
  else if x.service.isNone && flowSettled s f then s.onFlow f (fun x => { x with engine := some e, epoch := (x.epoch + 1) % 256 })
  else s.onFlow f (fun x => { x with drainTo := some e })

/-- FLOW_PLACE (R302, R303): a drain while a task of the flow is in service or waits in a commit buffer. -/
def flowPlaceBody (s : State) (q : Request) (_ : Nat) : Reply :=
  let p := q.payload
  let f := uAt p 0 2
  let e := uAt p 2 1
  need (resv p 3 1 && (pflow s.image f).isSome && bitOf (flowAffinity s.image f) e) <|
  orElse (serves s e && (s.flow f).drainTo.isNone) St.badState <|
  let base := placesWith s f e
  match placeTest s base with
  | .error r => .err St.planBudget (refusedBytes r)
  | .ok u =>
    let s0 := s.onFlow f (fun x => { x with placed := placedAway s f e })
    .ok (refill (noteUse (moveFlow s0 f e) u false)) []

/-- FLOW_PLACE -/
def execFlowPlace (dt : Nat) (q : Request) (s : State) : Out := .next (serve Cmd.flowPlace flowPlaceBody dt q s)

end Sys2Proof.Machine
end

