-- ==== Sys2Proof/Machine/Burst.lean ====
section
/-! DEFINITION. Down frames and the process image: burst 1 (R88, R90, R552, R569, R578), the slices of later bursts (R48 to R51, R55,
R91, R92, R168, R169, R217), request bursts (R582), the input buffers (R375 to R377) and the output snapshot (R379). -/

namespace Sys2Proof.Machine

/-! ### Headers (R88, R569) -/

/-- The departure stamp of an instant (R88). -/
def departure (at_ : Nat) : Bytes := leBytes 6 (at_ / secU) ++ leBytes 4 (at_ % secU / nsU) ++ b16 (at_ % nsU / 65536)

/-- The header of a burst at a port of this unit. -/
def downHeader (s : State) (r k : Nat) (own : Port) (at_ : Nat) : Bytes :=
  let m := s.image
  b8 1 ++ b8 (k + (match pairPort s own with | .p => 0 | .q => 8) + 16 * burstCount m) ++ b8 r ++ b8 (s.cyc.tick % 256) ++
    leBytes 8 s.cyc.tick ++ departure (depField s own at_) ++ zeros 4 ++ b32 s.pair.epoch ++
    b8 (if s.pair.id = 0 ∨ s.pair.grip then s.pair.id else s.pair.holder) ++
    b8 (bit (s.ring r).window + 2 * bit (s.dev.mode == .operational)) ++ b16 (planId m % 65536) ++ zeros 4

/-! ### Burst 1 (R90) -/

/-- Address of the witness of a ring (R62, R578). -/
def witnessOf (m : Image) (r : Nat) : Nat := (((pnodes m r).find? (fun n => bitOf n.flags 0)).map (·.addr)).getD 0

/-- The witness of the plan: ring and address (R570). -/
def witnessNode (m : Image) : Option (Nat × Nat) :=
  (List.range 2).findSome? (fun r => if witnessOf m r = 0 then none else some (r, witnessOf m r))

/-- The failures of the self-check within the last 1,024 cycles (R577). -/
def selfCheckOk (s : State) : Bool := !s.pair.checkFails.any (fun n => Nat.blt s.cyc.tick (n + 1024))

/-- The st byte of this unit (R578). -/
def stByte (s : State) : Nat := bit (selfCheckOk s) + 2 * bit s.pair.mirrorValid + 4 * bit s.pair.heard

/-- The grip section (R578); zero on a device without a partner (R90). -/
def gripSection (s : State) : Bytes :=
  let p := s.pair
  if p.id = 0 then zeros 16
  else
    let own := fun (i v : Nat) => b8 (if p.id = i then v else 0)
    b32 p.epoch ++ b8 p.holder ++ b8 (if p.witnessLost then 0 else ((witnessNode s.image).map (·.2)).getD 0) ++ b16 (p.leaseEnd % 65536) ++
      own 1 p.request ++ own 2 p.request ++ own 1 (stByte s) ++ own 2 (stByte s) ++ zeros 4

/-- Bytes of a cyclic message of a connection (R550). -/
def connSize (s : State) (c : Nat) : Nat := (msgBody s c 0 0 (zeros (parN s Par.connLen c))).length + 4

/-- Connections whose messages stand in the safety section of a ring (R552). -/
def ringConns (s : State) (r : Nat) : List Nat :=
  if hasLocal s.var then (List.range 128).filter (fun c => connUsed s c && par s Par.connMode c == 0 && (connNode s c).1 == r) else []

/-- The safety section of a ring (R552): an area holds the messages of all its connections at once, so that the process-image outputs
keep their place; the partner's area has the same length (log 32). -/
def safetySection (s : State) (r : Nat) : Bytes :=
  let size := ((ringConns s r).map (connSize s)).sum
  let own := (ringConns s r).flatMap (fun c => (s.conn c).out.getD [])
  let part := if s.pair.id = 0 then 0 else size
  b16 size ++ b16 part ++ slice own 0 size ++ zeros part

/-- The calibration entry (R90, R139). -/
def calEntry (s : State) (r : Nat) : Bytes :=
  let g := s.ring r
  match nodeAt s r g.calNode with
  | some p => if g.calNode = 0 then zeros 16 else
      (let (dp, dq) := calDelays g p
       b8 g.calNode ++ zeros 3 ++ b32 dp ++ b32 dq ++ zeros 4)
  | none => zeros 16

/-- Process-image outputs of a ring: as many bytes of the snapshot as the frame length of burst 1 has room for (R90, R379; log 32). -/
def piOutputs (s : State) (r used : Nat) : Bytes :=
  let n := min 2048 (frameLen s.image r 1 - 24 - used)
  memRead s.host.snapshot (4096 + 2048 * r) n

/-- Burst 1 at a port (R88, R90). -/
def burst1 (s : State) (r : Nat) (own : Port) (at_ : Nat) : Bytes :=
  let safety := safetySection s r
  let pi := piOutputs s r (80 + safety.length)
  withTrailer (padTo8 (downHeader s r 1 own at_ ++ gripSection s ++ calEntry s r ++ b16 safety.length ++ zeros 2 ++ safety ++
    b16 pi.length ++ zeros 2 ++ pi))

/-- The messages of a ring leave (R551, R555). -/
def departMsgs (r : Nat) (s : State) : State := (ringConns s r).foldl (fun s c => s.onConn c (departMsg (safeNs s))) s

/-- Messages leave with burst 1 of a ring and stand ready no more (R551, R552). -/
def takeMessages (r : Nat) (s : State) : State :=
  (ringConns s r).foldl (fun s c => s.onConn c (fun x => { (departMsg (safeNs s) x) with out := none })) s

/-- A burst has left both ports of a ring. -/
def putBurst (r : Nat) (b : Burst) (copyQ : Bytes) (s : State) : State :=
  sendFrames r [{ port := .p, frame := b.frame }, { port := .q, frame := copyQ }]
    { s with cyc := { s.cyc with bursts := tput s.cyc.bursts r ((tget s.cyc.bursts [] r) ++ [b]) } }

/-- The unit commands its rings: it has no partner, or it holds the grip (R39, R568, R581). -/
def commands (s : State) : Bool := s.pair.id == 0 || s.pair.grip

/-- Burst 1 leaves at the tick (R46, R88, R138). -/
def launchBurst1 (r : Nat) (s : State) : State :=
  let t := s.cyc.t0
  let fp := burst1 s r .p t
  let fq := burst1 s r .q t
  let s1 := putBurst r { k := 1, at_ := t, ends := t + frameU fp.length, frame := fp } fq (takeMessages r s)
  s1.onRing r (fun g => match pairPort s .p with
    | .p => { g with depP := depField s .p t, depQ := depField s .q t }
    | .q => { g with depQ := depField s .p t, depP := depField s .q t })

/-! ### Slices (R48, R55, R92) -/

/-- An emitting task of an axis that runs in this cycle. -/
def dueOutput (s : State) (a : Nat) : Option PTask := (axisTasks s.image a).find? (fun t => goesOut s t && dueNow s t)

/-- An output counts as committed for a burst launched at an instant (R50, R53). -/
def committedAt (x : Axis) (at_ : Nat) : Bool :=
  !x.out.failed && (match x.out.commitAt with | some c => Nat.ble c at_ | none => false)

/-- Command payload of a ring axis's mode (R168, R169, R217). -/
def slicePayload (mode : Nat) (o : AxisOut) (ctl : Nat) : Bytes :=
  -- bits [23:8] of the word (R342)
  let q15 := fun (v : Int) => sleBytes 2 (v / 256)
  let duty := fun (i : Nat) => sleBytes 4 ((o.duty[i]?).getD 0)
  if mode = 1 then sleBytes 4 o.torque ++ b16 ctl
  else if mode = 2 then sleBytes 6 o.posCmd ++ sleBytes 6 o.velCmd ++ sleBytes 4 o.torqueFf ++ b16 ctl
  else if mode = 3 then duty 0 ++ duty 1 ++ duty 2 ++ q15 o.uAlpha ++ q15 o.uBeta ++ sleBytes 2 o.dtheta ++ b16 ctl
  else []

/-- The control field as the emit stage sends it: bits [15:0] of the law's control word (R342), all clear with axis-enabled (R201), with
drive fault reset in the capture cycle of a drive that reports a fault (R168; log 24). -/
def controlOut (s : State) (a : Nat) : Nat :=
  let x := s.axis a
  if !x.axisEnabled then 0
  else x.out.control ||| (if x.captureAt = some s.cyc.tick ∧ bitOf x.driveStatus 2 then 4 else 0)

/-- The output of a slice is missing when its latest burst launches (R55). -/
def sliceMissing (s : State) (x : Slice) (k at_ : Nat) : Bool :=
  !committedAt (s.axis x.axis) at_ && k == x.latest && (dueOutput s x.axis).isSome

/-- What a slice says of its output: 0 pending, 1 fresh, 2 sent, 4 hold (R48, R51, R55, R92, R581). -/
def sliceMark (s : State) (x : Slice) (k at_ : Nat) : Nat :=
  let ax := s.axis x.axis
  if s.pair.fenced || sliceMissing s x k at_ then 4
  else if committedAt ax at_ then (if ax.freshIn = some s.cyc.tick then 2 else 1)
  else 0

/-- A down slice (R92). -/
def downSlice (s : State) (x : Slice) (k at_ : Nat) : Bytes :=
  let a := x.axis
  let ax := s.axis a
  let flags := sliceMark s x k at_ + 8 * bit ax.axisEnabled + 16 * bit (ax.stopRequest || safetyStops s a)
  let head := b8 flags ++ b8 (s.cyc.tick % 256)
  let body := slice (slicePayload (parN s Par.axisMode a) ax.out (controlOut s a)) 0 (x.downLen - 4)
  head ++ b16 (crc16 (head ++ body)) ++ body

/-- Slices of a burst of a ring with their offsets. -/
def burstSlices (m : Image) (r k : Nat) : List (Slice × Nat) :=
  (slices m).filterMap (fun x => if x.ring = r then ((x.downOff[k - 1]?).join).map (fun o => (x, o)) else none)

/-- A burst after the first at a port (R91). -/
def burstFrame (s : State) (r k : Nat) (own : Port) (at_ : Nat) : Bytes :=
  let body := (burstSlices s.image r k).foldl (fun b e => patch b e.2 (downSlice s e.1 k at_))
    (slice (downHeader s r k own at_) 0 (max 40 (frameLen s.image r k - 24)))
  withTrailer (padTo8 body)

/-! ### BURST_LAUNCH (R49) -/

/-- The output of an axis, or the bundle, is settled for its latest burst: committed, failed, or not due (R49). -/
def axisSettled (s : State) (a : Nat) : Bool :=
  match dueOutput s a with
  | none => true
  | some t => (s.axis a).out.failed || (s.axis a).out.commitAt.isSome ||
      (match (s.task t.index).phase with | .failed | .overrun | .cancelled | .committed => true | _ => false)

/-- Every axis and every bundle whose latest burst is k is settled (R49). -/
def burstSettled (s : State) (k : Nat) : Bool :=
  (slices s.image).all (fun x => x.ring == 255 || x.latest != k || axisSettled s x.axis) &&
  (pbundles s.image).all (fun b => b.latest != k || dueMembers s b.id == [] || (s.bundle b.id).failed || (s.bundle b.id).commitAt.isSome)

/-- Bundles that have not committed by the deadline of their latest burst fail (R51). -/
def failLate (s : State) (k : Nat) : State :=
  (pbundles s.image).foldl (fun s b => if b.latest = k ∧ dueMembers s b.id ≠ [] then failBundle s b.id else s) s

/-- What a launched burst leaves at the axes whose slices it carries: fresh marks, holds and misses (R48, R55, R56). In a self-fenced cycle
no slice is fresh, and an output that is missing counts as in any other (R581). -/
def noteSlice (k at_ : Nat) (before : State) (s : State) (x : Slice) : State :=
  let a := x.axis
  if sliceMark before x k at_ = 1 then s.onAxis a (fun y => { y with freshIn := some s.cyc.tick })
  else if sliceMissing before x k at_ then
    let s1 := raiseWarn (s.onAxis a (fun y => { y with out := { y.out with failed := true } })) Ev.emitHold Kind.axis a
    match dueOutput before a with
    | some t => if t.bundle = 255 then missOutput s1 a else s1
    | none => s1
  else s

/-- A burst launches at an instant: its content is frozen (R49 to R51). -/
def launchBurst (r k at_ : Nat) (s0 : State) : State :=
  let s := if at_ = s0.cyc.t0 + launchMax s0.image k * nsU then failLate s0 k else s0
  let fp := burstFrame s r k .p at_
  let fq := burstFrame s r k .q at_
  let s1 := putBurst r { k := k, at_ := at_, ends := at_ + frameU fp.length, frame := fp } fq s
  (burstSlices s.image r k).foldl (fun t e => noteSlice k at_ s t e.1) s1

/-- BURST_LAUNCH (R49, R55): the next burst of a ring, once its conditions hold or at its deadline. -/
def execBurstLaunch (dt : Nat) (ring : Nat) (k : Nat) (s0 : State) : Out :=
  let s := advance dt s0
  let m := s.image
  match (tget s.cyc.bursts [] ring).getLast? with
  | none => .next s
  | some b =>
    let first := max (s.cyc.t0 + launchMin m k * nsU) (b.ends + 100 * nsU)
    let last := s.cyc.t0 + launchMax m k * nsU
    if s.cyc.running && commands s && !ringSilent s ring && k == b.k + 1 && Nat.ble k (burstCount m) && Nat.ble first s.time.now &&
        (burstSettled s k || Nat.ble last s.time.now) then .next (launchBurst ring k (min s.time.now (max first last)) s)
    else .next s

/-! ### Process image (R375 to R380) -/

/-- The axis entry of an input buffer (R376). -/
def piAxis (s : State) (a : Nat) : Bytes :=
  let x := s.axis a
  let d := diag40 s a
  let flags := bit (x.phase == .enabled) + 2 * bit x.fbValid + 4 * bit (bitOf x.sliceFlags 2) + 8 * bit (bitOf x.sliceFlags 3) +
    16 * bit x.sto + 32 * bit (x.faults != []) + 64 * bit x.homed
  b8 flags ++ b8 (profStateOf s a) ++ b8 x.queue.length ++ b8 x.source ++ cu24 (d 2).toNat ++ t48 (d 5) ++ t48 (d 6) ++
    t48 (t24 (wrapPos (modQ s a) x.kin.x)) ++ t48 (d 7) ++ c24 (d 8) ++ cu24 (d 9).toNat ++ b32 x.streamMisses ++ b16 x.driveStatus ++
    zeros 2 ++ t48 (t24 (reportedWay s a).2)

/-- The node entry of an input buffer (R377). -/
def piNode (s : State) (i : Nat) : Bytes :=
  match nodeByInst s i with
  | some (r, p) =>
    let n := s.node r p
    if !n.bound then zeros 16
    else
      let u := n.lastUp
      b8 n.state ++ b8 ((u.map (·.lostCycles)).getD 0) ++ b16 ((u.map (·.status)).getD 0) ++ b32 ((u.map (·.epochSeen)).getD 0) ++
        b8 ((u.map (·.holderSeen)).getD 0) ++ b8 n.address ++ b16 n.alias_ ++ c24 n.clockOffset
  | none => zeros 16

/-- An input buffer of cycle N (R375). -/
def piInputs (s : State) : Bytes :=
  b32 (s.cyc.tick % 4294967296) ++ timeBytes (s.cyc.t0 / nsU) ++ b8 (modeCode s.dev.mode) ++ zeros 49 ++
    (List.range 128).flatMap (fun a => if a < axisCount s.var then piAxis s a else zeros 64) ++ (List.range 128).flatMap (piNode s)

/-- The last burst of every ring that the plan uses has launched; on a unit that commands none, its deadline has passed. -/
def burstsDone (s : State) : Bool :=
  let m := s.image
  let k := burstCount m
  (List.range (ringCount s.var)).all (fun r => !usesRing m r ||
    (tget s.cyc.bursts [] r).any (fun b => b.k == k) ||
    ((!commands s || ringSilent s r) && Nat.ble (s.cyc.t0 + launchMax m k * nsU) s.time.now))

/-- PI_INPUT_PUBLISH (R374 to R377). -/
def execPiInputPublish (dt : Nat) (s0 : State) : Out :=
  let s := advance dt s0
  if s.cyc.running && !s.cyc.published && burstsDone s then
    let b := piInputs s
    let s1 : State := { s with
      mem := { s.mem with sram := memPaste s.mem.sram (inBuf s.cyc.tick) b.length (cellsFrom 0 b) },
      cyc := { s.cyc with published := true } }
    .next (writePiHead s1 (some (s.cyc.tick % 4294967296)))
  else .next s

/-- OUTPUT_SNAPSHOT (R379): 400 ns before the next tick, the first one included, and once for a tick. -/
def execOutputSnapshot (s : State) : Out :=
  match comingTick s with
  | some t => .next (if s.host.snapTick = some t.1 then s else takeOutputs t.1 (advanceTo (snapAt t) s))
  | none => .next s

end Sys2Proof.Machine
end

