-- ==== Sys2Proof/Machine/EngineIsa.lean ====
section
/-! DEFINITION. The loop-engine instructions as commands, one meaning each over `runRow` (R320 to R343, R328). -/

namespace Sys2Proof.Machine

/-- `NOP` (R328): Performs the parallel moves only. -/
def execNop (e : Nat) (m1 : Move) (m2 : Move) (s : State) : Host.Outcome State Fault Refusal :=
  runRow e (.nop) m1 m2 s

/-- `PSET` (R323): Sets an accumulator to a signed fractional product. -/
def execPset (e : Nat) (ad : Acc) (neg : Bool) (xa : XReg) (xb : XReg) (m1 : Move) (m2 : Move) (s : State) : Host.Outcome State Fault Refusal :=
  runRow e (.prod false false false ad.val neg xa.val xb.val) m1 m2 s

/-- `PSETR` (R324): Sets an accumulator to a product and rounds it. -/
def execPsetr (e : Nat) (ad : Acc) (neg : Bool) (xa : XReg) (xb : XReg) (m1 : Move) (m2 : Move) (s : State) : Host.Outcome State Fault Refusal :=
  runRow e (.prod false false true ad.val neg xa.val xb.val) m1 m2 s

/-- `PACC` (R323): Accumulates a signed fractional product. -/
def execPacc (e : Nat) (ad : Acc) (neg : Bool) (xa : XReg) (xb : XReg) (m1 : Move) (m2 : Move) (s : State) : Host.Outcome State Fault Refusal :=
  runRow e (.prod true false false ad.val neg xa.val xb.val) m1 m2 s

/-- `PACCR` (R324): Accumulates a product and rounds. -/
def execPaccr (e : Nat) (ad : Acc) (neg : Bool) (xa : XReg) (xb : XReg) (m1 : Move) (m2 : Move) (s : State) : Host.Outcome State Fault Refusal :=
  runRow e (.prod true false true ad.val neg xa.val xb.val) m1 m2 s

/-- `PSETU` (R323): Sets an accumulator to a signed by unsigned product. -/
def execPsetu (e : Nat) (ad : Acc) (neg : Bool) (xa : XReg) (xb : XReg) (m1 : Move) (m2 : Move) (s : State) : Host.Outcome State Fault Refusal :=
  runRow e (.prod false true false ad.val neg xa.val xb.val) m1 m2 s

/-- `PSETUR` (R324): Sets an accumulator to a signed by unsigned product and rounds. -/
def execPsetur (e : Nat) (ad : Acc) (neg : Bool) (xa : XReg) (xb : XReg) (m1 : Move) (m2 : Move) (s : State) : Host.Outcome State Fault Refusal :=
  runRow e (.prod false true true ad.val neg xa.val xb.val) m1 m2 s

/-- `PACCU` (R323): Accumulates a signed by unsigned product. -/
def execPaccu (e : Nat) (ad : Acc) (neg : Bool) (xa : XReg) (xb : XReg) (m1 : Move) (m2 : Move) (s : State) : Host.Outcome State Fault Refusal :=
  runRow e (.prod true true false ad.val neg xa.val xb.val) m1 m2 s

/-- `PACCUR` (R324): Accumulates a signed by unsigned product and rounds. -/
def execPaccur (e : Nat) (ad : Acc) (neg : Bool) (xa : XReg) (xb : XReg) (m1 : Move) (m2 : Move) (s : State) : Host.Outcome State Fault Refusal :=
  runRow e (.prod true true true ad.val neg xa.val xb.val) m1 m2 s

/-- `AADD` (R328): Adds two accumulators. -/
def execAadd (e : Nat) (ad : Acc) (ar : Acc) (m1 : Move) (m2 : Move) (s : State) : Host.Outcome State Fault Refusal :=
  runRow e (.aadd ad.val ar.val) m1 m2 s

/-- `ASUB` (R328): Subtracts one accumulator from another. -/
def execAsub (e : Nat) (ad : Acc) (ar : Acc) (m1 : Move) (m2 : Move) (s : State) : Host.Outcome State Fault Refusal :=
  runRow e (.asub ad.val ar.val) m1 m2 s

/-- `AADX` (R328): Adds a shifted X register to an accumulator. -/
def execAadx (e : Nat) (ad : Acc) (xa : XReg) (m1 : Move) (m2 : Move) (s : State) : Host.Outcome State Fault Refusal :=
  runRow e (.aadx ad.val xa.val) m1 m2 s

/-- `ASBX` (R328): Subtracts a shifted X register from an accumulator. -/
def execAsbx (e : Nat) (ad : Acc) (xa : XReg) (m1 : Move) (m2 : Move) (s : State) : Host.Outcome State Fault Refusal :=
  runRow e (.asbx ad.val xa.val) m1 m2 s

/-- `ACMP` (R328): Sets flags from the difference of two accumulators. -/
def execAcmp (e : Nat) (ad : Acc) (ar : Acc) (m1 : Move) (m2 : Move) (s : State) : Host.Outcome State Fault Refusal :=
  runRow e (.acmp ad.val ar.val) m1 m2 s

/-- `ACPX` (R328): Sets flags from an accumulator minus a shifted X register. -/
def execAcpx (e : Nat) (ad : Acc) (xa : XReg) (m1 : Move) (m2 : Move) (s : State) : Host.Outcome State Fault Refusal :=
  runRow e (.acpx ad.val xa.val) m1 m2 s

/-- `ACPY` (R328): Copies one accumulator to another. -/
def execAcpy (e : Nat) (ad : Acc) (ar : Acc) (m1 : Move) (m2 : Move) (s : State) : Host.Outcome State Fault Refusal :=
  runRow e (.acpy ad.val ar.val) m1 m2 s

/-- `ALDX` (R328): Loads a shifted X register into an accumulator. -/
def execAldx (e : Nat) (ad : Acc) (xa : XReg) (m1 : Move) (m2 : Move) (s : State) : Host.Outcome State Fault Refusal :=
  runRow e (.aldx ad.val xa.val) m1 m2 s

/-- `AZRO` (R328): Clears an accumulator. -/
def execAzro (e : Nat) (ad : Acc) (m1 : Move) (m2 : Move) (s : State) : Host.Outcome State Fault Refusal :=
  runRow e (.azro ad.val) m1 m2 s

/-- `ANEG` (R328): Negates an accumulator. -/
def execAneg (e : Nat) (ad : Acc) (m1 : Move) (m2 : Move) (s : State) : Host.Outcome State Fault Refusal :=
  runRow e (.aneg ad.val) m1 m2 s

/-- `AABS` (R328): Takes the absolute value of an accumulator. -/
def execAabs (e : Nat) (ad : Acc) (m1 : Move) (m2 : Move) (s : State) : Host.Outcome State Fault Refusal :=
  runRow e (.aabs ad.val) m1 m2 s

/-- `RND` (R324): Rounds an accumulator convergently at bit 24. -/
def execRnd (e : Nat) (ad : Acc) (m1 : Move) (m2 : Move) (s : State) : Host.Outcome State Fault Refusal :=
  runRow e (.rnd ad.val) m1 m2 s

/-- `ASAT` (R325): Saturates an accumulator to 48 bits. -/
def execAsat (e : Nat) (ad : Acc) (m1 : Move) (m2 : Move) (s : State) : Host.Outcome State Fault Refusal :=
  runRow e (.asat ad.val) m1 m2 s

/-- `ASHL` (R328): Shifts an accumulator left with saturation. -/
def execAshl (e : Nat) (ad : Acc) (sh : Nat) (m1 : Move) (m2 : Move) (s : State) : Host.Outcome State Fault Refusal :=
  runRow e (.ashl ad.val sh) m1 m2 s

/-- `ASHR` (R328): Shifts an accumulator right arithmetically. -/
def execAshr (e : Nat) (ad : Acc) (sh : Nat) (m1 : Move) (m2 : Move) (s : State) : Host.Outcome State Fault Refusal :=
  runRow e (.ashr ad.val sh) m1 m2 s

/-- `SCLB` (R331): Scales an accumulator by the block exponent BX. -/
def execSclb (e : Nat) (ad : Acc) (m1 : Move) (m2 : Move) (s : State) : Host.Outcome State Fault Refusal :=
  runRow e (.sclb ad.val) m1 m2 s

/-- `BEXPA` (R331): Updates BX from an accumulator's leading sign bits. -/
def execBexpa (e : Nat) (ad : Acc) (m1 : Move) (m2 : Move) (s : State) : Host.Outcome State Fault Refusal :=
  runRow e (.bexpa ad.val) m1 m2 s

/-- `QSTEP` (R332): Performs one unsigned restoring division step. -/
def execQstep (e : Nat) (ad : Acc) (xa : XReg) (m1 : Move) (m2 : Move) (s : State) : Host.Outcome State Fault Refusal :=
  runRow e (.qstep ad.val xa.val) m1 m2 s

/-- `MAXI` (R330): Keeps the larger value and captures its repeat index. -/
def execMaxi (e : Nat) (ad : Acc) (xa : XReg) (m1 : Move) (m2 : Move) (s : State) : Host.Outcome State Fault Refusal :=
  runRow e (.maxi ad.val xa.val) m1 m2 s

/-- `MINI` (R330): Keeps the smaller value and captures its repeat index. -/
def execMini (e : Nat) (ad : Acc) (xa : XReg) (m1 : Move) (m2 : Move) (s : State) : Host.Outcome State Fault Refusal :=
  runRow e (.mini ad.val xa.val) m1 m2 s

/-- `XHI` (R325): Moves the saturated upper word of an accumulator to an X register. -/
def execXhi (e : Nat) (xd : XReg) (ad : Acc) (m1 : Move) (m2 : Move) (s : State) : Host.Outcome State Fault Refusal :=
  runRow e (.xhi false xd.val ad.val) m1 m2 s

/-- `XHIR` (R324): Moves the rounded and saturated upper word of an accumulator to an X register. -/
def execXhir (e : Nat) (xd : XReg) (ad : Acc) (m1 : Move) (m2 : Move) (s : State) : Host.Outcome State Fault Refusal :=
  runRow e (.xhi true xd.val ad.val) m1 m2 s

/-- `XLO` (R325): Moves the saturated lower word of an accumulator to an X register. -/
def execXlo (e : Nat) (xd : XReg) (ad : Acc) (m1 : Move) (m2 : Move) (s : State) : Host.Outcome State Fault Refusal :=
  runRow e (.xlo xd.val ad.val) m1 m2 s

/-- `XCPY` (R328): Copies one X register to another. -/
def execXcpy (e : Nat) (xd : XReg) (xa : XReg) (m1 : Move) (m2 : Move) (s : State) : Host.Outcome State Fault Refusal :=
  runRow e (.xcpy xd.val xa.val) m1 m2 s

/-- `XADD` (R328): Adds X registers modulo 2^24. -/
def execXadd (e : Nat) (xd : XReg) (xa : XReg) (xb : XReg) (m1 : Move) (m2 : Move) (s : State) : Host.Outcome State Fault Refusal :=
  runRow e (.xadd xd.val xa.val xb.val) m1 m2 s

/-- `XSUB` (R328): Subtracts X registers modulo 2^24. -/
def execXsub (e : Nat) (xd : XReg) (xa : XReg) (xb : XReg) (m1 : Move) (m2 : Move) (s : State) : Host.Outcome State Fault Refusal :=
  runRow e (.xsub xd.val xa.val xb.val) m1 m2 s

/-- `XAND` (R328): Bitwise and of X registers. -/
def execXand (e : Nat) (xd : XReg) (xa : XReg) (xb : XReg) (m1 : Move) (m2 : Move) (s : State) : Host.Outcome State Fault Refusal :=
  runRow e (.xand xd.val xa.val xb.val) m1 m2 s

/-- `XIOR` (R328): Bitwise inclusive or of X registers. -/
def execXior (e : Nat) (xd : XReg) (xa : XReg) (xb : XReg) (m1 : Move) (m2 : Move) (s : State) : Host.Outcome State Fault Refusal :=
  runRow e (.xior xd.val xa.val xb.val) m1 m2 s

/-- `XEOR` (R328): Bitwise exclusive or of X registers. -/
def execXeor (e : Nat) (xd : XReg) (xa : XReg) (xb : XReg) (m1 : Move) (m2 : Move) (s : State) : Host.Outcome State Fault Refusal :=
  runRow e (.xeor xd.val xa.val xb.val) m1 m2 s

/-- `XBIT` (R328): Tests one bit of an X register into Z. -/
def execXbit (e : Nat) (xa : XReg) (bit : Nat) (m1 : Move) (m2 : Move) (s : State) : Host.Outcome State Fault Refusal :=
  runRow e (.xbit xa.val bit) m1 m2 s

/-- `BEXP` (R331): Updates BX from an X register's leading sign bits. -/
def execBexp (e : Nat) (xa : XReg) (m1 : Move) (m2 : Move) (s : State) : Host.Outcome State Fault Refusal :=
  runRow e (.bexp xa.val) m1 m2 s

/-- `SCLBX` (R331): Scales an X register by BX. -/
def execSclbx (e : Nat) (xd : XReg) (xa : XReg) (m1 : Move) (m2 : Move) (s : State) : Host.Outcome State Fault Refusal :=
  runRow e (.sclbx xd.val xa.val) m1 m2 s

/-- `SREG` (R329): Moves a value between an X register and a special register. -/
def execSreg (e : Nat) (xn : XReg) (sel : Nat) (index : PReg) (toSpecial : Bool) (m1 : Move) (m2 : Move) (s : State) : Host.Outcome State Fault Refusal :=
  runRow e (.sreg xn.val sel index.val toSpecial) m1 m2 s

/-- `BXSET` (R328): Sets the block exponent BX. -/
def execBxset (e : Nat) (v : BitVec 7) (m1 : Move) (m2 : Move) (s : State) : Host.Outcome State Fault Refusal :=
  runRow e (.bxset v) m1 m2 s

/-- `DONE` (R343): Ends the task and starts its writeback. -/
def execDone (e : Nat) (m1 : Move) (m2 : Move) (s : State) : Host.Outcome State Fault Refusal :=
  runRow e (.done) m1 m2 s

/-- `BRC` (R334): Branches on a condition after two delay slots. -/
def execBrc (e : Nat) (cc : Nat) (t : BitVec 14) (s : State) : Host.Outcome State Fault Refusal :=
  runRow e (.brc cc t) .none .none s

/-- `CALL` (R328): Pushes a return address and branches after two delay slots. -/
def execCall (e : Nat) (t : BitVec 14) (s : State) : Host.Outcome State Fault Refusal :=
  runRow e (.call t) .none .none s

/-- `RET` (R328): Returns to the popped address after two delay slots. -/
def execRet (e : Nat) (s : State) : Host.Outcome State Fault Refusal :=
  runRow e (.ret) .none .none s

/-- `DECBR` (R328): Decrements an X register and branches while it is non-zero. -/
def execDecbr (e : Nat) (xn : XReg) (t : BitVec 14) (s : State) : Host.Outcome State Fault Refusal :=
  runRow e (.decbr xn.val t) .none .none s

/-- `REP` (R333): Executes the next instruction n times without interruption. -/
def execRep (e : Nat) (n : Nat) (m1 : Move) (m2 : Move) (s : State) : Host.Outcome State Fault Refusal :=
  runRow e (.rep n) m1 m2 s

/-- `XIMM` (R328): Loads an immediate into an X register. -/
def execXimm (e : Nat) (xd : XReg) (v : W24) (s : State) : Host.Outcome State Fault Refusal :=
  runRow e (.ximm xd.val v) .none .none s

/-- `PIMM` (R328): Loads an immediate into a pointer. -/
def execPimm (e : Nat) (p : PReg) (v : BitVec 16) (s : State) : Host.Outcome State Fault Refusal :=
  runRow e (.pimm p.val v) .none .none s

/-- `MIMM` (R328): Loads a signed immediate into an offset register. -/
def execMimm (e : Nat) (p : PReg) (v : BitVec 16) (s : State) : Host.Outcome State Fault Refusal :=
  runRow e (.mimm p.val v) .none .none s

/-- `LIMM` (R328): Loads an immediate into a modulo length register. -/
def execLimm (e : Nat) (p : PReg) (v : BitVec 16) (s : State) : Host.Outcome State Fault Refusal :=
  runRow e (.limm p.val v) .none .none s

end Sys2Proof.Machine
end

