-- ==== Sys2Proof/Machine/Jtag.lean ====
section
/-! DEFINITION. The JTAG port's boundary scan (R695). Boundary cells are numbered by the model: 0 to 7 are those of SOUT0 to SOUT7, 8 and 9
those of STO_A and STO_B, which are observe-only; the others follow (log 19). -/

namespace Sys2Proof.Machine

/-- A cell that only observes its ball (R695). -/
def observeOnly (cell : Nat) : Bool := Nat.blt cell 10

/-- Balls that the boundary cells drive now (R695): under EXTEST and CLAMP, and only while RESET_N is low. -/
def State.drivenBalls (s : State) : List (Nat × Bool) :=
  match s.jtag.instr with
  | .extest | .clamp => if s.power.resetLow then s.jtag.driven else []
  | _ => []

/-- BOUNDARY_SCAN_INSTRUCTION (R695): SAMPLE/PRELOAD takes the cells' levels and presets the cells that drive; EXTEST and CLAMP bring
their own. -/
def execBoundaryScanInstruction (dt : Nat) (instr : JtagInstr) (cells : List (Nat × Bool)) (s0 : State) : Out :=
  let s := advance dt s0
  match s.dev.mode with
  | .off | .standby => .next s
  | _ =>
    let drive := cells.filter (fun c => !observeOnly c.1)
    .next { s with jtag := match instr with
      | .samplePreload => { s.jtag with instr := instr, sampled := cells, driven := drive }
      | .extest | .clamp => { s.jtag with instr := instr, driven := drive }
      | .bypass | .idcode => { s.jtag with instr := instr } }

end Sys2Proof.Machine
end

