-- ==== Sys2Proof/Machine/PairOps.lean ====
section
/-! DEFINITION. What a tick does at a unit of a redundant pair (R571 to R577, R581, R582, R588): the grip and the fence, requests, the
adoption of the holder's streams, the self-check and the time frame. -/

namespace Sys2Proof.Machine

/-- Changes the pair. -/
def State.onPair (s : State) (f : Pair → Pair) : State := { s with pair := f s.pair }

/-! ### Mirrored state (R573, R574) -/

/-- The state words of a task as last committed: in its state block, or those of a standard law (R181; log 22). -/
def stateWords (s : State) (t : PTask) : List W24 := if userLaw t.lawId then sramWords s (t.base + 4 * t.inLen) t.stLen else (s.long t.index).std

/-- Replaces the state words of a task. -/
def putState (s : State) (t : PTask) (ws : List W24) : State :=
  if userLaw t.lawId then putWords s (t.base + 4 * t.inLen) (ws.take t.stLen) else s.onLong t.index (fun l => { l with std := ws })

/-- Comparisons of an axis are left out for a number of cycles (R574, R576). -/
def skipFor (a n : Nat) (s : State) : State :=
  s.onPair (fun p => { p with skipAxes := tput p.skipAxes a (max n (tget p.skipAxes 0 a)) })

/-- A mirrored state block: equal to the unit's own of that cycle it is confirmed, else it becomes the state (R574). -/
def adoptState (s : State) (i : Nat) (ws : List W24) : State :=
  match ptask s.image i with
  | some t => if tget s.pair.own [] i = ws then s else
      (let s1 := putState s t ws
       if t.axis = 255 then s1 else skipFor t.axis 1 s1)
  | none => s

/-- A mirrored state block agrees with the unit's own of its cycle. -/
def confirms (s : State) : MirrorItem → Bool
  | .taskState i ws => tget s.pair.own [] i == ws
  | _ => true

/-- A mirrored change of an axis: where it alters the axis, comparisons pause for this cycle and the two after it (R576). -/
def adoptAxis (s : State) (a : Nat) (f : Axis → Axis) : State :=
  if f (s.axis a) = s.axis a then s else skipFor a 3 (s.onAxis a f)

/-- One item of the holder's stream is adopted (R574; log 33). The device state is reported, not adopted (R585). -/
def adoptItem (s : State) (i : MirrorItem) : State :=
  match i with
  | .taskState t ws => adoptState s t ws
  | .setPoint a x v ac => adoptAxis s a (fun y => { y with kin := { x := q48 x, v := q48 v, a := q48 ac, j := y.kin.j } })
  | .source a src => adoptAxis s a (fun y => { y with source := src })
  | .gear a r => adoptAxis s a (fun y => { y with gear := { y.gear with r := r } })
  | .phase a on => adoptAxis s a (fun y =>
      if on then (match y.phase with | .disabled => { y with phase := .enabled, axisEnabled := true, control := ctlPower + ctlBrake } | _ => y)
      else { y with phase := .disabled, axisEnabled := false, control := 0 })
  | .param obj sub j v =>
    let k := pkey (obj * 256 + sub) j
    if tfind s.par.written k = some v then s
    else
      let s1 : State := { s with par := { s.par with written := tput s.par.written k v, active := tput s.par.active k v } }
      if obj / 4096 = 4 then skipFor j 3 s1 else s1
  | .devState _ => s

/-- The stream of cycle N - 2 is adopted at tick N; without it the run of confirmed streams ends (R574, R589). -/
def adoptStreams (n : Nat) (s : State) : State :=
  let due := s.pair.streams.find? (fun e => e.1 + 2 == n)
  let s1 := s.onPair (fun p => { p with
    streams := p.streams.filter (fun e => !Nat.ble (e.1 + 2) n),
    confirmed := match due with | some e => if e.2.all (confirms s) then p.confirmed + 1 else 0 | none => 0 })
  match due with
  | some e => e.2.foldl adoptItem s1
  | none => s1

/-- Sixteen confirmed streams in a row make a resyncing unit the ready tailstock, and one that had lost its partner again (R589;
log 33). -/
def judgeReady (s : State) : State :=
  if Nat.ble 16 s.pair.confirmed && (s.pair.state == 2 || s.pair.state == 5) then
    let s1 := s.onPair (fun p => { p with state := 3, join := none })
    if s.pair.state = 2 then finish (raiseInfo s1 Ev.pairReady) Cmd.pairJoin 0 St.ok else s1
  else s

/-! ### Shadow comparison (R576) -/

/-- The numeric fields of four and six bytes of a down slice of a mode, with their offsets and sizes, and the offset of its control
field (R168, R169, R217). -/
def compareFields (mode : Nat) : List (Nat × Nat) × Nat :=
  if mode = 1 then ([(4, 4)], 8)
  else if mode = 2 then ([(4, 6), (10, 6), (16, 4)], 20)
  else if mode = 3 then ([(4, 4), (8, 4), (12, 4)], 22)
  else ([], 4)

/-- The first field in which a slice of the holder departs from the unit's own; 0 stands for the slice flags. -/
def departs (s : State) (a : Nat) (h own : Bytes) : Option Nat :=
  let (nums, ctl) := compareFields (parN s Par.axisMode a)
  if (uAt h 0 1) / 8 % 4 ≠ (uAt own 0 1) / 8 % 4 then some 0
  else match nums.find? (fun f => Nat.blt (parN s Par.mirrorTol 0) (sAt h f.1 f.2 - sAt own f.1 f.2).natAbs) with
    | some f => some f.1
    | none => if uAt h ctl 2 = uAt own ctl 2 then none else some ctl

/-- A comparison that is left out is counted. -/
def skipCompare (s : State) : State := s.onPair (fun p => { p with skipped := inc32 p.skipped })

/-- A fresh slice of the holder against the unit's own output, which has committed. -/
def compareOut (a : Nat) (h : Bytes) (s : State) : State :=
  match sliceOf s.image a with
  | none => s
  | some x =>
    match departs s a h (downSlice s x x.latest s.time.now) with
    | none => s
    | some f => raiseWarn (s.onPair (fun p => { p with divergences := inc32 p.divergences, lastDivergence := some s.cyc.tick }))
        Ev.mirrorDivergence Kind.axis a 0 (b8 f)

/-- A fresh slice of an axis is compared, left out, or kept until the unit's own output is there. -/
def shadowSlice (a : Nat) (h : Bytes) (s : State) : State :=
  if tget s.pair.skipAxes 0 a ≠ 0 ∨ (s.axis a).out.failed = true then skipCompare s
  else if (s.axis a).out.commitAt.isSome then compareOut a h s
  else s.onPair (fun p => { p with shadow := tput p.shadow a h })

/-- The comparisons that the end of a cycle leaves: of an output that committed by t₀ + D_l, else left out. -/
def settleShadow (s : State) : State :=
  let s1 := s.pair.shadow.foldl (fun s e =>
    let lim := match sliceOf s.image e.1 with | some x => s.cyc.t0 + launchMax s.image x.latest * nsU | none => 0
    if tget s.pair.skipAxes 0 e.1 = 0 ∧ committedAt (s.axis e.1) lim = true then compareOut e.1 e.2 s else skipCompare s) s
  s1.onPair (fun p => { p with shadow := [] })

/-! ### The grip (R581, R582, R588) -/

/-- The witness node is lost (R110, R588). -/
def witnessGone (s : State) : Bool :=
  match witnessNode s.image with
  | some (r, a) => (match nodeAt s r a with | some p => (s.node r p).lost | none => false)
  | none => false

/-- WITNESS_LOST while the witness node is lost (R588). -/
def judgeWitness (s : State) : State :=
  let gone := witnessGone s
  let s1 := s.onPair (fun p => { p with witnessLost := gone })
  if gone && !s.pair.witnessLost then raiseWarn s1 Ev.witnessLost else s1

/-- The partner's last time frame shows a flag (R572). -/
def partnerFlag (s : State) (i : Nat) : Bool := s.pair.heard && (match s.pair.partner with | some f => bitOf f.flags i | none => false)

/-- GRIP_LOST is a trigger of the shavings record (R577, R581, R611). -/
def loseGrip (s : State) : State := freezeRecord (raiseWarn s Ev.gripLost) 5 Ev.gripLost (nowNs s)

/-- The holder whose self-check fails near a divergence gives up the grip, or keeps it with a warning (R577). -/
def judgeSelf (ended : Nat) (s : State) : State :=
  let near := match s.pair.lastDivergence, s.pair.checkFails.getLast? with
    | some d, some f => Nat.ble (max d f - min d f) 16 && Nat.ble ended (max d f)
    | _, _ => false
  if !s.pair.grip || !near then s
  else if partnerFlag s 1 && partnerFlag s 2 && partnerFlag s 6 then
    loseGrip (s.onPair (fun p => { p with release := true }))
  else raiseWarn s Ev.pairSelfCheck

/-- The unit's own request in this cycle's burst 1 (R581, R582). -/
def requestNow (s : State) : Nat :=
  let p := s.pair
  if p.grip then (if p.release then 3 else 1)
  else if !p.witnessLost && (p.state == 3 || p.state == 5) && (!p.heard || !p.renewed) then 2 else 0

/-- The time frame of a tick number, a departure and the tick before it (R572). -/
def timeFrameOf (s : State) (n dep prevT0 : Nat) : Bytes :=
  let p := s.pair
  let flags := bit p.grip + 2 * bit (selfCheckOk s) + 4 * bit p.mirrorValid + 8 * bit p.heard + 16 * bit (p.state == 2) +
    32 * bit (p.witnessLost && p.heard && !p.grip) + 64 * bit (p.state == 3)
  withTrailer (b8 0x11 ++ b8 p.id ++ b8 (modeCode s.dev.mode) ++ b8 flags ++ leBytes 8 n ++ departure dep ++ b32 p.epoch ++
    b8 p.holder ++ b8 (p.divergences % 256) ++ b16 (p.leaseEnd % 65536) ++ b32 (planId s.image) ++ b32 (fwWord s) ++
    b32 (if Nat.ble prevT0 p.heardAt then (p.heardAt - prevT0) / 268435456 else 0) ++ b32 (tieNow s))

/-- Cyclic messages that a non-holder composed in the cycle before have passed with that cycle's copies (R550, R555). -/
def dropMessages (s : State) : State :=
  if s.pair.grip then s
  else s.onSafe (fun u => { u with conns := tmap u.conns (fun c x => if par s Par.connMode c = 0 then { x with out := none } else x) })

/-- The tick of a unit of a pair; the cycle that ended began at `prevT0` and had number `ended` (R571 to R577, R581, R582, R588). -/
def pairTick (ended prevT0 : Nat) (s : State) : State :=
  if s.pair.id = 0 then s
  else
    let n := s.cyc.tick
    let heard := Nat.ble prevT0 s.pair.heardAt && Nat.blt 0 s.pair.heardAt
    let streamed := s.pair.adopted == ended && Nat.blt 0 ended
    let used := (List.range 2).filter (usesRing s.image)
    let s1 := s.onPair (fun p => { p with
      heard := heard, silent := if heard || streamed then 0 else p.silent + 1, mirrorLost := p.mirrorLost && !(heard || streamed),
      grip := match p.turn with | some g => g | none => if p.release && p.request == 3 then false else p.grip,
      release := if p.request == 3 then false else p.release, turn := none,
      missedRings := used.filter (fun r => !p.burst1Rings.contains r), burst1Rings := [], copied := [],
      skipAxes := (p.skipAxes.map (fun e => (e.1, e.2 - 1))).filter (fun e => e.2 != 0) })
    let s2 := judgeSelf ended (judgeWitness (if s1.pair.grip then s1 else judgeReady (adoptStreams n s1)))
    let s3 := s2.onPair (fun p => { p with
      leaseEnd := if p.grip && p.witnessLost && partnerFlag s2 5 then n + parN s Par.gripCycles 0 else p.leaseEnd })
    let s4 := s3.onPair (fun p => { p with
      state := if p.grip then 4 else if p.state = 4 then (if p.mirrorValid then 3 else 2) else p.state,
      fenced := p.grip && !Nat.ble (n + 2) p.leaseEnd })
    let s5 := s4.onPair (fun p => { p with request := requestNow s4, renewed := false,
                                           own := (ptasks s4.image).map (fun t => (t.index, stateWords s4 t)) })
    dropMessages (s5.onPair (fun p => { p with timeFrame := timeFrameOf s5 n s5.cyc.t0 prevT0 }))

end Sys2Proof.Machine
end

