-- ==== Sys2Proof/Machine/ProfileTick.lean ====
section
/-! DEFINITION. Profiles and set-points at a tick (R192, R237 to R239, R252 to R263, R275 to R278, R706): the evaluation of plans
and paths, the motion commands and limit writes that take effect, limit switches, the position range, and steppers at standstill
(R271). -/

namespace Sys2Proof.Machine

/-! ### Evaluation (R237, R239, R254, R255) -/

/-- A profile unit at a tick: the state of its plan, standstill at the end of a ramp, the next leg of a homing. A move that has ended
stands at its target until MOVE_COMPLETE. -/
def evalPlan (s : State) (a t : Nat) (x : Axis) : Axis :=
  if 2 ≤ x.source then x
  else
    match x.prof with
    | .moving =>
      if x.wakeMove.isSome then x
      else match planAt x.segs t with
        | some k => { x with kin := k }
        | none => { x with kin := { x := x.target } }
    | .stopping =>
      match planAt x.segs t with
      | some k => { x with kin := k }
      | none =>
        let p := if x.toTarget then x.target else (planLast x.kin x.segs).x
        if x.keep then standStill (modQ s a) { x with keep := false } p .held (x.target - p)
        else startQueued s a t (standStill (modQ s a) x p .idle 0)
    | .homing =>
      match planAt x.segs t with
      | some k => { x with kin := k }
      | none => homingStill t { x with kin := { x := (planLast x.kin x.segs).x } }
    | _ => x

/-- The set-point stream at a tick (R192, R380): the entry of the snapshot, or the set-point carried on. -/
def streamStep (s : State) (a : Nat) (x : Axis) : Axis :=
  let p := memRead s.host.snapshot (32 * a) 32
  let m := modQ s a
  let hit : Option Kin := match t48At p 8, t48At p 16, t48At p 24 with
    | some xs, some v, some ac =>
      if uAt p 0 1 = s.cyc.tick % 256 then some { x := wrapPos m (q48 xs), v := q48 v, a := q48 ac } else none
    | _, _, _ => none
  match hit with
  | some k => { x with kin := k, target := k.x, streamRun := 0 }
  | none =>
    let p := wrapPos m (x.kin.x + rdiv (x.kin.v * s.period) 1000000000)
    { x with kin := { x := p, v := x.kin.v }, target := p, streamRun := x.streamRun + 1, streamMisses := inc32 x.streamMisses }

/-- The set-point of an axis at a tick; a geared one follows in its master task (R193). -/
def evalAxis (t : Nat) (s : State) (a : Nat) : State :=
  s.onAxis a (fun x => if x.source = 2 then streamStep s a x else evalPlan s a t (gearTick t x))

/-- A group path at a tick (R261, R262); the members that follow it take its set-points. -/
def evalGroup (t : Nat) (s : State) (n : Nat) : State :=
  let g := s.group n
  match g.prof with
  | .moving =>
    if g.wake.isSome then s else followGroup (s.onGroup n (fun g => { g with kin := match planAt g.segs t with | some k => k | none => { x := g.len } })) n
  | .stopping =>
    match planAt g.segs t with
    | some k => followGroup (s.onGroup n (fun g => { g with kin := k })) n
    | none =>
      let p := if g.toTarget then g.len else (planLast g.kin g.segs).x
      let s1 := followGroup (s.onGroup n (fun g => { g with kin := { x := p }, segs := [] })) n
      if g.keep then s1.onGroup n (fun g => { g with prof := .held, keep := false, remaining := g.len - p })
      else startGroupQueued (s1.onGroup n (fun g => { g with prof := .idle, remaining := 0, move := none })) n t
  | _ => s

/-! ### Commands and limit writes that take effect (R253, R275, R278, R706) -/

/-- The due items of a list with the limit writes placed as R278 and R706 say: dropped with a stop, right before the first hold else; a
stop takes the place of every hold (R275). -/
def orderDue (l : List WaitingMotion) : List WaitingMotion :=
  let isLim := fun (w : WaitingMotion) => match w.cmd with | .limits _ | .axisLimits _ => true | _ => false
  if l.any (fun w => w.cmd == .stop) then l.filter (fun w => !isLim w && w.cmd != .hold)
  else if l.any (fun w => w.cmd == .hold) then
    (l.takeWhile (fun w => w.cmd != .hold)).filter (fun w => !isLim w) ++ l.filter isLim ++
      (l.dropWhile (fun w => w.cmd != .hold)).filter (fun w => !isLim w)
  else l

/-- An item at its place in the order of stamps, after those of the same stamp. -/
def insertDue (w : WaitingMotion) (l : List WaitingMotion) : List WaitingMotion :=
  l.takeWhile (fun v => Nat.ble v.stamp w.stamp) ++ w :: l.dropWhile (fun v => Nat.ble v.stamp w.stamp)

/-- Limits with one parameter written. -/
def limitWith (l : Limits) (w : Nat × Int) : Limits :=
  let v := q48 w.2
  if w.1 = Par.profVel then { l with v := v } else if w.1 = Par.profAcc then { l with a := v }
  else if w.1 = Par.profDec then { l with d := v } else { l with j := v }

/-- A re-plan of a move in force under writes of its limits: those that are not written stay (R253). -/
def newLimits (s : State) (a t : Nat) (w : List (Nat × Int)) : State :=
  let x := s.axis a
  let l := w.foldl limitWith x.lim
  if x.prof ≠ .moving ∨ 2 ≤ x.source then s
  else if x.wakeMove.isSome then s.onAxis a (fun x => { x with lim := l })
  else if x.lim = l then s
  else
    let r := replan t x.kin x.target l x.finalD x.finalJ
    let s1 := s.onAxis a (fun x => { x with
      segs := r.1, lim := l, finalD := (r.2.map (·.1)).getD l.d, finalJ := (r.2.map (·.2)).getD l.j })
    if r.2.isSome then raiseInfo s1 Ev.profileDecKept Kind.axis a else s1

/-- A held move goes on over its remaining distance with its own limits (R256, R272). -/
def resumeMove (s : State) (a t : Nat) (x : Axis) : Axis :=
  if x.remaining = 0 then startQueued s a t { x with prof := .idle }
  else
    let q : QMove := { target := x.target, delta := x.remaining, rel := true }
    if needsWake s a x then
      let p := if x.fbValid then xCapture s a else x.kin.x
      { x with prof := .moving, coil := .running, stillSince := none, wake := some t, keep := true, kin := { x := p },
               wakeMove := some { q with delta := x.target - p } }
    else startMove (modQ s a) x.lim t q { x with coil := .running, stillSince := none }

/-- A motion command takes effect on an axis at a tick. -/
def applyAxis (a t : Nat) (s : State) (w : WaitingMotion) : State :=
  let x := s.axis a
  match w.cmd with
  | .stop => stopAt s a false t
  | .hold => stopAt s a true t
  | .axisLimits l => newLimits s a t l
  | .move m =>
    if axisOn x then s.onAxis a (fun x =>
      let y := { x with queue := x.queue ++ [m] }
      if idleUnit x.prof x.remaining (x.queue == []) then startQueued s a t { y with prof := .idle } else y)
    else s
  | .resume => if axisOn x && x.prof == .held then s.onAxis a (resumeMove s a t) else s
  | .home => if axisOn x then s.onAxis a (fun x => startHoming s a t { x with coil := .running, stillSince := none }) else s
  | .limits _ | .groupMove _ => s

/-- A group path under new limits (R253, R259). -/
def newGroupLimits (s : State) (n t : Nat) (l : Limits) : State :=
  let g := s.group n
  match g.prof, g.move with
  | .moving, some m =>
    if g.wake.isSome then s.onGroup n (fun g => { g with move := some { m with lim := l } }) else
    let r := replan t g.kin g.len l g.finalD g.finalJ
    let s1 := s.onGroup n (fun g => { g with
      segs := r.1, move := some { m with lim := l }, finalD := (r.2.map (·.1)).getD l.d, finalJ := (r.2.map (·.2)).getD l.j })
    if r.2.isSome then raiseInfo s1 Ev.profileDecKept Kind.group n else s1
  | _, _ => s

/-- A held path goes on to its end with its own limits (R256, R262); where coils of members are driven first, it goes on from the members'
captured positions to their ends (R272; log 49). -/
def resumeGroup (s : State) (n t : Nat) : State :=
  let g := s.group n
  match g.prof, g.move with
  | .held, some m =>
    if g.remaining = 0 then startGroupQueued (s.onGroup n (fun g => { g with prof := .idle })) n t
    else if sleepers s g = [] then s.onGroup n (runPath t)
    else
      let goals := (List.range g.members.length).map (fun i => (((g.members[i]?).map (fun a => (s.axis a).kin.x)).getD 0) + memberWay g i)
      startPath s n t m (fun s g => (g.members.zip goals).map (fun e => e.2 - (s.axis e.1).kin.x))
  | _, _ => s

/-- A motion command takes effect on a group at a tick. -/
def applyGroup (n t : Nat) (s : State) (w : WaitingMotion) : State :=
  match w.cmd with
  | .stop => s.onGroup n (stopGroup s false t)
  | .hold => s.onGroup n (stopGroup s true t)
  | .limits l => newGroupLimits s n t l
  | .groupMove m =>
    let s1 := s.onGroup n (fun g => { g with queue := g.queue ++ [m] })
    let g := s.group n
    if idleUnit g.prof g.remaining (g.queue == []) then startGroupQueued (s1.onGroup n (fun g => { g with prof := .idle })) n t else s1
  | .resume => resumeGroup s n t
  | _ => s

/-- One more limit write: it joins those of its axis with its stamp. -/
def addLimit (a stamp : Nat) (w : Nat × Int) : List (Nat × WaitingMotion) → List (Nat × WaitingMotion)
  | [] => [(a, { stamp := stamp, cmd := .axisLimits [w] })]
  | e :: l =>
    match e.2.cmd with
    | .axisLimits ws => if e.1 = a ∧ e.2.stamp = stamp then (a, { stamp := stamp, cmd := .axisLimits (ws ++ [w]) }) :: l else e :: addLimit a stamp w l
    | _ => e :: addLimit a stamp w l

/-- Writes of move limits that take effect at a tick of device time `ns`, by axis: those of one stamp apply together (R253, R373, R706). -/
def limitWrites (ns : Nat) (s : State) : List (Nat × WaitingMotion) :=
  (s.par.waiting.filter (fun w => Nat.blt w.stamp ns && Nat.ble Par.profVel (w.key / 256) && Nat.ble (w.key / 256) Par.profJerk)).foldl
    (fun l w => addLimit (w.key % 256) w.stamp (w.key / 256, w.value) l) []

/-- What waits for an axis takes effect in the order of its stamps (R706); `lw` are the limit writes of the tick. -/
def runAxis (ns : Nat) (lw : List (Nat × WaitingMotion)) (s : State) (a : Nat) : State :=
  let mine := ((s.axis a).waiting.filter (fun w => Nat.blt w.stamp ns))
  let due := (lw.filter (fun e => e.1 == a)).foldl (fun l e => insertDue e.2 l) mine
  if due = [] then s
  else
    let s1 := s.onAxis a (fun x => { x with waiting := x.waiting.filter (fun w => !Nat.blt w.stamp ns) })
    (orderDue due).foldl (applyAxis a s.cyc.t0) s1

/-- What waits for a group takes effect. -/
def runGroup (ns : Nat) (s : State) (n : Nat) : State :=
  let due := (s.group n).waiting.filter (fun w => Nat.blt w.stamp ns)
  if due = [] then s
  else
    let s1 := s.onGroup n (fun g => { g with waiting := g.waiting.filter (fun w => !Nat.blt w.stamp ns) })
    (orderDue due).foldl (applyGroup n s.cyc.t0) s1

/-! ### Limits of motion (R167, R252) -/

/-- A stop or hold waits for the axis or for its group. -/
def stopComes (s : State) (a : Nat) : Bool :=
  let isStop := fun (w : WaitingMotion) => w.cmd == .stop || w.cmd == .hold
  match actingGroup s a with
  | some g => (s.group g).waiting.any isStop || (s.group g).prof != .moving
  | none => (s.axis a).waiting.any isStop || ((s.axis a).source == 0 && (s.axis a).prof != .moving)

/-- A qualified limit switch towards which the axis moves stops it (R252). -/
def judgeLimits (s : State) (a : Nat) : State :=
  let x := s.axis a
  if !axisOn x || x.prof == .homing || stopComes s a then s
  else if x.limPos.qualified && decide (0 < x.kin.v) then limitStop s a x.kin.v .limPos
  else if x.limNeg.qualified && decide (x.kin.v < 0) then limitStop s a x.kin.v .limNeg
  else s

/-- POSITION_RANGE of a linear axis (R167). -/
def judgeRange (s : State) (a : Nat) : State :=
  let x := s.axis a
  if modQ s a = 0 ∧ (posMax < x.kin.x.natAbs ∨ posMax < x.xfb.natAbs) ∧ x.faults.contains Ev.positionRange = false then
    raiseAxis s Ev.positionRange a
  else s

/-- The coils of a stepper in mode 6: the standstill timer runs while v* and a* are 0 (R271). -/
def stepperTick (s : State) (a : Nat) (x : Axis) : Axis :=
  if par s Par.axisMode a ≠ 6 then x
  else if x.kin.v ≠ 0 ∨ x.kin.a ≠ 0 ∨ x.wake.isSome then { x with stillSince := none, coil := .running }
  else { x with stillSince := match x.stillSince with | some t => some t | none => some s.cyc.t0 }

/-- Every profile, path and stream at a tick, then what takes effect at it (R237, R706). -/
def motionTick (lw : List (Nat × WaitingMotion)) (s : State) : State :=
  let t := s.cyc.t0
  let s1 := (allAxes s).foldl (evalAxis t) s
  let s2 := (List.range 16).foldl (evalGroup t) s1
  let s3 := (List.range 16).foldl (runGroup (t / nsU)) s2
  let s4 := (allAxes s).foldl (runAxis (t / nsU) lw) s3
  (allAxes s).foldl (fun s a => judgeRange (judgeLimits s a) a) s4

end Sys2Proof.Machine
end

