-- ==== Sys2Proof/Machine/Tick.lean ====
section
/-! DEFINITION. The tick (R42 to R48, R57, R76): what a cycle opens with, in every unit that has a duty at it. -/

namespace Sys2Proof.Machine

/-! ### Rings (R88, R99, R118, R138 to R142) -/

/-- What a tick leaves of a node's up frame (R98). -/
def rollNode (n : Node) : Node := { n with prevUp := n.up, up := none }

/-- The mean of the two loop delays of a cycle (R138), none where one is missing. It is rounded down to a whole 1/16 ns: the rule gives no
rounding (DESIGN CHOICE, log 29). -/
def loopOf (g : Ring) : Option Nat :=
  match g.closedQw, g.closedPw with
  | some a, some b => some ((a + b) / 2)
  | _, _ => none

/-- The hot-join window of a cycle (R118). -/
def windowAt (s : State) (n : Nat) : Bool := n % 256 == 128 && par s Par.enumWindow 0 == 1

/-- Frames of the hot-join window (R118): from port P, and from port Q, which leaves only while the ring is broken. -/
def windowFrames : List WaitingFrame := [{ port := .p, frame := enumFrame 4 }, { port := .q, frame := enumFrame 6 }]

/-- A ring at a tick; `t0` is the tick before the one that ended the last cycle. -/
def tickRing (t0 r : Nat) (s : State) : State :=
  let s1 := reportBreaks r (calibrate t0 r s)
  let w := windowAt s s.cyc.tick && commands s
  s1.onRing r (fun g => { g with
    closures := if closedNow g then g.closures + 1 else 0, heldClosures := g.closures, wasQ := g.closeQ, wasP := g.closeP,
    closeQ := false, closeP := false, windowWas := g.window,
    prevLoop := loopOf g, prevDepP := g.depP, prevDepQ := g.depQ, closedQw := none, closedPw := none,
    nodes := tmap g.nodes (fun _ n => rollNode n), gathered := false, sent := [], window := w,
    waiting := if w then windowFrames else [], calNode := nextCal g })

/-! ### Axes -/

/-- The measured delay of a local axis (R185): the update point that took the compares of a cycle less the stamp of that cycle's sample. -/
def localDelay (s : State) (a : Nat) : State :=
  let x := s.axis a
  match x.applyStamp with
  | none => s
  | some u =>
    let s1 := s.onAxis a (fun x => { x with applyStamp := none, applySmp := none })
    match x.applySmp with
    | some p => noteDelay s1 a (((u : Int) - p) / 268435456)
    | none => s1

/-- An axis at the beginning of a cycle: its sample is due again, and a ring axis's output too (R48, R53). -/
def rollAxis (local_ : Bool) (x : Axis) : Axis :=
  { x with sample := none, fbThisCycle := false, posPart := none, curPart := none,
           out := { x.out with failed := false, commitAt := if local_ then x.out.commitAt else none } }

/-- STO takes effect at a tick (R207). -/
def stoTick (s : State) (a : Nat) : State :=
  let l := isLocalAxis s.image a
  let s1 := if l then s.onAxis a (fun x => { x with sto := axisSafetyOff s a }) else s
  if (s1.axis a).sto then stoDisable s1 a else s1

/-- An axis that stops before its disable has come to rest (R201): nothing moves it, and no stop waits. -/
def atRest (s : State) (a : Nat) : Bool :=
  let x := s.axis a
  x.kin.v == 0 && x.kin.a == 0 && x.waiting == [] && (x.prof == .idle || x.prof == .held) &&
    (match actingGroup s a with
     | some g => (s.group g).waiting == [] && ((s.group g).prof == .idle || (s.group g).prof == .held)
     | none => true)

/-- Step 2 of R201 at standstill. -/
def restTick (s : State) (a : Nat) : State :=
  if (s.axis a).phase = .stopping ∧ atRest s a = true then s.onAxis a (engageBrake s.cyc.t0) else s

/-- The unwrapped command of modes 2 and 5 begins at the capture (R166, R407). -/
def startCommand (s : State) (a : Nat) (x : Axis) : Axis :=
  let mode := par s Par.axisMode a
  if mode = 2 ∨ mode = 5 then
    let p := if mode = 5 then wrapPos (modQ s a) (q48 (t24 x.kin.x)) else x.kin.x
    { x with cmdUnwrapped := x.rawUser + shortDiff (modQ s a) (p - wrapPos (modQ s a) (x.rawUser + x.shift)), cmdLastX := p }
  else x

/-- The step generator of mode 5 stands at the command of the capture, so that the first target moves nothing (R407). -/
def alignSteps (s : State) (a : Nat) : State :=
  match slotOf s.image a with
  | some n =>
    if par s Par.axisMode a = 5 then
      s.onTimer n (fun t => { t with stepPos := signed 48 (twos 48 ((s.axis a).cmdUnwrapped * par s Par.stepsPerTurn a / turnQ)) })
    else s
  | none => s

/-- The capture of an enable (R200): x* becomes the extrapolated position, the profile unit stands at it, and the power stage enable is
set; a local axis leaves its idle levels at once. A virtual axis takes x* as it stands and is enabled at this tick. -/
def captureAxis (s : State) (a : Nat) : State :=
  let stand := fun (x : Axis) (p : Int) =>
    { x with kin := { x := p }, target := p, prof := .idle, segs := [], queue := [], remaining := 0, keep := false, axisEnabled := true,
             captureAt := some s.cyc.tick, streamMisses := 0, missesKept := 0, streamRun := 0, streamKept := 0 }
  let s := (axisTasks s.image a).foldl (fun s t => s.onLong t.index (fun l => { l with capture := true })) s
  if par s Par.axisMode a = 7 then
    finish (s.onAxis a (fun x => { stand x x.kin.x with phase := .enabled })) Cmd.axisEnable a St.ok
  else
    let p := if sourceOf s a = .none then (s.axis a).kin.x else xCapture s a
    let l := isLocalAxis s.image a
    alignSteps (s.onAxis a (fun x =>
      startCommand s a { stand x p with
        delayKnown := false, delayMax := 0, stopRequest := false, coil := .running, stillSince := none,
        phase := if l then .braking s.cyc.t0 else .powering s.cyc.t0, control := if l then ctlPower + ctlBrake else ctlPower })) a

/-- An accepted enable at a tick after its completion (R200): after a local stop a cycle with axis-enabled clear comes first. -/
def enableTick (s : State) (a : Nat) : State :=
  match (s.axis a).phase with
  | .accepted t release =>
    if s.cyc.t0 ≤ t * nsU then s
    else if release then s.onAxis a (fun x => { x with phase := .accepted t false, axisEnabled := false })
    else captureAxis s a
  | _ => s

/-- A local axis whose slot had no slot sample in the cycle that ends has no valid sample in it (R420, R422). -/
def noSlotSample (s : State) (a : Nat) : State :=
  match slotOf s.image a with
  | some k => if sourceOf s a != .none && (s.timer k).sampleAt.isNone then missSample s a else s
  | none => s

/-- What local inputs leave to the next cycle: samples that did not come, and the results that stood at the tick (R420, R444). -/
def tickInputs (s : State) : State :=
  let s1 := if s.cyc.running then (allAxes s).foldl noSlotSample s else s
  { s1 with loc := { s1.loc with adc := { s1.loc.adc with atTick := s1.loc.adc.results } } }

/-! ### The tick -/

/-- Coefficient words whose tick has come reach the input blocks (R345). -/
def coefTick (s : State) : State :=
  let due := fun (e : Nat × Nat × List W24) => decide (e.1 * nsU < s.cyc.t0)
  let s1 := (s.disp.coefs.filter due).foldl (fun s e => putWords s e.2.1 e.2.2) s
  { s1 with disp := { s1.disp with coefs := s1.disp.coefs.filter (fun e => !due e) } }

/-- A derating and voltage that a truing pass found take effect, and one lane's equaliser (R632, R634). -/
def truingTick (s : State) : State :=
  takeEq (match s.tru.adopting with | some e => adoptNow e.1 e.2 s | none => s)

/-- The join of a unit reaches its first tick (R589). -/
def joinTick (s : State) : State :=
  match s.pair.join with
  | some .firstTick => s.onPair (fun p => { p with join := some (.resync s.cyc.t0), state := 2, confirmed := 0 })
  | _ => s

/-- What a cycle opens with, at its tick (R15, R42 to R48, R200 to R207, R237). The cycle before began at `t0` and had number `ended`;
both are those of this tick at the first one. -/
def openCycle (ended t0 : Nat) (s : State) : State :=
  let n := s.cyc.tick
  let used := (List.range (ringCount s.var)).filter (usesRing s.image)
  let s1 := if s.host.snapTick = some n then s else takeOutputs n s
  let lw := limitWrites (s.cyc.t0 / nsU) s1
  let s2 := { s1 with par := parTick (s.cyc.t0 / nsU) s1.par, time := retuneTick s1.period s1.time }
  let s3 := (List.range (slotCount s.var)).foldl (fun s k => (pwmPeriodTick s k).onTimer k (fun t => { t with sampleAt := none })) s2
  let s4 := takeDispSnap (returnFlows (coefTick (truingTick s3)))
  let s5 := used.foldl (fun s r => tickRing (t0 - s.period * nsU) r s) s4
  let s6 := (allAxes s).foldl (fun s a => (localDelay s a).onAxis a (rollAxis (isLocalAxis s.image a))) s5
  let s7 := motionTick lw s6
  let s8 := (allAxes s).foldl (fun s a => (enableTick (restTick (stoTick s a) a) a).onAxis a (stepperTick s a)) s7
  let s9 := joinTick (pairTick ended t0 (skewEnd (expireProbes s8)))
  let s10 := if commands s9 then used.foldl (fun s r => if ringSilent s r then s else launchBurst1 r s) s9 else s9
  stressSync (takeSignalRow s s10 n)

/-- TICK (R42, R57, R74): the cycle that ends is closed, an armed switch due now is made, and the next cycle opens. -/
def execTick (s0 : State) : Out :=
  let n := s0.cyc.tick + 1
  let s := stressSync (advanceTo (tickU s0.cyc.rate n) s0)
  if !s.cyc.running || Nat.blt s.time.now (tickU s.cyc.rate n) then .next s
  else
    let ended := s.cyc.tick
    let t0 := s.cyc.t0
    let u := tickInputs s
    let a := if u.cyc.closed then u.onPair (fun p => { p with skipped := p.skipped + p.shadow.length, shadow := [] }) else settleShadow u
    let a1 := if a.plan.armed = some n then dueSwitch n a else a
    let b := if a1.cyc.closed then a1 else endOfCycle a1
    let c := { b with cyc := { b.cyc with
      tick := n, t0 := tickU b.cyc.rate n, count := b.cyc.count + 1, bursts := [], published := false, closed := false } }
    .next (openCycle ended t0 (holdRow c))

/-- CYCLE_FIRST_TICK (R29, R76): the cycle begins at its scheduled tick. -/
def execCycleFirstTick (s0 : State) : Out :=
  match s0.cyc.first with
  | none => .next s0
  | some n =>
    let rate := planRate s0.image
    let s := stressSync (advanceTo (tickU rate n) s0)
    if s.cyc.running || Nat.blt s.time.now (tickU rate n) then .next s
    else .next (openCycle n (tickU rate n) (holdRow (beginCycle n s)))

end Sys2Proof.Machine
end

