-- ==== Sys2Proof/Machine/Pair.lean ====
section
/-! DEFINITION. The commands and events of a redundant pair (R568 to R598): the mirror link, the grip, request bursts, forwarded bursts
and the return of a unit. -/

namespace Sys2Proof.Machine

/-! ### Commands (R589, R590) -/

/-- Flags of the partner's last time frame. -/
def partnerFlags (s : State) : Nat := match s.pair.partner with | some f => f.flags | none => 0

/-- PAIR_STATUS (R590). -/
def pairStatusBody (s : State) (_ : Request) (_ : Nat) : Reply :=
  let p := s.pair
  orElse (isFull s.var) St.unsupported <|
  .ok s (b8 p.state ++ b8 (bit p.grip) ++ b8 (partnerFlags s) ++ zeros 1 ++ b32 p.epoch ++ b32 (p.leaseEnd % 4294967296) ++
    cu24 (clampI p.tie 0 32000).toNat ++ c24 (clampI p.offset (-8388608) 8388607) ++ b32 p.divergences ++ b32 p.skipped)

/-- PAIR_JOIN (R568, R589): forwarding starts, and so does the identity check. -/
def pairJoinBody (s : State) (q : Request) (_ : Nat) : Reply :=
  orElse (isFull s.var) St.unsupported <|
  orElse (s.pair.id != 0 && s.pair.join.isNone) St.badState <|
  let s1 := parPromote s (fun _ _ => true) .pairJoin
  .pend (addPend (s1.onPair (fun p => { p with
    joined := true, state := 1, join := some (.identity s.time.now), timeLocked := false, timeFrame := [], confirmed := 0, mirrorValid := false }))
    Cmd.pairJoin q)

/-- GRIP_RELEASE (R589, R590). -/
def gripReleaseBody (s : State) (_ : Request) (_ : Nat) : Reply :=
  orElse (isFull s.var) St.unsupported <|
  orElse (s.pair.id != 0 && s.pair.grip) St.gripNotHeld <|
  orElse (partnerFlag s 6) St.pairNotReady <|
  .ok (s.onPair (fun p => { p with release := true })) []

/-- PAIR_STATUS -/
def execPairStatus (dt : Nat) (q : Request) (s : State) : Out := .next (serve Cmd.pairStatus pairStatusBody dt q s)
/-- PAIR_JOIN -/
def execPairJoin (dt : Nat) (q : Request) (s : State) : Out := .next (serve Cmd.pairJoin pairJoinBody dt q s)
/-- GRIP_RELEASE -/
def execGripRelease (dt : Nat) (q : Request) (s : State) : Out := .next (serve Cmd.gripRelease gripReleaseBody dt q s)

/-- PAIR_IDENTITY_TIMEOUT (R589): 10 ms without a matching partner. -/
def execPairIdentityTimeout (dt : Nat) (s0 : State) : Out :=
  let s := advance dt s0
  match s.pair.join with
  | some (.identity t) =>
    if t + 10000000 * nsU ≤ s.time.now then
      .next (finish (s.onPair (fun p => { p with join := none })) Cmd.pairJoin 0 St.pairMismatch)
    else .next s
  | _ => .next s

/-- PAIR_RESYNC_TIMEOUT (R589): two seconds from the first tick; the resync restarts at its snapshot. -/
def execPairResyncTimeout (dt : Nat) (s0 : State) : Out :=
  let s := advance dt s0
  match s.pair.join with
  | some (.resync t) =>
    if t + 2 * secU ≤ s.time.now then
      .next (finish (s.onPair (fun p => { p with join := some (.resync s.time.now), confirmed := 0 })) Cmd.pairJoin 0 St.pairNotReady)
    else .next s
  | _ => .next s

/-! ### The mirror link (R571 to R574) -/

/-- An instant in a departure field. -/
def departU (f : Bytes) (o : Nat) : Nat := uAt f o 6 * secU + uAt f (o + 6) 4 * nsU + uAt f (o + 10) 2 * 65536

/-- The fields of a time frame (R572). -/
def partnerFrame (f : Bytes) : PartnerFrame :=
  { pairId := uAt f 1 1, devState := uAt f 2 1, flags := uAt f 3 1, tick := uAt f 4 8, departure := departU f 12, epoch := uAt f 24 4,
    holder := uAt f 28 1, divergences := uAt f 29 1, leaseEnd := uAt f 30 2, planId := uAt f 32 4, fwVersion := uAt f 36 4,
    arrival := uAt f 40 4, tie := uAt f 44 4 }

/-- Base period on which the pair's ticks count, in units. -/
def pairPeriodU (s : State) : Nat := periodNs (switchRate s) * nsU

/-- Own time less the partner's by two-way stamps, in units (R571): half the difference of the two apparent delays. -/
def pairOffset (s : State) (f : PartnerFrame) : Option Int :=
  let before : Int := ((f.tick - 1 : Nat) : Int) * pairPeriodU s
  let own : Int := if s.cyc.running then before else departU s.pair.timeFrame 12
  if f.arrival = 0 ∨ (s.cyc.running = false ∧ s.pair.timeFrame = []) then none
  else some ((((s.time.now : Int) - f.departure) - (before + f.arrival * 268435456 - own)) / 2)

/-- The unit that does not hold the grip follows the holder's device time: before its lock it may step (R571). -/
def followTime (s : State) (f : PartnerFrame) : State :=
  if s.pair.grip || !s.pair.joined then s
  else match pairOffset s f with
    | none => s
    | some d =>
      let near := decide (d.natAbs ≤ 2 * nsU)
      let s1 := s.onPair (fun p => { p with offset := rdiv d 268435456, timeLocked := p.timeLocked || near })
      if near then s1
      else if s.pair.timeLocked || s.cyc.running then withTime s1 (startSlew (-d))
      else stepTime s1 (-d)

/-- The identity check of a join (R589); `grip_cycles` is in no frame and is taken as equal (log 33). -/
def sameIdentity (s : State) (f : PartnerFrame) : Bool :=
  f.pairId != s.pair.id && f.pairId != 0 && f.fwVersion == fwWord s && f.planId == planId s.image

/-- The steps of a join that a time frame moves on (R589). -/
def stepJoin (s : State) (f : PartnerFrame) : State :=
  let s1 := match s.pair.join with
    | some (.identity _) => if sameIdentity s f then s.onPair (fun p => { p with join := some (.timeLock s.time.now) }) else s
    | _ => s
  match s1.pair.join with
  | some (.timeLock _) =>
    if s1.pair.timeLocked then
      s1.onPair (fun p => if s1.cyc.running then { p with join := some (.resync s1.time.now), state := 2, confirmed := 0 }
                          else { p with join := some .firstTick })
    else s1
  | _ => s1

/-- The holder reports a divergence that the tailstock has counted (R576). -/
def heardDivergence (s : State) (f : PartnerFrame) : State :=
  match s.pair.partner with
  | some g =>
    if s.pair.grip && f.divergences != g.divergences then
      raiseWarn (s.onPair (fun p => { p with lastDivergence := some s.cyc.tick })) Ev.mirrorDivergence
    else s
  | none => s

/-- A joining unit whose cycle does not run answers with its own time frame (R572). -/
def answerFrame (s : State) : State :=
  if s.cyc.running || !s.pair.joined then s
  else
    let n := s.time.now / pairPeriodU s
    s.onPair (fun p => { p with timeFrame := timeFrameOf s n s.time.now ((n - 1) * pairPeriodU s) })

/-- MIRROR_TIME_FRAME_RX (R569, R571, R572, R576, R589). -/
def execMirrorTimeFrameRx (dt : Nat) (frame : Bytes) (s0 : State) : Out :=
  let s := advance dt s0
  if !pairUp s || !goodFrame frame || uAt frame 0 1 != 0x11 || frame.length != 56 then .next s
  else
    let f := partnerFrame frame
    let s1 := stepJoin (followTime (heardDivergence s f) f) f
    .next (answerFrame (s1.onPair (fun p => { p with
      partner := some f, heardAt := s1.time.now, tie := if p.id = 1 && f.tie != 0 then f.tie else p.tie })))

/-- MIRROR_STREAM_COMPLETE (R574): a close frame; a stream that arrives in time and checks waits for its tick. -/
def execMirrorStreamComplete (dt : Nat) (st : MirrorStream) (s0 : State) : Out :=
  let s := advance dt s0
  if pairUp s && !s.pair.grip && s.cyc.running && st.checks &&
      Nat.ble (s.time.now + 500 * nsU) (tickU s.cyc.rate (st.cycle + 2)) && Nat.ble st.cycle s.cyc.tick then
    .next (s.onPair (fun p => { p with
      mirrorValid := true, adopted := s.cyc.tick, streams := p.streams.filter (fun e => e.1 != st.cycle) ++ [(st.cycle, st.items)] }))
  else .next s

/-- MIRROR_LOST (R574, R586): mirror_loss_cycles with neither a stream nor a time frame. -/
def execMirrorLost (dt : Nat) (s0 : State) : Out :=
  let s := advance dt s0
  if pairUp s && s.cyc.running && Nat.ble (parN s Par.mirrorLossCycles 0) s.pair.silent && !s.pair.mirrorLost then
    .next (raiseWarn (s.onPair (fun p => { p with
      mirrorLost := true, state := if p.state = 0 ∨ p.state = 3 then 5 else p.state })) Ev.mirrorLost)
  else .next s

/-- MIRROR_BULK_FRAME_RX (R589): a part of the holder's snapshot reaches a resyncing unit. -/
def execMirrorBulkFrameRx (dt : Nat) (items : List MirrorItem) (s0 : State) : Out :=
  let s := advance dt s0
  match s.pair.join with
  | some (.resync _) => if pairUp s && !s.pair.grip then .next (items.foldl adoptItem s) else .next s
  | _ => .next s

/-! ### The grip (R579, R581, R582, R585) -/

/-- The tick that the low 16 bits of a lease end name, near the present tick (R579). -/
def leaseTick (n low : Nat) : Nat := ((n : Int) + signed 16 (twos 16 ((low : Int) - n))).toNat

/-- An epoch is newer than a known one (R583). -/
def newerEpoch (e k : Nat) : Bool := let d := (e + 4294967296 - k) % 4294967296; Nat.ble 1 d && Nat.ble d 2147483648

/-- A unit that takes the grip in a state that allows no enabled axes handles them as on entry into that state (R585, R595). -/
def settleAxes (s : State) : State :=
  match s.dev.mode with
  | .operational => s
  | .safeHold => (allAxes s).foldl (requestStop true false) s
  | .preop => (allAxes s).foldl (requestStop false true) s
  | _ => (allAxes s).foldl faultStop s

/-- GRANT_RECORD_RX (R579, R581, R582, R592): a first good copy of the witness's record. -/
def execGrantRecordRx (dt : Nat) (record : Bytes) (s0 : State) : Out :=
  let s := advance dt s0
  let e := uAt record 0 4
  let h := uAt record 4 1
  let l := leaseTick s.cyc.tick (uAt record 6 2)
  if !pairUp s || record.length != 16 || uAt record 12 2 != crc16 (record.take 12) then .next s
  else if newerEpoch e s.pair.epoch then
    let s1 := s.onPair (fun p => { p with epoch := e, holder := h, leaseEnd := l, renewed := uAt record 5 1 == 1 })
    if s.pair.grip && h != s.pair.id then .next (loseGrip (s1.onPair (fun p => { p with turn := some false })))
    else if !s.pair.grip && h == s.pair.id then
      .next (settleAxes (raiseInfo (s1.onPair (fun p => { p with turn := some true })) Ev.gripAcquired))
    else .next s1
  else if e = s.pair.epoch then
    .next (s.onPair (fun p => { p with holder := h, leaseEnd := l, renewed := p.renewed || (uAt record 5 1 == 1 && h == p.holder) }))
  else .next s

/-- REQUEST_BURST (R582): burst 1 of a non-holder on each ring where the holder's was missing. -/
def execRequestBurst (dt : Nat) (s0 : State) : Out :=
  let s := advance dt s0
  if pairUp s && s.cyc.running && !s.pair.grip && s.pair.request == 2 then
    let s1 := s.pair.missedRings.foldl (fun s r => if ringSilent s r then s else launchBurst1 r s) s
    .next (s1.onPair (fun p => { p with missedRings := [] }))
  else .next s

/-! ### Forwarded bursts (R555, R568, R569, R576, R578) -/

/-- What a passing copy of burst 1 takes from the unit (R555, R578): its request and status, and its safety messages in the partner
area. -/
def writeOwn (s : State) (r : Nat) (f : Bytes) : Bytes :=
  let i := s.pair.id - 1
  let area := 80 + uAt f 76 2
  let room := uAt f 78 2
  let msgs := (ringConns s r).flatMap (fun c => (s.conn c).out.getD [])
  withTrailer ((patch (patch (patch f (48 + i) (b8 s.pair.request)) (50 + i) (b8 (stByte s))) area (slice msgs 0 room)).take (f.length - 8))

/-- Unit 2 measures the tie hop on unit 1's P-ward copies of burst 1 while unit 1 holds the grip (R569). -/
def measureTie (port : Port) (f : Bytes) (s : State) : State :=
  if s.pair.id = 2 ∧ s.pair.holder = 1 ∧ port = .q ∧ bitOf (uAt f 1 1) 3 then
    let l := keep64 (((s.time.now : Int) - departU f 12) / 268435456) s.pair.ties
    s.onPair (fun p => { p with ties := l, tie := (median l).toNat })
  else s

/-- The first good copy of each fresh slice of a burst is compared (R576). -/
def shadowBurst (r k : Nat) (f : Bytes) (s : State) : State :=
  (burstSlices s.image r k).foldl (fun s e =>
    let h := slice f e.2 e.1.downLen
    if s.pair.copied.contains e.1.axis || !sliceGood (s.cyc.tick % 256) h || !bitOf (uAt h 0 1) 0 then s
    else
      let s1 := s.onPair (fun p => { p with copied := p.copied ++ [e.1.axis] })
      if bitOf (uAt h 0 1) 2 then s1 else shadowSlice e.1.axis h s1) s

/-- A copy of burst 1 counts as the holder's of this cycle (R582): it carries this cycle's number, it has come by the ring's gather
deadline, it is no request burst of the partner, and it is the first one. -/
def holderCopy (s : State) (r : Nat) (f : Bytes) : Bool :=
  !s.pair.burst1Rings.contains r && uAt f 3 1 == s.cyc.tick % 256 && Nat.ble s.time.now (s.cyc.t0 + gatherOf s.image r * nsU) &&
    uAt f (50 - s.pair.id) 1 != 2

/-- FORWARDED_BURST_COPY (R555, R568, R569, R576, R578, R582): a copy passes to the other port. -/
def execForwardedBurstCopy (dt : Nat) (ring : Nat) (port : Port) (frame : Bytes) (s0 : State) : Out :=
  let s := advance dt s0
  if !relays s ring || uAt frame 0 1 != 1 then .next s
  else
    let good := goodFrame frame
    let k := uAt frame 1 1 % 8
    let out := if good && k == 1 then writeOwn s ring frame else frame
    let s1 := sendFrames ring [{ port := otherPort port, frame := out }] s
    if !good || !s.cyc.running then .next s1
    else if k = 1 then
      let s2 := measureTie port frame (departMsgs ring s1)
      .next (if holderCopy s ring frame then s2.onPair (fun p => { p with burst1Rings := p.burst1Rings ++ [ring] }) else s2)
    else if uAt frame 3 1 = s.cyc.tick % 256 then .next (shadowBurst ring k frame s1)
    else .next s1

end Sys2Proof.Machine
end

