-- ==== Sys2Proof/Machine/Dispatch.lean ====
section
/-! DEFINITION. One arm per command, in the order of spec/opcode_table.json. -/

namespace Sys2Proof.Machine

def exec (i : Instr) (s : State) : Host.Outcome State Fault Refusal :=
  match i with
  | .sysCaps dt q => Sys2Proof.Machine.execSysCaps dt q s
  | .sysReset dt q => Sys2Proof.Machine.execSysReset dt q s
  | .sysStandby dt q => Sys2Proof.Machine.execSysStandby dt q s
  | .sysOperate dt q => Sys2Proof.Machine.execSysOperate dt q s
  | .sysPreop dt q => Sys2Proof.Machine.execSysPreop dt q s
  | .sysPreopDone dt => Sys2Proof.Machine.execSysPreopDone dt s
  | .safeHold dt q => Sys2Proof.Machine.execSafeHold dt q s
  | .safeHoldRelease dt q => Sys2Proof.Machine.execSafeHoldRelease dt q s
  | .faultClear dt q => Sys2Proof.Machine.execFaultClear dt q s
  | .powerDomain dt q => Sys2Proof.Machine.execPowerDomain dt q s
  | .powerDomainSwitched dt domain => Sys2Proof.Machine.execPowerDomainSwitched dt domain s
  | .pdHoldMaxExpiry dt => Sys2Proof.Machine.execPdHoldMaxExpiry dt s
  | .bootInfo dt q => Sys2Proof.Machine.execBootInfo dt q s
  | .fwStageWrite dt q => Sys2Proof.Machine.execFwStageWrite dt q s
  | .fwStageCommit dt q => Sys2Proof.Machine.execFwStageCommit dt q s
  | .paramRead dt q => Sys2Proof.Machine.execParamRead dt q s
  | .paramWrite dt q => Sys2Proof.Machine.execParamWrite dt q s
  | .planLoad dt q => Sys2Proof.Machine.execPlanLoad dt q s
  | .planCommit dt q => Sys2Proof.Machine.execPlanCommit dt q s
  | .planVerifyDone dt => Sys2Proof.Machine.execPlanVerifyDone dt s
  | .planSwitch => Sys2Proof.Machine.execPlanSwitch s
  | .cycleStart dt q => Sys2Proof.Machine.execCycleStart dt q s
  | .cycleFirstTick => Sys2Proof.Machine.execCycleFirstTick s
  | .cycleStop dt q => Sys2Proof.Machine.execCycleStop dt q s
  | .planStatus dt q => Sys2Proof.Machine.execPlanStatus dt q s
  | .planStore dt q => Sys2Proof.Machine.execPlanStore dt q s
  | .planRecall dt q => Sys2Proof.Machine.execPlanRecall dt q s
  | .flowPlace dt q => Sys2Proof.Machine.execFlowPlace dt q s
  | .ringEnumerate dt q => Sys2Proof.Machine.execRingEnumerate dt q s
  | .enumFrameReturn dt ring port frame => Sys2Proof.Machine.execEnumFrameReturn dt ring port frame s
  | .enumTimeout dt ring => Sys2Proof.Machine.execEnumTimeout dt ring s
  | .ringStatus dt q => Sys2Proof.Machine.execRingStatus dt q s
  | .nodeIdentity dt q => Sys2Proof.Machine.execNodeIdentity dt q s
  | .nodeEnable dt q => Sys2Proof.Machine.execNodeEnable dt q s
  | .nodeAliasSet dt q => Sys2Proof.Machine.execNodeAliasSet dt q s
  | .nodeParamRead dt q => Sys2Proof.Machine.execNodeParamRead dt q s
  | .nodeParamWrite dt q => Sys2Proof.Machine.execNodeParamWrite dt q s
  | .tunnelConfig dt q => Sys2Proof.Machine.execTunnelConfig dt q s
  | .axisEnable dt q => Sys2Proof.Machine.execAxisEnable dt q s
  | .axisEnabled dt axis => Sys2Proof.Machine.execAxisEnabled dt axis s
  | .axisEnableTimeout dt axis => Sys2Proof.Machine.execAxisEnableTimeout dt axis s
  | .axisDisable dt q => Sys2Proof.Machine.execAxisDisable dt q s
  | .brakeEngageExpiry dt axis => Sys2Proof.Machine.execBrakeEngageExpiry dt axis s
  | .axisStatus dt q => Sys2Proof.Machine.execAxisStatus dt q s
  | .axisSource dt q => Sys2Proof.Machine.execAxisSource dt q s
  | .gearRatio dt q => Sys2Proof.Machine.execGearRatio dt q s
  | .gearEngage dt q => Sys2Proof.Machine.execGearEngage dt q s
  | .gearDisengage dt q => Sys2Proof.Machine.execGearDisengage dt q s
  | .gearRampEnd dt axis => Sys2Proof.Machine.execGearRampEnd dt axis s
  | .axisFaultClear dt q => Sys2Proof.Machine.execAxisFaultClear dt q s
  | .lawLoad dt q => Sys2Proof.Machine.execLawLoad dt q s
  | .lawUnload dt q => Sys2Proof.Machine.execLawUnload dt q s
  | .lawInfo dt q => Sys2Proof.Machine.execLawInfo dt q s
  | .lawCoefWrite dt q => Sys2Proof.Machine.execLawCoefWrite dt q s
  | .lawTest dt q => Sys2Proof.Machine.execLawTest dt q s
  | .moveAbs dt q => Sys2Proof.Machine.execMoveAbs dt q s
  | .moveRel dt q => Sys2Proof.Machine.execMoveRel dt q s
  | .stop dt q => Sys2Proof.Machine.execStop dt q s
  | .hold dt q => Sys2Proof.Machine.execHold dt q s
  | .resume dt q => Sys2Proof.Machine.execResume dt q s
  | .home dt q => Sys2Proof.Machine.execHome dt q s
  | .homingReferenceShift dt axis => Sys2Proof.Machine.execHomingReferenceShift dt axis s
  | .homingNotFound dt axis => Sys2Proof.Machine.execHomingNotFound dt axis s
  | .homingChatter dt axis => Sys2Proof.Machine.execHomingChatter dt axis s
  | .groupDefine dt q => Sys2Proof.Machine.execGroupDefine dt q s
  | .groupMove dt q => Sys2Proof.Machine.execGroupMove dt q s
  | .groupLimits dt q => Sys2Proof.Machine.execGroupLimits dt q s
  | .motionStatus dt q => Sys2Proof.Machine.execMotionStatus dt q s
  | .moveComplete dt who => Sys2Proof.Machine.execMoveComplete dt who s
  | .switchQualified dt axis sw => Sys2Proof.Machine.execSwitchQualified dt axis sw s
  | .stepperHoldDelayExpiry dt axis => Sys2Proof.Machine.execStepperHoldDelayExpiry dt axis s
  | .stepperWakeDone dt axis => Sys2Proof.Machine.execStepperWakeDone dt axis s
  | .pwmTripClear dt q => Sys2Proof.Machine.execPwmTripClear dt q s
  | .pwmStatus dt q => Sys2Proof.Machine.execPwmStatus dt q s
  | .encIndexArm dt q => Sys2Proof.Machine.execEncIndexArm dt q s
  | .encFaultClear dt q => Sys2Proof.Machine.execEncFaultClear dt q s
  | .probeArm dt q => Sys2Proof.Machine.execProbeArm dt q s
  | .probeRead dt q => Sys2Proof.Machine.execProbeRead dt q s
  | .adcRefEnable dt q => Sys2Proof.Machine.execAdcRefEnable dt q s
  | .adcRefReady dt => Sys2Proof.Machine.execAdcRefReady dt s
  | .adcCalibrate dt q => Sys2Proof.Machine.execAdcCalibrate dt q s
  | .adcCalibrateDone dt factors => Sys2Proof.Machine.execAdcCalibrateDone dt factors s
  | .adcCalSave dt q => Sys2Proof.Machine.execAdcCalSave dt q s
  | .adcCalRestore dt q => Sys2Proof.Machine.execAdcCalRestore dt q s
  | .localInStatus dt q => Sys2Proof.Machine.execLocalInStatus dt q s
  | .timeRead dt q => Sys2Proof.Machine.execTimeRead dt q s
  | .timeSet dt q => Sys2Proof.Machine.execTimeSet dt q s
  | .slewDone dt => Sys2Proof.Machine.execSlewDone dt s
  | .timeTrim dt q => Sys2Proof.Machine.execTimeTrim dt q s
  | .ptpConfig dt q => Sys2Proof.Machine.execPtpConfig dt q s
  | .ptpStatus dt q => Sys2Proof.Machine.execPtpStatus dt q s
  | .ptpMessageRx dt m => Sys2Proof.Machine.execPtpMessageRx dt m s
  | .ptpMessageTx dt port kind req => Sys2Proof.Machine.execPtpMessageTx dt port kind req s
  | .plantFrameRx dt port => Sys2Proof.Machine.execPlantFrameRx dt port s
  | .toutSet dt q => Sys2Proof.Machine.execToutSet dt q s
  | .toutStop dt q => Sys2Proof.Machine.execToutStop dt q s
  | .toutPulse out => Sys2Proof.Machine.execToutPulse out s
  | .plantTx dt q => Sys2Proof.Machine.execPlantTx dt q s
  | .timedFrameLaunch port => Sys2Proof.Machine.execTimedFrameLaunch port s
  | .calSegList dt q => Sys2Proof.Machine.execCalSegList dt q s
  | .calMaskWrite dt q => Sys2Proof.Machine.execCalMaskWrite dt q s
  | .calArm dt q => Sys2Proof.Machine.execCalArm dt q s
  | .calStop dt q => Sys2Proof.Machine.execCalStop dt q s
  | .calForce dt q => Sys2Proof.Machine.execCalForce dt q s
  | .calStatus dt q => Sys2Proof.Machine.execCalStatus dt q s
  | .calRead dt q => Sys2Proof.Machine.execCalRead dt q s
  | .calSkewCalibrate dt q => Sys2Proof.Machine.execCalSkewCalibrate dt q s
  | .calSkewStore dt q => Sys2Proof.Machine.execCalSkewStore dt q s
  | .calBusMeasure dt q => Sys2Proof.Machine.execCalBusMeasure dt q s
  | .calRow dt run => Sys2Proof.Machine.execCalRow dt run s
  | .trigBusEdge dt line => Sys2Proof.Machine.execTrigBusEdge dt line s
  | .syncClkLost dt => Sys2Proof.Machine.execSyncClkLost dt s
  | .dmaSetup dt q => Sys2Proof.Machine.execDmaSetup dt q s
  | .dmaStart dt q => Sys2Proof.Machine.execDmaStart dt q s
  | .dmaListWrite dt q => Sys2Proof.Machine.execDmaListWrite dt q s
  | .dmaAppend dt q => Sys2Proof.Machine.execDmaAppend dt q s
  | .dmaClose dt q => Sys2Proof.Machine.execDmaClose dt q s
  | .dmaAbort dt q => Sys2Proof.Machine.execDmaAbort dt q s
  | .dmaStatus dt q => Sys2Proof.Machine.execDmaStatus dt q s
  | .dmaEntryRead dt ch entry => Sys2Proof.Machine.execDmaEntryRead dt ch entry s
  | .dmaBurst dt ch data read => Sys2Proof.Machine.execDmaBurst dt ch data read s
  | .safetyStatus dt q => Sys2Proof.Machine.execSafetyStatus dt q s
  | .safetyImageRead dt q => Sys2Proof.Machine.execSafetyImageRead dt q s
  | .safetyConnStatus dt q => Sys2Proof.Machine.execSafetyConnStatus dt q s
  | .pairStatus dt q => Sys2Proof.Machine.execPairStatus dt q s
  | .pairJoin dt q => Sys2Proof.Machine.execPairJoin dt q s
  | .pairResyncTimeout dt => Sys2Proof.Machine.execPairResyncTimeout dt s
  | .gripRelease dt q => Sys2Proof.Machine.execGripRelease dt q s
  | .eventRead dt q => Sys2Proof.Machine.execEventRead dt q s
  | .shavingsStatus dt q => Sys2Proof.Machine.execShavingsStatus dt q s
  | .shavingsRead dt q => Sys2Proof.Machine.execShavingsRead dt q s
  | .shavingsFreeze dt q => Sys2Proof.Machine.execShavingsFreeze dt q s
  | .shavingsCommitDone dt => Sys2Proof.Machine.execShavingsCommitDone dt s
  | .dispatchEngineStats dt q => Sys2Proof.Machine.execDispatchEngineStats dt q s
  | .dispatchLevelStats dt q => Sys2Proof.Machine.execDispatchLevelStats dt q s
  | .dispatchFlowStats dt q => Sys2Proof.Machine.execDispatchFlowStats dt q s
  | .dispatchStatsClear dt q => Sys2Proof.Machine.execDispatchStatsClear dt q s
  | .truingRun dt q => Sys2Proof.Machine.execTruingRun dt q s
  | .truingStatus dt q => Sys2Proof.Machine.execTruingStatus dt q s
  | .truingPassStart dt => Sys2Proof.Machine.execTruingPassStart dt s
  | .truingPassEnd dt r => Sys2Proof.Machine.execTruingPassEnd dt r s
  | .avsReadback dt mv => Sys2Proof.Machine.execAvsReadback dt mv s
  | .tick => Sys2Proof.Machine.execTick s
  | .outputSnapshot => Sys2Proof.Machine.execOutputSnapshot s
  | .burstLaunch dt ring k => Sys2Proof.Machine.execBurstLaunch dt ring k s
  | .bundleDeadlineFail dt bundle => Sys2Proof.Machine.execBundleDeadlineFail dt bundle s
  | .outputMissed dt axis => Sys2Proof.Machine.execOutputMissed dt axis s
  | .bundleFailed dt bundle => Sys2Proof.Machine.execBundleFailed dt bundle s
  | .piInputPublish dt => Sys2Proof.Machine.execPiInputPublish dt s
  | .acyclicFrameTx dt ring => Sys2Proof.Machine.execAcyclicFrameTx dt ring s
  | .upFrameRx dt ring port frame => Sys2Proof.Machine.execUpFrameRx dt ring port frame s
  | .burstClosureRx dt ring port frame => Sys2Proof.Machine.execBurstClosureRx dt ring port frame s
  | .gatherDeadline dt ring => Sys2Proof.Machine.execGatherDeadline dt ring s
  | .acyclicFrameRx dt ring port frame => Sys2Proof.Machine.execAcyclicFrameRx dt ring port frame s
  | .acyclicResponseTimeout dt node => Sys2Proof.Machine.execAcyclicResponseTimeout dt node s
  | .laneSignalLoss dt ring hop dir => Sys2Proof.Machine.execLaneSignalLoss dt ring hop dir s
  | .ringClosed dt ring => Sys2Proof.Machine.execRingClosed dt ring s
  | .nodeLost dt node => Sys2Proof.Machine.execNodeLost dt node s
  | .tunnelTxSlot dt ring tail => Sys2Proof.Machine.execTunnelTxSlot dt ring tail s
  | .taskReady dt task => Sys2Proof.Machine.execTaskReady dt task s
  | .taskDispatch dt read => Sys2Proof.Machine.execTaskDispatch dt read s
  | .taskComplete dt read clocks => Sys2Proof.Machine.execTaskComplete dt read clocks s
  | .taskOverrun dt engine => Sys2Proof.Machine.execTaskOverrun dt engine s
  | .lawFault dt engine code => Sys2Proof.Machine.execLawFault dt engine code s
  | .engineFault dt engine => Sys2Proof.Machine.execEngineFault dt engine s
  | .engineStall dt engine => Sys2Proof.Machine.execEngineStall dt engine s
  | .engineTestDone dt engine pass => Sys2Proof.Machine.execEngineTestDone dt engine pass s
  | .nop e m1 m2 => Sys2Proof.Machine.execNop e m1 m2 s
  | .pset e ad neg xa xb m1 m2 => Sys2Proof.Machine.execPset e ad neg xa xb m1 m2 s
  | .psetr e ad neg xa xb m1 m2 => Sys2Proof.Machine.execPsetr e ad neg xa xb m1 m2 s
  | .pacc e ad neg xa xb m1 m2 => Sys2Proof.Machine.execPacc e ad neg xa xb m1 m2 s
  | .paccr e ad neg xa xb m1 m2 => Sys2Proof.Machine.execPaccr e ad neg xa xb m1 m2 s
  | .psetu e ad neg xa xb m1 m2 => Sys2Proof.Machine.execPsetu e ad neg xa xb m1 m2 s
  | .psetur e ad neg xa xb m1 m2 => Sys2Proof.Machine.execPsetur e ad neg xa xb m1 m2 s
  | .paccu e ad neg xa xb m1 m2 => Sys2Proof.Machine.execPaccu e ad neg xa xb m1 m2 s
  | .paccur e ad neg xa xb m1 m2 => Sys2Proof.Machine.execPaccur e ad neg xa xb m1 m2 s
  | .aadd e ad ar m1 m2 => Sys2Proof.Machine.execAadd e ad ar m1 m2 s
  | .asub e ad ar m1 m2 => Sys2Proof.Machine.execAsub e ad ar m1 m2 s
  | .aadx e ad xa m1 m2 => Sys2Proof.Machine.execAadx e ad xa m1 m2 s
  | .asbx e ad xa m1 m2 => Sys2Proof.Machine.execAsbx e ad xa m1 m2 s
  | .acmp e ad ar m1 m2 => Sys2Proof.Machine.execAcmp e ad ar m1 m2 s
  | .acpx e ad xa m1 m2 => Sys2Proof.Machine.execAcpx e ad xa m1 m2 s
  | .acpy e ad ar m1 m2 => Sys2Proof.Machine.execAcpy e ad ar m1 m2 s
  | .aldx e ad xa m1 m2 => Sys2Proof.Machine.execAldx e ad xa m1 m2 s
  | .azro e ad m1 m2 => Sys2Proof.Machine.execAzro e ad m1 m2 s
  | .aneg e ad m1 m2 => Sys2Proof.Machine.execAneg e ad m1 m2 s
  | .aabs e ad m1 m2 => Sys2Proof.Machine.execAabs e ad m1 m2 s
  | .rnd e ad m1 m2 => Sys2Proof.Machine.execRnd e ad m1 m2 s
  | .asat e ad m1 m2 => Sys2Proof.Machine.execAsat e ad m1 m2 s
  | .ashl e ad sh m1 m2 => Sys2Proof.Machine.execAshl e ad sh m1 m2 s
  | .ashr e ad sh m1 m2 => Sys2Proof.Machine.execAshr e ad sh m1 m2 s
  | .sclb e ad m1 m2 => Sys2Proof.Machine.execSclb e ad m1 m2 s
  | .bexpa e ad m1 m2 => Sys2Proof.Machine.execBexpa e ad m1 m2 s
  | .qstep e ad xa m1 m2 => Sys2Proof.Machine.execQstep e ad xa m1 m2 s
  | .maxi e ad xa m1 m2 => Sys2Proof.Machine.execMaxi e ad xa m1 m2 s
  | .mini e ad xa m1 m2 => Sys2Proof.Machine.execMini e ad xa m1 m2 s
  | .xhi e xd ad m1 m2 => Sys2Proof.Machine.execXhi e xd ad m1 m2 s
  | .xhir e xd ad m1 m2 => Sys2Proof.Machine.execXhir e xd ad m1 m2 s
  | .xlo e xd ad m1 m2 => Sys2Proof.Machine.execXlo e xd ad m1 m2 s
  | .xcpy e xd xa m1 m2 => Sys2Proof.Machine.execXcpy e xd xa m1 m2 s
  | .xadd e xd xa xb m1 m2 => Sys2Proof.Machine.execXadd e xd xa xb m1 m2 s
  | .xsub e xd xa xb m1 m2 => Sys2Proof.Machine.execXsub e xd xa xb m1 m2 s
  | .xand e xd xa xb m1 m2 => Sys2Proof.Machine.execXand e xd xa xb m1 m2 s
  | .xior e xd xa xb m1 m2 => Sys2Proof.Machine.execXior e xd xa xb m1 m2 s
  | .xeor e xd xa xb m1 m2 => Sys2Proof.Machine.execXeor e xd xa xb m1 m2 s
  | .xbit e xa bit m1 m2 => Sys2Proof.Machine.execXbit e xa bit m1 m2 s
  | .bexp e xa m1 m2 => Sys2Proof.Machine.execBexp e xa m1 m2 s
  | .sclbx e xd xa m1 m2 => Sys2Proof.Machine.execSclbx e xd xa m1 m2 s
  | .sreg e xn sel index toSpecial m1 m2 => Sys2Proof.Machine.execSreg e xn sel index toSpecial m1 m2 s
  | .bxset e v m1 m2 => Sys2Proof.Machine.execBxset e v m1 m2 s
  | .done e m1 m2 => Sys2Proof.Machine.execDone e m1 m2 s
  | .brc e cc t => Sys2Proof.Machine.execBrc e cc t s
  | .call e t => Sys2Proof.Machine.execCall e t s
  | .ret e => Sys2Proof.Machine.execRet e s
  | .decbr e xn t => Sys2Proof.Machine.execDecbr e xn t s
  | .rep e n m1 m2 => Sys2Proof.Machine.execRep e n m1 m2 s
  | .ximm e xd v => Sys2Proof.Machine.execXimm e xd v s
  | .pimm e p v => Sys2Proof.Machine.execPimm e p v s
  | .mimm e p v => Sys2Proof.Machine.execMimm e p v s
  | .limm e p v => Sys2Proof.Machine.execLimm e p v s
  | .debugHaltRequest dt target => Sys2Proof.Machine.execDebugHaltRequest dt target s
  | .debugSingleStep dt engine => Sys2Proof.Machine.execDebugSingleStep dt engine s
  | .feedbackLost dt axis => Sys2Proof.Machine.execFeedbackLost dt axis s
  | .followingError dt axis => Sys2Proof.Machine.execFollowingError dt axis s
  | .streamLost dt axis => Sys2Proof.Machine.execStreamLost dt axis s
  | .slotSample slot => Sys2Proof.Machine.execSlotSample slot s
  | .pwmUpdatePoint timer => Sys2Proof.Machine.execPwmUpdatePoint timer s
  | .bootRefresh dt pair => Sys2Proof.Machine.execBootRefresh dt pair s
  | .tripInput dt input low => Sys2Proof.Machine.execTripInput dt input low s
  | .encIndexEvent dt z => Sys2Proof.Machine.execEncIndexEvent dt z s
  | .encIllegalTransition dt ch => Sys2Proof.Machine.execEncIllegalTransition dt ch s
  | .encWireFault dt ch w => Sys2Proof.Machine.execEncWireFault dt ch w s
  | .dinRawEdge dt n level => Sys2Proof.Machine.execDinRawEdge dt n level s
  | .probeEdge dt n rising => Sys2Proof.Machine.execProbeEdge dt n rising s
  | .ssiExchangeDone dt ch frame lowAtStart => Sys2Proof.Machine.execSsiExchangeDone dt ch frame lowAtStart s
  | .adcTrigger dt inj k => Sys2Proof.Machine.execAdcTrigger dt inj k s
  | .adcConversionDone dt inj n code => Sys2Proof.Machine.execAdcConversionDone dt inj n code s
  | .adcLiveCalStart dt => Sys2Proof.Machine.execAdcLiveCalStart dt s
  | .adcLiveCalDone dt f => Sys2Proof.Machine.execAdcLiveCalDone dt f s
  | .sinChange dt n on1 on2 => Sys2Proof.Machine.execSinChange dt n on1 on2 s
  | .sinDiscrepancy dt pair => Sys2Proof.Machine.execSinDiscrepancy dt pair s
  | .qualifiedReset dt => Sys2Proof.Machine.execQualifiedReset dt s
  | .ss1TimeExpiry dt fn => Sys2Proof.Machine.execSs1TimeExpiry dt fn s
  | .safetyVectorExchange dt vectors => Sys2Proof.Machine.execSafetyVectorExchange dt vectors s
  | .safetyVectorMissing dt => Sys2Proof.Machine.execSafetyVectorMissing dt s
  | .testPulse dt out readsOff => Sys2Proof.Machine.execTestPulse dt out readsOff s
  | .safeMsgTx dt conn agree => Sys2Proof.Machine.execSafeMsgTx dt conn agree s
  | .safeEchoRx dt conn msg => Sys2Proof.Machine.execSafeEchoRx dt conn msg s
  | .safeConnWatchdogExpiry dt conn => Sys2Proof.Machine.execSafeConnWatchdogExpiry dt conn s
  | .clockMonitor reading => Sys2Proof.Machine.execClockMonitor reading s
  | .clockHalted dt => Sys2Proof.Machine.execClockHalted dt s
  | .mirrorTimeFrameRx dt frame => Sys2Proof.Machine.execMirrorTimeFrameRx dt frame s
  | .mirrorStreamComplete dt st => Sys2Proof.Machine.execMirrorStreamComplete dt st s
  | .mirrorLost dt => Sys2Proof.Machine.execMirrorLost dt s
  | .grantRecordRx dt record => Sys2Proof.Machine.execGrantRecordRx dt record s
  | .requestBurst dt => Sys2Proof.Machine.execRequestBurst dt s
  | .sysWatchdogExpiry dt => Sys2Proof.Machine.execSysWatchdogExpiry dt s
  | .hostWatchdogExpiry dt => Sys2Proof.Machine.execHostWatchdogExpiry dt s
  | .resetNAssert dt lowNs taken => Sys2Proof.Machine.execResetNAssert dt lowNs taken s
  | .resetRelease dt hostSel pairSel => Sys2Proof.Machine.execResetRelease dt hostSel pairSel s
  | .firmwareStarted dt b => Sys2Proof.Machine.execFirmwareStarted dt b s
  | .mainRailsLost dt => Sys2Proof.Machine.execMainRailsLost dt s
  | .powerFail dt byPin => Sys2Proof.Machine.execPowerFail dt byPin s
  | .aonSupplyApplied dt main => Sys2Proof.Machine.execAonSupplyApplied dt main s
  | .aonSupplyLost dt => Sys2Proof.Machine.execAonSupplyLost dt s
  | .aonSupplySwitch dt toMain => Sys2Proof.Machine.execAonSupplySwitch dt toMain s
  | .wake dt byPin => Sys2Proof.Machine.execWake dt byPin s
  | .pcieLinkReset dt linkUp => Sys2Proof.Machine.execPcieLinkReset dt linkUp s
  | .mailboxCommandStart dt mail => Sys2Proof.Machine.execMailboxCommandStart dt mail s
  | .notifyPost dt => Sys2Proof.Machine.execNotifyPost dt s
  | .mbReqWrite dt mb tail => Sys2Proof.Machine.execMbReqWrite dt mb tail s
  | .mbRspWrite dt mb head => Sys2Proof.Machine.execMbRspWrite dt mb head s
  | .mbStatWrite dt mb value => Sys2Proof.Machine.execMbStatWrite dt mb value s
  | .tunRxHeadWrite dt ring head => Sys2Proof.Machine.execTunRxHeadWrite dt ring head s
  | .tunStatRead dt ring => Sys2Proof.Machine.execTunStatRead dt ring s
  | .resetReq dt value => Sys2Proof.Machine.execResetReq dt value s
  | .irqMaster dt value => Sys2Proof.Machine.execIrqMaster dt value s
  | .hostHeartbeat dt value => Sys2Proof.Machine.execHostHeartbeat dt value s
  | .timeNsRead dt => Sys2Proof.Machine.execTimeNsRead dt s
  | .evStatusWrite dt n value => Sys2Proof.Machine.execEvStatusWrite dt n value s
  | .bar2Write dt offset data => Sys2Proof.Machine.execBar2Write dt offset data s
  | .registerWrite dt place data => Sys2Proof.Machine.execRegisterWrite dt place data s
  | .mainRailsValid dt => Sys2Proof.Machine.execMainRailsValid dt s
  | .bootFault dt cause => Sys2Proof.Machine.execBootFault dt cause s
  | .lawLoadDone dt => Sys2Proof.Machine.execLawLoadDone dt s
  | .fwStageCommitDone dt target => Sys2Proof.Machine.execFwStageCommitDone dt target s
  | .pairIdentityTimeout dt => Sys2Proof.Machine.execPairIdentityTimeout dt s
  | .mirrorBulkFrameRx dt items => Sys2Proof.Machine.execMirrorBulkFrameRx dt items s
  | .forwardedBurstCopy dt ring port frame => Sys2Proof.Machine.execForwardedBurstCopy dt ring port frame s
  | .syncClkEdge dt => Sys2Proof.Machine.execSyncClkEdge dt s
  | .calBusRetryWait dt waitNs => Sys2Proof.Machine.execCalBusRetryWait dt waitNs s
  | .calNoEchoTimeout dt => Sys2Proof.Machine.execCalNoEchoTimeout dt s
  | .encCountEdge dt ch a b => Sys2Proof.Machine.execEncCountEdge dt ch a b s
  | .ptpLost dt port portState => Sys2Proof.Machine.execPtpLost dt port portState s
  | .cycleHwFault dt cause => Sys2Proof.Machine.execCycleHwFault dt cause s
  | .debugResume dt target => Sys2Proof.Machine.execDebugResume dt target s
  | .outputFault dt out cause => Sys2Proof.Machine.execOutputFault dt out cause s
  | .boundaryScanInstruction dt instr cells => Sys2Proof.Machine.execBoundaryScanInstruction dt instr cells s

end Sys2Proof.Machine
end

