-- ==== Sys2Proof/Machine/Pins.lean ====
section
/-! DEFINITION. The levels that the block drives on its output pins at the present instant, as functions of its state: the PWM outputs
(R392, R393, R395, R397, R400 to R402, R407, R408), the timed outputs (R476), the safety outputs (R546, R547), and when they are released
(R28, R650, R654). IRQ0_N to IRQ3_N are `irqLow`, the trigger-bus lines `drivesNow`, the boundary scan `State.drivenBalls`. -/

namespace Sys2Proof.Machine

/-- What an output shows: off, on (its active level), or high-impedance with its pull-down. -/
inductive OutLevel where
  | off
  | on
  | highZ
  deriving DecidableEq, Repr

/-- On where the condition holds, else off. -/
def onIf (b : Bool) : OutLevel := if b then .on else .off

/-- A safe level code of 0x6010.03 and .04 (R402, R410). -/
def safeLevel (code : Nat) : OutLevel := if code = 0 then .off else if code = 1 then .on else .highZ

/-- The digital outputs are driven: from PREOP on, and not in a FAULT entered from BOOT or CONFIG, nor while RESET_N is low (R28, R393,
R654). -/
def outputsDriven (s : State) : Bool :=
  !s.power.resetLow &&
  (match s.dev.mode with
   | .preop | .operational | .safeHold => true
   | .fault => !s.dev.faultNoCycle
   | _ => false)

/-- The step output of mode 5 is inside one of its pulses (R407). -/
def stepPulse (s : State) (k : Nat) : Bool :=
  match (s.timer k).steps, axisOfSlot s.image k with
  | some r, some a =>
    let w := parN s Par.stepWidth a * stepU
    (List.range r.count).any (fun i => Nat.ble (stepInstant r (2 * w) i) s.time.now && Nat.blt s.time.now (stepInstant r (2 * w) i + w))
  | _, _ => false

/-- Outputs H and L of a pair that follows the carrier (R395, R397). -/
def carrierLevels (s : State) (k i : Nat) (p : PwmPair) : OutLevel × OutLevel :=
  let q := runPair (isSaw s k) (s.timer k) i s.time.now p
  (onIf (q.ideal && q.turnedOn s.time.now), onIf (!q.ideal && q.turnedOn s.time.now))

/-- Outputs H and L of a pair that does not follow the carrier while a refresh pulse runs in it: L by the dead times (R400, R401). -/
def refreshLevels (s : State) (p : PwmPair) : OutLevel × OutLevel :=
  (.off, onIf (Nat.ble (p.refreshAt + p.dtFall * stepU) s.time.now && Nat.blt s.time.now (refreshLowEnd p)))

/-- Outputs H and L of pair `i` of timer `k` by their source (R392, R400, R402). -/
def pairLevels (s : State) (k i : Nat) (p : PwmPair) : OutLevel × OutLevel :=
  let t := s.timer k
  let m := slotMode s k
  if p.source = 1 then (safeLevel (parN s Par.safeH (3 * k + i)), safeLevel (parN s Par.safeL (3 * k + i)))
  else if follows m t.shorted i p.source then carrierLevels s k i p
  else if enablePair m i then (onIf (p.source == 3 && pairSource s p == 3), .off)
  else if p.source ≠ 3 then refreshLevels s p
  else if m = 5 ∧ i = 0 then (onIf (stepPulse s k), onIf (t.dirNeg == Config.dirOnNegative))
  else (.off, .off)

/-- Outputs PWM_H and PWM_L of pair `n` (R4, R393, R650). -/
def pwmLevels (s : State) (n : Nat) : OutLevel × OutLevel :=
  if !outputsDriven s || !Nat.blt n (3 * slotCount s.var) || s.dma.domainsOff.contains 2 then (.highZ, .highZ)
  else match (s.timer (n / 3)).pairs[n % 3]? with
    | some p => pairLevels s (n / 3) (n % 3) p
    | none => (.off, .off)

/-- The level at a ball: none in high impedance, else whether it is high, with a set polarity bit for an output that is low when on
(R393, R476). -/
def ballLevel (inverted : Bool) : OutLevel → Option Bool
  | .on => some (!inverted)
  | .off => some inverted
  | .highZ => none

/-- Balls PWM_H and PWM_L of pair `n` (R393, R410). -/
def pwmBalls (s : State) (n : Nat) : Option Bool × Option Bool :=
  let pol := parN s Par.pwmPolarity (n / 3)
  let v := pwmLevels s n
  (ballLevel (bitOf pol (n % 3)) v.1, ballLevel (bitOf pol (3 + n % 3)) v.2)

/-- Ball TOUTn (R476). -/
def toutBall (s : State) (n : Nat) : Option Bool := if outputsDriven s then some (toutLevel s n) else none

/-- SOUTn (0 to 7), STO_A (8) and STO_B (9) carry current: energized, and outside a test pulse, in which one switch is open (R546, R547). -/
def soutEnergized (s : State) (n : Nat) : Bool :=
  hasLocal s.var && (s.sout n).on && !Nat.blt (safeNs s) (s.sout n).pulseEnd && !s.power.resetLow

end Sys2Proof.Machine
end

