-- ==== Sys2Proof/WellFormed.lean ====
section
/-! DEFINITION. Which terms of Instr stand for commands of the block: operand numbers inside the ranges that the spec gives
the things they name (R3, R6, R361, R362, R315, R328), payloads that fit an entry. -/

namespace Sys2Proof

/-- A request of a mailbox that takes requests, with a tag and a payload that an entry can hold (R361, R362). -/
def wfRequest (q : Request) : Bool := Nat.blt q.mb 7 && Nat.blt q.tag 65536 && Nat.ble q.payload.length 248

/-- An axis or a group that exists (R3, R258). -/
def wfMover : Mover → Bool
  | .axis n => Nat.blt n 128
  | .group n => Nat.blt n 16

/-- A regular sequence or an injected set (R446, R447). -/
def wfRun : Option (Bool × Nat) → Bool
  | none => true
  | some (inj, i) => if inj then Nat.blt i 8 else Nat.blt i 4

/-- An engine that exists, or the time clock. -/
def wfHalt : HaltTarget → Bool
  | .engine e => Nat.blt e 16
  | .timeClock => true

/-- A plant port, and identities of their lengths (R678). -/
def wfPtp (m : PtpRx) : Bool :=
  Nat.blt m.port 2 && Nat.ble m.portState 9 && m.parent.length == 10 && m.grandmaster.length == 8

/-- One value of f_max per engine, lanes that exist (R633, R634). -/
def wfReadings (r : TruingReadings) : Bool := Nat.ble r.fMax.length 16 && r.eyes.all (fun e => Nat.blt e.lane 8)

/-- Sixteen linearity factors, a gain of 24 bits (R454). -/
def wfFactors (f : CoreFactors) : Bool := f.lin.length == 16 && Nat.blt f.gain 16777216

/-- A slot of the boot flash, eight-bit numbers (R672). -/
def wfBoot (b : BootResult) : Bool := Nat.blt b.slot 2 && Nat.ble b.image.length 8388608 && wfReadings b.truing

/-- A write of at most 4,096 bytes, of at most eight into a configuration register; a transaction, which carries its own data, of
whole clocks up to that length (R352). -/
def wfPlace (data : Bytes) : HostPlace → Bool
  | .bar0 _ => Nat.ble data.length 4096
  | .config _ => Nat.ble data.length 8
  | .qspi c => Nat.ble c.length 16384 && data.isEmpty

/-- Whether a term stands for a command of the block. -/
def Instr.wf : Instr → Bool
  | .sysCaps _ q => wfRequest q
  | .sysReset _ q => wfRequest q
  | .sysStandby _ q => wfRequest q
  | .sysOperate _ q => wfRequest q
  | .sysPreop _ q => wfRequest q
  | .sysPreopDone _ => true
  | .safeHold _ q => wfRequest q
  | .safeHoldRelease _ q => wfRequest q
  | .faultClear _ q => wfRequest q
  | .powerDomain _ q => wfRequest q
  | .powerDomainSwitched _ domain => Nat.blt domain 3
  | .pdHoldMaxExpiry _ => true
  | .bootInfo _ q => wfRequest q
  | .fwStageWrite _ q => wfRequest q
  | .fwStageCommit _ q => wfRequest q
  | .paramRead _ q => wfRequest q
  | .paramWrite _ q => wfRequest q
  | .planLoad _ q => wfRequest q
  | .planCommit _ q => wfRequest q
  | .planVerifyDone _ => true
  | .planSwitch  => true
  | .cycleStart _ q => wfRequest q
  | .cycleFirstTick  => true
  | .cycleStop _ q => wfRequest q
  | .planStatus _ q => wfRequest q
  | .planStore _ q => wfRequest q
  | .planRecall _ q => wfRequest q
  | .flowPlace _ q => wfRequest q
  | .ringEnumerate _ q => wfRequest q
  | .enumFrameReturn _ ring _ frame => Nat.blt ring 2 && Nat.ble frame.length 4096
  | .enumTimeout _ ring => Nat.blt ring 2
  | .ringStatus _ q => wfRequest q
  | .nodeIdentity _ q => wfRequest q
  | .nodeEnable _ q => wfRequest q
  | .nodeAliasSet _ q => wfRequest q
  | .nodeParamRead _ q => wfRequest q
  | .nodeParamWrite _ q => wfRequest q
  | .tunnelConfig _ q => wfRequest q
  | .axisEnable _ q => wfRequest q
  | .axisEnabled _ axis => Nat.blt axis 128
  | .axisEnableTimeout _ axis => Nat.blt axis 128
  | .axisDisable _ q => wfRequest q
  | .brakeEngageExpiry _ axis => Nat.blt axis 128
  | .axisStatus _ q => wfRequest q
  | .axisSource _ q => wfRequest q
  | .gearRatio _ q => wfRequest q
  | .gearEngage _ q => wfRequest q
  | .gearDisengage _ q => wfRequest q
  | .gearRampEnd _ axis => Nat.blt axis 128
  | .axisFaultClear _ q => wfRequest q
  | .lawLoad _ q => wfRequest q
  | .lawUnload _ q => wfRequest q
  | .lawInfo _ q => wfRequest q
  | .lawCoefWrite _ q => wfRequest q
  | .lawTest _ q => wfRequest q
  | .moveAbs _ q => wfRequest q
  | .moveRel _ q => wfRequest q
  | .stop _ q => wfRequest q
  | .hold _ q => wfRequest q
  | .resume _ q => wfRequest q
  | .home _ q => wfRequest q
  | .homingReferenceShift _ axis => Nat.blt axis 128
  | .homingNotFound _ axis => Nat.blt axis 128
  | .homingChatter _ axis => Nat.blt axis 128
  | .groupDefine _ q => wfRequest q
  | .groupMove _ q => wfRequest q
  | .groupLimits _ q => wfRequest q
  | .motionStatus _ q => wfRequest q
  | .moveComplete _ who => wfMover who
  | .switchQualified _ axis _ => Nat.blt axis 128
  | .stepperHoldDelayExpiry _ axis => Nat.blt axis 128
  | .stepperWakeDone _ axis => Nat.blt axis 128
  | .pwmTripClear _ q => wfRequest q
  | .pwmStatus _ q => wfRequest q
  | .encIndexArm _ q => wfRequest q
  | .encFaultClear _ q => wfRequest q
  | .probeArm _ q => wfRequest q
  | .probeRead _ q => wfRequest q
  | .adcRefEnable _ q => wfRequest q
  | .adcRefReady _ => true
  | .adcCalibrate _ q => wfRequest q
  | .adcCalibrateDone _ factors => factors.length == 5 && factors.all wfFactors
  | .adcCalSave _ q => wfRequest q
  | .adcCalRestore _ q => wfRequest q
  | .localInStatus _ q => wfRequest q
  | .timeRead _ q => wfRequest q
  | .timeSet _ q => wfRequest q
  | .slewDone _ => true
  | .timeTrim _ q => wfRequest q
  | .ptpConfig _ q => wfRequest q
  | .ptpStatus _ q => wfRequest q
  | .ptpMessageRx _ m => wfPtp m
  | .ptpMessageTx _ port _ _ => Nat.blt port 2
  | .plantFrameRx _ port => Nat.blt port 2
  | .toutSet _ q => wfRequest q
  | .toutStop _ q => wfRequest q
  | .toutPulse out => Nat.blt out 8
  | .plantTx _ q => wfRequest q
  | .timedFrameLaunch port => Nat.blt port 2
  | .calSegList _ q => wfRequest q
  | .calMaskWrite _ q => wfRequest q
  | .calArm _ q => wfRequest q
  | .calStop _ q => wfRequest q
  | .calForce _ q => wfRequest q
  | .calStatus _ q => wfRequest q
  | .calRead _ q => wfRequest q
  | .calSkewCalibrate _ q => wfRequest q
  | .calSkewStore _ q => wfRequest q
  | .calBusMeasure _ q => wfRequest q
  | .calRow _ run => wfRun run
  | .trigBusEdge _ line => Nat.blt line 2
  | .syncClkLost _ => true
  | .dmaSetup _ q => wfRequest q
  | .dmaStart _ q => wfRequest q
  | .dmaListWrite _ q => wfRequest q
  | .dmaAppend _ q => wfRequest q
  | .dmaClose _ q => wfRequest q
  | .dmaAbort _ q => wfRequest q
  | .dmaStatus _ q => wfRequest q
  | .dmaEntryRead _ ch entry => Nat.blt ch 32 && Nat.ble entry.bytes.length 4096
  | .dmaBurst _ ch data _ => Nat.blt ch 32 && Nat.ble data.length 4096
  | .safetyStatus _ q => wfRequest q
  | .safetyImageRead _ q => wfRequest q
  | .safetyConnStatus _ q => wfRequest q
  | .pairStatus _ q => wfRequest q
  | .pairJoin _ q => wfRequest q
  | .pairResyncTimeout _ => true
  | .gripRelease _ q => wfRequest q
  | .eventRead _ q => wfRequest q
  | .shavingsStatus _ q => wfRequest q
  | .shavingsRead _ q => wfRequest q
  | .shavingsFreeze _ q => wfRequest q
  | .shavingsCommitDone _ => true
  | .dispatchEngineStats _ q => wfRequest q
  | .dispatchLevelStats _ q => wfRequest q
  | .dispatchFlowStats _ q => wfRequest q
  | .dispatchStatsClear _ q => wfRequest q
  | .truingRun _ q => wfRequest q
  | .truingStatus _ q => wfRequest q
  | .truingPassStart _ => true
  | .truingPassEnd _ r => wfReadings r
  | .avsReadback _ mv => Nat.blt mv 65536
  | .tick  => true
  | .outputSnapshot  => true
  | .burstLaunch _ ring k => Nat.blt ring 2 && Nat.blt k 33
  | .bundleDeadlineFail _ bundle => Nat.blt bundle 128
  | .outputMissed _ axis => Nat.blt axis 128
  | .bundleFailed _ bundle => Nat.blt bundle 128
  | .piInputPublish _ => true
  | .acyclicFrameTx _ ring => Nat.blt ring 2
  | .upFrameRx _ ring _ frame => Nat.blt ring 2 && Nat.ble frame.length 4096
  | .burstClosureRx _ ring _ frame => Nat.blt ring 2 && Nat.ble frame.length 4096
  | .gatherDeadline _ ring => Nat.blt ring 2
  | .acyclicFrameRx _ ring _ frame => Nat.blt ring 2 && Nat.ble frame.length 4096
  | .acyclicResponseTimeout _ node => Nat.blt node 128
  | .laneSignalLoss _ ring hop _ => Nat.blt ring 2 && Nat.blt hop 65
  | .ringClosed _ ring => Nat.blt ring 2
  | .nodeLost _ node => Nat.blt node 128
  | .tunnelTxSlot _ ring _ => Nat.blt ring 2
  | .taskReady _ task => Nat.blt task 2048
  | .taskDispatch _ read => Nat.blt read.engine 16
  | .taskComplete _ engine _ => Nat.blt engine.engine 16
  | .taskOverrun _ engine => Nat.blt engine 16
  | .lawFault _ engine code => Nat.blt engine 16 && Nat.blt code 16
  | .engineFault _ engine => Nat.blt engine 16
  | .engineStall _ engine => Nat.blt engine 16
  | .engineTestDone _ engine _ => Nat.blt engine 16
  | .nop e _ _ => Nat.blt e 16
  | .pset e _ _ _ _ _ _ => Nat.blt e 16
  | .psetr e _ _ _ _ _ _ => Nat.blt e 16
  | .pacc e _ _ _ _ _ _ => Nat.blt e 16
  | .paccr e _ _ _ _ _ _ => Nat.blt e 16
  | .psetu e _ _ _ _ _ _ => Nat.blt e 16
  | .psetur e _ _ _ _ _ _ => Nat.blt e 16
  | .paccu e _ _ _ _ _ _ => Nat.blt e 16
  | .paccur e _ _ _ _ _ _ => Nat.blt e 16
  | .aadd e _ _ _ _ => Nat.blt e 16
  | .asub e _ _ _ _ => Nat.blt e 16
  | .aadx e _ _ _ _ => Nat.blt e 16
  | .asbx e _ _ _ _ => Nat.blt e 16
  | .acmp e _ _ _ _ => Nat.blt e 16
  | .acpx e _ _ _ _ => Nat.blt e 16
  | .acpy e _ _ _ _ => Nat.blt e 16
  | .aldx e _ _ _ _ => Nat.blt e 16
  | .azro e _ _ _ => Nat.blt e 16
  | .aneg e _ _ _ => Nat.blt e 16
  | .aabs e _ _ _ => Nat.blt e 16
  | .rnd e _ _ _ => Nat.blt e 16
  | .asat e _ _ _ => Nat.blt e 16
  | .ashl e _ sh _ _ => Nat.blt e 16 && Nat.blt sh 56
  | .ashr e _ sh _ _ => Nat.blt e 16 && Nat.blt sh 56
  | .sclb e _ _ _ => Nat.blt e 16
  | .bexpa e _ _ _ => Nat.blt e 16
  | .qstep e _ _ _ _ => Nat.blt e 16
  | .maxi e _ _ _ _ => Nat.blt e 16
  | .mini e _ _ _ _ => Nat.blt e 16
  | .xhi e _ _ _ _ => Nat.blt e 16
  | .xhir e _ _ _ _ => Nat.blt e 16
  | .xlo e _ _ _ _ => Nat.blt e 16
  | .xcpy e _ _ _ _ => Nat.blt e 16
  | .xadd e _ _ _ _ _ => Nat.blt e 16
  | .xsub e _ _ _ _ _ => Nat.blt e 16
  | .xand e _ _ _ _ _ => Nat.blt e 16
  | .xior e _ _ _ _ _ => Nat.blt e 16
  | .xeor e _ _ _ _ _ => Nat.blt e 16
  | .xbit e _ bit _ _ => Nat.blt e 16 && Nat.blt bit 24
  | .bexp e _ _ _ => Nat.blt e 16
  | .sclbx e _ _ _ _ => Nat.blt e 16
  | .sreg e _ sel _ _ _ _ => Nat.blt e 16 && Nat.blt sel 12
  | .bxset e _ _ _ => Nat.blt e 16
  | .done e _ _ => Nat.blt e 16
  | .brc e cc _ => Nat.blt e 16 && Nat.blt cc 16
  | .call e _ => Nat.blt e 16
  | .ret e => Nat.blt e 16
  | .decbr e _ _ => Nat.blt e 16
  | .rep e n _ _ => Nat.blt e 16 && Nat.blt n 65537 && Nat.blt 0 n
  | .ximm e _ _ => Nat.blt e 16
  | .pimm e _ _ => Nat.blt e 16
  | .mimm e _ _ => Nat.blt e 16
  | .limm e _ _ => Nat.blt e 16
  | .debugHaltRequest _ target => wfHalt target
  | .debugSingleStep _ engine => Nat.blt engine 16
  | .feedbackLost _ axis => Nat.blt axis 128
  | .followingError _ axis => Nat.blt axis 128
  | .streamLost _ axis => Nat.blt axis 128
  | .slotSample slot => Nat.blt slot 8
  | .pwmUpdatePoint timer => Nat.blt timer 8
  | .bootRefresh _ pair => Nat.blt pair 24
  | .tripInput _ input _ => Nat.blt input 4
  | .encIndexEvent _ z => Nat.blt z.ch 8
  | .encIllegalTransition _ ch => Nat.blt ch 8
  | .encWireFault _ ch w => Nat.blt ch 8 && Nat.blt w.pair 3
  | .dinRawEdge _ n _ => Nat.blt n 24
  | .probeEdge _ n _ => Nat.blt n 8
  | .ssiExchangeDone _ ch _ _ => Nat.blt ch 4
  | .adcTrigger _ _ i => Nat.blt i 8
  | .adcConversionDone _ _ i _ => Nat.blt i 8
  | .adcLiveCalStart _ => true
  | .adcLiveCalDone _ f => wfFactors f
  | .sinChange _ n _ _ => Nat.blt n 16
  | .sinDiscrepancy _ pair => Nat.blt pair 8
  | .qualifiedReset _ => true
  | .ss1TimeExpiry _ fn => Nat.blt fn 16
  | .safetyVectorExchange _ _ => true
  | .safetyVectorMissing _ => true
  | .testPulse _ out _ => Nat.blt out 10
  | .safeMsgTx _ conn _ => Nat.blt conn 128
  | .safeEchoRx _ conn msg => Nat.blt conn 128 && Nat.ble msg.length 4096
  | .safeConnWatchdogExpiry _ conn => Nat.blt conn 128
  | .clockMonitor _ => true
  | .clockHalted _ => true
  | .mirrorTimeFrameRx _ frame => Nat.ble frame.length 4096
  | .mirrorStreamComplete _ _ => true
  | .mirrorLost _ => true
  | .grantRecordRx _ record => Nat.ble record.length 4096
  | .requestBurst _ => true
  | .sysWatchdogExpiry _ => true
  | .hostWatchdogExpiry _ => true
  | .resetNAssert _ _ _ => true
  | .resetRelease _ _ pairSel => Nat.blt pairSel 4
  | .firmwareStarted _ b => wfBoot b
  | .mainRailsLost _ => true
  | .powerFail _ _ => true
  | .aonSupplyApplied _ _ => true
  | .aonSupplyLost _ => true
  | .aonSupplySwitch _ _ => true
  | .wake _ _ => true
  | .pcieLinkReset _ _ => true
  | .mailboxCommandStart _ mail => Nat.blt mail.mb 7
  | .notifyPost _ => true
  | .mbReqWrite _ mb _ => Nat.blt mb 7
  | .mbRspWrite _ mb _ => Nat.blt mb 8
  | .mbStatWrite _ mb _ => Nat.blt mb 8
  | .tunRxHeadWrite _ ring _ => Nat.blt ring 2
  | .tunStatRead _ ring => Nat.blt ring 2
  | .resetReq _ _ => true
  | .irqMaster _ _ => true
  | .hostHeartbeat _ _ => true
  | .timeNsRead _ => true
  | .evStatusWrite _ n _ => Nat.blt n 8
  | .bar2Write _ _ data => Nat.ble data.length 4096
  | .registerWrite _ place data => wfPlace data place
  | .mainRailsValid _ => true
  | .bootFault _ cause => Nat.blt cause 256
  | .lawLoadDone _ => true
  | .fwStageCommitDone _ target => Nat.blt target 4
  | .pairIdentityTimeout _ => true
  | .mirrorBulkFrameRx _ _ => true
  | .forwardedBurstCopy _ ring _ frame => Nat.blt ring 2 && Nat.ble frame.length 4096
  | .syncClkEdge _ => true
  | .calBusRetryWait _ _ => true
  | .calNoEchoTimeout _ => true
  | .encCountEdge _ ch _ _ => Nat.blt ch 8
  | .ptpLost _ port portState => Nat.blt port 2 && Nat.blt portState 10
  | .cycleHwFault _ cause => Nat.blt cause 256
  | .debugResume _ target => wfHalt target
  | .outputFault _ out cause => Nat.blt out 10 && Nat.blt cause 256
  | .boundaryScanInstruction _ _ _ => true

end Sys2Proof
end

