-- ==== Sys2Proof/Safety.lean ====
section
/-! DEFINITION. The terms in which claims are stated: what counts as a safe run of the block, the memories' canonical form, when
a mailbox request is taken and what its answer is, and when a loop engine is ready for an instruction. -/

namespace Sys2Proof.Machine

/-! ### Safe runs -/

/-- The byte memories are in their canonical form (log 6). -/
def Mems.wf (m : Mems) : Prop :=
  Memory.wf m.sram ∧ Memory.wf m.capture ∧ Memory.wf m.ddr ∧ Memory.wf m.mram ∧ Memory.wf m.host ∧ Memory.wf m.supervisor ∧ Memory.wf m.s1

/-- The memories and the images in the two plan buffers (R72) are in their canonical form. -/
def MemInv (s : State) : Prop := s.mem.wf ∧ Memory.wf s.plan.standby ∧ ∀ m, s.plan.active = some m → Memory.wf m

/-- A step is safe: it answers a next state, it takes one command off the queue and adds none, and the memories keep their
canonical form. -/
def SafeStep (s : State) : Prop :=
  ∃ t, step s = .next t ∧ t.pending = s.pending.tail ∧ (MemInv s → MemInv t)

/-! ### Device states (R28, R29) -/

/-- The device state before a row and after it, where the row changes it: the transitions of R29. A row in which the main rails go or come
may pass through STANDBY, so that OFF and BOOT stand beside it (log 28). -/
def moves : DevMode → DevMode → Bool
  | .off, m => m == .standby || m == .boot
  | .standby, m => m == .boot || m == .off
  | _, .off | _, .standby | _, .boot => true
  | .boot, m => m == .config || m == .fault
  | .config, m => m == .preop || m == .fault
  | .preop, m => m == .config || m == .operational || m == .safeHold || m == .fault
  | .operational, m => m == .preop || m == .safeHold || m == .fault
  | .safeHold, m => m == .preop || m == .operational || m == .fault
  | .fault, m => m == .preop || m == .config

/-- A cycle start is pending only in CONFIG, and SAFE_HOLD keeps PREOP or OPERATIONAL as the state to return to (R29, R36). -/
def ModeInv (s : State) : Prop :=
  (s.cyc.first ≠ none → s.dev.mode = .config) ∧ (s.dev.mode = .safeHold → s.dev.held = .preop ∨ s.dev.held = .operational)

/-! ### Mailbox requests (R362 to R371) -/

/-- The state in which a request is recorded as posted, after `dt` periods of the time clock. -/
def arrived (code dt : Nat) (q : Request) (s : State) : State := noteRequest (advance dt s) code q

/-- The completion stamp of a request (R365, R669). -/
def stampOf (code dt : Nat) (q : Request) (s : State) : Nat := nextStamp (arrived code dt q s)

/-- The state at the completion stamp, in which a request's own rules run. -/
def atStamp (code dt : Nat) (q : Request) (s : State) : State := useStamp (arrived code dt q s) (stampOf code dt q s)

/-- The payload length of a request (R362). -/
def lenOf (dt : Nat) (q : Request) (s : State) : Nat :=
  match tfind (advance dt s).host.running q.mb with
  | some r => r.len
  | none => q.payload.length

/-- A request is taken: the firmware can serve it now (R364, R366), the checks of R371 up to the device state pass, and a unit
of a redundant pair holds the grip where the command needs it (R575). -/
def Served (code dt : Nat) (q : Request) (s : State) : Prop :=
  servable (advance dt s) code q = true ∧ preCheck (atStamp code dt q s) code (lenOf dt q s) q = none ∧
  (needsGrip code q.payload && lacksGrip (atStamp code dt q s)) = false

/-- The command answers a next state: the one response with this status has been posted on a state `u` with a payload `p`, and
`R u p` holds. -/
def Answers (i : Instr) (code dt : Nat) (q : Request) (s : State) (status : Nat) (R : State → Bytes → Prop) : Prop :=
  ∃ u p, exec i s = .next (respond u code q status (stampOf code dt q s) p) ∧ R u p

/-- A response payload holds the low bits of `v` in its `n` bytes at byte `o` (R11). -/
def Field (p : Bytes) (o n v : Nat) : Prop := uAt p o n = v % 2 ^ (8 * n)

/-- The command answers success, leaves the state at its completion stamp as it is, and `R` holds of the payload. -/
def Reports (i : Instr) (code dt : Nat) (q : Request) (s : State) (R : Bytes → Prop) : Prop :=
  Answers i code dt q s St.ok (fun u p => u = atStamp code dt q s ∧ R p)

/-- The command is refused with a status: no effect, an empty payload (R371). -/
def Refuses (i : Instr) (code dt : Nat) (q : Request) (s : State) (status : Nat) : Prop :=
  Answers i code dt q s status (fun u p => u = atStamp code dt q s ∧ p = [])

/-- The command answers a next state of which `R` holds. -/
def Runs (i : Instr) (s : State) (R : State → Prop) : Prop := ∃ t, exec i s = .next t ∧ R t

/-! ### Loop engines (R315 to R343) -/

/-- The core of an engine. -/
def State.core (s : State) (e : Nat) : ECore := (s.engine e).core

/-- A register file has the registers of R315. -/
def RegsOk (r : ERegs) : Prop :=
  r.x.length = 16 ∧ r.a.length = 4 ∧ r.p.length = 8 ∧ r.m.length = 8 ∧ r.l.length = 8

/-- An engine that the part has and that is in service executes the next instruction of a task: no law fault, no end, no halt,
no open repeat or delay slot, and an address of the program memory (R315, R317, R336, R338, R348). -/
def EngineReady (e : Nat) (s : State) : Prop :=
  e < engineCount s.var ∧ (s.engine e).state = .inService ∧ (s.core e).fault = none ∧ (s.core e).done = false ∧
  (s.core e).halted = false ∧ (s.core e).haltAsked = false ∧ (s.core e).pc < 0x3FF0 ∧ (s.core e).rep = none ∧
  (s.core e).branch = none ∧ RegsOk (s.core e).regs

/-- Two parallel moves that may stand in one instruction, at addresses that a task may use (R318, R335). -/
def MovesOk (e : Nat) (m1 m2 : Move) (s : State) : Prop :=
  clash m1 m2 = false ∧ (moveAddr (s.core e).regs m1).any (Nat.ble dataEnd) = false ∧
  (moveAddr (s.core e).regs m2).any (Nat.ble dataEnd) = false

/-- The command answers a next state that differs from `s` in the core of engine `e` alone, and `R` holds of that core. -/
def RunsCore (i : Instr) (e : Nat) (s : State) (R : ECore → Prop) : Prop :=
  ∃ c, exec i s = .next (s.onEngine e (fun g => { g with core := c })) ∧ R c

/-- The value of an accumulator as an integer. -/
def ERegs.accI (r : ERegs) (i : Acc) : Int := (r.ar i.val).toInt

/-- The value of an X register as an integer. -/
def ERegs.xI (r : ERegs) (i : XReg) : Int := (r.xr i.val).toInt

/-- N, Z and G of ES after a 56-bit result, whose G says that bits [55:47] are not all equal (R316, R326). -/
def FlagsOf56 (es : BitVec 8) (v : W56) : Prop :=
  es.getLsbD esN = v.msb ∧ es.getLsbD esZ = decide (v = 0) ∧
  es.getLsbD esG = (List.range 8).any (fun i => v.getLsbD (47 + i) != v.getLsbD 55)

/-- N and Z of ES after a 24-bit result; G is cleared (R326). -/
def FlagsOf24 (es : BitVec 8) (v : W24) : Prop :=
  es.getLsbD esN = v.msb ∧ es.getLsbD esZ = decide (v = 0) ∧ es.getLsbD esG = false

/-- N, Z and G are what they were (R326). -/
def SameNZG (a b : BitVec 8) : Prop :=
  a.getLsbD esN = b.getLsbD esN ∧ a.getLsbD esZ = b.getLsbD esZ ∧ a.getLsbD esG = b.getLsbD esG

/-- What no operation of one instruction changes but those that name it: M, L, LC, BX and the return stack. -/
def SameSpecial (a b : ERegs) : Prop := a.m = b.m ∧ a.l = b.l ∧ a.lc = b.lc ∧ a.bx = b.bx ∧ a.stack = b.stack

/-- An instruction that continues at the next address has taken one clock (R328); its moves alone have changed pointers and data
words: a pointer that no move modifies and a word at which no move stores are what they were (R321, R322). -/
def MovesOnly (m1 m2 : Move) (a b : ECore) : Prop :=
  b.clocks = a.clocks + 1 ∧
  (∀ j, moveModifies m1 ≠ some j → moveModifies m2 ≠ some j → b.regs.pr j = a.regs.pr j) ∧
  (∀ d, (∀ w, moveStore a m1 = some w → w.1 ≠ d) → (∀ w, moveStore a m2 = some w → w.1 ≠ d) → tfind b.data d = tfind a.data d)

/-- The accumulator `ad` holds the integer `v` saturated to 56 bits, with N, Z and G of that result and SAC set where the saturation
changed it (R325, R326); no other register is changed but by a load that lands and by the moves. -/
def AccResult (ad : Acc) (v : Int) (m1 m2 : Move) (a b : ECore) : Prop :=
  b.pc = a.pc + 1 ∧ MovesOnly m1 m2 a b ∧ b.regs.ar ad.val = BitVec.ofInt 56 (sat56 v) ∧
  FlagsOf56 b.regs.es (BitVec.ofInt 56 (sat56 v)) ∧
  b.regs.es.getLsbD esSAC = (a.regs.es.getLsbD esSAC || decide (sat56 v ≠ v)) ∧
  SameSpecial b.regs a.regs ∧ b.regs.ix = a.regs.ix ∧
  (a.landing = [] → b.regs.x = a.regs.x ∧ ∀ j : Acc, j ≠ ad → b.regs.ar j.val = a.regs.ar j.val)

/-- The X register `xd` holds `v`; no accumulator and no other X register is changed but by a load that lands. -/
def WordResult (xd : XReg) (v : W24) (m1 m2 : Move) (a b : ECore) : Prop :=
  b.pc = a.pc + 1 ∧ MovesOnly m1 m2 a b ∧ b.regs.xr xd.val = v ∧ SameSpecial b.regs a.regs ∧ b.regs.ix = a.regs.ix ∧
  (a.landing = [] → b.regs.a = a.regs.a ∧ ∀ j : XReg, j ≠ xd → b.regs.xr j.val = a.regs.xr j.val)

/-- No X register and no accumulator is changed but by a load that lands. -/
def NoResult (m1 m2 : Move) (a b : ECore) : Prop :=
  b.pc = a.pc + 1 ∧ MovesOnly m1 m2 a b ∧ b.regs.m = a.regs.m ∧ b.regs.l = a.regs.l ∧ b.regs.lc = a.regs.lc ∧
  b.regs.stack = a.regs.stack ∧ b.regs.ix = a.regs.ix ∧ (a.landing = [] → b.regs.x = a.regs.x ∧ b.regs.a = a.regs.a)

end Sys2Proof.Machine
end

