-- ==== Sys2Proof/Certificates/Slice0/Obligations.lean ====
section
/-! DEFINITION. The statements for the provers. Each says which rules of the spec it formalises; a statement about every state holds in
states that no run reaches as well. -/

open Sys2Proof Sys2Proof.Machine

/-! ### The block as a whole -/

/-- A step takes the command at the front of the queue and runs it with the queue's rest; an empty queue idles (the idling is the
model's choice, log 2). -/
def Obligations.StepTakesTheFrontOfTheQueue : Prop :=
  ∀ (s : State) (c : Instr) (rest : List Instr),
    (s.pending = c :: rest → step s = exec c { s with pending := rest }) ∧ (s.pending = [] → step s = .next s)

/-- R9: every step answers a next state, takes one command off the queue, and changes neither the variant nor a capability word. -/
def Obligations.EveryStepAnswersANextState : Prop :=
  ∀ (s : State), ∃ t, step s = .next t ∧ t.pending = s.pending.tail ∧ t.board.variant = s.board.variant ∧
    bar0Word t 8 = bar0Word s 8 ∧ bar0Word t 0xC = bar0Word s 0xC

/-- The memories and the plan images keep their canonical form under every step (log 6). -/
def Obligations.EveryStepKeepsTheMemories : Prop := ∀ (s t : State), MemInv s → step s = .next t → MemInv t

/-- R28, R29, R36: every step moves the device state by a transition of R29 or leaves it. -/
def Obligations.EveryStepMovesTheDeviceState : Prop :=
  ∀ (s t : State), ModeInv s → step s = .next t → ModeInv t ∧ (t.dev.mode = s.dev.mode ∨ moves s.dev.mode t.dev.mode = true)

/-- The invariants hold right after reset (the memories' contents are the model's choice, log 6). -/
def Obligations.ResetHoldsTheInvariants : Prop :=
  MemInv State.reset ∧ ModeInv State.reset ∧ State.reset.pending = [] ∧ State.reset.dev.mode = .boot

/-- R361, R365: a response is written into the next entry of its mailbox's response ring, whose tail advances; no other byte of the
shared SRAM and no other mailbox is touched. -/
def Obligations.ResponsesArePosted : Prop :=
  ∀ (s : State) (code status stamp x m : Nat) (q : Request) (payload : Bytes),
    let t := respond s code q status stamp payload
    let e := 0x304000 + 0x8000 * q.mb + 256 * ((s.mbox q.mb).rspTail.toNat % 64)
    let m0 := t.mem.sram
    MemInv s → payload.length ≤ 232 →
      memRead m0 e 2 = leBytes 2 code ∧ memRead m0 (e + 2) 2 = leBytes 2 q.tag ∧ memRead m0 (e + 4) 2 = leBytes 2 payload.length ∧
      memRead m0 (e + 6) 2 = leBytes 2 status ∧ memRead m0 (e + 8) 10 = timeBytes stamp ∧ memRead m0 (e + 18) 6 = zeros 6 ∧
      memRead m0 (e + 24) payload.length = payload ∧
      (t.mbox q.mb).rspTail = (s.mbox q.mb).rspTail + 1 ∧ (t.mbox q.mb).rspHead = (s.mbox q.mb).rspHead ∧
      (m ≠ q.mb → t.mbox m = s.mbox m) ∧
      ((x < e ∨ e + 256 ≤ x) → memGet m0 x = memGet s.mem.sram x)

/-! ### Device states, resets and supplies (R29 to R36, R644 to R667) -/

/-- R29, R30, R32: the commands that change the device state, each in the states in which it is taken, and the end of SYS_PREOP. -/
def Obligations.DeviceStateCommands : Prop :=
  ∀ (s : State) (dt : Nat) (q : Request),
    (Served Cmd.sysOperate dt q s →
      Answers (.sysOperate dt q) Cmd.sysOperate dt q s St.ok (fun u p => u.dev.mode = .operational ∧ p = [])) ∧
    (Served Cmd.sysPreop dt q s →
      Answers (.sysPreop dt q) Cmd.sysPreop dt q s St.pend (fun u p => u.dev.preopPending = true ∧ u.dev.mode = .operational ∧ p = [])) ∧
    (Served Cmd.safeHold dt q s →
      Answers (.safeHold dt q) Cmd.safeHold dt q s St.ok (fun u p =>
        u.dev.mode = .safeHold ∧ u.dev.held = (atStamp Cmd.safeHold dt q s).dev.mode ∧ p = [])) ∧
    (Served Cmd.safeHoldRelease dt q s → safetyDemand (atStamp Cmd.safeHoldRelease dt q s) = false →
      Answers (.safeHoldRelease dt q) Cmd.safeHoldRelease dt q s St.ok (fun u p =>
        u.dev.mode = (atStamp Cmd.safeHoldRelease dt q s).dev.held ∧ p = [])) ∧
    (Served Cmd.faultClear dt q s → faultCauseActive (atStamp Cmd.faultClear dt q s) = false →
      Answers (.faultClear dt q) Cmd.faultClear dt q s St.ok (fun u p =>
        u.dev.mode = (if (atStamp Cmd.faultClear dt q s).cyc.running then .preop else .config) ∧ p = [])) ∧
    ((advance dt s).dev.preopPending = true → (advance dt s).dev.mode = .operational →
      (advance dt s).axes.all (fun e => e.2.phase == .disabled) = true →
      Runs (.sysPreopDone dt) s (fun t => t.dev.mode = .preop ∧ t.dev.preopPending = false))

/-- R29, R357, R648, R651, R652: what restarts the device in BOOT, with the source of the reset, and what sends it to STANDBY; the
volatile memories lose their contents there (R21). -/
def Obligations.ResetsAndStandby : Prop :=
  ∀ (s : State) (dt lowNs : Nat) (taken : Bool) (q : Request) (v : BitVec 32),
    let a := advance dt s
    (Served Cmd.sysReset dt q s → q.payload = [0xC3, 0xA5, 0, 0] →
      Runs (.sysReset dt q) s (fun t => t.dev.mode = .boot ∧ t.power.resetSource = 4 ∧ t.dev.mbReady = false ∧ t.pend = [])) ∧
    (Served Cmd.sysStandby dt q s → uAt q.payload 6 2 = 0 →
      Runs (.sysStandby dt q) s (fun t => t.dev.mode = .standby ∧ t.power.pwrEn = false ∧ t.power.wakeSec = uAt q.payload 0 6 ∧
        t.mem.sram = [] ∧ t.mem.ddr = [])) ∧
    (hostOpen a = true → bitOf v.toNat 1 = true → v.toNat / 65536 = 0xA5C3 →
      Runs (.resetReq dt v) s (fun t => t.dev.mode = .boot ∧ t.power.resetSource = 4)) ∧
    (hostOpen a = true → bitOf v.toNat 1 = false →
      Runs (.resetReq dt v) s (fun t => t = { a with dev := { a.dev with irqMaster := bitOf v.toNat 0 } })) ∧
    (powered a = true → 1000 ≤ lowNs →
      Runs (.resetNAssert dt lowNs taken) s (fun t => t.dev.mode = .boot ∧ t.power.resetSource = 2 ∧ t.power.resetLow = true)) ∧
    (lowNs < 100 → Runs (.resetNAssert dt lowNs taken) s (fun t => t = a)) ∧
    (powered a = true → a.dev.fwRunning = true →
      Runs (.sysWatchdogExpiry dt) s (fun t => t.dev.mode = .boot ∧ t.power.resetSource = 3 ∧ t.ev.freeze = none)) ∧
    (powered a = true → (a.power.vaonMain || a.power.vbat) = true →
      Runs (.mainRailsLost dt) s (fun t => t.dev.mode = .standby ∧ t.power.railsValid = false ∧ t.mem.sram = [] ∧ t.mem.capture = [] ∧
        t.mem.ddr = [])) ∧
    (powered a = true → (a.power.vaonMain || a.power.vbat) = false → Runs (.mainRailsLost dt) s (fun t => t.dev.mode = .off))

/-- R29, R644 to R648, R664, R667: the always-on supply, the wake, and the main rails. -/
def Obligations.SuppliesAndWake : Prop :=
  ∀ (s : State) (dt : Nat) (main : Bool),
    let a := advance dt s
    (a.dev.mode = .standby → a.power.resetLow = false → a.power.pwrEn = true →
      Runs (.mainRailsValid dt) s (fun t => t.dev.mode = .boot ∧ t.power.resetSource = 1 ∧ t.power.railsValid = true)) ∧
    (powered a = true → a.power.railsValid = true →
      Runs (.mainRailsValid dt) s (fun t => t = { a with dev := { a.dev with powerFailing := false } })) ∧
    (a.dev.mode = .off → a.power.railsValid = false →
      Runs (.aonSupplyApplied dt main) s (fun t => t.dev.mode = .standby ∧ t.time.keeper = 0 ∧ t.power.pwrEn = true)) ∧
    (a.dev.mode = .standby → Runs (.aonSupplyLost dt) s (fun t => t.dev.mode = .off ∧ t.time.keeper = 0)) ∧
    (a.dev.mode ≠ .off → (main = true ∨ a.power.vbat = true) →
      Runs (.aonSupplySwitch dt main) s (fun t => t.power.aonFromMain = main ∧ t.time = a.time ∧ t.dev = a.dev)) ∧
    (a.dev.mode = .standby → a.power.pwrEn = false → a.power.pwrOffAt + 100000000 * nsU ≤ a.time.now → a.power.railsValid = false →
      Runs (.wake dt true) s (fun t => t.power.pwrEn = true ∧ t.dev.mode = .standby)) ∧
    (a.dev.mode = .standby → a.power.pwrEn = false → a.time.now < a.power.pwrOffAt + 100000000 * nsU →
      Runs (.wake dt true) s (fun t => t = a))

/-- R25, R31, R350, R363, R385, R535, R611, R649, R653, R657: RESET_RELEASE samples the straps, BOOT_FAULT keeps the device in BOOT,
FIRMWARE_STARTED ends the boot, POWER_FAIL and CLOCK_MONITOR are device faults, PCIE_LINK_RESET resets the PCIe function alone, which ends
the transfers that address host memory (R524), and HOST_WATCHDOG_EXPIRY raises HOST_LOST. Each completes in every state, by its effect or
without one. That CLOCK_MONITOR acts on a CK-1232 as well is the model's choice (log 28). -/
def Obligations.BootAndSupervision : Prop :=
  ∀ (s : State) (dt cause at_ pairSel ch : Nat) (hostSel linkUp byPin : Bool) (b : BootResult),
    let a := advance dt s
    let sel := parN a Par.pfailSource 0
    let rd := flashSlot a b.slot b.image
    (a.power.resetLow = true → powered a = true →
      Runs (.resetRelease dt hostSel pairSel) s (fun t => t.power.resetLow = false ∧ t.board.qspi = hostSel ∧ t.dev.mode = a.dev.mode ∧
        t.mem = a.mem ∧
        (pairSel < 3 → (pairSel ≠ 0 → isFull a.board.variant = true) → t.pair.id = pairSel ∧ t.dev.bootCause = 0) ∧
        (pairSel = 3 ∨ (pairSel ≠ 0 ∧ isFull a.board.variant = false) → t.pair.id = 0 ∧ t.dev.bootCause = 6))) ∧
    (a.power.resetLow = true → a.dev.mode = .standby → a.power.railsValid = true → a.power.pwrEn = true →
      Runs (.resetRelease dt hostSel pairSel) s (fun t => t.dev.mode = .boot ∧ t.power.resetLow = false ∧ t.power.resetSource = 1)) ∧
    (a.power.resetLow = true → powered a = false → (a.dev.mode = .off ∨ a.power.railsValid = false ∨ a.power.pwrEn = false) →
      Runs (.resetRelease dt hostSel pairSel) s (fun t => t.dev.mode = a.dev.mode ∧ t.power.resetLow = false)) ∧
    (a.power.resetLow = false → Runs (.resetRelease dt hostSel pairSel) s (fun t => t = a)) ∧
    (a.dev.mode = .boot → a.dev.mbReady = false → a.power.resetLow = false → 1 ≤ cause → cause ≤ 6 →
      Runs (.bootFault dt cause) s (fun t => t = { a with dev := { a.dev with bootCause := cause } })) ∧
    (a.dev.mode ≠ .boot ∨ a.dev.mbReady = true → Runs (.bootFault dt cause) s (fun t => t = a)) ∧
    (a.dev.mode = .boot → a.dev.mbReady = false → a.dev.bootCause = 0 → a.power.resetLow = false → mayBoot a b.slot = true →
      Runs (.firmwareStarted dt b) s (fun t => t.dev.mbReady = true ∧ t.dev.fwRunning = true ∧
        (t.dev.mode = .config ∨ t.dev.mode = .fault) ∧ t.power.slot = b.slot ∧
        t.power.preferredFailed = (b.slot != preferredSlot a) ∧ (a.power.patchArmed = false → t.power.version = (readHead rd).version) ∧
        ∀ m r, tfind t.host.mbs m = some r → m ≠ 7 → r.reqTail = 0 ∧ r.reqHead = 0 ∧ r.rspHead = 0 ∧ r.rspTail = 0)) ∧
    (a.dev.mode ≠ .boot ∨ a.dev.bootCause ≠ 0 ∨ mayBoot a b.slot = false → Runs (.firmwareStarted dt b) s (fun t => t = a)) ∧
    (powered a = true → (sel = 0 ∨ (sel = 1 ∧ byPin = true) ∨ (sel = 2 ∧ byPin = false)) →
      Runs (.powerFail dt byPin) s (fun t => t.ev.raised.contains Ev.powerFail = true ∧ t.dev.powerFailing = true ∧
        (a.dev.mode ≠ .boot → t.dev.mode = .fault) ∧ (a.dev.mode = .boot → t.dev.mode = .boot ∧ t.dev.faultNoCycle = true) ∧
        (a.ev.freeze = none → ∃ f, t.ev.freeze = some f ∧ f.trigger = 3))) ∧
    (powered a = false ∨ (sel = 1 ∧ byPin = false) ∨ (sel = 2 ∧ byPin = true) → Runs (.powerFail dt byPin) s (fun t => t = a)) ∧
    (powered a = true →
      Runs (.clockMonitor { dt := dt, beyond := true }) s (fun t => t.ev.raised.contains Ev.clockMonitor = true ∧ t.dev.clockOff = true ∧
        (a.dev.mode ≠ .boot → t.dev.mode = .fault) ∧ (a.dev.mode = .boot → t.dev.mode = .boot ∧ t.dev.faultNoCycle = true) ∧
        (hasLocal a.var = true → a.safe.state ≤ 1 → t.safe.state = 2 ∧ t.safe.faultCause = 2) ∧
        (hasLocal a.var = false ∨ 1 < a.safe.state → t.safe = a.safe))) ∧
    (powered a = true → Runs (.clockMonitor { dt := dt, beyond := false }) s (fun t => t = { a with dev := { a.dev with clockOff := false } })) ∧
    (powered a = false → ∀ beyond, Runs (.clockMonitor { dt := dt, beyond := beyond }) s (fun t => t = a)) ∧
    (powered a = true → a.board.qspi = false →
      ((∀ e ∈ a.dma.chans, usesHost a e.2 = false) → Runs (.pcieLinkReset dt linkUp) s (fun t =>
        t = { a with host := { a.host with linkUp := linkUp, msixTable := [], msixPending := 0, pci := {} } })) ∧
      (usesHost a (a.chan ch) = true → Runs (.pcieLinkReset dt linkUp) s (fun t =>
        t.host.linkUp = linkUp ∧ t.host.pci = {} ∧ t.ev.raised.contains Ev.dmaFailed = true ∧
        (t.chan ch).state = dmaFailedSt ∧ (t.chan ch).status = St.dmaReadError))) ∧
    (powered a = false ∨ a.board.qspi = true → Runs (.pcieLinkReset dt linkUp) s (fun t => t = a)) ∧
    (a.dev.hostWd = some at_ → parN a Par.hostWdTime 0 ≠ 0 → at_ + parN a Par.hostWdTime 0 * 1000000 * nsU < a.time.now →
      Runs (.hostWatchdogExpiry dt) s (fun t => t.dev.hostWd = none ∧ t.ev.raised.contains Ev.hostLost = true ∧
        (par a Par.hostWdAction 0 ≠ 1 → t.dev.mode = a.dev.mode) ∧
        (par a Par.hostWdAction 0 = 1 → a.dev.mode = .operational → t.dev.mode = .safeHold ∧ t.dev.held = .operational))) ∧
    (a.dev.hostWd = none ∨ parN a Par.hostWdTime 0 = 0 → Runs (.hostWatchdogExpiry dt) s (fun t => t = a))

/-- R525, R650, R657 to R660: power domains, and staging of firmware and patches. -/
def Obligations.PowerDomainsAndFirmwareStaging : Prop :=
  ∀ (s : State) (dt d at_ : Nat) (q : Request) (k : PendCmd),
    let a := advance dt s
    let u0 := atStamp Cmd.powerDomain dt q s
    (Served Cmd.powerDomain dt q s → uAt q.payload 0 1 = d → d < 3 → uAt q.payload 1 1 = 1 → uAt q.payload 2 2 = 0 →
      domainHere u0 d = true →
      Answers (.powerDomain dt q) Cmd.powerDomain dt q s St.pend (fun u p =>
        tfind u.dma.switching d = some (true, u0.time.now) ∧ isPending u Cmd.powerDomain d = true ∧ p = [])) ∧
    (Served Cmd.powerDomain dt q s → uAt q.payload 0 1 = 2 → uAt q.payload 1 1 = 0 → uAt q.payload 2 2 = 0 →
      domainHere u0 2 = true → (slices u0.image).any (fun x => x.ring == 255) = true →
      Answers (.powerDomain dt q) Cmd.powerDomain dt q s St.badState (fun u p => u = u0 ∧ p = [])) ∧
    (tfind a.dma.switching d = some (true, at_) → at_ + switchOnNs d * nsU ≤ a.time.now →
      Runs (.powerDomainSwitched dt d) s (fun t => t.dma.domainsOff.contains d = false ∧ isPending t Cmd.powerDomain d = false)) ∧
    (tfind a.dma.switching d = some (false, at_) → inFlight a d = [] →
      Runs (.powerDomainSwitched dt d) s (fun t => t.dma.domainsOff.contains d = true ∧ isPending t Cmd.powerDomain d = false)) ∧
    (tfind a.dma.switching 0 = none → tfind a.dma.switching 1 = some (false, at_) → inFlight a 1 ≠ [] →
      at_ + parN a Par.pdHoldMax 0 * 1000 * nsU ≤ a.time.now →
      Runs (.pdHoldMaxExpiry dt) s (fun t => t.dma.domainsOff.contains 1 = true)) ∧
    (MemInv s → Served Cmd.fwStageWrite dt q s → uAt q.payload 0 1 = 1 → uAt q.payload 1 3 = 0 →
      uAt q.payload 4 4 + (q.payload.drop 8).length ≤ 262144 →
      Answers (.fwStageWrite dt q) Cmd.fwStageWrite dt q s St.ok (fun u p => p = [] ∧ u.power.patchArmed = false ∧
        memRead u.mem.mram (1703936 + uAt q.payload 4 4) (q.payload.drop 8).length = q.payload.drop 8)) ∧
    (Served Cmd.fwStageWrite dt q s → uAt q.payload 0 1 = 0 → uAt q.payload 1 3 = 0 → uAt q.payload 4 4 = 0 →
      (q.payload.drop 8).length ≤ 8388608 →
      Answers (.fwStageWrite dt q) Cmd.fwStageWrite dt q s St.ok (fun u p => p = [] ∧
        memRead (tget u.power.staging [] (1 - u.power.slot)) 0 (q.payload.drop 8).length = q.payload.drop 8)) ∧
    (Served Cmd.fwStageCommit dt q s → uAt q.payload 0 1 < 4 → uAt q.payload 1 3 = 0 →
      Answers (.fwStageCommit dt q) Cmd.fwStageCommit dt q s St.pend (fun u p =>
        isPending u Cmd.fwStageCommit (uAt q.payload 0 1) = true ∧ p = [])) ∧
    (a.pend.find? (fun p => p.code == Cmd.fwStageCommit && p.key == d) = some k →
      (d = 0 → stageFails a 0 = 0 → Runs (.fwStageCommitDone dt d) s (fun t => t.power.preferred = some (1 - a.power.slot))) ∧
      (d = 1 → stageFails a 1 = 0 → Runs (.fwStageCommitDone dt d) s (fun t => t.power.patchArmed = true)) ∧
      (d < 2 → stageFails a d ≠ 0 → Runs (.fwStageCommitDone dt d) s (fun t => t.power = a.power)) ∧
      (d = 2 → Runs (.fwStageCommitDone dt d) s (fun t => t.power.patchArmed = false ∧ memGet t.mem.mram 1703936 = 0)) ∧
      (d = 3 → Runs (.fwStageCommitDone dt d) s (fun t => t.power.fuses = max a.power.fuses (min 64 a.power.rollback))))

/-! ### Host interface (R351 to R385, R604) -/

/-- R363, R361, R364, R366, R368: mailbox indices, their errors, the take of a request, and the post of a queued notification. What a
double-bit error at the take does (R23, R606) rests on the model's choice of what that take reads (log 36). -/
def Obligations.MailboxIndices : Prop :=
  ∀ (s : State) (dt m : Nat) (v : BitVec 16) (w : BitVec 32) (n : Notice) (rest : List Notice),
    let a := advance dt s
    let r := a.mbox m
    (hostOpen a = true → a.dev.mbReady = true → m < 7 → (r.reqTail - r.reqHead).toNat ≤ (v - r.reqHead).toNat →
      (v - r.reqHead).toNat ≤ 64 →
      Runs (.mbReqWrite dt m v) s (fun t => t.mbox m = { r with reqTail := v } ∧ ∀ j, j ≠ m → t.mbox j = a.mbox j)) ∧
    (hostOpen a = true → a.dev.mbReady = true → m < 7 → 64 < (v - r.reqHead).toNat →
      Runs (.mbReqWrite dt m v) s (fun t => t = a.onMbox m (fun r => { r with indexError := true }))) ∧
    (hostOpen a = true → a.dev.mbReady = true →
      Runs (.mbReqWrite dt 7 v) s (fun t => t = a.onMbox 7 (fun r => { r with indexError := true }))) ∧
    (hostOpen a = true → a.dev.mbReady = true → m < 8 → (v - r.rspHead).toNat ≤ (r.rspTail - r.rspHead).toNat →
      Runs (.mbRspWrite dt m v) s (fun t => t = a.onMbox m (fun r => { r with rspHead := v }))) ∧
    (hostOpen a = true → a.dev.mbReady = true → m < 8 → (r.rspTail - r.rspHead).toNat < (v - r.rspHead).toNat →
      Runs (.mbRspWrite dt m v) s (fun t => t = a.onMbox m (fun r => { r with indexError := true }))) ∧
    (hostOpen a = true → a.dev.mbReady = false → Runs (.mbReqWrite dt m v) s (fun t => t = a) ∧
      Runs (.mbRspWrite dt m v) s (fun t => t = a)) ∧
    (hostOpen a = true → m < 8 → w.toNat % 2 = 1 → Runs (.mbStatWrite dt m w) s (fun t =>
      (t.mbox m).indexError = false ∧ (t.mbox m).reqTail = r.reqTail ∧ (t.mbox m).rspHead = r.rspHead ∧
      (m ≠ 7 → (t.mbox m).notifyLost = r.notifyLost))) ∧
    (a.dev.mbReady = true → m < 7 → reqCount r ≠ 0 → tfind a.host.running m = none → rspFree a m = true →
      (m = 0 ∨ (urgentWaits a = false ∧ inTurn a m = true)) → (cmdRow (uAt (reqEntry a m r.reqHead.toNat) 0 2)).isSome = true →
      Runs (.mailboxCommandStart dt { mb := m }) s (fun t => (t.mbox m).reqHead = r.reqHead + 1 ∧ (m ≠ 0 → t.host.turn.contains m = true) ∧
        ∃ g, tfind t.host.running m = some g ∧ g.code = uAt (reqEntry a m r.reqHead.toNat) 0 2 ∧
          g.tag = uAt (reqEntry a m r.reqHead.toNat) 2 2)) ∧
    (mayTake a m = false → ∀ x y : EccRead, Runs (.mailboxCommandStart dt { mb := m, supervisor := x, sram := y }) s (fun t => t = a)) ∧
    (mayTake a m = true → ∀ y : EccRead, Runs (.mailboxCommandStart dt { mb := m, supervisor := .confirmed, sram := y }) s (fun t =>
      t.dev.mode = .boot ∧ t.power.resetSource = 3)) ∧
    (mayTake a m = true → Runs (.mailboxCommandStart dt { mb := m, sram := .confirmed }) s (fun t =>
      t.ev.raised.contains Ev.eccDouble = true ∧ (t.mbox m).reqHead = r.reqHead)) ∧
    (a.dev.mbReady = true → a.host.notices = n :: rest → rspFree a 7 = true →
      Runs (.notifyPost dt) s (fun t => t.host.notices = rest ∧ (t.mbox 7).rspTail = (a.mbox 7).rspTail + 1))

/-- R12, R351, R357 to R359, R382, R384, R385, R604: registers, the event status, and the windows of BAR2. A host access reaches the
device only while its main domain runs and RESET_N is released (R652). -/
def Obligations.HostRegisterAccesses : Prop :=
  ∀ (s : State) (dt o n : Nat) (v : BitVec 32) (b : Byte) (data : Bytes) (c : List (BitVec 4)),
    let a := advance dt s
    (hostOpen a = false → Runs (.registerWrite dt (.bar0 o) data) s (fun t => t = a) ∧ Runs (.bar2Write dt o data) s (fun t => t = a) ∧
      Runs (.irqMaster dt v) s (fun t => t = a)) ∧
    (hostOpen a = true → bitOf v.toNat 1 = false →
      Runs (.irqMaster dt v) s (fun t => t = { a with dev := { a.dev with irqMaster := bitOf v.toNat 0 } })) ∧
    (hostOpen a = true → Runs (.hostHeartbeat dt v) s (fun t => t.dev.beat = v ∧ t.host = a.host ∧
      t.dev.hostWd = if par a Par.hostWdTime 0 = 0 then none else some a.time.now)) ∧
    (hostOpen a = true → Runs (.timeNsRead dt) s (fun t => t.dev.secLatch = a.time.now / secU ∧ t.time = a.time ∧ t.host = a.host)) ∧
    (hostOpen a = true → n < 8 → Runs (.evStatusWrite dt n v) s (fun t =>
      (∀ i, i < 32 → t.host.evStatus.getLsbD (32 * n + i) = (a.host.evStatus.getLsbD (32 * n + i) &&
        (!v.getLsbD i || (evHeld a).getLsbD (32 * n + i)))) ∧
      (∀ j, (j < 32 * n ∨ 32 * n + 32 ≤ j) → t.host.evStatus.getLsbD j = a.host.evStatus.getLsbD j) ∧ t.mem = a.mem)) ∧
    (MemInv s → hostOpen a = true → bar2Region o = .stored → Runs (.bar2Write dt o [b]) s (fun t =>
      memGet t.mem.sram o = b ∧ (∀ j, j ≠ o → memGet t.mem.sram j = memGet a.mem.sram j) ∧ t.ev = a.ev)) ∧
    (hostOpen a = true → bar2Region o = .denied → Runs (.bar2Write dt o [b]) s (fun t =>
      t.mem.sram = a.mem.sram ∧ t.ev.raised.contains Ev.bar2Denied = true)) ∧
    (hostOpen a = true → bar2Region o = .ignored → Runs (.bar2Write dt o [b]) s (fun t => t = a)) ∧
    (hostOpen a = true → Runs (.registerWrite dt (.bar0 0x28) (leBytes 4 v.toNat)) s (fun t => t.dev.beat = v ∧ t.mem = a.mem)) ∧
    (hostOpen a = true → o < 0x24 → Runs (.registerWrite dt (.bar0 o) (leBytes 4 v.toNat)) s (fun t => t = a)) ∧
    (hostOpen a = true → Runs (.registerWrite dt (.bar0 0x220) (leBytes 4 v.toNat)) s (fun t =>
      (∀ i, i < 32 → t.host.evEnable.getLsbD i = v.getLsbD i) ∧
      (∀ j, 32 ≤ j → t.host.evEnable.getLsbD j = a.host.evEnable.getLsbD j))) ∧
    (hostOpen a = true → a.board.qspi = false → Runs (.registerWrite dt (.config .bar0) data) s (fun t =>
      t.host.pci.bar0.toNat = (leNat data - leNat data % 4096) % 4294967296 ∧ t.mem = a.mem ∧ t.dev = a.dev)) ∧
    (hostOpen a = true → a.board.qspi = true → 8 ≤ c.length → nibbles (c.take 2) ≠ 0x5A → nibbles (c.take 2) ≠ 0xA5 →
      Runs (.registerWrite dt (.qspi c) []) s (fun t => t = a)) ∧
    (hostOpen a = true → a.board.qspi = true →
      Runs (.registerWrite dt (.qspi ([5, 10, 0, 0, 0, 0, 2, 8] ++ byteNibbles (leBytes 4 v.toNat))) []) s (fun t =>
        t.dev.beat = v ∧ t.mem = a.mem)) ∧
    (MemInv s → hostOpen a = true → a.board.qspi = true → n < 65536 → bar2Region (65536 * a.dev.qspiWindow.toNat + n) = .stored →
      Runs (.registerWrite dt (.qspi ([5, 10] ++ byteNibbles (beBytes 3 (8388608 + n)) ++ byteNibbles [b])) []) s (fun t =>
        memGet t.mem.sram (65536 * a.dev.qspiWindow.toNat + n) = b ∧
        (∀ j, j ≠ 65536 * a.dev.qspiWindow.toNat + n → memGet t.mem.sram j = memGet a.mem.sram j)))

/-- R361, R363, R381: the tunnel's transmit tail, its receive head, and its statistics, which clear as they are read. -/
def Obligations.TunnelRegisters : Prop :=
  ∀ (s : State) (dt r : Nat) (v : BitVec 16),
    let a := advance dt s
    let g := a.tun r
    (hostOpen a = true → a.dev.mbReady = true → r < ringCount a.var → tailOk 16 g.reqHead g.reqTail v = true →
      (a.ring r).tunnelOpen = false →
      Runs (.tunnelTxSlot dt r v) s (fun t => t = a.onTun r (fun g => { g with reqTail := v }))) ∧
    (hostOpen a = true → tailOk 16 g.reqHead g.reqTail v = false → Runs (.tunnelTxSlot dt r v) s (fun t => t = a)) ∧
    (hostOpen a = true → a.dev.mbReady = true → r < ringCount a.var → headOk g.rspTail g.rspHead v = true → (a.ring r).tunRx = [] →
      Runs (.tunRxHeadWrite dt r v) s (fun t => t = a.onTun r (fun g => { g with rspHead := v }))) ∧
    (hostOpen a = true → r < ringCount a.var →
      Runs (.tunStatRead dt r) s (fun t => (t.tun r).txRejected = 0 ∧ (t.tun r).rxDropped = 0 ∧ (t.tun r).rspHead = g.rspHead))

/-! ### Parameters, plans and the cycle (R14, R15, R29, R41 to R76, R372, R373, R703) -/

/-- R15, R372, R373: a read of one entry answers its value; a write of one entry sets the value last written, and the value in force at
once or from the first tick strictly later than the stamp; a failing entry leaves everything as it was.
At a tick the waiting writes with an earlier stamp come into force, and the others go on waiting. -/
def Obligations.ParameterReadsAndWrites : Prop :=
  ∀ (s : State) (dt ns : Nat) (q : Request) (d : PDef) (w : PWrite) (k st : Nat) (store : Params) (one : WaitingWrite),
    let r0 := atStamp Cmd.paramRead dt q s
    let w0 := atStamp Cmd.paramWrite dt q s
    let e := entryAt q.payload 0
    (Served Cmd.paramRead dt q s → uAt q.payload 0 1 = 1 → uAt q.payload 1 3 = 0 → readOk e = false →
      Answers (.paramRead dt q) Cmd.paramRead dt q s St.badParam (fun u p => u = r0 ∧ p.take 4 = [1, 0, 0, 0])) ∧
    (Served Cmd.paramRead dt q s → uAt q.payload 0 1 = 1 → uAt q.payload 1 3 = 0 → entryDef e = some d → readOk e = true →
      Answers (.paramRead dt q) Cmd.paramRead dt q s St.ok (fun u p => u = r0 ∧
        p = [1, 0xFF, 0, 0] ++ (slice e.bytes 0 8 ++ slice (contBytes d.ty (readParam r0 e.obj e.sub e.inst d)) 0 12))) ∧
    (Served Cmd.paramWrite dt q s → uAt q.payload 0 1 = 1 → uAt q.payload 1 3 = 0 → checkWrites w0 q.payload = .ok [w] →
      Answers (.paramWrite dt q) Cmd.paramWrite dt q s St.ok (fun u _ =>
        tfind u.par.written (pkey w.n w.inst) = some w.value ∧
        (w.eff = .now → tfind u.par.active (pkey w.n w.inst) = some w.value) ∧
        (w.eff = .tick → u.par.active = w0.par.active ∧
          u.par.waiting = w0.par.waiting ++ [{ stamp := stampOf Cmd.paramWrite dt q s, key := pkey w.n w.inst, value := w.value }]))) ∧
    (Served Cmd.paramWrite dt q s → uAt q.payload 0 1 = 1 → uAt q.payload 1 3 = 0 → checkWrites w0 q.payload = .error (k, st) →
      Answers (.paramWrite dt q) Cmd.paramWrite dt q s st (fun u _ => u = w0)) ∧
    (store.waiting = [one] →
      (one.stamp < ns → tfind (parTick ns store).active one.key = some one.value ∧ (parTick ns store).waiting = []) ∧
      (ns ≤ one.stamp → (parTick ns store).active = store.active ∧ (parTick ns store).waiting = [one]))

/-- R72, R671, R673, R703: PLAN_LOAD writes a segment at any offset of the standby buffer, PLAN_STORE copies the active plan into MRAM,
PLAN_RECALL copies the stored plan into the standby buffer, PLAN_STATUS reports; and when each is refused. -/
def Obligations.PlanBuffers : Prop :=
  ∀ (s : State) (dt : Nat) (q : Request) (m : Image),
    let l0 := atStamp Cmd.planLoad dt q s
    let st0 := atStamp Cmd.planStore dt q s
    let rc0 := atStamp Cmd.planRecall dt q s
    let ps0 := atStamp Cmd.planStatus dt q s
    let o := uAt q.payload 0 4
    let data := q.payload.drop 8
    (Served Cmd.planLoad dt q s → uAt q.payload 4 4 = 0 → o + data.length ≤ 524288 → planBusy l0 = false →
      Answers (.planLoad dt q) Cmd.planLoad dt q s St.ok (fun u p => p = [] ∧ u.plan.standbySt = .unverified ∧
        u.plan.active = l0.plan.active ∧ u.mem = l0.mem ∧
        (MemInv s → memRead u.plan.standby o data.length = data) ∧
        (o = 0 → ∀ x, data.length ≤ x → memGet u.plan.standby x = 0) ∧
        (o ≠ 0 → ∀ x, x < o ∨ o + data.length ≤ x → memGet u.plan.standby x = memGet l0.plan.standby x))) ∧
    (Served Cmd.planLoad dt q s → uAt q.payload 4 4 = 0 → o + data.length ≤ 524288 → planBusy l0 = true →
      Refuses (.planLoad dt q) Cmd.planLoad dt q s St.badState) ∧
    (Served Cmd.planLoad dt q s → uAt q.payload 4 4 ≠ 0 ∨ 524288 < o + data.length →
      Refuses (.planLoad dt q) Cmd.planLoad dt q s St.badParam) ∧
    (Served Cmd.planStore dt q s → st0.plan.active = some m →
      Answers (.planStore dt q) Cmd.planStore dt q s St.ok (fun u p => p = [] ∧ u.mem.planStored = true ∧ u.plan = st0.plan ∧
        (∀ x, x < 524288 → memGet u.mem.mram (1179648 + x) = memGet m x) ∧
        (∀ x, x < 1179648 ∨ 1703936 ≤ x → memGet u.mem.mram x = memGet st0.mem.mram x) ∧ u.mem.sram = st0.mem.sram)) ∧
    (Served Cmd.planStore dt q s → st0.plan.active = none → Refuses (.planStore dt q) Cmd.planStore dt q s St.planNone) ∧
    (Served Cmd.planRecall dt q s → planBusy rc0 = false → rc0.mem.planStored = true → q.ecc = .confirmed →
      Runs (.planRecall dt q) s (fun t => t.plan.standby = rc0.plan.standby ∧ t.ev.raised.contains Ev.eccDouble = true)) ∧
    (Served Cmd.planRecall dt q s → (q.ecc = .clean ∨ q.ecc = .corrected) → planBusy rc0 = false → rc0.mem.planStored = true →
      Answers (.planRecall dt q) Cmd.planRecall dt q s St.ok (fun u p => p = [] ∧ u.plan.standbySt = .unverified ∧
        u.plan.standby = memSlice rc0.mem.mram 1179648 524288 ∧ u.plan.active = rc0.plan.active ∧ u.mem = rc0.mem)) ∧
    (Served Cmd.planRecall dt q s → planBusy rc0 = true → Refuses (.planRecall dt q) Cmd.planRecall dt q s St.badState) ∧
    (Served Cmd.planRecall dt q s → planBusy rc0 = false → rc0.mem.planStored = false →
      Refuses (.planRecall dt q) Cmd.planRecall dt q s St.planNotStored) ∧
    (Served Cmd.planStatus dt q s → Answers (.planStatus dt q) Cmd.planStatus dt q s St.ok (fun u p => u = ps0 ∧ p.length = 28 ∧
      Field p 0 4 (planId ps0.image) ∧ Field p 4 4 (if ps0.plan.standbySt = .empty then 0 else planId ps0.plan.standby) ∧
      Field p 8 1 (standbyCode ps0.plan.standbySt) ∧ Field p 9 1 (planRate ps0.image) ∧ Field p 10 2 0 ∧
      Field p 12 8 (ps0.plan.armed.getD 0) ∧ Field p 20 2 ps0.plan.budgetUse ∧ Field p 22 2 0 ∧ Field p 24 4 ps0.tru.derating))

/-- R66, R72 to R74, R703: a commit verifies the standby plan; in CONFIG a verified plan becomes active at once, in the other states a
switch is armed at the named tick, or at the next number divisible by 256; the switch exchanges the buffers. -/
def Obligations.PlanCommitAndSwitch : Prop :=
  ∀ (s : State) (dt n : Nat) (q : Request) (r : Refused),
    let c0 := atStamp Cmd.planCommit dt q s
    let a := advance dt s
    let ver := verifyPlan a a.plan.standby (planDerating a) a.cyc.running
    (Served Cmd.planCommit dt q s → uAt q.payload 0 8 % 256 = 0 → planBusy c0 = false →
      Runs (.planCommit dt q) s (fun t => t.plan.verifying = some (uAt q.payload 0 8) ∧ t.plan.verifyMb = q.mb ∧
        t.plan.standbySt = .verifying ∧ (tfind t.host.running q.mb).isSome = true)) ∧
    (Served Cmd.planCommit dt q s → uAt q.payload 0 8 % 256 ≠ 0 →
      Answers (.planCommit dt q) Cmd.planCommit dt q s St.badParam (fun u p => u = c0 ∧ p = [])) ∧
    (a.plan.verifying = some n → ver = .error r → Runs (.planVerifyDone dt) s (fun t =>
      t.plan.standbySt = .unverified ∧ t.plan.verifying = none ∧ t.plan.active = a.plan.active ∧ t.plan.standby = a.plan.standby)) ∧
    (a.plan.verifying = some n → (∀ r, ver ≠ .error r) → a.dev.mode = .config → Runs (.planVerifyDone dt) s (fun t =>
      t.plan.active = some a.plan.standby ∧ t.plan.verifying = none ∧
      t.plan.standbySt = if a.plan.active.isSome then .verified else .empty)) ∧
    (a.plan.verifying = some n → (∀ r, ver ≠ .error r) → a.dev.mode ≠ .config → n ≠ 0 → a.time.now < n * (periodNs (switchRate a) * nsU) →
      Runs (.planVerifyDone dt) s (fun t => t.plan.armed = some n ∧ t.plan.standbySt = .armed ∧ t.plan.active = a.plan.active)) ∧
    (a.plan.verifying = some 0 → (∀ r, ver ≠ .error r) → a.dev.mode ≠ .config →
      Runs (.planVerifyDone dt) s (fun t => ∃ k, t.plan.armed = some k ∧ k % 256 = 0 ∧
        a.time.now < k * (periodNs (switchRate a) * nsU) ∧ k * (periodNs (switchRate a) * nsU) ≤
          a.time.now + 256 * (periodNs (switchRate a) * nsU))) ∧
    (s.plan.armed = some n → s.cyc.running = false → Runs .planSwitch s (fun t =>
      t.plan.active = some s.plan.standby ∧ t.plan.armed = none ∧ t.plan.standby = s.plan.active.getD [] ∧
      t.plan.standbySt = if s.plan.active.isSome then .verified else .empty))

/-- R29, R42, R43, R57, R76: the start of the cycle, its first tick, every further tick, its stop, and failures of its hardware. -/
def Obligations.CycleStartsTicksAndStops : Prop :=
  ∀ (s : State) (dt n : Nat) (q : Request) (m : Image),
    let c0 := atStamp Cmd.cycleStart dt q s
    let a := advance dt s
    let f := advanceTo (tickU (planRate s.image) n) s
    let k := advanceTo (tickU s.cyc.rate (s.cyc.tick + 1)) s
    (Served Cmd.cycleStart dt q s → c0.cyc.first = none → c0.plan.active = some m → c0.plan.verifiedAt = c0.tru.derating →
      needsDomain c0 = false → ringsStatus c0 = 0 →
      Answers (.cycleStart dt q) Cmd.cycleStart dt q s St.pend (fun u p => p = [] ∧
        u.cyc.first = some (firstTick (planRate m) (stampOf Cmd.cycleStart dt q s)) ∧ isPending u Cmd.cycleStart 0 = true)) ∧
    (Served Cmd.cycleStart dt q s → c0.cyc.first = none → c0.plan.active = some m → c0.plan.verifiedAt = c0.tru.derating →
      needsDomain c0 = false → ringsStatus c0 ≠ 0 →
      Answers (.cycleStart dt q) Cmd.cycleStart dt q s (ringsStatus c0) (fun u p => p = [] ∧ u.cyc = c0.cyc ∧ u.dev.mode = c0.dev.mode ∧
        u.par = c0.par)) ∧
    (Served Cmd.cycleStart dt q s → c0.cyc.first = none → c0.plan.active = none →
      Answers (.cycleStart dt q) Cmd.cycleStart dt q s St.planNone (fun u p => p = [] ∧ u = c0)) ∧
    (s.cyc.first = some n → f.cyc.running = false → tickU (planRate s.image) n ≤ f.time.now →
      Runs .cycleFirstTick s (fun t => t.cyc.running = true ∧ t.cyc.tick = n ∧ t.cyc.t0 = tickU (planRate s.image) n ∧
        t.cyc.rate = planRate s.image)) ∧
    (k.cyc.running = true → tickU s.cyc.rate (s.cyc.tick + 1) ≤ k.time.now →
      Runs .tick s (fun t => t.cyc.tick = s.cyc.tick + 1 ∧ t.cyc.t0 = tickU s.cyc.rate (s.cyc.tick + 1) ∧ t.cyc.count = s.cyc.count + 1 ∧
        t.cyc.rate = s.cyc.rate)) ∧
    (Served Cmd.cycleStop dt q s → Answers (.cycleStop dt q) Cmd.cycleStop dt q s St.ok (fun u p =>
      p = [] ∧ u.cyc.running = false ∧ u.dev.mode = .config)) ∧
    (a.cyc.running = true → 1 ≤ n → n ≤ 4 → (n = 2 → ringCount a.var = 2) → a.dev.hwFaults.contains n = false →
      Runs (.cycleHwFault dt n) s (fun t => t.cyc.running = false ∧ t.dev.hwFaults.contains n = true ∧
        t.ev.raised.contains Ev.cycleHwFault = true ∧
        (a.dev.mode = .preop ∨ a.dev.mode = .operational ∨ a.dev.mode = .safeHold → t.dev.mode = .fault))) ∧
    (a.cyc.running = false ∨ n = 0 ∨ 4 < n ∨ a.dev.hwFaults.contains n = true → Runs (.cycleHwFault dt n) s (fun t => t = a))

/-- R76: the first tick of a cycle has a number divisible by 256 and lies at least 1 ms after the acceptance, and no earlier tick does. -/
def Obligations.FirstTickIsTheEarliestAllowed : Prop :=
  ∀ (rate at_ : Nat),
    firstTick rate at_ % 256 = 0 ∧ at_ + 1000000 ≤ tickNs rate (firstTick rate at_) ∧
    ∀ n, n % 256 = 0 → at_ + 1000000 ≤ tickNs rate n → firstTick rate at_ ≤ n

/-- R297, R302, R303: a FLOW_PLACE that passes its test moves the flow at once, with its epoch one up, where nothing of it is in service
or waits in a commit buffer, and has it drain to the engine else; the flow keeps its place where it is there already. Every other flow
stays as it is. Refused, the command has no effect. -/
def Obligations.FlowPlacement : Prop :=
  ∀ (s : State) (dt g : Nat) (q : Request) (use : Nat × Nat) (r : Refused),
    let u0 := atStamp Cmd.flowPlace dt q s
    let f := uAt q.payload 0 2
    let e := uAt q.payload 2 1
    let x := u0.flow f
    (Served Cmd.flowPlace dt q s → uAt q.payload 3 1 = 0 → (pflow u0.image f).isSome = true → bitOf (flowAffinity u0.image f) e = true →
      serves u0 e = true → x.drainTo = none →
      (placeTest u0 (placesWith u0 f e) = .ok use →
        Answers (.flowPlace dt q) Cmd.flowPlace dt q s St.ok (fun u p => p = [] ∧ u.plan.active = u0.plan.active ∧
          (u.flow f).placed = placedAway u0 f e ∧ (g ≠ f → u.flow g = u0.flow g) ∧
          (x.engine = some e → (u.flow f).engine = some e ∧ (u.flow f).epoch = x.epoch ∧ (u.flow f).drainTo = none) ∧
          (x.engine ≠ some e → x.service = none → flowSettled u0 f = true →
            (u.flow f).engine = some e ∧ (u.flow f).epoch = (x.epoch + 1) % 256 ∧ (u.flow f).drainTo = none) ∧
          (x.engine ≠ some e → (x.service ≠ none ∨ flowSettled u0 f = false) →
            (u.flow f).engine = x.engine ∧ (u.flow f).epoch = x.epoch ∧ (u.flow f).drainTo = some e))) ∧
      (placeTest u0 (placesWith u0 f e) = .error r →
        Answers (.flowPlace dt q) Cmd.flowPlace dt q s St.planBudget (fun u p => u = u0 ∧ p.length = 16))) ∧
    (Served Cmd.flowPlace dt q s → uAt q.payload 3 1 = 0 → (pflow u0.image f).isSome = true → bitOf (flowAffinity u0.image f) e = true →
      (serves u0 e = false ∨ x.drainTo ≠ none) → Refuses (.flowPlace dt q) Cmd.flowPlace dt q s St.badState) ∧
    (Served Cmd.flowPlace dt q s → (uAt q.payload 3 1 ≠ 0 ∨ pflow u0.image f = none ∨ bitOf (flowAffinity u0.image f) e = false) →
      Refuses (.flowPlace dt q) Cmd.flowPlace dt q s St.badParam)

/-! ### Reports (R305 to R307, R557, R590, R617, R636, R660, R672 to R680) -/

/-- R372, R672 to R678: the reports on the part, its rings, axes, laws, motion, local unit and time. Each leaves the state as it was and
answers a payload of its layout. -/
def Obligations.PartAndAxisReports : Prop :=
  ∀ (s : State) (dt n : Nat) (q : Request) (node : Node),
    let v := s.board.variant
    (Served Cmd.sysCaps dt q s → Reports (.sysCaps dt q) Cmd.sysCaps dt q s (fun p =>
      p.length = 40 ∧ Field p 0 4 (deviceId v + 0xB0 * 65536) ∧ Field p 8 4 (caps0 v) ∧ Field p 12 4 (caps1 v) ∧
      Field p 16 8 s.board.serial)) ∧
    (Served Cmd.bootInfo dt q s → Reports (.bootInfo dt q) Cmd.bootInfo dt q s (fun p =>
      p.length = 12 ∧ Field p 0 1 s.power.slot ∧ Field p 2 1 s.power.patch ∧ Field p 4 1 s.power.resetSource ∧
      Field p 5 1 s.power.fuses ∧ Field p 8 4 s.power.version)) ∧
    (Served Cmd.ringStatus dt q s → uAt q.payload 0 1 = n → n < ringCount v → 1 ≤ uAt q.payload 1 1 → uAt q.payload 1 1 ≤ 64 →
      uAt q.payload 2 2 = 0 → Reports (.ringStatus dt q) Cmd.ringStatus dt q s (fun p =>
        Field p 0 1 n ∧ Field p 1 1 (s.ring n).nodes.length ∧ Field p 2 1 ((s.ring n).breakHop.getD 255) ∧
        Field p 4 4 (s.ring n).closures)) ∧
    (Served Cmd.nodeIdentity dt q s → uAt q.payload 1 3 = 0 → uAt q.payload 0 1 = n → n / 64 < ringCount v → n % 64 < nodeMax v →
      n < 128 → (∃ k, nodeAt (atStamp Cmd.nodeIdentity dt q s) (n / 64) (n % 64 + 1) = some k ∧
        node = (atStamp Cmd.nodeIdentity dt q s).node (n / 64) k) →
      Reports (.nodeIdentity dt q) Cmd.nodeIdentity dt q s (fun p => p.length = 36 ∧ p.take 32 = slice node.record 0 32 ∧
        Field p 33 1 (bit node.bound))) ∧
    (Served Cmd.axisStatus dt q s → uAt q.payload 1 3 = 0 → uAt q.payload 0 1 = n → n < axisCount v →
      Reports (.axisStatus dt q) Cmd.axisStatus dt q s (fun p => p.length = 84 ∧ Field p 0 1 n ∧
        Field p 1 1 (phaseCode (s.axis n)) ∧ Field p 3 1 (s.axis n).source)) ∧
    (Served Cmd.lawInfo dt q s → uAt q.payload 1 3 = 0 → Reports (.lawInfo dt q) Cmd.lawInfo dt q s (fun p =>
      Field p 0 1 (allBlocks s).length ∧ Field p 1 1 (min 9 ((allBlocks s).length - uAt q.payload 0 1)))) ∧
    (Served Cmd.motionStatus dt q s → uAt q.payload 2 2 = 0 → moverOf q.payload = some (.axis n) → n < axisCount v →
      Reports (.motionStatus dt q) Cmd.motionStatus dt q s (fun p => p.length = 40 ∧ Field p 1 1 (s.axis n).queue.length ∧
        Field p 2 1 (bit (s.axis n).homed))) ∧
    (Served Cmd.motionStatus dt q s → uAt q.payload 2 2 = 0 → moverOf q.payload = some (.group n) →
      Reports (.motionStatus dt q) Cmd.motionStatus dt q s (fun p => p.length = 40 ∧
        ((s.group n).members = [] → p = zeros 40) ∧ ((s.group n).members ≠ [] → Field p 1 1 (s.group n).queue.length))) ∧
    (Served Cmd.pwmStatus dt q s → uAt q.payload 1 3 = 0 → uAt q.payload 0 1 = n → n < slotCount v →
      Reports (.pwmStatus dt q) Cmd.pwmStatus dt q s (fun p => Field p 0 1 n)) ∧
    (Served Cmd.localInStatus dt q s → Reports (.localInStatus dt q) Cmd.localInStatus dt q s (fun p =>
      ∀ k, k < 3 * slotCount v → k < 32 → bitOf (uAt p 0 4) k = (tget s.loc.dins {} k).level)) ∧
    (Served Cmd.timeRead dt q s → Reports (.timeRead dt q) Cmd.timeRead dt q s (fun p => p.length = 36 ∧
      let a := advance dt s
      Field p 0 6 (nowSec a) ∧ Field p 6 4 (nowNs a % 1000000000) ∧ Field p 10 2 (a.time.now % nsU / 65536) ∧
      Field p 28 1 (bit a.dev.traceable))) ∧
    (Served Cmd.ptpStatus dt q s → Reports (.ptpStatus dt q) Cmd.ptpStatus dt q s (fun p => p.length = 40 ∧
      Field p 0 1 s.time.ptpState ∧ Field p 1 1 (s.port 0).state ∧ Field p 2 1 (s.port 1).state))

/-- R305 to R307, R435, R500, R557, R590, R617, R636: the reports on calipers, DMA, safety, the pair, events, shavings, the dispatcher
and truing, and the probe queue, whose records leave it as they are read. -/
def Obligations.UnitReports : Prop :=
  ∀ (s : State) (dt n : Nat) (q : Request) (g : CalSeg),
    let v := s.board.variant
    (Served Cmd.calStatus dt q s → Reports (.calStatus dt q) Cmd.calStatus dt q s (fun p => p.length = 20 ∧
      Field p 0 1 s.cal.state ∧ Field p 1 1 s.cal.stopReason ∧ Field p 2 1 s.cal.syncState ∧ Field p 4 4 s.cal.segments ∧
      Field p 8 8 s.cal.spilled)) ∧
    (Served Cmd.calRead dt q s → q.ecc = .clean → uAt q.payload 9 3 = 0 → s.cal.done.find? (fun g => g.number == uAt q.payload 0 4) = some g →
      1 ≤ uAt q.payload 8 1 → uAt q.payload 8 1 ≤ 224 → uAt q.payload 4 4 + uAt q.payload 8 1 ≤ g.len →
      Reports (.calRead dt q) Cmd.calRead dt q s (fun p =>
        p = memRead (if g.inDdr then s.mem.ddr else s.mem.capture) (g.addr + uAt q.payload 4 4) (uAt q.payload 8 1))) ∧
    (Served Cmd.dmaStatus dt q s → uAt q.payload 1 3 = 0 → uAt q.payload 0 1 = n → 24 ≤ n → n < 32 →
      Reports (.dmaStatus dt q) Cmd.dmaStatus dt q s (fun p => p.length = 52 ∧ Field p 0 8 (s.chan n).src ∧
        Field p 8 8 (s.chan n).dst ∧ Field p 16 4 (s.chan n).count ∧ Field p 24 8 (s.chan n).list ∧ Field p 32 2 (s.chan n).tail ∧
        Field p 34 1 (s.chan n).state ∧ Field p 36 2 (s.chan n).status ∧ Field p 40 8 (s.chan n).bytes)) ∧
    (Served Cmd.safetyStatus dt q s → Reports (.safetyStatus dt q) Cmd.safetyStatus dt q s (fun p =>
      Field p 0 1 s.safe.state ∧ Field p 1 1 s.safe.faultCause ∧ ∀ f, f < 16 → Field p (12 + f) 1 (s.fn f).state)) ∧
    (Served Cmd.safetyImageRead dt q s → uAt q.payload 5 3 = 0 → 1 ≤ uAt q.payload 4 1 → uAt q.payload 4 1 ≤ 224 →
      uAt q.payload 0 4 + uAt q.payload 4 1 ≤ s.safe.image.length →
      Reports (.safetyImageRead dt q) Cmd.safetyImageRead dt q s (fun p =>
        p = (s.safe.image.drop (uAt q.payload 0 4)).take (uAt q.payload 4 1))) ∧
    (Served Cmd.safetyConnStatus dt q s → uAt q.payload 1 3 = 0 → uAt q.payload 0 1 = n → n < 128 →
      Reports (.safetyConnStatus dt q) Cmd.safetyConnStatus dt q s (fun p => p.length = 32 ∧ Field p 2 1 (s.conn n).state ∧
        Field p 4 2 (s.conn n).seq ∧ Field p 20 4 (s.conn n).crcErrors ∧ Field p 24 4 (s.conn n).seqErrors ∧
        Field p 28 4 (s.conn n).timeouts)) ∧
    (Served Cmd.pairStatus dt q s → Reports (.pairStatus dt q) Cmd.pairStatus dt q s (fun p => p.length = 28 ∧
      Field p 0 1 s.pair.state ∧ Field p 1 1 (bit s.pair.grip) ∧ Field p 4 4 s.pair.epoch ∧ Field p 20 4 s.pair.divergences)) ∧
    (Served Cmd.eventRead dt q s → Reports (.eventRead dt q) Cmd.eventRead dt q s (fun p =>
      let l := (recordsFrom s.ev.records (uAt q.payload 0 4)).take 7
      p.length = 4 + 32 * l.length ∧ p = b8 l.length ++ zeros 3 ++ l.flatMap evBytes)) ∧
    (Served Cmd.shavingsStatus dt q s → q.ecc = .clean → Reports (.shavingsStatus dt q) Cmd.shavingsStatus dt q s (fun p => p.length = 120 ∧
      p.take 56 = memRead s.mem.mram 0 56 ∧ (p.drop 56).take 56 = memRead s.mem.mram 589824 56)) ∧
    (Served Cmd.shavingsRead dt q s → q.ecc = .clean → uAt q.payload 0 1 < 2 → 1 ≤ uAt q.payload 1 1 → uAt q.payload 1 1 ≤ 224 →
      uAt q.payload 2 2 = 0 → uAt q.payload 4 4 + uAt q.payload 1 1 ≤ 589824 →
      Reports (.shavingsRead dt q) Cmd.shavingsRead dt q s (fun p =>
        p = memRead s.mem.mram (uAt q.payload 0 1 * 589824 + uAt q.payload 4 4) (uAt q.payload 1 1))) ∧
    (Served Cmd.dispatchEngineStats dt q s → uAt q.payload 1 3 = 0 → uAt q.payload 0 1 < engineCount v →
      Answers (.dispatchEngineStats dt q) Cmd.dispatchEngineStats dt q s St.ok (fun u p =>
        u = atStamp Cmd.dispatchEngineStats dt q s ∧ ∀ w, tfind s.disp.snap.engines (uAt q.payload 0 1) = some w → p = w)) ∧
    (Served Cmd.dispatchLevelStats dt q s → Reports (.dispatchLevelStats dt q) Cmd.dispatchLevelStats dt q s (fun p =>
      p = slice s.disp.snap.levels 0 64)) ∧
    (Served Cmd.dispatchFlowStats dt q s → uAt q.payload 2 2 = 0 → (pflow s.image (uAt q.payload 0 2)).isSome = true →
      Answers (.dispatchFlowStats dt q) Cmd.dispatchFlowStats dt q s St.ok (fun u p =>
        u = atStamp Cmd.dispatchFlowStats dt q s ∧ ∀ w, tfind s.disp.snap.flows (uAt q.payload 0 2) = some w → p = w)) ∧
    (Served Cmd.truingStatus dt q s → uAt q.payload 1 3 = 0 → Reports (.truingStatus dt q) Cmd.truingStatus dt q s (fun p =>
      Field p 0 4 s.tru.derating ∧ Field p 8 2 s.tru.mvReq ∧ Field p 10 2 s.tru.mvRead ∧ Field p 16 4 s.tru.passes)) ∧
    (Served Cmd.probeRead dt q s → uAt q.payload 1 3 = 0 → uAt q.payload 0 1 = n → n < slotCount v →
      Answers (.probeRead dt q) Cmd.probeRead dt q s St.ok (fun u p =>
        let l := (doneFront (s.probe n).queue).take 9
        p = b8 l.length ++ zeros 3 ++ l.flatMap probeBytes ∧ (u.probe n).queue = (s.probe n).queue.drop l.length))

/-! ### Axes and motion (spec 06 and 07) -/

/-- R165, R199 to R204: the enable and disable sequences of an axis. No other axis changes as an enable is accepted. -/
def Obligations.AxisEnableAndDisable : Prop :=
  ∀ (s : State) (dt n t0 : Nat) (q : Request),
    let a := advance dt s
    let e0 := promoteEnable (atStamp Cmd.axisEnable dt q s) n
    (Served Cmd.axisEnable dt q s → uAt q.payload 0 1 = n → n < axisCount s.board.variant → uAt q.payload 1 3 = 0 →
      modeFits e0 n = true → nodeReady e0 n = true → (e0.axis n).faults = [] → axisSafetyOff e0 n = false →
      (e0.axis n).phase = .disabled →
      Answers (.axisEnable dt q) Cmd.axisEnable dt q s St.pend (fun u p => p = [] ∧ isPending u Cmd.axisEnable n = true ∧
        (∃ r, (u.axis n).phase = .accepted (stampOf Cmd.axisEnable dt q s) r) ∧ ∀ b, b ≠ n → u.axis b = s.axis b)) ∧
    (Served Cmd.axisEnable dt q s → uAt q.payload 0 1 = n → n < axisCount s.board.variant → uAt q.payload 1 3 = 0 →
      modeFits e0 n = true → (e0.axis n).faults ≠ [] → Refuses (.axisEnable dt q) Cmd.axisEnable dt q s St.badState) ∧
    ((s.axis n).phase = .braking t0 → t0 + parN s Par.brakeRelease n * 1000000 * nsU ≤ s.cyc.t0 →
      Runs (.axisEnabled dt n) s (fun t => (t.axis n).phase = .enabled ∧ isPending t Cmd.axisEnable n = false ∧
        ∀ b, b ≠ n → t.axis b = s.axis b)) ∧
    ((s.axis n).phase = .powering t0 → t0 + parN s Par.enableTimeout n * 1000000 * nsU ≤ a.time.now →
      Runs (.axisEnableTimeout dt n) s (fun t => (t.axis n).phase = .disabled ∧ (t.axis n).control = 0 ∧
        isPending t Cmd.axisEnable n = false)) ∧
    (Served Cmd.axisDisable dt q s → uAt q.payload 0 1 = n → n < axisCount s.board.variant → uAt q.payload 1 3 = 0 →
      ((s.axis n).phase = .disabled → Answers (.axisDisable dt q) Cmd.axisDisable dt q s St.ok (fun u p =>
        p = [] ∧ u = atStamp Cmd.axisDisable dt q s)) ∧
      ((s.axis n).phase = .enabled → Answers (.axisDisable dt q) Cmd.axisDisable dt q s St.pend (fun u p =>
        p = [] ∧ (u.axis n).phase = .stopping ∧ isPending u Cmd.axisDisable n = true))) ∧
    ((s.axis n).phase = .holding t0 →
      t0 + (if par s Par.axisMode n = 7 then 0 else parN s Par.brakeEngage n) * 1000000 * nsU ≤ a.time.now →
      Runs (.brakeEngageExpiry dt n) s (fun t => (t.axis n).phase = .disabled ∧ (t.axis n).control = 0 ∧
        (t.axis n).axisEnabled = false ∧ isPending t Cmd.axisDisable n = false))

/-- R173, R175, R192, R206, R602: the axis faults of the law, and the clearing of faults; in a cycle whose main task has not committed the
stream miss count is that of the last committed one. -/
def Obligations.AxisFaultsAndTheirClearing : Prop :=
  ∀ (s : State) (dt n : Nat) (q : Request),
    (Served Cmd.axisFaultClear dt q s → uAt q.payload 2 2 = 0 → moverOf q.payload = some (.axis n) →
      n < axisCount s.board.variant → (s.axis n).faults ≠ [] →
      (axisCausePersists (atStamp Cmd.axisFaultClear dt q s) n = false →
        Answers (.axisFaultClear dt q) Cmd.axisFaultClear dt q s St.ok (fun u p => p = [] ∧ (u.axis n).faults = [] ∧
          (u.axis n).phase = (s.axis n).phase ∧ ∀ b, b ≠ n → u.axis b = s.axis b)) ∧
      (axisCausePersists (atStamp Cmd.axisFaultClear dt q s) n = true →
        Refuses (.axisFaultClear dt q) Cmd.axisFaultClear dt q s St.badState)) ∧
    (Served Cmd.axisFaultClear dt q s → uAt q.payload 2 2 = 0 → moverOf q.payload = some (.group n) →
      Answers (.axisFaultClear dt q) Cmd.axisFaultClear dt q s St.ok (fun u p => p = [] ∧ (u.group n).faults = [])) ∧
    (parN s Par.fbMissMax n ≤ (s.axis n).invalidRun →
      (s.axis n).faults.contains Ev.feedbackLost = false →
      Runs (.feedbackLost dt n) s (fun t => (t.axis n).faults.contains Ev.feedbackLost = true ∧ (t.axis n).homed = false)) ∧
    (parN s Par.feTime n ≠ 0 → parN s Par.feTime n ≤ (s.axis n).feCycles → (s.axis n).faults.contains Ev.followingError = false →
      Runs (.followingError dt n) s (fun t => (t.axis n).faults.contains Ev.followingError = true)) ∧
    ((s.axis n).source = 2 → parN s Par.streamMissMax n ≤ streamCount s n → (s.axis n).faults.contains Ev.streamLost = false →
      Runs (.streamLost dt n) s (fun t => (t.axis n).faults.contains Ev.streamLost = true))

/-- R191, R193, R195, R704: set-point sources and gearing. No other axis changes. -/
def Obligations.SourcesAndGearing : Prop :=
  ∀ (s : State) (dt n src : Nat) (q : Request),
    let x := s.axis n
    let r0 := promoteRatio (atStamp Cmd.gearRatio dt q s) n
    (Served Cmd.axisSource dt q s → uAt q.payload 0 1 = n → n < axisCount s.board.variant → uAt q.payload 1 1 = src → src < 4 →
      uAt q.payload 2 2 = 0 → (src = 1 → (groupOf s n).isSome = true) → (src = 3 → hasMaster s.image n = true) →
      (src = 3 → x.source = 3 ∨ gearFits s n = true) → x.prof = .idle → x.queue = [] → x.waiting = [] → actingGroup s n = none →
      Answers (.axisSource dt q) Cmd.axisSource dt q s St.ok (fun u p => p = [] ∧ (u.axis n).source = src ∧
        ∀ b, b ≠ n → u.axis b = s.axis b)) ∧
    (Served Cmd.axisSource dt q s → uAt q.payload 0 1 = n → n < axisCount s.board.variant → uAt q.payload 1 1 = 3 →
      uAt q.payload 2 2 = 0 → x.source ≠ 3 → gearFits s n = false → Refuses (.axisSource dt q) Cmd.axisSource dt q s St.badParam) ∧
    (Served Cmd.axisSource dt q s → uAt q.payload 0 1 = n → n < axisCount s.board.variant → uAt q.payload 1 1 = src → src < 4 →
      uAt q.payload 2 2 = 0 → (src = 1 → (groupOf s n).isSome = true) → (src = 3 → x.source = 3 ∨ gearFits s n = true) → x.prof = .moving →
      Refuses (.axisSource dt q) Cmd.axisSource dt q s St.motionBusy) ∧
    (Served Cmd.gearRatio dt q s → uAt q.payload 0 1 = n → n < axisCount s.board.variant → uAt q.payload 1 3 = 0 →
      x.phase = .enabled → x.source = 3 →
      Answers (.gearRatio dt q) Cmd.gearRatio dt q s St.ok (fun u p => p = [] ∧ (u.axis n).gear.ramping = true ∧
        (u.axis n).gear.disengaging = false ∧ (u.axis n).gear.toNum = par r0 Par.ratioNum n ∧
        (u.axis n).gear.toDen = parN r0 Par.ratioDen n ∧ ∀ b, b ≠ n → u.axis b = s.axis b)) ∧
    (Served Cmd.gearEngage dt q s → uAt q.payload 0 1 = n → n < axisCount s.board.variant → uAt q.payload 1 3 = 0 →
      x.phase = .enabled → x.source = 0 → busyAxis x (stampOf Cmd.gearEngage dt q s) = false → x.kin.v = 0 → x.kin.a = 0 →
      hasMaster s.image n = true →
      (gearFits s n = false → Refuses (.gearEngage dt q) Cmd.gearEngage dt q s St.badParam) ∧
      (gearFits s n = true → Answers (.gearEngage dt q) Cmd.gearEngage dt q s St.ok (fun u p => p = [] ∧ (u.axis n).source = 3 ∧
        (u.axis n).gear.ramping = true ∧ (u.axis n).gear.num = 0 ∧ ∀ b, b ≠ n → u.axis b = s.axis b))) ∧
    (Served Cmd.gearDisengage dt q s → uAt q.payload 0 1 = n → n < axisCount s.board.variant → uAt q.payload 1 3 = 0 →
      x.phase = .enabled → x.source = 3 →
      Answers (.gearDisengage dt q) Cmd.gearDisengage dt q s St.ok (fun u p => p = [] ∧ (u.axis n).gear.ramping = true ∧
        (u.axis n).gear.disengaging = true ∧ (u.axis n).gear.toNum = 0 ∧ ∀ b, b ≠ n → u.axis b = s.axis b)) ∧
    (uAt q.payload 0 1 = n → n < axisCount s.board.variant → uAt q.payload 1 3 = 0 →
      (x.phase ≠ .enabled ∨ x.source ≠ 3 →
        (Served Cmd.gearRatio dt q s → Refuses (.gearRatio dt q) Cmd.gearRatio dt q s St.badState) ∧
        (Served Cmd.gearDisengage dt q s → Refuses (.gearDisengage dt q) Cmd.gearDisengage dt q s St.badState)) ∧
      (x.phase ≠ .enabled → Served Cmd.gearEngage dt q s → Refuses (.gearEngage dt q) Cmd.gearEngage dt q s St.badState)) ∧
    (x.gear.ramping = true → planEnd x.gear.segs 0 ≤ s.cyc.t0 →
      Runs (.gearRampEnd dt n) s (fun t => (t.axis n).gear.ramping = false ∧ (∀ b, b ≠ n → t.axis b = s.axis b) ∧
        (x.gear.disengaging = true → (t.axis n).source = 0 ∧ (t.axis n).prof = .idle) ∧
        (x.gear.disengaging = false → (t.axis n).gear.num = x.gear.toNum ∧ (t.axis n).gear.den = x.gear.toDen ∧
          (t.axis n).source = x.source)))

/-- R245 to R248, R252: moves of an axis. A move that passes waits for the next tick; a busy axis takes it only with the queue flag. -/
def Obligations.MovesOfAnAxis : Prop :=
  ∀ (s : State) (dt n f : Nat) (v : Int) (q : Request),
    let x := s.axis n
    let m := modQ s n
    uAt q.payload 0 1 = n → n < axisCount s.board.variant → uAt q.payload 1 1 = f → f < 8 → f / 2 % 4 ≠ 3 → uAt q.payload 2 6 = 0 →
    t48At q.payload 8 = some v → x.phase = .enabled → x.source = 0 →
    (Served Cmd.moveAbs dt q s → (f / 2 % 4 = 0 ∨ 0 < m) →
      (if 0 < m then 0 ≤ q48 v ∧ q48 v < m else -posMax ≤ q48 v ∧ q48 v ≤ posMax) →
      (busyAxis x (stampOf Cmd.moveAbs dt q s) = false →
        ∀ d, d = moveDelta m { target := q48 v, delta := 0, dir := f / 2 % 4 } x.kin.x → limitBlocks x d = false →
        Answers (.moveAbs dt q) Cmd.moveAbs dt q s St.ok (fun u p => p = [] ∧ (∀ b, b ≠ n → u.axis b = s.axis b) ∧
          u.axis n = { x with waiting := x.waiting ++ [{ stamp := stampOf Cmd.moveAbs dt q s,
                                                         cmd := .move { target := q48 v, delta := d, dir := f / 2 % 4 } }] })) ∧
      (busyAxis x (stampOf Cmd.moveAbs dt q s) = true → f % 2 = 0 → Refuses (.moveAbs dt q) Cmd.moveAbs dt q s St.motionBusy) ∧
      (busyAxis x (stampOf Cmd.moveAbs dt q s) = true → f % 2 = 1 → queuedMoves x < 8 →
        (x.prof = .moving ∨ x.prof = .stopping ∨ x.prof = .homing ∨ x.waiting ≠ []) →
        Answers (.moveAbs dt q) Cmd.moveAbs dt q s St.ok (fun u p => p = [] ∧ (∀ b, b ≠ n → u.axis b = s.axis b) ∧ ∃ d,
          u.axis n = { x with waiting := x.waiting ++ [{ stamp := stampOf Cmd.moveAbs dt q s,
                                                         cmd := .move { target := q48 v, delta := d, dir := f / 2 % 4 } }] })) ∧
      (busyAxis x (stampOf Cmd.moveAbs dt q s) = true → f % 2 = 1 → 8 ≤ queuedMoves x →
        Refuses (.moveAbs dt q) Cmd.moveAbs dt q s St.queueFull)) ∧
    (Served Cmd.moveRel dt q s → f / 2 % 4 = 0 → busyAxis x (stampOf Cmd.moveRel dt q s) = false →
      (m ≤ 0 → -posMax ≤ x.kin.x + q48 v ∧ x.kin.x + q48 v ≤ posMax) →
      (limitBlocks x (q48 v) = false →
        Answers (.moveRel dt q) Cmd.moveRel dt q s St.ok (fun u p => p = [] ∧ (∀ b, b ≠ n → u.axis b = s.axis b) ∧
          u.axis n = { x with waiting := x.waiting ++ [{ stamp := stampOf Cmd.moveRel dt q s,
                                                         cmd := .move { target := wrapPos m (x.kin.x + q48 v), delta := q48 v, rel := true } }] })) ∧
      (limitBlocks x (q48 v) = true → Refuses (.moveRel dt q) Cmd.moveRel dt q s St.limitActive))

/-- R243, R254 to R256, R262, R264, R275: STOP, HOLD, RESUME and HOME wait for the next tick. -/
def Obligations.StopHoldResumeHome : Prop :=
  ∀ (s : State) (dt n : Nat) (q : Request),
    let x := s.axis n
    let g := s.group n
    let h0 := parPromote (atStamp Cmd.home dt q s) (fun _ i => i == n) .home
    let mode := parN h0 Par.homeMode n
    (Served Cmd.stop dt q s → uAt q.payload 2 2 = 0 → moverOf q.payload = some (.axis n) → n < axisCount s.board.variant →
      actingGroup s n = none → Answers (.stop dt q) Cmd.stop dt q s St.ok (fun u p => p = [] ∧
        u.axis n = { x with waiting := x.waiting ++ [{ stamp := stampOf Cmd.stop dt q s, cmd := .stop }] } ∧
        ∀ b, b ≠ n → u.axis b = s.axis b)) ∧
    (Served Cmd.stop dt q s → uAt q.payload 2 2 = 0 → moverOf q.payload = some (.group n) → g.members ≠ [] →
      Answers (.stop dt q) Cmd.stop dt q s St.ok (fun u p => p = [] ∧ u.axes = s.axes ∧
        u.group n = { g with waiting := g.waiting ++ [{ stamp := stampOf Cmd.stop dt q s, cmd := .stop }] })) ∧
    (Served Cmd.hold dt q s → uAt q.payload 2 2 = 0 → moverOf q.payload = some (.axis n) → n < axisCount s.board.variant →
      actingGroup s n = none →
      (s.dev.mode ≠ .safeHold → Answers (.hold dt q) Cmd.hold dt q s St.ok (fun u p => p = [] ∧
        u.axis n = { x with waiting := x.waiting ++ [{ stamp := stampOf Cmd.hold dt q s, cmd := .hold }] } ∧
        ∀ b, b ≠ n → u.axis b = s.axis b)) ∧
      (s.dev.mode = .safeHold → Answers (.hold dt q) Cmd.hold dt q s St.ok (fun u p => p = [] ∧ u = atStamp Cmd.hold dt q s))) ∧
    (Served Cmd.resume dt q s → uAt q.payload 2 2 = 0 → moverOf q.payload = some (.axis n) → n < axisCount s.board.variant →
      actingGroup s n = none → x.phase = .enabled → x.prof = .held → x.waiting = [] → x.remaining ≠ 0 →
      (limitBlocks x x.remaining = false → Answers (.resume dt q) Cmd.resume dt q s St.ok (fun u p => p = [] ∧
        u.axis n = { x with waiting := [{ stamp := stampOf Cmd.resume dt q s, cmd := .resume }] } ∧
        ∀ b, b ≠ n → u.axis b = s.axis b)) ∧
      (limitBlocks x x.remaining = true → Refuses (.resume dt q) Cmd.resume dt q s St.limitActive)) ∧
    (Served Cmd.home dt q s → uAt q.payload 0 1 = n → n < axisCount s.board.variant → uAt q.payload 1 3 = 0 →
      (hasLocal s.board.variant = true ∨ mode = 4) → ((mode ≠ 2 ∧ mode ≠ 3) ∨ hasLocalEnc h0 n = true) →
      x.phase = .enabled → x.source = 0 → busyAxis x (stampOf Cmd.home dt q s) = false →
      Answers (.home dt q) Cmd.home dt q s St.pend (fun u p => p = [] ∧ isPending u Cmd.home n = true ∧
        u.axis n = { x with waiting := x.waiting ++ [{ stamp := stampOf Cmd.home dt q s, cmd := .home }] } ∧
        ∀ b, b ≠ n → u.axis b = s.axis b))

/-- R253, R257, R259 to R261: the definition of a group, its moves and new path limits. -/
def Obligations.GroupCommands : Prop :=
  ∀ (s : State) (dt n f : Nat) (l : Limits) (q : Request),
    let g := s.group n
    let ms := (q.payload.drop 4).map (·.toNat)
    (Served Cmd.groupDefine dt q s → uAt q.payload 0 1 = n → n < 16 → uAt q.payload 1 1 ≤ 16 → uAt q.payload 2 2 = 0 →
      (∀ b, b ∈ ms → b < axisCount s.board.variant ∧ ∀ h, groupOf s b = some h → h = n) → ms.Nodup →
      (∀ b, (b ∈ g.members ∨ b ∈ ms) → busyMember s b (stampOf Cmd.groupDefine dt q s) = false) →
      busyGroup g (stampOf Cmd.groupDefine dt q s) = false →
      Answers (.groupDefine dt q) Cmd.groupDefine dt q s St.ok (fun u p => p = [] ∧ (u.group n).members = ms ∧
        (u.group n).prof = .idle ∧ (∀ k, k ≠ n → u.group k = s.group k) ∧
        ∀ b, b ∉ ms → b ∈ g.members → (u.axis b).source ≠ 1)) ∧
    (Served Cmd.groupMove dt q s → uAt q.payload 0 1 = n → n < 16 → uAt q.payload 1 1 = f → f < 2 → uAt q.payload 2 6 = 0 →
      g.members ≠ [] → pathLimits q.payload = some l →
      (∀ i b, g.members[i]? = some b → ∃ v, t48At q.payload (40 + 8 * i) = some v ∧ (s.axis b).phase = .enabled ∧
        (s.axis b).source = 1 ∧ (s.axis b).limPos.qualified = false ∧ (s.axis b).limNeg.qualified = false ∧
        (if 0 < modQ s b then 0 ≤ q48 v ∧ q48 v < modQ s b else -posMax ≤ q48 v ∧ q48 v ≤ posMax)) →
      g.faults = [] → busyGroup g (stampOf Cmd.groupMove dt q s) = false →
      Answers (.groupMove dt q) Cmd.groupMove dt q s St.ok (fun u p => p = [] ∧ u.axes = s.axes ∧ ∃ m : GMove,
        u.group n = { g with waiting := g.waiting ++ [{ stamp := stampOf Cmd.groupMove dt q s, cmd := .groupMove m }] } ∧
        m.lim = l ∧ m.rel = false ∧ ∀ i b, g.members[i]? = some b → ∃ v, t48At q.payload (40 + 8 * i) = some v ∧
          m.targets[i]? = some (q48 v))) ∧
    (Served Cmd.groupLimits dt q s → uAt q.payload 0 1 = n → n < 16 → uAt q.payload 1 7 = 0 → pathLimits q.payload = some l →
      g.members ≠ [] → g.faults = [] →
      Answers (.groupLimits dt q) Cmd.groupLimits dt q s St.ok (fun u p => p = [] ∧ u.axes = s.axes ∧
        u.group n = { g with waiting := g.waiting ++ [{ stamp := stampOf Cmd.groupLimits dt q s, cmd := .limits l }] }))

/-- R238, R239, R250, R261, R264 to R269, R271, R272, R277: the ends of moves and homings, qualified switches, and steppers at standstill. -/
def Obligations.MotionEvents : Prop :=
  ∀ (s : State) (dt n t0 : Nat) (sw : Switch) (m : QMove) (rest : List QMove) (later : List WaitingMotion) (h : Homing) (ref : Int),
    let a := advance dt s
    let x := s.axis n
    let now := s.cyc.t0 / nsU
    let free := x.limPos.qualified = false ∧ x.limNeg.qualified = false
    let w := switchOf x sw
    (x.prof = .moving → x.wakeMove = none → planEnd x.segs 0 ≤ s.cyc.t0 →
      (x.queue = [] → (∀ w, x.waiting.head? = some w → w.stamp ≠ now) →
        Runs (.moveComplete dt (.axis n)) s (fun t => (t.axis n).prof = .idle ∧ (t.axis n).idleAt = some now ∧
          (t.axis n).kin = { x := wrapPos (modQ s n) x.target } ∧ (t.axis n).segs = [] ∧ ∀ b, b ≠ n → t.axis b = s.axis b)) ∧
      (x.queue = m :: rest → (∀ w, x.waiting.head? = some w → w.stamp ≠ now) → free → par s Par.axisMode n ≠ 6 →
        Runs (.moveComplete dt (.axis n)) s (fun t => (t.axis n).prof = .moving ∧ (t.axis n).queue = rest ∧
          (t.axis n).kin.x = wrapPos (modQ s n) x.target ∧ ∀ b, b ≠ n → t.axis b = s.axis b)) ∧
      (x.queue = [] → x.waiting = { stamp := now, cmd := .move m } :: later → free → par s Par.axisMode n ≠ 6 →
        Runs (.moveComplete dt (.axis n)) s (fun t => (t.axis n).prof = .moving ∧ (t.axis n).queue = [] ∧ (t.axis n).waiting = later ∧
          (t.axis n).kin.x = wrapPos (modQ s n) x.target ∧ ∀ b, b ≠ n → t.axis b = s.axis b))) ∧
    ((s.group n).prof = .moving → (s.group n).wake = none → planEnd (s.group n).segs 0 ≤ s.cyc.t0 → (s.group n).queue = [] →
      (∀ w, (s.group n).waiting.head? = some w → w.stamp ≠ now) →
      Runs (.moveComplete dt (.group n)) s (fun t => (t.group n).prof = .idle ∧ (t.group n).kin.x = (s.group n).len)) ∧
    (w.raw ≠ w.qualified → w.edgeAt + parN s Par.swFilter n * 1000 * nsU ≤ a.time.now →
      Runs (.switchQualified dt n sw) s (fun t => (switchOf (t.axis n) sw).qualified = w.raw)) ∧
    (w.raw = w.qualified → Runs (.switchQualified dt n sw) s (fun t => t = a)) ∧
    (x.prof = .homing → x.homing = some h →
      (h.phase = .stopFound → h.found = some ref → planEnd x.segs 0 ≤ s.cyc.t0 → h.edges ≤ h.chatterMax → x.queue = [] →
        Runs (.homingReferenceShift dt n) s (fun t => (t.axis n).homed = true ∧ (t.axis n).prof = .idle ∧
          (t.axis n).homing = none ∧ isPending t Cmd.home n = false ∧
          (t.axis n).kin = { x := wrapPos (modQ s n) ((planLast x.kin x.segs).x + (h.offset - ref)) } ∧
          (t.axis n).xfb = wrapPos (modQ s n) (x.xfb + (h.offset - ref)))) ∧
      (h.phase = .stopFound → h.found = some ref → h.chatterMax < h.edges →
        Runs (.homingReferenceShift dt n) s (fun t => (t.axis n).homed = false ∧ (t.axis n).prof = .stopping ∧ (t.axis n).homing = none ∧
          isPending t Cmd.home n = false)) ∧
      (legMoves h = true → h.distMax ≠ 0 → h.distMax.natAbs ≤ (x.kin.x - h.legStart).natAbs →
        Runs (.homingNotFound dt n) s (fun t => (t.axis n).prof = .stopping ∧ (t.axis n).homing = none ∧
          (t.axis n).homed = false ∧ isPending t Cmd.home n = false)) ∧
      (h.chatterMax < h.edges → Runs (.homingChatter dt n) s (fun t => (t.axis n).prof = .stopping ∧ (t.axis n).homing = none ∧
        (t.axis n).homed = false ∧ isPending t Cmd.home n = false))) ∧
    (x.stillSince = some t0 → par s Par.axisMode n = 6 → t0 + parN s Par.holdDelay n * 1000000 * nsU ≤ a.time.now →
      Runs (.stepperHoldDelayExpiry dt n) s (fun t => ∃ c, t.axis n = { x with coil := c } ∧
        (attendedNow s n = true → c = .holdCurrent) ∧
        (attendedNow s n = false → c = if par s Par.stbyMode n = 0 then .off else .shorted))) ∧
    (x.wake = some t0 → x.wakeMove = some m → t0 + parN s Par.wakeTime n * 1000000 * nsU ≤ a.time.now →
      Runs (.stepperWakeDone dt n) s (fun t => (t.axis n).prof = .moving ∧ (t.axis n).wake = none ∧ (t.axis n).wakeMove = none ∧
        (t.axis n).target = x.kin.x + moveDelta (modQ s n) m x.kin.x))

/-! ### The rings (R47, R86 to R121, R674) -/

/-- R103, R107, R114, R119, R120, R674: enumeration, node services and the tunnel. -/
def Obligations.EnumerationAndNodeServices : Prop :=
  ∀ (s : State) (dt r k : Nat) (frame : Bytes) (port : Port) (e : Enum) (q : Request),
    let a := advance dt s
    let p := q.payload
    let mask := uAt p 0 1
    let n := uAt p 0 1
    let here := n < 128 ∧ n / 64 < ringCount s.board.variant ∧ n % 64 < nodeMax s.board.variant ∧ nodeAt s (n / 64) (n % 64 + 1) = some k
    let same := goodFrame frame = true ∧ uAt frame 0 1 = 3 ∧ r < ringCount s.board.variant ∧ (s.ring r).enum = some e ∧ e.done = false ∧ e.waits = false
    let found := fun (t : State) (l : List Bytes) =>
      (t.ring r).nodes.map (fun x => (x.1, x.2.record)) = (l.take (nodeMax s.board.variant)).zipIdx.map (fun x => (x.2 + 1, x.1)) ∧
      ∀ x, x ∈ positions t r → ((t.node r x).services.getLast?.map (·.service)) = some 5
    (Served Cmd.ringEnumerate dt q s → resv p 1 3 = true → 1 ≤ mask → mask < 4 → (bitOf mask 1 = true → ringCount s.board.variant = 2) →
      s.pend.any (fun x => x.code == Cmd.ringEnumerate) = false →
      Answers (.ringEnumerate dt q) Cmd.ringEnumerate dt q s St.pend (fun u p => p = [] ∧ isPending u Cmd.ringEnumerate mask = true ∧
        u.tru.running = true ∧ (s.tru.running = false → u.tru.lanesOnly = true) ∧ ∀ i, i < 2 → bitOf mask i = true → (u.ring i).nodes = [] ∧
          (u.ring i).enum = some { waits := true })) ∧
    (∀ z, s.tru.running = true → passOver (stressSync a) = true → r < 2 → (s.ring r).enum = some e → e.waits = true →
      Runs (.truingPassEnd dt z) s (fun t => (t.ring r).enum = some { e with waits := false, sentAt := a.time.now } ∧
        { port := .p, frame := enumFrame 1 } ∈ (t.ring r).sent)) ∧
    (Served Cmd.ringEnumerate dt q s → resv p 1 3 = true → mask = 2 → ringCount s.board.variant = 1 →
      Refuses (.ringEnumerate dt q) Cmd.ringEnumerate dt q s St.unsupported) ∧
    (goodFrame frame = false → Runs (.enumFrameReturn dt r port frame) s (fun t => t = relay r port frame a)) ∧
    (same → uAt frame 1 1 = 1 → e.second = false →
      Runs (.enumFrameReturn dt r .p frame) s (fun t => (t.ring r).enum = some { e with records := frameRecords frame }) ∧
      (a.time.now ≤ e.sentAt + 1000000 * nsU → Runs (.enumFrameReturn dt r .q frame) s (fun t => found t (frameRecords frame)))) ∧
    (same → uAt frame 1 1 = 3 → e.second = true →
      Runs (.enumFrameReturn dt r port frame) s (fun t => found t (e.records ++ (frameRecords frame).reverse))) ∧
    (r < ringCount s.board.variant → (s.ring r).enum = some e → e.done = false → e.waits = false → e.sentAt + 1000000 * nsU ≤ a.time.now →
      (e.second = false → Runs (.enumTimeout dt r) s (fun t => (t.ring r).enum = some { e with second := true, sentAt := a.time.now } ∧
        { port := .q, frame := enumFrame 3 } ∈ (t.ring r).sent)) ∧
      (e.second = true → Runs (.enumTimeout dt r) s (fun t => found t e.records))) ∧
    ((s.ring r).enum = none → Runs (.enumTimeout dt r) s (fun t => t = a)) ∧
    (Served Cmd.nodeEnable dt q s → resv p 1 3 = true → here →
      Answers (.nodeEnable dt q) Cmd.nodeEnable dt q s St.ok (fun u p => p = [] ∧
        ((s.node (n / 64) k).joined = true → (s.node (n / 64) k).bound = true → (u.node (n / 64) k).joined = false ∧
          ∃ sv, (u.node (n / 64) k).services = (s.node (n / 64) k).services ++ [sv] ∧ sv.service = 5) ∧
        (((s.node (n / 64) k).joined = false ∨ (s.node (n / 64) k).bound = false) → u = atStamp Cmd.nodeEnable dt q s))) ∧
    (Served Cmd.nodeAliasSet dt q s → resv p 1 1 = true → here →
      Answers (.nodeAliasSet dt q) Cmd.nodeAliasSet dt q s St.pend (fun u p => p = [] ∧ isPending u Cmd.nodeAliasSet n = true ∧
        ∃ sv, (u.node (n / 64) k).services = (s.node (n / 64) k).services ++ [sv] ∧ sv.service = 2 ∧ sv.cmd = Cmd.nodeAliasSet)) ∧
    (resv p 1 1 = true → uAt p 2 2 ≤ 240 → here →
      (Served Cmd.nodeParamRead dt q s → Answers (.nodeParamRead dt q) Cmd.nodeParamRead dt q s St.pend (fun u x =>
        x = [] ∧ isPending u Cmd.nodeParamRead n = true ∧ ∃ sv, (u.node (n / 64) k).services = (s.node (n / 64) k).services ++ [sv] ∧
          sv.service = 1 ∧ sv.payload = slice p 4 (uAt p 2 2) ∧ sv.seq = ((s.node (n / 64) k).seq + 1) % 65536)) ∧
      (Served Cmd.nodeParamWrite dt q s → Answers (.nodeParamWrite dt q) Cmd.nodeParamWrite dt q s St.pend (fun u x =>
        x = [] ∧ isPending u Cmd.nodeParamWrite n = true ∧ ∃ sv, (u.node (n / 64) k).services = (s.node (n / 64) k).services ++ [sv] ∧
          sv.service = 2 ∧ sv.payload = slice p 4 (uAt p 2 2) ∧ sv.seq = ((s.node (n / 64) k).seq + 1) % 65536))) ∧
    (n < 128 → n / 64 < ringCount s.board.variant → n % 64 < nodeMax s.board.variant → nodeAt s (n / 64) (n % 64 + 1) = none →
      (Served Cmd.nodeEnable dt q s → resv p 1 3 = true → Refuses (.nodeEnable dt q) Cmd.nodeEnable dt q s St.nodeAbsent) ∧
      (Served Cmd.nodeAliasSet dt q s → resv p 1 1 = true → Refuses (.nodeAliasSet dt q) Cmd.nodeAliasSet dt q s St.nodeAbsent)) ∧
    (Served Cmd.tunnelConfig dt q s → resv p 2 2 = true → n < ringCount s.board.variant → n < 2 → uAt p 1 1 < 2 →
      ((uAt p 1 1 = 0 ∨ domainDown s 1 = false) → Answers (.tunnelConfig dt q) Cmd.tunnelConfig dt q s St.ok (fun u p =>
        p = [] ∧ (u.ring n).tunnelOpen = (uAt q.payload 1 1 == 1))) ∧
      (uAt p 1 1 = 1 → domainDown s 1 = true → Refuses (.tunnelConfig dt q) Cmd.tunnelConfig dt q s St.badState))

/-- R47, R104 to R110, R119, R214: the acyclic window, responses, breaks, and lost nodes. -/
def Obligations.AcyclicTrafficAndBreaks : Prop :=
  ∀ (s : State) (dt r p k node hop h : Nat) (d : BreakDir) (frame : Bytes) (port : Port) (dir : BreakDir) (i : TxItem) (v : Acyclic) (rest : List Acyclic)
    (x : Slice),
    let a := advance dt s
    let left := a.time.now + frameU i.frame.length
    let response := ringDriven s r = true ∧ goodFrame frame = true ∧ uAt frame 0 1 = 4 ∧ uAt frame 1 1 = 0 ∧
      24 + uAt frame 6 2 ≤ frame.length ∧ bitOf (uAt frame 8 1) 0 = true
    let g := s.ring r
    let mid := node / 64
    (ringDriven s r = true → ringSilent s r = false →
      ((txItems a r).find? (fun j => windowOpen a r j.port j.frame.length) = some i →
        Runs (.acyclicFrameTx dt r) s (fun t => { port := i.port, frame := i.frame } ∈ (t.ring r).sent ∧
          (i.port = .p → (t.ring r).freeP = left ∧ (t.ring r).freeQ = g.freeQ) ∧
          (i.port = .q → (t.ring r).freeQ = left ∧ (t.ring r).freeP = g.freeP) ∧
          (i.src = .service p → (s.node r p).services ≠ [] → (t.node r p).services.head?.bind (·.sentIn) = some (if s.cyc.running then s.cyc.tick else 0)))) ∧
      ((txItems a r).find? (fun j => windowOpen a r j.port j.frame.length) = none → Runs (.acyclicFrameTx dt r) s (fun t => t = a))) ∧
    (ringSilent s r = true → Runs (.acyclicFrameTx dt r) s (fun t => t = a)) ∧
    (response → answeredNode a r frame = some (p, v) →
      Runs (.acyclicFrameRx dt r port frame) s (fun t => ((s.node r p).joined = false → (t.node r p).services = (s.node r p).services.drop 1) ∧
        (v.cmd = 0 → v.service = 4 → bitOf (uAt frame 8 1) 1 = false → (t.node r p).address = v.addr) ∧
        (v.cmd = 0 → v.service = 4 → bitOf (uAt frame 8 1) 1 = true → (t.node r p).bound = false ∧ (t.node r p).joined = false ∧
          ((s.node r p).joined = true → t.ev.raised.contains Ev.nodeRefused = true)) ∧
        (v.cmd = 0 → v.service = 5 → bitOf (uAt frame 8 1) 1 = true → t.ev.raised.contains Ev.nodeRefused = true) ∧
        (v.cmd = 0 → v.service = 5 → bitOf (uAt frame 8 1) 1 = false → v.addr ≠ 0 → t.ev.raised.contains Ev.nodeJoined = true))) ∧
    (response → answeredNode a r frame = none → Runs (.acyclicFrameRx dt r port frame) s (fun t => t = relay r port frame a)) ∧
    (goodFrame frame = false → Runs (.acyclicFrameRx dt r port frame) s (fun t => t = relay r port frame a)) ∧
    (nodeByInst s node = some (r, p) → (s.node r p).services = v :: rest → v.sentIn = some k →
      (∀ u, responseEnd a k = some u → u < a.time.now) →
      (v.resent = false → Runs (.acyclicResponseTimeout dt node) s (fun t =>
        (t.node r p).services = { v with resent := true, sentIn := none } :: rest ∧ (t.node r p).resends = inc32 (s.node r p).resends)) ∧
      (v.resent = true → Runs (.acyclicResponseTimeout dt node) s (fun t => (t.node r p).services = rest ∧
        t.ev.raised.contains Ev.acyclicLost = true))) ∧
    (ringDriven s r = true → hop ≤ lastHop s r →
      Runs (.laneSignalLoss dt r hop dir) s (fun t => (t.ring r).closures = 0 ∧ (h ≠ hop → breakAt (t.ring r) h = breakAt g h) ∧
        (breakAt g hop = none → breakAt (t.ring r) hop = some dir ∧ t.ev.raised.contains Ev.ringBreak = true) ∧
        (breakAt g hop = some d → breakAt (t.ring r) hop = some (if d = dir then dir else .both)) ∧
        (breakAt g hop = some d → d ≠ .both → d ≠ dir → t.ev.raised.contains Ev.ringBreak = true))) ∧
    (r < ringCount s.board.variant → 64 ≤ g.closures → g.closedReported = false →
      Runs (.ringClosed dt r) s (fun t => (t.ring r).breakHop = none ∧ (t.ring r).breakHop2 = [] ∧
        (t.ring r).closedReported = true ∧ t.ev.raised.contains Ev.ringClosed = true)) ∧
    (g.closures < 64 → Runs (.ringClosed dt r) s (fun t => t = a)) ∧
    (nodeAt s mid (node % 64 + 1) = some p → (s.node mid p).bound = true → (s.node mid p).lost = false →
      parN s Par.nodeLossCycles 0 ≤ (s.node mid p).missed →
      Runs (.nodeLost dt node) s (fun t => (t.node mid p).lost = true ∧ t.ev.raised.contains Ev.nodeLost = true ∧
        (x ∈ nodeSlices s.image mid (s.node mid p).address → (t.axis x.axis).faults.contains Ev.nodeLost = true))) ∧
    (nodeAt s mid (node % 64 + 1) = some p → (s.node mid p).missed < parN s Par.nodeLossCycles 0 →
      Runs (.nodeLost dt node) s (fun t => t = a))

/-! ### Bursts and the process image (R48 to R55, R88 to R99, R374 to R379) -/

/-- R48, R49, R98, R99, R109, R375, R379, R568: bursts leave, up frames arrive, the gather deadline, copies, and the process image. -/
def Obligations.BurstsAndProcessImage : Prop :=
  ∀ (s : State) (dt r k p o : Nat) (c : Nat × Nat) (b : Burst) (frame : Bytes) (port : Port),
    let a := advance dt s
    let m := s.image
    let l := tget s.cyc.bursts [] r
    let first := max (s.cyc.t0 + launchMin m k * nsU) (b.ends + 100 * nsU)
    let last := s.cyc.t0 + launchMax m k * nsU
    let at_ := min a.time.now (max first last)
    let g := s.ring r
    let tag := uAt frame 3 1
    let up := s.cyc.running = true ∧ ringDriven s r = true ∧ uAt frame 0 1 = 2
    let copy := pairUp s = true ∧ s.pair.joined = true ∧ s.pair.grip = false ∧ r < ringCount s.board.variant ∧ uAt frame 0 1 = 1
    (l.getLast? = some b → s.cyc.running = true → commands s = true → ringSilent s r = false → k = b.k + 1 → k ≤ burstCount m →
      first ≤ a.time.now →
      ((burstSettled a k = true ∨ last ≤ a.time.now) → Runs (.burstLaunch dt r k) s (fun t => ∃ f : Burst,
        tget t.cyc.bursts [] r = l ++ [f] ∧ f.k = k ∧ f.at_ = at_ ∧ f.ends = at_ + frameU f.frame.length ∧
        { port := .p, frame := f.frame } ∈ (t.ring r).sent)) ∧
      (burstSettled a k = false → a.time.now < last → Runs (.burstLaunch dt r k) s (fun t => t = a))) ∧
    (up → goodFrame frame = true → nodeAt s r (uAt frame 1 1) = some p → (s.node r p).bound = true → (s.node r p).up = none →
      uAt frame 2 1 = s.cyc.tick % 256 → a.time.now ≤ s.cyc.t0 + gatherOf m r * nsU →
      Runs (.upFrameRx dt r port frame) s (fun t => (t.node r p).up = some (upFields frame) ∧ (t.node r p).missed = 0 ∧
        (t.node r p).state = uAt frame 3 1 ∧ (t.node r p).alias_ = uAt frame 4 2)) ∧
    (up → goodFrame frame = true → nodeAt s r (uAt frame 1 1) = some p → (s.node r p).up ≠ none →
      Runs (.upFrameRx dt r port frame) s (fun t => t = relay r port frame a)) ∧
    (up → goodFrame frame = false → nodeAt s r (uAt frame 1 1) = some p → uAt frame 1 1 ≠ 0 → s.pair.id = 0 →
      Runs (.upFrameRx dt r port frame) s (fun t =>
        (t.node r p).crcP = (if port = .p then inc32 (s.node r p).crcP else (s.node r p).crcP) ∧
        (t.node r p).crcQ = (if port = .q then inc32 (s.node r p).crcQ else (s.node r p).crcQ))) ∧
    (s.cyc.running = true → ringDriven s r = true → usesRing m r = true → s.pair.id = 0 → ownBurst s r port frame = true →
      (tag = s.cyc.tick % 256 → Runs (.burstClosureRx dt r port frame) s (fun t =>
        (t.ring r).closeQ = (g.closeQ || port == .q) ∧ (t.ring r).closeP = (g.closeP || port == .p) ∧ (t.ring r).closures = g.closures ∧
        (port = .q → uAt frame 1 1 % 8 = 1 → g.closedQw = none →
          (t.ring r).closedQw = some ((a.time.now - g.depP) / 268435456 - uAt frame 24 4)) ∧
        (port = .p → uAt frame 1 1 % 8 = 1 → g.closedPw = none →
          (t.ring r).closedPw = some ((a.time.now - g.depQ) / 268435456 - uAt frame 24 4)) ∧
        ((port = .p ∨ uAt frame 1 1 % 8 ≠ 1 ∨ g.closedQw ≠ none) → (t.ring r).closedQw = g.closedQw) ∧
        ((port = .q ∨ uAt frame 1 1 % 8 ≠ 1 ∨ g.closedPw ≠ none) → (t.ring r).closedPw = g.closedPw))) ∧
      ((tag + 1) % 256 = s.cyc.tick % 256 → Runs (.burstClosureRx dt r port frame) s (fun t =>
        (t.ring r).closures = (if (g.wasQ || port == .q) && (g.wasP || port == .p) && !(g.wasQ && g.wasP) then g.heldClosures + 1
          else g.closures) ∧ (t.ring r).closedQw = g.closedQw ∧ (t.ring r).closedPw = g.closedPw))) ∧
    (ownBurst s r port frame = false → Runs (.burstClosureRx dt r port frame) s (fun t => t = a)) ∧
    (s.cyc.running = true → usesRing m r = true → s.cyc.t0 + gatherOf m r * nsU ≤ a.time.now → g.gathered = false →
      Runs (.gatherDeadline dt r) s (fun t => (t.ring r).gathered = true ∧
        (t.node r p).missed = (s.node r p).missed + (if (s.node r p).bound && (s.node r p).up.isNone then 1 else 0))) ∧
    (g.gathered = true → Runs (.gatherDeadline dt r) s (fun t => t = a)) ∧
    (copy → goodFrame frame = false → Runs (.forwardedBurstCopy dt r port frame) s (fun t =>
      t = sendFrames r [{ port := otherPort port, frame := frame }] a)) ∧
    (copy → goodFrame frame = true → uAt frame 1 1 % 8 = 1 → s.cyc.running = true →
      Runs (.forwardedBurstCopy dt r port frame) s (fun t => (holderCopy a r frame = true → t.pair.burst1Rings = s.pair.burst1Rings ++ [r]) ∧
        (holderCopy a r frame = false → t.pair.burst1Rings = s.pair.burst1Rings) ∧ { port := otherPort port, frame := writeOwn a r frame } ∈ (t.ring r).sent)) ∧
    (s.pair.grip = true → Runs (.forwardedBurstCopy dt r port frame) s (fun t => t = a)) ∧
    (s.cyc.running = true → s.cyc.published = false → burstsDone a = true →
      Runs (.piInputPublish dt) s (fun t => t.cyc.published = true ∧
        (o < (piInputs a).length → memGet t.mem.sram (inBuf s.cyc.tick + o) = ((piInputs a)[o]?).getD 0) ∧
        (MemInv s → memRead t.mem.sram piHead 4 = b32 (s.cyc.tick % 4294967296)))) ∧
    (burstsDone a = false → Runs (.piInputPublish dt) s (fun t => t = a)) ∧
    (comingTick s = some c →
      (s.host.snapTick ≠ some c.1 → Runs .outputSnapshot s (fun t => t.host.snapTick = some c.1 ∧
        (o < 8192 → memGet t.host.snapshot o = memGet s.mem.sram (outBuf c.1 + o)))) ∧
      (s.host.snapTick = some c.1 → Runs .outputSnapshot s (fun t => t = s))) ∧
    (comingTick s = none → Runs .outputSnapshot s (fun t => t = s))

/-! ### A redundant pair (R568 to R598) -/

/-- R571 to R582, R589: joining, the mirror link, and the grip. -/
def Obligations.PairAndGrip : Prop :=
  ∀ (s : State) (dt t0 : Nat) (frame record : Bytes) (st : MirrorStream) (items : List MirrorItem) (q : Request),
    let a := advance dt s
    let e := uAt record 0 4
    let h := uAt record 4 1
    (Served Cmd.pairJoin dt q s → s.pair.id ≠ 0 → s.pair.join = none →
      Answers (.pairJoin dt q) Cmd.pairJoin dt q s St.pend (fun u p => p = [] ∧ u.pair.state = 1 ∧ u.pair.joined = true ∧
        u.pair.join = some (.identity a.time.now) ∧ isPending u Cmd.pairJoin 0 = true)) ∧
    (Served Cmd.gripRelease dt q s → s.pair.id ≠ 0 → s.pair.grip = true →
      (partnerFlag s 6 = true → Answers (.gripRelease dt q) Cmd.gripRelease dt q s St.ok (fun u p => p = [] ∧
        u.pair = { s.pair with release := true })) ∧
      (partnerFlag s 6 = false → Refuses (.gripRelease dt q) Cmd.gripRelease dt q s St.pairNotReady)) ∧
    (Served Cmd.gripRelease dt q s → s.pair.grip = false → Refuses (.gripRelease dt q) Cmd.gripRelease dt q s St.gripNotHeld) ∧
    (s.pair.join = some (.identity t0) → t0 + 10000000 * nsU ≤ a.time.now →
      Runs (.pairIdentityTimeout dt) s (fun t => t.pair.join = none ∧ isPending t Cmd.pairJoin 0 = false)) ∧
    (s.pair.join = some (.resync t0) → t0 + 2 * secU ≤ a.time.now →
      Runs (.pairResyncTimeout dt) s (fun t => t.pair.join = some (.resync a.time.now) ∧ t.pair.confirmed = 0 ∧
        isPending t Cmd.pairJoin 0 = false)) ∧
    (pairUp s = true → goodFrame frame = true → uAt frame 0 1 = 0x11 → frame.length = 56 →
      Runs (.mirrorTimeFrameRx dt frame) s (fun t => t.pair.partner = some (partnerFrame frame))) ∧
    (goodFrame frame = false → Runs (.mirrorTimeFrameRx dt frame) s (fun t => t = a)) ∧
    (s.pair.join = some (.resync t0) → pairUp s = true → s.pair.grip = false →
      Runs (.mirrorBulkFrameRx dt items) s (fun t => t = items.foldl adoptItem a)) ∧
    (pairUp s = true → s.pair.grip = false → s.cyc.running = true → st.checks = true →
      a.time.now + 500 * nsU ≤ tickU s.cyc.rate (st.cycle + 2) → st.cycle ≤ s.cyc.tick →
      Runs (.mirrorStreamComplete dt st) s (fun t => t.pair.mirrorValid = true ∧ t.pair.adopted = s.cyc.tick ∧
        (st.cycle, st.items) ∈ t.pair.streams ∧ t.axes = s.axes)) ∧
    (pairUp s = true → s.cyc.running = true → parN s Par.mirrorLossCycles 0 ≤ s.pair.silent → s.pair.mirrorLost = false →
      Runs (.mirrorLost dt) s (fun t => t.pair.mirrorLost = true ∧ t.ev.raised.contains Ev.mirrorLost = true ∧
        t.pair.state = if s.pair.state = 0 ∨ s.pair.state = 3 then 5 else s.pair.state)) ∧
    (pairUp s = true → record.length = 16 → uAt record 12 2 = crc16 (record.take 12) → newerEpoch e s.pair.epoch = true →
      Runs (.grantRecordRx dt record) s (fun t => t.pair.epoch = e ∧ t.pair.holder = h ∧
        t.pair.leaseEnd = leaseTick s.cyc.tick (uAt record 6 2) ∧
        (s.pair.grip = false → h = s.pair.id → t.pair.turn = some true) ∧
        (s.pair.grip = true → h ≠ s.pair.id → t.pair.turn = some false ∧ t.ev.raised.contains Ev.gripLost = true))) ∧
    (uAt record 12 2 ≠ crc16 (record.take 12) → Runs (.grantRecordRx dt record) s (fun t => t = a)) ∧
    (pairUp s = true → s.cyc.running = true → s.pair.grip = false → s.pair.request = 2 →
      Runs (.requestBurst dt) s (fun t => t.pair.missedRings = [] ∧ t.pair.grip = false)) ∧
    (s.pair.grip = true → Runs (.requestBurst dt) s (fun t => t = a))

/-! ### Device time and the plant ports (spec 11) -/

/-- R464 to R469, R480, R485: steps, slews and trim of device time. -/
def Obligations.DeviceTimeCommands : Prop :=
  ∀ (s : State) (dt : Nat) (v r : Int) (q : Request),
    let a := advance dt s
    (timeOf (slice q.payload 2 10) = some v → timeOf (slice q.payload 12 10) = some r → uAt q.payload 1 1 = 0 →
      Served Cmd.timeSet dt q s → anySlave s = false → followsPair s = false →
      (uAt q.payload 0 1 = 0 → s.cyc.running = false → Answers (.timeSet dt q) Cmd.timeSet dt q s St.ok (fun u p => p = [] ∧
        u.time.now = ((a.time.now + (v - r) * nsU) % (wrapU : Nat)).toNat ∧ u.dev.traceable = true)) ∧
      (uAt q.payload 0 1 = 0 → s.cyc.running = true → Refuses (.timeSet dt q) Cmd.timeSet dt q s St.badState) ∧
      (uAt q.payload 0 1 = 1 → (v - r).natAbs ≤ 1000000000 → v ≠ r → Answers (.timeSet dt q) Cmd.timeSet dt q s St.ok (fun u p =>
        p = [] ∧ u.time.now = a.time.now ∧ u.time.slewReq = 100000 * sgn (v - r) ∧ u.time.slewLeft = (v - r) * nsU))) ∧
    (timeOf (slice q.payload 2 10) = some v → timeOf (slice q.payload 12 10) = some r → uAt q.payload 1 1 = 0 →
      Served Cmd.timeSet dt q s → uAt q.payload 0 1 = 1 → (v - r).natAbs ≤ 1000000000 → slaveBy s (stampOf Cmd.timeSet dt q s) = true →
      Refuses (.timeSet dt q) Cmd.timeSet dt q s St.timeSourcePtp) ∧
    (a.time.slewReq ≠ 0 → a.time.slewLeft * sgn a.time.slewReq ≤ 0 →
      Runs (.slewDone dt) s (fun t => t.time.slewReq = 0 ∧ t.time.slewLeft = 0 ∧ t.time.now = a.time.now ∧
        (anySlave s = false → t.dev.traceable = true))) ∧
    (Served Cmd.timeTrim dt q s → contVal .s24 (slice q.payload 0 4) = some v → anySlave s = false → followsPair s = false →
      (-100000 ≤ v → v ≤ 100000 → Answers (.timeTrim dt q) Cmd.timeTrim dt q s St.ok (fun u p => p = [] ∧ u.time.trimReq = v ∧
        u.time.now = a.time.now ∧ (s.cyc.running = false → u.time.trim = v ∧ u.time.rho = rhoOf (v + if a.time.slewLeft * sgn a.time.slewReq ≤ 0 then 0 else a.time.slewReq)) ∧
        (s.cyc.running = true → u.time.trim = a.time.trim ∧ u.time.rho = a.time.rho))) ∧
      ((v < -100000 ∨ 100000 < v) → Refuses (.timeTrim dt q) Cmd.timeTrim dt q s St.badParam))

/-- R470 to R475, R480, R481: the PTP stack and the frames of the plant ports. -/
def Obligations.PtpAndPlantPorts : Prop :=
  ∀ (s : State) (dt n st req rx : Nat) (kind : PtpKind) (m : PtpRx) (q : Request),
    let a := advance dt s
    let b := a.drain n
    let at_ := a.time.now + preU + parN s Par.phyTxDelay n * (nsU / 16)
    let off := syncOffset s m.port m.offset
    let c0 := parPromote (atStamp Cmd.ptpConfig dt q s) (fun _ _ => true) .ptpConfig
    let on := fun (k : Nat) => par c0 Par.ptpPortEnable k == 1
    (Served Cmd.ptpConfig dt q s → uAt q.payload 1 3 = 0 → uAt q.payload 0 1 = 0 →
      Answers (.ptpConfig dt q) Cmd.ptpConfig dt q s St.ok (fun u p => p = [] ∧ u.time.ptpRunning = false ∧ u.time.ptpState = 0 ∧
        (u.port 0).state = 3 ∧ (u.port 1).state = 3)) ∧
    (Served Cmd.ptpConfig dt q s → uAt q.payload 1 3 = 0 → uAt q.payload 0 1 = 1 → parN c0 Par.ptpRole 0 ≠ 0 →
      (parN c0 Par.ptpRole 0 = 1 → on 0 ≠ on 1) →
      Answers (.ptpConfig dt q) Cmd.ptpConfig dt q s St.ok (fun u p => p = [] ∧ u.time.ptpRunning = true ∧ u.time.ptpState = 1 ∧
        u.time.ptpRole = parN c0 Par.ptpRole 0 ∧ ∀ k, k < 2 → (u.port k).state = if on k then 4 else 3)) ∧
    (m.port < 2 → portOn s m.port = true →
      Runs (.ptpMessageRx dt m) s (fun t => (t.port m.port).meanPath = m.meanPath % 4294967296 ∧
        t.time.parent = slice m.parent 0 10 ∧ t.time.grandmaster = slice m.grandmaster 0 8 ∧
        (m.isSync = true → m.portState = 9 → (s.port m.port).state = 9 → s.cyc.running = true →
          off.natAbs ≤ parN s Par.ptpStepLimit 0 * 65536 →
          t.time.trimReq = clampI m.ratePpb (-100000) 100000 ∧ t.time.slewLeft = -off * 65536 ∧ t.time.now = a.time.now))) ∧
    (n < 2 → portOn s n = true → maySend s n kind = true → mayLeave (b.port n) a.time.now (wireU (ptpLen s kind)) = true →
      (kind = .pdelayResp → (b.port n).pdelayReqs[req]? = some rx) →
      Runs (.ptpMessageTx dt n kind req) s (fun t => (t.port n).freeAt = a.time.now + wireU (ptpLen s kind) ∧
        ∃ x, (t.port n).lastTx = some x ∧ x.kind = kind ∧
          (kind = .pdelayResp → x.stampNs = 0 ∧ x.correction = (at_ - rx) / 65536 ∧ (t.port n).pdelayReqs = (b.port n).pdelayReqs.eraseIdx req) ∧
          (kind = .announce → x.traceable = s.dev.traceable) ∧
          (kind ≠ .pdelayResp → kind ≠ .announce → x.stampNs = at_ / nsU ∧ x.correction = at_ % nsU / 65536 ∧
            (t.port n).pdelayReqs = (b.port n).pdelayReqs))) ∧
    (n < 2 → portOn s n = true → maySend s n kind = false → Runs (.ptpMessageTx dt n kind req) s (fun t => t = b)) ∧
    ((s.port n).state = 9 → st ≠ 9 →
      Runs (.ptpLost dt n st) s (fun t => (t.port n).state = st ∧ t.time.ptpState = 4 ∧ t.time.slewReq = 0 ∧
        t.time.trimReq = a.time.trim ∧ t.ev.raised.contains Ev.ptpLost = true)) ∧
    (n < 2 → s.dev.mode ≠ .off → s.dev.mode ≠ .standby →
      Runs (.plantFrameRx dt n) s (fun t => t = a.onPort n (fun p => { p with discarded := p.discarded + 1 })))

/-- R476 to R479, R484: timed pulse outputs and frame launch. -/
def Obligations.TimedOutputsAndFrameLaunch : Prop :=
  ∀ (s : State) (dt n : Nat) (ns : Int) (f : PlantFrame) (q : Request),
    let o := fun (t : State) => (tget t.time.touts {} n : Tout)
    let w := uAt q.payload 16 4
    let period := uAt q.payload 20 4 * nsU + uAt q.payload 24 2 * 65536
    let start := ns.toNat * nsU + uAt q.payload 14 2 * 65536
    let soon := (stampOf Cmd.toutSet dt q s + 10000) * nsU
    let launch := ns.toNat * nsU + uAt q.payload 22 2 * 65536
    let len := uAt q.payload 2 2
    let addr := uAt q.payload 4 8
    (Served Cmd.toutSet dt q s → timeOf (slice q.payload 4 10) = some ns → uAt q.payload 0 1 = n → n < 8 → uAt q.payload 2 2 = 0 →
      uAt q.payload 26 2 = 0 → 16 ≤ w → w ≤ 1600000000 →
      (uAt q.payload 1 1 = 0 → soon ≤ start → Answers (.toutSet dt q) Cmd.toutSet dt q s St.ok (fun u p => p = [] ∧
        (o u).mode = 1 ∧ (o u).start = start ∧ (o u).next = start ∧ (o u).width = w * fineU)) ∧
      (uAt q.payload 1 1 = 0 → start < soon → Refuses (.toutSet dt q) Cmd.toutSet dt q s St.timeLate) ∧
      (uAt q.payload 1 1 = 1 → 50 * nsU ≤ period → w * fineU + 10 * nsU ≤ period →
        Answers (.toutSet dt q) Cmd.toutSet dt q s St.ok (fun u p => p = [] ∧ (o u).mode = 2 ∧ (o u).width = w * fineU ∧
          (o u).period = period ∧ soon ≤ (o u).next ∧ (∃ i, (o u).next = start + i * period) ∧
          ∀ i, soon ≤ start + i * period → (o u).next ≤ start + i * period))) ∧
    (Served Cmd.toutStop dt q s → uAt q.payload 0 1 = n → n < 8 → uAt q.payload 1 3 = 0 →
      Answers (.toutStop dt q) Cmd.toutStop dt q s St.ok (fun u p => p = [] ∧ o u = { o s with mode := 0 })) ∧
    (∀ i, fineAt i % fineU = 0 ∧ 2 * (fineAt i - i) ≤ fineU ∧ 2 * (i - fineAt i) ≤ fineU) ∧
    ((o s).mode ≠ 0 → fineAt (o s).next ≤ (advanceTo (fineAt (o s).next) s).time.now → s.cal.skew = none →
      Runs (.toutPulse n) s (fun t => (o t).pulseEnd = some (max ((o s).pulseEnd.getD 0) (fineAt (o s).next + (o s).width)) ∧ (o t).next = (o s).next + (o s).period ∧
        (o t).mode = if (o s).mode = 1 then 0 else (o s).mode)) ∧
    ((o s).mode = 0 → Runs (.toutPulse n) s (fun t => t = s)) ∧
    (Served Cmd.plantTx dt q s → uAt q.payload 0 1 = n → n < 2 → 60 ≤ len → len ≤ 1514 → inDdrData s addr len = true →
      (uAt q.payload 1 1 = 0 → Answers (.plantTx dt q) Cmd.plantTx dt q s St.ok (fun u p => p = [] ∧
        (u.port n).launched ++ (u.port n).untimed =
          (s.port n).launched ++ (s.port n).untimed ++ [{ launch := none, addr := addr, len := len, queuedAt := (advance dt s).time.now }])) ∧
      (uAt q.payload 1 1 = 1 → isFull s.board.variant = true → timeOf (slice q.payload 12 10) = some ns →
        (stampOf Cmd.plantTx dt q s + 10000) * nsU ≤ launch →
        (∀ g, g ∈ (s.port n).timed → ∀ m, g.launch = some m → wiresOverlap launch len m g.len = false) →
        (s.port n).timed.length < 64 →
        Answers (.plantTx dt q) Cmd.plantTx dt q s St.ok (fun u p => p = [] ∧
          (u.port n).timed = (s.port n).timed ++ [{ launch := some launch, addr := addr, len := len }]))) ∧
    (firstTimed (s.port n).timed = some f → f.launch.getD 0 ≤ (advanceTo (f.launch.getD 0) s).time.now →
      Runs (.timedFrameLaunch n) s (fun t => (t.port n).timed = (s.port n).timed.erase f ∧ f ∈ (t.port n).launched))

/-! ### The local axis unit (spec 08 to 10) -/

/-- R393, R396 to R398, R401 to R405: trip inputs and their clearing, the transfer at an update point, refresh pulses, and the levels of a
pair, of which never both are on but by safe levels. -/
def Obligations.PwmOutputsAndTrips : Prop :=
  ∀ (s : State) (dt k j : Nat) (q : Request) (pr : PwmPair),
    let a := advance dt s
    let tr := fun (t : State) => (tget t.pwm.trips {} j : Trip)
    let g := s.timer k
    (Served Cmd.pwmTripClear dt q s → uAt q.payload 0 1 = j → j < 4 → uAt q.payload 1 3 = 0 →
      ((tr s).low = false → Answers (.pwmTripClear dt q) Cmd.pwmTripClear dt q s St.ok (fun u p => p = [] ∧
        (tr u).latched = false ∧ (tr u).count = (tr s).count ∧ u.pwm.timers = s.pwm.timers)) ∧
      ((tr s).low = true → Refuses (.pwmTripClear dt q) Cmd.pwmTripClear dt q s St.tripStillActive)) ∧
    (j < 4 → hasLocal s.board.variant = true → s.dev.mode ≠ .off → s.dev.mode ≠ .standby →
      Runs (.tripInput dt j true) s (fun t => (tr t).low = true ∧ (tr t).latched = true ∧
        ((tr s).latched = false → k < slotCount s.board.variant → bitOf (parN s Par.tripMap j) k = true →
          ∀ p, p ∈ (t.timer k).pairs → p.source = 1)) ∧
      Runs (.tripInput dt j false) s (fun t => (tr t).low = false ∧ (tr t).latched = (tr s).latched)) ∧
    (g.running = true → isUpdate s k g.up = true → g.nextAt ≤ (advanceTo g.nextAt s).time.now → par s Par.shadowMode k ≠ 1 →
      g.committed = true → g.commitAt ≤ g.nextAt → g.shadowConv = g.shadowPeriod →
      Runs (.pwmUpdatePoint k) s (fun t => (t.timer k).period = g.shadowPeriod ∧ (t.timer k).compares = g.shadows ∧
        (t.timer k).committed = false ∧ (t.timer k).up = !g.up ∧ ∀ i, i ≠ k → t.timer i = s.timer i)) ∧
    (g.running = true → isUpdate s k g.up = true → g.nextAt ≤ (advanceTo g.nextAt s).time.now → g.committed = true → g.nextAt < g.commitAt →
      Runs (.pwmUpdatePoint k) s (fun t => (t.timer k).period = g.period ∧ (t.timer k).compares = g.compares ∧ (t.timer k).shadows = g.shadows ∧
        (t.timer k).committed = true)) ∧
    (g.running = false → Runs (.pwmUpdatePoint k) s (fun t => t = s)) ∧
    (g.pairs[j]? = some pr → j < 3 → g.running = true → g.brWidth ≠ 0 → pr.source ≠ 1 → g.brPeriods ≤ pr.fullPeriods → g.up = true →
      a.time.now < g.boundAt + 2 * stepU →
      Runs (.bootRefresh dt (3 * k + j)) s (fun t => (t.timer k).refreshes = inc32 g.refreshes ∧
        ∃ q, (t.timer k).pairs[j]? = some q ∧ q.fullPeriods = 0 ∧ q.refreshAt = g.boundAt ∧
          q.refreshEnd = some (g.boundAt + g.brWidth * stepU) ∧ q.source = pr.source)) ∧
    (g.pairs[j]? = some pr → j < 3 → k < slotCount s.board.variant → pr.source ≠ 1 → slotMode s k ≠ 5 → pwmLevels s (3 * k + j) ≠ (.on, .on)) ∧
    ((s.dev.mode = .boot ∨ s.dev.mode = .config) → pwmLevels s (3 * k + j) = (.highZ, .highZ))

/-- R423 to R430: counting, illegal transitions, wire faults and the index of an incremental channel. -/
def Obligations.IncrementalChannels : Prop :=
  ∀ (s : State) (dt k : Nat) (x y : Bool) (w : WirePair) (z : ZLevel) (q : Request),
    let a := advance dt s
    let e := s.enc k
    let wrap := fun (v : Int) => signed 48 (twos 48 v)
    let pass := fun (c : Option Nat) => ∀ i, c = some i → i + parN s Par.encFilter k * stepU ≤ a.time.now
    (Served Cmd.encIndexArm dt q s → uAt q.payload 0 1 = k → k < slotCount s.board.variant → uAt q.payload 1 3 = 0 →
      (par s Par.encIndexMode k = 2 → Answers (.encIndexArm dt q) Cmd.encIndexArm dt q s St.ok (fun u p => p = [] ∧
        u.enc k = { e with armed := true, resetDone := false } ∧ ∀ i, i ≠ k → u.enc i = s.enc i)) ∧
      (par s Par.encIndexMode k ≠ 2 → Refuses (.encIndexArm dt q) Cmd.encIndexArm dt q s St.badState)) ∧
    (Served Cmd.encFaultClear dt q s → uAt q.payload 0 1 = k → k < slotCount s.board.variant → uAt q.payload 1 3 = 0 →
      (e.wire = false → Answers (.encFaultClear dt q) Cmd.encFaultClear dt q s St.ok (fun u p => p = [] ∧
        (u.enc k).fault = false ∧ (u.enc k).faultCause = 0 ∧ (u.enc k).count = e.count ∧ ∀ i, i ≠ k → u.enc i = s.enc i)) ∧
      (e.wire = true → Refuses (.encFaultClear dt q) Cmd.encFaultClear dt q s St.encWireActive)) ∧
    (k < slotCount s.board.variant → e.running = false → pass e.aAt → pass e.bAt → Runs (.encCountEdge dt k x y) s (fun t =>
      (t.enc k).count = e.count ∧ (t.enc k).a = x ∧ (t.enc k).b = y)) ∧
    (e.running = true → k < slotCount s.board.variant → ¬ pass e.aAt → y = e.b → parN s Par.encCountMode k = 0 →
      Runs (.encCountEdge dt k x y) s (fun t => (t.enc k).count = e.count ∧ (t.enc k).a = e.a ∧ (t.enc k).b = e.b)) ∧
    (e.running = true → k < slotCount s.board.variant → pass e.aAt → pass e.bAt →
      (parN s Par.encCountMode k = 0 → x ≠ e.a → y = e.b → Runs (.encCountEdge dt k x y) s (fun t =>
        (t.enc k).count = wrap (e.count + (if x != y then 1 else -1)) ∧ (t.enc k).a = x ∧ (t.enc k).b = y)) ∧
      (parN s Par.encCountMode k = 0 → x = e.a → y ≠ e.b → Runs (.encCountEdge dt k x y) s (fun t =>
        (t.enc k).count = wrap (e.count + (if x == y then 1 else -1)) ∧ (t.enc k).a = x ∧ (t.enc k).b = y)) ∧
      (parN s Par.encCountMode k = 1 → Runs (.encCountEdge dt k x y) s (fun t =>
        (t.enc k).count = if x && !e.a then wrap (e.count + (if y then 1 else -1)) else e.count)) ∧
      (parN s Par.encCountMode k = 0 → x ≠ e.a → y ≠ e.b → Runs (.encCountEdge dt k x y) s (fun t =>
        (t.enc k).count = e.count ∧ (t.enc k).phaseErrors = inc32 e.phaseErrors))) ∧
    (e.running = true → k < slotCount s.board.variant →
      (parN s Par.encCountMode k = 0 → Runs (.encIllegalTransition dt k) s (fun t =>
        (t.enc k).count = e.count ∧ (t.enc k).phaseErrors = inc32 e.phaseErrors)) ∧
      (pairChecked s k w.pair = true →
        (w.stuck = true → e.stuckPairs.contains w.pair = false → Runs (.encWireFault dt k w) s (fun t => (t.enc k).wire = true ∧
          (t.enc k).stuckPairs = e.stuckPairs ++ [w.pair] ∧ (t.enc k).fault = true ∧ (t.enc k).wireFaults = inc32 e.wireFaults)) ∧
        (w.stuck = true → e.stuckPairs.contains w.pair = true → Runs (.encWireFault dt k w) s (fun t => t = a)) ∧
        (w.stuck = false → Runs (.encWireFault dt k w) s (fun t =>
          t = a.onEnc k (fun e => { e with stuckPairs := e.stuckPairs.filter (· != w.pair) })))) ∧
      (pairChecked s k w.pair = false → Runs (.encWireFault dt k w) s (fun t => t = a)) ∧
      (z.ch = k → pass e.zAt → z.high ≠ e.z →
        (indexEdge s k z.high = true → Runs (.encIndexEvent dt z) s (fun t => (t.enc k).index = some (e.count, a.time.now) ∧ (t.enc k).z = z.high ∧
          (parN s Par.encIndexMode k = 0 → (t.enc k).count = e.count) ∧
          (parN s Par.encIndexMode k = 1 → (t.enc k).count = nearestTurn (par s Par.encCpt k) e.count) ∧
          (parN s Par.encIndexMode k = 2 → e.armed = true → (t.enc k).count = 0 ∧ (t.enc k).armed = false))) ∧
        (indexEdge s k z.high = false → Runs (.encIndexEvent dt z) s (fun t => (t.enc k).index = e.index ∧ (t.enc k).count = e.count ∧
          (t.enc k).z = z.high))))

/-- R420, R433 to R440: general inputs, probes, SSI exchanges and the slot sample. -/
def Obligations.InputsProbesAndSsi : Prop :=
  ∀ (s : State) (dt k frame slot : Nat) (x low : Bool) (q : Request),
    let a := advance dt s
    let pb := s.probe k
    let g := s.timer k
    (Served Cmd.probeArm dt q s → uAt q.payload 0 1 = k → k < slotCount s.board.variant → uAt q.payload 1 3 = 0 →
      (par s Par.prbMode k = 1 → Answers (.probeArm dt q) Cmd.probeArm dt q s St.ok (fun u p => p = [] ∧
        u.probe k = { pb with armed := true } ∧ ∀ i, i ≠ k → u.probe i = s.probe i)) ∧
      (par s Par.prbMode k ≠ 1 → Refuses (.probeArm dt q) Cmd.probeArm dt q s St.badState)) ∧
    (k < 3 * slotCount s.board.variant → s.dev.mode ≠ .off → s.dev.mode ≠ .standby → (tget s.loc.dins {} k : DinSt).level ≠ x →
      Runs (.dinRawEdge dt k x) s (fun t =>
        let counts := (List.range (slotCount s.board.variant)).map (fun i => (s.enc i).count)
        tfind t.loc.dins k = some { level := x, edgeAt := a.time.now, latched := counts } ∧ t.loc.encs = s.loc.encs)) ∧
    (k < slotCount s.board.variant → s.cyc.running = true → probeTakes (parN s Par.prbEdge k) x = true →
      (par s Par.prbMode k ≠ 1 ∨ pb.armed = true) →
      (pb.queue.length < 16 → Runs (.probeEdge dt k x) s (fun t => ∃ r : ProbeRec, (t.probe k).queue = pb.queue ++ [r] ∧
        r.stamp = nowNs a ∧ r.rising = x ∧ r.src = parN s Par.prbSource k ∧ (parN s Par.prbSource k < 8 → r.pos = (s.enc (parN s Par.prbSource k)).count ∧ r.valid = true) ∧
        (par s Par.prbMode k = 1 → (t.probe k).armed = false))) ∧
      (16 ≤ pb.queue.length → Runs (.probeEdge dt k x) s (fun t => (t.probe k).queue = pb.queue ∧
        (t.probe k).overflows = inc32 pb.overflows))) ∧
    ((s.ssi k).request = some (slot, 1) → (s.ssi k).stale = true → ssiOver a k = true →
      Runs (.ssiExchangeDone dt k frame low) s (fun t => (t.ssi k).request = some (slot, 2) ∧ (t.ssi k).stale = false ∧ t.axes = s.axes)) ∧
    ((s.ssi k).request = some (slot, 1) → (s.ssi k).stale = false → ssiOver a k = true →
      (ssiGood s k frame low = true → Runs (.ssiExchangeDone dt k frame low) s (fun t => (t.ssi k).request = none ∧
        (t.ssi k).pos = some (ssiCount48 s k frame (s.ssi k).pos) ∧ (t.ssi k).retries = (s.ssi k).retries)) ∧
      (ssiGood s k frame low = false → Runs (.ssiExchangeDone dt k frame low) s (fun t =>
        (t.ssi k).request = some (slot, 2) ∧ t.axes = s.axes))) ∧
    ((s.ssi k).request = some (slot, 2) → (s.ssi k).stale = false → ssiOver a k = true → ssiGood s k frame low = false →
      Runs (.ssiExchangeDone dt k frame low) s (fun t => (t.ssi k).request = none ∧ (t.ssi k).invalid = inc32 (s.ssi k).invalid)) ∧
    (g.running = true → g.sampleAt = none → s.cyc.running = true → k < slotCount s.board.variant → g.up = true → g.midAt = none →
      s.cyc.t0 ≤ g.nextAt → g.nextAt < s.cyc.t0 + s.period * nsU → g.nextAt ≤ (advanceTo g.nextAt s).time.now →
      Runs (.slotSample k) s (fun t => (t.timer k).sampleAt = some g.nextAt ∧ (t.enc k).latchCount = (s.enc k).count ∧
        (t.enc k).latchAt = some (advanceTo g.nextAt s).time.now ∧ (t.enc k).count = (s.enc k).count))

/-- R442 to R453: the reference, the calibrations and the runs of the ADC. -/
def Obligations.AdcUnit : Prop :=
  ∀ (s : State) (dt i n core spare t0 : Nat) (code : Int) (q : Request) (l : List CoreFactors) (f : CoreFactors) (r : AdcRun) (cl : Claim),
    let a := advance dt s
    let d := s.loc.adc
    (Served Cmd.adcRefEnable dt q s → uAt q.payload 1 3 = 0 →
      (uAt q.payload 0 1 = 1 → d.ref = 0 → Answers (.adcRefEnable dt q) Cmd.adcRefEnable dt q s St.ok (fun u p => p = [] ∧
        u.loc.adc = { d with ref := 1, refAt := a.time.now })) ∧
      (uAt q.payload 0 1 = 0 → Answers (.adcRefEnable dt q) Cmd.adcRefEnable dt q s St.ok (fun u p => p = [] ∧
        u.loc.adc.ref = 0 ∧ u.loc.adc.live = none ∧ u.loc.adc.calStart = none))) ∧
    (d.ref ≠ 0 → d.refAt + 500000 * nsU ≤ a.time.now → Runs (.adcRefReady dt) s (fun t => t.loc.adc = { d with ref := 2 })) ∧
    (Served Cmd.adcCalibrate dt q s → refReady a = true → adcInUse s = false → d.calStart = none →
      Answers (.adcCalibrate dt q) Cmd.adcCalibrate dt q s St.pend (fun u p => p = [] ∧ isPending u Cmd.adcCalibrate 0 = true ∧
        u.loc.adc.calStart = some a.time.now ∧ u.loc.adc.calState = 1)) ∧
    (Served Cmd.adcCalibrate dt q s → refReady a = false → Refuses (.adcCalibrate dt q) Cmd.adcCalibrate dt q s St.adcRefNotReady) ∧
    (d.calStart = some t0 → t0 + 2400000 * nsU ≤ a.time.now → l.length = 5 →
      Runs (.adcCalibrateDone dt l) s (fun t => t.loc.adc.calState = 2 ∧ t.loc.adc.calStart = none ∧
        isPending t Cmd.adcCalibrate 0 = false ∧ ∀ c g, l[c]? = some g → tfind t.loc.adc.factors c = some g)) ∧
    (Served Cmd.adcCalSave dt q s →
      (d.calState = 2 → Answers (.adcCalSave dt q) Cmd.adcCalSave dt q s St.ok (fun u p => p = [] ∧
        u.loc.adc = { d with stored := some (d.factors.map (·.2)) })) ∧
      (d.calState ≠ 2 → Refuses (.adcCalSave dt q) Cmd.adcCalSave dt q s St.adcCalNone)) ∧
    (Served Cmd.adcCalRestore dt q s →
      (d.stored = some l → adcInUse s = false → d.calStart = none → q.ecc ≠ .confirmed →
        Answers (.adcCalRestore dt q) Cmd.adcCalRestore dt q s St.ok (fun u p => p = [] ∧ u.loc.adc.calState = 2 ∧
          ∀ c g, l[c]? = some g → tfind u.loc.adc.factors c = some g)) ∧
      (d.stored = some l → adcInUse s = false → d.calStart = none → q.ecc = .confirmed →
        Runs (.adcCalRestore dt q) s (fun t => t.loc = s.loc ∧ t.ev.raised.contains Ev.eccDouble = true)) ∧
      (d.stored = none → Refuses (.adcCalRestore dt q) Cmd.adcCalRestore dt q s St.adcCalNone)) ∧
    (hasLocal s.board.variant = true → s.cyc.running = true → i < 4 → triggerAt a (parN s Par.seqTrigger i) = some t0 → d.calStart = none →
      (tfind d.regular i = none → Runs (.adcTrigger dt false i) s (fun t => ∃ g : AdcRun, tfind t.loc.adc.regular i = some g ∧
        g.next = 0 ∧ g.trigAt = t0 + parN s Par.seqDelay i * stepU ∧ g.entries.length = parN s Par.seqLength i ∧
        g.results = [])) ∧
      (∀ g : AdcRun, tfind d.regular i = some g → notStarted d false i t0 g = true → Runs (.adcTrigger dt false i) s (fun t =>
        t.loc.adc.regular = d.regular ∧ tget t.loc.adc.seqMissed 0 i = inc32 (tget d.seqMissed 0 i)))) ∧
    (triggerAt a (parN s Par.seqTrigger i) = none → Runs (.adcTrigger dt false i) s (fun t => t = a)) ∧
    (tfind d.regular i = some r → r.entries[r.next]? = some n → (claimsOf d false r).head? = some cl → tfind d.factors cl.core = some f →
      cl.start + 180 * nsU ≤ a.time.now → heldBack d false i r cl = false → -32768 ≤ code → code ≤ 32767 → r.after = none →
      Runs (.adcConversionDone dt false i code) s (fun t => (∃ z : AdcResult, tfind t.loc.adc.results n = some z ∧
        z.value = (adcCorrect f code).1 ∧ z.stamp = cl.start ∧ bitOf z.flags 3 = false ∧
        bitOf z.flags 1 = (adcCorrect f code).2) ∧
        ∃ g : AdcRun, tfind t.loc.adc.regular i = some g ∧ g.next = r.next + 1)) ∧
    (coreOf d 0xFE = some spare → coreOf d d.turn = some core → parN s Par.liveCalInterval 0 ≠ 0 →
      d.lastLive + parN s Par.liveCalInterval 0 * 1000000 * nsU ≤ a.time.now → d.calState = 2 → refReady a = true → d.live = none →
      d.calStart = none → injWaits d core a.time.now = false → converting d core a.time.now = false →
      Runs (.adcLiveCalStart dt) s (fun t => t.loc.adc.live = some core ∧ t.loc.adc.turn = (d.turn + 1) % 4 ∧
        t.loc.adc.cores = (d.cores.set spare d.turn).set core 0xFD)) ∧
    (d.live = some core → d.liveAt + 1200000 * nsU ≤ a.time.now → f.offset.natAbs ≤ 131072 →
      100 * ((f.gain : Int) - 4194304).natAbs ≤ 2 * 4194304 →
      Runs (.adcLiveCalDone dt f) s (fun t => t.loc.adc.live = none ∧ t.loc.adc.cores = d.cores.set core 0xFE ∧
        ∃ g : CoreFactors, tfind t.loc.adc.factors core = some g ∧ g.offset = f.offset ∧ g.gain = f.gain)) ∧
    (d.live = some core → d.liveAt + 1200000 * nsU ≤ a.time.now → 131072 < f.offset.natAbs →
      Runs (.adcLiveCalDone dt f) s (fun t => t.loc.adc.live = none ∧ t.loc.adc.cores = d.cores.set core 0xFF ∧
        t.loc.adc.factors = d.factors))

/-! ### The safety unit (R533 to R567) -/

/-- R534, R535, R538 to R542, R546: inputs, resets, the comparison of the channels, and outputs. -/
def Obligations.SafetyInputsAndOutputs : Prop :=
  ∀ (s : State) (dt n f o cause : Nat) (x y : Bool),
    let a := advance dt s
    let now := safeNs a
    (hasLocal s.board.variant = true → n < 16 → parN s Par.resetSin 0 = n → resetLevel s = false →
      sinLevel a n 0 s.safe.resetOn1 true = true → sinLevel a n 1 s.safe.resetOn2 true = true →
      Runs (.sinChange dt n true true) s (fun t => t.safe.resetOn1 = true ∧ t.safe.resetOn2 = true ∧ t.safe.resetAt = now)) ∧
    (hasLocal s.board.variant = true → n < 16 → parN s Par.resetSin 0 ≠ n →
      Runs (.sinChange dt n x y) s (fun t =>
        (n % 2 = 0 → (t.sin (n / 2)).on1a = sinLevel a n 0 (s.sin (n / 2)).on1a x ∧ (t.sin (n / 2)).on2a = sinLevel a n 1 (s.sin (n / 2)).on2a y) ∧
        (n % 2 = 1 → (t.sin (n / 2)).on1b = sinLevel a n 0 (s.sin (n / 2)).on1b x ∧ (t.sin (n / 2)).on2b = sinLevel a n 1 (s.sin (n / 2)).on2b y))) ∧
    (f < 8 → hasLocal s.board.variant = true → pairLate a f = true →
      Runs (.sinDiscrepancy dt f) s (fun t => (t.sin f).discrepancy = true ∧ t.ev.raised.contains Ev.sinDiscrepancy = true)) ∧
    (hasLocal s.board.variant = true → resetLevel s = true → s.safe.state = 1 → s.safe.resetAt + 50000000 ≤ now →
      now ≤ s.safe.resetAt + 5000000000 →
      Runs (.qualifiedReset dt) s (fun t => t.safe.resetOn1 = false ∧ t.safe.resetOn2 = false ∧ ∀ g, g < 16 → fnUsed s g = true →
        fnTriggered s g = false → (s.fn g).since ≤ s.safe.exchangedAt → (t.fn g).state = 0)) ∧
    (hasLocal s.board.variant = true → resetLevel s = true → now < s.safe.resetAt + 50000000 →
      Runs (.qualifiedReset dt) s (fun t => t.safe.resetOn1 = false ∧ t.safe.fns = s.safe.fns)) ∧
    (f < 16 → hasLocal s.board.variant = true → fnUsed s f = true → (s.fn f).state = 1 →
      (s.fn f).since + parN s Par.ss1Time f * 1000000 ≤ now →
      Runs (.ss1TimeExpiry dt f) s (fun t => (t.fn f).state ≠ 1 ∧
        (2 ≤ (t.fn f).state → ∀ k, k < 10 → isTarget s f k = true → (t.sout k).on = false))) ∧
    (hasLocal s.board.variant = true → s.safe.state = 1 →
      Runs (.safetyVectorExchange dt { differ := false }) s (fun t => t.safe.diffs = 0 ∧ t.safe.exchangedAt = now) ∧
      (s.safe.diffs < 3 → Runs (.safetyVectorExchange dt { differ := true }) s (fun t => t.safe.diffs = s.safe.diffs + 1 ∧ t.safe.state = 1)) ∧
      (3 ≤ s.safe.diffs → Runs (.safetyVectorExchange dt { differ := true }) s (fun t => t.safe.state = 2 ∧ t.safe.faultCause = 1 ∧
        ∀ k, k < 10 → (t.sout k).on = false)) ∧
      (∀ d : Bool, Runs (.safetyVectorExchange dt { differ := d, ecc := .confirmed }) s (fun t => t.safe.state = 2 ∧ t.safe.faultCause = 3 ∧
        ∀ k, k < 10 → (t.sout k).on = false)) ∧
      (∀ d ch : Bool, Runs (.safetyVectorExchange dt { differ := d, selfTest := some ch }) s (fun t => t.safe.state = 2 ∧
        t.safe.faultCause = (if ch then 4 else 3) ∧ ∀ k, k < 10 → (t.sout k).on = false)) ∧
      (s.safe.exchangedAt + 500000 ≤ now → Runs (.safetyVectorMissing dt) s (fun t => t.safe.state = 2 ∧ t.safe.faultCause = 1 ∧
        ∀ k, k < 10 → (t.sout k).on = false))) ∧
    (o < 10 → hasLocal s.board.variant = true → s.safe.state = 1 → (s.sout o).pulseNext ≤ now → (s.sout o).on = true →
      (s.sout o).latched = false →
      Runs (.testPulse dt o true) s (fun t => (t.sout o).on = true ∧ (t.sout o).latched = false ∧
        (t.sout o).pulseEnd = now + parN s Par.tpWidth 0 * 1000 ∧ now < (t.sout o).pulseNext) ∧
      Runs (.testPulse dt o false) s (fun t => (t.sout o).on = false ∧ (t.sout o).latched = true ∧
        t.ev.raised.contains Ev.soutFault = true)) ∧
    (o < 10 → hasLocal s.board.variant = true → readbackWrong a o cause = true → Runs (.outputFault dt o cause) s (fun t =>
      (t.sout o).on = false ∧ (t.sout o).latched = true ∧ (t.sout o).faults = inc32 (s.sout o).faults ∧
        t.ev.raised.contains Ev.soutFault = true)) ∧
    (readbackWrong a o cause = false → Runs (.outputFault dt o cause) s (fun t => t = a))

/-- R548 to R551: the messages, echoes and the watchdog of a safety connection. -/
def Obligations.SafetyConnections : Prop :=
  ∀ (s : State) (dt c r : Nat) (msg : Bytes),
    let a := advance dt s
    let x := s.conn c
    (hasLocal s.board.variant = true → connUsed s c = true → x.state ≠ 0 →
      (s.cyc.running = true → s.cyc.tick % parN s Par.connPeriod c = 0 →
        Runs (.safeMsgTx dt c true) s (fun t => (t.conn c).out = some (msgBytes a c (composeMsg a c) true) ∧
          (t.conn c).isNew = false ∧ (t.conn c).seq = x.seq ∧ (x.isNew = false → (t.conn c).wdAt = x.wdAt) ∧
          (x.isNew = true → (t.conn c).departed = false))) ∧
      (connExpired a c = false → echoGood s c msg = true →
        (x.isNew = false → x.departed = true → uAt msg 2 2 = x.seq → Runs (.safeEchoRx dt c msg) s (fun t => (t.conn c).state = 2 ∧
          (t.conn c).seq = nextSeq x.seq ∧ (t.conn c).isNew = true ∧ (t.conn c).lastEcho = safeNs a)) ∧
        ((x.isNew = true ∨ x.departed = false ∨ uAt msg 2 2 ≠ x.seq) → Runs (.safeEchoRx dt c msg) s (fun t =>
          t = a.onConn c (fun x => { x with seqErrors := inc32 x.seqErrors })))) ∧
      (connExpired a c = false → echoGood s c msg = false → Runs (.safeEchoRx dt c msg) s (fun t =>
        t = a.onConn c (fun x => { x with crcErrors := inc32 x.crcErrors }))) ∧
      (connExpired a c = true → Runs (.safeConnWatchdogExpiry dt c) s (fun t => (t.conn c).state = 1 ∧ (t.conn c).seq = 1 ∧
        (t.conn c).timeouts = inc32 x.timeouts ∧ (t.conn c).isNew = true ∧ t.ev.raised.contains Ev.safeConnLost = true)) ∧
      (connExpired a c = false → Runs (.safeConnWatchdogExpiry dt c) s (fun t => t = a))) ∧
    (c ∈ ringConns s r → x.out ≠ none → ((takeMessages r s).conn c).out = none ∧ ((takeMessages r s).conn c).departed = true ∧
      ((takeMessages r s).conn c).wdAt = (if x.departed then x.wdAt else safeNs s))

/-! ### The dispatcher (R51 to R57, R284 to R307) -/

/-- R23, R54, R284 to R292, R296, R298, R299, R309, R310: tasks become ready, are dispatched, complete, overrun and fault. -/
def Obligations.TasksOfACycle : Prop :=
  ∀ (s : State) (dt i e code clocks used : Nat) (k u : PTask) (ecc : EccRead) (c : ECore) (runs : List Nat),
    let a := advance dt s
    let g := s.engine e
    let x := s.task k.index
    let dispatched := fun (first : Nat) (t : State) => (t.engine e).active = some k.index ∧ (t.task k.index).phase = .service ∧
      (t.task k.index).resumeAt = first ∧ (t.flow k.flow).service = some k.index
    let ends := fun (n : Nat) (t : State) => taskOver (t.task k.index) = true ∧ (t.engine e).active ≠ some k.index ∧
      (k.bundle = 255 → (t.engine e).busyNow = g.busyNow + n)
    let overrun := fun (t : State) => (t.task k.index).phase = .overrun ∧ (t.engine e).active ≠ some k.index ∧
      (t.engine e).overruns = inc32 g.overruns
    let user := runActive a e k (clockLimit s k)
    (ptask s.image i = some k → s.cyc.running = true → dueNow a k = true → (s.task i).phase = .waiting → inputsThere a k = true →
      flowClear a k = true → Runs (.taskReady dt i) s (fun t => (t.task i).phase = .ready ∧ (t.task i).readyAt = a.time.now ∧
        i ∈ t.level k.prio)) ∧
    ((s.task i).phase ≠ .waiting → Runs (.taskReady dt i) s (fun t => t = a)) ∧
    (g.next.bind (ptask s.image) = some k → s.cyc.running = true → serves s e = true → g.nextReady ≤ a.time.now →
      (ecc ≠ .confirmed → g.active = none → max (nextFrom a e k) g.freeAt + 32 * clkU ≤ a.time.now →
        Runs (.taskDispatch dt { engine := e, ecc := ecc }) s (dispatched (max (nextFrom a e k) g.freeAt + 32 * clkU))) ∧
      (ecc ≠ .confirmed → g.active.bind (ptask s.image) = some u → k.prio < u.prio → g.chain.length < 7 →
        preemptPoint a e u (nextFrom a e k) = some (c, runs, used) → max (nextFrom a e k) (instantAt s u.index used) + 32 * clkU ≤ a.time.now →
        Runs (.taskDispatch dt { engine := e, ecc := ecc }) s (fun t => dispatched (max (nextFrom a e k) (instantAt s u.index used) + 32 * clkU) t ∧
          (u.index ≠ k.index → (t.task u.index).phase = .ready ∧ (t.task u.index).used = used ∧ u.index ∈ t.level u.prio))) ∧
      (ecc = .confirmed → Runs (.taskDispatch dt { engine := e, ecc := ecc }) s (fun t => (t.task k.index).phase = .failed ∧
        t.ev.raised.contains Ev.eccDouble = true))) ∧
    (activeTask s e = some k → g.epoch = (s.flow k.flow).epoch → userLaw k.lawId = false → k.lawId ≠ lawMaster →
      clocks + writeback k ≤ clockLimit s k → instantAt s k.index (clocks + writeback k) ≤ a.time.now →
      Runs (.taskComplete dt { engine := e } clocks) s (ends (clocks + writeback k))) ∧
    (activeTask s e = some k → g.epoch = (s.flow k.flow).epoch → userLaw k.lawId = true → user.1.fault = none →
      overran s k user.1 = false → instantAt s k.index (user.1.clocks + writeback k) ≤ a.time.now →
      Runs (.taskComplete dt { engine := e } clocks) s (ends (user.1.clocks + writeback k))) ∧
    (activeTask s e = some k → g.state = .inService → Runs (.taskComplete dt { engine := e, ecc := .confirmed } clocks) s (fun t =>
      (t.engine e).state = .underTest ∧ (t.engine e).active = none ∧ t.ev.raised.contains Ev.engineFault = true)) ∧
    (activeTask s e = some k → userLaw k.lawId = false → instantAt s k.index (clockLimit s k) < a.time.now →
      Runs (.taskOverrun dt e) s overrun) ∧
    (activeTask s e = some k → userLaw k.lawId = true → user.1.fault = none → overran s k user.1 = true →
      instantAt s k.index (max user.1.clocks (clockLimit s k)) ≤ a.time.now → Runs (.taskOverrun dt e) s overrun) ∧
    (activeTask s e = some k → userLaw k.lawId = false → 1 ≤ code → code ≤ 5 → k.bundle = 255 → x.rerun = false →
      Runs (.lawFault dt e code) s (fun t => (t.task k.index).phase = .ready ∧ (t.task k.index).rerun = true ∧
        k.index ∈ t.level k.prio ∧ (t.engine e).lawFaults = inc32 (s.engine e).lawFaults)) ∧
    (activeTask s e = none → Runs (.taskComplete dt { engine := e } clocks) s (fun t => t = a) ∧ Runs (.taskOverrun dt e) s (fun t => t = a) ∧
      Runs (.lawFault dt e code) s (fun t => t = a))

/-- R51, R56, R294, R298, R300, R304: engine faults and tests, missed outputs, failed bundles, and the clearing of statistics. -/
def Obligations.EnginesBundlesAndMisses : Prop :=
  ∀ (s : State) (dt e b n : Nat) (k : PTask) (w : PBundle) (q : Request),
    let a := advance dt s
    (enginesUp s = true → e < engineCount s.board.variant → (s.engine e).state = .inService →
      Runs (.engineFault dt e) s (fun t => (t.engine e).state = .underTest ∧ (t.engine e).active = none ∧
        (t.engine e).engFaults = inc32 (s.engine e).engFaults ∧ t.ev.raised.contains Ev.engineFault = true)) ∧
    ((s.engine e).state = .lost → Runs (.engineFault dt e) s (fun t => t = a)) ∧
    (activeTask s e = some k → 65600 ≤ sincePoint a e k →
      Runs (.engineStall dt e) s (fun t => (t.engine e).state = .underTest ∧ (t.engine e).active = none)) ∧
    (activeTask s e = some k → sincePoint a e k < 65600 → Runs (.engineStall dt e) s (fun t => t = a)) ∧
    ((s.engine e).state = .underTest → e < engineCount s.board.variant →
      ((s.engine e).testBad = false → Runs (.engineTestDone dt e true) s (fun t => (t.engine e).state = .inService ∧
        (t.engine e).returning = true)) ∧
      Runs (.engineTestDone dt e false) s (fun t => (t.engine e).state = .lost ∧ t.ev.raised.contains Ev.engineLost = true)) ∧
    (pbundle s.image b = some w → s.cyc.running = true → dueMembers s b ≠ [] → bundleLimit s w < a.time.now →
      (s.bundle b).failed = false → (s.bundle b).commitAt = none →
      Runs (.bundleDeadlineFail dt b) s (fun t => (t.bundle b).failed = true ∧ (t.bundle b).misses = (s.bundle b).misses + 1)) ∧
    (2 ≤ (s.axis n).outMisses → (s.axis n).outRaised = false →
      Runs (.outputMissed dt n) s (fun t => (t.axis n).outRaised = true ∧ (t.axis n).faults.contains Ev.outputMissed = true)) ∧
    (2 ≤ (s.axis n).cascMisses → (s.axis n).cascRaised = false → ((s.axis n).outMisses < 2 ∨ (s.axis n).outRaised = true) →
      Runs (.outputMissed dt n) s (fun t => (t.axis n).cascRaised = true ∧ (t.axis n).faults.contains Ev.outputMissed = true)) ∧
    ((s.axis n).outMisses < 2 → (s.axis n).cascMisses < 2 → Runs (.outputMissed dt n) s (fun t => t = a)) ∧
    (2 ≤ (s.bundle b).misses → (s.bundle b).raised = false → pbundle s.image b = some w →
      Runs (.bundleFailed dt b) s (fun t => (t.bundle b).raised = true ∧
        (w.group < 16 → (t.group w.group).faults.contains Ev.bundleFailed = true) ∧
        (n ∈ bundleAxes s.image b → (w.group < 16 → onPath s w.group n = false) →
          (t.axis n).faults.contains Ev.bundleFailed = true))) ∧
    (Served Cmd.dispatchStatsClear dt q s →
      Answers (.dispatchStatsClear dt q) Cmd.dispatchStatsClear dt q s St.ok (fun u p => p = [] ∧ u.cyc = s.cyc ∧ ∀ j,
        (u.engine j).busyMax = 0 ∧ (u.engine j).overruns = 0 ∧ (u.engine j).lawFaults = 0 ∧ (u.engine j).engFaults = 0 ∧
        (u.engine j).preemptions = 0 ∧ (u.engine j).busyHist = (s.engine j).busyHist ∧ (u.flow j).waitMax = 0 ∧ (u.flow j).bins = []))

/-! ### Loop engines (R315 to R343) -/

/-- R323, R325, R326, R328: the product forms without rounding. -/
def Obligations.EngineProductsSetTheirAccumulator : Prop :=
  ∀ (s : State) (e : Nat) (ad : Acc) (neg : Bool) (xa xb : XReg) (m1 m2 : Move),
    EngineReady e s → MovesOk e m1 m2 s →
    let r := (s.core e).regs
    let p := (if neg then -1 else 1) * (r.xI xa * r.xI xb * 2)
    let u := (if neg then -1 else 1) * (r.xI xa * ((r.xr xb.val).toNat : Int) * 2)
    RunsCore (.pset e ad neg xa xb m1 m2) e s (AccResult ad p m1 m2 (s.core e)) ∧
    RunsCore (.pacc e ad neg xa xb m1 m2) e s (AccResult ad (r.accI ad + p) m1 m2 (s.core e)) ∧
    RunsCore (.psetu e ad neg xa xb m1 m2) e s (AccResult ad u m1 m2 (s.core e)) ∧
    RunsCore (.paccu e ad neg xa xb m1 m2) e s (AccResult ad (r.accI ad + u) m1 m2 (s.core e))

/-- R323, R324, R325, R328: the product forms that round; what is rounded is the saturated result, and SAC is set where either
saturation changed a value. -/
def Obligations.EngineRoundedProductsSetTheirAccumulator : Prop :=
  ∀ (s : State) (e : Nat) (ad : Acc) (neg : Bool) (xa xb : XReg) (m1 m2 : Move),
    EngineReady e s → MovesOk e m1 m2 s →
    let r := (s.core e).regs
    let p := (if neg then -1 else 1) * (r.xI xa * r.xI xb * 2)
    let u := (if neg then -1 else 1) * (r.xI xa * ((r.xr xb.val).toNat : Int) * 2)
    let rounds := fun (v : Int) (c : ECore) =>
      let w : W56 := BitVec.ofInt 56 (sat56 (rnd24 (sat56 v)))
      c.pc = (s.core e).pc + 1 ∧ MovesOnly m1 m2 (s.core e) c ∧ c.regs.ar ad.val = w ∧
      (sat56 (rnd24 (sat56 v)) = rnd24 (sat56 v) → w.setWidth 24 = 0#24) ∧ FlagsOf56 c.regs.es w ∧ SameSpecial c.regs r ∧
      c.regs.es.getLsbD esSAC = (r.es.getLsbD esSAC || decide (sat56 v ≠ v) || decide (sat56 (rnd24 (sat56 v)) ≠ rnd24 (sat56 v)))
    RunsCore (.psetr e ad neg xa xb m1 m2) e s (rounds p) ∧
    RunsCore (.paccr e ad neg xa xb m1 m2) e s (rounds (r.accI ad + p)) ∧
    RunsCore (.psetur e ad neg xa xb m1 m2) e s (rounds u) ∧
    RunsCore (.paccur e ad neg xa xb m1 m2) e s (rounds (r.accI ad + u))

/-- R325, R326, R328: sums, differences, copies and signs of accumulators. -/
def Obligations.EngineAccumulatorArithmetic : Prop :=
  ∀ (s : State) (e : Nat) (ad ar : Acc) (xa : XReg) (m1 m2 : Move),
    EngineReady e s → MovesOk e m1 m2 s →
    let r := (s.core e).regs
    let res := fun (v : Int) => AccResult ad v m1 m2 (s.core e)
    RunsCore (.aadd e ad ar m1 m2) e s (res (r.accI ad + r.accI ar)) ∧
    RunsCore (.asub e ad ar m1 m2) e s (res (r.accI ad - r.accI ar)) ∧
    RunsCore (.aadx e ad xa m1 m2) e s (res (r.accI ad + r.xI xa * 2 ^ 24)) ∧
    RunsCore (.asbx e ad xa m1 m2) e s (res (r.accI ad - r.xI xa * 2 ^ 24)) ∧
    RunsCore (.acpy e ad ar m1 m2) e s (res (r.accI ar)) ∧
    RunsCore (.aldx e ad xa m1 m2) e s (res (r.xI xa * 2 ^ 24)) ∧
    RunsCore (.azro e ad m1 m2) e s (res 0) ∧
    RunsCore (.aneg e ad m1 m2) e s (res (-(r.accI ad))) ∧
    RunsCore (.aabs e ad m1 m2) e s (res (r.accI ad).natAbs)

/-- R324, R325, R328, R331: rounding, shifts and the block scale of an accumulator; a shift count above 55 is a law fault of code 1
(R338). -/
def Obligations.EngineShiftsAndRounding : Prop :=
  ∀ (s : State) (e : Nat) (ad : Acc) (sh : Nat) (m1 m2 : Move),
    EngineReady e s → MovesOk e m1 m2 s →
    let r := (s.core e).regs
    let res := fun (v : Int) => AccResult ad v m1 m2 (s.core e)
    RunsCore (.rnd e ad m1 m2) e s (res (rnd24 (r.accI ad))) ∧
    RunsCore (.asat e ad m1 m2) e s (fun c => res (sat48 (r.accI ad)) c ∧
      (sat48 (r.accI ad) ≠ r.accI ad → c.regs.es.getLsbD esSST = true)) ∧
    (sh ≤ 55 → RunsCore (.ashl e ad sh m1 m2) e s (res (r.accI ad * (2 ^ sh : Nat)))) ∧
    (sh ≤ 55 → RunsCore (.ashr e ad sh m1 m2) e s (res (r.accI ad / (2 ^ sh : Nat)))) ∧
    (55 < sh → RunsCore (.ashl e ad sh m1 m2) e s (fun c => c = { s.core e with fault := some (1, (s.core e).pc) }) ∧
      RunsCore (.ashr e ad sh m1 m2) e s (fun c => c = { s.core e with fault := some (1, (s.core e).pc) })) ∧
    (0 ≤ r.bx.toInt → RunsCore (.sclb e ad m1 m2) e s (res (r.accI ad * (2 ^ r.bx.toInt.toNat : Nat)))) ∧
    (r.bx.toInt < 0 → RunsCore (.sclb e ad m1 m2) e s (res (r.accI ad / (2 ^ (-r.bx.toInt).toNat : Nat))))

/-- R328, R325, R331: results in an X register, with N and Z of the word where R328 says NZ, and the SST flag of a clamp. -/
def Obligations.EngineWordResults : Prop :=
  ∀ (s : State) (e : Nat) (ad : Acc) (xd xa xb : XReg) (m1 m2 : Move),
    EngineReady e s → MovesOk e m1 m2 s →
    let r := (s.core e).regs
    let a := r.xr xa.val
    let b := r.xr xb.val
    let nz := fun (v : W24) (c : ECore) => WordResult xd v m1 m2 (s.core e) c ∧ FlagsOf24 c.regs.es v
    let part := fun (w : Int) (up : Bool) (c : ECore) =>
      WordResult xd (BitVec.ofInt 24 (if up then sat48 w / 2 ^ 24 else sat48 w)) m1 m2 (s.core e) c ∧ SameNZG c.regs.es r.es ∧
      (sat48 w ≠ w → c.regs.es.getLsbD esSST = true)
    RunsCore (.xcpy e xd xa m1 m2) e s (nz a) ∧
    RunsCore (.xadd e xd xa xb m1 m2) e s (nz (a + b)) ∧
    RunsCore (.xsub e xd xa xb m1 m2) e s (nz (a - b)) ∧
    RunsCore (.xand e xd xa xb m1 m2) e s (nz (a &&& b)) ∧
    RunsCore (.xior e xd xa xb m1 m2) e s (nz (a ||| b)) ∧
    RunsCore (.xeor e xd xa xb m1 m2) e s (nz (a ^^^ b)) ∧
    RunsCore (.xhi e xd ad m1 m2) e s (part (r.accI ad) true) ∧
    RunsCore (.xhir e xd ad m1 m2) e s (part (rnd24 (r.accI ad)) true) ∧
    RunsCore (.xlo e xd ad m1 m2) e s (part (r.accI ad) false) ∧
    (0 ≤ r.bx.toInt → RunsCore (.sclbx e xd xa m1 m2) e s (fun c =>
      nz (BitVec.ofInt 24 (sat24 (a.toInt * (2 ^ r.bx.toInt.toNat : Nat)))) c ∧
      (sat24 (a.toInt * (2 ^ r.bx.toInt.toNat : Nat)) ≠ a.toInt * (2 ^ r.bx.toInt.toNat : Nat) → c.regs.es.getLsbD esSST = true))) ∧
    (r.bx.toInt < 0 → RunsCore (.sclbx e xd xa m1 m2) e s (nz (BitVec.ofInt 24 (a.toInt / (2 ^ (-r.bx.toInt).toNat : Nat)))))

/-- R326, R328, R330, R331, R332: comparisons, the block exponent, extrema and the division step. -/
def Obligations.EngineComparisonsAndSteps : Prop :=
  ∀ (s : State) (e : Nat) (ad ar : Acc) (xa : XReg) (b : Nat) (v : BitVec 7) (m1 m2 : Move),
    EngineReady e s → MovesOk e m1 m2 s →
    let c0 := s.core e
    let r := c0.regs
    let cmp := fun (d : Int) (c : ECore) => NoResult m1 m2 c0 c ∧ c.regs.bx = r.bx ∧ FlagsOf56 c.regs.es (BitVec.ofInt 56 (sat56 d)) ∧
      c.regs.es.getLsbD esSAC = r.es.getLsbD esSAC
    let least := fun (k : Int) (c : ECore) => NoResult m1 m2 c0 c ∧ SameNZG c.regs.es r.es ∧ c.regs.bx.toInt = min r.bx.toInt k
    let w := r.xI xa * 2 ^ 24
    let ext := fun (take : Bool) (c : ECore) => c.pc = c0.pc + 1 ∧ MovesOnly m1 m2 c0 c ∧ SameNZG c.regs.es r.es ∧
      SameSpecial c.regs r ∧ (if take then c.regs.ar ad.val = BitVec.ofInt 56 w ∧ c.regs.ix = 0
        else c.regs.ix = r.ix ∧ (c0.landing = [] → c.regs.a = r.a))
    let d : W56 := r.ar ad.val <<< 1
    RunsCore (.acmp e ad ar m1 m2) e s (cmp (r.accI ad - r.accI ar)) ∧
    RunsCore (.acpx e ad xa m1 m2) e s (cmp (r.accI ad - w)) ∧
    (b < 24 → RunsCore (.xbit e xa b m1 m2) e s (fun c => NoResult m1 m2 c0 c ∧ c.regs.bx = r.bx ∧
      c.regs.es.getLsbD esZ = !(r.xr xa.val).getLsbD b ∧ c.regs.es.getLsbD esN = false ∧ c.regs.es.getLsbD esG = false)) ∧
    RunsCore (.bexp e xa m1 m2) e s (least (signRun 24 (r.xr xa.val).toNat)) ∧
    RunsCore (.bexpa e ad m1 m2) e s (least ((signRun 56 (r.ar ad.val).toNat : Int) - 8)) ∧
    RunsCore (.bxset e v m1 m2) e s (fun c => NoResult m1 m2 c0 c ∧ SameNZG c.regs.es r.es ∧ c.regs.bx = v) ∧
    RunsCore (.maxi e ad xa m1 m2) e s (ext (decide (r.accI ad < w))) ∧
    RunsCore (.mini e ad xa m1 m2) e s (ext (decide (w < r.accI ad))) ∧
    RunsCore (.qstep e ad xa m1 m2) e s (fun c => c.pc = c0.pc + 1 ∧ MovesOnly m1 m2 c0 c ∧ SameNZG c.regs.es r.es ∧
      SameSpecial c.regs r ∧ c.regs.ar ad.val =
        if (r.xr xa.val).toNat ≤ (d >>> 24).toNat then d - ((r.xr xa.val).setWidth 56 <<< 24) + 1 else d) ∧
    RunsCore (.nop e m1 m2) e s (fun c => NoResult m1 m2 c0 c ∧ c.regs.bx = r.bx ∧ SameNZG c.regs.es r.es)

/-- R327, R328, R333, R334, R336, R343: where execution continues after a branch, a call, a return, a repeat and an end. A branch
has two delay slots, so the target waits with two slots to go. -/
def Obligations.EngineControlFlow : Prop :=
  ∀ (s : State) (e : Nat) (cc n : Nat) (t : BitVec 14) (xn : XReg) (m1 m2 : Move),
    EngineReady e s → MovesOk e m1 m2 s →
    let c0 := s.core e
    let goes := fun (k : Option Nat) (c : ECore) => c.pc = c0.pc + 1 ∧ c.branch = some (k, 2) ∧ c.clocks = c0.clocks + 1
    (∀ h, condHolds cc c0.nzgOld c0.regs.es = some h →
      RunsCore (.brc e cc t) e s (fun c => goes (if h then some t.toNat else none) c ∧ c.regs.stack = c0.regs.stack)) ∧
    (11 ≤ cc → RunsCore (.brc e cc t) e s (fun c => c = { c0 with fault := some (1, c0.pc) })) ∧
    (c0.regs.stack.length < 4 → RunsCore (.call e t) e s (fun c => goes (some t.toNat) c ∧
      c.regs.stack = BitVec.ofNat 14 (c0.pc + 3) :: c0.regs.stack)) ∧
    (4 ≤ c0.regs.stack.length → RunsCore (.call e t) e s (fun c => c = { c0 with fault := some (5, c0.pc) })) ∧
    (∀ a rest, c0.regs.stack = a :: rest → RunsCore (.ret e) e s (fun c => goes (some a.toNat) c ∧ c.regs.stack = rest)) ∧
    (c0.regs.stack = [] → RunsCore (.ret e) e s (fun c => c = { c0 with fault := some (5, c0.pc) })) ∧
    RunsCore (.decbr e xn t) e s (fun c => goes (if c0.regs.xr xn.val - 1 = 0 then none else some t.toNat) c ∧
      c.regs.xr xn.val = c0.regs.xr xn.val - 1 ∧ SameNZG c.regs.es c0.regs.es) ∧
    (n ≤ 65536 → RunsCore (.rep e n m1 m2) e s (fun c => c.pc = c0.pc + 1 ∧ c.rep = some (n, 0) ∧ MovesOnly m1 m2 c0 c)) ∧
    RunsCore (.done e m1 m2) e s (fun c => c.done = true ∧ c.pc = c0.pc + 1 ∧ MovesOnly m1 m2 c0 c)

/-- R328, R329: immediates, and moves between an X register and a special register. A write to LC and a reserved selector are law
faults of code 1 (R338). -/
def Obligations.EngineImmediatesAndSpecialRegisters : Prop :=
  ∀ (s : State) (e : Nat) (xn : XReg) (p : PReg) (v : W24) (w : BitVec 16) (sel : Nat) (dir : Bool) (m1 m2 : Move),
    EngineReady e s → MovesOk e m1 m2 s →
    let c0 := s.core e
    let r := c0.regs
    let fails := fun (c : ECore) => c = { c0 with fault := some (1, c0.pc) }
    let reads := fun (x : W24) (c : ECore) => WordResult xn x m1 m2 c0 c ∧ SameNZG c.regs.es r.es
    RunsCore (.ximm e xn v) e s (fun c => WordResult xn v .none .none c0 c ∧ c.regs.es = r.es) ∧
    RunsCore (.pimm e p w) e s (fun c => c.pc = c0.pc + 1 ∧ c.regs.pr p.val = w ∧ ∀ j : PReg, j ≠ p → c.regs.pr j.val = r.pr j.val) ∧
    RunsCore (.mimm e p w) e s (fun c => c.pc = c0.pc + 1 ∧ c.regs.mr p.val = w ∧ c.regs.p = r.p) ∧
    (w.toNat < 16384 → RunsCore (.limm e p w) e s (fun c => c.pc = c0.pc + 1 ∧ (c.regs.lr p.val).toNat = w.toNat)) ∧
    (16384 ≤ w.toNat → RunsCore (.limm e p w) e s fails) ∧
    RunsCore (.sreg e xn 0 p false m1 m2) e s (reads ((r.pr p.val).setWidth 24)) ∧
    RunsCore (.sreg e xn 1 p false m1 m2) e s (reads ((r.mr p.val).signExtend 24)) ∧
    RunsCore (.sreg e xn 2 p false m1 m2) e s (reads ((r.lr p.val).setWidth 24)) ∧
    RunsCore (.sreg e xn 3 0 false m1 m2) e s (reads (r.lc.setWidth 24)) ∧
    RunsCore (.sreg e xn 4 0 false m1 m2) e s (reads (r.ix.setWidth 24)) ∧
    RunsCore (.sreg e xn 5 0 false m1 m2) e s (reads (r.bx.signExtend 24)) ∧
    RunsCore (.sreg e xn 6 0 false m1 m2) e s (reads (r.es.setWidth 24)) ∧
    RunsCore (.sreg e xn 4 0 true m1 m2) e s (fun c => c.pc = c0.pc + 1 ∧ c.regs.ix = (r.xr xn.val).setWidth 17) ∧
    RunsCore (.sreg e xn 5 0 true m1 m2) e s (fun c => c.pc = c0.pc + 1 ∧ c.regs.bx = (r.xr xn.val).setWidth 7) ∧
    RunsCore (.sreg e xn 0 p true m1 m2) e s (fun c => c.pc = c0.pc + 1 ∧ c.regs.pr p.val = (r.xr xn.val).setWidth 16) ∧
    RunsCore (.sreg e xn 1 p true m1 m2) e s (fun c => c.pc = c0.pc + 1 ∧ c.regs.mr p.val = (r.xr xn.val).setWidth 16) ∧
    RunsCore (.sreg e xn 2 p true m1 m2) e s (fun c => c.pc = c0.pc + 1 ∧ c.regs.lr p.val = (r.xr xn.val).setWidth 14) ∧
    RunsCore (.sreg e xn 6 0 true .none .none) e s (fun c => c.pc = c0.pc + 1 ∧ c.regs.es = ((r.xr xn.val).setWidth 5).setWidth 8) ∧
    (7 ≤ sel → RunsCore (.sreg e xn sel p dir m1 m2) e s fails) ∧
    RunsCore (.sreg e xn 3 0 true m1 m2) e s fails

/-- R333, R335, R338: the repeated instruction runs n times with the repeat index 0 to n − 1, after which LC is 0 and execution goes on
behind it; with n = 0 it is skipped (said of a subtraction that counts its runs and of a skipped addition). Two moves that may not
stand together are a law fault of code 2, and a move at 0x3F00 or above one of code 3 (said of the instruction that performs its moves
alone and of an addition). -/
def Obligations.EngineRepeatsAndIllegalMoves : Prop :=
  ∀ (s : State) (e n : Nat) (ad ar : Acc) (m1 m2 : Move), EngineReady e s →
    let c0 := s.core e
    let s1 := s.onEngine e (fun g => { g with core := { c0 with rep := some (n, 0), landing := [] } })
    let bad := fun (k : Nat) (c : ECore) => c = { c0 with fault := some (k, c0.pc) }
    (n = 0 → RunsCore (.aadd e ad ar .none .none) e s1 (fun c => c.regs.a = c0.regs.a ∧ c.regs.x = c0.regs.x ∧ c.regs.lc = 0 ∧
      c.rep = none ∧ c.pc = c0.pc + 1)) ∧
    (n ≤ 65536 → ∀ xd : XReg, ∀ v : W24, c0.regs.xr xd.val = v → ∀ xa : XReg, xa ≠ xd → c0.regs.xr xa.val = 1 →
      RunsCore (.xsub e xd xd xa .none .none) e s1 (fun c => c.regs.xr xd.val = v - BitVec.ofNat 24 n ∧ c.regs.lc = 0 ∧
        c.rep = none ∧ c.pc = c0.pc + 1 ∧ c.clocks = c0.clocks + n)) ∧
    (clash m1 m2 = true → RunsCore (.nop e m1 m2) e s (bad 2) ∧ RunsCore (.aadd e ad ar m1 m2) e s (bad 2)) ∧
    (clash m1 m2 = false → ((moveAddr c0.regs m1).any (Nat.ble 0x3F00) = true ∨ (moveAddr c0.regs m2).any (Nat.ble 0x3F00) = true) →
      RunsCore (.nop e m1 m2) e s (bad 3) ∧ RunsCore (.aadd e ad ar m1 m2) e s (bad 3))

/-! ### Law blocks and the debug access (R344 to R348, R413, R671, R675, R682) -/

/-- R345, R671, R675, R682: law blocks are staged in order, checked and written as one; a block in use stays; coefficients wait for the
next tick; LAW_TEST runs one task on a named engine. -/
def Obligations.LawBlocks : Prop :=
  ∀ (s : State) (dt l : Nat) (b : Bytes) (rest : List (Bytes × Bool)) (k : PTask) (q : Request),
    let base := if uAt q.payload 4 4 = 0 then [] else s.disp.staged
    let img := base ++ q.payload.drop 8
    let h := blockHead b
    let vals := (List.range (uAt q.payload 4 1)).filterMap (fun i => contVal .s24 (slice q.payload (8 + 4 * i) 4))
    (Served Cmd.lawLoad dt q s → uAt q.payload 1 3 = 0 → uAt q.payload 4 4 = base.length →
      (uAt q.payload 0 1 = 0 → Answers (.lawLoad dt q) Cmd.lawLoad dt q s St.ok (fun u p => p = [] ∧
        u.disp = { s.disp with staged := img })) ∧
      (uAt q.payload 0 1 = 1 → Answers (.lawLoad dt q) Cmd.lawLoad dt q s St.pend (fun u p => p = [] ∧
        isPending u Cmd.lawLoad 0 = true ∧ u.disp = { s.disp with staged := [], loading := s.disp.loading ++ [(img, false)] }))) ∧
    (Served Cmd.lawLoad dt q s → uAt q.payload 4 4 ≠ base.length → Refuses (.lawLoad dt q) Cmd.lawLoad dt q s St.badParam) ∧
    (s.disp.loading = (b, false) :: rest → blockFormat b = true → blockOverlaps s h = false → firstBad b = none →
      Runs (.lawLoadDone dt) s (fun t => t.disp.loading = rest ∧ t.disp.blocks = s.disp.blocks ++ [h] ∧
        ∀ i, i < h.wordCount → tfind t.disp.prog (h.loadAddr + i) = some (BitVec.ofNat 48 (codeWord b i)))) ∧
    (s.disp.loading = (b, false) :: rest → (blockFormat b = false ∨ blockOverlaps s h = true ∨ (firstBad b).isSome = true) →
      Runs (.lawLoadDone dt) s (fun t => t.disp = { s.disp with loading := rest })) ∧
    (Served Cmd.lawUnload dt q s → uAt q.payload 0 2 = l → uAt q.payload 2 2 = 0 → 0x8000 ≤ l →
      s.disp.blocks.any (fun b => b.lawId == l) = true →
      (planUses s.image l = false → s.plan.standbySt = .empty →
        Answers (.lawUnload dt q) Cmd.lawUnload dt q s St.ok (fun u p => p = [] ∧
          u.disp.blocks = s.disp.blocks.filter (fun b => b.lawId != l) ∧ u.disp.prog = s.disp.prog)) ∧
      (planUses s.image l = true → Refuses (.lawUnload dt q) Cmd.lawUnload dt q s St.lawInUse)) ∧
    (Served Cmd.lawCoefWrite dt q s → s.plan.active.isSome = true → ptask s.image (uAt q.payload 0 2) = some k →
      1 ≤ uAt q.payload 4 1 → uAt q.payload 4 1 ≤ 60 → uAt q.payload 5 3 = 0 → vals.length = uAt q.payload 4 1 →
      uAt q.payload 2 2 + uAt q.payload 4 1 ≤ k.inLen → (k.axis = 255 ∨ 24 ≤ uAt q.payload 2 2) →
      Answers (.lawCoefWrite dt q) Cmd.lawCoefWrite dt q s St.ok (fun u p => p = [] ∧ u.disp = { s.disp with coefs := s.disp.coefs ++
        [(stampOf Cmd.lawCoefWrite dt q s, k.base + 4 * uAt q.payload 2 2, vals.map (BitVec.ofInt 24))] })) ∧
    (let u0 := atStamp Cmd.lawTest dt q s
     let e := uAt q.payload 0 1
     let limit := uAt q.payload 4 4
     let k := taskAt (cellsFrom 0 (slice q.payload 8 16)) 0 0
     let c := runTest u0 limit (entryCore u0 k.entry k.base k.inLen k.stLen k.outLen 0)
     Served Cmd.lawTest dt q s → e < engineCount s.board.variant → uAt q.payload 1 3 = 0 → 1 ≤ limit → limit ≤ 1000000 →
       k.base + 4 * (k.inLen + k.stLen + k.outLen) ≤ sramSize → (s.engine e).state = .inService → s.disp.test = none →
       ((s.core e).halted = true ∨ (s.core e).haltAsked = true → Runs (.lawTest dt q) s (fun t =>
         t.disp.test = some (e, q.mb, k.base, limit) ∧ (t.core e).halted = true ∧ (t.core e).clocks = 0 ∧
         (tfind t.host.running q.mb).isSome = true)) ∧
       ((s.core e).halted = false → (s.core e).haltAsked = false → Answers (.lawTest dt q) Cmd.lawTest dt q s St.ok (fun u p => u.core e = c ∧ p.length = 8 ∧ Field p 0 4 c.clocks ∧
         Field p 4 1 c.regs.es.toNat ∧ (c.fault = none → c.done = true → Field p 5 1 0) ∧
         (c.fault = none → c.done = false → Field p 5 1 0xFF) ∧ (∀ f, c.fault = some f → Field p 5 1 f.1 ∧ Field p 6 2 f.2))))

/-- R33, R348, R413: halts, single steps and resumption, of a LAW_TEST too; a halt is taken only in CONFIG; a time clock that ran again after a stop is a
device fault. -/
def Obligations.DebugAccess : Prop :=
  ∀ (s : State) (dt e mb base limit : Nat) (target : HaltTarget),
    let a := advance dt s
    let free := ∀ x, s.disp.test = some x → x.1 ≠ e
    (s.dev.mode = .config → e < engineCount s.board.variant → (s.core e).branch = none → (s.core e).rep = none →
      Runs (.debugHaltRequest dt (.engine e)) s (fun t =>
        t = a.onEngine e (fun g => { g with core := { g.core with halted := true, haltAsked := false } }))) ∧
    (s.dev.mode = .config → e < engineCount s.board.variant → ((s.core e).branch.isSome = true ∨ (s.core e).rep.isSome = true) →
      Runs (.debugHaltRequest dt (.engine e)) s (fun t => t = a.onEngine e (fun g => { g with core := { g.core with haltAsked := true } }))) ∧
    (s.dev.mode ≠ .config → Runs (.debugHaltRequest dt target) s (fun t => t = a)) ∧
    (s.dev.mode = .config → Runs (.debugHaltRequest dt .timeClock) s (fun t => t.time.stopped = true ∧ t.time.now = a.time.now)) ∧
    (s.dev.mode = .config → e < engineCount s.board.variant → (s.core e).halted = true → free →
      Runs (.debugSingleStep dt e) s (fun t => (t.core e).halted = true ∧
        t = a.onEngine e (fun g => { g with core := { singleStep a 3 { g.core with halted := false } with halted := true } }))) ∧
    ((s.core e).halted = false → Runs (.debugSingleStep dt e) s (fun t => t = a)) ∧
    (s.dev.mode ≠ .config → Runs (.debugResume dt (.engine e)) s (fun t => t = a)) ∧
    (s.dev.mode = .config → e < engineCount s.board.variant → free → Runs (.debugResume dt (.engine e)) s (fun t =>
      t = a.onEngine e (fun g => { g with core := { g.core with halted := false, haltAsked := false } }))) ∧
    (s.dev.mode = .config → e < engineCount s.board.variant → s.disp.test = some (e, mb, base, limit) →
      Runs (.debugResume dt (.engine e)) s (fun t => t.disp.test = none ∧ tfind t.host.running mb = none ∧
        t.core e = runTest a limit { s.core e with halted := false, haltAsked := false })) ∧
    (s.time.stopped = false → Runs (.debugResume dt .timeClock) s (fun t => t = a)) ∧
    (s.time.stopped = true → Runs (.debugResume dt .timeClock) s (fun t => t.time.stopped = false ∧ t.time.now = a.time.now ∧
      t.ev.raised.contains Ev.clockHalted = true ∧ (s.dev.mode = .config → t.dev.mode = .fault))) ∧
    ((s.dev.mode = .config ∨ s.dev.mode = .preop ∨ s.dev.mode = .operational ∨ s.dev.mode = .safeHold) →
      Runs (.clockHalted dt) s (fun t => t.dev.mode = .fault ∧ t.time.stopped = false))

/-! ### Calipers (R487 to R512) -/

/-- R17, R490, R494 to R496, R502, R504, R505, R679: the calipers commands. -/
def Obligations.CalipersCommands : Prop :=
  ∀ (s : State) (dt i n : Nat) (v : Nat → Int) (c : CalConf) (q : Request),
    let p := q.payload
    let ch := uAt p 0 1
    let side := uAt p 1 1
    let w := capWidth (parWritten s Par.capSignal ch).toNat (parWritten s Par.capQuantity ch).toNat
    let armed := parPromote (atStamp Cmd.calArm dt q s) (fun _ _ => true) .calArm
    (Served Cmd.calSegList dt q s → uAt p 0 2 = i → uAt p 2 1 = n → 1 ≤ n → n ≤ 60 → uAt p 3 1 = 0 → i + n ≤ 65536 →
      (∀ k, k < n → 1 ≤ uAt p (6 + 4 * k) 2) → captureOn s = true → calBusy s = false →
      Answers (.calSegList dt q) Cmd.calSegList dt q s St.ok (fun u r => r = [] ∧
        (∀ k, k < n → tfind u.cal.segList (i + k) = some (uAt p (4 + 4 * k) 2, uAt p (6 + 4 * k) 2)) ∧
        ∀ k, (k < i ∨ i + n ≤ k) → tfind u.cal.segList k = tfind s.cal.segList k)) ∧
    (Served Cmd.calMaskWrite dt q s → ch < 32 → side < 2 → uAt p 5 3 = 0 → uAt p 4 1 = n → 1 ≤ n → n ≤ (if w = 8 then 30 else 60) →
      uAt p 2 2 + n ≤ 4096 →
      ((∀ k, k < n → maskPoint s ch (slice p (8 + w * k) w) = some (v k)) → captureOn s = true → calBusy s = false →
        Answers (.calMaskWrite dt q) Cmd.calMaskWrite dt q s St.ok (fun u r => r = [] ∧ tget u.cal.maskWidth 0 ch = w ∧
          ∀ k, k < n → tfind (tget u.cal.masks [] (2 * ch + side)) (uAt p 2 2 + k) = some (v k))) ∧
      (i < n → maskPoint s ch (slice p (8 + w * i) w) = none →
        Refuses (.calMaskWrite dt q) Cmd.calMaskWrite dt q s St.badParam)) ∧
    (Served Cmd.calArm dt q s → captureOn s = true → calBusy s = false → calConfOf armed = c → confFits armed c = true →
      (c.fixedBytes + 64 + largestEntry s c.listLen * c.rowBytes ≤ captureSize →
        Answers (.calArm dt q) Cmd.calArm dt q s St.pend (fun u r => r = [] ∧ isPending u Cmd.calArm 0 = true ∧ u.cal.state = 1 ∧
          u.cal.conf = some c ∧ u.cal.rows = [] ∧ u.cal.done = [] ∧ u.cal.segNo = 0 ∧ u.cal.trigAt = none)) ∧
      (captureSize < c.fixedBytes + 64 + largestEntry s c.listLen * c.rowBytes →
        Refuses (.calArm dt q) Cmd.calArm dt q s St.calMemory)) ∧
    (Served Cmd.calStop dt q s → captureOn s = true → calBusy s = true →
      Answers (.calStop dt q) Cmd.calStop dt q s St.ok (fun u r => r = [] ∧ u.cal.state = 3 ∧ u.cal.stopReason = 5 ∧
        isPending u Cmd.calArm 0 = false)) ∧
    (Served Cmd.calForce dt q s → captureOn s = true → s.cal.state = 1 → s.cal.trigAt = none →
      s.cal.rearmAt ≤ stampOf Cmd.calForce dt q s * nsU → (∀ r, r ∈ s.cal.pre → r.at_ < stampOf Cmd.calForce dt q s * nsU) →
      Answers (.calForce dt q) Cmd.calForce dt q s St.ok (fun u r => r = [] ∧ u.cal.trigSrc = 6 ∧
        u.cal.trigAt = some (stampOf Cmd.calForce dt q s * nsU))) ∧
    (Served Cmd.calForce dt q s → s.cal.state ≠ 1 → Refuses (.calForce dt q) Cmd.calForce dt q s St.badState) ∧
    (Served Cmd.calSkewCalibrate dt q s → ch < 8 → uAt p 1 3 = 0 → captureOn s = true → s.cal.skew = none →
      Answers (.calSkewCalibrate dt q) Cmd.calSkewCalibrate dt q s St.pend (fun u r => r = [] ∧ u.cal.skew.isSome = true ∧
        isPending u Cmd.calSkewCalibrate 0 = true ∧ (tget u.time.touts {} ch : Tout).mode = 2 ∧
        (tget u.time.touts {} ch : Tout).period = 1000000 * nsU ∧ (tget u.time.touts {} ch : Tout).width = 10000 * nsU)) ∧
    (Served Cmd.calSkewStore dt q s → uAt p 1 3 = 0 → captureOn s = true →
      (uAt p 0 1 = 0 → Answers (.calSkewStore dt q) Cmd.calSkewStore dt q s St.ok (fun u r => r = [] ∧
        u.cal = { s.cal with skewStored := some s.cal.skewVals })) ∧
      (∀ l, uAt p 0 1 = 1 → s.cal.skewStored = some l → q.ecc = .clean → Answers (.calSkewStore dt q) Cmd.calSkewStore dt q s St.ok (fun u r =>
        r = [] ∧ u.cal = { s.cal with skewVals := l })) ∧
      (uAt p 0 1 = 1 → s.cal.skewStored = none → Refuses (.calSkewStore dt q) Cmd.calSkewStore dt q s St.calSkewNone)) ∧
    (Served Cmd.calBusMeasure dt q s → captureOn s = true → par s Par.busRole 0 = 2 → s.cal.bus = none →
      Answers (.calBusMeasure dt q) Cmd.calBusMeasure dt q s St.pend (fun u r => r = [] ∧ u.cal.bus.isSome = true ∧
        isPending u Cmd.calBusMeasure 0 = true))

/-- R489, R490, R495, R501 to R503: rows, the trigger bus and the shared clock. -/
def Obligations.CalipersEvents : Prop :=
  ∀ (s : State) (dt line wait : Nat) (c : CalConf) (b : BusCal) (t0 : Nat) (r : CalRow),
    let a := advance dt s
    let k := s.cal
    let row : CalRow := { r with values := rowValues a c r }
    let high := fun (x : Nat) => tget k.busLowEnd 0 x + 5000 * nsU
    (k.conf = some c → c.kind = 0 → k.heldRow = some r → k.rearmAt ≤ r.at_ →
      (k.state = 1 → k.trigAt = none → Runs (.calRow dt none) s (fun t => t.cal.lastRow = some r.at_ ∧ t.cal.heldRow = none ∧ t.cal.state = 1 ∧
        t.cal.rows = k.rows ∧ t.cal.pre = keepLast (segEntry s c.listLen k.segNo).1 (k.pre ++ [row]))) ∧
      (k.state = 2 → c.maskEnable = false → rowsFit s c (k.rows.length + 1) = true →
        k.rows.length + 1 < k.preCount + (segEntry s c.listLen k.segNo).2 →
        Runs (.calRow dt none) s (fun t => t.cal.lastRow = some r.at_ ∧ t.cal.heldRow = none ∧ t.cal.state = 2 ∧ t.cal.rows = k.rows ++ [row]))) ∧
    (k.heldRow = none → Runs (.calRow dt none) s (fun t => t = a)) ∧
    (line < 4 → hasLocal s.board.variant = true → drivesNow a line = false → k.bus = none → par s Par.busRole 0 ≠ 1 →
      k.conf = some c → c.kind = 5 → c.index = line → k.state = 1 → k.trigAt = none → k.rearmAt ≤ a.time.now - busDelayU s line →
      (∀ r, r ∈ k.pre → r.at_ < a.time.now - busDelayU s line) →
      Runs (.trigBusEdge dt line) s (fun t => t.cal.trigAt = some (a.time.now - busDelayU s line) ∧ t.cal.trigSrc = 5)) ∧
    (hasLocal s.board.variant = true → par s Par.busRole 0 = 2 → k.syncEdges.length < 63 →
      Runs (.syncClkEdge dt) s (fun t => t.cal.syncLast = some a.time.now ∧ t.cal.syncEdges.length = k.syncEdges.length + 1 ∧
        t.cal.syncState = if k.syncState = 0 ∨ k.syncState = 3 then 1 else k.syncState)) ∧
    (k.syncLast = some t0 → par s Par.busRole 0 = 2 → t0 + 10000 * nsU ≤ a.time.now →
      Runs (.syncClkLost dt) s (fun t => t.cal.syncState = 3 ∧ t.cal.syncLast = none)) ∧
    (k.bus = some b → b.drivenAt = none → 5000 ≤ wait → wait ≤ 50000 →
      Runs (.calBusRetryWait dt wait) s (fun t => t.cal.bus = some { b with drivenAt := some (max a.time.now (high b.line)) } ∧
        tfind t.cal.busPulse b.line = some (max a.time.now (high b.line), max a.time.now (high b.line) + 200 * nsU))) ∧
    (k.bus = some b → b.started + 100000000 * nsU ≤ a.time.now →
      Runs (.calNoEchoTimeout dt) s (fun t => t.cal.bus = none ∧ isPending t Cmd.calBusMeasure 0 = false))

/-! ### DMA (R513 to R532) -/

/-- R23, R513, R518 to R524: the host channels' commands, chain entries and bursts. -/
def Obligations.DmaChannels : Prop :=
  ∀ (s : State) (dt n : Nat) (entry : EntryRead) (data : Bytes) (read : BurstRead) (q : Request),
    let a := advance dt s
    let p := q.payload
    let c := s.chan n
    let ctrl := uAt p 1 1
    let base := 0x3F0000 + 0x800 * (n - 24)
    (uAt p 0 1 = n → 24 ≤ n → n < 32 →
      (Served Cmd.dmaSetup dt q s → uAt p 2 2 = 0 → ctrl % 2 = 0 → ctrl < 64 → bitsOf ctrl 1 2 ≠ 3 → bitsOf ctrl 3 2 ≠ 3 →
        (if bitsOf ctrl 1 2 = 0 then 1 ≤ uAt p 4 4 ∧ uAt p 4 4 < 16777216 else uAt p 4 4 = 0) → uAt p 8 8 < 2 ^ 40 → uAt p 16 8 < 2 ^ 40 →
        uAt p 24 8 < 2 ^ 40 → uAt p 24 8 % 8 = 0 →
        (c.busy = false → Answers (.dmaSetup dt q) Cmd.dmaSetup dt q s St.ok (fun u r => r = [] ∧ u.chan n =
          { c with src := uAt p 8 8, dst := uAt p 16 8, list := uAt p 24 8, count := uAt p 4 4, ctrl := ctrl } ∧
          ∀ k, k ≠ n → u.chan k = s.chan k)) ∧
        (c.busy = true → Refuses (.dmaSetup dt q) Cmd.dmaSetup dt q s St.dmaBusy)) ∧
      (Served Cmd.dmaStart dt q s → uAt p 1 3 = 0 →
        (c.busy = false → Answers (.dmaStart dt q) Cmd.dmaStart dt q s St.pend (fun u r => r = [] ∧ (u.chan n).state = dmaRunning ∧
          (u.chan n).bytes = 0 ∧ (u.chan n).tail = 0 ∧ (u.chan n).status = c.status ∧ (u.chan n).ctrl % 2 = 1 ∧ (u.chan n).src = c.src ∧ (u.chan n).dst = c.dst ∧
          isPending u Cmd.dmaStart n = true ∧ ∀ k, k ≠ n → u.chan k = s.chan k)) ∧
        (c.busy = true → Refuses (.dmaStart dt q) Cmd.dmaStart dt q s St.dmaBusy)) ∧
      (MemInv s → Served Cmd.dmaListWrite dt q s → 1 ≤ uAt p 1 1 → uAt p 1 1 ≤ 30 → uAt p 4 4 = 0 →
        (uAt p 2 2 + uAt p 1 1 ≤ 256 → Answers (.dmaListWrite dt q) Cmd.dmaListWrite dt q s St.ok (fun u r => r = [] ∧
          (∀ k, k < uAt p 1 1 → memRead u.mem.sram (base + 8 * (uAt p 2 2 + k)) 8 = slice p (8 + 8 * k) 8) ∧
          ∀ j, (j < base + 8 * uAt p 2 2 ∨ base + 8 * (uAt p 2 2 + uAt p 1 1) ≤ j) → memGet u.mem.sram j = memGet s.mem.sram j)) ∧
        (256 < uAt p 2 2 + uAt p 1 1 → Refuses (.dmaListWrite dt q) Cmd.dmaListWrite dt q s St.windowExceeded)) ∧
      (Served Cmd.dmaAppend dt q s → uAt p 1 3 = 0 → (c.state = dmaRunning ∨ c.state = dmaParked) → c.isOpen = true →
        Answers (.dmaAppend dt q) Cmd.dmaAppend dt q s St.ok (fun u r => r = [] ∧
          u.chan n = { c with tail := (c.tail + 1) % 65536, state := dmaRunning })) ∧
      (Served Cmd.dmaClose dt q s → uAt p 1 3 = 0 → c.isOpen = true →
        (c.state = dmaRunning → Answers (.dmaClose dt q) Cmd.dmaClose dt q s St.ok (fun u r => r = [] ∧
          u.chan n = { c with ctrl := c.ctrl - 32 })) ∧
        (c.state = dmaParked → Answers (.dmaClose dt q) Cmd.dmaClose dt q s St.ok (fun u r => r = [] ∧
          (u.chan n).state = dmaDone ∧ (u.chan n).status = St.ok ∧ isPending u Cmd.dmaStart n = false))) ∧
      (Served Cmd.dmaAbort dt q s → uAt p 1 3 = 0 → c.busy = true →
        Answers (.dmaAbort dt q) Cmd.dmaAbort dt q s St.ok (fun u r => r = [] ∧ (u.chan n).state = dmaFailedSt ∧
          (u.chan n).status = St.dmaAborted ∧ (u.chan n).result = 0 ∧ (u.chan n).bytes = c.bytes ∧
          isPending u Cmd.dmaStart n = false))) ∧
    (c.state = dmaRunning → c.mode ≠ 0 → c.run.inSeg = false → addrDown s c.run.entryAddr = false →
      listOk s n c.list c.run.entryAddr = true → winOf s c.run.entryAddr = some .sram →
      uAt (memRead s.mem.sram c.run.entryAddr 8) 5 3 = 0 → c.retried = false → n ≠ spillCh →
      (entry.read = .failed → Runs (.dmaEntryRead dt n entry) s (fun t => t.chan n = { c with retried := true })) ∧
      (entry.read ≠ .failed → c.isOpen = true → Runs (.dmaEntryRead dt n entry) s (fun t => t.chan n = { c with state := dmaParked })) ∧
      (entry.read ≠ .failed → c.isOpen = false → Runs (.dmaEntryRead dt n entry) s (fun t => (t.chan n).state = dmaDone ∧
        isPending t Cmd.dmaStart n = false))) ∧
    (c.state ≠ dmaRunning → Runs (.dmaEntryRead dt n entry) s (fun t => t = a) ∧
      Runs (.dmaBurst dt n data read) s (fun t => t = a)) ∧
    (c.state = dmaRunning → c.run.inSeg = true → dmaTurn a n = false → Runs (.dmaBurst dt n data read) s (fun t => t = a)) ∧
    (MemInv s → dmaTurn a n = true → n ≠ spillCh → s.dma.buffer = [] → c.state = dmaRunning → c.run.inSeg = true → c.held = false → c.retried = false → winOf s c.run.src = some .sram →
      winOf s c.run.dst = some .ddr →
      read ≠ .failed →
      Runs (.dmaBurst dt n data read) s (fun t => (t.chan n).bytes = c.bytes + min 256 c.run.left ∧
        t.ev.eccCorrected = (if read = .corrected then inc32 s.ev.eccCorrected else s.ev.eccCorrected) ∧
        memRead t.mem.ddr (c.run.dst - 0x100000000) (min 256 c.run.left) = memRead s.mem.sram c.run.src (min 256 c.run.left) ∧
        (∀ j, (j < c.run.dst - 0x100000000 ∨ c.run.dst - 0x100000000 + min 256 c.run.left ≤ j) →
          memGet t.mem.ddr j = memGet s.mem.ddr j) ∧
        (256 < c.run.left → (t.chan n).state = dmaRunning ∧ (t.chan n).run.left = c.run.left - 256))) ∧
    (dmaTurn a n = true → c.state = dmaRunning → c.run.inSeg = true → c.held = false → winOf s c.run.src = some .sram →
      winOf s c.run.dst = some .ddr →
      (c.retried = false → Runs (.dmaBurst dt n data .failed) s (fun t => t.chan n = { c with retried := true } ∧ t.mem = s.mem)) ∧
      (c.retried = true → Runs (.dmaBurst dt n data .failed) s (fun t => (t.chan n).state = dmaFailedSt ∧
        (t.chan n).status = St.dmaReadError ∧ t.ev.raised.contains Ev.eccDouble = true)))

/-! ### Shavings, truing and the JTAG port (R608 to R636, R695) -/

/-- R608 to R616: SHAVINGS_FREEZE freezes the record, and its commit writes it to its slot. -/
def Obligations.ShavingsFreezeAndCommit : Prop :=
  ∀ (s : State) (dt o x : Nat) (f : Freeze) (q : Request),
    let a := advance dt s
    (Served Cmd.shavingsFreeze dt q s →
      Answers (.shavingsFreeze dt q) Cmd.shavingsFreeze dt q s St.pend (fun u p => p = [] ∧ isPending u Cmd.shavingsFreeze 0 = true ∧
        (s.ev.freeze = none → ∃ c, u.ev.freeze = some c ∧ c.trigger = 6 ∧ c.stamp = stampOf Cmd.shavingsFreeze dt q s ∧
          c.records = s.ev.records.filter (fun e => Nat.ble e.stamp c.stamp) ∧
          c.rows = s.ev.rows.filter (fun e => Nat.ble e.stamp c.stamp)))) ∧
    (s.ev.freeze = some f → f.begins ≤ nowNs a → (tget s.host.evRoute 0 Ev.shavingsCommitted).toNat % 4 ≠ 3 →
      Runs (.shavingsCommitDone dt) s (fun t => t.ev.freeze = none ∧ isPending t Cmd.shavingsFreeze 0 = false ∧
        t.ev.raised.contains Ev.shavingsCommitted = true ∧
        (o < 589824 → memGet t.mem.mram (slotBase f.slot + o) = ((slotBytes f)[o]?).getD 0) ∧
        ((x < slotBase f.slot ∨ slotBase f.slot + 589824 ≤ x) → memGet t.mem.mram x = memGet s.mem.mram x))) ∧
    (s.ev.freeze = some f → nowNs a < f.begins → Runs (.shavingsCommitDone dt) s (fun t => t = a)) ∧
    (s.ev.freeze = none → Runs (.shavingsCommitDone dt) s (fun t => t = a))

/-- R626 to R636, R695: truing passes, the core voltage, and the boundary scan. -/
def Obligations.TruingAndBoundaryScan : Prop :=
  ∀ (s : State) (dt mv goal t0 : Nat) (retried : Bool) (r : TruingReadings) (cells : List (Nat × Bool)) (instr : JtagInstr) (c : PendCmd) (q : Request),
    let a := advance dt s
    let b := stressSync a
    let drive := cells.filter (fun c => !observeOnly c.1)
    (Served Cmd.truingRun dt q s →
      Answers (.truingRun dt q) Cmd.truingRun dt q s St.pend (fun u p => p = [] ∧ isPending u Cmd.truingRun 0 = true ∧
        u.tru.running = true ∧ (s.tru.running = true → u.tru = s.tru) ∧ (s.tru.running = false → u.tru.startedAt = a.time.now))) ∧
    (s.tru.running = false → 2 ≤ modeCode s.dev.mode → s.tru.lastEnd + passGap s ≤ a.time.now →
      Runs (.truingPassStart dt) s (fun t => t.tru.running = true ∧ t.tru.lanesOnly = false ∧ t.tru.startedAt = a.time.now)) ∧
    (s.tru.running = true → Runs (.truingPassStart dt) s (fun t => t = a)) ∧
    (s.tru.running = true → passOver b = true →
      Runs (.truingPassEnd dt r) s (fun t => t.tru.running = false ∧ t.tru.passes = inc32 s.tru.passes ∧ t.tru.lastEnd = a.time.now ∧
        isPending t Cmd.truingRun 0 = false ∧ t.ev.raised.contains Ev.truingDone = true ∧
        (s.tru.lanesOnly = true → t.tru.cause = 0 ∧ t.tru.derating = s.tru.derating) ∧
        (s.tru.lanesOnly = false → stressDone b = false → t.tru.cause = 2 ∧ t.tru.derating = s.tru.derating) ∧
        (s.tru.lanesOnly = false → stressDone b = true → r.voltageConfirmed = true → s.plan.active = none →
          s.plan.armed = none → s.cyc.running = false → t.tru.cause = 0 ∧ t.tru.mvConfirmed = passVoltage s r ∧
          t.tru.derating = passDerating s.tru.guard (hourTransients a) (largestStretch s r)))) ∧
    (s.tru.running = true → passOver b = false → Runs (.truingPassEnd dt r) s (fun t => t = b)) ∧
    (s.tru.running = true → powered a = true → parN s Par.pfailSource 0 = 0 →
      Runs (.powerFail dt true) s (fun t => t.tru.running = false ∧ t.tru.cause = 3 ∧ t.tru.derating = s.tru.derating ∧
        t.ev.raised.contains Ev.truingDone = true)) ∧
    (MemInv s → s.tru.running = true → passOver b = true → s.plan.armed = none → s.dev.mbReady = true → s.host.notices = [] → rspFree s 7 = true →
      s.pend.filter (fun x => x.code == Cmd.truingRun && x.key == 0) = [c] →
      Runs (.truingPassEnd dt r) s (fun t => (t.mbox 7).rspTail = (s.mbox 7).rspTail + 1 ∧
        memRead t.mem.sram (rspRing 7 + 256 * ((s.mbox 7).rspTail.toNat % 64)) 4 = b16 Cmd.truingRun ++ b16 c.tag)) ∧
    (s.tru.running = false → Runs (.truingPassEnd dt r) s (fun t => t = b)) ∧
    (s.tru.step = some (goal, t0, retried) → t0 + 1000000 * nsU ≤ a.time.now →
      ((mv ≤ goal + 10 ∧ goal ≤ mv + 10) → Runs (.avsReadback dt mv) s (fun t => t.tru.mvConfirmed = goal ∧ t.tru.mvRead = mv ∧
        t.tru.step = none)) ∧
      (goal + 10 < mv → retried = false → Runs (.avsReadback dt mv) s (fun t => t.tru.step = some (goal, a.time.now, true) ∧
        t.tru.mvConfirmed = s.tru.mvConfirmed)) ∧
      (goal + 10 < mv → retried = true → Runs (.avsReadback dt mv) s (fun t => t.tru.step = none ∧
        t.tru.mvReq = s.tru.mvConfirmed ∧ t.ev.raised.contains Ev.avsFault = true))) ∧
    (s.tru.step = none → Runs (.avsReadback dt mv) s (fun t => t = a)) ∧
    (s.dev.mode ≠ .off → s.dev.mode ≠ .standby →
      Runs (.boundaryScanInstruction dt instr cells) s (fun t => t.jtag.instr = instr ∧ t.mem = s.mem ∧
        (instr = .samplePreload → t.jtag.sampled = cells) ∧
        ((instr = .bypass ∨ instr = .idcode) → t.jtag.driven = s.jtag.driven ∧ t.drivenBalls = []) ∧
        ((instr = .extest ∨ instr = .clamp) → t.drivenBalls = if s.power.resetLow then drive else []))) ∧
    (s.dev.mode = .off → Runs (.boundaryScanInstruction dt instr cells) s (fun t => t = a))
end

