-- ==== Sys2Proof/Laws/State.lean ====
section
/-! SUPPORT. What an update of State leaves unchanged: one lemma per field and update, so that no proof unfolds a record update. -/

namespace Sys2Proof.Machine

variable (s : State)

/-! ### `onAxis` -/

@[simp] theorem State.onAxis_board (a : Nat) (f : Axis → Axis) : (s.onAxis a f).board = s.board := rfl
@[simp] theorem State.onAxis_dev (a : Nat) (f : Axis → Axis) : (s.onAxis a f).dev = s.dev := rfl
@[simp] theorem State.onAxis_host (a : Nat) (f : Axis → Axis) : (s.onAxis a f).host = s.host := rfl
@[simp] theorem State.onAxis_par (a : Nat) (f : Axis → Axis) : (s.onAxis a f).par = s.par := rfl
@[simp] theorem State.onAxis_plan (a : Nat) (f : Axis → Axis) : (s.onAxis a f).plan = s.plan := rfl
@[simp] theorem State.onAxis_cyc (a : Nat) (f : Axis → Axis) : (s.onAxis a f).cyc = s.cyc := rfl
@[simp] theorem State.onAxis_rings (a : Nat) (f : Axis → Axis) : (s.onAxis a f).rings = s.rings := rfl
@[simp] theorem State.onAxis_groups (a : Nat) (f : Axis → Axis) : (s.onAxis a f).groups = s.groups := rfl
@[simp] theorem State.onAxis_disp (a : Nat) (f : Axis → Axis) : (s.onAxis a f).disp = s.disp := rfl
@[simp] theorem State.onAxis_pwm (a : Nat) (f : Axis → Axis) : (s.onAxis a f).pwm = s.pwm := rfl
@[simp] theorem State.onAxis_loc (a : Nat) (f : Axis → Axis) : (s.onAxis a f).loc = s.loc := rfl
@[simp] theorem State.onAxis_time (a : Nat) (f : Axis → Axis) : (s.onAxis a f).time = s.time := rfl
@[simp] theorem State.onAxis_cal (a : Nat) (f : Axis → Axis) : (s.onAxis a f).cal = s.cal := rfl
@[simp] theorem State.onAxis_dma (a : Nat) (f : Axis → Axis) : (s.onAxis a f).dma = s.dma := rfl
@[simp] theorem State.onAxis_safe (a : Nat) (f : Axis → Axis) : (s.onAxis a f).safe = s.safe := rfl
@[simp] theorem State.onAxis_pair (a : Nat) (f : Axis → Axis) : (s.onAxis a f).pair = s.pair := rfl
@[simp] theorem State.onAxis_ev (a : Nat) (f : Axis → Axis) : (s.onAxis a f).ev = s.ev := rfl
@[simp] theorem State.onAxis_tru (a : Nat) (f : Axis → Axis) : (s.onAxis a f).tru = s.tru := rfl
@[simp] theorem State.onAxis_power (a : Nat) (f : Axis → Axis) : (s.onAxis a f).power = s.power := rfl
@[simp] theorem State.onAxis_jtag (a : Nat) (f : Axis → Axis) : (s.onAxis a f).jtag = s.jtag := rfl
@[simp] theorem State.onAxis_mem (a : Nat) (f : Axis → Axis) : (s.onAxis a f).mem = s.mem := rfl
@[simp] theorem State.onAxis_pend (a : Nat) (f : Axis → Axis) : (s.onAxis a f).pend = s.pend := rfl
@[simp] theorem State.onAxis_free (a : Nat) (f : Axis → Axis) : (s.onAxis a f).free = s.free := rfl
@[simp] theorem State.onAxis_pending (a : Nat) (f : Axis → Axis) : (s.onAxis a f).pending = s.pending := rfl

/-! ### `onRing` -/

@[simp] theorem State.onRing_board (r : Nat) (f : Ring → Ring) : (s.onRing r f).board = s.board := rfl
@[simp] theorem State.onRing_dev (r : Nat) (f : Ring → Ring) : (s.onRing r f).dev = s.dev := rfl
@[simp] theorem State.onRing_host (r : Nat) (f : Ring → Ring) : (s.onRing r f).host = s.host := rfl
@[simp] theorem State.onRing_par (r : Nat) (f : Ring → Ring) : (s.onRing r f).par = s.par := rfl
@[simp] theorem State.onRing_plan (r : Nat) (f : Ring → Ring) : (s.onRing r f).plan = s.plan := rfl
@[simp] theorem State.onRing_cyc (r : Nat) (f : Ring → Ring) : (s.onRing r f).cyc = s.cyc := rfl
@[simp] theorem State.onRing_axes (r : Nat) (f : Ring → Ring) : (s.onRing r f).axes = s.axes := rfl
@[simp] theorem State.onRing_groups (r : Nat) (f : Ring → Ring) : (s.onRing r f).groups = s.groups := rfl
@[simp] theorem State.onRing_disp (r : Nat) (f : Ring → Ring) : (s.onRing r f).disp = s.disp := rfl
@[simp] theorem State.onRing_pwm (r : Nat) (f : Ring → Ring) : (s.onRing r f).pwm = s.pwm := rfl
@[simp] theorem State.onRing_loc (r : Nat) (f : Ring → Ring) : (s.onRing r f).loc = s.loc := rfl
@[simp] theorem State.onRing_time (r : Nat) (f : Ring → Ring) : (s.onRing r f).time = s.time := rfl
@[simp] theorem State.onRing_cal (r : Nat) (f : Ring → Ring) : (s.onRing r f).cal = s.cal := rfl
@[simp] theorem State.onRing_dma (r : Nat) (f : Ring → Ring) : (s.onRing r f).dma = s.dma := rfl
@[simp] theorem State.onRing_safe (r : Nat) (f : Ring → Ring) : (s.onRing r f).safe = s.safe := rfl
@[simp] theorem State.onRing_pair (r : Nat) (f : Ring → Ring) : (s.onRing r f).pair = s.pair := rfl
@[simp] theorem State.onRing_ev (r : Nat) (f : Ring → Ring) : (s.onRing r f).ev = s.ev := rfl
@[simp] theorem State.onRing_tru (r : Nat) (f : Ring → Ring) : (s.onRing r f).tru = s.tru := rfl
@[simp] theorem State.onRing_power (r : Nat) (f : Ring → Ring) : (s.onRing r f).power = s.power := rfl
@[simp] theorem State.onRing_jtag (r : Nat) (f : Ring → Ring) : (s.onRing r f).jtag = s.jtag := rfl
@[simp] theorem State.onRing_mem (r : Nat) (f : Ring → Ring) : (s.onRing r f).mem = s.mem := rfl
@[simp] theorem State.onRing_pend (r : Nat) (f : Ring → Ring) : (s.onRing r f).pend = s.pend := rfl
@[simp] theorem State.onRing_free (r : Nat) (f : Ring → Ring) : (s.onRing r f).free = s.free := rfl
@[simp] theorem State.onRing_pending (r : Nat) (f : Ring → Ring) : (s.onRing r f).pending = s.pending := rfl

/-! ### `onNode` -/

@[simp] theorem State.onNode_board (r p : Nat) (f : Node → Node) : (s.onNode r p f).board = s.board := rfl
@[simp] theorem State.onNode_dev (r p : Nat) (f : Node → Node) : (s.onNode r p f).dev = s.dev := rfl
@[simp] theorem State.onNode_host (r p : Nat) (f : Node → Node) : (s.onNode r p f).host = s.host := rfl
@[simp] theorem State.onNode_par (r p : Nat) (f : Node → Node) : (s.onNode r p f).par = s.par := rfl
@[simp] theorem State.onNode_plan (r p : Nat) (f : Node → Node) : (s.onNode r p f).plan = s.plan := rfl
@[simp] theorem State.onNode_cyc (r p : Nat) (f : Node → Node) : (s.onNode r p f).cyc = s.cyc := rfl
@[simp] theorem State.onNode_axes (r p : Nat) (f : Node → Node) : (s.onNode r p f).axes = s.axes := rfl
@[simp] theorem State.onNode_groups (r p : Nat) (f : Node → Node) : (s.onNode r p f).groups = s.groups := rfl
@[simp] theorem State.onNode_disp (r p : Nat) (f : Node → Node) : (s.onNode r p f).disp = s.disp := rfl
@[simp] theorem State.onNode_pwm (r p : Nat) (f : Node → Node) : (s.onNode r p f).pwm = s.pwm := rfl
@[simp] theorem State.onNode_loc (r p : Nat) (f : Node → Node) : (s.onNode r p f).loc = s.loc := rfl
@[simp] theorem State.onNode_time (r p : Nat) (f : Node → Node) : (s.onNode r p f).time = s.time := rfl
@[simp] theorem State.onNode_cal (r p : Nat) (f : Node → Node) : (s.onNode r p f).cal = s.cal := rfl
@[simp] theorem State.onNode_dma (r p : Nat) (f : Node → Node) : (s.onNode r p f).dma = s.dma := rfl
@[simp] theorem State.onNode_safe (r p : Nat) (f : Node → Node) : (s.onNode r p f).safe = s.safe := rfl
@[simp] theorem State.onNode_pair (r p : Nat) (f : Node → Node) : (s.onNode r p f).pair = s.pair := rfl
@[simp] theorem State.onNode_ev (r p : Nat) (f : Node → Node) : (s.onNode r p f).ev = s.ev := rfl
@[simp] theorem State.onNode_tru (r p : Nat) (f : Node → Node) : (s.onNode r p f).tru = s.tru := rfl
@[simp] theorem State.onNode_power (r p : Nat) (f : Node → Node) : (s.onNode r p f).power = s.power := rfl
@[simp] theorem State.onNode_jtag (r p : Nat) (f : Node → Node) : (s.onNode r p f).jtag = s.jtag := rfl
@[simp] theorem State.onNode_mem (r p : Nat) (f : Node → Node) : (s.onNode r p f).mem = s.mem := rfl
@[simp] theorem State.onNode_pend (r p : Nat) (f : Node → Node) : (s.onNode r p f).pend = s.pend := rfl
@[simp] theorem State.onNode_free (r p : Nat) (f : Node → Node) : (s.onNode r p f).free = s.free := rfl
@[simp] theorem State.onNode_pending (r p : Nat) (f : Node → Node) : (s.onNode r p f).pending = s.pending := rfl

/-! ### `onEngine` -/

@[simp] theorem State.onEngine_board (e : Nat) (f : Engine → Engine) : (s.onEngine e f).board = s.board := rfl
@[simp] theorem State.onEngine_dev (e : Nat) (f : Engine → Engine) : (s.onEngine e f).dev = s.dev := rfl
@[simp] theorem State.onEngine_host (e : Nat) (f : Engine → Engine) : (s.onEngine e f).host = s.host := rfl
@[simp] theorem State.onEngine_par (e : Nat) (f : Engine → Engine) : (s.onEngine e f).par = s.par := rfl
@[simp] theorem State.onEngine_plan (e : Nat) (f : Engine → Engine) : (s.onEngine e f).plan = s.plan := rfl
@[simp] theorem State.onEngine_cyc (e : Nat) (f : Engine → Engine) : (s.onEngine e f).cyc = s.cyc := rfl
@[simp] theorem State.onEngine_rings (e : Nat) (f : Engine → Engine) : (s.onEngine e f).rings = s.rings := rfl
@[simp] theorem State.onEngine_axes (e : Nat) (f : Engine → Engine) : (s.onEngine e f).axes = s.axes := rfl
@[simp] theorem State.onEngine_groups (e : Nat) (f : Engine → Engine) : (s.onEngine e f).groups = s.groups := rfl
@[simp] theorem State.onEngine_pwm (e : Nat) (f : Engine → Engine) : (s.onEngine e f).pwm = s.pwm := rfl
@[simp] theorem State.onEngine_loc (e : Nat) (f : Engine → Engine) : (s.onEngine e f).loc = s.loc := rfl
@[simp] theorem State.onEngine_time (e : Nat) (f : Engine → Engine) : (s.onEngine e f).time = s.time := rfl
@[simp] theorem State.onEngine_cal (e : Nat) (f : Engine → Engine) : (s.onEngine e f).cal = s.cal := rfl
@[simp] theorem State.onEngine_dma (e : Nat) (f : Engine → Engine) : (s.onEngine e f).dma = s.dma := rfl
@[simp] theorem State.onEngine_safe (e : Nat) (f : Engine → Engine) : (s.onEngine e f).safe = s.safe := rfl
@[simp] theorem State.onEngine_pair (e : Nat) (f : Engine → Engine) : (s.onEngine e f).pair = s.pair := rfl
@[simp] theorem State.onEngine_ev (e : Nat) (f : Engine → Engine) : (s.onEngine e f).ev = s.ev := rfl
@[simp] theorem State.onEngine_tru (e : Nat) (f : Engine → Engine) : (s.onEngine e f).tru = s.tru := rfl
@[simp] theorem State.onEngine_power (e : Nat) (f : Engine → Engine) : (s.onEngine e f).power = s.power := rfl
@[simp] theorem State.onEngine_jtag (e : Nat) (f : Engine → Engine) : (s.onEngine e f).jtag = s.jtag := rfl
@[simp] theorem State.onEngine_mem (e : Nat) (f : Engine → Engine) : (s.onEngine e f).mem = s.mem := rfl
@[simp] theorem State.onEngine_pend (e : Nat) (f : Engine → Engine) : (s.onEngine e f).pend = s.pend := rfl
@[simp] theorem State.onEngine_free (e : Nat) (f : Engine → Engine) : (s.onEngine e f).free = s.free := rfl
@[simp] theorem State.onEngine_pending (e : Nat) (f : Engine → Engine) : (s.onEngine e f).pending = s.pending := rfl

/-! ### `onFlow` -/

@[simp] theorem State.onFlow_board (k : Nat) (f : Flow → Flow) : (s.onFlow k f).board = s.board := rfl
@[simp] theorem State.onFlow_dev (k : Nat) (f : Flow → Flow) : (s.onFlow k f).dev = s.dev := rfl
@[simp] theorem State.onFlow_host (k : Nat) (f : Flow → Flow) : (s.onFlow k f).host = s.host := rfl
@[simp] theorem State.onFlow_par (k : Nat) (f : Flow → Flow) : (s.onFlow k f).par = s.par := rfl
@[simp] theorem State.onFlow_plan (k : Nat) (f : Flow → Flow) : (s.onFlow k f).plan = s.plan := rfl
@[simp] theorem State.onFlow_cyc (k : Nat) (f : Flow → Flow) : (s.onFlow k f).cyc = s.cyc := rfl
@[simp] theorem State.onFlow_rings (k : Nat) (f : Flow → Flow) : (s.onFlow k f).rings = s.rings := rfl
@[simp] theorem State.onFlow_axes (k : Nat) (f : Flow → Flow) : (s.onFlow k f).axes = s.axes := rfl
@[simp] theorem State.onFlow_groups (k : Nat) (f : Flow → Flow) : (s.onFlow k f).groups = s.groups := rfl
@[simp] theorem State.onFlow_pwm (k : Nat) (f : Flow → Flow) : (s.onFlow k f).pwm = s.pwm := rfl
@[simp] theorem State.onFlow_loc (k : Nat) (f : Flow → Flow) : (s.onFlow k f).loc = s.loc := rfl
@[simp] theorem State.onFlow_time (k : Nat) (f : Flow → Flow) : (s.onFlow k f).time = s.time := rfl
@[simp] theorem State.onFlow_cal (k : Nat) (f : Flow → Flow) : (s.onFlow k f).cal = s.cal := rfl
@[simp] theorem State.onFlow_dma (k : Nat) (f : Flow → Flow) : (s.onFlow k f).dma = s.dma := rfl
@[simp] theorem State.onFlow_safe (k : Nat) (f : Flow → Flow) : (s.onFlow k f).safe = s.safe := rfl
@[simp] theorem State.onFlow_pair (k : Nat) (f : Flow → Flow) : (s.onFlow k f).pair = s.pair := rfl
@[simp] theorem State.onFlow_ev (k : Nat) (f : Flow → Flow) : (s.onFlow k f).ev = s.ev := rfl
@[simp] theorem State.onFlow_tru (k : Nat) (f : Flow → Flow) : (s.onFlow k f).tru = s.tru := rfl
@[simp] theorem State.onFlow_power (k : Nat) (f : Flow → Flow) : (s.onFlow k f).power = s.power := rfl
@[simp] theorem State.onFlow_jtag (k : Nat) (f : Flow → Flow) : (s.onFlow k f).jtag = s.jtag := rfl
@[simp] theorem State.onFlow_mem (k : Nat) (f : Flow → Flow) : (s.onFlow k f).mem = s.mem := rfl
@[simp] theorem State.onFlow_pend (k : Nat) (f : Flow → Flow) : (s.onFlow k f).pend = s.pend := rfl
@[simp] theorem State.onFlow_free (k : Nat) (f : Flow → Flow) : (s.onFlow k f).free = s.free := rfl
@[simp] theorem State.onFlow_pending (k : Nat) (f : Flow → Flow) : (s.onFlow k f).pending = s.pending := rfl

/-! ### `onLevel` -/

@[simp] theorem State.onLevel_board (l : Nat) (f : List Nat → List Nat) : (s.onLevel l f).board = s.board := rfl
@[simp] theorem State.onLevel_dev (l : Nat) (f : List Nat → List Nat) : (s.onLevel l f).dev = s.dev := rfl
@[simp] theorem State.onLevel_host (l : Nat) (f : List Nat → List Nat) : (s.onLevel l f).host = s.host := rfl
@[simp] theorem State.onLevel_par (l : Nat) (f : List Nat → List Nat) : (s.onLevel l f).par = s.par := rfl
@[simp] theorem State.onLevel_plan (l : Nat) (f : List Nat → List Nat) : (s.onLevel l f).plan = s.plan := rfl
@[simp] theorem State.onLevel_cyc (l : Nat) (f : List Nat → List Nat) : (s.onLevel l f).cyc = s.cyc := rfl
@[simp] theorem State.onLevel_rings (l : Nat) (f : List Nat → List Nat) : (s.onLevel l f).rings = s.rings := rfl
@[simp] theorem State.onLevel_axes (l : Nat) (f : List Nat → List Nat) : (s.onLevel l f).axes = s.axes := rfl
@[simp] theorem State.onLevel_groups (l : Nat) (f : List Nat → List Nat) : (s.onLevel l f).groups = s.groups := rfl
@[simp] theorem State.onLevel_pwm (l : Nat) (f : List Nat → List Nat) : (s.onLevel l f).pwm = s.pwm := rfl
@[simp] theorem State.onLevel_loc (l : Nat) (f : List Nat → List Nat) : (s.onLevel l f).loc = s.loc := rfl
@[simp] theorem State.onLevel_time (l : Nat) (f : List Nat → List Nat) : (s.onLevel l f).time = s.time := rfl
@[simp] theorem State.onLevel_cal (l : Nat) (f : List Nat → List Nat) : (s.onLevel l f).cal = s.cal := rfl
@[simp] theorem State.onLevel_dma (l : Nat) (f : List Nat → List Nat) : (s.onLevel l f).dma = s.dma := rfl
@[simp] theorem State.onLevel_safe (l : Nat) (f : List Nat → List Nat) : (s.onLevel l f).safe = s.safe := rfl
@[simp] theorem State.onLevel_pair (l : Nat) (f : List Nat → List Nat) : (s.onLevel l f).pair = s.pair := rfl
@[simp] theorem State.onLevel_ev (l : Nat) (f : List Nat → List Nat) : (s.onLevel l f).ev = s.ev := rfl
@[simp] theorem State.onLevel_tru (l : Nat) (f : List Nat → List Nat) : (s.onLevel l f).tru = s.tru := rfl
@[simp] theorem State.onLevel_power (l : Nat) (f : List Nat → List Nat) : (s.onLevel l f).power = s.power := rfl
@[simp] theorem State.onLevel_jtag (l : Nat) (f : List Nat → List Nat) : (s.onLevel l f).jtag = s.jtag := rfl
@[simp] theorem State.onLevel_mem (l : Nat) (f : List Nat → List Nat) : (s.onLevel l f).mem = s.mem := rfl
@[simp] theorem State.onLevel_pend (l : Nat) (f : List Nat → List Nat) : (s.onLevel l f).pend = s.pend := rfl
@[simp] theorem State.onLevel_free (l : Nat) (f : List Nat → List Nat) : (s.onLevel l f).free = s.free := rfl
@[simp] theorem State.onLevel_pending (l : Nat) (f : List Nat → List Nat) : (s.onLevel l f).pending = s.pending := rfl

/-! ### `onTask` -/

@[simp] theorem State.onTask_board (i : Nat) (f : TaskSt → TaskSt) : (s.onTask i f).board = s.board := rfl
@[simp] theorem State.onTask_dev (i : Nat) (f : TaskSt → TaskSt) : (s.onTask i f).dev = s.dev := rfl
@[simp] theorem State.onTask_host (i : Nat) (f : TaskSt → TaskSt) : (s.onTask i f).host = s.host := rfl
@[simp] theorem State.onTask_par (i : Nat) (f : TaskSt → TaskSt) : (s.onTask i f).par = s.par := rfl
@[simp] theorem State.onTask_plan (i : Nat) (f : TaskSt → TaskSt) : (s.onTask i f).plan = s.plan := rfl
@[simp] theorem State.onTask_rings (i : Nat) (f : TaskSt → TaskSt) : (s.onTask i f).rings = s.rings := rfl
@[simp] theorem State.onTask_axes (i : Nat) (f : TaskSt → TaskSt) : (s.onTask i f).axes = s.axes := rfl
@[simp] theorem State.onTask_groups (i : Nat) (f : TaskSt → TaskSt) : (s.onTask i f).groups = s.groups := rfl
@[simp] theorem State.onTask_disp (i : Nat) (f : TaskSt → TaskSt) : (s.onTask i f).disp = s.disp := rfl
@[simp] theorem State.onTask_pwm (i : Nat) (f : TaskSt → TaskSt) : (s.onTask i f).pwm = s.pwm := rfl
@[simp] theorem State.onTask_loc (i : Nat) (f : TaskSt → TaskSt) : (s.onTask i f).loc = s.loc := rfl
@[simp] theorem State.onTask_time (i : Nat) (f : TaskSt → TaskSt) : (s.onTask i f).time = s.time := rfl
@[simp] theorem State.onTask_cal (i : Nat) (f : TaskSt → TaskSt) : (s.onTask i f).cal = s.cal := rfl
@[simp] theorem State.onTask_dma (i : Nat) (f : TaskSt → TaskSt) : (s.onTask i f).dma = s.dma := rfl
@[simp] theorem State.onTask_safe (i : Nat) (f : TaskSt → TaskSt) : (s.onTask i f).safe = s.safe := rfl
@[simp] theorem State.onTask_pair (i : Nat) (f : TaskSt → TaskSt) : (s.onTask i f).pair = s.pair := rfl
@[simp] theorem State.onTask_ev (i : Nat) (f : TaskSt → TaskSt) : (s.onTask i f).ev = s.ev := rfl
@[simp] theorem State.onTask_tru (i : Nat) (f : TaskSt → TaskSt) : (s.onTask i f).tru = s.tru := rfl
@[simp] theorem State.onTask_power (i : Nat) (f : TaskSt → TaskSt) : (s.onTask i f).power = s.power := rfl
@[simp] theorem State.onTask_jtag (i : Nat) (f : TaskSt → TaskSt) : (s.onTask i f).jtag = s.jtag := rfl
@[simp] theorem State.onTask_mem (i : Nat) (f : TaskSt → TaskSt) : (s.onTask i f).mem = s.mem := rfl
@[simp] theorem State.onTask_pend (i : Nat) (f : TaskSt → TaskSt) : (s.onTask i f).pend = s.pend := rfl
@[simp] theorem State.onTask_free (i : Nat) (f : TaskSt → TaskSt) : (s.onTask i f).free = s.free := rfl
@[simp] theorem State.onTask_pending (i : Nat) (f : TaskSt → TaskSt) : (s.onTask i f).pending = s.pending := rfl

/-! ### `onLong` -/

@[simp] theorem State.onLong_board (i : Nat) (f : TaskLong → TaskLong) : (s.onLong i f).board = s.board := rfl
@[simp] theorem State.onLong_dev (i : Nat) (f : TaskLong → TaskLong) : (s.onLong i f).dev = s.dev := rfl
@[simp] theorem State.onLong_host (i : Nat) (f : TaskLong → TaskLong) : (s.onLong i f).host = s.host := rfl
@[simp] theorem State.onLong_par (i : Nat) (f : TaskLong → TaskLong) : (s.onLong i f).par = s.par := rfl
@[simp] theorem State.onLong_plan (i : Nat) (f : TaskLong → TaskLong) : (s.onLong i f).plan = s.plan := rfl
@[simp] theorem State.onLong_rings (i : Nat) (f : TaskLong → TaskLong) : (s.onLong i f).rings = s.rings := rfl
@[simp] theorem State.onLong_axes (i : Nat) (f : TaskLong → TaskLong) : (s.onLong i f).axes = s.axes := rfl
@[simp] theorem State.onLong_groups (i : Nat) (f : TaskLong → TaskLong) : (s.onLong i f).groups = s.groups := rfl
@[simp] theorem State.onLong_disp (i : Nat) (f : TaskLong → TaskLong) : (s.onLong i f).disp = s.disp := rfl
@[simp] theorem State.onLong_pwm (i : Nat) (f : TaskLong → TaskLong) : (s.onLong i f).pwm = s.pwm := rfl
@[simp] theorem State.onLong_loc (i : Nat) (f : TaskLong → TaskLong) : (s.onLong i f).loc = s.loc := rfl
@[simp] theorem State.onLong_time (i : Nat) (f : TaskLong → TaskLong) : (s.onLong i f).time = s.time := rfl
@[simp] theorem State.onLong_cal (i : Nat) (f : TaskLong → TaskLong) : (s.onLong i f).cal = s.cal := rfl
@[simp] theorem State.onLong_dma (i : Nat) (f : TaskLong → TaskLong) : (s.onLong i f).dma = s.dma := rfl
@[simp] theorem State.onLong_safe (i : Nat) (f : TaskLong → TaskLong) : (s.onLong i f).safe = s.safe := rfl
@[simp] theorem State.onLong_pair (i : Nat) (f : TaskLong → TaskLong) : (s.onLong i f).pair = s.pair := rfl
@[simp] theorem State.onLong_ev (i : Nat) (f : TaskLong → TaskLong) : (s.onLong i f).ev = s.ev := rfl
@[simp] theorem State.onLong_tru (i : Nat) (f : TaskLong → TaskLong) : (s.onLong i f).tru = s.tru := rfl
@[simp] theorem State.onLong_power (i : Nat) (f : TaskLong → TaskLong) : (s.onLong i f).power = s.power := rfl
@[simp] theorem State.onLong_jtag (i : Nat) (f : TaskLong → TaskLong) : (s.onLong i f).jtag = s.jtag := rfl
@[simp] theorem State.onLong_mem (i : Nat) (f : TaskLong → TaskLong) : (s.onLong i f).mem = s.mem := rfl
@[simp] theorem State.onLong_pend (i : Nat) (f : TaskLong → TaskLong) : (s.onLong i f).pend = s.pend := rfl
@[simp] theorem State.onLong_free (i : Nat) (f : TaskLong → TaskLong) : (s.onLong i f).free = s.free := rfl
@[simp] theorem State.onLong_pending (i : Nat) (f : TaskLong → TaskLong) : (s.onLong i f).pending = s.pending := rfl

/-! ### `onBundle` -/

@[simp] theorem State.onBundle_board (b : Nat) (f : BundleSt → BundleSt) : (s.onBundle b f).board = s.board := rfl
@[simp] theorem State.onBundle_dev (b : Nat) (f : BundleSt → BundleSt) : (s.onBundle b f).dev = s.dev := rfl
@[simp] theorem State.onBundle_host (b : Nat) (f : BundleSt → BundleSt) : (s.onBundle b f).host = s.host := rfl
@[simp] theorem State.onBundle_par (b : Nat) (f : BundleSt → BundleSt) : (s.onBundle b f).par = s.par := rfl
@[simp] theorem State.onBundle_plan (b : Nat) (f : BundleSt → BundleSt) : (s.onBundle b f).plan = s.plan := rfl
@[simp] theorem State.onBundle_rings (b : Nat) (f : BundleSt → BundleSt) : (s.onBundle b f).rings = s.rings := rfl
@[simp] theorem State.onBundle_axes (b : Nat) (f : BundleSt → BundleSt) : (s.onBundle b f).axes = s.axes := rfl
@[simp] theorem State.onBundle_groups (b : Nat) (f : BundleSt → BundleSt) : (s.onBundle b f).groups = s.groups := rfl
@[simp] theorem State.onBundle_disp (b : Nat) (f : BundleSt → BundleSt) : (s.onBundle b f).disp = s.disp := rfl
@[simp] theorem State.onBundle_pwm (b : Nat) (f : BundleSt → BundleSt) : (s.onBundle b f).pwm = s.pwm := rfl
@[simp] theorem State.onBundle_loc (b : Nat) (f : BundleSt → BundleSt) : (s.onBundle b f).loc = s.loc := rfl
@[simp] theorem State.onBundle_time (b : Nat) (f : BundleSt → BundleSt) : (s.onBundle b f).time = s.time := rfl
@[simp] theorem State.onBundle_cal (b : Nat) (f : BundleSt → BundleSt) : (s.onBundle b f).cal = s.cal := rfl
@[simp] theorem State.onBundle_dma (b : Nat) (f : BundleSt → BundleSt) : (s.onBundle b f).dma = s.dma := rfl
@[simp] theorem State.onBundle_safe (b : Nat) (f : BundleSt → BundleSt) : (s.onBundle b f).safe = s.safe := rfl
@[simp] theorem State.onBundle_pair (b : Nat) (f : BundleSt → BundleSt) : (s.onBundle b f).pair = s.pair := rfl
@[simp] theorem State.onBundle_ev (b : Nat) (f : BundleSt → BundleSt) : (s.onBundle b f).ev = s.ev := rfl
@[simp] theorem State.onBundle_tru (b : Nat) (f : BundleSt → BundleSt) : (s.onBundle b f).tru = s.tru := rfl
@[simp] theorem State.onBundle_power (b : Nat) (f : BundleSt → BundleSt) : (s.onBundle b f).power = s.power := rfl
@[simp] theorem State.onBundle_jtag (b : Nat) (f : BundleSt → BundleSt) : (s.onBundle b f).jtag = s.jtag := rfl
@[simp] theorem State.onBundle_mem (b : Nat) (f : BundleSt → BundleSt) : (s.onBundle b f).mem = s.mem := rfl
@[simp] theorem State.onBundle_pend (b : Nat) (f : BundleSt → BundleSt) : (s.onBundle b f).pend = s.pend := rfl
@[simp] theorem State.onBundle_free (b : Nat) (f : BundleSt → BundleSt) : (s.onBundle b f).free = s.free := rfl
@[simp] theorem State.onBundle_pending (b : Nat) (f : BundleSt → BundleSt) : (s.onBundle b f).pending = s.pending := rfl

/-! ### `onGroup` -/

@[simp] theorem State.onGroup_board (g : Nat) (f : Group → Group) : (s.onGroup g f).board = s.board := rfl
@[simp] theorem State.onGroup_dev (g : Nat) (f : Group → Group) : (s.onGroup g f).dev = s.dev := rfl
@[simp] theorem State.onGroup_host (g : Nat) (f : Group → Group) : (s.onGroup g f).host = s.host := rfl
@[simp] theorem State.onGroup_par (g : Nat) (f : Group → Group) : (s.onGroup g f).par = s.par := rfl
@[simp] theorem State.onGroup_plan (g : Nat) (f : Group → Group) : (s.onGroup g f).plan = s.plan := rfl
@[simp] theorem State.onGroup_cyc (g : Nat) (f : Group → Group) : (s.onGroup g f).cyc = s.cyc := rfl
@[simp] theorem State.onGroup_rings (g : Nat) (f : Group → Group) : (s.onGroup g f).rings = s.rings := rfl
@[simp] theorem State.onGroup_axes (g : Nat) (f : Group → Group) : (s.onGroup g f).axes = s.axes := rfl
@[simp] theorem State.onGroup_disp (g : Nat) (f : Group → Group) : (s.onGroup g f).disp = s.disp := rfl
@[simp] theorem State.onGroup_pwm (g : Nat) (f : Group → Group) : (s.onGroup g f).pwm = s.pwm := rfl
@[simp] theorem State.onGroup_loc (g : Nat) (f : Group → Group) : (s.onGroup g f).loc = s.loc := rfl
@[simp] theorem State.onGroup_time (g : Nat) (f : Group → Group) : (s.onGroup g f).time = s.time := rfl
@[simp] theorem State.onGroup_cal (g : Nat) (f : Group → Group) : (s.onGroup g f).cal = s.cal := rfl
@[simp] theorem State.onGroup_dma (g : Nat) (f : Group → Group) : (s.onGroup g f).dma = s.dma := rfl
@[simp] theorem State.onGroup_safe (g : Nat) (f : Group → Group) : (s.onGroup g f).safe = s.safe := rfl
@[simp] theorem State.onGroup_pair (g : Nat) (f : Group → Group) : (s.onGroup g f).pair = s.pair := rfl
@[simp] theorem State.onGroup_ev (g : Nat) (f : Group → Group) : (s.onGroup g f).ev = s.ev := rfl
@[simp] theorem State.onGroup_tru (g : Nat) (f : Group → Group) : (s.onGroup g f).tru = s.tru := rfl
@[simp] theorem State.onGroup_power (g : Nat) (f : Group → Group) : (s.onGroup g f).power = s.power := rfl
@[simp] theorem State.onGroup_jtag (g : Nat) (f : Group → Group) : (s.onGroup g f).jtag = s.jtag := rfl
@[simp] theorem State.onGroup_mem (g : Nat) (f : Group → Group) : (s.onGroup g f).mem = s.mem := rfl
@[simp] theorem State.onGroup_pend (g : Nat) (f : Group → Group) : (s.onGroup g f).pend = s.pend := rfl
@[simp] theorem State.onGroup_free (g : Nat) (f : Group → Group) : (s.onGroup g f).free = s.free := rfl
@[simp] theorem State.onGroup_pending (g : Nat) (f : Group → Group) : (s.onGroup g f).pending = s.pending := rfl

/-! ### `onMbox` -/

@[simp] theorem State.onMbox_board (m : Nat) (f : RingRegs → RingRegs) : (s.onMbox m f).board = s.board := rfl
@[simp] theorem State.onMbox_dev (m : Nat) (f : RingRegs → RingRegs) : (s.onMbox m f).dev = s.dev := rfl
@[simp] theorem State.onMbox_par (m : Nat) (f : RingRegs → RingRegs) : (s.onMbox m f).par = s.par := rfl
@[simp] theorem State.onMbox_plan (m : Nat) (f : RingRegs → RingRegs) : (s.onMbox m f).plan = s.plan := rfl
@[simp] theorem State.onMbox_cyc (m : Nat) (f : RingRegs → RingRegs) : (s.onMbox m f).cyc = s.cyc := rfl
@[simp] theorem State.onMbox_rings (m : Nat) (f : RingRegs → RingRegs) : (s.onMbox m f).rings = s.rings := rfl
@[simp] theorem State.onMbox_axes (m : Nat) (f : RingRegs → RingRegs) : (s.onMbox m f).axes = s.axes := rfl
@[simp] theorem State.onMbox_groups (m : Nat) (f : RingRegs → RingRegs) : (s.onMbox m f).groups = s.groups := rfl
@[simp] theorem State.onMbox_disp (m : Nat) (f : RingRegs → RingRegs) : (s.onMbox m f).disp = s.disp := rfl
@[simp] theorem State.onMbox_pwm (m : Nat) (f : RingRegs → RingRegs) : (s.onMbox m f).pwm = s.pwm := rfl
@[simp] theorem State.onMbox_loc (m : Nat) (f : RingRegs → RingRegs) : (s.onMbox m f).loc = s.loc := rfl
@[simp] theorem State.onMbox_time (m : Nat) (f : RingRegs → RingRegs) : (s.onMbox m f).time = s.time := rfl
@[simp] theorem State.onMbox_cal (m : Nat) (f : RingRegs → RingRegs) : (s.onMbox m f).cal = s.cal := rfl
@[simp] theorem State.onMbox_dma (m : Nat) (f : RingRegs → RingRegs) : (s.onMbox m f).dma = s.dma := rfl
@[simp] theorem State.onMbox_safe (m : Nat) (f : RingRegs → RingRegs) : (s.onMbox m f).safe = s.safe := rfl
@[simp] theorem State.onMbox_pair (m : Nat) (f : RingRegs → RingRegs) : (s.onMbox m f).pair = s.pair := rfl
@[simp] theorem State.onMbox_ev (m : Nat) (f : RingRegs → RingRegs) : (s.onMbox m f).ev = s.ev := rfl
@[simp] theorem State.onMbox_tru (m : Nat) (f : RingRegs → RingRegs) : (s.onMbox m f).tru = s.tru := rfl
@[simp] theorem State.onMbox_power (m : Nat) (f : RingRegs → RingRegs) : (s.onMbox m f).power = s.power := rfl
@[simp] theorem State.onMbox_jtag (m : Nat) (f : RingRegs → RingRegs) : (s.onMbox m f).jtag = s.jtag := rfl
@[simp] theorem State.onMbox_mem (m : Nat) (f : RingRegs → RingRegs) : (s.onMbox m f).mem = s.mem := rfl
@[simp] theorem State.onMbox_pend (m : Nat) (f : RingRegs → RingRegs) : (s.onMbox m f).pend = s.pend := rfl
@[simp] theorem State.onMbox_free (m : Nat) (f : RingRegs → RingRegs) : (s.onMbox m f).free = s.free := rfl
@[simp] theorem State.onMbox_pending (m : Nat) (f : RingRegs → RingRegs) : (s.onMbox m f).pending = s.pending := rfl

/-! ### `onTun` -/

@[simp] theorem State.onTun_board (r : Nat) (f : RingRegs → RingRegs) : (s.onTun r f).board = s.board := rfl
@[simp] theorem State.onTun_dev (r : Nat) (f : RingRegs → RingRegs) : (s.onTun r f).dev = s.dev := rfl
@[simp] theorem State.onTun_par (r : Nat) (f : RingRegs → RingRegs) : (s.onTun r f).par = s.par := rfl
@[simp] theorem State.onTun_plan (r : Nat) (f : RingRegs → RingRegs) : (s.onTun r f).plan = s.plan := rfl
@[simp] theorem State.onTun_cyc (r : Nat) (f : RingRegs → RingRegs) : (s.onTun r f).cyc = s.cyc := rfl
@[simp] theorem State.onTun_rings (r : Nat) (f : RingRegs → RingRegs) : (s.onTun r f).rings = s.rings := rfl
@[simp] theorem State.onTun_axes (r : Nat) (f : RingRegs → RingRegs) : (s.onTun r f).axes = s.axes := rfl
@[simp] theorem State.onTun_groups (r : Nat) (f : RingRegs → RingRegs) : (s.onTun r f).groups = s.groups := rfl
@[simp] theorem State.onTun_disp (r : Nat) (f : RingRegs → RingRegs) : (s.onTun r f).disp = s.disp := rfl
@[simp] theorem State.onTun_pwm (r : Nat) (f : RingRegs → RingRegs) : (s.onTun r f).pwm = s.pwm := rfl
@[simp] theorem State.onTun_loc (r : Nat) (f : RingRegs → RingRegs) : (s.onTun r f).loc = s.loc := rfl
@[simp] theorem State.onTun_time (r : Nat) (f : RingRegs → RingRegs) : (s.onTun r f).time = s.time := rfl
@[simp] theorem State.onTun_cal (r : Nat) (f : RingRegs → RingRegs) : (s.onTun r f).cal = s.cal := rfl
@[simp] theorem State.onTun_dma (r : Nat) (f : RingRegs → RingRegs) : (s.onTun r f).dma = s.dma := rfl
@[simp] theorem State.onTun_safe (r : Nat) (f : RingRegs → RingRegs) : (s.onTun r f).safe = s.safe := rfl
@[simp] theorem State.onTun_pair (r : Nat) (f : RingRegs → RingRegs) : (s.onTun r f).pair = s.pair := rfl
@[simp] theorem State.onTun_ev (r : Nat) (f : RingRegs → RingRegs) : (s.onTun r f).ev = s.ev := rfl
@[simp] theorem State.onTun_tru (r : Nat) (f : RingRegs → RingRegs) : (s.onTun r f).tru = s.tru := rfl
@[simp] theorem State.onTun_power (r : Nat) (f : RingRegs → RingRegs) : (s.onTun r f).power = s.power := rfl
@[simp] theorem State.onTun_jtag (r : Nat) (f : RingRegs → RingRegs) : (s.onTun r f).jtag = s.jtag := rfl
@[simp] theorem State.onTun_mem (r : Nat) (f : RingRegs → RingRegs) : (s.onTun r f).mem = s.mem := rfl
@[simp] theorem State.onTun_pend (r : Nat) (f : RingRegs → RingRegs) : (s.onTun r f).pend = s.pend := rfl
@[simp] theorem State.onTun_free (r : Nat) (f : RingRegs → RingRegs) : (s.onTun r f).free = s.free := rfl
@[simp] theorem State.onTun_pending (r : Nat) (f : RingRegs → RingRegs) : (s.onTun r f).pending = s.pending := rfl

/-! ### `onTimer` -/

@[simp] theorem State.onTimer_board (k : Nat) (f : Timer → Timer) : (s.onTimer k f).board = s.board := rfl
@[simp] theorem State.onTimer_dev (k : Nat) (f : Timer → Timer) : (s.onTimer k f).dev = s.dev := rfl
@[simp] theorem State.onTimer_host (k : Nat) (f : Timer → Timer) : (s.onTimer k f).host = s.host := rfl
@[simp] theorem State.onTimer_par (k : Nat) (f : Timer → Timer) : (s.onTimer k f).par = s.par := rfl
@[simp] theorem State.onTimer_plan (k : Nat) (f : Timer → Timer) : (s.onTimer k f).plan = s.plan := rfl
@[simp] theorem State.onTimer_cyc (k : Nat) (f : Timer → Timer) : (s.onTimer k f).cyc = s.cyc := rfl
@[simp] theorem State.onTimer_rings (k : Nat) (f : Timer → Timer) : (s.onTimer k f).rings = s.rings := rfl
@[simp] theorem State.onTimer_axes (k : Nat) (f : Timer → Timer) : (s.onTimer k f).axes = s.axes := rfl
@[simp] theorem State.onTimer_groups (k : Nat) (f : Timer → Timer) : (s.onTimer k f).groups = s.groups := rfl
@[simp] theorem State.onTimer_disp (k : Nat) (f : Timer → Timer) : (s.onTimer k f).disp = s.disp := rfl
@[simp] theorem State.onTimer_loc (k : Nat) (f : Timer → Timer) : (s.onTimer k f).loc = s.loc := rfl
@[simp] theorem State.onTimer_time (k : Nat) (f : Timer → Timer) : (s.onTimer k f).time = s.time := rfl
@[simp] theorem State.onTimer_cal (k : Nat) (f : Timer → Timer) : (s.onTimer k f).cal = s.cal := rfl
@[simp] theorem State.onTimer_dma (k : Nat) (f : Timer → Timer) : (s.onTimer k f).dma = s.dma := rfl
@[simp] theorem State.onTimer_safe (k : Nat) (f : Timer → Timer) : (s.onTimer k f).safe = s.safe := rfl
@[simp] theorem State.onTimer_pair (k : Nat) (f : Timer → Timer) : (s.onTimer k f).pair = s.pair := rfl
@[simp] theorem State.onTimer_ev (k : Nat) (f : Timer → Timer) : (s.onTimer k f).ev = s.ev := rfl
@[simp] theorem State.onTimer_tru (k : Nat) (f : Timer → Timer) : (s.onTimer k f).tru = s.tru := rfl
@[simp] theorem State.onTimer_power (k : Nat) (f : Timer → Timer) : (s.onTimer k f).power = s.power := rfl
@[simp] theorem State.onTimer_jtag (k : Nat) (f : Timer → Timer) : (s.onTimer k f).jtag = s.jtag := rfl
@[simp] theorem State.onTimer_mem (k : Nat) (f : Timer → Timer) : (s.onTimer k f).mem = s.mem := rfl
@[simp] theorem State.onTimer_pend (k : Nat) (f : Timer → Timer) : (s.onTimer k f).pend = s.pend := rfl
@[simp] theorem State.onTimer_free (k : Nat) (f : Timer → Timer) : (s.onTimer k f).free = s.free := rfl
@[simp] theorem State.onTimer_pending (k : Nat) (f : Timer → Timer) : (s.onTimer k f).pending = s.pending := rfl

/-! ### `onLoc` -/

@[simp] theorem State.onLoc_board (f : LocalIn → LocalIn) : (s.onLoc f).board = s.board := rfl
@[simp] theorem State.onLoc_dev (f : LocalIn → LocalIn) : (s.onLoc f).dev = s.dev := rfl
@[simp] theorem State.onLoc_host (f : LocalIn → LocalIn) : (s.onLoc f).host = s.host := rfl
@[simp] theorem State.onLoc_par (f : LocalIn → LocalIn) : (s.onLoc f).par = s.par := rfl
@[simp] theorem State.onLoc_plan (f : LocalIn → LocalIn) : (s.onLoc f).plan = s.plan := rfl
@[simp] theorem State.onLoc_cyc (f : LocalIn → LocalIn) : (s.onLoc f).cyc = s.cyc := rfl
@[simp] theorem State.onLoc_rings (f : LocalIn → LocalIn) : (s.onLoc f).rings = s.rings := rfl
@[simp] theorem State.onLoc_axes (f : LocalIn → LocalIn) : (s.onLoc f).axes = s.axes := rfl
@[simp] theorem State.onLoc_groups (f : LocalIn → LocalIn) : (s.onLoc f).groups = s.groups := rfl
@[simp] theorem State.onLoc_disp (f : LocalIn → LocalIn) : (s.onLoc f).disp = s.disp := rfl
@[simp] theorem State.onLoc_pwm (f : LocalIn → LocalIn) : (s.onLoc f).pwm = s.pwm := rfl
@[simp] theorem State.onLoc_time (f : LocalIn → LocalIn) : (s.onLoc f).time = s.time := rfl
@[simp] theorem State.onLoc_cal (f : LocalIn → LocalIn) : (s.onLoc f).cal = s.cal := rfl
@[simp] theorem State.onLoc_dma (f : LocalIn → LocalIn) : (s.onLoc f).dma = s.dma := rfl
@[simp] theorem State.onLoc_safe (f : LocalIn → LocalIn) : (s.onLoc f).safe = s.safe := rfl
@[simp] theorem State.onLoc_pair (f : LocalIn → LocalIn) : (s.onLoc f).pair = s.pair := rfl
@[simp] theorem State.onLoc_ev (f : LocalIn → LocalIn) : (s.onLoc f).ev = s.ev := rfl
@[simp] theorem State.onLoc_tru (f : LocalIn → LocalIn) : (s.onLoc f).tru = s.tru := rfl
@[simp] theorem State.onLoc_power (f : LocalIn → LocalIn) : (s.onLoc f).power = s.power := rfl
@[simp] theorem State.onLoc_jtag (f : LocalIn → LocalIn) : (s.onLoc f).jtag = s.jtag := rfl
@[simp] theorem State.onLoc_mem (f : LocalIn → LocalIn) : (s.onLoc f).mem = s.mem := rfl
@[simp] theorem State.onLoc_pend (f : LocalIn → LocalIn) : (s.onLoc f).pend = s.pend := rfl
@[simp] theorem State.onLoc_free (f : LocalIn → LocalIn) : (s.onLoc f).free = s.free := rfl
@[simp] theorem State.onLoc_pending (f : LocalIn → LocalIn) : (s.onLoc f).pending = s.pending := rfl

/-! ### `onEnc` -/

@[simp] theorem State.onEnc_board (k : Nat) (f : EncCh → EncCh) : (s.onEnc k f).board = s.board := rfl
@[simp] theorem State.onEnc_dev (k : Nat) (f : EncCh → EncCh) : (s.onEnc k f).dev = s.dev := rfl
@[simp] theorem State.onEnc_host (k : Nat) (f : EncCh → EncCh) : (s.onEnc k f).host = s.host := rfl
@[simp] theorem State.onEnc_par (k : Nat) (f : EncCh → EncCh) : (s.onEnc k f).par = s.par := rfl
@[simp] theorem State.onEnc_plan (k : Nat) (f : EncCh → EncCh) : (s.onEnc k f).plan = s.plan := rfl
@[simp] theorem State.onEnc_cyc (k : Nat) (f : EncCh → EncCh) : (s.onEnc k f).cyc = s.cyc := rfl
@[simp] theorem State.onEnc_rings (k : Nat) (f : EncCh → EncCh) : (s.onEnc k f).rings = s.rings := rfl
@[simp] theorem State.onEnc_axes (k : Nat) (f : EncCh → EncCh) : (s.onEnc k f).axes = s.axes := rfl
@[simp] theorem State.onEnc_groups (k : Nat) (f : EncCh → EncCh) : (s.onEnc k f).groups = s.groups := rfl
@[simp] theorem State.onEnc_disp (k : Nat) (f : EncCh → EncCh) : (s.onEnc k f).disp = s.disp := rfl
@[simp] theorem State.onEnc_pwm (k : Nat) (f : EncCh → EncCh) : (s.onEnc k f).pwm = s.pwm := rfl
@[simp] theorem State.onEnc_time (k : Nat) (f : EncCh → EncCh) : (s.onEnc k f).time = s.time := rfl
@[simp] theorem State.onEnc_cal (k : Nat) (f : EncCh → EncCh) : (s.onEnc k f).cal = s.cal := rfl
@[simp] theorem State.onEnc_dma (k : Nat) (f : EncCh → EncCh) : (s.onEnc k f).dma = s.dma := rfl
@[simp] theorem State.onEnc_safe (k : Nat) (f : EncCh → EncCh) : (s.onEnc k f).safe = s.safe := rfl
@[simp] theorem State.onEnc_pair (k : Nat) (f : EncCh → EncCh) : (s.onEnc k f).pair = s.pair := rfl
@[simp] theorem State.onEnc_ev (k : Nat) (f : EncCh → EncCh) : (s.onEnc k f).ev = s.ev := rfl
@[simp] theorem State.onEnc_tru (k : Nat) (f : EncCh → EncCh) : (s.onEnc k f).tru = s.tru := rfl
@[simp] theorem State.onEnc_power (k : Nat) (f : EncCh → EncCh) : (s.onEnc k f).power = s.power := rfl
@[simp] theorem State.onEnc_jtag (k : Nat) (f : EncCh → EncCh) : (s.onEnc k f).jtag = s.jtag := rfl
@[simp] theorem State.onEnc_mem (k : Nat) (f : EncCh → EncCh) : (s.onEnc k f).mem = s.mem := rfl
@[simp] theorem State.onEnc_pend (k : Nat) (f : EncCh → EncCh) : (s.onEnc k f).pend = s.pend := rfl
@[simp] theorem State.onEnc_free (k : Nat) (f : EncCh → EncCh) : (s.onEnc k f).free = s.free := rfl
@[simp] theorem State.onEnc_pending (k : Nat) (f : EncCh → EncCh) : (s.onEnc k f).pending = s.pending := rfl

/-! ### `onProbe` -/

@[simp] theorem State.onProbe_board (k : Nat) (f : ProbeSt → ProbeSt) : (s.onProbe k f).board = s.board := rfl
@[simp] theorem State.onProbe_dev (k : Nat) (f : ProbeSt → ProbeSt) : (s.onProbe k f).dev = s.dev := rfl
@[simp] theorem State.onProbe_host (k : Nat) (f : ProbeSt → ProbeSt) : (s.onProbe k f).host = s.host := rfl
@[simp] theorem State.onProbe_par (k : Nat) (f : ProbeSt → ProbeSt) : (s.onProbe k f).par = s.par := rfl
@[simp] theorem State.onProbe_plan (k : Nat) (f : ProbeSt → ProbeSt) : (s.onProbe k f).plan = s.plan := rfl
@[simp] theorem State.onProbe_cyc (k : Nat) (f : ProbeSt → ProbeSt) : (s.onProbe k f).cyc = s.cyc := rfl
@[simp] theorem State.onProbe_rings (k : Nat) (f : ProbeSt → ProbeSt) : (s.onProbe k f).rings = s.rings := rfl
@[simp] theorem State.onProbe_axes (k : Nat) (f : ProbeSt → ProbeSt) : (s.onProbe k f).axes = s.axes := rfl
@[simp] theorem State.onProbe_groups (k : Nat) (f : ProbeSt → ProbeSt) : (s.onProbe k f).groups = s.groups := rfl
@[simp] theorem State.onProbe_disp (k : Nat) (f : ProbeSt → ProbeSt) : (s.onProbe k f).disp = s.disp := rfl
@[simp] theorem State.onProbe_pwm (k : Nat) (f : ProbeSt → ProbeSt) : (s.onProbe k f).pwm = s.pwm := rfl
@[simp] theorem State.onProbe_time (k : Nat) (f : ProbeSt → ProbeSt) : (s.onProbe k f).time = s.time := rfl
@[simp] theorem State.onProbe_cal (k : Nat) (f : ProbeSt → ProbeSt) : (s.onProbe k f).cal = s.cal := rfl
@[simp] theorem State.onProbe_dma (k : Nat) (f : ProbeSt → ProbeSt) : (s.onProbe k f).dma = s.dma := rfl
@[simp] theorem State.onProbe_safe (k : Nat) (f : ProbeSt → ProbeSt) : (s.onProbe k f).safe = s.safe := rfl
@[simp] theorem State.onProbe_pair (k : Nat) (f : ProbeSt → ProbeSt) : (s.onProbe k f).pair = s.pair := rfl
@[simp] theorem State.onProbe_ev (k : Nat) (f : ProbeSt → ProbeSt) : (s.onProbe k f).ev = s.ev := rfl
@[simp] theorem State.onProbe_tru (k : Nat) (f : ProbeSt → ProbeSt) : (s.onProbe k f).tru = s.tru := rfl
@[simp] theorem State.onProbe_power (k : Nat) (f : ProbeSt → ProbeSt) : (s.onProbe k f).power = s.power := rfl
@[simp] theorem State.onProbe_jtag (k : Nat) (f : ProbeSt → ProbeSt) : (s.onProbe k f).jtag = s.jtag := rfl
@[simp] theorem State.onProbe_mem (k : Nat) (f : ProbeSt → ProbeSt) : (s.onProbe k f).mem = s.mem := rfl
@[simp] theorem State.onProbe_pend (k : Nat) (f : ProbeSt → ProbeSt) : (s.onProbe k f).pend = s.pend := rfl
@[simp] theorem State.onProbe_free (k : Nat) (f : ProbeSt → ProbeSt) : (s.onProbe k f).free = s.free := rfl
@[simp] theorem State.onProbe_pending (k : Nat) (f : ProbeSt → ProbeSt) : (s.onProbe k f).pending = s.pending := rfl

/-! ### `onSsi` -/

@[simp] theorem State.onSsi_board (k : Nat) (f : SsiCh → SsiCh) : (s.onSsi k f).board = s.board := rfl
@[simp] theorem State.onSsi_dev (k : Nat) (f : SsiCh → SsiCh) : (s.onSsi k f).dev = s.dev := rfl
@[simp] theorem State.onSsi_host (k : Nat) (f : SsiCh → SsiCh) : (s.onSsi k f).host = s.host := rfl
@[simp] theorem State.onSsi_par (k : Nat) (f : SsiCh → SsiCh) : (s.onSsi k f).par = s.par := rfl
@[simp] theorem State.onSsi_plan (k : Nat) (f : SsiCh → SsiCh) : (s.onSsi k f).plan = s.plan := rfl
@[simp] theorem State.onSsi_cyc (k : Nat) (f : SsiCh → SsiCh) : (s.onSsi k f).cyc = s.cyc := rfl
@[simp] theorem State.onSsi_rings (k : Nat) (f : SsiCh → SsiCh) : (s.onSsi k f).rings = s.rings := rfl
@[simp] theorem State.onSsi_axes (k : Nat) (f : SsiCh → SsiCh) : (s.onSsi k f).axes = s.axes := rfl
@[simp] theorem State.onSsi_groups (k : Nat) (f : SsiCh → SsiCh) : (s.onSsi k f).groups = s.groups := rfl
@[simp] theorem State.onSsi_disp (k : Nat) (f : SsiCh → SsiCh) : (s.onSsi k f).disp = s.disp := rfl
@[simp] theorem State.onSsi_pwm (k : Nat) (f : SsiCh → SsiCh) : (s.onSsi k f).pwm = s.pwm := rfl
@[simp] theorem State.onSsi_time (k : Nat) (f : SsiCh → SsiCh) : (s.onSsi k f).time = s.time := rfl
@[simp] theorem State.onSsi_cal (k : Nat) (f : SsiCh → SsiCh) : (s.onSsi k f).cal = s.cal := rfl
@[simp] theorem State.onSsi_dma (k : Nat) (f : SsiCh → SsiCh) : (s.onSsi k f).dma = s.dma := rfl
@[simp] theorem State.onSsi_safe (k : Nat) (f : SsiCh → SsiCh) : (s.onSsi k f).safe = s.safe := rfl
@[simp] theorem State.onSsi_pair (k : Nat) (f : SsiCh → SsiCh) : (s.onSsi k f).pair = s.pair := rfl
@[simp] theorem State.onSsi_ev (k : Nat) (f : SsiCh → SsiCh) : (s.onSsi k f).ev = s.ev := rfl
@[simp] theorem State.onSsi_tru (k : Nat) (f : SsiCh → SsiCh) : (s.onSsi k f).tru = s.tru := rfl
@[simp] theorem State.onSsi_power (k : Nat) (f : SsiCh → SsiCh) : (s.onSsi k f).power = s.power := rfl
@[simp] theorem State.onSsi_jtag (k : Nat) (f : SsiCh → SsiCh) : (s.onSsi k f).jtag = s.jtag := rfl
@[simp] theorem State.onSsi_mem (k : Nat) (f : SsiCh → SsiCh) : (s.onSsi k f).mem = s.mem := rfl
@[simp] theorem State.onSsi_pend (k : Nat) (f : SsiCh → SsiCh) : (s.onSsi k f).pend = s.pend := rfl
@[simp] theorem State.onSsi_free (k : Nat) (f : SsiCh → SsiCh) : (s.onSsi k f).free = s.free := rfl
@[simp] theorem State.onSsi_pending (k : Nat) (f : SsiCh → SsiCh) : (s.onSsi k f).pending = s.pending := rfl

/-! ### `onAdc` -/

@[simp] theorem State.onAdc_board (f : Adc → Adc) : (s.onAdc f).board = s.board := rfl
@[simp] theorem State.onAdc_dev (f : Adc → Adc) : (s.onAdc f).dev = s.dev := rfl
@[simp] theorem State.onAdc_host (f : Adc → Adc) : (s.onAdc f).host = s.host := rfl
@[simp] theorem State.onAdc_par (f : Adc → Adc) : (s.onAdc f).par = s.par := rfl
@[simp] theorem State.onAdc_plan (f : Adc → Adc) : (s.onAdc f).plan = s.plan := rfl
@[simp] theorem State.onAdc_cyc (f : Adc → Adc) : (s.onAdc f).cyc = s.cyc := rfl
@[simp] theorem State.onAdc_rings (f : Adc → Adc) : (s.onAdc f).rings = s.rings := rfl
@[simp] theorem State.onAdc_axes (f : Adc → Adc) : (s.onAdc f).axes = s.axes := rfl
@[simp] theorem State.onAdc_groups (f : Adc → Adc) : (s.onAdc f).groups = s.groups := rfl
@[simp] theorem State.onAdc_disp (f : Adc → Adc) : (s.onAdc f).disp = s.disp := rfl
@[simp] theorem State.onAdc_pwm (f : Adc → Adc) : (s.onAdc f).pwm = s.pwm := rfl
@[simp] theorem State.onAdc_time (f : Adc → Adc) : (s.onAdc f).time = s.time := rfl
@[simp] theorem State.onAdc_cal (f : Adc → Adc) : (s.onAdc f).cal = s.cal := rfl
@[simp] theorem State.onAdc_dma (f : Adc → Adc) : (s.onAdc f).dma = s.dma := rfl
@[simp] theorem State.onAdc_safe (f : Adc → Adc) : (s.onAdc f).safe = s.safe := rfl
@[simp] theorem State.onAdc_pair (f : Adc → Adc) : (s.onAdc f).pair = s.pair := rfl
@[simp] theorem State.onAdc_ev (f : Adc → Adc) : (s.onAdc f).ev = s.ev := rfl
@[simp] theorem State.onAdc_tru (f : Adc → Adc) : (s.onAdc f).tru = s.tru := rfl
@[simp] theorem State.onAdc_power (f : Adc → Adc) : (s.onAdc f).power = s.power := rfl
@[simp] theorem State.onAdc_jtag (f : Adc → Adc) : (s.onAdc f).jtag = s.jtag := rfl
@[simp] theorem State.onAdc_mem (f : Adc → Adc) : (s.onAdc f).mem = s.mem := rfl
@[simp] theorem State.onAdc_pend (f : Adc → Adc) : (s.onAdc f).pend = s.pend := rfl
@[simp] theorem State.onAdc_free (f : Adc → Adc) : (s.onAdc f).free = s.free := rfl
@[simp] theorem State.onAdc_pending (f : Adc → Adc) : (s.onAdc f).pending = s.pending := rfl

/-! ### `onPort` -/

@[simp] theorem State.onPort_board (n : Nat) (f : PlantPort → PlantPort) : (s.onPort n f).board = s.board := rfl
@[simp] theorem State.onPort_dev (n : Nat) (f : PlantPort → PlantPort) : (s.onPort n f).dev = s.dev := rfl
@[simp] theorem State.onPort_host (n : Nat) (f : PlantPort → PlantPort) : (s.onPort n f).host = s.host := rfl
@[simp] theorem State.onPort_par (n : Nat) (f : PlantPort → PlantPort) : (s.onPort n f).par = s.par := rfl
@[simp] theorem State.onPort_plan (n : Nat) (f : PlantPort → PlantPort) : (s.onPort n f).plan = s.plan := rfl
@[simp] theorem State.onPort_cyc (n : Nat) (f : PlantPort → PlantPort) : (s.onPort n f).cyc = s.cyc := rfl
@[simp] theorem State.onPort_rings (n : Nat) (f : PlantPort → PlantPort) : (s.onPort n f).rings = s.rings := rfl
@[simp] theorem State.onPort_axes (n : Nat) (f : PlantPort → PlantPort) : (s.onPort n f).axes = s.axes := rfl
@[simp] theorem State.onPort_groups (n : Nat) (f : PlantPort → PlantPort) : (s.onPort n f).groups = s.groups := rfl
@[simp] theorem State.onPort_disp (n : Nat) (f : PlantPort → PlantPort) : (s.onPort n f).disp = s.disp := rfl
@[simp] theorem State.onPort_pwm (n : Nat) (f : PlantPort → PlantPort) : (s.onPort n f).pwm = s.pwm := rfl
@[simp] theorem State.onPort_loc (n : Nat) (f : PlantPort → PlantPort) : (s.onPort n f).loc = s.loc := rfl
@[simp] theorem State.onPort_cal (n : Nat) (f : PlantPort → PlantPort) : (s.onPort n f).cal = s.cal := rfl
@[simp] theorem State.onPort_dma (n : Nat) (f : PlantPort → PlantPort) : (s.onPort n f).dma = s.dma := rfl
@[simp] theorem State.onPort_safe (n : Nat) (f : PlantPort → PlantPort) : (s.onPort n f).safe = s.safe := rfl
@[simp] theorem State.onPort_pair (n : Nat) (f : PlantPort → PlantPort) : (s.onPort n f).pair = s.pair := rfl
@[simp] theorem State.onPort_ev (n : Nat) (f : PlantPort → PlantPort) : (s.onPort n f).ev = s.ev := rfl
@[simp] theorem State.onPort_tru (n : Nat) (f : PlantPort → PlantPort) : (s.onPort n f).tru = s.tru := rfl
@[simp] theorem State.onPort_power (n : Nat) (f : PlantPort → PlantPort) : (s.onPort n f).power = s.power := rfl
@[simp] theorem State.onPort_jtag (n : Nat) (f : PlantPort → PlantPort) : (s.onPort n f).jtag = s.jtag := rfl
@[simp] theorem State.onPort_mem (n : Nat) (f : PlantPort → PlantPort) : (s.onPort n f).mem = s.mem := rfl
@[simp] theorem State.onPort_pend (n : Nat) (f : PlantPort → PlantPort) : (s.onPort n f).pend = s.pend := rfl
@[simp] theorem State.onPort_free (n : Nat) (f : PlantPort → PlantPort) : (s.onPort n f).free = s.free := rfl
@[simp] theorem State.onPort_pending (n : Nat) (f : PlantPort → PlantPort) : (s.onPort n f).pending = s.pending := rfl

/-! ### `onTout` -/

@[simp] theorem State.onTout_board (n : Nat) (f : Tout → Tout) : (s.onTout n f).board = s.board := rfl
@[simp] theorem State.onTout_dev (n : Nat) (f : Tout → Tout) : (s.onTout n f).dev = s.dev := rfl
@[simp] theorem State.onTout_host (n : Nat) (f : Tout → Tout) : (s.onTout n f).host = s.host := rfl
@[simp] theorem State.onTout_par (n : Nat) (f : Tout → Tout) : (s.onTout n f).par = s.par := rfl
@[simp] theorem State.onTout_plan (n : Nat) (f : Tout → Tout) : (s.onTout n f).plan = s.plan := rfl
@[simp] theorem State.onTout_cyc (n : Nat) (f : Tout → Tout) : (s.onTout n f).cyc = s.cyc := rfl
@[simp] theorem State.onTout_rings (n : Nat) (f : Tout → Tout) : (s.onTout n f).rings = s.rings := rfl
@[simp] theorem State.onTout_axes (n : Nat) (f : Tout → Tout) : (s.onTout n f).axes = s.axes := rfl
@[simp] theorem State.onTout_groups (n : Nat) (f : Tout → Tout) : (s.onTout n f).groups = s.groups := rfl
@[simp] theorem State.onTout_disp (n : Nat) (f : Tout → Tout) : (s.onTout n f).disp = s.disp := rfl
@[simp] theorem State.onTout_pwm (n : Nat) (f : Tout → Tout) : (s.onTout n f).pwm = s.pwm := rfl
@[simp] theorem State.onTout_loc (n : Nat) (f : Tout → Tout) : (s.onTout n f).loc = s.loc := rfl
@[simp] theorem State.onTout_cal (n : Nat) (f : Tout → Tout) : (s.onTout n f).cal = s.cal := rfl
@[simp] theorem State.onTout_dma (n : Nat) (f : Tout → Tout) : (s.onTout n f).dma = s.dma := rfl
@[simp] theorem State.onTout_safe (n : Nat) (f : Tout → Tout) : (s.onTout n f).safe = s.safe := rfl
@[simp] theorem State.onTout_pair (n : Nat) (f : Tout → Tout) : (s.onTout n f).pair = s.pair := rfl
@[simp] theorem State.onTout_ev (n : Nat) (f : Tout → Tout) : (s.onTout n f).ev = s.ev := rfl
@[simp] theorem State.onTout_tru (n : Nat) (f : Tout → Tout) : (s.onTout n f).tru = s.tru := rfl
@[simp] theorem State.onTout_power (n : Nat) (f : Tout → Tout) : (s.onTout n f).power = s.power := rfl
@[simp] theorem State.onTout_jtag (n : Nat) (f : Tout → Tout) : (s.onTout n f).jtag = s.jtag := rfl
@[simp] theorem State.onTout_mem (n : Nat) (f : Tout → Tout) : (s.onTout n f).mem = s.mem := rfl
@[simp] theorem State.onTout_pend (n : Nat) (f : Tout → Tout) : (s.onTout n f).pend = s.pend := rfl
@[simp] theorem State.onTout_free (n : Nat) (f : Tout → Tout) : (s.onTout n f).free = s.free := rfl
@[simp] theorem State.onTout_pending (n : Nat) (f : Tout → Tout) : (s.onTout n f).pending = s.pending := rfl

/-! ### `onCal` -/

@[simp] theorem State.onCal_board (f : Calipers → Calipers) : (s.onCal f).board = s.board := rfl
@[simp] theorem State.onCal_dev (f : Calipers → Calipers) : (s.onCal f).dev = s.dev := rfl
@[simp] theorem State.onCal_host (f : Calipers → Calipers) : (s.onCal f).host = s.host := rfl
@[simp] theorem State.onCal_par (f : Calipers → Calipers) : (s.onCal f).par = s.par := rfl
@[simp] theorem State.onCal_plan (f : Calipers → Calipers) : (s.onCal f).plan = s.plan := rfl
@[simp] theorem State.onCal_cyc (f : Calipers → Calipers) : (s.onCal f).cyc = s.cyc := rfl
@[simp] theorem State.onCal_rings (f : Calipers → Calipers) : (s.onCal f).rings = s.rings := rfl
@[simp] theorem State.onCal_axes (f : Calipers → Calipers) : (s.onCal f).axes = s.axes := rfl
@[simp] theorem State.onCal_groups (f : Calipers → Calipers) : (s.onCal f).groups = s.groups := rfl
@[simp] theorem State.onCal_disp (f : Calipers → Calipers) : (s.onCal f).disp = s.disp := rfl
@[simp] theorem State.onCal_pwm (f : Calipers → Calipers) : (s.onCal f).pwm = s.pwm := rfl
@[simp] theorem State.onCal_loc (f : Calipers → Calipers) : (s.onCal f).loc = s.loc := rfl
@[simp] theorem State.onCal_time (f : Calipers → Calipers) : (s.onCal f).time = s.time := rfl
@[simp] theorem State.onCal_dma (f : Calipers → Calipers) : (s.onCal f).dma = s.dma := rfl
@[simp] theorem State.onCal_safe (f : Calipers → Calipers) : (s.onCal f).safe = s.safe := rfl
@[simp] theorem State.onCal_pair (f : Calipers → Calipers) : (s.onCal f).pair = s.pair := rfl
@[simp] theorem State.onCal_ev (f : Calipers → Calipers) : (s.onCal f).ev = s.ev := rfl
@[simp] theorem State.onCal_tru (f : Calipers → Calipers) : (s.onCal f).tru = s.tru := rfl
@[simp] theorem State.onCal_power (f : Calipers → Calipers) : (s.onCal f).power = s.power := rfl
@[simp] theorem State.onCal_jtag (f : Calipers → Calipers) : (s.onCal f).jtag = s.jtag := rfl
@[simp] theorem State.onCal_mem (f : Calipers → Calipers) : (s.onCal f).mem = s.mem := rfl
@[simp] theorem State.onCal_pend (f : Calipers → Calipers) : (s.onCal f).pend = s.pend := rfl
@[simp] theorem State.onCal_free (f : Calipers → Calipers) : (s.onCal f).free = s.free := rfl
@[simp] theorem State.onCal_pending (f : Calipers → Calipers) : (s.onCal f).pending = s.pending := rfl

/-! ### `onChan` -/

@[simp] theorem State.onChan_board (c : Nat) (f : DmaCh → DmaCh) : (s.onChan c f).board = s.board := rfl
@[simp] theorem State.onChan_dev (c : Nat) (f : DmaCh → DmaCh) : (s.onChan c f).dev = s.dev := rfl
@[simp] theorem State.onChan_host (c : Nat) (f : DmaCh → DmaCh) : (s.onChan c f).host = s.host := rfl
@[simp] theorem State.onChan_par (c : Nat) (f : DmaCh → DmaCh) : (s.onChan c f).par = s.par := rfl
@[simp] theorem State.onChan_plan (c : Nat) (f : DmaCh → DmaCh) : (s.onChan c f).plan = s.plan := rfl
@[simp] theorem State.onChan_cyc (c : Nat) (f : DmaCh → DmaCh) : (s.onChan c f).cyc = s.cyc := rfl
@[simp] theorem State.onChan_rings (c : Nat) (f : DmaCh → DmaCh) : (s.onChan c f).rings = s.rings := rfl
@[simp] theorem State.onChan_axes (c : Nat) (f : DmaCh → DmaCh) : (s.onChan c f).axes = s.axes := rfl
@[simp] theorem State.onChan_groups (c : Nat) (f : DmaCh → DmaCh) : (s.onChan c f).groups = s.groups := rfl
@[simp] theorem State.onChan_disp (c : Nat) (f : DmaCh → DmaCh) : (s.onChan c f).disp = s.disp := rfl
@[simp] theorem State.onChan_pwm (c : Nat) (f : DmaCh → DmaCh) : (s.onChan c f).pwm = s.pwm := rfl
@[simp] theorem State.onChan_loc (c : Nat) (f : DmaCh → DmaCh) : (s.onChan c f).loc = s.loc := rfl
@[simp] theorem State.onChan_time (c : Nat) (f : DmaCh → DmaCh) : (s.onChan c f).time = s.time := rfl
@[simp] theorem State.onChan_cal (c : Nat) (f : DmaCh → DmaCh) : (s.onChan c f).cal = s.cal := rfl
@[simp] theorem State.onChan_safe (c : Nat) (f : DmaCh → DmaCh) : (s.onChan c f).safe = s.safe := rfl
@[simp] theorem State.onChan_pair (c : Nat) (f : DmaCh → DmaCh) : (s.onChan c f).pair = s.pair := rfl
@[simp] theorem State.onChan_ev (c : Nat) (f : DmaCh → DmaCh) : (s.onChan c f).ev = s.ev := rfl
@[simp] theorem State.onChan_tru (c : Nat) (f : DmaCh → DmaCh) : (s.onChan c f).tru = s.tru := rfl
@[simp] theorem State.onChan_power (c : Nat) (f : DmaCh → DmaCh) : (s.onChan c f).power = s.power := rfl
@[simp] theorem State.onChan_jtag (c : Nat) (f : DmaCh → DmaCh) : (s.onChan c f).jtag = s.jtag := rfl
@[simp] theorem State.onChan_mem (c : Nat) (f : DmaCh → DmaCh) : (s.onChan c f).mem = s.mem := rfl
@[simp] theorem State.onChan_pend (c : Nat) (f : DmaCh → DmaCh) : (s.onChan c f).pend = s.pend := rfl
@[simp] theorem State.onChan_free (c : Nat) (f : DmaCh → DmaCh) : (s.onChan c f).free = s.free := rfl
@[simp] theorem State.onChan_pending (c : Nat) (f : DmaCh → DmaCh) : (s.onChan c f).pending = s.pending := rfl

/-! ### `onSafe` -/

@[simp] theorem State.onSafe_board (f : Safety → Safety) : (s.onSafe f).board = s.board := rfl
@[simp] theorem State.onSafe_dev (f : Safety → Safety) : (s.onSafe f).dev = s.dev := rfl
@[simp] theorem State.onSafe_host (f : Safety → Safety) : (s.onSafe f).host = s.host := rfl
@[simp] theorem State.onSafe_par (f : Safety → Safety) : (s.onSafe f).par = s.par := rfl
@[simp] theorem State.onSafe_plan (f : Safety → Safety) : (s.onSafe f).plan = s.plan := rfl
@[simp] theorem State.onSafe_cyc (f : Safety → Safety) : (s.onSafe f).cyc = s.cyc := rfl
@[simp] theorem State.onSafe_rings (f : Safety → Safety) : (s.onSafe f).rings = s.rings := rfl
@[simp] theorem State.onSafe_axes (f : Safety → Safety) : (s.onSafe f).axes = s.axes := rfl
@[simp] theorem State.onSafe_groups (f : Safety → Safety) : (s.onSafe f).groups = s.groups := rfl
@[simp] theorem State.onSafe_disp (f : Safety → Safety) : (s.onSafe f).disp = s.disp := rfl
@[simp] theorem State.onSafe_pwm (f : Safety → Safety) : (s.onSafe f).pwm = s.pwm := rfl
@[simp] theorem State.onSafe_loc (f : Safety → Safety) : (s.onSafe f).loc = s.loc := rfl
@[simp] theorem State.onSafe_time (f : Safety → Safety) : (s.onSafe f).time = s.time := rfl
@[simp] theorem State.onSafe_cal (f : Safety → Safety) : (s.onSafe f).cal = s.cal := rfl
@[simp] theorem State.onSafe_dma (f : Safety → Safety) : (s.onSafe f).dma = s.dma := rfl
@[simp] theorem State.onSafe_pair (f : Safety → Safety) : (s.onSafe f).pair = s.pair := rfl
@[simp] theorem State.onSafe_ev (f : Safety → Safety) : (s.onSafe f).ev = s.ev := rfl
@[simp] theorem State.onSafe_tru (f : Safety → Safety) : (s.onSafe f).tru = s.tru := rfl
@[simp] theorem State.onSafe_power (f : Safety → Safety) : (s.onSafe f).power = s.power := rfl
@[simp] theorem State.onSafe_jtag (f : Safety → Safety) : (s.onSafe f).jtag = s.jtag := rfl
@[simp] theorem State.onSafe_mem (f : Safety → Safety) : (s.onSafe f).mem = s.mem := rfl
@[simp] theorem State.onSafe_pend (f : Safety → Safety) : (s.onSafe f).pend = s.pend := rfl
@[simp] theorem State.onSafe_free (f : Safety → Safety) : (s.onSafe f).free = s.free := rfl
@[simp] theorem State.onSafe_pending (f : Safety → Safety) : (s.onSafe f).pending = s.pending := rfl

/-! ### `onFn` -/

@[simp] theorem State.onFn_board (k : Nat) (f : SafeFn → SafeFn) : (s.onFn k f).board = s.board := rfl
@[simp] theorem State.onFn_dev (k : Nat) (f : SafeFn → SafeFn) : (s.onFn k f).dev = s.dev := rfl
@[simp] theorem State.onFn_host (k : Nat) (f : SafeFn → SafeFn) : (s.onFn k f).host = s.host := rfl
@[simp] theorem State.onFn_par (k : Nat) (f : SafeFn → SafeFn) : (s.onFn k f).par = s.par := rfl
@[simp] theorem State.onFn_plan (k : Nat) (f : SafeFn → SafeFn) : (s.onFn k f).plan = s.plan := rfl
@[simp] theorem State.onFn_cyc (k : Nat) (f : SafeFn → SafeFn) : (s.onFn k f).cyc = s.cyc := rfl
@[simp] theorem State.onFn_rings (k : Nat) (f : SafeFn → SafeFn) : (s.onFn k f).rings = s.rings := rfl
@[simp] theorem State.onFn_axes (k : Nat) (f : SafeFn → SafeFn) : (s.onFn k f).axes = s.axes := rfl
@[simp] theorem State.onFn_groups (k : Nat) (f : SafeFn → SafeFn) : (s.onFn k f).groups = s.groups := rfl
@[simp] theorem State.onFn_disp (k : Nat) (f : SafeFn → SafeFn) : (s.onFn k f).disp = s.disp := rfl
@[simp] theorem State.onFn_pwm (k : Nat) (f : SafeFn → SafeFn) : (s.onFn k f).pwm = s.pwm := rfl
@[simp] theorem State.onFn_loc (k : Nat) (f : SafeFn → SafeFn) : (s.onFn k f).loc = s.loc := rfl
@[simp] theorem State.onFn_time (k : Nat) (f : SafeFn → SafeFn) : (s.onFn k f).time = s.time := rfl
@[simp] theorem State.onFn_cal (k : Nat) (f : SafeFn → SafeFn) : (s.onFn k f).cal = s.cal := rfl
@[simp] theorem State.onFn_dma (k : Nat) (f : SafeFn → SafeFn) : (s.onFn k f).dma = s.dma := rfl
@[simp] theorem State.onFn_pair (k : Nat) (f : SafeFn → SafeFn) : (s.onFn k f).pair = s.pair := rfl
@[simp] theorem State.onFn_ev (k : Nat) (f : SafeFn → SafeFn) : (s.onFn k f).ev = s.ev := rfl
@[simp] theorem State.onFn_tru (k : Nat) (f : SafeFn → SafeFn) : (s.onFn k f).tru = s.tru := rfl
@[simp] theorem State.onFn_power (k : Nat) (f : SafeFn → SafeFn) : (s.onFn k f).power = s.power := rfl
@[simp] theorem State.onFn_jtag (k : Nat) (f : SafeFn → SafeFn) : (s.onFn k f).jtag = s.jtag := rfl
@[simp] theorem State.onFn_mem (k : Nat) (f : SafeFn → SafeFn) : (s.onFn k f).mem = s.mem := rfl
@[simp] theorem State.onFn_pend (k : Nat) (f : SafeFn → SafeFn) : (s.onFn k f).pend = s.pend := rfl
@[simp] theorem State.onFn_free (k : Nat) (f : SafeFn → SafeFn) : (s.onFn k f).free = s.free := rfl
@[simp] theorem State.onFn_pending (k : Nat) (f : SafeFn → SafeFn) : (s.onFn k f).pending = s.pending := rfl

/-! ### `onSout` -/

@[simp] theorem State.onSout_board (k : Nat) (f : Sout → Sout) : (s.onSout k f).board = s.board := rfl
@[simp] theorem State.onSout_dev (k : Nat) (f : Sout → Sout) : (s.onSout k f).dev = s.dev := rfl
@[simp] theorem State.onSout_host (k : Nat) (f : Sout → Sout) : (s.onSout k f).host = s.host := rfl
@[simp] theorem State.onSout_par (k : Nat) (f : Sout → Sout) : (s.onSout k f).par = s.par := rfl
@[simp] theorem State.onSout_plan (k : Nat) (f : Sout → Sout) : (s.onSout k f).plan = s.plan := rfl
@[simp] theorem State.onSout_cyc (k : Nat) (f : Sout → Sout) : (s.onSout k f).cyc = s.cyc := rfl
@[simp] theorem State.onSout_rings (k : Nat) (f : Sout → Sout) : (s.onSout k f).rings = s.rings := rfl
@[simp] theorem State.onSout_axes (k : Nat) (f : Sout → Sout) : (s.onSout k f).axes = s.axes := rfl
@[simp] theorem State.onSout_groups (k : Nat) (f : Sout → Sout) : (s.onSout k f).groups = s.groups := rfl
@[simp] theorem State.onSout_disp (k : Nat) (f : Sout → Sout) : (s.onSout k f).disp = s.disp := rfl
@[simp] theorem State.onSout_pwm (k : Nat) (f : Sout → Sout) : (s.onSout k f).pwm = s.pwm := rfl
@[simp] theorem State.onSout_loc (k : Nat) (f : Sout → Sout) : (s.onSout k f).loc = s.loc := rfl
@[simp] theorem State.onSout_time (k : Nat) (f : Sout → Sout) : (s.onSout k f).time = s.time := rfl
@[simp] theorem State.onSout_cal (k : Nat) (f : Sout → Sout) : (s.onSout k f).cal = s.cal := rfl
@[simp] theorem State.onSout_dma (k : Nat) (f : Sout → Sout) : (s.onSout k f).dma = s.dma := rfl
@[simp] theorem State.onSout_pair (k : Nat) (f : Sout → Sout) : (s.onSout k f).pair = s.pair := rfl
@[simp] theorem State.onSout_ev (k : Nat) (f : Sout → Sout) : (s.onSout k f).ev = s.ev := rfl
@[simp] theorem State.onSout_tru (k : Nat) (f : Sout → Sout) : (s.onSout k f).tru = s.tru := rfl
@[simp] theorem State.onSout_power (k : Nat) (f : Sout → Sout) : (s.onSout k f).power = s.power := rfl
@[simp] theorem State.onSout_jtag (k : Nat) (f : Sout → Sout) : (s.onSout k f).jtag = s.jtag := rfl
@[simp] theorem State.onSout_mem (k : Nat) (f : Sout → Sout) : (s.onSout k f).mem = s.mem := rfl
@[simp] theorem State.onSout_pend (k : Nat) (f : Sout → Sout) : (s.onSout k f).pend = s.pend := rfl
@[simp] theorem State.onSout_free (k : Nat) (f : Sout → Sout) : (s.onSout k f).free = s.free := rfl
@[simp] theorem State.onSout_pending (k : Nat) (f : Sout → Sout) : (s.onSout k f).pending = s.pending := rfl

/-! ### `onConn` -/

@[simp] theorem State.onConn_board (k : Nat) (f : SafeConn → SafeConn) : (s.onConn k f).board = s.board := rfl
@[simp] theorem State.onConn_dev (k : Nat) (f : SafeConn → SafeConn) : (s.onConn k f).dev = s.dev := rfl
@[simp] theorem State.onConn_host (k : Nat) (f : SafeConn → SafeConn) : (s.onConn k f).host = s.host := rfl
@[simp] theorem State.onConn_par (k : Nat) (f : SafeConn → SafeConn) : (s.onConn k f).par = s.par := rfl
@[simp] theorem State.onConn_plan (k : Nat) (f : SafeConn → SafeConn) : (s.onConn k f).plan = s.plan := rfl
@[simp] theorem State.onConn_cyc (k : Nat) (f : SafeConn → SafeConn) : (s.onConn k f).cyc = s.cyc := rfl
@[simp] theorem State.onConn_rings (k : Nat) (f : SafeConn → SafeConn) : (s.onConn k f).rings = s.rings := rfl
@[simp] theorem State.onConn_axes (k : Nat) (f : SafeConn → SafeConn) : (s.onConn k f).axes = s.axes := rfl
@[simp] theorem State.onConn_groups (k : Nat) (f : SafeConn → SafeConn) : (s.onConn k f).groups = s.groups := rfl
@[simp] theorem State.onConn_disp (k : Nat) (f : SafeConn → SafeConn) : (s.onConn k f).disp = s.disp := rfl
@[simp] theorem State.onConn_pwm (k : Nat) (f : SafeConn → SafeConn) : (s.onConn k f).pwm = s.pwm := rfl
@[simp] theorem State.onConn_loc (k : Nat) (f : SafeConn → SafeConn) : (s.onConn k f).loc = s.loc := rfl
@[simp] theorem State.onConn_time (k : Nat) (f : SafeConn → SafeConn) : (s.onConn k f).time = s.time := rfl
@[simp] theorem State.onConn_cal (k : Nat) (f : SafeConn → SafeConn) : (s.onConn k f).cal = s.cal := rfl
@[simp] theorem State.onConn_dma (k : Nat) (f : SafeConn → SafeConn) : (s.onConn k f).dma = s.dma := rfl
@[simp] theorem State.onConn_pair (k : Nat) (f : SafeConn → SafeConn) : (s.onConn k f).pair = s.pair := rfl
@[simp] theorem State.onConn_ev (k : Nat) (f : SafeConn → SafeConn) : (s.onConn k f).ev = s.ev := rfl
@[simp] theorem State.onConn_tru (k : Nat) (f : SafeConn → SafeConn) : (s.onConn k f).tru = s.tru := rfl
@[simp] theorem State.onConn_power (k : Nat) (f : SafeConn → SafeConn) : (s.onConn k f).power = s.power := rfl
@[simp] theorem State.onConn_jtag (k : Nat) (f : SafeConn → SafeConn) : (s.onConn k f).jtag = s.jtag := rfl
@[simp] theorem State.onConn_mem (k : Nat) (f : SafeConn → SafeConn) : (s.onConn k f).mem = s.mem := rfl
@[simp] theorem State.onConn_pend (k : Nat) (f : SafeConn → SafeConn) : (s.onConn k f).pend = s.pend := rfl
@[simp] theorem State.onConn_free (k : Nat) (f : SafeConn → SafeConn) : (s.onConn k f).free = s.free := rfl
@[simp] theorem State.onConn_pending (k : Nat) (f : SafeConn → SafeConn) : (s.onConn k f).pending = s.pending := rfl

/-! ### `onPair` -/

@[simp] theorem State.onPair_board (f : Pair → Pair) : (s.onPair f).board = s.board := rfl
@[simp] theorem State.onPair_dev (f : Pair → Pair) : (s.onPair f).dev = s.dev := rfl
@[simp] theorem State.onPair_host (f : Pair → Pair) : (s.onPair f).host = s.host := rfl
@[simp] theorem State.onPair_par (f : Pair → Pair) : (s.onPair f).par = s.par := rfl
@[simp] theorem State.onPair_plan (f : Pair → Pair) : (s.onPair f).plan = s.plan := rfl
@[simp] theorem State.onPair_cyc (f : Pair → Pair) : (s.onPair f).cyc = s.cyc := rfl
@[simp] theorem State.onPair_rings (f : Pair → Pair) : (s.onPair f).rings = s.rings := rfl
@[simp] theorem State.onPair_axes (f : Pair → Pair) : (s.onPair f).axes = s.axes := rfl
@[simp] theorem State.onPair_groups (f : Pair → Pair) : (s.onPair f).groups = s.groups := rfl
@[simp] theorem State.onPair_disp (f : Pair → Pair) : (s.onPair f).disp = s.disp := rfl
@[simp] theorem State.onPair_pwm (f : Pair → Pair) : (s.onPair f).pwm = s.pwm := rfl
@[simp] theorem State.onPair_loc (f : Pair → Pair) : (s.onPair f).loc = s.loc := rfl
@[simp] theorem State.onPair_time (f : Pair → Pair) : (s.onPair f).time = s.time := rfl
@[simp] theorem State.onPair_cal (f : Pair → Pair) : (s.onPair f).cal = s.cal := rfl
@[simp] theorem State.onPair_dma (f : Pair → Pair) : (s.onPair f).dma = s.dma := rfl
@[simp] theorem State.onPair_safe (f : Pair → Pair) : (s.onPair f).safe = s.safe := rfl
@[simp] theorem State.onPair_ev (f : Pair → Pair) : (s.onPair f).ev = s.ev := rfl
@[simp] theorem State.onPair_tru (f : Pair → Pair) : (s.onPair f).tru = s.tru := rfl
@[simp] theorem State.onPair_power (f : Pair → Pair) : (s.onPair f).power = s.power := rfl
@[simp] theorem State.onPair_jtag (f : Pair → Pair) : (s.onPair f).jtag = s.jtag := rfl
@[simp] theorem State.onPair_mem (f : Pair → Pair) : (s.onPair f).mem = s.mem := rfl
@[simp] theorem State.onPair_pend (f : Pair → Pair) : (s.onPair f).pend = s.pend := rfl
@[simp] theorem State.onPair_free (f : Pair → Pair) : (s.onPair f).free = s.free := rfl
@[simp] theorem State.onPair_pending (f : Pair → Pair) : (s.onPair f).pending = s.pending := rfl

/-! ### `onTru` -/

@[simp] theorem State.onTru_board (f : Truing → Truing) : (s.onTru f).board = s.board := rfl
@[simp] theorem State.onTru_dev (f : Truing → Truing) : (s.onTru f).dev = s.dev := rfl
@[simp] theorem State.onTru_host (f : Truing → Truing) : (s.onTru f).host = s.host := rfl
@[simp] theorem State.onTru_par (f : Truing → Truing) : (s.onTru f).par = s.par := rfl
@[simp] theorem State.onTru_plan (f : Truing → Truing) : (s.onTru f).plan = s.plan := rfl
@[simp] theorem State.onTru_cyc (f : Truing → Truing) : (s.onTru f).cyc = s.cyc := rfl
@[simp] theorem State.onTru_rings (f : Truing → Truing) : (s.onTru f).rings = s.rings := rfl
@[simp] theorem State.onTru_axes (f : Truing → Truing) : (s.onTru f).axes = s.axes := rfl
@[simp] theorem State.onTru_groups (f : Truing → Truing) : (s.onTru f).groups = s.groups := rfl
@[simp] theorem State.onTru_disp (f : Truing → Truing) : (s.onTru f).disp = s.disp := rfl
@[simp] theorem State.onTru_pwm (f : Truing → Truing) : (s.onTru f).pwm = s.pwm := rfl
@[simp] theorem State.onTru_loc (f : Truing → Truing) : (s.onTru f).loc = s.loc := rfl
@[simp] theorem State.onTru_time (f : Truing → Truing) : (s.onTru f).time = s.time := rfl
@[simp] theorem State.onTru_cal (f : Truing → Truing) : (s.onTru f).cal = s.cal := rfl
@[simp] theorem State.onTru_dma (f : Truing → Truing) : (s.onTru f).dma = s.dma := rfl
@[simp] theorem State.onTru_safe (f : Truing → Truing) : (s.onTru f).safe = s.safe := rfl
@[simp] theorem State.onTru_pair (f : Truing → Truing) : (s.onTru f).pair = s.pair := rfl
@[simp] theorem State.onTru_ev (f : Truing → Truing) : (s.onTru f).ev = s.ev := rfl
@[simp] theorem State.onTru_power (f : Truing → Truing) : (s.onTru f).power = s.power := rfl
@[simp] theorem State.onTru_jtag (f : Truing → Truing) : (s.onTru f).jtag = s.jtag := rfl
@[simp] theorem State.onTru_mem (f : Truing → Truing) : (s.onTru f).mem = s.mem := rfl
@[simp] theorem State.onTru_pend (f : Truing → Truing) : (s.onTru f).pend = s.pend := rfl
@[simp] theorem State.onTru_free (f : Truing → Truing) : (s.onTru f).free = s.free := rfl
@[simp] theorem State.onTru_pending (f : Truing → Truing) : (s.onTru f).pending = s.pending := rfl

/-! ### `sramWrite` -/

@[simp] theorem State.sramWrite_board (a : Nat) (b : Bytes) : (s.sramWrite a b).board = s.board := rfl
@[simp] theorem State.sramWrite_dev (a : Nat) (b : Bytes) : (s.sramWrite a b).dev = s.dev := rfl
@[simp] theorem State.sramWrite_host (a : Nat) (b : Bytes) : (s.sramWrite a b).host = s.host := rfl
@[simp] theorem State.sramWrite_par (a : Nat) (b : Bytes) : (s.sramWrite a b).par = s.par := rfl
@[simp] theorem State.sramWrite_plan (a : Nat) (b : Bytes) : (s.sramWrite a b).plan = s.plan := rfl
@[simp] theorem State.sramWrite_cyc (a : Nat) (b : Bytes) : (s.sramWrite a b).cyc = s.cyc := rfl
@[simp] theorem State.sramWrite_rings (a : Nat) (b : Bytes) : (s.sramWrite a b).rings = s.rings := rfl
@[simp] theorem State.sramWrite_axes (a : Nat) (b : Bytes) : (s.sramWrite a b).axes = s.axes := rfl
@[simp] theorem State.sramWrite_groups (a : Nat) (b : Bytes) : (s.sramWrite a b).groups = s.groups := rfl
@[simp] theorem State.sramWrite_disp (a : Nat) (b : Bytes) : (s.sramWrite a b).disp = s.disp := rfl
@[simp] theorem State.sramWrite_pwm (a : Nat) (b : Bytes) : (s.sramWrite a b).pwm = s.pwm := rfl
@[simp] theorem State.sramWrite_loc (a : Nat) (b : Bytes) : (s.sramWrite a b).loc = s.loc := rfl
@[simp] theorem State.sramWrite_time (a : Nat) (b : Bytes) : (s.sramWrite a b).time = s.time := rfl
@[simp] theorem State.sramWrite_cal (a : Nat) (b : Bytes) : (s.sramWrite a b).cal = s.cal := rfl
@[simp] theorem State.sramWrite_dma (a : Nat) (b : Bytes) : (s.sramWrite a b).dma = s.dma := rfl
@[simp] theorem State.sramWrite_safe (a : Nat) (b : Bytes) : (s.sramWrite a b).safe = s.safe := rfl
@[simp] theorem State.sramWrite_pair (a : Nat) (b : Bytes) : (s.sramWrite a b).pair = s.pair := rfl
@[simp] theorem State.sramWrite_ev (a : Nat) (b : Bytes) : (s.sramWrite a b).ev = s.ev := rfl
@[simp] theorem State.sramWrite_tru (a : Nat) (b : Bytes) : (s.sramWrite a b).tru = s.tru := rfl
@[simp] theorem State.sramWrite_power (a : Nat) (b : Bytes) : (s.sramWrite a b).power = s.power := rfl
@[simp] theorem State.sramWrite_jtag (a : Nat) (b : Bytes) : (s.sramWrite a b).jtag = s.jtag := rfl
@[simp] theorem State.sramWrite_pend (a : Nat) (b : Bytes) : (s.sramWrite a b).pend = s.pend := rfl
@[simp] theorem State.sramWrite_free (a : Nat) (b : Bytes) : (s.sramWrite a b).free = s.free := rfl
@[simp] theorem State.sramWrite_pending (a : Nat) (b : Bytes) : (s.sramWrite a b).pending = s.pending := rfl

/-! ### `useStamp` -/

@[simp] theorem State.useStamp_board (n : Nat) : (useStamp s n).board = s.board := rfl
@[simp] theorem State.useStamp_dev (n : Nat) : (useStamp s n).dev = s.dev := rfl
@[simp] theorem State.useStamp_par (n : Nat) : (useStamp s n).par = s.par := rfl
@[simp] theorem State.useStamp_plan (n : Nat) : (useStamp s n).plan = s.plan := rfl
@[simp] theorem State.useStamp_cyc (n : Nat) : (useStamp s n).cyc = s.cyc := rfl
@[simp] theorem State.useStamp_rings (n : Nat) : (useStamp s n).rings = s.rings := rfl
@[simp] theorem State.useStamp_axes (n : Nat) : (useStamp s n).axes = s.axes := rfl
@[simp] theorem State.useStamp_groups (n : Nat) : (useStamp s n).groups = s.groups := rfl
@[simp] theorem State.useStamp_disp (n : Nat) : (useStamp s n).disp = s.disp := rfl
@[simp] theorem State.useStamp_pwm (n : Nat) : (useStamp s n).pwm = s.pwm := rfl
@[simp] theorem State.useStamp_loc (n : Nat) : (useStamp s n).loc = s.loc := rfl
@[simp] theorem State.useStamp_time (n : Nat) : (useStamp s n).time = s.time := rfl
@[simp] theorem State.useStamp_cal (n : Nat) : (useStamp s n).cal = s.cal := rfl
@[simp] theorem State.useStamp_dma (n : Nat) : (useStamp s n).dma = s.dma := rfl
@[simp] theorem State.useStamp_safe (n : Nat) : (useStamp s n).safe = s.safe := rfl
@[simp] theorem State.useStamp_pair (n : Nat) : (useStamp s n).pair = s.pair := rfl
@[simp] theorem State.useStamp_ev (n : Nat) : (useStamp s n).ev = s.ev := rfl
@[simp] theorem State.useStamp_tru (n : Nat) : (useStamp s n).tru = s.tru := rfl
@[simp] theorem State.useStamp_power (n : Nat) : (useStamp s n).power = s.power := rfl
@[simp] theorem State.useStamp_jtag (n : Nat) : (useStamp s n).jtag = s.jtag := rfl
@[simp] theorem State.useStamp_mem (n : Nat) : (useStamp s n).mem = s.mem := rfl
@[simp] theorem State.useStamp_pend (n : Nat) : (useStamp s n).pend = s.pend := rfl
@[simp] theorem State.useStamp_free (n : Nat) : (useStamp s n).free = s.free := rfl
@[simp] theorem State.useStamp_pending (n : Nat) : (useStamp s n).pending = s.pending := rfl

/-! ### `addPend` -/

@[simp] theorem State.addPend_board (n : Nat) (q : Request) (k : Nat) : (addPend s n q k).board = s.board := rfl
@[simp] theorem State.addPend_dev (n : Nat) (q : Request) (k : Nat) : (addPend s n q k).dev = s.dev := rfl
@[simp] theorem State.addPend_host (n : Nat) (q : Request) (k : Nat) : (addPend s n q k).host = s.host := rfl
@[simp] theorem State.addPend_par (n : Nat) (q : Request) (k : Nat) : (addPend s n q k).par = s.par := rfl
@[simp] theorem State.addPend_plan (n : Nat) (q : Request) (k : Nat) : (addPend s n q k).plan = s.plan := rfl
@[simp] theorem State.addPend_cyc (n : Nat) (q : Request) (k : Nat) : (addPend s n q k).cyc = s.cyc := rfl
@[simp] theorem State.addPend_rings (n : Nat) (q : Request) (k : Nat) : (addPend s n q k).rings = s.rings := rfl
@[simp] theorem State.addPend_axes (n : Nat) (q : Request) (k : Nat) : (addPend s n q k).axes = s.axes := rfl
@[simp] theorem State.addPend_groups (n : Nat) (q : Request) (k : Nat) : (addPend s n q k).groups = s.groups := rfl
@[simp] theorem State.addPend_disp (n : Nat) (q : Request) (k : Nat) : (addPend s n q k).disp = s.disp := rfl
@[simp] theorem State.addPend_pwm (n : Nat) (q : Request) (k : Nat) : (addPend s n q k).pwm = s.pwm := rfl
@[simp] theorem State.addPend_loc (n : Nat) (q : Request) (k : Nat) : (addPend s n q k).loc = s.loc := rfl
@[simp] theorem State.addPend_time (n : Nat) (q : Request) (k : Nat) : (addPend s n q k).time = s.time := rfl
@[simp] theorem State.addPend_cal (n : Nat) (q : Request) (k : Nat) : (addPend s n q k).cal = s.cal := rfl
@[simp] theorem State.addPend_dma (n : Nat) (q : Request) (k : Nat) : (addPend s n q k).dma = s.dma := rfl
@[simp] theorem State.addPend_safe (n : Nat) (q : Request) (k : Nat) : (addPend s n q k).safe = s.safe := rfl
@[simp] theorem State.addPend_pair (n : Nat) (q : Request) (k : Nat) : (addPend s n q k).pair = s.pair := rfl
@[simp] theorem State.addPend_ev (n : Nat) (q : Request) (k : Nat) : (addPend s n q k).ev = s.ev := rfl
@[simp] theorem State.addPend_tru (n : Nat) (q : Request) (k : Nat) : (addPend s n q k).tru = s.tru := rfl
@[simp] theorem State.addPend_power (n : Nat) (q : Request) (k : Nat) : (addPend s n q k).power = s.power := rfl
@[simp] theorem State.addPend_jtag (n : Nat) (q : Request) (k : Nat) : (addPend s n q k).jtag = s.jtag := rfl
@[simp] theorem State.addPend_mem (n : Nat) (q : Request) (k : Nat) : (addPend s n q k).mem = s.mem := rfl
@[simp] theorem State.addPend_free (n : Nat) (q : Request) (k : Nat) : (addPend s n q k).free = s.free := rfl
@[simp] theorem State.addPend_pending (n : Nat) (q : Request) (k : Nat) : (addPend s n q k).pending = s.pending := rfl

/-! ### `sendFrames` -/

@[simp] theorem State.sendFrames_board (r : Nat) (l : List WaitingFrame) : (sendFrames r l s).board = s.board := rfl
@[simp] theorem State.sendFrames_dev (r : Nat) (l : List WaitingFrame) : (sendFrames r l s).dev = s.dev := rfl
@[simp] theorem State.sendFrames_host (r : Nat) (l : List WaitingFrame) : (sendFrames r l s).host = s.host := rfl
@[simp] theorem State.sendFrames_par (r : Nat) (l : List WaitingFrame) : (sendFrames r l s).par = s.par := rfl
@[simp] theorem State.sendFrames_plan (r : Nat) (l : List WaitingFrame) : (sendFrames r l s).plan = s.plan := rfl
@[simp] theorem State.sendFrames_cyc (r : Nat) (l : List WaitingFrame) : (sendFrames r l s).cyc = s.cyc := rfl
@[simp] theorem State.sendFrames_axes (r : Nat) (l : List WaitingFrame) : (sendFrames r l s).axes = s.axes := rfl
@[simp] theorem State.sendFrames_groups (r : Nat) (l : List WaitingFrame) : (sendFrames r l s).groups = s.groups := rfl
@[simp] theorem State.sendFrames_disp (r : Nat) (l : List WaitingFrame) : (sendFrames r l s).disp = s.disp := rfl
@[simp] theorem State.sendFrames_pwm (r : Nat) (l : List WaitingFrame) : (sendFrames r l s).pwm = s.pwm := rfl
@[simp] theorem State.sendFrames_loc (r : Nat) (l : List WaitingFrame) : (sendFrames r l s).loc = s.loc := rfl
@[simp] theorem State.sendFrames_time (r : Nat) (l : List WaitingFrame) : (sendFrames r l s).time = s.time := rfl
@[simp] theorem State.sendFrames_cal (r : Nat) (l : List WaitingFrame) : (sendFrames r l s).cal = s.cal := rfl
@[simp] theorem State.sendFrames_dma (r : Nat) (l : List WaitingFrame) : (sendFrames r l s).dma = s.dma := rfl
@[simp] theorem State.sendFrames_safe (r : Nat) (l : List WaitingFrame) : (sendFrames r l s).safe = s.safe := rfl
@[simp] theorem State.sendFrames_pair (r : Nat) (l : List WaitingFrame) : (sendFrames r l s).pair = s.pair := rfl
@[simp] theorem State.sendFrames_ev (r : Nat) (l : List WaitingFrame) : (sendFrames r l s).ev = s.ev := rfl
@[simp] theorem State.sendFrames_tru (r : Nat) (l : List WaitingFrame) : (sendFrames r l s).tru = s.tru := rfl
@[simp] theorem State.sendFrames_power (r : Nat) (l : List WaitingFrame) : (sendFrames r l s).power = s.power := rfl
@[simp] theorem State.sendFrames_jtag (r : Nat) (l : List WaitingFrame) : (sendFrames r l s).jtag = s.jtag := rfl
@[simp] theorem State.sendFrames_mem (r : Nat) (l : List WaitingFrame) : (sendFrames r l s).mem = s.mem := rfl
@[simp] theorem State.sendFrames_pend (r : Nat) (l : List WaitingFrame) : (sendFrames r l s).pend = s.pend := rfl
@[simp] theorem State.sendFrames_free (r : Nat) (l : List WaitingFrame) : (sendFrames r l s).free = s.free := rfl
@[simp] theorem State.sendFrames_pending (r : Nat) (l : List WaitingFrame) : (sendFrames r l s).pending = s.pending := rfl

/-! ### `takeTurn` -/

@[simp] theorem State.takeTurn_board (m : Nat) : (takeTurn s m).board = s.board := rfl
@[simp] theorem State.takeTurn_dev (m : Nat) : (takeTurn s m).dev = s.dev := rfl
@[simp] theorem State.takeTurn_par (m : Nat) : (takeTurn s m).par = s.par := rfl
@[simp] theorem State.takeTurn_plan (m : Nat) : (takeTurn s m).plan = s.plan := rfl
@[simp] theorem State.takeTurn_cyc (m : Nat) : (takeTurn s m).cyc = s.cyc := rfl
@[simp] theorem State.takeTurn_rings (m : Nat) : (takeTurn s m).rings = s.rings := rfl
@[simp] theorem State.takeTurn_axes (m : Nat) : (takeTurn s m).axes = s.axes := rfl
@[simp] theorem State.takeTurn_groups (m : Nat) : (takeTurn s m).groups = s.groups := rfl
@[simp] theorem State.takeTurn_disp (m : Nat) : (takeTurn s m).disp = s.disp := rfl
@[simp] theorem State.takeTurn_pwm (m : Nat) : (takeTurn s m).pwm = s.pwm := rfl
@[simp] theorem State.takeTurn_loc (m : Nat) : (takeTurn s m).loc = s.loc := rfl
@[simp] theorem State.takeTurn_time (m : Nat) : (takeTurn s m).time = s.time := rfl
@[simp] theorem State.takeTurn_cal (m : Nat) : (takeTurn s m).cal = s.cal := rfl
@[simp] theorem State.takeTurn_dma (m : Nat) : (takeTurn s m).dma = s.dma := rfl
@[simp] theorem State.takeTurn_safe (m : Nat) : (takeTurn s m).safe = s.safe := rfl
@[simp] theorem State.takeTurn_pair (m : Nat) : (takeTurn s m).pair = s.pair := rfl
@[simp] theorem State.takeTurn_ev (m : Nat) : (takeTurn s m).ev = s.ev := rfl
@[simp] theorem State.takeTurn_tru (m : Nat) : (takeTurn s m).tru = s.tru := rfl
@[simp] theorem State.takeTurn_power (m : Nat) : (takeTurn s m).power = s.power := rfl
@[simp] theorem State.takeTurn_jtag (m : Nat) : (takeTurn s m).jtag = s.jtag := rfl
@[simp] theorem State.takeTurn_mem (m : Nat) : (takeTurn s m).mem = s.mem := rfl
@[simp] theorem State.takeTurn_pend (m : Nat) : (takeTurn s m).pend = s.pend := rfl
@[simp] theorem State.takeTurn_free (m : Nat) : (takeTurn s m).free = s.free := rfl
@[simp] theorem State.takeTurn_pending (m : Nat) : (takeTurn s m).pending = s.pending := rfl

/-! ### `stressSync` -/

@[simp] theorem State.stressSync_board : (stressSync s).board = s.board := rfl
@[simp] theorem State.stressSync_dev : (stressSync s).dev = s.dev := rfl
@[simp] theorem State.stressSync_host : (stressSync s).host = s.host := rfl
@[simp] theorem State.stressSync_par : (stressSync s).par = s.par := rfl
@[simp] theorem State.stressSync_plan : (stressSync s).plan = s.plan := rfl
@[simp] theorem State.stressSync_cyc : (stressSync s).cyc = s.cyc := rfl
@[simp] theorem State.stressSync_rings : (stressSync s).rings = s.rings := rfl
@[simp] theorem State.stressSync_axes : (stressSync s).axes = s.axes := rfl
@[simp] theorem State.stressSync_groups : (stressSync s).groups = s.groups := rfl
@[simp] theorem State.stressSync_disp : (stressSync s).disp = s.disp := rfl
@[simp] theorem State.stressSync_pwm : (stressSync s).pwm = s.pwm := rfl
@[simp] theorem State.stressSync_loc : (stressSync s).loc = s.loc := rfl
@[simp] theorem State.stressSync_time : (stressSync s).time = s.time := rfl
@[simp] theorem State.stressSync_cal : (stressSync s).cal = s.cal := rfl
@[simp] theorem State.stressSync_dma : (stressSync s).dma = s.dma := rfl
@[simp] theorem State.stressSync_safe : (stressSync s).safe = s.safe := rfl
@[simp] theorem State.stressSync_pair : (stressSync s).pair = s.pair := rfl
@[simp] theorem State.stressSync_ev : (stressSync s).ev = s.ev := rfl
@[simp] theorem State.stressSync_power : (stressSync s).power = s.power := rfl
@[simp] theorem State.stressSync_jtag : (stressSync s).jtag = s.jtag := rfl
@[simp] theorem State.stressSync_mem : (stressSync s).mem = s.mem := rfl
@[simp] theorem State.stressSync_pend : (stressSync s).pend = s.pend := rfl
@[simp] theorem State.stressSync_free : (stressSync s).free = s.free := rfl
@[simp] theorem State.stressSync_pending : (stressSync s).pending = s.pending := rfl

end Sys2Proof.Machine
end

