-- ==== Sys2Proof/Laws/Memory.lean ====
section
/-! SUPPORT. Laws of tables and of the byte memories: a read after a write, and the canonical form under every operation. -/

namespace Sys2Proof.Machine

/-! ### Tables -/

section tables
variable {α : Type} (t : Table α) (d v : α) (k j : Nat)

@[simp] theorem tfind_tput_self : tfind (tput t k v) k = some v := by
  induction t with
  | nil => simp [tput, tfind]
  | cons e r ih =>
    obtain ⟨i, w⟩ := e
    simp only [tput]
    split
    · simp [tfind]
    · split
      · simp [tfind]
      · have : i ≠ k := fun h => by omega
        simp [tfind, this, ih]

theorem tfind_tput_other (h : j ≠ k) : tfind (tput t k v) j = tfind t j := by
  induction t with
  | nil => simp [tput, tfind, h.symm]
  | cons e r ih =>
    obtain ⟨i, w⟩ := e
    simp only [tput]
    split
    · simp [tfind, h.symm]
    · split
      · subst_vars; simp [tfind, h.symm]
      · simp [tfind, ih]

@[simp] theorem tget_tmod_self (f : α → α) : tget (tmod t d k f) d k = f (tget t d k) := by simp [tget, tmod]

theorem tget_tmod_other (f : α → α) (h : j ≠ k) : tget (tmod t d k f) d j = tget t d j := by
  simp [tget, tmod, tfind_tput_other _ _ _ _ h]

@[simp] theorem tfind_tdel_self : tfind (tdel t k) k = none := by
  induction t with
  | nil => rfl
  | cons e r ih =>
    obtain ⟨i, w⟩ := e
    simp only [tdel]
    split
    · exact ih
    · simp [tfind, ‹i ≠ k›, ih]

theorem tfind_tdel_other (h : j ≠ k) : tfind (tdel t k) j = tfind t j := by
  induction t with
  | nil => rfl
  | cons e r ih =>
    obtain ⟨i, w⟩ := e
    simp only [tdel]
    split
    · subst_vars; simp [tfind, h.symm, ih]
    · simp [tfind, ih]

theorem tfind_tmap (f : Nat → α → α) : tfind (tmap t f) k = (tfind t k).map (f k) := by
  induction t with
  | nil => rfl
  | cons e r ih =>
    obtain ⟨i, w⟩ := e
    by_cases h : i = k
    · subst h; simp [tmap, tfind]
    · simpa [tmap, tfind, h] using ih

end tables

/-! ### What an update changes and what it leaves -/

section homes
variable (s : State) (k j : Nat)

@[simp] theorem axis_onAxis_self (f : Axis → Axis) : (s.onAxis k f).axis k = f (s.axis k) := by simp [State.axis, State.onAxis]
theorem axis_onAxis_other (f : Axis → Axis) (h : j ≠ k) : (s.onAxis k f).axis j = s.axis j := by
  simp [State.axis, State.onAxis, tget_tmod_other _ _ _ _ _ h]
@[simp] theorem ring_onRing_self (f : Ring → Ring) : (s.onRing k f).ring k = f (s.ring k) := by simp [State.ring, State.onRing]
theorem ring_onRing_other (f : Ring → Ring) (h : j ≠ k) : (s.onRing k f).ring j = s.ring j := by
  simp [State.ring, State.onRing, tget_tmod_other _ _ _ _ _ h]
@[simp] theorem group_onGroup_self (f : Group → Group) : (s.onGroup k f).group k = f (s.group k) := by simp [State.group, State.onGroup]
theorem group_onGroup_other (f : Group → Group) (h : j ≠ k) : (s.onGroup k f).group j = s.group j := by
  simp [State.group, State.onGroup, tget_tmod_other _ _ _ _ _ h]
@[simp] theorem engine_onEngine_self (f : Engine → Engine) : (s.onEngine k f).engine k = f (s.engine k) := by
  simp [State.engine, State.onEngine]
theorem engine_onEngine_other (f : Engine → Engine) (h : j ≠ k) : (s.onEngine k f).engine j = s.engine j := by
  simp [State.engine, State.onEngine, tget_tmod_other _ _ _ _ _ h]
@[simp] theorem mbox_onMbox_self (f : RingRegs → RingRegs) : (s.onMbox k f).mbox k = f (s.mbox k) := by simp [State.mbox, State.onMbox]
theorem mbox_onMbox_other (f : RingRegs → RingRegs) (h : j ≠ k) : (s.onMbox k f).mbox j = s.mbox j := by
  simp [State.mbox, State.onMbox, tget_tmod_other _ _ _ _ _ h]
@[simp] theorem conn_onConn_self (f : SafeConn → SafeConn) : (s.onConn k f).conn k = f (s.conn k) := by
  simp [State.conn, State.onConn, State.onSafe]
theorem conn_onConn_other (f : SafeConn → SafeConn) (h : j ≠ k) : (s.onConn k f).conn j = s.conn j := by
  simp [State.conn, State.onConn, State.onSafe, tget_tmod_other _ _ _ _ _ h]
@[simp] theorem sout_onSout_self (f : Sout → Sout) : (s.onSout k f).sout k = f (s.sout k) := by
  simp [State.sout, State.onSout, State.onSafe]
theorem sout_onSout_other (f : Sout → Sout) (h : j ≠ k) : (s.onSout k f).sout j = s.sout j := by
  simp [State.sout, State.onSout, State.onSafe, tget_tmod_other _ _ _ _ _ h]

end homes

/-! ### Bytes of a memory -/

theorem memGet_memClear_other (m : List Host.Cell) (a x : Nat) (h : x ≠ a) : memGet (memClear m a) x = memGet m x := by
  induction m with
  | nil => rfl
  | cons e r ih =>
    obtain ⟨i, v⟩ := e
    simp only [memClear]
    split
    · rfl
    · split
      · subst_vars; simp [memGet, h.symm]
      · simp [memGet, ih]

@[simp] theorem memGet_memSet_self (m : List Host.Cell) (a : Nat) (b : Byte) : memGet (memSet m a b) a = b := by
  induction m with
  | nil => simp [memSet, memGet]
  | cons e r ih =>
    obtain ⟨i, v⟩ := e
    simp only [memSet]
    split
    · simp [memGet]
    · split
      · simp [memGet]
      · have : i ≠ a := fun h => by omega
        simp [memGet, this, ih]

theorem memGet_memSet_other (m : List Host.Cell) (a x : Nat) (b : Byte) (h : x ≠ a) : memGet (memSet m a b) x = memGet m x := by
  induction m with
  | nil => simp [memSet, memGet, h.symm]
  | cons e r ih =>
    obtain ⟨i, v⟩ := e
    simp only [memSet]
    split
    · simp [memGet, h.symm]
    · split
      · subst_vars; simp [memGet, h.symm]
      · simp [memGet, ih]

theorem memGet_below (m : List Host.Cell) : ∀ lo a, Memory.wfFrom lo m = true → a < lo → memGet m a = 0 := by
  induction m with
  | nil => intros; rfl
  | cons e r ih =>
    obtain ⟨i, v⟩ := e
    intro lo a h hl
    simp only [Memory.wfFrom, Bool.and_eq_true, Nat.ble_eq] at h
    have : i ≠ a := fun h' => by omega
    simp only [memGet, this, if_false]
    exact ih _ _ h.2 (by omega)

theorem memGet_memClear_self (m : List Host.Cell) : ∀ lo a, Memory.wfFrom lo m = true → memGet (memClear m a) a = 0 := by
  induction m with
  | nil => intros; rfl
  | cons e r ih =>
    obtain ⟨i, v⟩ := e
    intro lo a h
    have h0 := h
    simp only [Memory.wfFrom, Bool.and_eq_true, Nat.ble_eq] at h
    simp only [memClear]
    split
    · have : i ≠ a := fun h' => by omega
      simp only [memGet, this, if_false]
      exact memGet_below r _ _ h.2 (by omega)
    · split
      · subst_vars; exact memGet_below r _ _ h.2 (by omega)
      · have : i ≠ a := fun h' => by omega
        simp only [memGet, this, if_false]
        exact ih _ _ h.2

/-- Reading the byte that was written. -/
theorem memGet_memPut_self (m : List Host.Cell) (a : Nat) (b : Byte) (h : Memory.wf m = true) : memGet (memPut m a b) a = b := by
  unfold memPut
  split
  · rw [memGet_memClear_self m 0 a h]; exact Eq.symm ‹_›
  · simp

/-- A write leaves every other byte. -/
theorem memGet_memPut_other (m : List Host.Cell) (a x : Nat) (b : Byte) (h : x ≠ a) : memGet (memPut m a b) x = memGet m x := by
  unfold memPut
  split
  · exact memGet_memClear_other _ _ _ h
  · exact memGet_memSet_other _ _ _ _ h

/-! ### The canonical form -/

theorem wfFrom_mono {m : List Host.Cell} {lo hi : Nat} (h : Memory.wfFrom hi m = true) (hl : lo ≤ hi) : Memory.wfFrom lo m = true := by
  cases m with
  | nil => rfl
  | cons e r =>
    obtain ⟨i, v⟩ := e
    simp only [Memory.wfFrom, Bool.and_eq_true, Nat.ble_eq] at h ⊢
    exact ⟨⟨by omega, h.1.2⟩, h.2⟩

theorem wfFrom_memClear (m : List Host.Cell) : ∀ lo a, Memory.wfFrom lo m = true → Memory.wfFrom lo (memClear m a) = true := by
  induction m with
  | nil => intros; rfl
  | cons e r ih =>
    obtain ⟨i, v⟩ := e
    intro lo a h
    have h0 := h
    simp only [Memory.wfFrom, Bool.and_eq_true, Nat.ble_eq] at h
    simp only [memClear]
    split
    · exact h0
    · split
      · exact wfFrom_mono h.2 (by omega)
      · simp only [Memory.wfFrom, Bool.and_eq_true, Nat.ble_eq]
        exact ⟨h.1, ih _ _ h.2⟩

theorem wfFrom_memSet (b : Byte) (hb : b ≠ 0) (m : List Host.Cell) :
    ∀ lo a, Memory.wfFrom lo m = true → lo ≤ a → Memory.wfFrom lo (memSet m a b) = true := by
  induction m with
  | nil => intro lo a _ h; simp only [memSet, Memory.wfFrom, Bool.and_eq_true, Nat.ble_eq]; exact ⟨⟨h, by simpa using hb⟩, trivial⟩
  | cons e r ih =>
    obtain ⟨i, v⟩ := e
    intro lo a h hl
    simp only [Memory.wfFrom, Bool.and_eq_true, Nat.ble_eq] at h
    simp only [memSet]
    split
    · simp only [Memory.wfFrom, Bool.and_eq_true, Nat.ble_eq]
      exact ⟨⟨hl, by simpa using hb⟩, ⟨by omega, h.1.2⟩, h.2⟩
    · split
      · subst_vars
        simp only [Memory.wfFrom, Bool.and_eq_true, Nat.ble_eq]
        exact ⟨⟨hl, by simpa using hb⟩, h.2⟩
      · simp only [Memory.wfFrom, Bool.and_eq_true, Nat.ble_eq]
        exact ⟨h.1, ih _ _ h.2 (by omega)⟩

/-- Writing a byte keeps the canonical form. -/
theorem wf_memPut {m : List Host.Cell} (a : Nat) (b : Byte) (h : Memory.wf m = true) : Memory.wf (memPut m a b) = true := by
  unfold memPut
  split
  · exact wfFrom_memClear _ _ _ h
  · exact wfFrom_memSet b ‹_› _ _ _ h (Nat.zero_le _)

/-- Writing bytes keeps the canonical form. -/
theorem wf_memWrite {m : List Host.Cell} (a : Nat) (b : Bytes) (h : Memory.wf m = true) : Memory.wf (memWrite m a b) = true := by
  induction b generalizing m a with
  | nil => exact h
  | cons x r ih => exact ih _ (wf_memPut _ _ h)

theorem wfFrom_filter (p : Host.Cell → Bool) (m : List Host.Cell) :
    ∀ lo, Memory.wfFrom lo m = true → Memory.wfFrom lo (m.filter p) = true := by
  induction m with
  | nil => intros; rfl
  | cons e r ih =>
    obtain ⟨i, v⟩ := e
    intro lo h
    simp only [Memory.wfFrom, Bool.and_eq_true, Nat.ble_eq] at h
    simp only [List.filter]
    split
    · simp only [Memory.wfFrom, Bool.and_eq_true, Nat.ble_eq]; exact ⟨h.1, ih _ h.2⟩
    · exact wfFrom_mono (ih _ h.2) (by omega)

theorem wf_filter (p : Host.Cell → Bool) {m : List Host.Cell} (h : Memory.wf m = true) : Memory.wf (m.filter p) = true :=
  wfFrom_filter p m 0 h

/-- Clearing bytes keeps the canonical form. -/
theorem wf_memZero {m : List Host.Cell} (a n : Nat) (h : Memory.wf m = true) : Memory.wf (memZero m a n) = true := wf_filter _ h

theorem wfFrom_shift (a : Nat) (m : List Host.Cell) :
    ∀ lo, Memory.wfFrom lo m = true → Memory.wfFrom (lo + a) (m.map (fun c => (c.1 + a, c.2))) = true := by
  induction m with
  | nil => intros; rfl
  | cons e r ih =>
    obtain ⟨i, v⟩ := e
    intro lo h
    simp only [Memory.wfFrom, Bool.and_eq_true, Nat.ble_eq] at h
    simp only [List.map, Memory.wfFrom, Bool.and_eq_true, Nat.ble_eq]
    refine ⟨⟨by omega, h.1.2⟩, ?_⟩
    have := ih _ h.2
    rwa [show i + 1 + a = i + a + 1 by omega] at this

/-- Two canonical lists of which one ends below where the other begins make one. -/
theorem wfFrom_append (n : List Host.Cell) (hi : Nat) (hn : Memory.wfFrom hi n = true) (m : List Host.Cell) :
    ∀ lo, Memory.wfFrom lo m = true → (∀ c ∈ m, c.1 < hi) → lo ≤ hi → Memory.wfFrom lo (m ++ n) = true := by
  induction m with
  | nil => intro lo _ _ hl; exact wfFrom_mono hn hl
  | cons e r ih =>
    obtain ⟨i, v⟩ := e
    intro lo h hb hl
    simp only [Memory.wfFrom, Bool.and_eq_true, Nat.ble_eq] at h
    simp only [List.cons_append, Memory.wfFrom, Bool.and_eq_true, Nat.ble_eq]
    have := hb (i, v) (by simp)
    exact ⟨h.1, ih _ h.2 (fun c hc => hb c (List.mem_cons_of_mem _ hc)) (by simpa using this)⟩

theorem wfFrom_le {m : List Host.Cell} : ∀ {lo : Nat}, Memory.wfFrom lo m = true → ∀ c ∈ m, lo ≤ c.1 := by
  induction m with
  | nil => intro _ _ c h; simp at h
  | cons e r ih =>
    obtain ⟨i, v⟩ := e
    intro lo h c hc
    simp only [Memory.wfFrom, Bool.and_eq_true, Nat.ble_eq] at h
    rcases List.mem_cons.mp hc with rfl | hc
    · exact h.1.1
    · have := ih h.2 c hc; omega

theorem wfFrom_of_le {m : List Host.Cell} (hi : Nat) : ∀ lo, Memory.wfFrom lo m = true → (∀ c ∈ m, hi ≤ c.1) → Memory.wfFrom hi m = true := by
  intro lo h hb
  cases m with
  | nil => rfl
  | cons e r =>
    obtain ⟨i, v⟩ := e
    simp only [Memory.wfFrom, Bool.and_eq_true, Nat.ble_eq] at h ⊢
    exact ⟨⟨by simpa using hb (i, v) (by simp), h.1.2⟩, h.2⟩

theorem wfFrom_cellsFrom (b : Bytes) : ∀ a, Memory.wfFrom a (cellsFrom a b) = true := by
  induction b with
  | nil => intro a; rfl
  | cons x r ih =>
    intro a
    simp only [cellsFrom]
    split
    · exact wfFrom_mono (ih _) (by omega)
    · simp only [Memory.wfFrom, Bool.and_eq_true, Nat.ble_eq]
      exact ⟨⟨Nat.le_refl _, by simpa using ‹_›⟩, ih _⟩

@[simp] theorem wf_cellsFrom (a : Nat) (b : Bytes) : Memory.wf (cellsFrom a b) = true := wfFrom_mono (wfFrom_cellsFrom b a) (Nat.zero_le _)

/-- Copying bytes keeps the canonical form. -/
theorem wf_memPaste {m src : List Host.Cell} (a n : Nat) (h : Memory.wf m = true) (hs : Memory.wf src = true) :
    Memory.wf (memPaste m a n src) = true := by
  have high : Memory.wfFrom (a + n) (m.filter (fun c => Nat.ble (a + n) c.1)) = true :=
    wfFrom_of_le _ 0 (wf_filter _ h) (by intro c hc; simpa using (List.mem_filter.mp hc).2)
  have mid : Memory.wfFrom a ((src.filter (fun c => Nat.blt c.1 n)).map (fun c => (c.1 + a, c.2))) = true := by
    simpa using wfFrom_shift a _ 0 (wf_filter (fun c => Nat.blt c.1 n) hs)
  have two := wfFrom_append _ _ high _ a mid (by
    intro c hc
    obtain ⟨d, hd, rfl⟩ := List.mem_map.mp hc
    have := (List.mem_filter.mp hd).2
    simp at this ⊢
    omega) (by omega)
  have := wfFrom_append _ _ two _ 0 (wf_filter (fun c => Nat.blt c.1 a) h) (by
    intro c hc; simpa using (List.mem_filter.mp hc).2) (Nat.zero_le _)
  simpa [Memory.wf, memPaste, List.append_assoc] using this

theorem wfFrom_unshift (a : Nat) (m : List Host.Cell) :
    ∀ lo, Memory.wfFrom (lo + a) m = true → Memory.wfFrom lo (m.map (fun c => (c.1 - a, c.2))) = true := by
  induction m with
  | nil => intros; rfl
  | cons e r ih =>
    obtain ⟨i, v⟩ := e
    intro lo h
    simp only [Memory.wfFrom, Bool.and_eq_true, Nat.ble_eq] at h
    simp only [List.map, Memory.wfFrom, Bool.and_eq_true, Nat.ble_eq]
    refine ⟨⟨by omega, h.1.2⟩, ih _ ?_⟩
    have : i - a + 1 + a = i + 1 := by omega
    rw [this]; exact h.2

/-- A slice of a canonical memory is canonical. -/
theorem wf_memSlice {m : List Host.Cell} (a n : Nat) (h : Memory.wf m = true) : Memory.wf (memSlice m a n) = true := by
  refine wfFrom_unshift a _ 0 (wfFrom_of_le _ 0 (wf_filter _ h) ?_)
  intro c hc
  have := (List.mem_filter.mp hc).2
  simp at this
  omega

/-! ### Reads through the block operations -/

theorem memGet_filter (p : Host.Cell → Bool) (x : Nat) (hp : ∀ v, p (x, v) = true) (m : List Host.Cell) :
    memGet (m.filter p) x = memGet m x := by
  induction m with
  | nil => rfl
  | cons e r ih =>
    obtain ⟨i, v⟩ := e
    by_cases h : i = x
    · subst h; simp [List.filter, hp, memGet]
    · simp only [List.filter]
      split <;> simp [memGet, h, ih]

theorem memGet_none (x : Nat) (m : List Host.Cell) (h : ∀ c ∈ m, c.1 ≠ x) : memGet m x = 0 := by
  induction m with
  | nil => rfl
  | cons e r ih =>
    obtain ⟨i, v⟩ := e
    have h1 : i ≠ x := h (i, v) (by simp)
    simp only [memGet, h1, if_false]
    exact ih (fun c hc => h c (List.mem_cons_of_mem _ hc))

theorem memGet_append_left (x : Nat) (m n : List Host.Cell) (h : ∀ c ∈ m, c.1 ≠ x) : memGet (m ++ n) x = memGet n x := by
  induction m with
  | nil => rfl
  | cons e r ih =>
    obtain ⟨i, v⟩ := e
    have h1 : i ≠ x := h (i, v) (by simp)
    simp only [List.cons_append, memGet, h1, if_false]
    exact ih (fun c hc => h c (List.mem_cons_of_mem _ hc))

theorem memGet_append_right (x : Nat) (m n : List Host.Cell) (h : ∀ c ∈ n, c.1 ≠ x) : memGet (m ++ n) x = memGet m x := by
  induction m with
  | nil => rw [List.nil_append, memGet_none x n h]; rfl
  | cons e r ih =>
    obtain ⟨i, v⟩ := e
    by_cases h1 : i = x
    · subst h1; simp [memGet]
    · simp only [List.cons_append, memGet, h1, if_false, ih]

theorem memGet_shift (a x : Nat) (m : List Host.Cell) : memGet (m.map (fun c => (c.1 + a, c.2))) (x + a) = memGet m x := by
  induction m with
  | nil => rfl
  | cons e r ih =>
    obtain ⟨i, v⟩ := e
    by_cases h : i = x
    · subst h; simp [memGet]
    · simp only [List.map, memGet, h, if_false, ih]
      rw [if_neg (by omega)]

/-- A byte that was copied in. -/
theorem memGet_memPaste_in (m src : List Host.Cell) (a n o : Nat) (h : o < n) : memGet (memPaste m a n src) (a + o) = memGet src o := by
  unfold memPaste
  rw [memGet_append_right, memGet_append_left, Nat.add_comm a o, memGet_shift, memGet_filter]
  · intro v; simpa using h
  · intro c hc; have := (List.mem_filter.mp hc).2; simp at this; omega
  · intro c hc; have := (List.mem_filter.mp hc).2; simp at this; omega

/-- Copying leaves every byte outside the copied range. -/
theorem memGet_memPaste_out (m src : List Host.Cell) (a n x : Nat) (h : x < a ∨ a + n ≤ x) : memGet (memPaste m a n src) x = memGet m x := by
  have mid : ∀ c ∈ (src.filter (fun c => Nat.blt c.1 n)).map (fun c => (c.1 + a, c.2)), c.1 ≠ x := by
    intro c hc
    obtain ⟨d, hd, rfl⟩ := List.mem_map.mp hc
    have := (List.mem_filter.mp hd).2
    simp at this ⊢
    omega
  unfold memPaste
  rcases h with h | h
  · rw [memGet_append_right, memGet_append_right _ _ _ mid, memGet_filter]
    · intro v; simpa using h
    · intro c hc; have := (List.mem_filter.mp hc).2; simp at this; omega
  · rw [List.append_assoc, memGet_append_left, memGet_append_left _ _ _ mid, memGet_filter]
    · intro v; simpa using h
    · intro c hc; have := (List.mem_filter.mp hc).2; simp at this; omega

theorem memGet_cellsFrom (b : Bytes) : ∀ a o, memGet (cellsFrom a b) (a + o) = (b[o]?).getD 0 := by
  induction b with
  | nil => intros; rfl
  | cons x r ih =>
    intro a o
    simp only [cellsFrom]
    cases o with
    | zero =>
      split
      · have h : memGet (cellsFrom (a + 1) r) a = 0 := memGet_below _ _ _ (wfFrom_cellsFrom r (a + 1)) (by omega)
        simp [h, ‹x = 0›]
      · simp [memGet]
    | succ o =>
      have e : a + (o + 1) = a + 1 + o := by omega
      split
      · rw [e, ih]; simp
      · simp only [memGet]
        rw [if_neg (by omega), e, ih]; simp

/-- A write of bytes leaves every byte outside them. -/
theorem memGet_memWrite_out (m : List Host.Cell) (b : Bytes) :
    ∀ a x, x < a ∨ a + b.length ≤ x → memGet (memWrite m a b) x = memGet m x := by
  induction b generalizing m with
  | nil => intros; rfl
  | cons v r ih =>
    intro a x h
    simp only [List.length_cons] at h
    rw [memWrite, ih _ _ _ (by omega), memGet_memPut_other _ _ _ _ (by omega)]

/-- A byte of a write. -/
theorem memGet_memWrite_in {m : List Host.Cell} (h : Memory.wf m = true) (b : Bytes) :
    ∀ a o, o < b.length → memGet (memWrite m a b) (a + o) = (b[o]?).getD 0 := by
  induction b generalizing m with
  | nil => intro _ o ho; simp at ho
  | cons v r ih =>
    intro a o ho
    cases o with
    | zero => rw [memWrite, memGet_memWrite_out _ _ _ _ (by omega)]; simpa using memGet_memPut_self m a v h
    | succ o =>
      have e : a + (o + 1) = a + 1 + o := by omega
      rw [memWrite, e, ih (wf_memPut _ _ h) _ _ (by simpa using ho)]; simp

theorem memRead_eq_map (m : List Host.Cell) (n : Nat) : ∀ a, memRead m a n = (List.range n).map (fun i => memGet m (a + i)) := by
  induction n with
  | zero => intro a; rfl
  | succ n ih =>
    intro a
    rw [memRead, ih, List.range_succ_eq_map]
    simp [Function.comp_def, Nat.add_assoc, Nat.add_comm 1]

@[simp] theorem memRead_length (m : List Host.Cell) (a n : Nat) : (memRead m a n).length = n := by simp [memRead_eq_map]

/-- Reading back what was written. -/
theorem memRead_memWrite {m : List Host.Cell} (h : Memory.wf m = true) (a : Nat) (b : Bytes) : memRead (memWrite m a b) a b.length = b := by
  rw [memRead_eq_map]
  apply List.ext_getElem (by simp)
  intro i h1 h2
  simp [memGet_memWrite_in h b a i h2, List.getElem?_eq_getElem h2]

/-! ### The memories of the block -/

/-- What leaves the memories and the plan keeps their canonical form. -/
theorem memInv_of_eq {s t : State} (h : MemInv s) (e : t.mem = s.mem) (p : t.plan = s.plan) : MemInv t := by
  unfold MemInv at *
  rw [e, p]
  exact h

theorem memInv_sram {s : State} (h : MemInv s) (m : List Host.Cell) (hm : Memory.wf m = true) :
    MemInv { s with mem := { s.mem with sram := m } } := by
  obtain ⟨⟨-, h2, h3, h4, h5⟩, hp⟩ := h
  exact ⟨⟨hm, h2, h3, h4, h5⟩, hp⟩

theorem memInv_capture {s : State} (h : MemInv s) (m : List Host.Cell) (hm : Memory.wf m = true) :
    MemInv { s with mem := { s.mem with capture := m } } := by
  obtain ⟨⟨h1, -, h3, h4, h5⟩, hp⟩ := h
  exact ⟨⟨h1, hm, h3, h4, h5⟩, hp⟩

theorem memInv_ddr {s : State} (h : MemInv s) (m : List Host.Cell) (hm : Memory.wf m = true) :
    MemInv { s with mem := { s.mem with ddr := m } } := by
  obtain ⟨⟨h1, h2, -, h4, h5⟩, hp⟩ := h
  exact ⟨⟨h1, h2, hm, h4, h5⟩, hp⟩

theorem memInv_mram {s : State} (h : MemInv s) (m : List Host.Cell) (hm : Memory.wf m = true) :
    MemInv { s with mem := { s.mem with mram := m } } := by
  obtain ⟨⟨h1, h2, h3, -, h5⟩, hp⟩ := h
  exact ⟨⟨h1, h2, h3, hm, h5⟩, hp⟩

theorem memInv_host {s : State} (h : MemInv s) (m : List Host.Cell) (hm : Memory.wf m = true) :
    MemInv { s with mem := { s.mem with host := m } } := by
  obtain ⟨⟨h1, h2, h3, h4, -, h6⟩, hp⟩ := h
  exact ⟨⟨h1, h2, h3, h4, hm, h6⟩, hp⟩

/-- A write of the shared SRAM keeps the memories' canonical form. -/
theorem memInv_sramWrite {s : State} (h : MemInv s) (a : Nat) (b : Bytes) : MemInv (s.sramWrite a b) :=
  memInv_sram h _ (wf_memWrite a b h.1.1)

/-- The commit of a shavings record keeps the memories' canonical form. -/
theorem memInv_commitFrozen {s : State} (h : MemInv s) (f : Freeze) : MemInv (commitFrozen s f) :=
  memInv_of_eq (memInv_mram h _ (wf_memPaste (slotBase f.slot) 589824 h.1.2.2.2.1 (wf_cellsFrom 0 (slotBytes f)))) rfl rfl

end Sys2Proof.Machine
end

