-- ==== Sys2Proof/Laws/Engine.lean ====
section
/-! SUPPORT. Laws of the loop engines: what one instruction of a ready engine leaves, its moves, its flags, and a result in an
accumulator. -/

namespace Sys2Proof.Machine

/-- What one instruction with its moves leaves, given that nothing faults: the operation's registers with the loads that land, the
moves' pointers and stores, and one clock. -/
def singleCore (op : EOp) (m1 m2 : Move) (idx : Nat) (c : ECore) : ECore :=
  let o := runOp op idx c.regs
  let d := doStore c m2 (doStore c m1 (c.data, false))
  let l := landAll c.landing o.wx o.wa o.regs.x o.regs.a
  let r1 := { o.regs with x := l.1, a := l.2, es := esStick o.regs.es esSST d.2 }
  { c with
    regs := bumpPtr c.regs o.wp m2 (bumpPtr c.regs o.wp m1 r1),
    aOld := (landAll c.landing o.wx o.wa c.regs.x c.regs.a).2, nzgOld := c.regs.es,
    landing := moveLoad c m1 ++ moveLoad c m2, data := d.1, clocks := c.clocks + 1 }

theorem execSingle_eq {e : Nat} {s : State} {m1 m2 : Move} (hm : MovesOk e m1 m2 s) (op : EOp) (k : Nat)
    (ho : (runOp op k (s.core e).regs).fault = none) :
    execSingle op m1 m2 k (s.core e) = singleCore op m1 m2 k (s.core e) := by
  obtain ⟨a, b, c⟩ := hm
  simp [execSingle, a, b, c, ho, singleCore]

theorem onEngine_core_congr (s : State) (e : Nat) (f : Engine → Engine) (g : Engine → Engine) (h : f (s.engine e) = g (s.engine e)) :
    s.onEngine e f = s.onEngine e g := by
  simp only [State.onEngine, tmod]
  have : tget s.disp.engines {} e = s.engine e := rfl
  rw [this, h]

theorem runRow_ready {e : Nat} {s : State} (h : EngineReady e s) (op : EOp) (m1 m2 : Move) :
    runRow e op m1 m2 s = .next (s.onEngine e (fun g => { g with core := takeHalt (execFlow op m1 m2 (s.core e)) })) := by
  obtain ⟨h1, h2, h3, h4, h5, h6, h7, h8, h9, h10⟩ := h
  unfold runRow
  rw [if_pos ⟨h1, h2⟩]
  congr 1
  apply onEngine_core_congr
  have : (s.engine e).core = s.core e := rfl
  simp only [this, execInstr, h3, h4, h5, h8]
  rw [if_neg (by simp), if_neg (by omega)]

theorem takeHalt_id {c : ECore} (h : c.haltAsked = false) : takeHalt c = c := by simp [takeHalt, h]

/-- A plain operation: neither a branch nor REP nor DONE, and not faulting. -/
theorem runRow_plain {e : Nat} {s : State} {m1 m2 : Move} (h : EngineReady e s) (hm : MovesOk e m1 m2 s) (op : EOp)
    (hp : slotIllegal op = false) (ho : (runOp op 0 (s.core e).regs).fault = none) :
    runRow e op m1 m2 s = .next (s.onEngine e (fun g =>
      { g with core := { singleCore op m1 m2 0 (s.core e) with pc := (s.core e).pc + 1 } })) := by
  rw [runRow_ready h]
  congr 1
  apply onEngine_core_congr
  obtain ⟨h1, h2, h3, h4, h5, h6, h7, h8, h9, h10⟩ := h
  have e1 : execFlow op m1 m2 (s.core e) = { singleCore op m1 m2 0 (s.core e) with pc := (s.core e).pc + 1 } := by
    simp only [execFlow, h9, execSingle_eq hm op 0 ho]
    have hf : (singleCore op m1 m2 0 (s.core e)).fault = none := h3
    have hb : (singleCore op m1 m2 0 (s.core e)).branch = none := h9
    rw [if_neg (by simp), if_neg (by simp [hf])]
    cases op <;> simp_all [slotIllegal, advancePc] <;> rfl
  rw [e1]
  exact congrArg (fun c => ({ s.engine e with core := c } : Engine)) (takeHalt_id h6)

theorem runsCore_plain {i : Instr} {e : Nat} {s : State} {m1 m2 : Move} {op : EOp} {R : ECore → Prop}
    (hi : exec i s = runRow e op m1 m2 s) (h : EngineReady e s) (hm : MovesOk e m1 m2 s)
    (hp : slotIllegal op = false) (ho : (runOp op 0 (s.core e).regs).fault = none)
    (hR : R { singleCore op m1 m2 0 (s.core e) with pc := (s.core e).pc + 1 }) : RunsCore i e s R :=
  ⟨_, by rw [hi, runRow_plain h hm op hp ho], hR⟩

theorem bumpPtr_frame (old : ERegs) (wp : Option Nat) (m : Move) (r : ERegs) :
    (bumpPtr old wp m r).x = r.x ∧ (bumpPtr old wp m r).a = r.a ∧ (bumpPtr old wp m r).m = r.m ∧ (bumpPtr old wp m r).l = r.l ∧
    (bumpPtr old wp m r).lc = r.lc ∧ (bumpPtr old wp m r).ix = r.ix ∧ (bumpPtr old wp m r).bx = r.bx ∧
    (bumpPtr old wp m r).es = r.es ∧ (bumpPtr old wp m r).stack = r.stack := by
  unfold bumpPtr
  split
  · split <;> simp [ERegs.setP]
  · simp

theorem bumpPtr_other (old : ERegs) (wp : Option Nat) (m : Move) (r : ERegs) (j : Nat) (h : moveModifies m ≠ some j) :
    (bumpPtr old wp m r).pr j = r.pr j := by
  unfold bumpPtr
  unfold moveModifies at h
  cases hm : movePtr m with
  | none => rfl
  | some pm =>
    obtain ⟨p, md⟩ := pm
    simp only [hm] at h ⊢
    split
    · rfl
    · rename_i hk
      have : p ≠ j := by
        intro hj; subst hj
        cases md <;> simp_all
      simp [ERegs.setP, ERegs.pr, this]

theorem landAll_wa (l : List Landing) (wx wa : Option Nat) (x : List W24) (a : List W56) (i : Nat) (h : wa = some i) :
    (landAll l wx wa x a).2[i]? = a[i]? := by
  unfold landAll
  induction l generalizing x a with
  | nil => rfl
  | cons e r ih =>
    simp only [List.foldl_cons]
    cases e with
    | x q v => simp only; split <;> exact ih _ _
    | lower q v =>
      simp only
      split
      · exact ih _ _
      · rename_i hq
        have : q ≠ i := by intro hh; subst hh; exact hq h
        rw [ih]; simp [this]
    | upper q v =>
      simp only
      split
      · exact ih _ _
      · rename_i hq
        have : q ≠ i := by intro hh; subst hh; exact hq h
        rw [ih]; simp [this]

theorem esStick_bit (es : BitVec 8) (i j : Nat) (v : Bool) (hi : i < 8) (hj : j < 8) :
    (esStick es i v).getLsbD j = (es.getLsbD j || (v && decide (i = j))) := by
  unfold esStick esPut
  cases v
  · simp
  · have hi' : i = 0 ∨ i = 1 ∨ i = 2 ∨ i = 3 ∨ i = 4 ∨ i = 5 ∨ i = 6 ∨ i = 7 := by omega
    have hj' : j = 0 ∨ j = 1 ∨ j = 2 ∨ j = 3 ∨ j = 4 ∨ j = 5 ∨ j = 6 ∨ j = 7 := by omega
    rcases hi' with rfl | rfl | rfl | rfl | rfl | rfl | rfl | rfl <;>
    rcases hj' with rfl | rfl | rfl | rfl | rfl | rfl | rfl | rfl <;> simp

theorem esPut_bit (es : BitVec 8) (i j : Nat) (v : Bool) (hi : i < 8) (hj : j < 8) :
    (esPut es i v).getLsbD j = if i = j then v else es.getLsbD j := by
  unfold esPut
  have hi' : i = 0 ∨ i = 1 ∨ i = 2 ∨ i = 3 ∨ i = 4 ∨ i = 5 ∨ i = 6 ∨ i = 7 := by omega
  have hj' : j = 0 ∨ j = 1 ∨ j = 2 ∨ j = 3 ∨ j = 4 ∨ j = 5 ∨ j = 6 ∨ j = 7 := by omega
  cases v <;> rcases hi' with rfl | rfl | rfl | rfl | rfl | rfl | rfl | rfl <;>
  rcases hj' with rfl | rfl | rfl | rfl | rfl | rfl | rfl | rfl <;> simp

theorem singleCore_regs (op : EOp) (m1 m2 : Move) (k : Nat) (c : ECore) :
    let o := runOp op k c.regs
    let g := (singleCore op m1 m2 k c).regs
    g.x = (landAll c.landing o.wx o.wa o.regs.x o.regs.a).1 ∧ g.a = (landAll c.landing o.wx o.wa o.regs.x o.regs.a).2 ∧
    g.m = o.regs.m ∧ g.l = o.regs.l ∧ g.lc = o.regs.lc ∧ g.ix = o.regs.ix ∧ g.bx = o.regs.bx ∧ g.stack = o.regs.stack ∧
    g.es = esStick o.regs.es esSST (doStore c m2 (doStore c m1 (c.data, false))).2 := by
  intro o g
  have f1 := bumpPtr_frame c.regs o.wp m1
    { o.regs with x := (landAll c.landing o.wx o.wa o.regs.x o.regs.a).1, a := (landAll c.landing o.wx o.wa o.regs.x o.regs.a).2, es := esStick o.regs.es esSST (doStore c m2 (doStore c m1 (c.data, false))).2 }
  have f2 := bumpPtr_frame c.regs o.wp m2 (bumpPtr c.regs o.wp m1
    { o.regs with x := (landAll c.landing o.wx o.wa o.regs.x o.regs.a).1, a := (landAll c.landing o.wx o.wa o.regs.x o.regs.a).2, es := esStick o.regs.es esSST (doStore c m2 (doStore c m1 (c.data, false))).2 })
  obtain ⟨a1, a2, a3, a4, a5, a6, a7, a8, a9⟩ := f1
  obtain ⟨b1, b2, b3, b4, b5, b6, b7, b8, b9⟩ := f2
  exact ⟨b1.trans a1, b2.trans a2, b3.trans a3, b4.trans a4, b5.trans a5, b6.trans a6, b7.trans a7, b9.trans a9, b8.trans a8⟩

theorem singleCore_moves {op : EOp} {m1 m2 : Move} {k : Nat} {c : ECore} (hp : (runOp op k c.regs).regs.p = c.regs.p) (n : Nat) :
    MovesOnly m1 m2 c { singleCore op m1 m2 k c with pc := n } := by
  refine ⟨rfl, ?_, ?_⟩
  · intro j h1 h2
    show (bumpPtr _ _ _ (bumpPtr _ _ _ _)).pr j = _
    rw [bumpPtr_other _ _ _ _ _ h2, bumpPtr_other _ _ _ _ _ h1]
    simp [ERegs.pr, hp]
  · intro d h1 h2
    show tfind (doStore c m2 (doStore c m1 (c.data, false))).1 d = _
    have step : ∀ (m : Move) (x : Table W24 × Bool), (∀ w, moveStore c m = some w → w.1 ≠ d) →
        tfind (doStore c m x).1 d = tfind x.1 d := by
      intro m x hm
      unfold doStore
      split
      · rename_i a w sat hs
        exact tfind_tput_other _ _ _ _ (hm _ hs).symm
      · rfl
    rw [step _ _ h2, step _ _ h1]

theorem nine_bits (x : BitVec 9) :
    (!(x == 0 || x == BitVec.allOnes 9)) = (List.range 8).any (fun i => x.getLsbD i != x.getLsbD 8) := by
  by_cases h : ∀ i, i < 9 → x.getLsbD i = x.getLsbD 8
  · have hr : (List.range 8).any (fun i => x.getLsbD i != x.getLsbD 8) = false := by
      simp only [List.any_eq_false, List.mem_range, bne_iff_ne, ne_eq, Decidable.not_not]
      exact fun i hi => h i (by omega)
    rw [hr]
    cases hb : x.getLsbD 8
    · have : x = 0 := BitVec.eq_of_getLsbD_eq (fun i hi => by rw [h i hi, hb]; simp)
      subst this; rfl
    · have : x = BitVec.allOnes 9 := BitVec.eq_of_getLsbD_eq (fun i hi => by rw [h i hi, hb, BitVec.getLsbD_allOnes]; simpa using hi)
      subst this; rfl
  · have hr : (List.range 8).any (fun i => x.getLsbD i != x.getLsbD 8) = true := by
      simp only [not_forall] at h
      obtain ⟨i, hi, hn⟩ := h
      have : i ≠ 8 := fun e => hn (by rw [e])
      exact List.any_eq_true.mpr ⟨i, List.mem_range.mpr (by omega), by simpa using hn⟩
    rw [hr]
    have h0 : x ≠ 0 := fun e => h (fun i _ => by rw [e]; simp)
    have h1 : x ≠ BitVec.allOnes 9 := fun e => h (fun i hi => by rw [e, BitVec.getLsbD_allOnes, BitVec.getLsbD_allOnes]; simpa using hi)
    rw [beq_eq_false_iff_ne.mpr h0, beq_eq_false_iff_ne.mpr h1]; rfl

/-- G says that bits [55:47] are not all equal (R316). -/
theorem esAcc_bits (es : BitVec 8) (v : W56) : (esAcc es v).getLsbD esN = v.msb ∧ (esAcc es v).getLsbD esZ = decide (v = 0) ∧
    (esAcc es v).getLsbD esG = (List.range 8).any (fun i => v.getLsbD (47 + i) != v.getLsbD 55) ∧
    (esAcc es v).getLsbD esSST = es.getLsbD esSST ∧ (esAcc es v).getLsbD esSAC = es.getLsbD esSAC := by
  have b := fun (x : BitVec 8) (i j : Nat) (w : Bool) (hi : i < 8) (hj : j < 8) => esPut_bit x i j w hi hj
  unfold esAcc
  refine ⟨?_, ?_, ?_, ?_, ?_⟩
  · rw [b _ _ _ _ (by decide) (by decide), if_neg (by decide), b _ _ _ _ (by decide) (by decide), if_neg (by decide),
      b _ _ _ _ (by decide) (by decide), if_pos rfl]
  · rw [b _ _ _ _ (by decide) (by decide), if_neg (by decide), b _ _ _ _ (by decide) (by decide), if_pos rfl]
    exact (Bool.beq_eq_decide_eq v 0)
  · rw [b _ _ _ _ (by decide) (by decide), if_pos rfl]
    rw [nine_bits]
    have hb : ∀ i, i < 9 → (v.extractLsb' 47 9).getLsbD i = v.getLsbD (47 + i) := fun i hi => by
      rw [BitVec.getLsbD_extractLsb']; simp [hi]
    rw [Bool.eq_iff_iff]
    simp only [List.any_eq_true, List.mem_range]
    constructor <;> rintro ⟨i, hi, hx⟩ <;> refine ⟨i, hi, ?_⟩
    · rwa [hb i (by omega), hb 8 (by omega)] at hx
    · rwa [hb i (by omega), hb 8 (by omega)]
  · rw [b _ _ _ _ (by decide) (by decide), if_neg (by decide), b _ _ _ _ (by decide) (by decide), if_neg (by decide),
      b _ _ _ _ (by decide) (by decide), if_neg (by decide)]
  · rw [b _ _ _ _ (by decide) (by decide), if_neg (by decide), b _ _ _ _ (by decide) (by decide), if_neg (by decide),
      b _ _ _ _ (by decide) (by decide), if_neg (by decide)]

theorem flags56 (es : BitVec 8) (v : W56) (sac sst : Bool) :
    FlagsOf56 (esStick (esStick (esAcc es v) esSAC sac) esSST sst) v := by
  obtain ⟨h1, h2, h3, -⟩ := esAcc_bits es v
  refine ⟨?_, ?_, ?_⟩
  · rw [esStick_bit _ _ _ _ (by decide) (by decide), esStick_bit _ _ _ _ (by decide) (by decide), h1]
    simp [esN, esSAC, esSST]
  · rw [esStick_bit _ _ _ _ (by decide) (by decide), esStick_bit _ _ _ _ (by decide) (by decide), h2]
    simp [esZ, esSAC, esSST]
  · rw [esStick_bit _ _ _ _ (by decide) (by decide), esStick_bit _ _ _ _ (by decide) (by decide), h3]
    simp [esG, esSAC, esSST]

theorem acc_result {op : EOp} {m1 m2 : Move} {c : ECore} (hr : RegsOk c.regs) (ad : Acc) (v : Int) (ho : runOp op 0 c.regs = putAcc c.regs ad.val v) :
    AccResult ad v m1 m2 c { singleCore op m1 m2 0 c with pc := c.pc + 1 } := by
  obtain ⟨hx, ha, hp, hm, hl⟩ := hr
  have hs := singleCore_regs op m1 m2 0 c
  simp only [ho] at hs
  obtain ⟨s1, s2, s3, s4, s5, s6, s7, s8, s9⟩ := hs
  have hset : ∀ i : Acc, (singleCore op m1 m2 0 c).regs.ar i.val = ((landAll c.landing none (some ad.val) c.regs.x (c.regs.a.set ad.val (BitVec.ofInt 56 (sat56 v)))).2[i.val]?).getD 0 := by
    intro i; simp only [ERegs.ar, s2]; rfl
  refine ⟨rfl, singleCore_moves (by rw [ho]; rfl) _, ?_, ?_, ?_, ?_, ?_, ?_⟩
  · show (singleCore op m1 m2 0 c).regs.ar ad.val = _
    rw [hset, landAll_wa _ _ _ _ _ _ rfl]
    simp [ha, ad.isLt]
  · show FlagsOf56 (singleCore op m1 m2 0 c).regs.es _
    rw [s9]; exact flags56 _ _ _ _
  · show (singleCore op m1 m2 0 c).regs.es.getLsbD _ = _
    rw [s9, esStick_bit _ _ _ _ (by decide) (by decide)]
    simp only [putAcc]
    rw [esStick_bit _ _ _ _ (by decide) (by decide)]
    rw [(esAcc_bits _ _).2.2.2.2]
    simp [esSAC, esSST]
  · exact ⟨s3, s4, s5, s7, s8⟩
  · exact s6
  · intro hl
    refine ⟨?_, ?_⟩
    · show (singleCore op m1 m2 0 c).regs.x = _
      rw [s1, hl]; rfl
    · intro j hj
      show (singleCore op m1 m2 0 c).regs.ar j.val = _
      rw [hset, hl]
      have : ad.val ≠ j.val := fun h => hj (Fin.ext h.symm)
      simp [landAll, ERegs.ar, this]

end Sys2Proof.Machine
end

