-- ==== Sys2Proof/Laws/Mailbox.lean ====
section
/-! SUPPORT. Laws of the mailboxes: how a served request is answered, what posting a response or a notification changes, and what the
reports of an event change. -/

namespace Sys2Proof.Machine

/-! ### A served request -/

section served
variable {code dt : Nat} {q : Request} {s : State} {body : State → Request → Nat → Reply}

theorem serve_eq (h : Served code dt q s) : serve code body dt q s =
    match body (atStamp code dt q s) q (stampOf code dt q s) with
    | .err st p => respond (atStamp code dt q s) code q st (stampOf code dt q s) p
    | .errWith s' st p => respond s' code q st (stampOf code dt q s) p
    | .ok s' p => respond s' code q St.ok (stampOf code dt q s) p
    | .later s' =>
      (let r : Running := { code := code, tag := q.tag, len := lenOf dt q s, payload := q.payload }
       { s' with host := { s'.host with running := tput s'.host.running q.mb r } })
    | .pend s' => respond s' code q St.pend (stampOf code dt q s) [] := by
  obtain ⟨h1, h2, h3⟩ := h
  have e : serve code body dt q s =
      match preCheck (atStamp code dt q s) code (lenOf dt q s) q with
      | some st => respond (atStamp code dt q s) code q st (stampOf code dt q s) []
      | none =>
        match body (atStamp code dt q s) q (stampOf code dt q s) with
        | .err st p => respond (atStamp code dt q s) code q st (stampOf code dt q s) p
        | .errWith s' st p => respond s' code q st (stampOf code dt q s) p
        | .ok s' p => if needsGrip code q.payload && lacksGrip (atStamp code dt q s) then
            respond (atStamp code dt q s) code q St.gripNotHeld (stampOf code dt q s) [] else respond s' code q St.ok (stampOf code dt q s) p
        | .later s' =>
          (let r : Running := { code := code, tag := q.tag, len := lenOf dt q s, payload := q.payload }
           { s' with host := { s'.host with running := tput s'.host.running q.mb r } })
        | .pend s' => if needsGrip code q.payload && lacksGrip (atStamp code dt q s) then
            respond (atStamp code dt q s) code q St.gripNotHeld (stampOf code dt q s) [] else respond s' code q St.pend (stampOf code dt q s) [] := by
    unfold serve
    dsimp only
    rw [if_neg (by simp [h1])]
    rfl
  rw [e, h2]
  simp only [h3]
  split <;> simp

theorem answers_ok {i : Instr} {R : State → Bytes → Prop} {u : State} {p : Bytes} (hi : exec i s = .next (serve code body dt q s))
    (h : Served code dt q s) (hb : body (atStamp code dt q s) q (stampOf code dt q s) = .ok u p) (hr : R u p) :
    Answers i code dt q s St.ok R := ⟨u, p, by rw [hi, serve_eq h, hb], hr⟩

theorem answers_pend {i : Instr} {R : State → Bytes → Prop} {u : State} (hi : exec i s = .next (serve code body dt q s))
    (h : Served code dt q s) (hb : body (atStamp code dt q s) q (stampOf code dt q s) = .pend u) (hr : R u []) :
    Answers i code dt q s St.pend R := ⟨u, [], by rw [hi, serve_eq h, hb], hr⟩

theorem answers_err {i : Instr} {R : State → Bytes → Prop} {st : Nat} {p : Bytes} (hi : exec i s = .next (serve code body dt q s))
    (h : Served code dt q s) (hb : body (atStamp code dt q s) q (stampOf code dt q s) = .err st p) (hr : R (atStamp code dt q s) p) :
    Answers i code dt q s st R := ⟨_, p, by rw [hi, serve_eq h, hb], hr⟩

theorem refuses {i : Instr} {st : Nat} (hi : exec i s = .next (serve code body dt q s)) (h : Served code dt q s)
    (hb : body (atStamp code dt q s) q (stampOf code dt q s) = .err st []) : Refuses i code dt q s st :=
  answers_err hi h hb ⟨rfl, rfl⟩

theorem reports {i : Instr} {R : Bytes → Prop} {p : Bytes} (hi : exec i s = .next (serve code body dt q s)) (h : Served code dt q s)
    (hb : body (atStamp code dt q s) q (stampOf code dt q s) = .ok (atStamp code dt q s) p) (hr : R p) :
    Reports i code dt q s R := answers_ok hi h hb ⟨rfl, hr⟩

end served

/-! ### Time alone

What `advance` and the bookkeeping of a request leave. -/

theorem advance_frame (n : Nat) (s : State) : ∃ t, advance n s = { s with time := t } := by
  unfold advance
  repeat' split
  all_goals exact ⟨_, rfl⟩

section frame
variable (code dt : Nat) (q : Request) (s : State)

theorem atStamp_frame : ∃ t h w e, atStamp code dt q s =
    { s with time := t, host := { s.host with lastStamp := h, turn := w }, ev := { s.ev with mbs := e } } := by
  obtain ⟨t, ht⟩ := advance_frame dt s
  unfold atStamp arrived noteRequest takeTurn
  rw [ht]
  split
  · exact ⟨t, _, s.host.turn, s.ev.mbs, rfl⟩
  · exact ⟨t, _, _, _, rfl⟩

@[simp] theorem advance_board : (advance dt s).board = s.board := by obtain ⟨t, h⟩ := advance_frame dt s; rw [h]
@[simp] theorem advance_dev : (advance dt s).dev = s.dev := by obtain ⟨t, h⟩ := advance_frame dt s; rw [h]
@[simp] theorem advance_par : (advance dt s).par = s.par := by obtain ⟨t, h⟩ := advance_frame dt s; rw [h]
@[simp] theorem advance_plan : (advance dt s).plan = s.plan := by obtain ⟨t, h⟩ := advance_frame dt s; rw [h]
@[simp] theorem advance_cyc : (advance dt s).cyc = s.cyc := by obtain ⟨t, h⟩ := advance_frame dt s; rw [h]
@[simp] theorem advance_rings : (advance dt s).rings = s.rings := by obtain ⟨t, h⟩ := advance_frame dt s; rw [h]
@[simp] theorem advance_axes : (advance dt s).axes = s.axes := by obtain ⟨t, h⟩ := advance_frame dt s; rw [h]
@[simp] theorem advance_groups : (advance dt s).groups = s.groups := by obtain ⟨t, h⟩ := advance_frame dt s; rw [h]
@[simp] theorem advance_disp : (advance dt s).disp = s.disp := by obtain ⟨t, h⟩ := advance_frame dt s; rw [h]
@[simp] theorem advance_pwm : (advance dt s).pwm = s.pwm := by obtain ⟨t, h⟩ := advance_frame dt s; rw [h]
@[simp] theorem advance_loc : (advance dt s).loc = s.loc := by obtain ⟨t, h⟩ := advance_frame dt s; rw [h]
@[simp] theorem advance_cal : (advance dt s).cal = s.cal := by obtain ⟨t, h⟩ := advance_frame dt s; rw [h]
@[simp] theorem advance_dma : (advance dt s).dma = s.dma := by obtain ⟨t, h⟩ := advance_frame dt s; rw [h]
@[simp] theorem advance_safe : (advance dt s).safe = s.safe := by obtain ⟨t, h⟩ := advance_frame dt s; rw [h]
@[simp] theorem advance_pair : (advance dt s).pair = s.pair := by obtain ⟨t, h⟩ := advance_frame dt s; rw [h]
@[simp] theorem advance_tru : (advance dt s).tru = s.tru := by obtain ⟨t, h⟩ := advance_frame dt s; rw [h]
@[simp] theorem advance_power : (advance dt s).power = s.power := by obtain ⟨t, h⟩ := advance_frame dt s; rw [h]
@[simp] theorem advance_jtag : (advance dt s).jtag = s.jtag := by obtain ⟨t, h⟩ := advance_frame dt s; rw [h]
@[simp] theorem advance_mem : (advance dt s).mem = s.mem := by obtain ⟨t, h⟩ := advance_frame dt s; rw [h]
@[simp] theorem advance_pend : (advance dt s).pend = s.pend := by obtain ⟨t, h⟩ := advance_frame dt s; rw [h]
@[simp] theorem advance_free : (advance dt s).free = s.free := by obtain ⟨t, h⟩ := advance_frame dt s; rw [h]
@[simp] theorem advance_pending : (advance dt s).pending = s.pending := by obtain ⟨t, h⟩ := advance_frame dt s; rw [h]
@[simp] theorem advance_host : (advance dt s).host = s.host := by obtain ⟨t, h⟩ := advance_frame dt s; rw [h]
@[simp] theorem advance_ev : (advance dt s).ev = s.ev := by obtain ⟨t, h⟩ := advance_frame dt s; rw [h]

@[simp] theorem atStamp_board : (atStamp code dt q s).board = s.board := by obtain ⟨t, h, w, e, h0⟩ := atStamp_frame code dt q s; rw [h0]
@[simp] theorem atStamp_dev : (atStamp code dt q s).dev = s.dev := by obtain ⟨t, h, w, e, h0⟩ := atStamp_frame code dt q s; rw [h0]
@[simp] theorem atStamp_par : (atStamp code dt q s).par = s.par := by obtain ⟨t, h, w, e, h0⟩ := atStamp_frame code dt q s; rw [h0]
@[simp] theorem atStamp_plan : (atStamp code dt q s).plan = s.plan := by obtain ⟨t, h, w, e, h0⟩ := atStamp_frame code dt q s; rw [h0]
@[simp] theorem atStamp_cyc : (atStamp code dt q s).cyc = s.cyc := by obtain ⟨t, h, w, e, h0⟩ := atStamp_frame code dt q s; rw [h0]
@[simp] theorem atStamp_rings : (atStamp code dt q s).rings = s.rings := by obtain ⟨t, h, w, e, h0⟩ := atStamp_frame code dt q s; rw [h0]
@[simp] theorem atStamp_axes : (atStamp code dt q s).axes = s.axes := by obtain ⟨t, h, w, e, h0⟩ := atStamp_frame code dt q s; rw [h0]
@[simp] theorem atStamp_groups : (atStamp code dt q s).groups = s.groups := by obtain ⟨t, h, w, e, h0⟩ := atStamp_frame code dt q s; rw [h0]
@[simp] theorem atStamp_disp : (atStamp code dt q s).disp = s.disp := by obtain ⟨t, h, w, e, h0⟩ := atStamp_frame code dt q s; rw [h0]
@[simp] theorem atStamp_pwm : (atStamp code dt q s).pwm = s.pwm := by obtain ⟨t, h, w, e, h0⟩ := atStamp_frame code dt q s; rw [h0]
@[simp] theorem atStamp_loc : (atStamp code dt q s).loc = s.loc := by obtain ⟨t, h, w, e, h0⟩ := atStamp_frame code dt q s; rw [h0]
@[simp] theorem atStamp_cal : (atStamp code dt q s).cal = s.cal := by obtain ⟨t, h, w, e, h0⟩ := atStamp_frame code dt q s; rw [h0]
@[simp] theorem atStamp_dma : (atStamp code dt q s).dma = s.dma := by obtain ⟨t, h, w, e, h0⟩ := atStamp_frame code dt q s; rw [h0]
@[simp] theorem atStamp_safe : (atStamp code dt q s).safe = s.safe := by obtain ⟨t, h, w, e, h0⟩ := atStamp_frame code dt q s; rw [h0]
@[simp] theorem atStamp_pair : (atStamp code dt q s).pair = s.pair := by obtain ⟨t, h, w, e, h0⟩ := atStamp_frame code dt q s; rw [h0]
@[simp] theorem atStamp_tru : (atStamp code dt q s).tru = s.tru := by obtain ⟨t, h, w, e, h0⟩ := atStamp_frame code dt q s; rw [h0]
@[simp] theorem atStamp_power : (atStamp code dt q s).power = s.power := by obtain ⟨t, h, w, e, h0⟩ := atStamp_frame code dt q s; rw [h0]
@[simp] theorem atStamp_jtag : (atStamp code dt q s).jtag = s.jtag := by obtain ⟨t, h, w, e, h0⟩ := atStamp_frame code dt q s; rw [h0]
@[simp] theorem atStamp_mem : (atStamp code dt q s).mem = s.mem := by obtain ⟨t, h, w, e, h0⟩ := atStamp_frame code dt q s; rw [h0]
@[simp] theorem atStamp_pend : (atStamp code dt q s).pend = s.pend := by obtain ⟨t, h, w, e, h0⟩ := atStamp_frame code dt q s; rw [h0]
@[simp] theorem atStamp_free : (atStamp code dt q s).free = s.free := by obtain ⟨t, h, w, e, h0⟩ := atStamp_frame code dt q s; rw [h0]
@[simp] theorem atStamp_pending : (atStamp code dt q s).pending = s.pending := by obtain ⟨t, h, w, e, h0⟩ := atStamp_frame code dt q s; rw [h0]
@[simp] theorem atStamp_time : (atStamp code dt q s).time = (advance dt s).time := by
  unfold atStamp arrived noteRequest useStamp
  split <;> rfl
@[simp] theorem advanceTo_pending (n : Nat) : (advanceTo n s).pending = s.pending := by
  unfold advanceTo
  split
  · rfl
  · exact advance_pending _ _
@[simp] theorem advanceTo_mem (n : Nat) : (advanceTo n s).mem = s.mem := by
  unfold advanceTo
  split
  · rfl
  · exact advance_mem _ _

end frame

/-! ### Posting -/

theorem sendMsix_frame (s : State) (v : Nat) : ∃ h, sendMsix s v = { s with host := h } ∧ h.mbs = s.host.mbs ∧ h.running = s.host.running := by
  unfold sendMsix
  repeat' split
  all_goals exact ⟨_, rfl, rfl, rfl⟩

theorem ctrlIrq_frame (s : State) (c : BitVec 7) : ∃ h, ctrlIrq s c = { s with host := h } ∧ h.mbs = s.host.mbs ∧ h.running = s.host.running := by
  unfold ctrlIrq
  dsimp only
  split
  · exact sendMsix_frame _ _
  · exact ⟨s.host, rfl, rfl, rfl⟩

/-- Posting an entry writes it and advances the tail of its response ring (R361). -/
theorem postEntry_frame (s : State) (m : Nat) (e : Bytes) : ∃ h,
    postEntry s m e = { s with host := h, mem := { s.mem with sram := memWrite s.mem.sram (rspRing m + 256 * ((s.mbox m).rspTail.toNat % 64)) e } } ∧
    h.mbs = tmod s.host.mbs {} m (fun r => { r with rspTail := r.rspTail + 1 }) ∧ h.running = s.host.running := by
  unfold postEntry
  obtain ⟨h, h1, h2, h3⟩ := ctrlIrq_frame
    ((s.sramWrite (rspRing m + 256 * ((s.mbox m).rspTail.toNat % 64)) e).onMbox m (fun r => { r with rspTail := r.rspTail + 1 })) (s.mbox m).ctrl
  exact ⟨h, h1, h2, h3⟩

theorem memInv_postEntry {s : State} (h : MemInv s) (m : Nat) (e : Bytes) : MemInv (postEntry s m e) := by
  obtain ⟨g, h1, -⟩ := postEntry_frame s m e
  rw [h1]
  exact memInv_of_eq (memInv_sramWrite h _ _) rfl rfl

/-- A response is posted, its request ends, and its record is filled (R364, R365, R608). -/
theorem respond_frame (s : State) (code : Nat) (q : Request) (status stamp : Nat) (p : Bytes) : ∃ h e,
    respond s code q status stamp p =
      { s with host := h, ev := { s.ev with mbs := e }, mem := { s.mem with
          sram := memWrite s.mem.sram (rspRing q.mb + 256 * ((s.mbox q.mb).rspTail.toNat % 64)) (entryBytes code q.tag status stamp p) } } ∧
    h.mbs = tmod s.host.mbs {} q.mb (fun r => { r with rspTail := r.rspTail + 1 }) ∧ h.running = tdel s.host.running q.mb := by
  obtain ⟨h, h1, h2, h3⟩ := postEntry_frame s q.mb (entryBytes code q.tag status stamp p)
  unfold respond
  dsimp only
  rw [h1]
  exact ⟨{ h with running := tdel h.running q.mb }, _, rfl, h2, by rw [h3]⟩

theorem memInv_respond {s : State} (h : MemInv s) (code : Nat) (q : Request) (status stamp : Nat) (p : Bytes) :
    MemInv (respond s code q status stamp p) := by
  obtain ⟨g, e, h1, -⟩ := respond_frame s code q status stamp p
  rw [h1]
  exact memInv_of_eq (memInv_sramWrite h _ _) rfl rfl

/-- A notification changes the host interface and the shared SRAM alone (R368). -/
theorem notify_frame (s : State) (code tag status : Nat) (p : Bytes) : ∃ h m,
    notify s code tag status p = { s with host := h, mem := { s.mem with sram := m } } ∧ (Memory.wf s.mem.sram = true → Memory.wf m = true) := by
  unfold notify
  split
  · exact ⟨s.host, s.mem.sram, rfl, id⟩
  · dsimp only
    split
    · obtain ⟨h, h1, -⟩ := postEntry_frame (useStamp s (nextStamp s)) 7 (entryBytes code tag status (nextStamp s) p)
      rw [h1]
      exact ⟨h, _, rfl, wf_memWrite _ _⟩
    · split
      · exact ⟨_, s.mem.sram, rfl, id⟩
      · exact ⟨_, s.mem.sram, rfl, id⟩

theorem foldl_notify_frame (f : State → PendCmd → State)
    (hf : ∀ s p, ∃ h m, f s p = { s with host := h, mem := { s.mem with sram := m } } ∧ (Memory.wf s.mem.sram = true → Memory.wf m = true))
    (l : List PendCmd) : ∀ s, ∃ h m, l.foldl f s = { s with host := h, mem := { s.mem with sram := m } } ∧
      (Memory.wf s.mem.sram = true → Memory.wf m = true) := by
  induction l with
  | nil => intro s; exact ⟨s.host, s.mem.sram, rfl, id⟩
  | cons p l ih =>
    intro s
    obtain ⟨h1, m1, e1, w1⟩ := hf s p
    obtain ⟨h2, m2, e2, w2⟩ := ih (f s p)
    rw [List.foldl_cons, e2, e1]
    rw [e1] at w2
    exact ⟨h2, m2, rfl, fun w => w2 (w1 w)⟩

/-- The end of pending commands takes them off the list and posts or queues their notifications (R366, R368). -/
theorem finish_frame (s : State) (code key status : Nat) (p : Bytes) : ∃ h m,
    finish s code key status p =
      { s with host := h, mem := { s.mem with sram := m }, pend := s.pend.filter (fun c => !(c.code == code && c.key == key)) } ∧
    (Memory.wf s.mem.sram = true → Memory.wf m = true) := by
  unfold finish
  obtain ⟨h, m, e, w⟩ := foldl_notify_frame (fun s c => notify s c.code c.tag status (b8 c.mb ++ zeros 3 ++ p))
    (fun s c => notify_frame s c.code c.tag status _) (s.pend.filter (fun c => c.code == code && c.key == key))
    { s with pend := s.pend.filter (fun c => !(c.code == code && c.key == key)) }
  rw [e]
  exact ⟨h, m, rfl, w⟩

theorem memInv_notify {s : State} (h : MemInv s) (code tag status : Nat) (p : Bytes) : MemInv (notify s code tag status p) := by
  obtain ⟨g, m, e, w⟩ := notify_frame s code tag status p
  rw [e]
  exact memInv_of_eq (memInv_sram h m (w h.1.1)) rfl rfl

theorem memInv_finish {s : State} (h : MemInv s) (code key status : Nat) (p : Bytes) : MemInv (finish s code key status p) := by
  obtain ⟨g, m, e, w⟩ := finish_frame s code key status p
  rw [e]
  exact memInv_of_eq (memInv_sram h m (w h.1.1)) rfl rfl

/-- What `finish` leaves is not pending any more. -/
theorem isPending_finish (s : State) (code key status : Nat) (p : Bytes) : isPending (finish s code key status p) code key = false := by
  obtain ⟨g, m, e, -⟩ := finish_frame s code key status p
  rw [e]
  simp only [isPending, List.any_eq_false, List.mem_filter]
  intro c hc
  have := hc.2
  simp at this ⊢
  omega

@[simp] theorem isPending_addPend (s : State) (code : Nat) (q : Request) (key : Nat) : isPending (addPend s code q key) code key = true := by
  simp [isPending, addPend]

/-! ### Raises -/

/-- A trigger changes the calipers alone. -/
theorem acceptTrigger_frame (s : State) (stamp src : Nat) : ∃ c, acceptTrigger s stamp src = { s with cal := c } := by
  unfold acceptTrigger driveBus
  dsimp only
  repeat' split
  all_goals exact ⟨_, rfl⟩

/-- An event line changes the calipers and the event unit alone, of that neither the sources raised nor a freeze. -/
theorem raiseLine_frame (s : State) (source ns : Nat) : ∃ e c, raiseLine s source ns = { s with ev := e, cal := c } ∧
    e.raised = s.ev.raised ∧ e.freeze = s.ev.freeze := by
  unfold raiseLine
  dsimp only
  repeat' split
  · obtain ⟨c, h⟩ := acceptTrigger_frame { s with ev := { s.ev with lines := s.ev.lines ++ [(source, ns)] } } (ns * nsU) 4
    rw [h]
    exact ⟨_, c, rfl, rfl, rfl⟩
  all_goals exact ⟨_, _, rfl, rfl, rfl⟩

/-- A record changes the event unit and the calipers alone, and its source counts as raised. -/
theorem record_frame (s : State) (r : Raise) : ∃ e c, record s r = { s with ev := e, cal := c } ∧ e.raised.contains r.source = true ∧
    (s.ev.freeze = none → e.freeze = none) := by
  obtain ⟨e, c, h, hr, hf⟩ := raiseLine_frame s r.source (r.at_.getD (nowNs s))
  unfold record
  dsimp only
  rw [h]
  dsimp only
  split <;> (repeat' split) <;> refine ⟨_, c, rfl, ?_, ?_⟩ <;> first | (intro hn; rw [hn] at hf; simp_all) | simp_all

end Sys2Proof.Machine
end

