-- ==== Sys2Proof/Laws/Events.lean ====
section
/-! SUPPORT. Laws of the events: what a raise, a freeze of the record and a transient change. -/

namespace Sys2Proof.Machine

theorem reportEvent_frame (s : State) (src : Nat) : ∃ h, reportEvent s src = { s with host := h } ∧ h.mbs = s.host.mbs ∧
    h.running = s.host.running ∧ h.evRoute = s.host.evRoute := by
  unfold reportEvent
  split
  · exact ⟨s.host, rfl, rfl, rfl, rfl⟩
  · dsimp only
    split
    · unfold sendMsix
      repeat' split
      all_goals exact ⟨_, rfl, rfl, rfl, rfl⟩
    · exact ⟨_, rfl, rfl, rfl, rfl⟩

/-- A freeze changes the event unit alone; what has been raised since the last row stays (R611). -/
theorem freezeRecord_frame (s : State) (trigger source ns : Nat) : ∃ e, freezeRecord s trigger source ns = { s with ev := e } ∧
    e.raised = s.ev.raised := by
  unfold freezeRecord
  split
  · split
    · exact ⟨_, rfl, rfl⟩
    · exact ⟨s.ev, rfl, rfl⟩
  · exact ⟨_, rfl, rfl⟩

/-- A raise changes the event unit, the calipers and the host interface alone, and its source counts as raised (R608, R609, R382). -/
theorem raiseOnly_frame (s : State) (r : Raise) : ∃ h e c, raiseOnly s r = { s with host := h, ev := e, cal := c } ∧
    e.raised.contains r.source = true ∧ h.mbs = s.host.mbs ∧ h.running = s.host.running := by
  obtain ⟨e, c, e1, e2, -⟩ := record_frame s r
  obtain ⟨h, h1, h2, h3, -⟩ := reportEvent_frame { s with ev := e, cal := c } r.source
  unfold raiseOnly
  rw [e1, h1]
  dsimp only
  split
  · obtain ⟨f, f1, f2⟩ := freezeRecord_frame { s with ev := e, host := h, cal := c } 7 r.source (r.at_.getD (nowNs s))
    rw [f1]
    exact ⟨h, f, c, rfl, by rw [f2]; exact e2, h2, h3⟩
  · exact ⟨h, e, c, rfl, e2, h2, h3⟩

theorem memInv_raiseOnly {s : State} (h : MemInv s) (r : Raise) : MemInv (raiseOnly s r) := by
  obtain ⟨g, e, c, h1, -⟩ := raiseOnly_frame s r
  rw [h1]
  exact memInv_of_eq h rfl rfl

theorem raiseWarn_raised (s : State) (src kind inst cause : Nat) (detail : Bytes) (flags : Nat) :
    (raiseWarn s src kind inst cause detail flags).ev.raised.contains src = true := by
  obtain ⟨h, e, c, h1, h2, -⟩ := raiseOnly_frame s { source := src, cls := Cls.warn, kind := kind, inst := inst, cause := cause, detail := detail, flags := flags }
  unfold raiseWarn
  rw [h1]
  exact h2

theorem raiseInfo_raised (s : State) (src kind inst cause : Nat) (detail : Bytes) :
    (raiseInfo s src kind inst cause detail).ev.raised.contains src = true := by
  obtain ⟨h, e, c, h1, h2, -⟩ := raiseOnly_frame s { source := src, cls := Cls.info, kind := kind, inst := inst, cause := cause, detail := detail }
  unfold raiseInfo
  rw [h1]
  exact h2

/-- A raise of a class without a reaction of its own leaves every unit but the event unit, the calipers and the host interface. -/
theorem raiseWarn_frame (s : State) (src kind inst cause : Nat) (detail : Bytes) (flags : Nat) :
    ∃ h e c, raiseWarn s src kind inst cause detail flags = { s with host := h, ev := e, cal := c } := by
  obtain ⟨h, e, c, h1, -⟩ := raiseOnly_frame s { source := src, cls := Cls.warn, kind := kind, inst := inst, cause := cause, detail := detail, flags := flags }
  exact ⟨h, e, c, h1⟩

theorem raiseInfo_frame (s : State) (src kind inst cause : Nat) (detail : Bytes) :
    ∃ h e c, raiseInfo s src kind inst cause detail = { s with host := h, ev := e, cal := c } := by
  obtain ⟨h, e, c, h1, -⟩ := raiseOnly_frame s { source := src, cls := Cls.info, kind := kind, inst := inst, cause := cause, detail := detail }
  exact ⟨h, e, c, h1⟩

/-- A transient outcome changes the event unit, the calipers and the host interface alone (R606, R607). -/
theorem transient_frame (s : State) (kind : Nat) (r : Raise) : ∃ h e c, transient s kind r = { s with host := h, ev := e, cal := c } := by
  unfold transient
  obtain ⟨h, e, c, h1, -⟩ := raiseOnly_frame s { r with cls := Cls.info, flags := 1 }
  rw [h1]
  unfold countTransient
  dsimp only
  generalize (Nat.blt _ _ && _ : Bool) = b
  cases b with
  | true =>
    rw [if_pos rfl]
    obtain ⟨h', e', c', h2, -⟩ := raiseOnly_frame _ _
    exact ⟨h', e', c', h2⟩
  | false => exact ⟨h, _, c, rfl⟩

/-- What ECC finds at a read that goes on changes the event unit, the calipers and the host interface alone (R23, R606). -/
theorem noteRead_frame (s : State) (kind : Nat) (ecc : EccRead) (of inst : Nat) :
    ∃ h e c, noteRead s kind ecc of inst = { s with host := h, ev := e, cal := c } := by
  cases ecc with
  | clean => exact ⟨s.host, s.ev, s.cal, rfl⟩
  | corrected => exact ⟨s.host, _, s.cal, rfl⟩
  | cleared => exact transient_frame s kind _
  | confirmed => exact ⟨s.host, s.ev, s.cal, rfl⟩

end Sys2Proof.Machine
end

