-- ==== Sys2Proof/Laws/Plan.lean ====
section
/-! SUPPORT. Lemmas about check codes and the verification of plans: a CRC over two strings, and a verification whose steps all pass. -/

namespace Sys2Proof.Machine

/-- A reflected CRC over two strings is that of the second from the register that the first leaves. -/
theorem crcGo_append (p c : Nat) (l r : Bytes) : crcGo p c (l ++ r) = crcGo p (crcGo p c l) r := List.foldl_append

/-- An unreflected CRC over two strings of bits. -/
theorem crcBits_append (w p c : Nat) (l r : List Bool) : crcBits w p c (l ++ r) = crcBits w p (crcBits w p c l) r := List.foldl_append

/-- A verification outside a running cycle whose steps all pass gives the budget use. -/
theorem verifyWith_ok {s : State} {m : Image} {delta : Nat} {place : Placement} {u : Nat × Nat} (h1 : verifyFormat m = none)
    (h2 : verifyCrc m = none) (h3 : verifyVariant s.var m = none) (h4 : verifyStructure s m = none) (h5 : verifyCurrent m = none)
    (h6 : verifySlots m = none) (h7 : verifyGather m = none) (h8 : budgetTest s.var m delta place = .ok u) (h9 : verifyEmit m = none) :
    verifyWith s m delta place false = .ok u := by
  simp only [verifyWith, unlessRefused, afterBudget, h1, h2, h3, h4, h5, h6, h7, h8, h9, Bool.false_eq_true, if_false]

/-- The first step that refuses is the outcome, whatever the later steps would find. -/
theorem verifyWith_format {s : State} {m : Image} {delta : Nat} {place : Placement} {hot : Bool} {r : Refused}
    (h : verifyFormat m = some r) : verifyWith s m delta place hot = .error r := by
  simp only [verifyWith, unlessRefused, h]

end Sys2Proof.Machine
end

