-- ==== Sys2Proof/Tests/Slice0.lean ====
section
/-! SUPPORT. Tests: the check of well-formedness refuses an ill-formed term for each of its checks, and for every statement its hypotheses
are met, clause by clause, on small states, mostly with a result that the spec gives. Expected values come from the rules that the statement
of the test names. -/

open Sys2Proof Sys2Proof.Machine

namespace Sys2Proof.Tests

set_option Elab.async false

/-! ### Helpers -/

/-- A request on mailbox 1. -/
def rq (p : Bytes) : Request := { mb := 1, tag := 7, payload := p }

/-- The state after a command. -/
def after (i : Instr) (s : State) : State := match exec i s with | .next t => t | _ => s

/-- The conditions of `Served` as one Boolean. -/
def served (code dt : Nat) (q : Request) (s : State) : Bool :=
  servable (advance dt s) code q && (preCheck (atStamp code dt q s) code (lenOf dt q s) q).isNone &&
    !(needsGrip code q.payload && lacksGrip (atStamp code dt q s))

theorem served_of {code dt : Nat} {q : Request} {s : State} (h : served code dt q s = true) : Served code dt q s := by
  unfold served at h
  simp only [Bool.and_eq_true, Option.isNone_iff_eq_none, Bool.not_eq_true'] at h
  exact ⟨h.1.1, h.1.2, h.2⟩

/-- The status of the response that stands at the front of mailbox 1's response ring. -/
def status (s : State) : Nat := uAt (memRead s.mem.sram (rspRing 1) 8) 6 2

/-- The payload of that response. -/
def reply (s : State) (n : Nat) : Bytes := memRead s.mem.sram (rspRing 1 + 24) n

/-- A device that serves its mailboxes in a device state, on the CK-1232. Its key hashes, which are opaque at reset, are empty, so that
states can be compared. -/
def small (m : DevMode) : State :=
  { State.reset with board := { variant := .ck1232, keyHashes := [] }, dev := { mode := m, mbReady := true, fwRunning := true },
                     host := { linkUp := true } }

/-- A device that serves its mailboxes in a device state, on the CK-1280. -/
def inState (m : DevMode) : State := { small m with board := { keyHashes := [] } }

/-- The cycle runs at 8 kHz. -/
def running (m : DevMode) : State :=
  { inState m with cyc := { running := true, rate := 0, tick := 800, t0 := tickU 0 800 }, time := { now := tickU 0 800 + 1000 * nsU } }

/-- A plan image of 276 bytes at 8 kHz (R58 to R65): two bursts, ring A with the node 1, axis 0 on that node with burst 2, axis 1 on slot 0,
a task for each axis, the first in the bundle 0 of group 0, and two flows. -/
def planBytes (law crc : Nat) : Bytes :=
  b32 0x4C504B43 ++ b16 2 ++ b16 6 ++ b32 276 ++ b32 0x1234 ++ zeros 16 ++
  ([(1, 1, 80), (2, 1, 128), (3, 2, 160), (4, 2, 192), (5, 1, 256), (6, 2, 264)].flatMap fun d => b16 d.1 ++ b16 d.2.1 ++ b32 d.2.2) ++
  b32 2 ++ b32 20000 ++ b32 0 ++ b32 120000 ++ [0, 50000, 0, 0].flatMap b32 ++ [0, 60000, 0, 0].flatMap b32 ++
  [0x100, 0, 64, 128, 0, 0, 100, 0].flatMap b16 ++ b32 1 ++ b32 1000 ++ [96, 100, 110, 0].flatMap b16 ++
  b32 0x22010000 ++ [0x2030, 40, 0xFFFF, 40, 0xFFFF, 0xFFFF].flatMap b16 ++ b32 0x0000FF01 ++ [0, 0, 0xFFFF, 0xFFFF, 0xFFFF, 0xFFFF].flatMap b16 ++
  ([(0x1000, 4096, 50000, 0, 0, 20000, 1), (0x2001, 8192, 80000, 1, 255, 30000, 4)].flatMap fun t =>
    b16 t.1 ++ b16 0 ++ b32 (t.2.1 / 4 + 24 * 1048576) ++ b16 4 ++ b8 4 ++ b16 (t.2.2.1 / 10) ++ leBytes 3 1000 ++ b8 t.2.2.2.1 ++ b8 0 ++ b8 0 ++
    b8 t.2.2.2.2.1 ++ b16 3 ++ b16 law ++ b32 t.2.2.2.2.2.1 ++ b16 100 ++ b8 t.2.2.2.2.2.2 ++ b8 0) ++
  b32 0x00020100 ++ b32 1 ++ b32 0x01000000 ++ b32 0x00010001 ++ b32 crc

/-- The image with a user law for both tasks, and with the standard law of R215. -/
def planUser : Image := cellsFrom 0 (planBytes 0x8000 0xBAD2C7E5)
def planStd : Image := cellsFrom 0 (planBytes 2 0x9C8A8B59)

/-- A state with that user law loaded and a plan active. -/
def withPlan (m : Image) (s : State) : State :=
  { s with plan := { s.plan with active := some m, verifiedAt := s.tru.derating },
           disp := { s.disp with blocks := [{ lawId := 0x8000, loadAddr := 0, wordCount := 16, inMin := 24, stMin := 4, outMin := 4, runMax := 100,
                                              entries := [0] }] } }

/-- The memories of a state in which nothing has been written keep the canonical form. -/
theorem memInv_empty {s : State} (h : s.mem = {}) (p : s.plan.standby = []) (a : s.plan.active = none) : MemInv s := by
  refine ⟨by rw [h]; exact ⟨rfl, rfl, rfl, rfl, rfl, rfl, rfl⟩, by rw [p]; rfl, ?_⟩
  intro m hm
  rw [a] at hm
  cases hm

/-! ### Well-formed terms -/

/-- Each check of `Instr.wf` refuses a term that breaks it alone. -/
theorem test_wf_requests :
    (Instr.sysCaps 0 (rq [])).wf = true ∧ (Instr.sysCaps 0 { mb := 7, tag := 0, payload := [] }).wf = false ∧
    (Instr.sysCaps 0 { mb := 0, tag := 65536, payload := [] }).wf = false ∧
    (Instr.planLoad 0 { mb := 0, tag := 0, payload := zeros 249 }).wf = false := by decide +kernel

theorem test_wf_operands :
    ([Instr.moveComplete 0 (.axis 128), .moveComplete 0 (.group 16), .calRow 0 (some (true, 8)), .calRow 0 (some (false, 4)),
      .debugHaltRequest 0 (.engine 16), .powerDomainSwitched 0 3, .enumTimeout 0 2, .axisEnabled 0 128, .planVerifyDone 0, .toutPulse 8,
      .trigBusEdge 0 2, .dmaBurst 0 32 [] .good, .dmaEntryRead 0 0 { bytes := zeros 4097 }, .burstLaunch 0 0 33, .bundleFailed 0 128,
      .laneSignalLoss 0 0 65 .both, .taskReady 0 2048, .taskDispatch 0 { engine := 16 }, .lawFault 0 0 16, .slotSample 8, .bootRefresh 0 24,
      .tripInput 0 4 true, .dinRawEdge 0 24 true, .ssiExchangeDone 0 4 0 true, .sinChange 0 16 true true, .ss1TimeExpiry 0 16,
      .testPulse 0 10 true, .safeMsgTx 0 128 true, .resetRelease 0 true 4, .mailboxCommandStart 0 { mb := 7 }, .mbRspWrite 0 8 0,
      .evStatusWrite 0 8 0, .bootFault 0 256, .ptpLost 0 0 10, .avsReadback 0 65536, .taskComplete 0 { engine := 16 } 0, .encWireFault 0 0 { pair := 3, stuck := true },
      .encIndexEvent 0 { ch := 8, high := true }].map Instr.wf) =
     (List.replicate 8 false ++ [true] ++ List.replicate 29 false) := by decide +kernel

theorem test_wf_engine :
    ([Instr.nop 16 .none .none, .ashl 0 0 56 .none .none, .xbit 0 0 24 .none .none, .sreg 0 0 12 0 true .none .none, .brc 0 16 0,
      .rep 0 0 .none .none, .rep 0 65537 .none .none, .rep 0 65536 .none .none].map Instr.wf) =
     [false, false, false, false, false, false, false, true] := by decide +kernel

/-- Readings with which a truing pass is complete. -/
def readings : TruingReadings :=
  { slackPs := 100, fMax := [850], stretched := false, voltageConfirmed := true, refDrift := 0,
    bandgapDrift := 0, mramMargin := 50, slowdown := 0, lifeLimit := 100, eyes := [] }

/-- An image of version 0x30200 with four bytes for the supervisor and four for S1, and a patch 1 of it with one record, both signed
with one test key (R656, R659). -/
def imageBytes : Bytes :=
  [67, 75, 81, 80, 1, 0, 0, 0, 0, 2, 3, 0, 0, 0, 0, 0, 4, 0, 0, 0, 4, 0, 0, 0, 0, 0, 0, 0, 0, 0, 0, 0] ++
  [102, 132, 13, 218, 21, 78, 138, 17, 60, 49, 221, 10, 211, 47, 127, 58, 54, 106, 128, 232, 19, 105, 121, 216, 245, 161, 1, 211, 210, 157, 111, 114] ++
  [71, 28, 62, 117, 140, 73, 4, 40, 91, 186, 126, 83, 17, 142, 208, 245, 36, 173, 235, 7, 87, 210, 91, 210, 248, 231, 176, 215, 109, 250, 113, 76] ++
  [221, 82, 15, 122, 202, 138, 139, 145, 122, 204, 55, 245, 29, 232, 240, 201, 187, 227, 173, 133, 131, 130, 231, 2, 220, 37, 161, 45, 9, 247, 168, 88] ++
  [88, 137, 60, 198, 92, 197, 192, 218, 70, 161, 76, 90, 66, 135, 141, 135, 112, 3, 98, 60, 220, 238, 198, 44, 185, 169, 6, 159, 162, 192, 46, 164] ++
  [152, 85, 173, 155, 235, 207, 27, 46, 216, 127, 255, 239, 85, 120, 226, 31, 98, 119, 178, 10, 107, 91, 244, 88, 202, 42, 43, 116, 217, 186, 71, 249] ++
  [1, 2, 3, 4, 5, 6, 7, 8]
def patchOf : Bytes :=
  [67, 75, 80, 84, 1, 0, 0, 0, 1, 2, 3, 0, 0, 0, 0, 0, 16, 0, 0, 0, 0, 0, 0, 0, 0, 0, 0, 0, 0, 0, 0, 0] ++
  [119, 150, 127, 108, 201, 130, 134, 139, 3, 77, 20, 222, 29, 136, 119, 199, 84, 53, 27, 199, 221, 25, 171, 148, 226, 144, 117, 148, 146, 100, 219, 79] ++
  [71, 28, 62, 117, 140, 73, 4, 40, 91, 186, 126, 83, 17, 142, 208, 245, 36, 173, 235, 7, 87, 210, 91, 210, 248, 231, 176, 215, 109, 250, 113, 76] ++
  [221, 82, 15, 122, 202, 138, 139, 145, 122, 204, 55, 245, 29, 232, 240, 201, 187, 227, 173, 133, 131, 130, 231, 2, 220, 37, 161, 45, 9, 247, 168, 88] ++
  [88, 137, 60, 198, 92, 197, 192, 218, 70, 161, 76, 90, 66, 135, 141, 135, 112, 3, 98, 60, 220, 238, 198, 44, 185, 169, 6, 159, 162, 192, 46, 164] ++
  [54, 33, 97, 86, 20, 250, 209, 114, 61, 77, 20, 29, 163, 218, 148, 170, 205, 25, 29, 61, 8, 171, 158, 243, 86, 188, 57, 213, 195, 244, 236, 173] ++
  [0, 0, 0, 0, 0, 0, 0, 0, 4, 0, 0, 0, 9, 9, 9, 9]

/-- The hash of the key (R655, R657). -/
def keyHash : Bytes :=
  [179, 210, 131, 65, 106, 142, 100, 1, 211, 154, 152, 143, 46, 70, 154, 18, 150, 141, 198, 60, 67, 135, 163, 242, 198, 115, 56, 173, 20, 161, 230, 208]

/-- The part that knows the key. -/
def keyed : Board := { variant := .ck1232, keyHashes := [(0, keyHash)] }

/-- What a boot found. -/
def bootFound : BootResult := { slot := 0, image := imageBytes, truing := readings, s2Agrees := true, damagedSlots := [] }

theorem test_wf_readings :
    (Instr.truingPassEnd 0 { readings with eyes := [{ lane := 8, height := 0, width := 0 }] }).wf = false ∧
    (Instr.truingPassEnd 0 { readings with fMax := List.replicate 17 0 }).wf = false ∧
    (Instr.firmwareStarted 0 { bootFound with slot := 2 }).wf = false ∧ (Instr.firmwareStarted 0 bootFound).wf = true ∧
    (Instr.registerWrite 0 (.bar0 0) (zeros 4097)).wf = false ∧
    (Instr.adcLiveCalDone 0 { offset := 0, gain := 4194304, lin := [] }).wf = false ∧
    (Instr.adcLiveCalDone 0 { offset := 0, gain := 16777216, lin := List.replicate 16 0 }).wf = false ∧
    (Instr.adcCalibrateDone 0 []).wf = false ∧
    (Instr.ptpMessageRx 0 { port := 0, isSync := true, offset := 0, ratePpb := 0, meanPath := 0, portState := 9, parent := zeros 9,
                            grandmaster := zeros 8 }).wf = false := by decide +kernel

theorem test_wf_image (l : Bytes) (h : 8388608 < l.length) : (Instr.firmwareStarted 0 { bootFound with image := l }).wf = false := by
  have : Nat.ble l.length 8388608 = false := by
    rw [← Bool.not_eq_true, Nat.ble_eq]; omega
  simp [Instr.wf, wfBoot, this]

theorem test_wf_qspi (l : List (BitVec 4)) (h : 16384 < l.length) : (Instr.registerWrite 0 (.qspi l) []).wf = false := by
  have : Nat.ble l.length 16384 = false := by
    rw [← Bool.not_eq_true, Nat.ble_eq]; omega
  simp [Instr.wf, wfPlace, this]

/-! ### Witnesses: the block as a whole -/

theorem test_witness_StepTakesTheFrontOfTheQueue :
    (step { small .config with pending := [.timeNsRead 0, .planSwitch] } =
      exec (.timeNsRead 0) { small .config with pending := [.planSwitch] }) ∧
    (State.reset.pending = [] ∧ step State.reset = .next State.reset) := ⟨rfl, rfl, rfl⟩

theorem test_witness_EveryStepKeepsTheMemories :
    MemInv State.reset ∧ ∃ t, step { State.reset with pending := [.bar2Write 0 0x380000 [1]] } = .next t := by
  refine ⟨⟨⟨rfl, rfl, rfl, rfl, rfl, rfl, rfl⟩, rfl, ?_⟩, _, rfl⟩
  intro m h
  cases h

theorem test_witness_EveryStepMovesTheDeviceState :
    ModeInv (small .config) ∧ moves .config .fault = true ∧
    (after (.clockHalted 0) (small .config)).dev.mode = .fault := by
  refine ⟨⟨fun h => absurd rfl h, fun h => nomatch h⟩, rfl, by decide +kernel⟩

theorem test_witness_ResponsesArePosted :
    MemInv (small .config) ∧ ([1, 2] : Bytes).length ≤ 232 ∧ reply (respond (small .config) Cmd.sysCaps (rq []) St.ok 5 [1, 2]) 2 = [1, 2] := by
  exact ⟨memInv_empty rfl rfl rfl, by decide, by decide +kernel⟩

/-! ### Witnesses: device states, resets and supplies -/

theorem test_witness_DeviceStateCommands :
    (Served Cmd.sysOperate 0 (rq []) (running .preop) ∧ (after (.sysOperate 0 (rq [])) (running .preop)).dev.mode = .operational) ∧
    (Served Cmd.sysPreop 0 (rq []) (running .operational) ∧ status (after (.sysPreop 0 (rq [])) (running .operational)) = 1) ∧
    (Served Cmd.safeHold 0 (rq []) (running .operational) ∧ (after (.safeHold 0 (rq [])) (running .operational)).dev.held = .operational) ∧
    (Served Cmd.safeHoldRelease 0 (rq []) (running .safeHold) ∧
      safetyDemand (atStamp Cmd.safeHoldRelease 0 (rq []) (running .safeHold)) = false ∧
      (after (.safeHoldRelease 0 (rq [])) (running .safeHold)).dev.mode = .preop) ∧
    (Served Cmd.faultClear 0 (rq []) (running .fault) ∧ faultCauseActive (atStamp Cmd.faultClear 0 (rq []) (running .fault)) = false ∧
      (after (.faultClear 0 (rq [])) (running .fault)).dev.mode = .preop ∧
      (after (.faultClear 0 (rq [])) (small .fault)).dev.mode = .config) ∧
    (let s := { running .operational with dev := { (running .operational).dev with preopPending := true } }
     s.dev.preopPending = true ∧ s.dev.mode = .operational ∧ s.axes.all (fun e => e.2.phase == .disabled) = true ∧
      (after (.sysPreopDone 0) s).dev.mode = .preop) := by
  repeat' apply And.intro
  all_goals first | exact served_of (by decide +kernel) | decide +kernel

theorem test_witness_ResetsAndStandby :
    (Served Cmd.sysReset 0 (rq [0xC3, 0xA5, 0, 0]) (small .config) ∧
      (after (.sysReset 0 (rq [0xC3, 0xA5, 0, 0])) (small .config)).power.resetSource = 4) ∧
    (Served Cmd.sysStandby 0 (rq [9, 0, 0, 0, 0, 0, 0, 0]) (small .config) ∧ uAt [9, 0, 0, 0, 0, 0, 0, 0] 6 2 = 0 ∧
      (after (.sysStandby 0 (rq [9, 0, 0, 0, 0, 0, 0, 0])) (small .config)).dev.mode = .standby) ∧
    (hostOpen (small .config) = true ∧ bitOf (0xA5C30002 : BitVec 32).toNat 1 = true ∧ (0xA5C30002 : BitVec 32).toNat / 65536 = 0xA5C3 ∧
      (after (.resetReq 0 0xA5C30002) (small .config)).dev.mode = .boot) ∧
    (hostOpen (small .config) = true ∧ bitOf (1 : BitVec 32).toNat 1 = false ∧
      (after (.resetReq 0 1) (small .config)).dev.irqMaster = true) ∧
    (powered (small .config) = true ∧ 1000 ≤ 1000 ∧ (after (.resetNAssert 0 1000 false) (small .config)).power.resetLow = true) ∧
    (99 < 100 ∧ (after (.resetNAssert 0 99 true) (small .config)).dev.mode = .config) ∧
    (powered (small .config) = true ∧ (small .config).dev.fwRunning = true ∧
      (after (.sysWatchdogExpiry 0) (small .config)).power.resetSource = 3) ∧
    (powered (small .config) = true ∧ ((small .config).power.vaonMain || (small .config).power.vbat) = true ∧
      (after (.mainRailsLost 0) (small .config)).dev.mode = .standby) ∧
    (let s := { small .config with power := { vaonMain := false, vbat := false } }
     powered s = true ∧ (s.power.vaonMain || s.power.vbat) = false ∧ (after (.mainRailsLost 0) s).dev.mode = .off) := by
  repeat' apply And.intro
  all_goals first | exact served_of (by decide +kernel) | decide +kernel

/-- The device in STANDBY with PWR_EN released. -/
def asleep : State := { small .standby with power := { railsValid := false, pwrEn := false }, time := { now := 100000000 * nsU } }

theorem test_witness_SuppliesAndWake :
    ((small .standby).dev.mode = .standby ∧ (small .standby).power.resetLow = false ∧ (small .standby).power.pwrEn = true ∧
      (after (.mainRailsValid 0) (small .standby)).dev.mode = .boot) ∧
    (let s := { small .off with power := { railsValid := false } }
     s.dev.mode = .off ∧ s.power.railsValid = false ∧ (after (.aonSupplyApplied 0 true) s).dev.mode = .standby) ∧
    ((small .standby).dev.mode = .standby ∧ (after (.aonSupplyLost 0) (small .standby)).dev.mode = .off) ∧
    ((small .config).dev.mode ≠ .off ∧ (small .config).power.vbat = true ∧
      (after (.aonSupplySwitch 0 false) (small .config)).power.aonFromMain = false) ∧
    (let s := { small .fault with dev := { (small .fault).dev with powerFailing := true } }
     powered s = true ∧ s.power.railsValid = true ∧ (after (.mainRailsValid 0) s).dev.powerFailing = false) ∧
    (asleep.dev.mode = .standby ∧ asleep.power.pwrEn = false ∧ asleep.power.pwrOffAt + 100000000 * nsU ≤ asleep.time.now ∧
      asleep.power.railsValid = false ∧ (after (.wake 0 true) asleep).power.pwrEn = true) ∧
    (let s := { asleep with time := { now := 99999999 * nsU } }
     s.time.now < s.power.pwrOffAt + 100000000 * nsU ∧ (after (.wake 0 true) s).power.pwrEn = false) := by
  repeat' apply And.intro
  all_goals decide +kernel

theorem test_witness_BootAndSupervision :
    (let s := { small .boot with board := { keyHashes := [] }, power := { resetLow := true } }
     s.power.resetLow = true ∧ powered s = true ∧ isFull s.board.variant = true ∧ (after (.resetRelease 0 true 2) s).pair.id = 2 ∧
      (after (.resetRelease 0 true 3) s).dev.bootCause = 6) ∧
    (State.reset.dev.mode = .boot ∧ State.reset.dev.mbReady = false ∧ State.reset.power.resetLow = false ∧
      (after (.bootFault 0 1) State.reset).dev.bootCause = 1 ∧ (after (.bootFault 0 6) State.reset).dev.bootCause = 6) ∧
    (let s := { asleep with power := { resetLow := true } }
     s.power.resetLow = true ∧ s.dev.mode = .standby ∧ s.power.railsValid = true ∧ s.power.pwrEn = true ∧
      (after (.resetRelease 0 false 0) s).dev.mode = .boot) ∧
    (let s := { asleep with power := { asleep.power with resetLow := true } }
     s.power.resetLow = true ∧ powered s = false ∧ s.power.railsValid = false ∧ (after (.resetRelease 0 false 0) s).dev.mode = .standby) ∧
    ((small .config).power.resetLow = false ∧ (after (.resetRelease 0 true 3) (small .config)).dev.bootCause = 0) ∧
    ((small .config).dev.mode ≠ .boot ∧ (after (.bootFault 0 1) (small .config)).dev.bootCause = 0) ∧
    (let s := { State.reset with board := keyed }
     s.dev.bootCause = 0 ∧ mayBoot s bootFound.slot = true ∧ (after (.firmwareStarted 0 bootFound) s).dev.mode = .config ∧
      (after (.firmwareStarted 0 bootFound) s).power.version = 0x30200 ∧
      memRead (after (.firmwareStarted 0 bootFound) s).mem.supervisor 0 4 = [1, 2, 3, 4] ∧
      memRead (after (.firmwareStarted 0 bootFound) s).mem.s1 0 4 = [5, 6, 7, 8]) ∧
    ((small .config).dev.mode ≠ .boot ∧ (after (.firmwareStarted 0 bootFound) (small .preop)).dev.mode = .preop) ∧
    (powered (small .config) = true ∧ parN (small .config) Par.pfailSource 0 = 0 ∧ (small .config).ev.freeze = none ∧
      (after (.powerFail 0 true) (small .config)).ev.freeze.isSome = true ∧ (after (.powerFail 0 true) (small .boot)).dev.mode = .boot) ∧
    (powered (small .off) = false ∧ (after (.powerFail 0 true) (small .off)).dev.mode = .off) ∧
    (powered (small .operational) = true ∧ hasLocal (small .operational).var = false ∧
      (after (.clockMonitor { dt := 0, beyond := true }) (small .operational)).dev.mode = .fault ∧
      faultCauseActive (after (.clockMonitor { dt := 0, beyond := true }) (small .operational)) = true ∧
      faultCauseActive (after (.clockMonitor { dt := 0, beyond := false }) (after (.clockMonitor { dt := 0, beyond := true }) (small .operational))) = false) ∧
    (hasLocal (inState .operational).var = true ∧ (inState .operational).safe.state ≤ 1 ∧
      (after (.clockMonitor { dt := 0, beyond := true }) (inState .operational)).safe.state = 2) ∧
    (powered (small .off) = false ∧ (after (.clockMonitor { dt := 0, beyond := true }) (small .off)).dev.mode = .off) ∧
    (powered (small .config) = true ∧ (small .config).board.qspi = false ∧
      (∀ e ∈ (small .config).dma.chans, usesHost (small .config) e.2 = false) ∧
      (after (.pcieLinkReset 0 false) (small .config)).host.linkUp = false) ∧
    (let c : DmaCh := { state := dmaRunning, run := { src := 0x8000000000, dst := 0x300000, left := 4, inSeg := true } }
     let s := { small .config with dma := { chans := [(24, c)] } }
     usesHost s (s.chan 24) = true ∧ (after (.pcieLinkReset 0 true) s).ev.raised.contains Ev.dmaFailed = true) ∧
    (powered (small .off) = false ∧ (after (.pcieLinkReset 0 false) (small .off)).host.linkUp = true) ∧
    (let s := { small .config with dev := { (small .config).dev with hostWd := some 0 }, time := { now := 5 * 1000000 * nsU + 1 },
                                   par := { active := [(pkey Par.hostWdTime 0, 5)] } }
     s.dev.hostWd = some 0 ∧ parN s Par.hostWdTime 0 ≠ 0 ∧ 0 + parN s Par.hostWdTime 0 * 1000000 * nsU < s.time.now ∧
      (after (.hostWatchdogExpiry 0) s).dev.hostWd = none ∧
      (after (.hostWatchdogExpiry 0) { s with time := { now := 5 * 1000000 * nsU } }).dev.hostWd = some 0) ∧
    ((small .config).dev.hostWd = none ∧ (after (.hostWatchdogExpiry 0) (small .config)).ev.raised = []) := by
  repeat' apply And.intro
  all_goals decide +kernel

/-- A switch of domain 1 in progress. -/
def switching (on : Bool) : State := { small .config with dma := { switching := [(1, (on, 0))] }, time := { now := 1000000000 * nsU } }

/-- FW_STAGE_COMMIT is pending for a target; the image of `imageBytes` runs from slot 0 and stands staged for slot 1 with its patch. -/
def staged (k : Nat) : State :=
  { small .config with
    board := keyed, pend := [{ code := Cmd.fwStageCommit, mb := 1, tag := 7, key := k }],
    power := { version := 0x30200, lens := [4, 4, 0, 0], staging := [(1, cellsFrom 0 imageBytes)] },
    mem := { mram := cellsFrom 1703936 patchOf } }

/-- The same on a part that knows another key. -/
def strange (k : Nat) : State := { staged k with board := { variant := .ck1232, keyHashes := [] } }

theorem test_witness_PowerDomainsAndFirmwareStaging :
    (let s := { small .config with dma := { domainsOff := [1] } }
     let q := rq [1, 1, 0, 0]
     Served Cmd.powerDomain 0 q s ∧ domainHere (atStamp Cmd.powerDomain 0 q s) 1 = true ∧ status (after (.powerDomain 0 q) s) = 1) ∧
    (let s := withPlan planUser (inState .config)
     let q := rq [2, 0, 0, 0]
     Served Cmd.powerDomain 0 q s ∧ domainHere (atStamp Cmd.powerDomain 0 q s) 2 = true ∧
      (slices (atStamp Cmd.powerDomain 0 q s).image).any (fun x => x.ring == 255) = true ∧
      status (after (.powerDomain 0 q) s) = St.badState) ∧
    (let s := switching true
     tfind s.dma.switching 1 = some (true, 0) ∧ 0 + switchOnNs 1 * nsU ≤ s.time.now ∧
      (after (.powerDomainSwitched 0 1) s).dma.domainsOff.contains 1 = false) ∧
    (let s := switching false
     tfind s.dma.switching 1 = some (false, 0) ∧ inFlight s 1 = [] ∧ (after (.powerDomainSwitched 0 1) s).dma.domainsOff.contains 1 = true) ∧
    (let c : DmaCh := { state := dmaRunning, run := { src := 0x100000000, dst := 0x300000, left := 4, inSeg := true } }
     let s := { switching false with dma := { (switching false).dma with chans := [(24, c)] } }
     tfind s.dma.switching 0 = none ∧ tfind s.dma.switching 1 = some (false, 0) ∧ inFlight s 1 ≠ [] ∧
      0 + parN s Par.pdHoldMax 0 * 1000 * nsU ≤ s.time.now ∧ (after (.pdHoldMaxExpiry 0) s).dma.domainsOff.contains 1 = true) ∧
    (let q := rq [1, 0, 0, 0, 0xFF, 0xFF, 3, 0, 5]
     MemInv (small .config) ∧ Served Cmd.fwStageWrite 0 q (small .config) ∧ uAt q.payload 4 4 + (q.payload.drop 8).length ≤ 262144 ∧
      status (after (.fwStageWrite 0 q) (small .config)) = 0) ∧
    (let q := rq [0, 0, 0, 0, 0, 0, 0, 0, 5]
     Served Cmd.fwStageWrite 0 q (small .config) ∧ uAt q.payload 4 4 = 0 ∧ (q.payload.drop 8).length ≤ 8388608 ∧
      memRead (tget (after (.fwStageWrite 0 q) (small .config)).power.staging [] 1) 0 1 = [5]) ∧
    (Served Cmd.fwStageCommit 0 (rq [3, 0, 0, 0]) (small .config) ∧
      status (after (.fwStageCommit 0 (rq [3, 0, 0, 0])) (small .config)) = 1) ∧
    (∀ k, (staged k).pend.find? (fun p => p.code == Cmd.fwStageCommit && p.key == k) = some { code := Cmd.fwStageCommit, mb := 1, tag := 7, key := k }) ∧
    (stageFails (strange 0) 0 = 2 ∧ stageFails (strange 1) 1 = 2 ∧
      (after (.fwStageCommitDone 0 1) (strange 1)).power.patchArmed = false) ∧
    (after (.fwStageCommitDone 0 2) (staged 2)).power.patchArmed = false ∧
    (after (.fwStageCommitDone 0 3) (staged 3)).power.fuses = 0 := by
  repeat' apply And.intro
  all_goals first | exact served_of (by decide +kernel) | exact memInv_empty rfl rfl rfl | exact fun k => by simp [staged] | decide +kernel

/-- The image passes every check of R657 and the patch those of R659 too; the commits take them. -/
theorem test_witness_StagedImagesPass :
    (stageFails (staged 0) 0 = 0 ∧ (after (.fwStageCommitDone 0 0) (staged 0)).power.preferred = some 1) ∧
    (stageFails (staged 1) 1 = 0 ∧ (after (.fwStageCommitDone 0 1) (staged 1)).power.patchArmed = true) := by
  repeat' apply And.intro
  all_goals decide +kernel


/-! ### Witnesses: host interface -/

/-- A state whose mailbox `m` has the registers `r`. -/
def boxed (m : Nat) (r : RingRegs) : State := { small .config with host := { linkUp := true, mbs := [(m, r)] } }

theorem test_witness_MailboxIndices :
    (let s := boxed 1 { reqTail := 0xFFFF, reqHead := 0xFFFE }
     let r := s.mbox 1
     hostOpen s = true ∧ s.dev.mbReady = true ∧ (r.reqTail - r.reqHead).toNat ≤ ((62 : BitVec 16) - r.reqHead).toNat ∧
      ((62 : BitVec 16) - r.reqHead).toNat ≤ 64 ∧ ((after (.mbReqWrite 0 1 62) s).mbox 1).reqTail = 62 ∧
      64 < ((63 : BitVec 16) - r.reqHead).toNat ∧ ((after (.mbReqWrite 0 1 63) s).mbox 1).indexError = true ∧
      ((after (.mbReqWrite 0 7 0) s).mbox 7).indexError = true) ∧
    (let s := boxed 7 { rspTail := 2, rspHead := 0 }
     ((2 : BitVec 16) - (s.mbox 7).rspHead).toNat ≤ ((s.mbox 7).rspTail - (s.mbox 7).rspHead).toNat ∧
      ((after (.mbRspWrite 0 7 2) s).mbox 7).rspHead = 2 ∧
      ((s.mbox 7).rspTail - (s.mbox 7).rspHead).toNat < ((3 : BitVec 16) - (s.mbox 7).rspHead).toNat ∧
      ((after (.mbRspWrite 0 7 3) s).mbox 7).indexError = true) ∧
    (hostOpen State.reset = true ∧ State.reset.dev.mbReady = false) ∧
    (let s := boxed 7 { indexError := true, notifyLost := true }
     hostOpen s = true ∧ (5 : BitVec 32).toNat % 2 = 1 ∧ ((after (.mbStatWrite 0 7 5) s).mbox 7).indexError = false) ∧
    (let s0 := boxed 1 { reqTail := 1 }
     let s := { s0 with mem := { sram := memWrite [] (reqRing 1) (b16 Cmd.sysCaps ++ b16 9) } }
     s.dev.mbReady = true ∧ reqCount (s.mbox 1) ≠ 0 ∧ tfind s.host.running 1 = none ∧ rspFree s 1 = true ∧ urgentWaits s = false ∧ inTurn s 1 = true ∧
      (cmdRow (uAt (reqEntry s 1 (s.mbox 1).reqHead.toNat) 0 2)).isSome = true ∧
      ((tfind (after (.mailboxCommandStart 0 { mb := 1 }) s).host.running 1).map (·.tag)) = some 9 ∧
      (after (.mailboxCommandStart 0 { mb := 1 }) s).host.turn = [1] ∧ mayTake s 1 = true ∧
      (after (.mailboxCommandStart 0 { mb := 1, supervisor := .confirmed }) s).power.resetSource = 3 ∧
      (after (.mailboxCommandStart 0 { mb := 1, sram := .confirmed }) s).ev.raised.contains Ev.eccDouble = true) ∧
    -- mailbox 1 has had its turn, and mailbox 2 could start
    (let s := { small .config with host := { mbs := [(1, { reqTail := 1 }), (2, { reqTail := 1 })], turn := [1] } }
     inTurn s 1 = false ∧ inTurn s 2 = true ∧ mayTake s 1 = false ∧ after (.mailboxCommandStart 0 { mb := 1 }) s = s) ∧
    (let n : Notice := { code := Cmd.home, tag := 1, status := 0, payload := [], stamp := 0 }
     let s := { small .config with host := { linkUp := true, notices := [n] } }
     s.dev.mbReady = true ∧ s.host.notices = [n] ∧ rspFree s 7 = true ∧ (after (.notifyPost 0) s).host.notices = []) := by
  repeat' apply And.intro
  all_goals decide +kernel

theorem test_witness_HostRegisterAccesses :
    (hostOpen (small .standby) = false ∧ (after (.registerWrite 0 (.bar0 0x28) [1, 0, 0, 0]) (small .standby)).dev.beat = 0) ∧
    (hostOpen (small .config) = true ∧ bitOf (1 : BitVec 32).toNat 1 = false) ∧
    (after (.hostHeartbeat 0 9) (small .config)).dev.beat = 9 ∧
    (after (.timeNsRead 0) { small .config with time := { now := 3 * secU } }).dev.secLatch = 3 ∧
    (let s := { small .config with host := { evStatus := 3 * 2 ^ 224 } }
     (after (.evStatusWrite 1 7 1) s).host.evStatus = 2 * 2 ^ 224) ∧
    (let s := { small .config with host := { evStatus := 3 * 2 ^ 224, evNew := 2 ^ 224, evNewAt := (small .config).time.now } }
     (after (.evStatusWrite 0 7 1) s).host.evStatus = 3 * 2 ^ 224) ∧
    (MemInv (small .config) ∧ bar2Region 0x370000 = .stored ∧ bar2Region 0x38FFFF = .stored ∧ bar2Region 0x303FFF = .stored ∧
      memGet (after (.bar2Write 0 0x370000 [7]) (small .config)).mem.sram 0x370000 = 7) ∧
    (bar2Region 0x304000 = .denied ∧ bar2Region 0x36FFFF = .denied ∧ bar2Region 0x340FFF = .denied ∧
      (after (.bar2Write 0 0x304000 [7]) (small .config)).mem.sram = (small .config).mem.sram) ∧
    (bar2Region 0x341000 = .ignored ∧ bar2Region 0x400000 = .ignored) ∧
    (after (.registerWrite 0 (.bar0 0x28) (leBytes 4 5)) (small .config)).dev.beat = 5 ∧
    (after (.registerWrite 0 (.bar0 0x220) (leBytes 4 5)) (small .config)).host.evEnable = 5 ∧
    ((small .config).board.qspi = false ∧
      (after (.registerWrite 0 (.config .bar0) (leBytes 4 0x12345678)) (small .config)).host.pci.bar0 = 0x12345000) ∧
    (let s := { small .config with board := { variant := .ck1232, qspi := true, keyHashes := [] }, dev := { (small .config).dev with qspiWindow := 0x37 } }
     let c := [0, 5, 0, 0, 0, 0, 2, 8, 0, 9]
     hostOpen s = true ∧ s.board.qspi = true ∧ nibbles (c.take 2) ≠ 0x5A ∧ nibbles (c.take 2) ≠ 0xA5 ∧
      after (.registerWrite 0 (.qspi c) []) s = s ∧
      (after (.registerWrite 0 (.qspi [5, 10, 0, 0, 0, 0, 2, 8, 0, 9, 0, 0, 0, 0, 0, 0]) []) s).dev.beat = 9 ∧
      bar2Region (65536 * s.dev.qspiWindow.toNat + 1) = .stored ∧
      memGet (after (.registerWrite 0 (.qspi [5, 10, 8, 0, 0, 0, 0, 1, 0, 7]) []) s).mem.sram 0x370001 = 7 ∧
      (after (.registerWrite 0 (.qspi (List.replicate 20 0 |>.set 0 10 |>.set 1 5 |>.set 7 0)) []) s).host.qspiOut = [3, 2]) := by
  repeat' apply And.intro
  all_goals first | exact memInv_empty rfl rfl rfl | decide +kernel

theorem test_witness_TunnelRegisters :
    (let s := small .config
     hostOpen s = true ∧ s.dev.mbReady = true ∧ 0 < ringCount s.var ∧ tailOk 16 (s.tun 0).reqHead (s.tun 0).reqTail 16 = true ∧
      (s.ring 0).tunnelOpen = false ∧ ((after (.tunnelTxSlot 0 0 16) s).tun 0).reqTail = 16 ∧
      tailOk 16 (s.tun 0).reqHead (s.tun 0).reqTail 17 = false ∧ ((after (.tunnelTxSlot 0 0 17) s).tun 0).reqTail = 0) ∧
    (let s := { small .config with host := { tuns := [(0, { rspTail := 2, txRejected := 3 })] } }
     headOk (s.tun 0).rspTail (s.tun 0).rspHead 2 = true ∧ (s.ring 0).tunRx = [] ∧ ((after (.tunRxHeadWrite 0 0 2) s).tun 0).rspHead = 2 ∧
      ((after (.tunStatRead 0 0) s).tun 0).txRejected = 0) := by
  repeat' apply And.intro
  all_goals decide +kernel

/-! ### Witnesses: parameters, plans and the cycle -/

/-- A payload of one parameter entry. -/
def oneEntry (obj sub inst ty v : Nat) : Bytes := b8 1 ++ zeros 3 ++ b16 obj ++ b8 sub ++ b8 inst ++ b8 ty ++ zeros 3 ++ leBytes 12 v

theorem test_witness_ParameterReadsAndWrites :
    (let q := rq (oneEntry 0x1010 1 0 (typeCode .u16) 0)
     Served Cmd.paramRead 0 q (small .config) ∧ uAt q.payload 0 1 = 1 ∧ uAt q.payload 1 3 = 0 ∧
      entryDef (entryAt q.payload 0) = some ⟨1, 1, .u16, [(0, 10000)], 0, .now⟩ ∧ readOk (entryAt q.payload 0) = true ∧ status (after (.paramRead 0 q) (small .config)) = 0) ∧
    -- a value container beyond the type's own bits (R5, R373)
    (let q := rq (oneEntry 0x1010 1 0 (typeCode .u16) 65536)
     Served Cmd.paramRead 0 q (small .config) ∧ readOk (entryAt q.payload 0) = false ∧
      status (after (.paramRead 0 q) (small .config)) = St.badParam) ∧
    (let q := rq (oneEntry 0x1010 1 0 (typeCode .u16) 10000)
     Served Cmd.paramWrite 0 q (small .config) ∧
      checkWrites (atStamp Cmd.paramWrite 0 q (small .config)) q.payload =
        .ok [{ entry := 0, n := Par.hostWdTime, inst := 0, value := 10000, eff := .now, absent := false }] ∧
      parN (after (.paramWrite 0 q) (small .config)) Par.hostWdTime 0 = 10000) ∧
    (let q := rq (oneEntry 0x3000 2 0 (typeCode .u8) 0)
     checkWrites (atStamp Cmd.paramWrite 0 q (small .config)) q.payload =
        .ok [{ entry := 0, n := 0x300002, inst := 0, value := 0, eff := .tick, absent := false }]) ∧
    (let q := rq (oneEntry 0x1010 1 0 (typeCode .u16) 10001)
     Served Cmd.paramWrite 0 q (small .config) ∧
      checkWrites (atStamp Cmd.paramWrite 0 q (small .config)) q.payload = .error (0, St.badParam) ∧
      parN (after (.paramWrite 0 q) (small .config)) Par.hostWdTime 0 = 0) ∧
    (let p : Params := { waiting := [{ stamp := 5, key := 1, value := 2 }] }
     p.waiting = [{ stamp := 5, key := 1, value := 2 }] ∧ 5 < 6 ∧ (parTick 6 p).active = [(1, 2)] ∧ (parTick 5 p).active = []) := by
  repeat' apply And.intro
  all_goals first | exact served_of (by decide +kernel) | decide +kernel

theorem test_witness_PlanBuffers :
    (let q := rq (zeros 8 ++ [7, 8])
     Served Cmd.planLoad 0 q (small .config) ∧ uAt q.payload 4 4 = 0 ∧ planBusy (atStamp Cmd.planLoad 0 q (small .config)) = false ∧
      (after (.planLoad 0 q) (small .config)).plan.standby = [(0, 7), (1, 8)]) ∧
    (let q := rq (b32 524286 ++ zeros 4 ++ [7, 8])
     let s := { small .config with plan := { standby := [(3, 9)] } }
     Served Cmd.planLoad 0 q s ∧ uAt q.payload 0 4 + (q.payload.drop 8).length ≤ 524288 ∧
      (after (.planLoad 0 q) s).plan.standby = [(3, 9), (524286, 7), (524287, 8)]) ∧
    (let q := rq (b32 524287 ++ zeros 4 ++ [7, 8])
     Served Cmd.planLoad 0 q (small .config) ∧ 524288 < uAt q.payload 0 4 + (q.payload.drop 8).length ∧
      status (after (.planLoad 0 q) (small .config)) = St.badParam) ∧
    (let q := rq (zeros 8 ++ [7, 8])
     let s := { small .config with plan := { standbySt := .armed } }
     Served Cmd.planLoad 0 q s ∧ planBusy (atStamp Cmd.planLoad 0 q s) = true ∧ status (after (.planLoad 0 q) s) = St.badState) ∧
    (let s := withPlan planUser (small .config)
     Served Cmd.planStore 0 (rq []) s ∧ (atStamp Cmd.planStore 0 (rq []) s).plan.active = some planUser) ∧
    (Served Cmd.planStore 0 (rq []) (small .config) ∧ (atStamp Cmd.planStore 0 (rq []) (small .config)).plan.active = none ∧
      status (after (.planStore 0 (rq [])) (small .config)) = St.planNone) ∧
    (let s := { small .config with mem := { planStored := true } }
     Served Cmd.planRecall 0 (rq []) s ∧ planBusy (atStamp Cmd.planRecall 0 (rq []) s) = false ∧
      (atStamp Cmd.planRecall 0 (rq []) s).mem.planStored = true ∧ (rq []).ecc = .clean ∧
      Served Cmd.planRecall 0 { rq [] with ecc := .confirmed } s ∧
      (after (.planRecall 0 { rq [] with ecc := .confirmed }) s).ev.raised.contains Ev.eccDouble = true) ∧
    (let s := { small .config with plan := { standbySt := .armed } }
     Served Cmd.planRecall 0 (rq []) s ∧ planBusy (atStamp Cmd.planRecall 0 (rq []) s) = true ∧
      status (after (.planRecall 0 (rq [])) s) = St.badState) ∧
    (Served Cmd.planRecall 0 (rq []) (small .config) ∧ (atStamp Cmd.planRecall 0 (rq []) (small .config)).mem.planStored = false ∧
      status (after (.planRecall 0 (rq [])) (small .config)) = St.planNotStored) ∧
    Served Cmd.planStatus 0 (rq []) (small .config) := by
  repeat' apply And.intro
  all_goals first | exact served_of (by decide +kernel) | decide +kernel

/-! ### Witnesses: verification and the cycle -/

/-- A verification of the plan runs; its command stands open in mailbox 1. -/
def verifying (m : Image) (n : Nat) (mode : DevMode) : State :=
  let s := withPlan m (inState mode)
  { s with plan := { standby := m, standbySt := .verifying, verifying := some n, verifyMb := 1 },
           host := { linkUp := true, running := [(1, { code := Cmd.planCommit, tag := 7, len := 8, payload := b64 n })] } }

theorem ok_of_toOption {ε α : Type} {x : Except ε α} (h : x.toOption.isSome = true) : ∃ u, x = .ok u := by
  cases x with
  | error e => cases h
  | ok u => exact ⟨u, rfl⟩

/-- The image's own CRC-32C checks; the register after each 34 bytes is that of the reflected CRC over 0x82F63B78. -/
theorem test_plan_crc : verifyCrc planUser = none := by
  have h : memRead planUser 0 272 = (List.range 8).flatMap (fun i => ((planBytes 0x8000 0).drop (34 * i)).take 34) := by decide +kernel
  have k (i c d : Nat) (e : crcGo 0x82F63B78 c (((planBytes 0x8000 0).drop (34 * i)).take 34) = d) (r : Bytes) :
      crcGo 0x82F63B78 c (((planBytes 0x8000 0).drop (34 * i)).take 34 ++ r) = crcGo 0x82F63B78 d r := by rw [crcGo_append, e]
  have g : crc32c (memRead planUser 0 272) = 0xBAD2C7E5 := by
    rw [h, crc32c]
    simp only [show List.range 8 = [0, 1, 2, 3, 4, 5, 6, 7] from rfl, List.flatMap_cons, List.flatMap_nil]
    rw [k 0 0xFFFFFFFF 0x17C7816D (by decide +kernel), k 1 _ 0x9A89AD59 (by decide +kernel), k 2 _ 0xC4C3BC37 (by decide +kernel),
      k 3 _ 0xBBDAB4AA (by decide +kernel), k 4 _ 0x7E6B8BEB (by decide +kernel), k 5 _ 0xC3C4FF91 (by decide +kernel),
      k 6 _ 0x7FA685EB (by decide +kernel), k 7 _ 0x452D381A (by decide +kernel)]
    decide +kernel
  have n : iu planUser 8 4 = 276 := by decide +kernel
  have w : iu planUser (276 - 4) 4 = 0xBAD2C7E5 := by decide +kernel
  simp only [verifyCrc, n, w, Nat.reduceSub, g, refuse, beq_self_eq_true, if_true]

/-- The plan of the tests passes every step of R66 on the CK-1280 where the structure of its tasks checks. -/
theorem plan_verifies {s : State} (v : s.var = .ck1280) (h : verifyStructure s planUser = none) (d : Nat)
    (hb : (budgetTest .ck1280 planUser d (homePlaces planUser)).toOption.isSome = true) (r : Refused) :
    verifyPlan s planUser d false ≠ .error r := by
  have h1 : verifyFormat planUser = none := by decide +kernel
  have h3 : verifyVariant .ck1280 planUser = none := by decide +kernel
  have h5 : verifyCurrent planUser = none := by decide +kernel
  have h6 : verifySlots planUser = none := by decide +kernel
  have h7 : verifyGather planUser = none := by decide +kernel
  have h9 : verifyEmit planUser = none := by decide +kernel
  obtain ⟨u, hu⟩ := ok_of_toOption hb
  have e : verifyPlan s planUser d false = .ok u := by
    rw [← v] at h3 hu
    exact verifyWith_ok h1 test_plan_crc h3 h h5 h6 h7 hu h9
  rw [e]
  exact fun h => nomatch h

theorem test_witness_PlanCommitAndSwitch :
    (let q := rq (b64 256)
     Served Cmd.planCommit 0 q (small .config) ∧ uAt q.payload 0 8 % 256 = 0 ∧ planBusy (atStamp Cmd.planCommit 0 q (small .config)) = false ∧
      (after (.planCommit 0 q) (small .config)).plan.verifying = some 256) ∧
    (let q := rq (b64 257)
     Served Cmd.planCommit 0 q (small .config) ∧ uAt q.payload 0 8 % 256 ≠ 0 ∧ status (after (.planCommit 0 q) (small .config)) = St.badParam) ∧
    (let s := verifying [] 0 .config
     s.plan.verifying = some 0 ∧ verifyPlan s s.plan.standby (planDerating s) s.cyc.running = .error { step := 1 } ∧
      status (after (.planVerifyDone 0) s) = stepStatus 1) ∧
    (let s := verifying planUser 256 .config
     s.plan.verifying = some 256 ∧ s.dev.mode = .config ∧ ∀ r, verifyPlan s s.plan.standby (planDerating s) s.cyc.running ≠ .error r) ∧
    (let s := verifying planUser 256 .operational
     s.plan.verifying = some 256 ∧ s.dev.mode ≠ .config ∧ s.time.now < 256 * (periodNs (switchRate s) * nsU) ∧
      ∀ r, verifyPlan s s.plan.standby (planDerating s) s.cyc.running ≠ .error r) ∧
    (let s := verifying planUser 0 .operational
     s.plan.verifying = some 0 ∧ s.dev.mode ≠ .config ∧ ∀ r, verifyPlan s s.plan.standby (planDerating s) s.cyc.running ≠ .error r) ∧
    (let s := { inState .config with plan := { standby := [], standbySt := .armed, armed := some 256 } }
     s.plan.armed = some 256 ∧ s.cyc.running = false) := by
  repeat' apply And.intro
  all_goals first
    | exact served_of (by decide +kernel)
    | exact plan_verifies rfl (by decide +kernel) _ (by decide +kernel)
    | decide +kernel

/-- A plan of one cycle section at 8 kHz, without rings, axes and tasks. -/
def planBare : Image := cellsFrom 0 (zeros 6 ++ b16 1 ++ zeros 24 ++ b16 1 ++ b16 1 ++ b32 40)

theorem test_witness_CycleStartsTicksAndStops :
    (let s := withPlan planBare (inState .config)
     let c := atStamp Cmd.cycleStart 0 (rq []) s
     Served Cmd.cycleStart 0 (rq []) s ∧ c.cyc.first = none ∧ c.plan.active = some planBare ∧ c.plan.verifiedAt = c.tru.derating ∧
      needsDomain c = false ∧ ringsStatus c = 0 ∧ (after (.cycleStart 0 (rq [])) s).cyc.first = some 256) ∧
    (let two : Node := { alias_ := 5, address := 1 }
     let s0 := withPlan planUser (inState .config)
     let s := { s0 with rings := [(0, { nodes := [(1, two), (2, { two with address := 2 })] })] }
     let c := atStamp Cmd.cycleStart 0 (rq []) s
     Served Cmd.cycleStart 0 (rq []) s ∧ c.cyc.first = none ∧ c.plan.active = some planUser ∧ c.plan.verifiedAt = c.tru.derating ∧
      needsDomain c = false ∧ ringsStatus c = St.aliasConflict ∧ status (after (.cycleStart 0 (rq [])) s) = St.aliasConflict) ∧
    (Served Cmd.cycleStart 0 (rq []) (small .config) ∧ status (after (.cycleStart 0 (rq [])) (small .config)) = St.planNone) ∧
    (let s := { small .config with cyc := { first := some 256 } }
     let f := advanceTo (tickU (planRate s.image) 256) s
     s.cyc.first = some 256 ∧ f.cyc.running = false ∧ tickU (planRate s.image) 256 ≤ f.time.now) ∧
    (let s := { small .operational with cyc := (running .operational).cyc, time := (running .operational).time }
     let k := advanceTo (tickU s.cyc.rate (s.cyc.tick + 1)) s
     k.cyc.running = true ∧ tickU s.cyc.rate (s.cyc.tick + 1) ≤ k.time.now) ∧
    (Served Cmd.cycleStop 0 (rq []) (running .preop)) ∧
    (let s := running .preop
     s.cyc.running = true ∧ s.dev.hwFaults.contains 3 = false ∧ s.dev.hwFaults.contains 1 = false ∧
      (after (.cycleHwFault 0 1) s).dev.hwFaults = [1] ∧ (after (.cycleHwFault 0 1) s).cyc.running = false ∧
      (after (.cycleHwFault 0 1) s).dev.mode = .fault ∧ (after (.cycleHwFault 0 5) s).cyc.running = true) := by
  repeat' apply And.intro
  all_goals first | exact served_of (by decide +kernel) | decide +kernel

theorem test_witness_FlowPlacement :
    (let s := withPlan planUser (running .preop)
     let q := rq [0, 0, 1, 0]
     let u := atStamp Cmd.flowPlace 0 q s
     Served Cmd.flowPlace 0 q s ∧ uAt q.payload 3 1 = 0 ∧ (pflow u.image 0).isSome = true ∧ bitOf (flowAffinity u.image 0) 1 = true ∧
      serves u 1 = true ∧ (u.flow 0).drainTo = none ∧
      placeTest u (placesWith u 0 1) = .error { step := 8, kind := 6, item := 1 }) ∧
    (let s0 := withPlan planUser (running .preop)
     let s := { s0 with disp := { s0.disp with flows := [(0, { engine := some 0 }), (1, { engine := some 1 })] } }
     let q := rq [0, 0, 1, 0]
     let u := atStamp Cmd.flowPlace 0 q s
     Served Cmd.flowPlace 0 q s ∧ (placeTest u (placesWith u 0 1)).toOption.isSome = true ∧
      ((after (.flowPlace 0 q) s).flow 0).engine = some 1 ∧ ((after (.flowPlace 0 q) s).flow 0).epoch = 1) ∧
    (let s0 := withPlan planUser (running .preop)
     let s := { s0 with disp := { s0.disp with flows := [(0, { engine := some 0, service := some 0 }), (1, { engine := some 1 })] } }
     let q := rq [0, 0, 1, 0]
     let u := atStamp Cmd.flowPlace 0 q s
     (u.flow 0).service ≠ none ∧ ((after (.flowPlace 0 q) s).flow 0).drainTo = some 1) ∧
    (let s0 := withPlan planUser (running .preop)
     let s := { s0 with disp := { s0.disp with flows := [(0, { engine := some 0, drainTo := some 1 })] } }
     Served Cmd.flowPlace 0 (rq [0, 0, 1, 0]) s ∧ status (after (.flowPlace 0 (rq [0, 0, 1, 0])) s) = St.badState) ∧
    (Served Cmd.flowPlace 0 (rq [9, 0, 1, 0]) (withPlan planUser (running .preop)) ∧
      status (after (.flowPlace 0 (rq [9, 0, 1, 0])) (withPlan planUser (running .preop))) = St.badParam) := by
  repeat' apply And.intro
  all_goals first | exact served_of (by decide +kernel) | decide +kernel

/-! ### Witnesses: reports -/

/-- A ring with one bound node of address 1 at position 1. -/
def oneNode : Ring := { nodes := [(1, { address := 1, bound := true, record := zeros 32 })] }

theorem test_witness_PartAndAxisReports :
    (let s := small .config
     Served Cmd.sysCaps 0 (rq []) s ∧ uAt (reply (after (.sysCaps 0 (rq [])) s) 8) 0 4 = 0x00B04B32 ∧ Served Cmd.bootInfo 0 (rq []) s ∧
      Served Cmd.ringStatus 0 (rq [0, 1, 0, 0]) s ∧ Served Cmd.ringStatus 0 (rq [0, 64, 0, 0]) s ∧
      Served Cmd.axisStatus 0 (rq [31, 0, 0, 0]) s ∧ uAt (reply (after (.axisStatus 0 (rq [31, 0, 0, 0])) s) 8) 0 1 = 31 ∧
      Served Cmd.motionStatus 0 (rq [31, 0, 0, 0]) s ∧ moverOf [31, 0, 0, 0] = some (.axis 31) ∧
      Served Cmd.motionStatus 0 (rq [15, 128, 0, 0]) s ∧ moverOf [15, 128, 0, 0] = some (.group 15) ∧
      Served Cmd.lawInfo 0 (rq [0, 0, 0, 0]) s ∧ Served Cmd.timeRead 0 (rq []) s ∧ Served Cmd.ptpStatus 0 (rq []) s) ∧
    (let s := { small .config with rings := [(0, oneNode)] }
     let q := rq [0, 0, 0, 0]
     Served Cmd.nodeIdentity 0 q s ∧ nodeAt (atStamp Cmd.nodeIdentity 0 q s) 0 1 = some 1 ∧ status (after (.nodeIdentity 0 q) s) = 0) ∧
    (let s := inState .config
     Served Cmd.pwmStatus 0 (rq [7, 0, 0, 0]) s ∧ Served Cmd.localInStatus 0 (rq []) s ∧
      uAt (reply (after (.pwmStatus 0 (rq [7, 0, 0, 0])) s) 8) 0 1 = 7) := by
  repeat' apply And.intro
  all_goals first | exact served_of (by decide +kernel) | decide +kernel

theorem test_witness_UnitReports :
    (let s := inState .config
     Served Cmd.calStatus 0 (rq []) s ∧ Served Cmd.dmaStatus 0 (rq [31, 0, 0, 0]) s ∧ Served Cmd.safetyStatus 0 (rq []) s ∧
      Served Cmd.safetyConnStatus 0 (rq [127, 0, 0, 0]) s ∧ Served Cmd.pairStatus 0 (rq []) s ∧
      Served Cmd.eventRead 0 (rq [0, 0, 0, 0]) s ∧ Served Cmd.shavingsStatus 0 (rq []) s ∧
      Served Cmd.shavingsRead 0 (rq ([1, 1, 0, 0] ++ b32 589823)) s ∧ 589823 + 1 ≤ 589824 ∧
      Served Cmd.truingStatus 0 (rq [0, 0, 0, 0]) s) ∧
    (let s := inState .preop
     Served Cmd.dispatchEngineStats 0 (rq [15]) s ∧ 15 < engineCount s.board.variant ∧
      Served Cmd.dispatchLevelStats 0 (rq []) s ∧ Served Cmd.probeRead 0 (rq [7, 0, 0, 0]) s ∧ 7 < slotCount s.board.variant) ∧
    (let g : CalSeg := { number := 0, inDdr := false, addr := 0, len := 65 }
     let s := { inState .config with cal := { done := [g] } }
     let q := rq (b32 0 ++ b32 64 ++ [1, 0, 0, 0])
     Served Cmd.calRead 0 q s ∧ s.cal.done.find? (fun g => g.number == uAt q.payload 0 4) = some g ∧
      uAt q.payload 4 4 + uAt q.payload 8 1 ≤ g.len ∧ status (after (.calRead 0 q) s) = 0) ∧
    (let s := { inState .config with safe := { image := [1, 2] } }
     let q := rq (b32 1 ++ [1, 0, 0, 0])
     Served Cmd.safetyImageRead 0 q s ∧ uAt q.payload 0 4 + uAt q.payload 4 1 ≤ s.safe.image.length ∧
      reply (after (.safetyImageRead 0 q) s) 1 = [2]) ∧
    (let s := withPlan planUser (inState .preop)
     Served Cmd.dispatchFlowStats 0 (rq [1, 0]) s ∧ (pflow s.image 1).isSome = true) := by
  repeat' apply And.intro
  all_goals first | exact served_of (by decide +kernel) | decide +kernel

/-! ### Witnesses: axes and motion -/

/-- The cycle runs on the CK-1232 and axis 0 is a virtual axis (R165) in the state `x`. -/
def virtual (x : Axis) : State :=
  { small .operational with cyc := (running .preop).cyc, time := (running .preop).time, axes := [(0, x)],
                            par := { active := [(pkey Par.axisMode 0, 7)], written := [(pkey Par.axisMode 0, 7)] } }

theorem test_witness_AxisEnableAndDisable :
    (let s := virtual {}
     let q := rq [0, 0, 0, 0]
     let e := promoteEnable (atStamp Cmd.axisEnable 0 q s) 0
     Served Cmd.axisEnable 0 q s ∧ modeFits e 0 = true ∧ nodeReady e 0 = true ∧ (e.axis 0).faults = [] ∧ axisSafetyOff e 0 = false ∧
      (e.axis 0).phase = .disabled ∧ status (after (.axisEnable 0 q) s) = 1) ∧
    (let s := virtual { faults := [Ev.feedbackLost] }
     let q := rq [0, 0, 0, 0]
     let e := promoteEnable (atStamp Cmd.axisEnable 0 q s) 0
     Served Cmd.axisEnable 0 q s ∧ modeFits e 0 = true ∧ (e.axis 0).faults ≠ [] ∧ status (after (.axisEnable 0 q) s) = St.badState) ∧
    (let s := virtual { phase := .braking 0 }
     (s.axis 0).phase = .braking 0 ∧ 0 + parN s Par.brakeRelease 0 * 1000000 * nsU ≤ s.cyc.t0 ∧
      ((after (.axisEnabled 0 0) s).axis 0).phase = .enabled) ∧
    (let s := { virtual { phase := .powering 0 } with time := { now := 100 * 1000000 * nsU } }
     (s.axis 0).phase = .powering 0 ∧ 0 + parN s Par.enableTimeout 0 * 1000000 * nsU ≤ s.time.now ∧
      ((after (.axisEnableTimeout 0 0) s).axis 0).phase = .disabled) ∧
    (let q := rq [0, 0, 0, 0]
     Served Cmd.axisDisable 0 q (virtual {}) ∧ ((virtual {}).axis 0).phase = .disabled ∧
      Served Cmd.axisDisable 0 q (virtual { phase := .enabled }) ∧ status (after (.axisDisable 0 q) (virtual { phase := .enabled })) = 1) ∧
    (let s := { virtual { phase := .holding 0 } with par := {} }
     (s.axis 0).phase = .holding 0 ∧ par s Par.axisMode 0 ≠ 7 ∧ 0 + parN s Par.brakeEngage 0 * 1000000 * nsU ≤ s.time.now ∧
      ((after (.brakeEngageExpiry 0 0) s).axis 0).phase = .disabled) := by
  repeat' apply And.intro
  all_goals first | exact served_of (by decide +kernel) | decide +kernel

theorem test_witness_AxisFaultsAndTheirClearing :
    (let s := virtual { faults := [Ev.followingError] }
     let q := rq [0, 0, 0, 0]
     Served Cmd.axisFaultClear 0 q s ∧ moverOf q.payload = some (.axis 0) ∧ (s.axis 0).faults ≠ [] ∧
      axisCausePersists (atStamp Cmd.axisFaultClear 0 q s) 0 = false ∧ ((after (.axisFaultClear 0 q) s).axis 0).faults = []) ∧
    (let s0 := withPlan planUser (running .preop)
     let s := { s0 with axes := [(0, { faults := [Ev.flowUnplaced] })] }
     let q := rq [0, 0, 0, 0]
     Served Cmd.axisFaultClear 0 q s ∧ axisCausePersists (atStamp Cmd.axisFaultClear 0 q s) 0 = true ∧
      status (after (.axisFaultClear 0 q) s) = St.badState) ∧
    (Served Cmd.axisFaultClear 0 (rq [15, 128, 0, 0]) (virtual {}) ∧ moverOf [15, 128, 0, 0] = some (.group 15)) ∧
    (let s := virtual { invalidRun := 3 }
     parN s Par.fbMissMax 0 ≤ (s.axis 0).invalidRun ∧ ((after (.feedbackLost 0 0) s).axis 0).faults.contains Ev.feedbackLost = true) ∧
    (let s := virtual { feCycles := 16 }
     parN s Par.feTime 0 ≠ 0 ∧ parN s Par.feTime 0 ≤ (s.axis 0).feCycles ∧
      ((after (.followingError 0 0) s).axis 0).faults.contains Ev.followingError = true) ∧
    (let s := virtual { source := 2, streamRun := 4 }
     (s.axis 0).source = 2 ∧ parN s Par.streamMissMax 0 ≤ streamCount s 0 ∧
      ((after (.streamLost 0 0) s).axis 0).faults.contains Ev.streamLost = true) := by
  repeat' apply And.intro
  all_goals first | exact served_of (by decide +kernel) | decide +kernel

/-- The cycle runs, the axis 0 is in the state `x`, and the law 3 (R193) runs in the flow of its set-point law. -/
def geared (x : Axis) : State :=
  let t := planBytes 2 0
  let m := cellsFrom 0 (patch (patch (patch t 224 [0]) 240 [0]) 246 (b16 3))
  { running .operational with plan := { active := some m }, axes := [(0, x)], par := { active := [(pkey Par.masterIndex 0, 1)] } }

theorem test_witness_SourcesAndGearing :
    (let s := virtual {}
     let q := rq [0, 2, 0, 0]
     let x := s.axis 0
     Served Cmd.axisSource 0 q s ∧ x.prof = .idle ∧ x.queue = [] ∧ x.waiting = [] ∧ actingGroup s 0 = none ∧
      ((after (.axisSource 0 q) s).axis 0).source = 2) ∧
    (let s := { virtual {} with groups := [(3, { members := [0] })] }
     Served Cmd.axisSource 0 (rq [0, 1, 0, 0]) s ∧ (groupOf s 0).isSome = true) ∧
    (let s := virtual { prof := .moving }
     let q := rq [0, 0, 0, 0]
     Served Cmd.axisSource 0 q s ∧ (s.axis 0).prof = .moving ∧ status (after (.axisSource 0 q) s) = St.motionBusy) ∧
    (let s := virtual { phase := .enabled, source := 3 }
     let q := rq [0, 0, 0, 0]
     Served Cmd.gearRatio 0 q s ∧ Served Cmd.gearDisengage 0 q s ∧ (s.axis 0).phase = .enabled ∧ (s.axis 0).source = 3 ∧
      ((after (.gearRatio 0 q) s).axis 0).gear.toNum = 1 ∧ ((after (.gearDisengage 0 q) s).axis 0).gear.disengaging = true) ∧
    (let s := geared { phase := .enabled }
     let q := rq [0, 0, 0, 0]
     Served Cmd.gearEngage 0 q s ∧ Served Cmd.axisSource 0 (rq [0, 3, 0, 0]) s ∧ (s.axis 0).phase = .enabled ∧ (s.axis 0).source = 0 ∧
      busyAxis (s.axis 0) (stampOf Cmd.gearEngage 0 q s) = false ∧ hasMaster s.image 0 = true ∧
      gearFits s 0 = true ∧ ((after (.gearEngage 0 q) s).axis 0).source = 3) ∧
    (let s := { geared { phase := .enabled } with par := {} }
     let q := rq [0, 0, 0, 0]
     gearFits s 0 = false ∧ (s.axis 0).source = 0 ∧ status (after (.gearEngage 0 q) s) = St.badParam ∧
      status (after (.axisSource 0 (rq [0, 3, 0, 0])) s) = St.badParam) ∧
    (let s := virtual { source := 3 }
     let q := rq [0, 0, 0, 0]
     Served Cmd.gearRatio 0 q s ∧ Served Cmd.gearDisengage 0 q s ∧ Served Cmd.gearEngage 0 q s ∧ (s.axis 0).phase ≠ .enabled ∧
      status (after (.gearEngage 0 q) s) = St.badState ∧ status (after (.gearRatio 0 q) s) = St.badState) ∧
    (let s := virtual { source := 3, gear := { ramping := true, toNum := 3, toDen := 2 } }
     let s' := virtual { source := 3, gear := { ramping := true, disengaging := true } }
     (s.axis 0).gear.ramping = true ∧ planEnd (s.axis 0).gear.segs 0 ≤ s.cyc.t0 ∧ ((after (.gearRampEnd 0 0) s).axis 0).gear.num = 3 ∧
      ((after (.gearRampEnd 0 0) s').axis 0).source = 0) := by
  repeat' apply And.intro
  all_goals first | exact served_of (by decide +kernel) | decide +kernel

/-- A payload of MOVE_ABS or MOVE_REL for axis 0: flags and a T24.F24 value. -/
def movePayload (f : Nat) (v : Int) : Bytes := b8 0 ++ b8 f ++ zeros 6 ++ sleBytes 8 v

theorem test_witness_MovesOfAnAxis :
    (let s := virtual { phase := .enabled }
     let q := rq (movePayload 0 (-16777216))
     uAt q.payload 0 1 = 0 ∧ uAt q.payload 1 1 = 0 ∧ uAt q.payload 2 6 = 0 ∧ t48At q.payload 8 = some (-16777216) ∧
      (s.axis 0).phase = .enabled ∧ (s.axis 0).source = 0 ∧ Served Cmd.moveAbs 0 q s ∧ modQ s 0 = 0 ∧
      -posMax ≤ q48 (-16777216) ∧ q48 (-16777216) ≤ posMax ∧ busyAxis (s.axis 0) (stampOf Cmd.moveAbs 0 q s) = false ∧
      limitBlocks (s.axis 0) (moveDelta 0 { target := q48 (-16777216), delta := 0 } 0) = false ∧ Served Cmd.moveRel 0 q s ∧
      ((after (.moveAbs 0 q) s).axis 0).waiting.length = 1 ∧ ((after (.moveRel 0 q) s).axis 0).waiting.length = 1) ∧
    (let s0 := virtual { phase := .enabled }
     let s := { s0 with par := { active := (pkey Par.axisMode 0, 7) :: [(pkey Par.modulo 0, 2)] } }
     let q := rq (movePayload 4 0)
     t48At q.payload 8 = some 0 ∧ 4 < 8 ∧ 4 / 2 % 4 ≠ 3 ∧ 0 < modQ s 0 ∧ 0 ≤ q48 0 ∧ q48 0 < modQ s 0 ∧ Served Cmd.moveAbs 0 q s ∧
      status (after (.moveAbs 0 q) s) = 0) ∧
    (let s := virtual { phase := .enabled, prof := .moving, queue := List.replicate 8 { target := 0, delta := 0 } }
     busyAxis (s.axis 0) (stampOf Cmd.moveAbs 0 (rq (movePayload 0 0)) s) = true ∧ 8 ≤ queuedMoves (s.axis 0) ∧
      Served Cmd.moveAbs 0 (rq (movePayload 0 0)) s ∧ Served Cmd.moveAbs 0 (rq (movePayload 1 0)) s ∧
      status (after (.moveAbs 0 (rq (movePayload 0 0))) s) = St.motionBusy ∧
      status (after (.moveAbs 0 (rq (movePayload 1 0))) s) = St.queueFull) ∧
    (let s := virtual { phase := .enabled, limPos := { qualified := true } }
     let q := rq (movePayload 0 1)
     Served Cmd.moveRel 0 q s ∧ limitBlocks (s.axis 0) (q48 1) = true ∧ status (after (.moveRel 0 q) s) = St.limitActive) := by
  repeat' apply And.intro
  all_goals first | exact served_of (by decide +kernel) | decide +kernel

theorem test_witness_StopHoldResumeHome :
    (let s := virtual { phase := .enabled }
     let q := rq [0, 0, 0, 0]
     Served Cmd.stop 0 q s ∧ moverOf q.payload = some (.axis 0) ∧ actingGroup s 0 = none ∧ Served Cmd.hold 0 q s ∧
      s.dev.mode ≠ .safeHold ∧ ((after (.stop 0 q) s).axis 0).waiting.length = 1 ∧ ((after (.hold 0 q) s).axis 0).waiting.length = 1) ∧
    (let s := { virtual {} with groups := [(15, { members := [0] })] }
     let q := rq [15, 128, 0, 0]
     Served Cmd.stop 0 q s ∧ moverOf q.payload = some (.group 15) ∧ (s.group 15).members ≠ [] ∧
      ((after (.stop 0 q) s).group 15).waiting.length = 1) ∧
    (let s0 := virtual { phase := .enabled }
     let s := { s0 with dev := { s0.dev with mode := .safeHold } }
     let q := rq [0, 0, 0, 0]
     Served Cmd.hold 0 q s ∧ s.dev.mode = .safeHold ∧ ((after (.hold 0 q) s).axis 0).waiting = []) ∧
    (let s := virtual { phase := .enabled, prof := .held, remaining := 5 }
     let q := rq [0, 0, 0, 0]
     Served Cmd.resume 0 q s ∧ (s.axis 0).prof = .held ∧ (s.axis 0).remaining ≠ 0 ∧ limitBlocks (s.axis 0) 5 = false ∧
      status (after (.resume 0 q) s) = 0) ∧
    (let s := virtual { phase := .enabled, prof := .held, remaining := -5, limNeg := { qualified := true } }
     let q := rq [0, 0, 0, 0]
     Served Cmd.resume 0 q s ∧ limitBlocks (s.axis 0) (-5) = true ∧ status (after (.resume 0 q) s) = St.limitActive) ∧
    (let s0 := virtual { phase := .enabled }
     let s := { s0 with par := { active := s0.par.active, written := s0.par.written ++ [(pkey Par.homeMode 0, 4)] } }
     let q := rq [0, 0, 0, 0]
     Served Cmd.home 0 q s ∧ parN (parPromote (atStamp Cmd.home 0 q s) (fun _ i => i == 0) .home) Par.homeMode 0 = 4 ∧
      busyAxis (s.axis 0) (stampOf Cmd.home 0 q s) = false ∧ status (after (.home 0 q) s) = 1) := by
  repeat' apply And.intro
  all_goals first | exact served_of (by decide +kernel) | decide +kernel

theorem test_witness_GroupCommands :
    (let s := virtual {}
     let q := rq [15, 2, 0, 0, 0, 1]
     Served Cmd.groupDefine 0 q s ∧ uAt q.payload 1 1 ≤ 16 ∧ [0, 1].Nodup ∧ (q.payload.drop 4).map (·.toNat) = [0, 1] ∧
      ([0, 1].all fun b => !busyMember s b (stampOf Cmd.groupDefine 0 q s) && decide (groupOf s b = none)) = true ∧
      busyGroup (s.group 15) (stampOf Cmd.groupDefine 0 q s) = false ∧ ((after (.groupDefine 0 q) s).group 15).members = [0, 1]) ∧
    (let s := { virtual { phase := .enabled, source := 1 } with groups := [(0, { members := [0] })] }
     let q := rq ([0, 0, 0, 0, 0, 0, 0, 0] ++ [1, 1, 1, 1, 7].flatMap (sleBytes 8))
     let l : Limits := { v := q48 1, a := q48 1, d := q48 1, j := q48 1 }
     Served Cmd.groupMove 0 q s ∧ (s.group 0).members = [0] ∧ pathLimits q.payload = some l ∧ t48At q.payload 40 = some 7 ∧
      (s.axis 0).phase = .enabled ∧ (s.axis 0).source = 1 ∧ (s.axis 0).limPos.qualified = false ∧ (s.axis 0).limNeg.qualified = false ∧
      (-posMax ≤ q48 7 ∧ q48 7 ≤ posMax) ∧ (s.group 0).faults = [] ∧ busyGroup (s.group 0) (stampOf Cmd.groupMove 0 q s) = false ∧
      ((after (.groupMove 0 q) s).group 0).waiting.length = 1) ∧
    (let s := { virtual {} with groups := [(0, { members := [0] })] }
     let q := rq ([0, 0, 0, 0, 0, 0, 0, 0] ++ [1, 1, 1, 1].flatMap (sleBytes 8))
     Served Cmd.groupLimits 0 q s ∧ uAt q.payload 1 7 = 0 ∧ (pathLimits q.payload).isSome = true ∧ (s.group 0).members ≠ [] ∧
      ((after (.groupLimits 0 q) s).group 0).waiting.length = 1) := by
  repeat' apply And.intro
  all_goals first | exact served_of (by decide +kernel) | decide +kernel

/-- A homing on the way to its reference. -/
def homingAt (p : HomePhase) : Homing :=
  { mode := 1, dirNeg := false, phase := p, legStart := 0, vel := 1, creep := 1, acc := 1, dec := 1, jerk := 1, offset := 5, chatterMax := 4,
    distMax := 9, found := some 2 }

theorem test_witness_MotionEvents :
    (let s := virtual { prof := .moving, target := 4 }
     (s.axis 0).prof = .moving ∧ (s.axis 0).wakeMove = none ∧ planEnd (s.axis 0).segs 0 ≤ s.cyc.t0 ∧ (s.axis 0).queue = [] ∧
      ((after (.moveComplete 0 (.axis 0)) s).axis 0).kin = { x := 4 }) ∧
    (let s := virtual { prof := .moving, target := 4, queue := [{ target := 9, delta := 5 }] }
     (s.axis 0).queue = { target := 9, delta := 5 } :: [] ∧ par s Par.axisMode 0 ≠ 6 ∧
      ((after (.moveComplete 0 (.axis 0)) s).axis 0).queue = []) ∧
    (let s0 := virtual {}
     let s := virtual { prof := .moving, target := 4, waiting := [{ stamp := s0.cyc.t0 / nsU, cmd := .move { target := 9, delta := 5 } }] }
     (s.axis 0).waiting = { stamp := s.cyc.t0 / nsU, cmd := .move { target := 9, delta := 5 } } :: [] ∧
      ((after (.moveComplete 0 (.axis 0)) s).axis 0).waiting = [] ∧ ((after (.moveComplete 0 (.axis 0)) s).axis 0).prof = .moving) ∧
    (let s := { virtual {} with groups := [(0, { prof := .moving, members := [0], len := 6 })] }
     (s.group 0).prof = .moving ∧ planEnd (s.group 0).segs 0 ≤ s.cyc.t0 ∧ ((after (.moveComplete 0 (.group 0)) s).group 0).prof = .idle) ∧
    (let s := { running .operational with axes := [(0, { limPos := { raw := true } })] }
     (switchOf (s.axis 0) .limPos).raw ≠ (switchOf (s.axis 0) .limPos).qualified ∧
      (switchOf (s.axis 0) .limPos).edgeAt + parN s Par.swFilter 0 * 1000 * nsU ≤ s.time.now ∧
      (switchOf (s.axis 0) .limNeg).raw = (switchOf (s.axis 0) .limNeg).qualified ∧
      ((after (.switchQualified 0 0 .limPos) s).axis 0).limPos.qualified = true) ∧
    (let s := virtual { prof := .homing, homing := some (homingAt .stopFound) }
     (s.axis 0).prof = .homing ∧ (homingAt .stopFound).found = some 2 ∧ (homingAt .stopFound).edges ≤ (homingAt .stopFound).chatterMax ∧ planEnd (s.axis 0).segs 0 ≤ s.cyc.t0 ∧
      ((after (.homingReferenceShift 0 0) s).axis 0).kin.x = 3 ∧ ((after (.homingReferenceShift 0 0) s).axis 0).homed = true) ∧
    (let s := virtual { prof := .homing, homing := some (homingAt .search), kin := { x := 9 } }
     legMoves (homingAt .search) = true ∧ (homingAt .search).distMax.natAbs ≤ ((s.axis 0).kin.x - 0).natAbs ∧
      ((after (.homingNotFound 0 0) s).axis 0).prof = .stopping) ∧
    (let h := { homingAt .creep with edges := 5 }
     let s := virtual { prof := .homing, homing := some h }
     h.chatterMax < h.edges ∧ ((after (.homingChatter 0 0) s).axis 0).homing = none) ∧
    (let h := { homingAt .stopFound with edges := 5 }
     let s := virtual { prof := .homing, homing := some h, homed := true }
     h.found = some 2 ∧ h.chatterMax < h.edges ∧ ((after (.homingReferenceShift 0 0) s).axis 0).homed = false) ∧
    (let s0 := running .operational
     let s := { s0 with axes := [(0, { stillSince := some 0, wake := some 0, wakeMove := some { target := 9, delta := 9 } })],
                        par := { active := [(pkey Par.axisMode 0, 6)] }, time := { now := secU } }
     (s.axis 0).stillSince = some 0 ∧ par s Par.axisMode 0 = 6 ∧ 0 + parN s Par.holdDelay 0 * 1000000 * nsU ≤ s.time.now ∧
      attendedNow s 0 = true ∧ attendedNow { s with axes := [(0, { attended := false })] } 0 = false ∧
      0 + parN s Par.wakeTime 0 * 1000000 * nsU ≤ s.time.now ∧ ((after (.stepperHoldDelayExpiry 0 0) s).axis 0).coil = .holdCurrent ∧
      ((after (.stepperWakeDone 0 0) s).axis 0).prof = .moving) := by
  repeat' apply And.intro
  all_goals first | exact served_of (by decide +kernel) | decide +kernel

/-! ### Witnesses: the rings -/

/-- An enumeration frame with one identity record, as it returns. -/
def enumBack (flags : Nat) : Bytes := withTrailer (b8 3 ++ b8 flags ++ [0, 1] ++ zeros 12 ++ [2] ++ zeros 31)

/-- Ring A is being enumerated. -/
def enumerating (e : Enum) : State := { small .config with rings := [(0, { enum := some e })] }

/-- Ring A has a node of address 1. -/
def noded (n : Node) : State := { small .config with rings := [(0, { nodes := [(1, { n with address := 1 })] })] }

theorem test_witness_EnumerationAndNodeServices :
    (let q := rq [1, 0, 0, 0]
     let s := small .config
     Served Cmd.ringEnumerate 0 q s ∧ resv q.payload 1 3 = true ∧ s.pend.any (fun x => x.code == Cmd.ringEnumerate) = false ∧
      status (after (.ringEnumerate 0 q) s) = 1 ∧ Served Cmd.ringEnumerate 0 (rq [3, 0, 0, 0]) (inState .config) ∧
      ringCount (inState .config).board.variant = 2 ∧ Served Cmd.ringEnumerate 0 (rq [2, 0, 0, 0]) s ∧ ringCount s.board.variant = 1 ∧
      status (after (.ringEnumerate 0 (rq [2, 0, 0, 0])) s) = St.unsupported) ∧
    (let s := enumerating { sentAt := 0 }
     goodFrame [] = false ∧ goodFrame (enumBack 1) = true ∧ uAt (enumBack 1) 0 1 = 3 ∧ uAt (enumBack 1) 1 1 = 1 ∧
      0 < ringCount s.board.variant ∧ (s.ring 0).enum = some { sentAt := 0 } ∧ s.time.now ≤ 0 + 1000000 * nsU ∧
      ((after (.enumFrameReturn 0 0 .q (enumBack 1)) s).ring 0).nodes.length = 1) ∧
    (let s := enumerating { second := true, sentAt := 0 }
     goodFrame (enumBack 3) = true ∧ uAt (enumBack 3) 1 1 = 3 ∧ (s.ring 0).enum = some { second := true, sentAt := 0 } ∧
      ((after (.enumFrameReturn 0 0 .p (enumBack 3)) s).ring 0).nodes.length = 1) ∧
    (let s := { enumerating { sentAt := 0 } with time := { now := 1000000 * nsU } }
     0 + 1000000 * nsU ≤ s.time.now ∧ (((after (.enumTimeout 0 0) s).ring 0).enum.map (·.second)) = some true) ∧
    ((small .config).ring 0).enum = none ∧
    (let s := { enumerating { waits := true } with tru := { running := true, lanesOnly := true } }
     s.tru.running = true ∧ passOver (stressSync s) = true ∧ (s.ring 0).enum = some { waits := true } ∧
      ((after (.truingPassEnd 0 readings) s).ring 0).enum = some {} ∧ ((after (.truingPassEnd 0 readings) s).ring 0).sent.length = 1 ∧
      ((after (.enumTimeout 0 0) { s with time := { now := 1000000 * nsU } }).ring 0).enum = some { waits := true }) ∧
    (let s := { noded { joined := true, bound := true } with dev := { mode := .operational, mbReady := true }, cyc := { running := true } }
     Served Cmd.nodeEnable 0 (rq [0, 0, 0, 0]) s ∧ nodeAt s 0 1 = some 1 ∧ (s.node 0 1).joined = true ∧ (s.node 0 1).bound = true ∧
      ((after (.nodeEnable 0 (rq [0, 0, 0, 0])) s).node 0 1).services.length = 1 ∧ status (after (.nodeEnable 0 (rq [0, 0, 0, 0])) s) = 0) ∧
    (let s := noded {}
     Served Cmd.nodeAliasSet 0 (rq [0, 0, 5, 0]) s ∧ nodeAt s 0 1 = some 1 ∧ Served Cmd.nodeParamRead 0 (rq [0, 0, 1, 0, 9]) s ∧
      Served Cmd.nodeParamWrite 0 (rq ([0, 0, 240, 0] ++ zeros 240)) s ∧ uAt [0, 0, 240, 0] 2 2 ≤ 240 ∧
      status (after (.nodeParamRead 0 (rq [0, 0, 1, 0, 9])) s) = 1) ∧
    (let s := small .operational
     Served Cmd.nodeEnable 0 (rq [31, 0, 0, 0]) s ∧ nodeAt s 0 32 = none ∧ 31 % 64 < nodeMax s.board.variant ∧
      status (after (.nodeEnable 0 (rq [31, 0, 0, 0])) s) = St.nodeAbsent ∧ Served Cmd.nodeAliasSet 0 (rq [31, 0, 0, 0]) (small .config)) ∧
    (let s := { small .preop with dma := { domainsOff := [1] } }
     Served Cmd.tunnelConfig 0 (rq [0, 1, 0, 0]) s ∧ domainDown s 1 = true ∧ domainDown (small .preop) 1 = false ∧
      ((after (.tunnelConfig 0 (rq [0, 1, 0, 0])) (small .preop)).ring 0).tunnelOpen = true ∧
      status (after (.tunnelConfig 0 (rq [0, 1, 0, 0])) s) = St.badState) := by
  repeat' apply And.intro
  all_goals first | exact served_of (by decide +kernel) | decide +kernel

/-- A response of node 1 to a service of sequence number 0; flags 1 end it and 3 say that it failed. -/
def answer (service flags : Nat) : Bytes := withTrailer (padTo8 (b8 4 ++ b8 0 ++ b8 1 ++ b8 service ++ b16 0 ++ b16 0 ++ b8 flags ++ zeros 7))

def response : Bytes := answer 5 1

theorem test_witness_AcyclicTrafficAndBreaks :
    (let s := noded { services := [{ service := 5, seq := 0, payload := [] }] }
     let i : TxItem := { port := .p, frame := requestFrame 1 { service := 5, seq := 0, payload := [] }, src := .service 1 }
     ringDriven s 0 = true ∧ ringSilent s 0 = false ∧ (txItems s 0).find? (fun j => windowOpen s 0 j.port j.frame.length) = some i ∧
      (s.node 0 1).services ≠ [] ∧ (after (.acyclicFrameTx 0 0) s).rings.length = 1) ∧
    ((txItems (small .config) 0).find? (fun j => windowOpen (small .config) 0 j.port j.frame.length) = none) ∧
    (let s := { small .config with dev := { mode := .fault, hwFaults := [1] } }
     ringSilent s 0 = true) ∧
    (let v : Acyclic := { service := 5, seq := 0, payload := [], sentIn := some 0 }
     let s := noded { services := [v] }
     ringDriven s 0 = true ∧ goodFrame response = true ∧ uAt response 0 1 = 4 ∧ uAt response 1 1 = 0 ∧
      24 + uAt response 6 2 ≤ response.length ∧ bitOf (uAt response 8 1) 0 = true ∧ answeredNode s 0 response = some (1, v) ∧
      answeredNode (small .config) 0 response = none ∧ ((after (.acyclicFrameRx 0 0 .p response) s).node 0 1).services = []) ∧
    (let s := noded { services := [{ service := 4, seq := 0, payload := [], addr := 9, sentIn := some 0 }] }
     let w := noded { joined := true, services := [{ service := 4, seq := 0, payload := [], addr := 9, sentIn := some 0 }] }
     goodFrame (answer 4 1) = true ∧ bitOf (uAt (answer 4 1) 8 1) 1 = false ∧ goodFrame (answer 4 3) = true ∧
      bitOf (uAt (answer 4 3) 8 1) 1 = true ∧ ((after (.acyclicFrameRx 0 0 .p (answer 4 1)) s).node 0 1).address = 9 ∧
      (after (.acyclicFrameRx 0 0 .p (answer 4 3)) w).ev.raised.contains Ev.nodeRefused = true) ∧
    (let s := noded { joined := true, services := [{ service := 5, seq := 0, payload := [], addr := 9, sentIn := some 0 }] }
     (after (.acyclicFrameRx 0 0 .p (answer 5 3)) s).ev.raised.contains Ev.nodeRefused = true ∧
      (after (.acyclicFrameRx 0 0 .p (answer 5 1)) s).ev.raised.contains Ev.nodeJoined = true) ∧
    (let v : Acyclic := { service := 5, seq := 0, payload := [], sentIn := some 0 }
     let s := noded { services := [v] }
     nodeByInst s 0 = some (0, 1) ∧ (s.node 0 1).services = v :: [] ∧ responseEnd s 0 = none ∧ v.resent = false ∧
      ((after (.acyclicResponseTimeout 0 0) s).node 0 1).resends = 1 ∧
      ((after (.acyclicResponseTimeout 0 0) (noded { services := [{ v with resent := true }] })).node 0 1).services = []) ∧
    (let s := noded {}
     let t := after (.laneSignalLoss 0 0 1 .qWard) s
     1 ≤ lastHop s 0 ∧ (s.ring 0).breakHop = none ∧ (t.ring 0).breakHop = some 1 ∧ (t.ring 0).breakDir = .qWard ∧
      ((after (.laneSignalLoss 0 0 1 .pWard) t).ring 0).breakDir = .both ∧ breakAt ((after (.laneSignalLoss 0 0 0 .both) t).ring 0) 0 = some .both ∧
      breakAt (t.ring 0) 1 = some .qWard) ∧
    (let s := { small .config with rings := [(0, { closures := 64, closedReported := false, breakHop := some 0 })] }
     64 ≤ (s.ring 0).closures ∧ (s.ring 0).closedReported = false ∧ ((after (.ringClosed 0 0) s).ring 0).breakHop = none) ∧
    ((small .config).ring 0).closures < 64 ∧
    (let s := { withPlan planUser (inState .config) with rings := [(0, { nodes := [(1, { address := 1, bound := true, missed := 4 })] })] }
     nodeAt s 0 1 = some 1 ∧ (s.node 0 1).bound = true ∧ (s.node 0 1).lost = false ∧ parN s Par.nodeLossCycles 0 ≤ (s.node 0 1).missed ∧
      (nodeSlices s.image 0 1).map (·.axis) = [0] ∧ ((after (.nodeLost 0 0) s).axis 0).faults.contains Ev.nodeLost = true) ∧
    (let s := noded { missed := 3 }
     nodeAt s 0 1 = some 1 ∧ (s.node 0 1).missed < parN s Par.nodeLossCycles 0) := by
  repeat' apply And.intro
  all_goals first | exact served_of (by decide +kernel) | decide +kernel

/-! ### Witnesses: bursts, the process image, and the pair -/

/-- The plan runs, burst 1 has left ring A, and so much of the cycle has passed. -/
def bursting (ns : Nat) : State :=
  let s := withPlan planUser (running .operational)
  { s with cyc := { s.cyc with bursts := [(0, [{ k := 1, at_ := tickU 0 800, ends := tickU 0 800 + 100 * nsU, frame := [] }])] },
           time := { now := tickU 0 800 + ns * nsU }, rings := [(0, oneNode)] }

/-- An up frame of node 1 with a cycle tag. -/
def upCopy (tag : Nat) : Bytes := withTrailer (b8 2 ++ b8 1 ++ b8 tag ++ b8 4 ++ b16 9 ++ zeros 58)

/-- A down burst of ring A that left port Q when bit 3 of its burst byte is set (R88). -/
def downCopy (burst tag : Nat) : Bytes := withTrailer (b8 1 ++ b8 burst ++ b8 0 ++ b8 tag ++ zeros 60)

/-- A unit of a redundant pair that has joined and does not hold the grip. -/
def nonHolder : State := { running .operational with pair := { id := 2, state := 3, joined := true } }

theorem test_witness_BurstsAndProcessImage :
    (let s := bursting 60000
     let b : Burst := { k := 1, at_ := tickU 0 800, ends := tickU 0 800 + 100 * nsU, frame := [] }
     (tget s.cyc.bursts [] 0).getLast? = some b ∧ s.cyc.running = true ∧ commands s = true ∧ ringSilent s 0 = false ∧ 2 ≤ burstCount s.image ∧
      max (s.cyc.t0 + launchMin s.image 2 * nsU) (b.ends + 100 * nsU) ≤ s.time.now ∧ s.cyc.t0 + launchMax s.image 2 * nsU ≤ s.time.now ∧
      (tget (after (.burstLaunch 0 0 2) s).cyc.bursts [] 0).length = 2) ∧
    (let s := bursting 50000
     burstSettled s 2 = false ∧ s.time.now < s.cyc.t0 + launchMax s.image 2 * nsU ∧
      (tget (after (.burstLaunch 0 0 2) s).cyc.bursts [] 0).length = 1) ∧
    (let s := bursting 20000
     let f := upCopy 32
     ringDriven s 0 = true ∧ uAt f 0 1 = 2 ∧ goodFrame f = true ∧ nodeAt s 0 (uAt f 1 1) = some 1 ∧ (s.node 0 1).bound = true ∧
      (s.node 0 1).up = none ∧ uAt f 2 1 = s.cyc.tick % 256 ∧ s.time.now ≤ s.cyc.t0 + gatherOf s.image 0 * nsU ∧
      ((after (.upFrameRx 0 0 .p f) s).node 0 1).state = 4 ∧ ((after (.upFrameRx 0 0 .p f) s).node 0 1).up ≠ none ∧
      ((after (.upFrameRx 0 0 .p f) s).node 0 1).alias_ = 9) ∧
    (let s := bursting 20000
     let f := [2, 1, 32, 0, 0, 0, 0, 0]
     goodFrame f = false ∧ nodeAt s 0 (uAt f 1 1) = some 1 ∧ uAt f 1 1 ≠ 0 ∧ s.pair.id = 0 ∧
      ((after (.upFrameRx 0 0 .q f) s).node 0 1).crcQ = 1) ∧
    (let s := bursting 20000
     let w := { s with rings := [(0, { oneNode with wasQ := true, heldClosures := 4 })] }
     usesRing s.image 0 = true ∧ s.pair.id = 0 ∧ (s.ring 0).closedQw = none ∧ (s.ring 0).closedPw = none ∧
      ownBurst s 0 .q (downCopy 1 32) = true ∧ ownBurst s 0 .p (downCopy 9 32) = true ∧ ownBurst s 0 .p (downCopy 2 32) = false ∧
      uAt (downCopy 1 32) 3 1 = s.cyc.tick % 256 ∧ ownBurst w 0 .p (downCopy 10 31) = true ∧
      ((after (.burstClosureRx 0 0 .q (downCopy 1 32)) s).ring 0).closedQw ≠ none ∧
      ((after (.burstClosureRx 0 0 .p (downCopy 9 32)) s).ring 0).closedPw ≠ none ∧
      ((after (.burstClosureRx 0 0 .p (downCopy 10 31)) w).ring 0).closures = 5) ∧
    (let s := bursting 20000
     s.cyc.t0 + gatherOf s.image 0 * nsU ≤ s.time.now ∧ (s.ring 0).gathered = false ∧
      ((after (.gatherDeadline 0 0) s).node 0 1).missed = 1) ∧
    (let f := withTrailer (b8 1 ++ b8 1 ++ b8 0 ++ b8 32 ++ zeros 60)
     let late := nonHolder
     let nonHolder := { nonHolder with time := { nonHolder.time with now := nonHolder.cyc.t0 } }
     holderCopy nonHolder 0 f = true ∧ holderCopy late 0 f = false ∧
      (after (.forwardedBurstCopy 0 0 .p f) late).pair.burst1Rings = [] ∧ pairUp nonHolder = true ∧ nonHolder.pair.joined = true ∧ nonHolder.pair.grip = false ∧ uAt f 0 1 = 1 ∧ goodFrame f = true ∧
      uAt f 1 1 % 8 = 1 ∧ goodFrame [1] = false ∧ uAt [1] 0 1 = 1 ∧ (after (.forwardedBurstCopy 0 0 .p f) nonHolder).pair.burst1Rings = [0]) ∧
    (let s := running .operational
     s.cyc.running = true ∧ s.cyc.published = false ∧ burstsDone s = true ∧ MemInv s ∧ (after (.piInputPublish 0) s).cyc.published = true) ∧
    (burstsDone (bursting 20000) = false) ∧
    (let s := { running .operational with mem := { sram := [(outBuf 801 + 8191, 5)] } }
     comingTick s = some (801, 0) ∧ s.host.snapTick ≠ some 801 ∧ memGet (after .outputSnapshot s).host.snapshot 8191 = 5 ∧
      (after .outputSnapshot s).host.snapTick = some 801) ∧
    (comingTick (small .config) = none) := by
  repeat' apply And.intro
  all_goals first | exact memInv_empty rfl rfl rfl | decide +kernel

/-- A grant record of R580 for a new epoch. -/
def grant (e h : Nat) : Bytes := let b := b32 e ++ b8 h ++ [0] ++ b16 900 ++ zeros 4; b ++ b16 (crc16 b) ++ zeros 2

theorem test_witness_PairAndGrip :
    (let s := { inState .config with pair := { id := 1 } }
     Served Cmd.pairJoin 0 (rq []) s ∧ s.pair.join = none ∧ status (after (.pairJoin 0 (rq [])) s) = 1) ∧
    (let f : PartnerFrame := { pairId := 2, devState := 0, flags := 64, tick := 0, departure := 0, epoch := 0, holder := 0, divergences := 0,
                               leaseEnd := 0, planId := 0, fwVersion := 0, arrival := 0, tie := 0 }
     let s := { inState .operational with pair := { id := 1, grip := true, heard := true, partner := some f } }
     Served Cmd.gripRelease 0 (rq []) s ∧ partnerFlag s 6 = true ∧ (after (.gripRelease 0 (rq [])) s).pair.release = true ∧
      partnerFlag { s with pair := { s.pair with heard := false } } 6 = false) ∧
    (let s := { inState .operational with pair := { id := 1 } }
     Served Cmd.gripRelease 0 (rq []) s ∧ s.pair.grip = false ∧ status (after (.gripRelease 0 (rq [])) s) = St.gripNotHeld) ∧
    (let s := { inState .config with pair := { id := 1, join := some (.identity 0) }, time := { now := 10000000 * nsU } }
     s.pair.join = some (.identity 0) ∧ 0 + 10000000 * nsU ≤ s.time.now ∧ (after (.pairIdentityTimeout 0) s).pair.join = none) ∧
    (let s := { inState .config with pair := { id := 1, join := some (.resync 0) }, time := { now := 2 * secU } }
     s.pair.join = some (.resync 0) ∧ 0 + 2 * secU ≤ s.time.now ∧ pairUp s = true ∧ s.pair.grip = false ∧
      (after (.pairResyncTimeout 0) s).pair.join = some (.resync (2 * secU))) ∧
    (let f := withTrailer (b8 0x11 ++ b8 1 ++ zeros 46)
     pairUp nonHolder = true ∧ goodFrame f = true ∧ uAt f 0 1 = 0x11 ∧ f.length = 56 ∧
      (after (.mirrorTimeFrameRx 0 f) nonHolder).pair.partner = some (partnerFrame f)) ∧
    (let st : MirrorStream := { cycle := 800, checks := true, items := [] }
     nonHolder.time.now + 500 * nsU ≤ tickU nonHolder.cyc.rate (st.cycle + 2) ∧ st.cycle ≤ nonHolder.cyc.tick ∧
      (after (.mirrorStreamComplete 0 st) nonHolder).pair.mirrorValid = true) ∧
    (let s := { nonHolder with pair := { nonHolder.pair with silent := 255 } }
     parN s Par.mirrorLossCycles 0 ≤ s.pair.silent ∧ s.pair.mirrorLost = false ∧ (after (.mirrorLost 0) s).pair.state = 5) ∧
    (let r := grant 1 2
     r.length = 16 ∧ uAt r 12 2 = crc16 (r.take 12) ∧ newerEpoch (uAt r 0 4) nonHolder.pair.epoch = true ∧
      uAt r 4 1 = nonHolder.pair.id ∧ (after (.grantRecordRx 0 r) nonHolder).pair.turn = some true) ∧
    (let r := grant 1 1
     let s := { nonHolder with pair := { nonHolder.pair with grip := true } }
     s.pair.grip = true ∧ uAt r 4 1 ≠ s.pair.id ∧ (after (.grantRecordRx 0 r) s).pair.turn = some false) ∧
    (uAt ([1] : Bytes) 12 2 ≠ crc16 [1]) ∧
    (let s := { nonHolder with pair := { nonHolder.pair with request := 2, missedRings := [0] } }
     s.pair.request = 2 ∧ (after (.requestBurst 0) s).pair.missedRings = []) := by
  repeat' apply And.intro
  all_goals first | exact served_of (by decide +kernel) | decide +kernel

/-! ### Witnesses: device time and the plant ports -/

theorem test_witness_DeviceTimeCommands :
    (let q := rq ([0, 0] ++ timeBytes 5 ++ timeBytes 0)
     Served Cmd.timeSet 0 q (small .config) ∧ timeOf (slice q.payload 2 10) = some 5 ∧ timeOf (slice q.payload 12 10) = some 0 ∧
      anySlave (small .config) = false ∧ followsPair (small .config) = false ∧ (small .config).cyc.running = false ∧
      (after (.timeSet 0 q) (small .config)).time.now = 5 * nsU ∧ Served Cmd.timeSet 0 q (running .preop) ∧
      status (after (.timeSet 0 q) (running .preop)) = St.badState) ∧
    (let q := rq ([1, 0] ++ timeBytes 0 ++ timeBytes 1000000000)
     Served Cmd.timeSet 0 q (small .config) ∧ timeOf (slice q.payload 2 10) = some 0 ∧ timeOf (slice q.payload 12 10) = some 1000000000 ∧
      ((0 : Int) - 1000000000).natAbs ≤ 1000000000 ∧ (after (.timeSet 0 q) (small .config)).time.slewReq = -100000) ∧
    (let q := rq ([1, 0] ++ timeBytes 0 ++ timeBytes 5)
     let s := { small .config with time := { ports := [(0, { state := 9 })] } }
     Served Cmd.timeSet 0 q s ∧ slaveBy s (stampOf Cmd.timeSet 0 q s) = true ∧ status (after (.timeSet 0 q) s) = St.timeSourcePtp) ∧
    (let s := { small .config with time := { slewReq := 100000 } }
     s.time.slewReq ≠ 0 ∧ s.time.slewLeft * sgn s.time.slewReq ≤ 0 ∧ (after (.slewDone 0) s).time.slewReq = 0) ∧
    (let q := rq (sleBytes 4 (-100000))
     Served Cmd.timeTrim 0 q (small .config) ∧ contVal .s24 (slice q.payload 0 4) = some (-100000) ∧
      (after (.timeTrim 0 q) (small .config)).time.trim = -100000) ∧
    (let q := rq (sleBytes 4 100001)
     Served Cmd.timeTrim 0 q (small .config) ∧ contVal .s24 (slice q.payload 0 4) = some 100001 ∧
      status (after (.timeTrim 0 q) (small .config)) = St.badParam) := by
  repeat' apply And.intro
  all_goals first | exact served_of (by decide +kernel) | decide +kernel

/-- The PTP stack runs under role 2 on port 0. -/
def ptpOn : State :=
  { running .operational with time := { now := tickU 0 800, ptpRunning := true, ptpRole := 2, ptpState := 2, ports := [(0, { state := 9 })] },
                              par := { active := [(pkey Par.ptpRole 0, 2), (pkey Par.ptpPortEnable 0, 1)] } }

theorem test_witness_PtpAndPlantPorts :
    (let s := small .config
     Served Cmd.ptpConfig 0 (rq [0, 0, 0, 0]) s ∧ status (after (.ptpConfig 0 (rq [0, 0, 0, 0])) s) = 0) ∧
    (let s := { small .config with par := { written := [(pkey Par.ptpRole 0, 1), (pkey Par.ptpPortEnable 0, 1)] } }
     let c := parPromote (atStamp Cmd.ptpConfig 0 (rq [1, 0, 0, 0]) s) (fun _ _ => true) .ptpConfig
     Served Cmd.ptpConfig 0 (rq [1, 0, 0, 0]) s ∧ parN c Par.ptpRole 0 = 1 ∧ par c Par.ptpPortEnable 0 = 1 ∧ par c Par.ptpPortEnable 1 = 0 ∧
      (after (.ptpConfig 0 (rq [1, 0, 0, 0])) s).time.ptpState = 1) ∧
    (let m : PtpRx := { port := 0, isSync := true, offset := -65536, ratePpb := 100001, meanPath := 7, portState := 9, parent := zeros 10,
                        grandmaster := zeros 8 }
     portOn ptpOn 0 = true ∧ (ptpOn.port 0).state = 9 ∧ ptpOn.cyc.running = true ∧
      m.offset.natAbs ≤ parN ptpOn Par.ptpStepLimit 0 * 65536 ∧ (after (.ptpMessageRx 0 m) ptpOn).time.trimReq = 100000) ∧
    (portOn ptpOn 0 = true ∧ maySend ptpOn 0 .delayReq = true ∧
      mayLeave ((ptpOn.drain 0).port 0) ptpOn.time.now (wireU (ptpLen ptpOn .delayReq)) = true ∧
      ((after (.ptpMessageTx 0 0 .delayReq 0) ptpOn).port 0).lastTx.map (·.kind) = some .delayReq ∧ maySend ptpOn 0 .sync = false ∧
      ((after (.ptpMessageTx 0 0 .sync 0) ptpOn).port 0).lastTx = none) ∧
    (let s := { ptpOn with time := { ptpOn.time with ports := [(0, { state := 6, pdelayReqs := [ptpOn.time.now - 65536] })] },
                           par := { active := ptpOn.par.active ++ [(pkey Par.delayMech 0, 1)] } }
     portOn s 0 = true ∧ maySend s 0 .pdelayResp = true ∧ ((s.drain 0).port 0).pdelayReqs[0]? = some (ptpOn.time.now - 65536) ∧
      mayLeave ((s.drain 0).port 0) s.time.now (wireU (ptpLen s .pdelayResp)) = true ∧
      ((after (.ptpMessageTx 0 0 .pdelayResp 0) s).port 0).pdelayReqs = [] ∧
      ((after (.ptpMessageTx 0 0 .announce 0) s).port 0).lastTx.map (·.traceable) = some s.dev.traceable) ∧
    ((ptpOn.port 0).state = 9 ∧ 6 ≠ 9 ∧ (after (.ptpLost 0 0 6) ptpOn).time.ptpState = 4) ∧
    ((small .config).dev.mode ≠ .off ∧ ((after (.plantFrameRx 0 1) (small .config)).port 1).discarded = 1) := by
  repeat' apply And.intro
  all_goals first | exact served_of (by decide +kernel) | decide +kernel

/-- Payload of TOUT_SET: mode, first instant in ns, width in 625 ps, period in ns. -/
def toutPayload (mode ns width period : Nat) : Bytes :=
  b8 7 ++ b8 mode ++ zeros 2 ++ timeBytes ns ++ zeros 2 ++ b32 width ++ b32 period ++ zeros 4

theorem test_witness_TimedOutputsAndFrameLaunch :
    (let s := running .preop
     let t := stampOf Cmd.toutSet 0 (rq []) s + 10000
     let q := rq (toutPayload 0 t 16 0)
     Served Cmd.toutSet 0 q s ∧ timeOf (slice q.payload 4 10) = some (t : Int) ∧ uAt q.payload 0 1 = 7 ∧ 16 ≤ uAt q.payload 16 4 ∧
      (stampOf Cmd.toutSet 0 q s + 10000) * nsU ≤ t * nsU ∧ status (after (.toutSet 0 q) s) = 0 ∧
      status (after (.toutSet 0 (rq (toutPayload 0 (t - 1) 16 0))) s) = St.timeLate) ∧
    (let s := running .preop
     let q := rq (toutPayload 1 0 64 50)
     Served Cmd.toutSet 0 q s ∧ timeOf (slice q.payload 4 10) = some 0 ∧ 50 * nsU ≤ uAt q.payload 20 4 * nsU ∧
      64 * fineU + 10 * nsU ≤ uAt q.payload 20 4 * nsU ∧ status (after (.toutSet 0 q) s) = 0) ∧
    (let s := { running .preop with time := { now := 9 * nsU, touts := [(7, { mode := 1, next := 9 * nsU + 65536, width := nsU })] } }
     Served Cmd.toutStop 0 (rq [7, 0, 0, 0]) s ∧ (tget s.time.touts {} 7 : Tout).mode ≠ 0 ∧
      fineAt (9 * nsU + 65536) = 14 * fineU ∧ 14 * fineU ≤ (advanceTo (14 * fineU) s).time.now ∧ s.cal.skew = none ∧
      (tget (after (.toutPulse 7) s).time.touts {} 7 : Tout).pulseEnd = some (14 * fineU + nsU)) ∧
    ((tget (running .preop).time.touts {} 7 : Tout).mode = 0) ∧
    (let s := running .preop
     let q := rq ([1, 0] ++ b16 60 ++ b64 0x100000000 ++ zeros 12)
     Served Cmd.plantTx 0 q s ∧ inDdrData s 0x100000000 60 = true ∧ 60 ≤ uAt q.payload 2 2 ∧ status (after (.plantTx 0 q) s) = 0) ∧
    (let s := running .preop
     let t := stampOf Cmd.plantTx 0 (rq []) s + 10000
     let q := rq ([1, 1] ++ b16 1514 ++ b64 0x100000000 ++ timeBytes t ++ zeros 2)
     Served Cmd.plantTx 0 q s ∧ timeOf (slice q.payload 12 10) = some (t : Int) ∧ (s.port 1).timed = [] ∧
      (stampOf Cmd.plantTx 0 q s + 10000) * nsU ≤ t * nsU ∧ ((after (.plantTx 0 q) s).port 1).timed.length = 1) ∧
    (let f : PlantFrame := { launch := some (9 * nsU), addr := 0x100000000, len := 60 }
     let s := { running .preop with time := { now := 9 * nsU, ports := [(1, { timed := [f] })] } }
     firstTimed (s.port 1).timed = some f ∧ 9 * nsU ≤ (advanceTo (9 * nsU) s).time.now ∧
      ((after (.timedFrameLaunch 1) s).port 1).timed = []) := by
  repeat' apply And.intro
  all_goals first | exact served_of (by decide +kernel) | decide +kernel

/-! ### Witnesses: the local axis unit -/

/-- Values in force for some parameters. -/
def withPars (l : List (Nat × Nat × Int)) (s : State) : State :=
  { s with par := { s.par with active := l.map (fun e => (pkey e.1 e.2.1, e.2.2)) } }

theorem test_witness_PwmOutputsAndTrips :
    (let s := inState .preop
     let q := rq [3, 0, 0, 0]
     let l := { s with pwm := { trips := [(3, { latched := true, low := true, count := 1 })] } }
     Served Cmd.pwmTripClear 0 q s ∧ uAt q.payload 0 1 = 3 ∧ uAt q.payload 1 3 = 0 ∧ (tget s.pwm.trips {} 3 : Trip).low = false ∧
      status (after (.pwmTripClear 0 q) s) = 0 ∧ Served Cmd.pwmTripClear 0 q l ∧ (tget l.pwm.trips {} 3 : Trip).low = true ∧
      status (after (.pwmTripClear 0 q) l) = St.tripStillActive) ∧
    (let s := withPars [(Par.tripMap, 0, 128)] (inState .preop)
     hasLocal s.board.variant = true ∧ (tget s.pwm.trips {} 0 : Trip).latched = false ∧ 7 < slotCount s.board.variant ∧
      bitOf (parN s Par.tripMap 0) 7 = true ∧ ((after (.tripInput 0 0 true) s).timer 7).pairs.all (fun p => p.source == 1) = true ∧
      (tget (after (.tripInput 0 0 false) s).pwm.trips {} 0 : Trip).low = false) ∧
    (let s := { inState .preop with pwm := { timers := [(7, { running := true, committed := true, shadows := [1, 2, 3],
                                                              nextAt := 0, duties := [0, 0, 0] })] } }
     let g := s.timer 7
     g.running = true ∧ isUpdate s 7 g.up = true ∧ g.nextAt ≤ (advanceTo g.nextAt s).time.now ∧ par s Par.shadowMode 7 ≠ 1 ∧
      g.committed = true ∧ g.commitAt ≤ g.nextAt ∧ g.shadowConv = g.shadowPeriod ∧
      ((after (.pwmUpdatePoint 7) s).timer 7).compares = [1, 2, 3] ∧
      ((inState .preop).timer 0).running = false) ∧
    (let s := { inState .preop with pwm := { timers := [(7, { running := true, committed := true, shadows := [1, 2, 3], commitAt := 1 })] } }
     let g := s.timer 7
     isUpdate s 7 g.up = true ∧ g.nextAt ≤ (advanceTo g.nextAt s).time.now ∧ g.nextAt < g.commitAt ∧
      ((after (.pwmUpdatePoint 7) s).timer 7).committed = true) ∧
    (let s := { inState .preop with pwm := { timers := [(7, { running := true, up := true, brWidth := 400, brPeriods := 10,
                                                              pairs := [{}, {}, { fullPeriods := 10 }] })] } }
     let g := s.timer 7
     g.pairs[2]? = some { fullPeriods := 10 } ∧ g.running = true ∧ g.brWidth ≠ 0 ∧ g.brPeriods ≤ 10 ∧ g.up = true ∧ s.time.now < g.boundAt + 2 * stepU ∧ slotMode s 7 ≠ 5 ∧
      ((after (.bootRefresh 0 23) s).timer 7).refreshes = 1 ∧ pwmLevels s 23 = (.off, .off) ∧
      pwmLevels { s with dev := { s.dev with mode := .config } } 23 = (.highZ, .highZ)) := by
  repeat' apply And.intro
  all_goals first | exact served_of (by decide +kernel) | decide +kernel

/-- Incremental channel 7 runs and has a count. -/
def counting (l : List (Nat × Nat × Int)) (e : EncCh) : State :=
  withPars l { running .preop with loc := { encs := [(7, { e with running := true })] } }

theorem test_witness_IncrementalChannels :
    (let q := rq [7, 0, 0, 0]
     let s := counting [(Par.encIndexMode, 7, 2)] {}
     Served Cmd.encIndexArm 0 q s ∧ uAt q.payload 0 1 = 7 ∧ 7 < slotCount s.board.variant ∧ par s Par.encIndexMode 7 = 2 ∧
      ((after (.encIndexArm 0 q) s).enc 7).armed = true ∧ Served Cmd.encIndexArm 0 q (counting [] {}) ∧
      par (counting [] {}) Par.encIndexMode 7 ≠ 2 ∧ status (after (.encIndexArm 0 q) (counting [] {})) = St.badState) ∧
    (let q := rq [7, 0, 0, 0]
     let s := counting [] { fault := true }
     let w := counting [] { fault := true, stuckPairs := [2] }
     Served Cmd.encFaultClear 0 q s ∧ (s.enc 7).wire = false ∧ ((after (.encFaultClear 0 q) s).enc 7).fault = false ∧
      Served Cmd.encFaultClear 0 q w ∧ (w.enc 7).wire = true ∧ status (after (.encFaultClear 0 q) w) = St.encWireActive) ∧
    (let s := counting [(Par.encCountMode, 7, 0)] { count := 2 ^ 47 - 1 }
     (s.enc 7).running = true ∧ parN s Par.encCountMode 7 = 0 ∧ true ≠ (s.enc 7).a ∧ false = (s.enc 7).b ∧
      ((after (.encCountEdge 0 7 true false) s).enc 7).count = -2 ^ 47 ∧ true ≠ (s.enc 7).b ∧
      ((after (.encCountEdge 0 7 false true) s).enc 7).count = 2 ^ 47 - 2 ∧
      ((after (.encIllegalTransition 0 7) s).enc 7).phaseErrors = 1 ∧ ((after (.encCountEdge 0 7 true true) s).enc 7).phaseErrors = 1) ∧
    -- a level shorter than the filter, and the levels while the channel stands
    (let s := counting [(Par.encCountMode, 7, 0), (Par.encFilter, 7, 2)] { aAt := some (running .preop).time.now }
     ¬ (∀ i, (s.enc 7).aAt = some i → i + parN s Par.encFilter 7 * stepU ≤ s.time.now) ∧
      ((after (.encCountEdge 1 7 true false) s).enc 7).count = 0 ∧ ((after (.encCountEdge 2 7 true false) s).enc 7).count = 1) ∧
    (let s := inState .preop
     (s.enc 7).running = false ∧ (s.enc 7).aAt = none ∧ ((after (.encCountEdge 0 7 true true) s).enc 7).a = true) ∧
    (let s := counting [(Par.encCountMode, 7, 1)] { count := 5 }
     parN s Par.encCountMode 7 = 1 ∧ ((after (.encCountEdge 0 7 true true) s).enc 7).count = 6 ∧
      ((after (.encCountEdge 0 7 true false) s).enc 7).count = 4 ∧ ((after (.encCountEdge 0 7 false true) s).enc 7).count = 5) ∧
    (let s := counting [(Par.encWireCheck, 7, 1), (Par.encIndexMode, 7, 1)] {}
     let w := after (.encWireFault 0 7 { pair := 1, stuck := true }) s
     pairChecked s 7 1 = true ∧ pairChecked s 7 2 = true ∧ pairChecked (counting [(Par.encWireCheck, 7, 0)] {}) 7 1 = false ∧
      (s.enc 7).stuckPairs.contains 1 = false ∧ (w.enc 7).wireFaults = 1 ∧ (w.enc 7).stuckPairs.contains 1 = true ∧
      ((after (.encWireFault 0 7 { pair := 1, stuck := true }) w).enc 7).wireFaults = 1 ∧
      ((after (.encWireFault 0 7 { pair := 1, stuck := false }) w).enc 7).wire = false) ∧
    (let s := counting [(Par.encIndexMode, 7, 1), (Par.encCpt, 7, 1000)] { count := 1501 }
     parN s Par.encIndexMode 7 = 1 ∧ true ≠ (s.enc 7).z ∧ (s.enc 7).zAt = none ∧ indexEdge s 7 true = true ∧
      ((after (.encIndexEvent 0 { ch := 7, high := true }) s).enc 7).count = 2000) ∧
    (let s := counting [(Par.encIndexMode, 7, 2)] { count := 9, armed := true }
     parN s Par.encIndexMode 7 = 2 ∧ (s.enc 7).armed = true ∧ ((after (.encIndexEvent 0 { ch := 7, high := true }) s).enc 7).count = 0) ∧
    (let s := counting [(Par.encIndexMode, 7, 0)] { count := 9, z := true }
     parN s Par.encIndexMode 7 = 0 ∧ false ≠ (s.enc 7).z ∧ indexEdge s 7 false = false ∧
      ((after (.encIndexEvent 0 { ch := 7, high := false }) s).enc 7).index = none) := by
  repeat' apply And.intro
  all_goals first | exact served_of (by decide +kernel) | (intro h; exact absurd (h _ rfl) (by decide +kernel)) | decide +kernel

/-- An SSI exchange of channel 0 runs for slot 0, in an attempt, with a frame of 8 position bits. -/
def ssiRuns (attempt : Nat) : State :=
  withPars [(Par.ssiPosBits, 0, 8), (Par.ssiTurnBits, 0, 8), (Par.ssiCheck, 0, 0)]
    { inState .preop with loc := { ssis := [(0, { request := some (0, attempt), startedAt := 0 })] }, time := { now := 1000000 * nsU } }

theorem test_witness_InputsProbesAndSsi :
    (let q := rq [7, 0, 0, 0]
     let s := withPars [(Par.prbMode, 7, 1)] (inState .preop)
     Served Cmd.probeArm 0 q s ∧ uAt q.payload 0 1 = 7 ∧ 7 < slotCount s.board.variant ∧ par s Par.prbMode 7 = 1 ∧
      ((after (.probeArm 0 q) s).probe 7).armed = true ∧ Served Cmd.probeArm 0 q (inState .preop) ∧
      par (inState .preop) Par.prbMode 7 ≠ 1 ∧ status (after (.probeArm 0 q) (inState .preop)) = St.badState) ∧
    (let s := inState .preop
     23 < 3 * slotCount s.board.variant ∧ s.dev.mode ≠ .off ∧ s.dev.mode ≠ .standby ∧ (tget s.loc.dins {} 23 : DinSt).level ≠ true) ∧
    (let s := withPars [(Par.prbEdge, 7, 1), (Par.prbMode, 7, 1), (Par.prbSource, 7, 3)]
       { running .preop with loc := { probes := [(7, { armed := true })], encs := [(3, { count := -5 })] } }
     s.cyc.running = true ∧ probeTakes (parN s Par.prbEdge 7) true = true ∧ par s Par.prbMode 7 = 1 ∧ (s.probe 7).armed = true ∧
      (s.probe 7).queue.length < 16 ∧ ((after (.probeEdge 0 7 true) s).probe 7).queue.map (·.pos) = [-5]) ∧
    (let r : ProbeRec := { stamp := 0, rising := true, valid := true, done := true, single := false, pos := 0 }
     let s := withPars [(Par.prbEdge, 7, 3)] { running .preop with loc := { probes := [(7, { queue := List.replicate 16 r })] } }
     par s Par.prbMode 7 ≠ 1 ∧ probeTakes (parN s Par.prbEdge 7) false = true ∧ 16 ≤ (s.probe 7).queue.length ∧
      ((after (.probeEdge 0 7 false) s).probe 7).overflows = 1) ∧
    (let s := ssiRuns 1
     (s.ssi 0).request = some (0, 1) ∧ (s.ssi 0).stale = false ∧ ssiOver s 0 = true ∧ ssiGood s 0 5 false = true ∧
      ((after (.ssiExchangeDone 0 0 5 false) s).ssi 0).pos.isSome = true ∧ ssiGood s 0 5 true = false ∧
      ((after (.ssiExchangeDone 0 0 5 true) s).ssi 0).request = some (0, 2)) ∧
    (let r := ssiRuns 1
     let s := { r with loc := { r.loc with ssis := tmap r.loc.ssis (fun _ c => { c with stale := true }) } }
     (s.ssi 0).request = some (0, 1) ∧ (s.ssi 0).stale = true ∧ ssiOver s 0 = true ∧
      ((after (.ssiExchangeDone 0 0 5 false) s).ssi 0).request = some (0, 2)) ∧
    (let s := ssiRuns 2
     (s.ssi 0).request = some (0, 2) ∧ (s.ssi 0).stale = false ∧ ssiOver s 0 = true ∧ ssiGood s 0 5 true = false ∧
      ((after (.ssiExchangeDone 0 0 5 true) s).ssi 0).invalid = 1) ∧
    (let s0 := running .preop
     let s := { s0 with pwm := { timers := [(7, { running := true, up := true, nextAt := s0.cyc.t0 + 10 * nsU })] } }
     let g := s.timer 7
     g.running = true ∧ g.sampleAt = none ∧ g.up = true ∧ g.midAt = none ∧ s.cyc.t0 ≤ g.nextAt ∧ g.nextAt < s.cyc.t0 + s.period * nsU ∧
      g.nextAt ≤ (advanceTo g.nextAt s).time.now ∧ ((after (.slotSample 7) s).timer 7).sampleAt = some g.nextAt) := by
  repeat' apply And.intro
  all_goals first | exact served_of (by decide +kernel) | decide +kernel

/-- The ADC with a steady reference and factors for every core. -/
def adcOn (l : List (Nat × Nat × Int)) (d : Adc) (now : Nat) : State :=
  withPars l { running .preop with loc := { adc := d }, time := { now := now } }

theorem test_witness_AdcUnit :
    (let s := inState .preop
     Served Cmd.adcRefEnable 0 (rq [1, 0, 0, 0]) s ∧ s.loc.adc.ref = 0 ∧ (after (.adcRefEnable 0 (rq [1, 0, 0, 0])) s).loc.adc.ref = 1 ∧
      Served Cmd.adcRefEnable 0 (rq [0, 0, 0, 0]) s ∧ status (after (.adcRefEnable 0 (rq [0, 0, 0, 0])) s) = 0) ∧
    (let s := adcOn [] { ref := 1 } (500000 * nsU)
     s.loc.adc.ref ≠ 0 ∧ s.loc.adc.refAt + 500000 * nsU ≤ s.time.now ∧ (after (.adcRefReady 0) s).loc.adc.ref = 2 ∧ refReady s = true ∧
      Served Cmd.adcCalibrate 0 (rq []) s ∧ adcInUse s = false ∧ s.loc.adc.calStart = none ∧
      status (after (.adcCalibrate 0 (rq [])) s) = 1) ∧
    (Served Cmd.adcCalibrate 0 (rq []) (inState .preop) ∧ refReady (inState .preop) = false) ∧
    (let s := adcOn [] { ref := 2, calStart := some 0 } (2400000 * nsU)
     let f : CoreFactors := { offset := 1, gain := 4194304, lin := [] }
     s.loc.adc.calStart = some 0 ∧ 2400000 * nsU ≤ s.time.now ∧ [f, f, f, f, f].length = 5 ∧
      (after (.adcCalibrateDone 0 [f, f, f, f, f]) s).loc.adc.calState = 2) ∧
    (let f : CoreFactors := { offset := 1, gain := 4194304, lin := [] }
     let s := adcOn [] { calState := 2, factors := [(0, f)] } 0
     let r := adcOn [] { stored := some [f] } 0
     Served Cmd.adcCalSave 0 (rq []) s ∧ s.loc.adc.calState = 2 ∧ (after (.adcCalSave 0 (rq [])) s).loc.adc.stored = some [f] ∧
      Served Cmd.adcCalSave 0 (rq []) r ∧ r.loc.adc.calState ≠ 2 ∧
      Served Cmd.adcCalRestore 0 (rq []) r ∧ r.loc.adc.stored = some [f] ∧ adcInUse r = false ∧ r.loc.adc.calStart = none ∧
      (after (.adcCalRestore 0 (rq [])) r).loc.adc.calState = 2 ∧
      Served Cmd.adcCalRestore 0 { rq [] with ecc := .confirmed } r ∧
      (after (.adcCalRestore 0 { rq [] with ecc := .confirmed }) r).loc.adc.calState = 0 ∧
      Served Cmd.adcCalRestore 0 (rq []) s ∧ s.loc.adc.stored = none ∧ status (after (.adcCalRestore 0 (rq [])) s) = St.adcCalNone) ∧
    (let s := adcOn [(Par.seqTrigger, 3, 1), (Par.seqLength, 3, 2)] {} (tickU 0 800)
     hasLocal s.board.variant = true ∧ s.cyc.running = true ∧ triggerAt s (parN s Par.seqTrigger 3) = some (tickU 0 800) ∧
      s.loc.adc.calStart = none ∧ tfind s.loc.adc.regular 3 = none ∧
      (tfind (after (.adcTrigger 0 false 3) s).loc.adc.regular 3).isSome = true ∧
      triggerAt { s with time := { now := tickU 0 800 + 2 * stepU } } 1 = none) ∧
    (let g : AdcRun := { next := 0, trigAt := tickU 0 800 + 1, entries := [4, 8] }
     let s := adcOn [(Par.seqTrigger, 3, 1), (Par.seqLength, 3, 1)] { regular := [(3, g)] } (tickU 0 800)
     tfind s.loc.adc.regular 3 = some g ∧ notStarted s.loc.adc false 3 s.time.now g = true ∧
      tget (after (.adcTrigger 0 false 3) s).loc.adc.seqMissed 0 3 = 1) ∧
    (let g : AdcRun := { next := 0, trigAt := 820 * nsU, entries := [5, 6] }
     let cl : Claim := { core := 1, from_ := 820 * nsU, start := 820 * nsU }
     let f : CoreFactors := { offset := 0, gain := 4194304, lin := [] }
     let s := adcOn [] { regular := [(3, g)], factors := [(1, f)] } (1000 * nsU)
     let d := s.loc.adc
     tfind d.regular 3 = some g ∧ g.entries[g.next]? = some 5 ∧ (claimsOf d false g).head? = some cl ∧ tfind d.factors cl.core = some f ∧
      cl.start + 180 * nsU ≤ s.time.now ∧ heldBack d false 3 g cl = false ∧ g.after = none ∧
      (tget (after (.adcConversionDone 0 false 3 32767) s).loc.adc.results {} 5 : AdcResult).stamp = 820 * nsU) ∧
    (let s := adcOn [(Par.liveCalInterval, 0, 10)] { ref := 2, calState := 2 } (10000000 * nsU)
     let d := s.loc.adc
     coreOf d 0xFE = some 4 ∧ coreOf d d.turn = some 0 ∧ parN s Par.liveCalInterval 0 ≠ 0 ∧
      d.lastLive + parN s Par.liveCalInterval 0 * 1000000 * nsU ≤ s.time.now ∧ d.calState = 2 ∧ refReady s = true ∧ d.live = none ∧
      d.calStart = none ∧ injWaits d 0 s.time.now = false ∧ converting d 0 s.time.now = false ∧
      (after (.adcLiveCalStart 0) s).loc.adc.live = some 0) ∧
    (let s := adcOn [] { ref := 2, calState := 2, live := some 0, cores := [0xFD, 1, 2, 3, 0] } (1200000 * nsU)
     let f : CoreFactors := { offset := 131072, gain := 4278190, lin := [] }
     let g : CoreFactors := { offset := -131073, gain := 4194304, lin := [] }
     s.loc.adc.live = some 0 ∧ s.loc.adc.liveAt + 1200000 * nsU ≤ s.time.now ∧ f.offset.natAbs ≤ 131072 ∧
      100 * ((f.gain : Int) - 4194304).natAbs ≤ 2 * 4194304 ∧ (after (.adcLiveCalDone 0 f) s).loc.adc.cores = [0xFE, 1, 2, 3, 0] ∧
      131072 < g.offset.natAbs ∧ (after (.adcLiveCalDone 0 g) s).loc.adc.cores = [0xFF, 1, 2, 3, 0]) := by
  repeat' apply And.intro
  all_goals first | exact served_of (by decide +kernel) | decide +kernel

/-! ### Witnesses: the safety unit -/

/-- The safety unit at an instant in ms. -/
def safeAt (ms : Nat) (l : List (Nat × Nat × Int)) (u : Safety) : State :=
  withPars l { running .operational with safe := u, time := { now := ms * 1000000 * nsU } }

theorem test_witness_SafetyInputsAndOutputs :
    (let s := safeAt 7 [(Par.resetSin, 0, 15)] {}
     hasLocal s.board.variant = true ∧ parN s Par.resetSin 0 = 15 ∧ resetLevel s = false ∧ sinLevel s 15 0 s.safe.resetOn1 true = true ∧
      sinLevel s 15 1 s.safe.resetOn2 true = true ∧
      (after (.sinChange 0 15 true true) s).safe.resetAt = 7000000) ∧
    (let s := safeAt 7 [] {}
     parN s Par.resetSin 0 ≠ 15 ∧ parN s Par.resetSin 0 ≠ 14 ∧ ((after (.sinChange 0 15 true false) s).sin 7).on1b = true ∧
      ((after (.sinChange 0 14 true false) s).sin 7).on1a = true) ∧
    (let s := safeAt 7 [] { levelAt := [(31, 6000001)] }
     ((after (.sinChange 0 15 true true) s).sin 7).on1b = true ∧ ((after (.sinChange 0 15 true true) s).sin 7).on2b = false) ∧
    (let s := safeAt 1001 [(Par.sinDiscrepancy, 7, 1000)] { pairs := [(7, { phase := .leaving })] }
     pairLate s 7 = true ∧ ((after (.sinDiscrepancy 0 7) s).sin 7).discrepancy = true) ∧
    (let s := safeAt 50 [(Par.fnKind, 15, 1)] { state := 1, resetOn1 := true, resetOn2 := true, exchangedAt := 1 }
     resetLevel s = true ∧ s.safe.state = 1 ∧ s.safe.resetAt + 50000000 ≤ safeNs s ∧ safeNs s ≤ s.safe.resetAt + 5000000000 ∧
      fnUsed s 15 = true ∧ fnTriggered s 15 = false ∧ (s.fn 15).since ≤ s.safe.exchangedAt ∧ (s.fn 15).state = 2 ∧
      ((after (.qualifiedReset 0) s).fn 15).state = 0) ∧
    (let s := safeAt 49 [] { state := 1, resetOn1 := true, resetOn2 := true }
     resetLevel s = true ∧ safeNs s < s.safe.resetAt + 50000000 ∧ (after (.qualifiedReset 0) s).safe.resetOn1 = false) ∧
    (let s := safeAt 100 [(Par.fnKind, 15, 1), (Par.fnSout, 15, 1), (Par.ss1Time, 15, 100)] { state := 1, fns := [(15, { state := 1 })] }
     fnUsed s 15 = true ∧ (s.fn 15).state = 1 ∧ (s.fn 15).since + parN s Par.ss1Time 15 * 1000000 ≤ safeNs s ∧ isTarget s 15 0 = true ∧
      2 ≤ ((after (.ss1TimeExpiry 0 15) s).fn 15).state) ∧
    (let s := safeAt 1 [] { state := 1, diffs := 2 }
     s.safe.state = 1 ∧ s.safe.diffs < 3 ∧ (after (.safetyVectorExchange 0 { differ := true }) s).safe.diffs = 3 ∧
      (after (.safetyVectorExchange 0 { differ := false }) s).safe.diffs = 0 ∧
      (after (.safetyVectorExchange 0 { differ := false, ecc := .confirmed }) s).safe.faultCause = 3 ∧ s.safe.exchangedAt + 500000 ≤ safeNs s) ∧
    (let s := safeAt 1 [] { state := 1, diffs := 3 }
     s.safe.state = 1 ∧ 3 ≤ s.safe.diffs ∧ (after (.safetyVectorExchange 0 { differ := false, selfTest := some true }) s).safe.faultCause = 4) ∧
    (let s := safeAt 1 [] { state := 1, outs := [(9, { on := true })] }
     s.safe.state = 1 ∧ (s.sout 9).pulseNext ≤ safeNs s ∧ (s.sout 9).on = true ∧ (s.sout 9).latched = false ∧
      ((after (.testPulse 0 9 true) s).sout 9).on = true) ∧
    (let s := safeAt 2 [] { state := 1, outs := [(9, { on := true, pulseEnd := 2000000 })] }
     readbackWrong s 9 3 = true ∧ readbackWrong s 9 2 = false ∧ readbackWrong s 8 2 = true ∧
      ((after (.outputFault 0 9 3) s).sout 9).latched = true ∧ ((after (.outputFault 0 9 2) s).sout 9).latched = false) := by
  repeat' apply And.intro
  all_goals decide +kernel

/-- Connection 127 runs; its present message has left where `left`. -/
def connected (left : Bool) (ms : Nat) : State :=
  safeAt ms [(Par.connId, 127, 5), (Par.connPeriod, 127, 8), (Par.connWd, 127, 10)]
    { state := 1, conns := [(127, { state := 1, seq := 9, isNew := !left, departed := left, wdAt := 0 })] }

/-- The bytes of a reply before its CRC: the connection, the number, no flag, one byte of data. -/
def echoHead : Bytes := [5, 0, 9, 0, 0, 1, 255]

/-- The reply with the CRC of the connection. -/
def echoMsg (s : State) : Bytes := echoHead ++ b32 (safeCrc (connPrefix s 127 true ++ echoHead))

theorem crcUp_lt (w poly c : Nat) (hp : poly < 2 ^ w) : crcUp w poly c < 2 ^ w := by
  have h : c * 2 % 2 ^ w < 2 ^ w := Nat.mod_lt _ (Nat.two_pow_pos w)
  unfold crcUp
  split
  · exact Nat.xor_lt_two_pow h hp
  · exact h

theorem crcBits_lt (w poly : Nat) (hp : poly < 2 ^ w) (l : List Bool) :
    ∀ c, c < 2 ^ w → crcBits w poly c l < 2 ^ w := by
  induction l with
  | nil => intro c h; exact h
  | cons b l ih => intro c _; exact ih _ (crcUp_lt w poly _ hp)

theorem uAt_echo (x : Nat) (h : x < 2 ^ 32) : uAt (echoHead ++ b32 x) 7 4 = x := by
  simp [uAt, slice, echoHead, b32, leBytes, leNat]
  omega

theorem echoGood_echoMsg (s : State) (h : parN s Par.connId 127 = 5) : echoGood s 127 (echoMsg s) = true := by
  have hc : safeCrc (connPrefix s 127 true ++ echoHead) < 2 ^ 32 := crcBits_lt 32 _ (by decide) _ _ (by decide)
  have h7 := uAt_echo _ hc
  have h0 : uAt (echoMsg s) 0 2 = 5 := rfl
  have h5 : uAt (echoMsg s) 5 1 = 1 := rfl
  have h4 : uAt (echoMsg s) 4 1 = 0 := rfl
  have hs : slice (echoMsg s) 0 7 = echoHead := rfl
  have hl : (echoMsg s).length = 11 := rfl
  change uAt (echoMsg s) 7 4 = _ at h7
  simp [echoGood, h0, h5, h4, hl, h, hs, h7]

theorem test_witness_SafetyConnections :
    (let s := connected true 1
     hasLocal s.board.variant = true ∧ connUsed s 127 = true ∧ (s.conn 127).state ≠ 0 ∧ s.cyc.running = true ∧
      s.cyc.tick % parN s Par.connPeriod 127 = 0 ∧ (s.conn 127).isNew = false ∧ ((connected false 1).conn 127).isNew = true) ∧
    (let s := connected true 1
     connExpired s 127 = false ∧ parN s Par.connId 127 = 5 ∧ (s.conn 127).isNew = false ∧ (s.conn 127).seq = 9) ∧
    (let s := connected false 1
     connExpired s 127 = false ∧ (s.conn 127).isNew = true ∧ (s.conn 127).state ≠ 0) ∧
    (let s := connected true 1
     echoGood s 127 [1] = false ∧ ((after (.safeEchoRx 0 127 [1]) s).conn 127).crcErrors = 1) ∧
    (let s := connected true 10
     connExpired s 127 = true ∧ ((after (.safeConnWatchdogExpiry 0 127) s).conn 127).timeouts = 1) ∧
    (let s := safeAt 1 [(Par.connId, 127, 5)] { state := 1, conns := [(127, { state := 1, seq := 9, isNew := false, out := some [1] })] }
     127 ∈ ringConns s 0 ∧ (s.conn 127).out ≠ none ∧ ((takeMessages 0 s).conn 127).wdAt = 1000000) := by
  repeat' apply And.intro
  all_goals decide +kernel

theorem test_witness_SafetyConnections_echo :
    echoGood (connected true 1) 127 (echoMsg (connected true 1)) = true ∧ (∀ s, uAt (echoMsg s) 2 2 = 9) ∧
    echoGood (connected false 1) 127 (echoMsg (connected false 1)) = true :=
  ⟨echoGood_echoMsg _ (by decide +kernel), fun _ => rfl, echoGood_echoMsg _ (by decide +kernel)⟩

/-! ### Witnesses: the dispatcher -/

/-- The plan with standard laws runs, and so many ns of the cycle have passed; engine 0 runs task `t`, which began with the cycle. -/
def dispatching (ns : Nat) (t : Option Nat) (x : TaskSt) : State :=
  let s := withPlan planStd (running .operational)
  { s with time := { now := tickU 0 800 + ns * nsU },
           cyc := { s.cyc with tasks := match t with
                                        | some i => [(i, { x with startAt := s.cyc.t0, resumeAt := s.cyc.t0 })]
                                        | none => [(1, x)] },
           disp := { s.disp with engines := [(0, { active := t })] }, axes := [(1, { fbThisCycle := true })] }

/-- The plan with a user law, whose program is DONE alone, runs its task 1 on engine 0 with a budget; so many ns of the cycle have passed. -/
def userTask (budget ns : Nat) : State :=
  let s := withPlan (cellsFrom 0 (patch (planBytes 0x8000 0) 237 (leBytes 3 budget))) (dispatching ns (some 1) { phase := .service })
  { s with disp := { s.disp with prog := [(0x3FEF, 0x2F0000000000)], engines := [(0, { active := some 1, core := { pc := 0x3FEF } })] } }

theorem test_witness_TasksOfACycle :
    (let s := dispatching 30000 none {}
     let k := (ptasks s.image)[1]?
     k = ptask s.image 1 ∧ (k.map (fun k => dueNow s k && inputsThere s k && flowClear s k && k.prio == 2)) = some true ∧
      s.cyc.running = true ∧ (s.task 1).phase = .waiting ∧ ((after (.taskReady 0 1) s).task 1).phase = .ready) ∧
    ((dispatching 30000 none { phase := .ready }).task 1).phase ≠ .waiting ∧
    (let s0 := dispatching 30000 none { phase := .ready }
     let s := { s0 with disp := { s0.disp with engines := [(0, { next := some 1 })] } }
     ((s.engine 0).next.bind (ptask s.image)).map (fun k => (k.index, Nat.ble (max (nextFrom s 0 k) (s.engine 0).freeAt + 32 * clkU)
        s.time.now)) = some (1, true) ∧ serves s 0 = true ∧ (s.engine 0).active = none ∧
      (s.engine 0).nextReady ≤ s.time.now ∧ ((after (.taskDispatch 0 { engine := 0, ecc := .corrected }) s).task 1).phase = .service ∧
      ((after (.taskDispatch 0 { engine := 0, ecc := .confirmed }) s).task 1).phase = .failed) ∧
    (let s0 := dispatching 30000 (some 1) { phase := .service }
     let s := { s0 with disp := { s0.disp with engines := [(0, { active := some 1, next := some 0 })] } }
     ((s.engine 0).active.bind (ptask s.image)).bind (fun u => ((s.engine 0).next.bind (ptask s.image)).bind (fun k =>
       (preemptPoint s 0 u (nextFrom s 0 k)).map (fun r =>
        (u.index, u.prio, r.2.2, Nat.ble (max (nextFrom s 0 k) (instantAt s 1 r.2.2) + 32 * clkU) s.time.now)))) = some (1, 2, 0, true) ∧
      (ptask s.image 0).map (·.prio) = some 1 ∧ (s.engine 0).chain.length < 7 ∧ ((after (.taskDispatch 0 { engine := 0 }) s).task 1).preempted = true ∧
      ((after (.taskDispatch 0 { engine := 0 }) s).engine 0).active = some 0) ∧
    (let s := dispatching 30000 (some 1) { phase := .service }
     (activeTask s 0).map (fun k => [k.index == 1, k.bundle == 255, (s.engine 0).epoch == (s.flow k.flow).epoch, userLaw k.lawId, k.lawId != lawMaster,
        Nat.ble (100 + writeback k) (clockLimit s k), Nat.ble (instantAt s 1 (100 + writeback k)) s.time.now,
        Nat.blt (instantAt s 1 (clockLimit s k)) s.time.now]) =
       some [true, true, true, false, true, true, true, true] ∧ (s.task 1).rerun = false ∧
      taskOver ((after (.taskComplete 0 { engine := 0 } 100) s).task 1) = true ∧ (s.engine 0).state = .inService ∧
      ((after (.taskComplete 0 { engine := 0, ecc := .confirmed } 100) s).engine 0).state = .underTest ∧
      ((after (.taskOverrun 0 0) s).task 1).phase = .overrun ∧ ((after (.lawFault 0 0 5) s).task 1).rerun = true) ∧
    (let s := userTask 30000 30000
     (activeTask s 0).map (fun k =>
        let c := (runActive s 0 k (clockLimit s k)).1
        [(s.engine 0).epoch == (s.flow k.flow).epoch, userLaw k.lawId, c.fault.isNone, overran s k c,
         Nat.ble (instantAt s 1 (c.clocks + writeback k)) s.time.now]) = some [true, true, true, false, true] ∧
      taskOver ((after (.taskComplete 0 { engine := 0 } 0) s).task 1) = true) ∧
    (let s := userTask 2 30000
     (activeTask s 0).map (fun k =>
        let c := (runActive s 0 k (clockLimit s k)).1
        [userLaw k.lawId, c.fault.isNone, overran s k c, Nat.ble (instantAt s 1 (max c.clocks (clockLimit s k))) s.time.now]) =
       some [true, true, true, true] ∧ ((after (.taskOverrun 0 0) s).task 1).phase = .overrun) ∧
    (activeTask (dispatching 0 none {}) 0 = none) := by
  repeat' apply And.intro
  all_goals decide +kernel

theorem test_witness_EnginesBundlesAndMisses :
    (let s := inState .operational
     enginesUp s = true ∧ 15 < engineCount s.board.variant ∧ (s.engine 15).state = .inService ∧
      ((after (.engineFault 0 15) s).engine 15).state = .underTest) ∧
    (let s := { inState .operational with disp := { engines := [(15, { state := .lost })] } }
     (s.engine 15).state = .lost) ∧
    (let s := dispatching 100000 (some 1) { phase := .service }
     (activeTask s 0).map (fun k => (k.index, Nat.ble 65600 (sincePoint s 0 k))) = some (1, true) ∧
      ((after (.engineStall 0 0) s).engine 0).state = .underTest) ∧
    (let s := dispatching 1000 (some 1) { phase := .service }
     (activeTask s 0).map (fun k => Nat.blt (sincePoint s 0 k) 65600) = some true) ∧
    (let s := { inState .operational with disp := { engines := [(15, { state := .underTest })] } }
     (s.engine 15).state = .underTest ∧ (s.engine 15).testBad = false ∧
      ((after (.engineTestDone 0 15 true) s).engine 15).state = .inService ∧
      ((after (.engineTestDone 0 15 false) s).engine 15).state = .lost) ∧
    (let s := dispatching 100000 none {}
     (pbundle s.image 0).map (fun w => (w.group, Nat.blt (bundleLimit s w) s.time.now)) = some (0, true) ∧ dueMembers s 0 ≠ [] ∧
      (s.bundle 0).failed = false ∧ (s.bundle 0).commitAt = none ∧ ((after (.bundleDeadlineFail 0 0) s).bundle 0).misses = 1) ∧
    (let s := { inState .operational with axes := [(127, { outMisses := 2 })] }
     2 ≤ (s.axis 127).outMisses ∧ (s.axis 127).outRaised = false ∧ (s.axis 0).outMisses < 2 ∧
      ((after (.outputMissed 0 127) s).axis 127).outRaised = true) ∧
    (let s := { inState .operational with axes := [(127, { cascMisses := 2 })] }
     2 ≤ (s.axis 127).cascMisses ∧ (s.axis 127).cascRaised = false ∧ (s.axis 127).outMisses < 2 ∧ (s.axis 0).cascMisses < 2 ∧
      ((after (.outputMissed 0 127) s).axis 127).cascRaised = true) ∧
    (let s0 := dispatching 0 none {}
     let s := { s0 with cyc := { s0.cyc with bundles := [(0, { misses := 2 })] } }
     2 ≤ (s.bundle 0).misses ∧ (s.bundle 0).raised = false ∧ (pbundle s.image 0).map (fun w => Nat.blt w.group 16) = some true ∧
      0 ∈ bundleAxes s.image 0 ∧ onPath s 0 0 = false ∧ ((after (.bundleFailed 0 0) s).bundle 0).raised = true ∧
      ((after (.bundleFailed 0 0) s).axis 0).faults.contains Ev.bundleFailed = true) ∧
    (Served Cmd.dispatchStatsClear 0 (rq []) (inState .preop) ∧ status (after (.dispatchStatsClear 0 (rq [])) (inState .preop)) = 0) := by
  repeat' apply And.intro
  all_goals first | exact served_of (by decide +kernel) | decide +kernel

/-! ### Witnesses: loop engines -/

/-- Engine 15 with a core. -/
def coreIs (c : ECore) : State := { inState .operational with disp := { engines := [(15, { core := c })] } }

/-- Engine 15 with registers. -/
def eng (r : ERegs) : State := coreIs { regs := r, pc := 0x3FEF }

/-- Engine 15 after an instruction. -/
def ran (i : Instr) (s : State) : ECore := (after i s).core 15

/-- The conditions of `EngineReady` and `MovesOk` on engine 15. -/
theorem ready_of {s : State} (h : (15 < engineCount s.var ∧ (s.engine 15).state = .inService ∧ (s.core 15).fault = none ∧
    (s.core 15).done = false ∧ (s.core 15).halted = false ∧ (s.core 15).haltAsked = false ∧ (s.core 15).pc < 0x3FF0 ∧
    (s.core 15).rep = none ∧ (s.core 15).branch = none) ∧ (s.core 15).regs.x.length = 16 ∧ (s.core 15).regs.a.length = 4 ∧
    (s.core 15).regs.p.length = 8 ∧ (s.core 15).regs.m.length = 8 ∧ (s.core 15).regs.l.length = 8) : EngineReady 15 s :=
  ⟨h.1.1, h.1.2.1, h.1.2.2.1, h.1.2.2.2.1, h.1.2.2.2.2.1, h.1.2.2.2.2.2.1, h.1.2.2.2.2.2.2.1, h.1.2.2.2.2.2.2.2.1,
    h.1.2.2.2.2.2.2.2.2, h.2⟩

/-- Registers with values in X0 to X2, in A0 and A1, and with P1 at the last data address. -/
def regs0 (x0 x1 x2 : W24) (a0 a1 : W56) (bx : BitVec 7) (stack : List (BitVec 14)) : ERegs :=
  { x := [x0, x1, x2] ++ List.replicate 13 0, a := [a0, a1, 0, 0], p := [0, 0x3EFF, 0, 0, 0, 0, 0, 0], bx := bx, stack := stack }

/-- The value of an accumulator of the result. -/
def accOf (i : Instr) (s : State) (n : Nat) : Int := ((ran i s).regs.ar n).toInt

/-- A load from P1 with increment, and a store through P0. -/
def ld1 : Move := .ldX 1 .inc 5
def st0 : Move := .stX 0 .keep 3

theorem moves_ok (s : State) (h : clash ld1 st0 = false ∧ (moveAddr (s.core 15).regs ld1).any (Nat.ble dataEnd) = false ∧
    (moveAddr (s.core 15).regs st0).any (Nat.ble dataEnd) = false) : MovesOk 15 ld1 st0 s := h

theorem test_witness_EngineProductsSetTheirAccumulator :
    let s := eng (regs0 0x800000 0x800000 3 (2 ^ 55 - 1) 7 0 [])
    EngineReady 15 s ∧ MovesOk 15 ld1 st0 s ∧ accOf (.pset 15 0 false 0 1 ld1 st0) s 0 = 2 ^ 47 ∧
      accOf (.pacc 15 1 true 2 2 ld1 st0) s 1 = 7 - 18 ∧ accOf (.psetu 15 2 false 2 0 ld1 st0) s 2 = 3 * 2 ^ 24 ∧
      accOf (.paccu 15 0 false 2 2 ld1 st0) s 0 = 2 ^ 55 - 1 ∧ (ran (.paccu 15 0 false 2 2 ld1 st0) s).regs.es.getLsbD esSAC = true := by
  refine ⟨ready_of ?_, moves_ok _ ?_, ?_⟩
  all_goals decide +kernel

theorem test_witness_EngineRoundedProductsSetTheirAccumulator :
    let s := eng (regs0 0x400001 0x000003 0x800000 (2 ^ 55 - 1) 7 0 [])
    EngineReady 15 s ∧ MovesOk 15 ld1 st0 s ∧ accOf (.psetr 15 0 false 0 1 ld1 st0) s 0 = 2 ^ 25 ∧
      accOf (.paccr 15 0 false 1 1 ld1 st0) s 0 = 2 ^ 55 - 1 ∧ accOf (.psetur 15 0 true 1 2 ld1 st0) s 0 = -3 * 2 ^ 24 := by
  refine ⟨ready_of ?_, moves_ok _ ?_, ?_⟩
  all_goals decide +kernel

theorem test_witness_EngineAccumulatorArithmetic :
    let s := eng (regs0 0x800000 1 0 (2 ^ 54) (2 ^ 54) 0 [])
    EngineReady 15 s ∧ MovesOk 15 ld1 st0 s ∧ accOf (.aadd 15 0 1 ld1 st0) s 0 = 2 ^ 55 - 1 ∧ accOf (.asub 15 0 1 ld1 st0) s 0 = 0 ∧
      accOf (.aadx 15 0 1 ld1 st0) s 0 = 2 ^ 54 + 2 ^ 24 ∧ accOf (.aldx 15 3 0 ld1 st0) s 3 = -2 ^ 47 ∧
      accOf (.aneg 15 0 ld1 st0) s 0 = -2 ^ 54 := by
  refine ⟨ready_of ?_, moves_ok _ ?_, ?_⟩
  all_goals decide +kernel

theorem test_witness_EngineShiftsAndRounding :
    (let s := eng (regs0 0 0 0 0x1800000 (2 ^ 50) 3 [])
     EngineReady 15 s ∧ MovesOk 15 ld1 st0 s ∧ 0 ≤ (s.core 15).regs.bx.toInt ∧ accOf (.rnd 15 0 ld1 st0) s 0 = 2 ^ 25 ∧
      accOf (.asat 15 1 ld1 st0) s 1 = 2 ^ 47 - 1 ∧ accOf (.ashl 15 0 55 ld1 st0) s 0 = 2 ^ 55 - 1 ∧
      accOf (.ashr 15 0 23 ld1 st0) s 0 = 3 ∧ (ran (.ashr 15 0 56 ld1 st0) s).fault = some (1, 0x3FEF) ∧
      accOf (.sclb 15 0 ld1 st0) s 0 = 8 * 0x1800000) ∧
    (let s := eng (regs0 0 0 0 (-9) 0 (-2) [])
     EngineReady 15 s ∧ MovesOk 15 ld1 st0 s ∧ (s.core 15).regs.bx.toInt < 0 ∧ accOf (.sclb 15 0 ld1 st0) s 0 = -3) := by
  refine ⟨⟨ready_of ?_, moves_ok _ ?_, ?_⟩, ready_of ?_, moves_ok _ ?_, ?_⟩
  all_goals decide +kernel

theorem test_witness_EngineWordResults :
    (let s := eng (regs0 0x7FFFFF 1 0 (2 ^ 50) 0 1 [])
     EngineReady 15 s ∧ MovesOk 15 ld1 st0 s ∧ 0 ≤ (s.core 15).regs.bx.toInt ∧
      (ran (.xadd 15 3 0 1 ld1 st0) s).regs.xr 3 = 0x800000 ∧ (ran (.xeor 15 3 0 1 ld1 st0) s).regs.xr 3 = 0x7FFFFE ∧
      (ran (.xhi 15 3 0 ld1 st0) s).regs.xr 3 = 0x7FFFFF ∧ (ran (.xlo 15 3 0 ld1 st0) s).regs.xr 3 = 0xFFFFFF ∧
      (ran (.sclbx 15 3 0 ld1 st0) s).regs.es.getLsbD esSST = true) ∧
    (let s := eng (regs0 0xFFFFF7 0 0 0 0 (-2) [])
     EngineReady 15 s ∧ MovesOk 15 ld1 st0 s ∧ (s.core 15).regs.bx.toInt < 0 ∧
      (ran (.sclbx 15 3 0 ld1 st0) s).regs.xr 3 = 0xFFFFFD) := by
  refine ⟨⟨ready_of ?_, moves_ok _ ?_, ?_⟩, ready_of ?_, moves_ok _ ?_, ?_⟩
  all_goals decide +kernel

theorem test_witness_EngineComparisonsAndSteps :
    let s := eng (regs0 0x00FFFF 2 0x800000 (5 * 2 ^ 24) (2 ^ 47) 40 [])
    EngineReady 15 s ∧ MovesOk 15 ld1 st0 s ∧ (ran (.acmp 15 0 0 ld1 st0) s).regs.es.getLsbD esZ = true ∧
      (ran (.xbit 15 2 23 ld1 st0) s).regs.es.getLsbD esZ = false ∧ (ran (.bexp 15 0 ld1 st0) s).regs.bx = 7 ∧
      (ran (.bexpa 15 1 ld1 st0) s).regs.bx = -1 ∧ (ran (.bxset 15 47 ld1 st0) s).regs.bx = 47 ∧
      accOf (.maxi 15 0 0 ld1 st0) s 0 = 65535 * 2 ^ 24 ∧ accOf (.mini 15 0 0 ld1 st0) s 0 = 5 * 2 ^ 24 ∧
      accOf (.qstep 15 0 1 ld1 st0) s 0 = 8 * 2 ^ 24 + 1 ∧ (ran (.nop 15 ld1 st0) s).regs.pr 1 = 0x3F00 := by
  refine ⟨ready_of ?_, moves_ok _ ?_, ?_⟩
  all_goals decide +kernel

theorem test_witness_EngineControlFlow :
    (let s := eng (regs0 1 2 0 0 0 0 [9, 8, 7])
     EngineReady 15 s ∧ MovesOk 15 ld1 st0 s ∧ condHolds 0 (s.core 15).nzgOld (s.core 15).regs.es = some true ∧
      condHolds 10 (s.core 15).nzgOld (s.core 15).regs.es ≠ none ∧ (s.core 15).regs.stack.length < 4 ∧
      (ran (.brc 15 0 0x3FEF) s).branch = some (some 0x3FEF, 2) ∧ (ran (.brc 15 11 0) s).fault = some (1, 0x3FEF) ∧
      (ran (.call 15 5) s).regs.stack = [0x3FF2, 9, 8, 7] ∧ (s.core 15).regs.stack = 9 :: [8, 7] ∧
      (ran (.ret 15) s).branch = some (some 9, 2) ∧ (ran (.decbr 15 0 3) s).branch = some (none, 2) ∧
      (ran (.decbr 15 1 3) s).branch = some (some 3, 2) ∧ (ran (.rep 15 65536 ld1 st0) s).rep = some (65536, 0) ∧
      (ran (.done 15 ld1 st0) s).done = true) ∧
    (let s := eng (regs0 1 2 0 0 0 0 [9, 8, 7, 6])
     EngineReady 15 s ∧ MovesOk 15 ld1 st0 s ∧ 4 ≤ (s.core 15).regs.stack.length ∧ (ran (.call 15 5) s).fault = some (5, 0x3FEF)) ∧
    (let s := eng (regs0 1 2 0 0 0 0 [])
     EngineReady 15 s ∧ MovesOk 15 ld1 st0 s ∧ (s.core 15).regs.stack = [] ∧ (ran (.ret 15) s).fault = some (5, 0x3FEF)) := by
  refine ⟨⟨ready_of ?_, moves_ok _ ?_, ?_⟩, ⟨ready_of ?_, moves_ok _ ?_, ?_⟩, ready_of ?_, moves_ok _ ?_, ?_⟩
  all_goals decide +kernel

theorem test_witness_EngineImmediatesAndSpecialRegisters :
    let s := eng (regs0 0xFFFFFF 2 0 0 0 5 [])
    EngineReady 15 s ∧ MovesOk 15 ld1 st0 s ∧ (ran (.ximm 15 3 0x123456) s).regs.xr 3 = 0x123456 ∧
      (ran (.pimm 15 7 0xFFFF) s).regs.pr 7 = 0xFFFF ∧ (ran (.mimm 15 7 0xFFFF) s).regs.mr 7 = 0xFFFF ∧
      (0x3FFF : BitVec 16).toNat < 16384 ∧ (ran (.limm 15 7 0x3FFF) s).regs.lr 7 = 0x3FFF ∧ 16384 ≤ (0x4000 : BitVec 16).toNat ∧
      (ran (.limm 15 7 0x4000) s).fault = some (1, 0x3FEF) ∧ (ran (.sreg 15 3 5 0 false ld1 st0) s).regs.xr 3 = 5 ∧
      (ran (.sreg 15 0 6 0 true .none .none) s).regs.es = 0x1F ∧ 7 ≤ 7 ∧ (ran (.sreg 15 0 7 0 false ld1 st0) s).fault = some (1, 0x3FEF) ∧
      (ran (.sreg 15 0 3 0 true ld1 st0) s).fault = some (1, 0x3FEF) := by
  refine ⟨ready_of ?_, moves_ok _ ?_, ?_⟩
  all_goals decide +kernel

theorem test_witness_EngineRepeatsAndIllegalMoves :
    let s := eng { regs0 5 1 0 7 0 0 [] with p := [0, 0x3F00, 0, 0, 0, 0, 0, 0] }
    let s1 := fun n => s.onEngine 15 (fun g => { g with core := { s.core 15 with rep := some (n, 0), landing := [] } })
    EngineReady 15 s ∧ (ran (.aadd 15 0 0 .none .none) (s1 0)).regs.a = (s.core 15).regs.a ∧
      (s.core 15).regs.xr 0 = 5 ∧ (s.core 15).regs.xr 1 = 1 ∧ (ran (.xsub 15 0 0 1 .none .none) (s1 8)).regs.xr 0 = 0xFFFFFD ∧
      clash ld1 ld1 = true ∧ (ran (.nop 15 ld1 ld1) s).fault = some (2, 0x3FEF) ∧ clash ld1 .none = false ∧
      (moveAddr (s.core 15).regs ld1).any (Nat.ble 0x3F00) = true ∧ clash .none ld1 = false ∧
      (ran (.nop 15 .none ld1) s).fault = some (3, 0x3FEF) := by
  refine ⟨ready_of ?_, ?_⟩
  all_goals decide +kernel

/-! ### Witnesses: law blocks and the debug access -/

/-- A law block of one word, DONE, at the last program address, with a law_id (R344). -/
def blockBytes (law crc : Nat) : Bytes :=
  b32 0x424C4B43 ++ [law, 1, 0x3FEF, 24, 0, 0, 1].flatMap b16 ++ zeros 6 ++ [0, 0xFFFF, 0xFFFF, 0xFFFF].flatMap b16 ++
  b64 0x2F0000000000 ++ b32 crc

/-- A good block as it stands in the list of blocks. -/
def goodBlock : LawBlock :=
  { lawId := 0x8000, loadAddr := 0x3FEF, wordCount := 1, inMin := 24, stMin := 0, outMin := 0, runMax := 1, entries := [0, 0xFFFF, 0xFFFF, 0xFFFF] }

/-- A task image for LAW_TEST, with a number of input words. -/
def testTask (inLen : Nat) : Bytes := b32 0x3FEF1000 ++ b32 (4096 / 4 + inLen * 1048576) ++ b16 4 ++ b8 4 ++ zeros 5

theorem test_witness_LawBlocks :
    (let s := { inState .config with disp := { staged := [1, 2] } }
     let q := rq ([0, 0, 0, 0] ++ b32 2 ++ [3])
     let f := rq ([1, 0, 0, 0] ++ b32 0 ++ [3])
     Served Cmd.lawLoad 0 q s ∧ uAt q.payload 1 3 = 0 ∧ uAt q.payload 4 4 = 2 ∧ uAt q.payload 0 1 = 0 ∧
      (after (.lawLoad 0 q) s).disp.staged = [1, 2, 3] ∧ Served Cmd.lawLoad 0 f s ∧ uAt f.payload 1 3 = 0 ∧ uAt f.payload 4 4 = 0 ∧
      uAt f.payload 0 1 = 1 ∧ (after (.lawLoad 0 f) s).disp.loading = [([3], false)] ∧
      Served Cmd.lawLoad 0 (rq ([0, 0, 0, 0] ++ b32 1 ++ [3])) s ∧ status (after (.lawLoad 0 (rq ([0, 0, 0, 0] ++ b32 1 ++ [3]))) s) = St.badParam) ∧
    (let b := blockBytes 0x8000 0x45C49615
     let s := { inState .config with disp := { loading := [(b, false)] } }
     s.disp.loading = (b, false) :: [] ∧ blockFormat b = true ∧ blockOverlaps s (blockHead b) = false ∧ firstBad b = none ∧
      (after (.lawLoadDone 0) s).disp.blocks = [goodBlock] ∧ blockFormat (blockBytes 0x8000 0) = false ∧
      blockOverlaps { s with disp := { blocks := [goodBlock] } } (blockHead b) = true) ∧
    (let s := { inState .config with disp := { blocks := [goodBlock] } }
     let q := rq (b16 0x8000 ++ zeros 2)
     Served Cmd.lawUnload 0 q s ∧ uAt q.payload 0 2 = 0x8000 ∧ uAt q.payload 2 2 = 0 ∧ s.disp.blocks.any (fun b => b.lawId == 0x8000) = true ∧
      planUses s.image 0x8000 = false ∧ s.plan.standbySt = .empty ∧ (after (.lawUnload 0 q) s).disp.blocks = []) ∧
    (let s := withPlan planUser (inState .config)
     let q := rq (b16 0x8000 ++ zeros 2)
     Served Cmd.lawUnload 0 q s ∧ s.disp.blocks.any (fun b => b.lawId == 0x8000) = true ∧ planUses s.image 0x8000 = true ∧
      status (after (.lawUnload 0 q) s) = St.lawInUse) ∧
    (let s := withPlan planUser (running .preop)
     let q := rq (b16 1 ++ b16 23 ++ [1, 0, 0, 0] ++ sleBytes 4 (-1))
     let n := withPlan (cellsFrom 0 (patch (planBytes 0x8000 0xBAD2C7E5) 240 [255])) (running .preop)
     s.plan.active.isSome = true ∧ Served Cmd.lawCoefWrite 0 q n ∧ n.plan.active.isSome = true ∧
      (ptask n.image 1).map (fun k => [k.inLen == 24, k.axis == 255]) = some [true, true] ∧
      ((List.range (uAt q.payload 4 1)).filterMap (fun i => contVal .s24 (slice q.payload (8 + 4 * i) 4))).length = 1 ∧
      status (after (.lawCoefWrite 0 q) n) = 0) ∧
    (let s := { inState .config with disp := { blocks := [goodBlock], prog := [(0x3FEF, 0x2F0000000000)] } }
     let q := rq ([15, 0, 0, 0] ++ b32 1000000 ++ testTask 24)
     let k := taskAt (cellsFrom 0 (slice q.payload 8 16)) 0 0
     let w := { s with disp := { s.disp with engines := [(15, { core := { halted := true } })] } }
     s.disp.test = none ∧ (s.core 15).halted = false ∧ (s.core 15).haltAsked = false ∧ (w.core 15).halted = true ∧ Served Cmd.lawTest 0 q w ∧
      (after (.lawTest 0 q) w).disp.test = some (15, 1, k.base, 1000000) ∧ ((after (.lawTest 0 q) s).core 15).done = true ∧
      Served Cmd.lawTest 0 q s ∧ uAt q.payload 0 1 = 15 ∧ 15 < engineCount s.board.variant ∧ uAt q.payload 4 4 = 1000000 ∧
      k.base + 4 * (k.inLen + k.stLen + k.outLen) ≤ sramSize ∧ (s.engine 15).state = .inService) := by
  repeat' apply And.intro
  all_goals first | exact served_of (by decide +kernel) | decide +kernel

theorem test_witness_DebugAccess :
    (let s := inState .config
     s.dev.mode = .config ∧ 15 < engineCount s.board.variant ∧ (s.core 15).branch = none ∧ (s.core 15).rep = none ∧
      (s.core 15).halted = false ∧ ((after (.debugHaltRequest 0 (.engine 15)) s).core 15).halted = true ∧
      (after (.debugHaltRequest 0 .timeClock) s).time.stopped = true) ∧
    (let s := { inState .config with disp := { engines := [(15, { core := { rep := some (3, 1) } })] } }
     (s.core 15).rep.isSome = true ∧ ((after (.debugHaltRequest 0 (.engine 15)) s).core 15).haltAsked = true) ∧
    ((inState .preop).dev.mode ≠ .config) ∧
    (let s := { inState .config with disp := { engines := [(15, { core := { pc := 0x3FF0, halted := true } })] } }
     (s.core 15).halted = true ∧ ((after (.debugSingleStep 0 15) s).core 15).fault = some (4, 0x3FF0) ∧
      (∀ x, s.disp.test = some x → x.1 ≠ 15) ∧ ((after (.debugResume 0 (.engine 15)) s).core 15).halted = false ∧
      after (.debugResume 0 (.engine 15)) { s with dev := { s.dev with mode := .preop } } = { s with dev := { s.dev with mode := .preop } }) ∧
    (let s := { inState .config with time := { stopped := true } }
     s.time.stopped = true ∧ (after (.debugResume 0 .timeClock) s).dev.mode = .fault ∧ (inState .config).time.stopped = false) ∧
    (let s := { inState .config with disp := { test := some (15, 1, 0, 9), prog := [(0x3FEF, 0x2F0000000000)],
                                               engines := [(15, { core := { pc := 0x3FEF, halted := true } })] } }
     s.disp.test = some (15, 1, 0, 9) ∧ (after (.debugResume 0 (.engine 15)) s).disp.test = none ∧
      ((after (.debugResume 0 (.engine 15)) s).core 15).done = true) ∧
    ((inState .safeHold).dev.mode = .safeHold ∧ (after (.clockHalted 0) (inState .config)).dev.mode = .fault) := by
  repeat' apply And.intro
  all_goals first | (intro x h; exact nomatch h) | decide +kernel

/-! ### Witnesses: calipers and DMA -/

/-- The parameters written for CAL_ARM. -/
def written (l : List (Nat × Nat × Int)) (s : State) : State :=
  { s with par := { s.par with written := l.map (fun e => (pkey e.1 e.2.1, e.2.2)) } }

theorem test_witness_CalipersCommands :
    (let s := inState .config
     let q := rq (b16 65535 ++ [1, 0] ++ b16 9 ++ b16 1)
     let m := rq ([31, 1] ++ b16 4095 ++ [1, 0, 0, 0] ++ zeros 8)
     Served Cmd.calSegList 0 q s ∧ uAt q.payload 0 2 = 65535 ∧ uAt q.payload 2 1 = 1 ∧ uAt q.payload 3 1 = 0 ∧ 1 ≤ uAt q.payload 6 2 ∧
      captureOn s = true ∧ calBusy s = false ∧ (after (.calSegList 0 q) s).cal.segList = [(65535, 9, 1)] ∧
      Served Cmd.calMaskWrite 0 m s ∧ uAt m.payload 0 1 = 31 ∧ uAt m.payload 1 1 = 1 ∧ uAt m.payload 5 3 = 0 ∧ uAt m.payload 4 1 = 1 ∧
      uAt m.payload 2 2 + 1 ≤ 4096 ∧ maskPoint s 31 (slice m.payload 8 4) = some 0 ∧ status (after (.calMaskWrite 0 m) s) = 0) ∧
    (let s := written [(Par.capSignal, 31, 128)] (inState .config)
     let m := rq ([31, 1] ++ b16 4095 ++ [1, 0, 0, 0] ++ [255, 255, 255, 0])
     Served Cmd.calMaskWrite 0 m s ∧ maskPoint s 31 (slice m.payload 8 4) = none ∧
      status (after (.calMaskWrite 0 m) s) = St.badParam) ∧
    (let s := inState .preop
     let q := rq []
     let armed := parPromote (atStamp Cmd.calArm 0 q s) (fun _ _ => true) .calArm
     let c := calConfOf armed
     Served Cmd.calArm 0 q s ∧ confFits armed c = true ∧ c.fixedBytes + 64 + largestEntry s c.listLen * c.rowBytes ≤ captureSize ∧
      (after (.calArm 0 q) s).cal.state = 1) ∧
    (let s := written ((Par.calChannels, 0, 16) :: (List.range 16).map (fun c => (Par.capSignal, c, 128)))
       { inState .preop with cal := { segList := [(0, 65535, 65535)] } }
     let q := rq []
     let armed := parPromote (atStamp Cmd.calArm 0 q s) (fun _ _ => true) .calArm
     let c := calConfOf armed
     Served Cmd.calArm 0 q s ∧ confFits armed c = true ∧ captureSize < c.fixedBytes + 64 + largestEntry s c.listLen * c.rowBytes ∧
      status (after (.calArm 0 q) s) = St.calMemory) ∧
    (let s := { inState .preop with cal := { state := 1 } }
     Served Cmd.calStop 0 (rq []) s ∧ captureOn s = true ∧ calBusy s = true ∧ (after (.calStop 0 (rq [])) s).cal.stopReason = 5 ∧
      Served Cmd.calForce 0 (rq []) s ∧ s.cal.state = 1 ∧ s.cal.trigAt = none ∧ s.cal.rearmAt ≤ stampOf Cmd.calForce 0 (rq []) s * nsU ∧
      (∀ r, r ∈ s.cal.pre → r.at_ < stampOf Cmd.calForce 0 (rq []) s * nsU) ∧ (after (.calForce 0 (rq [])) s).cal.trigSrc = 6 ∧ Served Cmd.calForce 0 (rq []) (inState .preop) ∧ (inState .preop).cal.state ≠ 1) ∧
    (let s := inState .preop
     let q := rq ([7, 0, 0, 0] ++ b32 1)
     Served Cmd.calSkewCalibrate 0 q s ∧ uAt q.payload 0 1 = 7 ∧ uAt q.payload 1 3 = 0 ∧ captureOn s = true ∧ s.cal.skew = none ∧
      (tget (after (.calSkewCalibrate 0 q) s).time.touts {} 7 : Tout).mode = 2) ∧
    (let s := inState .config
     let w := { s with cal := { s.cal with skewStored := some [(0, 5)] } }
     Served Cmd.calSkewStore 0 (rq [0, 0, 0, 0]) s ∧ (after (.calSkewStore 0 (rq [0, 0, 0, 0])) s).cal.skewStored = some [] ∧
      Served Cmd.calSkewStore 0 (rq [1, 0, 0, 0]) w ∧ (after (.calSkewStore 0 (rq [1, 0, 0, 0])) w).cal.skewVals = [(0, 5)] ∧
      Served Cmd.calSkewStore 0 (rq [1, 0, 0, 0]) s ∧ s.cal.skewStored = none ∧
      status (after (.calSkewStore 0 (rq [1, 0, 0, 0])) s) = St.calSkewNone) ∧
    (let s := withPars [(Par.busRole, 0, 2)] (inState .config)
     Served Cmd.calBusMeasure 0 (rq []) s ∧ par s Par.busRole 0 = 2 ∧ s.cal.bus = none ∧
      (after (.calBusMeasure 0 (rq [])) s).cal.bus.isSome = true) := by
  repeat' apply And.intro
  all_goals first | (intro r h; exact absurd h List.not_mem_nil) | exact served_of (by decide +kernel) | decide +kernel

/-- A record of no channel, with a kind of trigger. -/
def recording (k : Calipers) (kind : Nat) : Calipers :=
  { k with conf := some { rowClock := 0, segments := 1, listLen := 1, kind := kind, channel := 0, dir := 0, level := 0, hyst := 0, high := 0,
                          index := 3, maskEnable := false, spill := false, spillBase := 0, spillSize := 0, chans := [] } }

theorem test_witness_CalipersEvents :
    (let r : CalRow := { at_ := tickU 0 800, values := [] }
     let s := { running .preop with cal := recording { state := 1, segList := [(0, 1, 1)], heldRow := some r } 0 }
     s.cal.conf.map (fun c => c.kind == 0) = some true ∧ s.cal.heldRow = some r ∧ s.cal.rearmAt ≤ r.at_ ∧ s.cal.state = 1 ∧
      s.cal.trigAt = none ∧ (after (.calRow 0 none) s).cal.pre.length = 1) ∧
    (let r : CalRow := { at_ := tickU 0 800, values := [] }
     let s := { running .preop with cal := recording { state := 2, segList := [(0, 0, 2)], heldRow := some r } 0 }
     s.cal.state = 2 ∧ s.cal.heldRow = some r ∧ s.cal.rearmAt ≤ r.at_ ∧
      s.cal.conf.map (fun c => [!c.maskEnable, rowsFit s c 1, Nat.blt 1 (s.cal.preCount + (segEntry s c.listLen s.cal.segNo).2)]) =
        some [true, true, true] ∧ (after (.calRow 0 none) s).cal.rows.length = 1) ∧
    (running .preop).cal.heldRow = none ∧
    (let s := { running .preop with cal := recording { state := 1 } 5 }
     hasLocal s.board.variant = true ∧ drivesNow s 3 = false ∧ s.cal.bus = none ∧ par s Par.busRole 0 ≠ 1 ∧
      s.cal.conf.map (fun c => [c.kind == 5, c.index == 3]) = some [true, true] ∧ s.cal.rearmAt ≤ s.time.now - busDelayU s 3 ∧
      (∀ r, r ∈ s.cal.pre → r.at_ < s.time.now - busDelayU s 3) ∧ (after (.trigBusEdge 0 3) s).cal.trigSrc = 5) ∧
    (let s := withPars [(Par.busRole, 0, 2)] (running .preop)
     par s Par.busRole 0 = 2 ∧ s.cal.syncEdges.length < 63 ∧ (after (.syncClkEdge 0) s).cal.syncState = 1) ∧
    (let s := withPars [(Par.busRole, 0, 2)] { running .preop with cal := { syncLast := some 0 } }
     s.cal.syncLast = some 0 ∧ par s Par.busRole 0 = 2 ∧ 0 + 10000 * nsU ≤ s.time.now ∧ (after (.syncClkLost 0) s).cal.syncState = 3) ∧
    (let s := { inState .config with cal := { bus := some { drivenAt := none, started := 0 } }, time := { now := 100000000 * nsU } }
     s.cal.bus.isSome = true ∧ 0 + 100000000 * nsU ≤ s.time.now ∧ (after (.calNoEchoTimeout 0) s).cal.bus = none ∧
      (tfind (after (.calBusRetryWait 0 5000) s).cal.busPulse 0).isSome = true) := by
  repeat' apply And.intro
  all_goals first | (intro r h; exact absurd h List.not_mem_nil) | decide +kernel

/-- Channel 31 in a state. -/
def dmaIn (c : DmaCh) : State := { inState .config with dma := { chans := [(31, c)] } }

theorem test_witness_DmaChannels :
    (let s := dmaIn {}
     let q := rq ([31, 0, 0, 0] ++ b32 16777215 ++ b64 0x100000000 ++ b64 0xFFFFFFFFFF ++ b64 0xFFFFFFFFF8)
     Served Cmd.dmaSetup 0 q s ∧ uAt q.payload 0 1 = 31 ∧ uAt q.payload 2 2 = 0 ∧ uAt q.payload 1 1 = 0 ∧ uAt q.payload 4 4 = 16777215 ∧
      uAt q.payload 8 8 = 0x100000000 ∧ uAt q.payload 16 8 = 0xFFFFFFFFFF ∧ uAt q.payload 24 8 = 0xFFFFFFFFF8 ∧ (s.chan 31).busy = false ∧
      ((after (.dmaSetup 0 q) s).chan 31).count = 16777215 ∧ Served Cmd.dmaSetup 0 q (dmaIn { state := dmaParked }) ∧
      ((dmaIn { state := dmaParked }).chan 31).busy = true ∧ status (after (.dmaSetup 0 q) (dmaIn { state := dmaParked })) = St.dmaBusy) ∧
    (let s := dmaIn { src := 0x100000000, dst := 0x100001000, count := 8 }
     let q := rq [31, 0, 0, 0]
     let r := dmaIn { state := dmaRunning, ctrl := 32 + 2 }
     let w := dmaIn { state := dmaParked, ctrl := 32 + 2 }
     Served Cmd.dmaStart 0 q s ∧ uAt q.payload 1 3 = 0 ∧ (s.chan 31).busy = false ∧ ((after (.dmaStart 0 q) s).chan 31).state = dmaRunning ∧
      Served Cmd.dmaStart 0 q r ∧ (r.chan 31).busy = true ∧
      Served Cmd.dmaAppend 0 q w ∧ (w.chan 31).state = dmaParked ∧ (w.chan 31).isOpen = true ∧ ((after (.dmaAppend 0 q) w).chan 31).tail = 1 ∧
      Served Cmd.dmaClose 0 q r ∧ (r.chan 31).isOpen = true ∧ ((after (.dmaClose 0 q) r).chan 31).ctrl = 2 ∧
      Served Cmd.dmaClose 0 q w ∧ ((after (.dmaClose 0 q) w).chan 31).state = dmaDone ∧
      Served Cmd.dmaAbort 0 q w ∧ ((after (.dmaAbort 0 q) w).chan 31).status = St.dmaAborted) ∧
    (let s := dmaIn {}
     let q := rq ([31, 1] ++ b16 255 ++ zeros 4 ++ [1, 2, 3, 4, 5, 6, 7, 8])
     let f := rq ([31, 1] ++ b16 256 ++ zeros 4 ++ zeros 8)
     MemInv s ∧ Served Cmd.dmaListWrite 0 q s ∧ uAt q.payload 1 1 = 1 ∧ uAt q.payload 4 4 = 0 ∧ uAt q.payload 2 2 + 1 ≤ 256 ∧
      memRead (after (.dmaListWrite 0 q) s).mem.sram 0x3F3FF8 8 = [1, 2, 3, 4, 5, 6, 7, 8] ∧
      Served Cmd.dmaListWrite 0 f s ∧ 256 < uAt f.payload 2 2 + 1 ∧ status (after (.dmaListWrite 0 f) s) = St.windowExceeded) ∧
    (let c : DmaCh := { state := dmaRunning, ctrl := 32 + 2, list := 0x3F3800, run := { entryAddr := 0x3F3FF8 } }
     let s := dmaIn c
     c.state = dmaRunning ∧ c.mode ≠ 0 ∧ c.run.inSeg = false ∧ addrDown s c.run.entryAddr = false ∧
      listOk s 31 c.list c.run.entryAddr = true ∧ winOf s c.run.entryAddr = some .sram ∧
      uAt (memRead s.mem.sram c.run.entryAddr 8) 5 3 = 0 ∧ c.isOpen = true ∧ c.retried = false ∧ 31 ≠ spillCh ∧
      ((after (.dmaEntryRead 0 31 {}) s).chan 31).state = dmaParked ∧
      ((after (.dmaEntryRead 0 31 { read := .failed }) s).chan 31).retried = true ∧
      { c with ctrl := 2 : DmaCh }.isOpen = false ∧ ((after (.dmaEntryRead 0 31 {}) (dmaIn { c with ctrl := 2 })).chan 31).state = dmaDone) ∧
    ((dmaIn {}).chan 31).state ≠ dmaRunning ∧
    (let c : DmaCh := { state := dmaRunning, run := { src := 0x3FFF00, dst := 0x100000000, left := 257, inSeg := true } }
     let s := dmaIn c
     MemInv s ∧ dmaTurn s 31 = true ∧ s.dma.buffer = [] ∧ c.held = false ∧ c.retried = false ∧ winOf s c.run.src = some .sram ∧ winOf s c.run.dst = some .ddr ∧ 256 < c.run.left ∧
      ((after (.dmaBurst 0 31 [] .corrected) s).chan 31).bytes = 256 ∧ (after (.dmaBurst 0 31 [] .corrected) s).ev.eccCorrected = 1 ∧
      ((after (.dmaBurst 0 31 [] .failed) s).chan 31).retried = true ∧
      ((after (.dmaBurst 0 31 [] .failed) (dmaIn { c with retried := true })).chan 31).status = St.dmaReadError ∧
      -- channel 30 waits, and channel 31 was served last
      (let w := { s with dma := { s.dma with chans := [(30, c), (31, c)], served := [31] } }
       dmaTurn w 31 = false ∧ ((after (.dmaBurst 0 31 [] .good) w).chan 31).bytes = 0)) := by
  repeat' apply And.intro
  all_goals first | exact memInv_empty rfl rfl rfl | exact served_of (by decide +kernel) | decide +kernel

/-! ### Witnesses: shavings, truing and the JTAG port -/

theorem test_witness_ShavingsFreezeAndCommit :
    (let s := inState .config
     Served Cmd.shavingsFreeze 0 (rq []) s ∧ s.ev.freeze = none ∧
      (after (.shavingsFreeze 0 (rq [])) s).ev.freeze.map (·.trigger) = some 6) ∧
    (let f : Freeze := { trigger := 6, stamp := 0, source := 0, slot := 1, commitSeq := 1, protected_ := false, records := [], rows := [], mbs := [],
                         mode := 3, planId := 0, fwVersion := 0, ident := 0, begins := 9, tick := 0, rate := 0, select := [], dropped := 0 }
     let s := { inState .config with ev := { freeze := some f } }
     let w := { s with time := { now := 9 * nsU } }
     s.ev.freeze = some f ∧ nowNs s < f.begins ∧ (after (.shavingsCommitDone 0) s).ev.freeze = some f ∧ w.ev.freeze = some f ∧ f.begins ≤ nowNs w ∧ (tget s.host.evRoute 0 Ev.shavingsCommitted).toNat % 4 ≠ 3) ∧
    (inState .config).ev.freeze = none := by
  repeat' apply And.intro
  all_goals first | exact served_of (by decide +kernel) | decide +kernel

/-- Readings of a pass. -/
def passReadings : TruingReadings :=
  { slackPs := 0, fMax := [3, 9], stretched := false, voltageConfirmed := true, refDrift := 0,
    bandgapDrift := 0, mramMargin := 0, slowdown := 0, lifeLimit := 0, eyes := [] }

/-- A pass runs since the start of device time; so many ms have passed, and each engine has completed so many stress clocks. -/
def passing (ms clocks : Nat) : State :=
  { inState .config with time := { now := ms * 1000000 * nsU },
                         tru := { running := true, stress := (List.range 16).map (fun e => (e, clocks)) } }

/-- R622: a watchdog reset in a repeated SSI request makes its failure lasting, and the record of the reset follows. -/
theorem test_watchdog_in_retry :
    ((raiseOnly (endRetries { inState .config with loc := { ssis := [(0, { request := some (0, 2) })] } })
      { source := Ev.sysWatchdog, cls := Cls.device }).ev.records.map (fun e => (e.source, e.flags))) =
      [(Ev.ssiInvalid, 2), (Ev.sysWatchdog, 0)] := by decide +kernel

/-- R635: with k = 100 and a limit of 800, t = 8⁴ = 4,096 h; 3,840 h are left, which are 4 tenths of a year of 8,760 h. -/
theorem test_lifeLeft : lifeLeft [(0, 0), (256, 400)] 256 800 = 4 ∧ lifeLeft [(100, 1), (267, 400)] 267 800 = 0xFFFF := by decide +kernel

/-- R634: a candidate of 10 % more is adopted, one of less is not. -/
theorem test_betterEq :
    betterEq { lane := 0, height := 100, width := 1, candidate := some (7, 110, 2) } = some (7, 110, 2) ∧
    betterEq { lane := 0, height := 100, width := 1, candidate := some (7, 109, 2) } = none := by decide

theorem test_witness_TruingAndBoundaryScan :
    (Served Cmd.truingRun 0 (rq []) (inState .config) ∧ (inState .config).tru.running = false ∧
      (after (.truingRun 0 (rq [])) (inState .config)).tru.running = true ∧
      Served Cmd.truingRun 0 (rq []) { inState .config with tru := { running := true } }) ∧
    (let s := { inState .config with time := { now := 3600 * secU } }
     s.tru.running = false ∧ 2 ≤ modeCode s.dev.mode ∧ s.tru.lastEnd + passGap s ≤ s.time.now ∧
      (after (.truingPassStart 0) s).tru.running = true) ∧
    (let s := passing 200 16383
     s.tru.running = true ∧ s.tru.lanesOnly = false ∧ passOver (stressSync s) = true ∧ stressDone (stressSync s) = false ∧
      (after (.truingPassEnd 0 passReadings) s).tru.cause = 2) ∧
    (let s := passing 1 16384
     passOver (stressSync s) = true ∧ stressDone (stressSync s) = true ∧ passReadings.voltageConfirmed = true ∧ s.plan.active = none ∧
      s.plan.armed = none ∧ s.cyc.running = false ∧ (after (.truingPassEnd 0 passReadings) s).tru.cause = 0 ∧
      (after (.truingPassEnd 0 passReadings) s).tru.derating = 30500) ∧
    (let s := passing 199 0
     passOver (stressSync s) = false ∧ (after (.truingPassEnd 0 passReadings) s).tru.running = true ∧ powered s = true ∧
      parN s Par.pfailSource 0 = 0 ∧ (after (.powerFail 0 true) s).tru.cause = 3 ∧ (after (.powerFail 0 true) s).tru.running = false) ∧
    (let c : PendCmd := { code := Cmd.truingRun, mb := 1, tag := 7 }
     let s := { passing 200 0 with pend := [c] }
     MemInv s ∧ passOver (stressSync s) = true ∧ s.plan.armed = none ∧ s.dev.mbReady = true ∧ s.host.notices = [] ∧ rspFree s 7 = true ∧
      s.pend.filter (fun x => x.code == Cmd.truingRun && x.key == 0) = [c]) ∧
    (let s := { inState .config with tru := { step := some (755, 0, false) }, time := { now := 1000000 * nsU } }
     let r := { s with tru := { step := some (755, 0, true) } }
     s.tru.step = some (755, 0, false) ∧ 0 + 1000000 * nsU ≤ s.time.now ∧ (after (.avsReadback 0 765) s).tru.mvConfirmed = 755 ∧
      (after (.avsReadback 0 766) s).tru.step.isSome = true ∧ r.tru.step = some (755, 0, true) ∧
      (after (.avsReadback 0 766) r).tru.step = none ∧ (inState .config).tru.step = none) ∧
    (let s := { inState .config with power := { resetLow := true } }
     s.dev.mode ≠ .off ∧ s.dev.mode ≠ .standby ∧
      (after (.boundaryScanInstruction 0 .extest [(3, true), (10, true)]) s).drivenBalls = [(10, true)] ∧
      (after (.boundaryScanInstruction 0 .bypass []) s).drivenBalls = []) ∧
    (inState .off).dev.mode = .off := by
  repeat' apply And.intro
  all_goals first | exact memInv_empty rfl rfl rfl | exact served_of (by decide +kernel) | decide +kernel

/-! ### The spec's worked examples -/

/-- The encodings that spec/09_loop_engine_isa.md writes out. -/
theorem test_decodeWord :
    decodeWord 0x090010C95213 = some (.asub 0 1, .ldX 6 .inc 5, .ldX 1 .keep 3) ∧
    decodeWord 0x300800002010 = some (.brc 1 0x2010, .none, .none) ∧
    decodeWord 0x2F000042BE2A = some (.done, .stX 2 .keep 11, .stX 7 .keep 10) ∧
    decodeWord 0x350000000000 = some (.rep 65536, .none, .none) ∧ decodeWord 0x3403E8000000 = some (.rep 1000, .none, .none) := by
  decide +kernel

/-- Steps of the worked law block of spec/09_loop_engine_isa.md: the scaled and clamped error, and the torque. -/
theorem test_worked_law_block :
    ((ran (.asub 15 0 1 .none .none) (eng (regs0 0 0 0 205520896 205488128 0 []))).regs.ar 0).toInt = 32768 ∧
    ((ran (.ashl 15 0 27 .none .none) (eng (regs0 0 0 0 32768 0 0 []))).regs.ar 0).toInt = 2 ^ 42 ∧
    (ran (.xhi 15 7 0 .none .none) (eng (regs0 0 0 0 (2 ^ 42) 0 0 []))).regs.xr 7 = 0x040000 ∧
    ((ran (.pset 15 1 false 0 1 .none .none) (eng (regs0 0x400000 0x040000 0 0 0 0 []))).regs.ar 1).toInt = 0x020000 * 2 ^ 24 ∧
    16 * ((ran (.pacc 15 0 false 0 1 .none .none) (eng (regs0 0x0147AE 0x040000 0 0 0 0 []))).regs.ar 0).toInt = 41943 * 2 ^ 24 ∧
    (ran (.xhir 15 3 0 .none .none) (eng (regs0 0 0 0 (199229 * 2 ^ 24 + 0x700000) 0 0 []))).regs.xr 3 = 199229 := by
  decide +kernel

/-- The compare value of the worked example of spec/11_local_pwm.md, and the default of R701. -/
theorem test_worked_values : compareOf (8388608 / 4) 12500 = 31250 ∧ pDefault Par.homeCreep = 1677722 := by decide +kernel

/-- Axis 1 of the plan runs in mode 4 on slot 0; timer 0 counts up from a boundary with a compare value, and so much time has passed. -/
def carrier (fine : Nat) : State :=
  withPars [(Par.axisMode, 1, 4)]
    { withPlan planUser (running .operational) with
      time := { now := fine * fineU },
      pwm := { timers := [(0, { running := true, up := true, boundAt := 0, nextAt := 12500 * stepU, compares := [31250, 31250, 31250],
                                pairs := [{ source := 3, ideal := true }, {}, {}] })] } }

/-- The pair of the worked example of spec/11_local_pwm.md: H turns off 31,250 fine steps after the boundary, L turns on 500 ns later. -/
theorem test_worked_dead_time :
    pwmLevels (carrier 31249) 0 = (.on, .off) ∧ pwmLevels (carrier 31250) 0 = (.off, .off) ∧
    pwmLevels (carrier 32049) 0 = (.off, .off) ∧ pwmLevels (carrier 32050) 0 = (.off, .on) := by decide +kernel

/-- The levels at the end of that half and after the trip of the example, with all safe levels off. -/
theorem test_worked_trip :
    let s := withPars [(Par.axisMode, 1, 4), (Par.tripMap, 1, 1)] (carrier 31520)
    pwmLevels (after (.tripInput 0 1 true) s) 0 = (.off, .off) ∧
      ((after (.pwmUpdatePoint 0) (carrier 50000)).timer 0).boundAt = 25000 * stepU ∧
      (((after (.pwmUpdatePoint 0) (carrier 50000)).timer 0).pairs.map (·.source)) = [4, 4, 4] := by decide +kernel

end Sys2Proof.Tests
end

