-- ==== Sys2Proof/Proofs/Kept.lean ====
section
/-! What no command changes (R9): the queue behind the command that runs, and the variant, which alone gives the capability
words. One `@[simp]` lemma for each function of the model says that it keeps both; the rules for the shapes the functions share come
first. What holds by unfolding is proved `by rfl` and not as a definitional lemma, so that `simp` can use it under the binder of `kept_foldl`. -/

namespace Sys2Proof.Machine

/-- What no command changes (R9): the queue behind the command that runs, and the variant, which gives the capability words. -/
def State.kept (s : State) : List Instr × Variant := (s.pending, s.board.variant)

/-- A record update of other units keeps both; the two parts of one state fold back. -/
@[simp] theorem kept_fold (s : State) : (s.pending, s.board.variant) = s.kept := by rfl

@[simp] theorem kept_mk (board dev host par plan cyc rings axes groups disp pwm loc time cal dma safe pair ev tru power jtag mem pend free
    pending) : State.kept ⟨board, dev, host, par, plan, cyc, rings, axes, groups, disp, pwm, loc, time, cal, dma, safe, pair, ev, tru, power, jtag, mem,
      pend, free, pending⟩ = (pending, board.variant) := by rfl

@[simp] theorem kept_ite (p : Prop) [Decidable p] (s t : State) : (if p then s else t).kept = if p then s.kept else t.kept :=
  apply_ite State.kept p s t

/-- A loop of changes that keep both keeps both. -/
@[simp] theorem kept_foldl {α : Type} (f : State → α → State) (h : ∀ s x, (f s x).kept = s.kept) (l : List α) (s : State) :
    (l.foldl f s).kept = s.kept := by
  induction l generalizing s with
  | nil => rfl
  | cons x l ih => rw [List.foldl_cons, ih, h]

/-- What the state of a reply keeps; a refusal leaves the state `s`. -/
def Reply.kept (s : State) : Reply → List Instr × Variant
  | .ok t _ | .pend t | .later t | .errWith t _ _ => t.kept
  | .err _ _ => s.kept

@[simp] theorem Reply.kept_ok (s t : State) (p : Bytes) : (Reply.ok t p).kept s = t.kept := by rfl
@[simp] theorem Reply.kept_pend (s t : State) : (Reply.pend t).kept s = t.kept := by rfl
@[simp] theorem Reply.kept_later (s t : State) : (Reply.later t).kept s = t.kept := by rfl
@[simp] theorem Reply.kept_err (s : State) (st : Nat) (p : Bytes) : (Reply.err st p).kept s = s.kept := by rfl
@[simp] theorem Reply.kept_errWith (s t : State) (st : Nat) (p : Bytes) : (Reply.errWith t st p).kept s = t.kept := by rfl
/-- Replies are compared with states that keep the same. -/
theorem Reply.kept_congr {s u : State} (h : u.kept = s.kept) (r : Reply) : r.kept u = r.kept s := by
  cases r with
  | err st p => exact h
  | _ => rfl
@[simp] theorem Reply.kept_ite (s : State) (p : Prop) [Decidable p] (r r' : Reply) :
    (if p then r else r').kept s = if p then r.kept s else r'.kept s := apply_ite (Reply.kept s) p r r'
@[simp] theorem need_kept (s : State) (c : Bool) (r : Reply) : (need c r).kept s = if c then r.kept s else s.kept := by
  cases c <;> rfl
@[simp] theorem orElse_kept (s : State) (c : Bool) (st : Nat) (r : Reply) : (orElse c st r).kept s = if c then r.kept s else s.kept := by
  cases c <;> rfl
@[simp] theorem inst_kept (s : State) (n full have_ : Nat) (r : Reply) :
    (inst n full have_ r).kept s = if full ≤ n ∨ have_ ≤ n then s.kept else r.kept s := by
  by_cases h : full ≤ n <;> simp [inst, h]

/-! ### Machine/Ops -/

@[simp] theorem advance_kept (n : Nat) (s : State) : (advance n s).kept = s.kept := by
  obtain ⟨t, h⟩ := advance_frame n s
  rw [h]; rfl

@[simp] theorem advanceTo_kept (at_ : Nat) (s : State) : (advanceTo at_ s).kept = s.kept := by
  simp [advanceTo]

@[simp] theorem parSet_kept (s : State) (n i : Nat) (v : Int) : (parSet s n i v).kept = s.kept := by rfl

@[simp] theorem parPromote_kept (s : State) (sel : Nat → Nat → Bool) (e : Eff) : (parPromote s sel e).kept = s.kept := by
  simp [parPromote]

@[simp] theorem State.onAxis_kept (s : State) (a : Nat) (f : Axis → Axis) : (State.onAxis s a f).kept = s.kept := by rfl

@[simp] theorem State.onRing_kept (s : State) (r : Nat) (f : Ring → Ring) : (State.onRing s r f).kept = s.kept := by rfl

@[simp] theorem State.onLong_kept (s : State) (i : Nat) (f : TaskLong → TaskLong) : (State.onLong s i f).kept = s.kept := by rfl

@[simp] theorem State.onEngine_kept (s : State) (e : Nat) (f : Engine → Engine) : (State.onEngine s e f).kept = s.kept := by rfl

@[simp] theorem State.onGroup_kept (s : State) (g : Nat) (f : Group → Group) : (State.onGroup s g f).kept = s.kept := by rfl

@[simp] theorem State.onMbox_kept (s : State) (m : Nat) (f : RingRegs → RingRegs) : (State.onMbox s m f).kept = s.kept := by rfl

@[simp] theorem State.sramWrite_kept (s : State) (a : Nat) (b : Bytes) : (State.sramWrite s a b).kept = s.kept := by rfl

/-! ### Machine/Events -/

@[simp] theorem sendMsix_kept (s : State) (v : Nat) : (sendMsix s v).kept = s.kept := by
  simp [sendMsix]

@[simp] theorem ctrlIrq_kept (s : State) (ctrl : BitVec 7) : (ctrlIrq s ctrl).kept = s.kept := by
  simp [ctrlIrq]

@[simp] theorem reportEvent_kept (s : State) (src : Nat) : (reportEvent s src).kept = s.kept := by
  simp [reportEvent]

@[simp] theorem driveBus_kept (s : State) (line at_ : Nat) : (driveBus s line at_).kept = s.kept := by rfl

@[simp] theorem acceptTrigger_kept (s : State) (stamp src : Nat) : (acceptTrigger s stamp src).kept = s.kept := by
  unfold acceptTrigger; dsimp only; repeat' split
  all_goals simp

@[simp] theorem raiseLine_kept (s : State) (source ns : Nat) : (raiseLine s source ns).kept = s.kept := by
  unfold raiseLine; repeat' split
  all_goals simp

@[simp] theorem record_kept (s0 : State) (r : Raise) : (record s0 r).kept = s0.kept := by
  unfold record; dsimp only; repeat' split
  all_goals simp

@[simp] theorem freezeRecord_kept (s : State) (trigger source ns : Nat) : (freezeRecord s trigger source ns).kept = s.kept := by
  unfold freezeRecord; split <;> simp

@[simp] theorem commitFrozen_kept (s : State) (f : Freeze) : (commitFrozen s f).kept = s.kept := by
  simp [commitFrozen]

@[simp] theorem raiseOnly_kept (s : State) (r : Raise) : (raiseOnly s r).kept = s.kept := by
  simp [raiseOnly]

@[simp] theorem countTransient_kept (s : State) (kind : Nat) : (countTransient s kind).kept = s.kept := by
  simp [countTransient]

@[simp] theorem transient_kept (s : State) (kind : Nat) (r : Raise) : (transient s kind r).kept = s.kept := by
  simp [transient]

/-! ### Machine/Mailbox -/

@[simp] theorem useStamp_kept (s : State) (t : Nat) : (useStamp s t).kept = s.kept := by rfl

@[simp] theorem postEntry_kept (s : State) (m : Nat) (entry : Bytes) : (postEntry s m entry).kept = s.kept := by
  simp [postEntry]

@[simp] theorem notify_kept (s : State) (code tag status : Nat) (payload : Bytes) : (notify s code tag status payload).kept = s.kept := by
  simp [notify]

@[simp] theorem postNotice_kept (s : State) : (postNotice s).kept = s.kept := by
  unfold postNotice; split <;> simp

@[simp] theorem addPend_kept (s : State) (code : Nat) (q : Request) (key : Nat) : (addPend s code q key).kept = s.kept := by rfl

@[simp] theorem finish_kept (s : State) (code key status : Nat) (payload : Bytes) : (finish s code key status payload).kept = s.kept := by
  simp [finish]

@[simp] theorem finishOne_kept (s : State) (code status : Nat) (payload : Bytes) : (finishOne s code status payload).kept = s.kept := by
  unfold finishOne; split <;> simp

@[simp] theorem finishThis_kept (s : State) (p : PendCmd) (status : Nat) : (finishThis s p status).kept = s.kept := by
  simp [finishThis]

@[simp] theorem takeTurn_kept (s : State) (m : Nat) : (takeTurn s m).kept = s.kept := by
  simp [takeTurn]

@[simp] theorem respond_kept (s : State) (code : Nat) (q : Request) (status stamp : Nat) (payload : Bytes) :
    (respond s code q status stamp payload).kept = s.kept := by
  simp [respond]

@[simp] theorem noteRequest_kept (s : State) (code : Nat) (q : Request) : (noteRequest s code q).kept = s.kept := by
  unfold noteRequest; split <;> simp

@[simp] theorem serve_kept (code : Nat) (body : State → Request → Nat → Reply) (dt : Nat) (q : Request) (s0 : State)
    (h : ∀ s q t, (body s q t).kept s = s.kept) : (serve code body dt q s0).kept = s0.kept := by
  unfold serve
  dsimp only
  split
  · simp
  · split
    · simp
    · generalize nextStamp _ = t
      have hb := h (useStamp (noteRequest (advance dt s0) code q) t) q t
      split <;> simp_all

@[simp] theorem respondLater_kept (s : State) (mb code status : Nat) (payload : Bytes) :
    (respondLater s mb code status payload).kept = s.kept := by
  unfold respondLater; split <;> simp

/-! ### Machine/Plan -/

@[simp] theorem takeOutputs_kept (n : Nat) (s : State) : (takeOutputs n s).kept = s.kept := by rfl

@[simp] theorem snapBefore_kept (s : State) : (snapBefore s).kept = s.kept := by
  unfold snapBefore; split <;> simp

@[simp] theorem snapAgain_kept (s : State) : (snapAgain s).kept = s.kept := by
  unfold snapAgain; split <;> simp

@[simp] theorem State.onNode_kept (s : State) (r p : Nat) (f : Node → Node) : (State.onNode s r p f).kept = s.kept := by rfl

/-! ### Machine/RingConf -/

@[simp] theorem pushService_kept (r p : Nat) (sv : Acyclic) (s : State) : (pushService r p sv s).kept = s.kept := by rfl

@[simp] theorem configureNode_kept (r p joined : Nat) (s : State) : (configureNode r p joined s).kept = s.kept := by rfl

@[simp] theorem sendCentral_kept (a : Nat) (s : State) : (sendCentral a s).kept = s.kept := by
  unfold sendCentral; split <;> simp

/-! ### Machine/MotionOps -/

@[simp] theorem stopAt_kept (s : State) (a : Nat) (keep : Bool) (t : Nat) : (stopAt s a keep t).kept = s.kept := by
  simp [stopAt]

@[simp] theorem wakeMember_kept (t : Nat) (s : State) (a : Nat) : (wakeMember t s a).kept = s.kept := by
  simp [wakeMember]

@[simp] theorem startPath_kept (s : State) (n t : Nat) (m : GMove) (dist : State → Group → List Int) :
    (startPath s n t m dist).kept = s.kept := by
  simp [startPath]

@[simp] theorem followGroup_kept (s : State) (n : Nat) : (followGroup s n).kept = s.kept := by
  unfold followGroup
  refine kept_foldl _ (fun s x => ?_) _ _
  split <;> simp

@[simp] theorem waitAxis_kept (a stamp : Nat) (c : MotionCmd) (s : State) : (waitAxis a stamp c s).kept = s.kept := by rfl

@[simp] theorem waitGroup_kept (g stamp : Nat) (c : MotionCmd) (s : State) : (waitGroup g stamp c s).kept = s.kept := by rfl

@[simp] theorem disabledNow_kept (s : State) (a : Nat) : (disabledNow s a).kept = s.kept := by
  simp [disabledNow]

@[simp] theorem abortEnable_kept (s : State) (a : Nat) (status : Nat) : (abortEnable s a status).kept = s.kept := by
  unfold abortEnable; split <;> simp

@[simp] theorem requestStop_kept (keep disable : Bool) (s : State) (a : Nat) : (requestStop keep disable s a).kept = s.kept := by
  unfold requestStop; repeat' split
  all_goals simp

@[simp] theorem faultStop_kept (s : State) (a : Nat) : (faultStop s a).kept = s.kept := by
  unfold faultStop; split <;> simp

@[simp] theorem leaveSource_kept (s : State) (a : Nat) : (leaveSource s a).kept = s.kept := by
  simp [leaveSource]

@[simp] theorem stoDisable_kept (s : State) (a : Nat) : (stoDisable s a).kept = s.kept := by
  unfold stoDisable; repeat' split
  all_goals simp

/-! ### Machine/Reactions -/

@[simp] theorem cancelPlan_kept (s : State) : (cancelPlan s).kept = s.kept := by
  unfold cancelPlan; split <;> simp

@[simp] theorem abortEnables_kept (s : State) : (abortEnables s).kept = s.kept := by
  simp [abortEnables]

@[simp] theorem changeState_kept (s : State) (m : DevMode) : (changeState s m).kept = s.kept := by
  simp [changeState]

@[simp] theorem cancelTransitions_kept (s : State) : (cancelTransitions s).kept = s.kept := by
  unfold cancelTransitions; dsimp only; repeat' split
  all_goals simp

@[simp] theorem enterSafeHold_kept (s : State) : (enterSafeHold s).kept = s.kept := by
  unfold enterSafeHold; split <;> simp

@[simp] theorem enterFault_kept (s : State) : (enterFault s).kept = s.kept := by
  unfold enterFault; split <;> simp

@[simp] theorem raiseDevice_kept (s : State) (r : Raise) (trigger : Nat) : (raiseDevice s r trigger).kept = s.kept := by
  simp [raiseDevice]

@[simp] theorem countFault_kept (s : State) (ns : Nat) : (countFault s ns).kept = s.kept := by
  simp [countFault]

@[simp] theorem noteAxisFault_kept (s : State) (src a : Nat) (cause : Nat) (detail : Bytes) (flags : Nat) :
    (noteAxisFault s src a cause detail flags).kept = s.kept := by
  simp [noteAxisFault]

@[simp] theorem raiseAxis_kept (s : State) (src a : Nat) (cause : Nat) (detail : Bytes) (flags : Nat) :
    (raiseAxis s src a cause detail flags).kept = s.kept := by
  simp [raiseAxis]

@[simp] theorem raiseGroup_kept (s : State) (src kind inst g : Nat) (flags : Nat) :
    (raiseGroup s src kind inst g flags).kept = s.kept := by
  simp [raiseGroup]

@[simp] theorem raiseWarn_kept (s : State) (src : Nat) (kind : Nat) (inst : Nat) (cause : Nat) (detail : Bytes) (flags : Nat) :
    (raiseWarn s src kind inst cause detail flags).kept = s.kept := by
  simp [raiseWarn]

@[simp] theorem raiseInfo_kept (s : State) (src : Nat) (kind : Nat) (inst : Nat) (cause : Nat) (detail : Bytes) :
    (raiseInfo s src kind inst cause detail).kept = s.kept := by
  simp [raiseInfo]

@[simp] theorem eccFixed_kept (s : State) : (eccFixed s).kept = s.kept := by rfl

@[simp] theorem eccCleared_kept (s : State) (kind : Nat) (of inst : Nat) : (eccCleared s kind of inst).kept = s.kept := by
  simp [eccCleared]

@[simp] theorem noteRead_kept (s : State) (kind : Nat) (ecc : EccRead) (of inst : Nat) : (noteRead s kind ecc of inst).kept = s.kept := by
  unfold noteRead; split <;> simp

@[simp] theorem eccDevice_kept (s : State) : (eccDevice s).kept = s.kept := by
  simp [eccDevice]

@[simp] theorem withRead_kept (code : Nat) (body : State → Request → Nat → Reply) (lost : State → Request → State) (s : State) (q : Request) (t :
    Nat)
    (h : ∀ s, (body s q t).kept s = s.kept) (hl : ∀ s, (lost s q).kept = s.kept) : (withRead code body lost s q t).kept s = s.kept := by
  have hb := h s
  unfold withRead
  split
  · rfl
  · simp_all
  · simp [hl]
  · exact hb
  · rw [← Reply.kept_congr (noteRead_kept s 6 q.ecc 0 0), h, noteRead_kept]

/-! ### Machine/Motion -/

@[simp] theorem withMover_kept (s : State) (p : Bytes) (k : Mover → Reply) (h : ∀ m, (k m).kept s = s.kept) :
    (withMover s p k).kept s = s.kept := by
  simp only [withMover, need_kept]
  split
  · split <;> simp [h]
  · rfl

@[simp] theorem moveBody_kept (rel : Bool) (s : State) (q : Request) (t : Nat) : (moveBody rel s q t).kept s = s.kept := by
  unfold moveBody; dsimp only; repeat' split
  all_goals simp

@[simp] theorem stopBody_kept (s : State) (q : Request) (t : Nat) : (stopBody s q t).kept s = s.kept := by
  unfold stopBody
  refine withMover_kept _ _ _ (fun m => ?_)
  split <;> simp

@[simp] theorem holdBody_kept (s : State) (q : Request) (t : Nat) : (holdBody s q t).kept s = s.kept := by
  unfold holdBody
  refine withMover_kept _ _ _ (fun m => ?_)
  split <;> simp

@[simp] theorem resumeBody_kept (s : State) (q : Request) (t : Nat) : (resumeBody s q t).kept s = s.kept := by
  unfold resumeBody
  refine withMover_kept _ _ _ (fun m => ?_)
  split <;> simp

@[simp] theorem homeBody_kept (s0 : State) (q : Request) (t : Nat) : (homeBody s0 q t).kept s0 = s0.kept := by
  simp [homeBody]

@[simp] theorem endHoming_kept (s : State) (a status : Nat) (h : Homing) : (endHoming s a status h).kept = s.kept := by
  simp [endHoming]

@[simp] theorem checkBundled_kept (s : State) (g : Nat) : (checkBundled s g).kept = s.kept := by
  simp [checkBundled]

@[simp] theorem groupDefineBody_kept (s : State) (q : Request) (t : Nat) : (groupDefineBody s q t).kept s = s.kept := by
  simp [groupDefineBody]

@[simp] theorem startGroupQueued_kept (s : State) (n : Nat) (t : Nat) : (startGroupQueued s n t).kept = s.kept := by
  unfold startGroupQueued; dsimp only; repeat' split
  all_goals simp

@[simp] theorem groupMoveBody_kept (s : State) (q : Request) (t : Nat) : (groupMoveBody s q t).kept s = s.kept := by
  simp [groupMoveBody]; split <;> simp

@[simp] theorem groupLimitsBody_kept (s : State) (q : Request) (t : Nat) : (groupLimitsBody s q t).kept s = s.kept := by
  unfold groupLimitsBody; dsimp only; repeat' split
  all_goals simp

@[simp] theorem motionStatusBody_kept (s : State) (q : Request) (t : Nat) : (motionStatusBody s q t).kept s = s.kept := by
  unfold motionStatusBody
  refine withMover_kept _ _ _ (fun m => ?_)
  split <;> simp

@[simp] theorem homingEdge_kept (s : State) (a : Nat) (sw : Switch) (w : SwitchSt) (h0 : Homing) :
    (homingEdge s a sw w h0).kept = s.kept := by
  unfold homingEdge; dsimp only; repeat' split
  all_goals simp

@[simp] theorem limitStop_kept (s : State) (a : Nat) (v : Int) (sw : Switch) : (limitStop s a v sw).kept = s.kept := by
  unfold limitStop; repeat' split
  all_goals simp

@[simp] theorem wakePath_kept (s : State) (a start : Nat) : (wakePath s a start).kept = s.kept := by
  unfold wakePath; split <;> simp

/-! ### Machine/AxisCmd -/

@[simp] theorem syncSwitches_kept (s : State) (a : Nat) : (syncSwitches s a).kept = s.kept := by
  unfold syncSwitches
  refine kept_foldl _ (fun s x => ?_) _ _
  split <;> simp

@[simp] theorem promoteEnable_kept (s : State) (a : Nat) : (promoteEnable s a).kept = s.kept := by
  simp [promoteEnable]

@[simp] theorem axisEnableBody_kept (s0 : State) (q : Request) (t : Nat) : (axisEnableBody s0 q t).kept s0 = s0.kept := by
  simp [axisEnableBody]

@[simp] theorem axisDisableBody_kept (s : State) (q : Request) (t : Nat) : (axisDisableBody s q t).kept s = s.kept := by
  unfold axisDisableBody; dsimp only; repeat' split
  all_goals simp

@[simp] theorem axisStatusBody_kept (s : State) (q : Request) (t : Nat) : (axisStatusBody s q t).kept s = s.kept := by
  simp [axisStatusBody]

@[simp] theorem axisSourceBody_kept (s : State) (q : Request) (t : Nat) : (axisSourceBody s q t).kept s = s.kept := by
  simp [axisSourceBody]

@[simp] theorem promoteRatio_kept (s : State) (a : Nat) : (promoteRatio s a).kept = s.kept := by rfl

@[simp] theorem gearRatioBody_kept (s0 : State) (q : Request) (t : Nat) : (gearRatioBody s0 q t).kept s0 = s0.kept := by
  simp [gearRatioBody]

@[simp] theorem gearEngageBody_kept (s0 : State) (q : Request) (t : Nat) : (gearEngageBody s0 q t).kept s0 = s0.kept := by
  simp [gearEngageBody]

@[simp] theorem gearDisengageBody_kept (s : State) (q : Request) (t : Nat) : (gearDisengageBody s q t).kept s = s.kept := by
  simp [gearDisengageBody]

@[simp] theorem recordClear_kept (s : State) (kind inst cls src : Nat) : (recordClear s kind inst cls src).kept = s.kept := by
  simp [recordClear]

@[simp] theorem axisFaultClearBody_kept (s : State) (q : Request) (t : Nat) : (axisFaultClearBody s q t).kept s = s.kept := by
  unfold axisFaultClearBody
  refine withMover_kept _ _ _ (fun m => ?_)
  split <;> simp

@[simp] theorem loseFeedback_kept (s : State) (a : Nat) : (loseFeedback s a).kept = s.kept := by
  unfold loseFeedback; split <;> simp

@[simp] theorem loseMaster_kept (s : State) (a : Nat) : (loseMaster s a).kept = s.kept := by
  simp [loseMaster]

/-! ### Machine/TimeCmd -/

@[simp] theorem withTime_kept (s : State) (f : TimeSt → TimeSt) : (withTime s f).kept = s.kept := by
  simp [withTime]

@[simp] theorem shiftSpans_kept (d : Int) (s : State) : (shiftSpans d s).kept = s.kept := by
  simp [shiftSpans]

@[simp] theorem stepTime_kept (s : State) (d : Int) : (stepTime s d).kept = s.kept := by
  simp [stepTime]

@[simp] theorem State.onPort_kept (s : State) (n : Nat) (f : PlantPort → PlantPort) : (State.onPort s n f).kept = s.kept := by rfl

@[simp] theorem timeReadBody_kept (s : State) (q : Request) (t : Nat) : (timeReadBody s q t).kept s = s.kept := by rfl

@[simp] theorem timeSetBody_kept (s : State) (q : Request) (t : Nat) : (timeSetBody s q t).kept s = s.kept := by
  unfold timeSetBody; dsimp only; repeat' split
  all_goals simp

@[simp] theorem timeTrimBody_kept (s : State) (q : Request) (t : Nat) : (timeTrimBody s q t).kept s = s.kept := by
  unfold timeTrimBody; split <;> simp

@[simp] theorem leaveSlave_kept (s : State) (n st : Nat) : (leaveSlave s n st).kept = s.kept := by
  simp [leaveSlave]

@[simp] theorem newPortState_kept (s : State) (n st : Nat) : (newPortState s n st).kept = s.kept := by
  simp [newPortState]

@[simp] theorem servo_kept (s : State) (offset ratePpb : Int) : (servo s offset ratePpb).kept = s.kept := by
  simp [servo]

@[simp] theorem ptpConfigBody_kept (s : State) (q : Request) (t : Nat) : (ptpConfigBody s q t).kept s = s.kept := by
  simp [ptpConfigBody]

@[simp] theorem ptpStatusBody_kept (s : State) (q : Request) (t : Nat) : (ptpStatusBody s q t).kept s = s.kept := by
  simp [ptpStatusBody]

@[simp] theorem State.drain_kept (s : State) (n : Nat) : (State.drain s n).kept = s.kept := by rfl

@[simp] theorem plantTxBody_kept (s : State) (q : Request) (t : Nat) : (plantTxBody s q t).kept s = s.kept := by
  unfold plantTxBody; dsimp only; repeat' split
  all_goals simp

@[simp] theorem State.onTout_kept (s : State) (n : Nat) (f : Tout → Tout) : (State.onTout s n f).kept = s.kept := by rfl

@[simp] theorem toutSetBody_kept (s : State) (q : Request) (t : Nat) : (toutSetBody s q t).kept s = s.kept := by
  unfold toutSetBody; dsimp only; repeat' split
  all_goals simp

@[simp] theorem toutStopBody_kept (s : State) (q : Request) (t : Nat) : (toutStopBody s q t).kept s = s.kept := by
  simp [toutStopBody]

@[simp] theorem clearTouts_kept (s : State) : (clearTouts s).kept = s.kept := by rfl

/-! ### Machine/Dma -/

@[simp] theorem dmaPut_kept (s : State) (hi a : Nat) (b : Bytes) : (dmaPut s hi a b).kept = s.kept := by
  unfold dmaPut; split <;> simp

@[simp] theorem State.onChan_kept (s : State) (c : Nat) (f : DmaCh → DmaCh) : (State.onChan s c f).kept = s.kept := by rfl

@[simp] theorem spillStart_kept (s : State) : (spillStart s).kept = s.kept := by
  unfold spillStart; repeat' split
  all_goals simp

@[simp] theorem spillDone_kept (s : State) : (spillDone s).kept = s.kept := by
  unfold spillDone; split <;> simp

@[simp] theorem dmaComplete_kept (s : State) (ch : Nat) : (dmaComplete s ch).kept = s.kept := by
  simp [dmaComplete]

@[simp] theorem dmaEnd_kept (s : State) (ch status : Nat) : (dmaEnd s ch status).kept = s.kept := by
  simp [dmaEnd]

@[simp] theorem dmaFail_kept (s : State) (ch status : Nat) (flags : Nat) : (dmaFail s ch status flags).kept = s.kept := by
  simp [dmaFail]

@[simp] theorem withChan_kept (s : State) (p : Bytes) (k : Nat → Reply) (h : ∀ ch, (k ch).kept s = s.kept) :
    (withChan p k).kept s = s.kept := by
  simp [withChan, h]

@[simp] theorem dmaSetupBody_kept (s : State) (q : Request) (t : Nat) : (dmaSetupBody s q t).kept s = s.kept := by
  simp [dmaSetupBody]

@[simp] theorem dmaStartBody_kept (s : State) (q : Request) (t : Nat) : (dmaStartBody s q t).kept s = s.kept := by
  simp [dmaStartBody]

@[simp] theorem writeEntries_kept (s : State) (base index : Nat) (p : Bytes) (n : Nat) :
    (writeEntries s base index p n).kept = s.kept := by
  induction n generalizing s with
  | zero => rfl
  | succ n ih => simp [writeEntries, ih]

@[simp] theorem dmaListWriteBody_kept (s : State) (q : Request) (t : Nat) : (dmaListWriteBody s q t).kept s = s.kept := by
  simp [dmaListWriteBody]

@[simp] theorem dmaAppendBody_kept (s : State) (q : Request) (t : Nat) : (dmaAppendBody s q t).kept s = s.kept := by
  simp [dmaAppendBody]

@[simp] theorem dmaCloseBody_kept (s : State) (q : Request) (t : Nat) : (dmaCloseBody s q t).kept s = s.kept := by
  simp [dmaCloseBody]

@[simp] theorem dmaAbortBody_kept (s : State) (q : Request) (t : Nat) : (dmaAbortBody s q t).kept s = s.kept := by
  simp [dmaAbortBody]

@[simp] theorem dmaStatusBody_kept (s : State) (q : Request) (t : Nat) : (dmaStatusBody s q t).kept s = s.kept := by
  simp [dmaStatusBody]

@[simp] theorem dmaPause_kept (s : State) (ch : Nat) : (dmaPause s ch).kept = s.kept := by rfl

@[simp] theorem dropHostDma_kept (s : State) : (dropHostDma s).kept = s.kept := by
  simp [dropHostDma]

@[simp] theorem dmaBegin_kept (s : State) (ch : Nat) : (dmaBegin s ch).kept = s.kept := by
  simp [dmaBegin]

@[simp] theorem dmaReadFails_kept (s : State) (ch a : Nat) : (dmaReadFails s ch a).kept = s.kept := by
  unfold dmaReadFails; split <;> simp

@[simp] theorem dmaRetried_kept (s : State) (ch a : Nat) : (dmaRetried s ch a).kept = s.kept := by
  simp [dmaRetried]

@[simp] theorem dmaRead_kept (s : State) (ch a : Nat) (read : BurstRead) (go : State → State) (h : ∀ s, (go s).kept = s.kept) :
    (dmaRead s ch a read go).kept = s.kept := by
  cases read <;> simp [dmaRead, h]

@[simp] theorem dmaEntry_kept (s : State) (ch : Nat) (seen : EntryRead) : (dmaEntry s ch seen).kept = s.kept := by
  simp [dmaEntry]

@[simp] theorem fetchBurst_kept (s : State) (ch : Nat) (data : Bytes) : (fetchBurst s ch data).kept = s.kept := by
  simp [fetchBurst]

@[simp] theorem drainBurst_kept (s : State) (ch : Nat) : (drainBurst s ch).kept = s.kept := by
  unfold drainBurst; split <;> simp

@[simp] theorem takeDmaTurn_kept (s : State) (ch : Nat) : (takeDmaTurn s ch).kept = s.kept := by
  simp [takeDmaTurn]

@[simp] theorem resumeChans_kept (s : State) : (resumeChans s).kept = s.kept := by
  simp [resumeChans]

/-! ### Machine/Sample -/

@[simp] theorem takeSample_kept (s : State) (a : Nat) (r : Int) (at_ : Nat) : (takeSample s a r at_).kept = s.kept := by
  simp [takeSample]

@[simp] theorem takeVdc_kept (s : State) (a v : Nat) : (takeVdc s a v).kept = s.kept := by rfl

@[simp] theorem missSample_kept (s : State) (a : Nat) : (missSample s a).kept = s.kept := by
  simp [missSample]

@[simp] theorem joinLocal_kept (s : State) (a : Nat) : (joinLocal s a).kept = s.kept := by
  unfold joinLocal; dsimp only; repeat' split
  all_goals simp

@[simp] theorem localPosition_kept (s : State) (a : Nat) (p : Option (Int × Nat)) : (localPosition s a p).kept = s.kept := by
  unfold localPosition; repeat' split
  all_goals simp

@[simp] theorem shiftEnc_kept (ch : Nat) (change : Int) (s : State) : (shiftEnc ch change s).kept = s.kept := by
  simp [shiftEnc]

@[simp] theorem rawEdge_kept (s : State) (n : Nat) (level : Bool) (a : Nat) : (rawEdge s n level a).kept = s.kept := by
  simp [rawEdge]

/-! ### Machine/LocalPwm -/

@[simp] theorem State.onTimer_kept (s : State) (k : Nat) (f : Timer → Timer) : (State.onTimer s k f).kept = s.kept := by rfl

@[simp] theorem passMid_kept (s : State) (k : Nat) : (passMid s k).kept = s.kept := by rfl

@[simp] theorem passBound_kept (s : State) (k : Nat) : (passBound s k).kept = s.kept := by rfl

@[simp] theorem endPeriod_kept (s : State) (k : Nat) : (endPeriod s k).kept = s.kept := by
  simp [endPeriod]

@[simp] theorem runPairs_kept (s : State) (k upTo : Nat) : (runPairs s k upTo).kept = s.kept := by
  simp [runPairs]

@[simp] theorem edgePairs_kept (s : State) (k at_ : Nat) : (edgePairs s k at_).kept = s.kept := by
  simp [edgePairs]

@[simp] theorem passHalf_kept (s : State) (k : Nat) : (passHalf s k).kept = s.kept := by
  simp [passHalf]

@[simp] theorem pwmPeriodTick_kept (s : State) (k : Nat) : (pwmPeriodTick s k).kept = s.kept := by rfl

@[simp] theorem pwmCommit_kept (s : State) (k : Nat) (duties : List Int) : (pwmCommit s k duties).kept = s.kept := by
  simp [pwmCommit]

@[simp] theorem runSteps_kept (s : State) (k a u every : Nat) (owed : Int) : (runSteps s k a u every owed).kept = s.kept := by
  simp [runSteps]

@[simp] theorem takeSteps_kept (s : State) (k : Nat) (u : Nat) : (takeSteps s k u).kept = s.kept := by
  unfold takeSteps; dsimp only; repeat' split
  all_goals simp

@[simp] theorem updateAt_kept (s : State) (k : Nat) : (updateAt s k).kept = s.kept := by
  unfold updateAt; dsimp only; repeat' split
  all_goals simp

@[simp] theorem passBoundary_kept (s : State) (k : Nat) : (passBoundary s k).kept = s.kept := by
  simp [passBoundary]

@[simp] theorem forceSafe_kept (s : State) (k : Nat) : (forceSafe s k).kept = s.kept := by
  simp [forceSafe]

@[simp] theorem tripAxis_kept (s : State) (k : Nat) : (tripAxis s k).kept = s.kept := by
  unfold tripAxis; split <;> simp

@[simp] theorem setTrip_kept (s : State) (j : Nat) : (setTrip s j).kept = s.kept := by
  simp [setTrip]

@[simp] theorem lowTrips_kept (s : State) : (lowTrips s).kept = s.kept := by
  simp [lowTrips]

@[simp] theorem pwmTripClearBody_kept (s : State) (q : Request) (t : Nat) : (pwmTripClearBody s q t).kept s = s.kept := by
  simp [pwmTripClearBody]

@[simp] theorem pwmStatusBody_kept (s : State) (q : Request) (t : Nat) : (pwmStatusBody s q t).kept s = s.kept := by
  simp [pwmStatusBody]

@[simp] theorem startTimers_kept (s : State) : (startTimers s).kept = s.kept := by
  simp [startTimers]

@[simp] theorem stopTimers_kept (s : State) : (stopTimers s).kept = s.kept := by
  simp [stopTimers]

/-! ### Machine/Calipers -/

@[simp] theorem State.onCal_kept (s : State) (f : Calipers → Calipers) : (State.onCal s f).kept = s.kept := by rfl

@[simp] theorem closeSegment_kept (s : State) (c : CalConf) (v : Option Violation) (cut : Bool) :
    (closeSegment s c v cut).kept = s.kept := by
  simp [closeSegment]

@[simp] theorem calStop_kept (s : State) (reason : Nat) : (calStop s reason).kept = s.kept := by
  unfold calStop; repeat' split
  all_goals simp

@[simp] theorem nextSegment_kept (s : State) (c : CalConf) (last : Nat) : (nextSegment s c last).kept = s.kept := by
  simp [nextSegment]

@[simp] theorem judgeRows_kept (s : State) (c : CalConf) (from_ : Nat) : (judgeRows s c from_).kept = s.kept := by
  unfold judgeRows; repeat' split
  all_goals simp

@[simp] theorem beginCapture_kept (s : State) (c : CalConf) (pre post : List CalRow) : (beginCapture s c pre post).kept = s.kept := by
  simp [beginCapture]

@[simp] theorem settleTrigger_kept (s : State) (c : CalConf) : (settleTrigger s c).kept = s.kept := by
  unfold settleTrigger; split <;> simp

@[simp] theorem calTrigger_kept (s : State) (stamp src : Nat) : (calTrigger s stamp src).kept = s.kept := by
  unfold calTrigger; dsimp only; repeat' split
  all_goals simp

@[simp] theorem calProbe_kept (s : State) (n stamp : Nat) : (calProbe s n stamp).kept = s.kept := by
  unfold calProbe; split <;> simp

@[simp] theorem takeRow_kept (s0 : State) (c : CalConf) (r : CalRow) : (takeRow s0 c r).kept = s0.kept := by
  simp [takeRow]

@[simp] theorem holdRow_kept (s : State) : (holdRow s).kept = s.kept := by
  unfold holdRow; split <;> simp

@[simp] theorem calSegListBody_kept (s : State) (q : Request) (t : Nat) : (calSegListBody s q t).kept s = s.kept := by
  simp [calSegListBody]

@[simp] theorem calMaskWriteBody_kept (s : State) (q : Request) (t : Nat) : (calMaskWriteBody s q t).kept s = s.kept := by
  simp [calMaskWriteBody]

@[simp] theorem dropMasks_kept (s : State) (ch : Nat) : (dropMasks s ch).kept = s.kept := by
  simp [dropMasks]

@[simp] theorem dropSpill_kept (s : State) : (dropSpill s).kept = s.kept := by
  simp [dropSpill]

@[simp] theorem calArmBody_kept (s0 : State) (q : Request) (t : Nat) : (calArmBody s0 q t).kept s0 = s0.kept := by
  simp [calArmBody]

@[simp] theorem calStopBody_kept (s : State) (q : Request) (t : Nat) : (calStopBody s q t).kept s = s.kept := by
  simp [calStopBody]

@[simp] theorem calForceBody_kept (s : State) (q : Request) (t : Nat) : (calForceBody s q t).kept s = s.kept := by
  simp [calForceBody]

@[simp] theorem calStatusBody_kept (s : State) (q : Request) (t : Nat) : (calStatusBody s q t).kept s = s.kept := by rfl

@[simp] theorem calReadBody_kept (s : State) (q : Request) (t : Nat) : (calReadBody s q t).kept s = s.kept := by
  unfold calReadBody; dsimp only; repeat' split
  all_goals simp

@[simp] theorem calSkewCalibrateBody_kept (s : State) (q : Request) (t : Nat) : (calSkewCalibrateBody s q t).kept s = s.kept := by
  simp [calSkewCalibrateBody]

@[simp] theorem noteSkew_kept (s : State) (ch : Nat) (at_ : Int) : (noteSkew s ch at_).kept = s.kept := by
  unfold noteSkew; split <;> simp

@[simp] theorem skewProbe_kept (s : State) (n : Nat) (at_ : Nat) : (skewProbe s n at_).kept = s.kept := by
  simp [skewProbe]

@[simp] theorem endWave_kept (s : State) (ch : Nat) : (endWave s ch).kept = s.kept := by
  unfold endWave; repeat' split
  all_goals simp

@[simp] theorem skewAin_kept (s : State) (n : Nat) (new : AdcResult) : (skewAin s n new).kept = s.kept := by
  unfold skewAin; split <;> simp

@[simp] theorem skewEnd_kept (s0 : State) : (skewEnd s0).kept = s0.kept := by
  unfold skewEnd; dsimp only; repeat' split
  all_goals simp

@[simp] theorem calSkewStoreBody_kept (s : State) (q : Request) (t : Nat) : (calSkewStoreBody s q t).kept s = s.kept := by
  unfold calSkewStoreBody; split <;> simp

@[simp] theorem calBusMeasureBody_kept (s : State) (q : Request) (t : Nat) : (calBusMeasureBody s q t).kept s = s.kept := by
  simp [calBusMeasureBody]

@[simp] theorem busAnswer_kept (s : State) (b : BusCal) (drivenAt : Nat) : (busAnswer s b drivenAt).kept = s.kept := by
  simp [busAnswer]

/-! ### Machine/LocalIn -/

@[simp] theorem State.onLoc_kept (s : State) (f : LocalIn → LocalIn) : (State.onLoc s f).kept = s.kept := by rfl

@[simp] theorem State.onEnc_kept (s : State) (k : Nat) (f : EncCh → EncCh) : (State.onEnc s k f).kept = s.kept := by rfl

@[simp] theorem State.onProbe_kept (s : State) (k : Nat) (f : ProbeSt → ProbeSt) : (State.onProbe s k f).kept = s.kept := by rfl

@[simp] theorem State.onSsi_kept (s : State) (k : Nat) (f : SsiCh → SsiCh) : (State.onSsi s k f).kept = s.kept := by rfl

@[simp] theorem State.onAdc_kept (s : State) (f : Adc → Adc) : (State.onAdc s f).kept = s.kept := by rfl

@[simp] theorem encFault_kept (s : State) (k cause : Nat) : (encFault s k cause).kept = s.kept := by
  simp [encFault]

@[simp] theorem illegal_kept (s : State) (k : Nat) : (illegal s k).kept = s.kept := by
  simp [illegal]

@[simp] theorem checkIndex_kept (s : State) (k : Nat) (dev : Int) : (checkIndex s k dev).kept = s.kept := by
  simp [checkIndex]

@[simp] theorem homingIndex_kept (ch : Nat) (count : Int) (s : State) : (homingIndex ch count s).kept = s.kept := by
  unfold homingIndex
  refine kept_foldl _ (fun s x => ?_) _ _
  dsimp only; repeat' split
  all_goals simp

@[simp] theorem encIndexArmBody_kept (s : State) (q : Request) (t : Nat) : (encIndexArmBody s q t).kept s = s.kept := by
  simp [encIndexArmBody]

@[simp] theorem encFaultClearBody_kept (s : State) (q : Request) (t : Nat) : (encFaultClearBody s q t).kept s = s.kept := by
  simp [encFaultClearBody]

@[simp] theorem checkSsi_kept (periodNs : Nat) (s : State) : (checkSsi periodNs s).kept = s.kept := by
  simp [checkSsi]

@[simp] theorem startSsi_kept (s : State) (slot j : Nat) : (startSsi s slot j).kept = s.kept := by
  unfold startSsi; dsimp only; repeat' split
  all_goals simp

@[simp] theorem adcMissed_kept (s : State) (inj : Bool) (i : Nat) : (adcMissed s inj i).kept = s.kept := by
  simp [adcMissed]

@[simp] theorem adcStart_kept (s : State) (inj : Bool) (i at_ : Nat) : (adcStart s inj i at_).kept = s.kept := by
  simp [adcStart]

@[simp] theorem injSample_kept (s : State) (i : Nat) (r : AdcRun) : (injSample s i r).kept = s.kept := by
  unfold injSample; split <;> simp

@[simp] theorem latchEnc_kept (s : State) (k : Nat) : (latchEnc s k).kept = s.kept := by rfl

@[simp] theorem currentsStart_kept (s : State) (slot at_ : Nat) : (currentsStart s slot at_).kept = s.kept := by
  unfold currentsStart; split <;> simp

@[simp] theorem expireProbes_kept (s : State) : (expireProbes s).kept = s.kept := by
  simp [expireProbes]

@[simp] theorem probeArmBody_kept (s : State) (q : Request) (t : Nat) : (probeArmBody s q t).kept s = s.kept := by
  simp [probeArmBody]

@[simp] theorem probeReadBody_kept (s : State) (q : Request) (t : Nat) : (probeReadBody s q t).kept s = s.kept := by
  simp [probeReadBody]

@[simp] theorem refOff_kept (s : State) : (refOff s).kept = s.kept := by
  unfold refOff; split <;> simp

@[simp] theorem adcRefEnableBody_kept (s : State) (q : Request) (t : Nat) : (adcRefEnableBody s q t).kept s = s.kept := by
  simp [adcRefEnableBody]

@[simp] theorem adcCalibrateBody_kept (s : State) (q : Request) (t : Nat) : (adcCalibrateBody s q t).kept s = s.kept := by
  simp [adcCalibrateBody]

@[simp] theorem adcCalSaveBody_kept (s : State) (q : Request) (t : Nat) : (adcCalSaveBody s q t).kept s = s.kept := by
  simp [adcCalSaveBody]

@[simp] theorem adcCalRestoreBody_kept (s : State) (q : Request) (t : Nat) : (adcCalRestoreBody s q t).kept s = s.kept := by
  unfold adcCalRestoreBody; split <;> simp

@[simp] theorem localInStatusBody_kept (s : State) (q : Request) (t : Nat) : (localInStatusBody s q t).kept s = s.kept := by
  simp [localInStatusBody]

@[simp] theorem startInputs_kept (s : State) : (startInputs s).kept = s.kept := by
  simp [startInputs]

@[simp] theorem stopInputs_kept (s : State) : (stopInputs s).kept = s.kept := by rfl

/-! ### Machine/Diag -/

@[simp] theorem takeSignalRow_kept (v s : State) (tick : Nat) : (takeSignalRow v s tick).kept = s.kept := by
  unfold takeSignalRow; split <;> simp

@[simp] theorem laterTest_kept (s : State) : (laterTest s).kept = s.kept := by
  simp [laterTest]

@[simp] theorem endCommit_kept (s : State) (f : Freeze) : (endCommit s f).kept = s.kept := by
  simp [endCommit]

@[simp] theorem eventReadBody_kept (s : State) (q : Request) (t : Nat) : (eventReadBody s q t).kept s = s.kept := by rfl

@[simp] theorem shavingsStatusBody_kept (s : State) (q : Request) (t : Nat) : (shavingsStatusBody s q t).kept s = s.kept := by rfl

@[simp] theorem shavingsReadBody_kept (s : State) (q : Request) (t : Nat) : (shavingsReadBody s q t).kept s = s.kept := by
  simp [shavingsReadBody]

@[simp] theorem shavingsFreezeBody_kept (s : State) (q : Request) (t : Nat) : (shavingsFreezeBody s q t).kept s = s.kept := by
  simp [shavingsFreezeBody]

@[simp] theorem damageRead_kept (s : State) (q : Request) : (damageRead s q).kept = s.kept := by rfl

/-! ### Machine/Safety -/

@[simp] theorem State.onSafe_kept (s : State) (g : Safety → Safety) : (State.onSafe s g).kept = s.kept := by rfl

@[simp] theorem State.onFn_kept (s : State) (f : Nat) (g : SafeFn → SafeFn) : (State.onFn s f g).kept = s.kept := by rfl

@[simp] theorem State.onSout_kept (s : State) (n : Nat) (g : Sout → Sout) : (State.onSout s n g).kept = s.kept := by rfl

@[simp] theorem State.onConn_kept (s : State) (c : Nat) (g : SafeConn → SafeConn) : (State.onConn s c g).kept = s.kept := by rfl

@[simp] theorem putSafe_kept (t : Table Int) (s : State) : (putSafe t s).kept = s.kept := by
  simp [putSafe]

@[simp] theorem dropOutputs_kept (s : State) : (dropOutputs s).kept = s.kept := by
  simp [dropOutputs]

@[simp] theorem raiseOutputs_kept (s : State) : (raiseOutputs s).kept = s.kept := by
  simp [raiseOutputs]

@[simp] theorem startDemand_kept (s : State) (f : Nat) : (startDemand s f).kept = s.kept := by
  simp [startDemand]

@[simp] theorem settleFn_kept (s : State) (f : Nat) : (settleFn s f).kept = s.kept := by
  simp [settleFn]

@[simp] theorem evalFns_kept (s : State) : (evalFns s).kept = s.kept := by
  simp [evalFns]

@[simp] theorem safetyFault_kept (s : State) (cause : Nat) (flags : Nat) : (safetyFault s cause flags).kept = s.kept := by
  simp [safetyFault]

@[simp] theorem clockTrips_kept (s : State) : (clockTrips s).kept = s.kept := by
  simp [clockTrips]

@[simp] theorem noteDifference_kept (s : State) : (noteDifference s).kept = s.kept := by
  simp [noteDifference]

@[simp] theorem discrepancyFault_kept (s : State) (p : Nat) : (discrepancyFault s p).kept = s.kept := by
  simp [discrepancyFault]

@[simp] theorem qualifiedReset_kept (s : State) : (qualifiedReset s).kept = s.kept := by
  simp [qualifiedReset]

@[simp] theorem resetFalls_kept (s : State) : (resetFalls s).kept = s.kept := by
  simp [resetFalls]

@[simp] theorem noteLevel_kept (n ch : Nat) (old new : Bool) (s : State) : (noteLevel n ch old new s).kept = s.kept := by
  simp [noteLevel]

@[simp] theorem latchOutput_kept (s : State) (n cause : Nat) : (latchOutput s n cause).kept = s.kept := by
  simp [latchOutput]

@[simp] theorem checkConns_kept (m : Image) (s : State) : (checkConns m s).kept = s.kept := by
  simp [checkConns]

@[simp] theorem stopConns_kept (s : State) : (stopConns s).kept = s.kept := by
  simp [stopConns]

@[simp] theorem loseConn_kept (s : State) (c : Nat) : (loseConn s c).kept = s.kept := by
  simp [loseConn]

@[simp] theorem adoptSafety_kept (image : Bytes) (s2Agrees : Bool) (s : State) : (adoptSafety image s2Agrees s).kept = s.kept := by
  unfold adoptSafety; repeat' split
  all_goals simp

@[simp] theorem safetyStatusBody_kept (s : State) (q : Request) (t : Nat) : (safetyStatusBody s q t).kept s = s.kept := by rfl

@[simp] theorem safetyImageReadBody_kept (s : State) (q : Request) (t : Nat) : (safetyImageReadBody s q t).kept s = s.kept := by
  simp [safetyImageReadBody]

@[simp] theorem safetyConnStatusBody_kept (s : State) (q : Request) (t : Nat) : (safetyConnStatusBody s q t).kept s = s.kept := by
  simp [safetyConnStatusBody]

/-! ### Machine/LawCmd -/

@[simp] theorem lawLoadBody_kept (s : State) (q : Request) (t : Nat) : (lawLoadBody s q t).kept s = s.kept := by
  simp [lawLoadBody]

@[simp] theorem lawUnloadBody_kept (s : State) (q : Request) (t : Nat) : (lawUnloadBody s q t).kept s = s.kept := by
  simp [lawUnloadBody]

@[simp] theorem lawInfoBody_kept (s : State) (q : Request) (t : Nat) : (lawInfoBody s q t).kept s = s.kept := by
  simp [lawInfoBody]

@[simp] theorem lawCoefWriteBody_kept (s : State) (q : Request) (t : Nat) : (lawCoefWriteBody s q t).kept s = s.kept := by
  unfold lawCoefWriteBody; dsimp only; repeat' split
  all_goals simp

@[simp] theorem putWords_kept (s : State) (base : Nat) (ws : List W24) : (putWords s base ws).kept = s.kept := by rfl

@[simp] theorem testEnd_kept (s : State) (base : Nat) (c : ECore) : (testEnd s base c).1.kept = s.kept := by
  simp [testEnd]

@[simp] theorem endTest_kept (s : State) (e : Nat) : (endTest s e).kept = s.kept := by
  unfold endTest; split <;> simp

@[simp] theorem lawTestBody_kept (s : State) (q : Request) (t : Nat) : (lawTestBody s q t).kept s = s.kept := by
  simp [lawTestBody]

@[simp] theorem resumeEngine_kept (s : State) (e : Nat) : (resumeEngine s e).kept = s.kept := by
  simp [resumeEngine]

@[simp] theorem releaseEngines_kept (s : State) : (releaseEngines s).kept = s.kept := by
  simp [releaseEngines]

@[simp] theorem clockRuns_kept (s : State) : (clockRuns s).kept = s.kept := by
  simp [clockRuns]

/-! ### Machine/Verify -/

@[simp] theorem noteUse_kept (s : State) (u : Nat × Nat) (fresh : Bool) : (noteUse s u fresh).kept = s.kept := by
  simp [noteUse]

@[simp] theorem noteOut_kept (s : State) (fresh : Bool) (n : BudgetOut) : (noteOut s fresh n).kept = s.kept := by
  unfold noteOut; split <;> simp

/-! ### Machine/Truing -/

@[simp] theorem State.onTru_kept (s : State) (f : Truing → Truing) : (State.onTru s f).kept = s.kept := by rfl

@[simp] theorem stressSync_kept (s : State) : (stressSync s).kept = s.kept := by
  simp [stressSync]

@[simp] theorem leaveStress_kept (s : State) (e : Nat) : (leaveStress s e).kept = s.kept := by
  simp [leaveStress]

@[simp] theorem startPass_kept (lanesOnly : Bool) (laneMask : Nat) (s : State) : (startPass lanesOnly laneMask s).kept = s.kept := by
  simp [startPass]

@[simp] theorem adoptNow_kept (delta mv : Nat) (s : State) : (adoptNow delta mv s).kept = s.kept := by rfl

@[simp] theorem adopt_kept (delta mv : Nat) (s : State) : (adopt delta mv s).kept = s.kept := by
  simp [adopt]

@[simp] theorem recheckStandby_kept (delta : Nat) (s : State) : (recheckStandby delta s).kept = s.kept := by
  unfold recheckStandby; repeat' split
  all_goals simp

@[simp] theorem judgeResult_kept (delta mv : Nat) (s : State) : (judgeResult delta mv s).1.kept = s.kept := by
  unfold judgeResult; repeat' split
  all_goals simp

@[simp] theorem takeEye_kept (s : State) (e : EyeScan) : (takeEye s e).kept = s.kept := by
  simp [takeEye]

@[simp] theorem takeEq_kept (s : State) : (takeEq s).kept = s.kept := by
  unfold takeEq; split <;> simp

@[simp] theorem takeEqs_kept (s : State) : (takeEqs s).kept = s.kept := by
  simp [takeEqs]

@[simp] theorem takeEyes_kept (s : State) (r : TruingReadings) : (takeEyes s r).kept = s.kept := by
  simp [takeEyes]

@[simp] theorem settleTruing_kept (s : State) : (settleTruing s).kept = s.kept := by
  unfold settleTruing; split <;> simp

@[simp] theorem takeHealth_kept (s : State) (r : TruingReadings) : (takeHealth s r).kept = s.kept := by
  simp [takeHealth]

@[simp] theorem passResult_kept (s : State) (complete : Bool) (r : TruingReadings) : (passResult s complete r).1.kept = s.kept := by
  unfold passResult; dsimp only; repeat' split
  all_goals simp

@[simp] theorem closePass_kept (s1 : State) (cause : Nat) : (closePass s1 cause).kept = s1.kept := by
  simp [closePass]

@[simp] theorem endPass_kept (s : State) (complete : Bool) (r : TruingReadings) : (endPass s complete r).kept = s.kept := by
  simp [endPass]

@[simp] theorem abandonPass_kept (s : State) : (abandonPass s).kept = s.kept := by
  simp [abandonPass]

@[simp] theorem truingRunBody_kept (s : State) (q : Request) (t : Nat) : (truingRunBody s q t).kept s = s.kept := by
  simp [truingRunBody]

@[simp] theorem truingStatusBody_kept (s : State) (q : Request) (t : Nat) : (truingStatusBody s q t).kept s = s.kept := by
  simp [truingStatusBody]

/-! ### Machine/DispatchOps -/

@[simp] theorem State.onTask_kept (s : State) (i : Nat) (f : TaskSt → TaskSt) : (State.onTask s i f).kept = s.kept := by rfl

@[simp] theorem State.onBundle_kept (s : State) (b : Nat) (f : BundleSt → BundleSt) : (State.onBundle s b f).kept = s.kept := by rfl

@[simp] theorem State.onFlow_kept (s : State) (f : Nat) (g : Flow → Flow) : (State.onFlow s f g).kept = s.kept := by rfl

@[simp] theorem State.onLevel_kept (s : State) (l : Nat) (f : List Nat → List Nat) : (State.onLevel s l f).kept = s.kept := by rfl

@[simp] theorem flowView_kept (s : State) (f : Nat) : (flowView s f).kept = s.kept := by
  simp [flowView]

@[simp] theorem runFeedback_kept (s : State) (t : PTask) : (runFeedback s t).kept = s.kept := by
  simp [runFeedback]

@[simp] theorem fillNext_kept (s : State) (e : Nat) (t : PTask) : (fillNext s e t).kept = s.kept := by
  unfold fillNext; split <;> simp

@[simp] theorem leaveLists_kept (s : State) (i : Nat) : (leaveLists s i).kept = s.kept := by rfl

@[simp] theorem leaveEngine_kept (s : State) (i : Nat) : (leaveEngine s i).kept = s.kept := by
  unfold leaveEngine; split <;> simp

@[simp] theorem noteDepth_kept (s : State) (l : Nat) : (noteDepth s l).kept = s.kept := by rfl

@[simp] theorem joinHead_kept (s : State) (i : Nat) : (joinHead s i).kept = s.kept := by rfl

@[simp] theorem noteRuns_kept (s : State) (t : PTask) (runs : List Nat) : (noteRuns s t runs).kept = s.kept := by
  simp [noteRuns]

@[simp] theorem busyMore_kept (s : State) (e n : Nat) : (busyMore s e n).kept = s.kept := by rfl

@[simp] theorem slotEmpty_kept (s : State) (e at_ : Nat) : (slotEmpty s e at_).kept = s.kept := by
  simp [slotEmpty]

@[simp] theorem refill_kept (s : State) : (refill s).kept = s.kept := by
  unfold refill
  refine kept_foldl _ (fun s x => ?_) _ _
  dsimp only; repeat' split
  all_goals simp

@[simp] theorem noteSat_kept (s : State) (t : PTask) (es : BitVec 8) : (noteSat s t es).kept = s.kept := by
  simp [noteSat]

@[simp] theorem noteDone_kept (s : State) (t : PTask) (c : ECore) : (noteDone s t c).kept = s.kept := by
  simp [noteDone]

@[simp] theorem stopService_kept (s : State) (t : PTask) (clocks : Nat) : (stopService s t clocks).kept = s.kept := by
  unfold stopService; dsimp only; repeat' split
  all_goals simp

@[simp] theorem timerCommit_kept (s : State) (t : PTask) (mode slot : Nat) (o : AxisOut) :
    (timerCommit s t mode slot o).kept = s.kept := by
  simp [timerCommit]

@[simp] theorem commitAxis_kept (s : State) (t : PTask) (w : List W24) (k : TaskSt) : (commitAxis s t w k).kept = s.kept := by
  unfold commitAxis; dsimp only; repeat' split
  all_goals simp

@[simp] theorem commitTask_kept (s : State) (i : Nat) : (commitTask s i).kept = s.kept := by
  unfold commitTask; split <;> simp

@[simp] theorem failBundle_kept (s : State) (b : Nat) : (failBundle s b).kept = s.kept := by
  unfold failBundle
  split
  · rfl
  · simp only [refill_kept, kept_ite, transient_kept, ite_self]
    rw [kept_foldl]
    · simp
    · intro s t
      split <;> simp

@[simp] theorem tryBundle_kept (s : State) (b : PBundle) : (tryBundle s b).kept = s.kept := by
  simp [tryBundle]

@[simp] theorem endDrain_kept (s : State) (f : Nat) : (endDrain s f).kept = s.kept := by
  unfold endDrain; split <;> simp

@[simp] theorem endDrains_kept (s : State) : (endDrains s).kept = s.kept := by
  simp [endDrains]

@[simp] theorem settle_kept (s : State) : (settle s).kept = s.kept := by
  simp [settle]

@[simp] theorem noteCheck_kept (s : State) : (noteCheck s).kept = s.kept := by
  simp [noteCheck]

@[simp] theorem lastingFault_kept (s0 : State) (t : PTask) (code : Nat) : (lastingFault s0 t code).kept = s0.kept := by
  simp [lastingFault]

@[simp] theorem overrunTask_kept (s : State) (e : Nat) (t : PTask) : (overrunTask s e t).kept = s.kept := by
  simp [overrunTask]

@[simp] theorem abandonTask_kept (s : State) (e kind code : Nat) (t : PTask) : (abandonTask s e kind code t).kept = s.kept := by
  simp [abandonTask]

@[simp] theorem placeOr_kept (s : State) (f : Nat) (want : Option Nat) (epoch : Nat) : (placeOr s f want epoch).kept = s.kept := by
  unfold placeOr; dsimp only; repeat' split
  all_goals simp

@[simp] theorem placeHome_kept (s : State) : (placeHome s).kept = s.kept := by
  simp [placeHome]

@[simp] theorem flee_kept (s : State) (e : Nat) : (flee s e).kept = s.kept := by
  simp [flee]

@[simp] theorem returnFlows_kept (s : State) : (returnFlows s).kept = s.kept := by
  simp [returnFlows]

@[simp] theorem moveReruns_kept (s : State) (e : Nat) : (moveReruns s e).kept = s.kept := by
  unfold moveReruns
  refine kept_foldl _ (fun s x => ?_) _ _
  split <;> simp

@[simp] theorem noteActive_kept (s : State) (e : Nat) : (noteActive s e).kept = s.kept := by
  unfold noteActive; split <;> simp

@[simp] theorem faultEngine_kept (s : State) (e flags : Nat) : (faultEngine s e flags).kept = s.kept := by
  unfold faultEngine
  dsimp only
  split
  · simp
  · simp
  · simp only [settle_kept, State.onEngine_kept, moveReruns_kept]
    rw [kept_foldl]
    · simp
    · intro s i
      split <;> simp

@[simp] theorem noteWait_kept (s : State) (f c : Nat) : (noteWait s f c).kept = s.kept := by rfl

@[simp] theorem spill_kept (s : State) : (spill s).kept = s.kept := by rfl

@[simp] theorem preempt_kept (s : State) (e : Nat) (t : PTask) (c : ECore) (runs : List Nat) (used : Nat) :
    (preempt s e t c runs used).kept = s.kept := by
  simp [preempt]

@[simp] theorem freed_kept (s : State) (e : Nat) (t : PTask) : (freed s e t).kept = s.kept := by
  unfold freed; repeat' split
  all_goals simp

@[simp] theorem switchIn_kept (s : State) (e : Nat) (t : PTask) (first : Nat) : (switchIn s e t first).kept = s.kept := by
  simp [switchIn]

@[simp] theorem failInputs_kept (s : State) (t : PTask) : (failInputs s t).kept = s.kept := by
  simp [failInputs]

@[simp] theorem afterLaw_kept (s : State) (t : PTask) : (afterLaw s t).kept = s.kept := by
  simp [afterLaw]

@[simp] theorem completeTask_kept (s : State) (t : PTask) (results : List W24) (es : BitVec 8) (volt : Bool) :
    (completeTask s t results es volt).kept = s.kept := by
  unfold completeTask; repeat' split
  all_goals simp

@[simp] theorem discardUnstarted_kept (s : State) (t : PTask) : (discardUnstarted s t).kept = s.kept := by
  unfold discardUnstarted; split <;> simp

@[simp] theorem missOutput_kept (s : State) (a : Nat) : (missOutput s a).kept = s.kept := by
  simp [missOutput]

@[simp] theorem missCascade_kept (s : State) (a : Nat) : (missCascade s a).kept = s.kept := by
  simp [missCascade]

@[simp] theorem closeTasks_kept (s : State) : (closeTasks s).kept = s.kept := by
  simp only [closeTasks]
  rw [kept_foldl, kept_foldl]
  · simp
  · intro s t
    split
    · simp
    · split
      · split <;> simp
      · simp
    · split <;> simp
    · rfl
  · simp

@[simp] theorem closeCycle_kept (s : State) : (closeCycle s).kept = s.kept := by
  simp [closeCycle]

@[simp] theorem takeDispSnap_kept (s : State) : (takeDispSnap s).kept = s.kept := by rfl

/-! ### Machine/Power -/

@[simp] theorem afterReset_kept (mode : DevMode) (source : Nat) (s : State) : (afterReset mode source s).kept = s.kept := by
  simp [afterReset]

@[simp] theorem finishCommit_kept (s : State) : (finishCommit s).kept = s.kept := by
  unfold finishCommit; split <;> simp

@[simp] theorem enterBoot_kept (source : Nat) (s0 : State) : (enterBoot source s0).kept = s0.kept := by
  simp [enterBoot]

@[simp] theorem loseMemories_kept (s : State) : (loseMemories s).kept = s.kept := by rfl

@[simp] theorem enterStandby_kept (s : State) : (enterStandby s).kept = s.kept := by rfl

@[simp] theorem tryBoot_kept (s : State) : (tryBoot s).kept = s.kept := by
  simp [tryBoot]

@[simp] theorem enterOff_kept (s : State) : (enterOff s).kept = s.kept := by rfl

@[simp] theorem cutCommit_kept (s : State) : (cutCommit s).kept = s.kept := by
  unfold cutCommit; split <;> simp

@[simp] theorem failPower_kept (byPin : Bool) (s : State) : (failPower byPin s).kept = s.kept := by
  simp [failPower]

@[simp] theorem endTaskRetries_kept (s : State) : (endTaskRetries s).kept = s.kept := by
  simp [endTaskRetries]

@[simp] theorem endRetries_kept (s : State) : (endRetries s).kept = s.kept := by
  simp [endRetries]

@[simp] theorem watchdogReset_kept (s0 : State) : (watchdogReset s0).kept = s0.kept := by
  simp [watchdogReset]

@[simp] theorem reportSlots_kept (extra : List Nat) (s : State) : (reportSlots extra s).kept = s.kept := by
  simp [reportSlots]

@[simp] theorem serveMailboxes_kept (s : State) : (serveMailboxes s).kept = s.kept := by
  simp [serveMailboxes]

@[simp] theorem loadImage_kept (s : State) (k : Nat) (rd : Nat → Nat → Bytes) : (loadImage s k rd).kept = s.kept := by
  simp [loadImage]

/-! ### Machine/System -/

@[simp] theorem sysCapsBody_kept (s : State) (q : Request) (t : Nat) : (sysCapsBody s q t).kept s = s.kept := by
  simp [sysCapsBody]

@[simp] theorem bootInfoBody_kept (s : State) (q : Request) (t : Nat) : (bootInfoBody s q t).kept s = s.kept := by rfl

@[simp] theorem sysResetBody_kept (s : State) (q : Request) (t : Nat) : (sysResetBody s q t).kept s = s.kept := by
  simp [sysResetBody]

@[simp] theorem sysStandbyBody_kept (s : State) (q : Request) (t : Nat) : (sysStandbyBody s q t).kept s = s.kept := by
  simp [sysStandbyBody]

@[simp] theorem sysOperateBody_kept (s : State) (q : Request) (t : Nat) : (sysOperateBody s q t).kept s = s.kept := by
  simp [sysOperateBody]

@[simp] theorem sysPreopBody_kept (s : State) (q : Request) (t : Nat) : (sysPreopBody s q t).kept s = s.kept := by
  simp [sysPreopBody]

@[simp] theorem safeHoldBody_kept (s : State) (q : Request) (t : Nat) : (safeHoldBody s q t).kept s = s.kept := by
  simp [safeHoldBody]

@[simp] theorem safeHoldReleaseBody_kept (s : State) (q : Request) (t : Nat) : (safeHoldReleaseBody s q t).kept s = s.kept := by
  simp [safeHoldReleaseBody]

@[simp] theorem enterConfig_kept (s : State) : (enterConfig s).kept = s.kept := by
  simp [enterConfig]

@[simp] theorem faultClearBody_kept (s : State) (q : Request) (t : Nat) : (faultClearBody s q t).kept s = s.kept := by
  simp [faultClearBody]

@[simp] theorem powerDomainBody_kept (s : State) (q : Request) (t : Nat) : (powerDomainBody s q t).kept s = s.kept := by
  simp [powerDomainBody]

@[simp] theorem domainBack_kept (d : Nat) (s : State) : (domainBack d s).kept = s.kept := by
  simp [domainBack]

@[simp] theorem endSwitch_kept (s0 : State) (d : Nat) (on : Bool) : (endSwitch s0 d on).kept = s0.kept := by
  simp [endSwitch]

@[simp] theorem expireHold_kept (s : State) (d : Nat) : (expireHold s d).kept = s.kept := by
  unfold expireHold; split <;> simp

@[simp] theorem fwStageWriteBody_kept (s : State) (q : Request) (t : Nat) : (fwStageWriteBody s q t).kept s = s.kept := by
  simp [fwStageWriteBody]

@[simp] theorem fwStageCommitBody_kept (s : State) (q : Request) (t : Nat) : (fwStageCommitBody s q t).kept s = s.kept := by
  simp [fwStageCommitBody]

@[simp] theorem stageDone_kept (s : State) (target : Nat) : (stageDone s target).kept = s.kept := by
  simp [stageDone]

/-! ### Machine/Host -/

@[simp] theorem State.onTun_kept (s : State) (r : Nat) (f : RingRegs → RingRegs) : (State.onTun s r f).kept = s.kept := by rfl

@[simp] theorem bar0Touch_kept (s : State) (o : Nat) : (bar0Touch s o).kept = s.kept := by
  simp [bar0Touch]

@[simp] theorem bar0Bytes_kept (n o : Nat) (w : Option Nat) (s : State) : (bar0Bytes n o w s).1.kept = s.kept := by
  induction n generalizing o w s with
  | zero => rfl
  | succ n ih => simp [bar0Bytes, ih]

@[simp] theorem ringDoorbell_kept (s : State) (m : Nat) (tail : BitVec 16) : (ringDoorbell s m tail).kept = s.kept := by
  simp [ringDoorbell]

@[simp] theorem moveRspHead_kept (s : State) (m : Nat) (head : BitVec 16) : (moveRspHead s m head).kept = s.kept := by
  simp [moveRspHead]

@[simp] theorem clearStat_kept (s : State) (m : Nat) (v : Nat) : (clearStat s m v).kept = s.kept := by
  simp [clearStat]

@[simp] theorem takeTunSlot_kept (s : State) (r : Nat) : (takeTunSlot s r).kept = s.kept := by
  simp [takeTunSlot]

@[simp] theorem drainTunTx_kept (r n : Nat) (s : State) : (drainTunTx r n s).kept = s.kept := by
  induction n generalizing s with
  | zero => rfl
  | succ n ih => simp [drainTunTx, ih]

@[simp] theorem drainTunRx_kept (r n : Nat) (s : State) : (drainTunRx r n s).kept = s.kept := by
  induction n generalizing s with
  | zero => rfl
  | succ n ih =>
    simp only [drainTunRx]
    split
    · rfl
    · split <;> simp [ih]

@[simp] theorem moveTxTail_kept (s : State) (r : Nat) (tail : BitVec 16) : (moveTxTail s r tail).kept = s.kept := by
  simp [moveTxTail]

@[simp] theorem moveRxHead_kept (s : State) (r : Nat) (head : BitVec 16) : (moveRxHead s r head).kept = s.kept := by
  simp [moveRxHead]

@[simp] theorem writeControl_kept (s : State) (v : Nat) : (writeControl s v).kept = s.kept := by
  simp [writeControl]

@[simp] theorem serviceHost_kept (s : State) (v : BitVec 32) : (serviceHost s v).kept = s.kept := by
  simp [serviceHost]

@[simp] theorem clearEvStatus_kept (s : State) (n : Nat) (v : BitVec 32) : (clearEvStatus s n v).kept = s.kept := by
  simp [clearEvStatus]

@[simp] theorem flushMsix_kept (s : State) : (flushMsix s).kept = s.kept := by
  simp [flushMsix]

@[simp] theorem writeMsix_kept (s : State) (o : Nat) (data : Bytes) : (writeMsix s o data).kept = s.kept := by
  simp [writeMsix]

@[simp] theorem writeWord_kept (s : State) (o v : Nat) : (writeWord s o v).kept = s.kept := by
  simp [writeWord]

@[simp] theorem writeWords_kept (s : State) (o : Nat) (b : Bytes) : (writeWords s o b).kept = s.kept := by
  induction s, o, b using writeWords.induct with
  | case1 s o a b c d r ih => simp [writeWords, ih]
  | case2 s o b h => simp [writeWords]

@[simp] theorem writeBar0_kept (s : State) (o : Nat) (data : Bytes) : (writeBar0 s o data).kept = s.kept := by
  simp [writeBar0]

@[simp] theorem writeCells_kept (s9 : State) (l : List (Nat × Byte)) : (writeCells s9 l).kept = s9.kept := by
  simp [writeCells]

@[simp] theorem writeBar2_kept (s : State) (o : Nat) (data : Bytes) : (writeBar2 s o data).kept = s.kept := by
  simp [writeBar2]

@[simp] theorem writeConfig_kept (s : State) (r : PciReg) (v : Nat) : (writeConfig s r v).kept = s.kept := by
  unfold writeConfig; repeat' split
  all_goals simp

@[simp] theorem qspiWrite_kept (s : State) (addr : Nat) (data : Bytes) : (qspiWrite s addr data).kept = s.kept := by
  simp [qspiWrite]

@[simp] theorem qspiRead_kept (s : State) (addr n : Nat) : (qspiRead s addr n).1.kept = s.kept := by
  unfold qspiRead; repeat' split
  all_goals simp

@[simp] theorem qspiTransaction_kept (s : State) (c : List (BitVec 4)) : (qspiTransaction s c).kept = s.kept := by
  simp [qspiTransaction]

@[simp] theorem hostAccessAt_kept (s : State) (data : Bytes) (n : HostPlace) : (hostAccessAt s data n).kept = s.kept := by
  unfold hostAccessAt; split <;> simp

@[simp] theorem takeRequest_kept (s : State) (m : Nat) : (takeRequest s m).kept = s.kept := by
  unfold takeRequest; dsimp only; repeat' split
  all_goals simp

/-! ### Machine/Params -/

@[simp] theorem judgeNotch_kept (a k : Nat) (s : State) : (judgeNotch a k s).kept = s.kept := by
  simp [judgeNotch]

@[simp] theorem judgeNotches_kept (s : State) : (judgeNotches s).kept = s.kept := by
  simp [judgeNotches]

@[simp] theorem afterWrite_kept (w : PWrite) (s : State) : (afterWrite w s).kept = s.kept := by
  simp [afterWrite]

@[simp] theorem applyWrite_kept (stamp : Nat) (s : State) (w : PWrite) : (applyWrite stamp s w).kept = s.kept := by
  simp [applyWrite]

@[simp] theorem paramReadBody_kept (s : State) (q : Request) (t : Nat) : (paramReadBody s q t).kept s = s.kept := by
  unfold paramReadBody; dsimp only; repeat' split
  all_goals simp

@[simp] theorem paramWriteBody_kept (s : State) (q : Request) (t : Nat) : (paramWriteBody s q t).kept s = s.kept := by
  unfold paramWriteBody; dsimp only; repeat' split
  all_goals simp

/-! ### Machine/RingFrame -/

@[simp] theorem sendFrames_kept (r : Nat) (l : List WaitingFrame) (s : State) : (sendFrames r l s).kept = s.kept := by
  simp [sendFrames]

@[simp] theorem relay_kept (r : Nat) (port : Port) (f : Bytes) (s : State) : (relay r port f s).kept = s.kept := by
  simp [relay]

@[simp] theorem pushOpaque_kept (r p service kind value : Nat) (serial addr cmd : Nat) (s : State) :
    (pushOpaque r p service kind value serial addr cmd s).kept = s.kept := by rfl

@[simp] theorem assignAddress_kept (r p addr : Nat) (s : State) : (assignAddress r p addr s).kept = s.kept := by rfl

/-! ### Machine/RingSvc -/

@[simp] theorem aliasConflicts_kept (r : Nat) (s : State) : (aliasConflicts r s).kept = s.kept := by
  simp [aliasConflicts]

@[simp] theorem moveTo_kept (r p addr : Nat) (s : State) : (moveTo r p addr s).kept = s.kept := by
  simp [moveTo]

@[simp] theorem setBound_kept (r p : Nat) (s : State) : (setBound r p s).kept = s.kept := by
  simp [setBound]

@[simp] theorem bindNode_kept (m : Image) (r p : Nat) (e : PNode) (s : State) : (bindNode m r p e s).kept = s.kept := by
  simp [bindNode]

@[simp] theorem bindAlarms_kept (m : Image) (r : Nat) (s : State) : (bindAlarms m r s).kept = s.kept := by
  simp [bindAlarms]

@[simp] theorem keepPlace_kept (r p : Nat) (s : State) : (keepPlace r p s).kept = s.kept := by
  simp [keepPlace]

@[simp] theorem bindRing_kept (m : Image) (r : Nat) (s : State) : (bindRing m r s).kept = s.kept := by
  simp only [bindRing, State.onRing_kept, kept_ite]
  rw [kept_foldl, kept_foldl]
  · simp
  · intro s e
    split <;> simp
  · simp

@[simp] theorem finishFirst_kept (s : State) (code key status : Nat) (payload : Bytes) :
    (finishFirst s code key status payload).kept = s.kept := by
  unfold finishFirst; split <;> simp

@[simp] theorem finishEnum_kept (s : State) : (finishEnum s).kept = s.kept := by
  unfold finishEnum; split <;> simp

@[simp] theorem dropServices_kept (r : Nat) (s : State) : (dropServices r s).kept = s.kept := by
  simp [dropServices]

@[simp] theorem startEnum_kept (s : State) (r : Nat) : (startEnum s r).kept = s.kept := by
  simp [startEnum]

@[simp] theorem launchEnum_kept (s : State) (r : Nat) : (launchEnum s r).kept = s.kept := by
  unfold launchEnum; split <;> simp

@[simp] theorem launchEnums_kept (s : State) : (launchEnums s).kept = s.kept := by
  simp [launchEnums]

@[simp] theorem ringEnumerateBody_kept (s : State) (q : Request) (t : Nat) : (ringEnumerateBody s q t).kept s = s.kept := by
  simp [ringEnumerateBody]

@[simp] theorem passDone_kept (r : Nat) (first second : List Bytes) (s : State) : (passDone r first second s).kept = s.kept := by
  simp [passDone]

@[simp] theorem joinNode_kept (r : Nat) (s : State) (p : Nat) : (joinNode r s p).kept = s.kept := by
  unfold joinNode; dsimp only; repeat' split
  all_goals simp

@[simp] theorem hotJoin_kept (r : Nat) (port : Port) (f : Bytes) (s : State) : (hotJoin r port f s).kept = s.kept := by
  simp [hotJoin]

@[simp] theorem ringArg_kept (u s : State) (r : Nat) (k : Reply) (h : k.kept u = u.kept) : (ringArg s r k).kept u = u.kept := by
  simp [ringArg, h]

@[simp] theorem nodeArg_kept (u s : State) (n : Nat) (k : Reply) (h : k.kept u = u.kept) : (nodeArg s n k).kept u = u.kept := by
  simp [nodeArg, h]

@[simp] theorem presentNode_kept (u s : State) (n : Nat) (k : Nat → Nat → Reply) (h : ∀ r p, (k r p).kept u = u.kept) :
    (presentNode s n k).kept u = u.kept := by
  refine nodeArg_kept _ _ _ _ ?_
  split <;> simp [h]

@[simp] theorem ringStatusBody_kept (s : State) (q : Request) (t : Nat) : (ringStatusBody s q t).kept s = s.kept := by
  simp [ringStatusBody]

@[simp] theorem nodeIdentityBody_kept (s : State) (q : Request) (t : Nat) : (nodeIdentityBody s q t).kept s = s.kept := by
  simp [nodeIdentityBody]

@[simp] theorem nodeEnableBody_kept (s : State) (q : Request) (t : Nat) : (nodeEnableBody s q t).kept s = s.kept := by
  simp [nodeEnableBody]

@[simp] theorem nodeAliasSetBody_kept (s : State) (q : Request) (t : Nat) : (nodeAliasSetBody s q t).kept s = s.kept := by
  simp [nodeAliasSetBody]

@[simp] theorem nodeParamBody_kept (code service : Nat) (s : State) (q : Request) (t : Nat) :
    (nodeParamBody code service s q t).kept s = s.kept := by
  simp [nodeParamBody]

@[simp] theorem tunnelConfigBody_kept (s : State) (q : Request) (t : Nat) : (tunnelConfigBody s q t).kept s = s.kept := by
  simp [tunnelConfigBody]

@[simp] theorem useSeq_kept (s : State) (r p : Nat) : (useSeq s r p).kept = s.kept := by rfl

@[simp] theorem txDone_kept (r : Nat) (i : TxItem) (s : State) : (txDone r i s).kept = s.kept := by
  unfold txDone; repeat' split
  all_goals simp

@[simp] theorem failAssign_kept (r p : Nat) (sv : Acyclic) (s : State) : (failAssign r p sv s).kept = s.kept := by
  simp [failAssign]

@[simp] theorem refuseConfig_kept (r p : Nat) (sv : Acyclic) (s : State) : (refuseConfig r p sv s).kept = s.kept := by
  simp [refuseConfig]

@[simp] theorem endService_kept (r p : Nat) (sv : Acyclic) (status : Nat) (reply : Bytes) (s : State) :
    (endService r p sv status reply s).kept = s.kept := by
  simp [endService]

@[simp] theorem takeResponse_kept (r : Nat) (f : Bytes) (s : State) : (takeResponse r f s).kept = s.kept := by
  unfold takeResponse; split <;> simp

@[simp] theorem takeTunnel_kept (r : Nat) (f : Bytes) (s : State) : (takeTunnel r f s).kept = s.kept := by
  simp [takeTunnel]

/-! ### Machine/RingRx -/

@[simp] theorem noteDelay_kept (s : State) (a : Nat) (d : Int) : (noteDelay s a d).kept = s.kept := by
  unfold noteDelay; repeat' split
  all_goals simp

@[simp] theorem delayFrom_kept (n : Node) (u : UpFrame) (extrapolates : Bool) (a : Nat) (s : State) :
    (delayFrom n u extrapolates a s).kept = s.kept := by
  unfold delayFrom; split <;> simp

@[simp] theorem driveStatus_kept (status : Nat) (a : Nat) (s : State) : (driveStatus status a s).kept = s.kept := by
  unfold driveStatus; dsimp only; repeat' split
  all_goals simp

@[simp] theorem takeUpSlice_kept (n : Node) (u : UpFrame) (b : Bytes) (a : Nat) (s : State) : (takeUpSlice n u b a s).kept = s.kept := by
  simp [takeUpSlice]

@[simp] theorem reportBreak_kept (r hop : Nat) (d : BreakDir) (s : State) : (reportBreak r hop d s).kept = s.kept := by
  simp [reportBreak]

@[simp] theorem noteBreak_kept (r hop : Nat) (d : BreakDir) (s : State) : (noteBreak r hop d s).kept = s.kept := by
  unfold noteBreak; split <;> simp

@[simp] theorem seeBreak_kept (r hop : Nat) (d : BreakDir) (s : State) : (seeBreak r hop d s).kept = s.kept := by
  simp [seeBreak]

@[simp] theorem breaksSeen_kept (r p : Nat) (u : UpFrame) (s : State) : (breaksSeen r p u s).kept = s.kept := by
  simp [breaksSeen]

@[simp] theorem reportBreaks_kept (r : Nat) (s : State) : (reportBreaks r s).kept = s.kept := by
  unfold reportBreaks
  refine kept_foldl _ (fun s x => ?_) _ _
  split <;> simp

@[simp] theorem takeUp_kept (r p : Nat) (f : Bytes) (s : State) : (takeUp r p f s).kept = s.kept := by
  simp [takeUp]

@[simp] theorem badCopy_kept (r : Nat) (port : Port) (f : Bytes) (s : State) : (badCopy r port f s).kept = s.kept := by
  unfold badCopy; split <;> simp

@[simp] theorem judgeHops_kept (r : Nat) (s : State) : (judgeHops r s).kept = s.kept := by
  simp [judgeHops]

@[simp] theorem judgeClock_kept (r p : Nat) (s : State) : (judgeClock r p s).kept = s.kept := by
  simp [judgeClock]

@[simp] theorem calibrate_kept (t0 : Nat) (r : Nat) (s : State) : (calibrate t0 r s).kept = s.kept := by
  unfold calibrate; dsimp only; repeat' split
  all_goals simp

/-! ### Machine/Gear -/

@[simp] theorem judgeMaster_kept (s : State) (a : Nat) (ok : Bool) : (judgeMaster s a ok).kept = s.kept := by
  simp [judgeMaster]

@[simp] theorem gearAdvance_kept (s : State) (a : Nat) : (gearAdvance s a).kept = s.kept := by
  simp [gearAdvance]

@[simp] theorem gearFlow_kept (s : State) (f : Nat) : (gearFlow s f).kept = s.kept := by
  simp [gearFlow]

@[simp] theorem gearRest_kept (s : State) : (gearRest s).kept = s.kept := by
  simp [gearRest]

/-! ### Machine/Tasks -/

@[simp] theorem writeRecord_kept (s : State) (t : PTask) : (writeRecord s t).kept = s.kept := by
  simp [writeRecord]

@[simp] theorem noteEcc_kept (s : State) (t : PTask) (ecc : EccRead) : (noteEcc s t ecc).kept = s.kept := by
  simp [noteEcc]

@[simp] theorem lawFaultTask_kept (s : State) (e : Nat) (t : PTask) (code clocks : Nat) :
    (lawFaultTask s e t code clocks).kept = s.kept := by
  simp [lawFaultTask]

@[simp] theorem completeUser_kept (s : State) (e : Nat) (t : PTask) : (completeUser s e t).kept = s.kept := by
  -- only the function is unfolded here: to compare the applications the kernel would evaluate `runActive`
  conv => lhs; arg 1; fun; fun; fun; delta completeUser
  generalize runActive s e t (clockLimit s t) = r
  obtain ⟨c, runs⟩ := r
  dsimp only
  split <;> simp

@[simp] theorem completeStd_kept (s : State) (e : Nat) (t : PTask) (clocks : Nat) : (completeStd s e t clocks).kept = s.kept := by
  simp [completeStd]

@[simp] theorem dropStale_kept (s : State) (e : Nat) (t : PTask) (clocks : Nat) : (dropStale s e t clocks).kept = s.kept := by
  simp [dropStale]

@[simp] theorem holdFaulted_kept (src : Nat) (s : State) (a : Nat) : (holdFaulted src s a).kept = s.kept := by
  simp [holdFaulted]

@[simp] theorem dispatchEngineStatsBody_kept (s : State) (q : Request) (t : Nat) : (dispatchEngineStatsBody s q t).kept s = s.kept := by
  simp [dispatchEngineStatsBody]

@[simp] theorem dispatchLevelStatsBody_kept (s : State) (q : Request) (t : Nat) : (dispatchLevelStatsBody s q t).kept s = s.kept := by rfl

@[simp] theorem dispatchFlowStatsBody_kept (s : State) (q : Request) (t : Nat) : (dispatchFlowStatsBody s q t).kept s = s.kept := by
  simp [dispatchFlowStatsBody]

@[simp] theorem dispatchStatsClearBody_kept (s : State) (q : Request) (t : Nat) : (dispatchStatsClearBody s q t).kept s = s.kept := by rfl

/-! ### Machine/Cycle -/

@[simp] theorem planLoadBody_kept (s : State) (q : Request) (t : Nat) : (planLoadBody s q t).kept s = s.kept := by
  simp [planLoadBody]

@[simp] theorem planCommitBody_kept (s : State) (q : Request) (t : Nat) : (planCommitBody s q t).kept s = s.kept := by
  simp [planCommitBody]

@[simp] theorem planStoreBody_kept (s : State) (q : Request) (t : Nat) : (planStoreBody s q t).kept s = s.kept := by
  unfold planStoreBody; split <;> simp

@[simp] theorem planRecallBody_kept (s : State) (q : Request) (t : Nat) : (planRecallBody s q t).kept s = s.kept := by
  simp [planRecallBody]

@[simp] theorem planStatusBody_kept (s : State) (q : Request) (t : Nat) : (planStatusBody s q t).kept s = s.kept := by
  simp [planStatusBody]

@[simp] theorem exchange_kept (s : State) : (exchange s).kept = s.kept := by
  simp [exchange]

@[simp] theorem noteNewPlan_kept (s : State) : (noteNewPlan s).kept = s.kept := by
  simp [noteNewPlan]

@[simp] theorem zeroBlocks_kept (ts : List PTask) (s : State) : (zeroBlocks ts s).kept = s.kept := by
  simp [zeroBlocks]

@[simp] theorem carryTasks_kept (s : State) (old : Image) : (carryTasks s old).kept = s.kept := by
  simp [carryTasks]

@[simp] theorem recheckPlan_kept (s : State) : (recheckPlan s).kept = s.kept := by
  simp [recheckPlan]

@[simp] theorem endExcursions_kept (s : State) : (endExcursions s).kept = s.kept := by rfl

@[simp] theorem activate_kept (s : State) : (activate s).kept = s.kept := by
  simp [activate]

@[simp] theorem keepStreams_kept (s : State) : (keepStreams s).kept = s.kept := by
  simp [keepStreams]

@[simp] theorem endOfCycle_kept (s : State) : (endOfCycle s).kept = s.kept := by
  simp [endOfCycle]

@[simp] theorem switchPlan_kept (n : Nat) (s : State) : (switchPlan n s).kept = s.kept := by
  simp [switchPlan]

@[simp] theorem dueSwitch_kept (n : Nat) (s : State) : (dueSwitch n s).kept = s.kept := by
  unfold dueSwitch; split <;> simp

@[simp] theorem armSwitch_kept (s : State) (named : Nat) : (armSwitch s named).kept = s.kept := by
  simp [armSwitch]

@[simp] theorem activateNow_kept (s : State) : (activateNow s).kept = s.kept := by
  simp [activateNow]

@[simp] theorem bindRings_kept (s : State) : (bindRings s).kept = s.kept := by
  simp [bindRings]

@[simp] theorem configureNodes_kept (s : State) : (configureNodes s).kept = s.kept := by
  simp [configureNodes]

@[simp] theorem acceptStart_kept (u s : State) (q : Request) (t : Nat) : (acceptStart s q t).kept u = s.kept := by
  simp [acceptStart]

@[simp] theorem cycleStartBody_kept (s : State) (q : Request) (t : Nat) : (cycleStartBody s q t).kept s = s.kept := by
  simp only [cycleStartBody, orElse_kept]
  split
  · split
    · rfl
    · split <;> simp
  · rfl

@[simp] theorem writePiHead_kept (s : State) (latest : Option Nat) : (writePiHead s latest).kept = s.kept := by
  simp [writePiHead]

@[simp] theorem startCycle_kept (n : Nat) (s : State) : (startCycle n s).kept = s.kept := by
  simp [startCycle]

@[simp] theorem beginCycle_kept (n : Nat) (s : State) : (beginCycle n s).kept = s.kept := by
  simp [beginCycle]

@[simp] theorem endUnits_kept (s0 : State) : (endUnits s0).kept = s0.kept := by
  simp [endUnits]

@[simp] theorem endCycle_kept (s0 : State) : (endCycle s0).kept = s0.kept := by
  simp [endCycle]

@[simp] theorem haltGroup_kept (s : State) (n : Nat) : (haltGroup s n).kept = s.kept := by
  simp [haltGroup]

@[simp] theorem haltAxis_kept (s : State) (a : Nat) : (haltAxis s a).kept = s.kept := by
  simp [haltAxis]

@[simp] theorem breakCycle_kept (s0 : State) : (breakCycle s0).kept = s0.kept := by
  simp [breakCycle]

@[simp] theorem reviveEngines_kept (s : State) : (reviveEngines s).kept = s.kept := by
  simp [reviveEngines]

@[simp] theorem cycleStopBody_kept (s : State) (q : Request) (t : Nat) : (cycleStopBody s q t).kept s = s.kept := by
  simp [cycleStopBody]

@[simp] theorem moveFlow_kept (s : State) (f e : Nat) : (moveFlow s f e).kept = s.kept := by
  simp [moveFlow]

@[simp] theorem flowPlaceBody_kept (s : State) (q : Request) (t : Nat) : (flowPlaceBody s q t).kept s = s.kept := by
  unfold flowPlaceBody; dsimp only; repeat' split
  all_goals simp

/-! ### Machine/Burst -/

@[simp] theorem departMsgs_kept (r : Nat) (s : State) : (departMsgs r s).kept = s.kept := by
  simp [departMsgs]

@[simp] theorem takeMessages_kept (r : Nat) (s : State) : (takeMessages r s).kept = s.kept := by
  simp [takeMessages]

@[simp] theorem putBurst_kept (r : Nat) (b : Burst) (copyQ : Bytes) (s : State) : (putBurst r b copyQ s).kept = s.kept := by rfl

@[simp] theorem launchBurst1_kept (r : Nat) (s : State) : (launchBurst1 r s).kept = s.kept := by
  simp [launchBurst1]

@[simp] theorem failLate_kept (s : State) (k : Nat) : (failLate s k).kept = s.kept := by
  simp [failLate]

@[simp] theorem noteSlice_kept (k at_ : Nat) (before : State) (s : State) (x : Slice) : (noteSlice k at_ before s x).kept = s.kept := by
  unfold noteSlice; dsimp only; repeat' split
  all_goals simp

@[simp] theorem launchBurst_kept (r k at_ : Nat) (s0 : State) : (launchBurst r k at_ s0).kept = s0.kept := by
  simp [launchBurst]

/-! ### Machine/PairOps -/

@[simp] theorem State.onPair_kept (s : State) (f : Pair → Pair) : (State.onPair s f).kept = s.kept := by rfl

@[simp] theorem putState_kept (s : State) (t : PTask) (ws : List W24) : (putState s t ws).kept = s.kept := by
  simp [putState]

@[simp] theorem skipFor_kept (a n : Nat) (s : State) : (skipFor a n s).kept = s.kept := by rfl

@[simp] theorem adoptState_kept (s : State) (i : Nat) (ws : List W24) : (adoptState s i ws).kept = s.kept := by
  unfold adoptState; split <;> simp

@[simp] theorem adoptAxis_kept (s : State) (a : Nat) (f : Axis → Axis) : (adoptAxis s a f).kept = s.kept := by
  simp [adoptAxis]

@[simp] theorem adoptItem_kept (s : State) (i : MirrorItem) : (adoptItem s i).kept = s.kept := by
  unfold adoptItem; split <;> simp

@[simp] theorem adoptStreams_kept (n : Nat) (s : State) : (adoptStreams n s).kept = s.kept := by
  unfold adoptStreams; dsimp only; repeat' split
  all_goals simp

@[simp] theorem judgeReady_kept (s : State) : (judgeReady s).kept = s.kept := by
  simp [judgeReady]

@[simp] theorem skipCompare_kept (s : State) : (skipCompare s).kept = s.kept := by rfl

@[simp] theorem compareOut_kept (a : Nat) (h : Bytes) (s : State) : (compareOut a h s).kept = s.kept := by
  unfold compareOut; repeat' split
  all_goals simp

@[simp] theorem shadowSlice_kept (a : Nat) (h : Bytes) (s : State) : (shadowSlice a h s).kept = s.kept := by
  simp [shadowSlice]

@[simp] theorem settleShadow_kept (s : State) : (settleShadow s).kept = s.kept := by
  simp [settleShadow]

@[simp] theorem judgeWitness_kept (s : State) : (judgeWitness s).kept = s.kept := by
  simp [judgeWitness]

@[simp] theorem loseGrip_kept (s : State) : (loseGrip s).kept = s.kept := by
  simp [loseGrip]

@[simp] theorem judgeSelf_kept (ended : Nat) (s : State) : (judgeSelf ended s).kept = s.kept := by
  simp [judgeSelf]

@[simp] theorem dropMessages_kept (s : State) : (dropMessages s).kept = s.kept := by
  simp [dropMessages]

@[simp] theorem pairTick_kept (ended prevT0 : Nat) (s : State) : (pairTick ended prevT0 s).kept = s.kept := by
  simp [pairTick]

/-! ### Machine/ProfileTick -/

@[simp] theorem evalAxis_kept (t : Nat) (s : State) (a : Nat) : (evalAxis t s a).kept = s.kept := by
  simp [evalAxis]

@[simp] theorem evalGroup_kept (t : Nat) (s : State) (n : Nat) : (evalGroup t s n).kept = s.kept := by
  unfold evalGroup; dsimp only; repeat' split
  all_goals simp

@[simp] theorem newLimits_kept (s : State) (a t : Nat) (w : List (Nat × Int)) : (newLimits s a t w).kept = s.kept := by
  simp [newLimits]

@[simp] theorem applyAxis_kept (a t : Nat) (s : State) (w : WaitingMotion) : (applyAxis a t s w).kept = s.kept := by
  unfold applyAxis; split <;> simp

@[simp] theorem newGroupLimits_kept (s : State) (n t : Nat) (l : Limits) : (newGroupLimits s n t l).kept = s.kept := by
  unfold newGroupLimits; dsimp only; repeat' split
  all_goals simp

@[simp] theorem resumeGroup_kept (s : State) (n t : Nat) : (resumeGroup s n t).kept = s.kept := by
  unfold resumeGroup; dsimp only; repeat' split
  all_goals simp

@[simp] theorem applyGroup_kept (n t : Nat) (s : State) (w : WaitingMotion) : (applyGroup n t s w).kept = s.kept := by
  unfold applyGroup; split <;> simp

@[simp] theorem runAxis_kept (ns : Nat) (lw : List (Nat × WaitingMotion)) (s : State) (a : Nat) : (runAxis ns lw s a).kept = s.kept := by
  simp [runAxis]

@[simp] theorem runGroup_kept (ns : Nat) (s : State) (n : Nat) : (runGroup ns s n).kept = s.kept := by
  simp [runGroup]

@[simp] theorem judgeLimits_kept (s : State) (a : Nat) : (judgeLimits s a).kept = s.kept := by
  simp [judgeLimits]

@[simp] theorem judgeRange_kept (s : State) (a : Nat) : (judgeRange s a).kept = s.kept := by
  simp [judgeRange]

@[simp] theorem motionTick_kept (lw : List (Nat × WaitingMotion)) (s : State) : (motionTick lw s).kept = s.kept := by
  simp [motionTick]

/-! ### Machine/Tick -/

@[simp] theorem tickRing_kept (t0 r : Nat) (s : State) : (tickRing t0 r s).kept = s.kept := by
  simp [tickRing]

@[simp] theorem localDelay_kept (s : State) (a : Nat) : (localDelay s a).kept = s.kept := by
  unfold localDelay; dsimp only; repeat' split
  all_goals simp

@[simp] theorem stoTick_kept (s : State) (a : Nat) : (stoTick s a).kept = s.kept := by
  simp [stoTick]

@[simp] theorem restTick_kept (s : State) (a : Nat) : (restTick s a).kept = s.kept := by
  simp [restTick]

@[simp] theorem alignSteps_kept (s : State) (a : Nat) : (alignSteps s a).kept = s.kept := by
  unfold alignSteps; split <;> simp

@[simp] theorem captureAxis_kept (s : State) (a : Nat) : (captureAxis s a).kept = s.kept := by
  simp [captureAxis]

@[simp] theorem enableTick_kept (s : State) (a : Nat) : (enableTick s a).kept = s.kept := by
  unfold enableTick; split <;> simp

@[simp] theorem noSlotSample_kept (s : State) (a : Nat) : (noSlotSample s a).kept = s.kept := by
  unfold noSlotSample; split <;> simp

@[simp] theorem tickInputs_kept (s : State) : (tickInputs s).kept = s.kept := by
  simp [tickInputs]

@[simp] theorem coefTick_kept (s : State) : (coefTick s).kept = s.kept := by
  simp [coefTick]

@[simp] theorem truingTick_kept (s : State) : (truingTick s).kept = s.kept := by
  unfold truingTick; split <;> simp

@[simp] theorem joinTick_kept (s : State) : (joinTick s).kept = s.kept := by
  unfold joinTick; split <;> simp

@[simp] theorem openCycle_kept (ended t0 : Nat) (s : State) : (openCycle ended t0 s).kept = s.kept := by
  simp [openCycle]

/-! ### Machine/Pair -/

@[simp] theorem pairStatusBody_kept (s : State) (q : Request) (t : Nat) : (pairStatusBody s q t).kept s = s.kept := by
  simp [pairStatusBody]

@[simp] theorem pairJoinBody_kept (s : State) (q : Request) (t : Nat) : (pairJoinBody s q t).kept s = s.kept := by
  simp [pairJoinBody]

@[simp] theorem gripReleaseBody_kept (s : State) (q : Request) (t : Nat) : (gripReleaseBody s q t).kept s = s.kept := by
  simp [gripReleaseBody]

@[simp] theorem followTime_kept (s : State) (f : PartnerFrame) : (followTime s f).kept = s.kept := by
  unfold followTime; repeat' split
  all_goals simp

@[simp] theorem stepJoin_kept (s : State) (f : PartnerFrame) : (stepJoin s f).kept = s.kept := by
  unfold stepJoin; dsimp only; repeat' split
  all_goals simp

@[simp] theorem heardDivergence_kept (s : State) (f : PartnerFrame) : (heardDivergence s f).kept = s.kept := by
  unfold heardDivergence; split <;> simp

@[simp] theorem answerFrame_kept (s : State) : (answerFrame s).kept = s.kept := by
  simp [answerFrame]

@[simp] theorem settleAxes_kept (s : State) : (settleAxes s).kept = s.kept := by
  unfold settleAxes; split <;> simp

@[simp] theorem measureTie_kept (port : Port) (f : Bytes) (s : State) : (measureTie port f s).kept = s.kept := by
  simp [measureTie]

@[simp] theorem shadowBurst_kept (r k : Nat) (f : Bytes) (s : State) : (shadowBurst r k f s).kept = s.kept := by
  simp [shadowBurst]

/-! ### Outcomes -/

/-- What an outcome keeps; one that is no next state keeps nothing. -/
def outKept : Out → Option (List Instr × Variant)
  | .next t => some t.kept
  | _ => none

@[simp] theorem outKept_next (t : State) : outKept (.next t) = some t.kept := by rfl
@[simp] theorem outKept_ite (p : Prop) [Decidable p] (a b : Out) : outKept (if p then a else b) = if p then outKept a else outKept b :=
  apply_ite outKept p a b

/-- An outcome that keeps something is a next state. -/
theorem next_of_outKept {o : Out} {k : List Instr × Variant} (h : outKept o = some k) : ∃ t, o = .next t ∧ t.kept = k := by
  cases o with
  | next t => exact ⟨t, rfl, Option.some.inj h⟩
  | fault r => cases h
  | refused r => cases h

end Sys2Proof.Machine
end

