-- ==== Sys2Proof/Proofs/Steps.lean ====
section
/-! What every row keeps, and with it every step. -/

namespace Sys2Proof.Machine

/-! ### Rules the rows share -/

@[simp] theorem advanceTo_board (u : Nat) (s : State) : (advanceTo u s).board = s.board := by
  unfold advanceTo; split
  · rfl
  · exact advance_board _ _

/-- A row that goes on at the axis a slot belongs to keeps what both continuations keep. -/
theorem outKept_matchAxis {k : List Instr × Variant} (o : Option Nat) (f : Nat → Out) (d : Out) (hf : ∀ a, outKept (f a) = some k)
    (hd : outKept d = some k) : outKept (match o with | some a => f a | none => d) = some k := by
  cases o with
  | none => exact hd
  | some a => exact hf a

/-- A served request keeps what its body keeps. -/
theorem outKept_serve {code : Nat} {body : State → Request → Nat → Reply} (h : ∀ s q t, (body s q t).kept s = s.kept) (dt : Nat)
    (q : Request) (s : State) : outKept (.next (serve code body dt q s)) = some s.kept :=
  congrArg some (serve_kept code body dt q s h)

/-- A host access keeps what the access itself keeps. -/
theorem outKept_hostAccess {f : State → State} (h : ∀ s, (f s).kept = s.kept) (dt : Nat) (s : State) :
    outKept (hostAccess dt f s) = some s.kept := by
  unfold hostAccess; dsimp only; split <;> simp [h]

/-- An engine's instruction changes that engine only. -/
theorem outKept_runRow (e : Nat) (op : EOp) (m1 m2 : Move) (s : State) : outKept (runRow e op m1 m2 s) = some s.kept := by
  unfold runRow; split <;> simp

/-! ### Rows of Machine/Motion -/

@[simp] theorem execHomingReferenceShift_kept (dt : Nat) (axis : Nat) (s0 : State) :
    outKept (execHomingReferenceShift dt axis s0) = some s0.kept := by
  unfold execHomingReferenceShift; dsimp only; repeat' split
  all_goals simp

@[simp] theorem execHomingNotFound_kept (dt : Nat) (axis : Nat) (s0 : State) :
    outKept (execHomingNotFound dt axis s0) = some s0.kept := by
  unfold execHomingNotFound; dsimp only; repeat' split
  all_goals simp

@[simp] theorem execHomingChatter_kept (dt : Nat) (axis : Nat) (s0 : State) : outKept (execHomingChatter dt axis s0) = some s0.kept := by
  unfold execHomingChatter; dsimp only; repeat' split
  all_goals simp

@[simp] theorem execMoveComplete_kept (dt : Nat) (who : Mover) (s0 : State) : outKept (execMoveComplete dt who s0) = some s0.kept := by
  unfold execMoveComplete; split <;> simp

@[simp] theorem execSwitchQualified_kept (dt : Nat) (axis : Nat) (sw : Switch) (s0 : State) :
    outKept (execSwitchQualified dt axis sw s0) = some s0.kept := by
  unfold execSwitchQualified; dsimp only; repeat' split
  all_goals simp

@[simp] theorem execStepperHoldDelayExpiry_kept (dt : Nat) (axis : Nat) (s0 : State) :
    outKept (execStepperHoldDelayExpiry dt axis s0) = some s0.kept := by
  unfold execStepperHoldDelayExpiry; dsimp only; repeat' split
  all_goals simp

@[simp] theorem execStepperWakeDone_kept (dt : Nat) (axis : Nat) (s0 : State) :
    outKept (execStepperWakeDone dt axis s0) = some s0.kept := by
  unfold execStepperWakeDone; dsimp only; repeat' split
  all_goals simp

/-! ### Rows of Machine/AxisCmd -/

@[simp] theorem execAxisEnabled_kept (dt : Nat) (axis : Nat) (s0 : State) : outKept (execAxisEnabled dt axis s0) = some s0.kept := by
  unfold execAxisEnabled; dsimp only; repeat' split
  all_goals simp

@[simp] theorem execAxisEnableTimeout_kept (dt : Nat) (axis : Nat) (s0 : State) :
    outKept (execAxisEnableTimeout dt axis s0) = some s0.kept := by
  unfold execAxisEnableTimeout; dsimp only; repeat' split
  all_goals simp

@[simp] theorem execBrakeEngageExpiry_kept (dt : Nat) (axis : Nat) (s0 : State) :
    outKept (execBrakeEngageExpiry dt axis s0) = some s0.kept := by
  unfold execBrakeEngageExpiry; dsimp only; repeat' split
  all_goals simp

@[simp] theorem execGearRampEnd_kept (dt : Nat) (axis : Nat) (s0 : State) : outKept (execGearRampEnd dt axis s0) = some s0.kept := by
  simp [execGearRampEnd]

@[simp] theorem execFeedbackLost_kept (dt : Nat) (axis : Nat) (s0 : State) : outKept (execFeedbackLost dt axis s0) = some s0.kept := by
  simp [execFeedbackLost]

@[simp] theorem execFollowingError_kept (dt : Nat) (axis : Nat) (s0 : State) :
    outKept (execFollowingError dt axis s0) = some s0.kept := by
  simp [execFollowingError]

/-! ### Rows of Machine/TimeCmd -/

@[simp] theorem execSlewDone_kept (dt : Nat) (s0 : State) : outKept (execSlewDone dt s0) = some s0.kept := by
  simp [execSlewDone]

@[simp] theorem execPtpMessageRx_kept (dt : Nat) (m : PtpRx) (s0 : State) : outKept (execPtpMessageRx dt m s0) = some s0.kept := by
  simp [execPtpMessageRx]

@[simp] theorem execPtpLost_kept (dt : Nat) (port : Nat) (portState : Nat) (s0 : State) :
    outKept (execPtpLost dt port portState s0) = some s0.kept := by
  simp [execPtpLost]

@[simp] theorem execPtpMessageTx_kept (dt : Nat) (port : Nat) (kind : PtpKind) (req : Nat) (s0 : State) :
    outKept (execPtpMessageTx dt port kind req s0) = some s0.kept := by
  unfold execPtpMessageTx; dsimp only; repeat' split
  all_goals simp

@[simp] theorem execPlantFrameRx_kept (dt : Nat) (port : Nat) (s0 : State) : outKept (execPlantFrameRx dt port s0) = some s0.kept := by
  simp [execPlantFrameRx]

@[simp] theorem execTimedFrameLaunch_kept (port : Nat) (s0 : State) : outKept (execTimedFrameLaunch port s0) = some s0.kept := by
  unfold execTimedFrameLaunch; split <;> simp

@[simp] theorem execToutPulse_kept (out : Nat) (s0 : State) : outKept (execToutPulse out s0) = some s0.kept := by
  simp [execToutPulse]

/-! ### Rows of Machine/Dma -/

@[simp] theorem execDmaEntryRead_kept (dt : Nat) (ch : Nat) (entry : EntryRead) (s0 : State) :
    outKept (execDmaEntryRead dt ch entry s0) = some s0.kept := by
  simp [execDmaEntryRead]

@[simp] theorem execDmaBurst_kept (dt : Nat) (ch : Nat) (data : Bytes) (read : BurstRead) (s0 : State) :
    outKept (execDmaBurst dt ch data read s0) = some s0.kept := by
  simp [execDmaBurst]

/-! ### Rows of Machine/LocalPwm -/

@[simp] theorem execPwmUpdatePoint_kept (timer : Nat) (s0 : State) : outKept (execPwmUpdatePoint timer s0) = some s0.kept := by
  simp [execPwmUpdatePoint]

@[simp] theorem execBootRefresh_kept (dt : Nat) (pair : Nat) (s0 : State) : outKept (execBootRefresh dt pair s0) = some s0.kept := by
  unfold execBootRefresh; dsimp only; repeat' split
  all_goals simp

@[simp] theorem execTripInput_kept (dt : Nat) (input : Nat) (low : Bool) (s0 : State) :
    outKept (execTripInput dt input low s0) = some s0.kept := by
  simp [execTripInput]

/-! ### Rows of Machine/Calipers -/

@[simp] theorem execCalRow_kept (dt : Nat) (run : Option (Bool × Nat)) (s0 : State) : outKept (execCalRow dt run s0) = some s0.kept := by
  unfold execCalRow; dsimp only; repeat' split
  all_goals simp

@[simp] theorem execTrigBusEdge_kept (dt : Nat) (line : Nat) (s0 : State) : outKept (execTrigBusEdge dt line s0) = some s0.kept := by
  unfold execTrigBusEdge; dsimp only; repeat' split
  all_goals simp

@[simp] theorem execCalBusRetryWait_kept (dt : Nat) (waitNs : Nat) (s0 : State) :
    outKept (execCalBusRetryWait dt waitNs s0) = some s0.kept := by
  unfold execCalBusRetryWait; dsimp only; repeat' split
  all_goals simp

@[simp] theorem execCalNoEchoTimeout_kept (dt : Nat) (s0 : State) : outKept (execCalNoEchoTimeout dt s0) = some s0.kept := by
  unfold execCalNoEchoTimeout; dsimp only; repeat' split
  all_goals simp

@[simp] theorem execSyncClkEdge_kept (dt : Nat) (s0 : State) : outKept (execSyncClkEdge dt s0) = some s0.kept := by
  simp [execSyncClkEdge]

@[simp] theorem execSyncClkLost_kept (dt : Nat) (s0 : State) : outKept (execSyncClkLost dt s0) = some s0.kept := by
  unfold execSyncClkLost; dsimp only; repeat' split
  all_goals simp

/-! ### Rows of Machine/LocalIn -/

@[simp] theorem execEncCountEdge_kept (dt : Nat) (ch : Nat) (a0 b0 : Bool) (s0 : State) :
    outKept (execEncCountEdge dt ch a0 b0 s0) = some s0.kept := by
  simp [execEncCountEdge]

@[simp] theorem execEncIllegalTransition_kept (dt : Nat) (ch : Nat) (s0 : State) :
    outKept (execEncIllegalTransition dt ch s0) = some s0.kept := by
  simp [execEncIllegalTransition]

@[simp] theorem execEncWireFault_kept (dt : Nat) (ch : Nat) (w : WirePair) (s0 : State) :
    outKept (execEncWireFault dt ch w s0) = some s0.kept := by
  simp [execEncWireFault]

@[simp] theorem execEncIndexEvent_kept (dt : Nat) (z : ZLevel) (s0 : State) : outKept (execEncIndexEvent dt z s0) = some s0.kept := by
  unfold execEncIndexEvent; dsimp only; repeat' split
  all_goals simp

@[simp] theorem execSsiExchangeDone_kept (dt : Nat) (ch : Nat) (frame : Nat) (lowAtStart : Bool) (s0 : State) :
    outKept (execSsiExchangeDone dt ch frame lowAtStart s0) = some s0.kept := by
  unfold execSsiExchangeDone; dsimp only; repeat' split
  all_goals simp

@[simp] theorem execAdcTrigger_kept (dt : Nat) (inj : Bool) (i : Nat) (s0 : State) :
    outKept (execAdcTrigger dt inj i s0) = some s0.kept := by
  unfold execAdcTrigger; dsimp only; repeat' split
  all_goals simp

@[simp] theorem execAdcConversionDone_kept (dt : Nat) (inj : Bool) (i : Nat) (code : Int) (s0 : State) :
    outKept (execAdcConversionDone dt inj i code s0) = some s0.kept := by
  unfold execAdcConversionDone
  dsimp only
  split
  · simp
  · split
    · simp
    · split
      · simp
      · split <;> simp

@[simp] theorem execSlotSample_kept (slot : Nat) (s0 : State) : outKept (execSlotSample slot s0) = some s0.kept := by
  unfold execSlotSample
  extract_lets t j
  split
  · rfl
  split
  extract_lets ahead mid s s1 s2 s3
  have h3 : s3.kept = s0.kept := by simp [s3, s2, s1, s]
  clear_value s3 mid
  split
  · rfl
  split
  · simp [s]
  refine outKept_matchAxis _ _ _ (fun ax => ?_) (congrArg some h3)
  extract_lets src s4
  have h4 : s4.kept = s0.kept := by
    unfold s4
    generalize ainAt s3 src mid = r
    cases r with
    | none => exact h3
    | some v => exact h3
  clear_value s4
  split <;> simp [h4]

@[simp] theorem execDinRawEdge_kept (dt : Nat) (n : Nat) (level : Bool) (s0 : State) :
    outKept (execDinRawEdge dt n level s0) = some s0.kept := by
  simp [execDinRawEdge]

@[simp] theorem execProbeEdge_kept (dt : Nat) (n : Nat) (rising : Bool) (s0 : State) :
    outKept (execProbeEdge dt n rising s0) = some s0.kept := by
  simp [execProbeEdge]

@[simp] theorem execAdcRefReady_kept (dt : Nat) (s0 : State) : outKept (execAdcRefReady dt s0) = some s0.kept := by
  simp [execAdcRefReady]

@[simp] theorem execAdcCalibrateDone_kept (dt : Nat) (factors : List CoreFactors) (s0 : State) :
    outKept (execAdcCalibrateDone dt factors s0) = some s0.kept := by
  unfold execAdcCalibrateDone; dsimp only; repeat' split
  all_goals simp

@[simp] theorem execAdcLiveCalStart_kept (dt : Nat) (s0 : State) : outKept (execAdcLiveCalStart dt s0) = some s0.kept := by
  unfold execAdcLiveCalStart; dsimp only; repeat' split
  all_goals simp

@[simp] theorem execAdcLiveCalDone_kept (dt : Nat) (f : CoreFactors) (s0 : State) :
    outKept (execAdcLiveCalDone dt f s0) = some s0.kept := by
  unfold execAdcLiveCalDone; dsimp only; repeat' split
  all_goals simp

/-! ### Rows of Machine/Diag -/

@[simp] theorem execShavingsCommitDone_kept (dt : Nat) (s0 : State) : outKept (execShavingsCommitDone dt s0) = some s0.kept := by
  unfold execShavingsCommitDone; dsimp only; repeat' split
  all_goals simp

/-! ### Rows of Machine/Safety -/

@[simp] theorem execSafetyVectorExchange_kept (dt : Nat) (vectors : VectorRead) (s0 : State) :
    outKept (execSafetyVectorExchange dt vectors s0) = some s0.kept := by
  unfold execSafetyVectorExchange; repeat' split
  all_goals simp

@[simp] theorem execSafetyVectorMissing_kept (dt : Nat) (s0 : State) : outKept (execSafetyVectorMissing dt s0) = some s0.kept := by
  simp [execSafetyVectorMissing]

@[simp] theorem execSinChange_kept (dt : Nat) (n : Nat) (new1 new2 : Bool) (s0 : State) :
    outKept (execSinChange dt n new1 new2 s0) = some s0.kept := by
  simp [execSinChange]

@[simp] theorem execSinDiscrepancy_kept (dt : Nat) (pair : Nat) (s0 : State) :
    outKept (execSinDiscrepancy dt pair s0) = some s0.kept := by
  simp [execSinDiscrepancy]

@[simp] theorem execQualifiedReset_kept (dt : Nat) (s0 : State) : outKept (execQualifiedReset dt s0) = some s0.kept := by
  simp [execQualifiedReset]

@[simp] theorem execSs1TimeExpiry_kept (dt : Nat) (fn : Nat) (s0 : State) : outKept (execSs1TimeExpiry dt fn s0) = some s0.kept := by
  simp [execSs1TimeExpiry]

@[simp] theorem execTestPulse_kept (dt : Nat) (out : Nat) (readsOff : Bool) (s0 : State) :
    outKept (execTestPulse dt out readsOff s0) = some s0.kept := by
  simp [execTestPulse]

@[simp] theorem execOutputFault_kept (dt : Nat) (out : Nat) (cause : Nat) (s0 : State) :
    outKept (execOutputFault dt out cause s0) = some s0.kept := by
  simp [execOutputFault]

@[simp] theorem execSafeMsgTx_kept (dt : Nat) (conn : Nat) (agree : Bool) (s0 : State) :
    outKept (execSafeMsgTx dt conn agree s0) = some s0.kept := by
  simp [execSafeMsgTx]

@[simp] theorem execSafeEchoRx_kept (dt : Nat) (conn : Nat) (msg : Bytes) (s0 : State) :
    outKept (execSafeEchoRx dt conn msg s0) = some s0.kept := by
  simp [execSafeEchoRx]

@[simp] theorem execSafeConnWatchdogExpiry_kept (dt : Nat) (conn : Nat) (s0 : State) :
    outKept (execSafeConnWatchdogExpiry dt conn s0) = some s0.kept := by
  simp [execSafeConnWatchdogExpiry]

/-! ### Rows of Machine/LawCmd -/

@[simp] theorem execLawLoadDone_kept (dt : Nat) (s0 : State) : outKept (execLawLoadDone dt s0) = some s0.kept := by
  unfold execLawLoadDone; dsimp only; repeat' split
  all_goals simp

@[simp] theorem execDebugHaltRequest_kept (dt : Nat) (target : HaltTarget) (s0 : State) :
    outKept (execDebugHaltRequest dt target s0) = some s0.kept := by
  unfold execDebugHaltRequest; split <;> simp

@[simp] theorem execDebugSingleStep_kept (dt : Nat) (engine : Nat) (s0 : State) :
    outKept (execDebugSingleStep dt engine s0) = some s0.kept := by
  simp [execDebugSingleStep]

@[simp] theorem execDebugResume_kept (dt : Nat) (target : HaltTarget) (s0 : State) :
    outKept (execDebugResume dt target s0) = some s0.kept := by
  unfold execDebugResume; split <;> simp

@[simp] theorem execClockHalted_kept (dt : Nat) (s0 : State) : outKept (execClockHalted dt s0) = some s0.kept := by
  simp [execClockHalted]

/-! ### Rows of Machine/Truing -/

@[simp] theorem execTruingPassStart_kept (dt : Nat) (s0 : State) : outKept (execTruingPassStart dt s0) = some s0.kept := by
  simp [execTruingPassStart]

@[simp] theorem execAvsReadback_kept (dt : Nat) (mv : Nat) (s0 : State) : outKept (execAvsReadback dt mv s0) = some s0.kept := by
  unfold execAvsReadback; dsimp only; repeat' split
  all_goals simp

/-! ### Rows of Machine/Power -/

@[simp] theorem execMainRailsValid_kept (dt : Nat) (s0 : State) : outKept (execMainRailsValid dt s0) = some s0.kept := by
  simp [execMainRailsValid]

@[simp] theorem execMainRailsLost_kept (dt : Nat) (s0 : State) : outKept (execMainRailsLost dt s0) = some s0.kept := by
  simp [execMainRailsLost]

@[simp] theorem execAonSupplyApplied_kept (dt : Nat) (main : Bool) (s0 : State) :
    outKept (execAonSupplyApplied dt main s0) = some s0.kept := by
  simp [execAonSupplyApplied]

@[simp] theorem execAonSupplyLost_kept (dt : Nat) (s0 : State) : outKept (execAonSupplyLost dt s0) = some s0.kept := by
  simp [execAonSupplyLost]

@[simp] theorem execAonSupplySwitch_kept (dt : Nat) (toMain : Bool) (s0 : State) :
    outKept (execAonSupplySwitch dt toMain s0) = some s0.kept := by
  simp [execAonSupplySwitch]

@[simp] theorem execWake_kept (dt : Nat) (byPin : Bool) (s0 : State) : outKept (execWake dt byPin s0) = some s0.kept := by
  simp [execWake]

@[simp] theorem execResetNAssert_kept (dt : Nat) (lowNs : Nat) (taken : Bool) (s0 : State) :
    outKept (execResetNAssert dt lowNs taken s0) = some s0.kept := by
  simp [execResetNAssert]

@[simp] theorem execResetRelease_kept (dt : Nat) (hostSel : Bool) (pairSel : Nat) (s0 : State) :
    outKept (execResetRelease dt hostSel pairSel s0) = some s0.kept := by
  simp [execResetRelease]

@[simp] theorem execSysWatchdogExpiry_kept (dt : Nat) (s0 : State) : outKept (execSysWatchdogExpiry dt s0) = some s0.kept := by
  simp [execSysWatchdogExpiry]

@[simp] theorem execHostWatchdogExpiry_kept (dt : Nat) (s0 : State) : outKept (execHostWatchdogExpiry dt s0) = some s0.kept := by
  unfold execHostWatchdogExpiry; dsimp only; repeat' split
  all_goals simp

@[simp] theorem execPcieLinkReset_kept (dt : Nat) (linkUp : Bool) (s0 : State) :
    outKept (execPcieLinkReset dt linkUp s0) = some s0.kept := by
  simp [execPcieLinkReset]

@[simp] theorem execClockMonitor_kept (reading : ClockReading) (s0 : State) : outKept (execClockMonitor reading s0) = some s0.kept := by
  simp [execClockMonitor]

@[simp] theorem execBootFault_kept (dt : Nat) (cause : Nat) (s0 : State) : outKept (execBootFault dt cause s0) = some s0.kept := by
  simp [execBootFault]

@[simp] theorem execFirmwareStarted_kept (dt : Nat) (b : BootResult) (s0 : State) :
    outKept (execFirmwareStarted dt b s0) = some s0.kept := by
  simp [execFirmwareStarted]

/-! ### Rows of Machine/System -/

@[simp] theorem execPowerDomainSwitched_kept (dt : Nat) (domain : Nat) (s0 : State) :
    outKept (execPowerDomainSwitched dt domain s0) = some s0.kept := by
  unfold execPowerDomainSwitched; dsimp only; repeat' split
  all_goals simp

@[simp] theorem execPdHoldMaxExpiry_kept (dt : Nat) (s0 : State) : outKept (execPdHoldMaxExpiry dt s0) = some s0.kept := by
  simp [execPdHoldMaxExpiry]

@[simp] theorem execFwStageCommitDone_kept (dt : Nat) (target : Nat) (s0 : State) :
    outKept (execFwStageCommitDone dt target s0) = some s0.kept := by
  unfold execFwStageCommitDone; dsimp only; repeat' split
  all_goals simp

@[simp] theorem execSysReset_kept (dt : Nat) (q : Request) (s : State) : outKept (execSysReset dt q s) = some s.kept := by
  simp [execSysReset]

@[simp] theorem execSysStandby_kept (dt : Nat) (q : Request) (s : State) : outKept (execSysStandby dt q s) = some s.kept := by
  simp [execSysStandby]

@[simp] theorem execSysPreopDone_kept (dt : Nat) (s0 : State) : outKept (execSysPreopDone dt s0) = some s0.kept := by
  simp [execSysPreopDone]

/-! ### Rows of Machine/Host -/

@[simp] theorem execMailboxCommandStart_kept (dt : Nat) (mail : MailRead) (s0 : State) :
    outKept (execMailboxCommandStart dt mail s0) = some s0.kept := by
  simp [execMailboxCommandStart]

@[simp] theorem execNotifyPost_kept (dt : Nat) (s : State) : outKept (execNotifyPost dt s) = some s.kept := by
  simp [execNotifyPost]

@[simp] theorem execMbReqWrite_kept (dt : Nat) (mb : Nat) (tail : BitVec 16) (s : State) :
    outKept (execMbReqWrite dt mb tail s) = some s.kept :=
  outKept_hostAccess (fun s => ringDoorbell_kept s mb tail) dt s

@[simp] theorem execMbRspWrite_kept (dt : Nat) (mb : Nat) (head : BitVec 16) (s : State) :
    outKept (execMbRspWrite dt mb head s) = some s.kept :=
  outKept_hostAccess (fun s => moveRspHead_kept s mb head) dt s

@[simp] theorem execMbStatWrite_kept (dt : Nat) (mb : Nat) (value : BitVec 32) (s : State) :
    outKept (execMbStatWrite dt mb value s) = some s.kept :=
  outKept_hostAccess (fun s => clearStat_kept s mb value.toNat) dt s

@[simp] theorem execTunnelTxSlot_kept (dt : Nat) (ring : Nat) (tail : BitVec 16) (s : State) :
    outKept (execTunnelTxSlot dt ring tail s) = some s.kept :=
  outKept_hostAccess (fun s => moveTxTail_kept s ring tail) dt s

@[simp] theorem execTunRxHeadWrite_kept (dt : Nat) (ring : Nat) (head : BitVec 16) (s : State) :
    outKept (execTunRxHeadWrite dt ring head s) = some s.kept :=
  outKept_hostAccess (fun s => moveRxHead_kept s ring head) dt s

@[simp] theorem execTunStatRead_kept (dt : Nat) (ring : Nat) (s : State) : outKept (execTunStatRead dt ring s) = some s.kept :=
  outKept_hostAccess (fun s => by split <;> simp) dt s

@[simp] theorem execResetReq_kept (dt : Nat) (value : BitVec 32) (s : State) : outKept (execResetReq dt value s) = some s.kept :=
  outKept_hostAccess (fun s => writeControl_kept s value.toNat) dt s

@[simp] theorem execIrqMaster_kept (dt : Nat) (value : BitVec 32) (s : State) : outKept (execIrqMaster dt value s) = some s.kept :=
  outKept_hostAccess (fun s => writeControl_kept s value.toNat) dt s

@[simp] theorem execHostHeartbeat_kept (dt : Nat) (value : BitVec 32) (s : State) :
    outKept (execHostHeartbeat dt value s) = some s.kept :=
  outKept_hostAccess (fun s => serviceHost_kept s value) dt s

@[simp] theorem execTimeNsRead_kept (dt : Nat) (s : State) : outKept (execTimeNsRead dt s) = some s.kept :=
  outKept_hostAccess (fun s => bar0Touch_kept s 0x30) dt s

@[simp] theorem execEvStatusWrite_kept (dt : Nat) (n : Nat) (value : BitVec 32) (s : State) :
    outKept (execEvStatusWrite dt n value s) = some s.kept :=
  outKept_hostAccess (fun s => clearEvStatus_kept s n value) dt s

@[simp] theorem execBar2Write_kept (dt : Nat) (offset : Nat) (data : Bytes) (s : State) :
    outKept (execBar2Write dt offset data s) = some s.kept :=
  outKept_hostAccess (fun s => writeBar2_kept s offset data) dt s

@[simp] theorem execRegisterWrite_kept (dt : Nat) (place : HostPlace) (data : Bytes) (s : State) :
    outKept (execRegisterWrite dt place data s) = some s.kept :=
  outKept_hostAccess (fun s => hostAccessAt_kept s data place) dt s

/-! ### Rows of Machine/RingSvc -/

@[simp] theorem execTruingPassEnd_kept (dt : Nat) (r : TruingReadings) (s0 : State) :
    outKept (execTruingPassEnd dt r s0) = some s0.kept := by
  simp [execTruingPassEnd]

@[simp] theorem execPowerFail_kept (dt : Nat) (byPin : Bool) (s0 : State) : outKept (execPowerFail dt byPin s0) = some s0.kept := by
  simp [execPowerFail]

@[simp] theorem execEnumFrameReturn_kept (dt : Nat) (ring : Nat) (port : Port) (frame : Bytes) (s0 : State) :
    outKept (execEnumFrameReturn dt ring port frame s0) = some s0.kept := by
  unfold execEnumFrameReturn; dsimp only; repeat' split
  all_goals simp

@[simp] theorem execEnumTimeout_kept (dt : Nat) (ring : Nat) (s0 : State) : outKept (execEnumTimeout dt ring s0) = some s0.kept := by
  unfold execEnumTimeout; dsimp only; repeat' split
  all_goals simp

@[simp] theorem execAcyclicFrameTx_kept (dt : Nat) (ring : Nat) (s0 : State) :
    outKept (execAcyclicFrameTx dt ring s0) = some s0.kept := by
  unfold execAcyclicFrameTx; dsimp only; repeat' split
  all_goals simp

@[simp] theorem execAcyclicFrameRx_kept (dt : Nat) (ring : Nat) (port : Port) (frame : Bytes) (s0 : State) :
    outKept (execAcyclicFrameRx dt ring port frame s0) = some s0.kept := by
  simp [execAcyclicFrameRx]

@[simp] theorem execAcyclicResponseTimeout_kept (dt : Nat) (node : Nat) (s0 : State) :
    outKept (execAcyclicResponseTimeout dt node s0) = some s0.kept := by
  unfold execAcyclicResponseTimeout; dsimp only; repeat' split
  all_goals simp

/-! ### Rows of Machine/RingRx -/

@[simp] theorem execUpFrameRx_kept (dt : Nat) (ring : Nat) (port : Port) (frame : Bytes) (s0 : State) :
    outKept (execUpFrameRx dt ring port frame s0) = some s0.kept := by
  unfold execUpFrameRx; dsimp only; repeat' split
  all_goals simp

@[simp] theorem execGatherDeadline_kept (dt : Nat) (ring : Nat) (s0 : State) :
    outKept (execGatherDeadline dt ring s0) = some s0.kept := by
  simp [execGatherDeadline]

@[simp] theorem execNodeLost_kept (dt : Nat) (node : Nat) (s0 : State) : outKept (execNodeLost dt node s0) = some s0.kept := by
  unfold execNodeLost; dsimp only; repeat' split
  all_goals simp

@[simp] theorem execBurstClosureRx_kept (dt : Nat) (ring : Nat) (port : Port) (frame : Bytes) (s0 : State) :
    outKept (execBurstClosureRx dt ring port frame s0) = some s0.kept := by
  simp [execBurstClosureRx]

@[simp] theorem execLaneSignalLoss_kept (dt : Nat) (ring : Nat) (hop : Nat) (dir : BreakDir) (s0 : State) :
    outKept (execLaneSignalLoss dt ring hop dir s0) = some s0.kept := by
  simp [execLaneSignalLoss]

@[simp] theorem execRingClosed_kept (dt : Nat) (ring : Nat) (s0 : State) : outKept (execRingClosed dt ring s0) = some s0.kept := by
  simp [execRingClosed]

/-! ### Rows of Machine/Gear -/

@[simp] theorem execStreamLost_kept (dt : Nat) (axis : Nat) (s0 : State) : outKept (execStreamLost dt axis s0) = some s0.kept := by
  simp [execStreamLost]

/-! ### Rows of Machine/Tasks -/

@[simp] theorem execTaskReady_kept (dt : Nat) (task : Nat) (s0 : State) : outKept (execTaskReady dt task s0) = some s0.kept := by
  unfold execTaskReady; dsimp only; repeat' split
  all_goals simp

@[simp] theorem execTaskDispatch_kept (dt : Nat) (read : PrefetchRead) (s0 : State) :
    outKept (execTaskDispatch dt read s0) = some s0.kept := by
  unfold execTaskDispatch; dsimp only; repeat' split
  all_goals simp

@[simp] theorem execTaskComplete_kept (dt : Nat) (read : EngineRead) (clocks : Nat) (s0 : State) :
    outKept (execTaskComplete dt read clocks s0) = some s0.kept := by
  unfold execTaskComplete; dsimp only; repeat' split
  all_goals simp

@[simp] theorem execTaskOverrun_kept (dt : Nat) (engine : Nat) (s0 : State) : outKept (execTaskOverrun dt engine s0) = some s0.kept := by
  unfold execTaskOverrun; dsimp only; repeat' split
  all_goals simp

@[simp] theorem execLawFault_kept (dt : Nat) (engine : Nat) (code : Nat) (s0 : State) :
    outKept (execLawFault dt engine code s0) = some s0.kept := by
  unfold execLawFault; dsimp only; repeat' split
  all_goals simp

@[simp] theorem execEngineFault_kept (dt : Nat) (engine : Nat) (s0 : State) : outKept (execEngineFault dt engine s0) = some s0.kept := by
  simp [execEngineFault]

@[simp] theorem execEngineStall_kept (dt : Nat) (engine : Nat) (s0 : State) : outKept (execEngineStall dt engine s0) = some s0.kept := by
  unfold execEngineStall; dsimp only; repeat' split
  all_goals simp

@[simp] theorem execEngineTestDone_kept (dt : Nat) (engine : Nat) (pass : Bool) (s0 : State) :
    outKept (execEngineTestDone dt engine pass s0) = some s0.kept := by
  simp [execEngineTestDone]

@[simp] theorem execBundleDeadlineFail_kept (dt : Nat) (bundle : Nat) (s0 : State) :
    outKept (execBundleDeadlineFail dt bundle s0) = some s0.kept := by
  unfold execBundleDeadlineFail; dsimp only; repeat' split
  all_goals simp

@[simp] theorem execOutputMissed_kept (dt : Nat) (axis : Nat) (s0 : State) : outKept (execOutputMissed dt axis s0) = some s0.kept := by
  simp [execOutputMissed]

@[simp] theorem execBundleFailed_kept (dt : Nat) (bundle : Nat) (s0 : State) :
    outKept (execBundleFailed dt bundle s0) = some s0.kept := by
  unfold execBundleFailed; dsimp only; repeat' split
  all_goals simp

/-! ### Rows of Machine/Cycle -/

@[simp] theorem execPlanVerifyDone_kept (dt : Nat) (s0 : State) : outKept (execPlanVerifyDone dt s0) = some s0.kept := by
  unfold execPlanVerifyDone; dsimp only; repeat' split
  all_goals simp

@[simp] theorem execPlanSwitch_kept (s : State) : outKept (execPlanSwitch s) = some s.kept := by
  unfold execPlanSwitch; split <;> simp

@[simp] theorem execCycleHwFault_kept (dt : Nat) (cause : Nat) (s0 : State) : outKept (execCycleHwFault dt cause s0) = some s0.kept := by
  simp [execCycleHwFault]

/-! ### Rows of Machine/Burst -/

@[simp] theorem execBurstLaunch_kept (dt : Nat) (ring : Nat) (k : Nat) (s0 : State) :
    outKept (execBurstLaunch dt ring k s0) = some s0.kept := by
  unfold execBurstLaunch; dsimp only; repeat' split
  all_goals simp

@[simp] theorem execPiInputPublish_kept (dt : Nat) (s0 : State) : outKept (execPiInputPublish dt s0) = some s0.kept := by
  simp [execPiInputPublish]

@[simp] theorem execOutputSnapshot_kept (s : State) : outKept (execOutputSnapshot s) = some s.kept := by
  unfold execOutputSnapshot; split <;> simp

/-! ### Rows of Machine/Jtag -/

@[simp] theorem execBoundaryScanInstruction_kept (dt : Nat) (instr : JtagInstr) (cells : List (Nat × Bool)) (s0 : State) :
    outKept (execBoundaryScanInstruction dt instr cells s0) = some s0.kept := by
  unfold execBoundaryScanInstruction; dsimp only; repeat' split
  all_goals simp

/-! ### Rows of Machine/Tick -/

@[simp] theorem execTick_kept (s0 : State) : outKept (execTick s0) = some s0.kept := by
  simp only [execTick, outKept_ite, outKept_next, openCycle_kept, holdRow_kept, kept_mk, kept_fold, kept_ite, endOfCycle_kept,
    dueSwitch_kept, State.onPair_kept, settleShadow_kept, tickInputs_kept, stressSync_kept, advanceTo_kept, ite_self]

@[simp] theorem execCycleFirstTick_kept (s0 : State) : outKept (execCycleFirstTick s0) = some s0.kept := by
  unfold execCycleFirstTick; dsimp only; repeat' split
  all_goals simp

/-! ### Rows of Machine/Pair -/

@[simp] theorem execPairIdentityTimeout_kept (dt : Nat) (s0 : State) : outKept (execPairIdentityTimeout dt s0) = some s0.kept := by
  unfold execPairIdentityTimeout; dsimp only; repeat' split
  all_goals simp

@[simp] theorem execPairResyncTimeout_kept (dt : Nat) (s0 : State) : outKept (execPairResyncTimeout dt s0) = some s0.kept := by
  unfold execPairResyncTimeout; dsimp only; repeat' split
  all_goals simp

@[simp] theorem execMirrorTimeFrameRx_kept (dt : Nat) (frame : Bytes) (s0 : State) :
    outKept (execMirrorTimeFrameRx dt frame s0) = some s0.kept := by
  simp [execMirrorTimeFrameRx]

@[simp] theorem execMirrorStreamComplete_kept (dt : Nat) (st : MirrorStream) (s0 : State) :
    outKept (execMirrorStreamComplete dt st s0) = some s0.kept := by
  simp [execMirrorStreamComplete]

@[simp] theorem execMirrorLost_kept (dt : Nat) (s0 : State) : outKept (execMirrorLost dt s0) = some s0.kept := by
  simp [execMirrorLost]

@[simp] theorem execMirrorBulkFrameRx_kept (dt : Nat) (items : List MirrorItem) (s0 : State) :
    outKept (execMirrorBulkFrameRx dt items s0) = some s0.kept := by
  unfold execMirrorBulkFrameRx; dsimp only; repeat' split
  all_goals simp

@[simp] theorem execGrantRecordRx_kept (dt : Nat) (record : Bytes) (s0 : State) :
    outKept (execGrantRecordRx dt record s0) = some s0.kept := by
  simp [execGrantRecordRx]

@[simp] theorem execRequestBurst_kept (dt : Nat) (s0 : State) : outKept (execRequestBurst dt s0) = some s0.kept := by
  simp [execRequestBurst]

@[simp] theorem execForwardedBurstCopy_kept (dt : Nat) (ring : Nat) (port : Port) (frame : Bytes) (s0 : State) :
    outKept (execForwardedBurstCopy dt ring port frame s0) = some s0.kept := by
  simp [execForwardedBurstCopy]

/-! ### Every command and every step -/

/-- Every command answers a next state that keeps the queue behind it and the variant. -/
theorem exec_kept (i : Instr) (s : State) : outKept (exec i s) = some s.kept := by
  cases i
  case nop | pset | psetr | pacc | paccr | psetu | psetur | paccu | paccur | aadd | asub | aadx | asbx | acmp | acpx | acpy |
      aldx | azro | aneg | aabs | rnd | asat | ashl | ashr | sclb | bexpa | qstep | maxi | mini | xhi | xhir | xlo | xcpy | xadd |
      xsub | xand | xior | xeor | xbit | bexp | sclbx | sreg | bxset | done | brc | call | ret | decbr | rep | ximm | pimm | mimm |
      limm =>
    exact outKept_runRow _ _ _ _ _
  case sysCaps => exact outKept_serve sysCapsBody_kept _ _ _
  case sysOperate => exact outKept_serve sysOperateBody_kept _ _ _
  case sysPreop => exact outKept_serve sysPreopBody_kept _ _ _
  case safeHold => exact outKept_serve safeHoldBody_kept _ _ _
  case safeHoldRelease => exact outKept_serve safeHoldReleaseBody_kept _ _ _
  case faultClear => exact outKept_serve faultClearBody_kept _ _ _
  case powerDomain => exact outKept_serve powerDomainBody_kept _ _ _
  case bootInfo => exact outKept_serve bootInfoBody_kept _ _ _
  case fwStageWrite => exact outKept_serve fwStageWriteBody_kept _ _ _
  case fwStageCommit => exact outKept_serve fwStageCommitBody_kept _ _ _
  case paramRead => exact outKept_serve paramReadBody_kept _ _ _
  case paramWrite => exact outKept_serve paramWriteBody_kept _ _ _
  case planLoad => exact outKept_serve planLoadBody_kept _ _ _
  case planCommit => exact outKept_serve planCommitBody_kept _ _ _
  case cycleStart => exact outKept_serve cycleStartBody_kept _ _ _
  case cycleStop => exact outKept_serve cycleStopBody_kept _ _ _
  case planStatus => exact outKept_serve planStatusBody_kept _ _ _
  case planStore => exact outKept_serve planStoreBody_kept _ _ _
  case planRecall => exact outKept_serve (by simp) _ _ _
  case flowPlace => exact outKept_serve flowPlaceBody_kept _ _ _
  case ringEnumerate => exact outKept_serve ringEnumerateBody_kept _ _ _
  case ringStatus => exact outKept_serve ringStatusBody_kept _ _ _
  case nodeIdentity => exact outKept_serve nodeIdentityBody_kept _ _ _
  case nodeEnable => exact outKept_serve nodeEnableBody_kept _ _ _
  case nodeAliasSet => exact outKept_serve nodeAliasSetBody_kept _ _ _
  case nodeParamRead => exact outKept_serve (by simp) _ _ _
  case nodeParamWrite => exact outKept_serve (by simp) _ _ _
  case tunnelConfig => exact outKept_serve tunnelConfigBody_kept _ _ _
  case axisEnable => exact outKept_serve axisEnableBody_kept _ _ _
  case axisDisable => exact outKept_serve axisDisableBody_kept _ _ _
  case axisStatus => exact outKept_serve axisStatusBody_kept _ _ _
  case axisSource => exact outKept_serve axisSourceBody_kept _ _ _
  case gearRatio => exact outKept_serve gearRatioBody_kept _ _ _
  case gearEngage => exact outKept_serve gearEngageBody_kept _ _ _
  case gearDisengage => exact outKept_serve gearDisengageBody_kept _ _ _
  case axisFaultClear => exact outKept_serve axisFaultClearBody_kept _ _ _
  case lawLoad => exact outKept_serve lawLoadBody_kept _ _ _
  case lawUnload => exact outKept_serve lawUnloadBody_kept _ _ _
  case lawInfo => exact outKept_serve lawInfoBody_kept _ _ _
  case lawCoefWrite => exact outKept_serve lawCoefWriteBody_kept _ _ _
  case lawTest => exact outKept_serve lawTestBody_kept _ _ _
  case moveAbs => exact outKept_serve (by simp) _ _ _
  case moveRel => exact outKept_serve (by simp) _ _ _
  case stop => exact outKept_serve stopBody_kept _ _ _
  case hold => exact outKept_serve holdBody_kept _ _ _
  case resume => exact outKept_serve resumeBody_kept _ _ _
  case home => exact outKept_serve homeBody_kept _ _ _
  case groupDefine => exact outKept_serve groupDefineBody_kept _ _ _
  case groupMove => exact outKept_serve groupMoveBody_kept _ _ _
  case groupLimits => exact outKept_serve groupLimitsBody_kept _ _ _
  case motionStatus => exact outKept_serve motionStatusBody_kept _ _ _
  case pwmTripClear => exact outKept_serve pwmTripClearBody_kept _ _ _
  case pwmStatus => exact outKept_serve pwmStatusBody_kept _ _ _
  case encIndexArm => exact outKept_serve encIndexArmBody_kept _ _ _
  case encFaultClear => exact outKept_serve encFaultClearBody_kept _ _ _
  case probeArm => exact outKept_serve probeArmBody_kept _ _ _
  case probeRead => exact outKept_serve probeReadBody_kept _ _ _
  case adcRefEnable => exact outKept_serve adcRefEnableBody_kept _ _ _
  case adcCalibrate => exact outKept_serve adcCalibrateBody_kept _ _ _
  case adcCalSave => exact outKept_serve adcCalSaveBody_kept _ _ _
  case adcCalRestore => exact outKept_serve (by simp) _ _ _
  case localInStatus => exact outKept_serve localInStatusBody_kept _ _ _
  case timeRead => exact outKept_serve timeReadBody_kept _ _ _
  case timeSet => exact outKept_serve timeSetBody_kept _ _ _
  case timeTrim => exact outKept_serve timeTrimBody_kept _ _ _
  case ptpConfig => exact outKept_serve ptpConfigBody_kept _ _ _
  case ptpStatus => exact outKept_serve ptpStatusBody_kept _ _ _
  case toutSet => exact outKept_serve toutSetBody_kept _ _ _
  case toutStop => exact outKept_serve toutStopBody_kept _ _ _
  case plantTx => exact outKept_serve plantTxBody_kept _ _ _
  case calSegList => exact outKept_serve calSegListBody_kept _ _ _
  case calMaskWrite => exact outKept_serve calMaskWriteBody_kept _ _ _
  case calArm => exact outKept_serve calArmBody_kept _ _ _
  case calStop => exact outKept_serve calStopBody_kept _ _ _
  case calForce => exact outKept_serve calForceBody_kept _ _ _
  case calStatus => exact outKept_serve calStatusBody_kept _ _ _
  case calRead => exact outKept_serve (by simp) _ _ _
  case calSkewCalibrate => exact outKept_serve calSkewCalibrateBody_kept _ _ _
  case calSkewStore => exact outKept_serve calSkewStoreBody_kept _ _ _
  case calBusMeasure => exact outKept_serve calBusMeasureBody_kept _ _ _
  case dmaSetup => exact outKept_serve dmaSetupBody_kept _ _ _
  case dmaStart => exact outKept_serve dmaStartBody_kept _ _ _
  case dmaListWrite => exact outKept_serve dmaListWriteBody_kept _ _ _
  case dmaAppend => exact outKept_serve dmaAppendBody_kept _ _ _
  case dmaClose => exact outKept_serve dmaCloseBody_kept _ _ _
  case dmaAbort => exact outKept_serve dmaAbortBody_kept _ _ _
  case dmaStatus => exact outKept_serve dmaStatusBody_kept _ _ _
  case safetyStatus => exact outKept_serve safetyStatusBody_kept _ _ _
  case safetyImageRead => exact outKept_serve safetyImageReadBody_kept _ _ _
  case safetyConnStatus => exact outKept_serve safetyConnStatusBody_kept _ _ _
  case pairStatus => exact outKept_serve pairStatusBody_kept _ _ _
  case pairJoin => exact outKept_serve pairJoinBody_kept _ _ _
  case gripRelease => exact outKept_serve gripReleaseBody_kept _ _ _
  case eventRead => exact outKept_serve eventReadBody_kept _ _ _
  case shavingsStatus => exact outKept_serve (by simp) _ _ _
  case shavingsRead => exact outKept_serve (by simp) _ _ _
  case shavingsFreeze => exact outKept_serve shavingsFreezeBody_kept _ _ _
  case dispatchEngineStats => exact outKept_serve dispatchEngineStatsBody_kept _ _ _
  case dispatchLevelStats => exact outKept_serve dispatchLevelStatsBody_kept _ _ _
  case dispatchFlowStats => exact outKept_serve dispatchFlowStatsBody_kept _ _ _
  case dispatchStatsClear => exact outKept_serve dispatchStatsClearBody_kept _ _ _
  case truingRun => exact outKept_serve truingRunBody_kept _ _ _
  case truingStatus => exact outKept_serve truingStatusBody_kept _ _ _
  case tunnelTxSlot => exact execTunnelTxSlot_kept _ _ _ _
  case mbReqWrite => exact execMbReqWrite_kept _ _ _ _
  case mbRspWrite => exact execMbRspWrite_kept _ _ _ _
  case mbStatWrite => exact execMbStatWrite_kept _ _ _ _
  case tunRxHeadWrite => exact execTunRxHeadWrite_kept _ _ _ _
  case tunStatRead => exact execTunStatRead_kept _ _ _
  case resetReq => exact execResetReq_kept _ _ _
  case irqMaster => exact execIrqMaster_kept _ _ _
  case hostHeartbeat => exact execHostHeartbeat_kept _ _ _
  case timeNsRead => exact execTimeNsRead_kept _ _
  case evStatusWrite => exact execEvStatusWrite_kept _ _ _ _
  case bar2Write => exact execBar2Write_kept _ _ _ _
  case registerWrite => exact execRegisterWrite_kept _ _ _ _
  case sysReset => exact execSysReset_kept _ _ _
  case sysStandby => exact execSysStandby_kept _ _ _
  case sysPreopDone => exact execSysPreopDone_kept _ _
  case powerDomainSwitched => exact execPowerDomainSwitched_kept _ _ _
  case pdHoldMaxExpiry => exact execPdHoldMaxExpiry_kept _ _
  case planVerifyDone => exact execPlanVerifyDone_kept _ _
  case planSwitch => exact execPlanSwitch_kept _
  case cycleFirstTick => exact execCycleFirstTick_kept _
  case enumFrameReturn => exact execEnumFrameReturn_kept _ _ _ _ _
  case enumTimeout => exact execEnumTimeout_kept _ _ _
  case axisEnabled => exact execAxisEnabled_kept _ _ _
  case axisEnableTimeout => exact execAxisEnableTimeout_kept _ _ _
  case brakeEngageExpiry => exact execBrakeEngageExpiry_kept _ _ _
  case gearRampEnd => exact execGearRampEnd_kept _ _ _
  case homingReferenceShift => exact execHomingReferenceShift_kept _ _ _
  case homingNotFound => exact execHomingNotFound_kept _ _ _
  case homingChatter => exact execHomingChatter_kept _ _ _
  case moveComplete => exact execMoveComplete_kept _ _ _
  case switchQualified => exact execSwitchQualified_kept _ _ _ _
  case stepperHoldDelayExpiry => exact execStepperHoldDelayExpiry_kept _ _ _
  case stepperWakeDone => exact execStepperWakeDone_kept _ _ _
  case adcRefReady => exact execAdcRefReady_kept _ _
  case adcCalibrateDone => exact execAdcCalibrateDone_kept _ _ _
  case slewDone => exact execSlewDone_kept _ _
  case ptpMessageRx => exact execPtpMessageRx_kept _ _ _
  case ptpMessageTx => exact execPtpMessageTx_kept _ _ _ _ _
  case plantFrameRx => exact execPlantFrameRx_kept _ _ _
  case toutPulse => exact execToutPulse_kept _ _
  case timedFrameLaunch => exact execTimedFrameLaunch_kept _ _
  case calRow => exact execCalRow_kept _ _ _
  case trigBusEdge => exact execTrigBusEdge_kept _ _ _
  case syncClkLost => exact execSyncClkLost_kept _ _
  case dmaEntryRead => exact execDmaEntryRead_kept _ _ _ _
  case dmaBurst => exact execDmaBurst_kept _ _ _ _ _
  case pairResyncTimeout => exact execPairResyncTimeout_kept _ _
  case shavingsCommitDone => exact execShavingsCommitDone_kept _ _
  case truingPassStart => exact execTruingPassStart_kept _ _
  case truingPassEnd => exact execTruingPassEnd_kept _ _ _
  case avsReadback => exact execAvsReadback_kept _ _ _
  case tick => exact execTick_kept _
  case outputSnapshot => exact execOutputSnapshot_kept _
  case burstLaunch => exact execBurstLaunch_kept _ _ _ _
  case bundleDeadlineFail => exact execBundleDeadlineFail_kept _ _ _
  case outputMissed => exact execOutputMissed_kept _ _ _
  case bundleFailed => exact execBundleFailed_kept _ _ _
  case piInputPublish => exact execPiInputPublish_kept _ _
  case acyclicFrameTx => exact execAcyclicFrameTx_kept _ _ _
  case upFrameRx => exact execUpFrameRx_kept _ _ _ _ _
  case burstClosureRx => exact execBurstClosureRx_kept _ _ _ _ _
  case gatherDeadline => exact execGatherDeadline_kept _ _ _
  case acyclicFrameRx => exact execAcyclicFrameRx_kept _ _ _ _ _
  case acyclicResponseTimeout => exact execAcyclicResponseTimeout_kept _ _ _
  case laneSignalLoss => exact execLaneSignalLoss_kept _ _ _ _ _
  case ringClosed => exact execRingClosed_kept _ _ _
  case nodeLost => exact execNodeLost_kept _ _ _
  case taskReady => exact execTaskReady_kept _ _ _
  case taskDispatch => exact execTaskDispatch_kept _ _ _
  case taskComplete => exact execTaskComplete_kept _ _ _ _
  case taskOverrun => exact execTaskOverrun_kept _ _ _
  case lawFault => exact execLawFault_kept _ _ _ _
  case engineFault => exact execEngineFault_kept _ _ _
  case engineStall => exact execEngineStall_kept _ _ _
  case engineTestDone => exact execEngineTestDone_kept _ _ _ _
  case debugHaltRequest => exact execDebugHaltRequest_kept _ _ _
  case debugSingleStep => exact execDebugSingleStep_kept _ _ _
  case feedbackLost => exact execFeedbackLost_kept _ _ _
  case followingError => exact execFollowingError_kept _ _ _
  case streamLost => exact execStreamLost_kept _ _ _
  case slotSample => exact execSlotSample_kept _ _
  case pwmUpdatePoint => exact execPwmUpdatePoint_kept _ _
  case bootRefresh => exact execBootRefresh_kept _ _ _
  case tripInput => exact execTripInput_kept _ _ _ _
  case encIndexEvent => exact execEncIndexEvent_kept _ _ _
  case encIllegalTransition => exact execEncIllegalTransition_kept _ _ _
  case encWireFault => exact execEncWireFault_kept _ _ _ _
  case dinRawEdge => exact execDinRawEdge_kept _ _ _ _
  case probeEdge => exact execProbeEdge_kept _ _ _ _
  case ssiExchangeDone => exact execSsiExchangeDone_kept _ _ _ _ _
  case adcTrigger => exact execAdcTrigger_kept _ _ _ _
  case adcConversionDone => exact execAdcConversionDone_kept _ _ _ _ _
  case adcLiveCalStart => exact execAdcLiveCalStart_kept _ _
  case adcLiveCalDone => exact execAdcLiveCalDone_kept _ _ _
  case sinChange => exact execSinChange_kept _ _ _ _ _
  case sinDiscrepancy => exact execSinDiscrepancy_kept _ _ _
  case qualifiedReset => exact execQualifiedReset_kept _ _
  case ss1TimeExpiry => exact execSs1TimeExpiry_kept _ _ _
  case safetyVectorExchange => exact execSafetyVectorExchange_kept _ _ _
  case safetyVectorMissing => exact execSafetyVectorMissing_kept _ _
  case testPulse => exact execTestPulse_kept _ _ _ _
  case safeMsgTx => exact execSafeMsgTx_kept _ _ _ _
  case safeEchoRx => exact execSafeEchoRx_kept _ _ _ _
  case safeConnWatchdogExpiry => exact execSafeConnWatchdogExpiry_kept _ _ _
  case clockMonitor => exact execClockMonitor_kept _ _
  case clockHalted => exact execClockHalted_kept _ _
  case mirrorTimeFrameRx => exact execMirrorTimeFrameRx_kept _ _ _
  case mirrorStreamComplete => exact execMirrorStreamComplete_kept _ _ _
  case mirrorLost => exact execMirrorLost_kept _ _
  case grantRecordRx => exact execGrantRecordRx_kept _ _ _
  case requestBurst => exact execRequestBurst_kept _ _
  case sysWatchdogExpiry => exact execSysWatchdogExpiry_kept _ _
  case hostWatchdogExpiry => exact execHostWatchdogExpiry_kept _ _
  case resetNAssert => exact execResetNAssert_kept _ _ _ _
  case resetRelease => exact execResetRelease_kept _ _ _ _
  case firmwareStarted => exact execFirmwareStarted_kept _ _ _
  case mainRailsLost => exact execMainRailsLost_kept _ _
  case powerFail => exact execPowerFail_kept _ _ _
  case aonSupplyApplied => exact execAonSupplyApplied_kept _ _ _
  case aonSupplyLost => exact execAonSupplyLost_kept _ _
  case aonSupplySwitch => exact execAonSupplySwitch_kept _ _ _
  case wake => exact execWake_kept _ _ _
  case pcieLinkReset => exact execPcieLinkReset_kept _ _ _
  case mailboxCommandStart => exact execMailboxCommandStart_kept _ _ _
  case notifyPost => exact execNotifyPost_kept _ _
  case mainRailsValid => exact execMainRailsValid_kept _ _
  case bootFault => exact execBootFault_kept _ _ _
  case lawLoadDone => exact execLawLoadDone_kept _ _
  case fwStageCommitDone => exact execFwStageCommitDone_kept _ _ _
  case pairIdentityTimeout => exact execPairIdentityTimeout_kept _ _
  case mirrorBulkFrameRx => exact execMirrorBulkFrameRx_kept _ _ _
  case forwardedBurstCopy => exact execForwardedBurstCopy_kept _ _ _ _ _
  case syncClkEdge => exact execSyncClkEdge_kept _ _
  case calBusRetryWait => exact execCalBusRetryWait_kept _ _ _
  case calNoEchoTimeout => exact execCalNoEchoTimeout_kept _ _
  case encCountEdge => exact execEncCountEdge_kept _ _ _ _ _
  case ptpLost => exact execPtpLost_kept _ _ _ _
  case cycleHwFault => exact execCycleHwFault_kept _ _ _
  case debugResume => exact execDebugResume_kept _ _ _
  case outputFault => exact execOutputFault_kept _ _ _ _
  case boundaryScanInstruction => exact execBoundaryScanInstruction_kept _ _ _ _

/-- A step takes its command off the queue and keeps the variant. -/
theorem step_kept (s : State) : ∃ t, step s = .next t ∧ t.kept = (s.pending.tail, s.board.variant) := by
  unfold step
  split
  next h => exact ⟨s, rfl, by simp [State.kept, h]⟩
  next c rest h => rw [h]; exact next_of_outKept (exec_kept c { s with pending := rest })

/-- The capability words are words of the variant alone (R9). -/
theorem capability_words_of_variant {s t : State} (h : t.board.variant = s.board.variant) :
    bar0Word t 8 = bar0Word s 8 ∧ bar0Word t 0xC = bar0Word s 0xC :=
  ⟨congrArg caps0 h, congrArg caps1 h⟩

/-- Settles O2: a step runs one row, and no row changes the queue behind it or the variant. -/
theorem everyStepAnswersANextState : Obligations.EveryStepAnswersANextState := by
  unfold Obligations.EveryStepAnswersANextState
  intro s
  obtain ⟨t, hstep, hkept⟩ := step_kept s
  obtain ⟨hpending, hvariant⟩ := Prod.mk.inj hkept
  exact ⟨t, hstep, hpending, hvariant, capability_words_of_variant hvariant⟩

end Sys2Proof.Machine
end

