-- ==== Sys2Proof/Proofs/Parameters.lean ====
section
/-! PARAM_READ and PARAM_WRITE of one entry, and the writes that wait for a tick (R15, R372, R373). -/

namespace Sys2Proof.Machine

/-! ### What follows at once from a write leaves the parameters -/

theorem raiseWarn_par (s : State) (src kind inst cause : Nat) (detail : Bytes) (flags : Nat) :
    (raiseWarn s src kind inst cause detail flags).par = s.par := by
  obtain ⟨h, e, c, hframe⟩ := raiseWarn_frame s src kind inst cause detail flags
  rw [hframe]

theorem judgeNotch_par (a k : Nat) (s : State) : (judgeNotch a k s).par = s.par := by
  unfold judgeNotch
  generalize (if k = 1 then Par.n1Freq else Par.n2Freq) = n
  split
  · exact raiseWarn_par ..
  · rfl

theorem dropMasks_par (s : State) (ch : Nat) : (dropMasks s ch).par = s.par := by
  unfold dropMasks
  dsimp only
  split <;> rfl

@[simp] theorem afterWrite_par (w : PWrite) (s : State) : (afterWrite w s).par = s.par := by
  unfold afterWrite
  split
  · rfl
  split
  · exact judgeNotch_par ..
  split
  · split <;> rfl
  split
  · exact dropMasks_par ..
  · rfl

/-! ### One write -/

/-- A write sets the value last written (R15). -/
theorem applyWrite_written (stamp : Nat) (s : State) (w : PWrite) :
    (applyWrite stamp s w).par.written = tput s.par.written (pkey w.n w.inst) w.value := by
  unfold applyWrite
  rw [afterWrite_par]
  cases w.eff <;> rfl

/-- A write that acts at once sets the value in force (R15). -/
theorem applyWrite_active_of_now (stamp : Nat) (s : State) {w : PWrite} (h : w.eff = .now) :
    (applyWrite stamp s w).par.active = tput s.par.active (pkey w.n w.inst) w.value := by
  simp only [applyWrite, afterWrite_par, h]

/-- A write that acts at a tick waits with the command's stamp (R15). -/
theorem applyWrite_waits_of_tick (stamp : Nat) (s : State) {w : PWrite} (h : w.eff = .tick) :
    (applyWrite stamp s w).par.active = s.par.active ∧
    (applyWrite stamp s w).par.waiting = s.par.waiting ++ [{ stamp := stamp, key := pkey w.n w.inst, value := w.value }] := by
  simp only [applyWrite, afterWrite_par, h, and_self]

/-! ### Requests of one entry -/

theorem countOk_of_one {p : Bytes} (hn : uAt p 0 1 = 1) (hr : uAt p 1 3 = 0) : countOk p = true := by
  simp [countOk, resv, hn, hr]

section one
variable {s : State} {q : Request} {t : Nat}

/-- A read of one entry answers by that entry alone. -/
theorem paramReadBody_one (hn : uAt q.payload 0 1 = 1) (hr : uAt q.payload 1 3 = 0) :
    paramReadBody s q t = if readOk (entryAt q.payload 0) then .ok s (paramReply 1 0xFF (filled s (entryAt q.payload 0)))
      else .err St.badParam (paramReply 1 0 (q.payload.drop 4)) := by
  simp only [paramReadBody, need, countOk_of_one hn hr, hn, if_true]
  cases h : readOk (entryAt q.payload 0) <;> simp [List.range_succ, List.findIdx?_cons, h]

/-- A write whose checks fail is refused with the status of the first failing entry. -/
theorem paramWriteBody_error {e : Nat × Nat} (hn : uAt q.payload 0 1 = 1) (hr : uAt q.payload 1 3 = 0)
    (hw : checkWrites s q.payload = .error e) :
    paramWriteBody s q t = .err e.2 (paramReply 1 e.1 (q.payload.drop 4)) := by
  simp only [paramWriteBody, need, countOk_of_one hn hr, hn, hw, if_true]

theorem paramWriteBody_single {w : PWrite} (hn : uAt q.payload 0 1 = 1) (hr : uAt q.payload 1 3 = 0)
    (hw : checkWrites s q.payload = .ok [w]) :
    paramWriteBody s q t = .ok (applyWrite t s w) (paramReply 1 0xFF (q.payload.drop 4)) := by
  simp only [paramWriteBody, need, countOk_of_one hn hr, hn, hw, if_true, List.foldl_cons, List.foldl_nil]

end one

/-! ### The waiting writes at a tick -/

theorem parTick_of_earlier {ns : Nat} {p : Params} {one : WaitingWrite} (hw : p.waiting = [one]) (h : one.stamp < ns) :
    tfind (parTick ns p).active one.key = some one.value ∧ (parTick ns p).waiting = [] := by
  have hlt : Nat.blt one.stamp ns = true := by simpa using h
  simp [parTick, hw, hlt]

theorem parTick_of_later {ns : Nat} {p : Params} {one : WaitingWrite} (hw : p.waiting = [one]) (h : ns ≤ one.stamp) :
    (parTick ns p).active = p.active ∧ (parTick ns p).waiting = [one] := by
  have hlt : Nat.blt one.stamp ns = false := by
    rw [Bool.eq_false_iff, ne_eq, Nat.blt_eq]; omega
  simp [parTick, hw, hlt]

/-- Settles O15, clause by clause: what a read and a write of one entry do, and what a tick does with a waiting write. -/
theorem parameterReadsAndWrites : Obligations.ParameterReadsAndWrites := by
  unfold Obligations.ParameterReadsAndWrites
  intro s dt ns q d w k st store one r0 w0 e
  refine ⟨?readFails, ?reads, ?writes, ?writeFails, ?tick⟩
  case readFails =>
    intro hs hn hr he
    exact answers_err rfl hs (by rw [paramReadBody_one hn hr, he]; rfl) ⟨rfl, rfl⟩
  case reads =>
    intro hs hn hr hd he
    refine answers_ok rfl hs (by rw [paramReadBody_one hn hr, he]; rfl) ⟨rfl, ?_⟩
    show paramReply 1 0xFF (filled r0 e) = _
    rw [filled, hd]
    rfl
  case writes =>
    intro hs hn hr hw
    refine answers_ok rfl hs (paramWriteBody_single hn hr hw) ⟨?_, fun hnow => ?_, fun htick => ?_⟩
    · rw [applyWrite_written, tfind_tput_self]
    · rw [applyWrite_active_of_now _ _ hnow, tfind_tput_self]
    · exact applyWrite_waits_of_tick _ _ htick
  case writeFails =>
    intro hs hn hr hw
    exact answers_err rfl hs (paramWriteBody_error hn hr hw) rfl
  case tick =>
    intro hw
    exact ⟨parTick_of_earlier hw, parTick_of_later hw⟩

end Sys2Proof.Machine
end

