-- ==== Sys2Proof/Proofs/Calipers.lean ====
section
/-! The calipers commands (R490 to R505, R679). -/

namespace Sys2Proof.Machine

/-! ### Tables -/

section table
variable {α : Type} (f : Nat → α) (i : Nat) (t : List (Nat × α)) {n j k : Nat}

/-- A run of writes at `i`, `i + 1`, … leaves its own value at each of its keys. -/
theorem tfind_putRun_self (h : k < n) : tfind ((List.range n).foldl (fun t k => tput t (i + k) (f k)) t) (i + k) = some (f k) := by
  induction n with
  | zero => omega
  | succ n ih =>
    rw [List.range_succ, List.foldl_append, List.foldl_cons, List.foldl_nil]
    by_cases hk : k = n
    · rw [hk, tfind_tput_self]
    · rw [tfind_tput_other _ _ _ _ (by omega), ih (by omega)]

/-- It leaves every other key as it was. -/
theorem tfind_putRun_other (h : j < i ∨ i + n ≤ j) :
    tfind ((List.range n).foldl (fun t k => tput t (i + k) (f k)) t) j = tfind t j := by
  induction n with
  | zero => rfl
  | succ n ih =>
    rw [List.range_succ, List.foldl_append, List.foldl_cons, List.foldl_nil, tfind_tput_other _ _ _ _ (by omega), ih (by omega)]

end table

/-! ### A command's own checks -/

theorem need_pos {c : Bool} (h : c = true) (r : Reply) : need c r = r := if_pos h
theorem need_neg {c : Bool} (h : c = false) (r : Reply) : need c r = .err St.badParam [] := if_neg (by simp [h])
theorem orElse_pos {c : Bool} (h : c = true) (st : Nat) (r : Reply) : orElse c st r = r := if_pos h
theorem orElse_neg {c : Bool} (h : c = false) (st : Nat) (r : Reply) : orElse c st r = .err st [] := if_neg (by simp [h])

/-! ### What a request's bookkeeping leaves of the calipers -/

section atStamp
variable (code dt : Nat) (q : Request) (s : State)

@[simp] theorem captureOn_atStamp : captureOn (atStamp code dt q s) = captureOn s := by simp [captureOn]
@[simp] theorem calBusy_atStamp : calBusy (atStamp code dt q s) = calBusy s := by simp [calBusy]
@[simp] theorem var_atStamp : (atStamp code dt q s).var = s.var := by simp [State.var]
@[simp] theorem parWritten_atStamp (n i : Nat) : parWritten (atStamp code dt q s) n i = parWritten s n i := by simp [parWritten]
@[simp] theorem par_atStamp (n i : Nat) : par (atStamp code dt q s) n i = par s n i := by simp [par]
@[simp] theorem maskPoint_atStamp (ch : Nat) (b : Bytes) : maskPoint (atStamp code dt q s) ch b = maskPoint s ch b := by simp [maskPoint]

end atStamp

/-! ### Reports while no record runs -/

/-- While no record runs an event line changes nothing. -/
theorem raiseLine_of_idle {s : State} (h : calBusy s = false) (source ns : Nat) : raiseLine s source ns = s :=
  if_neg (by simpa [calBusy] using h)

theorem record_cal (s : State) (r : Raise) : (record s r).cal = (raiseLine s r.source (r.at_.getD (nowNs s))).cal := by
  unfold record
  dsimp only
  repeat' split
  all_goals rfl

/-- While no record runs a report leaves the calipers as they are. -/
theorem raiseInfo_cal_of_idle {s : State} (h : calBusy s = false) (src kind inst cause : Nat) (detail : Bytes) :
    (raiseInfo s src kind inst cause detail).cal = s.cal := by
  unfold raiseInfo raiseOnly
  generalize ({ source := src, cls := Cls.info, kind := kind, inst := inst, cause := cause, detail := detail } : Raise) = r
  have hrec : (reportEvent (record s r) r.source).cal = s.cal := by
    obtain ⟨g, hg, -⟩ := reportEvent_frame (record s r) r.source
    rw [hg, record_cal, raiseLine_of_idle h]
  dsimp only
  split
  · obtain ⟨e, he, -⟩ := freezeRecord_frame (reportEvent (record s r) r.source) 7 r.source (r.at_.getD (nowNs s))
    rw [he, hrec]
  · exact hrec

/-! ### CAL_STOP and CAL_FORCE -/

theorem finish_cal (s : State) (code key status : Nat) (p : Bytes) : (finish s code key status p).cal = s.cal := by
  obtain ⟨h, m, hf, -⟩ := finish_frame s code key status p
  rw [hf]

/-- A record that runs stops with its reason, and CAL_ARM is not pending any more (R496). -/
theorem calStop_of_busy {s : State} (h : calBusy s = true) (reason : Nat) :
    (calStop s reason).cal.state = 3 ∧ (calStop s reason).cal.stopReason = reason ∧ isPending (calStop s reason) Cmd.calArm 0 = false := by
  unfold calStop
  rw [if_neg (by simp [h])]
  extract_lets s1 s2
  have hidle : calBusy s2 = false := rfl
  refine ⟨?_, ?_, isPending_finish _ _ _ _ _⟩
  · rw [finish_cal, raiseInfo_cal_of_idle hidle]; rfl
  · rw [finish_cal, raiseInfo_cal_of_idle hidle]; rfl

/-- An armed record without a trigger accepts one that is stamped at or after the re-arm (R490, R495). -/
theorem acceptTrigger_of_armed {s : State} (stamp src : Nat) (hs : s.cal.state = 1) (ht : s.cal.trigAt = none) (hr : s.cal.rearmAt ≤ stamp) :
    (acceptTrigger s stamp src).cal.state = 1 ∧ (acceptTrigger s stamp src).cal.trigAt = some stamp ∧
    (acceptTrigger s stamp src).cal.trigSrc = src ∧ (acceptTrigger s stamp src).cal.pre = s.cal.pre := by
  simp only [acceptTrigger, hs, hr, ht, and_self, if_true]
  split <;> exact ⟨rfl, rfl, rfl, rfl⟩

/-- A trigger later than every row taken waits for its row (R492). -/
theorem settleTrigger_of_later {s : State} (c : CalConf) {t : Nat} (ht : s.cal.trigAt = some t) (hp : ∀ r ∈ s.cal.pre, r.at_ < t) :
    settleTrigger s c = s := by
  have hnone : s.cal.pre.filter (fun r => !Nat.blt r.at_ t) = [] := by
    simpa [List.filter_eq_nil_iff] using hp
  unfold settleTrigger
  rw [ht]
  split
  next heq =>
    obtain rfl := Option.some.inj heq
    exact if_pos hnone
  next => rfl

theorem calTrigger_of_armed {s : State} (stamp src : Nat) (hs : s.cal.state = 1) (ht : s.cal.trigAt = none) (hr : s.cal.rearmAt ≤ stamp)
    (hp : ∀ r ∈ s.cal.pre, r.at_ < stamp) : (calTrigger s stamp src).cal.trigSrc = src ∧ (calTrigger s stamp src).cal.trigAt = some stamp := by
  obtain ⟨-, hat, hsrc, hpre⟩ := acceptTrigger_of_armed stamp src hs ht hr
  unfold calTrigger
  dsimp only
  split
  · rw [settleTrigger_of_later _ hat (by rw [hpre]; exact hp)]
    exact ⟨hsrc, hat⟩
  · exact ⟨hsrc, hat⟩

/-! ### The commands -/

section bodies
variable {s : State} {q : Request} {t : Nat}

/-- CAL_SEG_LIST writes its entries and leaves the others (R494). -/
theorem calSegListBody_writes {i n : Nat} (hi : uAt q.payload 0 2 = i) (hn : uAt q.payload 2 1 = n) (h1 : 1 ≤ n) (h60 : n ≤ 60)
    (hr : uAt q.payload 3 1 = 0) (hend : i + n ≤ 65536) (hlen : ∀ k, k < n → 1 ≤ uAt q.payload (6 + 4 * k) 2)
    (hon : captureOn s = true) (hidle : calBusy s = false) :
    ∃ u, calSegListBody s q t = .ok u [] ∧
      (∀ k, k < n → tfind u.cal.segList (i + k) = some (uAt q.payload (4 + 4 * k) 2, uAt q.payload (6 + 4 * k) 2)) ∧
      ∀ k, (k < i ∨ i + n ≤ k) → tfind u.cal.segList k = tfind s.cal.segList k := by
  subst hi hn
  refine ⟨_, (need_pos ?_ _).trans (orElse_pos ?_ _ _), fun k hk => ?_, fun k hk => ?_⟩
  · simpa [resv, h1, h60, hr, hend] using hlen
  · simp [hon, hidle]
  · exact tfind_putRun_self (fun k => (uAt q.payload (4 + 4 * k) 2, uAt q.payload (6 + 4 * k) 2)) _ _ hk
  · exact tfind_putRun_other (fun k => (uAt q.payload (4 + 4 * k) 2, uAt q.payload (6 + 4 * k) 2)) _ _ hk

/-- The width of a channel's value as CAL_MASK_WRITE takes it. -/
def maskWidthOf (s : State) (ch : Nat) : Nat := capWidth (parWritten s Par.capSignal ch).toNat (parWritten s Par.capQuantity ch).toNat

/-- The point that CAL_MASK_WRITE carries at index `k`; none where its container breaks R17. -/
def maskPointAt (s : State) (p : Bytes) (k : Nat) : Option Int :=
  maskPoint s (uAt p 0 1) (slice p (8 + maskWidthOf s (uAt p 0 1) * k) (maskWidthOf s (uAt p 0 1)))

/-- The fields of CAL_MASK_WRITE but its points are in range (R679). -/
structure MaskFields (s : State) (p : Bytes) : Prop where
  chan : uAt p 0 1 < 32
  side : uAt p 1 1 < 2
  resv : uAt p 5 3 = 0
  some : 1 ≤ uAt p 4 1
  most : uAt p 4 1 ≤ if maskWidthOf s (uAt p 0 1) = 8 then 30 else 60
  last : uAt p 2 2 + uAt p 4 1 ≤ 4096

/-- CAL_MASK_WRITE's check of its fields comes down to its points. -/
theorem maskFields_check (h : MaskFields s q.payload) :
    (Nat.blt (uAt q.payload 0 1) 32 && Nat.ble (uAt q.payload 1 1) 1 && resv q.payload 5 3 && Nat.ble 1 (uAt q.payload 4 1) &&
      Nat.ble (uAt q.payload 4 1) (if maskWidthOf s (uAt q.payload 0 1) = 8 then 30 else 60) &&
      Nat.ble (uAt q.payload 2 2 + uAt q.payload 4 1) 4096 &&
      (List.range (uAt q.payload 4 1)).all (fun k => (maskPointAt s q.payload k).isSome)) =
    (List.range (uAt q.payload 4 1)).all (fun k => (maskPointAt s q.payload k).isSome) := by
  obtain ⟨hch, hside, hr, h1, hmost, hlast⟩ := h
  have hside' : uAt q.payload 1 1 ≤ 1 := by omega
  simp [resv, hch, hside', hr, h1, hmost, hlast]

/-- CAL_MASK_WRITE writes its points at the channel's present width (R498, R679). -/
theorem calMaskWriteBody_writes {v : Nat → Int} (h : MaskFields s q.payload)
    (hv : ∀ k, k < uAt q.payload 4 1 → maskPointAt s q.payload k = some (v k)) (hon : captureOn s = true) (hidle : calBusy s = false) :
    ∃ u, calMaskWriteBody s q t = .ok u [] ∧ tget u.cal.maskWidth 0 (uAt q.payload 0 1) = maskWidthOf s (uAt q.payload 0 1) ∧
      ∀ k, k < uAt q.payload 4 1 →
        tfind (tget u.cal.masks [] (2 * uAt q.payload 0 1 + uAt q.payload 1 1)) (uAt q.payload 2 2 + k) = some (v k) := by
  refine ⟨_, (need_pos ((maskFields_check h).trans ?_) _).trans (orElse_pos ?_ _ _), ?_, fun k hk => ?_⟩
  · simp only [List.all_eq_true, List.mem_range]
    intro k hk
    rw [hv k hk]
    rfl
  · simp [hon, hidle]
  · simp only [State.onCal, tget, tfind_tput_self]
    rfl
  · simp only [State.onCal]
    rw [tget, tfind_tput_self]
    refine (tfind_putRun_self (fun k => (maskPointAt s q.payload k).getD 0) _ _ hk).trans ?_
    rw [hv k hk]
    rfl

/-- A point whose container breaks R17 has CAL_MASK_WRITE refused. -/
theorem calMaskWriteBody_refuses {i : Nat} (h : MaskFields s q.payload) (hi : i < uAt q.payload 4 1)
    (hnone : maskPointAt s q.payload i = none) : calMaskWriteBody s q t = .err St.badParam [] := by
  refine need_neg ((maskFields_check h).trans ?_) _
  rw [List.all_eq_false]
  exact ⟨i, List.mem_range.mpr hi, by simp [hnone]⟩

/-- CAL_ARM arms the record with the configuration that the parameters give (R494 to R496). -/
theorem calArmBody_arms {c : CalConf} (hon : captureOn s = true) (hidle : calBusy s = false)
    (hc : calConfOf (parPromote s (fun _ _ => true) .calArm) = c) (hfit : confFits (parPromote s (fun _ _ => true) .calArm) c = true)
    (hmem : c.fixedBytes + 64 + largestEntry s c.listLen * c.rowBytes ≤ captureSize) :
    ∃ u, calArmBody s q t = .pend u ∧ isPending u Cmd.calArm 0 = true ∧ u.cal.state = 1 ∧ u.cal.conf = some c ∧ u.cal.rows = [] ∧
      u.cal.done = [] ∧ u.cal.segNo = 0 ∧ u.cal.trigAt = none := by
  subst hc
  exact ⟨_, (orElse_pos (by simp [hon, hidle]) _ _).trans ((need_pos hfit _).trans (orElse_pos (Nat.ble_eq.mpr hmem) _ _)),
    isPending_addPend _ _ _ _, rfl, rfl, rfl, rfl, rfl, rfl⟩

/-- CAL_ARM is refused where the largest entry of the segment list does not fit the capture SRAM (R499). -/
theorem calArmBody_refuses {c : CalConf} (hon : captureOn s = true) (hidle : calBusy s = false)
    (hc : calConfOf (parPromote s (fun _ _ => true) .calArm) = c) (hfit : confFits (parPromote s (fun _ _ => true) .calArm) c = true)
    (hmem : captureSize < c.fixedBytes + 64 + largestEntry s c.listLen * c.rowBytes) :
    calArmBody s q t = .err St.calMemory [] := by
  subst hc
  refine (orElse_pos (by simp [hon, hidle]) _ _).trans ((need_pos hfit _).trans (orElse_neg ?_ _ _))
  exact Bool.eq_false_iff.mpr (fun h => absurd (Nat.ble_eq.mp h) (Nat.not_le.mpr hmem))

/-- CAL_SKEW_CALIBRATE programs its output: pulses of 10 µs at 1 ms (R504). -/
theorem calSkewCalibrateBody_starts (hch : uAt q.payload 0 1 < 8) (hr : uAt q.payload 1 3 = 0) (hon : captureOn s = true)
    (hnone : s.cal.skew = none) :
    ∃ u, calSkewCalibrateBody s q t = .pend u ∧ u.cal.skew.isSome = true ∧ isPending u Cmd.calSkewCalibrate 0 = true ∧
      (tget u.time.touts {} (uAt q.payload 0 1) : Tout).mode = 2 ∧
      (tget u.time.touts {} (uAt q.payload 0 1) : Tout).period = 1000000 * nsU ∧
      (tget u.time.touts {} (uAt q.payload 0 1) : Tout).width = 10000 * nsU := by
  refine ⟨_, (need_pos (by simp [resv, hch, hr]) _).trans (orElse_pos (by simp [hon, hnone]) _ _), rfl, isPending_addPend _ _ _ _, ?_, ?_, ?_⟩
  all_goals simp only [addPend, State.onCal, State.onTout, tget_tmod_self]

theorem calSkewStoreBody_stores (hr : uAt q.payload 1 3 = 0) (hon : captureOn s = true) (hop : uAt q.payload 0 1 = 0) :
    calSkewStoreBody s q t = .ok (s.onCal (fun c => { c with skewStored := some c.skewVals })) [] :=
  (need_pos (by simp [resv, hr, hop]) _).trans ((orElse_pos hon _ _).trans (if_pos hop))

theorem calSkewStoreBody_recalls {l : List (Nat × Int)} (hr : uAt q.payload 1 3 = 0) (hon : captureOn s = true)
    (hop : uAt q.payload 0 1 = 1) (hl : s.cal.skewStored = some l) (hecc : q.ecc = .clean) :
    calSkewStoreBody s q t = .ok (s.onCal (fun c => { c with skewVals := l })) [] := by
  refine (need_pos (by simp [resv, hr, hop]) _).trans ((orElse_pos hon _ _).trans ((if_neg (by omega)).trans ?_))
  simp only [hl, withRead, hecc]

theorem calSkewStoreBody_refuses (hr : uAt q.payload 1 3 = 0) (hon : captureOn s = true) (hop : uAt q.payload 0 1 = 1)
    (hl : s.cal.skewStored = none) : calSkewStoreBody s q t = .err St.calSkewNone [] := by
  refine (need_pos (by simp [resv, hr, hop]) _).trans ((orElse_pos hon _ _).trans ((if_neg (by omega)).trans ?_))
  simp only [hl]

/-- CAL_BUS_MEASURE begins on a follower (R502). -/
theorem calBusMeasureBody_starts (hon : captureOn s = true) (hrole : par s Par.busRole 0 = 2) (hbus : s.cal.bus = none) :
    ∃ u, calBusMeasureBody s q t = .pend u ∧ u.cal.bus.isSome = true ∧ isPending u Cmd.calBusMeasure 0 = true :=
  ⟨_, orElse_pos (by simp [hon, hrole, hbus]) _ _, rfl, isPending_addPend _ _ _ _⟩

end bodies

@[simp] theorem maskWidthOf_atStamp (code dt : Nat) (q : Request) (s : State) (ch : Nat) :
    maskWidthOf (atStamp code dt q s) ch = maskWidthOf s ch := by simp [maskWidthOf]

/-- The statement's hypotheses on the fields of CAL_MASK_WRITE, on the state at the completion stamp. -/
theorem maskFields_atStamp {code dt n : Nat} {q : Request} {s : State} (hch : uAt q.payload 0 1 < 32) (hside : uAt q.payload 1 1 < 2)
    (hr : uAt q.payload 5 3 = 0) (hn : uAt q.payload 4 1 = n) (h1 : 1 ≤ n)
    (hmost : n ≤ if maskWidthOf s (uAt q.payload 0 1) = 8 then 30 else 60) (hlast : uAt q.payload 2 2 + n ≤ 4096) :
    MaskFields (atStamp code dt q s) q.payload := by
  subst hn
  exact ⟨hch, hside, hr, h1, by rw [maskWidthOf_atStamp]; exact hmost, hlast⟩

/-- Settles O56, command by command. -/
theorem calipersCommands : Obligations.CalipersCommands := by
  unfold Obligations.CalipersCommands
  intro s dt i n v c q p ch side w armed
  refine ⟨?segList, ?maskWrite, ?arm, ?stop, ?force, ?forceIdle, ?skewCalibrate, ?skewStore, ?busMeasure⟩
  case segList =>
    intro hs hi hn h1 h60 hr hend hlen hon hidle
    obtain ⟨u, hu, hin, hout⟩ := calSegListBody_writes (s := atStamp Cmd.calSegList dt q s) (t := stampOf Cmd.calSegList dt q s)
      hi hn h1 h60 hr hend hlen (by simpa using hon) (by simpa using hidle)
    exact answers_ok rfl hs hu ⟨rfl, hin, by simpa using hout⟩
  case maskWrite =>
    intro hs hch hside hr hn h1 hmost hlast
    have hf := maskFields_atStamp (code := Cmd.calMaskWrite) (dt := dt) hch hside hr hn h1 hmost hlast
    have hat (k : Nat) : maskPointAt (atStamp Cmd.calMaskWrite dt q s) p k = maskPoint s ch (slice p (8 + w * k) w) := by
      simp [maskPointAt, maskWidthOf, w, ch]
    have hwidth : maskWidthOf (atStamp Cmd.calMaskWrite dt q s) ch = w := maskWidthOf_atStamp ..
    subst hn
    refine ⟨fun hv hon hidle => ?_, fun hi hnone => ?_⟩
    · obtain ⟨u, hu, huw, hup⟩ := calMaskWriteBody_writes (t := stampOf Cmd.calMaskWrite dt q s) hf
        (fun k hk => (hat k).trans (hv k hk)) (by simpa using hon) (by simpa using hidle)
      exact answers_ok rfl hs hu ⟨rfl, huw.trans hwidth, hup⟩
    · exact refuses rfl hs (calMaskWriteBody_refuses hf hi ((hat i).trans hnone))
  case arm =>
    intro hs hon hidle hc hfit
    have hon' : captureOn (atStamp Cmd.calArm dt q s) = true := by simpa using hon
    have hidle' : calBusy (atStamp Cmd.calArm dt q s) = false := by simpa using hidle
    have hrows : largestEntry (parPromote (atStamp Cmd.calArm dt q s) (fun _ _ => true) .calArm) c.listLen = largestEntry s c.listLen := by
      simp [largestEntry, parPromote]
    rw [← hrows]
    refine ⟨fun hmem => ?_, fun hmem => ?_⟩
    · obtain ⟨u, hu, hrest⟩ := calArmBody_arms (q := q) (t := stampOf Cmd.calArm dt q s) hon' hidle' hc hfit hmem
      exact answers_pend rfl hs hu ⟨rfl, hrest⟩
    · exact refuses rfl hs (calArmBody_refuses hon' hidle' hc hfit hmem)
  case stop =>
    intro hs hon hbusy
    exact answers_ok rfl hs (orElse_pos (by simpa using hon) _ _) ⟨rfl, calStop_of_busy (by simpa using hbusy) 5⟩
  case force =>
    intro hs hon hstate htrig hrearm hpre
    refine answers_ok rfl hs (orElse_pos (by simp [hon, hstate]) _ _) ⟨rfl, calTrigger_of_armed _ 6 ?_ ?_ ?_ ?_⟩
    all_goals simpa
  case forceIdle =>
    intro hs hstate
    exact refuses rfl hs (orElse_neg (by simp [hstate]) _ _)
  case skewCalibrate =>
    intro hs hch hr hon hnone
    obtain ⟨u, hu, hrest⟩ := calSkewCalibrateBody_starts (s := atStamp Cmd.calSkewCalibrate dt q s) (t := stampOf Cmd.calSkewCalibrate dt q s)
      hch hr (by simpa using hon) (by simpa using hnone)
    exact answers_pend rfl hs hu ⟨rfl, hrest⟩
  case skewStore =>
    intro hs hr hon
    have hon' : captureOn (atStamp Cmd.calSkewStore dt q s) = true := by simpa using hon
    refine ⟨fun hop => ?_, fun l hop hl hecc => ?_, fun hop hl => ?_⟩
    · exact answers_ok rfl hs (calSkewStoreBody_stores hr hon' hop) ⟨rfl, by simp [State.onCal]⟩
    · exact answers_ok rfl hs (calSkewStoreBody_recalls hr hon' hop (by simpa using hl) hecc) ⟨rfl, by simp [State.onCal]⟩
    · exact refuses rfl hs (calSkewStoreBody_refuses hr hon' hop (by simpa using hl))
  case busMeasure =>
    intro hs hon hrole hbus
    obtain ⟨u, hu, hrest⟩ := calBusMeasureBody_starts (s := atStamp Cmd.calBusMeasure dt q s) (q := q) (t := stampOf Cmd.calBusMeasure dt q s)
      (by simpa using hon) (by simpa using hrole) (by simpa using hbus)
    exact answers_pend rfl hs hu ⟨rfl, hrest⟩

end Sys2Proof.Machine
end

