-- ==== Sys2Proof/Proofs/HostRegisters.lean ====
section
/-! A host write into a reserved region of BAR2 and the output snapshot (R358, R379). -/

namespace Sys2Proof.Machine

/-- The cycle runs at 8 kHz from tick 0; the snapshot for tick 1 has been taken and holds a byte that the output buffer, all zeros, does
not: the buffer has been cleared since. Its instant is not past. -/
def staleSnapshot : State :=
  { State.reset with dev := { mode := .preop }, cyc := { running := true }, host := { snapTick := some 1, snapshot := [(0, 1)] } }

theorem staleSnapshot_open : hostOpen (advance 0 staleSnapshot) = true := by decide

theorem staleSnapshot_kept : (advance 0 staleSnapshot).host.snapshot = [(0, 1)] := by decide

/-- Every host write into BAR2 renews a snapshot whose instant is not past (R379), one into a reserved region with it. -/
theorem ignoredWrite_renewsSnapshot :
    ∃ t, exec (.bar2Write 0 0x400000 [0]) staleSnapshot = .next t ∧ t.host.snapshot = [] :=
  ⟨_, rfl, by decide⟩

/-- Refutes O13: a host write into a reserved region of BAR2 does not leave everything as it was. In `staleSnapshot` it replaces the output
snapshot by what stands in the output buffer. -/
theorem not_hostRegisterAccesses : ¬ Obligations.HostRegisterAccesses := by
  unfold Obligations.HostRegisterAccesses
  intro h
  obtain ⟨-, -, -, -, -, -, -, hignored, -⟩ := h staleSnapshot 0 0x400000 0 0 0 [] []
  obtain ⟨t, hexec, rfl⟩ := hignored staleSnapshot_open (by decide)
  obtain ⟨u, hexec', hempty⟩ := ignoredWrite_renewsSnapshot
  obtain rfl := Host.Outcome.next.inj (hexec.symm.trans hexec')
  exact absurd (staleSnapshot_kept.symm.trans hempty) (by decide)

end Sys2Proof.Machine
end

