-- ==== Sys2Proof/Proofs/Outside.lean ====
section
/-! What the posting of an answer, the stop of an axis and a change of the device state leave alone. -/

namespace Sys2Proof.Machine

/-- What the posting of a response or a notification, the end of a pending command and the stop of an axis leave alone. -/
structure Outside where
  board : Board
  dev : Dev
  par : Params
  cyc : Cyc
  rings : Table Ring
  disp : Disp
  loc : LocalIn
  time : TimeSt
  cal : Calipers
  dma : DmaSt
  safe : Safety
  pair : Pair
  raised : List Nat
  freeze : Option Freeze
  tru : Truing
  power : Power
  jtag : Jtag

def State.outside (s : State) : Outside :=
  { board := s.board, dev := s.dev, par := s.par, cyc := s.cyc, rings := s.rings, disp := s.disp, loc := s.loc, time := s.time, cal := s.cal,
    dma := s.dma, safe := s.safe, pair := s.pair, raised := s.ev.raised, freeze := s.ev.freeze, tru := s.tru, power := s.power, jtag := s.jtag }

@[simp] theorem outside_mk (board dev host par plan cyc rings axes groups disp pwm loc time cal dma safe pair ev tru power jtag mem pend free
    pending) : State.outside ⟨board, dev, host, par, plan, cyc, rings, axes, groups, disp, pwm, loc, time, cal, dma, safe, pair, ev, tru, power, jtag,
      mem, pend, free, pending⟩ = ⟨board, dev, par, cyc, rings, disp, loc, time, cal, dma, safe, pair, ev.raised, ev.freeze, tru, power, jtag⟩ := by rfl

@[simp] theorem outside_fold (s : State) : Outside.mk s.board s.dev s.par s.cyc s.rings s.disp s.loc s.time s.cal s.dma s.safe s.pair s.ev.raised
    s.ev.freeze s.tru s.power s.jtag = s.outside := by rfl

@[simp] theorem outside_ite (p : Prop) [Decidable p] (s t : State) : (if p then s else t).outside = if p then s.outside else t.outside :=
  apply_ite State.outside p s t

@[simp] theorem outside_foldl {α : Type} (f : State → α → State) (k : ∀ s x, (f s x).outside = s.outside) (l : List α) (s : State) :
    (l.foldl f s).outside = s.outside := by
  induction l generalizing s with
  | nil => rfl
  | cons x l ih => rw [List.foldl_cons, ih, k]

@[simp] theorem onAxis_outside (s : State) (a : Nat) (f : Axis → Axis) : (s.onAxis a f).outside = s.outside := by rfl
@[simp] theorem onGroup_outside (s : State) (g : Nat) (f : Group → Group) : (s.onGroup g f).outside = s.outside := by rfl

@[simp] theorem notify_outside (s : State) (code tag status : Nat) (p : Bytes) : (notify s code tag status p).outside = s.outside := by
  obtain ⟨h, m, e, -⟩ := notify_frame s code tag status p
  rw [e]
  rfl

@[simp] theorem finish_outside (s : State) (code key status : Nat) (p : Bytes) : (finish s code key status p).outside = s.outside := by
  obtain ⟨h, m, e, -⟩ := finish_frame s code key status p
  rw [e]
  rfl

@[simp] theorem respond_outside (s : State) (code : Nat) (q : Request) (status stamp : Nat) (p : Bytes) :
    (respond s code q status stamp p).outside = s.outside := by
  obtain ⟨h, e, eq, -⟩ := respond_frame s code q status stamp p
  rw [eq]
  rfl

@[simp] theorem respondLater_outside (s : State) (mb code status : Nat) (p : Bytes) : (respondLater s mb code status p).outside = s.outside := by
  unfold respondLater
  split
  · simp only [respond_outside]
    rfl
  · rfl

@[simp] theorem cancelPlan_outside (s : State) : (cancelPlan s).outside = s.outside := by
  unfold cancelPlan
  split
  · simp
  · simp
  · rfl

@[simp] theorem waitAxis_outside (a stamp : Nat) (c : MotionCmd) (s : State) : (waitAxis a stamp c s).outside = s.outside := by rfl
@[simp] theorem waitGroup_outside (g stamp : Nat) (c : MotionCmd) (s : State) : (waitGroup g stamp c s).outside = s.outside := by rfl

@[simp] theorem disabledNow_outside (s : State) (a : Nat) : (disabledNow s a).outside = s.outside := by
  simp [disabledNow]

@[simp] theorem abortEnable_outside (s : State) (a status : Nat) : (abortEnable s a status).outside = s.outside := by
  unfold abortEnable
  split <;> simp

@[simp] theorem abortEnables_outside (s : State) : (abortEnables s).outside = s.outside := by
  simp [abortEnables]

@[simp] theorem requestStop_outside (keep disable : Bool) (s : State) (a : Nat) : (requestStop keep disable s a).outside = s.outside := by
  unfold requestStop
  repeat' split
  all_goals simp

@[simp] theorem faultStop_outside (s : State) (a : Nat) : (faultStop s a).outside = s.outside := by
  unfold faultStop
  repeat' split
  all_goals simp

@[simp] theorem stoDisable_outside (s : State) (a : Nat) : (stoDisable s a).outside = s.outside := by
  unfold stoDisable
  repeat' split
  all_goals simp

/-! ### The device state -/

@[simp] theorem changeState_outside (s : State) (m : DevMode) :
    (changeState s m).outside = { s.outside with dev := { s.dev with mode := m } } := by
  unfold changeState
  split
  next h => subst h; rfl
  next =>
    have hd : (abortEnables (cancelPlan s)).outside = s.outside := by simp
    have hdev : (abortEnables (cancelPlan s)).dev = s.dev := congrArg Outside.dev hd
    simp only [notify_outside, hdev]
    show ({ (abortEnables (cancelPlan s)).outside with dev := { s.dev with mode := m } } : Outside) = _
    rw [hd]

theorem changeState_dev (s : State) (m : DevMode) : (changeState s m).dev = { s.dev with mode := m } :=
  congrArg Outside.dev (changeState_outside s m)

theorem changeState_cyc (s : State) (m : DevMode) : (changeState s m).cyc = s.cyc := congrArg Outside.cyc (changeState_outside s m)

theorem cancelTransitions_outside (s : State) : (cancelTransitions s).outside =
    { s.outside with dev := { s.dev with preopPending := false }, cyc := { s.cyc with first := none } } := by
  unfold cancelTransitions
  have h : (if s.dev.preopPending then finish { s with dev := { s.dev with preopPending := false } } Cmd.sysPreop 0 St.stateChanged else s).outside =
      { s.outside with dev := { s.dev with preopPending := false } } := by
    split
    · simp only [finish_outside]; rfl
    next hp =>
      have : s.dev = { s.dev with preopPending := false } := by
        rw [← Bool.eq_false_iff.mpr hp]
      rw [← this]; rfl
  generalize (if s.dev.preopPending then finish { s with dev := { s.dev with preopPending := false } } Cmd.sysPreop 0 St.stateChanged else s) = s1 at h ⊢
  have hc : s1.cyc = s.cyc := congrArg Outside.cyc h
  dsimp only
  split
  · simp only [finish_outside, hc]
    show ({ s1.outside with cyc := { s.cyc with first := none } } : Outside) = _
    rw [h]
  next hn =>
    rw [h]
    rw [hc] at hn
    rw [show ({ s.cyc with first := none } : Cyc) = s.cyc by rw [← hn]]
    rfl

end Sys2Proof.Machine
end

