-- ==== Sys2Proof/Proofs/Vital.lean ====
section
/-! What the work of every unit keeps: canonical memories, the device state but for SAFE_HOLD and FAULT, the clock of the cycle, the events
raised and the causes of R30. One lemma for each function of the model, in the order of the model's files. -/

namespace Sys2Proof.Machine

/-- What the invariants and the transitions of R29 speak of: the device state, the state that SAFE_HOLD keeps, a start that waits for its
first tick, the memories and the plan images; with them the clock of the cycle, the sources raised, and the causes of R30. -/
structure Vital where
  mode : DevMode
  held : DevMode
  first : Option Nat
  mem : Mems
  standby : Image
  active : Option Image
  clock : Bool × Nat × Nat × Nat × Nat
  raised : List Nat
  causes : List Nat × Bool × Bool

def State.vital (s : State) : Vital :=
  { mode := s.dev.mode, held := s.dev.held, first := s.cyc.first, mem := s.mem, standby := s.plan.standby, active := s.plan.active,
    clock := (s.cyc.running, s.cyc.rate, s.cyc.tick, s.cyc.t0, s.cyc.count), raised := s.ev.raised,
    causes := (s.dev.hwFaults, s.dev.clockOff, s.dev.powerFailing) }

/-- The memories and the plan images are canonical. -/
def Vital.wf (v : Vital) : Prop := v.mem.wf ∧ Memory.wf v.standby ∧ ∀ m, v.active = some m → Memory.wf m

/-- FAULT has its own transition from these (R29). -/
def canFault : DevMode → Bool
  | .config | .preop | .operational | .safeHold => true
  | _ => false

/-- The moves that a reaction makes by itself: none, into FAULT, unless it is `calm`, or, where `hold` lets it, into SAFE_HOLD. -/
def Drifts (calm hold : Bool) (v w : Vital) : Prop :=
  (w.mode = v.mode ∧ w.held = v.held ∧ (v.first = none → w.first = none)) ∨
  (calm = false ∧ w.mode = .fault ∧ w.first = none ∧ canFault v.mode = true) ∨
  (hold = true ∧ w.mode = .safeHold ∧ w.held = v.mode ∧ w.first = none ∧ (v.mode = .preop ∨ v.mode = .operational))

/-- What every unit's own work keeps. -/
structure Reacts (calm hold recount clear : Bool) (v w : Vital) : Prop where
  wf : v.wf → w.wf
  drifts : Drifts calm hold v w
  clock : recount = false → w.clock = v.clock
  raised : clear = false → ∀ x ∈ v.raised, x ∈ w.raised
  causes : w.causes = v.causes

theorem Drifts.refl (c h : Bool) (v : Vital) : Drifts c h v v := .inl ⟨rfl, rfl, id⟩

theorem Drifts.trans {c h : Bool} {u v w : Vital} (a : Drifts c h u v) (b : Drifts c h v w) : Drifts c h u w := by
  rcases a with ⟨am, ah, af⟩ | ⟨ak, am, af, ac⟩ | ⟨ah, am, aheld, af, ac⟩
  · rcases b with ⟨bm, bh, bf⟩ | ⟨bk, bm, bf, bc⟩ | ⟨bh, bm, bheld, bf, bc⟩
    · exact .inl ⟨bm.trans am, bh.trans ah, bf ∘ af⟩
    · exact .inr (.inl ⟨bk, bm, bf, am ▸ bc⟩)
    · exact .inr (.inr ⟨bh, bm, bheld.trans am, bf, am ▸ bc⟩)
  · rcases b with ⟨bm, -, bf⟩ | ⟨-, -, -, bc⟩ | ⟨-, -, -, -, bc⟩
    · exact .inr (.inl ⟨ak, bm.trans am, bf af, ac⟩)
    · simp [am, canFault] at bc
    · simp [am] at bc
  · rcases b with ⟨bm, bh, bf⟩ | ⟨bk, bm, bf, -⟩ | ⟨-, -, -, -, bc⟩
    · exact .inr (.inr ⟨ah, bm.trans am, bh.trans aheld, bf af, ac⟩)
    · refine .inr (.inl ⟨bk, bm, bf, ?_⟩)
      rcases ac with e | e <;> rw [e] <;> rfl
    · simp [am] at bc

variable {calm hold recount clear : Bool} {u v w v₀ : Vital}

@[simp, refl] theorem Reacts.refl : Reacts calm hold recount clear v v := ⟨id, .refl _ _ _, fun _ => rfl, fun _ _ => id, rfl⟩

theorem Reacts.trans (a : Reacts calm hold recount clear u v) (b : Reacts calm hold recount clear v w) : Reacts calm hold recount clear u w :=
  ⟨b.wf ∘ a.wf, a.drifts.trans b.drifts, fun k => (b.clock k).trans (a.clock k), fun k x hx => b.raised k x (a.raised k x hx),
    b.causes.trans a.causes⟩

/-- A second name of `Reacts`, which no rule of `simp` rewrites. -/
def Later (calm hold recount clear : Bool) (v w : Vital) : Prop := Reacts calm hold recount clear v w

/-- From `s` to `t` there lies a reaction. It is put as a rule by which `simp` takes a claim about `t` back to one about `s` without a side
condition: the second disjunct says nothing, and a claim about the state begun with closes by `Reacts.refl`. -/
abbrev Carries (calm hold recount clear : Bool) (s t : State) : Prop :=
  ∀ v₀, Reacts calm hold recount clear v₀ t.vital ↔ Reacts calm hold recount clear v₀ s.vital ∨ Later calm hold recount clear v₀ t.vital

theorem carry {s t : State} (a : Reacts calm hold recount clear s.vital t.vital) : Carries calm hold recount clear s t :=
  fun _ => ⟨.inr, fun k => k.elim (·.trans a) id⟩

@[simp] theorem vital_mk (board dev host par plan cyc rings axes groups disp pwm loc time cal dma safe pair ev tru power jtag mem pend free
    pending) : State.vital ⟨board, dev, host, par, plan, cyc, rings, axes, groups, disp, pwm, loc, time, cal, dma, safe, pair, ev, tru, power, jtag, mem,
      pend, free, pending⟩ = ⟨dev.mode, dev.held, cyc.first, mem, plan.standby, plan.active, (cyc.running, cyc.rate, cyc.tick, cyc.t0, cyc.count),
        ev.raised, (dev.hwFaults, dev.clockOff, dev.powerFailing)⟩ := by rfl

@[simp] theorem vital_fold (s : State) : Vital.mk s.dev.mode s.dev.held s.cyc.first s.mem s.plan.standby s.plan.active
    (s.cyc.running, s.cyc.rate, s.cyc.tick, s.cyc.t0, s.cyc.count) s.ev.raised (s.dev.hwFaults, s.dev.clockOff, s.dev.powerFailing) = s.vital := by rfl

@[simp] theorem vital_ite (p : Prop) [Decidable p] (s t : State) : (if p then s else t).vital = if p then s.vital else t.vital :=
  apply_ite State.vital p s t

@[simp] theorem reacts_ite (p : Prop) [Decidable p] : Reacts calm hold recount clear u (if p then v else w) ↔ if p then Reacts calm hold recount clear u v else Reacts calm hold recount clear u w := by
  split <;> rfl

@[simp] theorem vital_foldl {α : Type} (f : State → α → State) (k : ∀ s x, (f s x).vital = s.vital) (l : List α) (s : State) :
    (l.foldl f s).vital = s.vital := by
  induction l generalizing s with
  | nil => rfl
  | cons x l ih => rw [List.foldl_cons, ih, k]

theorem foldl_reacts {α : Type} {f : State → α → State} (k : ∀ s x, Reacts calm hold recount clear s.vital (f s x).vital) (l : List α) (s : State) :
    Reacts calm hold recount clear s.vital (l.foldl f s).vital := by
  induction l generalizing s with
  | nil => exact .refl
  | cons x l ih => exact (k s x).trans (ih _)

@[simp] theorem foldl_carry {α : Type} (f : State → α → State) (k : ∀ s x, Reacts calm hold recount clear s.vital (f s x).vital) (l : List α) (s : State) :
    Carries calm hold recount clear s (l.foldl f s) := carry (foldl_reacts k l s)

/-! ### Replies -/

/-- What the state of a reply shows; a refusal leaves the state `s`. -/
def Reply.vital (s : State) : Reply → Vital
  | .ok t _ | .pend t | .later t | .errWith t _ _ => t.vital
  | .err _ _ => s.vital

@[simp] theorem Reply.vital_ok (s t : State) (p : Bytes) : (Reply.ok t p).vital s = t.vital := by rfl
@[simp] theorem Reply.vital_pend (s t : State) : (Reply.pend t).vital s = t.vital := by rfl
@[simp] theorem Reply.vital_later (s t : State) : (Reply.later t).vital s = t.vital := by rfl
@[simp] theorem Reply.vital_err (s : State) (st : Nat) (p : Bytes) : (Reply.err st p).vital s = s.vital := by rfl
@[simp] theorem Reply.vital_errWith (s t : State) (st : Nat) (p : Bytes) : (Reply.errWith t st p).vital s = t.vital := by rfl
@[simp] theorem Reply.vital_ite (s : State) (p : Prop) [Decidable p] (r r' : Reply) :
    (if p then r else r').vital s = if p then r.vital s else r'.vital s := apply_ite (Reply.vital s) p r r'
@[simp] theorem need_vital (s : State) (c : Bool) (r : Reply) : (need c r).vital s = if c then r.vital s else s.vital := by
  cases c <;> rfl
@[simp] theorem orElse_vital (s : State) (c : Bool) (st : Nat) (r : Reply) : (orElse c st r).vital s = if c then r.vital s else s.vital := by
  cases c <;> rfl
@[simp] theorem inst_vital (s : State) (n full have_ : Nat) (r : Reply) :
    (inst n full have_ r).vital s = if full ≤ n ∨ have_ ≤ n then s.vital else r.vital s := by
  by_cases h : full ≤ n <;> simp [inst, h]

/-! ### Memories -/

theorem Reacts.ofMem {m : Mems} (k : v.mem.wf → m.wf) : Reacts calm hold recount clear v { v with mem := m } :=
  ⟨fun ⟨hm, hp⟩ => ⟨k hm, hp⟩, .inl ⟨rfl, rfl, id⟩, fun _ => rfl, fun _ _ => id, rfl⟩

theorem Reacts.sram {m : List Host.Cell} (k : Memory.wf v.mem.sram → Memory.wf m) :
    Reacts calm hold recount clear v { v with mem := { v.mem with sram := m } } := .ofMem fun ⟨a, r⟩ => ⟨k a, r⟩

theorem Reacts.capture {m : List Host.Cell} (k : Memory.wf v.mem.capture → Memory.wf m) :
    Reacts calm hold recount clear v { v with mem := { v.mem with capture := m } } := .ofMem fun ⟨a, b, r⟩ => ⟨a, k b, r⟩

theorem Reacts.ddr {m : List Host.Cell} (k : Memory.wf v.mem.ddr → Memory.wf m) :
    Reacts calm hold recount clear v { v with mem := { v.mem with ddr := m } } := .ofMem fun ⟨a, b, d, r⟩ => ⟨a, b, k d, r⟩

theorem Reacts.mram {m : List Host.Cell} (k : Memory.wf v.mem.mram → Memory.wf m) :
    Reacts calm hold recount clear v { v with mem := { v.mem with mram := m } } := .ofMem fun ⟨a, b, d, e, r⟩ => ⟨a, b, d, k e, r⟩

theorem Reacts.host {m : List Host.Cell} (k : Memory.wf v.mem.host → Memory.wf m) :
    Reacts calm hold recount clear v { v with mem := { v.mem with host := m } } := .ofMem fun ⟨a, b, d, e, f, r⟩ => ⟨a, b, d, e, k f, r⟩

theorem Reacts.standby {m : Image} (k : Memory.wf v.standby → Memory.wf m) : Reacts calm hold recount clear v { v with standby := m } :=
  ⟨fun ⟨a, b, d⟩ => ⟨a, k b, d⟩, .inl ⟨rfl, rfl, id⟩, fun _ => rfl, fun _ _ => id, rfl⟩

theorem Reacts.unstart : Reacts calm hold recount clear v { v with first := none } :=
  ⟨id, .inl ⟨rfl, rfl, fun _ => rfl⟩, fun _ => rfl, fun _ _ => id, rfl⟩

theorem Reacts.raises {l : List Nat} (k : ∀ x ∈ v.raised, x ∈ l) : Reacts calm hold recount clear v { v with raised := l } :=
  ⟨id, .inl ⟨rfl, rfl, id⟩, fun _ => rfl, fun _ => k, rfl⟩

theorem Reacts.forgets {l : List Nat} : Reacts calm hold recount true v { v with raised := l } :=
  ⟨id, .inl ⟨rfl, rfl, id⟩, fun _ => rfl, fun h => absurd h (by decide), rfl⟩

theorem Reacts.recounts {x : Option Nat} {k : Bool × Nat × Nat × Nat × Nat} (hx : v.first = none → x = none) :
    Reacts calm hold true clear v { v with first := x, clock := k } :=
  ⟨id, .inl ⟨rfl, rfl, hx⟩, fun h => absurd h (by decide), fun _ _ => id, rfl⟩

/-! ### Machine/Ops -/

@[simp] theorem advance_vital (n : Nat) (s : State) : (advance n s).vital = s.vital := by
  obtain ⟨t, h⟩ := advance_frame n s
  rw [h]; rfl

@[simp] theorem advanceTo_vital (at_ : Nat) (s : State) : (advanceTo at_ s).vital = s.vital := by
  simp [advanceTo]

@[simp] theorem parSet_vital (s : State) (n i : Nat) (v : Int) : (parSet s n i v).vital = s.vital := by rfl

@[simp] theorem parPromote_vital (s : State) (sel : Nat → Nat → Bool) (e : Eff) : (parPromote s sel e).vital = s.vital := by
  simp [parPromote]

@[simp] theorem State.onAxis_vital (s : State) (a : Nat) (f : Axis → Axis) : (State.onAxis s a f).vital = s.vital := by rfl

@[simp] theorem State.onRing_vital (s : State) (r : Nat) (f : Ring → Ring) : (State.onRing s r f).vital = s.vital := by rfl

@[simp] theorem State.onLong_vital (s : State) (i : Nat) (f : TaskLong → TaskLong) : (State.onLong s i f).vital = s.vital := by rfl

@[simp] theorem State.onEngine_vital (s : State) (e : Nat) (f : Engine → Engine) : (State.onEngine s e f).vital = s.vital := by rfl

@[simp] theorem State.onGroup_vital (s : State) (g : Nat) (f : Group → Group) : (State.onGroup s g f).vital = s.vital := by rfl

@[simp] theorem State.onMbox_vital (s : State) (m : Nat) (f : RingRegs → RingRegs) : (State.onMbox s m f).vital = s.vital := by rfl

@[simp] theorem State.sramWrite_vital (s : State) (a : Nat) (b : Bytes) :
    Carries calm hold recount clear s (State.sramWrite s a b) :=
  carry (.sram (wf_memWrite a b))

/-! ### Machine/Events -/

@[simp] theorem sendMsix_vital (s : State) (v : Nat) : (sendMsix s v).vital = s.vital := by
  simp [sendMsix]

@[simp] theorem ctrlIrq_vital (s : State) (ctrl : BitVec 7) : (ctrlIrq s ctrl).vital = s.vital := by
  simp [ctrlIrq]

@[simp] theorem reportEvent_vital (s : State) (src : Nat) : (reportEvent s src).vital = s.vital := by
  simp [reportEvent]

@[simp] theorem driveBus_vital (s : State) (line at_ : Nat) : (driveBus s line at_).vital = s.vital := by rfl

@[simp] theorem acceptTrigger_vital (s : State) (stamp src : Nat) : (acceptTrigger s stamp src).vital = s.vital := by
  unfold acceptTrigger; dsimp only; repeat' split
  all_goals simp

@[simp] theorem raiseLine_vital (s : State) (source ns : Nat) : (raiseLine s source ns).vital = s.vital := by
  unfold raiseLine; repeat' split
  all_goals simp

theorem record_raised (s : State) (r : Raise) :
    ∃ e k, record s r = { s with ev := e, cal := k } ∧ ∀ x ∈ s.ev.raised, x ∈ e.raised := by
  obtain ⟨e, k, hline, hraised, -⟩ := raiseLine_frame s r.source (r.at_.getD (nowNs s))
  have hl : ∀ x ∈ s.ev.raised, x ∈ if s.ev.raised.contains r.source then s.ev.raised else s.ev.raised ++ [r.source] := by
    intro x hx
    split
    · exact hx
    · exact List.mem_append_left _ hx
  unfold record
  dsimp only
  rw [hline]
  dsimp only
  rw [hraised]
  generalize (if s.ev.raised.contains r.source then s.ev.raised else s.ev.raised ++ [r.source]) = l at hl ⊢
  repeat' split
  all_goals exact ⟨_, k, rfl, hl⟩

@[simp] theorem record_vital (s : State) (r : Raise) : Carries calm hold recount clear s (record s r) := by
  obtain ⟨e, k, h, hl⟩ := record_raised s r
  exact carry (h ▸ .raises (v := s.vital) hl)

@[simp] theorem freezeRecord_vital (s : State) (trigger source ns : Nat) : (freezeRecord s trigger source ns).vital = s.vital := by
  unfold freezeRecord; split <;> simp

@[simp] theorem commitFrozen_vital (s : State) (f : Freeze) :
    Carries calm hold recount clear s (commitFrozen s f) :=
  carry (.mram fun h => wf_memPaste _ _ h (wf_cellsFrom ..))

@[simp] theorem raiseOnly_vital (s : State) (r : Raise) :
    Carries calm hold recount clear s (raiseOnly s r) := carry <| by
  simp [raiseOnly]

@[simp] theorem countTransient_vital (s : State) (kind : Nat) :
    Carries calm hold recount clear s (countTransient s kind) := carry <| by
  simp [countTransient]

@[simp] theorem transient_vital (s : State) (kind : Nat) (r : Raise) :
    Carries calm hold recount clear s (transient s kind r) := carry <| by
  simp [transient]

/-! ### Machine/Mailbox -/

@[simp] theorem useStamp_vital (s : State) (t : Nat) : (useStamp s t).vital = s.vital := by rfl

@[simp] theorem postEntry_vital (s : State) (m : Nat) (entry : Bytes) :
    Carries calm hold recount clear s (postEntry s m entry) := carry <| by
  simp [postEntry]

@[simp] theorem notify_vital (s : State) (code tag status : Nat) (payload : Bytes) :
    Carries calm hold recount clear s (notify s code tag status payload) := carry <| by
  simp [notify]

@[simp] theorem postNotice_vital (s : State) :
    Carries calm hold recount clear s (postNotice s) := carry <| by
  unfold postNotice; split <;> simp

@[simp] theorem addPend_vital (s : State) (code : Nat) (q : Request) (key : Nat) : (addPend s code q key).vital = s.vital := by rfl

@[simp] theorem finish_vital (s : State) (code key status : Nat) (payload : Bytes) :
    Carries calm hold recount clear s (finish s code key status payload) := carry <| by
  simp [finish]

@[simp] theorem finishOne_vital (s : State) (code status : Nat) (payload : Bytes) :
    Carries calm hold recount clear s (finishOne s code status payload) := carry <| by
  unfold finishOne; split <;> simp

@[simp] theorem finishThis_vital (s : State) (p : PendCmd) (status : Nat) :
    Carries calm hold recount clear s (finishThis s p status) := carry <| by
  simp [finishThis]

@[simp] theorem takeTurn_vital (s : State) (m : Nat) : (takeTurn s m).vital = s.vital := by
  simp [takeTurn]

@[simp] theorem respond_vital (s : State) (code : Nat) (q : Request) (status stamp : Nat) (payload : Bytes) :
    Carries calm hold recount clear s (respond s code q status stamp payload) := carry <| by
  simp [respond]

@[simp] theorem noteRequest_vital (s : State) (code : Nat) (q : Request) : (noteRequest s code q).vital = s.vital := by
  unfold noteRequest; split <;> simp

theorem serve_reacts {code : Nat} {body : State → Request → Nat → Reply} (h : ∀ s q t, Reacts calm hold recount clear s.vital ((body s q t).vital s))
    (dt : Nat) (q : Request) (s0 : State) : Reacts calm hold recount clear s0.vital (serve code body dt q s0).vital := by
  unfold serve
  dsimp only
  split
  · simp
  · split
    · simp
    · generalize nextStamp _ = t
      have hb := h (useStamp (noteRequest (advance dt s0) code q) t) q t
      split <;> simp_all

@[simp] theorem respondLater_vital (s : State) (mb code status : Nat) (payload : Bytes) :
    Carries calm hold recount clear s (respondLater s mb code status payload) := carry <| by
  unfold respondLater; split <;> simp

/-! ### Machine/Plan -/

@[simp] theorem takeOutputs_vital (n : Nat) (s : State) : (takeOutputs n s).vital = s.vital := by rfl

@[simp] theorem snapBefore_vital (s : State) : (snapBefore s).vital = s.vital := by
  unfold snapBefore; split <;> simp

@[simp] theorem snapAgain_vital (s : State) : (snapAgain s).vital = s.vital := by
  unfold snapAgain; split <;> simp

@[simp] theorem State.onNode_vital (s : State) (r p : Nat) (f : Node → Node) : (State.onNode s r p f).vital = s.vital := by rfl

/-! ### Machine/RingConf -/

@[simp] theorem pushService_vital (r p : Nat) (sv : Acyclic) (s : State) : (pushService r p sv s).vital = s.vital := by rfl

@[simp] theorem configureNode_vital (r p joined : Nat) (s : State) : (configureNode r p joined s).vital = s.vital := by rfl

@[simp] theorem sendCentral_vital (a : Nat) (s : State) : (sendCentral a s).vital = s.vital := by
  unfold sendCentral; split <;> simp

/-! ### Machine/MotionOps -/

@[simp] theorem stopAt_vital (s : State) (a : Nat) (keep : Bool) (t : Nat) :
    Carries calm hold recount clear s (stopAt s a keep t) := carry <| by
  simp [stopAt]

@[simp] theorem wakeMember_vital (t : Nat) (s : State) (a : Nat) : (wakeMember t s a).vital = s.vital := by
  simp [wakeMember]

@[simp] theorem startPath_vital (s : State) (n t : Nat) (m : GMove) (dist : State → Group → List Int) : (startPath s n t m dist).vital = s.vital := by
  simp [startPath]

@[simp] theorem followGroup_vital (s : State) (n : Nat) : (followGroup s n).vital = s.vital := by
  unfold followGroup
  refine vital_foldl _ (fun s x => ?_) _ _
  split <;> simp

@[simp] theorem waitAxis_vital (a stamp : Nat) (c : MotionCmd) (s : State) : (waitAxis a stamp c s).vital = s.vital := by rfl

@[simp] theorem waitGroup_vital (g stamp : Nat) (c : MotionCmd) (s : State) : (waitGroup g stamp c s).vital = s.vital := by rfl

@[simp] theorem disabledNow_vital (s : State) (a : Nat) :
    Carries calm hold recount clear s (disabledNow s a) := carry <| by
  simp [disabledNow]

@[simp] theorem abortEnable_vital (s : State) (a : Nat) (status : Nat) :
    Carries calm hold recount clear s (abortEnable s a status) := carry <| by
  unfold abortEnable; split <;> simp

@[simp] theorem requestStop_vital (keep disable : Bool) (s : State) (a : Nat) :
    Carries calm hold recount clear s (requestStop keep disable s a) := carry <| by
  unfold requestStop; repeat' split
  all_goals simp

@[simp] theorem faultStop_vital (s : State) (a : Nat) :
    Carries calm hold recount clear s (faultStop s a) := carry <| by
  unfold faultStop; split <;> simp

@[simp] theorem leaveSource_vital (s : State) (a : Nat) : (leaveSource s a).vital = s.vital := by
  simp [leaveSource]

@[simp] theorem stoDisable_vital (s : State) (a : Nat) :
    Carries calm hold recount clear s (stoDisable s a) := carry <| by
  unfold stoDisable; repeat' split
  all_goals simp

/-! ### Machine/Reactions -/

@[simp] theorem cancelPlan_vital (s : State) :
    Carries calm hold recount clear s (cancelPlan s) := carry <| by
  unfold cancelPlan; split <;> simp

@[simp] theorem abortEnables_vital (s : State) :
    Carries calm hold recount clear s (abortEnables s) := carry <| by
  simp [abortEnables]

@[simp] theorem cancelTransitions_vital (s : State) :
    Carries calm hold recount clear s (cancelTransitions s) := by
  refine carry ?_
  have h1 : Reacts calm hold recount clear s.vital (if s.dev.preopPending then
      finish { s with dev := { s.dev with preopPending := false } } Cmd.sysPreop 0 St.stateChanged else s).vital := by simp
  unfold cancelTransitions
  dsimp only
  generalize (if s.dev.preopPending then
      finish { s with dev := { s.dev with preopPending := false } } Cmd.sysPreop 0 St.stateChanged else s) = s1 at h1 ⊢
  split
  · simp only [finish_vital]
    exact .inl (h1.trans .unstart)
  · exact h1

/-- What a change of the device state ends and posts. -/
theorem changeState_reacts (s : State) (m : DevMode) :
    Reacts calm hold recount clear { s.vital with mode := m } (changeState s m).vital := by
  unfold changeState
  split
  next h => subst h; exact .refl
  next =>
    have h : Reacts calm hold recount clear s.vital (abortEnables (cancelPlan s)).vital := by simp
    have hd : (abortEnables (cancelPlan s)).outside = s.outside := by simp
    generalize abortEnables (cancelPlan s) = s1 at h hd ⊢
    have hdev : s1.dev = s.dev := congrArg Outside.dev hd
    have hcyc : s1.cyc = s.cyc := congrArg Outside.cyc hd
    simp only [notify_vital]
    refine .inl ⟨h.wf, .inl ⟨rfl, congrArg Dev.held hdev, fun e => ?_⟩, h.clock, h.raised, h.causes⟩
    exact (congrArg Cyc.first hcyc).trans e

/-- What a reaction keeps beside the device state. -/
def Vital.parked (v : Vital) : Vital := { v with mode := .boot, held := .boot, first := none }

theorem Reacts.park (h : Reacts calm hold recount clear v w) : Reacts calm hold recount clear v.parked w.parked :=
  ⟨h.wf, .refl _ _ _, h.clock, h.raised, h.causes⟩

theorem Reacts.land (h : Reacts calm hold recount clear v.parked w.parked) (d : Drifts calm hold v w) : Reacts calm hold recount clear v w :=
  ⟨h.wf, d, h.clock, h.raised, h.causes⟩

/-- The transitions that are left for SAFE_HOLD or FAULT. -/
theorem leave_parked (s : State) (m : DevMode) :
    Reacts calm hold recount clear s.vital.parked (changeState (cancelTransitions s) m).vital.parked := by
  have h : Reacts calm hold recount clear s.vital (cancelTransitions s).vital := by simp
  exact h.park.trans (changeState_reacts (cancelTransitions s) m).park

theorem leave_outside (s : State) (m : DevMode) : (changeState (cancelTransitions s) m).outside =
    { s.outside with dev := { s.dev with preopPending := false, mode := m }, cyc := { s.cyc with first := none } } := by
  have h := cancelTransitions_outside s
  have hdev : (cancelTransitions s).dev = { s.dev with preopPending := false } := congrArg Outside.dev h
  rw [changeState_outside, h, hdev]

theorem leave_dev (s : State) (m : DevMode) :
    (changeState (cancelTransitions s) m).dev = { s.dev with preopPending := false, mode := m } := congrArg Outside.dev (leave_outside s m)

theorem setDev_outside (s : State) (d : Dev) : ({ s with dev := d } : State).outside = { s.outside with dev := d } := by rfl

/-- SAFE_HOLD keeps the state it leaves (R29). -/
theorem enterSafeHold_eq (s : State) (h : s.dev.mode = .preop ∨ s.dev.mode = .operational) :
    ∃ u, enterSafeHold s = (allAxes u).foldl (requestStop true false) u ∧
      u = { changeState (cancelTransitions s) .safeHold with
        dev := { (changeState (cancelTransitions s) .safeHold).dev with held := s.dev.mode } } := by
  unfold enterSafeHold
  rcases h with h | h <;> rw [h] <;> exact ⟨_, rfl, rfl⟩

theorem enterSafeHold_outside (s : State) (h : s.dev.mode = .preop ∨ s.dev.mode = .operational) : (enterSafeHold s).outside =
    { s.outside with dev := { s.dev with preopPending := false, mode := .safeHold, held := s.dev.mode }, cyc := { s.cyc with first := none } } := by
  obtain ⟨u, e, hu⟩ := enterSafeHold_eq s h
  have ho := leave_outside s .safeHold
  rw [e, outside_foldl _ (fun s x => requestStop_outside _ _ s x), hu, setDev_outside, ho, leave_dev]

@[simp] theorem enterSafeHold_vital (s : State) :
    Carries calm true recount clear s (enterSafeHold s) := by
  refine carry ?_
  by_cases h : s.dev.mode = .preop ∨ s.dev.mode = .operational
  · have ho := enterSafeHold_outside s h
    obtain ⟨u, e, hu⟩ := enterSafeHold_eq s h
    have hr : Reacts calm true recount clear u.vital (enterSafeHold s).vital := by
      rw [e]
      exact foldl_reacts (fun s a => by simp) _ _
    have hl : Reacts calm true recount clear s.vital.parked u.vital.parked := hu ▸ leave_parked s .safeHold
    refine (hl.trans hr.park).land (.inr (.inr ⟨rfl, ?_, ?_, ?_, h⟩))
    · exact congrArg (fun o : Outside => o.dev.mode) ho
    · exact congrArg (fun o : Outside => o.dev.held) ho
    · exact congrArg (fun o : Outside => o.cyc.first) ho
  · have e : enterSafeHold s = s := by
      unfold enterSafeHold
      split
      · exact absurd (.inl ‹_›) h
      · exact absurd (.inr ‹_›) h
      · rfl
    rw [e]

theorem enterFault_config {s : State} (h : s.dev.mode = .config) :
    enterFault s = { changeState (cancelTransitions s) .fault with
      dev := { (changeState (cancelTransitions s) .fault).dev with faultNoCycle := true } } := by
  unfold enterFault
  rw [h]

/-- From the states with a cycle FAULT stops and disables the axes. -/
theorem enterFault_cycle {s : State} (h : s.dev.mode = .preop ∨ s.dev.mode = .operational ∨ s.dev.mode = .safeHold) :
    ∃ u, enterFault s = (allAxes u).foldl faultStop u ∧
      u = { changeState (cancelTransitions s) .fault with
        dev := { (changeState (cancelTransitions s) .fault).dev with faultNoCycle := false } } := by
  unfold enterFault
  rcases h with h | h | h <;> rw [h] <;> exact ⟨_, rfl, rfl⟩

theorem enterFault_boot {s : State} (h : s.dev.mode = .boot) : enterFault s = { s with dev := { s.dev with faultNoCycle := true } } := by
  unfold enterFault
  rw [h]

theorem enterFault_other {s : State} (h : s.dev.mode = .off ∨ s.dev.mode = .standby ∨ s.dev.mode = .fault) : enterFault s = s := by
  unfold enterFault
  rcases h with h | h | h <;> rw [h]

theorem canFault_iff (m : DevMode) : canFault m = true ↔ m = .config ∨ m = .preop ∨ m = .operational ∨ m = .safeHold := by
  cases m <;> decide

theorem enterFault_outside {s : State} (h : canFault s.dev.mode = true) : (enterFault s).outside =
    { s.outside with
      dev := { s.dev with preopPending := false, mode := .fault, faultNoCycle := s.dev.mode == .config }
      cyc := { s.cyc with first := none } } := by
  have ho := leave_outside s .fault
  rcases (canFault_iff _).mp h with h | h
  · rw [enterFault_config h, setDev_outside, ho, leave_dev, h]
    rfl
  · obtain ⟨u, e, hu⟩ := enterFault_cycle h
    have hc : (s.dev.mode == .config) = false := by rcases h with h | h | h <;> rw [h] <;> rfl
    rw [e, outside_foldl _ faultStop_outside, hu, setDev_outside, ho, leave_dev, hc]

theorem enterFault_parked {s : State} (h : canFault s.dev.mode = true) :
    Reacts calm hold recount clear s.vital.parked (enterFault s).vital.parked := by
  have hl : Reacts calm hold recount clear s.vital.parked (changeState (cancelTransitions s) .fault).vital.parked := leave_parked s .fault
  rcases (canFault_iff _).mp h with h | h
  · rw [enterFault_config h]
    exact hl
  · obtain ⟨u, e, hu⟩ := enterFault_cycle h
    have hr : Reacts calm hold recount clear u.vital (enterFault s).vital := by
      rw [e]
      exact foldl_reacts (fun s a => by simp) _ _
    refine Reacts.trans ?_ hr.park
    rw [hu]
    exact hl

@[simp] theorem enterFault_vital (s : State) :
    Carries false hold recount clear s (enterFault s) := by
  refine carry ?_
  by_cases h : canFault s.dev.mode = true
  · have ho := enterFault_outside h
    refine (enterFault_parked h).land (.inr (.inl ⟨rfl, ?_, ?_, h⟩))
    · exact congrArg (fun o : Outside => o.dev.mode) ho
    · exact congrArg (fun o : Outside => o.cyc.first) ho
  · by_cases hb : s.dev.mode = .boot
    · rw [enterFault_boot hb]
      exact .refl
    · rw [enterFault_other]
      rw [canFault_iff] at h
      cases hm : s.dev.mode <;> simp_all

@[simp] theorem raiseDevice_vital (s : State) (r : Raise) (trigger : Nat) :
    Carries false hold recount clear s (raiseDevice s r trigger) := carry <| by
  simp [raiseDevice]

@[simp] theorem countFault_vital (s : State) (ns : Nat) :
    Carries false hold recount clear s (countFault s ns) := carry <| by
  simp [countFault]

@[simp] theorem noteAxisFault_vital (s : State) (src a : Nat) (cause : Nat) (detail : Bytes) (flags : Nat) :
    Carries false hold recount clear s (noteAxisFault s src a cause detail flags) := carry <| by
  simp [noteAxisFault]

@[simp] theorem raiseAxis_vital (s : State) (src a : Nat) (cause : Nat) (detail : Bytes) (flags : Nat) :
    Carries false hold recount clear s (raiseAxis s src a cause detail flags) := carry <| by
  simp [raiseAxis]

@[simp] theorem raiseGroup_vital (s : State) (src kind inst g : Nat) (flags : Nat) :
    Carries false hold recount clear s (raiseGroup s src kind inst g flags) := carry <| by
  simp [raiseGroup]

@[simp] theorem raiseWarn_vital (s : State) (src : Nat) (kind : Nat) (inst : Nat) (cause : Nat) (detail : Bytes) (flags : Nat) :
    Carries calm hold recount clear s (raiseWarn s src kind inst cause detail flags) := carry <| by
  simp [raiseWarn]

@[simp] theorem raiseInfo_vital (s : State) (src : Nat) (kind : Nat) (inst : Nat) (cause : Nat) (detail : Bytes) :
    Carries calm hold recount clear s (raiseInfo s src kind inst cause detail) := carry <| by
  simp [raiseInfo]

@[simp] theorem eccFixed_vital (s : State) : (eccFixed s).vital = s.vital := by rfl

@[simp] theorem eccCleared_vital (s : State) (kind : Nat) (of inst : Nat) :
    Carries calm hold recount clear s (eccCleared s kind of inst) := carry <| by
  simp [eccCleared]

@[simp] theorem noteRead_vital (s : State) (kind : Nat) (ecc : EccRead) (of inst : Nat) :
    Carries calm hold recount clear s (noteRead s kind ecc of inst) := carry <| by
  unfold noteRead; split <;> simp

@[simp] theorem eccDevice_vital (s : State) :
    Carries false hold recount clear s (eccDevice s) := carry <| by
  simp [eccDevice]

/-- A reply made from a later state. -/
theorem Reacts.reply {s t : State} (h : Reacts calm hold recount clear s.vital t.vital) {r : Reply}
    (hr : Reacts calm hold recount clear t.vital (r.vital t)) : Reacts calm hold recount clear s.vital (r.vital s) := by
  cases r with
  | err st p => exact .refl
  | _ => exact h.trans hr

@[simp] theorem withRead_reacts (code : Nat) {body : State → Request → Nat → Reply} {lost : State → Request → State} {q : Request} {t : Nat}
    (h : ∀ s, Reacts calm hold recount clear s.vital ((body s q t).vital s)) (hl : ∀ s, Reacts calm hold recount clear s.vital (lost s q).vital) (s : State) :
    Reacts calm hold recount clear s.vital ((withRead code body lost s q t).vital s) := by
  have hb := h s
  unfold withRead
  split
  · exact .refl
  · simp_all
  · simp [hl]
  · exact hb
  · exact .reply (t := noteRead s 6 q.ecc) (by simp) (h _)

/-! ### Machine/Motion -/

@[simp] theorem withMover_reacts {s : State} {k : Mover → Reply} (h : ∀ m, Reacts calm hold recount clear s.vital ((k m).vital s)) (p : Bytes) :
    Reacts calm hold recount clear s.vital ((withMover s p k).vital s) := by
  simp only [withMover, need_vital]
  split
  · split <;> simp [h]
  · exact .refl

@[simp] theorem moveBody_reacts (rel : Bool) (s : State) (q : Request) (t : Nat) : Reacts calm hold recount clear s.vital ((moveBody rel s q t).vital s) := by
  unfold moveBody; dsimp only; repeat' split
  all_goals simp

@[simp] theorem stopBody_reacts (s : State) (q : Request) (t : Nat) : Reacts calm hold recount clear s.vital ((stopBody s q t).vital s) := by
  unfold stopBody
  refine withMover_reacts (fun m => ?_) _
  split <;> simp

@[simp] theorem holdBody_reacts (s : State) (q : Request) (t : Nat) : Reacts calm hold recount clear s.vital ((holdBody s q t).vital s) := by
  unfold holdBody
  refine withMover_reacts (fun m => ?_) _
  split <;> simp

@[simp] theorem resumeBody_reacts (s : State) (q : Request) (t : Nat) : Reacts calm hold recount clear s.vital ((resumeBody s q t).vital s) := by
  unfold resumeBody
  refine withMover_reacts (fun m => ?_) _
  split <;> simp

@[simp] theorem homeBody_reacts (s0 : State) (q : Request) (t : Nat) : Reacts calm hold recount clear s0.vital ((homeBody s0 q t).vital s0) := by
  simp [homeBody]

@[simp] theorem endHoming_vital (s : State) (a status : Nat) (h : Homing) :
    Carries calm hold recount clear s (endHoming s a status h) := carry <| by
  simp [endHoming]

@[simp] theorem checkBundled_vital (s : State) (g : Nat) :
    Carries calm hold recount clear s (checkBundled s g) := carry <| by
  simp [checkBundled]

@[simp] theorem groupDefineBody_reacts (s : State) (q : Request) (t : Nat) : Reacts calm hold recount clear s.vital ((groupDefineBody s q t).vital s) := by
  simp [groupDefineBody]

@[simp] theorem startGroupQueued_vital (s : State) (n : Nat) (t : Nat) : (startGroupQueued s n t).vital = s.vital := by
  unfold startGroupQueued; dsimp only; repeat' split
  all_goals simp

@[simp] theorem groupMoveBody_reacts (s : State) (q : Request) (t : Nat) : Reacts calm hold recount clear s.vital ((groupMoveBody s q t).vital s) := by
  simp [groupMoveBody]; split <;> simp

@[simp] theorem groupLimitsBody_reacts (s : State) (q : Request) (t : Nat) : Reacts calm hold recount clear s.vital ((groupLimitsBody s q t).vital s) := by
  unfold groupLimitsBody; dsimp only; repeat' split
  all_goals simp

@[simp] theorem motionStatusBody_reacts (s : State) (q : Request) (t : Nat) : Reacts calm hold recount clear s.vital ((motionStatusBody s q t).vital s) := by
  unfold motionStatusBody
  refine withMover_reacts (fun m => ?_) _
  split <;> simp

@[simp] theorem homingEdge_vital (s : State) (a : Nat) (sw : Switch) (w : SwitchSt) (h0 : Homing) :
    Carries calm hold recount clear s (homingEdge s a sw w h0) := carry <| by
  unfold homingEdge; dsimp only; repeat' split
  all_goals simp

@[simp] theorem limitStop_vital (s : State) (a : Nat) (v : Int) (sw : Switch) :
    Carries calm hold recount clear s (limitStop s a v sw) := carry <| by
  unfold limitStop; repeat' split
  all_goals simp

@[simp] theorem wakePath_vital (s : State) (a start : Nat) : (wakePath s a start).vital = s.vital := by
  unfold wakePath; split <;> simp

/-! ### Machine/AxisCmd -/

@[simp] theorem syncSwitches_vital (s : State) (a : Nat) : (syncSwitches s a).vital = s.vital := by
  unfold syncSwitches
  refine vital_foldl _ (fun s x => ?_) _ _
  split <;> simp

@[simp] theorem promoteEnable_vital (s : State) (a : Nat) : (promoteEnable s a).vital = s.vital := by
  simp [promoteEnable]

@[simp] theorem axisEnableBody_reacts (s0 : State) (q : Request) (t : Nat) : Reacts calm hold recount clear s0.vital ((axisEnableBody s0 q t).vital s0) := by
  simp [axisEnableBody]

@[simp] theorem axisDisableBody_reacts (s : State) (q : Request) (t : Nat) : Reacts calm hold recount clear s.vital ((axisDisableBody s q t).vital s) := by
  unfold axisDisableBody; dsimp only; repeat' split
  all_goals simp

@[simp] theorem axisStatusBody_reacts (s : State) (q : Request) (t : Nat) : Reacts calm hold recount clear s.vital ((axisStatusBody s q t).vital s) := by
  simp [axisStatusBody]

@[simp] theorem axisSourceBody_reacts (s : State) (q : Request) (t : Nat) : Reacts calm hold recount clear s.vital ((axisSourceBody s q t).vital s) := by
  simp [axisSourceBody]

@[simp] theorem promoteRatio_vital (s : State) (a : Nat) : (promoteRatio s a).vital = s.vital := by rfl

@[simp] theorem gearRatioBody_reacts (s0 : State) (q : Request) (t : Nat) : Reacts calm hold recount clear s0.vital ((gearRatioBody s0 q t).vital s0) := by
  simp [gearRatioBody]

@[simp] theorem gearEngageBody_reacts (s0 : State) (q : Request) (t : Nat) : Reacts calm hold recount clear s0.vital ((gearEngageBody s0 q t).vital s0) := by
  simp [gearEngageBody]

@[simp] theorem gearDisengageBody_reacts (s : State) (q : Request) (t : Nat) : Reacts calm hold recount clear s.vital ((gearDisengageBody s q t).vital s) := by
  simp [gearDisengageBody]

@[simp] theorem recordClear_vital (s : State) (kind inst cls src : Nat) :
    Carries calm hold recount clear s (recordClear s kind inst cls src) := carry <| by
  simp [recordClear]

@[simp] theorem axisFaultClearBody_reacts (s : State) (q : Request) (t : Nat) : Reacts calm hold recount clear s.vital ((axisFaultClearBody s q t).vital s) := by
  unfold axisFaultClearBody
  refine withMover_reacts (fun m => ?_) _
  split <;> simp

@[simp] theorem loseFeedback_vital (s : State) (a : Nat) :
    Carries false hold recount clear s (loseFeedback s a) := carry <| by
  unfold loseFeedback; split <;> simp

@[simp] theorem loseMaster_vital (s : State) (a : Nat) :
    Carries false hold recount clear s (loseMaster s a) := carry <| by
  simp [loseMaster]

/-! ### Machine/TimeCmd -/

@[simp] theorem withTime_vital (s : State) (f : TimeSt → TimeSt) : (withTime s f).vital = s.vital := by
  simp [withTime]

@[simp] theorem shiftSpans_vital (d : Int) (s : State) : (shiftSpans d s).vital = s.vital := by
  simp [shiftSpans]

@[simp] theorem stepTime_vital (s : State) (d : Int) :
    Carries calm hold recount clear s (stepTime s d) := carry <| by
  simp [stepTime]

@[simp] theorem State.onPort_vital (s : State) (n : Nat) (f : PlantPort → PlantPort) : (State.onPort s n f).vital = s.vital := by rfl

@[simp] theorem timeReadBody_reacts (s : State) (q : Request) (t : Nat) : Reacts calm hold recount clear s.vital ((timeReadBody s q t).vital s) := by rfl

@[simp] theorem timeSetBody_reacts (s : State) (q : Request) (t : Nat) : Reacts calm hold recount clear s.vital ((timeSetBody s q t).vital s) := by
  unfold timeSetBody; dsimp only; repeat' split
  all_goals simp

@[simp] theorem timeTrimBody_reacts (s : State) (q : Request) (t : Nat) : Reacts calm hold recount clear s.vital ((timeTrimBody s q t).vital s) := by
  unfold timeTrimBody; split <;> simp

@[simp] theorem leaveSlave_vital (s : State) (n st : Nat) :
    Carries calm hold recount clear s (leaveSlave s n st) := carry <| by
  simp [leaveSlave]

@[simp] theorem newPortState_vital (s : State) (n st : Nat) :
    Carries calm hold recount clear s (newPortState s n st) := carry <| by
  simp [newPortState]

@[simp] theorem servo_vital (s : State) (offset ratePpb : Int) :
    Carries calm hold recount clear s (servo s offset ratePpb) := carry <| by
  simp [servo]

@[simp] theorem ptpConfigBody_reacts (s : State) (q : Request) (t : Nat) : Reacts calm hold recount clear s.vital ((ptpConfigBody s q t).vital s) := by
  simp [ptpConfigBody]

@[simp] theorem ptpStatusBody_reacts (s : State) (q : Request) (t : Nat) : Reacts calm hold recount clear s.vital ((ptpStatusBody s q t).vital s) := by
  simp [ptpStatusBody]

@[simp] theorem State.drain_vital (s : State) (n : Nat) : (State.drain s n).vital = s.vital := by rfl

@[simp] theorem plantTxBody_reacts (s : State) (q : Request) (t : Nat) : Reacts calm hold recount clear s.vital ((plantTxBody s q t).vital s) := by
  unfold plantTxBody; dsimp only; repeat' split
  all_goals simp

@[simp] theorem State.onTout_vital (s : State) (n : Nat) (f : Tout → Tout) : (State.onTout s n f).vital = s.vital := by rfl

@[simp] theorem toutSetBody_reacts (s : State) (q : Request) (t : Nat) : Reacts calm hold recount clear s.vital ((toutSetBody s q t).vital s) := by
  unfold toutSetBody; dsimp only; repeat' split
  all_goals simp

@[simp] theorem toutStopBody_reacts (s : State) (q : Request) (t : Nat) : Reacts calm hold recount clear s.vital ((toutStopBody s q t).vital s) := by
  simp [toutStopBody]

@[simp] theorem clearTouts_vital (s : State) : (clearTouts s).vital = s.vital := by rfl

/-! ### Machine/Dma -/

@[simp] theorem dmaPut_vital (s : State) (hi a : Nat) (b : Bytes) :
    Carries calm hold recount clear s (dmaPut s hi a b) := by
  refine carry ?_
  unfold dmaPut
  split
  · dsimp only
    have h := snapBefore_vital s
    generalize snapBefore s = s1 at h ⊢
    rw [← h]
    exact Reacts.sram (v := s1.vital) (wf_memWrite _ _)
  · exact .capture (wf_memWrite _ _)
  · exact .ddr (wf_memWrite _ _)
  · exact .ddr (wf_memWrite _ _)
  · exact .host (wf_memWrite _ _)
  · simp

@[simp] theorem State.onChan_vital (s : State) (c : Nat) (f : DmaCh → DmaCh) : (State.onChan s c f).vital = s.vital := by rfl

@[simp] theorem spillStart_vital (s : State) : (spillStart s).vital = s.vital := by
  unfold spillStart; repeat' split
  all_goals simp

@[simp] theorem spillDone_vital (s : State) : (spillDone s).vital = s.vital := by
  unfold spillDone; split <;> simp

@[simp] theorem dmaComplete_vital (s : State) (ch : Nat) :
    Carries calm hold recount clear s (dmaComplete s ch) := carry <| by
  simp [dmaComplete]

@[simp] theorem dmaEnd_vital (s : State) (ch status : Nat) :
    Carries calm hold recount clear s (dmaEnd s ch status) := carry <| by
  simp [dmaEnd]

@[simp] theorem dmaFail_vital (s : State) (ch status : Nat) (flags : Nat) :
    Carries calm hold recount clear s (dmaFail s ch status flags) := carry <| by
  simp [dmaFail]

@[simp] theorem withChan_reacts {s : State} {p : Bytes} {k : Nat → Reply} (h : ∀ ch, Reacts calm hold recount clear s.vital ((k ch).vital s)) :
    Reacts calm hold recount clear s.vital ((withChan p k).vital s) := by
  simp [withChan, h]

@[simp] theorem dmaSetupBody_reacts (s : State) (q : Request) (t : Nat) : Reacts calm hold recount clear s.vital ((dmaSetupBody s q t).vital s) := by
  simp [dmaSetupBody]

@[simp] theorem dmaStartBody_reacts (s : State) (q : Request) (t : Nat) : Reacts calm hold recount clear s.vital ((dmaStartBody s q t).vital s) := by
  simp [dmaStartBody]

@[simp] theorem writeEntries_vital (s : State) (base index : Nat) (p : Bytes) (n : Nat) :
    Carries calm hold recount clear s (writeEntries s base index p n) := carry <| by
  induction n generalizing s with
  | zero => rfl
  | succ n ih => exact Reacts.trans (by simp) (ih _)

@[simp] theorem dmaListWriteBody_reacts (s : State) (q : Request) (t : Nat) : Reacts calm hold recount clear s.vital ((dmaListWriteBody s q t).vital s) := by
  simp [dmaListWriteBody]

@[simp] theorem dmaAppendBody_reacts (s : State) (q : Request) (t : Nat) : Reacts calm hold recount clear s.vital ((dmaAppendBody s q t).vital s) := by
  simp [dmaAppendBody]

@[simp] theorem dmaCloseBody_reacts (s : State) (q : Request) (t : Nat) : Reacts calm hold recount clear s.vital ((dmaCloseBody s q t).vital s) := by
  simp [dmaCloseBody]

@[simp] theorem dmaAbortBody_reacts (s : State) (q : Request) (t : Nat) : Reacts calm hold recount clear s.vital ((dmaAbortBody s q t).vital s) := by
  simp [dmaAbortBody]

@[simp] theorem dmaStatusBody_reacts (s : State) (q : Request) (t : Nat) : Reacts calm hold recount clear s.vital ((dmaStatusBody s q t).vital s) := by
  simp [dmaStatusBody]

@[simp] theorem dmaPause_vital (s : State) (ch : Nat) : (dmaPause s ch).vital = s.vital := by rfl

@[simp] theorem dropHostDma_vital (s : State) :
    Carries calm hold recount clear s (dropHostDma s) := carry <| by
  simp [dropHostDma]

@[simp] theorem dmaBegin_vital (s : State) (ch : Nat) :
    Carries calm hold recount clear s (dmaBegin s ch) := carry <| by
  simp [dmaBegin]

@[simp] theorem dmaReadFails_vital (s : State) (ch a : Nat) :
    Carries false hold recount clear s (dmaReadFails s ch a) := carry <| by
  unfold dmaReadFails; split <;> simp

@[simp] theorem dmaRetried_vital (s : State) (ch a : Nat) :
    Carries calm hold recount clear s (dmaRetried s ch a) := carry <| by
  simp [dmaRetried]

@[simp] theorem dmaRead_vital (s : State) (ch a : Nat) (read : BurstRead) (go : State → State) (h : ∀ s, Reacts false hold recount clear s.vital (go s).vital) :
    Carries false hold recount clear s (dmaRead s ch a read go) := carry <| by
  cases read with
  | good => exact Reacts.trans (by simp) (h _)
  | corrected => exact Reacts.trans (by simp) (h _)
  | failed => simp [dmaRead]

@[simp] theorem dmaEntry_vital (s : State) (ch : Nat) (seen : EntryRead) :
    Carries false hold recount clear s (dmaEntry s ch seen) := carry <| by
  simp [dmaEntry]

@[simp] theorem fetchBurst_vital (s : State) (ch : Nat) (data : Bytes) : (fetchBurst s ch data).vital = s.vital := by
  simp [fetchBurst]

@[simp] theorem drainBurst_vital (s : State) (ch : Nat) :
    Carries calm hold recount clear s (drainBurst s ch) := carry <| by
  unfold drainBurst; split <;> simp

@[simp] theorem takeDmaTurn_vital (s : State) (ch : Nat) : (takeDmaTurn s ch).vital = s.vital := by
  simp [takeDmaTurn]

@[simp] theorem resumeChans_vital (s : State) : (resumeChans s).vital = s.vital := by
  simp [resumeChans]

/-! ### Machine/Sample -/

@[simp] theorem takeSample_vital (s : State) (a : Nat) (r : Int) (at_ : Nat) : (takeSample s a r at_).vital = s.vital := by
  simp [takeSample]

@[simp] theorem takeVdc_vital (s : State) (a v : Nat) : (takeVdc s a v).vital = s.vital := by rfl

@[simp] theorem missSample_vital (s : State) (a : Nat) : (missSample s a).vital = s.vital := by
  simp [missSample]

@[simp] theorem joinLocal_vital (s : State) (a : Nat) : (joinLocal s a).vital = s.vital := by
  unfold joinLocal; dsimp only; repeat' split
  all_goals simp

@[simp] theorem localPosition_vital (s : State) (a : Nat) (p : Option (Int × Nat)) : (localPosition s a p).vital = s.vital := by
  unfold localPosition; repeat' split
  all_goals simp

@[simp] theorem shiftEnc_vital (ch : Nat) (change : Int) (s : State) : (shiftEnc ch change s).vital = s.vital := by
  simp [shiftEnc]

@[simp] theorem rawEdge_vital (s : State) (n : Nat) (level : Bool) (a : Nat) : (rawEdge s n level a).vital = s.vital := by
  simp [rawEdge]

/-! ### Machine/LocalPwm -/

@[simp] theorem State.onTimer_vital (s : State) (k : Nat) (f : Timer → Timer) : (State.onTimer s k f).vital = s.vital := by rfl

@[simp] theorem passMid_vital (s : State) (k : Nat) : (passMid s k).vital = s.vital := by rfl

@[simp] theorem passBound_vital (s : State) (k : Nat) : (passBound s k).vital = s.vital := by rfl

@[simp] theorem endPeriod_vital (s : State) (k : Nat) :
    Carries calm hold recount clear s (endPeriod s k) := carry <| by
  simp [endPeriod]

@[simp] theorem runPairs_vital (s : State) (k upTo : Nat) : (runPairs s k upTo).vital = s.vital := by
  simp [runPairs]

@[simp] theorem edgePairs_vital (s : State) (k at_ : Nat) : (edgePairs s k at_).vital = s.vital := by
  simp [edgePairs]

@[simp] theorem passHalf_vital (s : State) (k : Nat) :
    Carries calm hold recount clear s (passHalf s k) := carry <| by
  simp [passHalf]

@[simp] theorem pwmPeriodTick_vital (s : State) (k : Nat) : (pwmPeriodTick s k).vital = s.vital := by rfl

@[simp] theorem pwmCommit_vital (s : State) (k : Nat) (duties : List Int) : (pwmCommit s k duties).vital = s.vital := by
  simp [pwmCommit]

@[simp] theorem runSteps_vital (s : State) (k a u every : Nat) (owed : Int) :
    Carries calm hold recount clear s (runSteps s k a u every owed) := carry <| by
  simp [runSteps]

@[simp] theorem takeSteps_vital (s : State) (k : Nat) (u : Nat) :
    Carries calm hold recount clear s (takeSteps s k u) := carry <| by
  unfold takeSteps; dsimp only; repeat' split
  all_goals simp

@[simp] theorem updateAt_vital (s : State) (k : Nat) :
    Carries calm hold recount clear s (updateAt s k) := carry <| by
  unfold updateAt; dsimp only; repeat' split
  all_goals simp

@[simp] theorem passBoundary_vital (s : State) (k : Nat) :
    Carries calm hold recount clear s (passBoundary s k) := carry <| by
  simp [passBoundary]

@[simp] theorem forceSafe_vital (s : State) (k : Nat) : (forceSafe s k).vital = s.vital := by
  simp [forceSafe]

@[simp] theorem tripAxis_vital (s : State) (k : Nat) :
    Carries false hold recount clear s (tripAxis s k) := carry <| by
  unfold tripAxis; split <;> simp

@[simp] theorem setTrip_vital (s : State) (j : Nat) :
    Carries false hold recount clear s (setTrip s j) := carry <| by
  simp [setTrip]

@[simp] theorem lowTrips_vital (s : State) :
    Carries false hold recount clear s (lowTrips s) := carry <| by
  simp [lowTrips]

@[simp] theorem pwmTripClearBody_reacts (s : State) (q : Request) (t : Nat) : Reacts calm hold recount clear s.vital ((pwmTripClearBody s q t).vital s) := by
  simp [pwmTripClearBody]

@[simp] theorem pwmStatusBody_reacts (s : State) (q : Request) (t : Nat) : Reacts calm hold recount clear s.vital ((pwmStatusBody s q t).vital s) := by
  simp [pwmStatusBody]

@[simp] theorem startTimers_vital (s : State) : (startTimers s).vital = s.vital := by
  simp [startTimers]

@[simp] theorem stopTimers_vital (s : State) : (stopTimers s).vital = s.vital := by
  simp [stopTimers]

/-! ### Machine/Calipers -/

@[simp] theorem State.onCal_vital (s : State) (f : Calipers → Calipers) : (State.onCal s f).vital = s.vital := by rfl

@[simp] theorem closeSegment_vital (s : State) (c : CalConf) (v : Option Violation) (cut : Bool) :
    Carries calm hold recount clear s (closeSegment s c v cut) := by
  refine carry ?_
  unfold closeSegment
  simp only [vital_ite, spillStart_vital, State.onCal_vital, ite_self]
  exact .capture fun h => wf_memPaste _ _ h (wf_cellsFrom ..)

@[simp] theorem calStop_vital (s : State) (reason : Nat) :
    Carries calm hold recount clear s (calStop s reason) := carry <| by
  unfold calStop; repeat' split
  all_goals simp

@[simp] theorem nextSegment_vital (s : State) (c : CalConf) (last : Nat) :
    Carries calm hold recount clear s (nextSegment s c last) := carry <| by
  simp [nextSegment]

@[simp] theorem judgeRows_vital (s : State) (c : CalConf) (from_ : Nat) :
    Carries calm hold recount clear s (judgeRows s c from_) := carry <| by
  unfold judgeRows; repeat' split
  all_goals simp

@[simp] theorem beginCapture_vital (s : State) (c : CalConf) (pre post : List CalRow) :
    Carries calm hold recount clear s (beginCapture s c pre post) := carry <| by
  simp [beginCapture]

@[simp] theorem settleTrigger_vital (s : State) (c : CalConf) :
    Carries calm hold recount clear s (settleTrigger s c) := carry <| by
  unfold settleTrigger; split <;> simp

@[simp] theorem calTrigger_vital (s : State) (stamp src : Nat) :
    Carries calm hold recount clear s (calTrigger s stamp src) := carry <| by
  unfold calTrigger; dsimp only; repeat' split
  all_goals simp

@[simp] theorem calProbe_vital (s : State) (n stamp : Nat) :
    Carries calm hold recount clear s (calProbe s n stamp) := carry <| by
  unfold calProbe; split <;> simp

@[simp] theorem takeRow_vital (s0 : State) (c : CalConf) (r : CalRow) :
    Carries calm hold recount clear s0 (takeRow s0 c r) := carry <| by
  simp [takeRow]

@[simp] theorem holdRow_vital (s : State) : (holdRow s).vital = s.vital := by
  unfold holdRow; split <;> simp

@[simp] theorem calSegListBody_reacts (s : State) (q : Request) (t : Nat) : Reacts calm hold recount clear s.vital ((calSegListBody s q t).vital s) := by
  simp [calSegListBody]

@[simp] theorem calMaskWriteBody_reacts (s : State) (q : Request) (t : Nat) : Reacts calm hold recount clear s.vital ((calMaskWriteBody s q t).vital s) := by
  simp [calMaskWriteBody]

@[simp] theorem dropMasks_vital (s : State) (ch : Nat) : (dropMasks s ch).vital = s.vital := by
  simp [dropMasks]

theorem dropSpill_frame (s : State) : ∃ d, dropSpill s = { s with dma := d } := by
  unfold dropSpill
  split
  · exact ⟨_, rfl⟩
  · exact ⟨s.dma, rfl⟩

@[simp] theorem calArmBody_reacts (s0 : State) (q : Request) (t : Nat) : Reacts calm hold recount clear s0.vital ((calArmBody s0 q t).vital s0) := by
  obtain ⟨d, hd⟩ := dropSpill_frame (parPromote s0 (fun _ _ => true) .calArm)
  simp [calArmBody, hd]

@[simp] theorem calStopBody_reacts (s : State) (q : Request) (t : Nat) : Reacts calm hold recount clear s.vital ((calStopBody s q t).vital s) := by
  simp [calStopBody]

@[simp] theorem calForceBody_reacts (s : State) (q : Request) (t : Nat) : Reacts calm hold recount clear s.vital ((calForceBody s q t).vital s) := by
  simp [calForceBody]

@[simp] theorem calStatusBody_reacts (s : State) (q : Request) (t : Nat) : Reacts calm hold recount clear s.vital ((calStatusBody s q t).vital s) := by rfl

@[simp] theorem calReadBody_reacts (s : State) (q : Request) (t : Nat) : Reacts calm hold recount clear s.vital ((calReadBody s q t).vital s) := by
  unfold calReadBody; dsimp only; repeat' split
  all_goals simp

@[simp] theorem calSkewCalibrateBody_reacts (s : State) (q : Request) (t : Nat) : Reacts calm hold recount clear s.vital ((calSkewCalibrateBody s q t).vital s) := by
  simp [calSkewCalibrateBody]

@[simp] theorem noteSkew_vital (s : State) (ch : Nat) (at_ : Int) : (noteSkew s ch at_).vital = s.vital := by
  unfold noteSkew; split <;> simp

@[simp] theorem skewProbe_vital (s : State) (n : Nat) (at_ : Nat) : (skewProbe s n at_).vital = s.vital := by
  simp [skewProbe]

@[simp] theorem endWave_vital (s : State) (ch : Nat) : (endWave s ch).vital = s.vital := by
  unfold endWave; repeat' split
  all_goals simp

@[simp] theorem skewAin_vital (s : State) (n : Nat) (new : AdcResult) : (skewAin s n new).vital = s.vital := by
  unfold skewAin; split <;> simp

@[simp] theorem skewEnd_vital (s0 : State) :
    Carries calm hold recount clear s0 (skewEnd s0) := carry <| by
  unfold skewEnd; dsimp only; repeat' split
  all_goals simp

@[simp] theorem calSkewStoreBody_reacts (s : State) (q : Request) (t : Nat) : Reacts calm hold recount clear s.vital ((calSkewStoreBody s q t).vital s) := by
  unfold calSkewStoreBody; split <;> simp

@[simp] theorem calBusMeasureBody_reacts (s : State) (q : Request) (t : Nat) : Reacts calm hold recount clear s.vital ((calBusMeasureBody s q t).vital s) := by
  simp [calBusMeasureBody]

@[simp] theorem busAnswer_vital (s : State) (b : BusCal) (drivenAt : Nat) :
    Carries calm hold recount clear s (busAnswer s b drivenAt) := carry <| by
  simp [busAnswer]

/-! ### Machine/LocalIn -/

@[simp] theorem State.onLoc_vital (s : State) (f : LocalIn → LocalIn) : (State.onLoc s f).vital = s.vital := by rfl

@[simp] theorem State.onEnc_vital (s : State) (k : Nat) (f : EncCh → EncCh) : (State.onEnc s k f).vital = s.vital := by rfl

@[simp] theorem State.onProbe_vital (s : State) (k : Nat) (f : ProbeSt → ProbeSt) : (State.onProbe s k f).vital = s.vital := by rfl

@[simp] theorem State.onSsi_vital (s : State) (k : Nat) (f : SsiCh → SsiCh) : (State.onSsi s k f).vital = s.vital := by rfl

@[simp] theorem State.onAdc_vital (s : State) (f : Adc → Adc) : (State.onAdc s f).vital = s.vital := by rfl

@[simp] theorem encFault_vital (s : State) (k cause : Nat) :
    Carries false hold recount clear s (encFault s k cause) := carry <| by
  simp [encFault]

@[simp] theorem illegal_vital (s : State) (k : Nat) :
    Carries false hold recount clear s (illegal s k) := carry <| by
  simp [illegal]

@[simp] theorem checkIndex_vital (s : State) (k : Nat) (dev : Int) :
    Carries false hold recount clear s (checkIndex s k dev) := carry <| by
  simp [checkIndex]

@[simp] theorem homingIndex_vital (ch : Nat) (count : Int) (s : State) : (homingIndex ch count s).vital = s.vital := by
  unfold homingIndex
  refine vital_foldl _ (fun s x => ?_) _ _
  dsimp only; repeat' split
  all_goals simp

@[simp] theorem encIndexArmBody_reacts (s : State) (q : Request) (t : Nat) : Reacts calm hold recount clear s.vital ((encIndexArmBody s q t).vital s) := by
  simp [encIndexArmBody]

@[simp] theorem encFaultClearBody_reacts (s : State) (q : Request) (t : Nat) : Reacts calm hold recount clear s.vital ((encFaultClearBody s q t).vital s) := by
  simp [encFaultClearBody]

@[simp] theorem checkSsi_vital (periodNs : Nat) (s : State) :
    Carries calm hold recount clear s (checkSsi periodNs s) := carry <| by
  simp [checkSsi]

@[simp] theorem startSsi_vital (s : State) (slot j : Nat) : (startSsi s slot j).vital = s.vital := by
  unfold startSsi; dsimp only; repeat' split
  all_goals simp

@[simp] theorem adcMissed_vital (s : State) (inj : Bool) (i : Nat) :
    Carries calm hold recount clear s (adcMissed s inj i) := carry <| by
  simp [adcMissed]

@[simp] theorem adcStart_vital (s : State) (inj : Bool) (i at_ : Nat) :
    Carries calm hold recount clear s (adcStart s inj i at_) := carry <| by
  simp [adcStart]

@[simp] theorem injSample_vital (s : State) (i : Nat) (r : AdcRun) : (injSample s i r).vital = s.vital := by
  unfold injSample; split <;> simp

@[simp] theorem latchEnc_vital (s : State) (k : Nat) : (latchEnc s k).vital = s.vital := by rfl

@[simp] theorem currentsStart_vital (s : State) (slot at_ : Nat) : (currentsStart s slot at_).vital = s.vital := by
  unfold currentsStart; split <;> simp

@[simp] theorem expireProbes_vital (s : State) : (expireProbes s).vital = s.vital := by
  simp [expireProbes]

@[simp] theorem probeArmBody_reacts (s : State) (q : Request) (t : Nat) : Reacts calm hold recount clear s.vital ((probeArmBody s q t).vital s) := by
  simp [probeArmBody]

@[simp] theorem probeReadBody_reacts (s : State) (q : Request) (t : Nat) : Reacts calm hold recount clear s.vital ((probeReadBody s q t).vital s) := by
  simp [probeReadBody]

@[simp] theorem refOff_vital (s : State) :
    Carries calm hold recount clear s (refOff s) := carry <| by
  unfold refOff; split <;> simp

@[simp] theorem adcRefEnableBody_reacts (s : State) (q : Request) (t : Nat) : Reacts calm hold recount clear s.vital ((adcRefEnableBody s q t).vital s) := by
  simp [adcRefEnableBody]

@[simp] theorem adcCalibrateBody_reacts (s : State) (q : Request) (t : Nat) : Reacts calm hold recount clear s.vital ((adcCalibrateBody s q t).vital s) := by
  simp [adcCalibrateBody]

@[simp] theorem adcCalSaveBody_reacts (s : State) (q : Request) (t : Nat) : Reacts calm hold recount clear s.vital ((adcCalSaveBody s q t).vital s) := by
  simp [adcCalSaveBody]

@[simp] theorem adcCalRestoreBody_reacts (s : State) (q : Request) (t : Nat) : Reacts calm hold recount clear s.vital ((adcCalRestoreBody s q t).vital s) := by
  unfold adcCalRestoreBody; split <;> simp

@[simp] theorem localInStatusBody_reacts (s : State) (q : Request) (t : Nat) : Reacts calm hold recount clear s.vital ((localInStatusBody s q t).vital s) := by
  simp [localInStatusBody]

@[simp] theorem startInputs_vital (s : State) : (startInputs s).vital = s.vital := by
  simp [startInputs]

@[simp] theorem stopInputs_vital (s : State) : (stopInputs s).vital = s.vital := by rfl

/-! ### Machine/Diag -/

@[simp] theorem takeSignalRow_vital (v s : State) (tick : Nat) :
    Carries calm hold recount true s (takeSignalRow v s tick) := by
  refine carry ?_
  unfold takeSignalRow
  dsimp only
  repeat' split
  all_goals exact .forgets

@[simp] theorem laterTest_vital (s : State) : (laterTest s).vital = s.vital := by
  simp [laterTest]

@[simp] theorem endCommit_vital (s : State) (f : Freeze) :
    Carries calm hold recount clear s (endCommit s f) := carry <| by
  simp [endCommit]

@[simp] theorem eventReadBody_reacts (s : State) (q : Request) (t : Nat) : Reacts calm hold recount clear s.vital ((eventReadBody s q t).vital s) := by rfl

@[simp] theorem shavingsStatusBody_reacts (s : State) (q : Request) (t : Nat) : Reacts calm hold recount clear s.vital ((shavingsStatusBody s q t).vital s) := by rfl

@[simp] theorem shavingsReadBody_reacts (s : State) (q : Request) (t : Nat) : Reacts calm hold recount clear s.vital ((shavingsReadBody s q t).vital s) := by
  simp [shavingsReadBody]

@[simp] theorem shavingsFreezeBody_reacts (s : State) (q : Request) (t : Nat) : Reacts calm hold recount clear s.vital ((shavingsFreezeBody s q t).vital s) := by
  simp [shavingsFreezeBody]

@[simp] theorem damageRead_vital (s : State) (q : Request) :
    Carries calm hold recount clear s (damageRead s q) :=
  carry (.mram fun h => wf_memPaste _ _ h rfl)

/-! ### Machine/Safety -/

@[simp] theorem State.onSafe_vital (s : State) (g : Safety → Safety) : (State.onSafe s g).vital = s.vital := by rfl

@[simp] theorem State.onFn_vital (s : State) (f : Nat) (g : SafeFn → SafeFn) : (State.onFn s f g).vital = s.vital := by rfl

@[simp] theorem State.onSout_vital (s : State) (n : Nat) (g : Sout → Sout) : (State.onSout s n g).vital = s.vital := by rfl

@[simp] theorem State.onConn_vital (s : State) (c : Nat) (g : SafeConn → SafeConn) : (State.onConn s c g).vital = s.vital := by rfl

@[simp] theorem putSafe_vital (t : Table Int) (s : State) : (putSafe t s).vital = s.vital := by
  simp [putSafe]

@[simp] theorem dropOutputs_vital (s : State) : (dropOutputs s).vital = s.vital := by
  simp [dropOutputs]

@[simp] theorem raiseOutputs_vital (s : State) : (raiseOutputs s).vital = s.vital := by
  simp [raiseOutputs]

@[simp] theorem startDemand_vital (s : State) (f : Nat) :
    Carries calm true recount clear s (startDemand s f) := carry <| by
  simp [startDemand]

@[simp] theorem settleFn_vital (s : State) (f : Nat) : (settleFn s f).vital = s.vital := by
  simp [settleFn]

@[simp] theorem evalFns_vital (s : State) :
    Carries calm true recount clear s (evalFns s) := carry <| by
  simp [evalFns]

@[simp] theorem safetyFault_vital (s : State) (cause : Nat) (flags : Nat) :
    Carries false hold recount clear s (safetyFault s cause flags) := carry <| by
  simp [safetyFault]

@[simp] theorem clockTrips_vital (s : State) :
    Carries false hold recount clear s (clockTrips s) := carry <| by
  simp [clockTrips]

@[simp] theorem noteDifference_vital (s : State) :
    Carries false hold recount clear s (noteDifference s) := carry <| by
  simp [noteDifference]

@[simp] theorem discrepancyFault_vital (s : State) (p : Nat) :
    Carries calm true recount clear s (discrepancyFault s p) := carry <| by
  simp [discrepancyFault]

@[simp] theorem qualifiedReset_vital (s : State) : (qualifiedReset s).vital = s.vital := by
  simp [qualifiedReset]

@[simp] theorem resetFalls_vital (s : State) : (resetFalls s).vital = s.vital := by
  simp [resetFalls]

@[simp] theorem noteLevel_vital (n ch : Nat) (old new : Bool) (s : State) : (noteLevel n ch old new s).vital = s.vital := by
  simp [noteLevel]

@[simp] theorem latchOutput_vital (s : State) (n cause : Nat) :
    Carries calm true recount clear s (latchOutput s n cause) := carry <| by
  simp [latchOutput]

@[simp] theorem checkConns_vital (m : Image) (s : State) :
    Carries calm true recount clear s (checkConns m s) := carry <| by
  simp [checkConns]

@[simp] theorem stopConns_vital (s : State) :
    Carries calm true recount clear s (stopConns s) := carry <| by
  simp [stopConns]

@[simp] theorem loseConn_vital (s : State) (c : Nat) :
    Carries calm true recount clear s (loseConn s c) := carry <| by
  simp [loseConn]

@[simp] theorem adoptSafety_vital (image : Bytes) (s2Agrees : Bool) (s : State) :
    Carries false true recount clear s (adoptSafety image s2Agrees s) := carry <| by
  unfold adoptSafety; repeat' split
  all_goals simp

@[simp] theorem safetyStatusBody_reacts (s : State) (q : Request) (t : Nat) : Reacts calm hold recount clear s.vital ((safetyStatusBody s q t).vital s) := by rfl

@[simp] theorem safetyImageReadBody_reacts (s : State) (q : Request) (t : Nat) : Reacts calm hold recount clear s.vital ((safetyImageReadBody s q t).vital s) := by
  simp [safetyImageReadBody]

@[simp] theorem safetyConnStatusBody_reacts (s : State) (q : Request) (t : Nat) : Reacts calm hold recount clear s.vital ((safetyConnStatusBody s q t).vital s) := by
  simp [safetyConnStatusBody]

/-! ### Machine/LawCmd -/

@[simp] theorem lawLoadBody_reacts (s : State) (q : Request) (t : Nat) : Reacts calm hold recount clear s.vital ((lawLoadBody s q t).vital s) := by
  simp [lawLoadBody]

@[simp] theorem lawUnloadBody_reacts (s : State) (q : Request) (t : Nat) : Reacts calm hold recount clear s.vital ((lawUnloadBody s q t).vital s) := by
  simp [lawUnloadBody]

@[simp] theorem lawInfoBody_reacts (s : State) (q : Request) (t : Nat) : Reacts calm hold recount clear s.vital ((lawInfoBody s q t).vital s) := by
  simp [lawInfoBody]

@[simp] theorem lawCoefWriteBody_reacts (s : State) (q : Request) (t : Nat) : Reacts calm hold recount clear s.vital ((lawCoefWriteBody s q t).vital s) := by
  unfold lawCoefWriteBody; dsimp only; repeat' split
  all_goals simp

@[simp] theorem putWords_vital (s : State) (base : Nat) (ws : List W24) :
    Carries calm hold recount clear s (putWords s base ws) := carry (by simp [putWords])

@[simp] theorem testEnd_vital (s : State) (base : Nat) (c : ECore) : Carries calm hold recount clear s (testEnd s base c).1 :=
  carry (by simp [testEnd])

@[simp] theorem endTest_vital (s : State) (e : Nat) :
    Carries calm hold recount clear s (endTest s e) := carry <| by
  unfold endTest; split <;> simp

@[simp] theorem lawTestBody_reacts (s : State) (q : Request) (t : Nat) : Reacts calm hold recount clear s.vital ((lawTestBody s q t).vital s) := by
  simp [lawTestBody]

@[simp] theorem resumeEngine_vital (s : State) (e : Nat) :
    Carries calm hold recount clear s (resumeEngine s e) := carry <| by
  simp [resumeEngine]

@[simp] theorem releaseEngines_vital (s : State) :
    Carries calm hold recount clear s (releaseEngines s) := carry <| by
  simp [releaseEngines]

@[simp] theorem clockRuns_vital (s : State) :
    Carries false hold recount clear s (clockRuns s) := carry <| by
  simp [clockRuns]

/-! ### Machine/Verify -/

@[simp] theorem noteUse_vital (s : State) (u : Nat × Nat) (fresh : Bool) :
    Carries calm hold recount clear s (noteUse s u fresh) := carry <| by
  simp [noteUse]

@[simp] theorem noteOut_vital (s : State) (fresh : Bool) (n : BudgetOut) :
    Carries calm hold recount clear s (noteOut s fresh n) := carry <| by
  unfold noteOut; split <;> simp

/-! ### Machine/Truing -/

@[simp] theorem State.onTru_vital (s : State) (f : Truing → Truing) : (State.onTru s f).vital = s.vital := by rfl

@[simp] theorem stressSync_vital (s : State) : (stressSync s).vital = s.vital := by
  simp [stressSync]

@[simp] theorem leaveStress_vital (s : State) (e : Nat) : (leaveStress s e).vital = s.vital := by
  simp [leaveStress]

@[simp] theorem startPass_vital (lanesOnly : Bool) (laneMask : Nat) (s : State) : (startPass lanesOnly laneMask s).vital = s.vital := by
  simp [startPass]

@[simp] theorem adoptNow_vital (delta mv : Nat) (s : State) : (adoptNow delta mv s).vital = s.vital := by rfl

@[simp] theorem adopt_vital (delta mv : Nat) (s : State) : (adopt delta mv s).vital = s.vital := by
  simp [adopt]

@[simp] theorem recheckStandby_vital (delta : Nat) (s : State) :
    Carries calm hold recount clear s (recheckStandby delta s) := carry <| by
  unfold recheckStandby; repeat' split
  all_goals simp

@[simp] theorem judgeResult_vital (delta mv : Nat) (s : State) : Carries calm hold recount clear s (judgeResult delta mv s).1 := by
  refine carry ?_
  unfold judgeResult; repeat' split
  all_goals simp

@[simp] theorem takeEye_vital (s : State) (e : EyeScan) :
    Carries calm hold recount clear s (takeEye s e) := carry <| by
  simp [takeEye]

@[simp] theorem takeEq_vital (s : State) : (takeEq s).vital = s.vital := by
  unfold takeEq; split <;> simp

@[simp] theorem takeEqs_vital (s : State) : (takeEqs s).vital = s.vital := by
  simp [takeEqs]

@[simp] theorem takeEyes_vital (s : State) (r : TruingReadings) :
    Carries calm hold recount clear s (takeEyes s r) := carry <| by
  simp [takeEyes]

@[simp] theorem settleTruing_vital (s : State) : (settleTruing s).vital = s.vital := by
  unfold settleTruing; split <;> simp

@[simp] theorem takeHealth_vital (s : State) (r : TruingReadings) :
    Carries calm hold recount clear s (takeHealth s r) := carry <| by
  simp [takeHealth]

@[simp] theorem passResult_vital (s : State) (complete : Bool) (r : TruingReadings) : Carries calm hold recount clear s (passResult s complete r).1 := by
  refine carry ?_
  unfold passResult; dsimp only; repeat' split
  all_goals simp

@[simp] theorem closePass_vital (s1 : State) (cause : Nat) :
    Carries calm hold recount clear s1 (closePass s1 cause) := carry <| by
  simp [closePass]

@[simp] theorem endPass_vital (s : State) (complete : Bool) (r : TruingReadings) :
    Carries calm hold recount clear s (endPass s complete r) := carry <| by
  simp [endPass]

@[simp] theorem abandonPass_vital (s : State) :
    Carries calm hold recount clear s (abandonPass s) := carry <| by
  simp [abandonPass]

@[simp] theorem truingRunBody_reacts (s : State) (q : Request) (t : Nat) : Reacts calm hold recount clear s.vital ((truingRunBody s q t).vital s) := by
  simp [truingRunBody]

@[simp] theorem truingStatusBody_reacts (s : State) (q : Request) (t : Nat) : Reacts calm hold recount clear s.vital ((truingStatusBody s q t).vital s) := by
  simp [truingStatusBody]

/-! ### Machine/DispatchOps -/

@[simp] theorem State.onTask_vital (s : State) (i : Nat) (f : TaskSt → TaskSt) : (State.onTask s i f).vital = s.vital := by rfl

@[simp] theorem State.onBundle_vital (s : State) (b : Nat) (f : BundleSt → BundleSt) : (State.onBundle s b f).vital = s.vital := by rfl

@[simp] theorem State.onFlow_vital (s : State) (f : Nat) (g : Flow → Flow) : (State.onFlow s f g).vital = s.vital := by rfl

@[simp] theorem State.onLevel_vital (s : State) (l : Nat) (f : List Nat → List Nat) : (State.onLevel s l f).vital = s.vital := by rfl

@[simp] theorem flowView_vital (s : State) (f : Nat) :
    Carries calm hold recount clear s (flowView s f) := carry <| by
  simp [flowView]

@[simp] theorem runFeedback_vital (s : State) (t : PTask) : (runFeedback s t).vital = s.vital := by
  simp [runFeedback]

@[simp] theorem fillNext_vital (s : State) (e : Nat) (t : PTask) :
    Carries calm hold recount clear s (fillNext s e t) := carry <| by
  unfold fillNext; split <;> simp

@[simp] theorem leaveLists_vital (s : State) (i : Nat) : (leaveLists s i).vital = s.vital := by rfl

@[simp] theorem leaveEngine_vital (s : State) (i : Nat) : (leaveEngine s i).vital = s.vital := by
  unfold leaveEngine; split <;> simp

@[simp] theorem noteDepth_vital (s : State) (l : Nat) : (noteDepth s l).vital = s.vital := by rfl

@[simp] theorem joinHead_vital (s : State) (i : Nat) : (joinHead s i).vital = s.vital := by rfl

@[simp] theorem noteRuns_vital (s : State) (t : PTask) (runs : List Nat) :
    Carries calm hold recount clear s (noteRuns s t runs) := carry <| by
  simp [noteRuns]

@[simp] theorem busyMore_vital (s : State) (e n : Nat) : (busyMore s e n).vital = s.vital := by rfl

@[simp] theorem slotEmpty_vital (s : State) (e at_ : Nat) : (slotEmpty s e at_).vital = s.vital := by
  simp [slotEmpty]

@[simp] theorem refill_vital (s : State) :
    Carries calm hold recount clear s (refill s) := carry <| by
  unfold refill
  refine foldl_reacts (fun s x => ?_) _ _
  dsimp only; repeat' split
  all_goals simp

@[simp] theorem noteSat_vital (s : State) (t : PTask) (es : BitVec 8) : (noteSat s t es).vital = s.vital := by
  simp [noteSat]

@[simp] theorem noteDone_vital (s : State) (t : PTask) (c : ECore) : (noteDone s t c).vital = s.vital := by
  simp [noteDone]

@[simp] theorem stopService_vital (s : State) (t : PTask) (clocks : Nat) :
    Carries calm hold recount clear s (stopService s t clocks) := carry <| by
  unfold stopService; dsimp only; repeat' split
  all_goals simp

@[simp] theorem timerCommit_vital (s : State) (t : PTask) (mode slot : Nat) (o : AxisOut) : (timerCommit s t mode slot o).vital = s.vital := by
  simp [timerCommit]

@[simp] theorem commitAxis_vital (s : State) (t : PTask) (w : List W24) (k : TaskSt) : (commitAxis s t w k).vital = s.vital := by
  unfold commitAxis; dsimp only; repeat' split
  all_goals simp

@[simp] theorem commitTask_vital (s : State) (i : Nat) :
    Carries calm hold recount clear s (commitTask s i) := carry <| by
  unfold commitTask; split <;> simp

@[simp] theorem failBundle_vital (s : State) (b : Nat) :
    Carries calm hold recount clear s (failBundle s b) := carry <| by
  unfold failBundle
  split
  · rfl
  · simp only [refill_vital, vital_ite, reacts_ite, transient_vital]
    have h (s : State) (t : PTask) : (if goesOut s t then s.onAxis t.axis (fun x => { x with out := { x.out with failed := true } }) else s).vital =
        s.vital := by split <;> rfl
    generalize hs2 : List.foldl _ (s.onBundle b _) _ = s2
    have h2 : Reacts calm hold recount clear s.vital s2.vital := by
      subst hs2
      refine Reacts.trans (v := (s.onBundle b _).vital) (by simp) (foldl_reacts (fun s t => ?_) _ _)
      split <;> simp [h]
    simp [h2]

@[simp] theorem tryBundle_vital (s : State) (b : PBundle) :
    Carries calm hold recount clear s (tryBundle s b) := carry <| by
  simp [tryBundle]

@[simp] theorem endDrain_vital (s : State) (f : Nat) : (endDrain s f).vital = s.vital := by
  unfold endDrain; split <;> simp

@[simp] theorem endDrains_vital (s : State) : (endDrains s).vital = s.vital := by
  simp [endDrains]

@[simp] theorem settle_vital (s : State) :
    Carries calm hold recount clear s (settle s) := carry <| by
  simp [settle]

@[simp] theorem noteCheck_vital (s : State) : (noteCheck s).vital = s.vital := by
  simp [noteCheck]

@[simp] theorem lastingFault_vital (s0 : State) (t : PTask) (code : Nat) :
    Carries false hold recount clear s0 (lastingFault s0 t code) := carry <| by
  simp [lastingFault]

@[simp] theorem overrunTask_vital (s : State) (e : Nat) (t : PTask) :
    Carries false hold recount clear s (overrunTask s e t) := carry <| by
  simp [overrunTask]

@[simp] theorem abandonTask_vital (s : State) (e kind code : Nat) (t : PTask) :
    Carries false hold recount clear s (abandonTask s e kind code t) := carry <| by
  simp [abandonTask]

@[simp] theorem placeOr_vital (s : State) (f : Nat) (want : Option Nat) (epoch : Nat) :
    Carries false hold recount clear s (placeOr s f want epoch) := carry <| by
  unfold placeOr; dsimp only; repeat' split
  all_goals simp

@[simp] theorem placeHome_vital (s : State) :
    Carries false hold recount clear s (placeHome s) := carry <| by
  simp [placeHome]

@[simp] theorem flee_vital (s : State) (e : Nat) :
    Carries false hold recount clear s (flee s e) := carry <| by
  simp [flee]

@[simp] theorem returnFlows_vital (s : State) : (returnFlows s).vital = s.vital := by
  simp [returnFlows]

@[simp] theorem moveReruns_vital (s : State) (e : Nat) : (moveReruns s e).vital = s.vital := by
  unfold moveReruns
  refine vital_foldl _ (fun s x => ?_) _ _
  split <;> simp

@[simp] theorem noteActive_vital (s : State) (e : Nat) :
    Carries calm hold recount clear s (noteActive s e) := carry <| by
  unfold noteActive; split <;> simp

/-- The tasks in service at an engine are abandoned with it. -/
theorem abandonAll_reacts (e : Nat) (m : State → Image) (tasks : List Nat) (s : State) : Reacts false hold recount clear s.vital
    (tasks.foldl (fun s i => match ptask (m s) i with | some t => abandonTask s e 2 0x10 t | none => s) s).vital := by
  refine foldl_reacts (fun s i => ?_) _ _
  split <;> simp

@[simp] theorem faultEngine_vital (s : State) (e flags : Nat) :
    Carries false hold recount clear s (faultEngine s e flags) := carry <| by
  unfold faultEngine
  dsimp only
  split
  · simp
  · simp
  · simp only [settle_vital, State.onEngine_vital, moveReruns_vital]
    refine .inl (Reacts.trans ?_ (abandonAll_reacts e State.image _ _))
    simp

@[simp] theorem noteWait_vital (s : State) (f c : Nat) : (noteWait s f c).vital = s.vital := by rfl

@[simp] theorem spill_vital (s : State) :
    Carries calm hold recount clear s (spill s) :=
  carry (.sram (wf_memWrite _ _))

@[simp] theorem preempt_vital (s : State) (e : Nat) (t : PTask) (c : ECore) (runs : List Nat) (used : Nat) :
    Carries calm hold recount clear s (preempt s e t c runs used) := carry <| by
  simp [preempt]

@[simp] theorem freed_vital (s : State) (e : Nat) (t : PTask) :
    Carries calm hold recount clear s (freed s e t) := carry <| by
  unfold freed; repeat' split
  all_goals simp

@[simp] theorem switchIn_vital (s : State) (e : Nat) (t : PTask) (first : Nat) : (switchIn s e t first).vital = s.vital := by
  simp [switchIn]

@[simp] theorem failInputs_vital (s : State) (t : PTask) :
    Carries false hold recount clear s (failInputs s t) := carry <| by
  simp [failInputs]

@[simp] theorem afterLaw_vital (s : State) (t : PTask) : (afterLaw s t).vital = s.vital := by
  simp [afterLaw]

@[simp] theorem completeTask_vital (s : State) (t : PTask) (results : List W24) (es : BitVec 8) (volt : Bool) :
    Carries calm hold recount clear s (completeTask s t results es volt) := carry <| by
  unfold completeTask; repeat' split
  all_goals simp

@[simp] theorem discardUnstarted_vital (s : State) (t : PTask) : (discardUnstarted s t).vital = s.vital := by
  unfold discardUnstarted; split <;> simp

@[simp] theorem missOutput_vital (s : State) (a : Nat) :
    Carries calm hold recount clear s (missOutput s a) := carry <| by
  simp [missOutput]

@[simp] theorem missCascade_vital (s : State) (a : Nat) :
    Carries calm hold recount clear s (missCascade s a) := carry <| by
  simp [missCascade]

@[simp] theorem closeTasks_vital (s : State) :
    Carries false hold recount clear s (closeTasks s) := carry <| by
  refine Reacts.trans (Reacts.trans ?bundles (foldl_reacts ?tasks _ _)) (foldl_reacts ?missed _ _)
  case bundles => simp
  case tasks =>
    intro s t
    split
    · simp
    · split
      · split <;> simp
      · simp
    · split <;> simp
    · rfl
  case missed => simp

@[simp] theorem closeCycle_vital (s : State) :
    Carries false hold recount clear s (closeCycle s) := carry <| by
  simp [closeCycle]

@[simp] theorem takeDispSnap_vital (s : State) : (takeDispSnap s).vital = s.vital := by rfl

/-! ### Machine/Power -/

@[simp] theorem finishCommit_vital (s : State) : Carries calm hold recount clear s (finishCommit s) := carry <| by
  unfold finishCommit
  split <;> simp

@[simp] theorem loseMemories_vital (s : State) : Carries calm hold recount clear s (loseMemories s) :=
  carry (.ofMem fun ⟨_, _, _, hm, hh, _⟩ => ⟨rfl, rfl, rfl, hm, hh, rfl, rfl⟩)

@[simp] theorem cutCommit_vital (s : State) : Carries calm hold recount clear s (cutCommit s) := carry <| by
  unfold cutCommit
  split
  · rfl
  · simp only [vital_ite, reacts_ite, commitFrozen_vital]
    repeat' split
    · simp
    · rfl
    · exact .mram (wf_memZero _ _)

@[simp] theorem endTaskRetries_vital (s : State) :
    Carries false hold recount clear s (endTaskRetries s) := carry <| by
  simp [endTaskRetries]

@[simp] theorem endRetries_vital (s : State) :
    Carries false hold recount clear s (endRetries s) := carry <| by
  simp [endRetries]

@[simp] theorem reportSlots_vital (extra : List Nat) (s : State) :
    Carries calm hold recount clear s (reportSlots extra s) := carry <| by
  simp [reportSlots]

@[simp] theorem loadImage_vital (s : State) (k : Nat) (rd : Nat → Nat → Bytes) : Carries calm hold recount clear s (loadImage s k rd) :=
  carry (.ofMem fun ⟨ha, hb, hc, hd, he, _⟩ => ⟨ha, hb, hc, hd, he, wf_cellsFrom .., wf_cellsFrom ..⟩)

/-! ### Machine/System -/

@[simp] theorem sysCapsBody_reacts (s : State) (q : Request) (t : Nat) : Reacts calm hold recount clear s.vital ((sysCapsBody s q t).vital s) := by
  simp [sysCapsBody]

@[simp] theorem bootInfoBody_reacts (s : State) (q : Request) (t : Nat) : Reacts calm hold recount clear s.vital ((bootInfoBody s q t).vital s) := by rfl

@[simp] theorem sysResetBody_reacts (s : State) (q : Request) (t : Nat) : Reacts calm hold recount clear s.vital ((sysResetBody s q t).vital s) := by
  simp [sysResetBody]

@[simp] theorem sysStandbyBody_reacts (s : State) (q : Request) (t : Nat) : Reacts calm hold recount clear s.vital ((sysStandbyBody s q t).vital s) := by
  simp [sysStandbyBody]

@[simp] theorem sysPreopBody_reacts (s : State) (q : Request) (t : Nat) : Reacts calm hold recount clear s.vital ((sysPreopBody s q t).vital s) := by
  simp [sysPreopBody]

@[simp] theorem safeHoldBody_reacts (s : State) (q : Request) (t : Nat) : Reacts calm true recount clear s.vital ((safeHoldBody s q t).vital s) := by
  simp [safeHoldBody]

@[simp] theorem powerDomainBody_reacts (s : State) (q : Request) (t : Nat) : Reacts calm hold recount clear s.vital ((powerDomainBody s q t).vital s) := by
  simp [powerDomainBody]

@[simp] theorem domainBack_vital (d : Nat) (s : State) : Carries calm hold recount clear s (domainBack d s) := carry <| by
  unfold domainBack
  split
  · exact .capture fun _ => rfl
  · split
    · exact .ddr fun _ => rfl
    · rfl

@[simp] theorem endSwitch_vital (s0 : State) (d : Nat) (on : Bool) :
    Carries calm hold recount clear s0 (endSwitch s0 d on) := carry <| by
  simp [endSwitch]

@[simp] theorem expireHold_vital (s : State) (d : Nat) :
    Carries calm hold recount clear s (expireHold s d) := carry <| by
  unfold expireHold; split <;> simp

@[simp] theorem fwStageWriteBody_reacts (s : State) (q : Request) (t : Nat) :
    Reacts calm hold recount clear s.vital ((fwStageWriteBody s q t).vital s) := by
  simp only [fwStageWriteBody, need_vital, Reply.vital_ite, Reply.vital_ok, reacts_ite]
  repeat' split
  · rfl
  · rfl
  · rfl
  · exact .mram fun h => wf_memWrite _ _ (wf_memZero _ _ h)
  · exact .mram (wf_memWrite _ _)
  · rfl

@[simp] theorem fwStageCommitBody_reacts (s : State) (q : Request) (t : Nat) : Reacts calm hold recount clear s.vital ((fwStageCommitBody s q t).vital s) := by
  simp [fwStageCommitBody]

@[simp] theorem stageDone_vital (s : State) (target : Nat) : Carries calm hold recount clear s (stageDone s target) := carry <| by
  unfold stageDone
  repeat' split
  · rfl
  · rfl
  · exact .mram (wf_memZero _ _)
  · rfl

/-! ### Machine/Host -/

@[simp] theorem State.onTun_vital (s : State) (r : Nat) (f : RingRegs → RingRegs) : (State.onTun s r f).vital = s.vital := by rfl

@[simp] theorem bar0Touch_vital (s : State) (o : Nat) : (bar0Touch s o).vital = s.vital := by
  simp [bar0Touch]

@[simp] theorem bar0Bytes_vital (n o : Nat) (w : Option Nat) (s : State) : (bar0Bytes n o w s).1.vital = s.vital := by
  induction n generalizing o w s with
  | zero => rfl
  | succ n ih => simp [bar0Bytes, ih]

@[simp] theorem ringDoorbell_vital (s : State) (m : Nat) (tail : BitVec 16) : (ringDoorbell s m tail).vital = s.vital := by
  simp [ringDoorbell]

@[simp] theorem moveRspHead_vital (s : State) (m : Nat) (head : BitVec 16) : (moveRspHead s m head).vital = s.vital := by
  simp [moveRspHead]

@[simp] theorem clearStat_vital (s : State) (m : Nat) (v : Nat) : (clearStat s m v).vital = s.vital := by
  simp [clearStat]

@[simp] theorem takeTunSlot_vital (s : State) (r : Nat) : (takeTunSlot s r).vital = s.vital := by
  simp [takeTunSlot]

@[simp] theorem drainTunTx_vital (r n : Nat) (s : State) : (drainTunTx r n s).vital = s.vital := by
  induction n generalizing s with
  | zero => rfl
  | succ n ih => simp [drainTunTx, ih]

@[simp] theorem drainTunRx_vital (r n : Nat) (s : State) : Carries calm hold recount clear s (drainTunRx r n s) := carry <| by
  induction n generalizing s with
  | zero => rfl
  | succ n ih =>
    simp only [drainTunRx]
    split
    · rfl
    · split
      · rfl
      · exact Reacts.trans (by simp) (ih _)

@[simp] theorem moveTxTail_vital (s : State) (r : Nat) (tail : BitVec 16) : (moveTxTail s r tail).vital = s.vital := by
  simp [moveTxTail]

@[simp] theorem moveRxHead_vital (s : State) (r : Nat) (head : BitVec 16) :
    Carries calm hold recount clear s (moveRxHead s r head) := carry <| by
  simp [moveRxHead]

@[simp] theorem serviceHost_vital (s : State) (v : BitVec 32) : (serviceHost s v).vital = s.vital := by
  simp [serviceHost]

@[simp] theorem clearEvStatus_vital (s : State) (n : Nat) (v : BitVec 32) : (clearEvStatus s n v).vital = s.vital := by
  simp [clearEvStatus]

@[simp] theorem flushMsix_vital (s : State) : (flushMsix s).vital = s.vital := by
  simp [flushMsix]

@[simp] theorem writeMsix_vital (s : State) (o : Nat) (data : Bytes) : (writeMsix s o data).vital = s.vital := by
  simp [writeMsix]

theorem wf_putStored (l : List (Nat × Byte)) {m : List Host.Cell} (h : Memory.wf m = true) :
    Memory.wf (l.foldl (fun m e => if bar2Region e.1 = .stored then memPut m e.1 e.2 else m) m) = true := by
  induction l generalizing m with
  | nil => exact h
  | cons e l ih =>
    refine ih ?_
    dsimp only
    split
    · exact wf_memPut _ _ h
    · exact h

@[simp] theorem writeCells_vital (s : State) (l : List (Nat × Byte)) :
    Carries calm hold recount clear s (writeCells s l) := by
  refine carry ?_
  have h0 : (if l.any (fun e => bar2Region e.1 == .stored) then snapBefore s else s).vital = s.vital := by simp
  unfold writeCells
  generalize (if l.any (fun e => bar2Region e.1 == .stored) then snapBefore s else s) = s1 at h0 ⊢
  have h1 (m : List Host.Cell) (hm : Memory.wf s1.mem.sram → Memory.wf m) :
      Reacts calm hold recount clear s.vital (snapAgain { s1 with mem := { s1.mem with sram := m } }).vital := by
    rw [snapAgain_vital, ← h0]
    exact Reacts.sram (v := s1.vital) hm
  have h2 := h1 _ (wf_putStored l)
  dsimp only
  split
  · simp only [raiseWarn_vital]
    exact .inl h2
  · exact h2

@[simp] theorem writeBar2_vital (s : State) (o : Nat) (data : Bytes) :
    Carries calm hold recount clear s (writeBar2 s o data) := carry <| by
  simp [writeBar2]

@[simp] theorem writeConfig_vital (s : State) (r : PciReg) (v : Nat) :
    Carries calm hold recount clear s (writeConfig s r v) := carry <| by
  unfold writeConfig; repeat' split
  all_goals simp

@[simp] theorem qspiRead_vital (s : State) (addr n : Nat) : (qspiRead s addr n).1.vital = s.vital := by
  unfold qspiRead; repeat' split
  all_goals simp

@[simp] theorem takeRequest_vital (s : State) (m : Nat) :
    Carries calm hold recount clear s (takeRequest s m) := carry <| by
  unfold takeRequest; dsimp only; repeat' split
  all_goals simp

/-! ### Machine/Params -/

@[simp] theorem judgeNotch_vital (a k : Nat) (s : State) :
    Carries calm hold recount clear s (judgeNotch a k s) := carry <| by
  simp [judgeNotch]

@[simp] theorem judgeNotches_vital (s : State) :
    Carries calm hold recount clear s (judgeNotches s) := carry <| by
  simp [judgeNotches]

@[simp] theorem afterWrite_vital (w : PWrite) (s : State) :
    Carries calm hold recount clear s (afterWrite w s) := carry <| by
  simp [afterWrite]

@[simp] theorem applyWrite_vital (stamp : Nat) (s : State) (w : PWrite) :
    Carries calm hold recount clear s (applyWrite stamp s w) := carry <| by
  simp [applyWrite]

@[simp] theorem paramReadBody_reacts (s : State) (q : Request) (t : Nat) : Reacts calm hold recount clear s.vital ((paramReadBody s q t).vital s) := by
  unfold paramReadBody; dsimp only; repeat' split
  all_goals simp

@[simp] theorem paramWriteBody_reacts (s : State) (q : Request) (t : Nat) : Reacts calm hold recount clear s.vital ((paramWriteBody s q t).vital s) := by
  unfold paramWriteBody; dsimp only; repeat' split
  all_goals simp

/-! ### Machine/RingFrame -/

@[simp] theorem sendFrames_vital (r : Nat) (l : List WaitingFrame) (s : State) : (sendFrames r l s).vital = s.vital := by
  simp [sendFrames]

@[simp] theorem relay_vital (r : Nat) (port : Port) (f : Bytes) (s : State) : (relay r port f s).vital = s.vital := by
  simp [relay]

@[simp] theorem pushOpaque_vital (r p service kind value : Nat) (serial addr cmd : Nat) (s : State) : (pushOpaque r p service kind value serial addr cmd s).vital = s.vital := by rfl

@[simp] theorem assignAddress_vital (r p addr : Nat) (s : State) : (assignAddress r p addr s).vital = s.vital := by rfl

/-! ### Machine/RingSvc -/

@[simp] theorem aliasConflicts_vital (r : Nat) (s : State) :
    Carries calm hold recount clear s (aliasConflicts r s) := carry <| by
  simp [aliasConflicts]

@[simp] theorem moveTo_vital (r p addr : Nat) (s : State) : (moveTo r p addr s).vital = s.vital := by
  simp [moveTo]

@[simp] theorem setBound_vital (r p : Nat) (s : State) : (setBound r p s).vital = s.vital := by
  simp [setBound]

@[simp] theorem bindNode_vital (m : Image) (r p : Nat) (e : PNode) (s : State) :
    Carries calm hold recount clear s (bindNode m r p e s) := carry <| by
  simp [bindNode]

@[simp] theorem bindAlarms_vital (m : Image) (r : Nat) (s : State) :
    Carries calm hold recount clear s (bindAlarms m r s) := carry <| by
  simp [bindAlarms]

@[simp] theorem keepPlace_vital (r p : Nat) (s : State) : (keepPlace r p s).vital = s.vital := by
  simp [keepPlace]

@[simp] theorem bindRing_vital (m : Image) (r : Nat) (s : State) :
    Carries calm hold recount clear s (bindRing m r s) := carry <| by
  simp only [bindRing, State.onRing_vital, vital_ite, reacts_ite]
  split
  · simp
  · refine Reacts.trans (by simp) (foldl_reacts (fun s e => ?_) _ _)
    split <;> simp

@[simp] theorem finishFirst_vital (s : State) (code key status : Nat) (payload : Bytes) :
    Carries calm hold recount clear s (finishFirst s code key status payload) := carry <| by
  unfold finishFirst; split <;> simp

@[simp] theorem finishEnum_vital (s : State) :
    Carries calm hold recount clear s (finishEnum s) := carry <| by
  unfold finishEnum; split <;> simp

@[simp] theorem dropServices_vital (r : Nat) (s : State) :
    Carries calm hold recount clear s (dropServices r s) := carry <| by
  simp [dropServices]

@[simp] theorem startEnum_vital (s : State) (r : Nat) :
    Carries calm hold recount clear s (startEnum s r) := carry <| by
  simp [startEnum]

@[simp] theorem launchEnum_vital (s : State) (r : Nat) : (launchEnum s r).vital = s.vital := by
  unfold launchEnum; split <;> simp

@[simp] theorem launchEnums_vital (s : State) : (launchEnums s).vital = s.vital := by
  simp [launchEnums]

@[simp] theorem ringEnumerateBody_reacts (s : State) (q : Request) (t : Nat) : Reacts calm hold recount clear s.vital ((ringEnumerateBody s q t).vital s) := by
  simp [ringEnumerateBody]

@[simp] theorem passDone_vital (r : Nat) (first second : List Bytes) (s : State) :
    Carries calm hold recount clear s (passDone r first second s) := carry <| by
  simp [passDone]

@[simp] theorem joinNode_vital (r : Nat) (s : State) (p : Nat) :
    Carries calm hold recount clear s (joinNode r s p) := carry <| by
  unfold joinNode; dsimp only; repeat' split
  all_goals simp

@[simp] theorem hotJoin_vital (r : Nat) (port : Port) (f : Bytes) (s : State) :
    Carries calm hold recount clear s (hotJoin r port f s) := carry <| by
  simp [hotJoin]

@[simp] theorem ringArg_reacts (u s : State) (r : Nat) (k : Reply) (h : Reacts calm hold recount clear u.vital (k.vital u)) :
    Reacts calm hold recount clear u.vital ((ringArg s r k).vital u) := by
  simp [ringArg, h]

@[simp] theorem nodeArg_reacts (u s : State) (n : Nat) (k : Reply) (h : Reacts calm hold recount clear u.vital (k.vital u)) :
    Reacts calm hold recount clear u.vital ((nodeArg s n k).vital u) := by
  simp [nodeArg, h]

@[simp] theorem presentNode_reacts (u s : State) (n : Nat) (k : Nat → Nat → Reply) (h : ∀ r p, Reacts calm hold recount clear u.vital ((k r p).vital u)) :
    Reacts calm hold recount clear u.vital ((presentNode s n k).vital u) := by
  refine nodeArg_reacts _ _ _ _ ?_
  split <;> simp [h]

@[simp] theorem ringStatusBody_reacts (s : State) (q : Request) (t : Nat) : Reacts calm hold recount clear s.vital ((ringStatusBody s q t).vital s) := by
  simp [ringStatusBody]

@[simp] theorem nodeIdentityBody_reacts (s : State) (q : Request) (t : Nat) : Reacts calm hold recount clear s.vital ((nodeIdentityBody s q t).vital s) := by
  simp [nodeIdentityBody]

@[simp] theorem nodeEnableBody_reacts (s : State) (q : Request) (t : Nat) : Reacts calm hold recount clear s.vital ((nodeEnableBody s q t).vital s) := by
  simp [nodeEnableBody]

@[simp] theorem nodeAliasSetBody_reacts (s : State) (q : Request) (t : Nat) : Reacts calm hold recount clear s.vital ((nodeAliasSetBody s q t).vital s) := by
  simp [nodeAliasSetBody]

@[simp] theorem nodeParamBody_reacts (code service : Nat) (s : State) (q : Request) (t : Nat) : Reacts calm hold recount clear s.vital ((nodeParamBody code service s q t).vital s) := by
  simp [nodeParamBody]

@[simp] theorem tunnelConfigBody_reacts (s : State) (q : Request) (t : Nat) : Reacts calm hold recount clear s.vital ((tunnelConfigBody s q t).vital s) := by
  simp [tunnelConfigBody]

@[simp] theorem useSeq_vital (s : State) (r p : Nat) : (useSeq s r p).vital = s.vital := by rfl

@[simp] theorem txDone_vital (r : Nat) (i : TxItem) (s : State) : (txDone r i s).vital = s.vital := by
  unfold txDone; repeat' split
  all_goals simp

@[simp] theorem failAssign_vital (r p : Nat) (sv : Acyclic) (s : State) :
    Carries calm hold recount clear s (failAssign r p sv s) := carry <| by
  simp [failAssign]

@[simp] theorem refuseConfig_vital (r p : Nat) (sv : Acyclic) (s : State) :
    Carries calm hold recount clear s (refuseConfig r p sv s) := carry <| by
  simp [refuseConfig]

@[simp] theorem endService_vital (r p : Nat) (sv : Acyclic) (status : Nat) (reply : Bytes) (s : State) :
    Carries calm hold recount clear s (endService r p sv status reply s) := carry <| by
  simp [endService]

@[simp] theorem takeResponse_vital (r : Nat) (f : Bytes) (s : State) :
    Carries calm hold recount clear s (takeResponse r f s) := carry <| by
  unfold takeResponse; split <;> simp

@[simp] theorem takeTunnel_vital (r : Nat) (f : Bytes) (s : State) :
    Carries calm hold recount clear s (takeTunnel r f s) := carry <| by
  simp [takeTunnel]

/-! ### Machine/RingRx -/

@[simp] theorem noteDelay_vital (s : State) (a : Nat) (d : Int) :
    Carries calm hold recount clear s (noteDelay s a d) := carry <| by
  unfold noteDelay; repeat' split
  all_goals simp

@[simp] theorem delayFrom_vital (n : Node) (u : UpFrame) (extrapolates : Bool) (a : Nat) (s : State) :
    Carries calm hold recount clear s (delayFrom n u extrapolates a s) := carry <| by
  unfold delayFrom; split <;> simp

@[simp] theorem driveStatus_vital (status : Nat) (a : Nat) (s : State) :
    Carries false hold recount clear s (driveStatus status a s) := carry <| by
  unfold driveStatus; dsimp only; repeat' split
  all_goals simp

@[simp] theorem takeUpSlice_vital (n : Node) (u : UpFrame) (b : Bytes) (a : Nat) (s : State) :
    Carries false hold recount clear s (takeUpSlice n u b a s) := carry <| by
  simp [takeUpSlice]

@[simp] theorem reportBreak_vital (r hop : Nat) (d : BreakDir) (s : State) :
    Carries calm hold recount clear s (reportBreak r hop d s) := carry <| by
  simp [reportBreak]

@[simp] theorem noteBreak_vital (r hop : Nat) (d : BreakDir) (s : State) :
    Carries calm hold recount clear s (noteBreak r hop d s) := carry <| by
  unfold noteBreak; split <;> simp

@[simp] theorem seeBreak_vital (r hop : Nat) (d : BreakDir) (s : State) : (seeBreak r hop d s).vital = s.vital := by
  simp [seeBreak]

@[simp] theorem breaksSeen_vital (r p : Nat) (u : UpFrame) (s : State) : (breaksSeen r p u s).vital = s.vital := by
  simp [breaksSeen]

@[simp] theorem reportBreaks_vital (r : Nat) (s : State) :
    Carries calm hold recount clear s (reportBreaks r s) := carry <| by
  unfold reportBreaks
  refine foldl_reacts (fun s x => ?_) _ _
  split <;> simp

@[simp] theorem takeUp_vital (r p : Nat) (f : Bytes) (s : State) :
    Carries false hold recount clear s (takeUp r p f s) := carry <| by
  simp [takeUp]

@[simp] theorem badCopy_vital (r : Nat) (port : Port) (f : Bytes) (s : State) : (badCopy r port f s).vital = s.vital := by
  unfold badCopy; split <;> simp

@[simp] theorem judgeHops_vital (r : Nat) (s : State) :
    Carries calm hold recount clear s (judgeHops r s) := carry <| by
  simp [judgeHops]

@[simp] theorem judgeClock_vital (r p : Nat) (s : State) :
    Carries calm hold recount clear s (judgeClock r p s) := carry <| by
  simp [judgeClock]

@[simp] theorem calibrate_vital (t0 : Nat) (r : Nat) (s : State) :
    Carries calm hold recount clear s (calibrate t0 r s) := carry <| by
  unfold calibrate; dsimp only; repeat' split
  all_goals simp

/-! ### Machine/Gear -/

@[simp] theorem judgeMaster_vital (s : State) (a : Nat) (ok : Bool) :
    Carries false hold recount clear s (judgeMaster s a ok) := carry <| by
  simp [judgeMaster]

@[simp] theorem gearAdvance_vital (s : State) (a : Nat) :
    Carries false hold recount clear s (gearAdvance s a) := carry <| by
  simp [gearAdvance]

@[simp] theorem gearFlow_vital (s : State) (f : Nat) :
    Carries false hold recount clear s (gearFlow s f) := carry <| by
  simp [gearFlow]

@[simp] theorem gearRest_vital (s : State) :
    Carries false hold recount clear s (gearRest s) := carry <| by
  simp [gearRest]

/-! ### Machine/Tasks -/

@[simp] theorem writeRecord_vital (s : State) (t : PTask) :
    Carries calm hold recount clear s (writeRecord s t) := carry <| by
  simp [writeRecord]

@[simp] theorem noteEcc_vital (s : State) (t : PTask) (ecc : EccRead) :
    Carries calm hold recount clear s (noteEcc s t ecc) := carry <| by
  simp [noteEcc]

@[simp] theorem lawFaultTask_vital (s : State) (e : Nat) (t : PTask) (code clocks : Nat) :
    Carries false hold recount clear s (lawFaultTask s e t code clocks) := carry <| by
  simp [lawFaultTask]

@[simp] theorem completeUser_vital (s : State) (e : Nat) (t : PTask) :
    Carries false hold recount clear s (completeUser s e t) := carry <| by
  -- only the function is unfolded here: to compare the applications the kernel would evaluate `runActive`
  conv => arg 6; arg 1; fun; fun; fun; delta completeUser
  generalize runActive s e t (clockLimit s t) = r
  obtain ⟨c, runs⟩ := r
  dsimp only
  split <;> simp

@[simp] theorem completeStd_vital (s : State) (e : Nat) (t : PTask) (clocks : Nat) :
    Carries false hold recount clear s (completeStd s e t clocks) := carry <| by
  simp [completeStd]

@[simp] theorem dropStale_vital (s : State) (e : Nat) (t : PTask) (clocks : Nat) :
    Carries calm hold recount clear s (dropStale s e t clocks) := carry <| by
  simp [dropStale]

@[simp] theorem holdFaulted_vital (src : Nat) (s : State) (a : Nat) :
    Carries calm hold recount clear s (holdFaulted src s a) := carry <| by
  simp [holdFaulted]

@[simp] theorem dispatchEngineStatsBody_reacts (s : State) (q : Request) (t : Nat) : Reacts calm hold recount clear s.vital ((dispatchEngineStatsBody s q t).vital s) := by
  simp [dispatchEngineStatsBody]

@[simp] theorem dispatchLevelStatsBody_reacts (s : State) (q : Request) (t : Nat) : Reacts calm hold recount clear s.vital ((dispatchLevelStatsBody s q t).vital s) := by rfl

@[simp] theorem dispatchFlowStatsBody_reacts (s : State) (q : Request) (t : Nat) : Reacts calm hold recount clear s.vital ((dispatchFlowStatsBody s q t).vital s) := by
  simp [dispatchFlowStatsBody]

@[simp] theorem dispatchStatsClearBody_reacts (s : State) (q : Request) (t : Nat) : Reacts calm hold recount clear s.vital ((dispatchStatsClearBody s q t).vital s) := by rfl

/-! ### Machine/Cycle -/

@[simp] theorem planLoadBody_reacts (s : State) (q : Request) (t : Nat) :
    Reacts calm hold recount clear s.vital ((planLoadBody s q t).vital s) := by
  simp only [planLoadBody, need_vital, orElse_vital, Reply.vital_ok, reacts_ite]
  repeat' split
  · exact .standby fun _ => wf_memWrite _ _ rfl
  · exact .standby (wf_memWrite _ _)
  · rfl
  · rfl

@[simp] theorem planCommitBody_reacts (s : State) (q : Request) (t : Nat) : Reacts calm hold recount clear s.vital ((planCommitBody s q t).vital s) := by
  simp [planCommitBody]

@[simp] theorem planStoreBody_reacts (s : State) (q : Request) (t : Nat) :
    Reacts calm hold recount clear s.vital ((planStoreBody s q t).vital s) := by
  unfold planStoreBody
  split
  · rfl
  next m hm =>
    refine ⟨fun ⟨⟨ha, hb, hc, hd, he⟩, hs, hp⟩ => ⟨⟨ha, hb, hc, wf_memPaste _ _ hd (hp m hm), he⟩, hs, hp⟩, .inl ⟨rfl, rfl, id⟩,
      fun _ => rfl, fun _ _ => id, rfl⟩

@[simp] theorem planRecallBody_reacts (s : State) (q : Request) (t : Nat) :
    Reacts calm hold recount clear s.vital ((planRecallBody s q t).vital s) := by
  simp only [planRecallBody, orElse_vital, Reply.vital_ok, reacts_ite]
  repeat' split
  · refine ⟨fun ⟨⟨ha, hb, hc, hd, he⟩, _, hp⟩ => ⟨⟨ha, hb, hc, hd, he⟩, wf_memSlice _ _ hd, hp⟩, .inl ⟨rfl, rfl, id⟩, fun _ => rfl,
      fun _ _ => id, rfl⟩
  · rfl
  · rfl

@[simp] theorem planStatusBody_reacts (s : State) (q : Request) (t : Nat) : Reacts calm hold recount clear s.vital ((planStatusBody s q t).vital s) := by
  simp [planStatusBody]

@[simp] theorem exchange_vital (s : State) :
    Carries calm hold recount clear s (exchange s) := by
  refine carry ⟨fun ⟨hm, hs, ha⟩ => ⟨hm, ?_, ?_⟩, .inl ⟨rfl, rfl, id⟩, fun _ => rfl, fun _ _ => id, rfl⟩
  · show Memory.wf (s.plan.active.getD []) = true
    cases h : s.plan.active with
    | none => rfl
    | some m => exact ha m h
  · rintro m ⟨⟩
    exact hs

@[simp] theorem noteNewPlan_vital (s : State) :
    Carries calm hold recount clear s (noteNewPlan s) := carry <| by
  simp [noteNewPlan]

theorem wf_zeroAll (ts : List PTask) {m : List Host.Cell} (h : Memory.wf m = true) :
    Memory.wf (ts.foldl (fun m t => memZero m (t.base + 4 * t.inLen) (4 * t.stLen)) m) = true := by
  induction ts generalizing m with
  | nil => exact h
  | cons t l ih => exact ih (wf_memZero _ _ h)

@[simp] theorem zeroBlocks_vital (ts : List PTask) (s : State) :
    Carries calm hold recount clear s (zeroBlocks ts s) :=
  carry (.sram (wf_zeroAll ts))

@[simp] theorem carryTasks_vital (s : State) (old : Image) :
    Carries calm hold recount clear s (carryTasks s old) := carry <| by
  simp [carryTasks]

@[simp] theorem recheckPlan_vital (s : State) :
    Carries calm hold recount clear s (recheckPlan s) := carry <| by
  simp [recheckPlan]

@[simp] theorem endExcursions_vital (s : State) : (endExcursions s).vital = s.vital := by rfl

@[simp] theorem activate_vital (s : State) :
    Carries false hold recount clear s (activate s) := carry <| by
  simp [activate]

@[simp] theorem keepStreams_vital (s : State) : (keepStreams s).vital = s.vital := by
  simp [keepStreams]

@[simp] theorem endOfCycle_vital (s : State) :
    Carries false hold recount clear s (endOfCycle s) := carry <| by
  simp [endOfCycle]

@[simp] theorem switchPlan_vital (n : Nat) (s : State) :
    Carries false true recount clear s (switchPlan n s) := carry <| by
  simp [switchPlan]

@[simp] theorem dueSwitch_vital (n : Nat) (s : State) :
    Carries false true recount clear s (dueSwitch n s) := carry <| by
  unfold dueSwitch; split <;> simp

@[simp] theorem armSwitch_vital (s : State) (named : Nat) :
    Carries calm hold recount clear s (armSwitch s named) := carry <| by
  simp [armSwitch]

/-- A first tick that moves stays one that waits. -/
theorem reacts_moveStart (s : State) (f : Nat → Nat) :
    Reacts calm hold recount clear s.vital ({ s with cyc := { s.cyc with first := s.cyc.first.map f } } : State).vital := by
  refine ⟨id, .inl ⟨rfl, rfl, fun e => ?_⟩, fun _ => rfl, fun _ _ => id, rfl⟩
  show s.cyc.first.map f = none
  rw [show s.cyc.first = none from e]
  rfl

@[simp] theorem activateNow_vital (s : State) : Carries false hold recount clear s (activateNow s) :=
  carry (Reacts.trans (by simp) (reacts_moveStart (activate s) _))

@[simp] theorem bindRings_vital (s : State) :
    Carries calm hold recount clear s (bindRings s) := carry <| by
  simp [bindRings]

@[simp] theorem configureNodes_vital (s : State) : (configureNodes s).vital = s.vital := by
  simp [configureNodes]

@[simp] theorem writePiHead_vital (s : State) (latest : Option Nat) :
    Carries calm hold recount clear s (writePiHead s latest) := carry <| by
  simp [writePiHead]

/-- The counts and the units at the first tick (R76). -/
def firstCycle (n : Nat) (s : State) : State :=
  { s with
    cyc := { running := true, rate := planRate s.image, tick := n, t0 := tickU (planRate s.image) n },
    axes := tmap s.axes (fun _ x => startAxis x), rings := tmap s.rings (fun _ g => startRing g) }

theorem firstCycle_vital (n : Nat) (s : State) : (firstCycle n s).vital =
    { s.vital with first := none, clock := (true, planRate s.image, n, tickU (planRate s.image) n, 0) } := by rfl

theorem startCycle_reacts (n : Nat) (s : State) : Reacts false true recount clear (firstCycle n s).vital (startCycle n s).vital := by
  unfold startCycle
  dsimp only
  generalize h : ({ s with
    cyc := { running := true, rate := planRate s.image, tick := n, t0 := tickU (planRate s.image) n },
    axes := tmap s.axes (fun _ x => startAxis x), rings := tmap s.rings (fun _ g => startRing g) } : State) = s1
  rw [show firstCycle n s = s1 from h]
  simp

@[simp] theorem endUnits_vital (s0 : State) :
    Carries calm hold true clear s0 (endUnits s0) := by
  refine carry ?_
  have h1 : Reacts calm hold true clear s0.vital ((List.range (ringCount s0.var)).foldl (fun s r => reportBreaks r s) s0).vital := by simp
  unfold endUnits
  generalize (List.range (ringCount s0.var)).foldl (fun s r => reportBreaks r s) s0 = s1 at h1 ⊢
  simp only [stopInputs_vital, stopTimers_vital, writePiHead_vital, stressSync_vital]
  refine .inl (h1.trans ?_)
  rw [vital_mk]
  exact Reacts.recounts (v := s1.vital) fun _ => rfl

@[simp] theorem endCycle_vital (s0 : State) :
    Carries calm hold true clear s0 (endCycle s0) := carry <| by
  simp [endCycle]

@[simp] theorem haltGroup_vital (s : State) (n : Nat) : (haltGroup s n).vital = s.vital := by
  simp [haltGroup]

@[simp] theorem haltAxis_vital (s : State) (a : Nat) :
    Carries calm hold recount clear s (haltAxis s a) := carry <| by
  simp [haltAxis]

@[simp] theorem breakCycle_vital (s0 : State) :
    Carries calm hold true clear s0 (breakCycle s0) := carry <| by
  simp [breakCycle]

@[simp] theorem reviveEngines_vital (s : State) : (reviveEngines s).vital = s.vital := by
  simp [reviveEngines]

@[simp] theorem moveFlow_vital (s : State) (f e : Nat) : (moveFlow s f e).vital = s.vital := by
  simp [moveFlow]

@[simp] theorem flowPlaceBody_reacts (s : State) (q : Request) (t : Nat) : Reacts calm hold recount clear s.vital ((flowPlaceBody s q t).vital s) := by
  unfold flowPlaceBody; dsimp only; repeat' split
  all_goals simp

/-! ### Machine/Burst -/

@[simp] theorem departMsgs_vital (r : Nat) (s : State) : (departMsgs r s).vital = s.vital := by
  simp [departMsgs]

@[simp] theorem takeMessages_vital (r : Nat) (s : State) : (takeMessages r s).vital = s.vital := by
  simp [takeMessages]

@[simp] theorem putBurst_vital (r : Nat) (b : Burst) (copyQ : Bytes) (s : State) : (putBurst r b copyQ s).vital = s.vital := by rfl

@[simp] theorem launchBurst1_vital (r : Nat) (s : State) : (launchBurst1 r s).vital = s.vital := by
  simp [launchBurst1]

@[simp] theorem failLate_vital (s : State) (k : Nat) :
    Carries calm hold recount clear s (failLate s k) := carry <| by
  simp [failLate]

@[simp] theorem noteSlice_vital (k at_ : Nat) (before : State) (s : State) (x : Slice) :
    Carries calm hold recount clear s (noteSlice k at_ before s x) := carry <| by
  unfold noteSlice; dsimp only; repeat' split
  all_goals simp

@[simp] theorem launchBurst_vital (r k at_ : Nat) (s0 : State) :
    Carries calm hold recount clear s0 (launchBurst r k at_ s0) := carry <| by
  simp [launchBurst]

/-! ### Machine/PairOps -/

@[simp] theorem State.onPair_vital (s : State) (f : Pair → Pair) : (State.onPair s f).vital = s.vital := by rfl

@[simp] theorem putState_vital (s : State) (t : PTask) (ws : List W24) :
    Carries calm hold recount clear s (putState s t ws) := carry <| by
  simp [putState]

@[simp] theorem skipFor_vital (a n : Nat) (s : State) : (skipFor a n s).vital = s.vital := by rfl

@[simp] theorem adoptState_vital (s : State) (i : Nat) (ws : List W24) :
    Carries calm hold recount clear s (adoptState s i ws) := carry <| by
  unfold adoptState; split <;> simp

@[simp] theorem adoptAxis_vital (s : State) (a : Nat) (f : Axis → Axis) : (adoptAxis s a f).vital = s.vital := by
  simp [adoptAxis]

@[simp] theorem adoptItem_vital (s : State) (i : MirrorItem) :
    Carries calm hold recount clear s (adoptItem s i) := carry <| by
  unfold adoptItem; split <;> simp

@[simp] theorem adoptStreams_vital (n : Nat) (s : State) :
    Carries calm hold recount clear s (adoptStreams n s) := carry <| by
  unfold adoptStreams; dsimp only; repeat' split
  all_goals simp

@[simp] theorem judgeReady_vital (s : State) :
    Carries calm hold recount clear s (judgeReady s) := carry <| by
  simp [judgeReady]

@[simp] theorem skipCompare_vital (s : State) : (skipCompare s).vital = s.vital := by rfl

@[simp] theorem compareOut_vital (a : Nat) (h : Bytes) (s : State) :
    Carries calm hold recount clear s (compareOut a h s) := carry <| by
  unfold compareOut; repeat' split
  all_goals simp

@[simp] theorem shadowSlice_vital (a : Nat) (h : Bytes) (s : State) :
    Carries calm hold recount clear s (shadowSlice a h s) := carry <| by
  simp [shadowSlice]

@[simp] theorem settleShadow_vital (s : State) :
    Carries calm hold recount clear s (settleShadow s) := carry <| by
  simp [settleShadow]

@[simp] theorem judgeWitness_vital (s : State) :
    Carries calm hold recount clear s (judgeWitness s) := carry <| by
  simp [judgeWitness]

@[simp] theorem loseGrip_vital (s : State) :
    Carries calm hold recount clear s (loseGrip s) := carry <| by
  simp [loseGrip]

@[simp] theorem judgeSelf_vital (ended : Nat) (s : State) :
    Carries calm hold recount clear s (judgeSelf ended s) := carry <| by
  simp [judgeSelf]

@[simp] theorem dropMessages_vital (s : State) : (dropMessages s).vital = s.vital := by
  simp [dropMessages]

@[simp] theorem pairTick_vital (ended prevT0 : Nat) (s : State) :
    Carries calm hold recount clear s (pairTick ended prevT0 s) := carry <| by
  simp [pairTick]

/-! ### Machine/ProfileTick -/

@[simp] theorem evalAxis_vital (t : Nat) (s : State) (a : Nat) : (evalAxis t s a).vital = s.vital := by
  simp [evalAxis]

@[simp] theorem evalGroup_vital (t : Nat) (s : State) (n : Nat) : (evalGroup t s n).vital = s.vital := by
  unfold evalGroup; dsimp only; repeat' split
  all_goals simp

@[simp] theorem newLimits_vital (s : State) (a t : Nat) (w : List (Nat × Int)) :
    Carries calm hold recount clear s (newLimits s a t w) := carry <| by
  simp [newLimits]

@[simp] theorem applyAxis_vital (a t : Nat) (s : State) (w : WaitingMotion) :
    Carries calm hold recount clear s (applyAxis a t s w) := carry <| by
  unfold applyAxis; split <;> simp

@[simp] theorem newGroupLimits_vital (s : State) (n t : Nat) (l : Limits) :
    Carries calm hold recount clear s (newGroupLimits s n t l) := carry <| by
  unfold newGroupLimits; dsimp only; repeat' split
  all_goals simp

@[simp] theorem resumeGroup_vital (s : State) (n t : Nat) : (resumeGroup s n t).vital = s.vital := by
  unfold resumeGroup; dsimp only; repeat' split
  all_goals simp

@[simp] theorem applyGroup_vital (n t : Nat) (s : State) (w : WaitingMotion) :
    Carries calm hold recount clear s (applyGroup n t s w) := carry <| by
  unfold applyGroup; split <;> simp

@[simp] theorem runAxis_vital (ns : Nat) (lw : List (Nat × WaitingMotion)) (s : State) (a : Nat) :
    Carries calm hold recount clear s (runAxis ns lw s a) := carry <| by
  simp [runAxis]

@[simp] theorem runGroup_vital (ns : Nat) (s : State) (n : Nat) :
    Carries calm hold recount clear s (runGroup ns s n) := carry <| by
  simp [runGroup]

@[simp] theorem judgeLimits_vital (s : State) (a : Nat) :
    Carries calm hold recount clear s (judgeLimits s a) := carry <| by
  simp [judgeLimits]

@[simp] theorem judgeRange_vital (s : State) (a : Nat) :
    Carries false hold recount clear s (judgeRange s a) := carry <| by
  simp [judgeRange]

@[simp] theorem motionTick_vital (lw : List (Nat × WaitingMotion)) (s : State) :
    Carries false hold recount clear s (motionTick lw s) := carry <| by
  simp [motionTick]

/-! ### Machine/Tick -/

@[simp] theorem tickRing_vital (t0 r : Nat) (s : State) :
    Carries calm hold recount clear s (tickRing t0 r s) := carry <| by
  simp [tickRing]

@[simp] theorem localDelay_vital (s : State) (a : Nat) :
    Carries calm hold recount clear s (localDelay s a) := carry <| by
  unfold localDelay; dsimp only; repeat' split
  all_goals simp

@[simp] theorem stoTick_vital (s : State) (a : Nat) :
    Carries calm hold recount clear s (stoTick s a) := carry <| by
  simp [stoTick]

@[simp] theorem restTick_vital (s : State) (a : Nat) : (restTick s a).vital = s.vital := by
  simp [restTick]

@[simp] theorem alignSteps_vital (s : State) (a : Nat) : (alignSteps s a).vital = s.vital := by
  unfold alignSteps; split <;> simp

@[simp] theorem captureAxis_vital (s : State) (a : Nat) :
    Carries calm hold recount clear s (captureAxis s a) := carry <| by
  simp [captureAxis]

@[simp] theorem enableTick_vital (s : State) (a : Nat) :
    Carries calm hold recount clear s (enableTick s a) := carry <| by
  unfold enableTick; split <;> simp

@[simp] theorem noSlotSample_vital (s : State) (a : Nat) : (noSlotSample s a).vital = s.vital := by
  unfold noSlotSample; split <;> simp

@[simp] theorem tickInputs_vital (s : State) : (tickInputs s).vital = s.vital := by
  simp [tickInputs]

@[simp] theorem coefTick_vital (s : State) :
    Carries calm hold recount clear s (coefTick s) := carry <| by
  simp [coefTick]

@[simp] theorem truingTick_vital (s : State) : (truingTick s).vital = s.vital := by
  unfold truingTick; split <;> simp

@[simp] theorem joinTick_vital (s : State) : (joinTick s).vital = s.vital := by
  unfold joinTick; split <;> simp

@[simp] theorem openCycle_vital (ended t0 : Nat) (s : State) :
    Carries false hold recount true s (openCycle ended t0 s) := carry <| by
  simp [openCycle]

/-! ### Machine/Pair -/

@[simp] theorem pairStatusBody_reacts (s : State) (q : Request) (t : Nat) : Reacts calm hold recount clear s.vital ((pairStatusBody s q t).vital s) := by
  simp [pairStatusBody]

@[simp] theorem pairJoinBody_reacts (s : State) (q : Request) (t : Nat) : Reacts calm hold recount clear s.vital ((pairJoinBody s q t).vital s) := by
  simp [pairJoinBody]

@[simp] theorem gripReleaseBody_reacts (s : State) (q : Request) (t : Nat) : Reacts calm hold recount clear s.vital ((gripReleaseBody s q t).vital s) := by
  simp [gripReleaseBody]

@[simp] theorem followTime_vital (s : State) (f : PartnerFrame) :
    Carries calm hold recount clear s (followTime s f) := carry <| by
  unfold followTime; repeat' split
  all_goals simp

@[simp] theorem stepJoin_vital (s : State) (f : PartnerFrame) : (stepJoin s f).vital = s.vital := by
  unfold stepJoin; dsimp only; repeat' split
  all_goals simp

@[simp] theorem heardDivergence_vital (s : State) (f : PartnerFrame) :
    Carries calm hold recount clear s (heardDivergence s f) := carry <| by
  unfold heardDivergence; split <;> simp

@[simp] theorem answerFrame_vital (s : State) : (answerFrame s).vital = s.vital := by
  simp [answerFrame]

@[simp] theorem settleAxes_vital (s : State) :
    Carries calm hold recount clear s (settleAxes s) := carry <| by
  unfold settleAxes; split <;> simp

@[simp] theorem measureTie_vital (port : Port) (f : Bytes) (s : State) : (measureTie port f s).vital = s.vital := by
  simp [measureTie]

@[simp] theorem shadowBurst_vital (r k : Nat) (f : Bytes) (s : State) :
    Carries calm hold recount clear s (shadowBurst r k f s) := carry <| by
  simp [shadowBurst]

end Sys2Proof.Machine
end

