-- ==== Sys2Proof/Proofs/VitalRows.lean ====
section
/-! What the rows keep that change the device state by a reaction alone. -/

namespace Sys2Proof.Machine

variable {calm hold recount clear : Bool} {u v w v₀ : Vital}

/-- What an outcome keeps of the state begun with, where it is a next state. -/
def Out.reacts (calm hold recount clear : Bool) (v : Vital) : Out → Prop
  | .next t => Reacts calm hold recount clear v t.vital
  | _ => False

@[simp] theorem Out.reacts_next (t : State) : Out.reacts calm hold recount clear v (.next t) ↔ Reacts calm hold recount clear v t.vital := .rfl
@[simp] theorem Out.reacts_ite (p : Prop) [Decidable p] (a b : Out) : Out.reacts calm hold recount clear v (if p then a else b) ↔
    if p then Out.reacts calm hold recount clear v a else Out.reacts calm hold recount clear v b := by
  split <;> rfl

theorem next_of_reacts {o : Out} (h : Out.reacts calm hold recount clear v o) : ∃ t, o = .next t ∧ Reacts calm hold recount clear v t.vital := by
  cases o with
  | next t => exact ⟨t, rfl, h⟩
  | fault r => cases h
  | refused r => cases h

/-- A row that goes on at the axis a slot belongs to. -/
theorem Out.reacts_matchAxis (o : Option Nat) (f : Nat → Out) (d : Out) (hf : ∀ a, Out.reacts calm hold recount clear v (f a))
    (hd : Out.reacts calm hold recount clear v d) : Out.reacts calm hold recount clear v (match o with | some a => f a | none => d) := by
  cases o with
  | none => exact hd
  | some a => exact hf a

theorem hostAccess_reacts {f : State → State} (h : ∀ s, Reacts calm hold recount clear s.vital (f s).vital) (dt : Nat) (s : State) :
    Out.reacts calm hold recount clear s.vital (hostAccess dt f s) := by
  have hf := h (advance dt s)
  rw [advance_vital] at hf
  unfold hostAccess
  dsimp only
  split
  · exact hf
  · simp

/-- An engine's instruction changes that engine only. -/
theorem runRow_reacts (e : Nat) (op : EOp) (m1 m2 : Move) (s : State) : Out.reacts calm hold recount clear s.vital (runRow e op m1 m2 s) := by
  unfold runRow
  split <;> simp

/-! ### Rows of Machine/Motion -/

@[simp] theorem execHomingReferenceShift_reacts (dt : Nat) (axis : Nat) (s0 : State) :
    Out.reacts calm hold recount clear s0.vital (execHomingReferenceShift dt axis s0) := by
  unfold execHomingReferenceShift; dsimp only; repeat' split
  all_goals simp

@[simp] theorem execHomingNotFound_reacts (dt : Nat) (axis : Nat) (s0 : State) :
    Out.reacts calm hold recount clear s0.vital (execHomingNotFound dt axis s0) := by
  unfold execHomingNotFound; dsimp only; repeat' split
  all_goals simp

@[simp] theorem execHomingChatter_reacts (dt : Nat) (axis : Nat) (s0 : State) : Out.reacts calm hold recount clear s0.vital (execHomingChatter dt axis s0) := by
  unfold execHomingChatter; dsimp only; repeat' split
  all_goals simp

@[simp] theorem execMoveComplete_reacts (dt : Nat) (who : Mover) (s0 : State) : Out.reacts calm hold recount clear s0.vital (execMoveComplete dt who s0) := by
  unfold execMoveComplete; split <;> simp

@[simp] theorem execSwitchQualified_reacts (dt : Nat) (axis : Nat) (sw : Switch) (s0 : State) :
    Out.reacts calm hold recount clear s0.vital (execSwitchQualified dt axis sw s0) := by
  unfold execSwitchQualified; dsimp only; repeat' split
  all_goals simp

@[simp] theorem execStepperHoldDelayExpiry_reacts (dt : Nat) (axis : Nat) (s0 : State) :
    Out.reacts calm hold recount clear s0.vital (execStepperHoldDelayExpiry dt axis s0) := by
  unfold execStepperHoldDelayExpiry; dsimp only; repeat' split
  all_goals simp

@[simp] theorem execStepperWakeDone_reacts (dt : Nat) (axis : Nat) (s0 : State) :
    Out.reacts calm hold recount clear s0.vital (execStepperWakeDone dt axis s0) := by
  unfold execStepperWakeDone; dsimp only; repeat' split
  all_goals simp

/-! ### Rows of Machine/AxisCmd -/

@[simp] theorem execAxisEnabled_reacts (dt : Nat) (axis : Nat) (s0 : State) : Out.reacts calm hold recount clear s0.vital (execAxisEnabled dt axis s0) := by
  unfold execAxisEnabled; dsimp only; repeat' split
  all_goals simp

@[simp] theorem execAxisEnableTimeout_reacts (dt : Nat) (axis : Nat) (s0 : State) :
    Out.reacts calm hold recount clear s0.vital (execAxisEnableTimeout dt axis s0) := by
  unfold execAxisEnableTimeout; dsimp only; repeat' split
  all_goals simp

@[simp] theorem execBrakeEngageExpiry_reacts (dt : Nat) (axis : Nat) (s0 : State) :
    Out.reacts calm hold recount clear s0.vital (execBrakeEngageExpiry dt axis s0) := by
  unfold execBrakeEngageExpiry; dsimp only; repeat' split
  all_goals simp

@[simp] theorem execGearRampEnd_reacts (dt : Nat) (axis : Nat) (s0 : State) : Out.reacts calm hold recount clear s0.vital (execGearRampEnd dt axis s0) := by
  simp [execGearRampEnd]

@[simp] theorem execFeedbackLost_reacts (dt : Nat) (axis : Nat) (s0 : State) : Out.reacts false hold recount clear s0.vital (execFeedbackLost dt axis s0) := by
  simp [execFeedbackLost]

@[simp] theorem execFollowingError_reacts (dt : Nat) (axis : Nat) (s0 : State) :
    Out.reacts false hold recount clear s0.vital (execFollowingError dt axis s0) := by
  simp [execFollowingError]

/-! ### Rows of Machine/TimeCmd -/

@[simp] theorem execSlewDone_reacts (dt : Nat) (s0 : State) : Out.reacts calm hold recount clear s0.vital (execSlewDone dt s0) := by
  simp [execSlewDone]

@[simp] theorem execPtpMessageRx_reacts (dt : Nat) (m : PtpRx) (s0 : State) : Out.reacts calm hold recount clear s0.vital (execPtpMessageRx dt m s0) := by
  simp [execPtpMessageRx]

@[simp] theorem execPtpLost_reacts (dt : Nat) (port : Nat) (portState : Nat) (s0 : State) :
    Out.reacts calm hold recount clear s0.vital (execPtpLost dt port portState s0) := by
  simp [execPtpLost]

@[simp] theorem execPtpMessageTx_reacts (dt : Nat) (port : Nat) (kind : PtpKind) (req : Nat) (s0 : State) :
    Out.reacts calm hold recount clear s0.vital (execPtpMessageTx dt port kind req s0) := by
  unfold execPtpMessageTx; dsimp only; repeat' split
  all_goals simp

@[simp] theorem execPlantFrameRx_reacts (dt : Nat) (port : Nat) (s0 : State) : Out.reacts calm hold recount clear s0.vital (execPlantFrameRx dt port s0) := by
  simp [execPlantFrameRx]

@[simp] theorem execTimedFrameLaunch_reacts (port : Nat) (s0 : State) : Out.reacts calm hold recount clear s0.vital (execTimedFrameLaunch port s0) := by
  unfold execTimedFrameLaunch; split <;> simp

@[simp] theorem execToutPulse_reacts (out : Nat) (s0 : State) : Out.reacts calm hold recount clear s0.vital (execToutPulse out s0) := by
  simp [execToutPulse, -advanceTo_mem]

/-! ### Rows of Machine/Dma -/

@[simp] theorem execDmaEntryRead_reacts (dt : Nat) (ch : Nat) (entry : EntryRead) (s0 : State) :
    Out.reacts false hold recount clear s0.vital (execDmaEntryRead dt ch entry s0) := by
  simp [execDmaEntryRead]

@[simp] theorem execDmaBurst_reacts (dt : Nat) (ch : Nat) (data : Bytes) (read : BurstRead) (s0 : State) :
    Out.reacts false hold recount clear s0.vital (execDmaBurst dt ch data read s0) := by
  simp [execDmaBurst]

/-! ### Rows of Machine/LocalPwm -/

@[simp] theorem execPwmUpdatePoint_reacts (timer : Nat) (s0 : State) : Out.reacts calm hold recount clear s0.vital (execPwmUpdatePoint timer s0) := by
  simp [execPwmUpdatePoint]

@[simp] theorem execBootRefresh_reacts (dt : Nat) (pair : Nat) (s0 : State) : Out.reacts calm hold recount clear s0.vital (execBootRefresh dt pair s0) := by
  unfold execBootRefresh; dsimp only; repeat' split
  all_goals simp

@[simp] theorem execTripInput_reacts (dt : Nat) (input : Nat) (low : Bool) (s0 : State) :
    Out.reacts false hold recount clear s0.vital (execTripInput dt input low s0) := by
  simp [execTripInput]

/-! ### Rows of Machine/Calipers -/

@[simp] theorem execCalRow_reacts (dt : Nat) (run : Option (Bool × Nat)) (s0 : State) : Out.reacts calm hold recount clear s0.vital (execCalRow dt run s0) := by
  unfold execCalRow; dsimp only; repeat' split
  all_goals simp

@[simp] theorem execTrigBusEdge_reacts (dt : Nat) (line : Nat) (s0 : State) : Out.reacts calm hold recount clear s0.vital (execTrigBusEdge dt line s0) := by
  unfold execTrigBusEdge; dsimp only; repeat' split
  all_goals simp

@[simp] theorem execCalBusRetryWait_reacts (dt : Nat) (waitNs : Nat) (s0 : State) :
    Out.reacts calm hold recount clear s0.vital (execCalBusRetryWait dt waitNs s0) := by
  unfold execCalBusRetryWait; dsimp only; repeat' split
  all_goals simp

@[simp] theorem execCalNoEchoTimeout_reacts (dt : Nat) (s0 : State) : Out.reacts calm hold recount clear s0.vital (execCalNoEchoTimeout dt s0) := by
  unfold execCalNoEchoTimeout; dsimp only; repeat' split
  all_goals simp

@[simp] theorem execSyncClkEdge_reacts (dt : Nat) (s0 : State) : Out.reacts calm hold recount clear s0.vital (execSyncClkEdge dt s0) := by
  simp [execSyncClkEdge]

@[simp] theorem execSyncClkLost_reacts (dt : Nat) (s0 : State) : Out.reacts calm hold recount clear s0.vital (execSyncClkLost dt s0) := by
  unfold execSyncClkLost; dsimp only; repeat' split
  all_goals simp

/-! ### Rows of Machine/LocalIn -/

@[simp] theorem execEncCountEdge_reacts (dt : Nat) (ch : Nat) (a0 b0 : Bool) (s0 : State) :
    Out.reacts false hold recount clear s0.vital (execEncCountEdge dt ch a0 b0 s0) := by
  simp [execEncCountEdge]

@[simp] theorem execEncIllegalTransition_reacts (dt : Nat) (ch : Nat) (s0 : State) :
    Out.reacts false hold recount clear s0.vital (execEncIllegalTransition dt ch s0) := by
  simp [execEncIllegalTransition]

@[simp] theorem execEncWireFault_reacts (dt : Nat) (ch : Nat) (w : WirePair) (s0 : State) :
    Out.reacts false hold recount clear s0.vital (execEncWireFault dt ch w s0) := by
  simp [execEncWireFault]

@[simp] theorem execEncIndexEvent_reacts (dt : Nat) (z : ZLevel) (s0 : State) : Out.reacts false hold recount clear s0.vital (execEncIndexEvent dt z s0) := by
  unfold execEncIndexEvent; dsimp only; repeat' split
  all_goals simp

@[simp] theorem execSsiExchangeDone_reacts (dt : Nat) (ch : Nat) (frame : Nat) (lowAtStart : Bool) (s0 : State) :
    Out.reacts calm hold recount clear s0.vital (execSsiExchangeDone dt ch frame lowAtStart s0) := by
  unfold execSsiExchangeDone; dsimp only; repeat' split
  all_goals simp

@[simp] theorem execAdcTrigger_reacts (dt : Nat) (inj : Bool) (i : Nat) (s0 : State) :
    Out.reacts calm hold recount clear s0.vital (execAdcTrigger dt inj i s0) := by
  unfold execAdcTrigger; dsimp only; repeat' split
  all_goals simp

@[simp] theorem execAdcConversionDone_reacts (dt : Nat) (inj : Bool) (i : Nat) (code : Int) (s0 : State) :
    Out.reacts calm hold recount clear s0.vital (execAdcConversionDone dt inj i code s0) := by
  unfold execAdcConversionDone
  dsimp only
  split
  · simp
  · split
    · simp
    · split
      · simp
      · split <;> simp

@[simp] theorem execSlotSample_reacts (slot : Nat) (s0 : State) : Out.reacts calm hold recount clear s0.vital (execSlotSample slot s0) := by
  unfold execSlotSample
  extract_lets t j
  split
  · simp
  split
  extract_lets ahead mid s s1 s2 s3
  have h3 : Reacts calm hold recount clear s0.vital s3.vital := by simp [s3, s2, s1, s]
  clear_value s3 mid
  split
  · simp
  split
  · simp [s]
  refine Out.reacts_matchAxis _ _ _ (fun ax => ?_) h3
  extract_lets src s4
  have h4 : Reacts calm hold recount clear s0.vital s4.vital := by
    unfold s4
    generalize ainAt s3 src mid = r
    cases r with
    | none => exact h3
    | some v => exact h3
  clear_value s4
  split <;> simp [h4]

@[simp] theorem execDinRawEdge_reacts (dt : Nat) (n : Nat) (level : Bool) (s0 : State) :
    Out.reacts calm hold recount clear s0.vital (execDinRawEdge dt n level s0) := by
  simp [execDinRawEdge]

@[simp] theorem execProbeEdge_reacts (dt : Nat) (n : Nat) (rising : Bool) (s0 : State) :
    Out.reacts calm hold recount clear s0.vital (execProbeEdge dt n rising s0) := by
  simp [execProbeEdge]

@[simp] theorem execAdcRefReady_reacts (dt : Nat) (s0 : State) : Out.reacts calm hold recount clear s0.vital (execAdcRefReady dt s0) := by
  simp [execAdcRefReady]

@[simp] theorem execAdcCalibrateDone_reacts (dt : Nat) (factors : List CoreFactors) (s0 : State) :
    Out.reacts calm hold recount clear s0.vital (execAdcCalibrateDone dt factors s0) := by
  unfold execAdcCalibrateDone; dsimp only; repeat' split
  all_goals simp

@[simp] theorem execAdcLiveCalStart_reacts (dt : Nat) (s0 : State) : Out.reacts calm hold recount clear s0.vital (execAdcLiveCalStart dt s0) := by
  unfold execAdcLiveCalStart; dsimp only; repeat' split
  all_goals simp

@[simp] theorem execAdcLiveCalDone_reacts (dt : Nat) (f : CoreFactors) (s0 : State) :
    Out.reacts calm hold recount clear s0.vital (execAdcLiveCalDone dt f s0) := by
  unfold execAdcLiveCalDone; dsimp only; repeat' split
  all_goals simp

/-! ### Rows of Machine/Diag -/

@[simp] theorem execShavingsCommitDone_reacts (dt : Nat) (s0 : State) : Out.reacts calm hold recount clear s0.vital (execShavingsCommitDone dt s0) := by
  unfold execShavingsCommitDone; dsimp only; repeat' split
  all_goals simp

/-! ### Rows of Machine/Safety -/

@[simp] theorem execSafetyVectorExchange_reacts (dt : Nat) (vectors : VectorRead) (s0 : State) :
    Out.reacts false true recount clear s0.vital (execSafetyVectorExchange dt vectors s0) := by
  unfold execSafetyVectorExchange; repeat' split
  all_goals simp

@[simp] theorem execSafetyVectorMissing_reacts (dt : Nat) (s0 : State) : Out.reacts false hold recount clear s0.vital (execSafetyVectorMissing dt s0) := by
  simp [execSafetyVectorMissing]

@[simp] theorem execSinChange_reacts (dt : Nat) (n : Nat) (new1 new2 : Bool) (s0 : State) :
    Out.reacts calm true recount clear s0.vital (execSinChange dt n new1 new2 s0) := by
  simp [execSinChange]

@[simp] theorem execSinDiscrepancy_reacts (dt : Nat) (pair : Nat) (s0 : State) :
    Out.reacts calm true recount clear s0.vital (execSinDiscrepancy dt pair s0) := by
  simp [execSinDiscrepancy]

@[simp] theorem execQualifiedReset_reacts (dt : Nat) (s0 : State) : Out.reacts calm hold recount clear s0.vital (execQualifiedReset dt s0) := by
  simp [execQualifiedReset]

@[simp] theorem execSs1TimeExpiry_reacts (dt : Nat) (fn : Nat) (s0 : State) : Out.reacts calm hold recount clear s0.vital (execSs1TimeExpiry dt fn s0) := by
  simp [execSs1TimeExpiry]

@[simp] theorem execTestPulse_reacts (dt : Nat) (out : Nat) (readsOff : Bool) (s0 : State) :
    Out.reacts calm true recount clear s0.vital (execTestPulse dt out readsOff s0) := by
  simp [execTestPulse]

@[simp] theorem execOutputFault_reacts (dt : Nat) (out : Nat) (cause : Nat) (s0 : State) :
    Out.reacts calm true recount clear s0.vital (execOutputFault dt out cause s0) := by
  simp [execOutputFault]

@[simp] theorem execSafeMsgTx_reacts (dt : Nat) (conn : Nat) (agree : Bool) (s0 : State) :
    Out.reacts false hold recount clear s0.vital (execSafeMsgTx dt conn agree s0) := by
  simp [execSafeMsgTx]

@[simp] theorem execSafeEchoRx_reacts (dt : Nat) (conn : Nat) (msg : Bytes) (s0 : State) :
    Out.reacts calm true recount clear s0.vital (execSafeEchoRx dt conn msg s0) := by
  simp [execSafeEchoRx]

@[simp] theorem execSafeConnWatchdogExpiry_reacts (dt : Nat) (conn : Nat) (s0 : State) :
    Out.reacts calm true recount clear s0.vital (execSafeConnWatchdogExpiry dt conn s0) := by
  simp [execSafeConnWatchdogExpiry]

/-! ### Rows of Machine/LawCmd -/

@[simp] theorem execLawLoadDone_reacts (dt : Nat) (s0 : State) : Out.reacts calm hold recount clear s0.vital (execLawLoadDone dt s0) := by
  unfold execLawLoadDone; dsimp only; repeat' split
  all_goals simp

@[simp] theorem execDebugHaltRequest_reacts (dt : Nat) (target : HaltTarget) (s0 : State) :
    Out.reacts calm hold recount clear s0.vital (execDebugHaltRequest dt target s0) := by
  unfold execDebugHaltRequest; split <;> simp

@[simp] theorem execDebugSingleStep_reacts (dt : Nat) (engine : Nat) (s0 : State) :
    Out.reacts calm hold recount clear s0.vital (execDebugSingleStep dt engine s0) := by
  simp [execDebugSingleStep]

@[simp] theorem execDebugResume_reacts (dt : Nat) (target : HaltTarget) (s0 : State) :
    Out.reacts false hold recount clear s0.vital (execDebugResume dt target s0) := by
  unfold execDebugResume; split <;> simp

@[simp] theorem execClockHalted_reacts (dt : Nat) (s0 : State) : Out.reacts false hold recount clear s0.vital (execClockHalted dt s0) := by
  simp [execClockHalted]

/-! ### Rows of Machine/Truing -/

@[simp] theorem execTruingPassStart_reacts (dt : Nat) (s0 : State) : Out.reacts calm hold recount clear s0.vital (execTruingPassStart dt s0) := by
  simp [execTruingPassStart]

@[simp] theorem execAvsReadback_reacts (dt : Nat) (mv : Nat) (s0 : State) : Out.reacts calm hold recount clear s0.vital (execAvsReadback dt mv s0) := by
  unfold execAvsReadback; dsimp only; repeat' split
  all_goals simp

/-! ### Rows of Machine/Power -/

@[simp] theorem execHostWatchdogExpiry_reacts (dt : Nat) (s0 : State) : Out.reacts calm true recount clear s0.vital (execHostWatchdogExpiry dt s0) := by
  unfold execHostWatchdogExpiry; dsimp only; repeat' split
  all_goals simp

@[simp] theorem execPcieLinkReset_reacts (dt : Nat) (linkUp : Bool) (s0 : State) :
    Out.reacts calm hold recount clear s0.vital (execPcieLinkReset dt linkUp s0) := by
  simp [execPcieLinkReset]

@[simp] theorem execBootFault_reacts (dt : Nat) (cause : Nat) (s0 : State) : Out.reacts calm hold recount clear s0.vital (execBootFault dt cause s0) := by
  simp [execBootFault]

/-! ### Rows of Machine/System -/

@[simp] theorem execPowerDomainSwitched_reacts (dt : Nat) (domain : Nat) (s0 : State) :
    Out.reacts calm hold recount clear s0.vital (execPowerDomainSwitched dt domain s0) := by
  unfold execPowerDomainSwitched; dsimp only; repeat' split
  all_goals simp

@[simp] theorem execPdHoldMaxExpiry_reacts (dt : Nat) (s0 : State) : Out.reacts calm hold recount clear s0.vital (execPdHoldMaxExpiry dt s0) := by
  simp [execPdHoldMaxExpiry]

@[simp] theorem execFwStageCommitDone_reacts (dt : Nat) (target : Nat) (s0 : State) :
    Out.reacts calm hold recount clear s0.vital (execFwStageCommitDone dt target s0) := by
  unfold execFwStageCommitDone; dsimp only; repeat' split
  all_goals simp

/-! ### Rows of Machine/Host -/

@[simp] theorem execNotifyPost_reacts (dt : Nat) (s : State) : Out.reacts calm hold recount clear s.vital (execNotifyPost dt s) := by
  simp [execNotifyPost]

@[simp] theorem execMbReqWrite_reacts (dt : Nat) (mb : Nat) (tail : BitVec 16) (s : State) :
    Out.reacts calm hold recount clear s.vital (execMbReqWrite dt mb tail s) :=
  hostAccess_reacts (fun s => by simp) dt s

@[simp] theorem execMbRspWrite_reacts (dt : Nat) (mb : Nat) (head : BitVec 16) (s : State) :
    Out.reacts calm hold recount clear s.vital (execMbRspWrite dt mb head s) :=
  hostAccess_reacts (fun s => by simp) dt s

@[simp] theorem execMbStatWrite_reacts (dt : Nat) (mb : Nat) (value : BitVec 32) (s : State) :
    Out.reacts calm hold recount clear s.vital (execMbStatWrite dt mb value s) :=
  hostAccess_reacts (fun s => by simp) dt s

@[simp] theorem execTunnelTxSlot_reacts (dt : Nat) (ring : Nat) (tail : BitVec 16) (s : State) :
    Out.reacts calm hold recount clear s.vital (execTunnelTxSlot dt ring tail s) :=
  hostAccess_reacts (fun s => by simp) dt s

@[simp] theorem execTunRxHeadWrite_reacts (dt : Nat) (ring : Nat) (head : BitVec 16) (s : State) :
    Out.reacts calm hold recount clear s.vital (execTunRxHeadWrite dt ring head s) :=
  hostAccess_reacts (fun s => by simp) dt s

@[simp] theorem execTunStatRead_reacts (dt : Nat) (ring : Nat) (s : State) : Out.reacts calm hold recount clear s.vital (execTunStatRead dt ring s) :=
  hostAccess_reacts (fun s => by split <;> simp) dt s

@[simp] theorem execHostHeartbeat_reacts (dt : Nat) (value : BitVec 32) (s : State) :
    Out.reacts calm hold recount clear s.vital (execHostHeartbeat dt value s) :=
  hostAccess_reacts (fun s => by simp) dt s

@[simp] theorem execTimeNsRead_reacts (dt : Nat) (s : State) : Out.reacts calm hold recount clear s.vital (execTimeNsRead dt s) :=
  hostAccess_reacts (fun s => by simp) dt s

@[simp] theorem execEvStatusWrite_reacts (dt : Nat) (n : Nat) (value : BitVec 32) (s : State) :
    Out.reacts calm hold recount clear s.vital (execEvStatusWrite dt n value s) :=
  hostAccess_reacts (fun s => by simp) dt s

@[simp] theorem execBar2Write_reacts (dt : Nat) (offset : Nat) (data : Bytes) (s : State) :
    Out.reacts calm hold recount clear s.vital (execBar2Write dt offset data s) :=
  hostAccess_reacts (fun s => by simp) dt s

/-! ### Rows of Machine/RingSvc -/

@[simp] theorem execTruingPassEnd_reacts (dt : Nat) (r : TruingReadings) (s0 : State) :
    Out.reacts calm hold recount clear s0.vital (execTruingPassEnd dt r s0) := by
  simp [execTruingPassEnd]

@[simp] theorem execEnumFrameReturn_reacts (dt : Nat) (ring : Nat) (port : Port) (frame : Bytes) (s0 : State) :
    Out.reacts calm hold recount clear s0.vital (execEnumFrameReturn dt ring port frame s0) := by
  unfold execEnumFrameReturn; dsimp only; repeat' split
  all_goals simp

@[simp] theorem execEnumTimeout_reacts (dt : Nat) (ring : Nat) (s0 : State) : Out.reacts calm hold recount clear s0.vital (execEnumTimeout dt ring s0) := by
  unfold execEnumTimeout; dsimp only; repeat' split
  all_goals simp

@[simp] theorem execAcyclicFrameTx_reacts (dt : Nat) (ring : Nat) (s0 : State) :
    Out.reacts calm hold recount clear s0.vital (execAcyclicFrameTx dt ring s0) := by
  unfold execAcyclicFrameTx; dsimp only; repeat' split
  all_goals simp

@[simp] theorem execAcyclicFrameRx_reacts (dt : Nat) (ring : Nat) (port : Port) (frame : Bytes) (s0 : State) :
    Out.reacts calm hold recount clear s0.vital (execAcyclicFrameRx dt ring port frame s0) := by
  simp [execAcyclicFrameRx]

@[simp] theorem execAcyclicResponseTimeout_reacts (dt : Nat) (node : Nat) (s0 : State) :
    Out.reacts calm hold recount clear s0.vital (execAcyclicResponseTimeout dt node s0) := by
  unfold execAcyclicResponseTimeout; dsimp only; repeat' split
  all_goals simp

/-! ### Rows of Machine/RingRx -/

@[simp] theorem execUpFrameRx_reacts (dt : Nat) (ring : Nat) (port : Port) (frame : Bytes) (s0 : State) :
    Out.reacts false hold recount clear s0.vital (execUpFrameRx dt ring port frame s0) := by
  unfold execUpFrameRx; dsimp only; repeat' split
  all_goals simp

@[simp] theorem execGatherDeadline_reacts (dt : Nat) (ring : Nat) (s0 : State) :
    Out.reacts calm hold recount clear s0.vital (execGatherDeadline dt ring s0) := by
  simp [execGatherDeadline]

@[simp] theorem execNodeLost_reacts (dt : Nat) (node : Nat) (s0 : State) : Out.reacts false hold recount clear s0.vital (execNodeLost dt node s0) := by
  unfold execNodeLost; dsimp only; repeat' split
  all_goals simp

@[simp] theorem execBurstClosureRx_reacts (dt : Nat) (ring : Nat) (port : Port) (frame : Bytes) (s0 : State) :
    Out.reacts calm hold recount clear s0.vital (execBurstClosureRx dt ring port frame s0) := by
  simp [execBurstClosureRx]

@[simp] theorem execLaneSignalLoss_reacts (dt : Nat) (ring : Nat) (hop : Nat) (dir : BreakDir) (s0 : State) :
    Out.reacts calm hold recount clear s0.vital (execLaneSignalLoss dt ring hop dir s0) := by
  simp [execLaneSignalLoss]

@[simp] theorem execRingClosed_reacts (dt : Nat) (ring : Nat) (s0 : State) : Out.reacts calm hold recount clear s0.vital (execRingClosed dt ring s0) := by
  simp [execRingClosed]

/-! ### Rows of Machine/Gear -/

@[simp] theorem execStreamLost_reacts (dt : Nat) (axis : Nat) (s0 : State) : Out.reacts false hold recount clear s0.vital (execStreamLost dt axis s0) := by
  simp [execStreamLost]

/-! ### Rows of Machine/Tasks -/

@[simp] theorem execTaskReady_reacts (dt : Nat) (task : Nat) (s0 : State) : Out.reacts calm hold recount clear s0.vital (execTaskReady dt task s0) := by
  unfold execTaskReady; dsimp only; repeat' split
  all_goals simp

@[simp] theorem execTaskDispatch_reacts (dt : Nat) (read : PrefetchRead) (s0 : State) :
    Out.reacts false hold recount clear s0.vital (execTaskDispatch dt read s0) := by
  unfold execTaskDispatch; dsimp only; repeat' split
  all_goals simp

@[simp] theorem execTaskComplete_reacts (dt : Nat) (read : EngineRead) (clocks : Nat) (s0 : State) :
    Out.reacts false hold recount clear s0.vital (execTaskComplete dt read clocks s0) := by
  unfold execTaskComplete; dsimp only; repeat' split
  all_goals simp

@[simp] theorem execTaskOverrun_reacts (dt : Nat) (engine : Nat) (s0 : State) : Out.reacts false hold recount clear s0.vital (execTaskOverrun dt engine s0) := by
  unfold execTaskOverrun; dsimp only; repeat' split
  all_goals simp

@[simp] theorem execLawFault_reacts (dt : Nat) (engine : Nat) (code : Nat) (s0 : State) :
    Out.reacts false hold recount clear s0.vital (execLawFault dt engine code s0) := by
  unfold execLawFault; dsimp only; repeat' split
  all_goals simp

@[simp] theorem execEngineFault_reacts (dt : Nat) (engine : Nat) (s0 : State) : Out.reacts false hold recount clear s0.vital (execEngineFault dt engine s0) := by
  simp [execEngineFault]

@[simp] theorem execEngineStall_reacts (dt : Nat) (engine : Nat) (s0 : State) : Out.reacts false hold recount clear s0.vital (execEngineStall dt engine s0) := by
  unfold execEngineStall; dsimp only; repeat' split
  all_goals simp

@[simp] theorem execEngineTestDone_reacts (dt : Nat) (engine : Nat) (pass : Bool) (s0 : State) :
    Out.reacts calm hold recount clear s0.vital (execEngineTestDone dt engine pass s0) := by
  simp [execEngineTestDone]

@[simp] theorem execBundleDeadlineFail_reacts (dt : Nat) (bundle : Nat) (s0 : State) :
    Out.reacts calm hold recount clear s0.vital (execBundleDeadlineFail dt bundle s0) := by
  unfold execBundleDeadlineFail; dsimp only; repeat' split
  all_goals simp

@[simp] theorem execOutputMissed_reacts (dt : Nat) (axis : Nat) (s0 : State) : Out.reacts false hold recount clear s0.vital (execOutputMissed dt axis s0) := by
  simp [execOutputMissed]

@[simp] theorem execBundleFailed_reacts (dt : Nat) (bundle : Nat) (s0 : State) :
    Out.reacts false hold recount clear s0.vital (execBundleFailed dt bundle s0) := by
  unfold execBundleFailed; dsimp only; repeat' split
  all_goals simp

/-! ### Rows of Machine/Cycle -/

@[simp] theorem execPlanVerifyDone_reacts (dt : Nat) (s0 : State) : Out.reacts false hold recount clear s0.vital (execPlanVerifyDone dt s0) := by
  unfold execPlanVerifyDone; dsimp only; repeat' split
  all_goals simp

@[simp] theorem execPlanSwitch_reacts (s : State) : Out.reacts false true recount clear s.vital (execPlanSwitch s) := by
  unfold execPlanSwitch; split <;> simp

/-! ### Rows of Machine/Burst -/

@[simp] theorem execBurstLaunch_reacts (dt : Nat) (ring : Nat) (k : Nat) (s0 : State) :
    Out.reacts calm hold recount clear s0.vital (execBurstLaunch dt ring k s0) := by
  unfold execBurstLaunch; dsimp only; repeat' split
  all_goals simp

@[simp] theorem execPiInputPublish_reacts (dt : Nat) (s0 : State) :
    Out.reacts calm hold recount clear s0.vital (execPiInputPublish dt s0) := by
  have h := advance_vital dt s0
  unfold execPiInputPublish
  dsimp only
  split
  · simp only [Out.reacts_next, writePiHead_vital]
    rw [← h]
    exact .inl (Reacts.sram (v := (advance dt s0).vital) fun h => wf_memPaste _ _ h (wf_cellsFrom ..))
  · simp

@[simp] theorem execOutputSnapshot_reacts (s : State) : Out.reacts calm hold recount clear s.vital (execOutputSnapshot s) := by
  unfold execOutputSnapshot; split <;> simp

/-! ### Rows of Machine/Jtag -/

@[simp] theorem execBoundaryScanInstruction_reacts (dt : Nat) (instr : JtagInstr) (cells : List (Nat × Bool)) (s0 : State) :
    Out.reacts calm hold recount clear s0.vital (execBoundaryScanInstruction dt instr cells s0) := by
  unfold execBoundaryScanInstruction; dsimp only; repeat' split
  all_goals simp

/-! ### Rows of Machine/Tick -/

/-- The time of the next tick has come. -/
def atTick (s : State) : State := stressSync (advanceTo (tickU s.cyc.rate (s.cyc.tick + 1)) s)

/-- The cycle that ends before tick `n` is closed, and an armed switch due at it is made. -/
def endedCycle (n : Nat) (s : State) : State :=
  let u := tickInputs s
  let a := if u.cyc.closed then u.onPair (fun p => { p with skipped := p.skipped + p.shadow.length, shadow := [] }) else settleShadow u
  let a1 := if a.plan.armed = some n then dueSwitch n a else a
  if a1.cyc.closed then a1 else endOfCycle a1

/-- The next cycle of the state `b` begins. -/
def nextCycle (n : Nat) (b : State) : State :=
  { b with cyc := { b.cyc with
    tick := n, t0 := tickU b.cyc.rate n, count := b.cyc.count + 1, bursts := [], published := false, closed := false } }

theorem execTick_eq (s : State) : execTick s =
    if !(atTick s).cyc.running || Nat.blt (atTick s).time.now (tickU (atTick s).cyc.rate (s.cyc.tick + 1)) then .next (atTick s)
    else .next (openCycle (atTick s).cyc.tick (atTick s).cyc.t0 (holdRow (nextCycle (s.cyc.tick + 1) (endedCycle (s.cyc.tick + 1) (atTick s))))) := by
  rfl

@[simp] theorem advanceTo_cyc (u : Nat) (s : State) : (advanceTo u s).cyc = s.cyc := by
  unfold advanceTo
  split
  · rfl
  · exact advance_cyc _ _

@[simp] theorem atTick_vital (s : State) : (atTick s).vital = s.vital :=
  (stressSync_vital _).trans (advanceTo_vital _ _)
@[simp] theorem atTick_cyc (s : State) : (atTick s).cyc = s.cyc :=
  (State.stressSync_cyc _).trans (advanceTo_cyc _ _)
theorem atTick_time (s : State) : (atTick s).time = (advanceTo (tickU s.cyc.rate (s.cyc.tick + 1)) s).time := State.stressSync_time _

@[simp] theorem endedCycle_vital (n : Nat) (s : State) : Carries false true recount clear s (endedCycle n s) := carry <| by
  simp [endedCycle]

theorem openNext_reacts (ended t0 n : Nat) (b : State) : Reacts false hold recount true
    { b.vital with clock := (b.cyc.running, b.cyc.rate, n, tickU b.cyc.rate n, b.cyc.count + 1) }
    (openCycle ended t0 (holdRow (nextCycle n b))).vital := by
  simp only [openCycle_vital, holdRow_vital]
  exact .inl .refl

/-- TICK opens the next cycle on the state that the cycle which ends leaves; before its time nothing happens. -/
theorem execTick_waits {s : State} (h : s.cyc.running = false ∨ (advanceTo (tickU s.cyc.rate (s.cyc.tick + 1)) s).time.now <
    tickU s.cyc.rate (s.cyc.tick + 1)) : execTick s = .next (atTick s) := by
  rw [execTick_eq, if_pos]
  rw [atTick_cyc, atTick_time]
  rcases h with h | h
  · rw [h]; rfl
  · rw [Nat.blt_eq.mpr h, Bool.or_true]

theorem execTick_opens {s : State} (hr : s.cyc.running = true)
    (hd : tickU s.cyc.rate (s.cyc.tick + 1) ≤ (advanceTo (tickU s.cyc.rate (s.cyc.tick + 1)) s).time.now) :
    execTick s =
      .next (openCycle s.cyc.tick s.cyc.t0 (holdRow (nextCycle (s.cyc.tick + 1) (endedCycle (s.cyc.tick + 1) (atTick s))))) := by
  rw [execTick_eq, atTick_cyc, atTick_time, if_neg]
  rw [hr, Bool.not_true, Bool.false_or]
  exact fun h => absurd (Nat.blt_eq.mp h) (Nat.not_lt.mpr hd)

@[simp] theorem execTick_reacts (s : State) : Out.reacts false true true true s.vital (execTick s) := by
  by_cases hr : s.cyc.running = true
  · by_cases hd : tickU s.cyc.rate (s.cyc.tick + 1) ≤ (advanceTo (tickU s.cyc.rate (s.cyc.tick + 1)) s).time.now
    · have hb : Reacts false true true true s.vital (endedCycle (s.cyc.tick + 1) (atTick s)).vital := by simp
      rw [execTick_opens hr hd]
      exact (hb.trans (Reacts.recounts id)).trans (openNext_reacts ..)
    · rw [execTick_waits (.inr (Nat.not_le.mp hd))]
      simp
  · rw [execTick_waits (.inl (Bool.eq_false_iff.mpr hr))]
    simp

/-! ### Rows of Machine/Pair -/

@[simp] theorem execPairIdentityTimeout_reacts (dt : Nat) (s0 : State) : Out.reacts calm hold recount clear s0.vital (execPairIdentityTimeout dt s0) := by
  unfold execPairIdentityTimeout; dsimp only; repeat' split
  all_goals simp

@[simp] theorem execPairResyncTimeout_reacts (dt : Nat) (s0 : State) : Out.reacts calm hold recount clear s0.vital (execPairResyncTimeout dt s0) := by
  unfold execPairResyncTimeout; dsimp only; repeat' split
  all_goals simp

@[simp] theorem execMirrorTimeFrameRx_reacts (dt : Nat) (frame : Bytes) (s0 : State) :
    Out.reacts calm hold recount clear s0.vital (execMirrorTimeFrameRx dt frame s0) := by
  simp [execMirrorTimeFrameRx]

@[simp] theorem execMirrorStreamComplete_reacts (dt : Nat) (st : MirrorStream) (s0 : State) :
    Out.reacts calm hold recount clear s0.vital (execMirrorStreamComplete dt st s0) := by
  simp [execMirrorStreamComplete]

@[simp] theorem execMirrorLost_reacts (dt : Nat) (s0 : State) : Out.reacts calm hold recount clear s0.vital (execMirrorLost dt s0) := by
  simp [execMirrorLost]

@[simp] theorem execMirrorBulkFrameRx_reacts (dt : Nat) (items : List MirrorItem) (s0 : State) :
    Out.reacts calm hold recount clear s0.vital (execMirrorBulkFrameRx dt items s0) := by
  unfold execMirrorBulkFrameRx; dsimp only; repeat' split
  all_goals simp

@[simp] theorem execGrantRecordRx_reacts (dt : Nat) (record : Bytes) (s0 : State) :
    Out.reacts calm hold recount clear s0.vital (execGrantRecordRx dt record s0) := by
  simp [execGrantRecordRx]

@[simp] theorem execRequestBurst_reacts (dt : Nat) (s0 : State) : Out.reacts calm hold recount clear s0.vital (execRequestBurst dt s0) := by
  simp [execRequestBurst]

@[simp] theorem execForwardedBurstCopy_reacts (dt : Nat) (ring : Nat) (port : Port) (frame : Bytes) (s0 : State) :
    Out.reacts calm hold recount clear s0.vital (execForwardedBurstCopy dt ring port frame s0) := by
  simp [execForwardedBurstCopy]

end Sys2Proof.Machine
end

