-- ==== Sys2Proof/Proofs/DeviceStates.lean ====
section
/-! The rows that change the device state otherwise, and with them every step: O3, O4 and O5. -/

namespace Sys2Proof.Machine

variable {calm hold recount clear : Bool} {u v w : Vital} {m : DevMode}

/-! ### Where a row may go -/

/-- A start waits for its first tick only in CONFIG, and SAFE_HOLD keeps the state to return to. -/
def Vital.steady (v : Vital) : Prop :=
  (v.first ≠ none → v.mode = .config) ∧ (v.mode = .safeHold → v.held = .preop ∨ v.held = .operational)

/-- What every row keeps: canonical memories, and a device state that stays or moves by a transition of R29. -/
structure Goes (v w : Vital) : Prop where
  wf : v.wf → w.wf
  steady : v.steady → w.steady
  mode : v.steady → w.mode = v.mode ∨ moves v.mode w.mode = true

/-- The work of the units in general. -/
abbrev Works (v w : Vital) : Prop := Reacts false true true true v w

theorem Vital.steady_of_first {v : Vital} (hf : v.first = none) (hm : v.mode ≠ .safeHold) : v.steady :=
  ⟨fun k => absurd hf k, fun k => absurd k hm⟩

theorem Vital.steady.first {v : Vital} (h : v.steady) (hm : v.mode ≠ .config) : v.first = none :=
  Classical.not_not.mp fun k => hm (h.1 k)

theorem Drifts.steady (h : Drifts calm hold v w) (hv : v.steady) : w.steady := by
  rcases h with ⟨hm, hh, hf⟩ | ⟨-, hm, hf, -⟩ | ⟨-, hm, hh, hf, hc⟩
  · refine ⟨fun k => hm.trans (hv.1 (k ∘ hf)), fun k => ?_⟩
    rw [hh]
    exact hv.2 (hm.symm.trans k)
  · exact Vital.steady_of_first hf (by simp [hm])
  · exact ⟨fun k => absurd hf k, fun _ => hh ▸ hc⟩

theorem Drifts.moves (h : Drifts calm hold v w) : w.mode = v.mode ∨ moves v.mode w.mode = true := by
  rcases h with ⟨hm, -, -⟩ | ⟨-, hm, -, hc⟩ | ⟨-, hm, -, -, hc⟩
  · exact .inl hm
  · refine .inr ?_
    rw [hm]
    cases hv : v.mode <;> simp_all [canFault, Machine.moves]
  · refine .inr ?_
    rw [hm]
    rcases hc with hc | hc <;> rw [hc] <;> rfl

theorem Reacts.goes (h : Reacts calm hold recount clear v w) : Goes v w := ⟨h.wf, h.drifts.steady, fun _ => h.drifts.moves⟩

/-- The causes of R30 do not enter. -/
theorem Goes.of_causes {c : List Nat × Bool × Bool} (h : Goes { v with causes := c } w) : Goes v w := ⟨h.wf, h.steady, h.mode⟩

theorem Drifts.first (h : Drifts calm hold v w) (hv : v.first = none) : w.first = none := by
  rcases h with ⟨-, -, hf⟩ | ⟨-, -, hf, -⟩ | ⟨-, -, -, hf, -⟩
  · exact hf hv
  · exact hf
  · exact hf

/-- Only PREOP and OPERATIONAL are left for SAFE_HOLD. -/
theorem Reacts.unheld (h : Reacts calm hold recount clear v w) (hp : v.mode ≠ .preop) (ho : v.mode ≠ .operational) :
    Reacts calm false recount clear v w := by
  refine ⟨h.wf, ?_, h.clock, h.raised, h.causes⟩
  rcases h.drifts with d | d | ⟨-, -, -, -, d⟩
  · exact .inl d
  · exact .inr (.inl d)
  · rcases d with d | d
    · exact absurd d hp
    · exact absurd d ho

/-- A change of the device state by a command or a tick, with the work of the units before it and after. -/
theorem goes_of_change (a : v.wf → u.wf) (h : Reacts calm false recount clear { u with mode := m } w) (hf : v.steady → u.first = none)
    (hv : v.steady → m ≠ .safeHold ∧ (m = v.mode ∨ moves v.mode m = true) ∧
      (canFault m = true → DevMode.fault = v.mode ∨ moves v.mode .fault = true)) : Goes v w := by
  refine ⟨h.wf ∘ a, fun k => h.drifts.steady (Vital.steady_of_first (hf k) (hv k).1), fun k => ?_⟩
  obtain ⟨-, hm, hc⟩ := hv k
  rcases h.drifts with ⟨d, -, -⟩ | ⟨-, d, -, e⟩ | ⟨e, -⟩
  · rw [d]
    exact hm
  · rw [d]
    exact hc e
  · cases e

/-- What is posted at the end of a row. -/
theorem Goes.post {s t : State} (h : Goes v s.vital) (k : Works s.vital t.vital) (hd : t.dev = s.dev) (hc : t.cyc = s.cyc) : Goes v t.vital := by
  have hmode : t.vital.mode = s.vital.mode := congrArg Dev.mode hd
  have hheld : t.vital.held = s.vital.held := congrArg Dev.held hd
  have hfirst : t.vital.first = s.vital.first := congrArg Cyc.first hc
  refine ⟨k.wf ∘ h.wf, fun e => ?_, fun e => hmode ▸ h.mode e⟩
  obtain ⟨h1, h2⟩ := h.steady e
  exact ⟨fun k => hmode.trans (h1 (hfirst ▸ k)), fun k => hheld ▸ h2 (hmode.symm.trans k)⟩

theorem Goes.respond {s : State} (h : Goes v s.vital) (code : Nat) (q : Request) (status stamp : Nat) (p : Bytes) :
    Goes v (respond s code q status stamp p).vital :=
  have ho := respond_outside s code q status stamp p
  h.post (by simp) (congrArg Outside.dev ho) (congrArg Outside.cyc ho)

theorem Goes.finish {s : State} (h : Goes v s.vital) (code key status : Nat) (p : Bytes) : Goes v (finish s code key status p).vital :=
  have ho := finish_outside s code key status p
  h.post (by simp) (congrArg Outside.dev ho) (congrArg Outside.cyc ho)

/-! ### Resets -/

/-- The device enters BOOT, STANDBY or OFF, where no start waits. -/
structure Enters (m : DevMode) (v w : Vital) : Prop where
  wf : v.wf → w.wf
  mode : w.mode = m
  first : w.first = none

/-- A state that a reset or the supplies lead to. -/
def resting : DevMode → Bool
  | .boot | .standby | .off => true
  | _ => false

theorem Enters.goes (h : Enters m v w) (hm : resting m = true) : Goes v w := by
  obtain ⟨hwf, rfl, hf⟩ := h
  have hs : w.mode ≠ .safeHold := fun k => by simp [k, resting] at hm
  refine ⟨hwf, fun _ => Vital.steady_of_first hf hs, fun _ => ?_⟩
  cases v.mode <;> cases hw : w.mode <;> simp_all [resting, moves]

theorem Reacts.enters (h : Reacts calm hold recount clear u v) (k : Enters m v w) : Enters m u w := ⟨k.wf ∘ h.wf, k.mode, k.first⟩

theorem Enters.reacts (h : Enters m u v) (hm : resting m = true) (k : Works v w) : Enters m u w := by
  obtain ⟨hwf, rfl, hf⟩ := h
  rcases k.drifts with ⟨km, -, kf⟩ | ⟨-, -, -, kc⟩ | ⟨-, -, -, -, kc⟩
  · exact ⟨k.wf ∘ hwf, km, kf hf⟩
  · cases hv : v.mode <;> simp_all [resting, canFault]
  · rcases kc with kc | kc <;> simp [kc, resting] at hm

theorem Enters.trans {m' : DevMode} (h : Enters m u v) (k : Enters m' v w) : Enters m' u w := ⟨k.wf ∘ h.wf, k.mode, k.first⟩

theorem afterReset_enters (m : DevMode) (source : Nat) (s : State) : Enters m s.vital (afterReset m source s).vital := by
  refine ⟨fun ⟨⟨ha, hr⟩, _⟩ => ⟨⟨wf_memWrite _ _ ha, hr⟩, rfl, ?_⟩, rfl, rfl⟩
  rintro m ⟨⟩

theorem enterBoot_enters (source : Nat) (s : State) : Enters .boot s.vital (enterBoot source s).vital := by
  have h : Works s.vital (finishCommit s).vital := by simp
  refine h.enters ?_
  unfold enterBoot
  generalize finishCommit s = t
  exact (afterReset_enters .boot source { t with time := { t.time with now := t.time.keeper * secU } }).reacts rfl (by simp)

theorem enterStandby_enters (s : State) : Enters .standby s.vital (enterStandby s).vital := by
  unfold enterStandby
  exact (afterReset_enters .standby s.power.resetSource { s with time := { s.time with now := max s.time.now (s.time.keeper * secU) } }).reacts
    rfl (by simp)

theorem enterOff_enters (s : State) : Enters .off s.vital (enterOff s).vital := by
  have h : Works s.vital (loseMemories s).vital := by simp
  exact h.enters (afterReset_enters .off s.power.resetSource (loseMemories s))

theorem watchdogReset_enters (s : State) : Enters .boot s.vital (watchdogReset s).vital := by
  unfold watchdogReset
  refine Reacts.enters (calm := false) (hold := true) (recount := true) (clear := true) ?_ (enterBoot_enters _ _)
  simp

theorem tryBoot_goes {s : State} (h : s.vital = v) : Goes v (tryBoot s).vital := by
  subst h
  unfold tryBoot
  split
  · exact (enterBoot_enters 1 s).goes rfl
  · exact (Reacts.refl : Works _ _).goes

/-- STANDBY, entered from OFF, where no start waits, and left at once where the rails stand. -/
theorem leaveOff_goes {s : State} (hv : v.mode = .off) (hs : s.vital = { v with mode := .standby }) : Goes v (tryBoot s).vital := by
  have h : Works { v with mode := .standby } s.vital := by rw [hs]
  unfold tryBoot
  split
  · exact Enters.goes ⟨(h.enters (enterBoot_enters 1 s)).wf, (enterBoot_enters 1 s).mode, (enterBoot_enters 1 s).first⟩ rfl
  · rw [hs]
    refine goes_of_change (u := v) (calm := false) (recount := true) (clear := true) id .refl (fun k => k.first (by rw [hv]; decide)) fun _ => ?_
    rw [hv]
    decide

/-! ### Outcomes -/

/-- Where an outcome goes. -/
def Out.goes (v : Vital) : Out → Prop
  | .next t => Goes v t.vital
  | _ => False

theorem Out.goes_of_reacts {o : Out} (h : o.reacts calm hold recount clear v) : o.goes v := by
  obtain ⟨t, rfl, ht⟩ := next_of_reacts h
  exact ht.goes

/-- A row that lets time pass first. -/
theorem goes_advance {s : State} {dt : Nat} {o : Out} (h : o.goes (advance dt s).vital) : o.goes s.vital := by
  rwa [advance_vital] at h

theorem Goes.refl (v : Vital) : Goes v v := (Reacts.refl : Works v v).goes

/-! ### Rows of the supplies and the resets -/

theorem execMainRailsValid_goes (dt : Nat) (s : State) : (execMainRailsValid dt s).goes s.vital := by
  refine goes_advance (dt := dt) ?_
  unfold execMainRailsValid
  generalize advance dt s = a
  dsimp only
  split
  · exact .of_causes (.refl _)
  · exact tryBoot_goes rfl

theorem execMainRailsLost_goes (dt : Nat) (s : State) : (execMainRailsLost dt s).goes s.vital := by
  refine goes_advance (dt := dt) ?_
  unfold execMainRailsLost
  generalize advance dt s = a
  dsimp only
  have h : Enters .standby a.vital (enterStandby (cutCommit { a with power := { a.power with railsValid := false } })).vital := by
    refine Reacts.enters (calm := false) (hold := true) (recount := true) (clear := true) ?_ (enterStandby_enters _)
    simp
  split
  · split
    · exact h.goes rfl
    · exact (h.trans (enterOff_enters _)).goes rfl
  · exact .refl _

theorem execAonSupplyLost_goes (dt : Nat) (s : State) : (execAonSupplyLost dt s).goes s.vital := by
  refine goes_advance (dt := dt) ?_
  unfold execAonSupplyLost
  generalize advance dt s = a
  dsimp only
  split
  · exact (enterOff_enters { a with power := { a.power with vaonMain := false, vbat := false } }).goes rfl
  · exact .refl _

theorem execAonSupplyApplied_goes (dt : Nat) (main : Bool) (s : State) : (execAonSupplyApplied dt main s).goes s.vital := by
  refine goes_advance (dt := dt) ?_
  unfold execAonSupplyApplied
  generalize advance dt s = a
  dsimp only
  split
  next h => exact leaveOff_goes h rfl
  · exact .refl _

theorem execAonSupplySwitch_goes (dt : Nat) (main : Bool) (s : State) : (execAonSupplySwitch dt main s).goes s.vital := by
  refine goes_advance (dt := dt) ?_
  unfold execAonSupplySwitch
  generalize advance dt s = a
  dsimp only
  split <;> exact .refl _

theorem execWake_goes (dt : Nat) (byPin : Bool) (s : State) : (execWake dt byPin s).goes s.vital := by
  refine goes_advance (dt := dt) ?_
  unfold execWake
  generalize advance dt s = a
  dsimp only
  split
  · exact tryBoot_goes rfl
  · exact .refl _

theorem execResetNAssert_goes (dt lowNs : Nat) (taken : Bool) (s : State) : (execResetNAssert dt lowNs taken s).goes s.vital := by
  refine goes_advance (dt := dt) ?_
  unfold execResetNAssert
  generalize advance dt s = a
  dsimp only
  split
  · exact .refl _
  · show Goes a.vital (if powered a then enterBoot 2 a else a).vital
    split
    · exact (enterBoot_enters 2 a).goes rfl
    · exact .refl _

theorem execResetRelease_goes (dt : Nat) (hostSel : Bool) (pairSel : Nat) (s : State) : (execResetRelease dt hostSel pairSel s).goes s.vital := by
  refine goes_advance (dt := dt) ?_
  unfold execResetRelease
  generalize advance dt s = a
  dsimp only
  split
  · exact .refl _
  · split
    · exact .refl _
    · exact tryBoot_goes rfl

theorem execSysWatchdogExpiry_goes (dt : Nat) (s : State) : (execSysWatchdogExpiry dt s).goes s.vital := by
  refine goes_advance (dt := dt) ?_
  unfold execSysWatchdogExpiry
  generalize advance dt s = a
  dsimp only
  split
  · exact (watchdogReset_enters a).goes rfl
  · exact .refl _

theorem execClockMonitor_goes (reading : ClockReading) (s : State) : (execClockMonitor reading s).goes s.vital := by
  refine goes_advance (dt := reading.dt) ?_
  unfold execClockMonitor
  generalize advance reading.dt s = a
  dsimp only
  split
  · exact .refl _
  · split
    · exact .of_causes (.refl _)
    · have h : Works { a.vital with causes := (a.dev.hwFaults, true, a.dev.powerFailing) }
          (clockTrips { a with dev := { a.dev with clockOff := true } }).vital := by
        simp only [clockTrips_vital]
        exact .inl .refl
      exact h.goes.of_causes

theorem failPower_goes (byPin : Bool) (s : State) : Goes s.vital (failPower byPin s).vital := by
  unfold failPower
  dsimp only
  split
  · refine Goes.of_causes (c := (s.dev.hwFaults, s.dev.clockOff, true)) (Reacts.goes (calm := false) (hold := true) (recount := true)
      (clear := true) ?_)
    simp only [abandonPass_vital, enterFault_vital, freezeRecord_vital, raiseOnly_vital]
    exact .inl (.inl (.inl .refl))
  · exact .refl _

theorem execPowerFail_goes (dt : Nat) (byPin : Bool) (s : State) : (execPowerFail dt byPin s).goes s.vital := by
  refine goes_advance (dt := dt) ?_
  show Goes _ (launchEnums _).vital
  rw [launchEnums_vital]
  exact failPower_goes byPin (advance dt s)

theorem execCycleHwFault_goes (dt cause : Nat) (s : State) : (execCycleHwFault dt cause s).goes s.vital := by
  refine goes_advance (dt := dt) ?_
  unfold execCycleHwFault
  generalize advance dt s = a
  dsimp only
  split
  · refine Goes.of_causes (c := (a.dev.hwFaults ++ [cause], a.dev.clockOff, a.dev.powerFailing)) (Reacts.goes (calm := false) (hold := true)
      (recount := true) (clear := true) ?_)
    simp only [stopConns_vital, breakCycle_vital, raiseDevice_vital]
    exact .inl (.inl (.inl .refl))
  · exact .refl _

theorem execSysReset_goes (dt : Nat) (q : Request) (s : State) : (execSysReset dt q s).goes s.vital := by
  have h : Works s.vital (serve Cmd.sysReset sysResetBody dt q s).vital := serve_reacts sysResetBody_reacts dt q s
  unfold execSysReset
  generalize serve Cmd.sysReset sysResetBody dt q s = t at h
  dsimp only
  split
  · refine (h.enters ?_ : Enters .boot _ _).goes rfl
    have hb := enterBoot_enters 4 (advance 40000 t)
    rwa [advance_vital] at hb
  · exact h.goes

theorem execSysStandby_goes (dt : Nat) (q : Request) (s : State) : (execSysStandby dt q s).goes s.vital := by
  have h : Works s.vital (serve Cmd.sysStandby sysStandbyBody dt q s).vital := serve_reacts sysStandbyBody_reacts dt q s
  unfold execSysStandby
  generalize serve Cmd.sysStandby sysStandbyBody dt q s = t at h
  dsimp only
  split
  · have hc : Works s.vital (finishCommit { t with power := { t.power with pwrEn := false } }).vital := by simp [h]
    exact (hc.enters (enterStandby_enters _)).goes rfl
  · exact h.goes

/-! ### Host accesses -/

/-- A host access either works on the device or restarts it (R357). -/
def Serves (v w : Vital) : Prop := Works v w ∨ Enters .boot v w

theorem Serves.trans (a : Serves u v) (b : Serves v w) : Serves u w := by
  rcases a with a | a <;> rcases b with b | b
  · exact .inl (a.trans b)
  · exact .inr (a.enters b)
  · exact .inr (a.reacts rfl b)
  · exact .inr (a.trans b)

theorem Serves.goes (a : Serves v w) : Goes v w := a.elim Reacts.goes (Enters.goes · rfl)

theorem writeControl_serves (s : State) (v : Nat) : Serves s.vital (writeControl s v).vital := by
  unfold writeControl
  dsimp only
  split
  · exact .inr (enterBoot_enters 4 { s with dev := { s.dev with irqMaster := bitOf v 0 } })
  · exact .inl .refl

theorem writeWord_serves (s : State) (o v : Nat) : Serves s.vital (writeWord s o v).vital := by
  unfold writeWord
  split
  · exact writeControl_serves s v
  · refine .inl ?_
    dsimp only
    repeat' split
    all_goals simp

theorem writeWords_serves (s : State) (o : Nat) (l : Bytes) : Serves s.vital (writeWords s o l).vital := by
  induction s, o, l using writeWords.induct with
  | case1 s o a b c d r ih => exact (writeWord_serves s o _).trans ih
  | case2 s o l h =>
    rw [writeWords]
    · exact .inl .refl
    · exact h

theorem writeBar0_serves (s : State) (o : Nat) (data : Bytes) : Serves s.vital (writeBar0 s o data).vital := by
  unfold writeBar0
  split
  · exact .inl (by simp)
  · split
    · exact writeWords_serves s o data
    · exact .inl .refl

theorem qspiWrite_serves (s : State) (addr : Nat) (data : Bytes) : Serves s.vital (qspiWrite s addr data).vital := by
  unfold qspiWrite
  split
  · exact .inl (by simp)
  · split
    · exact writeBar0_serves s addr data
    · exact .inl .refl

theorem qspiTransaction_serves (s : State) (c : List (BitVec 4)) : Serves s.vital (qspiTransaction s c).vital := by
  unfold qspiTransaction
  dsimp only
  split
  · exact .inl .refl
  · split
    · exact qspiWrite_serves s _ _
    · exact .inl (by simp)

theorem hostAccessAt_serves (s : State) (data : Bytes) (p : HostPlace) : Serves s.vital (hostAccessAt s data p).vital := by
  cases p with
  | bar0 o => exact writeBar0_serves s o data
  | config r => exact .inl (by simp [hostAccessAt])
  | qspi c => exact qspiTransaction_serves s c

theorem hostAccess_goes {f : State → State} (h : ∀ s, Serves s.vital (f s).vital) (dt : Nat) (s : State) : (hostAccess dt f s).goes s.vital := by
  refine goes_advance (dt := dt) ?_
  unfold hostAccess
  generalize advance dt s = a
  dsimp only
  split
  · exact (h a).goes
  · exact .refl _

theorem execMailboxCommandStart_goes (dt : Nat) (mail : MailRead) (s : State) : (execMailboxCommandStart dt mail s).goes s.vital := by
  refine goes_advance (dt := dt) ?_
  unfold execMailboxCommandStart
  generalize advance dt s = a
  dsimp only
  split
  · exact .refl _
  · split
    · have h : Works a.vital (eccDevice a).vital := by simp
      exact (h.enters (watchdogReset_enters _)).goes rfl
    · refine Out.goes_of_reacts (calm := false) (hold := true) (recount := true) (clear := true) ?_
      simp

/-! ### Commands that change the device state -/

/-- The states in which a command is taken (R371). -/
def takenIn (code : Nat) (m : DevMode) : Bool := (cmdRow code).any (fun r => bitOf r.states (modeCode m))

theorem takenIn_of_preCheck {s : State} {code len : Nat} {q : Request} (h : preCheck s code len q = none) : takenIn code s.dev.mode = true := by
  unfold preCheck at h
  unfold takenIn
  split at h
  · cases h
  next r hr =>
    rw [hr]
    simp only [Option.any_some]
    repeat' split at h
    all_goals simp_all

/-- A command goes where its body goes from the states in which it is taken. -/
theorem serve_goes {code : Nat} {body : State → Request → Nat → Reply}
    (h : ∀ s q t, takenIn code s.dev.mode = true → Goes s.vital ((body s q t).vital s)) (dt : Nat) (q : Request) (s : State) :
    Goes s.vital (serve code body dt q s).vital := by
  have hv (t : Nat) : (useStamp (noteRequest (advance dt s) code q) t).vital = s.vital := by simp
  unfold serve
  dsimp only
  generalize nextStamp _ = t
  split
  · exact (advance_vital dt s) ▸ .refl _
  · have hv := hv t
    generalize useStamp (noteRequest (advance dt s) code q) t = a at hv ⊢
    have hr : Goes s.vital a.vital := hv ▸ .refl _
    split
    · exact hr.respond ..
    next hp =>
      have hb := h a q t (takenIn_of_preCheck hp)
      rw [hv] at hb
      generalize body a q t = r at hb ⊢
      cases r with
      | err st p => exact hr.respond ..
      | errWith u st p => exact Goes.respond hb ..
      | later u => exact hb
      | ok u p =>
        dsimp only
        split
        · exact hr.respond ..
        · exact Goes.respond hb ..
      | pend u =>
        dsimp only
        split
        · exact hr.respond ..
        · exact Goes.respond hb ..

/-- A command that changes the device state from where no start waits. -/
theorem change_goes (s : State) {m : DevMode} (hc : s.dev.mode ≠ .config)
    (hv : s.vital.steady → m ≠ .safeHold ∧ (m = s.dev.mode ∨ moves s.dev.mode m = true) ∧
      (canFault m = true → DevMode.fault = s.dev.mode ∨ moves s.dev.mode .fault = true)) : Goes s.vital (changeState s m).vital :=
  goes_of_change (calm := true) (recount := false) (clear := false) id (changeState_reacts s m) (fun k => k.first hc) hv

theorem sysOperateBody_goes (s : State) (q : Request) (t : Nat) (h : takenIn Cmd.sysOperate s.dev.mode = true) :
    Goes s.vital ((sysOperateBody s q t).vital s) := by
  have hm : s.dev.mode = .preop := by
    revert h
    cases s.dev.mode <;> decide
  refine change_goes s ?_ fun _ => ?_ <;> rw [hm] <;> decide

theorem safeHoldReleaseBody_goes (s : State) (q : Request) (t : Nat) (h : takenIn Cmd.safeHoldRelease s.dev.mode = true) :
    Goes s.vital ((safeHoldReleaseBody s q t).vital s) := by
  have hm : s.dev.mode = .safeHold := by
    revert h
    cases s.dev.mode <;> decide
  simp only [safeHoldReleaseBody, orElse_vital, Reply.vital_ok]
  split
  · refine change_goes s ?_ fun hs => ?_
    · rw [hm]; decide
    · rw [hm]
      rcases hs.2 hm with hh | hh <;> rw [show s.dev.held = _ from hh] <;> decide
  · exact .refl _

theorem enterConfig_reacts (s : State) : Reacts calm hold recount clear { s.vital with mode := .config } (enterConfig s).vital := by
  unfold enterConfig
  simp only [calStop_vital, clearTouts_vital]
  exact .inl (changeState_reacts s .config)

theorem faultClearBody_goes (s : State) (q : Request) (t : Nat) (h : takenIn Cmd.faultClear s.dev.mode = true) :
    Goes s.vital ((faultClearBody s q t).vital s) := by
  have hm : s.dev.mode = .fault := by
    revert h
    cases s.dev.mode <;> decide
  simp only [faultClearBody, orElse_vital, Reply.vital_ok, vital_ite]
  repeat' split
  · refine change_goes { s with dev := { s.dev with faultNoCycle := false } } ?_ fun _ => ?_
    · show s.dev.mode ≠ _
      rw [hm]; decide
    · show _ ∧ (_ = s.dev.mode ∨ moves s.dev.mode _ = true) ∧ (_ → _ = s.dev.mode ∨ moves s.dev.mode _ = true)
      rw [hm]; decide
  · refine goes_of_change (calm := true) (recount := false) (clear := false) (v := s.vital) id
      (enterConfig_reacts { s with dev := { s.dev with faultNoCycle := false } }) (fun k => k.first ?_) fun _ => ?_
    · show s.dev.mode ≠ _
      rw [hm]; decide
    · rw [show s.vital.mode = _ from hm]; decide
  · exact .refl _

theorem cycleStopBody_goes (s : State) (q : Request) (t : Nat) (h : takenIn Cmd.cycleStop s.dev.mode = true) :
    Goes s.vital ((cycleStopBody s q t).vital s) := by
  have hm : s.vital.mode = .preop := by
    revert h
    show takenIn Cmd.cycleStop s.dev.mode = true → s.dev.mode = .preop
    cases s.dev.mode <;> decide
  have hu : Works s.vital (endCycle s).vital := by simp
  have hw : Reacts true true true true { (endCycle s).vital with mode := .config } ((cycleStopBody s q t).vital s) := by
    simp only [cycleStopBody, Reply.vital_ok, reviveEngines_vital, stopConns_vital]
    exact .inl (enterConfig_reacts _)
  refine goes_of_change hu.wf (hw.unheld (by simp) (by simp)) (fun k => hu.drifts.first (k.first ?_)) fun _ => ?_ <;> rw [hm] <;> decide

/-- A start that waits is one in CONFIG (R36, R76). -/
theorem goes_start {x : Option Nat} (h : Reacts true false recount clear v w) (hm : v.mode = .config) : Goes v { w with first := x } := by
  have hw : w.mode = .config := by
    rcases h.drifts with ⟨d, -, -⟩ | ⟨d, -⟩ | ⟨d, -⟩
    · exact d.trans hm
    · cases d
    · cases d
  refine ⟨h.wf, fun _ => ⟨fun _ => hw, fun k => ?_⟩, fun _ => .inl (hw.trans hm.symm)⟩
  exact absurd (hw.symm.trans k) (by decide)

theorem acceptStart_goes {s : State} (h : Reacts true false recount clear v s.vital) (hm : v.mode = .config) (q : Request) (t : Nat) (s' : State) :
    Goes v ((acceptStart s q t).vital s') := by
  have h2 : Reacts true false recount clear v (configureNodes (parPromote (parPromote s (fun _ _ => true) .cycleStart)
      (fun n _ => isLocalObj n) .enable)).vital := by simp [h]
  exact goes_start h2 hm

theorem cycleStartBody_goes (s : State) (q : Request) (t : Nat) (h : takenIn Cmd.cycleStart s.dev.mode = true) :
    Goes s.vital ((cycleStartBody s q t).vital s) := by
  have hm : s.vital.mode = .config := by
    revert h
    show takenIn Cmd.cycleStart s.dev.mode = true → s.dev.mode = .config
    cases s.dev.mode <;> decide
  have hb (u : Nat × Nat) : Reacts true false false false s.vital (if s.plan.verifiedAt = s.tru.derating then s
      else noteUse { s with plan := { s.plan with verifiedAt := s.tru.derating } } u false).vital := by simp
  unfold cycleStartBody
  rw [orElse_vital]
  split
  · split
    · exact .refl _
    · dsimp only
      split
      · exact .refl _
      next u hu =>
        have hb := hb u
        generalize (if s.plan.verifiedAt = s.tru.derating then s
          else noteUse { s with plan := { s.plan with verifiedAt := s.tru.derating } } u false) = s1 at hb ⊢
        rw [orElse_vital]
        split
        · split
          · refine Reacts.goes (calm := false) (hold := true) (recount := true) (clear := true) ?_
            simp
          · refine acceptStart_goes (recount := false) (clear := false) ?_ hm q t s
            simp [hb]
        · exact .refl _
  · exact .refl _

theorem execSysPreopDone_goes (dt : Nat) (s : State) : (execSysPreopDone dt s).goes s.vital := by
  refine goes_advance (dt := dt) ?_
  unfold execSysPreopDone
  generalize advance dt s = a
  dsimp only
  split
  next h =>
    refine Goes.finish ?_ ..
    refine change_goes { a with dev := { a.dev with preopPending := false } } ?_ fun _ => ?_
    · show a.dev.mode ≠ _
      rw [h.2.1]; decide
    · show _ ∧ (_ = a.dev.mode ∨ moves a.dev.mode _ = true) ∧ (_ → _ = a.dev.mode ∨ moves a.dev.mode _ = true)
      rw [h.2.1]; decide
  · exact .refl _

/-- The firmware serves a device that it booted (R29, R363). -/
theorem serveMailboxes_goes {s : State} (h : Works v s.vital) (hm : v.mode = .boot) : Goes v (serveMailboxes s).vital := by
  have hf (k : v.steady) : s.vital.first = none := h.drifts.first (k.first (by rw [hm]; decide))
  have hc (m : DevMode) (hm' : m = .fault ∨ m = .config) {t : State} (ht : t.vital = s.vital) : Goes v (changeState t m).vital := by
    refine goes_of_change (calm := true) (recount := false) (clear := false) (ht ▸ h.wf) (changeState_reacts t m) (ht ▸ hf) fun _ => ?_
    rw [hm]
    rcases hm' with rfl | rfl <;> decide
  unfold serveMailboxes
  dsimp only
  split
  · exact hc .fault (.inl rfl) rfl
  · exact hc .config (.inr rfl) rfl

theorem execFirmwareStarted_goes (dt : Nat) (b : BootResult) (s : State) : (execFirmwareStarted dt b s).goes s.vital := by
  refine goes_advance (dt := dt) ?_
  unfold execFirmwareStarted
  generalize advance dt s = a
  dsimp only
  split
  · exact .refl _
  next h =>
    refine serveMailboxes_goes (v := a.vital) ?_ (Classical.not_not.mp (not_or.mp h).1)
    simp

/-! ### The first tick -/

theorem Vital.wf_recount {x : Option Nat} {k : Bool × Nat × Nat × Nat × Nat} (h : v.wf) : ({ v with first := x, clock := k } : Vital).wf := h

/-- At the first tick the counts begin, the units start, and then the device is in PREOP. -/
theorem beginCycle_reacts (n : Nat) (s : State) : ∃ u, Reacts false true false clear { (releaseEngines s).vital with
      first := none, clock := (true, planRate (releaseEngines s).image, n, tickU (planRate (releaseEngines s).image) n, 0) } u ∧
    Reacts calm hold recount clear { u with mode := .preop } (beginCycle n s).vital := by
  refine ⟨(startCycle n (releaseEngines s)).vital, firstCycle_vital n _ ▸ startCycle_reacts n _, ?_⟩
  unfold beginCycle
  simp only [finish_vital]
  exact .inl (changeState_reacts _ .preop)

/-- The time of the first tick has come. -/
def atFirst (n : Nat) (s : State) : State := stressSync (advanceTo (tickU (planRate s.image) n) s)

@[simp] theorem atFirst_vital (n : Nat) (s : State) : (atFirst n s).vital = s.vital := (stressSync_vital _).trans (advanceTo_vital _ _)

theorem execCycleFirstTick_eq {n : Nat} {s : State} (h : s.cyc.first = some n) : execCycleFirstTick s =
    if (atFirst n s).cyc.running || Nat.blt (atFirst n s).time.now (tickU (planRate s.image) n) then .next (atFirst n s)
    else .next (openCycle n (tickU (planRate s.image) n) (holdRow (beginCycle n (atFirst n s)))) := by
  unfold execCycleFirstTick
  rw [h]
  rfl

theorem execCycleFirstTick_goes (s : State) : (execCycleFirstTick s).goes s.vital := by
  cases hn : s.cyc.first with
  | none =>
    unfold execCycleFirstTick
    rw [hn]
    exact .refl _
  | some n =>
    have hs := atFirst_vital n s
    rw [execCycleFirstTick_eq hn]
    generalize atFirst n s = a at hs ⊢
    split
    · rw [← hs]
      exact .refl _
    · obtain ⟨u, hu, hb⟩ := beginCycle_reacts (calm := false) (hold := false) (recount := true) (clear := true) n a
      have hr : Works s.vital (releaseEngines a).vital := by simp [hs]
      have ho : Reacts false false true true { u with mode := .preop } (openCycle n (tickU (planRate s.image) n) (holdRow (beginCycle n a))).vital := by
        simp only [openCycle_vital, holdRow_vital]
        exact .inl hb
      refine goes_of_change (fun k => hu.wf (Vital.wf_recount (hr.wf k))) ho (fun _ => hu.drifts.first rfl) fun k => ?_
      have hm : s.vital.mode = .config := k.1 (by rw [show s.vital.first = some n from hn]; simp)
      rw [hm]
      decide

/-! ### Every command and every step -/

theorem Out.goes_of_works {o : Out} (h : o.reacts false true true true v) : o.goes v := Out.goes_of_reacts h

theorem serve_row {code : Nat} {body : State → Request → Nat → Reply} (h : ∀ s q t, Reacts calm hold recount clear s.vital ((body s q t).vital s))
    (dt : Nat) (q : Request) (s : State) : Out.reacts calm hold recount clear s.vital (.next (serve code body dt q s)) := serve_reacts h dt q s

/-- Every command keeps the memories canonical and moves the device state by a transition of R29. -/
theorem exec_goes (i : Instr) (s : State) : Out.goes s.vital (exec i s) := by
  cases i
  case nop | pset | psetr | pacc | paccr | psetu | psetur | paccu | paccur | aadd | asub | aadx | asbx | acmp | acpx | acpy |
      aldx | azro | aneg | aabs | rnd | asat | ashl | ashr | sclb | bexpa | qstep | maxi | mini | xhi | xhir | xlo | xcpy | xadd |
      xsub | xand | xior | xeor | xbit | bexp | sclbx | sreg | bxset | done | brc | call | ret | decbr | rep | ximm | pimm | mimm |
      limm =>
    exact Out.goes_of_works (runRow_reacts _ _ _ _ _)
  case sysCaps => exact Out.goes_of_works (serve_row sysCapsBody_reacts _ _ _)
  case sysOperate => exact serve_goes sysOperateBody_goes _ _ _
  case sysPreop => exact Out.goes_of_works (serve_row sysPreopBody_reacts _ _ _)
  case safeHold => exact Out.goes_of_works (serve_row safeHoldBody_reacts _ _ _)
  case safeHoldRelease => exact serve_goes safeHoldReleaseBody_goes _ _ _
  case faultClear => exact serve_goes faultClearBody_goes _ _ _
  case powerDomain => exact Out.goes_of_works (serve_row powerDomainBody_reacts _ _ _)
  case bootInfo => exact Out.goes_of_works (serve_row bootInfoBody_reacts _ _ _)
  case fwStageWrite => exact Out.goes_of_works (serve_row fwStageWriteBody_reacts _ _ _)
  case fwStageCommit => exact Out.goes_of_works (serve_row fwStageCommitBody_reacts _ _ _)
  case paramRead => exact Out.goes_of_works (serve_row paramReadBody_reacts _ _ _)
  case paramWrite => exact Out.goes_of_works (serve_row paramWriteBody_reacts _ _ _)
  case planLoad => exact Out.goes_of_works (serve_row planLoadBody_reacts _ _ _)
  case planCommit => exact Out.goes_of_works (serve_row planCommitBody_reacts _ _ _)
  case cycleStart => exact serve_goes cycleStartBody_goes _ _ _
  case cycleStop => exact serve_goes cycleStopBody_goes _ _ _
  case planStatus => exact Out.goes_of_works (serve_row planStatusBody_reacts _ _ _)
  case planStore => exact Out.goes_of_works (serve_row planStoreBody_reacts _ _ _)
  case planRecall => exact Out.goes_of_works (serve_row (fun _ _ _ => by simp) _ _ _)
  case flowPlace => exact Out.goes_of_works (serve_row flowPlaceBody_reacts _ _ _)
  case ringEnumerate => exact Out.goes_of_works (serve_row ringEnumerateBody_reacts _ _ _)
  case ringStatus => exact Out.goes_of_works (serve_row ringStatusBody_reacts _ _ _)
  case nodeIdentity => exact Out.goes_of_works (serve_row nodeIdentityBody_reacts _ _ _)
  case nodeEnable => exact Out.goes_of_works (serve_row nodeEnableBody_reacts _ _ _)
  case nodeAliasSet => exact Out.goes_of_works (serve_row nodeAliasSetBody_reacts _ _ _)
  case nodeParamRead => exact Out.goes_of_works (serve_row (fun _ _ _ => by simp) _ _ _)
  case nodeParamWrite => exact Out.goes_of_works (serve_row (fun _ _ _ => by simp) _ _ _)
  case tunnelConfig => exact Out.goes_of_works (serve_row tunnelConfigBody_reacts _ _ _)
  case axisEnable => exact Out.goes_of_works (serve_row axisEnableBody_reacts _ _ _)
  case axisDisable => exact Out.goes_of_works (serve_row axisDisableBody_reacts _ _ _)
  case axisStatus => exact Out.goes_of_works (serve_row axisStatusBody_reacts _ _ _)
  case axisSource => exact Out.goes_of_works (serve_row axisSourceBody_reacts _ _ _)
  case gearRatio => exact Out.goes_of_works (serve_row gearRatioBody_reacts _ _ _)
  case gearEngage => exact Out.goes_of_works (serve_row gearEngageBody_reacts _ _ _)
  case gearDisengage => exact Out.goes_of_works (serve_row gearDisengageBody_reacts _ _ _)
  case axisFaultClear => exact Out.goes_of_works (serve_row axisFaultClearBody_reacts _ _ _)
  case lawLoad => exact Out.goes_of_works (serve_row lawLoadBody_reacts _ _ _)
  case lawUnload => exact Out.goes_of_works (serve_row lawUnloadBody_reacts _ _ _)
  case lawInfo => exact Out.goes_of_works (serve_row lawInfoBody_reacts _ _ _)
  case lawCoefWrite => exact Out.goes_of_works (serve_row lawCoefWriteBody_reacts _ _ _)
  case lawTest => exact Out.goes_of_works (serve_row lawTestBody_reacts _ _ _)
  case moveAbs => exact Out.goes_of_works (serve_row (fun _ _ _ => by simp) _ _ _)
  case moveRel => exact Out.goes_of_works (serve_row (fun _ _ _ => by simp) _ _ _)
  case stop => exact Out.goes_of_works (serve_row stopBody_reacts _ _ _)
  case hold => exact Out.goes_of_works (serve_row holdBody_reacts _ _ _)
  case resume => exact Out.goes_of_works (serve_row resumeBody_reacts _ _ _)
  case home => exact Out.goes_of_works (serve_row homeBody_reacts _ _ _)
  case groupDefine => exact Out.goes_of_works (serve_row groupDefineBody_reacts _ _ _)
  case groupMove => exact Out.goes_of_works (serve_row groupMoveBody_reacts _ _ _)
  case groupLimits => exact Out.goes_of_works (serve_row groupLimitsBody_reacts _ _ _)
  case motionStatus => exact Out.goes_of_works (serve_row motionStatusBody_reacts _ _ _)
  case pwmTripClear => exact Out.goes_of_works (serve_row pwmTripClearBody_reacts _ _ _)
  case pwmStatus => exact Out.goes_of_works (serve_row pwmStatusBody_reacts _ _ _)
  case encIndexArm => exact Out.goes_of_works (serve_row encIndexArmBody_reacts _ _ _)
  case encFaultClear => exact Out.goes_of_works (serve_row encFaultClearBody_reacts _ _ _)
  case probeArm => exact Out.goes_of_works (serve_row probeArmBody_reacts _ _ _)
  case probeRead => exact Out.goes_of_works (serve_row probeReadBody_reacts _ _ _)
  case adcRefEnable => exact Out.goes_of_works (serve_row adcRefEnableBody_reacts _ _ _)
  case adcCalibrate => exact Out.goes_of_works (serve_row adcCalibrateBody_reacts _ _ _)
  case adcCalSave => exact Out.goes_of_works (serve_row adcCalSaveBody_reacts _ _ _)
  case adcCalRestore => exact Out.goes_of_works (serve_row (fun _ _ _ => by simp) _ _ _)
  case localInStatus => exact Out.goes_of_works (serve_row localInStatusBody_reacts _ _ _)
  case timeRead => exact Out.goes_of_works (serve_row timeReadBody_reacts _ _ _)
  case timeSet => exact Out.goes_of_works (serve_row timeSetBody_reacts _ _ _)
  case timeTrim => exact Out.goes_of_works (serve_row timeTrimBody_reacts _ _ _)
  case ptpConfig => exact Out.goes_of_works (serve_row ptpConfigBody_reacts _ _ _)
  case ptpStatus => exact Out.goes_of_works (serve_row ptpStatusBody_reacts _ _ _)
  case toutSet => exact Out.goes_of_works (serve_row toutSetBody_reacts _ _ _)
  case toutStop => exact Out.goes_of_works (serve_row toutStopBody_reacts _ _ _)
  case plantTx => exact Out.goes_of_works (serve_row plantTxBody_reacts _ _ _)
  case calSegList => exact Out.goes_of_works (serve_row calSegListBody_reacts _ _ _)
  case calMaskWrite => exact Out.goes_of_works (serve_row calMaskWriteBody_reacts _ _ _)
  case calArm => exact Out.goes_of_works (serve_row calArmBody_reacts _ _ _)
  case calStop => exact Out.goes_of_works (serve_row calStopBody_reacts _ _ _)
  case calForce => exact Out.goes_of_works (serve_row calForceBody_reacts _ _ _)
  case calStatus => exact Out.goes_of_works (serve_row calStatusBody_reacts _ _ _)
  case calRead => exact Out.goes_of_works (serve_row (fun _ _ _ => by simp) _ _ _)
  case calSkewCalibrate => exact Out.goes_of_works (serve_row calSkewCalibrateBody_reacts _ _ _)
  case calSkewStore => exact Out.goes_of_works (serve_row calSkewStoreBody_reacts _ _ _)
  case calBusMeasure => exact Out.goes_of_works (serve_row calBusMeasureBody_reacts _ _ _)
  case dmaSetup => exact Out.goes_of_works (serve_row dmaSetupBody_reacts _ _ _)
  case dmaStart => exact Out.goes_of_works (serve_row dmaStartBody_reacts _ _ _)
  case dmaListWrite => exact Out.goes_of_works (serve_row dmaListWriteBody_reacts _ _ _)
  case dmaAppend => exact Out.goes_of_works (serve_row dmaAppendBody_reacts _ _ _)
  case dmaClose => exact Out.goes_of_works (serve_row dmaCloseBody_reacts _ _ _)
  case dmaAbort => exact Out.goes_of_works (serve_row dmaAbortBody_reacts _ _ _)
  case dmaStatus => exact Out.goes_of_works (serve_row dmaStatusBody_reacts _ _ _)
  case safetyStatus => exact Out.goes_of_works (serve_row safetyStatusBody_reacts _ _ _)
  case safetyImageRead => exact Out.goes_of_works (serve_row safetyImageReadBody_reacts _ _ _)
  case safetyConnStatus => exact Out.goes_of_works (serve_row safetyConnStatusBody_reacts _ _ _)
  case pairStatus => exact Out.goes_of_works (serve_row pairStatusBody_reacts _ _ _)
  case pairJoin => exact Out.goes_of_works (serve_row pairJoinBody_reacts _ _ _)
  case gripRelease => exact Out.goes_of_works (serve_row gripReleaseBody_reacts _ _ _)
  case eventRead => exact Out.goes_of_works (serve_row eventReadBody_reacts _ _ _)
  case shavingsStatus => exact Out.goes_of_works (serve_row (fun _ _ _ => by simp) _ _ _)
  case shavingsRead => exact Out.goes_of_works (serve_row (fun _ _ _ => by simp) _ _ _)
  case shavingsFreeze => exact Out.goes_of_works (serve_row shavingsFreezeBody_reacts _ _ _)
  case dispatchEngineStats => exact Out.goes_of_works (serve_row dispatchEngineStatsBody_reacts _ _ _)
  case dispatchLevelStats => exact Out.goes_of_works (serve_row dispatchLevelStatsBody_reacts _ _ _)
  case dispatchFlowStats => exact Out.goes_of_works (serve_row dispatchFlowStatsBody_reacts _ _ _)
  case dispatchStatsClear => exact Out.goes_of_works (serve_row dispatchStatsClearBody_reacts _ _ _)
  case truingRun => exact Out.goes_of_works (serve_row truingRunBody_reacts _ _ _)
  case truingStatus => exact Out.goes_of_works (serve_row truingStatusBody_reacts _ _ _)
  case tunnelTxSlot => exact Out.goes_of_works (execTunnelTxSlot_reacts _ _ _ _)
  case mbReqWrite => exact Out.goes_of_works (execMbReqWrite_reacts _ _ _ _)
  case mbRspWrite => exact Out.goes_of_works (execMbRspWrite_reacts _ _ _ _)
  case mbStatWrite => exact Out.goes_of_works (execMbStatWrite_reacts _ _ _ _)
  case tunRxHeadWrite => exact Out.goes_of_works (execTunRxHeadWrite_reacts _ _ _ _)
  case tunStatRead => exact Out.goes_of_works (execTunStatRead_reacts _ _ _)
  case resetReq => exact hostAccess_goes (fun s => writeControl_serves s _) _ _
  case irqMaster => exact hostAccess_goes (fun s => writeControl_serves s _) _ _
  case hostHeartbeat => exact Out.goes_of_works (execHostHeartbeat_reacts _ _ _)
  case timeNsRead => exact Out.goes_of_works (execTimeNsRead_reacts _ _)
  case evStatusWrite => exact Out.goes_of_works (execEvStatusWrite_reacts _ _ _ _)
  case bar2Write => exact Out.goes_of_works (execBar2Write_reacts _ _ _ _)
  case registerWrite => exact hostAccess_goes (fun s => hostAccessAt_serves s _ _) _ _
  case sysReset => exact execSysReset_goes _ _ _
  case sysStandby => exact execSysStandby_goes _ _ _
  case sysPreopDone => exact execSysPreopDone_goes _ _
  case powerDomainSwitched => exact Out.goes_of_works (execPowerDomainSwitched_reacts _ _ _)
  case pdHoldMaxExpiry => exact Out.goes_of_works (execPdHoldMaxExpiry_reacts _ _)
  case planVerifyDone => exact Out.goes_of_works (execPlanVerifyDone_reacts _ _)
  case planSwitch => exact Out.goes_of_works (execPlanSwitch_reacts _)
  case cycleFirstTick => exact execCycleFirstTick_goes _
  case enumFrameReturn => exact Out.goes_of_works (execEnumFrameReturn_reacts _ _ _ _ _)
  case enumTimeout => exact Out.goes_of_works (execEnumTimeout_reacts _ _ _)
  case axisEnabled => exact Out.goes_of_works (execAxisEnabled_reacts _ _ _)
  case axisEnableTimeout => exact Out.goes_of_works (execAxisEnableTimeout_reacts _ _ _)
  case brakeEngageExpiry => exact Out.goes_of_works (execBrakeEngageExpiry_reacts _ _ _)
  case gearRampEnd => exact Out.goes_of_works (execGearRampEnd_reacts _ _ _)
  case homingReferenceShift => exact Out.goes_of_works (execHomingReferenceShift_reacts _ _ _)
  case homingNotFound => exact Out.goes_of_works (execHomingNotFound_reacts _ _ _)
  case homingChatter => exact Out.goes_of_works (execHomingChatter_reacts _ _ _)
  case moveComplete => exact Out.goes_of_works (execMoveComplete_reacts _ _ _)
  case switchQualified => exact Out.goes_of_works (execSwitchQualified_reacts _ _ _ _)
  case stepperHoldDelayExpiry => exact Out.goes_of_works (execStepperHoldDelayExpiry_reacts _ _ _)
  case stepperWakeDone => exact Out.goes_of_works (execStepperWakeDone_reacts _ _ _)
  case adcRefReady => exact Out.goes_of_works (execAdcRefReady_reacts _ _)
  case adcCalibrateDone => exact Out.goes_of_works (execAdcCalibrateDone_reacts _ _ _)
  case slewDone => exact Out.goes_of_works (execSlewDone_reacts _ _)
  case ptpMessageRx => exact Out.goes_of_works (execPtpMessageRx_reacts _ _ _)
  case ptpMessageTx => exact Out.goes_of_works (execPtpMessageTx_reacts _ _ _ _ _)
  case plantFrameRx => exact Out.goes_of_works (execPlantFrameRx_reacts _ _ _)
  case toutPulse => exact Out.goes_of_works (execToutPulse_reacts _ _)
  case timedFrameLaunch => exact Out.goes_of_works (execTimedFrameLaunch_reacts _ _)
  case calRow => exact Out.goes_of_works (execCalRow_reacts _ _ _)
  case trigBusEdge => exact Out.goes_of_works (execTrigBusEdge_reacts _ _ _)
  case syncClkLost => exact Out.goes_of_works (execSyncClkLost_reacts _ _)
  case dmaEntryRead => exact Out.goes_of_works (execDmaEntryRead_reacts _ _ _ _)
  case dmaBurst => exact Out.goes_of_works (execDmaBurst_reacts _ _ _ _ _)
  case pairResyncTimeout => exact Out.goes_of_works (execPairResyncTimeout_reacts _ _)
  case shavingsCommitDone => exact Out.goes_of_works (execShavingsCommitDone_reacts _ _)
  case truingPassStart => exact Out.goes_of_works (execTruingPassStart_reacts _ _)
  case truingPassEnd => exact Out.goes_of_works (execTruingPassEnd_reacts _ _ _)
  case avsReadback => exact Out.goes_of_works (execAvsReadback_reacts _ _ _)
  case tick => exact Out.goes_of_works (execTick_reacts _)
  case outputSnapshot => exact Out.goes_of_works (execOutputSnapshot_reacts _)
  case burstLaunch => exact Out.goes_of_works (execBurstLaunch_reacts _ _ _ _)
  case bundleDeadlineFail => exact Out.goes_of_works (execBundleDeadlineFail_reacts _ _ _)
  case outputMissed => exact Out.goes_of_works (execOutputMissed_reacts _ _ _)
  case bundleFailed => exact Out.goes_of_works (execBundleFailed_reacts _ _ _)
  case piInputPublish => exact Out.goes_of_works (execPiInputPublish_reacts _ _)
  case acyclicFrameTx => exact Out.goes_of_works (execAcyclicFrameTx_reacts _ _ _)
  case upFrameRx => exact Out.goes_of_works (execUpFrameRx_reacts _ _ _ _ _)
  case burstClosureRx => exact Out.goes_of_works (execBurstClosureRx_reacts _ _ _ _ _)
  case gatherDeadline => exact Out.goes_of_works (execGatherDeadline_reacts _ _ _)
  case acyclicFrameRx => exact Out.goes_of_works (execAcyclicFrameRx_reacts _ _ _ _ _)
  case acyclicResponseTimeout => exact Out.goes_of_works (execAcyclicResponseTimeout_reacts _ _ _)
  case laneSignalLoss => exact Out.goes_of_works (execLaneSignalLoss_reacts _ _ _ _ _)
  case ringClosed => exact Out.goes_of_works (execRingClosed_reacts _ _ _)
  case nodeLost => exact Out.goes_of_works (execNodeLost_reacts _ _ _)
  case taskReady => exact Out.goes_of_works (execTaskReady_reacts _ _ _)
  case taskDispatch => exact Out.goes_of_works (execTaskDispatch_reacts _ _ _)
  case taskComplete => exact Out.goes_of_works (execTaskComplete_reacts _ _ _ _)
  case taskOverrun => exact Out.goes_of_works (execTaskOverrun_reacts _ _ _)
  case lawFault => exact Out.goes_of_works (execLawFault_reacts _ _ _ _)
  case engineFault => exact Out.goes_of_works (execEngineFault_reacts _ _ _)
  case engineStall => exact Out.goes_of_works (execEngineStall_reacts _ _ _)
  case engineTestDone => exact Out.goes_of_works (execEngineTestDone_reacts _ _ _ _)
  case debugHaltRequest => exact Out.goes_of_works (execDebugHaltRequest_reacts _ _ _)
  case debugSingleStep => exact Out.goes_of_works (execDebugSingleStep_reacts _ _ _)
  case feedbackLost => exact Out.goes_of_works (execFeedbackLost_reacts _ _ _)
  case followingError => exact Out.goes_of_works (execFollowingError_reacts _ _ _)
  case streamLost => exact Out.goes_of_works (execStreamLost_reacts _ _ _)
  case slotSample => exact Out.goes_of_works (execSlotSample_reacts _ _)
  case pwmUpdatePoint => exact Out.goes_of_works (execPwmUpdatePoint_reacts _ _)
  case bootRefresh => exact Out.goes_of_works (execBootRefresh_reacts _ _ _)
  case tripInput => exact Out.goes_of_works (execTripInput_reacts _ _ _ _)
  case encIndexEvent => exact Out.goes_of_works (execEncIndexEvent_reacts _ _ _)
  case encIllegalTransition => exact Out.goes_of_works (execEncIllegalTransition_reacts _ _ _)
  case encWireFault => exact Out.goes_of_works (execEncWireFault_reacts _ _ _ _)
  case dinRawEdge => exact Out.goes_of_works (execDinRawEdge_reacts _ _ _ _)
  case probeEdge => exact Out.goes_of_works (execProbeEdge_reacts _ _ _ _)
  case ssiExchangeDone => exact Out.goes_of_works (execSsiExchangeDone_reacts _ _ _ _ _)
  case adcTrigger => exact Out.goes_of_works (execAdcTrigger_reacts _ _ _ _)
  case adcConversionDone => exact Out.goes_of_works (execAdcConversionDone_reacts _ _ _ _ _)
  case adcLiveCalStart => exact Out.goes_of_works (execAdcLiveCalStart_reacts _ _)
  case adcLiveCalDone => exact Out.goes_of_works (execAdcLiveCalDone_reacts _ _ _)
  case sinChange => exact Out.goes_of_works (execSinChange_reacts _ _ _ _ _)
  case sinDiscrepancy => exact Out.goes_of_works (execSinDiscrepancy_reacts _ _ _)
  case qualifiedReset => exact Out.goes_of_works (execQualifiedReset_reacts _ _)
  case ss1TimeExpiry => exact Out.goes_of_works (execSs1TimeExpiry_reacts _ _ _)
  case safetyVectorExchange => exact Out.goes_of_works (execSafetyVectorExchange_reacts _ _ _)
  case safetyVectorMissing => exact Out.goes_of_works (execSafetyVectorMissing_reacts _ _)
  case testPulse => exact Out.goes_of_works (execTestPulse_reacts _ _ _ _)
  case safeMsgTx => exact Out.goes_of_works (execSafeMsgTx_reacts _ _ _ _)
  case safeEchoRx => exact Out.goes_of_works (execSafeEchoRx_reacts _ _ _ _)
  case safeConnWatchdogExpiry => exact Out.goes_of_works (execSafeConnWatchdogExpiry_reacts _ _ _)
  case clockMonitor => exact execClockMonitor_goes _ _
  case clockHalted => exact Out.goes_of_works (execClockHalted_reacts _ _)
  case mirrorTimeFrameRx => exact Out.goes_of_works (execMirrorTimeFrameRx_reacts _ _ _)
  case mirrorStreamComplete => exact Out.goes_of_works (execMirrorStreamComplete_reacts _ _ _)
  case mirrorLost => exact Out.goes_of_works (execMirrorLost_reacts _ _)
  case grantRecordRx => exact Out.goes_of_works (execGrantRecordRx_reacts _ _ _)
  case requestBurst => exact Out.goes_of_works (execRequestBurst_reacts _ _)
  case sysWatchdogExpiry => exact execSysWatchdogExpiry_goes _ _
  case hostWatchdogExpiry => exact Out.goes_of_works (execHostWatchdogExpiry_reacts _ _)
  case resetNAssert => exact execResetNAssert_goes _ _ _ _
  case resetRelease => exact execResetRelease_goes _ _ _ _
  case firmwareStarted => exact execFirmwareStarted_goes _ _ _
  case mainRailsLost => exact execMainRailsLost_goes _ _
  case powerFail => exact execPowerFail_goes _ _ _
  case aonSupplyApplied => exact execAonSupplyApplied_goes _ _ _
  case aonSupplyLost => exact execAonSupplyLost_goes _ _
  case aonSupplySwitch => exact execAonSupplySwitch_goes _ _ _
  case wake => exact execWake_goes _ _ _
  case pcieLinkReset => exact Out.goes_of_works (execPcieLinkReset_reacts _ _ _)
  case mailboxCommandStart => exact execMailboxCommandStart_goes _ _ _
  case notifyPost => exact Out.goes_of_works (execNotifyPost_reacts _ _)
  case mainRailsValid => exact execMainRailsValid_goes _ _
  case bootFault => exact Out.goes_of_works (execBootFault_reacts _ _ _)
  case lawLoadDone => exact Out.goes_of_works (execLawLoadDone_reacts _ _)
  case fwStageCommitDone => exact Out.goes_of_works (execFwStageCommitDone_reacts _ _ _)
  case pairIdentityTimeout => exact Out.goes_of_works (execPairIdentityTimeout_reacts _ _)
  case mirrorBulkFrameRx => exact Out.goes_of_works (execMirrorBulkFrameRx_reacts _ _ _)
  case forwardedBurstCopy => exact Out.goes_of_works (execForwardedBurstCopy_reacts _ _ _ _ _)
  case syncClkEdge => exact Out.goes_of_works (execSyncClkEdge_reacts _ _)
  case calBusRetryWait => exact Out.goes_of_works (execCalBusRetryWait_reacts _ _ _)
  case calNoEchoTimeout => exact Out.goes_of_works (execCalNoEchoTimeout_reacts _ _)
  case encCountEdge => exact Out.goes_of_works (execEncCountEdge_reacts _ _ _ _ _)
  case ptpLost => exact Out.goes_of_works (execPtpLost_reacts _ _ _ _)
  case cycleHwFault => exact execCycleHwFault_goes _ _ _
  case debugResume => exact Out.goes_of_works (execDebugResume_reacts _ _ _)
  case outputFault => exact Out.goes_of_works (execOutputFault_reacts _ _ _ _)
  case boundaryScanInstruction => exact Out.goes_of_works (execBoundaryScanInstruction_reacts _ _ _ _)

theorem memInv_iff (s : State) : MemInv s ↔ s.vital.wf := .rfl
theorem modeInv_iff (s : State) : ModeInv s ↔ s.vital.steady := .rfl

theorem step_goes {s t : State} (h : step s = .next t) : Goes s.vital t.vital := by
  unfold step at h
  cases hp : s.pending with
  | nil =>
    rw [hp] at h
    cases h
    exact .refl _
  | cons c rest =>
    rw [hp] at h
    have hg := exec_goes c { s with pending := rest }
    rw [show exec c { s with pending := rest } = .next t from h] at hg
    exact hg

/-- Settles O3: a step runs one row, and every row keeps the memories and the plan images canonical. -/
theorem everyStepKeepsTheMemories : Obligations.EveryStepKeepsTheMemories :=
  fun _ _ hs h => (step_goes h).wf hs

/-- Settles O4: a row's own moves are those into SAFE_HOLD and FAULT; a command, a tick, a reset or a supply makes the others. -/
theorem everyStepMovesTheDeviceState : Obligations.EveryStepMovesTheDeviceState :=
  fun _ _ hs h => ⟨(step_goes h).steady hs, (step_goes h).mode hs⟩

/-- Settles O5, by evaluation of the reset state. -/
theorem resetHoldsTheInvariants : Obligations.ResetHoldsTheInvariants := by
  refine ⟨⟨⟨?_, rfl, rfl, rfl, rfl, rfl, rfl⟩, rfl, fun m h => ?_⟩, ⟨fun h => absurd rfl h, fun h => ?_⟩, rfl, rfl⟩
  · decide
  · cases h
  · cases h

end Sys2Proof.Machine
end

