-- ==== Sys2Proof/Proofs/DeviceCommands.lean ====
section
/-! The commands that change the device state: O7. -/

namespace Sys2Proof.Machine

variable {calm hold recount clear : Bool} {u v w : Vital} {code dt : Nat} {q : Request} {s : State}

/-- A request that is served finds the device in a state in which its command is taken (R371). -/
theorem takenIn_of_served (h : Served code dt q s) : takenIn code (atStamp code dt q s).dev.mode = true := by
  obtain ⟨-, hp, -⟩ := h
  exact takenIn_of_preCheck hp

theorem finish_dev (s : State) (code key status : Nat) (p : Bytes) : (finish s code key status p).dev = s.dev :=
  congrArg Outside.dev (finish_outside s code key status p)

/-- A calm reaction leaves the device state. -/
theorem Reacts.mode (h : Reacts true false recount clear v w) : w.mode = v.mode := by
  rcases h.drifts with ⟨d, -, -⟩ | ⟨d, -⟩ | ⟨d, -⟩
  · exact d
  · cases d
  · cases d

theorem enterConfig_mode (s : State) : (enterConfig s).dev.mode = .config :=
  (enterConfig_reacts (recount := false) (clear := false) s).mode

theorem mode_of_sysPreop {m : DevMode} (h : takenIn Cmd.sysPreop m = true) : m = .operational := by
  revert h
  cases m <;> decide

theorem mode_of_safeHold {m : DevMode} (h : takenIn Cmd.safeHold m = true) : m = .preop ∨ m = .operational := by
  revert h
  cases m <;> decide

theorem sysPreop_answers (h : Served Cmd.sysPreop dt q s) : Answers (.sysPreop dt q) Cmd.sysPreop dt q s St.pend
    (fun u p => u.dev.preopPending = true ∧ u.dev.mode = .operational ∧ p = []) := by
  have hm := mode_of_sysPreop (takenIn_of_served h)
  refine answers_pend (body := sysPreopBody) rfl h rfl ?_
  generalize atStamp Cmd.sysPreop dt q s = a at hm
  have ho : ∀ t : State, ((allAxes t).foldl (requestStop false true) t).dev = t.dev := fun t =>
    congrArg Outside.dev (outside_foldl _ (fun s x => requestStop_outside _ _ s x) _ t)
  dsimp only
  rw [ho]
  exact ⟨rfl, hm, rfl⟩

theorem faultClear_answers (h : Served Cmd.faultClear dt q s) (hc : faultCauseActive (atStamp Cmd.faultClear dt q s) = false) :
    Answers (.faultClear dt q) Cmd.faultClear dt q s St.ok (fun u p =>
      u.dev.mode = (if (atStamp Cmd.faultClear dt q s).cyc.running then .preop else .config) ∧ p = []) := by
  have hb : faultClearBody (atStamp Cmd.faultClear dt q s) q (stampOf Cmd.faultClear dt q s) = _ :=
    orElse_pos (Bool.not_eq_true' _ ▸ hc) St.badState _
  refine answers_ok (body := faultClearBody) rfl h hb ⟨?_, rfl⟩
  split
  · rw [changeState_dev]
  · exact enterConfig_mode _

theorem sysPreopDone_runs (hp : (advance dt s).dev.preopPending = true) (hm : (advance dt s).dev.mode = .operational)
    (ha : (advance dt s).axes.all (fun e => e.2.phase == .disabled) = true) :
    Runs (.sysPreopDone dt) s (fun t => t.dev.mode = .preop ∧ t.dev.preopPending = false) := by
  refine ⟨_, congrArg Host.Outcome.next (if_pos ⟨hp, hm, ha⟩), ?_⟩
  dsimp only
  rw [finish_dev, changeState_dev]
  exact ⟨rfl, rfl⟩

/-- Settles O7: each command changes the state from those in which it is taken, and nothing after it in its row changes it again. -/
theorem deviceStateCommands : Obligations.DeviceStateCommands := by
  intro s dt q
  refine ⟨fun h => ?_, sysPreop_answers, fun h => ?_, fun h hd => ?_, faultClear_answers, sysPreopDone_runs⟩
  · exact answers_ok (body := sysOperateBody) rfl h rfl ⟨by rw [changeState_dev], rfl⟩
  · have ho := enterSafeHold_outside _ (mode_of_safeHold (takenIn_of_served h))
    exact answers_ok (body := safeHoldBody) rfl h rfl
      ⟨congrArg (fun o : Outside => o.dev.mode) ho, congrArg (fun o : Outside => o.dev.held) ho, rfl⟩
  · have hb : safeHoldReleaseBody (atStamp Cmd.safeHoldRelease dt q s) q (stampOf Cmd.safeHoldRelease dt q s) = _ :=
      orElse_pos (Bool.not_eq_true' _ ▸ hd) St.badState _
    exact answers_ok (body := safeHoldReleaseBody) rfl h hb ⟨by rw [changeState_dev], rfl⟩

end Sys2Proof.Machine
end

