-- ==== Sys2Proof/Proofs/Resets.lean ====
section
/-! What a reset, STANDBY and OFF leave: O8. -/

namespace Sys2Proof.Machine

/-! ### What a reset leaves -/

/-- What the trip inputs leave alone that are low at the end of a reset (R402, R405). -/
structure Bare where
  board : Board
  dev : Dev
  plan : PlanSt
  time : TimeSt
  pair : Pair
  power : Power
  mem : Mems
  pend : List PendCmd
  freeze : Option Freeze
  route : Table (BitVec 8)

def State.bare (s : State) : Bare :=
  { board := s.board, dev := s.dev, plan := s.plan, time := s.time, pair := s.pair, power := s.power, mem := s.mem, pend := s.pend,
    freeze := s.ev.freeze, route := s.host.evRoute }

/-- A device that has no plan and routes no event, and whose record is not frozen. -/
def Bare.quiet (b : Bare) : Prop := b.plan = {} ∧ b.freeze = none ∧ b.route = []

theorem raiseWarn_bare {s : State} (h : s.bare.quiet) (src kind inst : Nat) : (raiseWarn s src kind inst).bare = s.bare := by
  obtain ⟨-, hf, hr⟩ := h
  have hf : s.ev.freeze = none := hf
  have hr : s.host.evRoute = [] := hr
  obtain ⟨e, c, h1, -, hn⟩ := record_frame s { source := src, cls := Cls.warn, kind := kind, inst := inst }
  obtain ⟨k, h2, -, -, hk⟩ := reportEvent_frame { s with ev := e, cal := c } src
  unfold raiseWarn raiseOnly
  rw [h1, h2, hr]
  dsimp only
  rw [if_neg (by simp [tget, tfind])]
  unfold State.bare
  dsimp only at hk ⊢
  rw [hn hf, hf, hk]

theorem axisOfSlot_nil (k : Nat) : axisOfSlot [] k = none := by rfl

theorem tripAxis_bare {s : State} (h : s.bare.quiet) (k : Nat) : tripAxis s k = s := by
  obtain ⟨hp, -, -⟩ := h
  have hp : s.plan = {} := hp
  have hi : s.image = [] := by rw [State.image, hp]; rfl
  unfold tripAxis
  rw [hi, axisOfSlot_nil]

theorem foldl_bare {α : Type} {f : State → α → State} (hf : ∀ s x, s.bare.quiet → (f s x).bare = s.bare) (l : List α) {s : State}
    (h : s.bare.quiet) : (l.foldl f s).bare = s.bare := by
  induction l generalizing s with
  | nil => rfl
  | cons x l ih => rw [List.foldl_cons, ih (hf s x h ▸ h), hf s x h]

theorem forceSafe_bare (s : State) (k : Nat) : (forceSafe s k).bare = s.bare := by rfl

/-- The timers that a trip forces, and the axes that it would fault if there were a plan. -/
theorem trips_bare {s : State} (h : s.bare.quiet) (l : List Nat) (j : Nat) :
    (l.foldl tripAxis (raiseWarn (l.foldl forceSafe s) Ev.pwmTrip Kind.channel j)).bare = s.bare := by
  have h2 : (l.foldl forceSafe s).bare = s.bare := foldl_bare (fun s k _ => forceSafe_bare s k) l h
  have h3 := raiseWarn_bare (h2.symm ▸ h) Ev.pwmTrip Kind.channel j
  rw [foldl_bare (fun s k hs => congrArg State.bare (tripAxis_bare hs k)) l (h3.symm ▸ h2.symm ▸ h), h3, h2]

theorem setTrip_bare {s : State} (h : s.bare.quiet) (j : Nat) : (setTrip s j).bare = s.bare := by
  unfold setTrip
  dsimp only
  split
  · rfl
  · refine (trips_bare ?_ _ j).trans ?_
    · exact h
    · rfl

theorem lowTrips_bare {s : State} (h : s.bare.quiet) : (lowTrips s).bare = s.bare := by
  refine foldl_bare (fun s j hs => ?_) _ h
  split
  · exact setTrip_bare hs j
  · rfl

theorem enterBoot_bare (source : Nat) (s : State) : (enterBoot source s).bare =
    (afterReset .boot source { finishCommit s with
      time := { (finishCommit s).time with now := (finishCommit s).time.keeper * secU } }).bare :=
  lowTrips_bare ⟨rfl, rfl, rfl⟩

/-- A commit that completes changes the memories and the event unit alone. -/
theorem finishCommit_frame (s : State) : ∃ m e, finishCommit s = { s with mem := m, ev := e } := by
  unfold finishCommit
  split
  · exact ⟨_, _, rfl⟩
  · exact ⟨s.mem, s.ev, rfl⟩

theorem cutCommit_frame (s : State) : ∃ m e, cutCommit s = { s with mem := m, ev := e } := by
  unfold cutCommit
  repeat' split
  · exact ⟨s.mem, s.ev, rfl⟩
  · exact ⟨_, _, rfl⟩
  · exact ⟨s.mem, s.ev, rfl⟩
  · exact ⟨_, s.ev, rfl⟩

theorem enterBoot_dev (source : Nat) (s : State) : ∃ c, (enterBoot source s).dev = { mode := .boot, bootCause := c } :=
  ⟨_, congrArg Bare.dev (enterBoot_bare source s)⟩

theorem enterBoot_pend (source : Nat) (s : State) : (enterBoot source s).pend = [] := congrArg Bare.pend (enterBoot_bare source s)

theorem enterBoot_freeze (source : Nat) (s : State) : (enterBoot source s).ev.freeze = none := congrArg Bare.freeze (enterBoot_bare source s)

/-- A reset records its source and keeps the supplies as they are (R651). -/
theorem enterBoot_power (source : Nat) (s : State) : ∃ a b, (enterBoot source s).power = resetPower source a b s.power := by
  obtain ⟨m, e, h⟩ := finishCommit_frame s
  have hp : (enterBoot source s).power = _ := congrArg Bare.power (enterBoot_bare source s)
  rw [h] at hp
  exact ⟨_, _, hp⟩

/-- The device restarts in BOOT from one source (R29, R651). -/
theorem enterBoot_restarts (source : Nat) (s : State) : (enterBoot source s).dev.mode = .boot ∧ (enterBoot source s).power.resetSource = source := by
  obtain ⟨c, hd⟩ := enterBoot_dev source s
  obtain ⟨a, b, hp⟩ := enterBoot_power source s
  rw [hd, hp]
  exact ⟨rfl, rfl⟩

/-! ### Resets and standby (R29, R357, R648, R651, R652) -/

variable {dt : Nat} {q : Request} {s : State}

theorem sysReset_runs (h : Served Cmd.sysReset dt q s) (hq : q.payload = [0xC3, 0xA5, 0, 0]) :
    Runs (.sysReset dt q) s (fun t => t.dev.mode = .boot ∧ t.power.resetSource = 4 ∧ t.dev.mbReady = false ∧ t.pend = []) := by
  have hkey : (uAt q.payload 0 2 == 0xA5C3 && resv q.payload 2 2) = true := by rw [hq]; decide
  have hb : sysResetBody (atStamp Cmd.sysReset dt q s) q (stampOf Cmd.sysReset dt q s) = _ := if_pos hkey
  have hs := serve_eq (body := sysResetBody) h
  rw [hb] at hs
  have hasked : (serve Cmd.sysReset sysResetBody dt q s).dev.resetAsked = true := by
    rw [hs]
    exact congrArg (fun o : Outside => o.dev.resetAsked) (respond_outside ..)
  refine ⟨_, congrArg Host.Outcome.next (if_pos hasked), ?_⟩
  obtain ⟨hm, hr⟩ := enterBoot_restarts 4 (advance 40000 (serve Cmd.sysReset sysResetBody dt q s))
  obtain ⟨c, hd⟩ := enterBoot_dev 4 (advance 40000 (serve Cmd.sysReset sysResetBody dt q s))
  exact ⟨hm, hr, by rw [hd], enterBoot_pend _ _⟩

theorem sysStandby_runs (h : Served Cmd.sysStandby dt q s) (hq : uAt q.payload 6 2 = 0) :
    Runs (.sysStandby dt q) s (fun t => t.dev.mode = .standby ∧ t.power.pwrEn = false ∧ t.power.wakeSec = uAt q.payload 0 6 ∧
      t.mem.sram = [] ∧ t.mem.ddr = []) := by
  have hb : sysStandbyBody (atStamp Cmd.sysStandby dt q s) q (stampOf Cmd.sysStandby dt q s) = _ := if_pos (by rw [resv, hq]; rfl)
  have hs := serve_eq (body := sysStandbyBody) h
  rw [hb] at hs
  have hp : (serve Cmd.sysStandby sysStandbyBody dt q s).power =
      { (atStamp Cmd.sysStandby dt q s).power with standbyAsked := true, wakeSec := uAt q.payload 0 6 } := by
    rw [hs]
    exact congrArg Outside.power (respond_outside ..)
  refine ⟨_, congrArg Host.Outcome.next (if_pos (by rw [hp])), ?_⟩
  generalize serve Cmd.sysStandby sysStandbyBody dt q s = t at hp
  obtain ⟨m, e, hf⟩ := finishCommit_frame { t with power := { t.power with pwrEn := false } }
  rw [hf]
  refine ⟨rfl, rfl, ?_, rfl, rfl⟩
  show t.power.wakeSec = _
  rw [hp]

theorem resetNAssert_runs (dt lowNs : Nat) (taken : Bool) (hp : powered (advance dt s) = true) (hl : 1000 ≤ lowNs) :
    Runs (.resetNAssert dt lowNs taken) s (fun t => t.dev.mode = .boot ∧ t.power.resetSource = 2 ∧ t.power.resetLow = true) := by
  refine ⟨_, congrArg Host.Outcome.next (if_neg (by omega)), ?_⟩
  rw [if_pos hp]
  obtain ⟨hm, hr⟩ := enterBoot_restarts 2 (advance dt s)
  exact ⟨hm, hr, rfl⟩

theorem watchdogReset_restarts (s : State) :
    (watchdogReset s).dev.mode = .boot ∧ (watchdogReset s).power.resetSource = 3 ∧ (watchdogReset s).ev.freeze = none := by
  unfold watchdogReset
  dsimp only
  generalize freezeRecord _ 2 0xFF _ = t
  obtain ⟨hm, hr⟩ := enterBoot_restarts 3 t
  exact ⟨hm, hr, enterBoot_freeze 3 t⟩

theorem sysWatchdogExpiry_runs (dt : Nat) (hp : powered (advance dt s) = true) (hf : (advance dt s).dev.fwRunning = true) :
    Runs (.sysWatchdogExpiry dt) s (fun t => t.dev.mode = .boot ∧ t.power.resetSource = 3 ∧ t.ev.freeze = none) :=
  ⟨_, congrArg Host.Outcome.next (if_pos ⟨hp, hf⟩), watchdogReset_restarts _⟩

theorem enterStandby_power (s : State) : ∃ a b, (enterStandby s).power = resetPower s.power.resetSource a b s.power := ⟨_, _, rfl⟩

/-- The device as it stands right after its rails went, in STANDBY. -/
def railless (s : State) : State := enterStandby (cutCommit { s with power := { s.power with railsValid := false } })

theorem railless_power (s : State) : ∃ a b, (railless s).power = resetPower s.power.resetSource a b { s.power with railsValid := false } := by
  obtain ⟨m, e, h⟩ := cutCommit_frame { s with power := { s.power with railsValid := false } }
  obtain ⟨a, b, hp⟩ := enterStandby_power (cutCommit { s with power := { s.power with railsValid := false } })
  refine ⟨a, b, hp.trans ?_⟩
  rw [h]

theorem mainRailsLost_eq (dt : Nat) (hp : powered (advance dt s) = true) : exec (.mainRailsLost dt) s =
    .next (if (railless (advance dt s)).power.vaonMain || (railless (advance dt s)).power.vbat then railless (advance dt s)
      else enterOff (railless (advance dt s))) :=
  congrArg Host.Outcome.next (if_pos hp)

theorem mainRailsLost_standby (dt : Nat) (hp : powered (advance dt s) = true)
    (ha : ((advance dt s).power.vaonMain || (advance dt s).power.vbat) = true) :
    Runs (.mainRailsLost dt) s (fun t => t.dev.mode = .standby ∧ t.power.railsValid = false ∧ t.mem.sram = [] ∧ t.mem.capture = [] ∧
      t.mem.ddr = []) := by
  obtain ⟨x, y, h⟩ := railless_power (advance dt s)
  refine ⟨_, (mainRailsLost_eq dt hp).trans (congrArg Host.Outcome.next (if_pos ?_)), rfl, ?_, rfl, rfl, rfl⟩
  · rw [h]; exact ha
  · rw [h]; rfl

theorem mainRailsLost_off (dt : Nat) (hp : powered (advance dt s) = true)
    (ha : ((advance dt s).power.vaonMain || (advance dt s).power.vbat) = false) :
    Runs (.mainRailsLost dt) s (fun t => t.dev.mode = .off) := by
  obtain ⟨x, y, h⟩ := railless_power (advance dt s)
  refine ⟨_, (mainRailsLost_eq dt hp).trans (congrArg Host.Outcome.next (if_neg ?_)), rfl⟩
  rw [h]
  exact fun k => absurd (ha.symm.trans k) (by decide)

/-- A write of DEV_CONTROL with its key restarts the device (R357). -/
theorem resetReq_restarts {v : BitVec 32} (ho : hostOpen (advance dt s) = true) (hb : bitOf v.toNat 1 = true) (hk : v.toNat / 65536 = 0xA5C3) :
    Runs (.resetReq dt v) s (fun t => t.dev.mode = .boot ∧ t.power.resetSource = 4) := by
  refine ⟨_, congrArg Host.Outcome.next (if_pos ho), ?_⟩
  have hw : writeControl (advance dt s) v.toNat = _ := if_pos (by rw [hb, hk]; rfl)
  dsimp only
  rw [hw]
  exact enterBoot_restarts _ _

theorem resetReq_masks {v : BitVec 32} (ho : hostOpen (advance dt s) = true) (hb : bitOf v.toNat 1 = false) :
    Runs (.resetReq dt v) s (fun t => t = { advance dt s with dev := { (advance dt s).dev with irqMaster := bitOf v.toNat 0 } }) :=
  ⟨_, congrArg Host.Outcome.next (if_pos ho), if_neg (by simp [hb])⟩

/-- Settles O8: a reset leaves the supplies and names its source, and STANDBY and OFF leave no volatile memory. -/
theorem resetsAndStandby : Obligations.ResetsAndStandby := by
  intro s dt lowNs taken q v
  exact ⟨sysReset_runs, sysStandby_runs, resetReq_restarts, resetReq_masks, resetNAssert_runs dt lowNs taken,
    fun hl => ⟨_, congrArg Host.Outcome.next (if_pos (.inl hl)), rfl⟩, sysWatchdogExpiry_runs dt, mainRailsLost_standby dt, mainRailsLost_off dt⟩

end Sys2Proof.Machine
end

