-- ==== Sys2Proof/Proofs/Supplies.lean ====
section
/-! The supplies and the wake: O9. -/

namespace Sys2Proof.Machine

variable {dt : Nat} {s : State}

theorem powered_standby (h : s.dev.mode = .standby) : powered s = false := by
  unfold powered
  rw [h]

/-- STANDBY is left where rails stand, RESET_N is high and PWR_EN is asserted. -/
theorem tryBoot_boots {s : State} (hm : s.dev.mode = .standby) (hv : s.power.railsValid = true) (hl : s.power.resetLow = false)
    (he : s.power.pwrEn = true) : tryBoot s = enterBoot 1 s := if_pos ⟨hm, hv, by rw [hl]; rfl, he⟩

theorem tryBoot_waits {s : State} (h : s.dev.mode ≠ .standby ∨ s.power.railsValid = false ∨ s.power.resetLow = true ∨ s.power.pwrEn = false) :
    tryBoot s = s := by
  refine if_neg fun ⟨hm, hv, hl, he⟩ => ?_
  rcases h with h | h | h | h
  · exact h hm
  · rw [h] at hv; cases hv
  · rw [h] at hl; cases hl
  · rw [h] at he; cases he

theorem mainRailsValid_boots (hm : (advance dt s).dev.mode = .standby) (hl : (advance dt s).power.resetLow = false)
    (he : (advance dt s).power.pwrEn = true) :
    Runs (.mainRailsValid dt) s (fun t => t.dev.mode = .boot ∧ t.power.resetSource = 1 ∧ t.power.railsValid = true) := by
  refine ⟨_, congrArg Host.Outcome.next (if_neg fun h => ?_), ?_⟩
  · rw [powered_standby hm] at h
    exact absurd h.1 (by decide)
  · rw [tryBoot_boots (s := { advance dt s with power := { (advance dt s).power with railsValid := true } }) hm rfl hl he]
    obtain ⟨h1, h2⟩ := enterBoot_restarts 1 { advance dt s with power := { (advance dt s).power with railsValid := true } }
    obtain ⟨x, y, hp⟩ := enterBoot_power 1 { advance dt s with power := { (advance dt s).power with railsValid := true } }
    exact ⟨h1, h2, congrArg Power.railsValid hp⟩

theorem aonSupplyApplied_standby {main : Bool} (hm : (advance dt s).dev.mode = .off) (hv : (advance dt s).power.railsValid = false) :
    Runs (.aonSupplyApplied dt main) s (fun t => t.dev.mode = .standby ∧ t.time.keeper = 0 ∧ t.power.pwrEn = true) := by
  refine ⟨_, congrArg Host.Outcome.next (if_pos hm), ?_⟩
  rw [tryBoot_waits (.inr (.inl ?_))]
  · exact ⟨rfl, rfl, rfl⟩
  · cases main <;> exact hv

theorem aonSupplySwitch_keeps {main : Bool} (hm : (advance dt s).dev.mode ≠ .off) (hs : main = true ∨ (advance dt s).power.vbat = true) :
    Runs (.aonSupplySwitch dt main) s (fun t => t.power.aonFromMain = main ∧ t.time = (advance dt s).time ∧ t.dev = (advance dt s).dev) := by
  refine ⟨_, congrArg Host.Outcome.next (if_neg fun h => ?_), rfl, rfl, rfl⟩
  rcases h with h | ⟨h1, h2⟩
  · exact hm h
  · rcases hs with hs | hs <;> simp_all

theorem wake_asserts (hm : (advance dt s).dev.mode = .standby) (he : (advance dt s).power.pwrEn = false)
    (ht : (advance dt s).power.pwrOffAt + 100000000 * nsU ≤ (advance dt s).time.now) (hv : (advance dt s).power.railsValid = false) :
    Runs (.wake dt true) s (fun t => t.power.pwrEn = true ∧ t.dev.mode = .standby) := by
  refine ⟨_, congrArg Host.Outcome.next (if_pos ⟨hm, by rw [he]; rfl, rfl, ht⟩), ?_⟩
  rw [tryBoot_waits (.inr (.inl ?_))]
  · exact ⟨rfl, hm⟩
  · exact hv

/-- Settles O9: STANDBY is left only where the rails stand and PWR_EN is asserted, and a change of supply moves nothing else. -/
theorem suppliesAndWake : Obligations.SuppliesAndWake := by
  intro s dt main
  refine ⟨mainRailsValid_boots, fun hp hv => ⟨_, congrArg Host.Outcome.next (if_pos ⟨hp, hv⟩), rfl⟩, aonSupplyApplied_standby,
    fun hm => ⟨_, congrArg Host.Outcome.next (if_pos hm), rfl, rfl⟩, aonSupplySwitch_keeps, wake_asserts, fun hm he ht => ?_⟩
  exact ⟨_, congrArg Host.Outcome.next (if_neg fun h => absurd h.2.2.2 (Nat.not_le.mpr ht)), rfl⟩

end Sys2Proof.Machine
end

