-- ==== Sys2Proof/Proofs/Faults.lean ====
section
/-! Device faults and the fault of a safety item: what the rows of a fault leave. -/

namespace Sys2Proof.Machine

variable {calm hold recount clear : Bool} {u v w : Vital}

/-! ### What a raise leaves alone -/

theorem enterFault_frame (s : State) : (enterFault s).outside = { s.outside with dev := (enterFault s).dev, cyc := (enterFault s).cyc } := by
  by_cases h : canFault s.dev.mode = true
  · have ho := enterFault_outside h
    have hd : (enterFault s).dev = _ := congrArg Outside.dev ho
    have hc : (enterFault s).cyc = _ := congrArg Outside.cyc ho
    rw [ho, hd, hc]
  · by_cases hb : s.dev.mode = .boot
    · rw [enterFault_boot hb]
      rfl
    · rw [enterFault_other]
      · rfl
      · rw [canFault_iff] at h
        cases hm : s.dev.mode <;> simp_all

theorem raiseOnly_outside (s : State) (r : Raise) : ∃ l f c, (raiseOnly s r).outside = { s.outside with raised := l, freeze := f, cal := c } := by
  obtain ⟨h, e, c, eq, -⟩ := raiseOnly_frame s r
  rw [eq]
  exact ⟨_, _, _, rfl⟩

theorem freezeRecord_outside (s : State) (trigger source ns : Nat) :
    ∃ f, (freezeRecord s trigger source ns).outside = { s.outside with freeze := f } := by
  obtain ⟨e, eq, hr⟩ := freezeRecord_frame s trigger source ns
  rw [eq]
  refine ⟨e.freeze, ?_⟩
  show ({ s.outside with raised := e.raised, freeze := e.freeze } : Outside) = _
  rw [hr]
  rfl

/-- A device fault changes the device state, the record and the calipers, and ends a start. -/
theorem raiseDevice_frame (s : State) (r : Raise) (trigger : Nat) : ∃ d y l f c,
    (raiseDevice s r trigger).outside = { s.outside with dev := d, cyc := y, raised := l, freeze := f, cal := c } := by
  obtain ⟨l, f, c, h1⟩ := raiseOnly_outside s { r with cls := Cls.device }
  obtain ⟨f', h2⟩ := freezeRecord_outside (raiseOnly s { r with cls := Cls.device }) trigger r.source (r.at_.getD (nowNs s))
  unfold raiseDevice
  dsimp only
  rw [enterFault_frame, h2, h1]
  exact ⟨_, _, _, _, _, rfl⟩

theorem raiseDevice_time (s : State) (r : Raise) (trigger : Nat) : (raiseDevice s r trigger).time = s.time := by
  obtain ⟨_, _, _, _, _, h⟩ := raiseDevice_frame s r trigger
  exact congrArg Outside.time h

theorem raiseDevice_safe (s : State) (r : Raise) (trigger : Nat) : (raiseDevice s r trigger).safe = s.safe := by
  obtain ⟨_, _, _, _, _, h⟩ := raiseDevice_frame s r trigger
  exact congrArg Outside.safe h

theorem raiseDevice_board (s : State) (r : Raise) (trigger : Nat) : (raiseDevice s r trigger).board = s.board := by
  obtain ⟨_, _, _, _, _, h⟩ := raiseDevice_frame s r trigger
  exact congrArg Outside.board h

/-- What has been raised stays raised. -/
theorem Reacts.raised_contains {x : Nat} (h : Reacts calm hold recount false v w) (hx : v.raised.contains x = true) : w.raised.contains x = true :=
  List.contains_iff_mem.mpr (h.raised rfl x (List.contains_iff_mem.mp hx))

theorem raiseOnly_contains (s : State) (r : Raise) : (raiseOnly s r).ev.raised.contains r.source = true := by
  obtain ⟨h, e, c, eq, hr, -⟩ := raiseOnly_frame s r
  rw [eq]
  exact hr

theorem raiseDevice_contains (s : State) (r : Raise) (trigger : Nat) : (raiseDevice s r trigger).ev.raised.contains r.source = true := by
  have h : Reacts false false false false (raiseOnly s { r with cls := Cls.device }).vital (raiseDevice s r trigger).vital := by
    unfold raiseDevice
    simp
  exact h.raised_contains (raiseOnly_contains s { r with cls := Cls.device })

/-! ### The device state after a device fault -/

/-- The states that a device fault leaves for FAULT, and FAULT itself. -/
def faulted (m : DevMode) : Bool := canFault m || m == .fault

theorem faulted_iff (m : DevMode) : faulted m = true ↔ m ≠ .off ∧ m ≠ .standby ∧ m ≠ .boot := by
  cases m <;> decide

theorem enterFault_mode {s : State} (h : faulted s.dev.mode = true) : (enterFault s).dev.mode = .fault := by
  by_cases hc : canFault s.dev.mode = true
  · exact congrArg (fun o : Outside => o.dev.mode) (enterFault_outside hc)
  · have hm : s.dev.mode = .fault := by
      revert h hc
      cases s.dev.mode <;> decide
    rw [enterFault_other (.inr (.inr hm)), hm]

/-- What is raised before the device enters FAULT leaves its state. -/
theorem raised_dev (s : State) (r : Raise) (trigger source ns : Nat) : (freezeRecord (raiseOnly s r) trigger source ns).dev = s.dev := by
  obtain ⟨l, f, c, h1⟩ := raiseOnly_outside s r
  obtain ⟨f', h2⟩ := freezeRecord_outside (raiseOnly s r) trigger source ns
  rw [h1] at h2
  exact congrArg Outside.dev h2

theorem raiseDevice_mode {s : State} (h : faulted s.dev.mode = true) (r : Raise) (trigger : Nat) : (raiseDevice s r trigger).dev.mode = .fault := by
  unfold raiseDevice
  refine enterFault_mode ?_
  rw [raised_dev]
  exact h

theorem raiseDevice_boot {s : State} (h : s.dev.mode = .boot) (r : Raise) (trigger : Nat) :
    (raiseDevice s r trigger).dev = { s.dev with faultNoCycle := true } := by
  have hd := raised_dev s { r with cls := Cls.device } trigger r.source (r.at_.getD (nowNs s))
  unfold raiseDevice
  dsimp only
  rw [enterFault_boot (hd ▸ h), hd]

/-- FAULT is left by a command alone. -/
theorem Reacts.stays_fault (h : Reacts calm hold recount clear v w) (hv : v.mode = .fault) : w.mode = .fault := by
  rcases h.drifts with ⟨d, -, -⟩ | ⟨-, d, -⟩ | ⟨-, -, -, -, d⟩
  · exact d.trans hv
  · exact d
  · rcases d with d | d <;> rw [hv] at d <;> cases d

theorem Reacts.stays_faulted (h : Reacts calm hold recount clear v w) (hv : faulted v.mode = true) : faulted w.mode = true := by
  rcases h.drifts with ⟨d, -, -⟩ | ⟨-, d, -⟩ | ⟨-, d, -⟩ <;> rw [d]
  · exact hv
  · rfl
  · rfl

theorem Reacts.stays_boot (h : Reacts calm hold recount clear v w) (hv : v.mode = .boot) : w.mode = .boot := by
  rcases h.drifts with ⟨d, -, -⟩ | ⟨-, -, -, d⟩ | ⟨-, -, -, -, d⟩
  · exact d.trans hv
  · rw [hv] at d; cases d
  · rcases d with d | d <;> rw [hv] at d <;> cases d

/-! ### The safety unit -/

theorem dropOutputs_frame (s : State) : ∃ x, dropOutputs s = { s with safe := { s.safe with outs := x } } := by
  unfold dropOutputs
  induction List.range soutCount generalizing s with
  | nil => exact ⟨s.safe.outs, rfl⟩
  | cons n l ih =>
    rw [List.foldl_cons]
    split
    · obtain ⟨x, h⟩ := ih (s.onSout n (soutOff (safeNs s)))
      exact ⟨x, h⟩
    · exact ih s

/-- The safety fault state is entered from the states before it alone (R535). -/
theorem safetyFault_frame (s : State) (cause flags : Nat) : (safetyFault s cause flags).time = s.time ∧
    (safetyFault s cause flags).board = s.board ∧
    (s.safe.state ≤ 1 → (safetyFault s cause flags).safe.state = 2 ∧ (safetyFault s cause flags).safe.faultCause = cause) ∧
    (1 < s.safe.state → safetyFault s cause flags = s) := by
  unfold safetyFault
  split
  next h => exact ⟨rfl, rfl, fun k => absurd k (by omega), fun _ => rfl⟩
  next h =>
    obtain ⟨x, hx⟩ := dropOutputs_frame (s.onSafe (fun u => { u with state := 2, faultCause := cause }))
    dsimp only
    rw [raiseDevice_time, raiseDevice_board, raiseDevice_safe, hx]
    exact ⟨rfl, rfl, fun _ => ⟨rfl, rfl⟩, fun k => absurd h (by omega)⟩

theorem safetyFault_mode {s : State} (h : s.dev.mode = .fault) (cause flags : Nat) : (safetyFault s cause flags).dev.mode = .fault := by
  have hr : Reacts false false false false s.vital (safetyFault s cause flags).vital := by simp
  exact hr.stays_fault h

/-! ### The clock monitor (R535) -/

theorem clockTrips_frame (s : State) : (clockTrips s).time = s.time ∧ (clockTrips s).board = s.board ∧
    (hasLocal s.var = true → s.safe.state ≤ 1 → (clockTrips s).safe.state = 2 ∧ (clockTrips s).safe.faultCause = 2) ∧
    (hasLocal s.var = false ∨ 1 < s.safe.state → (clockTrips s).safe = s.safe) := by
  have ht := raiseDevice_time s { source := Ev.clockMonitor, cls := Cls.device } 1
  have hb := raiseDevice_board s { source := Ev.clockMonitor, cls := Cls.device } 1
  have hs := raiseDevice_safe s { source := Ev.clockMonitor, cls := Cls.device } 1
  unfold clockTrips
  dsimp only
  split
  next h =>
    obtain ⟨h1, h2, h3, h4⟩ := safetyFault_frame (raiseDevice s { source := Ev.clockMonitor, cls := Cls.device }) 2 0
    rw [hs] at h3 h4
    refine ⟨h1.trans ht, h2.trans hb, fun _ => h3, fun k => ?_⟩
    rcases k with k | k
    · rw [h] at k; cases k
    · rw [h4 k, hs]
  next h => exact ⟨ht, hb, fun k => absurd k h, fun _ => hs⟩

theorem clockTrips_reacts (s : State) : Reacts false false false false s.vital (clockTrips s).vital := by simp

theorem clockTrips_mode {s : State} (h : faulted s.dev.mode = true) : (clockTrips s).dev.mode = .fault := by
  have hm := raiseDevice_mode h { source := Ev.clockMonitor, cls := Cls.device } 1
  unfold clockTrips
  dsimp only
  split
  · exact safetyFault_mode hm _ _
  · exact hm

end Sys2Proof.Machine
end

