-- ==== Sys2Proof/Proofs/DebugHolds.lean ====
section
/-! Engines and clocks that the debug access holds: O55. -/

namespace Sys2Proof.Machine

/-! ### An engine that no halt holds (R348) -/

/-- Whether the debug access holds an engine, and whether it is to. -/
def ECore.hold (c : ECore) : Bool × Bool := (c.halted, c.haltAsked)

theorem execSingle_hold (op : EOp) (m1 m2 : Move) (i : Nat) (c : ECore) : (execSingle op m1 m2 i c).hold = c.hold := by
  unfold execSingle
  split
  · rfl
  · split
    · rfl
    · dsimp only
      split <;> rfl

theorem advancePc_hold (c : ECore) : (advancePc c).hold = c.hold := by
  unfold advancePc
  repeat' split
  all_goals rfl

theorem repeatRun_hold (op : EOp) (m1 m2 : Move) (n k : Nat) (c : ECore) : (repeatRun op m1 m2 n k c).hold = c.hold := by
  induction k generalizing c with
  | zero => rfl
  | succ k ih =>
    unfold repeatRun
    split
    · rfl
    · rw [ih, execSingle_hold]
      rfl

theorem execFlow_hold (op : EOp) (m1 m2 : Move) (c : ECore) : (execFlow op m1 m2 c).hold = c.hold := by
  have h := execSingle_hold op m1 m2 0 c
  unfold execFlow
  split
  · rfl
  · dsimp only
    generalize execSingle op m1 m2 0 c = c1 at h ⊢
    split
    · exact h
    · split
      case h_1 =>
        split
        · rfl
        · exact h
        · exact h
      case h_2 =>
        split
        · rfl
        · exact h
      case h_3 =>
        split
        · rfl
        · exact h
      case h_4 => exact h
      case h_5 =>
        split
        · rfl
        · exact h
      case h_6 => exact h
      case h_7 => exact (advancePc_hold c1).trans h

theorem execInstr_hold (op : EOp) (m1 m2 : Move) {c : ECore} (h : c.haltAsked = false) : (execInstr op m1 m2 c).hold = c.hold := by
  have asks : ∀ {c' : ECore}, c'.hold = c.hold → (takeHalt c').hold = c.hold := fun {c'} k => by
    rw [takeHalt_id ((congrArg Prod.snd k).trans h), k]
  unfold execInstr
  split
  · rfl
  · split
    · rfl
    · split
      · exact asks (execFlow_hold op m1 m2 c)
      next n _ _ =>
        split
        · rfl
        · have hr := repeatRun_hold op m1 m2 n n c
          dsimp only
          generalize repeatRun op m1 m2 n n c = c1 at hr ⊢
          split
          · exact hr
          · exact asks hr

theorem fetchRun_hold (s : State) {c : ECore} (h : c.haltAsked = false) : (fetchRun s c).hold = c.hold := by
  unfold fetchRun
  repeat' split
  · rfl
  · rfl
  · exact execInstr_hold _ _ _ h
  · rfl

/-- An engine that no halt is asked of runs on to the end of its run. -/
theorem runClocks_hold (s : State) (limit n : Nat) {c : ECore} (h : c.haltAsked = false) : (runClocks s limit n c).hold = c.hold := by
  induction n generalizing c with
  | zero => rfl
  | succ n ih =>
    have hf := fetchRun_hold s h
    unfold runClocks
    split
    · rfl
    · rw [ih ((congrArg Prod.snd hf).trans h), hf]

theorem runTest_runs (s : State) (limit : Nat) {c : ECore} (hh : c.halted = false) (ha : c.haltAsked = false) :
    (runTest s limit c).halted = false :=
  (congrArg Prod.fst (runClocks_hold s limit (2 * limit + 8) ha)).trans hh

/-! ### Engines -/

theorem onEngine_engine (s : State) (e : Nat) (f : Engine → Engine) : (s.onEngine e f).engine e = f (s.engine e) :=
  tget_tmod_self ..

/-- A change of an engine is what it makes of that engine. -/
theorem onEngine_congr {s : State} {e : Nat} {f g : Engine → Engine} (h : f (s.engine e) = g (s.engine e)) : s.onEngine e f = s.onEngine e g := by
  unfold State.onEngine tmod
  rw [show f (tget s.disp.engines {} e) = g (tget s.disp.engines {} e) from h]

theorem advance_engine (dt : Nat) (s : State) (e : Nat) : (advance dt s).engine e = s.engine e := by
  unfold State.engine
  rw [advance_disp]

theorem advance_core (dt : Nat) (s : State) (e : Nat) : (advance dt s).core e = s.core e := by
  unfold State.core
  rw [advance_engine]

theorem runClock_stopped (b : Bool) (n : Nat) (t : TimeSt) : (runClock b n t).stopped = t.stopped := by
  unfold runClock
  dsimp only
  split <;> rfl

theorem advance_runs (dt : Nat) (s : State) : ∃ t, advance dt s = { s with time := t } ∧ t.stopped = s.time.stopped := by
  unfold advance
  split
  · exact ⟨_, rfl, rfl⟩
  · exact ⟨_, rfl, rfl⟩
  · split
    · exact ⟨_, rfl, rfl⟩
    · exact ⟨_, rfl, runClock_stopped ..⟩

theorem advance_stopped (dt : Nat) (s : State) : (advance dt s).time.stopped = s.time.stopped := by
  obtain ⟨t, h, k⟩ := advance_runs dt s
  rw [h, k]

/-- No LAW_TEST is halted on an engine. -/
def State.untested (s : State) (e : Nat) : Prop := ∀ x, s.disp.test = some x → x.1 ≠ e

theorem endTest_untested {s : State} {e : Nat} (h : s.untested e) : endTest s e = s := by
  unfold endTest
  split
  next g mb base limit ht =>
    dsimp only
    exact if_neg fun k => h _ ht k.1
  · rfl

variable {s : State} {dt e : Nat}

theorem debugHalt_eq (hm : s.dev.mode = .config) (he : e < engineCount s.board.variant) : exec (.debugHaltRequest dt (.engine e)) s =
    .next ((advance dt s).onEngine e (fun g => { g with core := takeHalt { g.core with haltAsked := true } })) := by
  show execDebugHaltRequest dt (.engine e) s = _
  unfold execDebugHaltRequest
  dsimp only
  rw [advance_dev, if_pos hm, if_pos (by rw [State.var, advance_board]; exact he)]

theorem debugHalt_halts (hm : s.dev.mode = .config) (he : e < engineCount s.board.variant) (hb : (s.core e).branch = none) (hr : (s.core e).rep = none) :
    Runs (.debugHaltRequest dt (.engine e)) s (fun t =>
      t = (advance dt s).onEngine e (fun g => { g with core := { g.core with halted := true, haltAsked := false } })) := by
  refine ⟨_, debugHalt_eq hm he, onEngine_congr ?_⟩
  have hp : permitted (s.core e) = true := by rw [permitted, hb, hr]; rfl
  have ht : takeHalt { s.core e with haltAsked := true } = { s.core e with halted := true, haltAsked := false } := if_pos hp
  rw [← advance_core dt] at ht
  exact congrArg (fun c => { (advance dt s).engine e with core := c }) ht

theorem debugHalt_waits (hm : s.dev.mode = .config) (he : e < engineCount s.board.variant)
    (hb : (s.core e).branch.isSome = true ∨ (s.core e).rep.isSome = true) :
    Runs (.debugHaltRequest dt (.engine e)) s (fun t => t = (advance dt s).onEngine e (fun g => { g with core := { g.core with haltAsked := true } })) := by
  refine ⟨_, debugHalt_eq hm he, onEngine_congr ?_⟩
  have hp : permitted (s.core e) = false := by
    unfold permitted
    rcases hb with hb | hb
    · rw [Option.isNone_eq_false_iff.mpr hb]; rfl
    · rw [Option.isNone_eq_false_iff.mpr hb, Bool.and_false]
  have ht : takeHalt { s.core e with haltAsked := true } = { s.core e with haltAsked := true } :=
    if_neg (by rw [show permitted { s.core e with haltAsked := true } = permitted (s.core e) from rfl, hp]; exact Bool.false_ne_true)
  rw [← advance_core dt] at ht
  exact congrArg (fun c => { (advance dt s).engine e with core := c }) ht

theorem debugHalt_refused {target : HaltTarget} (hm : s.dev.mode ≠ .config) :
    Runs (.debugHaltRequest dt target) s (fun t => t = advance dt s) :=
  ⟨_, if_neg (by rw [advance_dev]; exact hm), rfl⟩

theorem debugHalt_stopsClock (hm : s.dev.mode = .config) :
    Runs (.debugHaltRequest dt .timeClock) s (fun t => t.time.stopped = true ∧ t.time.now = (advance dt s).time.now) :=
  ⟨_, if_pos (by rw [advance_dev]; exact hm), rfl, rfl⟩

theorem advance_untested (h : s.untested e) (f : Engine → Engine) : ((advance dt s).onEngine e f).untested e := by
  intro x hx
  refine h x ?_
  rwa [← advance_disp (dt := dt)]

theorem debugSingleStep_steps (hm : s.dev.mode = .config) (he : e < engineCount s.board.variant) (hh : (s.core e).halted = true) (hf : s.untested e) :
    Runs (.debugSingleStep dt e) s (fun t => (t.core e).halted = true ∧ t = (advance dt s).onEngine e (fun g =>
      { g with core := { singleStep (advance dt s) 3 { g.core with halted := false } with halted := true } })) := by
  have hgo : (advance dt s).dev.mode = .config ∧ e < engineCount (advance dt s).var ∧ ((advance dt s).engine e).core.halted = true := by
    rw [advance_dev, State.var, advance_board, advance_engine]
    exact ⟨hm, he, hh⟩
  refine ⟨_, (if_pos hgo).trans (congrArg Host.Outcome.next (endTest_untested (advance_untested hf _))), ?_, rfl⟩
  exact congrArg (fun g : Engine => g.core.halted) (onEngine_engine ..)

theorem debugSingleStep_running (hh : (s.core e).halted = false) : Runs (.debugSingleStep dt e) s (fun t => t = advance dt s) := by
  refine ⟨_, if_neg fun k => ?_, rfl⟩
  have h := k.2.2
  rw [advance_engine] at h
  exact absurd (hh.symm.trans h) (by decide)

theorem debugResume_engine (hm : s.dev.mode = .config) (he : e < engineCount s.board.variant) :
    exec (.debugResume dt (.engine e)) s = .next (resumeEngine (advance dt s) e) :=
  if_pos (by rw [advance_dev, State.var, advance_board]; exact ⟨hm, he⟩)

theorem debugResume_refused (hm : s.dev.mode ≠ .config) : Runs (.debugResume dt (.engine e)) s (fun t => t = advance dt s) :=
  ⟨_, if_neg fun k => hm (by rw [← k.1, advance_dev]), rfl⟩

theorem debugResume_frees (hm : s.dev.mode = .config) (he : e < engineCount s.board.variant) (hf : s.untested e) :
    Runs (.debugResume dt (.engine e)) s (fun t =>
      t = (advance dt s).onEngine e (fun g => { g with core := { g.core with halted := false, haltAsked := false } })) := by
  refine ⟨_, debugResume_engine hm he, ?_⟩
  unfold resumeEngine
  rw [endTest_untested (advance_untested hf _)]
  refine onEngine_congr ?_
  dsimp only
  rw [advance_disp]
  split
  next g mb base limit ht => rw [if_neg (hf _ ht)]
  · rfl

theorem respondLater_running (s : State) (mb code status : Nat) (r : Bytes) : tfind (respondLater s mb code status r).host.running mb = none := by
  unfold respondLater
  split
  next q _ =>
    obtain ⟨h, ev, he, -, hr⟩ := respond_frame (useStamp s (nextStamp s)) code { mb := mb, tag := q.tag, payload := q.payload } status (nextStamp s) r
    rw [he]
    show tfind h.running mb = none
    rw [hr]
    exact tfind_tdel_self ..
  next h => exact h

theorem testEnd_disp (s : State) (base : Nat) (c : ECore) : (testEnd s base c).1.disp = s.disp := by
  unfold testEnd
  dsimp only
  split <;> rfl

/-- A LAW_TEST that no halt holds any more ends: its mailbox is answered, and its engine keeps what the run left. -/
theorem endTest_ends {mb base limit : Nat} (ht : s.disp.test = some (e, mb, base, limit)) (hh : (s.core e).halted = false) :
    (endTest s e).disp = { s.disp with test := none } ∧ tfind (endTest s e).host.running mb = none := by
  have he : e = e ∧ ((s.engine e).core.fault.isSome || (s.engine e).core.done || Nat.ble limit (s.engine e).core.clocks ||
      !(s.engine e).core.halted) = true := ⟨rfl, by rw [State.core] at hh; rw [hh, Bool.not_false, Bool.or_true]⟩
  unfold endTest
  rw [ht]
  dsimp only
  rw [if_pos he]
  exact ⟨(congrArg Outside.disp (respondLater_outside ..)).trans (testEnd_disp ..), respondLater_running ..⟩

theorem resumeEngine_test {mb base limit : Nat} (ht : s.disp.test = some (e, mb, base, limit)) :
    resumeEngine s e = endTest (s.onEngine e (fun g => { g with core := runTest s limit { g.core with halted := false, haltAsked := false } })) e := by
  unfold resumeEngine
  simp only [ht, ↓reduceIte]

theorem debugResume_ends {mb base limit : Nat} (hm : s.dev.mode = .config) (he : e < engineCount s.board.variant)
    (ht : s.disp.test = some (e, mb, base, limit)) :
    Runs (.debugResume dt (.engine e)) s (fun t => t.disp.test = none ∧ tfind t.host.running mb = none ∧
      t.core e = runTest (advance dt s) limit { s.core e with halted := false, haltAsked := false }) := by
  refine ⟨_, debugResume_engine hm he, ?_⟩
  rw [resumeEngine_test (by rw [advance_disp]; exact ht)]
  have hc := advance_core dt s e
  have ht := (congrArg Disp.test (advance_disp (dt := dt) (s := s))).trans ht
  generalize advance dt s = a at hc ht ⊢
  have hr : (a.onEngine e (fun g => { g with core := runTest a limit { g.core with halted := false, haltAsked := false } })).core e =
      runTest a limit { s.core e with halted := false, haltAsked := false } := by
    rw [← hc]
    exact congrArg Engine.core (onEngine_engine ..)
  generalize hu : a.onEngine e _ = u at hr ⊢
  have htu : u.disp.test = some (e, mb, base, limit) := by rw [← hu]; exact ht
  obtain ⟨h1, h2⟩ := endTest_ends htu (by rw [hr]; exact runTest_runs a limit rfl rfl)
  refine ⟨by rw [h1], h2, ?_⟩
  rw [← hr]
  unfold State.core State.engine
  rw [h1]

theorem clockRuns_time (s : State) : (clockRuns s).time.stopped = false ∧ (clockRuns s).time.now = s.time.now := by
  unfold clockRuns
  dsimp only
  rw [raiseDevice_time]
  split
  · rw [(clockTrips_frame _).1]
    exact ⟨rfl, rfl⟩
  · exact ⟨rfl, rfl⟩

theorem clockRuns_raised (s : State) : (clockRuns s).ev.raised.contains Ev.clockHalted = true := by
  unfold clockRuns
  exact raiseDevice_contains _ _ _

theorem clockRuns_mode {s : State} (h : faulted s.dev.mode = true) : (clockRuns s).dev.mode = .fault := by
  unfold clockRuns
  dsimp only
  refine raiseDevice_mode ?_ _ _
  split
  · exact (congrArg faulted (clockTrips_mode (s := { s with time := { s.time with stopped := false, haltFor := 0 } }) h)).trans rfl
  · exact h

theorem debugResume_clock : exec (.debugResume dt .timeClock) s = .next (if s.time.stopped then clockRuns (advance dt s) else advance dt s) := by
  show execDebugResume dt .timeClock s = _
  unfold execDebugResume
  dsimp only
  rw [advance_stopped]
  split <;> rfl

/-- Settles O55, clause by clause: a halt, a step and a resumption are changes of one engine, and a LAW_TEST that no halt holds ends. -/
theorem debugAccess : Obligations.DebugAccess := by
  unfold Obligations.DebugAccess
  intro s dt e mb base limit target
  refine ⟨?_, debugHalt_waits, debugHalt_refused, debugHalt_stopsClock, ?_, debugSingleStep_running, debugResume_refused,
    debugResume_frees, debugResume_ends, fun h => ?_, fun h => ?_, fun h => ?_⟩
  · exact debugHalt_halts
  · exact debugSingleStep_steps
  · exact ⟨_, debugResume_clock, if_neg (by rw [h]; exact Bool.false_ne_true)⟩
  · obtain ⟨h1, h2⟩ := clockRuns_time (advance dt s)
    refine ⟨_, debugResume_clock.trans (congrArg Host.Outcome.next (if_pos h)), h1, h2, clockRuns_raised _, fun hm => clockRuns_mode ?_⟩
    rw [advance_dev, hm]
    rfl
  · refine ⟨_, rfl, clockRuns_mode ?_, (clockRuns_time _).1⟩
    rw [advance_dev, faulted_iff]
    rcases h with h | h | h | h <;> rw [h] <;> decide

end Sys2Proof.Machine
end

