-- ==== Sys2Proof/Proofs/CycleLife.lean ====
section
/-! The start of the cycle, its ticks and its end: O18. -/

namespace Sys2Proof.Machine

/-! ### What an event and a binding leave alone -/

/-- Nothing but the host's side, the records and the calipers differs. -/
def Told (s t : State) : Prop := ∃ h e c, t = { s with host := h, ev := e, cal := c }

theorem Told.refl (s : State) : Told s s := ⟨_, _, _, rfl⟩

theorem Told.trans {s t u : State} (a : Told s t) (b : Told t u) : Told s u := by
  obtain ⟨_, _, _, rfl⟩ := a
  obtain ⟨_, _, _, rfl⟩ := b
  exact ⟨_, _, _, rfl⟩

theorem told_foldl {α : Type} (f : State → α → State) (h : ∀ s x, Told s (f s x)) (l : List α) (s : State) : Told s (l.foldl f s) := by
  induction l generalizing s with
  | nil => exact .refl s
  | cons x l ih => exact (h s x).trans (ih (f s x))

theorem raiseOnly_told (s : State) (r : Raise) : Told s (raiseOnly s r) := by
  obtain ⟨h, e, c, eq, -⟩ := raiseOnly_frame s r
  exact ⟨h, e, c, eq⟩

theorem bindAlarms_told (m : Image) (r : Nat) (s : State) : Told s (bindAlarms m r s) := by
  have h : Told s (aliasConflicts r s) := told_foldl _ (fun _ _ => raiseOnly_told _ _) _ s
  unfold bindAlarms
  dsimp only
  split
  · exact h.trans (raiseOnly_told _ _)
  · exact h

theorem plan_foldl {α : Type} (f : State → α → State) (h : ∀ s x, (f s x).plan = s.plan) (l : List α) (s : State) : (l.foldl f s).plan = s.plan := by
  induction l generalizing s with
  | nil => rfl
  | cons x l ih => exact (ih (f s x)).trans (h s x)

theorem Told.plan {s t : State} (h : Told s t) : t.plan = s.plan := by
  obtain ⟨_, _, _, rfl⟩ := h
  rfl

theorem moveTo_plan (r p addr : Nat) (s : State) : (moveTo r p addr s).plan = s.plan := by
  unfold moveTo
  split <;> rfl

theorem keepPlace_plan (r p : Nat) (s : State) : (keepPlace r p s).plan = s.plan := by
  unfold keepPlace
  split
  · rfl
  · exact moveTo_plan r p p s

theorem bindNode_plan (m : Image) (r p : Nat) (e : PNode) (s : State) : (bindNode m r p e s).plan = s.plan := by
  unfold bindNode
  dsimp only
  split
  · unfold setBound
    split <;> rfl
  · exact (raiseOnly_told _ _).plan

theorem onRing_plan (s : State) (r : Nat) (f : Ring → Ring) : (s.onRing r f).plan = s.plan := by rfl

theorem bindRing_plan (m : Image) (r : Nat) (s : State) : (bindRing m r s).plan = s.plan := by
  have h := (bindAlarms_told m r s).plan
  unfold bindRing
  dsimp only
  rw [onRing_plan]
  split
  · refine (plan_foldl _ (fun s x => ?_) _ _).trans h
    exact keepPlace_plan ..
  · refine (plan_foldl _ (fun s x => ?_) _ _).trans h
    split
    next n _ => exact (bindNode_plan ..).trans (moveTo_plan ..)
    · exact keepPlace_plan r x.1 s

theorem bindRings_plan (s : State) : (bindRings s).plan = s.plan := by
  refine plan_foldl _ (fun s r => ?_) _ s
  split
  · exact bindRing_plan ..
  · rfl

theorem configureNodes_plan (s : State) : (configureNodes s).plan = s.plan := by
  refine plan_foldl _ (fun s r => plan_foldl _ (fun s p => ?_) _ s) _ s
  split <;> rfl

theorem respondLater_plan (s : State) (mb code status : Nat) (p : Bytes) : (respondLater s mb code status p).plan = s.plan := by
  unfold respondLater
  split
  next q _ =>
    dsimp only
    obtain ⟨h, ev, he, -⟩ := respond_frame (useStamp s (nextStamp s)) code { mb := mb, tag := q.tag, payload := q.payload } status (nextStamp s) p
    rw [he]
    rfl
  · rfl

theorem endTest_plan (s : State) (e : Nat) : (endTest s e).plan = s.plan := by
  unfold endTest
  split
  · dsimp only
    split
    · refine (respondLater_plan ..).trans ?_
      unfold testEnd
      dsimp only
      split <;> rfl
    · rfl
  · rfl

theorem releaseEngines_plan (s : State) : (releaseEngines s).plan = s.plan := by
  refine plan_foldl _ (fun s e => ?_) _ s
  dsimp only
  split
  · exact endTest_plan ..
  · rfl

theorem advanceTo_plan (u : Nat) (s : State) : (advanceTo u s).plan = s.plan := by
  unfold advanceTo
  split
  · rfl
  · exact advance_plan _ _

theorem image_of_plan {s t : State} (h : t.plan = s.plan) : t.image = s.image := by
  unfold State.image
  rw [h]

/-! ### CYCLE_START -/

variable {calm hold recount clear : Bool} {u v w : Vital} {dt : Nat} {q : Request} {s : State} {m : Image}

theorem answers_errWith {code : Nat} {body : State → Request → Nat → Reply} {i : Instr} {R : State → Bytes → Prop} {t : State} {st : Nat} {r : Bytes}
    (hi : exec i s = .next (serve code body dt q s)) (h : Served code dt q s)
    (hb : body (atStamp code dt q s) q (stampOf code dt q s) = .errWith t st r) (hr : R t r) : Answers i code dt q s st R :=
  ⟨t, r, by rw [hi, serve_eq h, hb], hr⟩

/-- A start that is taken on a plan verified for the present derating comes to the rings. -/
theorem cycleStartBody_verified {a : State} {t : Nat} (hf : a.cyc.first = none) (hm : a.plan.active = some m) (hv : a.plan.verifiedAt = a.tru.derating)
    (hd : needsDomain a = false) : cycleStartBody a q t =
      if ringsStatus a ≠ 0 then .errWith ((planRings a).foldl (fun s r => bindAlarms s.image r s) a) (ringsStatus a) [] else acceptStart (bindRings a) q t := by
  unfold cycleStartBody
  rw [hf, hm]
  dsimp only
  simp only [if_pos hv, hd]
  rfl

theorem cycleStart_answers (h : Served Cmd.cycleStart dt q s) (hf : (atStamp Cmd.cycleStart dt q s).cyc.first = none)
    (hm : (atStamp Cmd.cycleStart dt q s).plan.active = some m)
    (hv : (atStamp Cmd.cycleStart dt q s).plan.verifiedAt = (atStamp Cmd.cycleStart dt q s).tru.derating)
    (hd : needsDomain (atStamp Cmd.cycleStart dt q s) = false) (hr : ringsStatus (atStamp Cmd.cycleStart dt q s) = 0) :
    Answers (.cycleStart dt q) Cmd.cycleStart dt q s St.pend (fun u p => p = [] ∧
      u.cyc.first = some (firstTick (planRate m) (stampOf Cmd.cycleStart dt q s)) ∧ isPending u Cmd.cycleStart 0 = true) := by
  have hb := cycleStartBody_verified (q := q) (t := stampOf Cmd.cycleStart dt q s) hf hm hv hd
  rw [if_neg (not_not.mpr hr)] at hb
  refine answers_pend (body := cycleStartBody) rfl h hb ⟨rfl, ?_, isPending_addPend _ _ q _⟩
  generalize atStamp Cmd.cycleStart dt q s = a at hm
  generalize hp : parPromote (parPromote (bindRings a) (fun _ _ => true) .cycleStart) (fun n _ => isLocalObj n) .enable = b
  have hi : (configureNodes b).image = m := by
    have := (configureNodes_plan b).trans ((congrArg State.plan hp.symm).trans (bindRings_plan a))
    rw [State.image, this, hm]
    rfl
  show some (firstTick (planRate (configureNodes b).image) _) = _
  rw [hi]

theorem cycleStart_ringsRefuse (h : Served Cmd.cycleStart dt q s) (hf : (atStamp Cmd.cycleStart dt q s).cyc.first = none)
    (hm : (atStamp Cmd.cycleStart dt q s).plan.active = some m)
    (hv : (atStamp Cmd.cycleStart dt q s).plan.verifiedAt = (atStamp Cmd.cycleStart dt q s).tru.derating)
    (hd : needsDomain (atStamp Cmd.cycleStart dt q s) = false) (hr : ringsStatus (atStamp Cmd.cycleStart dt q s) ≠ 0) :
    Answers (.cycleStart dt q) Cmd.cycleStart dt q s (ringsStatus (atStamp Cmd.cycleStart dt q s)) (fun u p => p = [] ∧
      u.cyc = (atStamp Cmd.cycleStart dt q s).cyc ∧ u.dev.mode = (atStamp Cmd.cycleStart dt q s).dev.mode ∧
      u.par = (atStamp Cmd.cycleStart dt q s).par) := by
  have hb := cycleStartBody_verified (q := q) (t := stampOf Cmd.cycleStart dt q s) hf hm hv hd
  rw [if_pos hr] at hb
  refine answers_errWith (body := cycleStartBody) rfl h hb ⟨rfl, ?_⟩
  generalize atStamp Cmd.cycleStart dt q s = a
  obtain ⟨_, _, _, e⟩ := told_foldl (fun s r => bindAlarms s.image r s) (fun s r => bindAlarms_told s.image r s) (planRings a) a
  rw [e]
  exact ⟨rfl, rfl, rfl⟩

theorem cycleStart_planNone (h : Served Cmd.cycleStart dt q s) (hf : (atStamp Cmd.cycleStart dt q s).cyc.first = none)
    (hm : (atStamp Cmd.cycleStart dt q s).plan.active = none) :
    Answers (.cycleStart dt q) Cmd.cycleStart dt q s St.planNone (fun u p => p = [] ∧ u = atStamp Cmd.cycleStart dt q s) := by
  refine answers_err (body := cycleStartBody) rfl h ?_ ⟨rfl, rfl⟩
  unfold cycleStartBody
  rw [hf, hm]
  rfl

/-! ### The ticks -/

theorem clock_eq {s : State} {r : Bool} {rate n t0 c : Nat} (h : s.vital.clock = (r, rate, n, t0, c)) :
    s.cyc.running = r ∧ s.cyc.rate = rate ∧ s.cyc.tick = n ∧ s.cyc.t0 = t0 ∧ s.cyc.count = c := by
  have e : s.vital.clock = (s.cyc.running, s.cyc.rate, s.cyc.tick, s.cyc.t0, s.cyc.count) := rfl
  rw [e] at h
  simpa only [Prod.mk.injEq] using h

theorem image_of_vital {s t : State} (h : t.vital = s.vital) : t.image = s.image := by
  have ha : t.plan.active = s.plan.active := congrArg Vital.active h
  unfold State.image
  rw [ha]

theorem atFirst_image (n : Nat) (s : State) : (releaseEngines (atFirst n s)).image = s.image :=
  (image_of_plan (releaseEngines_plan _)).trans (image_of_vital (atFirst_vital n s))

theorem firstTick_runs {n : Nat} (hn : s.cyc.first = some n) (hr : (advanceTo (tickU (planRate s.image) n) s).cyc.running = false)
    (ht : tickU (planRate s.image) n ≤ (advanceTo (tickU (planRate s.image) n) s).time.now) :
    Runs .cycleFirstTick s (fun t => t.cyc.running = true ∧ t.cyc.tick = n ∧ t.cyc.t0 = tickU (planRate s.image) n ∧
      t.cyc.rate = planRate s.image) := by
  have hgo : ¬ ((atFirst n s).cyc.running || Nat.blt (atFirst n s).time.now (tickU (planRate s.image) n)) = true := by
    unfold atFirst
    rw [State.stressSync_cyc, State.stressSync_time, hr, Bool.false_or]
    exact fun h => absurd (Nat.blt_eq.mp h) (Nat.not_lt.mpr ht)
  refine ⟨_, (execCycleFirstTick_eq hn).trans (if_neg hgo), ?_⟩
  obtain ⟨u, hu, hb⟩ := beginCycle_reacts (calm := false) (hold := false) (recount := false) (clear := true) n (atFirst n s)
  rw [atFirst_image] at hu
  have ho : Reacts false false false true { u with mode := .preop }
      (openCycle n (tickU (planRate s.image) n) (holdRow (beginCycle n (atFirst n s)))).vital := by
    simp only [openCycle_vital, holdRow_vital]
    exact .inl hb
  have hc := (ho.clock rfl).trans (hu.clock rfl)
  obtain ⟨h1, h2, h3, h4, -⟩ := clock_eq hc
  exact ⟨h1, h3, h4, h2⟩

theorem tick_runs (hr : (advanceTo (tickU s.cyc.rate (s.cyc.tick + 1)) s).cyc.running = true)
    (ht : tickU s.cyc.rate (s.cyc.tick + 1) ≤ (advanceTo (tickU s.cyc.rate (s.cyc.tick + 1)) s).time.now) :
    Runs .tick s (fun t => t.cyc.tick = s.cyc.tick + 1 ∧ t.cyc.t0 = tickU s.cyc.rate (s.cyc.tick + 1) ∧ t.cyc.count = s.cyc.count + 1 ∧
      t.cyc.rate = s.cyc.rate) := by
  rw [advanceTo_cyc] at hr
  refine ⟨_, execTick_opens hr ht, ?_⟩
  have hb : Reacts false true false true s.vital (endedCycle (s.cyc.tick + 1) (atTick s)).vital := by simp
  obtain ⟨-, hrate, -, -, hcount⟩ := clock_eq (hb.clock rfl)
  obtain ⟨-, h2, h3, h4, h5⟩ := clock_eq
    ((openNext_reacts (hold := false) s.cyc.tick s.cyc.t0 (s.cyc.tick + 1) (endedCycle (s.cyc.tick + 1) (atTick s))).clock rfl)
  rw [hrate] at h2 h4
  rw [hcount] at h5
  exact ⟨h3, h4, h5, h2⟩

/-! ### The end of the cycle -/

theorem endUnits_stops (s : State) : (endUnits s).cyc.running = false := by
  unfold endUnits
  dsimp only
  generalize (List.range (ringCount s.var)).foldl (fun s r => reportBreaks r s) s = s1
  generalize hs : ({ s1 with
    host := { s1.host with snapTick := none },
    rings := tmap s1.rings (fun _ g => { g with waiting := [] }),
    time := retuneNow s1.time,
    cyc := { s1.cyc with running := false, tasks := [], bundles := [], bursts := [], first := none, closed := false },
    disp := { s1.disp with
      ready := [],
      engines := tmap s1.disp.engines (fun _ g => { g with
        active := none, next := none, chain := [], busyNow := 0 }) } } : State) = s2
  have h : Reacts true false false false s2.vital (stopInputs (stopTimers (writePiHead (stressSync s2) none))).vital := by simp
  generalize stopInputs (stopTimers (writePiHead (stressSync s2) none)) = t at h ⊢
  have hr : s2.cyc.running = false := by rw [← hs]
  exact (congrArg Prod.fst (h.clock rfl)).trans hr

theorem endCycle_stops (s : State) : (endCycle s).cyc.running = false := endUnits_stops _

theorem breakCycle_stops (s : State) : (breakCycle s).cyc.running = false := endUnits_stops _

theorem cycleStop_answers (h : Served Cmd.cycleStop dt q s) :
    Answers (.cycleStop dt q) Cmd.cycleStop dt q s St.ok (fun u p => p = [] ∧ u.cyc.running = false ∧ u.dev.mode = .config) := by
  refine answers_ok (body := cycleStopBody) rfl h rfl ⟨rfl, ?_⟩
  generalize atStamp Cmd.cycleStop dt q s = a
  have hm := enterConfig_mode (endCycle a)
  have hc := (enterConfig_reacts (calm := true) (hold := false) (recount := false) (clear := false) (endCycle a)).clock rfl
  have hs : Reacts true true false false (enterConfig (endCycle a)).vital (reviveEngines (stopConns (enterConfig (endCycle a)))).vital := by simp
  have hu := hs.unheld (by show (enterConfig (endCycle a)).dev.mode ≠ _; rw [hm]; decide) (by show (enterConfig (endCycle a)).dev.mode ≠ _; rw [hm]; decide)
  have hr := endCycle_stops a
  generalize reviveEngines (stopConns (enterConfig (endCycle a))) = t at hs hu ⊢
  generalize enterConfig (endCycle a) = b at hm hc hs hu
  generalize endCycle a = c at hc hr
  obtain ⟨k, -⟩ := clock_eq ((hs.clock rfl).trans hc)
  exact ⟨k.trans hr, hu.mode.trans hm⟩

theorem cycleHwFault_runs {n : Nat} (hr : (advance dt s).cyc.running = true) (h1 : 1 ≤ n) (h4 : n ≤ 4)
    (h2 : n = 2 → ringCount (advance dt s).var = 2) (hn : (advance dt s).dev.hwFaults.contains n = false) :
    Runs (.cycleHwFault dt n) s (fun t => t.cyc.running = false ∧ t.dev.hwFaults.contains n = true ∧
      t.ev.raised.contains Ev.cycleHwFault = true ∧
      ((advance dt s).dev.mode = .preop ∨ (advance dt s).dev.mode = .operational ∨ (advance dt s).dev.mode = .safeHold → t.dev.mode = .fault)) := by
  have hgo : ((advance dt s).cyc.running && Nat.ble 1 n && Nat.ble n 4 && !(advance dt s).dev.hwFaults.contains n &&
      (n != 2 || ringCount (advance dt s).var == 2)) = true := by
    have e2 : (n != 2 || ringCount (advance dt s).var == 2) = true := by
      by_cases k : n = 2
      · rw [h2 k]; exact Bool.or_true _
      · rw [bne_iff_ne.mpr k]; rfl
    rw [hr, hn, e2, Nat.ble_eq.mpr h1, Nat.ble_eq.mpr h4]
    rfl
  refine ⟨_, if_pos hgo, ?_⟩
  generalize advance dt s = a at hgo
  generalize hb : ({ a with dev := { a.dev with hwFaults := a.dev.hwFaults ++ [n] } } : State) = b
  have hbm : b.dev.mode = a.dev.mode := by rw [← hb]
  have hbh : b.dev.hwFaults.contains n = true := by rw [← hb]; simp
  have hf := raiseDevice_contains b { source := Ev.cycleHwFault, cls := Cls.device, cause := n } 1
  have hd : Reacts false false false false b.vital (raiseDevice b { source := Ev.cycleHwFault, cls := Cls.device, cause := n } 1).vital := by simp
  have hfault : faulted a.dev.mode = true → _ := fun k =>
    raiseDevice_mode (s := b) (hbm ▸ k) { source := Ev.cycleHwFault, cls := Cls.device, cause := n } 1
  generalize raiseDevice b { source := Ev.cycleHwFault, cls := Cls.device, cause := n } 1 = c at hf hd hfault
  have hk : Reacts true false true false c.vital (breakCycle c).vital := by simp
  have hs : Reacts true true false false (breakCycle c).vital (stopConns (breakCycle c)).vital := by simp
  have hr := breakCycle_stops c
  generalize breakCycle c = d at hk hs hr ⊢
  generalize stopConns d = t at hs ⊢
  refine ⟨(congrArg Prod.fst (hs.clock rfl)).trans hr, ?_, hs.raised_contains (hk.raised_contains hf), fun k => ?_⟩
  · have e := congrArg Prod.fst ((hs.causes.trans hk.causes).trans hd.causes)
    exact (congrArg (fun l => List.contains l n) e).trans hbh
  · exact hs.stays_fault (hk.stays_fault (hfault ((faulted_iff _).mpr (by rcases k with k | k | k <;> rw [k] <;> decide))))

theorem cycleHwFault_waits {n : Nat} (h : (advance dt s).cyc.running = false ∨ n = 0 ∨ 4 < n ∨ (advance dt s).dev.hwFaults.contains n = true) :
    Runs (.cycleHwFault dt n) s (fun t => t = advance dt s) := by
  refine ⟨_, if_neg ?_, rfl⟩
  intro k
  simp only [Bool.and_eq_true, Bool.not_eq_true', Nat.ble_eq] at k
  obtain ⟨⟨⟨⟨k1, k2⟩, k3⟩, k4⟩, -⟩ := k
  rcases h with h | h | h | h
  · rw [h] at k1
    cases k1
  · omega
  · omega
  · rw [h] at k4
    cases k4

/-- Settles O18: a start waits for the tick it names, the ticks count, and the cycle ends with CYCLE_STOP or with its hardware. -/
theorem cycleStartsTicksAndStops : Obligations.CycleStartsTicksAndStops := by
  intro s dt n q m
  exact ⟨cycleStart_answers, cycleStart_ringsRefuse, cycleStart_planNone, firstTick_runs, tick_runs, cycleStop_answers, cycleHwFault_runs,
    cycleHwFault_waits⟩

end Sys2Proof.Machine
end

