-- ==== Sys2Proof/Proofs/PowerFailWaits.lean ====
section
/-! A power fail that fails no power: O10. -/

namespace Sys2Proof.Machine

/-- A device without supply whose ring 0 has an enumeration that waits, though no pass runs. -/
def waitingUnpowered : State := { dev := { mode := .off }, rings := [(0, { enum := some { waits := true } })] }

/-- Whether an enumeration of ring 0 waits for a pass. -/
def State.enumWaits (s : State) : Option Bool := (s.ring 0).enum.map Enum.waits

/-- POWER_FAIL launches the waiting enumeration, though no power fails. -/
theorem powerFail_launches : ∃ t, exec (.powerFail 0 true) waitingUnpowered = .next t ∧ t.enumWaits = some false :=
  ⟨launchEnums (failPower true (advance 0 waitingUnpowered)), rfl, by decide⟩

/-- Refutes O10: POWER_FAIL ends with the launch of the enumerations that wait, also where it fails no power; so on the state of
`waitingUnpowered` it does not leave the state as it was. The clause speaks of every state, also of one that no run may reach. -/
theorem not_bootAndSupervision : ¬ Obligations.BootAndSupervision := by
  intro h
  obtain ⟨-, -, -, -, -, -, -, -, -, waits, -⟩ := h waitingUnpowered 0 0 0 0 0 false false true
    ⟨0, [], ⟨0, [], false, false, 0, 0, 0, 0, 0, []⟩, false, []⟩
  obtain ⟨t, ht, hsame⟩ := waits (.inl rfl)
  obtain ⟨u, hu, hlaunched⟩ := powerFail_launches
  have e : u = advance 0 waitingUnpowered := Host.Outcome.next.inj (hu.symm.trans (hsame ▸ ht))
  rw [e] at hlaunched
  exact absurd hlaunched (by decide)
end Sys2Proof.Machine
end

