-- ==== Sys2Proof/Proofs/DmaTransfers.lean ====
section
/-! The commands of the DMA channels, list entries and bursts: O58. -/

namespace Sys2Proof.Machine

/-! ### Channels and windows -/

variable {code dt n : Nat} {q : Request} {s t : State}

theorem onChan_chan (s : State) (n : Nat) (f : DmaCh → DmaCh) : (s.onChan n f).chan n = f (s.chan n) := tget_tmod_self ..

theorem onChan_chan_other {k : Nat} (s : State) (f : DmaCh → DmaCh) (h : k ≠ n) : (s.onChan n f).chan k = s.chan k := tget_tmod_other _ _ _ _ _ h

theorem chan_of_dma (h : t.dma = s.dma) (n : Nat) : t.chan n = s.chan n := by
  unfold State.chan
  rw [h]

theorem atStamp_chan (n : Nat) : (atStamp code dt q s).chan n = s.chan n := chan_of_dma (atStamp_dma ..) n

theorem advance_chan (n : Nat) : (advance dt s).chan n = s.chan n := chan_of_dma (advance_dma ..) n

theorem ddrEnd_of_board (h : t.board = s.board) : ddrEnd t = ddrEnd s := by
  unfold ddrEnd
  rw [h]

theorem winOf_of_board (h : t.board = s.board) (a : Nat) : winOf t a = winOf s a := by
  unfold winOf State.var
  rw [ddrEnd_of_board h, h]

/-- A window that is not the host's cannot be out of reach. -/
theorem linkGone_of_win {a : Nat} {w : Win} (h : winOf s a = some w) (hw : w ≠ .host) : linkGone s a = false := by
  unfold linkGone
  rw [h]
  cases w
  case host => exact absurd rfl hw
  all_goals rfl

/-! ### The end of a transfer -/

theorem finish_dma (s : State) (code key status : Nat) (p : Bytes) : (finish s code key status p).dma = s.dma :=
  congrArg Outside.dma (finish_outside ..)

theorem finish_ev (s : State) (code key status : Nat) (p : Bytes) : (finish s code key status p).ev = s.ev := by
  obtain ⟨_, _, e, -⟩ := finish_frame s code key status p
  rw [e]

theorem finish_ddr (s : State) (code key status : Nat) (p : Bytes) : (finish s code key status p).mem.ddr = s.mem.ddr := by
  obtain ⟨_, _, e, -⟩ := finish_frame s code key status p
  rw [e]

/-- A channel whose transfer is complete. -/
def DmaCh.completed (c : DmaCh) : DmaCh :=
  { c with state := dmaDone, status := St.ok, result := c.final, run := {}, held := false, ctrl := c.ctrl - c.ctrl % 2 }

/-- A channel whose transfer has ended with a status. -/
def DmaCh.ended (c : DmaCh) (status : Nat) : DmaCh :=
  { c with state := dmaFailedSt, status := status, result := 0, run := {}, held := false, retried := false, ctrl := c.ctrl - c.ctrl % 2 }

theorem dmaComplete_eq (s : State) (h : n ≠ spillCh) : dmaComplete s n =
    finish (s.onChan n (fun _ => (s.chan n).completed)) Cmd.dmaStart n St.ok (dmaFinal (s.chan n).completed) := if_neg h

theorem dmaComplete_chan (s : State) (h : n ≠ spillCh) : (dmaComplete s n).chan n = (s.chan n).completed := by
  rw [dmaComplete_eq s h, chan_of_dma (finish_dma ..)]
  exact onChan_chan ..

theorem dmaComplete_ev (s : State) (h : n ≠ spillCh) : (dmaComplete s n).ev = s.ev := by
  rw [dmaComplete_eq s h, finish_ev]
  rfl

theorem dmaComplete_ddr (s : State) (h : n ≠ spillCh) : (dmaComplete s n).mem.ddr = s.mem.ddr := by
  rw [dmaComplete_eq s h, finish_ddr]
  rfl

theorem dmaComplete_pending (s : State) (h : n ≠ spillCh) : isPending (dmaComplete s n) Cmd.dmaStart n = false := by
  rw [dmaComplete_eq s h]
  exact isPending_finish ..

/-- What is left when a transfer has ended, before its notification. -/
def endedChan (s : State) (n status : Nat) : State :=
  { s with dma := { s.dma with chans := tmod s.dma.chans {} n (fun _ => (s.chan n).ended status), buffer := s.dma.buffer.filter (fun e => e.1 != n) } }

theorem dmaEnd_eq (s : State) (n status : Nat) : dmaEnd s n status = if n = spillCh then endedChan s n status
    else finish (endedChan s n status) Cmd.dmaStart n status (dmaFinal ((s.chan n).ended status)) := by rfl

theorem dmaEnd_chan (s : State) (n status : Nat) : (dmaEnd s n status).chan n = (s.chan n).ended status := by
  have h : (endedChan s n status).chan n = (s.chan n).ended status := tget_tmod_self s.dma.chans {} n (fun _ => (s.chan n).ended status)
  rw [dmaEnd_eq]
  split
  · exact h
  · rw [chan_of_dma (finish_dma ..)]
    exact h

theorem dmaEnd_ev (s : State) (n status : Nat) : (dmaEnd s n status).ev = s.ev := by
  rw [dmaEnd_eq]
  split
  · rfl
  · rw [finish_ev]
    rfl

theorem dmaEnd_pending (s : State) (status : Nat) (h : n ≠ spillCh) : isPending (dmaEnd s n status) Cmd.dmaStart n = false := by
  rw [dmaEnd_eq, if_neg h]
  exact isPending_finish ..

/-! ### The list areas -/

theorem memRead_congr {m m' : List Host.Cell} {a k : Nat} (h : ∀ i, i < k → memGet m (a + i) = memGet m' (a + i)) : memRead m a k = memRead m' a k := by
  rw [memRead_eq_map, memRead_eq_map]
  exact List.map_congr_left fun i hi => h i (List.mem_range.mp hi)

theorem slice_length (b : Bytes) (o k : Nat) : (slice b o k).length = k := by
  unfold slice
  simp

theorem writeEntries_out (base index : Nat) (p : Bytes) {x : Nat} (k : Nat) (h : x < base + 8 * index ∨ base + 8 * (index + k) ≤ x) (s : State) :
    memGet (writeEntries s base index p k).mem.sram x = memGet s.mem.sram x := by
  induction k generalizing s with
  | zero => rfl
  | succ k ih =>
    rw [writeEntries, ih (by omega)]
    exact memGet_memWrite_out _ _ _ _ (by rw [slice_length]; omega)

theorem writeEntries_in (base index : Nat) (p : Bytes) {j : Nat} (k : Nat) (h : j < k) (s : State) (hs : Memory.wf s.mem.sram = true) :
    memRead (writeEntries s base index p k).mem.sram (base + 8 * (index + j)) 8 = slice p (8 + 8 * j) 8 := by
  induction k generalizing s with
  | zero => omega
  | succ k ih =>
    rw [writeEntries]
    by_cases hj : j < k
    · exact ih hj _ (wf_memWrite _ _ hs)
    · obtain rfl : j = k := by omega
      have hw := memRead_memWrite hs (base + 8 * (index + j)) (slice p (8 + 8 * j) 8)
      rw [slice_length] at hw
      refine (memRead_congr fun i _ => ?_).trans hw
      exact writeEntries_out base index p j (by omega) _

/-! ### Commands -/

theorem withChan_pos {p : Bytes} (hp : uAt p 0 1 = n) (h1 : 24 ≤ n) (h2 : n < 32) (k : Nat → Reply) : withChan p k = k n := by
  unfold withChan
  dsimp only
  rw [hp]
  exact need_pos (by rw [Nat.ble_eq.mpr h1, Nat.blt_eq.mpr h2]; rfl) _

theorem resv_of_eq {p : Bytes} {o k : Nat} (h : uAt p o k = 0) : resv p o k = true := beq_iff_eq.mpr h

theorem host_ne_spill (h : 24 ≤ n) : n ≠ spillCh := by
  unfold spillCh
  omega

section
variable {a : State} {t : Nat} (hp : uAt q.payload 0 1 = n) (h24 : 24 ≤ n) (h32 : n < 32)
include hp h24 h32

theorem dmaSetupBody_eq (hr : uAt q.payload 2 2 = 0) (hs : uAt q.payload 1 1 % 2 = 0) (hl : uAt q.payload 1 1 < 64)
    (hm : bitsOf (uAt q.payload 1 1) 1 2 ≠ 3) (hk : bitsOf (uAt q.payload 1 1) 3 2 ≠ 3)
    (hc : if bitsOf (uAt q.payload 1 1) 1 2 = 0 then 1 ≤ uAt q.payload 4 4 ∧ uAt q.payload 4 4 < 16777216 else uAt q.payload 4 4 = 0)
    (ha : uAt q.payload 8 8 < 2 ^ 40) (hb : uAt q.payload 16 8 < 2 ^ 40) (hd : uAt q.payload 24 8 < 2 ^ 40) (he : uAt q.payload 24 8 % 8 = 0) :
    dmaSetupBody a q t = orElse (!(a.chan n).busy) St.dmaBusy (.ok (a.onChan n (fun c => { c with
      src := uAt q.payload 8 8, dst := uAt q.payload 16 8, list := uAt q.payload 24 8, count := uAt q.payload 4 4, ctrl := uAt q.payload 1 1 })) []) := by
  have hcount : (if bitsOf (uAt q.payload 1 1) 1 2 = 0 then Nat.ble 1 (uAt q.payload 4 4) && Nat.blt (uAt q.payload 4 4) 16777216
      else uAt q.payload 4 4 == 0) = true := by
    split at hc
    next k => rw [if_pos k, Nat.ble_eq.mpr hc.1, Nat.blt_eq.mpr hc.2]; rfl
    next k => rw [if_neg k, hc]; rfl
  have below : ∀ {x : Nat}, x < 2 ^ 40 → Nat.blt x 0x10000000000 = true := fun h => Nat.blt_eq.mpr h
  unfold dmaSetupBody
  dsimp only
  rw [withChan_pos hp h24 h32, need_pos]
  rw [resv_of_eq hr, hs, Nat.blt_eq.mpr hl, bne_iff_ne.mpr hm, bne_iff_ne.mpr hk, hcount, below ha, below hb, below hd, he]
  rfl

/-- What DMA_START makes of a channel. -/
def DmaCh.started (c : DmaCh) (hi : Nat) : DmaCh :=
  { c with tail := 0, bytes := 0, result := 0, state := dmaRunning, retried := false, ctrl := c.ctrl - c.ctrl % 2 + 1, outHi := hi,
           sum := if c.check = 1 then 0xFFFFFFFF else 0, oddByte := none, held := c.mode == 0,
           run := { entryAddr := c.list, src := c.src, dst := c.dst, left := if c.mode = 0 then c.count else 0, inSeg := c.mode == 0 } }

theorem dmaStartBody_eq (hr : uAt q.payload 1 3 = 0) : dmaStartBody a q t = orElse (!(a.chan n).busy) St.dmaBusy
    (.pend (addPend ((parPromote a (fun _ _ => true) .dmaStart).onChan n (fun c =>
      c.started (parN (parPromote a (fun _ _ => true) .dmaStart) Par.pcieOutHi 0))) Cmd.dmaStart q n)) := by
  unfold dmaStartBody
  dsimp only
  rw [withChan_pos hp h24 h32, need_pos (resv_of_eq hr)]
  rfl

theorem dmaListWriteBody_eq (h1 : 1 ≤ uAt q.payload 1 1) (h30 : uAt q.payload 1 1 ≤ 30) (hr : uAt q.payload 4 4 = 0) :
    dmaListWriteBody a q t = orElse (Nat.ble (uAt q.payload 2 2 + uAt q.payload 1 1) 256) St.windowExceeded
      (.ok (writeEntries a (0x3F0000 + 0x800 * (n - 24)) (uAt q.payload 2 2) q.payload (uAt q.payload 1 1)) []) := by
  unfold dmaListWriteBody
  dsimp only
  rw [withChan_pos hp h24 h32, need_pos]
  rw [Nat.ble_eq.mpr h1, Nat.ble_eq.mpr h30, resv_of_eq hr]
  rfl

theorem dmaAppendBody_eq (hr : uAt q.payload 1 3 = 0) (hs : (a.chan n).state = dmaRunning ∨ (a.chan n).state = dmaParked)
    (ho : (a.chan n).isOpen = true) :
    dmaAppendBody a q t = .ok (a.onChan n (fun c => { c with tail := (c.tail + 1) % 65536, state := dmaRunning })) [] := by
  unfold dmaAppendBody
  dsimp only
  rw [withChan_pos hp h24 h32, need_pos (resv_of_eq hr), orElse_pos]
  rw [ho]
  rcases hs with hs | hs <;> rw [hs] <;> rfl

theorem dmaCloseBody_eq (hr : uAt q.payload 1 3 = 0) (hs : (a.chan n).state = dmaRunning ∨ (a.chan n).state = dmaParked)
    (ho : (a.chan n).isOpen = true) : dmaCloseBody a q t =
      .ok (if (a.chan n).state = dmaParked then dmaComplete (a.onChan n (fun c => { c with ctrl := c.ctrl - 32 })) n
        else a.onChan n (fun c => { c with ctrl := c.ctrl - 32 })) [] := by
  unfold dmaCloseBody
  dsimp only
  rw [withChan_pos hp h24 h32, need_pos (resv_of_eq hr), orElse_pos]
  rw [ho]
  rcases hs with hs | hs <;> rw [hs] <;> rfl

theorem dmaAbortBody_eq (hr : uAt q.payload 1 3 = 0) (hb : (a.chan n).busy = true) : dmaAbortBody a q t = .ok (dmaEnd a n St.dmaAborted) [] := by
  unfold dmaAbortBody
  dsimp only
  rw [withChan_pos hp h24 h32, need_pos (resv_of_eq hr), orElse_pos hb]

theorem dmaSetup_answers (h : Served Cmd.dmaSetup dt q s) (hr : uAt q.payload 2 2 = 0) (hs : uAt q.payload 1 1 % 2 = 0) (hl : uAt q.payload 1 1 < 64)
    (hm : bitsOf (uAt q.payload 1 1) 1 2 ≠ 3) (hk : bitsOf (uAt q.payload 1 1) 3 2 ≠ 3)
    (hc : if bitsOf (uAt q.payload 1 1) 1 2 = 0 then 1 ≤ uAt q.payload 4 4 ∧ uAt q.payload 4 4 < 16777216 else uAt q.payload 4 4 = 0)
    (ha : uAt q.payload 8 8 < 2 ^ 40) (hb : uAt q.payload 16 8 < 2 ^ 40) (hd : uAt q.payload 24 8 < 2 ^ 40) (he : uAt q.payload 24 8 % 8 = 0) :
    ((s.chan n).busy = false → Answers (.dmaSetup dt q) Cmd.dmaSetup dt q s St.ok (fun u r => r = [] ∧ u.chan n =
      { s.chan n with src := uAt q.payload 8 8, dst := uAt q.payload 16 8, list := uAt q.payload 24 8, count := uAt q.payload 4 4,
                      ctrl := uAt q.payload 1 1 } ∧
      ∀ k, k ≠ n → u.chan k = s.chan k)) ∧
    ((s.chan n).busy = true → Refuses (.dmaSetup dt q) Cmd.dmaSetup dt q s St.dmaBusy) := by
  have hbody := dmaSetupBody_eq (a := atStamp Cmd.dmaSetup dt q s) (t := stampOf Cmd.dmaSetup dt q s) hp h24 h32 hr hs hl hm hk hc ha hb hd he
  rw [atStamp_chan] at hbody
  refine ⟨fun k => ?_, fun k => refuses (body := dmaSetupBody) rfl h (hbody.trans (orElse_neg (by rw [k]; rfl) _ _))⟩
  refine answers_ok (body := dmaSetupBody) rfl h (hbody.trans (orElse_pos (by rw [k]; rfl) _ _)) ⟨rfl, ?_, fun j hj => ?_⟩
  · rw [onChan_chan, atStamp_chan]
  · rw [onChan_chan_other _ _ hj, atStamp_chan]

theorem dmaStart_answers (h : Served Cmd.dmaStart dt q s) (hr : uAt q.payload 1 3 = 0) :
    ((s.chan n).busy = false → Answers (.dmaStart dt q) Cmd.dmaStart dt q s St.pend (fun u r => r = [] ∧ (u.chan n).state = dmaRunning ∧
      (u.chan n).bytes = 0 ∧ (u.chan n).tail = 0 ∧ (u.chan n).status = (s.chan n).status ∧ (u.chan n).ctrl % 2 = 1 ∧
      (u.chan n).src = (s.chan n).src ∧ (u.chan n).dst = (s.chan n).dst ∧
      isPending u Cmd.dmaStart n = true ∧ ∀ k, k ≠ n → u.chan k = s.chan k)) ∧
    ((s.chan n).busy = true → Refuses (.dmaStart dt q) Cmd.dmaStart dt q s St.dmaBusy) := by
  have hbody := dmaStartBody_eq (a := atStamp Cmd.dmaStart dt q s) (t := stampOf Cmd.dmaStart dt q s) hp h24 h32 hr
  rw [atStamp_chan] at hbody
  refine ⟨fun k => ?_, fun k => refuses (body := dmaStartBody) rfl h (hbody.trans (orElse_neg (by rw [k]; rfl) _ _))⟩
  refine answers_pend (body := dmaStartBody) rfl h (hbody.trans (orElse_pos (by rw [k]; rfl) _ _)) ?_
  have hc : ∀ k, (parPromote (atStamp Cmd.dmaStart dt q s) (fun _ _ => true) .dmaStart).chan k = s.chan k := fun k => atStamp_chan k
  have ha : ∀ (u : State) k, (addPend u Cmd.dmaStart q n).chan k = u.chan k := fun _ _ => rfl
  generalize parPromote (atStamp Cmd.dmaStart dt q s) (fun _ _ => true) .dmaStart = b at hc ⊢
  rw [ha, onChan_chan, hc]
  refine ⟨rfl, rfl, rfl, rfl, rfl, ?_, rfl, rfl, isPending_addPend .., fun j hj => ?_⟩
  · show ((s.chan n).ctrl - (s.chan n).ctrl % 2 + 1) % 2 = 1
    omega
  · rw [ha, onChan_chan_other _ _ hj, hc]

theorem dmaListWrite_answers (hi : MemInv s) (h : Served Cmd.dmaListWrite dt q s) (h1 : 1 ≤ uAt q.payload 1 1) (h30 : uAt q.payload 1 1 ≤ 30)
    (hr : uAt q.payload 4 4 = 0) :
    (uAt q.payload 2 2 + uAt q.payload 1 1 ≤ 256 → Answers (.dmaListWrite dt q) Cmd.dmaListWrite dt q s St.ok (fun u r => r = [] ∧
      (∀ k, k < uAt q.payload 1 1 → memRead u.mem.sram (0x3F0000 + 0x800 * (n - 24) + 8 * (uAt q.payload 2 2 + k)) 8 =
        slice q.payload (8 + 8 * k) 8) ∧
      ∀ j, (j < 0x3F0000 + 0x800 * (n - 24) + 8 * uAt q.payload 2 2 ∨
          0x3F0000 + 0x800 * (n - 24) + 8 * (uAt q.payload 2 2 + uAt q.payload 1 1) ≤ j) → memGet u.mem.sram j = memGet s.mem.sram j)) ∧
    (256 < uAt q.payload 2 2 + uAt q.payload 1 1 → Refuses (.dmaListWrite dt q) Cmd.dmaListWrite dt q s St.windowExceeded) := by
  have hm := atStamp_mem (code := Cmd.dmaListWrite) (dt := dt) (q := q) (s := s)
  have hbody := dmaListWriteBody_eq (a := atStamp Cmd.dmaListWrite dt q s) (t := stampOf Cmd.dmaListWrite dt q s) hp h24 h32 h1 h30 hr
  refine ⟨fun k => ?_, fun k => refuses (body := dmaListWriteBody) rfl h (hbody.trans (orElse_neg ?_ _ _))⟩
  · refine answers_ok (body := dmaListWriteBody) rfl h (hbody.trans (orElse_pos (Nat.ble_eq.mpr k) _ _)) ⟨rfl, fun j hj => ?_, fun j hj => ?_⟩
    · exact writeEntries_in _ _ _ _ hj _ (by rw [hm]; exact hi.1.1)
    · rw [writeEntries_out _ _ _ _ hj, hm]
  · rw [← Bool.not_eq_true, Nat.ble_eq]
    omega

theorem dmaAppend_answers (h : Served Cmd.dmaAppend dt q s) (hr : uAt q.payload 1 3 = 0)
    (hs : (s.chan n).state = dmaRunning ∨ (s.chan n).state = dmaParked) (ho : (s.chan n).isOpen = true) :
    Answers (.dmaAppend dt q) Cmd.dmaAppend dt q s St.ok (fun u r => r = [] ∧
      u.chan n = { s.chan n with tail := ((s.chan n).tail + 1) % 65536, state := dmaRunning }) := by
  have hc := atStamp_chan (code := Cmd.dmaAppend) (dt := dt) (q := q) (s := s) n
  refine answers_ok (body := dmaAppendBody) rfl h (dmaAppendBody_eq hp h24 h32 hr (hc ▸ hs) (hc ▸ ho)) ⟨rfl, ?_⟩
  rw [onChan_chan, atStamp_chan]

theorem dmaClose_answers (h : Served Cmd.dmaClose dt q s) (hr : uAt q.payload 1 3 = 0) (ho : (s.chan n).isOpen = true) :
    ((s.chan n).state = dmaRunning → Answers (.dmaClose dt q) Cmd.dmaClose dt q s St.ok (fun u r => r = [] ∧
      u.chan n = { s.chan n with ctrl := (s.chan n).ctrl - 32 })) ∧
    ((s.chan n).state = dmaParked → Answers (.dmaClose dt q) Cmd.dmaClose dt q s St.ok (fun u r => r = [] ∧
      (u.chan n).state = dmaDone ∧ (u.chan n).status = St.ok ∧ isPending u Cmd.dmaStart n = false)) := by
  have hn := host_ne_spill h24
  have hc := atStamp_chan (code := Cmd.dmaClose) (dt := dt) (q := q) (s := s) n
  refine ⟨fun k => ?_, fun k => ?_⟩
  · refine answers_ok (body := dmaCloseBody) rfl h (dmaCloseBody_eq hp h24 h32 hr (.inl (hc ▸ k)) (hc ▸ ho)) ⟨rfl, ?_⟩
    rw [hc, if_neg (by rw [k]; decide), onChan_chan, hc]
  · refine answers_ok (body := dmaCloseBody) rfl h (dmaCloseBody_eq hp h24 h32 hr (.inr (hc ▸ k)) (hc ▸ ho)) ⟨rfl, ?_⟩
    rw [hc, if_pos k, dmaComplete_chan _ hn]
    exact ⟨rfl, rfl, dmaComplete_pending _ hn⟩

theorem dmaAbort_answers (h : Served Cmd.dmaAbort dt q s) (hr : uAt q.payload 1 3 = 0) (hb : (s.chan n).busy = true) :
    Answers (.dmaAbort dt q) Cmd.dmaAbort dt q s St.ok (fun u r => r = [] ∧ (u.chan n).state = dmaFailedSt ∧
      (u.chan n).status = St.dmaAborted ∧ (u.chan n).result = 0 ∧ (u.chan n).bytes = (s.chan n).bytes ∧
      isPending u Cmd.dmaStart n = false) := by
  have hc := atStamp_chan (code := Cmd.dmaAbort) (dt := dt) (q := q) (s := s) n
  refine answers_ok (body := dmaAbortBody) rfl h (dmaAbortBody_eq hp h24 h32 hr (hc ▸ hb)) ⟨rfl, ?_⟩
  rw [dmaEnd_chan, atStamp_chan]
  exact ⟨rfl, rfl, rfl, rfl, dmaEnd_pending _ _ (host_ne_spill h24)⟩

end

/-! ### The read of a list entry -/

theorem dmaRetried_id (s : State) (a : Nat) (h : (s.chan n).retried = false) : dmaRetried s n a = s := by
  unfold dmaRetried
  rw [h]
  rfl

/-- What a read that brings its bytes goes on with. -/
def noted (s : State) (read : BurstRead) : State := if read = .corrected then eccFixed s else s

theorem noted_eccCorrected (s : State) (read : BurstRead) :
    (noted s read).ev.eccCorrected = if read = .corrected then inc32 s.ev.eccCorrected else s.ev.eccCorrected := by
  unfold noted
  split <;> rfl

theorem noted_frame (s : State) (read : BurstRead) : ∃ e, noted s read = { s with ev := e } := by
  unfold noted
  split <;> exact ⟨_, rfl⟩

theorem dmaRead_good {s : State} {a : Nat} {read : BurstRead} (go : State → State) (h : read ≠ .failed) (hr : (s.chan n).retried = false) :
    dmaRead s n a read go = go (noted s read) := by
  cases read with
  | failed => exact absurd rfl h
  | good => exact congrArg go (dmaRetried_id s a hr)
  | corrected => exact congrArg go (dmaRetried_id (eccFixed s) a hr)

theorem dmaReadFails_first {s : State} {a : Nat} (h : (s.chan n).retried = false) :
    dmaReadFails s n a = s.onChan n (fun c => { c with retried := true }) := by
  unfold dmaReadFails
  dsimp only
  rw [h]
  rfl

theorem chanGoes (entry : EntryRead) (data : Bytes) (read : BurstRead) (h : (s.chan n).state ≠ dmaRunning) :
    Runs (.dmaEntryRead dt n entry) s (fun t => t = advance dt s) ∧ Runs (.dmaBurst dt n data read) s (fun t => t = advance dt s) := by
  rw [← advance_chan (dt := dt)] at h
  exact ⟨⟨_, if_neg fun k => h k.1, rfl⟩, ⟨_, if_neg fun k => h k.1, rfl⟩⟩

theorem addrDown_of_frame {t s : State} (hb : t.board = s.board) (hd : t.dma = s.dma) (a : Nat) : addrDown t a = addrDown s a := by
  unfold addrDown domainDown
  rw [winOf_of_board hb, hd]

theorem listOk_of_board {t s : State} (h : t.board = s.board) (n base a : Nat) : listOk t n base a = listOk s n base a := by
  unfold listOk
  rw [winOf_of_board h, winOf_of_board h]

/-- The engine stands at an end entry in the shared SRAM, which it may read. -/
structure AtEnd (s : State) (n : Nat) : Prop where
  running : (s.chan n).state = dmaRunning
  chain : (s.chan n).mode ≠ 0
  between : (s.chan n).run.inSeg = false
  powered : addrDown s (s.chan n).run.entryAddr = false
  inList : listOk s n (s.chan n).list (s.chan n).run.entryAddr = true
  inSram : winOf s (s.chan n).run.entryAddr = some .sram
  isEnd : uAt (memRead s.mem.sram (s.chan n).run.entryAddr 8) 5 3 = 0
  fresh : (s.chan n).retried = false

theorem AtEnd.of_frame {t s : State} (h : AtEnd s n) (hb : t.board = s.board) (hd : t.dma = s.dma) (hm : t.mem = s.mem) : AtEnd t n := by
  have hc := chan_of_dma hd n
  obtain ⟨h1, h2, h3, h4, h5, h6, h7, h8⟩ := h
  refine ⟨?_, ?_, ?_, ?_, ?_, ?_, ?_, ?_⟩ <;> rw [hc]
  · exact h1
  · exact h2
  · exact h3
  · rw [addrDown_of_frame hb hd]; exact h4
  · rw [listOk_of_board hb]; exact h5
  · rw [winOf_of_board hb]; exact h6
  · rw [hm]; exact h7
  · exact h8

/-- What the engine does with the bytes of a list entry. -/
def entryGo (c : DmaCh) (n : Nat) (seen : EntryRead) (t : State) : State :=
  let e := if winOf t c.run.entryAddr = some .host then slice seen.bytes 0 8 else dmaGet t c.run.entryAddr 8
  if uAt e 5 3 = 0 then
    if c.isOpen then t.onChan n (fun c => { c with state := dmaParked }) else dmaComplete t n
  else dmaBegin (t.onChan n (fun c => { c with run := segFrom c (uAt e 0 5) (uAt e 5 3), held := true })) n

theorem dmaEntry_reads (entry : EntryRead) (h : AtEnd s n) :
    dmaEntry s n entry = dmaRead s n (s.chan n).run.entryAddr entry.read (entryGo (s.chan n) n entry) := by
  unfold dmaEntry
  dsimp only
  rw [h.powered, h.inList, linkGone_of_win h.inSram (by decide)]
  rfl

/-- The read of an end entry parks an open channel and completes the transfer of a closed one. -/
theorem entryGo_end (entry : EntryRead) (h : AtEnd t n) :
    entryGo (t.chan n) n entry t = if (t.chan n).isOpen then t.onChan n (fun c => { c with state := dmaParked }) else dmaComplete t n := by
  have hb : dmaGet t (t.chan n).run.entryAddr 8 = memRead t.mem.sram (t.chan n).run.entryAddr 8 := by
    unfold dmaGet
    rw [h.inSram]
  unfold entryGo
  dsimp only
  rw [h.inSram, if_neg (show ¬ some Win.sram = some Win.host by decide), hb, if_pos h.isEnd]

theorem entryRead_eq (entry : EntryRead) (h : AtEnd s n) : exec (.dmaEntryRead dt n entry) s =
    .next (dmaRead (advance dt s) n (s.chan n).run.entryAddr entry.read (entryGo (s.chan n) n entry)) := by
  have ha : AtEnd (advance dt s) n := h.of_frame (advance_board ..) (advance_dma ..) (advance_mem ..)
  rw [← advance_chan (dt := dt) (s := s)]
  show execDmaEntryRead dt n entry s = _
  unfold execDmaEntryRead
  dsimp only
  generalize advance dt s = b at ha ⊢
  rw [if_pos ⟨ha.running, ha.chain, by rw [ha.between]; rfl⟩, dmaEntry_reads entry ha]

theorem entryRead_fails {entry : EntryRead} (h : AtEnd s n) (hf : entry.read = .failed) :
    Runs (.dmaEntryRead dt n entry) s (fun t => t.chan n = { s.chan n with retried := true }) := by
  have hc := advance_chan (dt := dt) (s := s) n
  refine ⟨_, entryRead_eq entry h, ?_⟩
  rw [hf]
  unfold dmaRead
  dsimp only
  rw [dmaReadFails_first (by rw [hc]; exact h.fresh), onChan_chan, hc]

theorem entryRead_ends {entry : EntryRead} (h : AtEnd s n) (hf : entry.read ≠ .failed) : ∃ b, b.dma = s.dma ∧ exec (.dmaEntryRead dt n entry) s =
    .next (if (s.chan n).isOpen then b.onChan n (fun c => { c with state := dmaParked }) else dmaComplete b n) := by
  have ha : AtEnd (advance dt s) n := h.of_frame (advance_board ..) (advance_dma ..) (advance_mem ..)
  obtain ⟨e, he⟩ := noted_frame (advance dt s) entry.read
  have hn : AtEnd (noted (advance dt s) entry.read) n := by rw [he]; exact ha.of_frame rfl rfl rfl
  have hd : (noted (advance dt s) entry.read).dma = s.dma := by rw [he]; exact advance_dma ..
  have hg := entryGo_end entry hn
  rw [chan_of_dma hd n] at hg
  refine ⟨_, hd, ?_⟩
  rw [entryRead_eq entry h, dmaRead_good _ hf ha.fresh, hg]

theorem entryRead_parks {entry : EntryRead} (h : AtEnd s n) (hf : entry.read ≠ .failed) (ho : (s.chan n).isOpen = true) :
    Runs (.dmaEntryRead dt n entry) s (fun t => t.chan n = { s.chan n with state := dmaParked }) := by
  obtain ⟨b, hd, he⟩ := entryRead_ends (dt := dt) h hf
  rw [ho, if_pos rfl] at he
  refine ⟨_, he, ?_⟩
  dsimp only
  rw [onChan_chan, chan_of_dma hd]

theorem entryRead_completes {entry : EntryRead} (h : AtEnd s n) (hn : n ≠ spillCh) (hf : entry.read ≠ .failed) (ho : (s.chan n).isOpen = false) :
    Runs (.dmaEntryRead dt n entry) s (fun t => (t.chan n).state = dmaDone ∧ isPending t Cmd.dmaStart n = false) := by
  obtain ⟨b, hd, he⟩ := entryRead_ends (dt := dt) h hf
  rw [ho, if_neg Bool.false_ne_true] at he
  refine ⟨_, he, ?_⟩
  dsimp only
  rw [dmaComplete_chan _ hn]
  exact ⟨rfl, dmaComplete_pending _ hn⟩

/-! ### Bursts -/

theorem dmaBurst_waits (data : Bytes) (read : BurstRead) (h : dmaTurn (advance dt s) n = false) :
    Runs (.dmaBurst dt n data read) s (fun t => t = advance dt s) := by
  refine ⟨_, if_neg fun k => ?_, rfl⟩
  have ht := k.2.2
  rw [h] at ht
  cases ht

/-- The engine moves a segment from the shared SRAM to LPDDR4. -/
structure Moving (s : State) (n : Nat) : Prop where
  running : (s.chan n).state = dmaRunning
  inSeg : (s.chan n).run.inSeg = true
  begun : (s.chan n).held = false
  fromSram : winOf s (s.chan n).run.src = some .sram
  toDdr : winOf s (s.chan n).run.dst = some .ddr

theorem dmaBurst_eq (data : Bytes) (read : BurstRead) (ht : dmaTurn (advance dt s) n = true) (h : Moving s n) :
    exec (.dmaBurst dt n data read) s = .next (dmaRead (takeDmaTurn (advance dt s) n) n (s.chan n).run.src read
      (fun s => drainBurst (fetchBurst s n data) n)) := by
  have hc := advance_chan (dt := dt) (s := s) n
  have hs : winOf (takeDmaTurn (advance dt s) n) (s.chan n).run.src = some .sram := (winOf_of_board (advance_board ..) _).trans h.fromSram
  have hd : winOf (takeDmaTurn (advance dt s) n) (s.chan n).run.dst = some .ddr := (winOf_of_board (advance_board ..) _).trans h.toDdr
  have htc : ∀ t : State, (takeDmaTurn t n).chan n = t.chan n := fun _ => rfl
  show execDmaBurst dt n data read s = _
  unfold execDmaBurst
  dsimp only
  rw [hc, if_pos ⟨h.running, h.inSeg, ht⟩, h.begun, if_neg Bool.false_ne_true, htc, hc, if_pos ⟨h.running, h.inSeg⟩,
    linkGone_of_win hs (by decide), linkGone_of_win hd (by decide)]
  rfl

theorem add_state (c : DmaCh) (b : Bytes) : (c.add b).state = c.state := by
  unfold DmaCh.add
  repeat' split
  all_goals rfl

/-- What a burst of `b` bytes leaves of a channel whose segment stands at `r`. -/
def DmaCh.moved (c : DmaCh) (r : DmaRun) (b : Bytes) : DmaCh :=
  { c.add b with bytes := c.bytes + b.length,
                 run := { r with src := r.src + b.length, dst := r.dst + b.length, left := r.left - b.length, inSeg := decide (b.length < r.left) } }

/-- The bytes of the next burst of a segment in the shared SRAM. -/
def nextBurst (s : State) (n : Nat) : Bytes := memRead s.mem.sram (s.chan n).run.src (min 256 (s.chan n).run.left)

theorem fetchBurst_sram (data : Bytes) (hb : s.dma.buffer = []) (hs : winOf s (s.chan n).run.src = some .sram) :
    fetchBurst s n data = { s with dma := { s.dma with buffer := [(n, nextBurst s n)] } } := by
  have hroom : ¬ (4096 < 0 + min 256 (s.chan n).run.left ∨ 16 ≤ 0) := by omega
  unfold fetchBurst
  dsimp only
  rw [hb, hs, if_neg]
  · unfold dmaGet nextBurst
    rw [hs]
    rfl
  · exact hroom

/-- The state in which a burst has been written. -/
def writtenBurst (s : State) (n : Nat) : State :=
  { s with dma := { s.dma with buffer := [], chans := tmod s.dma.chans {} n (fun c => c.moved (s.chan n).run (nextBurst s n)) },
           mem := { s.mem with ddr := memWrite s.mem.ddr ((s.chan n).run.dst - 0x100000000) (nextBurst s n) } }

theorem dmaPut_ddr {a : Nat} (hi : Nat) (b : Bytes) (h : winOf s a = some .ddr) :
    dmaPut s hi a b = { s with mem := { s.mem with ddr := memWrite s.mem.ddr (a - 0x100000000) b } } := by
  unfold dmaPut
  rw [h]

theorem moveBurst_eq (data : Bytes) (hb : s.dma.buffer = []) (hs : winOf s (s.chan n).run.src = some .sram) (hd : winOf s (s.chan n).run.dst = some .ddr) :
    ∃ d : Bool, drainBurst (fetchBurst s n data) n =
      if (nextBurst s n).length < (s.chan n).run.left then writtenBurst s n
      else if ((writtenBurst s n).chan n).mode = 0 then dmaComplete (writtenBurst s n) n
      else if d then dmaPause (writtenBurst s n) n else writtenBurst s n := by
  rw [fetchBurst_sram data hb hs]
  generalize hf : ({ s with dma := { s.dma with buffer := [(n, nextBurst s n)] } } : State) = f
  have hfb : f.dma.buffer = [(n, nextBurst s n)] := by rw [← hf]
  have hfc : f.chan n = s.chan n := by rw [← hf]; rfl
  have hfw : winOf f (f.chan n).run.dst = some .ddr := by rw [hfc, ← hf]; exact hd
  have he : [(n, nextBurst s n)].erase (n, nextBurst s n) = [] := by simp
  unfold drainBurst
  rw [hfb]
  simp only [List.find?_cons, beq_self_eq_true]
  rw [dmaPut_ddr _ _ hfw, hfc, he]
  refine ⟨addrDown f (s.chan n).run.src || addrDown f (s.chan n).run.dst, ?_⟩
  rw [← hf]
  rfl

theorem writtenBurst_chan (s : State) (n : Nat) : (writtenBurst s n).chan n = (s.chan n).moved (s.chan n).run (nextBurst s n) :=
  tget_tmod_self s.dma.chans {} n (fun c => c.moved (s.chan n).run (nextBurst s n))

theorem dmaPause_chan (s : State) (n : Nat) : (dmaPause s n).chan n = { s.chan n with state := dmaHold } := onChan_chan ..

/-- A burst that is moved counts its bytes and writes them, whatever becomes of the transfer; one that leaves a rest goes on. -/
theorem moveBurst_moves (data : Bytes) (hn : n ≠ spillCh) (hb : s.dma.buffer = []) (hs : winOf s (s.chan n).run.src = some .sram)
    (hd : winOf s (s.chan n).run.dst = some .ddr) :
    ((drainBurst (fetchBurst s n data) n).chan n).bytes = (s.chan n).bytes + min 256 (s.chan n).run.left ∧
    (drainBurst (fetchBurst s n data) n).ev = s.ev ∧
    (drainBurst (fetchBurst s n data) n).mem.ddr = memWrite s.mem.ddr ((s.chan n).run.dst - 0x100000000) (nextBurst s n) ∧
    (256 < (s.chan n).run.left → ((drainBurst (fetchBurst s n data) n).chan n).state = (s.chan n).state ∧
      ((drainBurst (fetchBurst s n data) n).chan n).run.left = (s.chan n).run.left - 256) := by
  have hl : (nextBurst s n).length = min 256 (s.chan n).run.left := memRead_length ..
  have hbytes : ((writtenBurst s n).chan n).bytes = (s.chan n).bytes + min 256 (s.chan n).run.left := by
    rw [writtenBurst_chan, ← hl]
    rfl
  obtain ⟨d, e⟩ := moveBurst_eq data hb hs hd
  rw [e]
  split
  next hlt =>
    refine ⟨hbytes, rfl, rfl, fun k => ?_⟩
    rw [writtenBurst_chan]
    refine ⟨add_state .., ?_⟩
    show (s.chan n).run.left - (nextBurst s n).length = _
    rw [hl]
    omega
  next hlt =>
    have hle : ¬ 256 < (s.chan n).run.left := by omega
    split
    · rw [dmaComplete_chan _ hn, dmaComplete_ev _ hn, dmaComplete_ddr _ hn]
      exact ⟨hbytes, rfl, rfl, fun k => absurd k hle⟩
    · split
      · rw [dmaPause_chan]
        exact ⟨hbytes, rfl, rfl, fun k => absurd k hle⟩
      · exact ⟨hbytes, rfl, rfl, fun k => absurd k hle⟩

theorem dmaBurst_moves {data : Bytes} {read : BurstRead} (hi : MemInv s) (ht : dmaTurn (advance dt s) n = true) (hn : n ≠ spillCh)
    (hb : s.dma.buffer = []) (h : Moving s n) (hr : (s.chan n).retried = false) (hf : read ≠ .failed) :
    Runs (.dmaBurst dt n data read) s (fun t => (t.chan n).bytes = (s.chan n).bytes + min 256 (s.chan n).run.left ∧
      t.ev.eccCorrected = (if read = .corrected then inc32 s.ev.eccCorrected else s.ev.eccCorrected) ∧
      memRead t.mem.ddr ((s.chan n).run.dst - 0x100000000) (min 256 (s.chan n).run.left) =
        memRead s.mem.sram (s.chan n).run.src (min 256 (s.chan n).run.left) ∧
      (∀ j, (j < (s.chan n).run.dst - 0x100000000 ∨ (s.chan n).run.dst - 0x100000000 + min 256 (s.chan n).run.left ≤ j) →
        memGet t.mem.ddr j = memGet s.mem.ddr j) ∧
      (256 < (s.chan n).run.left → (t.chan n).state = dmaRunning ∧ (t.chan n).run.left = (s.chan n).run.left - 256)) := by
  refine ⟨_, dmaBurst_eq data read ht h, ?_⟩
  have hcu : (takeDmaTurn (advance dt s) n).chan n = s.chan n := advance_chan n
  rw [dmaRead_good _ hf (by rw [hcu]; exact hr)]
  obtain ⟨e, he⟩ := noted_frame (takeDmaTurn (advance dt s) n) read
  have hev := noted_eccCorrected (takeDmaTurn (advance dt s) n) read
  have hu1 : (takeDmaTurn (advance dt s) n).board = s.board := advance_board ..
  have hu2 : (takeDmaTurn (advance dt s) n).dma.buffer = s.dma.buffer := by
    show (advance dt s).dma.buffer = _
    rw [advance_dma]
  have hu3 : (takeDmaTurn (advance dt s) n).mem = s.mem := advance_mem ..
  have hu4 : (takeDmaTurn (advance dt s) n).ev = s.ev := advance_ev ..
  generalize takeDmaTurn (advance dt s) n = u at hcu he hev hu1 hu2 hu3 hu4 ⊢
  generalize noted u read = b at he hev ⊢
  have hc : b.chan n = s.chan n := by rw [he]; exact hcu
  have hboard : b.board = s.board := by rw [he]; exact hu1
  have hbuf : b.dma.buffer = [] := by rw [he]; exact hu2.trans hb
  have hmem : b.mem = s.mem := by rw [he]; exact hu3
  obtain ⟨m1, m2, m3, m4⟩ := moveBurst_moves data hn hbuf (by rw [hc, winOf_of_board hboard]; exact h.fromSram)
    (by rw [hc, winOf_of_board hboard]; exact h.toDdr)
  have hbytes : nextBurst b n = memRead s.mem.sram (s.chan n).run.src (min 256 (s.chan n).run.left) := by
    unfold nextBurst
    rw [hc, hmem]
  rw [hc] at m1 m3 m4
  rw [hmem, hbytes] at m3
  rw [hu4] at hev
  dsimp only
  rw [m1, m2, m3, hev]
  have hl : (memRead s.mem.sram (s.chan n).run.src (min 256 (s.chan n).run.left)).length = min 256 (s.chan n).run.left := memRead_length ..
  refine ⟨rfl, rfl, ?_, fun j hj => memGet_memWrite_out _ _ _ _ (by rw [hl]; exact hj), fun k => ?_⟩
  · have hw := memRead_memWrite (m := s.mem.ddr) hi.1.2.2.1 ((s.chan n).run.dst - 0x100000000)
      (memRead s.mem.sram (s.chan n).run.src (min 256 (s.chan n).run.left))
    rw [hl] at hw
    exact hw
  · rw [← h.running]
    exact m4 k

theorem dmaBurst_failsOnce (data : Bytes) (ht : dmaTurn (advance dt s) n = true) (h : Moving s n) (hr : (s.chan n).retried = false) :
    Runs (.dmaBurst dt n data .failed) s (fun t => t.chan n = { s.chan n with retried := true } ∧ t.mem = s.mem) := by
  have hc : (takeDmaTurn (advance dt s) n).chan n = s.chan n := advance_chan n
  refine ⟨_, dmaBurst_eq data .failed ht h, ?_⟩
  unfold dmaRead
  dsimp only
  rw [dmaReadFails_first (by rw [hc]; exact hr), onChan_chan, hc]
  exact ⟨rfl, advance_mem ..⟩

theorem dmaReadFails_again {a : Nat} (h : (s.chan n).retried = true) (hs : winOf s a = some .sram) : dmaReadFails s n a =
    dmaFail (raiseDevice s { source := Ev.eccDouble, cls := Cls.device, kind := Kind.channel, inst := n, flags := 2 }) n St.dmaReadError 2 := by
  unfold dmaReadFails readKind
  dsimp only
  rw [h, hs]
  rfl

theorem dmaFail_chan (s : State) (n status flags : Nat) : (dmaFail s n status flags).chan n = (s.chan n).ended status := by
  unfold dmaFail
  rw [dmaEnd_chan]
  obtain ⟨_, _, _, e⟩ : Told s (raiseWarn s Ev.dmaFailed Kind.channel n 0 [] flags) := raiseOnly_told ..
  rw [e]
  rfl

theorem dmaFail_raised (s : State) (n status flags x : Nat) (h : s.ev.raised.contains x = true) :
    (dmaFail s n status flags).ev.raised.contains x = true := by
  have hr : Reacts true false false false s.vital (dmaFail s n status flags).vital := by simp
  exact hr.raised_contains h

theorem dmaBurst_failsAgain (data : Bytes) (ht : dmaTurn (advance dt s) n = true) (h : Moving s n) (hr : (s.chan n).retried = true) :
    Runs (.dmaBurst dt n data .failed) s (fun t => (t.chan n).state = dmaFailedSt ∧ (t.chan n).status = St.dmaReadError ∧
      t.ev.raised.contains Ev.eccDouble = true) := by
  have hc : (takeDmaTurn (advance dt s) n).chan n = s.chan n := advance_chan n
  have hw : winOf (takeDmaTurn (advance dt s) n) (s.chan n).run.src = some .sram := (winOf_of_board (advance_board ..) _).trans h.fromSram
  refine ⟨_, dmaBurst_eq data .failed ht h, ?_⟩
  unfold dmaRead
  dsimp only
  rw [dmaReadFails_again (by rw [hc]; exact hr) hw, dmaFail_chan]
  exact ⟨rfl, rfl, dmaFail_raised _ _ _ _ _ (raiseDevice_contains ..)⟩

/-- Settles O58: each command is one change of its channel, an end entry parks or completes it, and a burst moves its bytes or is read again. -/
theorem dmaChannels : Obligations.DmaChannels := by
  intro s dt n entry data read q
  refine ⟨fun hp h24 h32 => ⟨dmaSetup_answers hp h24 h32, dmaStart_answers hp h24 h32, dmaListWrite_answers hp h24 h32,
    dmaAppend_answers hp h24 h32, fun h hr ho => dmaClose_answers hp h24 h32 h hr ho, dmaAbort_answers hp h24 h32⟩,
    fun h1 h2 h3 h4 h5 h6 h7 h8 hn => ?_, chanGoes entry data read, fun _ _ => dmaBurst_waits data read,
    fun hi ht hn hb h1 h2 h3 hr h4 h5 => dmaBurst_moves hi ht hn hb ⟨h1, h2, h3, h4, h5⟩ hr, fun ht h1 h2 h3 h4 h5 => ?_⟩
  · have h : AtEnd s n := ⟨h1, h2, h3, h4, h5, h6, h7, h8⟩
    exact ⟨entryRead_fails h, entryRead_parks h, entryRead_completes h hn⟩
  · have h : Moving s n := ⟨h1, h2, h3, h4, h5⟩
    exact ⟨dmaBurst_failsOnce data ht h, dmaBurst_failsAgain data ht h⟩

end Sys2Proof.Machine
end

