-- ==== Sys2Proof/Proofs/Desk.lean ====
section
/-! What the dispatcher shows of a cycle, and the work that leaves it alone. -/

namespace Sys2Proof.Machine

/-- What an engine shows of its active slot, and its counts. -/
structure Slot where
  state : EngState
  active : Option Nat
  busyNow : Nat
  overruns : Nat
  lawFaults : Nat

def Engine.slot (g : Engine) : Slot :=
  { state := g.state, active := g.active, busyNow := g.busyNow, overruns := g.overruns, lawFaults := g.lawFaults }

/-- What the dispatcher shows of a cycle: its tasks, the ready lists, the active slots and the tasks that the flows serve. -/
structure Desk where
  tasks : Nat → TaskSt
  levels : Nat → List Nat
  slots : Nat → Slot
  service : Nat → Option Nat

def State.desk (s : State) : Desk :=
  { tasks := s.task, levels := s.level, slots := fun e => (s.engine e).slot, service := fun f => (s.flow f).service }

variable {s t : State}

theorem desk_of_eq (hc : t.cyc.tasks = s.cyc.tasks) (hd : t.disp = s.disp) : t.desk = s.desk := by
  unfold State.desk State.task State.level State.engine State.flow
  rw [hc, hd]

theorem desk_of_outside (h : t.outside = s.outside) : t.desk = s.desk :=
  desk_of_eq (congrArg (fun o : Outside => o.cyc.tasks) h) (congrArg Outside.disp h)

theorem Told.desk (h : Told s t) : t.desk = s.desk := by
  obtain ⟨_, _, _, rfl⟩ := h
  rfl

theorem desk_foldl {α : Type} (f : State → α → State) (h : ∀ s x, (f s x).desk = s.desk) (l : List α) (s : State) : (l.foldl f s).desk = s.desk := by
  induction l generalizing s with
  | nil => rfl
  | cons x l ih => exact (ih (f s x)).trans (h s x)

/-! ### Work that leaves the desk alone -/

theorem advance_desk (dt : Nat) (s : State) : (advance dt s).desk = s.desk :=
  desk_of_eq (by rw [advance_cyc]) (advance_disp ..)

theorem transient_desk (s : State) (kind : Nat) (r : Raise) : (transient s kind r).desk = s.desk := by
  obtain ⟨_, _, _, e⟩ := transient_frame s kind r
  rw [e]
  rfl

theorem enterFault_desk (s : State) : (enterFault s).desk = s.desk := by
  by_cases h : canFault s.dev.mode = true
  · have ho := enterFault_outside h
    exact desk_of_eq (congrArg (fun o : Outside => o.cyc.tasks) ho) (congrArg Outside.disp ho)
  · by_cases hb : s.dev.mode = .boot
    · rw [enterFault_boot hb]
      rfl
    · rw [enterFault_other]
      rw [canFault_iff] at h
      cases hm : s.dev.mode <;> simp_all

theorem freezeRecord_desk (s : State) (trigger source ns : Nat) : (freezeRecord s trigger source ns).desk = s.desk := by
  obtain ⟨_, e, -⟩ := freezeRecord_frame s trigger source ns
  rw [e]
  rfl

theorem raiseDevice_desk (s : State) (r : Raise) (trigger : Nat) : (raiseDevice s r trigger).desk = s.desk := by
  unfold raiseDevice
  dsimp only
  rw [enterFault_desk, freezeRecord_desk, (raiseOnly_told ..).desk]

theorem countFault_desk (s : State) (ns : Nat) : (countFault s ns).desk = s.desk := by
  unfold countFault
  dsimp only
  split
  · rw [raiseDevice_desk]
    rfl
  · rfl

theorem raiseAxis_desk (s : State) (src a cause : Nat) (detail : Bytes) (flags : Nat) : (raiseAxis s src a cause detail flags).desk = s.desk := by
  unfold raiseAxis
  rw [desk_of_outside (requestStop_outside ..)]
  unfold noteAxisFault
  dsimp only
  rw [countFault_desk]
  exact (raiseOnly_told ..).desk

theorem noteCheck_desk (s : State) : (noteCheck s).desk = s.desk := by
  unfold noteCheck
  split <;> rfl

theorem lastingFault_desk (s : State) (k : PTask) (code : Nat) : (lastingFault s k code).desk = s.desk := by
  unfold lastingFault
  dsimp only
  split
  · exact ((raiseOnly_told ..).desk).trans (noteCheck_desk s)
  · rw [raiseAxis_desk, noteCheck_desk]

theorem noteRead_desk (s : State) (kind : Nat) (ecc : EccRead) (of inst : Nat) : (noteRead s kind ecc of inst).desk = s.desk := by
  unfold noteRead
  split
  · rfl
  · exact transient_desk ..
  · rfl
  · rfl

theorem noteRuns_desk (s : State) (k : PTask) (runs : List Nat) : (noteRuns s k runs).desk = s.desk :=
  desk_foldl _ (fun _ _ => (raiseOnly_told ..).desk) _ s

theorem noteSat_desk (s : State) (k : PTask) (es : BitVec 8) : (noteSat s k es).desk = s.desk := by
  unfold noteSat
  split <;> rfl

theorem noteDone_desk (s : State) (k : PTask) (c : ECore) : (noteDone s k c).desk = s.desk := by
  unfold noteDone
  split
  · exact noteSat_desk ..
  · rfl

theorem runFeedback_desk (s : State) (k : PTask) : (runFeedback s k).desk = s.desk := by
  unfold runFeedback
  split <;> rfl

theorem afterLaw_desk (s : State) (k : PTask) : (afterLaw s k).desk = s.desk := by
  unfold afterLaw
  dsimp only
  split <;> rfl

theorem putWords_desk (s : State) (base : Nat) (ws : List W24) : (putWords s base ws).desk = s.desk := by rfl

theorem setFree_desk (s : State) (n : Nat) : State.desk { s with free := n } = s.desk := by rfl

theorem writeRecord_desk (s : State) (k : PTask) : (writeRecord s k).desk = s.desk := by
  unfold writeRecord
  split
  · rfl
  · split
    · exact putWords_desk ..
    · exact (setFree_desk ..).trans (putWords_desk ..)

theorem noteDepth_desk (s : State) (l : Nat) : (noteDepth s l).desk = s.desk := by rfl

theorem spill_desk (s : State) : (spill s).desk = s.desk := by rfl

theorem leaveStress_desk (s : State) (e : Nat) : (leaveStress s e).desk = s.desk := by
  unfold leaveStress
  split <;> rfl

theorem noteActive_desk (s : State) (e : Nat) : (noteActive s e).desk = s.desk := by
  unfold noteActive
  split
  · split
    · dsimp only
      rw [noteDone_desk, noteRuns_desk]
    · rfl
  · rfl

/-! ### One change of the desk -/

theorem onEngine_other {e g : Nat} (f : Engine → Engine) (h : g ≠ e) : (s.onEngine e f).engine g = s.engine g := tget_tmod_other _ _ _ _ _ h

/-- A change of an engine that leaves its active slot and its counts. -/
theorem onEngine_desk {e : Nat} {f : Engine → Engine} (h : (f (s.engine e)).slot = (s.engine e).slot) : (s.onEngine e f).desk = s.desk := by
  have hs : (fun g => ((s.onEngine e f).engine g).slot) = fun g => (s.engine g).slot := by
    funext g
    by_cases hg : g = e
    · rw [hg, onEngine_engine, h]
    · rw [onEngine_other f hg]
  exact congrArg (fun x => ({ s.desk with slots := x } : Desk)) hs

theorem onFlow_flow (s : State) (k : Nat) (f : Flow → Flow) : (s.onFlow k f).flow k = f (s.flow k) := tget_tmod_self ..

theorem onFlow_other {k j : Nat} (f : Flow → Flow) (h : j ≠ k) : (s.onFlow k f).flow j = s.flow j := tget_tmod_other _ _ _ _ _ h

/-- A change of a flow that leaves the task that it serves. -/
theorem onFlow_desk {k : Nat} {f : Flow → Flow} (h : (f (s.flow k)).service = (s.flow k).service) : (s.onFlow k f).desk = s.desk := by
  have hs : (fun j => ((s.onFlow k f).flow j).service) = fun j => (s.flow j).service := by
    funext j
    by_cases hj : j = k
    · rw [hj, onFlow_flow, h]
    · rw [onFlow_other f hj]
  exact congrArg (fun x => ({ s.desk with service := x } : Desk)) hs

theorem onTask_task (s : State) (i : Nat) (f : TaskSt → TaskSt) : (s.onTask i f).task i = f (s.task i) := tget_tmod_self ..

theorem onTask_other {i j : Nat} (f : TaskSt → TaskSt) (h : j ≠ i) : (s.onTask i f).task j = s.task j := tget_tmod_other _ _ _ _ _ h

theorem noteWait_desk (s : State) (f c : Nat) : (noteWait s f c).desk = s.desk := onFlow_desk rfl

/-! ### The next slots and the drains -/

theorem displace_slot (now : Nat) (g : Engine) : (displace now g).slot = g.slot := by
  unfold displace
  split <;> rfl

theorem fillNext_desk (s : State) (e : Nat) (k : PTask) : (fillNext s e k).desk = s.desk := by
  unfold fillNext
  dsimp only
  split
  · exact onEngine_desk rfl
  · exact onEngine_desk (s := s) (e := e) (f := fun g => { g with
      next := some k.index, nextReady := s.time.now + prefetchClocks s k * clkU,
      nextCore := entryCore (flowView s k.flow) k.entry k.base k.inLen k.stLen k.outLen (callFlags s k),
      nextLaw := if userLaw k.lawId then {} else evalLaw (if (s.task k.index).rerun then s else runFeedback s k) k }) rfl

theorem refill_desk (s : State) : (refill s).desk = s.desk := by
  unfold refill
  refine (show (stressSync _).desk = State.desk _ from rfl).trans (desk_foldl _ (fun s e => ?_) _ s)
  dsimp only
  generalize (if serves s e = true then candidate s e else none) = c
  split
  · rfl
  · split
    · rw [fillNext_desk]
      exact onEngine_desk (displace_slot ..)
    · exact onEngine_desk (displace_slot ..)

theorem endDrain_desk (s : State) (f : Nat) : (endDrain s f).desk = s.desk := by
  unfold endDrain
  split
  · exact onFlow_desk rfl
  · rfl

theorem settle_desk (s : State) : (settle s).desk = s.desk := by
  unfold settle
  rw [refill_desk]
  unfold endDrains
  refine desk_foldl _ (fun s e => ?_) _ s
  split
  · exact endDrain_desk ..
  · rfl

theorem slotEmpty_desk (s : State) (e at_ : Nat) : (slotEmpty s e at_).desk = s.desk := by
  unfold slotEmpty
  refine onEngine_desk ?_
  split <;> rfl

theorem placeOr_desk (s : State) (f : Nat) (want : Option Nat) (epoch : Nat) : (placeOr s f want epoch).desk = s.desk := by
  have put : ∀ (s : State) e, (s.onFlow f (fun x => { x with engine := e, epoch := epoch, drainTo := none, placed := false })).desk = s.desk :=
    fun _ _ => onFlow_desk rfl
  have unplaced : ∀ (l : List Nat) (s : State), (l.foldl (fun s a => raiseAxis s Ev.flowUnplaced a) s).desk = s.desk :=
    fun l s => desk_foldl _ (fun _ _ => raiseAxis_desk ..) l s
  have warned : ∀ (s : State) g, (raiseWarn (s.onFlow f (fun x => { x with engine := g, epoch := epoch, drainTo := none, placed := false }))
      Ev.flowUnverified Kind.flow f).desk = s.desk := fun s g => ((raiseOnly_told ..).desk).trans (put s g)
  unfold placeOr
  dsimp only
  split
  · split
    · exact put ..
    · split
      · exact warned ..
      · exact (unplaced ..).trans (put ..)
  · split
    · exact warned ..
    · exact (unplaced ..).trans (put ..)

theorem flee_desk (s : State) (e : Nat) : (flee s e).desk = s.desk := desk_foldl _ (fun _ _ => placeOr_desk ..) _ s

end Sys2Proof.Machine
end

