-- ==== Sys2Proof/Proofs/TaskRows.lean ====
section
/-! The rows of the dispatcher: O43. -/

namespace Sys2Proof.Machine

variable {s t u : State} {i j e : Nat} {k : PTask}

theorem desk_task (h : t.desk = s.desk) (i : Nat) : t.task i = s.task i := congrFun (congrArg Desk.tasks h) i
theorem desk_level (h : t.desk = s.desk) (l : Nat) : t.level l = s.level l := congrFun (congrArg Desk.levels h) l
theorem desk_slot (h : t.desk = s.desk) (e : Nat) : (t.engine e).slot = (s.engine e).slot := congrFun (congrArg Desk.slots h) e
theorem desk_active (h : t.desk = s.desk) (e : Nat) : (t.engine e).active = (s.engine e).active := congrArg Slot.active (desk_slot h e)
theorem desk_busyNow (h : t.desk = s.desk) (e : Nat) : (t.engine e).busyNow = (s.engine e).busyNow := congrArg Slot.busyNow (desk_slot h e)
theorem desk_service (h : t.desk = s.desk) (f : Nat) : (t.flow f).service = (s.flow f).service := congrFun (congrArg Desk.service h) f

/-! ### Engines that lose their tasks -/

/-- No task enters an active slot, no engine changes its state, and no overrun or law fault is counted. -/
structure Sheds (s t : State) : Prop where
  active : ∀ e, (t.engine e).active = (s.engine e).active ∨ (t.engine e).active = none
  state : ∀ e, (t.engine e).state = (s.engine e).state
  overruns : ∀ e, (t.engine e).overruns = (s.engine e).overruns
  lawFaults : ∀ e, (t.engine e).lawFaults = (s.engine e).lawFaults

theorem sheds_of_slots (h : ∀ e, (t.engine e).slot = (s.engine e).slot) : Sheds s t :=
  ⟨fun e => .inl (congrArg Slot.active (h e)), fun e => congrArg Slot.state (h e), fun e => congrArg Slot.overruns (h e),
    fun e => congrArg Slot.lawFaults (h e)⟩

theorem sheds_of_desk (h : t.desk = s.desk) : Sheds s t := sheds_of_slots (desk_slot h)

theorem Sheds.refl (s : State) : Sheds s s := sheds_of_desk rfl

theorem Sheds.trans (a : Sheds s t) (b : Sheds t u) : Sheds s u := by
  refine ⟨fun e => ?_, fun e => (b.state e).trans (a.state e), fun e => (b.overruns e).trans (a.overruns e), fun e =>
    (b.lawFaults e).trans (a.lawFaults e)⟩
  rcases b.active e with h | h
  · rw [h]
    exact a.active e
  · exact .inr h

theorem sheds_foldl {α : Type} (f : State → α → State) (h : ∀ s x, Sheds s (f s x)) (l : List α) (s : State) : Sheds s (l.foldl f s) := by
  induction l generalizing s with
  | nil => exact .refl s
  | cons x l ih => exact (h s x).trans (ih (f s x))

/-- An engine whose active slot no longer holds a task does not get it back. -/
theorem Sheds.gone (h : Sheds s t) (hs : (s.engine e).active ≠ some i) : (t.engine e).active ≠ some i := by
  rcases h.active e with k | k <;> rw [k]
  · exact hs
  · exact nofun

theorem busyMore_sheds (s : State) (e n : Nat) : Sheds s (busyMore s e n) := by
  have h : ∀ g, ((busyMore s e n).engine g) = if g = e then { s.engine e with busyNow := (s.engine e).busyNow + n } else s.engine g := by
    intro g
    split
    next hg => rw [hg]; exact onEngine_engine ..
    next hg => exact onEngine_other _ hg
  have same : ∀ {α : Type} (f : Engine → α), (∀ (x : Engine) m, f { x with busyNow := m } = f x) → ∀ g,
      f ((busyMore s e n).engine g) = f (s.engine g) := by
    intro α f hf g
    rw [h]
    split
    next hg => rw [hg, hf]
    next => rfl
  exact ⟨fun g => .inl (same Engine.active (fun _ _ => rfl) g), same Engine.state fun _ _ => rfl, same Engine.overruns fun _ _ => rfl,
    same Engine.lawFaults fun _ _ => rfl⟩

/-- What is left of an engine that a task leaves. -/
def Engine.without (g : Engine) (i : Nat) : Engine :=
  { g with active := if g.active = some i then none else g.active, chain := g.chain.filter (fun c => c.task != i) }

theorem leaveEngine_engine (s : State) (i e : Nat) : (leaveEngine s i).engine e = (s.engine e).without i := by
  have h : tget (tmap s.disp.engines (fun _ g => g.without i)) {} e = (tget s.disp.engines {} e).without i := by
    unfold tget
    rw [tfind_tmap]
    cases tfind s.disp.engines e <;> rfl
  unfold leaveEngine
  dsimp only
  split <;> exact h

theorem leaveEngine_task (s : State) (i j : Nat) : (leaveEngine s i).task j = s.task j := by
  unfold leaveEngine
  dsimp only
  split <;> rfl

theorem leaveEngine_level (s : State) (i l : Nat) : (leaveEngine s i).level l = s.level l := by
  unfold leaveEngine
  dsimp only
  split <;> rfl

theorem leaveEngine_image (s : State) (i : Nat) : (leaveEngine s i).image = s.image := by
  unfold leaveEngine
  dsimp only
  split <;> rfl

theorem leaveEngine_sheds (s : State) (i : Nat) : Sheds s (leaveEngine s i) := by
  refine ⟨fun e => ?_, fun e => ?_, fun e => ?_, fun e => ?_⟩ <;> rw [leaveEngine_engine]
  · unfold Engine.without
    dsimp only
    split
    · exact .inr rfl
    · exact .inl rfl
  all_goals rfl

theorem leaveEngine_gone (s : State) (i e : Nat) : ((leaveEngine s i).engine e).active ≠ some i := by
  rw [leaveEngine_engine]
  unfold Engine.without
  dsimp only
  split
  · exact nofun
  next h => exact h

theorem leaveEngine_busyNow (s : State) (i e : Nat) : ((leaveEngine s i).engine e).busyNow = (s.engine e).busyNow := by
  rw [leaveEngine_engine]
  rfl

/-! ### A task that is stopped -/

/-- A stop takes the task off its engine and leaves every task's record. -/
theorem stopService_frame (s : State) (k : PTask) (n : Nat) :
    Sheds s (stopService s k n) ∧ (∀ i, (stopService s k n).task i = s.task i) ∧ ∀ e, ((stopService s k n).engine e).active ≠ some k.index := by
  have leave : ∀ b, Sheds s b → (∀ i, b.task i = s.task i) → Sheds s (leaveEngine b k.index) ∧ (∀ i, (leaveEngine b k.index).task i = s.task i) ∧
      ∀ e, ((leaveEngine b k.index).engine e).active ≠ some k.index := fun b hb ht =>
    ⟨hb.trans (leaveEngine_sheds ..), fun i => (leaveEngine_task ..).trans (ht i), leaveEngine_gone b k.index⟩
  unfold stopService
  split
  · dsimp only
    refine leave _ ?_ ?_
    · split
      · exact busyMore_sheds ..
      · exact .refl s
    · intro i
      split <;> rfl
  next e _ _ =>
    dsimp only
    generalize (if userLaw k.lawId = true then runActive s e k n else ({ clocks := n }, [])) = r
    generalize hb : slotEmpty _ e _ = b
    have hd : b.desk = State.desk (busyMore s e (if r.1.done = true then min (r.1.clocks + writeback k) (max r.1.clocks n) else r.1.clocks)) := by
      rw [← hb, slotEmpty_desk, noteDone_desk, noteRuns_desk]
    obtain ⟨h1, h2, h3⟩ := leave b ((busyMore_sheds ..).trans (sheds_of_desk hd)) (fun i => (desk_task hd i).trans rfl)
    exact ⟨h1.trans (sheds_of_slots fun _ => rfl), h2, h3⟩

/-! ### Bundles that fail or commit -/

/-- A task that is over and can only stay as it is. -/
def closed : TaskPhase → Bool
  | .committed | .failed | .overrun | .cancelled => true
  | _ => false

theorem taskOver_iff (x : TaskSt) : taskOver x = true ↔ x.phase = .complete ∨ closed x.phase = true := by
  unfold taskOver
  cases x.phase <;> decide

/-- Engines shed their tasks, and a task that is over stays over; one that is closed keeps its phase. -/
structure Winds (s t : State) : Prop where
  sheds : Sheds s t
  keeps : ∀ i, closed (s.task i).phase = true → (t.task i).phase = (s.task i).phase
  ends : ∀ i, taskOver (s.task i) = true → taskOver (t.task i) = true

theorem winds_of_tasks (h : Sheds s t) (ht : ∀ i, t.task i = s.task i) : Winds s t :=
  ⟨h, fun i _ => by rw [ht], fun i k => by rw [ht]; exact k⟩

theorem winds_of_desk (h : t.desk = s.desk) : Winds s t := winds_of_tasks (sheds_of_desk h) (desk_task h)

theorem Winds.refl (s : State) : Winds s s := winds_of_desk rfl

theorem Winds.trans (a : Winds s t) (b : Winds t u) : Winds s u := by
  refine ⟨a.sheds.trans b.sheds, fun i h => ?_, fun i h => b.ends i (a.ends i h)⟩
  have e := a.keeps i h
  rw [b.keeps i (e ▸ h), e]

theorem winds_foldl {α : Type} (f : State → α → State) (h : ∀ s x, Winds s (f s x)) (l : List α) (s : State) : Winds s (l.foldl f s) := by
  induction l generalizing s with
  | nil => exact .refl s
  | cons x l ih => exact (h s x).trans (ih (f s x))

/-- A task that was not closed takes a phase; a complete one takes a closed phase. -/
theorem onTask_winds {f : TaskSt → TaskSt} (h : closed (s.task i).phase = false) (hf : taskOver (f (s.task i)) = true) : Winds s (s.onTask i f) := by
  refine ⟨sheds_of_slots fun _ => rfl, fun j hj => ?_, fun j hj => ?_⟩
  · rw [onTask_other]
    rintro rfl
    rw [h] at hj
    cases hj
  · by_cases k : j = i
    · rw [k, onTask_task]
      exact hf
    · rw [onTask_other f k]
      exact hj

/-- What a failed bundle makes of a member. -/
def failMember (s : State) (k : PTask) : State :=
  let s' := if goesOut s k then s.onAxis k.axis (fun x => { x with out := { x.out with failed := true } }) else s
  match (s.task k.index).phase with
  | .waiting | .ready => (stopService (leaveLists s' k.index) k 0).onTask k.index (fun x => { x with phase := .cancelled })
  | .service => (stopService s' k (clocksAt s' k.index s'.time.now)).onTask k.index (fun x => { x with phase := .failed })
  | .complete => s'.onTask k.index (fun x => { x with phase := .failed })
  | _ => s'

theorem leaveLists_winds (s : State) (i : Nat) : Winds s (leaveLists s i) := winds_of_tasks (sheds_of_slots fun _ => rfl) (fun _ => rfl)

theorem stopService_winds (s : State) (k : PTask) (n : Nat) : Winds s (stopService s k n) := by
  obtain ⟨h, ht, -⟩ := stopService_frame s k n
  exact winds_of_tasks h ht

/-- A stopped task takes a closed phase. -/
theorem stopped_winds {b : State} (h : Winds s b) (hb : b.task k.index = s.task k.index) (n : Nat) (hc : closed (s.task k.index).phase = false)
    {f : TaskSt → TaskSt} (hf : ∀ x, taskOver (f x) = true) : Winds s ((stopService b k n).onTask k.index f) := by
  have ht := (stopService_frame b k n).2.1 k.index
  exact (h.trans (stopService_winds ..)).trans (onTask_winds (by rw [ht, hb]; exact hc) (hf _))

theorem failMember_winds (s : State) (k : PTask) : Winds s (failMember s k) := by
  unfold failMember
  dsimp only
  generalize hb : (if goesOut s k = true then s.onAxis k.axis (fun x => { x with out := { x.out with failed := true } }) else s) = b
  have hd : b.desk = s.desk := by
    rw [← hb]
    split <;> rfl
  have ht := desk_task hd k.index
  split
  next hp => exact stopped_winds ((winds_of_desk hd).trans (leaveLists_winds ..)) ht 0 (by rw [hp]; rfl) fun _ => rfl
  next hp => exact stopped_winds ((winds_of_desk hd).trans (leaveLists_winds ..)) ht 0 (by rw [hp]; rfl) fun _ => rfl
  next hp => exact stopped_winds (winds_of_desk hd) ht _ (by rw [hp]; rfl) fun _ => rfl
  next hp => exact (winds_of_desk hd).trans (onTask_winds (by rw [ht, hp]; rfl) rfl)
  next => exact winds_of_desk hd

theorem onBundle_desk (s : State) (b : Nat) (f : BundleSt → BundleSt) : (s.onBundle b f).desk = s.desk := by rfl

theorem failBundle_winds (s : State) (b : Nat) : Winds s (failBundle s b) := by
  have hm : ∀ u : State, Winds s u → Winds s (refill (if (u.bundle b).misses = 1 then
      transient u 11 { source := Ev.bundleFailed, cls := Cls.info, kind := Kind.bundle, inst := b } else u)) := by
    intro u h
    refine h.trans (winds_of_desk ((refill_desk _).trans ?_))
    split
    · exact transient_desk ..
    · rfl
  unfold failBundle
  split
  · exact .refl s
  · exact hm _ ((winds_of_desk (onBundle_desk ..)).trans (winds_foldl failMember failMember_winds _ _))

/-! ### Commits -/

theorem timerCommit_desk (s : State) (k : PTask) (mode slot : Nat) (o : AxisOut) : (timerCommit s k mode slot o).desk = s.desk := by
  have hp : ∀ n l, (pwmCommit s n l).desk = s.desk := by
    intro n l
    unfold pwmCommit
    dsimp only
    split <;> rfl
  unfold timerCommit
  split
  · exact hp ..
  · split
    · rfl
    · split
      · exact hp ..
      · rfl

theorem onAxis_desk (s : State) (a : Nat) (f : Axis → Axis) : (s.onAxis a f).desk = s.desk := by rfl

theorem commitAxis_desk (s : State) (k : PTask) (w : List W24) (x : TaskSt) : (commitAxis s k w x).desk = s.desk := by
  unfold commitAxis
  dsimp only
  split
  · split
    · exact (timerCommit_desk ..).trans (onAxis_desk ..)
    · exact onAxis_desk ..
  · exact onAxis_desk ..

/-- A commit is the end of one task. -/
theorem commitTask_desk (s : State) (i : Nat) : (commitTask s i).desk = s.desk ∨
    ∃ n, (commitTask s i).desk = (s.onTask i (fun x => { x with phase := .committed, commitAt := n })).desk := by
  unfold commitTask
  split
  · exact .inl rfl
  next k _ =>
    refine .inr ⟨(s.time.now), ?_⟩
    dsimp only
    refine (setFree_desk ..).trans ?_
    split
    · rfl
    · exact (commitAxis_desk ..).trans rfl

/-- Engines shed their tasks, and a task that is over stays over. -/
structure Wears (s t : State) : Prop where
  sheds : Sheds s t
  ends : ∀ i, taskOver (s.task i) = true → taskOver (t.task i) = true

theorem Winds.wears (h : Winds s t) : Wears s t := ⟨h.sheds, h.ends⟩

theorem Wears.trans (a : Wears s t) (b : Wears t u) : Wears s u := ⟨a.sheds.trans b.sheds, fun i h => b.ends i (a.ends i h)⟩

theorem wears_of_desk (h : t.desk = s.desk) : Wears s t := (winds_of_desk h).wears

theorem wears_foldl {α : Type} (f : State → α → State) (h : ∀ s x, Wears s (f s x)) (l : List α) (s : State) : Wears s (l.foldl f s) := by
  induction l generalizing s with
  | nil => exact wears_of_desk rfl
  | cons x l ih => exact (h s x).trans (ih (f s x))

theorem onTask_wears {f : TaskSt → TaskSt} (hf : taskOver (f (s.task i)) = true) : Wears s (s.onTask i f) := by
  refine ⟨sheds_of_slots fun _ => rfl, fun j hj => ?_⟩
  by_cases k : j = i
  · rw [k, onTask_task]
    exact hf
  · rw [onTask_other f k]
    exact hj

theorem commitTask_wears (s : State) (i : Nat) : Wears s (commitTask s i) := by
  rcases commitTask_desk s i with h | ⟨n, h⟩
  · exact wears_of_desk h
  · exact (onTask_wears rfl).trans (wears_of_desk h)

theorem commitTask_busyNow (s : State) (i e : Nat) : ((commitTask s i).engine e).busyNow = (s.engine e).busyNow := by
  rcases commitTask_desk s i with h | ⟨n, h⟩
  · exact desk_busyNow h e
  · exact (desk_busyNow h e).trans rfl

theorem tryBundle_wears (s : State) (b : PBundle) : Wears s (tryBundle s b) := by
  unfold tryBundle
  dsimp only
  split
  · exact wears_of_desk rfl
  · split
    · exact (failBundle_winds ..).wears
    · split
      · exact (wears_of_desk (onBundle_desk ..)).trans (wears_foldl _ (fun _ _ => commitTask_wears ..) _ _)
      · exact wears_of_desk rfl

/-! ### Completion -/

/-- A task that completes is over, holds no engine, and adds no busy clocks to those of its run, unless its bundle fails. -/
theorem completeTask_ends (s : State) (k : PTask) (results : List W24) (es : BitVec 8) (volt : Bool) :
    taskOver ((completeTask s k results es volt).task k.index) = true ∧
    (∀ e, ((completeTask s k results es volt).engine e).active ≠ some k.index) ∧
    (k.bundle = 255 → ∀ e, ((completeTask s k results es volt).engine e).busyNow = (s.engine e).busyNow) := by
  unfold completeTask
  dsimp only
  generalize hx : (leaveEngine (noteSat s k es) k.index).onTask k.index _ = s1
  have h1 : taskOver (s1.task k.index) = true := by
    rw [← hx, onTask_task]
    rfl
  have h2 : ∀ e, (s1.engine e).active ≠ some k.index := by
    rw [← hx]
    exact leaveEngine_gone (noteSat s k es) k.index
  have h3 : ∀ e, (s1.engine e).busyNow = (s.engine e).busyNow := by
    rw [← hx]
    exact fun e => (leaveEngine_busyNow (noteSat s k es) k.index e).trans (desk_busyNow (noteSat_desk ..) e)
  generalize hy : (if s.cyc.t0 + k.deadline * nsU < s.time.now then raiseWarn s1 Ev.taskLate Kind.flow k.flow else s1) = s2
  have d2 : s2.desk = s1.desk := by
    rw [← hy]
    split
    · exact (raiseOnly_told ..).desk
    · rfl
  generalize hz : (if (s.task k.index).rerun = true then _ else s2) = s3
  have d3 : s3.desk = s1.desk := by
    rw [← hz]
    split
    · exact (transient_desk ..).trans d2
    · exact d2
  have done : ∀ v, Wears s3 v → (k.bundle = 255 → ∀ e, (v.engine e).busyNow = (s3.engine e).busyNow) →
      taskOver ((settle v).task k.index) = true ∧ (∀ e, ((settle v).engine e).active ≠ some k.index) ∧
      (k.bundle = 255 → ∀ e, ((settle v).engine e).busyNow = (s.engine e).busyNow) := by
    intro v hv hb
    have w : Wears s1 (settle v) := ((wears_of_desk d3).trans hv).trans (wears_of_desk (settle_desk v))
    exact ⟨w.ends _ h1, fun e => w.sheds.gone (h2 e), fun k e =>
      (desk_busyNow (settle_desk v) e).trans ((hb k e).trans ((desk_busyNow d3 e).trans (h3 e)))⟩
  split
  next b hb =>
    have hne : k.bundle ≠ 255 := fun h => by
      unfold bundleOf at hb
      rw [if_pos h] at hb
      cases hb
    split
    · exact done _ (onTask_wears rfl) fun _ _ => rfl
    · exact done _ (tryBundle_wears ..) fun h => absurd h hne
  · refine done _ ?_ ?_
    · exact iteInduction (motive := Wears s3) (fun _ => onTask_wears rfl) (fun _ => commitTask_wears ..)
    · exact iteInduction (motive := fun v : State => k.bundle = 255 → ∀ e, (v.engine e).busyNow = (s3.engine e).busyNow) (fun _ _ _ => rfl)
        fun _ _ e => commitTask_busyNow s3 k.index e

theorem busyMore_busyNow (s : State) (e n : Nat) : ((busyMore s e n).engine e).busyNow = (s.engine e).busyNow + n :=
  congrArg Engine.busyNow (onEngine_engine ..)

/-- What a completion on an engine leaves, from the state in which the run's clocks were counted. -/
theorem completeTask_counts {a b : State} {n : Nat} (hb : b.desk = (busyMore a e n).desk) (k : PTask) (results : List W24) (es : BitVec 8) (volt : Bool) :
    taskOver ((completeTask b k results es volt).task k.index) = true ∧ ((completeTask b k results es volt).engine e).active ≠ some k.index ∧
    (k.bundle = 255 → ((completeTask b k results es volt).engine e).busyNow = (a.engine e).busyNow + n) := by
  obtain ⟨h1, h2, h3⟩ := completeTask_ends b k results es volt
  exact ⟨h1, h2 e, fun h => (h3 h e).trans ((desk_busyNow hb e).trans (busyMore_busyNow a e n))⟩

theorem completeStd_ends {a : State} {clocks : Nat} (hm : k.lawId ≠ lawMaster) (hl : clocks + writeback k ≤ clockLimit a k)
    (ht : instantAt a k.index (clocks + writeback k) ≤ a.time.now) :
    taskOver ((completeStd a e k clocks).task k.index) = true ∧ ((completeStd a e k clocks).engine e).active ≠ some k.index ∧
    (k.bundle = 255 → ((completeStd a e k clocks).engine e).busyNow = (a.engine e).busyNow + (clocks + writeback k)) := by
  unfold completeStd
  rw [if_neg (Nat.not_lt.mpr hl), if_neg (Nat.not_lt.mpr ht)]
  dsimp only
  rw [if_neg hm]
  refine completeTask_counts ?_ k _ _ _
  rw [setFree_desk, afterLaw_desk, slotEmpty_desk]

/-- A user law's task whose program ran to a result: an overrun, a wait, or its completion. -/
theorem completeUser_of_run {a : State} {c : ECore} {runs : List Nat} (h : runActive a e k (clockLimit a k) = (c, runs)) (hf : c.fault = none) :
    completeUser a e k = if overran a k c then
        if a.time.now < instantAt a k.index (max c.clocks (clockLimit a k)) then a else overrunTask a e k
      else if a.time.now < instantAt a k.index (c.clocks + writeback k) then a
      else completeTask (noteRuns (slotEmpty (busyMore (a.onEngine e (fun g => { g with core := c })) e (c.clocks + writeback k)) e
        (instantAt a k.index c.clocks)) k runs) k (c.words c.inLen (c.stLen + c.outLen)) c.regs.es false := by
  -- unfolded as a function: compared applied, the kernel would evaluate the program's run first
  generalize hg : completeUser = g
  delta completeUser at hg
  subst hg
  beta_reduce
  rw [h]
  dsimp only
  rw [hf]

theorem completeUser_ends {a : State} {c : ECore} {runs : List Nat} (h : runActive a e k (clockLimit a k) = (c, runs)) (hf : c.fault = none)
    (ho : overran a k c = false) (ht : instantAt a k.index (c.clocks + writeback k) ≤ a.time.now) :
    taskOver ((completeUser a e k).task k.index) = true ∧ ((completeUser a e k).engine e).active ≠ some k.index ∧
    (k.bundle = 255 → ((completeUser a e k).engine e).busyNow = (a.engine e).busyNow + (c.clocks + writeback k)) := by
  have hc : ((a.onEngine e (fun g => { g with core := c })).engine e).busyNow = (a.engine e).busyNow := by rw [onEngine_engine]
  rw [completeUser_of_run h hf, ho, if_neg Bool.false_ne_true, if_neg (Nat.not_lt.mpr ht), ← hc]
  refine completeTask_counts ?_ k _ _ _
  rw [noteRuns_desk, slotEmpty_desk]

/-! ### Overruns -/

theorem overrunTask_ends (s : State) (e : Nat) (k : PTask) : ((overrunTask s e k).task k.index).phase = .overrun ∧
    ((overrunTask s e k).engine e).active ≠ some k.index ∧ ((overrunTask s e k).engine e).overruns = inc32 (s.engine e).overruns := by
  unfold overrunTask
  dsimp only
  generalize min (clockLimit s k) (clocksAt s k.index s.time.now) = n
  obtain ⟨h1, -, h3⟩ := stopService_frame (leaveLists s k.index) k n
  generalize stopService (leaveLists s k.index) k n = b at h1 h3
  generalize hc : (raiseWarn ((b.onTask k.index _).onEngine e _) Ev.taskOverrun Kind.flow k.flow) = c
  have hd : c.desk = State.desk ((b.onTask k.index (fun x => { x with phase := .overrun })).onEngine e (fun g => { g with overruns := inc32 g.overruns })) := by
    rw [← hc]
    exact (raiseOnly_told ..).desk
  have c1 : (c.task k.index).phase = .overrun := by
    rw [desk_task hd]
    exact congrArg TaskSt.phase (onTask_task b k.index _)
  have c2 : (c.engine e).active ≠ some k.index := by
    rw [desk_active hd, onEngine_engine]
    exact h3 e
  have c3 : (c.engine e).overruns = inc32 (s.engine e).overruns := by
    rw [show (c.engine e).overruns = _ from congrArg Slot.overruns (desk_slot hd e), onEngine_engine]
    exact congrArg inc32 (h1.overruns e)
  generalize hf : (if (s.task k.index).rerun = true then lastingFault c k (rerunCause (s.task k.index)) else c) = d
  have df : d.desk = c.desk := by
    rw [← hf]
    split
    · exact lastingFault_desk ..
    · rfl
  have w : Winds c (settle (if k.bundle = 255 then d else failBundle d k.bundle)) := by
    refine ((winds_of_desk df).trans ?_).trans (winds_of_desk (settle_desk _))
    split
    · exact .refl d
    · exact failBundle_winds ..
  exact ⟨(w.keeps _ (by rw [c1]; rfl)).trans c1, w.sheds.gone c2, (w.sheds.overruns e).trans c3⟩

/-! ### Law faults -/

theorem abandonTask_first {a : State} {code : Nat} (hb : k.bundle = 255) (hr : (a.task k.index).rerun = false) (hk : ptask a.image k.index = some k) :
    ((abandonTask a e 1 code k).task k.index).phase = .ready ∧ ((abandonTask a e 1 code k).task k.index).rerun = true ∧
    k.index ∈ (abandonTask a e 1 code k).level k.prio ∧
    ((abandonTask a e 1 code k).engine e).lawFaults = (a.engine e).lawFaults := by
  unfold abandonTask
  dsimp only
  rw [if_neg (fun h => h.1 hb), hr, if_neg Bool.false_ne_true]
  generalize hx : (leaveEngine (leaveLists a k.index) k.index).onTask k.index _ = b
  have hi : ptask b.image k.index = some k := by
    rw [← hx]
    rw [show ∀ f, ((leaveEngine (leaveLists a k.index) k.index).onTask k.index f).image = (leaveEngine (leaveLists a k.index) k.index).image from fun _ => rfl,
      leaveEngine_image]
    exact hk
  have hp : prioOf b k.index = k.prio := by
    unfold prioOf
    rw [hi]
  have ht : ∀ j, (joinHead b k.index).task j = b.task j := fun _ => rfl
  have he : ∀ j, (joinHead b k.index).engine j = b.engine j := fun _ => rfl
  refine ⟨?_, ?_, ?_, ?_⟩
  · rw [ht, ← hx, onTask_task]
  · rw [ht, ← hx, onTask_task]
  · have hl : (joinHead b k.index).level k.prio = k.index :: b.level k.prio := by
      unfold joinHead
      rw [hp]
      exact tget_tmod_self b.disp.ready [] k.prio (fun l => k.index :: l)
    rw [hl]
    exact List.mem_cons_self
  · rw [he, ← hx]
    exact (leaveEngine_sheds (leaveLists a k.index) k.index).lawFaults e

theorem lawFaultTask_rerun {a : State} {code clocks : Nat} (hb : k.bundle = 255) (hr : (a.task k.index).rerun = false)
    (hk : ptask a.image k.index = some k) :
    ((lawFaultTask a e k code clocks).task k.index).phase = .ready ∧ ((lawFaultTask a e k code clocks).task k.index).rerun = true ∧
    k.index ∈ (lawFaultTask a e k code clocks).level k.prio ∧
    ((lawFaultTask a e k code clocks).engine e).lawFaults = inc32 (a.engine e).lawFaults := by
  unfold lawFaultTask
  dsimp only
  generalize hx : slotEmpty (busyMore a e clocks) e (instantAt a k.index clocks) = b
  have hd : b.desk = (busyMore a e clocks).desk := by rw [← hx, slotEmpty_desk]
  have hi : b.image = a.image := by rw [← hx]; rfl
  obtain ⟨h1, h2, h3, h4⟩ := abandonTask_first (a := b.onEngine e (fun g => { g with lawFaults := inc32 g.lawFaults })) (e := e) (code := code) hb
    ((congrArg TaskSt.rerun (desk_task hd k.index)).trans hr) (by rw [show (b.onEngine e _).image = b.image from rfl, hi]; exact hk)
  have hs := settle_desk (abandonTask (b.onEngine e (fun g => { g with lawFaults := inc32 g.lawFaults })) e 1 code k)
  have hl : (b.engine e).lawFaults = (a.engine e).lawFaults :=
    (congrArg Slot.lawFaults (desk_slot hd e)).trans ((busyMore_sheds a e clocks).lawFaults e)
  refine ⟨(congrArg TaskSt.phase (desk_task hs _)).trans h1, (congrArg TaskSt.rerun (desk_task hs _)).trans h2, (desk_level hs _).symm ▸ h3, ?_⟩
  refine (congrArg Slot.lawFaults (desk_slot hs e)).trans (h4.trans ?_)
  rw [onEngine_engine, ← hl]

/-! ### Readiness -/

theorem mem_joinTail (s : State) (i : Nat) (l : List Nat) : i ∈ joinTail s i l := by
  unfold joinTail
  exact List.mem_append_right _ List.mem_cons_self

theorem ptask_index {m : Image} (h : ptask m i = some k) : k.index = i := by
  unfold ptask at h
  split at h
  · split at h
    · injection h with h
      rw [← h]
      rfl
    · cases h
  · cases h

/-- What a task that becomes ready leaves. -/
def readied (a : State) (k : PTask) (i : Nat) : State :=
  let b := (writeRecord a k).onTask i (fun x => { x with phase := .ready, readyAt := a.time.now })
  refill (noteDepth (b.onLevel k.prio (joinTail b i)) k.prio)

theorem taskReady_eq {dt : Nat} (hk : ptask (advance dt s).image i = some k) : exec (.taskReady dt i) s =
    if (advance dt s).cyc.running && dueNow (advance dt s) k && ((advance dt s).task i).phase == .waiting && inputsThere (advance dt s) k &&
      flowClear (advance dt s) k then .next (readied (advance dt s) k i) else .next (advance dt s) := by
  show execTaskReady dt i s = _
  unfold execTaskReady
  dsimp only
  rw [hk]
  rfl

theorem readied_ready (a : State) (k : PTask) (i : Nat) : ((readied a k i).task i).phase = .ready ∧ ((readied a k i).task i).readyAt = a.time.now ∧
    i ∈ (readied a k i).level k.prio := by
  unfold readied
  dsimp only
  generalize hb : (writeRecord a k).onTask i _ = b
  have ht : b.task i = { a.task i with phase := .ready, readyAt := a.time.now } := by
    rw [← hb, onTask_task, desk_task (writeRecord_desk a k)]
  have hs := (refill_desk (noteDepth (b.onLevel k.prio (joinTail b i)) k.prio)).trans (noteDepth_desk ..)
  have hl : (b.onLevel k.prio (joinTail b i)).level k.prio = joinTail b i (b.level k.prio) := tget_tmod_self b.disp.ready [] k.prio (joinTail b i)
  rw [desk_task hs, desk_level hs, hl]
  exact ⟨congrArg TaskSt.phase ht, congrArg TaskSt.readyAt ht, mem_joinTail ..⟩

theorem taskReady_runs {dt : Nat} (hk : ptask (advance dt s).image i = some k) (hr : (advance dt s).cyc.running = true)
    (hd : dueNow (advance dt s) k = true) (hw : ((advance dt s).task i).phase = .waiting) (hi : inputsThere (advance dt s) k = true)
    (hf : flowClear (advance dt s) k = true) :
    Runs (.taskReady dt i) s (fun t => (t.task i).phase = .ready ∧ (t.task i).readyAt = (advance dt s).time.now ∧ i ∈ t.level k.prio) := by
  refine ⟨_, (taskReady_eq hk).trans (if_pos ?_), readied_ready ..⟩
  rw [hr, hd, hw, hi, hf]
  rfl

theorem taskReady_waits {dt : Nat} (hw : ((advance dt s).task i).phase ≠ .waiting) : Runs (.taskReady dt i) s (fun t => t = advance dt s) := by
  refine ⟨_, ?_, rfl⟩
  cases hk : ptask (advance dt s).image i with
  | none =>
    show execTaskReady dt i s = _
    unfold execTaskReady
    dsimp only
    rw [hk]
  | some k =>
    refine (taskReady_eq hk).trans (if_neg ?_)
    rw [beq_eq_false_iff_ne.mpr hw, Bool.and_false, Bool.false_and, Bool.false_and]
    exact Bool.false_ne_true

/-! ### Dispatch -/

theorem mem_leaveLists {l : Nat} (h : i ≠ j) (hm : i ∈ s.level l) : i ∈ (leaveLists s j).level l := by
  unfold leaveLists
  by_cases hl : l = prioOf s j
  · rw [hl] at hm ⊢
    have e : (s.onLevel (prioOf s j) (fun l => l.filter (· != j))).level (prioOf s j) = (s.level (prioOf s j)).filter (· != j) :=
      tget_tmod_self s.disp.ready [] (prioOf s j) (fun l => l.filter (· != j))
    rw [e]
    exact List.mem_filter.mpr ⟨hm, bne_iff_ne.mpr h⟩
  · have e : (s.onLevel (prioOf s j) (fun l => l.filter (· != j))).level l = s.level l :=
      tget_tmod_other s.disp.ready [] _ _ _ hl
    rw [e]
    exact hm

/-- What a switch shows: its task in the active slot and in service from an instant on, and no other task changed. -/
structure Switched (s t : State) (e : Nat) (k : PTask) (first : Nat) : Prop where
  active : (t.engine e).active = some k.index
  phase : (t.task k.index).phase = .service
  resumeAt : (t.task k.index).resumeAt = first
  service : (t.flow k.flow).service = some k.index
  others : ∀ i, i ≠ k.index → t.task i = s.task i
  lists : ∀ i l, i ≠ k.index → i ∈ s.level l → i ∈ t.level l

theorem Switched.of_desk {first : Nat} (h : Switched s t e k first) (hd : u.desk = t.desk) : Switched s u e k first := by
  obtain ⟨h1, h2, h3, h4, h5, h6⟩ := h
  exact ⟨(desk_active hd e).trans h1, (congrArg TaskSt.phase (desk_task hd _)).trans h2, (congrArg TaskSt.resumeAt (desk_task hd _)).trans h3,
    (desk_service hd _).trans h4, fun i hi => (desk_task hd i).trans (h5 i hi), fun i l hi hm => (desk_level hd l).symm ▸ h6 i l hi hm⟩

theorem Switched.from_desk {first : Nat} (h : Switched t u e k first) (hd : t.desk = s.desk) : Switched s u e k first := by
  obtain ⟨h1, h2, h3, h4, h5, h6⟩ := h
  exact ⟨h1, h2, h3, h4, fun i hi => (h5 i hi).trans (desk_task hd i), fun i l hi hm => h6 i l hi ((desk_level hd l).symm ▸ hm)⟩

theorem switchIn_switched (s : State) (e : Nat) (k : PTask) (first : Nat) : Switched s (switchIn s e k first) e k first := by
  unfold switchIn
  dsimp only
  generalize hb : State.onEngine _ e _ = b
  have h : Switched s b e k first := by
    rw [← hb]
    refine ⟨?_, ?_, ?_, ?_, fun i hi => ?_, fun i l hi hm => ?_⟩
    · rw [onEngine_engine]
    · exact congrArg TaskSt.phase (onTask_task _ k.index _)
    · exact congrArg TaskSt.resumeAt (onTask_task _ k.index _)
    · exact congrArg Flow.service (onFlow_flow (leaveLists s k.index) k.flow (fun f => { f with service := some k.index }))
    · exact onTask_other (s := leaveLists s k.index) _ hi
    · exact mem_leaveLists (s := s) hi hm
  split
  · exact h
  · exact h.of_desk ((runFeedback_desk ..).trans (noteWait_desk ..))

theorem taskDispatch_switches {dt at_ : Nat} {ecc : EccRead} (hn : ((advance dt s).engine e).next.bind (ptask (advance dt s).image) = some k)
    (hr : (advance dt s).cyc.running = true) (hs : serves (advance dt s) e = true) (ht : ((advance dt s).engine e).nextReady ≤ (advance dt s).time.now)
    (hc : ecc ≠ .confirmed) (hd : decideAt (advance dt s) e k = some at_) (hat : at_ + 32 * clkU ≤ (advance dt s).time.now) :
    ∃ t, exec (.taskDispatch dt { engine := e, ecc := ecc }) s = .next t ∧ Switched (freed (advance dt s) e k) t e k (at_ + 32 * clkU) := by
  refine ⟨_, ?_, ((switchIn_switched (noteEcc (freed (advance dt s) e k) k ecc) e k (at_ + 32 * clkU)).of_desk (refill_desk _)).from_desk
    (noteRead_desk ..)⟩
  show execTaskDispatch dt { engine := e, ecc := ecc } s = _
  unfold execTaskDispatch
  generalize advance dt s = a at *
  dsimp only
  rw [hn]
  dsimp only
  rw [hr, hs, Nat.ble_eq.mpr ht, if_neg (by decide), if_neg hc, if_neg (by unfold stdEnds; exact Bool.false_ne_true), hd]
  exact if_pos hat

theorem decideAt_empty {a : State} (h : (a.engine e).active = none) : decideAt a e k = some (max (nextFrom a e k) (a.engine e).freeAt) := by
  unfold decideAt
  dsimp only
  rw [h]
  rfl

theorem decideAt_preempts {a : State} {v : PTask} {c : ECore} {runs : List Nat} {used : Nat} (h : (a.engine e).active.bind (ptask a.image) = some v)
    (hp : k.prio < v.prio) (hl : (a.engine e).chain.length < 7) (hpp : preemptPoint a e v (nextFrom a e k) = some (c, runs, used)) :
    decideAt a e k = some (max (nextFrom a e k) (instantAt a v.index used)) := by
  unfold decideAt
  dsimp only
  rw [h]
  dsimp only
  rw [Nat.blt_eq.mpr hp, Nat.blt_eq.mpr hl, hpp]
  rfl

theorem freed_empty {a : State} (h : (a.engine e).active = none) : freed a e k = a := by
  unfold freed
  rw [h]
  rfl

theorem freed_preempts {a : State} {v : PTask} {c : ECore} {runs : List Nat} {used : Nat} (h : (a.engine e).active.bind (ptask a.image) = some v)
    (hpp : preemptPoint a e v (nextFrom a e k) = some (c, runs, used)) : freed a e k = preempt a e v c runs used := by
  unfold freed
  rw [h]
  dsimp only
  rw [hpp]

theorem told_foldl_raiseWarn (v : PTask) (runs : List Nat) (s : State) : Told s (noteRuns s v runs) :=
  told_foldl _ (fun _ _ => raiseOnly_told ..) _ s

/-- A preempted task stands at the head of its list again, with the clocks it has run. -/
theorem preempt_lists {a : State} {v : PTask} (hv : ptask a.image v.index = some v) (c : ECore) (runs : List Nat) (used : Nat) :
    ((preempt a e v c runs used).task v.index).phase = .ready ∧ ((preempt a e v c runs used).task v.index).used = used ∧
    v.index ∈ (preempt a e v c runs used).level v.prio := by
  unfold preempt
  dsimp only
  generalize hb : State.onEngine _ e _ = b
  have hi : b.image = a.image := by
    rw [← hb]
    exact image_of_plan ((told_foldl_raiseWarn v runs (spill a)).plan)
  have hp : prioOf (b.onTask v.index (fun x => { x with phase := .ready, preempted := true, used := used })) v.index = v.prio := by
    unfold prioOf
    rw [show State.image (b.onTask v.index _) = b.image from rfl, hi, hv]
  generalize hc : b.onTask v.index _ = d at hp
  have ht : (joinHead d v.index).task v.index = { b.task v.index with phase := .ready, preempted := true, used := used } := by
    rw [show (joinHead d v.index).task v.index = d.task v.index from rfl, ← hc, onTask_task]
  have hl : (joinHead d v.index).level v.prio = v.index :: d.level v.prio := by
    unfold joinHead
    rw [hp]
    exact tget_tmod_self d.disp.ready [] v.prio (fun l => v.index :: l)
  rw [ht, hl]
  exact ⟨rfl, rfl, List.mem_cons_self⟩

theorem failInputs_fails (s : State) (k : PTask) : ((failInputs s k).task k.index).phase = .failed ∧
    (failInputs s k).ev.raised.contains Ev.eccDouble = true := by
  unfold failInputs
  dsimp only
  generalize hb : noteCheck (raiseWarn s Ev.eccDouble Kind.flow k.flow 0 [] 2) = b
  have hr : b.ev.raised.contains Ev.eccDouble = true := by
    have h : (raiseWarn s Ev.eccDouble Kind.flow k.flow 0 [] 2).ev.raised.contains Ev.eccDouble = true := raiseOnly_contains ..
    rw [← hb]
    exact (congrArg (fun v : Vital => v.raised.contains Ev.eccDouble) (noteCheck_vital _)).trans h
  generalize hx : (stopService (leaveLists b k.index) k 0).onTask k.index (fun x => { x with phase := .failed }) = c
  have hc : (c.task k.index).phase = .failed := by
    rw [← hx]
    exact congrArg TaskSt.phase (onTask_task _ k.index _)
  have hcr : c.ev.raised.contains Ev.eccDouble = true := by
    rw [← hx]
    exact (show Reacts true false false false b.vital (State.onTask _ k.index _).vital by simp).raised_contains hr
  generalize hd : (if (s.task k.index).rerun = true then lastingFault c k (rerunCause (s.task k.index)) else c) = d
  have hdd : d.desk = c.desk := by
    rw [← hd]
    split
    · exact lastingFault_desk ..
    · rfl
  have hdr : d.ev.raised.contains Ev.eccDouble = true := by
    rw [← hd]
    split
    · exact (show Reacts false false false false c.vital (lastingFault c k _).vital by simp).raised_contains hcr
    · exact hcr
  have hw : Winds c (settle (if k.bundle = 255 then d else failBundle d k.bundle)) := by
    refine ((winds_of_desk hdd).trans ?_).trans (winds_of_desk (settle_desk _))
    split
    · exact .refl d
    · exact failBundle_winds ..
  refine ⟨(hw.keeps _ (by rw [hc]; rfl)).trans hc, ?_⟩
  have hv : Reacts true false false false d.vital (settle (if k.bundle = 255 then d else failBundle d k.bundle)).vital := by
    simp
  exact hv.raised_contains hdr

/-! ### Engine faults -/

theorem joinHead_sheds (s : State) (i : Nat) : Sheds s (joinHead s i) := sheds_of_slots fun _ => rfl

theorem onTask_sheds (s : State) (i : Nat) (f : TaskSt → TaskSt) : Sheds s (s.onTask i f) := sheds_of_slots fun _ => rfl

theorem abandonTask_sheds (s : State) (e kind code : Nat) (k : PTask) : Sheds s (abandonTask s e kind code k) := by
  have h : Sheds s (leaveEngine (leaveLists s k.index) k.index) := (leaveLists_winds s k.index).sheds.trans (leaveEngine_sheds ..)
  have hf : ∀ code, Sheds s (lastingFault ((leaveEngine (leaveLists s k.index) k.index).onTask k.index (fun x => { x with phase := .failed })) k code) :=
    fun code => (h.trans (onTask_sheds ..)).trans (sheds_of_desk (lastingFault_desk ..))
  unfold abandonTask
  dsimp only
  split
  · exact h.trans (onTask_sheds ..)
  · split
    · split
      · exact hf _
      · exact (hf _).trans (failBundle_winds ..).sheds
    · exact (h.trans (onTask_sheds ..)).trans (joinHead_sheds ..)

theorem moveReruns_sheds (s : State) (e : Nat) : Sheds s (moveReruns s e) := by
  refine sheds_foldl _ (fun s x => ?_) _ s
  split
  · split
    · exact onTask_sheds ..
    · exact .refl s
  · exact .refl s

/-- An engine of the part that faults in service leaves it for its test, and holds no task any more. -/
theorem faultEngine_tests {a : State} (flags : Nat) (h : (a.engine e).state = .inService) : ((faultEngine a e flags).engine e).state = .underTest ∧
    ((faultEngine a e flags).engine e).active = none ∧ (faultEngine a e flags).ev.raised.contains Ev.engineFault = true := by
  unfold faultEngine
  dsimp only
  rw [h, if_pos rfl]
  dsimp only
  generalize noteActive a e = a1
  generalize hb : raiseWarn (a1.onEngine e _) Ev.engineFault Kind.engine e 0 [] flags = b
  have hr : b.ev.raised.contains Ev.engineFault = true := by
    rw [← hb]
    exact raiseOnly_contains ..
  generalize List.foldl _ _ (a.engine e).chain = ran
  generalize hc : State.onEngine (busyMore (leaveStress b e) e _) e _ = c
  have hcs : (c.engine e).state = .underTest := by
    rw [← hc, onEngine_engine]
  have hcr : Reacts false false false false b.vital c.vital := by
    rw [← hc]
    simp
  generalize hd : List.foldl _ (flee c e) _ = d
  have hds : Sheds c d := by
    rw [← hd]
    refine (sheds_of_desk (flee_desk ..)).trans (sheds_foldl _ (fun s i => ?_) _ _)
    split
    · exact abandonTask_sheds ..
    · exact .refl s
  have hdr : Reacts false false false false c.vital d.vital := by
    rw [← hd]
    refine Reacts.trans (v := (flee c e).vital) (by simp) (foldl_reacts (fun s i => ?_) _ _)
    split <;> simp
  generalize hx : (moveReruns d e).onEngine e (fun g => { g with active := none, chain := [] }) = x
  have hxe : x.engine e = { (moveReruns d e).engine e with active := none, chain := [] } := by
    rw [← hx]
    exact onEngine_engine ..
  have hxr : Reacts false false false false d.vital (settle x).vital := by
    rw [← hx]
    simp
  have hs := settle_desk x
  refine ⟨?_, ?_, hxr.raised_contains (hdr.raised_contains (hcr.raised_contains hr))⟩
  · refine (congrArg Slot.state (desk_slot hs e)).trans ?_
    rw [hxe]
    exact ((moveReruns_sheds d e).state e).trans ((hds.state e).trans hcs)
  · rw [desk_active hs, hxe]

/-! ### The rows -/

theorem activeTask_advance (dt : Nat) (s : State) (e : Nat) : activeTask (advance dt s) e = activeTask s e := by
  obtain ⟨t, h⟩ := advance_frame dt s
  rw [h]
  rfl

theorem ptask_of_active {a : State} (h : activeTask a e = some k) : ptask a.image k.index = some k := by
  unfold activeTask at h
  split at h
  · obtain ⟨i, -, hi⟩ := Option.bind_eq_some_iff.mp h
    rw [ptask_index hi]
    exact hi
  · cases h

theorem taskComplete_eq {dt clocks : Nat} {a : State} (ha : advance dt s = a) (hk : activeTask a e = some k)
    (he : (a.engine e).epoch = (a.flow k.flow).epoch) : exec (.taskComplete dt { engine := e } clocks) s =
      .next (if userLaw k.lawId then completeUser a e k else completeStd a e k clocks) := by
  show execTaskComplete dt { engine := e } clocks s = _
  unfold execTaskComplete
  dsimp only
  rw [ha, hk]
  have hn : noteRead a 2 (if (some k).isSome = true then EccRead.clean else .clean) Kind.engine e = a := rfl
  rw [hn, hk]
  dsimp only
  rw [if_neg (by decide), if_neg (not_not.mpr he)]
  split <;> rfl

theorem taskComplete_confirmed {dt clocks : Nat} {a : State} (ha : advance dt s = a) (hk : activeTask a e = some k) :
    exec (.taskComplete dt { engine := e, ecc := .confirmed } clocks) s = .next (faultEngine a e 2) := by
  show execTaskComplete dt { engine := e, ecc := .confirmed } clocks s = _
  unfold execTaskComplete
  dsimp only
  rw [ha, hk]
  have hn : noteRead a 2 (if (some k).isSome = true then EccRead.confirmed else .clean) Kind.engine e = a := rfl
  rw [hn, hk]
  rfl

theorem idle_rows {dt clocks code : Nat} {a : State} (ha : advance dt s = a) (hk : activeTask a e = none) :
    exec (.taskComplete dt { engine := e } clocks) s = .next a ∧ exec (.taskOverrun dt e) s = .next a ∧ exec (.lawFault dt e code) s = .next a := by
  refine ⟨?_, ?_, ?_⟩
  · show execTaskComplete dt { engine := e } clocks s = _
    unfold execTaskComplete
    dsimp only
    rw [ha, hk]
    have hn : noteRead a 2 (if (none : Option PTask).isSome = true then EccRead.clean else .clean) Kind.engine e = a := rfl
    rw [hn, hk]
  · show execTaskOverrun dt e s = _
    unfold execTaskOverrun
    dsimp only
    rw [ha, hk]
  · show execLawFault dt e code s = _
    unfold execLawFault
    dsimp only
    rw [ha, hk]

theorem taskOverrun_std {dt : Nat} {a : State} (ha : advance dt s = a) (hk : activeTask a e = some k) (hu : userLaw k.lawId = false)
    (ht : instantAt a k.index (clockLimit a k) < a.time.now) : exec (.taskOverrun dt e) s = .next (overrunTask a e k) := by
  show execTaskOverrun dt e s = _
  unfold execTaskOverrun
  dsimp only
  rw [ha, hk]
  dsimp only
  rw [hu, if_neg Bool.false_ne_true, if_pos ht]

theorem taskOverrun_user {dt : Nat} {a : State} {c : ECore} {runs : List Nat} (ha : advance dt s = a) (hk : activeTask a e = some k)
    (hu : userLaw k.lawId = true) (h : runActive a e k (clockLimit a k) = (c, runs)) (hf : c.fault = none) (ho : overran a k c = true)
    (ht : instantAt a k.index (max c.clocks (clockLimit a k)) ≤ a.time.now) :
    exec (.taskOverrun dt e) s = .next (overrunTask a e k) := by
  have hend : completeUser a e k = overrunTask a e k := by
    rw [completeUser_of_run h hf, ho, if_pos rfl, if_neg (Nat.not_lt.mpr ht)]
  show execTaskOverrun dt e s = _
  unfold execTaskOverrun
  dsimp only
  rw [ha, hk]
  dsimp only
  rw [hu, if_pos rfl, h]
  dsimp only
  rw [hf, ho, hend]
  rfl

theorem lawFault_std {dt code : Nat} {a : State} (ha : advance dt s = a) (hk : activeTask a e = some k) (hu : userLaw k.lawId = false)
    (h1 : 1 ≤ code) (h5 : code ≤ 5) : exec (.lawFault dt e code) s = .next (lawFaultTask a e k code (clocksAt a k.index a.time.now)) := by
  show execLawFault dt e code s = _
  unfold execLawFault
  dsimp only
  rw [ha, hk]
  dsimp only
  rw [hu, if_neg Bool.false_ne_true, if_pos ⟨h1, h5⟩]

theorem taskDispatch_confirmed {dt : Nat} {a : State} (ha : advance dt s = a) (hn : (a.engine e).next.bind (ptask a.image) = some k)
    (hr : a.cyc.running = true) (hs : serves a e = true) (ht : (a.engine e).nextReady ≤ a.time.now) :
    exec (.taskDispatch dt { engine := e, ecc := .confirmed }) s = .next (failInputs a k) := by
  show execTaskDispatch dt { engine := e, ecc := .confirmed } s = _
  unfold execTaskDispatch
  dsimp only
  rw [ha, hn]
  dsimp only
  rw [hr, hs, Nat.ble_eq.mpr ht]
  rfl

/-- What the present time does not touch reads the same after it has gone on. -/
theorem advance_same {α : Type} {f : State → α} (h : ∀ (s : State) t, f { s with time := t } = f s) (dt : Nat) (s : State) : f (advance dt s) = f s := by
  obtain ⟨t, e⟩ := advance_frame dt s
  rw [e]
  exact h s t

/-- Settles O43: each row of the dispatcher ends with the next slots refilled, which leaves the desk as the row's own change made it. -/
theorem tasksOfACycle : Obligations.TasksOfACycle := by
  intro s dt i e code clocks used k v ecc c runs
  have same : ∀ {α : Type} (f : State → α), (∀ (s : State) t, f { s with time := t } = f s) → f (advance dt s) = f s := fun f h => advance_same h dt s
  have htask : ∀ j, (advance dt s).task j = s.task j := fun j => desk_task (advance_desk dt s) j
  have hengine : (advance dt s).engine e = s.engine e := advance_engine ..
  have himage : (advance dt s).image = s.image := image_of_plan (advance_plan ..)
  have hactive := activeTask_advance dt s e
  have hlimit : clockLimit (advance dt s) k = clockLimit s k := same (fun s => clockLimit s k) fun _ _ => rfl
  have hinstant : ∀ j n, instantAt (advance dt s) j n = instantAt s j n := fun j n => same (fun s => instantAt s j n) fun _ _ => rfl
  have hover : ∀ c, overran (advance dt s) k c = overran s k c := fun c => same (fun s => overran s k c) fun _ _ => rfl
  have hserves : serves (advance dt s) e = serves s e := same (fun s => serves s e) fun _ _ => rfl
  have hflow : (advance dt s).flow k.flow = s.flow k.flow := same (fun s => s.flow k.flow) fun _ _ => rfl
  have hrunning : (advance dt s).cyc.running = s.cyc.running := by rw [advance_cyc]
  simp only [← htask, ← hengine, ← himage, ← hactive, ← hlimit, ← hinstant, ← hover, ← hserves, ← hflow, ← hrunning]
  refine ⟨fun hk hr hd hw hi hf => taskReady_runs hk hr hd hw hi hf, fun hw => taskReady_waits hw, fun hn hr hs ht => ⟨?_, ?_, ?_⟩,
    fun hk he hu hm hl ht => ?_, fun hk he hu hf ho ht => ?_, fun hk hs => ⟨_, taskComplete_confirmed rfl hk, faultEngine_tests 2 hs⟩,
    fun hk hu ht => ⟨_, taskOverrun_std rfl hk hu ht, overrunTask_ends ..⟩,
    fun hk hu hf ho ht => ⟨_, taskOverrun_user rfl hk hu Prod.mk.eta.symm hf ho ht, overrunTask_ends ..⟩,
    fun hk hu h1 h5 hb hx => ⟨_, lawFault_std rfl hk hu h1 h5, lawFaultTask_rerun hb hx (ptask_of_active hk)⟩, fun hk => ?_⟩
  · intro hc hg hat
    obtain ⟨t, h, w⟩ := taskDispatch_switches hn hr hs ht hc (decideAt_empty hg) hat
    exact ⟨t, h, w.active, w.phase, w.resumeAt, w.service⟩
  · intro hc hg hp hl hpp hat
    obtain ⟨t, h, w⟩ := taskDispatch_switches hn hr hs ht hc (decideAt_preempts hg hp hl hpp) hat
    refine ⟨t, h, ⟨w.active, w.phase, w.resumeAt, w.service⟩, fun hne => ?_⟩
    rw [freed_preempts hg hpp] at w
    obtain ⟨m, -, hm⟩ := Option.bind_eq_some_iff.mp hg
    rw [← ptask_index hm] at hm
    obtain ⟨hphase, hused, hlevel⟩ := preempt_lists hm c runs used (e := e)
    rw [w.others _ hne]
    exact ⟨hphase, hused, w.lists _ _ hne hlevel⟩
  · rintro rfl
    exact ⟨_, taskDispatch_confirmed rfl hn hr hs ht, failInputs_fails ..⟩
  · have run := taskComplete_eq (clocks := clocks) rfl hk he
    rw [hu, if_neg Bool.false_ne_true] at run
    exact ⟨_, run, completeStd_ends hm hl ht⟩
  · have run := taskComplete_eq (clocks := clocks) rfl hk he
    rw [hu, if_pos rfl] at run
    exact ⟨_, run, completeUser_ends Prod.mk.eta.symm hf ho ht⟩
  · obtain ⟨h1, h2, h3⟩ := idle_rows (clocks := clocks) (code := code) rfl hk
    exact ⟨⟨_, h1, rfl⟩, ⟨_, h2, rfl⟩, ⟨_, h3, rfl⟩⟩

end Sys2Proof.Machine
end

