-- ==== Sys2Proof/Proofs/PlanBuffers.lean ====
section
/-! Plan buffers (R72, R671, R673, R703): the fields of a payload, and O16. -/

namespace Sys2Proof.Machine

/-! ### Fields of a payload -/

theorem leBytes_length (n v : Nat) : (leBytes n v).length = n := by
  induction n generalizing v with
  | zero => rfl
  | succ n ih => exact congrArg Nat.succ (ih _)

theorem leNat_leBytes (n v : Nat) : leNat (leBytes n v) = v % 2 ^ (8 * n) := by
  induction n generalizing v with
  | zero => exact (Nat.mod_one v).symm
  | succ n ih =>
    have hp : (2 : Nat) ^ (8 * (n + 1)) = 256 * 2 ^ (8 * n) := by rw [Nat.mul_succ, Nat.pow_add, Nat.mul_comm]
    rw [leBytes, leNat, ih, BitVec.toNat_ofNat, hp, Nat.mod_mul]

/-- A payload of numbers with their widths in bytes, one after the other. -/
def numbers (l : List (Nat × Nat)) : Bytes := l.flatMap (fun e => leBytes e.1 e.2)

theorem numbers_length (l : List (Nat × Nat)) : (numbers l).length = (l.map Prod.fst).sum := by
  unfold numbers
  rw [List.length_flatMap]
  simp only [leBytes_length]

/-- Each number of a payload is the field behind those before it. -/
theorem field_of_numbers {l : List (Nat × Nat)} {i n v : Nat} (h : l[i]? = some (n, v)) :
    Field (numbers l) ((l.take i).map Prod.fst).sum n v := by
  obtain ⟨hi, hv⟩ := List.getElem?_eq_some_iff.mp h
  have hl : numbers l = numbers (l.take i) ++ (leBytes n v ++ numbers (l.drop (i + 1))) := by
    unfold numbers
    rw [← List.flatMap_cons (f := fun e : Nat × Nat => leBytes e.1 e.2) (x := (n, v)), ← List.flatMap_append, ← hv, ← List.drop_eq_getElem_cons hi,
      List.take_append_drop]
  have hd : ((numbers l).drop ((l.take i).map Prod.fst).sum).take n = leBytes n v := by
    rw [hl, ← numbers_length, List.drop_left, List.take_left' (leBytes_length n v)]
  unfold Field uAt slice
  dsimp only
  rw [hd, leBytes_length, Nat.sub_self, List.replicate_zero, List.append_nil, leNat_leBytes]

/-! ### Plan buffers (R72, R703) -/

variable {dt : Nat} {q : Request} {s a : State} {m : Image}

theorem planLoadBody_eq (hr : uAt q.payload 4 4 = 0) (hl : uAt q.payload 0 4 + (q.payload.drop 8).length ≤ 524288) (t : Nat) :
    planLoadBody a q t = orElse (!planBusy a) St.badState (.ok { a with plan := { a.plan with
      standby := memWrite (if uAt q.payload 0 4 = 0 then [] else a.plan.standby) (uAt q.payload 0 4) (q.payload.drop 8), standbySt := .unverified } } []) :=
  need_pos (Bool.and_eq_true_iff.mpr ⟨resv_of_eq hr, Nat.ble_eq.mpr hl⟩) _

theorem planLoad_answers (h : Served Cmd.planLoad dt q s) (hr : uAt q.payload 4 4 = 0)
    (hl : uAt q.payload 0 4 + (q.payload.drop 8).length ≤ 524288) (hb : planBusy (atStamp Cmd.planLoad dt q s) = false) :
    Answers (.planLoad dt q) Cmd.planLoad dt q s St.ok (fun u p => p = [] ∧ u.plan.standbySt = .unverified ∧
      u.plan.active = (atStamp Cmd.planLoad dt q s).plan.active ∧ u.mem = (atStamp Cmd.planLoad dt q s).mem ∧
      (MemInv s → memRead u.plan.standby (uAt q.payload 0 4) (q.payload.drop 8).length = q.payload.drop 8) ∧
      (uAt q.payload 0 4 = 0 → ∀ x, (q.payload.drop 8).length ≤ x → memGet u.plan.standby x = 0) ∧
      (uAt q.payload 0 4 ≠ 0 → ∀ x, x < uAt q.payload 0 4 ∨ uAt q.payload 0 4 + (q.payload.drop 8).length ≤ x →
        memGet u.plan.standby x = memGet (atStamp Cmd.planLoad dt q s).plan.standby x)) := by
  refine answers_ok (body := planLoadBody) rfl h ((planLoadBody_eq hr hl _).trans (orElse_pos (by rw [hb]; rfl) _ _))
    ⟨rfl, rfl, rfl, rfl, fun hi => memRead_memWrite ?_ _ _, fun ho x hx => ?_, fun ho x hx => ?_⟩
  · rw [atStamp_plan]
    split
    · rfl
    · exact hi.2.1
  · dsimp only
    rw [ho, if_pos rfl]
    exact memGet_memWrite_out _ _ 0 x (.inr (by omega))
  · dsimp only
    rw [if_neg ho]
    exact memGet_memWrite_out _ _ _ x hx

theorem planLoad_badState (h : Served Cmd.planLoad dt q s) (hr : uAt q.payload 4 4 = 0)
    (hl : uAt q.payload 0 4 + (q.payload.drop 8).length ≤ 524288) (hb : planBusy (atStamp Cmd.planLoad dt q s) = true) :
    Refuses (.planLoad dt q) Cmd.planLoad dt q s St.badState :=
  refuses (body := planLoadBody) rfl h ((planLoadBody_eq hr hl _).trans (orElse_neg (by rw [hb]; rfl) _ _))

theorem planLoad_badParam (h : Served Cmd.planLoad dt q s)
    (hx : uAt q.payload 4 4 ≠ 0 ∨ 524288 < uAt q.payload 0 4 + (q.payload.drop 8).length) :
    Refuses (.planLoad dt q) Cmd.planLoad dt q s St.badParam := by
  refine refuses (body := planLoadBody) rfl h (need_neg (Bool.and_eq_false_iff.mpr ?_) _)
  rcases hx with hx | hx
  · exact .inl (beq_eq_false_iff_ne.mpr hx)
  · exact .inr (Bool.eq_false_iff.mpr fun k => absurd (Nat.ble_eq.mp k) (Nat.not_le.mpr hx))

theorem planStore_answers (h : Served Cmd.planStore dt q s) (hm : (atStamp Cmd.planStore dt q s).plan.active = some m) :
    Answers (.planStore dt q) Cmd.planStore dt q s St.ok (fun u p => p = [] ∧ u.mem.planStored = true ∧
      u.plan = (atStamp Cmd.planStore dt q s).plan ∧ (∀ x, x < 524288 → memGet u.mem.mram (1179648 + x) = memGet m x) ∧
      (∀ x, x < 1179648 ∨ 1703936 ≤ x → memGet u.mem.mram x = memGet (atStamp Cmd.planStore dt q s).mem.mram x) ∧
      u.mem.sram = (atStamp Cmd.planStore dt q s).mem.sram) := by
  refine answers_ok (body := planStoreBody) (u := { atStamp Cmd.planStore dt q s with mem := { (atStamp Cmd.planStore dt q s).mem with
    mram := memPaste (atStamp Cmd.planStore dt q s).mem.mram storedPlanAt 524288 m, planStored := true } }) rfl h ?_
    ⟨rfl, rfl, rfl, fun x hx => memGet_memPaste_in _ _ _ _ _ hx, fun x hx => memGet_memPaste_out _ _ _ _ _ hx, rfl⟩
  unfold planStoreBody
  rw [hm]

theorem planStore_refuses (h : Served Cmd.planStore dt q s) (hm : (atStamp Cmd.planStore dt q s).plan.active = none) :
    Refuses (.planStore dt q) Cmd.planStore dt q s St.planNone := by
  refine refuses (body := planStoreBody) rfl h ?_
  unfold planStoreBody
  rw [hm]

/-- The standby buffer takes the stored plan. -/
def recalled (a : State) : State :=
  { a with plan := { a.plan with standby := memSlice a.mem.mram storedPlanAt 524288, standbySt := .unverified } }

theorem planRecallBody_eq (a : State) (q : Request) (t : Nat) :
    planRecallBody a q t = orElse (!planBusy a) St.badState (orElse a.mem.planStored St.planNotStored (.ok (recalled a) [])) := by rfl

theorem planRecallBody_recalls (hb : planBusy a = false) (hs : a.mem.planStored = true) (t : Nat) :
    planRecallBody a q t = .ok (recalled a) [] := by
  rw [planRecallBody_eq, orElse_pos (by rw [hb]; rfl), orElse_pos hs]

theorem planRecall_lost (h : Served Cmd.planRecall dt q s) (hb : planBusy (atStamp Cmd.planRecall dt q s) = false)
    (hs : (atStamp Cmd.planRecall dt q s).mem.planStored = true) (he : q.ecc = .confirmed) :
    Runs (.planRecall dt q) s (fun t => t.plan.standby = (atStamp Cmd.planRecall dt q s).plan.standby ∧
      t.ev.raised.contains Ev.eccDouble = true) := by
  obtain ⟨u, p, hu, hplan, hraised⟩ : Answers (.planRecall dt q) Cmd.planRecall dt q s (0x8000 + (Config.eccStatus Cmd.planRecall).val) (fun u _ =>
      u.plan.standby = (atStamp Cmd.planRecall dt q s).plan.standby ∧ u.ev.raised.contains Ev.eccDouble = true) := by
    refine answers_errWith (body := withRead Cmd.planRecall planRecallBody)
      (t := raiseWarn (atStamp Cmd.planRecall dt q s) Ev.eccDouble 0 0 0 [] 2) (r := []) rfl h ?_ ⟨?_, raiseWarn_raised ..⟩
    · unfold withRead
      rw [planRecallBody_recalls hb hs, he]
    · exact congrArg PlanSt.standby (raiseOnly_told ..).plan
  obtain ⟨g, e, hr, -⟩ := respond_frame u Cmd.planRecall q (0x8000 + (Config.eccStatus Cmd.planRecall).val) (stampOf Cmd.planRecall dt q s) p
  rw [hr] at hu
  exact ⟨_, hu, hplan, hraised⟩

theorem planRecall_answers (h : Served Cmd.planRecall dt q s) (he : q.ecc = .clean ∨ q.ecc = .corrected)
    (hb : planBusy (atStamp Cmd.planRecall dt q s) = false) (hs : (atStamp Cmd.planRecall dt q s).mem.planStored = true) :
    Answers (.planRecall dt q) Cmd.planRecall dt q s St.ok (fun u p => p = [] ∧ u.plan.standbySt = .unverified ∧
      u.plan.standby = memSlice (atStamp Cmd.planRecall dt q s).mem.mram 1179648 524288 ∧
      u.plan.active = (atStamp Cmd.planRecall dt q s).plan.active ∧ u.mem = (atStamp Cmd.planRecall dt q s).mem) := by
  rcases he with he | he
  · refine answers_ok (body := withRead Cmd.planRecall planRecallBody) (u := recalled (atStamp Cmd.planRecall dt q s)) rfl h ?_ ⟨rfl, rfl, rfl, rfl, rfl⟩
    unfold withRead
    rw [planRecallBody_recalls hb hs, he]
  · refine answers_ok (body := withRead Cmd.planRecall planRecallBody) (u := recalled (eccFixed (atStamp Cmd.planRecall dt q s))) rfl h ?_
      ⟨rfl, rfl, rfl, rfl, rfl⟩
    unfold withRead
    rw [planRecallBody_recalls hb hs, he]
    exact planRecallBody_recalls (a := eccFixed (atStamp Cmd.planRecall dt q s)) hb hs _

theorem planRecall_refuses {st : Nat} (h : Served Cmd.planRecall dt q s)
    (hb : ∀ t, planRecallBody (atStamp Cmd.planRecall dt q s) q t = .err st []) : Refuses (.planRecall dt q) Cmd.planRecall dt q s st := by
  refine refuses (body := withRead Cmd.planRecall planRecallBody) rfl h ?_
  unfold withRead
  rw [hb]

theorem planStatus_answers (h : Served Cmd.planStatus dt q s) :
    Answers (.planStatus dt q) Cmd.planStatus dt q s St.ok (fun u p => u = atStamp Cmd.planStatus dt q s ∧ p.length = 28 ∧
      Field p 0 4 (planId (atStamp Cmd.planStatus dt q s).image) ∧
      Field p 4 4 (if (atStamp Cmd.planStatus dt q s).plan.standbySt = .empty then 0 else planId (atStamp Cmd.planStatus dt q s).plan.standby) ∧
      Field p 8 1 (standbyCode (atStamp Cmd.planStatus dt q s).plan.standbySt) ∧ Field p 9 1 (planRate (atStamp Cmd.planStatus dt q s).image) ∧
      Field p 10 2 0 ∧ Field p 12 8 ((atStamp Cmd.planStatus dt q s).plan.armed.getD 0) ∧
      Field p 20 2 (atStamp Cmd.planStatus dt q s).plan.budgetUse ∧ Field p 22 2 0 ∧ Field p 24 4 (atStamp Cmd.planStatus dt q s).tru.derating) := by
  refine answers_ok (body := planStatusBody) rfl h rfl ⟨rfl, ?_⟩
  generalize atStamp Cmd.planStatus dt q s = a
  generalize (if a.plan.standbySt = .empty then 0 else planId a.plan.standby) = sid
  have hp : b32 (planId a.image) ++ b32 sid ++ b8 (standbyCode a.plan.standbySt) ++ b8 (planRate a.image) ++ zeros 2 ++ b64 (a.plan.armed.getD 0) ++
      b16 a.plan.budgetUse ++ zeros 2 ++ b32 a.tru.derating = numbers [(4, planId a.image), (4, sid), (1, standbyCode a.plan.standbySt),
        (1, planRate a.image), (2, 0), (8, a.plan.armed.getD 0), (2, a.plan.budgetUse), (2, 0), (4, a.tru.derating)] := by
    simp [numbers, b8, b16, b32, b64, zeros, leBytes]
  rw [hp]
  exact ⟨numbers_length _, field_of_numbers (i := 0) rfl, field_of_numbers (i := 1) rfl, field_of_numbers (i := 2) rfl,
    field_of_numbers (i := 3) rfl, field_of_numbers (i := 4) rfl, field_of_numbers (i := 5) rfl, field_of_numbers (i := 6) rfl,
    field_of_numbers (i := 7) rfl, field_of_numbers (i := 8) rfl⟩

/-- Settles O16: each command is one change of the standby buffer or of the stored plan, or a report. -/
theorem planBuffers : Obligations.PlanBuffers := by
  intro s dt q m
  refine ⟨planLoad_answers, planLoad_badState, planLoad_badParam, planStore_answers, planStore_refuses, planRecall_lost, planRecall_answers,
    fun h hb => planRecall_refuses h fun t => ?_, fun h hb hs => planRecall_refuses h fun t => ?_, planStatus_answers⟩
  · rw [planRecallBody_eq, orElse_neg (by rw [hb]; rfl)]
  · rw [planRecallBody_eq, orElse_pos (by rw [hb]; rfl), orElse_neg hs]

end Sys2Proof.Machine
end

