-- ==== Sys2Proof/Proofs/Ledger.lean ====
section
/-! What the rings, the bundles and the engines' counts keep through the work of the dispatcher and through the reactions to faults. -/

namespace Sys2Proof.Machine

/-- The counts of an engine's faults and whether its flows return to it. -/
structure Tally where
  engFaults : Nat
  returning : Bool

def Engine.tally (g : Engine) : Tally := { engFaults := g.engFaults, returning := g.returning }

/-- What the rings and the cycle keep of their traffic and of their bundles, and the tallies of the engines. -/
structure Ledger where
  rings : Table Ring
  bursts : Table (List Burst)
  running : Bool
  bundles : Table BundleSt
  tallies : Nat → Tally

def State.ledger (s : State) : Ledger :=
  { rings := s.rings, bursts := s.cyc.bursts, running := s.cyc.running, bundles := s.cyc.bundles, tallies := fun e => (s.engine e).tally }

/-- A ledger without its bundles. -/
def Ledger.unbundled (l : Ledger) : Ledger := { l with bundles := [] }

variable {s t : State}

theorem ledger_ring (h : t.ledger.rings = s.ledger.rings) (r : Nat) : t.ring r = s.ring r := congrArg (fun x : Table Ring => tget x {} r) h
theorem ledger_bundle (h : t.ledger = s.ledger) (b : Nat) : t.bundle b = s.bundle b := congrArg (fun x : Ledger => tget x.bundles {} b) h
theorem ledger_tally (h : t.ledger.tallies = s.ledger.tallies) (e : Nat) : (t.engine e).tally = (s.engine e).tally := congrFun h e

theorem ledger_of_eq (hr : t.rings = s.rings) (hc : t.cyc = { s.cyc with first := t.cyc.first }) (hd : t.disp = s.disp) : t.ledger = s.ledger := by
  unfold State.ledger State.engine
  rw [hr, hd, hc]

theorem ledger_of_outside (h : t.outside = s.outside) : t.ledger = s.ledger :=
  ledger_of_eq (congrArg Outside.rings h) (by rw [show t.cyc = s.cyc from congrArg Outside.cyc h]) (congrArg Outside.disp h)

theorem Told.ledger (h : Told s t) : t.ledger = s.ledger := by
  obtain ⟨_, _, _, rfl⟩ := h
  rfl

theorem ledger_foldl {α : Type} (f : State → α → State) (h : ∀ s x, (f s x).ledger = s.ledger) (l : List α) (s : State) :
    (l.foldl f s).ledger = s.ledger := by
  induction l generalizing s with
  | nil => rfl
  | cons x l ih => exact (ih (f s x)).trans (h s x)

theorem unbundled_foldl {α : Type} (f : State → α → State) (h : ∀ s x, (f s x).ledger.unbundled = s.ledger.unbundled) (l : List α) (s : State) :
    (l.foldl f s).ledger.unbundled = s.ledger.unbundled := by
  induction l generalizing s with
  | nil => rfl
  | cons x l ih => exact (ih (f s x)).trans (h s x)

/-! ### Raises leave the ledger alone -/

theorem advance_ledger (dt : Nat) (s : State) : (advance dt s).ledger = s.ledger := by
  obtain ⟨_, e⟩ := advance_frame dt s
  rw [e]
  rfl

theorem raiseWarn_ledger (s : State) (src kind inst cause : Nat) (detail : Bytes) (flags : Nat) :
    (raiseWarn s src kind inst cause detail flags).ledger = s.ledger := (raiseOnly_told ..).ledger

theorem transient_ledger (s : State) (kind : Nat) (r : Raise) : (transient s kind r).ledger = s.ledger := by
  obtain ⟨_, _, _, e⟩ := transient_frame s kind r
  rw [e]
  rfl

theorem enterFault_cyc (s : State) : (enterFault s).cyc = { s.cyc with first := (enterFault s).cyc.first } := by
  by_cases h : canFault s.dev.mode = true
  · have ho : (enterFault s).cyc = { s.cyc with first := none } := congrArg Outside.cyc (enterFault_outside h)
    rw [ho]
  · by_cases hb : s.dev.mode = .boot
    · rw [enterFault_boot hb]
    · rw [enterFault_other]
      rw [canFault_iff] at h
      cases hm : s.dev.mode <;> simp_all

theorem enterFault_ledger (s : State) : (enterFault s).ledger = s.ledger :=
  ledger_of_eq (congrArg Outside.rings (enterFault_frame s)) (enterFault_cyc s) (congrArg Outside.disp (enterFault_frame s))

theorem freezeRecord_ledger (s : State) (trigger source ns : Nat) : (freezeRecord s trigger source ns).ledger = s.ledger := by
  obtain ⟨_, e, -⟩ := freezeRecord_frame s trigger source ns
  rw [e]
  rfl

theorem raiseDevice_ledger (s : State) (r : Raise) (trigger : Nat) : (raiseDevice s r trigger).ledger = s.ledger := by
  unfold raiseDevice
  dsimp only
  rw [enterFault_ledger, freezeRecord_ledger, (raiseOnly_told ..).ledger]

theorem countFault_ledger (s : State) (ns : Nat) : (countFault s ns).ledger = s.ledger := by
  unfold countFault
  dsimp only
  split
  · rw [raiseDevice_ledger]
    rfl
  · rfl

theorem noteAxisFault_ledger (s : State) (src a cause : Nat) (detail : Bytes) (flags : Nat) : (noteAxisFault s src a cause detail flags).ledger = s.ledger := by
  unfold noteAxisFault
  dsimp only
  rw [countFault_ledger]
  exact (raiseOnly_told ..).ledger

theorem raiseAxis_ledger (s : State) (src a cause : Nat) (detail : Bytes) (flags : Nat) : (raiseAxis s src a cause detail flags).ledger = s.ledger :=
  (ledger_of_outside (requestStop_outside ..)).trans (noteAxisFault_ledger ..)

theorem raiseGroup_ledger (s : State) (src kind inst g flags : Nat) : (raiseGroup s src kind inst g flags).ledger = s.ledger := by
  unfold raiseGroup
  dsimp only
  refine Eq.trans rfl ((countFault_ledger ..).trans ?_)
  exact (raiseOnly_told ..).ledger

theorem holdFaulted_ledger (src : Nat) (s : State) (a : Nat) : (holdFaulted src s a).ledger = s.ledger :=
  ledger_of_outside (requestStop_outside ..)

theorem noteCheck_ledger (s : State) : (noteCheck s).ledger = s.ledger := by
  unfold noteCheck
  split <;> rfl

theorem lastingFault_ledger (s : State) (k : PTask) (code : Nat) : (lastingFault s k code).ledger = s.ledger := by
  unfold lastingFault
  dsimp only
  split
  · exact (raiseWarn_ledger ..).trans (noteCheck_ledger s)
  · exact (raiseAxis_ledger ..).trans (noteCheck_ledger s)

theorem noteRuns_ledger (s : State) (k : PTask) (runs : List Nat) : (noteRuns s k runs).ledger = s.ledger :=
  ledger_foldl _ (fun _ _ => raiseWarn_ledger ..) _ s

theorem noteDone_ledger (s : State) (k : PTask) (c : ECore) : (noteDone s k c).ledger = s.ledger := by
  unfold noteDone noteSat
  split
  · split <;> rfl
  · rfl

theorem leaveStress_ledger (s : State) (e : Nat) : (leaveStress s e).ledger = s.ledger := by
  unfold leaveStress
  split <;> rfl

theorem noteActive_ledger (s : State) (e : Nat) : (noteActive s e).ledger = s.ledger := by
  unfold noteActive
  split
  · split
    · exact (noteDone_ledger ..).trans (noteRuns_ledger ..)
    · rfl
  · rfl

/-! ### The dispatcher leaves the ledger alone -/

/-- A change of an engine that leaves its tally. -/
theorem onEngine_ledger {e : Nat} {f : Engine → Engine} (h : (f (s.engine e)).tally = (s.engine e).tally) : (s.onEngine e f).ledger = s.ledger := by
  have ht : (fun g => ((s.onEngine e f).engine g).tally) = fun g => (s.engine g).tally := by
    funext g
    by_cases hg : g = e
    · rw [hg, onEngine_engine, h]
    · rw [onEngine_other f hg]
  exact congrArg (fun x => ({ s.ledger with tallies := x } : Ledger)) ht

theorem slotEmpty_ledger (s : State) (e at_ : Nat) : (slotEmpty s e at_).ledger = s.ledger := by
  unfold slotEmpty
  refine onEngine_ledger ?_
  split <;> rfl

theorem displace_tally (now : Nat) (g : Engine) : (displace now g).tally = g.tally := by
  unfold displace
  split <;> rfl

theorem fillNext_ledger (s : State) (e : Nat) (k : PTask) : (fillNext s e k).ledger = s.ledger := by
  unfold fillNext
  dsimp only
  split
  · exact onEngine_ledger rfl
  · exact Eq.trans rfl (onEngine_ledger (s := s) (e := e) (f := fun g => { g with
      next := some k.index, nextReady := s.time.now + prefetchClocks s k * clkU,
      nextCore := entryCore (flowView s k.flow) k.entry k.base k.inLen k.stLen k.outLen (callFlags s k),
      nextLaw := if userLaw k.lawId then {} else evalLaw (if (s.task k.index).rerun then s else runFeedback s k) k }) rfl)

theorem refill_ledger (s : State) : (refill s).ledger = s.ledger := by
  unfold refill
  refine (show (stressSync _).ledger = State.ledger _ from rfl).trans (ledger_foldl _ (fun s e => ?_) _ s)
  dsimp only
  generalize (if serves s e = true then candidate s e else none) = c
  split
  · rfl
  · split
    · exact (fillNext_ledger ..).trans (onEngine_ledger (displace_tally ..))
    · exact onEngine_ledger (displace_tally ..)

theorem settle_ledger (s : State) : (settle s).ledger = s.ledger := by
  unfold settle
  refine (refill_ledger _).trans (ledger_foldl _ (fun s e => ?_) _ s)
  split
  · unfold endDrain
    split <;> rfl
  · rfl

theorem leaveEngine_ledger (s : State) (i : Nat) : (leaveEngine s i).ledger = s.ledger := by
  have ht : (fun e => ((leaveEngine s i).engine e).tally) = fun e => (s.engine e).tally := by
    funext e
    rw [leaveEngine_engine]
    rfl
  have h : (leaveEngine s i).ledger = { s.ledger with tallies := fun e => ((leaveEngine s i).engine e).tally } := by
    unfold leaveEngine
    dsimp only
    split <;> rfl
  rw [h, ht]
  rfl

theorem stopService_ledger (s : State) (k : PTask) (n : Nat) : (stopService s k n).ledger = s.ledger := by
  unfold stopService
  split
  · dsimp only
    refine (leaveEngine_ledger ..).trans ?_
    split
    · exact onEngine_ledger rfl
    · rfl
  · dsimp only
    refine Eq.trans (show (State.onFlow _ _ _).ledger = _ from rfl) ((leaveEngine_ledger ..).trans ((slotEmpty_ledger ..).trans
      ((noteDone_ledger ..).trans ((noteRuns_ledger ..).trans (onEngine_ledger rfl)))))

/-! ### Bundles that fail -/

theorem failMember_ledger (s : State) (k : PTask) : (failMember s k).ledger = s.ledger := by
  unfold failMember
  dsimp only
  generalize hb : (if goesOut s k = true then s.onAxis k.axis (fun x => { x with out := { x.out with failed := true } }) else s) = b
  have h : b.ledger = s.ledger := by
    rw [← hb]
    split <;> rfl
  have stopped : ∀ (u : State) n f, u.ledger = b.ledger → ((stopService u k n).onTask k.index f).ledger = s.ledger := fun u n f hu =>
    Eq.trans rfl ((stopService_ledger u k n).trans (hu.trans h))
  split
  · exact stopped _ _ _ rfl
  · exact stopped _ _ _ rfl
  · exact stopped _ _ _ rfl
  · exact h
  · exact h

/-- A bundle that fails is all that changes. -/
theorem failBundle_ledger (s : State) (b : Nat) : (failBundle s b).ledger =
    if (s.bundle b).failed || (s.bundle b).commitAt.isSome then s.ledger
    else (s.onBundle b (fun x => { x with failed := true, misses := x.misses + 1 })).ledger := by
  have hm : ∀ u : State, (refill (if (u.bundle b).misses = 1 then
      transient u 11 { source := Ev.bundleFailed, cls := Cls.info, kind := Kind.bundle, inst := b } else u)).ledger = u.ledger := by
    intro u
    rw [refill_ledger]
    split
    · exact transient_ledger ..
    · rfl
  unfold failBundle
  split
  · rfl
  · exact (hm _).trans (ledger_foldl failMember failMember_ledger _ _)

theorem failBundle_unbundled (s : State) (b : Nat) : (failBundle s b).ledger.unbundled = s.ledger.unbundled := by
  rw [failBundle_ledger]
  split <;> rfl

/-! ### Engines that fault -/

theorem placeOr_ledger (s : State) (f : Nat) (want : Option Nat) (epoch : Nat) : (placeOr s f want epoch).ledger = s.ledger := by
  have unplaced : ∀ (l : List Nat) (s : State), (l.foldl (fun s a => raiseAxis s Ev.flowUnplaced a) s).ledger = s.ledger :=
    fun l s => ledger_foldl _ (fun _ _ => raiseAxis_ledger ..) l s
  have warned : ∀ (s : State) g, (raiseWarn (s.onFlow f (fun x => { x with engine := g, epoch := epoch, drainTo := none, placed := false }))
      Ev.flowUnverified Kind.flow f).ledger = s.ledger := fun s g => raiseWarn_ledger ..
  unfold placeOr
  dsimp only
  split
  · split
    · rfl
    · split
      · exact warned ..
      · exact unplaced ..
  · split
    · exact warned ..
    · exact unplaced ..

theorem flee_ledger (s : State) (e : Nat) : (flee s e).ledger = s.ledger := ledger_foldl _ (fun _ _ => placeOr_ledger ..) _ s

theorem onTask_ledger (s : State) (i : Nat) (f : TaskSt → TaskSt) : (s.onTask i f).ledger = s.ledger := by rfl
theorem joinHead_ledger (s : State) (i : Nat) : (joinHead s i).ledger = s.ledger := by rfl

theorem abandonTask_unbundled (s : State) (e kind code : Nat) (k : PTask) : (abandonTask s e kind code k).ledger.unbundled = s.ledger.unbundled := by
  have left : (leaveEngine (leaveLists s k.index) k.index).ledger = s.ledger := leaveEngine_ledger ..
  have hf : ∀ code, (lastingFault ((leaveEngine (leaveLists s k.index) k.index).onTask k.index (fun x => { x with phase := .failed })) k code).ledger =
      s.ledger := fun code => (lastingFault_ledger ..).trans ((onTask_ledger ..).trans left)
  unfold abandonTask
  dsimp only
  split
  · rw [onTask_ledger, left]
  · split
    · split
      · rw [hf]
      · rw [failBundle_unbundled, hf]
    · rw [joinHead_ledger, onTask_ledger, left]

theorem moveReruns_ledger (s : State) (e : Nat) : (moveReruns s e).ledger = s.ledger := by
  refine ledger_foldl _ (fun s x => ?_) _ s
  split
  · split <;> rfl
  · rfl

end Sys2Proof.Machine
end

