-- ==== Sys2Proof/Proofs/Standing.lean ====
section
/-! What the reactions to faults leave: active faults, and a plan that nothing is being done to. -/

namespace Sys2Proof.Machine

variable {s t u : State}

/-- An axis keeps its active faults and what OUTPUT_MISSED has said of it. -/
structure Endures (x y : Axis) : Prop where
  faults : x.faults ⊆ y.faults
  outRaised : y.outRaised = x.outRaised
  cascRaised : y.cascRaised = x.cascRaised

theorem Endures.refl (x : Axis) : Endures x x := ⟨fun _ h => h, rfl, rfl⟩

theorem Endures.trans {x y z : Axis} (a : Endures x y) (b : Endures y z) : Endures x z :=
  ⟨fun _ h => b.faults (a.faults h), b.outRaised.trans a.outRaised, b.cascRaised.trans a.cascRaised⟩

/-- No active fault of an axis or a group goes, and the plan stays where no verification runs and no switch is armed (R75). -/
structure Stands (s t : State) : Prop where
  plan : s.plan.verifying = none → s.plan.armed = none → t.plan = s.plan
  axes : ∀ a, Endures (s.axis a) (t.axis a)
  groups : ∀ g, (s.group g).faults ⊆ (t.group g).faults

theorem stands_of_eq (hp : t.plan = s.plan) (ha : t.axes = s.axes) (hg : t.groups = s.groups) : Stands s t := by
  refine ⟨fun _ _ => hp, fun a => ?_, fun g => ?_⟩
  · unfold State.axis
    rw [ha]
    exact .refl _
  · unfold State.group
    rw [hg]
    exact fun _ h => h

theorem Stands.refl (s : State) : Stands s s := stands_of_eq rfl rfl rfl

theorem Stands.trans (a : Stands s t) (b : Stands t u) : Stands s u := by
  refine ⟨fun hv hn => ?_, fun n => (a.axes n).trans (b.axes n), fun g _ h => b.groups g (a.groups g h)⟩
  have h := a.plan hv hn
  rw [b.plan (h ▸ hv) (h ▸ hn), h]

theorem stands_foldl {α : Type} (f : State → α → State) (h : ∀ s x, Stands s (f s x)) (l : List α) (s : State) : Stands s (l.foldl f s) := by
  induction l generalizing s with
  | nil => exact .refl s
  | cons x l ih => exact (h s x).trans (ih (f s x))

theorem Told.stands (h : Told s t) : Stands s t := by
  obtain ⟨_, _, _, rfl⟩ := h
  exact stands_of_eq rfl rfl rfl

theorem onAxis_stands {a : Nat} {f : Axis → Axis} (h : Endures (s.axis a) (f (s.axis a))) : Stands s (s.onAxis a f) := by
  refine ⟨fun _ _ => rfl, fun n => ?_, fun _ _ h => h⟩
  by_cases hn : n = a
  · rw [hn, axis_onAxis_self]
    exact h
  · rw [axis_onAxis_other _ _ _ _ hn]
    exact .refl _

theorem onGroup_stands {g : Nat} {f : Group → Group} (h : (s.group g).faults ⊆ (f (s.group g)).faults) : Stands s (s.onGroup g f) := by
  refine ⟨fun _ _ => rfl, fun n => .refl _, fun n => ?_⟩
  by_cases hn : n = g
  · rw [hn, group_onGroup_self]
    exact h
  · rw [group_onGroup_other _ _ _ _ hn]
    exact fun _ h => h

/-! ### Commands that end, and axes that stop -/

theorem notify_stands (s : State) (code tag status : Nat) (p : Bytes) : Stands s (notify s code tag status p) := by
  obtain ⟨_, _, e, -⟩ := notify_frame s code tag status p
  rw [e]
  exact stands_of_eq rfl rfl rfl

theorem finish_stands (s : State) (code key status : Nat) (p : Bytes) : Stands s (finish s code key status p) := by
  obtain ⟨_, _, e, -⟩ := finish_frame s code key status p
  rw [e]
  exact stands_of_eq rfl rfl rfl

theorem waitAxis_stands (a stamp : Nat) (c : MotionCmd) (s : State) : Stands s (waitAxis a stamp c s) := onAxis_stands ⟨fun _ h => h, rfl, rfl⟩

theorem waitGroup_stands (g stamp : Nat) (c : MotionCmd) (s : State) : Stands s (waitGroup g stamp c s) := onGroup_stands fun _ h => h

theorem disabledNow_stands (s : State) (a : Nat) : Stands s (disabledNow s a) := by
  have h1 : Stands s (s.onAxis a (fun x => { x with phase := .disabled, control := 0, axisEnabled := false })) := onAxis_stands ⟨fun _ h => h, rfl, rfl⟩
  unfold disabledNow
  dsimp only
  refine .trans ?_ (finish_stands ..)
  split
  · exact (h1.trans (onAxis_stands ⟨fun _ h => h, rfl, rfl⟩)).trans (finish_stands ..)
  · exact h1

theorem engageBrake_endures (now : Nat) (x : Axis) : Endures x (engageBrake now x) := ⟨fun _ h => h, rfl, rfl⟩

theorem abortEnable_stands (s : State) (a status : Nat) : Stands s (abortEnable s a status) := by
  unfold abortEnable
  split
  · exact (onAxis_stands (engageBrake_endures ..)).trans (finish_stands ..)
  · exact (finish_stands ..).trans (disabledNow_stands ..)
  · exact (finish_stands ..).trans (disabledNow_stands ..)
  · exact .refl s

theorem stopping_stands (s : State) (a : Nat) : Stands s (s.onAxis a (fun x => { x with phase := .stopping })) := onAxis_stands ⟨fun _ h => h, rfl, rfl⟩

theorem requestStop_stands (keep disable : Bool) (s : State) (a : Nat) : Stands s (requestStop keep disable s a) := by
  unfold requestStop
  dsimp only
  split
  · split
    · exact abortEnable_stands ..
    · exact .refl s
  · split
    · exact .refl s
    · have h : Stands s (if disable = true then s.onAxis a (fun x => { x with phase := .stopping }) else s) := by
        split
        · exact stopping_stands ..
        · exact .refl s
      split
      · exact h.trans (waitGroup_stands ..)
      · exact h.trans (waitAxis_stands ..)

theorem faultStop_stands (s : State) (a : Nat) : Stands s (faultStop s a) := by
  unfold faultStop
  dsimp only
  split
  · exact abortEnable_stands ..
  · split
    · exact .refl s
    · split
      · exact (stopping_stands ..).trans (waitGroup_stands ..)
      · exact (stopping_stands ..).trans (waitAxis_stands ..)

/-! ### The device state -/

theorem respondLater_stands (s : State) (mb code status : Nat) (p : Bytes) : Stands s (respondLater s mb code status p) := by
  unfold respondLater
  split
  next q _ =>
    dsimp only
    obtain ⟨_, _, e, -⟩ := respond_frame (useStamp s (nextStamp s)) code { mb := mb, tag := q.tag, payload := q.payload } status (nextStamp s) p
    rw [e]
    exact stands_of_eq rfl rfl rfl
  · exact .refl s

/-- A verification that runs, or a switch that is armed, may go. -/
theorem stands_of_busy {p : PlanSt} (h : s.plan.verifying ≠ none ∨ s.plan.armed ≠ none) (k : Stands { s with plan := p } t) : Stands s t :=
  ⟨fun hv ha => absurd h (by rw [hv, ha]; decide), k.axes, k.groups⟩

theorem cancelPlan_stands (s : State) : Stands s (cancelPlan s) := by
  unfold cancelPlan
  split
  next n hv => exact stands_of_busy (.inl fun h => nomatch h.symm.trans hv) (respondLater_stands ..)
  next n _ ha => exact stands_of_busy (.inr fun h => nomatch h.symm.trans ha) (finish_stands ..)
  · exact .refl s

theorem abortEnables_stands (s : State) : Stands s (abortEnables s) := stands_foldl _ (fun _ _ => abortEnable_stands ..) _ s

theorem setDev_stands (s : State) (d : Dev) : Stands s { s with dev := d } := stands_of_eq rfl rfl rfl
theorem setCyc_stands (s : State) (c : Cyc) : Stands s { s with cyc := c } := stands_of_eq rfl rfl rfl
theorem setEv_stands (s : State) (e : Events) : Stands s { s with ev := e } := stands_of_eq rfl rfl rfl

theorem changeState_stands (s : State) (m : DevMode) : Stands s (changeState s m) := by
  unfold changeState
  split
  · exact .refl s
  · exact (((cancelPlan_stands s).trans (abortEnables_stands _)).trans (setDev_stands ..)).trans (notify_stands ..)

theorem cancelTransitions_stands (s : State) : Stands s (cancelTransitions s) := by
  unfold cancelTransitions
  have h : Stands s (if s.dev.preopPending then finish { s with dev := { s.dev with preopPending := false } } Cmd.sysPreop 0 St.stateChanged else s) := by
    split
    · exact (setDev_stands ..).trans (finish_stands ..)
    · exact .refl s
  dsimp only
  generalize (if s.dev.preopPending = true then _ else s) = b at h ⊢
  split
  · exact (h.trans (setCyc_stands b { b.cyc with first := none })).trans (finish_stands ..)
  · exact h

theorem enterFault_stands (s : State) : Stands s (enterFault s) := by
  have h : Stands s (changeState (cancelTransitions s) .fault) := (cancelTransitions_stands s).trans (changeState_stands ..)
  unfold enterFault
  split
  · exact h.trans (setDev_stands ..)
  · exact (h.trans (setDev_stands ..)).trans (stands_foldl _ faultStop_stands _ _)
  · exact (h.trans (setDev_stands ..)).trans (stands_foldl _ faultStop_stands _ _)
  · exact (h.trans (setDev_stands ..)).trans (stands_foldl _ faultStop_stands _ _)
  · exact setDev_stands ..
  · exact .refl s

/-! ### Raises -/

theorem freezeRecord_stands (s : State) (trigger source ns : Nat) : Stands s (freezeRecord s trigger source ns) := by
  obtain ⟨_, e, -⟩ := freezeRecord_frame s trigger source ns
  rw [e]
  exact setEv_stands ..

theorem raiseOnly_stands (s : State) (r : Raise) : Stands s (raiseOnly s r) := (raiseOnly_told ..).stands

theorem transient_stands (s : State) (kind : Nat) (r : Raise) : Stands s (transient s kind r) := by
  obtain ⟨_, _, _, e⟩ := transient_frame s kind r
  rw [e]
  exact stands_of_eq rfl rfl rfl

theorem raiseDevice_stands (s : State) (r : Raise) (trigger : Nat) : Stands s (raiseDevice s r trigger) :=
  ((raiseOnly_stands ..).trans (freezeRecord_stands ..)).trans (enterFault_stands _)

theorem countFault_stands (s : State) (ns : Nat) : Stands s (countFault s ns) := by
  unfold countFault
  dsimp only
  split
  · exact ((setEv_stands ..).trans (setEv_stands ..)).trans (raiseDevice_stands ..)
  · exact setEv_stands ..

theorem mem_addFault (src : Nat) (l : List Nat) : src ∈ addFault src l := by
  unfold addFault
  split
  next h => exact List.contains_iff_mem.mp h
  next => exact List.mem_append_right _ List.mem_cons_self

theorem subset_addFault (src : Nat) (l : List Nat) : l ⊆ addFault src l := by
  unfold addFault
  split
  · exact fun _ h => h
  · exact fun _ h => List.mem_append_left _ h

theorem addFault_stands (s : State) (src a : Nat) : Stands s (s.onAxis a (fun x => { x with faults := addFault src x.faults })) :=
  onAxis_stands ⟨subset_addFault .., rfl, rfl⟩

theorem addFault_group_stands (s : State) (src g : Nat) : Stands s (s.onGroup g (fun x => { x with faults := addFault src x.faults })) :=
  onGroup_stands (subset_addFault ..)

theorem raiseAxis_stands (s : State) (src a cause : Nat) (detail : Bytes) (flags : Nat) : Stands s (raiseAxis s src a cause detail flags) :=
  (((raiseOnly_stands ..).trans (addFault_stands ..)).trans (countFault_stands ..)).trans (requestStop_stands ..)

/-- An axis that a fault is raised for has it. -/
theorem raiseAxis_faults (s : State) (src a cause : Nat) (detail : Bytes) (flags : Nat) :
    src ∈ ((raiseAxis s src a cause detail flags).axis a).faults := by
  unfold raiseAxis noteAxisFault
  dsimp only
  generalize raiseOnly s _ = b
  refine (((countFault_stands _ _).trans (requestStop_stands true true _ a)).axes a).faults ?_
  rw [axis_onAxis_self]
  exact mem_addFault ..

theorem raiseGroup_stands (s : State) (src kind inst g flags : Nat) : Stands s (raiseGroup s src kind inst g flags) :=
  (((raiseOnly_stands ..).trans (addFault_group_stands ..)).trans (countFault_stands ..)).trans (waitGroup_stands ..)

/-- A group that a fault is raised for has it. -/
theorem raiseGroup_faults (s : State) (src kind inst g flags : Nat) : src ∈ ((raiseGroup s src kind inst g flags).group g).faults := by
  unfold raiseGroup
  dsimp only
  generalize raiseOnly s _ = b
  refine ((countFault_stands _ (nowNs s)).trans (waitGroup_stands g _ .hold _)).groups g ?_
  rw [group_onGroup_self]
  exact mem_addFault ..

theorem holdFaulted_stands (src : Nat) (s : State) (a : Nat) : Stands s (holdFaulted src s a) := (addFault_stands ..).trans (requestStop_stands ..)

theorem holdFaulted_faults (src : Nat) (s : State) (a : Nat) : src ∈ ((holdFaulted src s a).axis a).faults := by
  refine ((requestStop_stands true false _ a).axes a).faults ?_
  rw [axis_onAxis_self]
  exact mem_addFault ..

/-- Each axis of a list that takes a group fault has it. -/
theorem holdFaulted_foldl_faults {src a : Nat} {l : List Nat} (h : a ∈ l) (s : State) : src ∈ ((l.foldl (holdFaulted src) s).axis a).faults := by
  induction l generalizing s with
  | nil => cases h
  | cons x l ih =>
    rcases List.mem_cons.mp h with rfl | h
    · exact ((stands_foldl _ (holdFaulted_stands src) l _).axes _).faults (holdFaulted_faults ..)
    · exact ih h _

end Sys2Proof.Machine
end

