-- ==== Sys2Proof/Proofs/PlanSwitches.lean ====
section
/-! The first tick of a cycle (R76): O19; the commit and the switch of plans (R66, R72 to R74): O17. -/

namespace Sys2Proof.Machine

/-! ### The first tick (R76) -/

theorem periodNs_pos (rate : Nat) : 0 < periodNs rate := by
  unfold periodNs
  split <;> decide

/-- A quotient rounded up is the least factor that reaches the dividend. -/
theorem cdivN_le_iff {n d k : Nat} (hd : 0 < d) : cdivN n d ≤ k ↔ n ≤ k * d := by
  unfold cdivN
  rw [← Nat.lt_succ_iff, Nat.div_lt_iff_lt_mul hd, Nat.succ_mul]
  omega

/-- Settles O19: the number of the first tick counts spans of 256 ticks, and a quotient rounded up is the least count that reaches the instant. -/
theorem firstTickIsTheEarliestAllowed : Obligations.FirstTickIsTheEarliestAllowed := by
  intro rate at_
  have hd : 0 < 256 * periodNs rate := Nat.mul_pos (by decide) (periodNs_pos rate)
  have span : ∀ k, tickNs rate (k * 256) = k * (256 * periodNs rate) := fun k => Nat.mul_assoc ..
  refine ⟨Nat.mul_mod_left _ _, ?_, fun n hn hat => ?_⟩
  · show at_ + 1000000 ≤ tickNs rate (cdivN (at_ + 1000000) (256 * periodNs rate) * 256)
    rw [span]
    exact (cdivN_le_iff hd).mp (Nat.le_refl _)
  · have hk : n = n / 256 * 256 := (Nat.div_mul_cancel (Nat.dvd_of_mod_eq_zero hn)).symm
    rw [hk, span] at hat
    rw [hk]
    exact Nat.mul_le_mul_right 256 ((cdivN_le_iff hd).mpr hat)

variable {s a : State} {dt n : Nat} {q : Request} {r : Refused}

/-! ### PLAN_COMMIT (R72, R703) -/

theorem planCommitBody_eq (h : uAt q.payload 0 8 % 256 = 0) (a : State) (t : Nat) : planCommitBody a q t = orElse (!planBusy a) St.badState
    (.later { a with plan := { a.plan with verifying := some (uAt q.payload 0 8), verifyMb := q.mb, standbySt := .verifying } }) :=
  need_pos (beq_iff_eq.mpr h) _

theorem planCommit_runs (h : Served Cmd.planCommit dt q s) (hn : uAt q.payload 0 8 % 256 = 0)
    (hb : planBusy (atStamp Cmd.planCommit dt q s) = false) :
    Runs (.planCommit dt q) s (fun t => t.plan.verifying = some (uAt q.payload 0 8) ∧ t.plan.verifyMb = q.mb ∧ t.plan.standbySt = .verifying ∧
      (tfind t.host.running q.mb).isSome = true) := by
  have hx : exec (.planCommit dt q) s = .next (serve Cmd.planCommit planCommitBody dt q s) := rfl
  rw [serve_eq h, planCommitBody_eq hn, orElse_pos (by rw [hb]; rfl)] at hx
  refine ⟨_, hx, rfl, rfl, rfl, ?_⟩
  dsimp only
  rw [tfind_tput_self]
  rfl

theorem planCommit_badParam (h : Served Cmd.planCommit dt q s) (hn : uAt q.payload 0 8 % 256 ≠ 0) :
    Refuses (.planCommit dt q) Cmd.planCommit dt q s St.badParam :=
  refuses (body := planCommitBody) rfl h (need_neg (beq_eq_false_iff_ne.mpr hn) _)

/-! ### Activation (R72, R286) -/

/-- The two buffers and what is being done to them. -/
structure Buffers where
  active : Option Image
  standby : Image
  standbySt : Standby
  verifying : Option Nat
  armed : Option Nat

def PlanSt.buffers (p : PlanSt) : Buffers :=
  { active := p.active, standby := p.standby, standbySt := p.standbySt, verifying := p.verifying, armed := p.armed }

/-- The buffers after an exchange: the standby plan is active, and nothing is being done to the other. -/
def PlanSt.exchanged (p : PlanSt) : Buffers :=
  { active := some p.standby, standby := p.active.getD [], standbySt := if p.active.isSome then .verified else .empty, verifying := none, armed := none }

theorem buffers_eq {p : PlanSt} {b : Buffers} (h : p.buffers = b) :
    p.active = b.active ∧ p.standby = b.standby ∧ p.standbySt = b.standbySt ∧ p.verifying = b.verifying ∧ p.armed = b.armed := by
  rw [← h]
  exact ⟨rfl, rfl, rfl, rfl, rfl⟩

theorem finish_plan (s : State) (code key status : Nat) (p : Bytes) : (finish s code key status p).plan = s.plan := by
  obtain ⟨_, _, e, -⟩ := finish_frame s code key status p
  rw [e]

theorem noteOut_buffers (s : State) (fresh : Bool) (o : BudgetOut) : (noteOut s fresh o).plan.buffers = s.plan.buffers := by
  unfold noteOut
  split
  · unfold noteUse
    dsimp only
    split
    · refine (congrArg PlanSt.buffers (raiseOnly_told ..).plan).trans ?_
      rfl
    · rfl
  · rfl

theorem raiseWarn_plan (s : State) (src kind inst cause : Nat) (detail : Bytes) (flags : Nat) :
    (raiseWarn s src kind inst cause detail flags).plan = s.plan := (raiseOnly_told ..).plan

theorem judgeNotch_plan (a k : Nat) (s : State) : (judgeNotch a k s).plan = s.plan := by
  unfold judgeNotch
  generalize notchOver s a _ = over_
  cases over_ with
  | false => rfl
  | true => exact raiseWarn_plan ..

theorem checkBundled_plan (s : State) (g : Nat) : (checkBundled s g).plan = s.plan := by
  unfold checkBundled
  dsimp only
  split
  · rfl
  · exact raiseWarn_plan ..

theorem recheckPlan_plan (s : State) : (recheckPlan s).plan = s.plan :=
  (plan_foldl _ checkBundled_plan _ _).trans (plan_foldl _ (fun _ _ => (judgeNotch_plan ..).trans (judgeNotch_plan ..)) _ _)

theorem placeOr_stands (s : State) (f : Nat) (want : Option Nat) (epoch : Nat) : Stands s (placeOr s f want epoch) := by
  have put : ∀ e, Stands s (s.onFlow f (fun x => { x with engine := e, epoch := epoch, drainTo := none, placed := false })) :=
    fun _ => stands_of_eq rfl rfl rfl
  have unplaced : ∀ (l : List Nat) (s : State), Stands s (l.foldl (fun s a => raiseAxis s Ev.flowUnplaced a) s) :=
    fun l s => stands_foldl _ (fun _ _ => raiseAxis_stands ..) l s
  unfold placeOr
  dsimp only
  split
  · split
    · exact put _
    · split
      · exact (put _).trans (raiseOnly_stands ..)
      · exact (put _).trans (unplaced ..)
  · split
    · exact (put _).trans (raiseOnly_stands ..)
    · exact (put _).trans (unplaced ..)

theorem setDisp_stands (s : State) (d : Disp) : Stands s { s with disp := d } := stands_of_eq rfl rfl rfl

theorem placeHome_stands (s : State) : Stands s (placeHome s) := by
  unfold placeHome
  dsimp only
  refine (setDisp_stands s _).trans (stands_foldl _ (fun s p => ?_) _ _)
  split
  · exact stands_of_eq rfl rfl rfl
  · exact placeOr_stands ..

theorem carryTasks_plan (s : State) (old : Image) : (carryTasks s old).plan = s.plan := by rfl

theorem activate_buffers (s : State) : (activate s).plan.buffers = s.plan.exchanged := by
  obtain ⟨u, hu⟩ : ∃ u, u = carryTasks (exchange (endExcursions s)) s.image := ⟨_, rfl⟩
  have hp : u.plan.buffers = s.plan.exchanged := by
    rw [hu, carryTasks_plan]
    rfl
  have hplace : (placeHome u).plan = u.plan :=
    (placeHome_stands u).plan (congrArg Buffers.verifying hp) (congrArg Buffers.armed hp)
  have ha : activate s = recheckPlan (noteNewPlan (placeHome u)) := by rw [hu]; rfl
  rw [ha, recheckPlan_plan, noteNewPlan, noteOut_buffers, hplace, hp]

/-! ### PLAN_VERIFY_DONE (R66, R72, R74) -/

theorem planVerifyDone_refuses (hv : (advance dt s).plan.verifying = some n)
    (he : verifyPlan (advance dt s) (advance dt s).plan.standby (planDerating (advance dt s)) (advance dt s).cyc.running = .error r) :
    Runs (.planVerifyDone dt) s (fun t => t.plan.standbySt = .unverified ∧ t.plan.verifying = none ∧ t.plan.active = (advance dt s).plan.active ∧
      t.plan.standby = (advance dt s).plan.standby) := by
  obtain ⟨a, ha⟩ : ∃ a, a = advance dt s := ⟨_, rfl⟩
  rw [← ha] at hv he ⊢
  have hx : exec (.planVerifyDone dt) s = .next (respondLater { a with plan := { a.plan with verifying := none, standbySt := .unverified } }
      a.plan.verifyMb Cmd.planCommit (stepStatus r.step) (refusedBytes r)) := by
    show execPlanVerifyDone dt s = _
    unfold execPlanVerifyDone
    dsimp only
    rw [← ha, hv]
    dsimp only
    rw [he]
  exact ⟨_, hx, by rw [respondLater_plan], by rw [respondLater_plan], by rw [respondLater_plan], by rw [respondLater_plan]⟩

/-- The end of a verification that passes. -/
theorem planVerifyDone_passes (ha : advance dt s = a) (hv : a.plan.verifying = some n)
    (hok : ∀ r, verifyPlan a a.plan.standby (planDerating a) a.cyc.running ≠ .error r) :
    exec (.planVerifyDone dt) s =
      if a.dev.mode = .config then .next (respondLater (activateNow a) a.plan.verifyMb Cmd.planCommit St.ok []) else .next (armSwitch a n) := by
  show execPlanVerifyDone dt s = _
  unfold execPlanVerifyDone
  dsimp only
  rw [ha, hv]
  dsimp only
  split
  next r hr => exact absurd hr (hok r)
  next => rfl

theorem activateNow_buffers (s : State) : (activateNow s).plan.buffers = s.plan.exchanged := by
  unfold activateNow
  dsimp only
  exact activate_buffers s

theorem planVerifyDone_activates (hv : (advance dt s).plan.verifying = some n)
    (hok : ∀ r, verifyPlan (advance dt s) (advance dt s).plan.standby (planDerating (advance dt s)) (advance dt s).cyc.running ≠ .error r)
    (hm : (advance dt s).dev.mode = .config) :
    Runs (.planVerifyDone dt) s (fun t => t.plan.active = some (advance dt s).plan.standby ∧ t.plan.verifying = none ∧
      t.plan.standbySt = if (advance dt s).plan.active.isSome then .verified else .empty) := by
  have hx := planVerifyDone_passes rfl hv hok
  rw [if_pos hm] at hx
  obtain ⟨ha, -, hst, hv, -⟩ := buffers_eq (activateNow_buffers (advance dt s))
  exact ⟨_, hx, by rw [respondLater_plan, ha]; rfl, by rw [respondLater_plan, hv]; rfl, by rw [respondLater_plan, hst]; rfl⟩

/-- A switch whose tick has not passed is armed (R74). -/
theorem armSwitch_plan {k : Nat} (hk : k = if n = 0 then (a.time.now / (periodNs (switchRate a) * nsU) / 256 + 1) * 256 else n)
    (ht : ¬(n ≠ 0 ∧ n * (periodNs (switchRate a) * nsU) ≤ a.time.now)) :
    (armSwitch a n).plan = { a.plan with verifying := none, armed := some k, standbySt := .armed } := by
  unfold armSwitch
  dsimp only
  rw [if_neg ht, respondLater_plan, hk]
  rfl

/-- The next number divisible by 256 lies ahead, and no more than 256 periods. -/
theorem next256_bounds {t per : Nat} (hp : 0 < per) : t < (t / per / 256 + 1) * 256 * per ∧ (t / per / 256 + 1) * 256 * per ≤ t + 256 * per := by
  rw [Nat.div_div_eq_div_mul, Nat.mul_assoc, Nat.mul_comm per 256]
  have hd : 0 < 256 * per := Nat.mul_pos (by decide) hp
  refine ⟨?_, ?_⟩
  · rw [Nat.mul_comm]
    exact Nat.lt_mul_div_succ t hd
  · rw [Nat.succ_mul]
    exact Nat.add_le_add_right (Nat.div_mul_le_self ..) _

/-! ### PLAN_SWITCH (R73, R74) -/

theorem activate_stopped (h : s.cyc.running = false) : (activate s).cyc.running = false := by
  have hr : Reacts false false false false s.vital (activate s).vital := by simp
  obtain ⟨k, -⟩ := clock_eq ((hr.clock rfl).trans (rfl : s.vital.clock = (s.cyc.running, s.cyc.rate, s.cyc.tick, s.cyc.t0, s.cyc.count)))
  exact k.trans h

theorem switchPlan_stopped (h : s.cyc.running = false) (n : Nat) : (switchPlan n s).plan.buffers = s.plan.exchanged := by
  unfold switchPlan
  dsimp only
  rw [h, if_neg Bool.false_ne_true, activate_stopped h, if_neg Bool.false_ne_true]
  rw [finish_plan, activate_buffers]

theorem planSwitch_runs (ha : s.plan.armed = some n) (hr : s.cyc.running = false) : Runs .planSwitch s (fun t =>
    t.plan.active = some s.plan.standby ∧ t.plan.armed = none ∧ t.plan.standby = s.plan.active.getD [] ∧
    t.plan.standbySt = if s.plan.active.isSome then .verified else .empty) := by
  have hx : exec .planSwitch s = .next (switchPlan n (advanceTo (tickU (switchRate s) n) s)) := by
    show execPlanSwitch s = _
    unfold execPlanSwitch
    rw [ha]
    dsimp only
    rw [hr, if_neg Bool.false_ne_true]
  have hb := switchPlan_stopped (s := advanceTo (tickU (switchRate s) n) s) (by rw [advanceTo_cyc, hr]) n
  rw [advanceTo_plan] at hb
  obtain ⟨h1, h2, h3, -, h5⟩ := buffers_eq hb
  exact ⟨_, hx, h1, h5, h2, h3⟩

/-- Settles O17: an exchange ends the verification and the switch, so no reaction to what the new plan brings finds one to cancel; and the
next number divisible by 256 lies at most 256 periods ahead. -/
theorem planCommitAndSwitch : Obligations.PlanCommitAndSwitch := by
  intro s dt n q r
  refine ⟨planCommit_runs, planCommit_badParam, planVerifyDone_refuses, planVerifyDone_activates, fun hv hok hm hn ht => ?_, fun hv hok hm => ?_,
    planSwitch_runs⟩
  · have hx := planVerifyDone_passes rfl hv hok
    rw [if_neg hm] at hx
    have hp := armSwitch_plan (if_neg hn).symm (fun h => absurd h.2 (Nat.not_le.mpr ht))
    exact ⟨_, hx, by rw [hp], by rw [hp], by rw [hp]⟩
  · have hx := planVerifyDone_passes rfl hv hok
    rw [if_neg hm] at hx
    have hp := armSwitch_plan (n := 0) (a := advance dt s) (if_pos rfl).symm (fun h => h.1 rfl)
    have hper : 0 < periodNs (switchRate (advance dt s)) * nsU := Nat.mul_pos (periodNs_pos _) (by decide)
    exact ⟨_, hx, _, by rw [hp], Nat.mul_mod_left .., next256_bounds hper⟩

end Sys2Proof.Machine
end

