-- ==== Sys2Proof/Proofs/EngineRows.lean ====
section
/-! Engine faults and tests, failed bundles, missed outputs and the clearing of statistics: O44. -/

namespace Sys2Proof.Machine

variable {s : State} {dt e b n : Nat} {k : PTask} {w : PBundle} {q : Request}

/-! ### Engine faults and tests (R294, R298, R300) -/

theorem onEngine_engFaults {f : Engine → Engine} (h : (f (s.engine e)).engFaults = (s.engine e).engFaults) :
    ((s.onEngine e f).engine e).engFaults = (s.engine e).engFaults := by
  rw [onEngine_engine]
  exact h

theorem tally_engFaults {s t : State} (h : t.ledger.tallies = s.ledger.tallies) (e : Nat) : (t.engine e).engFaults = (s.engine e).engFaults :=
  congrArg Tally.engFaults (ledger_tally h e)

/-- A fault of an engine in service is counted once. -/
theorem faultEngine_counts {a : State} (flags : Nat) (h : (a.engine e).state = .inService) :
    ((faultEngine a e flags).engine e).engFaults = inc32 (a.engine e).engFaults := by
  unfold faultEngine
  dsimp only
  rw [h, if_pos rfl]
  dsimp only
  generalize hb : raiseWarn ((noteActive a e).onEngine e _) Ev.engineFault Kind.engine e 0 [] flags = b
  have hbe : (b.engine e).engFaults = inc32 (a.engine e).engFaults := by
    rw [← hb, tally_engFaults (congrArg Ledger.tallies (raiseWarn_ledger ..)), onEngine_engine]
    exact congrArg inc32 (tally_engFaults (congrArg Ledger.tallies (noteActive_ledger ..)) e)
  generalize List.foldl _ _ (a.engine e).chain = ran
  generalize hc : State.onEngine (busyMore (leaveStress b e) e _) e _ = c
  have hce : (c.engine e).engFaults = (b.engine e).engFaults := by
    rw [← hc, onEngine_engFaults rfl]
    unfold busyMore
    rw [onEngine_engFaults rfl]
    exact tally_engFaults (congrArg Ledger.tallies (leaveStress_ledger ..)) e
  generalize hd : List.foldl _ (flee c e) _ = d
  have hde : (d.engine e).engFaults = (c.engine e).engFaults := by
    suffices hu : d.ledger.unbundled = c.ledger.unbundled from by
      have ht := congrArg Ledger.tallies hu
      exact tally_engFaults (s := c) (t := d) ht e
    rw [← hd]
    refine (unbundled_foldl _ (fun s i => ?_) _ _).trans (congrArg Ledger.unbundled (flee_ledger ..))
    split
    · exact abandonTask_unbundled ..
    · rfl
  rw [tally_engFaults (congrArg Ledger.tallies (settle_ledger ..)), onEngine_engFaults rfl,
    tally_engFaults (congrArg Ledger.tallies (moveReruns_ledger ..)), hde, hce, hbe]

theorem faultEngine_lost {a : State} (h : (a.engine e).state = .lost) : faultEngine a e = a := by
  unfold faultEngine
  dsimp only
  rw [h]
  rfl

theorem engineFault_runs (hu : enginesUp s = true) (he : e < engineCount s.board.variant) (hs : (s.engine e).state = .inService) :
    Runs (.engineFault dt e) s (fun t => (t.engine e).state = .underTest ∧ (t.engine e).active = none ∧
      (t.engine e).engFaults = inc32 (s.engine e).engFaults ∧ t.ev.raised.contains Ev.engineFault = true) := by
  have ha : (advance dt s).engine e = s.engine e := advance_engine ..
  obtain ⟨h1, h2, h3⟩ := faultEngine_tests 0 (ha ▸ hs)
  refine ⟨_, if_pos ?_, h1, h2, (faultEngine_counts 0 (ha ▸ hs)).trans (by rw [ha]), h3⟩
  rw [advance_same (f := enginesUp) (fun _ _ => rfl), advance_same (f := fun s => engineCount s.var) (fun _ _ => rfl), hu]
  exact Nat.blt_eq.mpr he

theorem engineFault_lost (hs : (s.engine e).state = .lost) : Runs (.engineFault dt e) s (fun t => t = advance dt s) := by
  have ha : (advance dt s).engine e = s.engine e := advance_engine ..
  refine ⟨advance dt s, ?_, rfl⟩
  show execEngineFault dt e s = _
  unfold execEngineFault
  dsimp only
  rw [faultEngine_lost (ha ▸ hs)]
  split <;> rfl


theorem engineStall_runs (hk : activeTask s e = some k) (hp : 65600 ≤ sincePoint (advance dt s) e k) :
    Runs (.engineStall dt e) s (fun t => (t.engine e).state = .underTest ∧ (t.engine e).active = none) := by
  have hk := (activeTask_advance dt s e).trans hk
  have hs : ((advance dt s).engine e).state = .inService := by
    unfold activeTask serves at hk
    split at hk
    next h => exact (by simpa using h : _ ∧ ((advance dt s).engine e).state = .inService).2
    · cases hk
  obtain ⟨h1, h2, -⟩ := faultEngine_tests 0 hs
  refine ⟨_, ?_, h1, h2⟩
  show execEngineStall dt e s = _
  unfold execEngineStall
  dsimp only
  rw [hk]
  exact if_pos hp

theorem engineStall_waits (hk : activeTask s e = some k) (hp : sincePoint (advance dt s) e k < 65600) :
    Runs (.engineStall dt e) s (fun t => t = advance dt s) := by
  refine ⟨_, ?_, rfl⟩
  show execEngineStall dt e s = _
  unfold execEngineStall
  dsimp only
  rw [activeTask_advance, hk]
  exact if_neg (Nat.not_le.mpr hp)

section tests

variable (hs : (s.engine e).state = .underTest) (he : e < engineCount s.board.variant)
include hs he

theorem engineTest_tests : ((advance dt s).engine e).state = .underTest ∧ e < engineCount (advance dt s).var :=
  ⟨by rw [advance_engine, hs], by rwa [advance_same (f := fun s => engineCount s.var) (fun _ _ => rfl)]⟩

theorem engineTest_passes (hb : (s.engine e).testBad = false) :
    Runs (.engineTestDone dt e true) s (fun t => (t.engine e).state = .inService ∧ (t.engine e).returning = true) := by
  obtain ⟨u, hu⟩ : ∃ u, u = transient ((advance dt s).onEngine e (fun g => { g with state := .inService, returning := true, core := {} })) 10
    { source := Ev.engineFault, cls := Cls.info, kind := Kind.engine, inst := e } := ⟨_, rfl⟩
  have hx : exec (.engineTestDone dt e true) s = .next (refill u) := by
    show execEngineTestDone dt e true s = _
    unfold execEngineTestDone
    dsimp only
    rw [if_pos (engineTest_tests hs he), advance_engine, hb, hu]
    rfl
  refine ⟨_, hx, ?_, ?_⟩
  · refine (congrArg Slot.state (desk_slot ((refill_desk u).trans (hu ▸ transient_desk ..)) e)).trans ?_
    rw [onEngine_engine]
    rfl
  · refine (congrArg Tally.returning (ledger_tally (congrArg Ledger.tallies ((refill_ledger u).trans (hu ▸ transient_ledger ..))) e)).trans ?_
    rw [onEngine_engine]
    rfl

theorem engineTest_fails : Runs (.engineTestDone dt e false) s (fun t => (t.engine e).state = .lost ∧ t.ev.raised.contains Ev.engineLost = true) := by
  obtain ⟨u, hu⟩ : ∃ u, u = (noteCheck (advance dt s)).onEngine e (fun g => { g with state := .lost, testBad := false }) := ⟨_, rfl⟩
  have hx : exec (.engineTestDone dt e false) s = .next (raiseWarn u Ev.engineLost Kind.engine e 0 [] 2) := by
    show execEngineTestDone dt e false s = _
    unfold execEngineTestDone
    dsimp only
    rw [if_pos (engineTest_tests hs he), hu]
    rfl
  refine ⟨_, hx, ?_, raiseOnly_contains ..⟩
  refine (congrArg Slot.state (desk_slot (raiseOnly_told ..).desk e)).trans ?_
  rw [hu, onEngine_engine]
  rfl

end tests

/-! ### Bundles (R51, R56) -/

theorem onBundle_bundle (s : State) (b : Nat) (f : BundleSt → BundleSt) : (s.onBundle b f).bundle b = f (s.bundle b) := tget_tmod_self ..

theorem bundleDeadline_runs (hw : pbundle s.image b = some w) (hr : s.cyc.running = true) (hm : dueMembers s b ≠ [])
    (hl : bundleLimit s w < (advance dt s).time.now) (hf : (s.bundle b).failed = false) (hc : (s.bundle b).commitAt = none) :
    Runs (.bundleDeadlineFail dt b) s (fun t => (t.bundle b).failed = true ∧ (t.bundle b).misses = (s.bundle b).misses + 1) := by
  have hb : (advance dt s).bundle b = s.bundle b := advance_same (f := fun s => s.bundle b) (fun _ _ => rfl) dt s
  have hx : exec (.bundleDeadlineFail dt b) s = .next (settle (failBundle (advance dt s) b)) := by
    show execBundleDeadlineFail dt b s = _
    unfold execBundleDeadlineFail
    dsimp only
    rw [image_of_plan (advance_plan ..), hw]
    refine if_pos ?_
    rw [advance_cyc, hr, advance_same (f := fun s => dueMembers s b) (fun _ _ => rfl), advance_same (f := fun s => bundleLimit s w) (fun _ _ => rfl),
      Nat.blt_eq.mpr hl, List.isEmpty_eq_false_iff.mpr hm]
    rfl
  have ht : (settle (failBundle (advance dt s) b)).bundle b = { s.bundle b with failed := true, misses := (s.bundle b).misses + 1 } := by
    have hl := (settle_ledger _).trans (failBundle_ledger (advance dt s) b)
    rw [hb, hf, hc, if_neg (by decide)] at hl
    rw [ledger_bundle hl, onBundle_bundle, hb]
  exact ⟨_, hx, by rw [ht], by rw [ht]⟩

theorem onPath_advance (dt : Nat) (s : State) (g n : Nat) : onPath (advance dt s) g n = onPath s g n :=
  advance_same (f := fun s => onPath s g n) (fun _ _ => rfl) dt s

theorem holdFaulted_foldl_ledger (src : Nat) (l : List Nat) (s : State) : (l.foldl (holdFaulted src) s).ledger = s.ledger :=
  ledger_foldl _ (holdFaulted_ledger src) l s

theorem bundleFailed_runs (hm : 2 ≤ (s.bundle b).misses) (hr : (s.bundle b).raised = false) (hw : pbundle s.image b = some w) :
    Runs (.bundleFailed dt b) s (fun t => (t.bundle b).raised = true ∧ (w.group < 16 → (t.group w.group).faults.contains Ev.bundleFailed = true) ∧
      (n ∈ bundleAxes s.image b → (w.group < 16 → onPath s w.group n = false) → (t.axis n).faults.contains Ev.bundleFailed = true)) := by
  have hb : (advance dt s).bundle b = s.bundle b := advance_same (f := fun s => s.bundle b) (fun _ _ => rfl) dt s
  obtain ⟨u, hu⟩ : ∃ u, u = (advance dt s).onBundle b (fun b => { b with raised := true }) := ⟨_, rfl⟩
  have raised : ∀ t : State, t.ledger = u.ledger → (t.bundle b).raised = true := fun t ht => by
    rw [ledger_bundle ht, hu, onBundle_bundle]
  have hx : exec (.bundleFailed dt b) s = if w.group < 16 then
      .next (((bundleAxes s.image b).filter (fun a => !onPath (advance dt s) w.group a)).foldl (holdFaulted Ev.bundleFailed)
        (raiseGroup u Ev.bundleFailed Kind.bundle b w.group 2))
      else .next ((bundleAxes s.image b).foldl (holdFaulted Ev.bundleFailed)
        (countFault (raiseOnly u { source := Ev.bundleFailed, cls := Cls.group, kind := Kind.bundle, inst := b, flags := 2 }) (nowNs u))) := by
    show execBundleFailed dt b s = _
    unfold execBundleFailed
    dsimp only
    rw [hb, if_pos ⟨hm, hr⟩, image_of_plan (advance_plan ..), hw, ← hu]
  by_cases hg : w.group < 16
  · rw [if_pos hg] at hx
    refine ⟨_, hx, raised _ ((holdFaulted_foldl_ledger ..).trans (raiseGroup_ledger ..)), fun _ => List.contains_iff_mem.mpr ?_, fun hn hp =>
      List.contains_iff_mem.mpr (holdFaulted_foldl_faults (List.mem_filter.mpr ⟨hn, ?_⟩) _)⟩
    · exact (stands_foldl _ (holdFaulted_stands _) _ _).groups _ (raiseGroup_faults ..)
    · rw [onPath_advance, hp hg]
      rfl
  · rw [if_neg hg] at hx
    exact ⟨_, hx, raised _ ((holdFaulted_foldl_ledger ..).trans ((countFault_ledger ..).trans (raiseOnly_told ..).ledger)), fun h => absurd h hg,
      fun hn _ => List.contains_iff_mem.mpr (holdFaulted_foldl_faults hn _)⟩

/-! ### Missed outputs (R56, R230) -/

theorem outputMissed_raises (hm : 2 ≤ (s.axis n).outMisses) (hr : (s.axis n).outRaised = false) :
    Runs (.outputMissed dt n) s (fun t => (t.axis n).outRaised = true ∧ (t.axis n).faults.contains Ev.outputMissed = true) := by
  have ha : (advance dt s).axis n = s.axis n := advance_same (f := fun s => s.axis n) (fun _ _ => rfl) dt s
  refine ⟨raiseAxis ((advance dt s).onAxis n (fun x => { x with outRaised := true })) Ev.outputMissed n 0 [] 2, if_pos (by rw [ha]; exact ⟨hm, hr⟩), ?_,
    List.contains_iff_mem.mpr (raiseAxis_faults ..)⟩
  rw [((raiseAxis_stands ..).axes n).outRaised, axis_onAxis_self]

theorem cascadeMissed_raises (hm : 2 ≤ (s.axis n).cascMisses) (hr : (s.axis n).cascRaised = false)
    (ho : (s.axis n).outMisses < 2 ∨ (s.axis n).outRaised = true) :
    Runs (.outputMissed dt n) s (fun t => (t.axis n).cascRaised = true ∧ (t.axis n).faults.contains Ev.outputMissed = true) := by
  have ha : (advance dt s).axis n = s.axis n := advance_same (f := fun s => s.axis n) (fun _ _ => rfl) dt s
  refine ⟨raiseAxis ((advance dt s).onAxis n (fun x => { x with cascRaised := true })) Ev.outputMissed n 0 [] 2,
    (if_neg ?_).trans (if_pos (by rw [ha]; exact ⟨hm, hr⟩)), ?_, List.contains_iff_mem.mpr (raiseAxis_faults ..)⟩
  · rw [ha]
    rintro ⟨h1, h2⟩
    rcases ho with ho | ho
    · omega
    · rw [h2] at ho
      cases ho
  · rw [((raiseAxis_stands ..).axes n).cascRaised, axis_onAxis_self]

theorem outputMissed_waits (hm : (s.axis n).outMisses < 2) (hc : (s.axis n).cascMisses < 2) :
    Runs (.outputMissed dt n) s (fun t => t = advance dt s) := by
  have ha : (advance dt s).axis n = s.axis n := advance_same (f := fun s => s.axis n) (fun _ _ => rfl) dt s
  refine ⟨_, (if_neg ?_).trans (if_neg ?_), rfl⟩ <;> rw [ha] <;> omega

/-! ### The clearing of statistics (R304) -/

/-- An engine whose statistics are cleared. -/
def Engine.cleared (g : Engine) : Engine := { g with busyMax := 0, overruns := 0, lawFaults := 0, engFaults := 0, preemptions := 0 }

/-- A flow whose statistics are cleared. -/
def Flow.cleared (f : Flow) : Flow := { f with bins := [], waitMax := 0 }

/-- What a table that is changed throughout gives, where the default is its own image. -/
theorem tget_tmap {α : Type} (t : Table α) (d : α) (f : α → α) (h : f d = d) (k : Nat) : tget (tmap t (fun _ x => f x)) d k = f (tget t d k) := by
  unfold tget
  rw [tfind_tmap]
  cases tfind t k with
  | none => exact h.symm
  | some _ => rfl

/-- The dispatcher with its statistics cleared. -/
def State.statsCleared (s : State) : State :=
  { s with disp := { s.disp with engines := tmap s.disp.engines (fun _ g => g.cleared), flows := tmap s.disp.flows (fun _ f => f.cleared), levels := [] } }

theorem statsCleared_engine (s : State) (e : Nat) : s.statsCleared.engine e = (s.engine e).cleared := tget_tmap _ _ _ rfl _
theorem statsCleared_flow (s : State) (f : Nat) : s.statsCleared.flow f = (s.flow f).cleared := tget_tmap _ _ _ rfl _

theorem dispatchStatsClear_answers (h : Served Cmd.dispatchStatsClear dt q s) :
    Answers (.dispatchStatsClear dt q) Cmd.dispatchStatsClear dt q s St.ok (fun u p => p = [] ∧ u.cyc = s.cyc ∧ ∀ j,
      (u.engine j).busyMax = 0 ∧ (u.engine j).overruns = 0 ∧ (u.engine j).lawFaults = 0 ∧ (u.engine j).engFaults = 0 ∧
      (u.engine j).preemptions = 0 ∧ (u.engine j).busyHist = (s.engine j).busyHist ∧ (u.flow j).waitMax = 0 ∧ (u.flow j).bins = []) := by
  refine answers_ok (body := dispatchStatsClearBody) (u := (atStamp Cmd.dispatchStatsClear dt q s).statsCleared) rfl h rfl
    ⟨rfl, atStamp_cyc .., fun j => ?_⟩
  rw [statsCleared_engine, statsCleared_flow, show (atStamp Cmd.dispatchStatsClear dt q s).engine j = s.engine j by unfold State.engine; rw [atStamp_disp]]
  exact ⟨rfl, rfl, rfl, rfl, rfl, rfl, rfl, rfl⟩

/-- Settles O44: the engines' states are those of the desk, their counts, the bundles and the traffic those of the ledger, which no reaction
touches; no reaction ends a fault. -/
theorem enginesBundlesAndMisses : Obligations.EnginesBundlesAndMisses := by
  intro s dt e b n k w q
  exact ⟨engineFault_runs, engineFault_lost, engineStall_runs, engineStall_waits,
    fun hs he => ⟨engineTest_passes hs he, engineTest_fails hs he⟩, bundleDeadline_runs, outputMissed_raises, cascadeMissed_raises,
    outputMissed_waits, bundleFailed_runs, dispatchStatsClear_answers⟩

end Sys2Proof.Machine
end

