-- ==== Sys2Proof/Proofs/UpFrames.lean ====
section
/-! What a frame that arrives leaves of the nodes of its ring (R78, R93 to R98). -/

namespace Sys2Proof.Machine

variable {s t : State} {dt r : Nat} {frame : Bytes} {port : Port}

/-! ### The nodes of a ring -/

/-- A change of a ring that leaves its nodes. -/
theorem onRing_node {f : Ring → Ring} (h : (f (s.ring r)).nodes = (s.ring r).nodes) (g n : Nat) : (s.onRing r f).node g n = s.node g n := by
  unfold State.node
  by_cases hg : g = r
  · rw [hg, ring_onRing_self, h]
  · rw [ring_onRing_other _ _ _ _ hg]

theorem onNode_node (s : State) (r p : Nat) (f : Node → Node) : (s.onNode r p f).node r p = f (s.node r p) := by
  unfold State.node State.onNode
  rw [ring_onRing_self]
  exact tget_tmod_self ..

theorem node_of_rings (h : t.ledger.rings = s.ledger.rings) (g n : Nat) : t.node g n = s.node g n := by
  unfold State.node
  rw [ledger_ring h]

theorem nodeAt_of_nodes (h : (t.ring r).nodes = (s.ring r).nodes) (n : Nat) : nodeAt t r n = nodeAt s r n := by
  unfold nodeAt
  rw [h]

theorem advance_node (dt : Nat) (s : State) (g n : Nat) : (advance dt s).node g n = s.node g n :=
  node_of_rings (congrArg Ledger.rings (advance_ledger ..)) g n

theorem advance_ring (dt : Nat) (s : State) (g : Nat) : (advance dt s).ring g = s.ring g := ledger_ring (congrArg Ledger.rings (advance_ledger ..)) g

theorem advance_nodeAt (dt : Nat) (s : State) (g n : Nat) : nodeAt (advance dt s) g n = nodeAt s g n :=
  nodeAt_of_nodes (by rw [advance_ring]) n

theorem advance_ringDriven (dt : Nat) (s : State) (g : Nat) : ringDriven (advance dt s) g = ringDriven s g :=
  advance_same (f := fun s => ringDriven s g) (fun _ _ => rfl) dt s

/-! ### Frames that a unit of a pair passes on (R78, R568) -/

theorem sendFrames_nodes (r : Nat) (l : List WaitingFrame) (s : State) (g : Nat) : ((sendFrames r l s).ring g).nodes = (s.ring g).nodes := by
  unfold sendFrames
  by_cases hg : g = r
  · rw [hg, ring_onRing_self]
  · rw [ring_onRing_other _ _ _ _ hg]

theorem sendFrames_sent {l : List WaitingFrame} {x : WaitingFrame} (h : x ∈ l) (r : Nat) (s : State) : x ∈ ((sendFrames r l s).ring r).sent := by
  unfold sendFrames
  rw [ring_onRing_self]
  dsimp only
  split
  · exact List.mem_append_right _ h
  · exact h

/-- What frames that leave do not touch reads the same after a relay. -/
theorem relay_same {α : Type} {f : State → α} (h : ∀ l s, f (sendFrames r l s) = f s) : f (relay r port frame s) = f s := by
  unfold relay
  split
  · exact h ..
  · rfl

theorem relay_alone (h : s.pair.id = 0) : relay r port frame s = s := by
  have hp : relays s r = false := by
    unfold relays pairUp
    rw [h]
    rfl
  unfold relay
  rw [hp]
  rfl

/-- A frame as it has afterRelay: time has passed, and the frame has been passed on. -/
def afterRelay (dt r : Nat) (port : Port) (frame : Bytes) (s : State) : State := relay r port frame (advance dt s)

theorem afterRelay_cyc : (afterRelay dt r port frame s).cyc = s.cyc := (relay_same fun _ _ => rfl).trans (advance_cyc ..)
theorem afterRelay_time : (afterRelay dt r port frame s).time = (advance dt s).time := relay_same (f := State.time) fun _ _ => rfl
theorem afterRelay_image : (afterRelay dt r port frame s).image = s.image := (relay_same (f := State.image) fun _ _ => rfl).trans (image_of_plan (advance_plan ..))

theorem afterRelay_nodes (g : Nat) : ((afterRelay dt r port frame s).ring g).nodes = (s.ring g).nodes := by
  unfold afterRelay
  rw [relay_same (f := fun s => (s.ring g).nodes) fun l s => sendFrames_nodes r l s g, advance_ring]

theorem afterRelay_node (g n : Nat) : (afterRelay dt r port frame s).node g n = s.node g n := congrArg (fun x : Table Node => tget x {} n) (afterRelay_nodes g)

theorem afterRelay_nodeAt (g n : Nat) : nodeAt (afterRelay dt r port frame s) g n = nodeAt s g n := nodeAt_of_nodes (afterRelay_nodes g) n

theorem afterRelay_ringDriven (g : Nat) : ringDriven (afterRelay dt r port frame s) g = ringDriven s g :=
  (relay_same (f := fun s => ringDriven s g) fun _ _ => rfl).trans (advance_ringDriven ..)

/-! ### Up frames (R98) -/

theorem seeBreak_node (r hop : Nat) (d : BreakDir) (s : State) (g n : Nat) : (seeBreak r hop d s).node g n = s.node g n := by
  refine onRing_node ?_ g n
  dsimp only
  split
  · unfold putBreak
    dsimp only
    split <;> rfl
  · rfl

theorem breaksSeen_node (r p : Nat) (u : UpFrame) (s : State) (g n : Nat) : (breaksSeen r p u s).node g n = s.node g n := by
  have h : (if bitOf u.status 0 = true then s else seeBreak r (p - 1) .qWard s).node g n = s.node g n := by
    split
    · rfl
    · exact seeBreak_node ..
  unfold breaksSeen
  dsimp only
  split
  · exact h
  · exact (seeBreak_node ..).trans h

theorem onAxis_ledger (s : State) (a : Nat) (f : Axis → Axis) : (s.onAxis a f).ledger = s.ledger := by rfl

theorem missSample_ledger (s : State) (a : Nat) : (missSample s a).ledger = s.ledger := onAxis_ledger ..

theorem takeSample_ledger (s : State) (a : Nat) (v : Int) (at_ : Nat) : (takeSample s a v at_).ledger = s.ledger := by rfl

theorem noteDelay_ledger (s : State) (a : Nat) (d : Int) : (noteDelay s a d).ledger = s.ledger := by
  unfold noteDelay
  dsimp only
  split
  · exact (raiseWarn_ledger ..).trans (onAxis_ledger ..)
  · split
    · split
      · exact (raiseWarn_ledger ..).trans (onAxis_ledger ..)
      · exact onAxis_ledger ..
    · exact onAxis_ledger ..

theorem delayFrom_ledger (n : Node) (u : UpFrame) (x : Bool) (a : Nat) (s : State) : (delayFrom n u x a s).ledger = s.ledger := by
  unfold delayFrom
  dsimp only
  split
  · rfl
  · split
    · split
      · split
        · rfl
        · exact noteDelay_ledger ..
      · rfl
    · split
      · exact (raiseWarn_ledger ..).trans (onAxis_ledger ..)
      · rfl

/-- The brake sequence of an axis whose drive has its power on (R200). -/
def brakesOn (status a : Nat) (s : State) : State :=
  let s1 := s.onAxis a (fun x => { x with driveStatus := status, sto := bitOf status 3 })
  match (s.axis a).phase with
  | .powering _ =>
    if bitOf status 0 then
      s1.onAxis a (fun x => { x with phase := .braking s.time.now, control := if bitOf x.control 1 then x.control else x.control + ctlBrake })
    else s1
  | _ => s1

theorem driveStatus_eq (status a : Nat) (s : State) : driveStatus status a s =
    if par s Par.axisMode a = 3 ∧ bitOf status 5 ∧ !bitOf (s.axis a).driveStatus 5 then
      stoDisable (noteAxisFault (brakesOn status a s) Ev.ccOvercurrent a) a
    else brakesOn status a s := by rfl

theorem brakesOn_ledger (status a : Nat) (s : State) : (brakesOn status a s).ledger = s.ledger := by
  unfold brakesOn
  dsimp only
  split
  · split <;> rfl
  · rfl

theorem driveStatus_ledger (status a : Nat) (s : State) : (driveStatus status a s).ledger = s.ledger := by
  rw [driveStatus_eq]
  split
  · exact (ledger_of_outside (stoDisable_outside ..)).trans ((noteAxisFault_ledger ..).trans (brakesOn_ledger ..))
  · exact brakesOn_ledger ..

theorem takeUpSlice_ledger (n : Node) (u : UpFrame) (b : Bytes) (a : Nat) (s : State) : (takeUpSlice n u b a s).ledger = s.ledger := by
  have h : ∀ status x (v : State), v.ledger = s.ledger → (delayFrom n u x a (driveStatus status a v)).ledger = s.ledger := fun _ _ _ hv =>
    (delayFrom_ledger ..).trans ((driveStatus_ledger ..).trans hv)
  unfold takeUpSlice
  dsimp only
  split
  · exact (missSample_ledger ..).trans (delayFrom_ledger ..)
  · split
    · exact (takeSample_ledger ..).trans ((onAxis_ledger ..).trans (h _ _ _ (onAxis_ledger ..)))
    · exact (missSample_ledger ..).trans (h _ _ _ (onAxis_ledger ..))

/-- A node whose up frame is taken. -/
def Node.taken (u : UpFrame) (n : Node) : Node :=
  { n with state := u.nodeState, alias_ := u.alias_, up := some u, lastUp := some u, missed := 0, lost := false, locked := u.nodeState != 1,
           firstSample := match n.firstSample with | some v => some v | none => some u.sample }

theorem takeUp_node (r p : Nat) (f : Bytes) (s : State) : (takeUp r p f s).node r p = (s.node r p).taken (upFields f) := by
  have rest : ∀ (n : Node) (l : List Slice) (b : State), b.node r p = (s.node r p).taken (upFields f) →
      (l.foldl (fun s x => takeUpSlice n (upFields f) (slice f x.upOff x.upLen) x.axis s) (breaksSeen r p (upFields f) b)).node r p =
        (s.node r p).taken (upFields f) := by
    intro n l b hb
    rw [node_of_rings (congrArg Ledger.rings (ledger_foldl _ (fun _ _ => takeUpSlice_ledger ..) _ _)), breaksSeen_node, hb]
  have taken : (s.onNode r p (Node.taken (upFields f))).node r p = (s.node r p).taken (upFields f) := onNode_node ..
  unfold takeUp
  refine rest _ _ _ ?_
  split
  · exact (node_of_rings (congrArg Ledger.rings (raiseWarn_ledger ..)) r p).trans taken
  · exact taken

/-- The unit takes up frames of a ring, and the frame is one. -/
structure TakesUp (s : State) (r : Nat) (frame : Bytes) : Prop where
  running : s.cyc.running = true
  driven : ringDriven s r = true
  kind : uAt frame 0 1 = 2

theorem upFrame_eq (h : TakesUp s r frame) : exec (.upFrameRx dt r port frame) s =
    .next (if goodFrame frame = false then badCopy r (pairPort (afterRelay dt r port frame s) port) frame (afterRelay dt r port frame s)
      else match nodeAt s r (uAt frame 1 1) with
        | none => afterRelay dt r port frame s
        | some p => if (s.node r p).bound && (s.node r p).up.isNone && uAt frame 2 1 == s.cyc.tick % 256 &&
              Nat.ble (advance dt s).time.now (s.cyc.t0 + gatherOf s.image r * nsU) then takeUp r p frame (afterRelay dt r port frame s)
            else afterRelay dt r port frame s) := by
  show execUpFrameRx dt r port frame s = _
  unfold execUpFrameRx
  dsimp only
  rw [show relay r port frame (advance dt s) = afterRelay dt r port frame s from rfl, afterRelay_cyc, afterRelay_ringDriven, h.running, h.driven, h.kind,
    afterRelay_nodeAt, afterRelay_time, afterRelay_image]
  simp only [afterRelay_node]
  rw [if_neg (show ¬(!true || !true || (2 : Nat) != 2) = true by decide)]
  cases goodFrame frame with
  | false => exact if_pos rfl
  | true =>
    rw [if_neg (show ¬(!true) = true by decide), if_neg (show ¬true = false by decide)]
    cases nodeAt s r (uAt frame 1 1) with
    | none => rfl
    | some p => exact (apply_ite Host.Outcome.next _ _ _).symm

end Sys2Proof.Machine
end

