-- ==== Sys2Proof/Proofs/Closures.lean ====
section
/-! The rows of up frames, of closures and of the gather deadline (R98, R99, R109). -/

namespace Sys2Proof.Machine

variable {s : State} {dt r p : Nat} {frame : Bytes} {port : Port}

theorem upFrame_taken (h : TakesUp s r frame) (hg : goodFrame frame = true) (hn : nodeAt s r (uAt frame 1 1) = some p) (hb : (s.node r p).bound = true)
    (hu : (s.node r p).up = none) (ht : uAt frame 2 1 = s.cyc.tick % 256) (hd : (advance dt s).time.now ≤ s.cyc.t0 + gatherOf s.image r * nsU) :
    Runs (.upFrameRx dt r port frame) s (fun t => (t.node r p).up = some (upFields frame) ∧ (t.node r p).missed = 0 ∧
      (t.node r p).state = uAt frame 3 1 ∧ (t.node r p).alias_ = uAt frame 4 2) := by
  have hx := upFrame_eq (dt := dt) (port := port) h
  rw [hn, hg, if_neg (show ¬true = false by decide)] at hx
  dsimp only at hx
  rw [hb, hu, beq_iff_eq.mpr ht, Nat.ble_eq.mpr hd, if_pos (by decide)] at hx
  have hnode := takeUp_node r p frame (afterRelay dt r port frame s)
  exact ⟨_, hx, by rw [hnode]; rfl, by rw [hnode]; rfl, by rw [hnode]; rfl, by rw [hnode]; rfl⟩

theorem upFrame_second (h : TakesUp s r frame) (hg : goodFrame frame = true) (hn : nodeAt s r (uAt frame 1 1) = some p) (hu : (s.node r p).up ≠ none) :
    Runs (.upFrameRx dt r port frame) s (fun t => t = relay r port frame (advance dt s)) := by
  have hx := upFrame_eq (dt := dt) (port := port) h
  have hs : (s.node r p).up.isNone = false := by
    cases hv : (s.node r p).up with
    | none => exact absurd hv hu
    | some _ => rfl
  rw [hn, hg, if_neg (show ¬true = false by decide)] at hx
  dsimp only at hx
  rw [hs, if_neg (by simp)] at hx
  exact ⟨_, hx, rfl⟩

theorem pairPort_alone (h : s.pair.id = 0) (port : Port) : pairPort s port = port := by
  unfold pairPort
  rw [h]
  rfl

theorem upFrame_bad (h : TakesUp s r frame) (hg : goodFrame frame = false) (hn : nodeAt s r (uAt frame 1 1) = some p) (ha : uAt frame 1 1 ≠ 0)
    (hp : s.pair.id = 0) : Runs (.upFrameRx dt r port frame) s (fun t =>
      (t.node r p).crcP = (if port = .p then inc32 (s.node r p).crcP else (s.node r p).crcP) ∧
      (t.node r p).crcQ = (if port = .q then inc32 (s.node r p).crcQ else (s.node r p).crcQ)) := by
  have hpa : (advance dt s).pair.id = 0 := by rw [advance_pair, hp]
  have hr : afterRelay dt r port frame s = advance dt s := relay_alone hpa
  have hx := upFrame_eq (dt := dt) (port := port) h
  rw [if_pos hg, hr, pairPort_alone hpa] at hx
  refine ⟨_, hx, ?_⟩
  unfold badCopy
  rw [advance_nodeAt, hn]
  dsimp only
  rw [if_neg ha, onNode_node, advance_node]
  cases port
  · exact ⟨rfl, rfl⟩
  · exact ⟨rfl, rfl⟩

/-! ### Closures (R99, R109) -/

/-- The unit takes closures of a ring, and the frame is one. -/
structure TakesClosure (s : State) (r : Nat) (port : Port) (frame : Bytes) : Prop where
  running : s.cyc.running = true
  driven : ringDriven s r = true
  uses : usesRing s.image r = true
  own : ownBurst s r port frame = true

theorem advance_ownBurst (dt : Nat) (s : State) (r : Nat) (port : Port) (frame : Bytes) :
    ownBurst (advance dt s) r port frame = ownBurst s r port frame := advance_same (f := fun s => ownBurst s r port frame) (fun _ _ => rfl) dt s

theorem closure_eq (h : TakesClosure s r port frame) : exec (.burstClosureRx dt r port frame) s =
    if uAt frame 3 1 = s.cyc.tick % 256 then .next ((advance dt s).onRing r
      (noteClosure (pairPort (advance dt s) port) (uAt frame 1 1 % 8) (arrField (advance dt s) port (advance dt s).time.now) (uAt frame 24 4)))
    else if (uAt frame 3 1 + 1) % 256 = s.cyc.tick % 256 then .next ((advance dt s).onRing r (lateClosure (pairPort (advance dt s) port)))
    else .next (advance dt s) := by
  show execBurstClosureRx dt r port frame s = _
  unfold execBurstClosureRx
  dsimp only
  rw [advance_cyc, advance_ringDriven, image_of_plan (advance_plan ..), advance_ownBurst, h.running, h.driven, h.uses, h.own]
  exact if_neg (by decide)

theorem closure_foreign (h : ownBurst s r port frame = false) : Runs (.burstClosureRx dt r port frame) s (fun t => t = advance dt s) := by
  refine ⟨_, if_pos ?_, rfl⟩
  rw [advance_ownBurst, h]
  simp

theorem arrField_alone (h : s.pair.id = 0) (port : Port) (n : Nat) : arrField s port n = n := by
  unfold arrField
  rw [h]
  rfl

theorem closure_counts (h : TakesClosure s r port frame) (hp : s.pair.id = 0) (ht : uAt frame 3 1 = s.cyc.tick % 256) :
    Runs (.burstClosureRx dt r port frame) s (fun t => (t.ring r).closeQ = ((s.ring r).closeQ || port == .q) ∧
      (t.ring r).closeP = ((s.ring r).closeP || port == .p) ∧ (t.ring r).closures = (s.ring r).closures ∧
      (port = .q → uAt frame 1 1 % 8 = 1 → (s.ring r).closedQw = none →
        (t.ring r).closedQw = some (((advance dt s).time.now - (s.ring r).depP) / 268435456 - uAt frame 24 4)) ∧
      (port = .p → uAt frame 1 1 % 8 = 1 → (s.ring r).closedPw = none →
        (t.ring r).closedPw = some (((advance dt s).time.now - (s.ring r).depQ) / 268435456 - uAt frame 24 4)) ∧
      ((port = .p ∨ uAt frame 1 1 % 8 ≠ 1 ∨ (s.ring r).closedQw ≠ none) → (t.ring r).closedQw = (s.ring r).closedQw) ∧
      ((port = .q ∨ uAt frame 1 1 % 8 ≠ 1 ∨ (s.ring r).closedPw ≠ none) → (t.ring r).closedPw = (s.ring r).closedPw)) := by
  have hpa : (advance dt s).pair.id = 0 := by rw [advance_pair, hp]
  have hx := closure_eq (dt := dt) h
  rw [if_pos ht, pairPort_alone hpa, arrField_alone hpa] at hx
  refine ⟨_, hx, ?_⟩
  beta_reduce
  rw [ring_onRing_self, advance_ring]
  generalize s.ring r = g
  have none_iff : ∀ x : Option Nat, x.isNone = true ↔ x = none := fun x => Option.isNone_iff_eq_none
  cases port with
  | p =>
    refine ⟨(Bool.or_false _).symm, (Bool.or_true _).symm, rfl, nofun, fun _ hk hn => if_pos ⟨hk, (none_iff _).mpr hn⟩, fun _ => rfl, fun hn => if_neg ?_⟩
    rintro ⟨hk, hi⟩
    rcases hn with hn | hn | hn
    · cases hn
    · exact hn hk
    · exact hn ((none_iff _).mp hi)
  | q =>
    refine ⟨(Bool.or_true _).symm, (Bool.or_false _).symm, rfl, fun _ hk hn => if_pos ⟨hk, (none_iff _).mpr hn⟩, nofun, fun hn => if_neg ?_, fun _ => rfl⟩
    rintro ⟨hk, hi⟩
    rcases hn with hn | hn | hn
    · cases hn
    · exact hn hk
    · exact hn ((none_iff _).mp hi)

/-- What the closure of the cycle before leaves of a ring. -/
theorem lateClosure_fields (port : Port) (g : Ring) : (lateClosure port g).closures =
      (if (g.wasQ || port == .q) && (g.wasP || port == .p) && !(g.wasQ && g.wasP) then g.heldClosures + 1 else g.closures) ∧
    (lateClosure port g).closedQw = g.closedQw ∧ (lateClosure port g).closedPw = g.closedPw := by
  cases port with
  | p =>
    unfold lateClosure
    dsimp only
    rw [show (Port.p == Port.q) = false from rfl, show (Port.p == Port.p) = true from rfl, Bool.or_false, Bool.or_true]
    split <;> exact ⟨rfl, rfl, rfl⟩
  | q =>
    unfold lateClosure
    dsimp only
    rw [show (Port.q == Port.q) = true from rfl, show (Port.q == Port.p) = false from rfl, Bool.or_false, Bool.or_true]
    split <;> exact ⟨rfl, rfl, rfl⟩

theorem closure_late (h : TakesClosure s r port frame) (hp : s.pair.id = 0) (ht : (uAt frame 3 1 + 1) % 256 = s.cyc.tick % 256) :
    Runs (.burstClosureRx dt r port frame) s (fun t =>
      (t.ring r).closures = (if ((s.ring r).wasQ || port == .q) && ((s.ring r).wasP || port == .p) && !((s.ring r).wasQ && (s.ring r).wasP)
        then (s.ring r).heldClosures + 1 else (s.ring r).closures) ∧
      (t.ring r).closedQw = (s.ring r).closedQw ∧ (t.ring r).closedPw = (s.ring r).closedPw) := by
  have hpa : (advance dt s).pair.id = 0 := by rw [advance_pair, hp]
  have hx := closure_eq (dt := dt) h
  rw [if_neg (by omega), if_pos ht, pairPort_alone hpa] at hx
  refine ⟨_, hx, ?_⟩
  beta_reduce
  rw [ring_onRing_self, advance_ring]
  exact lateClosure_fields ..

/-! ### The gather deadline (R98) -/

/-- A node at its ring's gather deadline. -/
def Node.atGather (n : Node) : Node := if n.bound && n.up.isNone then { n with missed := n.missed + 1 } else n

theorem gather_gathers (hr : s.cyc.running = true) (hu : usesRing s.image r = true) (ht : s.cyc.t0 + gatherOf s.image r * nsU ≤ (advance dt s).time.now)
    (hg : (s.ring r).gathered = false) : Runs (.gatherDeadline dt r) s (fun t => (t.ring r).gathered = true ∧
      (t.node r p).missed = (s.node r p).missed + (if (s.node r p).bound && (s.node r p).up.isNone then 1 else 0)) := by
  obtain ⟨u, hgu⟩ : ∃ u, u = (advance dt s).onRing r (fun g => { g with gathered := true, nodes := tmap g.nodes (fun _ n => n.atGather) }) := ⟨_, rfl⟩
  have hx : exec (.gatherDeadline dt r) s = .next ((slices s.image).foldl (fun s x => if x.ring = r then missSample s x.axis else s) u) := by
    show execGatherDeadline dt r s = _
    unfold execGatherDeadline
    dsimp only
    rw [advance_cyc, image_of_plan (advance_plan ..), advance_ring, hr, hu, hg, hgu]
    exact if_neg (by simpa using ht)
  have hl : ((slices s.image).foldl (fun s x => if x.ring = r then missSample s x.axis else s) u).ledger = u.ledger := by
    refine ledger_foldl _ (fun s x => ?_) _ _
    split
    · exact missSample_ledger ..
    · rfl
  have hring : u.ring r = { s.ring r with gathered := true, nodes := tmap (s.ring r).nodes (fun _ n => n.atGather) } := by
    rw [hgu, ring_onRing_self, advance_ring]
  have hnode : u.node r p = (s.node r p).atGather := by
    unfold State.node
    rw [hring]
    exact tget_tmap _ _ _ rfl p
  refine ⟨_, hx, ?_, ?_⟩
  · rw [ledger_ring (congrArg Ledger.rings hl), hring]
  · rw [node_of_rings (congrArg Ledger.rings hl), hnode]
    unfold Node.atGather
    split <;> rfl

theorem gather_done (hg : (s.ring r).gathered = true) : Runs (.gatherDeadline dt r) s (fun t => t = advance dt s) := by
  refine ⟨_, if_pos ?_, rfl⟩
  rw [advance_ring, hg]
  simp

end Sys2Proof.Machine
end

