-- ==== Sys2Proof/Proofs/Bursts.lean ====
section
/-! Bursts that leave, and the copies that a unit passes on (R49, R568, R582). -/

namespace Sys2Proof.Machine

/-! ### Bursts that leave (R49) -/

theorem missOutput_ledger (s : State) (a : Nat) : (missOutput s a).ledger = s.ledger := by
  unfold missOutput
  dsimp only
  split
  · exact (transient_ledger ..).trans (onAxis_ledger ..)
  · exact onAxis_ledger ..

theorem noteSlice_ledger (k at_ : Nat) (before s : State) (x : Slice) : (noteSlice k at_ before s x).ledger = s.ledger := by
  have held : (raiseWarn (s.onAxis x.axis (fun y => { y with out := { y.out with failed := true } })) Ev.emitHold Kind.axis x.axis).ledger = s.ledger :=
    (raiseWarn_ledger ..).trans (onAxis_ledger ..)
  unfold noteSlice
  dsimp only
  split
  · exact onAxis_ledger ..
  · split
    · split
      · split
        · exact (missOutput_ledger ..).trans held
        · exact held
      · exact held
    · rfl

theorem failLate_unbundled (s : State) (k : Nat) : (failLate s k).ledger.unbundled = s.ledger.unbundled := by
  refine unbundled_foldl _ (fun s b => ?_) _ s
  split
  · exact failBundle_unbundled ..
  · rfl

theorem putBurst_bursts (r : Nat) (b : Burst) (f : Bytes) (s : State) :
    tget (putBurst r b f s).cyc.bursts [] r = tget s.cyc.bursts [] r ++ [b] := by
  unfold putBurst tget
  exact congrArg (fun x : Option (List Burst) => x.getD []) (tfind_tput_self ..)

theorem putBurst_sent (r : Nat) (b : Burst) (f : Bytes) (s : State) :
    { port := .p, frame := b.frame } ∈ ((putBurst r b f s).ring r).sent := sendFrames_sent List.mem_cons_self ..

/-- A burst that launches joins those of its ring, and its frame leaves port P. -/
theorem launchBurst_launches (r k at_ : Nat) (s : State) : ∃ f : Burst, tget (launchBurst r k at_ s).cyc.bursts [] r = tget s.cyc.bursts [] r ++ [f] ∧
    f.k = k ∧ f.at_ = at_ ∧ f.ends = at_ + frameU f.frame.length ∧ { port := .p, frame := f.frame } ∈ ((launchBurst r k at_ s).ring r).sent := by
  unfold launchBurst
  dsimp only
  generalize hu : (if at_ = s.cyc.t0 + launchMax s.image k * nsU then failLate s k else s) = u
  have hl : u.ledger.unbundled = s.ledger.unbundled := by
    rw [← hu]
    split
    · exact failLate_unbundled ..
    · rfl
  have hb : u.cyc.bursts = s.cyc.bursts := congrArg Ledger.bursts hl
  generalize hv : putBurst r _ _ u = v
  have hn := ledger_foldl _ (fun x (e : Slice × Nat) => noteSlice_ledger k at_ u x e.1) (burstSlices u.image r k) v
  refine ⟨{ k := k, at_ := at_, ends := at_ + frameU (burstFrame u r k .p at_).length, frame := burstFrame u r k .p at_ }, ?_, rfl, rfl, rfl, ?_⟩
  · refine (congrArg (fun x : Ledger => tget x.bursts [] r) hn).trans ?_
    show tget v.cyc.bursts [] r = _
    rw [← hv, putBurst_bursts, hb]
  · rw [ledger_ring (congrArg Ledger.rings hn), ← hv]
    exact putBurst_sent ..

variable {s : State} {dt r k : Nat} {frame : Bytes} {port : Port} {b : Burst}

/-! ### BURST_LAUNCH (R49) -/

/-- What BURST_LAUNCH asks of the burst before, of the unit and of its number. -/
structure LaunchReady (s : State) (r k : Nat) (b : Burst) : Prop where
  last : (tget s.cyc.bursts [] r).getLast? = some b
  running : s.cyc.running = true
  commands : commands s = true
  speaks : ringSilent s r = false
  next : k = b.k + 1
  count : k ≤ burstCount s.image

/-- The earliest and the latest instant of a burst. -/
def launchFirst (s : State) (k : Nat) (b : Burst) : Nat := max (s.cyc.t0 + launchMin s.image k * nsU) (b.ends + 100 * nsU)
def launchLast (s : State) (k : Nat) : Nat := s.cyc.t0 + launchMax s.image k * nsU

theorem burstLaunch_eq (h : LaunchReady s r k b) (hf : launchFirst s k b ≤ (advance dt s).time.now) : exec (.burstLaunch dt r k) s =
    if (burstSettled (advance dt s) k || Nat.ble (launchLast s k) (advance dt s).time.now) = true then
      .next (launchBurst r k (min (advance dt s).time.now (max (launchFirst s k b) (launchLast s k))) (advance dt s))
    else .next (advance dt s) := by
  have hc : commands (advance dt s) = commands s := advance_same (f := commands) (fun _ _ => rfl) dt s
  have hs : ringSilent (advance dt s) r = ringSilent s r := advance_same (f := fun s => ringSilent s r) (fun _ _ => rfl) dt s
  have hmin : Nat.ble (max (s.cyc.t0 + launchMin s.image k * nsU) (b.ends + 100 * nsU)) (advance dt s).time.now = true := Nat.ble_eq.mpr hf
  show execBurstLaunch dt r k s = _
  unfold execBurstLaunch
  dsimp only
  rw [advance_cyc, image_of_plan (advance_plan ..), hc, hs, h.last]
  dsimp only
  rw [h.running, h.commands, h.speaks, beq_iff_eq.mpr h.next, Nat.ble_eq.mpr h.count, hmin]
  rfl

theorem burstLaunch_launches (h : LaunchReady s r k b) (hf : launchFirst s k b ≤ (advance dt s).time.now)
    (hl : burstSettled (advance dt s) k = true ∨ launchLast s k ≤ (advance dt s).time.now) :
    Runs (.burstLaunch dt r k) s (fun t => ∃ f : Burst, tget t.cyc.bursts [] r = tget s.cyc.bursts [] r ++ [f] ∧ f.k = k ∧
      f.at_ = min (advance dt s).time.now (max (launchFirst s k b) (launchLast s k)) ∧
      f.ends = min (advance dt s).time.now (max (launchFirst s k b) (launchLast s k)) + frameU f.frame.length ∧
      { port := .p, frame := f.frame } ∈ (t.ring r).sent) := by
  have hx := burstLaunch_eq h hf
  rw [if_pos (by rw [Bool.or_eq_true, Nat.ble_eq]; exact hl)] at hx
  refine ⟨_, hx, ?_⟩
  have hb := launchBurst_launches r k (min (advance dt s).time.now (max (launchFirst s k b) (launchLast s k))) (advance dt s)
  rwa [advance_cyc] at hb

theorem burstLaunch_waits (h : LaunchReady s r k b) (hf : launchFirst s k b ≤ (advance dt s).time.now)
    (hs : burstSettled (advance dt s) k = false) (hl : (advance dt s).time.now < launchLast s k) :
    Runs (.burstLaunch dt r k) s (fun t => t = advance dt s) := by
  have hx := burstLaunch_eq h hf
  rw [if_neg (by rw [hs, Bool.false_or, Nat.ble_eq]; exact Nat.not_le.mpr hl)] at hx
  exact ⟨_, hx, rfl⟩

/-! ### Copies of the holder's bursts (R568, R582) -/

/-- The unit passes on the bursts of a ring, and the frame is one. -/
structure Forwards (s : State) (r : Nat) (frame : Bytes) : Prop where
  up : pairUp s = true
  joined : s.pair.joined = true
  grip : s.pair.grip = false
  ring : r < ringCount s.board.variant
  burst : uAt frame 0 1 = 1

theorem advance_relays (dt : Nat) (s : State) (r : Nat) : relays (advance dt s) r = relays s r :=
  advance_same (f := fun s => relays s r) (fun _ _ => rfl) dt s

theorem Forwards.relays (h : Forwards s r frame) : relays s r = true := by
  unfold Machine.relays
  rw [h.up, h.joined, h.grip]
  exact Nat.blt_eq.mpr h.ring

theorem forwarded_bad (h : Forwards s r frame) (hg : goodFrame frame = false) :
    Runs (.forwardedBurstCopy dt r port frame) s (fun t => t = sendFrames r [{ port := otherPort port, frame := frame }] (advance dt s)) := by
  refine ⟨_, ?_, rfl⟩
  show execForwardedBurstCopy dt r port frame s = _
  unfold execForwardedBurstCopy
  dsimp only
  rw [advance_relays, h.relays, h.burst, if_neg (by decide), hg]
  rfl

theorem forwarded_grip (h : s.pair.grip = true) : Runs (.forwardedBurstCopy dt r port frame) s (fun t => t = advance dt s) := by
  have hr : relays s r = false := by
    unfold relays
    rw [h]
    simp
  refine ⟨_, if_pos ?_, rfl⟩
  rw [advance_relays, hr]
  rfl

/-- What a passing copy of burst 1 leaves besides the rings its unit has heard. -/
def passed (s : State) (r : Nat) (port : Port) (frame : Bytes) : State :=
  measureTie port frame (departMsgs r (sendFrames r [{ port := otherPort port, frame := writeOwn s r frame }] s))

theorem departMsgs_fields (r : Nat) (s : State) : (departMsgs r s).rings = s.rings ∧ (departMsgs r s).pair = s.pair := by
  unfold departMsgs
  generalize ringConns s r = l
  induction l generalizing s with
  | nil => exact ⟨rfl, rfl⟩
  | cons c l ih => exact ih (s.onConn c (departMsg (safeNs s)))

theorem measureTie_fields (port : Port) (f : Bytes) (s : State) : (measureTie port f s).rings = s.rings ∧
    (measureTie port f s).pair.burst1Rings = s.pair.burst1Rings := by
  unfold measureTie
  split <;> exact ⟨rfl, rfl⟩

theorem passed_fields (s : State) (r : Nat) (port : Port) (frame : Bytes) :
    (passed s r port frame).pair.burst1Rings = s.pair.burst1Rings ∧
    { port := otherPort port, frame := writeOwn s r frame } ∈ ((passed s r port frame).ring r).sent := by
  unfold passed
  obtain ⟨h1, h2⟩ := measureTie_fields port frame (departMsgs r (sendFrames r [{ port := otherPort port, frame := writeOwn s r frame }] s))
  obtain ⟨h3, h4⟩ := departMsgs_fields r (sendFrames r [{ port := otherPort port, frame := writeOwn s r frame }] s)
  refine ⟨h2.trans (congrArg Pair.burst1Rings h4), ?_⟩
  rw [show State.ring _ r = (sendFrames r [{ port := otherPort port, frame := writeOwn s r frame }] s).ring r from
    congrArg (fun x : Table Ring => tget x {} r) (h1.trans h3)]
  exact sendFrames_sent List.mem_cons_self ..

theorem forwarded_burst1 (h : Forwards s r frame) (hg : goodFrame frame = true) (hk : uAt frame 1 1 % 8 = 1) (hr : s.cyc.running = true) :
    Runs (.forwardedBurstCopy dt r port frame) s (fun t =>
      (holderCopy (advance dt s) r frame = true → t.pair.burst1Rings = s.pair.burst1Rings ++ [r]) ∧
      (holderCopy (advance dt s) r frame = false → t.pair.burst1Rings = s.pair.burst1Rings) ∧
      { port := otherPort port, frame := writeOwn (advance dt s) r frame } ∈ (t.ring r).sent) := by
  have hx : exec (.forwardedBurstCopy dt r port frame) s = .next (if holderCopy (advance dt s) r frame then
      (passed (advance dt s) r port frame).onPair (fun p => { p with burst1Rings := p.burst1Rings ++ [r] }) else passed (advance dt s) r port frame) := by
    show execForwardedBurstCopy dt r port frame s = _
    unfold execForwardedBurstCopy
    dsimp only
    rw [advance_relays, h.relays, h.burst, if_neg (by decide), hg, hk, advance_cyc, hr]
    rfl
  obtain ⟨hb, hm⟩ := passed_fields (advance dt s) r port frame
  rw [advance_pair] at hb
  refine ⟨_, hx, ?_⟩
  cases holderCopy (advance dt s) r frame with
  | true => exact ⟨fun _ => congrArg (· ++ [r]) hb, nofun, hm⟩
  | false => exact ⟨nofun, fun _ => hb, hm⟩

end Sys2Proof.Machine
end

