-- ==== Sys2Proof/Proofs/ProcessImage.lean ====
section
/-! The process image (R374 to R379), and O32. -/

namespace Sys2Proof.Machine

variable {s : State} {dt o : Nat} {c : Nat × Nat}

/-! ### Bytes of a memory -/

theorem memGet_unshift (a x : Nat) (m : List Host.Cell) (h : ∀ c ∈ m, a ≤ c.1) : memGet (m.map (fun c => (c.1 - a, c.2))) x = memGet m (a + x) := by
  induction m with
  | nil => rfl
  | cons e l ih =>
    have he := h e List.mem_cons_self
    have hl := ih fun c hc => h c (List.mem_cons_of_mem _ hc)
    show (if e.1 - a = x then e.2 else _) = if e.1 = a + x then e.2 else _
    rw [hl]
    by_cases hx : e.1 = a + x
    · rw [if_pos hx, if_pos (by omega)]
    · rw [if_neg hx, if_neg (by omega)]

/-- A slice of a memory gives the bytes that it was taken from. -/
theorem memGet_memSlice (m : List Host.Cell) {a n o : Nat} (h : o < n) : memGet (memSlice m a n) o = memGet m (a + o) := by
  unfold memSlice
  rw [memGet_unshift, memGet_filter]
  · intro v
    simpa using h
  · intro c hc
    have := (List.mem_filter.mp hc).2
    simp at this
    exact this.1

/-- The bytes that were written first read back. -/
theorem memRead_memWrite_append {m : List Host.Cell} (h : Memory.wf m = true) (a : Nat) (b c : Bytes) :
    memRead (memWrite m a (b ++ c)) a b.length = b := by
  rw [memRead_eq_map]
  refine List.ext_getElem (by simp) fun i h1 h2 => ?_
  rw [List.getElem_map, List.getElem_range, memGet_memWrite_in h _ _ _ (by rw [List.length_append]; omega), List.getElem?_append_left h2,
    List.getElem?_eq_getElem h2]
  rfl

/-! ### The process image (R374 to R379) -/

/-- The input buffer of the cycle is written, and the cycle is published. -/
def inputsWritten (s : State) : State :=
  { s with mem := { s.mem with sram := memPaste s.mem.sram (inBuf s.cyc.tick) (piInputs s).length (cellsFrom 0 (piInputs s)) },
           cyc := { s.cyc with published := true } }

theorem piInputPublish_eq (hr : s.cyc.running = true) (hp : s.cyc.published = false) (hb : burstsDone (advance dt s) = true) :
    exec (.piInputPublish dt) s = .next (writePiHead (inputsWritten (advance dt s)) (some (s.cyc.tick % 4294967296))) := by
  have hx : exec (.piInputPublish dt) s =
      .next (writePiHead (inputsWritten (advance dt s)) (some ((advance dt s).cyc.tick % 4294967296))) :=
    if_pos (by rw [hb, advance_cyc, hr, hp]; rfl)
  rw [hx, advance_cyc]

/-- The header lies below both input buffers. -/
theorem writePiHead_input (s : State) (n i o : Nat) : memGet (writePiHead s (some n)).mem.sram (inBuf i + o) = memGet s.mem.sram (inBuf i + o) := by
  refine memGet_memWrite_out _ _ _ _ (.inr ?_)
  simp only [List.length_append, b8, b32, zeros, leBytes_length, List.length_replicate]
  unfold inBuf piHead
  omega

theorem inputsWritten_input (s : State) (h : o < (piInputs s).length) :
    memGet (inputsWritten s).mem.sram (inBuf s.cyc.tick + o) = ((piInputs s)[o]?).getD 0 := by
  refine (memGet_memPaste_in _ _ _ _ _ h).trans ?_
  rw [← Nat.zero_add o, memGet_cellsFrom, Nat.zero_add]

theorem writePiHead_head (h : Memory.wf s.mem.sram = true) (n : Nat) : memRead (writePiHead s (some n)).mem.sram piHead 4 = b32 n := by
  have hw := memRead_memWrite_append h piHead (b32 n) (b8 s.cyc.rate ++ (b8 (if s.cyc.running then 1 else 0) ++ (zeros 2 ++ b32 s.period)))
  rw [show (b32 n).length = 4 from leBytes_length 4 n] at hw
  unfold writePiHead
  simp only [List.append_assoc]
  exact hw

theorem piInputPublish_publishes (hr : s.cyc.running = true) (hp : s.cyc.published = false) (hb : burstsDone (advance dt s) = true) :
    Runs (.piInputPublish dt) s (fun t => t.cyc.published = true ∧
      (o < (piInputs (advance dt s)).length → memGet t.mem.sram (inBuf s.cyc.tick + o) = ((piInputs (advance dt s))[o]?).getD 0) ∧
      (MemInv s → memRead t.mem.sram piHead 4 = b32 (s.cyc.tick % 4294967296))) := by
  refine ⟨_, piInputPublish_eq hr hp hb, rfl, fun ho => ?_, fun hi => writePiHead_head ?_ _⟩
  · rw [writePiHead_input]
    have h := inputsWritten_input (advance dt s) ho
    rwa [advance_cyc] at h
  · refine wf_memPaste _ _ ?_ (wf_cellsFrom ..)
    rw [advance_mem]
    exact hi.1.1

theorem piInputPublish_waits (hb : burstsDone (advance dt s) = false) : Runs (.piInputPublish dt) s (fun t => t = advance dt s) := by
  refine ⟨_, if_neg ?_, rfl⟩
  rw [hb]
  simp

theorem takeOutputs_snapshot (n : Nat) (s : State) : (takeOutputs n s).host.snapshot = memSlice s.mem.sram (outBuf n) 8192 := by rfl

theorem outputSnapshot_takes (hc : comingTick s = some c) (hn : s.host.snapTick ≠ some c.1) : Runs .outputSnapshot s (fun t =>
    t.host.snapTick = some c.1 ∧ (o < 8192 → memGet t.host.snapshot o = memGet s.mem.sram (outBuf c.1 + o))) := by
  have hx : exec .outputSnapshot s = .next (takeOutputs c.1 (advanceTo (snapAt c) s)) := by
    show execOutputSnapshot s = _
    unfold execOutputSnapshot
    rw [hc]
    dsimp only
    rw [if_neg hn]
  refine ⟨_, hx, rfl, fun ho => ?_⟩
  rw [takeOutputs_snapshot, memGet_memSlice _ ho, advanceTo_mem]

theorem outputSnapshot_taken (hc : comingTick s = some c) (hn : s.host.snapTick = some c.1) : Runs .outputSnapshot s (fun t => t = s) := by
  refine ⟨_, ?_, rfl⟩
  show execOutputSnapshot s = _
  unfold execOutputSnapshot
  rw [hc]
  exact congrArg Host.Outcome.next (if_pos hn)

theorem outputSnapshot_waits (hc : comingTick s = none) : Runs .outputSnapshot s (fun t => t = s) := by
  refine ⟨_, ?_, rfl⟩
  show execOutputSnapshot s = _
  unfold execOutputSnapshot
  rw [hc]

/-- Settles O32: the row of each frame sets the ring's traffic, and the slices that it carries touch axes and events only; the header of the
process image lies below its buffers. -/
theorem burstsAndProcessImage : Obligations.BurstsAndProcessImage := by
  intro s dt r k p o c b frame port
  refine ⟨fun hl hr hc hs hk hm hf => ?_, fun ⟨hr, hd, hk⟩ => upFrame_taken ⟨hr, hd, hk⟩, fun ⟨hr, hd, hk⟩ => upFrame_second ⟨hr, hd, hk⟩,
    fun ⟨hr, hd, hk⟩ => upFrame_bad ⟨hr, hd, hk⟩, fun hr hd hu hp ho => ⟨closure_counts ⟨hr, hd, hu, ho⟩ hp, closure_late ⟨hr, hd, hu, ho⟩ hp⟩,
    closure_foreign, gather_gathers, gather_done, fun ⟨hu, hj, hg, hr, hb⟩ => forwarded_bad ⟨hu, hj, hg, hr, hb⟩,
    fun ⟨hu, hj, hg, hr, hb⟩ => forwarded_burst1 ⟨hu, hj, hg, hr, hb⟩, forwarded_grip, piInputPublish_publishes, piInputPublish_waits,
    fun hc => ⟨outputSnapshot_takes hc, outputSnapshot_taken hc⟩, outputSnapshot_waits⟩
  have ready : LaunchReady s r k b := ⟨hl, hr, hc, hs, hk, hm⟩
  exact ⟨burstLaunch_launches ready hf, burstLaunch_waits ready hf⟩

end Sys2Proof.Machine
end

