-- ==== Sys2Proof/Proofs/ServiceTimeouts.lean ====
section
/-! A service of a node that joins is given up (R106, R119): O31. -/

namespace Sys2Proof.Machine

/-- The service 0x04 that gives a node that joins its address 1, sent twice without an answer. -/
def assignSentTwice : Acyclic := { service := 4, seq := 0, payload := [], addr := 1, resent := true, sentIn := some 0 }
/-- The configuration that waits behind it. -/
def configWaits : Acyclic := { service := 5, seq := 1, payload := [], addr := 1 }
/-- A node of ring 0 that joins, with both services. -/
def joining : State := { rings := [(0, { nodes := [(1, { joined := true, services := [assignSentTwice, configWaits] })] })] }

/-- The second timeout drops the waiting configuration too. -/
theorem timeout_dropsConfig : ∃ t, exec (.acyclicResponseTimeout 0 0) joining = .next t ∧ (t.node 0 1).services = [] :=
  ⟨endService 0 1 assignSentTwice St.nodeNoResponse [] (raiseWarn (advance 0 joining) Ev.acyclicLost Kind.node 0 0 [] 2), rfl, by decide⟩

/-- Refutes O31: where the service 0x04 of a node that joins is given up, the configuration by service 0x05 that waits behind it is dropped
with it (R119), so in `joining` the services left are not all those behind the first. -/
theorem not_acyclicTrafficAndBreaks : ¬ Obligations.AcyclicTrafficAndBreaks := by
  intro h
  obtain ⟨-, -, -, -, -, timeout, -⟩ := h joining 0 0 1 0 0 0 0 .both [] .p .both { src := .service 1, port := .p, frame := [] }
    assignSentTwice [configWaits]
    (sliceAt [] 0)
  obtain ⟨t, ht, hrest, -⟩ := (timeout (by decide) rfl rfl (fun u hu => by cases hu)).2 rfl
  obtain ⟨u, hu, hnone⟩ := timeout_dropsConfig
  rw [Host.Outcome.next.inj (ht.symm.trans hu), hnone] at hrest
  cases hrest

end Sys2Proof.Machine
end

