-- ==== Sys2Proof/Proofs/RingRoster.lean ====
section
/-! The nodes of a ring in the order of their positions, and what services and bindings leave of them (R103, R114 to R117). -/

namespace Sys2Proof.Machine

variable {s t : State} {r p : Nat} {l : List Bytes}

/-- A write at a key of a sorted table leaves what it does not change of the entries. -/
theorem map_tput_of_mem {α β : Type} (g : α → β) {t : Table α} {d v : α} {k : Nat} (hs : (t.map Prod.fst).Pairwise (· < ·))
    (hk : k ∈ t.map Prod.fst) (hv : g v = g (tget t d k)) : (tput t k v).map (fun e => (e.1, g e.2)) = t.map (fun e => (e.1, g e.2)) := by
  induction t with
  | nil => cases hk
  | cons e rest ih =>
    obtain ⟨i, w⟩ := e
    rw [List.map_cons, List.pairwise_cons] at hs
    by_cases hi : i = k
    · subst hi
      have hw : g v = g w := by rw [hv, tget, tfind, if_pos rfl]; rfl
      simp [tput, hw]
    · have hin : k ∈ rest.map Prod.fst := (List.mem_cons.mp hk).resolve_left (Ne.symm hi)
      have hlt : i < k := hs.1 k hin
      have hg : tget ((i, w) :: rest) d k = tget rest d k := by rw [tget, tget, tfind, if_neg hi]
      simp [tput, Nat.not_lt.mpr (Nat.le_of_lt hlt), Ne.symm hi, ih hs.2 hin (hg ▸ hv)]

/-- What a step of a fold brings about for its element, and every step keeps, holds of each element at the end. -/
theorem foldl_each {α : Type} {f : State → α → State} {P : α → State → Prop} (made : ∀ s x, P x (f s x))
    (kept : ∀ s x y, P y s → P y (f s x)) {l : List α} {x : α} (hx : x ∈ l) (s : State) : P x (l.foldl f s) := by
  induction l generalizing s with
  | nil => cases hx
  | cons y l ih =>
    rcases List.mem_cons.mp hx with rfl | hx
    · exact List.foldlRecOn l f (made s x) fun b hb a _ => kept b a x hb
    · exact ih hx _

/-! ### The nodes of a ring by position -/

/-- The positions of a ring's nodes with their identity records. -/
def Ring.roster (g : Ring) : List (Nat × Bytes) := g.nodes.map (fun e => (e.1, e.2.record))

/-- The nodes that records name, counted from position 1. -/
def seats (l : List Bytes) : List (Nat × Bytes) := l.zipIdx.map (fun e => (e.2 + 1, e.1))

/-- The nodes of a ring are those of a list of records, in its order. -/
def Lists (r : Nat) (l : List Bytes) (s : State) : Prop := (s.ring r).roster = seats l

theorem seats_positions (l : List Bytes) : (seats l).map Prod.fst = List.range' 1 l.length := by
  calc (seats l).map Prod.fst = (l.zipIdx.map Prod.snd).map (1 + ·) := by
        rw [seats, List.map_map, List.map_map]
        exact List.map_congr_left fun e _ => Nat.add_comm ..
    _ = List.range' 1 l.length := by rw [List.zipIdx_map_snd, List.map_add_range']

theorem Lists.positions (h : Lists r l s) : positions s r = List.range' 1 l.length := by
  rw [← seats_positions, ← h, Ring.roster, List.map_map]
  rfl

theorem lists_of_nodes (h : (t.ring r).nodes = (s.ring r).nodes) (hl : Lists r l s) : Lists r l t := by
  rw [Lists, Ring.roster, h]
  exact hl

theorem Told.lists (h : Told s t) (hl : Lists r l s) : Lists r l t :=
  lists_of_nodes (by rw [ledger_ring (congrArg Ledger.rings h.ledger)]) hl

theorem onRing_lists {f : Ring → Ring} (hf : (f (s.ring r)).nodes = (s.ring r).nodes) (hl : Lists r l s) : Lists r l (s.onRing r f) :=
  lists_of_nodes (by rw [ring_onRing_self, hf]) hl

/-- A change of a node that is there, its record left, leaves the list. -/
theorem onNode_lists {f : Node → Node} (hf : ∀ n, (f n).record = n.record) (hl : Lists r l s) (hp : p ∈ List.range' 1 l.length) :
    Lists r l (s.onNode r p f) := by
  rw [← hl.positions] at hp
  have hs : (positions s r).Pairwise (· < ·) := hl.positions ▸ List.pairwise_lt_range'
  rw [Lists, State.onNode, ring_onRing_self]
  exact (map_tput_of_mem Node.record hs hp (hf _)).trans hl

theorem foldl_lists {α : Type} {f : State → α → State} {k : List α} (h : ∀ s x, x ∈ k → Lists r l s → Lists r l (f s x))
    (hl : Lists r l s) : Lists r l (k.foldl f s) := List.foldlRecOn k f hl fun _ hb x hx => h _ x hx hb

/-! ### Services (R102, R103) -/

theorem onNode_other {g n : Nat} (f : Node → Node) (h : g = r → n ≠ p) : (s.onNode r p f).node g n = s.node g n := by
  unfold State.node State.onNode
  by_cases hg : g = r
  · rw [hg, ring_onRing_self]
    exact tget_tmod_other _ _ _ _ _ (h hg)
  · rw [ring_onRing_other _ _ _ _ hg]

theorem pushService_node (r p : Nat) (sv : Acyclic) (s : State) : (pushService r p sv s).node r p =
    { s.node r p with seq := ((s.node r p).seq + 1) % 65536,
                      services := (s.node r p).services ++ [{ sv with seq := ((s.node r p).seq + 1) % 65536 }] } := onNode_node ..

theorem pushService_lists (sv : Acyclic) (hl : Lists r l s) (hp : p ∈ List.range' 1 l.length) : Lists r l (pushService r p sv s) :=
  onNode_lists (fun _ => rfl) hl hp

theorem assignAddress_lists (addr : Nat) (hl : Lists r l s) (hp : p ∈ List.range' 1 l.length) : Lists r l (assignAddress r p addr s) :=
  pushService_lists (s := { s with free := s.free + 1 }) _ hl hp

theorem configureNode_lists (joined : Nat) (hl : Lists r l s) (hp : p ∈ List.range' 1 l.length) : Lists r l (configureNode r p joined s) :=
  pushService_lists (s := { s with free := s.free + 1 }) _ hl hp

/-- The last service that a node has been sent or waits for is a configuration. -/
def Configured (r p : Nat) (s : State) : Prop := (s.node r p).services.getLast?.map (·.service) = some 5

theorem configured_of_node (h : t.node r p = s.node r p) (hc : Configured r p s) : Configured r p t := by
  rw [Configured, h]
  exact hc

theorem configureNode_configured (r joined : Nat) (s : State) (p : Nat) : Configured r p (configureNode r p joined s) := by
  rw [Configured, configureNode, pushService_node, List.getLast?_concat]
  rfl

theorem configureNode_keeps (r joined : Nat) (s : State) (p x : Nat) (h : Configured r x s) : Configured r x (configureNode r p joined s) := by
  by_cases hx : x = p
  · rw [hx]
    exact configureNode_configured ..
  · exact configured_of_node (s := s) (onNode_other _ fun _ => hx) h

/-! ### Bindings (R101, R116, R117) -/

theorem moveTo_lists (addr : Nat) (hl : Lists r l s) (hp : p ∈ List.range' 1 l.length) : Lists r l (moveTo r p addr s) := by
  unfold moveTo
  split
  · exact hl
  · exact assignAddress_lists addr hl hp

theorem keepPlace_lists (hl : Lists r l s) (hp : p ∈ List.range' 1 l.length) : Lists r l (keepPlace r p s) := by
  refine onNode_lists (fun _ => rfl) ?_ hp
  split
  · exact hl
  · exact moveTo_lists p hl hp

theorem setBound_lists (hl : Lists r l s) (hp : p ∈ List.range' 1 l.length) : Lists r l (setBound r p s) := by
  unfold setBound
  split
  · exact hl
  · exact onRing_lists rfl (onNode_lists (fun _ => rfl) hl hp)

theorem bindNode_lists (m : Image) (e : PNode) (hl : Lists r l s) (hp : p ∈ List.range' 1 l.length) : Lists r l (bindNode m r p e s) := by
  unfold bindNode
  dsimp only
  split
  · exact setBound_lists hl hp
  · exact (raiseOnly_told _ _).lists (onNode_lists (fun _ => rfl) hl hp)

theorem bindPlan_position {m : Image} {e : Nat × Option PNode} (hl : Lists r l s) (he : e ∈ bindPlan m r (s.ring r)) :
    e.1 ∈ List.range' 1 l.length := by
  obtain ⟨n, hn, rfl⟩ := List.mem_map.mp he
  rw [← hl.positions]
  exact List.mem_map.mpr ⟨n, hn, rfl⟩

theorem bindRing_lists (m : Image) (hl : Lists r l s) : Lists r l (bindRing m r s) := by
  have h1 : Lists r l (bindAlarms m r s) := (bindAlarms_told m r s).lists hl
  unfold bindRing
  dsimp only
  refine onRing_lists rfl ?_
  split
  · exact foldl_lists (fun u e he hu => keepPlace_lists hu (bindPlan_position hl he)) h1
  · refine foldl_lists (fun u e he hu => ?_) h1
    have hp := bindPlan_position hl he
    split
    next n _ => exact bindNode_lists m n (moveTo_lists n.addr hu hp) hp
    · exact keepPlace_lists hu hp

end Sys2Proof.Machine
end

