-- ==== Sys2Proof/Proofs/Enumeration.lean ====
section
/-! Enumeration: the frames that come back or are lost, the pass that it waits for, and RING_ENUMERATE (R112 to R117, R626, R674). -/

namespace Sys2Proof.Machine

variable {s t : State} {dt r : Nat} {e : Enum} {frame : Bytes} {port : Port}

theorem ring_of_rings (h : t.rings = s.rings) (g : Nat) : t.ring g = s.ring g := by
  unfold State.ring
  rw [h]

/-! ### The nodes of a pass are known (R114 steps 3 to 6) -/

/-- The list of a ring's nodes is that of a pass, and each is configured. -/
structure Enumerated (r : Nat) (l : List Bytes) (t : State) : Prop where
  lists : Lists r l t
  configured : ∀ p, p ∈ positions t r → Configured r p t

theorem finishEnum_nodes (s : State) (g : Nat) : ((finishEnum s).ring g).nodes = (s.ring g).nodes := by
  unfold finishEnum
  split
  · dsimp only
    split
    next p _ _ =>
      rw [ring_of_rings (congrArg Outside.rings (finish_outside ..))]
      refine List.foldlRecOn (motive := fun u : State => (u.ring g).nodes = (s.ring g).nodes) _ _ rfl fun u hu x _ => ?_
      by_cases hx : g = x
      · rw [hx, ring_onRing_self, ← hx]
        exact hu
      · rw [ring_onRing_other _ _ _ _ hx]
        exact hu
    · rfl
  · rfl

theorem finishEnum_enumerated {l : List Bytes} (h : Enumerated r l s) : Enumerated r l (finishEnum s) := by
  have hn := finishEnum_nodes s r
  refine ⟨lists_of_nodes hn h.lists, fun p hp => configured_of_node (s := s) ?_ (h.configured p ?_)⟩
  · exact congrArg (fun x : Table Node => tget x {} p) hn
  · unfold positions at hp ⊢
    rwa [hn] at hp

/-- The configuration of all nodes of a ring. -/
theorem configureAll_enumerated {l : List Bytes} (h : Lists r l s) :
    Enumerated r l ((positions s r).foldl (fun s p => configureNode r p 0 s) s) := by
  have hl : Lists r l ((positions s r).foldl (fun s p => configureNode r p 0 s) s) :=
    foldl_lists (fun u p hp hu => configureNode_lists 0 hu (h.positions ▸ hp)) h
  refine ⟨hl, fun p hp => ?_⟩
  rw [hl.positions, ← h.positions] at hp
  exact foldl_each (P := Configured r) (configureNode_configured r 0) (configureNode_keeps r 0) hp s

theorem passDone_enumerated (r : Nat) (first second : List Bytes) (s : State) :
    Enumerated r ((first ++ second).take (nodeMax s.var)) (passDone r first second s) := by
  unfold passDone
  dsimp only
  generalize (first ++ second).take (nodeMax s.var) = recs
  refine finishEnum_enumerated (configureAll_enumerated ?_)
  generalize hb : s.onRing r _ = b
  have h : Lists r recs b := by
    rw [← hb, Lists, ring_onRing_self, Ring.roster, List.map_map]
    rfl
  have ha : Lists r recs (((positions b r).filter (fun p => Nat.blt first.length p)).foldl (fun s p => assignAddress r p p s) b) :=
    foldl_lists (fun u p hp hu => assignAddress_lists p hu (h.positions ▸ (List.mem_filter.mp hp).1)) h
  split
  · exact bindRing_lists _ ha
  · exact ha

/-! ### ENUM_FRAME_RETURN (R78, R114 steps 2 to 4) -/

/-- An enumeration of the ring waits for its frame, and the frame is a good one. -/
structure Awaited (s : State) (r : Nat) (frame : Bytes) (e : Enum) : Prop where
  good : goodFrame frame = true
  kind : uAt frame 0 1 = 3
  ring : r < ringCount s.board.variant
  enum : (s.ring r).enum = some e
  notDone : e.done = false
  notWaiting : e.waits = false

theorem sendFrames_enum (r : Nat) (l : List WaitingFrame) (s : State) (g : Nat) : ((sendFrames r l s).ring g).enum = (s.ring g).enum := by
  unfold sendFrames
  by_cases hg : g = r
  · rw [hg, ring_onRing_self]
  · rw [ring_onRing_other _ _ _ _ hg]

theorem afterRelay_enum (g : Nat) : ((afterRelay dt r port frame s).ring g).enum = (s.ring g).enum := by
  unfold afterRelay
  rw [relay_same (f := fun s => (s.ring g).enum) fun l s => sendFrames_enum r l s g, advance_ring]

theorem afterRelay_board : (afterRelay dt r port frame s).board = s.board :=
  (relay_same (f := State.board) fun _ _ => rfl).trans (advance_board ..)

theorem enumFrame_bad (h : goodFrame frame = false) : exec (.enumFrameReturn dt r port frame) s = .next (afterRelay dt r port frame s) := by
  show execEnumFrameReturn dt r port frame s = _
  unfold execEnumFrameReturn
  rw [h]
  rfl

/-- What an awaited frame that is none of a hot join does. -/
theorem enumFrame_eq (h : Awaited s r frame e) (hj : bitOf (uAt frame 1 1) 2 = false) : exec (.enumFrameReturn dt r port frame) s =
    (if bitOf (uAt frame 1 1) 1 = true then
      .next (if e.second then passDone r e.records (frameRecords frame).reverse (afterRelay dt r port frame s) else afterRelay dt r port frame s)
    else if e.second = true then .next (afterRelay dt r port frame s)
    else if port = .p then
      .next ((afterRelay dt r port frame s).onRing r (fun g => { g with enum := some { e with records := frameRecords frame } }))
    else if (advance dt s).time.now ≤ e.sentAt + 1000000 * nsU then .next (passDone r (frameRecords frame) [] (afterRelay dt r port frame s))
    else .next (afterRelay dt r port frame s)) := by
  have hr : Nat.ble (ringCount (afterRelay dt r port frame s).var) r = false := by
    rw [State.var, afterRelay_board]
    exact Bool.eq_false_iff.mpr fun k => absurd (Nat.ble_eq.mp k) (Nat.not_le.mpr h.ring)
  show execEnumFrameReturn dt r port frame s = _
  unfold execEnumFrameReturn
  dsimp only
  rw [show relay r port frame (advance dt s) = afterRelay dt r port frame s from rfl, hr, h.good, h.kind, if_neg (by decide),
    if_neg (by rw [hj]; decide), afterRelay_enum, h.enum]
  dsimp only
  rw [h.notDone, h.notWaiting, if_neg (by decide), afterRelay_time]

theorem enumFrame_firstBack (h : Awaited s r frame e) (hf : uAt frame 1 1 = 1) (hs : e.second = false) :
    Runs (.enumFrameReturn dt r .p frame) s (fun t => (t.ring r).enum = some { e with records := frameRecords frame }) := by
  have hx := enumFrame_eq (dt := dt) (port := .p) h (by rw [hf]; rfl)
  rw [if_neg (by rw [hf]; decide), if_neg (by rw [hs]; decide), if_pos rfl] at hx
  exact ⟨_, hx, congrArg Ring.enum (ring_onRing_self ..)⟩

theorem enumFrame_firstThrough (h : Awaited s r frame e) (hf : uAt frame 1 1 = 1) (hs : e.second = false)
    (ht : (advance dt s).time.now ≤ e.sentAt + 1000000 * nsU) :
    Runs (.enumFrameReturn dt r .q frame) s (Enumerated r ((frameRecords frame).take (nodeMax s.board.variant))) := by
  have hx := enumFrame_eq (dt := dt) (port := .q) h (by rw [hf]; rfl)
  rw [if_neg (by rw [hf]; decide), if_neg (by rw [hs]; decide), if_neg (by decide), if_pos ht] at hx
  have hd := passDone_enumerated r (frameRecords frame) [] (afterRelay dt r .q frame s)
  rw [List.append_nil, State.var, afterRelay_board] at hd
  exact ⟨_, hx, hd⟩

theorem enumFrame_second (h : Awaited s r frame e) (hf : uAt frame 1 1 = 3) (hs : e.second = true) :
    Runs (.enumFrameReturn dt r port frame) s (Enumerated r ((e.records ++ (frameRecords frame).reverse).take (nodeMax s.board.variant))) := by
  have hx := enumFrame_eq (dt := dt) (port := port) h (by rw [hf]; rfl)
  rw [if_pos (by rw [hf]; decide), if_pos hs] at hx
  have hd := passDone_enumerated r e.records (frameRecords frame).reverse (afterRelay dt r port frame s)
  rw [State.var, afterRelay_board] at hd
  exact ⟨_, hx, hd⟩

/-! ### ENUM_TIMEOUT (R114 step 4) -/

theorem enumTimeout_idle (h : (s.ring r).enum = none) : exec (.enumTimeout dt r) s = .next (advance dt s) := by
  show execEnumTimeout dt r s = _
  unfold execEnumTimeout
  dsimp only
  rw [advance_ring, h]

/-- What the lost frame of an enumeration brings about 1 ms after it left. -/
theorem enumTimeout_eq (hr : r < ringCount s.board.variant) (he : (s.ring r).enum = some e) (hd : e.done = false) (hw : e.waits = false)
    (ht : e.sentAt + 1000000 * nsU ≤ (advance dt s).time.now) : exec (.enumTimeout dt r) s =
      .next (if e.second then passDone r e.records [] (advance dt s) else sendFrames r [{ port := .q, frame := enumFrame 3 }]
        ((advance dt s).onRing r (fun g => { g with enum := some { e with second := true, sentAt := (advance dt s).time.now } }))) := by
  have hb : Nat.blt (advance dt s).time.now (e.sentAt + 1000000 * nsU) = false :=
    Bool.eq_false_iff.mpr fun k => absurd (Nat.blt_eq.mp k) (Nat.not_lt.mpr ht)
  have hc : Nat.ble (ringCount (advance dt s).var) r = false := by
    rw [State.var, advance_board]
    exact Bool.eq_false_iff.mpr fun k => absurd (Nat.ble_eq.mp k) (Nat.not_le.mpr hr)
  show execEnumTimeout dt r s = _
  unfold execEnumTimeout
  dsimp only
  rw [advance_ring, he]
  dsimp only
  rw [hd, hw, hb, hc]
  cases e.second <;> rfl

theorem enumTimeout_sends (hr : r < ringCount s.board.variant) (he : (s.ring r).enum = some e) (hd : e.done = false) (hw : e.waits = false)
    (ht : e.sentAt + 1000000 * nsU ≤ (advance dt s).time.now) (hs : e.second = false) :
    Runs (.enumTimeout dt r) s (fun t => (t.ring r).enum = some { e with second := true, sentAt := (advance dt s).time.now } ∧
      { port := .q, frame := enumFrame 3 } ∈ (t.ring r).sent) := by
  refine ⟨_, enumTimeout_eq hr he hd hw ht, ?_⟩
  rw [if_neg (by rw [hs]; decide)]
  refine ⟨?_, sendFrames_sent (List.mem_singleton.mpr rfl) _ _⟩
  rw [sendFrames_enum, ring_onRing_self]

theorem enumTimeout_ends (hr : r < ringCount s.board.variant) (he : (s.ring r).enum = some e) (hd : e.done = false) (hw : e.waits = false)
    (ht : e.sentAt + 1000000 * nsU ≤ (advance dt s).time.now) (hs : e.second = true) :
    Runs (.enumTimeout dt r) s (Enumerated r (e.records.take (nodeMax s.board.variant))) := by
  refine ⟨_, enumTimeout_eq hr he hd hw ht, ?_⟩
  rw [if_pos hs]
  have h := passDone_enumerated r e.records [] (advance dt s)
  rw [List.append_nil, State.var, advance_board] at h
  exact h

/-! ### The pass that an enumeration waits for (R626) -/

theorem stressSync_running (s : State) : (stressSync s).tru.running = s.tru.running :=
  List.foldlRecOn (motive := fun t : Truing => t.running = s.tru.running) _ _ rfl fun _ h _ _ => h

theorem stressSync_lanesOnly (s : State) : (stressSync s).tru.lanesOnly = s.tru.lanesOnly :=
  List.foldlRecOn (motive := fun t : Truing => t.lanesOnly = s.tru.lanesOnly) _ _ rfl fun _ h _ _ => h

theorem startPass_running (lanesOnly : Bool) (mask : Nat) (s : State) : (startPass lanesOnly mask s).tru.running = true := stressSync_running _
theorem startPass_lanesOnly (lanesOnly : Bool) (mask : Nat) (s : State) : (startPass lanesOnly mask s).tru.lanesOnly = lanesOnly :=
  stressSync_lanesOnly _

/-- The rings and device time are as they were. -/
structure SameRings (s t : State) : Prop where
  rings : t.rings = s.rings
  time : t.time = s.time

theorem SameRings.refl (s : State) : SameRings s s := ⟨rfl, rfl⟩

theorem SameRings.trans {u : State} (a : SameRings s t) (b : SameRings t u) : SameRings s u := ⟨b.rings.trans a.rings, b.time.trans a.time⟩

theorem sameRings_foldl {α : Type} {f : State → α → State} (h : ∀ s x, SameRings s (f s x)) (l : List α) (s : State) :
    SameRings s (l.foldl f s) :=
  List.foldlRecOn l f (.refl s) fun _ hb x _ => hb.trans (h _ x)

theorem Told.sameRings (h : Told s t) : SameRings s t := by
  obtain ⟨_, _, _, rfl⟩ := h
  exact ⟨rfl, rfl⟩

theorem sameRings_of_outside (h : t.outside = s.outside) : SameRings s t := ⟨congrArg Outside.rings h, congrArg Outside.time h⟩

theorem raiseWarn_sameRings (s : State) (src kind inst cause : Nat) (detail : Bytes) (flags : Nat) :
    SameRings s (raiseWarn s src kind inst cause detail flags) := (raiseOnly_told ..).sameRings

theorem finish_sameRings (s : State) (code key status : Nat) (p : Bytes) : SameRings s (finish s code key status p) :=
  sameRings_of_outside (finish_outside ..)

theorem setPlan_sameRings (s : State) (p : PlanSt) : SameRings s { s with plan := p } := ⟨rfl, rfl⟩

theorem onTru_sameRings (s : State) (f : Truing → Truing) : SameRings s (s.onTru f) := ⟨rfl, rfl⟩

theorem adopt_sameRings (delta mv : Nat) (s : State) : SameRings s (adopt delta mv s) := by
  unfold adopt
  dsimp only
  split <;> exact ⟨rfl, rfl⟩

theorem recheckStandby_sameRings (delta : Nat) (s : State) : SameRings s (recheckStandby delta s) := by
  unfold recheckStandby
  split
  · exact .refl s
  · split
    · exact .refl s
    · exact (setPlan_sameRings ..).trans (finish_sameRings ..)

theorem noteUse_sameRings (s : State) (u : Nat × Nat) (fresh : Bool) : SameRings s (noteUse s u fresh) := by
  unfold noteUse
  dsimp only
  split
  · exact (setPlan_sameRings ..).trans (raiseWarn_sameRings ..)
  · exact setPlan_sameRings ..

theorem judgeResult_sameRings (delta mv : Nat) (s : State) : SameRings s (judgeResult delta mv s).1 := by
  unfold judgeResult
  split
  · exact adopt_sameRings ..
  · split
    · exact (recheckStandby_sameRings delta s).trans (adopt_sameRings ..)
    · split
      · exact (setPlan_sameRings ..).trans ((noteUse_sameRings ..).trans ((recheckStandby_sameRings ..).trans (adopt_sameRings ..)))
      · dsimp only
        exact (raiseWarn_sameRings ..).trans (onTru_sameRings ..)

theorem takeEye_sameRings (s : State) (e : EyeScan) : SameRings s (takeEye s e) := by
  unfold takeEye
  split
  · exact .refl s
  · dsimp only
    split
    · exact (onTru_sameRings ..).trans (raiseWarn_sameRings ..)
    · exact onTru_sameRings ..

theorem takeEq_sameRings (s : State) : SameRings s (takeEq s) := by
  unfold takeEq
  split
  · exact .refl s
  · exact onTru_sameRings ..

theorem takeEyes_sameRings (s : State) (z : TruingReadings) : SameRings s (takeEyes s z) := by
  have h : SameRings s (z.eyes.foldl takeEye s) := sameRings_foldl takeEye_sameRings ..
  unfold takeEyes
  dsimp only
  split
  · exact h
  · exact h.trans (sameRings_foldl (fun u _ => takeEq_sameRings u) ..)

theorem takeHealth_sameRings (s : State) (z : TruingReadings) : SameRings s (takeHealth s z) := by
  unfold takeHealth
  dsimp only
  split
  · exact (onTru_sameRings ..).trans (raiseWarn_sameRings ..)
  · exact onTru_sameRings ..

theorem passResult_sameRings (s : State) (complete : Bool) (z : TruingReadings) : SameRings s (passResult s complete z).1 := by
  have h : SameRings s (takeEyes (takeHealth s z) z) := (takeHealth_sameRings ..).trans (takeEyes_sameRings ..)
  unfold passResult
  dsimp only
  split
  · exact takeEyes_sameRings ..
  · split
    · exact .refl s
    · split
      · dsimp only
        exact h.trans ((raiseWarn_sameRings ..).trans (onTru_sameRings ..))
      · exact h.trans (judgeResult_sameRings ..)

theorem closePass_sameRings (s : State) (cause : Nat) : SameRings s (closePass s cause) :=
  (onTru_sameRings s _).trans ((raiseOnly_told ..).sameRings.trans (finish_sameRings ..))

theorem Told.tru (h : Told s t) : t.tru = s.tru := by
  obtain ⟨_, _, _, rfl⟩ := h
  rfl

theorem closePass_running (s : State) (cause : Nat) : (closePass s cause).tru.running = false :=
  (congrArg (fun o : Outside => o.tru.running) (finish_outside ..)).trans (congrArg Truing.running (raiseOnly_told ..).tru)

theorem endPass_sameRings (s : State) (complete : Bool) (z : TruingReadings) : SameRings s (endPass s complete z) :=
  (passResult_sameRings ..).trans (closePass_sameRings ..)

/-! ### The first frame leaves (R114 step 1) -/

theorem launchEnum_other {g : Nat} (h : g ≠ r) : (launchEnum s r).ring g = s.ring g := by
  unfold launchEnum
  split
  · split
    · rw [sendFrames, ring_onRing_other _ _ _ _ h, ring_onRing_other _ _ _ _ h]
    · rfl
  · rfl

theorem launchEnum_same (r : Nat) (s : State) : (launchEnum s r).tru = s.tru ∧ (launchEnum s r).time = s.time := by
  unfold launchEnum
  split
  · split <;> exact ⟨rfl, rfl⟩
  · exact ⟨rfl, rfl⟩

/-- The enumeration of a ring has begun at an instant, and its first frame has left port P. -/
structure Launched (r : Nat) (e : Enum) (at_ : Nat) (t : State) : Prop where
  enum : (t.ring r).enum = some { e with waits := false, sentAt := at_ }
  sent : { port := .p, frame := enumFrame 1 } ∈ (t.ring r).sent

theorem launchEnum_launched (he : (s.ring r).enum = some e) (hw : e.waits = true) (ht : s.tru.running = false) :
    Launched r e s.time.now (launchEnum s r) := by
  unfold launchEnum
  rw [he]
  dsimp only
  rw [if_pos (by rw [hw, ht]; rfl)]
  refine ⟨?_, sendFrames_sent (List.mem_singleton.mpr rfl) _ _⟩
  rw [sendFrames_enum, ring_onRing_self]

theorem launchEnums_launched (hr : r < 2) (he : (s.ring r).enum = some e) (hw : e.waits = true) (ht : s.tru.running = false) :
    Launched r e s.time.now (launchEnums s) := by
  show Launched r e s.time.now (launchEnum (launchEnum s 0) 1)
  obtain rfl | rfl : r = 0 ∨ r = 1 := by omega
  · have h := launchEnum_launched he hw ht
    exact ⟨(congrArg Ring.enum (launchEnum_other (by decide))).trans h.enum, by rw [launchEnum_other (by decide)]; exact h.sent⟩
  · obtain ⟨htru, htime⟩ := launchEnum_same 0 s
    have h := launchEnum_launched (s := launchEnum s 0) (r := 1) (by rw [launchEnum_other (by decide), he]) hw (by rw [htru, ht])
    rwa [htime] at h

theorem truingPassEnd_launches (z : TruingReadings) (ht : s.tru.running = true) (ho : passOver (stressSync (advance dt s)) = true) (hr : r < 2)
    (he : (s.ring r).enum = some e) (hw : e.waits = true) :
    Runs (.truingPassEnd dt z) s (fun t => (t.ring r).enum = some { e with waits := false, sentAt := (advance dt s).time.now } ∧
      { port := .p, frame := enumFrame 1 } ∈ (t.ring r).sent) := by
  have hrun : (stressSync (advance dt s)).tru.running = true := by rw [stressSync_running, advance_tru, ht]
  have hx : exec (.truingPassEnd dt z) s =
      .next (launchEnums (endPass (stressSync (advance dt s)) (stressDone (stressSync (advance dt s))) z)) := by
    show execTruingPassEnd dt z s = _
    unfold execTruingPassEnd
    dsimp only
    rw [if_pos ⟨hrun, ho⟩]
  have hsame := endPass_sameRings (stressSync (advance dt s)) (stressDone (stressSync (advance dt s))) z
  have hl := launchEnums_launched (s := endPass (stressSync (advance dt s)) (stressDone (stressSync (advance dt s))) z) hr
    (by rw [ring_of_rings hsame.rings, ring_of_rings (State.stressSync_rings _), advance_ring, he]) hw (closePass_running ..)
  rw [hsame.time, State.stressSync_time] at hl
  exact ⟨_, hx, hl.enum, hl.sent⟩

end Sys2Proof.Machine
end

