-- ==== Sys2Proof/Proofs/RingCommands.lean ====
section
/-! RING_ENUMERATE, the services of a node and the tunnel (R107, R114, R119, R120, R674): O30. -/

namespace Sys2Proof.Machine

variable {s a : State} {dt r n k : Nat} {q : Request}

/-! ### RING_ENUMERATE (R114, R626, R674) -/

/-- The enumeration of a ring waits for its pass, and its nodes are forgotten. -/
structure AwaitsPass (r : Nat) (t : State) : Prop where
  nodes : (t.ring r).nodes = []
  enum : (t.ring r).enum = some { waits := true }

theorem finishFirst_outside (s : State) (code key status : Nat) (p : Bytes) : (finishFirst s code key status p).outside = s.outside := by
  unfold finishFirst
  split
  · exact notify_outside ..
  · rfl

theorem dropServices_outside (r : Nat) (s : State) : (dropServices r s).outside = s.outside := by
  refine outside_foldl _ (fun u e => outside_foldl _ (fun u v => ?_) _ u) _ s
  split
  · rfl
  · exact finishFirst_outside ..

theorem startEnum_awaits (s : State) (r : Nat) : AwaitsPass r (startEnum s r) :=
  ⟨congrArg Ring.nodes (ring_onRing_self ..), congrArg Ring.enum (ring_onRing_self ..)⟩

theorem startEnum_keeps (s : State) (r g : Nat) (h : AwaitsPass g s) : AwaitsPass g (startEnum s r) := by
  by_cases hg : g = r
  · rw [hg]
    exact startEnum_awaits s r
  · have hr : (startEnum s r).ring g = s.ring g :=
      (ring_onRing_other _ _ _ _ hg).trans (ring_of_rings (congrArg Outside.rings (dropServices_outside r s)) g)
    exact ⟨hr ▸ h.nodes, hr ▸ h.enum⟩

theorem startEnum_tru (s : State) (r : Nat) : (startEnum s r).tru = s.tru := congrArg Outside.tru (dropServices_outside r s)

/-- The rings of a mask are enumerated after a pass, which begins where none runs. -/
def enumBegun (mask : Nat) (a : State) : State :=
  let s1 := ([0, 1].filter (fun r => bitOf mask r)).foldl startEnum a
  if s1.tru.running then s1 else startPass true (ringLanes mask) s1

theorem ringEnumerateBody_eq (a : State) (q : Request) (t : Nat) : ringEnumerateBody a q t =
    need (resv q.payload 1 3 && uAt q.payload 0 1 != 0 && Nat.blt (uAt q.payload 0 1) 4)
      (orElse (!(bitOf (uAt q.payload 0 1) 1 && ringCount a.var == 1)) St.unsupported
        (orElse (!a.pend.any (fun e => e.code == Cmd.ringEnumerate)) St.badState
          (.pend (addPend (enumBegun (uAt q.payload 0 1) a) Cmd.ringEnumerate q (uAt q.payload 0 1))))) := by rfl

theorem starts_tru (mask : Nat) (a : State) : (([0, 1].filter (fun r => bitOf mask r)).foldl startEnum a).tru = a.tru :=
  List.foldlRecOn (motive := fun u : State => u.tru = a.tru) _ _ rfl fun u hu r _ => (startEnum_tru u r).trans hu

theorem enumBegun_pass (mask : Nat) (a : State) : (enumBegun mask a).tru.running = true ∧
    (a.tru.running = false → (enumBegun mask a).tru.lanesOnly = true) := by
  have ht := starts_tru mask a
  unfold enumBegun
  dsimp only
  rw [ht]
  cases hr : a.tru.running with
  | true => exact ⟨by rw [if_pos rfl, ht, hr], nofun⟩
  | false => exact ⟨startPass_running .., fun _ => startPass_lanesOnly ..⟩

theorem enumBegun_awaits {mask : Nat} (a : State) (hr : r < 2) (hb : bitOf mask r = true) : AwaitsPass r (enumBegun mask a) := by
  have hm : r ∈ [0, 1].filter (fun r => bitOf mask r) := List.mem_filter.mpr ⟨by simp; omega, hb⟩
  have h := foldl_each (f := startEnum) (P := AwaitsPass) startEnum_awaits startEnum_keeps hm a
  unfold enumBegun
  dsimp only
  split
  · exact h
  · exact ⟨h.nodes, h.enum⟩

theorem enumMask_ok (hr : resv q.payload 1 3 = true) (h1 : 1 ≤ uAt q.payload 0 1) (h4 : uAt q.payload 0 1 < 4) :
    (resv q.payload 1 3 && uAt q.payload 0 1 != 0 && Nat.blt (uAt q.payload 0 1) 4) = true := by
  rw [hr, Nat.blt_eq.mpr h4, bne_iff_ne.mpr (Nat.ne_of_gt h1)]
  rfl

theorem ringEnumerate_answers (h : Served Cmd.ringEnumerate dt q s) (hr : resv q.payload 1 3 = true) (h1 : 1 ≤ uAt q.payload 0 1)
    (h4 : uAt q.payload 0 1 < 4) (h2 : bitOf (uAt q.payload 0 1) 1 = true → ringCount s.board.variant = 2)
    (hp : s.pend.any (fun x => x.code == Cmd.ringEnumerate) = false) :
    Answers (.ringEnumerate dt q) Cmd.ringEnumerate dt q s St.pend (fun u p => p = [] ∧ isPending u Cmd.ringEnumerate (uAt q.payload 0 1) = true ∧
      u.tru.running = true ∧ (s.tru.running = false → u.tru.lanesOnly = true) ∧ ∀ i, i < 2 → bitOf (uAt q.payload 0 1) i = true →
        (u.ring i).nodes = [] ∧ (u.ring i).enum = some { waits := true }) := by
  have hv : (!(bitOf (uAt q.payload 0 1) 1 && ringCount (atStamp Cmd.ringEnumerate dt q s).var == 1)) = true := by
    rw [var_atStamp, State.var]
    cases hb : bitOf (uAt q.payload 0 1) 1 with
    | false => rfl
    | true => rw [h2 hb]; rfl
  refine answers_pend (body := ringEnumerateBody) rfl h ((ringEnumerateBody_eq ..).trans ((need_pos (enumMask_ok hr h1 h4) _).trans
    ((orElse_pos hv _ _).trans (orElse_pos (by rw [atStamp_pend, hp]; rfl) _ _)))) ⟨rfl, isPending_addPend .., ?_⟩
  obtain ⟨hrun, hlanes⟩ := enumBegun_pass (uAt q.payload 0 1) (atStamp Cmd.ringEnumerate dt q s)
  rw [atStamp_tru] at hlanes
  refine ⟨hrun, hlanes, fun i hi hb => ?_⟩
  have hw := enumBegun_awaits (atStamp Cmd.ringEnumerate dt q s) hi hb
  exact ⟨hw.nodes, hw.enum⟩

theorem ringEnumerate_refuses (h : Served Cmd.ringEnumerate dt q s) (hr : resv q.payload 1 3 = true) (hm : uAt q.payload 0 1 = 2)
    (h1 : ringCount s.board.variant = 1) : Refuses (.ringEnumerate dt q) Cmd.ringEnumerate dt q s St.unsupported := by
  refine refuses (body := ringEnumerateBody) rfl h ((ringEnumerateBody_eq ..).trans
    ((need_pos (enumMask_ok hr (by omega) (by omega)) _).trans (orElse_neg ?_ _ _)))
  rw [var_atStamp, State.var, h1, hm]
  decide

/-! ### The services of a node (R119, R120, R674) -/

/-- A number of R14 names a node that the part may have, on whose address a node stands at a position. -/
def Present (s : State) (n k : Nat) : Prop :=
  n < 128 ∧ n / 64 < ringCount s.board.variant ∧ n % 64 < nodeMax s.board.variant ∧ nodeAt s (n / 64) (n % 64 + 1) = some k

theorem nodeArg_ok (hn : n < 128) (hr : n / 64 < ringCount a.board.variant) (hm : n % 64 < nodeMax a.board.variant) (w : Reply) :
    nodeArg a n w = w := by
  unfold nodeArg
  rw [if_neg (Nat.not_le.mpr hn), State.var, if_neg (not_or.mpr ⟨Nat.not_le.mpr hr, Nat.not_le.mpr hm⟩)]

theorem presentNode_of_present (h : Present a n k) (f : Nat → Nat → Reply) : presentNode a n f = f (n / 64) k := by
  obtain ⟨hn, hr, hm, hk⟩ := h
  unfold presentNode
  rw [nodeArg_ok hn hr hm, hk]

theorem presentNode_absent (hn : n < 128) (hr : n / 64 < ringCount a.board.variant) (hm : n % 64 < nodeMax a.board.variant)
    (hk : nodeAt a (n / 64) (n % 64 + 1) = none) (f : Nat → Nat → Reply) : presentNode a n f = .err St.nodeAbsent [] := by
  unfold presentNode
  rw [nodeArg_ok hn hr hm, hk]

section atStamp
variable (code dt : Nat) (q : Request) (s : State)

theorem atStamp_node (g p : Nat) : (atStamp code dt q s).node g p = s.node g p := node_of_rings (atStamp_rings code dt q s) g p

theorem atStamp_nodeAt (g x : Nat) : nodeAt (atStamp code dt q s) g x = nodeAt s g x :=
  nodeAt_of_nodes (by rw [ring_of_rings (atStamp_rings code dt q s)]) x

theorem atStamp_domainDown (d : Nat) : domainDown (atStamp code dt q s) d = domainDown s d := by
  unfold domainDown
  rw [atStamp_dma]

end atStamp

theorem present_atStamp (h : Present s n k) (code dt : Nat) (q : Request) : Present (atStamp code dt q s) n k := by
  rwa [Present, atStamp_board, atStamp_nodeAt]

theorem pushOpaque_services (r p service kind value serial addr cmd : Nat) (s : State) :
    ∃ sv, ((pushOpaque r p service kind value serial addr cmd s).node r p).services = (s.node r p).services ++ [sv] ∧
      sv.service = service ∧ sv.cmd = cmd := by
  rw [pushOpaque, pushService_node]
  exact ⟨_, rfl, rfl, rfl⟩

/-- NODE_ENABLE of a node that has hot-joined and is bound sends it the service 0x05. -/
def nodeEnabled (r k : Nat) (a : State) : State :=
  if (a.node r k).joined && (a.node r k).bound then pushOpaque r k 5 3 0 0 0 0 (a.onNode r k (fun n => { n with joined := false })) else a

theorem nodeEnableBody_eq (hr : resv q.payload 1 3 = true) (h : Present a (uAt q.payload 0 1) k) (t : Nat) :
    nodeEnableBody a q t = .ok (nodeEnabled (uAt q.payload 0 1 / 64) k a) [] := (need_pos hr _).trans (presentNode_of_present h _)

theorem nodeEnabled_node (hj : (a.node r k).joined = true) (hb : (a.node r k).bound = true) : ((nodeEnabled r k a).node r k).joined = false ∧
    ∃ sv, ((nodeEnabled r k a).node r k).services = (a.node r k).services ++ [sv] ∧ sv.service = 5 := by
  unfold nodeEnabled
  rw [hj, hb, if_pos (by decide), pushOpaque, pushService_node]
  have hn : ({ a.onNode r k (fun n => { n with joined := false }) with free := a.free + 1 } : State).node r k = { a.node r k with joined := false } :=
    onNode_node ..
  dsimp only
  rw [show (a.onNode r k (fun n => { n with joined := false })).free = a.free from rfl, hn]
  exact ⟨rfl, _, rfl, rfl⟩

theorem nodeEnabled_none (h : (a.node r k).joined = false ∨ (a.node r k).bound = false) : nodeEnabled r k a = a := by
  unfold nodeEnabled
  rw [Bool.and_eq_false_iff.mpr h, if_neg (by decide)]

theorem nodeEnable_answers (h : Served Cmd.nodeEnable dt q s) (hr : resv q.payload 1 3 = true) (hp : Present s (uAt q.payload 0 1) k) :
    Answers (.nodeEnable dt q) Cmd.nodeEnable dt q s St.ok (fun u p => p = [] ∧
      ((s.node (uAt q.payload 0 1 / 64) k).joined = true → (s.node (uAt q.payload 0 1 / 64) k).bound = true →
        (u.node (uAt q.payload 0 1 / 64) k).joined = false ∧
        ∃ sv, (u.node (uAt q.payload 0 1 / 64) k).services = (s.node (uAt q.payload 0 1 / 64) k).services ++ [sv] ∧ sv.service = 5) ∧
      (((s.node (uAt q.payload 0 1 / 64) k).joined = false ∨ (s.node (uAt q.payload 0 1 / 64) k).bound = false) →
        u = atStamp Cmd.nodeEnable dt q s)) := by
  have e := atStamp_node Cmd.nodeEnable dt q s (uAt q.payload 0 1 / 64) k
  refine answers_ok (body := nodeEnableBody) rfl h (nodeEnableBody_eq hr (present_atStamp hp ..) _) ⟨rfl, fun hj hb => ?_, fun hn => ?_⟩
  · rw [← e] at hj hb ⊢
    exact nodeEnabled_node hj hb
  · rw [← e] at hn
    exact nodeEnabled_none hn

theorem nodeAliasSet_answers (h : Served Cmd.nodeAliasSet dt q s) (hr : resv q.payload 1 1 = true) (hp : Present s (uAt q.payload 0 1) k) :
    Answers (.nodeAliasSet dt q) Cmd.nodeAliasSet dt q s St.pend (fun u p => p = [] ∧ isPending u Cmd.nodeAliasSet (uAt q.payload 0 1) = true ∧
      ∃ sv, (u.node (uAt q.payload 0 1 / 64) k).services = (s.node (uAt q.payload 0 1 / 64) k).services ++ [sv] ∧
        sv.service = 2 ∧ sv.cmd = Cmd.nodeAliasSet) := by
  refine answers_pend (body := nodeAliasSetBody) rfl h ((need_pos hr _).trans (presentNode_of_present (present_atStamp hp ..) _))
    ⟨rfl, isPending_addPend .., ?_⟩
  rw [← atStamp_node Cmd.nodeAliasSet dt q s]
  exact pushOpaque_services ..

/-- The parameter services of a node, whose payload is the service's own. -/
theorem nodeParam_answers {i : Instr} {code service : Nat} (hi : exec i s = .next (serve code (nodeParamBody code service) dt q s))
    (h : Served code dt q s) (hr : resv q.payload 1 1 = true) (hlen : uAt q.payload 2 2 ≤ 240) (hp : Present s (uAt q.payload 0 1) k) :
    Answers i code dt q s St.pend (fun u x => x = [] ∧ isPending u code (uAt q.payload 0 1) = true ∧
      ∃ sv, (u.node (uAt q.payload 0 1 / 64) k).services = (s.node (uAt q.payload 0 1 / 64) k).services ++ [sv] ∧
        sv.service = service ∧ sv.payload = slice q.payload 4 (uAt q.payload 2 2) ∧
        sv.seq = ((s.node (uAt q.payload 0 1 / 64) k).seq + 1) % 65536) := by
  refine answers_pend hi h ((need_pos (Bool.and_eq_true_iff.mpr ⟨hr, Nat.ble_eq.mpr hlen⟩) _).trans (presentNode_of_present (present_atStamp hp ..) _))
    ⟨rfl, isPending_addPend .., ?_⟩
  rw [← atStamp_node code dt q s]
  exact ⟨_, congrArg Node.services (pushService_node ..), rfl, rfl, rfl⟩

theorem nodeEnable_absent (h : Served Cmd.nodeEnable dt q s) (hr : resv q.payload 1 3 = true)
    (hb : ∀ f, presentNode (atStamp Cmd.nodeEnable dt q s) (uAt q.payload 0 1) f = .err St.nodeAbsent []) :
    Refuses (.nodeEnable dt q) Cmd.nodeEnable dt q s St.nodeAbsent := refuses (body := nodeEnableBody) rfl h ((need_pos hr _).trans (hb _))

theorem nodeAliasSet_absent (h : Served Cmd.nodeAliasSet dt q s) (hr : resv q.payload 1 1 = true)
    (hb : ∀ f, presentNode (atStamp Cmd.nodeAliasSet dt q s) (uAt q.payload 0 1) f = .err St.nodeAbsent []) :
    Refuses (.nodeAliasSet dt q) Cmd.nodeAliasSet dt q s St.nodeAbsent := refuses (body := nodeAliasSetBody) rfl h ((need_pos hr _).trans (hb _))

/-! ### The tunnel (R107, R120, R381) -/

theorem takeTunSlot_open (s : State) (r : Nat) : ((takeTunSlot s r).ring r).tunnelOpen = (s.ring r).tunnelOpen := by
  unfold takeTunSlot
  dsimp only
  split
  · rfl
  · exact (congrArg Ring.tunnelOpen (ring_onRing_self ..)).trans rfl

theorem drainTunTx_open (r i : Nat) (s : State) : ((drainTunTx r i s).ring r).tunnelOpen = (s.ring r).tunnelOpen := by
  induction i generalizing s with
  | zero => rfl
  | succ i ih =>
    unfold drainTunTx
    split
    · rfl
    · exact (ih _).trans (takeTunSlot_open ..)

theorem tunnelConfigBody_eq (hr : resv q.payload 2 2 = true) (hc : uAt q.payload 0 1 < ringCount a.board.variant) (h2 : uAt q.payload 0 1 < 2)
    (ho : uAt q.payload 1 1 < 2) (t : Nat) : tunnelConfigBody a q t = orElse (uAt q.payload 1 1 == 0 || !domainDown a 1) St.badState
      (.ok (drainTunTx (uAt q.payload 0 1) 16 (a.onRing (uAt q.payload 0 1) (fun g => { g with tunnelOpen := uAt q.payload 1 1 == 1 }))) []) := by
  refine (need_pos (by rw [hr, Nat.blt_eq.mpr h2, Nat.blt_eq.mpr ho]; rfl) _).trans ?_
  unfold ringArg inst
  rw [if_neg (Nat.not_le.mpr h2), if_neg (by rw [State.var]; exact Nat.not_le.mpr hc)]

section tunnel
variable (h : Served Cmd.tunnelConfig dt q s) (hr : resv q.payload 2 2 = true) (hc : uAt q.payload 0 1 < ringCount s.board.variant)
  (h2 : uAt q.payload 0 1 < 2) (ho : uAt q.payload 1 1 < 2)
include h hr hc h2 ho

theorem tunnelConfig_answers (hd : uAt q.payload 1 1 = 0 ∨ domainDown s 1 = false) :
    Answers (.tunnelConfig dt q) Cmd.tunnelConfig dt q s St.ok (fun u p =>
      p = [] ∧ (u.ring (uAt q.payload 0 1)).tunnelOpen = (uAt q.payload 1 1 == 1)) := by
  refine answers_ok (body := tunnelConfigBody) rfl h ((tunnelConfigBody_eq hr (by rwa [atStamp_board]) h2 ho _).trans (orElse_pos ?_ _ _))
    ⟨rfl, ?_⟩
  · rw [atStamp_domainDown]
    rcases hd with hd | hd
    · rw [hd]
      rfl
    · rw [hd, Bool.not_false, Bool.or_true]
  · rw [drainTunTx_open]
    exact congrArg Ring.tunnelOpen (ring_onRing_self ..)

theorem tunnelConfig_refuses (h1 : uAt q.payload 1 1 = 1) (hd : domainDown s 1 = true) :
    Refuses (.tunnelConfig dt q) Cmd.tunnelConfig dt q s St.badState := by
  refine refuses (body := tunnelConfigBody) rfl h ((tunnelConfigBody_eq hr (by rwa [atStamp_board]) h2 ho _).trans (orElse_neg ?_ _ _))
  rw [atStamp_domainDown, h1, hd]
  rfl

end tunnel

/-- Settles O30: each answered frame lists the nodes of the pass and configures them in turn, which leaves their order; and each command
is one change of its node or its ring. -/
theorem enumerationAndNodeServices : Obligations.EnumerationAndNodeServices := by
  intro s dt r k frame port e q a p mask n here same found
  have listed : ∀ {i : Instr} {l : List Bytes}, Runs i s (Enumerated r (l.take (nodeMax s.board.variant))) → Runs i s (fun t => found t l) :=
    fun ⟨t, ht, h⟩ => ⟨t, ht, h.lists, h.configured⟩
  have awaited : same → Awaited s r frame e := fun ⟨hg, hk, hr, he, hd, hw⟩ => ⟨hg, hk, hr, he, hd, hw⟩
  refine ⟨ringEnumerate_answers, truingPassEnd_launches, ringEnumerate_refuses, fun h => ⟨_, enumFrame_bad h, rfl⟩,
    fun h hf hs => ⟨enumFrame_firstBack (awaited h) hf hs, fun ht => listed (enumFrame_firstThrough (awaited h) hf hs ht)⟩,
    fun h hf hs => listed (enumFrame_second (awaited h) hf hs),
    fun hr he hd hw ht => ⟨enumTimeout_sends hr he hd hw ht, fun hs => listed (enumTimeout_ends hr he hd hw ht hs)⟩,
    fun h => ⟨_, enumTimeout_idle h, rfl⟩, nodeEnable_answers, nodeAliasSet_answers,
    fun hr hl hp => ⟨fun h => nodeParam_answers rfl h hr hl hp, fun h => nodeParam_answers rfl h hr hl hp⟩,
    fun hn hr hm hk => ⟨fun h hz => nodeEnable_absent h hz ?enable, fun h hz => nodeAliasSet_absent h hz ?aliasSet⟩,
    fun h hr hc h2 ho => ⟨tunnelConfig_answers h hr hc h2 ho, tunnelConfig_refuses h hr hc h2 ho⟩⟩
  all_goals exact presentNode_absent hn (by rwa [atStamp_board]) (by rwa [atStamp_board]) (by rwa [atStamp_nodeAt])

end Sys2Proof.Machine
end

