-- ==== Sys2Proof/Proofs/AxisEnable.lean ====
section
/-! The enable and the disable of an axis (R165, R199 to R204): O23. -/

namespace Sys2Proof.Machine

variable {s t u a e : State} {n dt : Nat} {q : Request}

/-! ### What a row leaves of the axes -/

/-- No axis but one differs. -/
def OnlyAxis (n : Nat) (s t : State) : Prop := ∀ b, b ≠ n → t.axis b = s.axis b

theorem OnlyAxis.refl (n : Nat) (s : State) : OnlyAxis n s s := fun _ _ => rfl

theorem OnlyAxis.trans (h : OnlyAxis n s t) (k : OnlyAxis n t u) : OnlyAxis n s u := fun b hb => (k b hb).trans (h b hb)

theorem onAxis_only (s : State) (n : Nat) (f : Axis → Axis) : OnlyAxis n s (s.onAxis n f) := fun _ hb => axis_onAxis_other _ _ _ _ hb

theorem axis_of_axes (h : t.axes = s.axes) (b : Nat) : t.axis b = s.axis b := by rw [State.axis, h, State.axis]

@[simp] theorem axis_advance (dt : Nat) (s : State) (b : Nat) : (advance dt s).axis b = s.axis b := axis_of_axes (advance_axes ..) b

@[simp] theorem axis_atStamp (code dt : Nat) (q : Request) (s : State) (b : Nat) : (atStamp code dt q s).axis b = s.axis b :=
  axis_of_axes (atStamp_axes ..) b

/-- What neither the present time nor a request's bookkeeping touches reads the same at the completion stamp. -/
theorem atStamp_same {α : Type} {f : State → α} (h : ∀ (s : State) t g e, f { s with time := t, host := g, ev := e } = f s)
    (code dt : Nat) (q : Request) (s : State) : f (atStamp code dt q s) = f s := by
  obtain ⟨t, g, w, e, eq⟩ := atStamp_frame code dt q s
  rw [eq]
  exact h s t _ _

theorem parN_advance (dt : Nat) (s : State) (x i : Nat) : parN (advance dt s) x i = parN s x i :=
  advance_same (f := fun s => parN s x i) (fun _ _ => rfl) dt s

theorem par_advance (dt : Nat) (s : State) (x i : Nat) : par (advance dt s) x i = par s x i :=
  advance_same (f := fun s => par s x i) (fun _ _ => rfl) dt s

/-- An axis that the variant has passes the check of the axis number. -/
theorem axisArg_ok {v : Variant} (h : n < axisCount v) (r : Reply) : inst n 128 (axisCount v) r = r := by
  have hmax : axisCount v ≤ 128 := by cases v <;> decide
  unfold inst
  rw [if_neg (by omega), if_neg (by omega)]

/-! ### Pending commands -/

@[simp] theorem addPend_axis (s : State) (code : Nat) (q : Request) (key b : Nat) : (addPend s code q key).axis b = s.axis b := rfl

@[simp] theorem finish_axis (s : State) (code key status : Nat) (p : Bytes) (b : Nat) : (finish s code key status p).axis b = s.axis b := by
  obtain ⟨_, _, eq, -⟩ := finish_frame s code key status p
  rw [eq]
  rfl

/-- Commands that are not pending do not become so by the end of others. -/
theorem finish_notPending {c k : Nat} (h : isPending s c k = false) (code key status : Nat) (p : Bytes) :
    isPending (finish s code key status p) c k = false := by
  obtain ⟨_, _, eq, -⟩ := finish_frame s code key status p
  rw [eq]
  exact List.any_eq_false.mpr fun x hx => List.any_eq_false.mp h x (List.mem_of_mem_filter hx)

/-! ### The disable of an axis (R201, R207) -/

/-- A disabled axis: its enables and its brake release are cleared. -/
structure Off (x : Axis) : Prop where
  phase : x.phase = .disabled
  control : x.control = 0
  axisEnabled : x.axisEnabled = false

theorem disabledNow_off (s : State) (n : Nat) : Off ((disabledNow s n).axis n) := by
  unfold disabledNow
  rw [finish_axis]
  split
  · rw [finish_axis, axis_onAxis_self, axis_onAxis_self]
    exact ⟨rfl, rfl, rfl⟩
  · rw [axis_onAxis_self]
    exact ⟨rfl, rfl, rfl⟩

theorem disabledNow_notPending {c k : Nat} (h : isPending s c k = false) (n : Nat) : isPending (disabledNow s n) c k = false := by
  unfold disabledNow
  refine finish_notPending ?_ ..
  split
  · exact finish_notPending (s := (s.onAxis n _).onAxis n _) h ..
  · exact h

theorem disabledNow_ends (s : State) (n : Nat) : isPending (disabledNow s n) Cmd.axisDisable n = false := by
  unfold disabledNow
  exact isPending_finish ..

theorem waitGroup_axis (g stamp : Nat) (c : MotionCmd) (s : State) (b : Nat) : (waitGroup g stamp c s).axis b = s.axis b := rfl

/-- A command that waits for the next tick leaves the phase of its axis. -/
theorem waitAxis_phase (n stamp : Nat) (c : MotionCmd) (s : State) : ((waitAxis n stamp c s).axis n).phase = (s.axis n).phase := by
  rw [waitAxis, axis_onAxis_self]

/-- A stop with its disable takes an enabled axis out of its phase, and leaves the pending commands (R201). -/
theorem requestStop_stopping (keep : Bool) (h : (s.axis n).phase = .enabled) :
    ((requestStop keep true s n).axis n).phase = .stopping ∧ (requestStop keep true s n).pend = s.pend := by
  have hn : enabling (s.axis n) = false := by rw [enabling, h]
  have ho : axisOn (s.axis n) = true := by rw [axisOn, h]
  unfold requestStop
  dsimp only
  rw [hn, ho, if_neg Bool.false_ne_true, if_neg (by decide), if_pos rfl]
  split
  · rw [waitGroup_axis, axis_onAxis_self]
    exact ⟨rfl, rfl⟩
  · rw [waitAxis_phase, axis_onAxis_self]
    exact ⟨rfl, rfl⟩

section disable
variable (h : Served Cmd.axisDisable dt q s) (hp : uAt q.payload 0 1 = n) (hn : n < axisCount s.board.variant) (hr : uAt q.payload 1 3 = 0)

theorem axisDisableBody_eq (hp : uAt q.payload 0 1 = n) (hn : n < axisCount a.board.variant) (hr : uAt q.payload 1 3 = 0) (t : Nat) :
    axisDisableBody a q t = match (a.axis n).phase with
      | .disabled => .ok a []
      | .stopping | .holding _ => .pend (addPend a Cmd.axisDisable q n)
      | .enabled => .pend (requestStop false true (addPend a Cmd.axisDisable q n) n)
      | _ => .pend (abortEnable (addPend a Cmd.axisDisable q n) n) := by
  subst hp
  exact (axisArg_ok hn _).trans (need_pos (resv_of_eq hr) _)

include h hp hn hr

theorem axisDisable_disabled (hd : (s.axis n).phase = .disabled) :
    Answers (.axisDisable dt q) Cmd.axisDisable dt q s St.ok (fun u p => p = [] ∧ u = atStamp Cmd.axisDisable dt q s) := by
  refine answers_ok (body := axisDisableBody) rfl h ((axisDisableBody_eq hp (by rwa [atStamp_board]) hr _).trans ?_) ⟨rfl, rfl⟩
  rw [axis_atStamp, hd]

theorem axisDisable_enabled (hd : (s.axis n).phase = .enabled) :
    Answers (.axisDisable dt q) Cmd.axisDisable dt q s St.pend (fun u p =>
      p = [] ∧ (u.axis n).phase = .stopping ∧ isPending u Cmd.axisDisable n = true) := by
  have hb := axisDisableBody_eq (a := atStamp Cmd.axisDisable dt q s) hp (by rwa [atStamp_board]) hr (stampOf Cmd.axisDisable dt q s)
  rw [axis_atStamp, hd] at hb
  obtain ⟨hphase, hpend⟩ := requestStop_stopping (s := addPend (atStamp Cmd.axisDisable dt q s) Cmd.axisDisable q n) false
    ((congrArg Axis.phase (axis_atStamp ..)).trans hd)
  refine answers_pend (body := axisDisableBody) rfl h hb ⟨rfl, hphase, ?_⟩
  rw [isPending, hpend]
  exact isPending_addPend ..

end disable

theorem brakeEngageExpiry_disables {t0 : Nat} (hh : (s.axis n).phase = .holding t0)
    (ht : t0 + (if par s Par.axisMode n = 7 then 0 else parN s Par.brakeEngage n) * 1000000 * nsU ≤ (advance dt s).time.now) :
    Runs (.brakeEngageExpiry dt n) s (fun t => (t.axis n).phase = .disabled ∧ (t.axis n).control = 0 ∧
      (t.axis n).axisEnabled = false ∧ isPending t Cmd.axisDisable n = false) := by
  have hoff := disabledNow_off (advance dt s) n
  refine ⟨disabledNow (advance dt s) n, ?_, hoff.phase, hoff.control, hoff.axisEnabled, disabledNow_ends ..⟩
  show execBrakeEngageExpiry dt n s = _
  unfold execBrakeEngageExpiry
  dsimp only
  rw [axis_advance, hh, par_advance, parN_advance]
  exact if_pos ht

/-! ### The enable sequence (R200) -/

theorem axisEnabled_enables {t0 : Nat} (hb : (s.axis n).phase = .braking t0)
    (ht : t0 + parN s Par.brakeRelease n * 1000000 * nsU ≤ s.cyc.t0) :
    Runs (.axisEnabled dt n) s (fun t => (t.axis n).phase = .enabled ∧ isPending t Cmd.axisEnable n = false ∧
      ∀ b, b ≠ n → t.axis b = s.axis b) := by
  refine ⟨finish ((advance dt s).onAxis n (fun x => { x with phase := .enabled })) Cmd.axisEnable n St.ok, ?_, ?_, isPending_finish .., fun b hb => ?_⟩
  · show execAxisEnabled dt n s = _
    unfold execAxisEnabled
    dsimp only
    rw [axis_advance, hb, parN_advance, advance_cyc]
    exact if_pos ht
  · rw [finish_axis, axis_onAxis_self]
  · rw [finish_axis, axis_onAxis_other _ _ _ _ hb, axis_advance]

theorem axisEnableTimeout_disables {t0 : Nat} (hp : (s.axis n).phase = .powering t0)
    (ht : t0 + parN s Par.enableTimeout n * 1000000 * nsU ≤ (advance dt s).time.now) :
    Runs (.axisEnableTimeout dt n) s (fun t => (t.axis n).phase = .disabled ∧ (t.axis n).control = 0 ∧
      isPending t Cmd.axisEnable n = false) := by
  have hoff := disabledNow_off (finish (advance dt s) Cmd.axisEnable n St.axisEnableTimeout) n
  refine ⟨disabledNow (finish (advance dt s) Cmd.axisEnable n St.axisEnableTimeout) n, ?_, hoff.phase, hoff.control,
    disabledNow_notPending (isPending_finish ..) _⟩
  show execAxisEnableTimeout dt n s = _
  unfold execAxisEnableTimeout
  dsimp only
  rw [axis_advance, hp, parN_advance]
  exact if_pos ht

/-! ### AXIS_ENABLE (R165, R199, R200) -/

theorem syncSwitches_only (s : State) (n : Nat) : OnlyAxis n s (syncSwitches s n) := by
  refine List.foldlRecOn (motive := OnlyAxis n s) _ _ (.refl n s) fun t ht sw _ => ht.trans ?_
  dsimp only
  split
  · exact onAxis_only _ _ _
  · exact onAxis_only _ _ _

/-- The values that an enable takes into force touch no other axis (R15). -/
theorem promoteEnable_only (s : State) (n : Nat) : OnlyAxis n s (promoteEnable s n) := by
  have hs : OnlyAxis n s (syncSwitches (parPromote s (fun x i => isAxisObj x && i == n) .enable) n) := syncSwitches_only _ n
  unfold promoteEnable
  dsimp only
  split
  · exact hs
  · exact hs.trans (onAxis_only _ _ _)

theorem sendCentral_axis (n : Nat) (s : State) (b : Nat) : (sendCentral n s).axis b = s.axis b := by
  unfold sendCentral
  split
  · split
    · rfl
    · rfl
  · rfl

/-- An enable with the values that it takes into force: the axis's number and its mode pass. -/
theorem axisEnableBody_eq (hp : uAt q.payload 0 1 = n) (hn : n < axisCount a.board.variant) (hr : uAt q.payload 1 3 = 0)
    (hm : modeFits (promoteEnable a n) n = true) (t : Nat) : ∃ r, axisEnableBody a q t =
      orElse (nodeReady (promoteEnable a n) n && ((promoteEnable a n).axis n).faults == [] && !axisSafetyOff (promoteEnable a n) n &&
          ((promoteEnable a n).axis n).phase == .disabled) St.badState
        (.pend (addPend (sendCentral n ((promoteEnable a n).onAxis n (fun x => { x with phase := .accepted t r, attended := true })))
          Cmd.axisEnable q n)) := by
  subst hp
  exact ⟨_, (axisArg_ok hn _).trans ((need_pos (resv_of_eq hr) _).trans (need_pos hm _))⟩

section enable
variable (h : Served Cmd.axisEnable dt q s) (hp : uAt q.payload 0 1 = n) (hn : n < axisCount s.board.variant) (hr : uAt q.payload 1 3 = 0)
  (he : e = promoteEnable (atStamp Cmd.axisEnable dt q s) n) (hm : modeFits e n = true)
include h hp hn hr he hm

theorem axisEnable_accepts (hready : nodeReady e n = true) (hf : (e.axis n).faults = []) (hs : axisSafetyOff e n = false)
    (hd : (e.axis n).phase = .disabled) :
    Answers (.axisEnable dt q) Cmd.axisEnable dt q s St.pend (fun u p => p = [] ∧ isPending u Cmd.axisEnable n = true ∧
      (∃ r, (u.axis n).phase = .accepted (stampOf Cmd.axisEnable dt q s) r) ∧ ∀ b, b ≠ n → u.axis b = s.axis b) := by
  subst he
  obtain ⟨r, hb⟩ := axisEnableBody_eq hp (by rwa [atStamp_board]) hr hm (stampOf Cmd.axisEnable dt q s)
  refine answers_pend (body := axisEnableBody) rfl h (hb.trans (orElse_pos ?_ _ _)) ⟨rfl, isPending_addPend .., ⟨r, ?_⟩, ?_⟩
  · rw [hready, hf, hs, hd]
    rfl
  · rw [addPend_axis, sendCentral_axis, axis_onAxis_self]
  · intro b hb
    rw [addPend_axis, sendCentral_axis, axis_onAxis_other _ _ _ _ hb, promoteEnable_only _ _ b hb, axis_atStamp]

theorem axisEnable_faulted (hf : (e.axis n).faults ≠ []) : Refuses (.axisEnable dt q) Cmd.axisEnable dt q s St.badState := by
  subst he
  obtain ⟨r, hb⟩ := axisEnableBody_eq hp (by rwa [atStamp_board]) hr hm (stampOf Cmd.axisEnable dt q s)
  refine refuses (body := axisEnableBody) rfl h (hb.trans (orElse_neg ?_ _ _))
  rw [beq_eq_false_iff_ne.mpr hf, Bool.and_false, Bool.false_and, Bool.false_and]

end enable

/-- Settles O23: each row sets the phase of its axis and ends its own pending command, and every other change it makes is another
unit's. -/
theorem axisEnableAndDisable : Obligations.AxisEnableAndDisable := by
  intro s dt n t0 q a e0
  exact ⟨fun h hp hn hr => axisEnable_accepts h hp hn hr rfl, fun h hp hn hr => axisEnable_faulted h hp hn hr rfl, axisEnabled_enables,
    axisEnableTimeout_disables, fun h hp hn hr => ⟨axisDisable_disabled h hp hn hr, axisDisable_enabled h hp hn hr⟩, brakeEngageExpiry_disables⟩

end Sys2Proof.Machine
end

