-- ==== Sys2Proof/Proofs/AxisFaults.lean ====
section
/-! The axis faults of the law and the clearing of faults (R173, R175, R192, R206, R602): O24. -/

namespace Sys2Proof.Machine

variable {s t a : State} {n dt : Nat} {q : Request}

/-! ### AXIS_FAULT_CLEAR (R602) -/

theorem Told.axis (h : Told s t) (b : Nat) : t.axis b = s.axis b := by
  obtain ⟨_, _, _, rfl⟩ := h
  rfl

theorem Told.group (h : Told s t) (g : Nat) : t.group g = s.group g := by
  obtain ⟨_, _, _, rfl⟩ := h
  rfl

theorem recordClear_told (s : State) (kind inst cls src : Nat) : Told s (recordClear s kind inst cls src) := by
  obtain ⟨e, c, eq, -⟩ := record_frame s { source := src, cls := cls, kind := kind, inst := inst, flags := 4 }
  exact ⟨s.host, e, c, eq⟩

/-- The records of the cleared faults change nothing but the event unit and the calipers. -/
theorem recordClears_told (kind inst cls : Nat) (l : List Nat) (s : State) : Told s (l.foldl (fun s f => recordClear s kind inst cls f) s) :=
  told_foldl _ (fun _ _ => recordClear_told ..) l s

theorem withMover_axis (hr : uAt q.payload 2 2 = 0) (hm : moverOf q.payload = some (.axis n)) (hn : n < axisCount a.board.variant)
    (k : Mover → Reply) : withMover a q.payload k = k (.axis n) := by
  refine (need_pos (resv_of_eq hr) _).trans ?_
  rw [hm]
  exact if_neg (Nat.not_le.mpr hn)

theorem withMover_group (hr : uAt q.payload 2 2 = 0) (hm : moverOf q.payload = some (.group n)) (k : Mover → Reply) :
    withMover a q.payload k = k (.group n) := by
  refine (need_pos (resv_of_eq hr) _).trans ?_
  rw [hm]

section clear
variable (h : Served Cmd.axisFaultClear dt q s) (hr : uAt q.payload 2 2 = 0) (hm : moverOf q.payload = some (.axis n))
  (hn : n < axisCount s.board.variant) (hf : (s.axis n).faults ≠ [])

theorem axisFaultClearBody_eq (hr : uAt q.payload 2 2 = 0) (hm : moverOf q.payload = some (.axis n)) (hn : n < axisCount a.board.variant)
    (hf : (a.axis n).faults ≠ []) (t : Nat) : axisFaultClearBody a q t = orElse (!axisCausePersists a n) St.badState
      (.ok ((a.axis n).faults.foldl (fun s f => recordClear s Kind.axis n Cls.axis f) (a.onAxis n (fun x => { x with faults := [] }))) []) :=
  (withMover_axis hr hm hn _).trans (if_neg hf)

include h hr hm hn hf

theorem axisFaultClear_clears (hc : axisCausePersists (atStamp Cmd.axisFaultClear dt q s) n = false) :
    Answers (.axisFaultClear dt q) Cmd.axisFaultClear dt q s St.ok (fun u p => p = [] ∧ (u.axis n).faults = [] ∧
      (u.axis n).phase = (s.axis n).phase ∧ ∀ b, b ≠ n → u.axis b = s.axis b) := by
  have hb := axisFaultClearBody_eq (a := atStamp Cmd.axisFaultClear dt q s) hr hm (by rwa [atStamp_board]) (by rwa [axis_atStamp])
    (stampOf Cmd.axisFaultClear dt q s)
  refine answers_ok (body := axisFaultClearBody) rfl h (hb.trans (orElse_pos (by rw [hc]; rfl) _ _)) ⟨rfl, ?_, ?_, fun b hb => ?_⟩
  · rw [(recordClears_told ..).axis, axis_onAxis_self]
  · rw [(recordClears_told ..).axis, axis_onAxis_self, axis_atStamp]
  · rw [(recordClears_told ..).axis, axis_onAxis_other _ _ _ _ hb, axis_atStamp]

theorem axisFaultClear_persists (hc : axisCausePersists (atStamp Cmd.axisFaultClear dt q s) n = true) :
    Refuses (.axisFaultClear dt q) Cmd.axisFaultClear dt q s St.badState := by
  have hb := axisFaultClearBody_eq (a := atStamp Cmd.axisFaultClear dt q s) hr hm (by rwa [atStamp_board]) (by rwa [axis_atStamp])
    (stampOf Cmd.axisFaultClear dt q s)
  exact refuses (body := axisFaultClearBody) rfl h (hb.trans (orElse_neg (by rw [hc]; rfl) _ _))

end clear

theorem groupFaultClear_clears (h : Served Cmd.axisFaultClear dt q s) (hr : uAt q.payload 2 2 = 0) (hm : moverOf q.payload = some (.group n)) :
    Answers (.axisFaultClear dt q) Cmd.axisFaultClear dt q s St.ok (fun u p => p = [] ∧ (u.group n).faults = []) := by
  refine answers_ok (body := axisFaultClearBody) rfl h (withMover_group hr hm _) ⟨rfl, ?_⟩
  rw [(recordClears_told ..).group, group_onGroup_self]

/-! ### The faults of the law (R173, R175, R192) -/

theorem axis_setPwm (s : State) (p : PwmUnit) (b : Nat) : ({ s with pwm := p } : State).axis b = s.axis b := rfl

/-- A lost feedback raises its fault, and the axis is no longer homed. -/
theorem loseFeedback_axis (s : State) (n : Nat) :
    Ev.feedbackLost ∈ ((loseFeedback s n).axis n).faults ∧ ((loseFeedback s n).axis n).homed = false := by
  have hf := raiseAxis_faults s Ev.feedbackLost n 0 [] 0
  unfold loseFeedback
  dsimp only
  split
  · rw [axis_setPwm, axis_onAxis_self]
    exact ⟨hf, rfl⟩
  · rw [axis_onAxis_self]
    exact ⟨hf, rfl⟩

theorem feedbackLost_raises (hm : parN s Par.fbMissMax n ≤ (s.axis n).invalidRun) (hf : (s.axis n).faults.contains Ev.feedbackLost = false) :
    Runs (.feedbackLost dt n) s (fun t => (t.axis n).faults.contains Ev.feedbackLost = true ∧ (t.axis n).homed = false) := by
  obtain ⟨hfault, hhomed⟩ := loseFeedback_axis (advance dt s) n
  exact ⟨_, if_pos (by rw [axis_advance, parN_advance]; exact ⟨hm, hf⟩), List.contains_iff_mem.mpr hfault, hhomed⟩

theorem followingError_raises (h0 : parN s Par.feTime n ≠ 0) (hm : parN s Par.feTime n ≤ (s.axis n).feCycles)
    (hf : (s.axis n).faults.contains Ev.followingError = false) :
    Runs (.followingError dt n) s (fun t => (t.axis n).faults.contains Ev.followingError = true) :=
  ⟨_, if_pos (by rw [axis_advance, parN_advance]; exact ⟨h0, hm, hf⟩), List.contains_iff_mem.mpr (raiseAxis_faults ..)⟩

theorem leaveSource_stands (s : State) (n : Nat) : Stands s (leaveSource s n) := by
  unfold leaveSource
  dsimp only
  split
  · exact .refl s
  · exact waitAxis_stands ..

/-- The count of missing entries stands still as time goes on: it changes at a tick alone (R206). -/
theorem streamCount_advance (dt : Nat) (s : State) (n : Nat) : streamCount (advance dt s) n = streamCount s n :=
  advance_same (f := fun s => streamCount s n) (fun _ _ => rfl) dt s

theorem streamLost_raises (h2 : (s.axis n).source = 2) (hm : parN s Par.streamMissMax n ≤ streamCount s n)
    (hf : (s.axis n).faults.contains Ev.streamLost = false) :
    Runs (.streamLost dt n) s (fun t => (t.axis n).faults.contains Ev.streamLost = true) :=
  ⟨_, if_pos (by rw [axis_advance, parN_advance, streamCount_advance]; exact ⟨h2, hm, hf⟩),
    List.contains_iff_mem.mpr (((leaveSource_stands ..).axes n).faults (raiseAxis_faults ..))⟩

/-- Settles O24: a clearing empties the faults of its mover, which the records of it leave; a fault of the law raises its source, which no
reaction ends. -/
theorem axisFaultsAndTheirClearing : Obligations.AxisFaultsAndTheirClearing := by
  intro s dt n q
  exact ⟨fun h hr hm hn hf => ⟨axisFaultClear_clears h hr hm hn hf, axisFaultClear_persists h hr hm hn hf⟩, groupFaultClear_clears,
    feedbackLost_raises, followingError_raises, streamLost_raises⟩

end Sys2Proof.Machine
end

