-- ==== Sys2Proof/Proofs/Gearing.lean ====
section
/-! Set-point sources and gearing (R191, R193, R195, R704): O25. -/

namespace Sys2Proof.Machine

variable {s a : State} {n dt src : Nat} {q : Request}

/-! ### What a request's bookkeeping leaves of the sources and the gearing -/

section atStamp
variable (code dt : Nat) (q : Request) (s : State) (n : Nat)

theorem image_atStamp : (atStamp code dt q s).image = s.image := image_of_plan (atStamp_plan ..)
theorem groupOf_atStamp : groupOf (atStamp code dt q s) n = groupOf s n := by rw [groupOf, atStamp_groups, groupOf]
theorem actingGroup_atStamp : actingGroup (atStamp code dt q s) n = actingGroup s n := by
  rw [actingGroup, axis_atStamp, groupOf_atStamp, actingGroup]
theorem gearFits_atStamp : gearFits (atStamp code dt q s) n = gearFits s n :=
  atStamp_same (f := fun s => gearFits s n) (fun _ _ _ _ => rfl) code dt q s

end atStamp

/-! ### AXIS_SOURCE (R191, R193, R258) -/

/-- An axis has no move of its own or of its group left, and none waits (R191). -/
def stillAxis (s : State) (n : Nat) : Bool :=
  ((s.axis n).prof == .idle || (s.axis n).prof == .held) && (s.axis n).queue == [] && !(s.axis n).waiting.any (fun w => makesBusy w.cmd) &&
    (match actingGroup s n with | some g => (s.group g).prof == .idle && (s.group g).queue == [] | none => true)

/-- The axis on its new source. -/
def sourced (s : State) (n src : Nat) : State :=
  if src = (s.axis n).source then s
  else if src = 3 then
    s.onAxis n (fun x => { x with
      source := 3, prof := .idle, remaining := 0, segs := [],
      gear := { noGear x.gear with num := par s Par.ratioNum n, den := parN s Par.ratioDen n,
                                   r := rdiv (par s Par.ratioNum n * 4294967296) (parN s Par.ratioDen n) } })
  else if src = 2 then
    s.onAxis n (fun x => { x with source := 2, prof := .idle, remaining := 0, segs := [], streamRun := 0, streamKept := 0,
                                  missesKept := x.streamMisses, gear := noGear x.gear })
  else s.onAxis n (takeOver s n src)

theorem takeOver_source (s : State) (n src : Nat) (x : Axis) : (takeOver s n src x).source = src := by
  unfold takeOver
  split
  · rfl
  · rfl

theorem sourced_source (s : State) (n src : Nat) : ((sourced s n src).axis n).source = src := by
  unfold sourced
  split
  next h => exact h.symm
  next =>
    split
    next h => rw [axis_onAxis_self, h]
    next =>
      split
      next h => rw [axis_onAxis_self, h]
      next => rw [axis_onAxis_self, takeOver_source]

theorem sourced_only (s : State) (n src : Nat) : OnlyAxis n s (sourced s n src) := by
  unfold sourced
  split
  · exact .refl n s
  · split
    · exact onAxis_only _ _ _
    · split
      · exact onAxis_only _ _ _
      · exact onAxis_only _ _ _

/-- A source that the payload may name, which the group and the master of the axis allow. -/
structure SourceFits (s : State) (q : Request) (n src : Nat) : Prop where
  field : uAt q.payload 1 1 = src
  lt : src < 4
  resv : uAt q.payload 2 2 = 0
  group : src = 1 → (groupOf s n).isSome = true
  gear : src = 3 → (s.axis n).source = 3 ∨ gearFits s n = true

theorem SourceFits.atStamp (h : SourceFits s q n src) (code dt : Nat) : SourceFits (atStamp code dt q s) q n src :=
  ⟨h.field, h.lt, h.resv, by rw [groupOf_atStamp]; exact h.group, by rw [axis_atStamp, gearFits_atStamp]; exact h.gear⟩

section source
variable (hp : uAt q.payload 0 1 = n)
include hp

/-- The answer to a source of a number that exists, asked of an axis that the variant has. -/
theorem axisSourceBody_args (hn : n < axisCount a.board.variant) (hs : uAt q.payload 1 1 = src) (h4 : src < 4) (hr : uAt q.payload 2 2 = 0)
    (t : Nat) : axisSourceBody a q t =
      need (src != 1 || (groupOf a n).isSome) (need (src != 3 || src == (a.axis n).source || gearFits a n)
        (orElse (stillAxis a n) St.motionBusy (orElse (src != 3 || hasMaster a.image n) St.badState (.ok (sourced a n src) [])))) := by
  subst hp hs
  refine (axisArg_ok hn _).trans ((need_pos (decide_eq_true ⟨h4, resv_of_eq hr⟩) _).trans
    (congrArg (need _) (congrArg (need _) (congrArg (orElse _ _) (congrArg (orElse _ _) ?_)))))
  unfold sourced
  split
  · rfl
  · split
    · rfl
    · split
      · rfl
      · rfl

theorem axisSourceBody_eq (hn : n < axisCount a.board.variant) (hf : SourceFits a q n src) (t : Nat) : axisSourceBody a q t =
    orElse (stillAxis a n) St.motionBusy (orElse (src != 3 || hasMaster a.image n) St.badState (.ok (sourced a n src) [])) := by
  refine (axisSourceBody_args hp hn hf.field hf.lt hf.resv t).trans ((need_pos ?_ _).trans (need_pos ?_ _))
  · by_cases h1 : src = 1
    · rw [hf.group h1, Bool.or_true]
    · rw [bne_iff_ne.mpr h1, Bool.true_or]
  · by_cases h3 : src = 3
    · rcases hf.gear h3 with h | h
      · rw [h, h3]
        rfl
      · rw [h, Bool.or_true]
    · rw [bne_iff_ne.mpr h3, Bool.true_or, Bool.true_or]

variable (h : Served Cmd.axisSource dt q s) (hn : n < axisCount s.board.variant)
include h hn

theorem axisSource_answers (hf : SourceFits s q n src) (hm : src = 3 → hasMaster s.image n = true) (hi : (s.axis n).prof = .idle)
    (hq : (s.axis n).queue = []) (hw : (s.axis n).waiting = []) (hg : actingGroup s n = none) :
    Answers (.axisSource dt q) Cmd.axisSource dt q s St.ok (fun u p => p = [] ∧ (u.axis n).source = src ∧
      ∀ b, b ≠ n → u.axis b = s.axis b) := by
  have hb := axisSourceBody_eq hp (by rwa [atStamp_board]) (hf.atStamp Cmd.axisSource dt) (stampOf Cmd.axisSource dt q s)
  refine answers_ok (body := axisSourceBody) rfl h (hb.trans ((orElse_pos ?_ _ _).trans (orElse_pos ?_ _ _))) ⟨rfl, sourced_source .., fun b hb => ?_⟩
  · unfold stillAxis
    rw [axis_atStamp, actingGroup_atStamp, hi, hq, hw, hg]
    rfl
  · rw [image_atStamp]
    by_cases h3 : src = 3
    · rw [hm h3, Bool.or_true]
    · rw [bne_iff_ne.mpr h3, Bool.true_or]
  · rw [sourced_only _ _ _ b hb, axis_atStamp]

theorem axisSource_misfits (hs : uAt q.payload 1 1 = 3) (hr : uAt q.payload 2 2 = 0) (hx : (s.axis n).source ≠ 3) (hf : gearFits s n = false) :
    Refuses (.axisSource dt q) Cmd.axisSource dt q s St.badParam := by
  have hb := axisSourceBody_args (a := atStamp Cmd.axisSource dt q s) hp (by rwa [atStamp_board]) hs (by decide) hr (stampOf Cmd.axisSource dt q s)
  refine refuses (body := axisSourceBody) rfl h (hb.trans ((need_pos rfl _).trans (need_neg ?_ _)))
  rw [axis_atStamp, gearFits_atStamp, hf, beq_eq_false_iff_ne.mpr (Ne.symm hx)]
  rfl

theorem axisSource_busy (hf : SourceFits s q n src) (hm : (s.axis n).prof = .moving) :
    Refuses (.axisSource dt q) Cmd.axisSource dt q s St.motionBusy := by
  have hb := axisSourceBody_eq hp (by rwa [atStamp_board]) (hf.atStamp Cmd.axisSource dt) (stampOf Cmd.axisSource dt q s)
  refine refuses (body := axisSourceBody) rfl h (hb.trans (orElse_neg ?_ _ _))
  unfold stillAxis
  rw [axis_atStamp, hm]
  rfl

end source

/-! ### The gear commands (R195, R205, R704) -/

theorem promoteRatio_axis (s : State) (n b : Nat) : (promoteRatio s n).axis b = s.axis b := rfl

/-- An axis that is not enabled, or not on source 3, fails the state check of GEAR_RATIO and GEAR_DISENGAGE. -/
theorem notGeared (h : (s.axis n).phase ≠ .enabled ∨ (s.axis n).source ≠ 3) (code dt : Nat) (q : Request) :
    (((atStamp code dt q s).axis n).phase == .enabled && ((atStamp code dt q s).axis n).source == 3) = false := by
  rw [axis_atStamp]
  rcases h with h | h
  · rw [beq_eq_false_iff_ne.mpr h, Bool.false_and]
  · rw [beq_eq_false_iff_ne.mpr h, Bool.and_false]

section gear
variable (hp : uAt q.payload 0 1 = n) (hr : uAt q.payload 1 3 = 0)
include hp hr

theorem gearRatioBody_eq (hn : n < axisCount a.board.variant) (t : Nat) : gearRatioBody a q t =
    orElse ((a.axis n).phase == .enabled && (a.axis n).source == 3) St.badState
      (.ok ((promoteRatio a n).onAxis n (rampTo (promoteRatio a n) n (par (promoteRatio a n) Par.ratioNum n) (parN (promoteRatio a n) Par.ratioDen n)
        false)) []) := by
  subst hp
  exact (axisArg_ok hn _).trans (need_pos (resv_of_eq hr) _)

theorem gearDisengageBody_eq (hn : n < axisCount a.board.variant) (t : Nat) : gearDisengageBody a q t =
    orElse ((a.axis n).phase == .enabled && (a.axis n).source == 3) St.badState (.ok (a.onAxis n (rampTo a n 0 1 true)) []) := by
  subst hp
  exact (axisArg_ok hn _).trans (need_pos (resv_of_eq hr) _)

/-- An axis that engages: its gearing begins anew, from a ratio of 0. -/
def engaged (s : State) (n : Nat) : State :=
  s.onAxis n (fun x => rampTo s n (par s Par.ratioNum n) (parN s Par.ratioDen n) false
    { x with source := 3, gear := { noGear x.gear with exact := false } })

theorem gearEngageBody_eq (hn : n < axisCount a.board.variant) (t : Nat) : gearEngageBody a q t =
    orElse ((a.axis n).phase == .enabled) St.badState (orElse ((a.axis n).source != 3) St.motionBusy (orElse ((a.axis n).source == 0) St.badState
      (orElse (!busyAxis (a.axis n) t && (a.axis n).kin.v == 0 && (a.axis n).kin.a == 0) St.motionBusy
        (orElse (hasMaster a.image n) St.badState (need (gearFits a n) (.ok (engaged (promoteRatio a n) n) [])))))) := by
  subst hp
  exact (axisArg_ok hn _).trans (need_pos (resv_of_eq hr) _)

variable (hn : n < axisCount s.board.variant)
include hn

theorem gearRatio_ramps (h : Served Cmd.gearRatio dt q s) (he : (s.axis n).phase = .enabled) (h3 : (s.axis n).source = 3) :
    Answers (.gearRatio dt q) Cmd.gearRatio dt q s St.ok (fun u p => p = [] ∧ (u.axis n).gear.ramping = true ∧
      (u.axis n).gear.disengaging = false ∧ (u.axis n).gear.toNum = par (promoteRatio (atStamp Cmd.gearRatio dt q s) n) Par.ratioNum n ∧
      (u.axis n).gear.toDen = parN (promoteRatio (atStamp Cmd.gearRatio dt q s) n) Par.ratioDen n ∧ ∀ b, b ≠ n → u.axis b = s.axis b) := by
  have hb := gearRatioBody_eq (a := atStamp Cmd.gearRatio dt q s) hp hr (by rwa [atStamp_board]) (stampOf Cmd.gearRatio dt q s)
  refine answers_ok (body := gearRatioBody) rfl h (hb.trans (orElse_pos (by rw [axis_atStamp, he, h3]; rfl) _ _)) ?_
  rw [axis_onAxis_self]
  exact ⟨rfl, rfl, rfl, rfl, rfl, fun b hb => by rw [axis_onAxis_other _ _ _ _ hb, promoteRatio_axis, axis_atStamp]⟩

theorem gearDisengage_ramps (h : Served Cmd.gearDisengage dt q s) (he : (s.axis n).phase = .enabled) (h3 : (s.axis n).source = 3) :
    Answers (.gearDisengage dt q) Cmd.gearDisengage dt q s St.ok (fun u p => p = [] ∧ (u.axis n).gear.ramping = true ∧
      (u.axis n).gear.disengaging = true ∧ (u.axis n).gear.toNum = 0 ∧ ∀ b, b ≠ n → u.axis b = s.axis b) := by
  have hb := gearDisengageBody_eq (a := atStamp Cmd.gearDisengage dt q s) hp hr (by rwa [atStamp_board]) (stampOf Cmd.gearDisengage dt q s)
  refine answers_ok (body := gearDisengageBody) rfl h (hb.trans (orElse_pos (by rw [axis_atStamp, he, h3]; rfl) _ _)) ?_
  rw [axis_onAxis_self]
  exact ⟨rfl, rfl, rfl, rfl, fun b hb => by rw [axis_onAxis_other _ _ _ _ hb, axis_atStamp]⟩

theorem gearRatio_refuses (hx : (s.axis n).phase ≠ .enabled ∨ (s.axis n).source ≠ 3) (h : Served Cmd.gearRatio dt q s) :
    Refuses (.gearRatio dt q) Cmd.gearRatio dt q s St.badState :=
  refuses (body := gearRatioBody) rfl h ((gearRatioBody_eq hp hr (by rwa [atStamp_board]) _).trans (orElse_neg (notGeared hx ..) _ _))

theorem gearDisengage_refuses (hx : (s.axis n).phase ≠ .enabled ∨ (s.axis n).source ≠ 3) (h : Served Cmd.gearDisengage dt q s) :
    Refuses (.gearDisengage dt q) Cmd.gearDisengage dt q s St.badState :=
  refuses (body := gearDisengageBody) rfl h ((gearDisengageBody_eq hp hr (by rwa [atStamp_board]) _).trans (orElse_neg (notGeared hx ..) _ _))

theorem gearEngage_refuses (hx : (s.axis n).phase ≠ .enabled) (h : Served Cmd.gearEngage dt q s) :
    Refuses (.gearEngage dt q) Cmd.gearEngage dt q s St.badState :=
  refuses (body := gearEngageBody) rfl h ((gearEngageBody_eq hp hr (by rwa [atStamp_board]) _).trans
    (orElse_neg (by rw [axis_atStamp]; exact beq_eq_false_iff_ne.mpr hx) _ _))

section engage
variable (he : (s.axis n).phase = .enabled) (h0 : (s.axis n).source = 0)
  (hb : busyAxis (s.axis n) (stampOf Cmd.gearEngage dt q s) = false) (hv : (s.axis n).kin.v = 0) (ha : (s.axis n).kin.a = 0)
  (hm : hasMaster s.image n = true)
include he h0 hb hv ha hm

/-- An enabled axis on source 0 that stands, with a master task in its flow, engages where its gearing fits. -/
theorem gearEngageBody_ready : gearEngageBody (atStamp Cmd.gearEngage dt q s) q (stampOf Cmd.gearEngage dt q s) =
    need (gearFits s n) (.ok (engaged (promoteRatio (atStamp Cmd.gearEngage dt q s) n) n) []) := by
  rw [gearEngageBody_eq hp hr (by rwa [atStamp_board]), axis_atStamp, image_atStamp, gearFits_atStamp, he, h0, hb, hv, ha, hm]
  rfl

variable (h : Served Cmd.gearEngage dt q s)
include h

theorem gearEngage_misfits (hf : gearFits s n = false) : Refuses (.gearEngage dt q) Cmd.gearEngage dt q s St.badParam :=
  refuses (body := gearEngageBody) rfl h ((gearEngageBody_ready hp hr hn he h0 hb hv ha hm).trans (need_neg hf _))

theorem gearEngage_ramps (hf : gearFits s n = true) :
    Answers (.gearEngage dt q) Cmd.gearEngage dt q s St.ok (fun u p => p = [] ∧ (u.axis n).source = 3 ∧
      (u.axis n).gear.ramping = true ∧ (u.axis n).gear.num = 0 ∧ ∀ b, b ≠ n → u.axis b = s.axis b) := by
  refine answers_ok (body := gearEngageBody) rfl h ((gearEngageBody_ready hp hr hn he h0 hb hv ha hm).trans (need_pos hf _)) ?_
  unfold engaged
  rw [axis_onAxis_self]
  exact ⟨rfl, rfl, rfl, rfl, fun b hb => by rw [axis_onAxis_other _ _ _ _ hb, promoteRatio_axis, axis_atStamp]⟩

end engage
end gear

/-! ### The end of a ramp (R195) -/

section ramp
variable (hr : (s.axis n).gear.ramping = true) (ht : planEnd (s.axis n).gear.segs 0 ≤ s.cyc.t0)
include hr ht

/-- An axis whose gearing ramps out stands on source 0. -/
def disengaged (s : State) (n : Nat) : State :=
  s.onAxis n (fun x => { standStill (modQ s n) x x.kin.x .idle 0 with source := 0, gear := noGear x.gear })

/-- A ramp ends at its target. -/
def rampEnded (s : State) (n : Nat) : State :=
  s.onAxis n (fun x => { x with gear := { x.gear with
    ramping := false, segs := [], num := (s.axis n).gear.toNum, den := (s.axis n).gear.toDen, rdot := 0, rem := 0, exact := true,
    r := rdiv ((s.axis n).gear.toNum * 4294967296) (s.axis n).gear.toDen } })

theorem gearRampEnd_eq (dt : Nat) : exec (.gearRampEnd dt n) s =
    .next (if (s.axis n).gear.disengaging then disengaged (advance dt s) n else rampEnded (advance dt s) n) := by
  show execGearRampEnd dt n s = _
  unfold execGearRampEnd
  dsimp only
  rw [if_pos (by rw [axis_advance, advance_cyc]; exact ⟨hr, ht⟩), axis_advance]
  split
  · rfl
  · unfold rampEnded
    rw [axis_advance]

theorem gearRampEnd_ends : Runs (.gearRampEnd dt n) s (fun t => (t.axis n).gear.ramping = false ∧ (∀ b, b ≠ n → t.axis b = s.axis b) ∧
    ((s.axis n).gear.disengaging = true → (t.axis n).source = 0 ∧ (t.axis n).prof = .idle) ∧
    ((s.axis n).gear.disengaging = false → (t.axis n).gear.num = (s.axis n).gear.toNum ∧ (t.axis n).gear.den = (s.axis n).gear.toDen ∧
      (t.axis n).source = (s.axis n).source)) := by
  refine ⟨_, gearRampEnd_eq hr ht dt, ?_⟩
  cases hd : (s.axis n).gear.disengaging with
  | true =>
    rw [if_pos rfl, disengaged, axis_onAxis_self]
    exact ⟨rfl, fun b hb => by rw [axis_onAxis_other _ _ _ _ hb, axis_advance], fun _ => ⟨rfl, rfl⟩, nofun⟩
  | false =>
    rw [if_neg Bool.false_ne_true, rampEnded, axis_onAxis_self, axis_advance]
    exact ⟨rfl, fun b hb => by rw [axis_onAxis_other _ _ _ _ hb, axis_advance], nofun, fun _ => ⟨rfl, rfl, rfl⟩⟩

end ramp

/-- Settles O25: each command has one equation behind the checks of its fields, and each row changes its own axis alone. -/
theorem sourcesAndGearing : Obligations.SourcesAndGearing := by
  intro s dt n src q x r0
  exact ⟨fun h hp hn hs h4 hr hg hm hf => axisSource_answers hp h hn ⟨hs, h4, hr, hg, hf⟩ hm,
    fun h hp hn hs hr => axisSource_misfits hp h hn hs hr,
    fun h hp hn hs h4 hr hg hf => axisSource_busy hp h hn ⟨hs, h4, hr, hg, hf⟩,
    fun h hp hn hr => gearRatio_ramps hp hr hn h,
    fun h hp hn hr he h0 hb hv ha hm => ⟨gearEngage_misfits hp hr hn he h0 hb hv ha hm h, gearEngage_ramps hp hr hn he h0 hb hv ha hm h⟩,
    fun h hp hn hr => gearDisengage_ramps hp hr hn h,
    fun hp hn hr => ⟨fun hx => ⟨gearRatio_refuses hp hr hn hx, gearDisengage_refuses hp hr hn hx⟩, gearEngage_refuses hp hr hn⟩,
    gearRampEnd_ends⟩

end Sys2Proof.Machine
end

