-- ==== Sys2Proof/Proofs/AxisMoves.lean ====
section
/-! The moves of an axis (R245 to R248, R252): O26. -/

namespace Sys2Proof.Machine

variable {s a : State} {n f t dt : Nat} {v : Int} {q : Request} {x : Axis} {mv : QMove} {rel : Bool}

/-! ### Commands that wait for the next tick -/

theorem Answers.imp {i : Instr} {code st : Nat} {R R' : State → Bytes → Prop} (h : Answers i code dt q s st R) (k : ∀ u p, R u p → R' u p) :
    Answers i code dt q s st R' := by
  obtain ⟨u, p, e, r⟩ := h
  exact ⟨u, p, e, k u p r⟩

theorem waitAxis_axis (n stamp : Nat) (c : MotionCmd) (s : State) : (waitAxis n stamp c s).axis n =
    { s.axis n with waiting := (s.axis n).waiting ++ [{ stamp := stamp, cmd := c }] } := axis_onAxis_self ..

theorem waitAxis_only (n stamp : Nat) (c : MotionCmd) (s : State) : OnlyAxis n s (waitAxis n stamp c s) := onAxis_only _ _ _

/-- A command whose own rules make it wait for the next tick stands last of those that wait, and no other axis changes. -/
theorem answers_waits {i : Instr} {code : Nat} {body : State → Request → Nat → Reply} {c : MotionCmd}
    (hi : exec i s = .next (serve code body dt q s)) (h : Served code dt q s)
    (hb : body (atStamp code dt q s) q (stampOf code dt q s) = .ok (waitAxis n (stampOf code dt q s) c (atStamp code dt q s)) []) :
    Answers i code dt q s St.ok (fun u p => p = [] ∧ (∀ b, b ≠ n → u.axis b = s.axis b) ∧
      u.axis n = { s.axis n with waiting := (s.axis n).waiting ++ [{ stamp := stampOf code dt q s, cmd := c }] }) := by
  refine answers_ok hi h hb ⟨rfl, fun b hb => ?_, ?_⟩
  · rw [waitAxis_only _ _ _ _ b hb, axis_atStamp]
  · rw [waitAxis_axis, axis_atStamp]

/-! ### An axis at rest (R247) -/

theorem idleUnit_queue {p : ProfState} {rest : Int} {b : Bool} (h : idleUnit p rest b = true) : b = true := (Bool.and_eq_true_iff.mp h).1

theorem idleUnit_prof {p : ProfState} {rest : Int} {b : Bool} (h : idleUnit p rest b = true) : p = .idle ∨ p = .held := by
  obtain ⟨-, h⟩ := Bool.and_eq_true_iff.mp h
  exact (Bool.or_eq_true_iff.mp h).imp eq_of_beq fun h => eq_of_beq (Bool.and_eq_true_iff.mp h).1

/-- An axis that is not busy is at rest, and no command that makes it busy waits. -/
theorem free_of_busyAxis (h : busyAxis x t = false) :
    idleUnit x.prof x.remaining (x.queue == []) = true ∧ x.waiting.any (fun w => makesBusy w.cmd) = false := by
  obtain ⟨h, -⟩ := Bool.or_eq_false_iff.mp h
  obtain ⟨hrest, hwait⟩ := Bool.or_eq_false_iff.mp h
  exact ⟨(Bool.not_eq_false' ..).mp hrest, hwait⟩

/-- An axis that moves, or that has a command waiting, is not at rest for a queued move (R248, R277). -/
theorem notAtRest (h : x.prof = .moving ∨ x.prof = .stopping ∨ x.prof = .homing ∨ x.waiting ≠ []) :
    (idleUnit x.prof x.remaining (x.queue == []) && x.waiting == []) = false := by
  refine eq_false_of_ne_true fun hb => ?_
  obtain ⟨hrest, hwait⟩ := Bool.and_eq_true_iff.mp hb
  rcases idleUnit_prof hrest with hp | hp
  · simp [hp, eq_of_beq hwait] at h
  · simp [hp, eq_of_beq hwait] at h

/-- Where no command waits that makes busy, no move waits. -/
theorem movesAfterStop_free {l : List WaitingMotion} (h : l.any (fun w => makesBusy w.cmd) = false) : movesAfterStop l = [] := by
  induction l with
  | nil => rfl
  | cons w r ih =>
    obtain ⟨hw, hr⟩ := Bool.or_eq_false_iff.mp h
    unfold movesAfterStop
    split
    next m hc =>
      change makesBusy w.cmd = false at hw
      rw [hc] at hw
      cases hw
    next => exact ih hr

/-- A move of an axis that is not busy is measured from where the axis stands (R245). -/
theorem lastTarget_free (h : busyAxis (s.axis n) t = false) : lastTarget s n false = (s.axis n).kin.x := by
  obtain ⟨hrest, hwait⟩ := free_of_busyAxis h
  unfold lastTarget
  dsimp only
  rw [movesAfterStop_free hwait, eq_of_beq (idleUnit_queue hrest)]
  rfl

/-! ### MOVE_ABS and MOVE_REL -/

theorem modQ_atStamp (code dt : Nat) (q : Request) (s : State) (n : Nat) : modQ (atStamp code dt q s) n = modQ s n := by
  rw [modQ, par_atStamp, modQ]

/-- The move of a request, measured from `base` (R245). -/
def newMove (s : State) (n : Nat) (rel : Bool) (dir : Nat) (v base : Int) : QMove :=
  let mv : QMove := { target := if rel then wrapPos (modQ s n) (base + q48 v) else q48 v, delta := 0, rel := rel, dir := dir }
  { mv with delta := if rel then q48 v else moveDelta (modQ s n) mv base }

/-- The answer to a move whose checks pass (R247, R248, R252, R277). -/
def takeMove (s : State) (n f t : Nat) (mv : QMove) : Reply :=
  let x := s.axis n
  if busyAxis x t then
    if f % 2 = 0 then .err St.motionBusy []
    else if 8 ≤ queuedMoves x then .err St.queueFull []
    else if idleUnit x.prof x.remaining (x.queue == []) && x.waiting == [] then
      .ok (s.onAxis n (fun x => startQueued s n s.cyc.t0 { x with prof := .idle, queue := [mv] })) []
    else .ok (waitAxis n t (.move mv) s) []
  else if limitBlocks x mv.delta then .err St.limitActive []
  else .ok (waitAxis n t (.move mv) s) []

/-- A request whose fields name a move of an axis that takes one: enabled and on source 0. -/
structure MoveFits (s : State) (q : Request) (n f : Nat) (v : Int) : Prop where
  axis : uAt q.payload 0 1 = n
  has : n < axisCount s.board.variant
  flags : uAt q.payload 1 1 = f
  known : f < 8
  dir : f / 2 % 4 ≠ 3
  resv : uAt q.payload 2 6 = 0
  value : t48At q.payload 8 = some v
  enabled : (s.axis n).phase = .enabled
  source : (s.axis n).source = 0

theorem MoveFits.atStamp (h : MoveFits s q n f v) (code dt : Nat) : MoveFits (atStamp code dt q s) q n f v :=
  { h with has := by rw [atStamp_board]; exact h.has
           enabled := by rw [axis_atStamp]; exact h.enabled
           source := by rw [axis_atStamp]; exact h.source }

theorem moveBody_eq (h : MoveFits a q n f v) (mv : QMove) (hm : newMove a n rel (f / 2 % 4) v (lastTarget a n (busyAxis (a.axis n) t)) = mv)
    (hd : f / 2 % 4 = 0 ∨ (rel = false ∧ 0 < modQ a n))
    (hr : 0 < modQ a n → rel = true ∨ (0 ≤ q48 v ∧ q48 v < modQ a n)) (hl : modQ a n ≤ 0 → -posMax ≤ mv.target ∧ mv.target ≤ posMax) :
    moveBody rel a q t = takeMove a n f t mv := by
  obtain ⟨rfl, hn, rfl, h8, h3, hresv, hv, he, hs⟩ := h
  subst hm
  refine (axisArg_ok hn _).trans ((need_pos (decide_eq_true ⟨h8, h3, resv_of_eq hresv⟩) _).trans ?_)
  rw [hv]
  refine (need_pos (decide_eq_true hd) _).trans ((need_pos ?_ _).trans (orElse_pos ?_ _ _))
  · split
    next h => exact decide_eq_true (hr h)
    next h => exact decide_eq_true (hl (Int.not_lt.mp h))
  · rw [he, hs]
    rfl

/-! ### Which answer a move gets -/

theorem takeMove_free (h : busyAxis (s.axis n) t = false) (hl : limitBlocks (s.axis n) mv.delta = false) :
    takeMove s n f t mv = .ok (waitAxis n t (.move mv) s) [] :=
  (if_neg (ne_true_of_eq_false h)).trans (if_neg (ne_true_of_eq_false hl))

theorem takeMove_limit (h : busyAxis (s.axis n) t = false) (hl : limitBlocks (s.axis n) mv.delta = true) :
    takeMove s n f t mv = .err St.limitActive [] :=
  (if_neg (ne_true_of_eq_false h)).trans (if_pos hl)

theorem takeMove_busy (h : busyAxis (s.axis n) t = true) (hf : f % 2 = 0) : takeMove s n f t mv = .err St.motionBusy [] :=
  (if_pos h).trans (if_pos hf)

theorem takeMove_full (h : busyAxis (s.axis n) t = true) (hf : f % 2 = 1) (h8 : 8 ≤ queuedMoves (s.axis n)) :
    takeMove s n f t mv = .err St.queueFull [] :=
  (if_pos h).trans ((if_neg (by omega)).trans (if_pos h8))

theorem takeMove_queued (h : busyAxis (s.axis n) t = true) (hf : f % 2 = 1) (h8 : queuedMoves (s.axis n) < 8)
    (hx : (s.axis n).prof = .moving ∨ (s.axis n).prof = .stopping ∨ (s.axis n).prof = .homing ∨ (s.axis n).waiting ≠ []) :
    takeMove s n f t mv = .ok (waitAxis n t (.move mv) s) [] :=
  (if_pos h).trans ((if_neg (by omega)).trans ((if_neg (by omega)).trans (if_neg (ne_true_of_eq_false (notAtRest hx)))))

/-! ### The two commands -/

section abs
variable (hq : MoveFits s q n f v) (h : Served Cmd.moveAbs dt q s) (hd : f / 2 % 4 = 0 ∨ 0 < modQ s n)
  (hr : if 0 < modQ s n then 0 ≤ q48 v ∧ q48 v < modQ s n else -posMax ≤ q48 v ∧ q48 v ≤ posMax)
include hq hd hr

theorem moveAbsBody_eq (t : Nat) : moveBody false (atStamp Cmd.moveAbs dt q s) q t = takeMove (atStamp Cmd.moveAbs dt q s) n f t
    (newMove s n false (f / 2 % 4) v (lastTarget (atStamp Cmd.moveAbs dt q s) n (busyAxis (s.axis n) t))) := by
  refine moveBody_eq (hq.atStamp ..) _ ?_ ?_ ?_ ?_
  · rw [newMove, modQ_atStamp, axis_atStamp, newMove]
  · rw [modQ_atStamp]
    exact hd.imp_right fun h => ⟨rfl, h⟩
  · rw [modQ_atStamp]
    exact fun hm => .inr (by rwa [if_pos hm] at hr)
  · rw [modQ_atStamp]
    exact fun hm => by rwa [if_neg (Int.not_lt.mpr hm)] at hr

include h

theorem moveAbs_waits (hb : busyAxis (s.axis n) (stampOf Cmd.moveAbs dt q s) = false) (d : Int)
    (he : d = moveDelta (modQ s n) { target := q48 v, delta := 0, dir := f / 2 % 4 } (s.axis n).kin.x) (hl : limitBlocks (s.axis n) d = false) :
    Answers (.moveAbs dt q) Cmd.moveAbs dt q s St.ok (fun u p => p = [] ∧ (∀ b, b ≠ n → u.axis b = s.axis b) ∧
      u.axis n = { s.axis n with waiting := (s.axis n).waiting ++ [{ stamp := stampOf Cmd.moveAbs dt q s,
                                                                     cmd := .move { target := q48 v, delta := d, dir := f / 2 % 4 } }] }) := by
  subst he
  refine answers_waits (body := moveBody false) rfl h ((moveAbsBody_eq hq hd hr _).trans ?_)
  rw [hb, lastTarget_free (t := stampOf Cmd.moveAbs dt q s) (by rw [axis_atStamp]; exact hb), axis_atStamp]
  exact takeMove_free (by rw [axis_atStamp]; exact hb) (by rw [axis_atStamp]; exact hl)

theorem moveAbs_busy (hb : busyAxis (s.axis n) (stampOf Cmd.moveAbs dt q s) = true) (hf : f % 2 = 0) :
    Refuses (.moveAbs dt q) Cmd.moveAbs dt q s St.motionBusy :=
  refuses (body := moveBody false) rfl h ((moveAbsBody_eq hq hd hr _).trans (takeMove_busy (by rw [axis_atStamp]; exact hb) hf))

theorem moveAbs_full (hb : busyAxis (s.axis n) (stampOf Cmd.moveAbs dt q s) = true) (hf : f % 2 = 1) (h8 : 8 ≤ queuedMoves (s.axis n)) :
    Refuses (.moveAbs dt q) Cmd.moveAbs dt q s St.queueFull :=
  refuses (body := moveBody false) rfl h ((moveAbsBody_eq hq hd hr _).trans
    (takeMove_full (by rw [axis_atStamp]; exact hb) hf (by rw [axis_atStamp]; exact h8)))

theorem moveAbs_queued (hb : busyAxis (s.axis n) (stampOf Cmd.moveAbs dt q s) = true) (hf : f % 2 = 1) (h8 : queuedMoves (s.axis n) < 8)
    (hx : (s.axis n).prof = .moving ∨ (s.axis n).prof = .stopping ∨ (s.axis n).prof = .homing ∨ (s.axis n).waiting ≠ []) :
    Answers (.moveAbs dt q) Cmd.moveAbs dt q s St.ok (fun u p => p = [] ∧ (∀ b, b ≠ n → u.axis b = s.axis b) ∧ ∃ d,
      u.axis n = { s.axis n with waiting := (s.axis n).waiting ++ [{ stamp := stampOf Cmd.moveAbs dt q s,
                                                                     cmd := .move { target := q48 v, delta := d, dir := f / 2 % 4 } }] }) :=
  (answers_waits (body := moveBody false) rfl h ((moveAbsBody_eq hq hd hr _).trans
    (takeMove_queued (by rw [axis_atStamp]; exact hb) hf (by rw [axis_atStamp]; exact h8) (by rw [axis_atStamp]; exact hx)))).imp
    fun _ _ ⟨hp, ho, hn⟩ => ⟨hp, ho, _, hn⟩

end abs

section rel
variable (hq : MoveFits s q n f v) (h : Served Cmd.moveRel dt q s) (hd : f / 2 % 4 = 0)
  (hb : busyAxis (s.axis n) (stampOf Cmd.moveRel dt q s) = false)
  (hr : modQ s n ≤ 0 → -posMax ≤ (s.axis n).kin.x + q48 v ∧ (s.axis n).kin.x + q48 v ≤ posMax)
include hq hd hb hr

theorem moveRelBody_eq : moveBody true (atStamp Cmd.moveRel dt q s) q (stampOf Cmd.moveRel dt q s) =
    takeMove (atStamp Cmd.moveRel dt q s) n f (stampOf Cmd.moveRel dt q s)
      { target := wrapPos (modQ s n) ((s.axis n).kin.x + q48 v), delta := q48 v, rel := true } := by
  refine moveBody_eq (hq.atStamp ..) _ ?_ (.inl hd) (fun _ => .inl rfl) ?_
  · rw [axis_atStamp, hb, lastTarget_free (t := stampOf Cmd.moveRel dt q s) (by rw [axis_atStamp]; exact hb), axis_atStamp, newMove, modQ_atStamp, hd]
    rfl
  · rw [modQ_atStamp]
    intro hm
    rw [wrapPos, if_pos hm]
    exact hr hm

include h

theorem moveRel_waits (hl : limitBlocks (s.axis n) (q48 v) = false) :
    Answers (.moveRel dt q) Cmd.moveRel dt q s St.ok (fun u p => p = [] ∧ (∀ b, b ≠ n → u.axis b = s.axis b) ∧
      u.axis n = { s.axis n with waiting := (s.axis n).waiting ++
        [{ stamp := stampOf Cmd.moveRel dt q s,
           cmd := .move { target := wrapPos (modQ s n) ((s.axis n).kin.x + q48 v), delta := q48 v, rel := true } }] }) :=
  answers_waits (body := moveBody true) rfl h ((moveRelBody_eq hq hd hb hr).trans
    (takeMove_free (by rw [axis_atStamp]; exact hb) (by rw [axis_atStamp]; exact hl)))

theorem moveRel_limit (hl : limitBlocks (s.axis n) (q48 v) = true) : Refuses (.moveRel dt q) Cmd.moveRel dt q s St.limitActive :=
  refuses (body := moveBody true) rfl h ((moveRelBody_eq hq hd hb hr).trans
    (takeMove_limit (by rw [axis_atStamp]; exact hb) (by rw [axis_atStamp]; exact hl)))

end rel

/-- Settles O26: behind the checks of its fields a move has one answer, which being busy, the queue flag and the limit switches decide. -/
theorem movesOfAnAxis : Obligations.MovesOfAnAxis := by
  intro s dt n f v q x m hp hn hf h8 h3 hresv hv he hs
  have hq : MoveFits s q n f v := ⟨hp, hn, hf, h8, h3, hresv, hv, he, hs⟩
  exact ⟨fun h hd hr => ⟨moveAbs_waits hq h hd hr, moveAbs_busy hq h hd hr, moveAbs_queued hq h hd hr, moveAbs_full hq h hd hr⟩,
    fun h hd hb hr => ⟨moveRel_waits hq h hd hb hr, moveRel_limit hq h hd hb hr⟩⟩

end Sys2Proof.Machine
end

