-- ==== Sys2Proof/Proofs/StopsAndHomes.lean ====
section
/-! STOP, HOLD, RESUME and HOME (R243, R254 to R256, R262, R264, R275): O27. -/

namespace Sys2Proof.Machine

variable {s a : State} {n t dt : Nat} {q : Request} {x : Axis}

theorem group_of_groups {s t : State} (h : t.groups = s.groups) (g : Nat) : t.group g = s.group g := by rw [State.group, h, State.group]

@[simp] theorem group_advance (dt : Nat) (s : State) (g : Nat) : (advance dt s).group g = s.group g := group_of_groups (advance_groups ..) g

@[simp] theorem group_atStamp (code dt : Nat) (q : Request) (s : State) (g : Nat) : (atStamp code dt q s).group g = s.group g :=
  group_of_groups (atStamp_groups ..) g

theorem waitGroup_group (g stamp : Nat) (c : MotionCmd) (s : State) : (waitGroup g stamp c s).group g =
    { s.group g with waiting := (s.group g).waiting ++ [{ stamp := stamp, cmd := c }] } := group_onGroup_self ..

/-- A command of a group whose own rules make it wait for the next tick stands last of those that wait, and no axis changes. -/
theorem answers_groupWaits {i : Instr} {code : Nat} {body : State → Request → Nat → Reply} {c : MotionCmd}
    (hi : exec i s = .next (serve code body dt q s)) (h : Served code dt q s)
    (hb : body (atStamp code dt q s) q (stampOf code dt q s) = .ok (waitGroup n (stampOf code dt q s) c (atStamp code dt q s)) []) :
    Answers i code dt q s St.ok (fun u p => p = [] ∧ u.axes = s.axes ∧
      u.group n = { s.group n with waiting := (s.group n).waiting ++ [{ stamp := stampOf code dt q s, cmd := c }] }) := by
  refine answers_ok hi h hb ⟨rfl, atStamp_axes .., ?_⟩
  rw [waitGroup_group, group_atStamp]

/-! ### STOP and HOLD (R254, R255, R262, R275) -/

/-- An axis that follows no group is itself what a stop, a hold or a resume acts on (R262). -/
theorem actsOn_axis (h : actingGroup a n = none) : actsOn a (.axis n) = .axis n := by
  unfold actsOn
  dsimp only
  rw [h]

theorem stopBody_axis (hr : uAt q.payload 2 2 = 0) (hm : moverOf q.payload = some (.axis n)) (hn : n < axisCount a.board.variant)
    (hg : actingGroup a n = none) (t : Nat) : stopBody a q t = .ok (waitAxis n t .stop a) [] := by
  refine (withMover_axis hr hm hn _).trans ?_
  rw [actsOn_axis hg]

theorem stopBody_group (hr : uAt q.payload 2 2 = 0) (hm : moverOf q.payload = some (.group n)) (hg : (a.group n).members ≠ []) (t : Nat) :
    stopBody a q t = .ok (waitGroup n t .stop a) [] :=
  (withMover_group hr hm _).trans (if_neg hg)

theorem holdBody_axis (hr : uAt q.payload 2 2 = 0) (hm : moverOf q.payload = some (.axis n)) (hn : n < axisCount a.board.variant)
    (hg : actingGroup a n = none) (t : Nat) :
    holdBody a q t = if a.dev.mode = .safeHold then .ok a [] else .ok (waitAxis n t .hold a) [] := by
  refine (withMover_axis hr hm hn _).trans ?_
  rw [actsOn_axis hg]

section axis
variable (hr : uAt q.payload 2 2 = 0) (hm : moverOf q.payload = some (.axis n)) (hn : n < axisCount s.board.variant)
  (hg : actingGroup s n = none)
include hr hm hn hg

theorem stop_waits (h : Served Cmd.stop dt q s) : Answers (.stop dt q) Cmd.stop dt q s St.ok (fun u p => p = [] ∧
    u.axis n = { s.axis n with waiting := (s.axis n).waiting ++ [{ stamp := stampOf Cmd.stop dt q s, cmd := .stop }] } ∧
    ∀ b, b ≠ n → u.axis b = s.axis b) :=
  (answers_waits (body := stopBody) rfl h
    (stopBody_axis hr hm (by rwa [atStamp_board]) (by rwa [actingGroup_atStamp]) _)).imp fun _ _ ⟨hp, ho, hn⟩ => ⟨hp, hn, ho⟩

theorem hold_waits (h : Served Cmd.hold dt q s) (hs : s.dev.mode ≠ .safeHold) :
    Answers (.hold dt q) Cmd.hold dt q s St.ok (fun u p => p = [] ∧
      u.axis n = { s.axis n with waiting := (s.axis n).waiting ++ [{ stamp := stampOf Cmd.hold dt q s, cmd := .hold }] } ∧
      ∀ b, b ≠ n → u.axis b = s.axis b) :=
  (answers_waits (body := holdBody) rfl h ((holdBody_axis hr hm (by rwa [atStamp_board]) (by rwa [actingGroup_atStamp]) _).trans
    (if_neg (by rwa [atStamp_dev])))).imp fun _ _ ⟨hp, ho, hn⟩ => ⟨hp, hn, ho⟩

/-- In SAFE_HOLD a HOLD has no effect (R243). -/
theorem hold_idles (h : Served Cmd.hold dt q s) (hs : s.dev.mode = .safeHold) :
    Answers (.hold dt q) Cmd.hold dt q s St.ok (fun u p => p = [] ∧ u = atStamp Cmd.hold dt q s) :=
  answers_ok (body := holdBody) rfl h ((holdBody_axis hr hm (by rwa [atStamp_board]) (by rwa [actingGroup_atStamp]) _).trans
    (if_pos (by rwa [atStamp_dev]))) ⟨rfl, rfl⟩

/-! ### RESUME (R252, R256) -/

omit hn hg in
/-- RESUME of an enabled axis that is held with a distance left and with nothing that waits. -/
theorem resumeBody_held (hn : n < axisCount a.board.variant) (hg : actingGroup a n = none) (he : (a.axis n).phase = .enabled)
    (hp : (a.axis n).prof = .held) (hw : (a.axis n).waiting = []) (h0 : (a.axis n).remaining ≠ 0) (t : Nat) :
    resumeBody a q t = if limitBlocks (a.axis n) (a.axis n).remaining then .err St.limitActive [] else .ok (waitAxis n t .resume a) [] := by
  have hbusy : idleUnit (a.axis n).prof (a.axis n).remaining ((a.axis n).queue == []) = false := by
    rw [hp, idleUnit, beq_eq_false_iff_ne.mpr h0]
    exact Bool.and_false _
  refine (withMover_axis hr hm hn _).trans ?_
  rw [actsOn_axis hg]
  refine (orElse_pos (by rw [he]; rfl) _ _).trans ((if_neg (ne_true_of_eq_false hbusy)).trans ((if_pos ⟨hp, by rw [hw]; rfl⟩).trans ?_))
  rw [if_pos h0]

section held
variable (he : (s.axis n).phase = .enabled) (hp : (s.axis n).prof = .held) (hw : (s.axis n).waiting = []) (h0 : (s.axis n).remaining ≠ 0)
include he hp hw h0

theorem resumeBody_atStamp : resumeBody (atStamp Cmd.resume dt q s) q (stampOf Cmd.resume dt q s) =
    if limitBlocks (s.axis n) (s.axis n).remaining then .err St.limitActive []
    else .ok (waitAxis n (stampOf Cmd.resume dt q s) .resume (atStamp Cmd.resume dt q s)) [] := by
  have hb := resumeBody_held (a := atStamp Cmd.resume dt q s) hr hm (by rwa [atStamp_board]) (by rwa [actingGroup_atStamp])
    (by rwa [axis_atStamp]) (by rwa [axis_atStamp]) (by rwa [axis_atStamp]) (by rwa [axis_atStamp]) (stampOf Cmd.resume dt q s)
  rwa [axis_atStamp] at hb

theorem resume_waits (h : Served Cmd.resume dt q s) (hl : limitBlocks (s.axis n) (s.axis n).remaining = false) :
    Answers (.resume dt q) Cmd.resume dt q s St.ok (fun u p => p = [] ∧
      u.axis n = { s.axis n with waiting := [{ stamp := stampOf Cmd.resume dt q s, cmd := .resume }] } ∧
      ∀ b, b ≠ n → u.axis b = s.axis b) := by
  refine (answers_waits (body := resumeBody) rfl h ((resumeBody_atStamp hr hm hn hg he hp hw h0).trans
    (if_neg (ne_true_of_eq_false hl)))).imp fun _ _ ⟨hp, ho, hx⟩ => ⟨hp, ?_, ho⟩
  rw [hx, hw, List.nil_append]

theorem resume_limit (h : Served Cmd.resume dt q s) (hl : limitBlocks (s.axis n) (s.axis n).remaining = true) :
    Refuses (.resume dt q) Cmd.resume dt q s St.limitActive :=
  refuses (body := resumeBody) rfl h ((resumeBody_atStamp hr hm hn hg he hp hw h0).trans (if_pos hl))

end held
end axis

theorem stopGroup_waits (h : Served Cmd.stop dt q s) (hr : uAt q.payload 2 2 = 0) (hm : moverOf q.payload = some (.group n))
    (hg : (s.group n).members ≠ []) : Answers (.stop dt q) Cmd.stop dt q s St.ok (fun u p => p = [] ∧ u.axes = s.axes ∧
      u.group n = { s.group n with waiting := (s.group n).waiting ++ [{ stamp := stampOf Cmd.stop dt q s, cmd := .stop }] }) :=
  answers_groupWaits (body := stopBody) rfl h (stopBody_group hr hm (by rwa [group_atStamp]) _)

/-! ### HOME (R246, R247, R264) -/

theorem parPromote_axis (s : State) (sel : Nat → Nat → Bool) (e : Eff) (b : Nat) : (parPromote s sel e).axis b = s.axis b := rfl

/-- HOME of an enabled axis on source 0 that is not busy, in a mode that the part and the feedback of the axis have. -/
theorem homeBody_waits {h0 : State} (hh : h0 = parPromote a (fun _ i => i == n) .home) (hp : uAt q.payload 0 1 = n)
    (hn : n < axisCount a.board.variant) (hr : uAt q.payload 1 3 = 0)
    (hl : hasLocal a.board.variant = true ∨ parN h0 Par.homeMode n = 4)
    (hm : (parN h0 Par.homeMode n ≠ 2 ∧ parN h0 Par.homeMode n ≠ 3) ∨ hasLocalEnc h0 n = true) (he : (a.axis n).phase = .enabled)
    (hs : (a.axis n).source = 0) (hb : busyAxis (a.axis n) t = false) :
    homeBody a q t = .pend (addPend (waitAxis n t .home h0) Cmd.home q n) := by
  subst hh hp
  refine (axisArg_ok hn _).trans ((need_pos (resv_of_eq hr) _).trans ((orElse_pos ?_ _ _).trans ((need_pos (decide_eq_true hm) _).trans
    ((orElse_pos ?_ _ _).trans (orElse_pos ?_ _ _)))))
  · exact Bool.or_eq_true_iff.mpr (hl.imp id beq_iff_eq.mpr)
  · rw [he, hs]
    rfl
  · rw [hb]
    rfl

theorem home_waits {h0 : State} (hh : h0 = parPromote (atStamp Cmd.home dt q s) (fun _ i => i == n) .home) (h : Served Cmd.home dt q s)
    (hp : uAt q.payload 0 1 = n) (hn : n < axisCount s.board.variant) (hr : uAt q.payload 1 3 = 0)
    (hl : hasLocal s.board.variant = true ∨ parN h0 Par.homeMode n = 4)
    (hm : (parN h0 Par.homeMode n ≠ 2 ∧ parN h0 Par.homeMode n ≠ 3) ∨ hasLocalEnc h0 n = true) (he : (s.axis n).phase = .enabled)
    (hs : (s.axis n).source = 0) (hb : busyAxis (s.axis n) (stampOf Cmd.home dt q s) = false) :
    Answers (.home dt q) Cmd.home dt q s St.pend (fun u p => p = [] ∧ isPending u Cmd.home n = true ∧
      u.axis n = { s.axis n with waiting := (s.axis n).waiting ++ [{ stamp := stampOf Cmd.home dt q s, cmd := .home }] } ∧
      ∀ b, b ≠ n → u.axis b = s.axis b) := by
  refine answers_pend (body := homeBody) rfl h (homeBody_waits hh hp (by rwa [atStamp_board]) hr (by rwa [atStamp_board]) hm
    (by rwa [axis_atStamp]) (by rwa [axis_atStamp]) (by rwa [axis_atStamp])) ⟨rfl, isPending_addPend .., ?_, fun b hb => ?_⟩
  · rw [addPend_axis, waitAxis_axis, hh, parPromote_axis, axis_atStamp]
  · rw [addPend_axis, waitAxis_only _ _ _ _ b hb, hh, parPromote_axis, axis_atStamp]

/-- Settles O27: behind the checks of its fields each command waits on the axis or the group that it acts on. -/
theorem stopHoldResumeHome : Obligations.StopHoldResumeHome := by
  intro s dt n q x g h0 mode
  exact ⟨fun h hr hm hn hg => stop_waits hr hm hn hg h, stopGroup_waits,
    fun h hr hm hn hg => ⟨hold_waits hr hm hn hg h, hold_idles hr hm hn hg h⟩,
    fun h hr hm hn hg he hp hw h0 => ⟨resume_waits hr hm hn hg he hp hw h0 h, resume_limit hr hm hn hg he hp hw h0 h⟩,
    home_waits rfl⟩

end Sys2Proof.Machine
end

