-- ==== Sys2Proof/Proofs/GroupTargets.lean ====
section
/-! A group move behind a move without targets (R248, R261): O28. -/

namespace Sys2Proof.Machine

/-- A group of axis 0 that stands held with nothing left of a move that names no target. -/
def targetless : Group := { members := [0], prof := .held, move := some { lim := {}, targets := [], deltas := [] } }
/-- A device in OPERATIONAL whose group 0 it is; axis 0 is enabled and follows the group. -/
def heldTargetless : State :=
  { dev := { mode := .operational, mbReady := true }, axes := [(0, { phase := .enabled, source := 1 })], groups := [(0, targetless)] }
/-- GROUP_MOVE of group 0 with path limits of 2^-24 and the target 0 for its one member. -/
def moveToZero : Request := { mb := 1, tag := 0, payload := zeros 8 ++ [1, 1, 1, 1, 0].flatMap (sleBytes 8) }
/-- The limits of that path. -/
def smallLimits : Limits := { v := q48 1, a := q48 1, d := q48 1, j := q48 1 }

/-- The targets of the group moves that wait. -/
def Group.waitingTargets (g : Group) : List (List Int) :=
  g.waiting.filterMap (fun w => match w.cmd with | .groupMove m => some m.targets | _ => none)

theorem moveToZero_served : Served Cmd.groupMove 0 moveToZero heldTargetless := ⟨by decide +kernel, by decide +kernel, by decide +kernel⟩

/-- Each member's value is measured from the targets of the move before, of which there are none: the move that waits has no target. -/
theorem groupMove_targetless : ∃ t, exec (.groupMove 0 moveToZero) heldTargetless = .next t ∧ (t.group 0).waitingTargets = [[]] :=
  ⟨_, rfl, by decide +kernel⟩

/-- The one member of the group has its value in the request and takes the path. -/
theorem moveToZero_fits (i b : Nat) (h : (heldTargetless.group 0).members[i]? = some b) : ∃ v, t48At moveToZero.payload (40 + 8 * i) = some v ∧
    (heldTargetless.axis b).phase = .enabled ∧ (heldTargetless.axis b).source = 1 ∧ (heldTargetless.axis b).limPos.qualified = false ∧
    (heldTargetless.axis b).limNeg.qualified = false ∧
    (if 0 < modQ heldTargetless b then 0 ≤ q48 v ∧ q48 v < modQ heldTargetless b else -posMax ≤ q48 v ∧ q48 v ≤ posMax) := by
  change [0][i]? = some b at h
  match i, h with
  | 0, h =>
    obtain rfl := Option.some.inj h
    exact ⟨0, by decide +kernel⟩

theorem respond_group (s : State) (code : Nat) (q : Request) (status stamp : Nat) (p : Bytes) (g : Nat) :
    (respond s code q status stamp p).group g = s.group g := by
  obtain ⟨_, _, e, -⟩ := respond_frame s code q status stamp p
  rw [e]
  rfl

/-- Refutes O28: a group that stands held with nothing left measures its next move from the targets of its last one. In `heldTargetless` that
one has no targets, so the move that waits has none either, though the request gives one. The clause speaks of every state, also of one that
no run may reach. -/
theorem not_groupCommands : ¬ Obligations.GroupCommands := by
  intro h
  obtain ⟨-, hmove, -⟩ := h heldTargetless 0 0 0 smallLimits moveToZero
  obtain ⟨u, p, hu, -, -, m, hwaits, -, -, htargets⟩ := hmove moveToZero_served (by decide +kernel) (by decide) (by decide +kernel) (by decide)
    (by decide +kernel) (by decide) (by decide +kernel) moveToZero_fits rfl (by decide +kernel)
  obtain ⟨t, ht, hnone⟩ := groupMove_targetless
  rw [← Host.Outcome.next.inj (hu.symm.trans ht), respond_group, hwaits] at hnone
  obtain ⟨v, -, hv⟩ := htargets 0 0 rfl
  rw [List.singleton_inj.mp (hnone : [m.targets] = [[]])] at hv
  cases hv

end Sys2Proof.Machine
end

