-- ==== Sys2Proof/Proofs/MotionEvents.lean ====
section
/-! The ends of moves and homings, qualified switches, and steppers at standstill (R238, R239, R250, R261, R264 to R272, R277): O29. -/

namespace Sys2Proof.Machine

variable {s a : State} {n t dt now : Nat} {x : Axis} {m : QMove} {rest : List QMove} {later : List WaitingMotion} {sw : Switch} {h : Homing}

theorem modQ_advance (dt : Nat) (s : State) (n : Nat) : modQ (advance dt s) n = modQ s n := by rw [modQ, par_advance, modQ]

/-! ### The next move of the queue (R238, R248, R252, R272) -/

theorem startQueued_nil (hq : x.queue = []) : startQueued s n t x = x := by
  unfold startQueued
  rw [hq]

/-- Away from its qualified limits an axis that is no stepper starts its next queued move at once. -/
theorem startQueued_cons (hq : x.queue = m :: rest) (hl : limitBlocks x (moveDelta (modQ s n) m x.kin.x) = false)
    (h6 : par s Par.axisMode n ≠ 6) : startQueued s n t x =
      startMove (modQ s n) (axisLimits s n) t m { x with queue := rest, coil := .running, stillSince := none } := by
  have hw : needsWake s n { x with queue := rest } = false := by
    rw [needsWake, beq_eq_false_iff_ne.mpr h6, Bool.false_and]
  unfold startQueued
  rw [hq]
  refine (if_neg (ne_true_of_eq_false hl)).trans ?_
  unfold beginMove
  exact if_neg (ne_true_of_eq_false hw)

/-- An axis none of whose limits is qualified active may move either way (R252). -/
theorem limitBlocks_free (h : x.limPos.qualified = false ∧ x.limNeg.qualified = false) (d : Int) : limitBlocks x d = false := by
  obtain ⟨hpos, hneg⟩ := h
  rw [limitBlocks, hpos, hneg, Bool.and_false, Bool.and_false]
  rfl

/-! ### The end of a move (R239, R277) -/

theorem joinQueue_other (hw : ∀ w, x.waiting.head? = some w → w.stamp ≠ now) : joinQueue now x = x := by
  unfold joinQueue
  split
  next w r e =>
    split
    · exact if_neg (hw w (by rw [e]; rfl))
    · rfl
  · rfl

theorem joinQueue_move (hq : x.queue = []) (hw : x.waiting = { stamp := now, cmd := .move m } :: later) :
    joinQueue now x = { x with queue := [m], waiting := later } := by
  unfold joinQueue
  rw [hw, hq]
  exact if_pos rfl

/-- The axis stands at the target of its move, idle from this tick. -/
def atTarget (s : State) (n : Nat) (pos : Int) (x : Axis) : Axis :=
  { standStill (modQ s n) x pos .idle 0 with attended := false, idleAt := some (s.cyc.t0 / nsU) }

/-- A move that ends, with what starts behind it. -/
def moveEnded (a : State) (n : Nat) : State :=
  a.onAxis n (fun x => startQueued a n a.cyc.t0 (atTarget a n x.target (joinQueue (a.cyc.t0 / nsU) x)))

theorem moveEnded_idle (hq : (a.axis n).queue = []) (hw : ∀ w, (a.axis n).waiting.head? = some w → w.stamp ≠ a.cyc.t0 / nsU) :
    (moveEnded a n).axis n = atTarget a n (a.axis n).target (a.axis n) := by
  rw [moveEnded, axis_onAxis_self, joinQueue_other hw]
  exact startQueued_nil hq

/-- The first move of the queue that the tick finds starts from the target of the last one. -/
theorem moveEnded_starts {y : Axis} (hj : joinQueue (a.cyc.t0 / nsU) (a.axis n) = y) (hq : y.queue = m :: rest)
    (hl : y.limPos.qualified = false ∧ y.limNeg.qualified = false) (h6 : par a Par.axisMode n ≠ 6) :
    ((moveEnded a n).axis n).prof = .moving ∧ ((moveEnded a n).axis n).queue = rest ∧ ((moveEnded a n).axis n).waiting = y.waiting ∧
      ((moveEnded a n).axis n).kin.x = wrapPos (modQ a n) (a.axis n).target := by
  rw [moveEnded, axis_onAxis_self, hj, startQueued_cons (x := atTarget a n (a.axis n).target y) hq (limitBlocks_free hl _) h6]
  exact ⟨rfl, rfl, rfl, rfl⟩

theorem moveEnded_others (dt : Nat) (s : State) (n b : Nat) (hb : b ≠ n) : (moveEnded (advance dt s) n).axis b = s.axis b := by
  rw [moveEnded, axis_onAxis_other _ _ _ _ hb, axis_advance]

section move
variable (hp : (s.axis n).prof = .moving) (hk : (s.axis n).wakeMove = none) (he : planEnd (s.axis n).segs 0 ≤ s.cyc.t0)
include hp hk he

theorem moveComplete_eq (dt : Nat) : exec (.moveComplete dt (.axis n)) s = .next (moveEnded (advance dt s) n) :=
  if_pos (by rw [axis_advance, advance_cyc]; exact ⟨hp, hk, he⟩)

theorem moveComplete_idle (hq : (s.axis n).queue = []) (hw : ∀ w, (s.axis n).waiting.head? = some w → w.stamp ≠ s.cyc.t0 / nsU) :
    Runs (.moveComplete dt (.axis n)) s (fun t => (t.axis n).prof = .idle ∧ (t.axis n).idleAt = some (s.cyc.t0 / nsU) ∧
      (t.axis n).kin = { x := wrapPos (modQ s n) (s.axis n).target } ∧ (t.axis n).segs = [] ∧ ∀ b, b ≠ n → t.axis b = s.axis b) := by
  have hx := moveEnded_idle (a := advance dt s) (n := n) (by rwa [axis_advance]) (by rwa [axis_advance, advance_cyc])
  refine ⟨_, moveComplete_eq hp hk he dt, ?_⟩
  beta_reduce
  rw [hx, axis_advance, atTarget, modQ_advance, advance_cyc]
  exact ⟨rfl, rfl, rfl, rfl, moveEnded_others dt s n⟩

section starts
variable (hl : (s.axis n).limPos.qualified = false ∧ (s.axis n).limNeg.qualified = false) (h6 : par s Par.axisMode n ≠ 6)
include hl h6

theorem moveComplete_queued (hq : (s.axis n).queue = m :: rest)
    (hw : ∀ w, (s.axis n).waiting.head? = some w → w.stamp ≠ s.cyc.t0 / nsU) :
    Runs (.moveComplete dt (.axis n)) s (fun t => (t.axis n).prof = .moving ∧ (t.axis n).queue = rest ∧
      (t.axis n).kin.x = wrapPos (modQ s n) (s.axis n).target ∧ ∀ b, b ≠ n → t.axis b = s.axis b) := by
  obtain ⟨hprof, hqueue, -, hkin⟩ := moveEnded_starts (a := advance dt s) (n := n) (y := s.axis n)
    (by rw [axis_advance, advance_cyc, joinQueue_other hw]) hq hl (by rwa [par_advance])
  rw [modQ_advance, axis_advance] at hkin
  exact ⟨_, moveComplete_eq hp hk he dt, hprof, hqueue, hkin, moveEnded_others dt s n⟩

theorem moveComplete_joined (hq : (s.axis n).queue = []) (hw : (s.axis n).waiting = { stamp := s.cyc.t0 / nsU, cmd := .move m } :: later) :
    Runs (.moveComplete dt (.axis n)) s (fun t => (t.axis n).prof = .moving ∧ (t.axis n).queue = [] ∧ (t.axis n).waiting = later ∧
      (t.axis n).kin.x = wrapPos (modQ s n) (s.axis n).target ∧ ∀ b, b ≠ n → t.axis b = s.axis b) := by
  obtain ⟨hprof, hqueue, hwait, hkin⟩ := moveEnded_starts (a := advance dt s) (n := n) (y := { s.axis n with queue := [m], waiting := later })
    (by rw [axis_advance, advance_cyc, joinQueue_move hq hw]) rfl hl (by rwa [par_advance])
  rw [modQ_advance, axis_advance] at hkin
  exact ⟨_, moveComplete_eq hp hk he dt, hprof, hqueue, hwait, hkin, moveEnded_others dt s n⟩

end starts
end move

/-! ### The end of a group's path (R261) -/

theorem foldl_groups {α : Type} (f : State → α → State) (h : ∀ s x, (f s x).groups = s.groups) (l : List α) (s : State) :
    (l.foldl f s).groups = s.groups :=
  List.foldlRecOn (motive := fun t => t.groups = s.groups) l f rfl fun t ht x _ => (h t x).trans ht

theorem followGroup_groups (s : State) (n : Nat) : (followGroup s n).groups = s.groups := by
  refine foldl_groups _ (fun t e => ?_) _ s
  dsimp only
  split
  · rfl
  · rfl

theorem joinGroupQueue_other {g : Group} (hw : ∀ w, g.waiting.head? = some w → w.stamp ≠ now) : joinGroupQueue now g = g := by
  unfold joinGroupQueue
  split
  next w r e =>
    split
    · exact if_neg (hw w (by rw [e]; rfl))
    · rfl
  · rfl

theorem startGroupQueued_nil (hq : (s.group n).queue = []) : startGroupQueued s n t = s := by
  unfold startGroupQueued
  dsimp only
  rw [hq]

/-- The group stands at the end of its path, idle from this tick. -/
def pathAtEnd (a : State) (n : Nat) : State :=
  a.onGroup n (fun g => { (joinGroupQueue (a.cyc.t0 / nsU) g) with
    prof := .idle, kin := { x := g.len }, segs := [], remaining := 0, idleAt := some (a.cyc.t0 / nsU) })

/-- The members stand at their ends of the path. -/
def pathEnded (a : State) (n : Nat) : State :=
  (a.group n).members.foldl (fun s b => s.onAxis b (fun x => { x with attended := false })) (followGroup (pathAtEnd a n) n)

theorem pathEnded_groups (a : State) (n : Nat) : (pathEnded a n).groups = (pathAtEnd a n).groups := by
  unfold pathEnded
  refine (foldl_groups _ ?_ _ _).trans (followGroup_groups ..)
  exact fun _ _ => rfl

theorem pathEnded_group (hw : ∀ w, (a.group n).waiting.head? = some w → w.stamp ≠ a.cyc.t0 / nsU) : (pathEnded a n).group n =
    { a.group n with prof := .idle, kin := { x := (a.group n).len }, segs := [], remaining := 0, idleAt := some (a.cyc.t0 / nsU) } := by
  rw [group_of_groups (pathEnded_groups a n), pathAtEnd, group_onGroup_self, joinGroupQueue_other hw]

theorem groupMoveComplete_idle (hp : (s.group n).prof = .moving) (hk : (s.group n).wake = none) (he : planEnd (s.group n).segs 0 ≤ s.cyc.t0)
    (hq : (s.group n).queue = []) (hw : ∀ w, (s.group n).waiting.head? = some w → w.stamp ≠ s.cyc.t0 / nsU) :
    Runs (.moveComplete dt (.group n)) s (fun t => (t.group n).prof = .idle ∧ (t.group n).kin.x = (s.group n).len) := by
  have hg := pathEnded_group (a := advance dt s) (n := n) (by rwa [group_advance, advance_cyc])
  rw [group_advance] at hg
  have hrun : exec (.moveComplete dt (.group n)) s =
      .next (startGroupQueued (pathEnded (advance dt s) n) n (advance dt s).cyc.t0) :=
    if_pos (by rw [group_advance, advance_cyc]; exact ⟨hp, hk, he⟩)
  rw [startGroupQueued_nil (by rw [hg]; exact hq)] at hrun
  refine ⟨_, hrun, ?_⟩
  beta_reduce
  rw [hg]
  exact ⟨rfl, rfl⟩

/-! ### The end of a homing (R264 to R269) -/

/-- A homing that ends without a reference stops, is not homed and is pending no more. -/
theorem endHoming_ends (s : State) (n status : Nat) (h : Homing) :
    ((endHoming s n status h).axis n).prof = .stopping ∧ ((endHoming s n status h).axis n).homing = none ∧
      ((endHoming s n status h).axis n).homed = false ∧ isPending (endHoming s n status h) Cmd.home n = false := by
  unfold endHoming
  rw [finish_axis, axis_onAxis_self]
  exact ⟨rfl, rfl, rfl, isPending_finish ..⟩

/-- The axis takes its reference at rest at `pos`: position and feedback shift by one amount (R268). -/
def atReference (m : Int) (h : Homing) (ref pos : Int) (x : Axis) : Axis :=
  let d := h.offset - ref
  let move := fun (v : Sample) => { v with x := wrapPos m (v.x + d) }
  { standStill m x (pos + d) .idle 0 with
    xfb := wrapPos m (x.xfb + d), shift := x.shift + d, fb := x.fb.map move, fbPrev := x.fbPrev.map move,
    cmdLastX := x.cmdLastX + d, homing := none, homed := true, homeRef := ref, homeEdges := h.edges, attended := false }

/-- The state with the axis at its reference. -/
def referenced (a : State) (n : Nat) (h : Homing) (ref : Int) : State :=
  a.onAxis n (atReference (modQ a n) h ref (planLast (a.axis n).kin (a.axis n).segs).x)

theorem referenced_axis (dt : Nat) (s : State) (n : Nat) (h : Homing) (ref : Int) : (referenced (advance dt s) n h ref).axis n =
    atReference (modQ s n) h ref (planLast (s.axis n).kin (s.axis n).segs).x (s.axis n) := by
  rw [referenced, axis_onAxis_self, axis_advance, modQ_advance]

/-- A homing that has found its reference: too many edges end it, else it takes the reference at standstill (R267, R268). -/
def referenceShift (a : State) (n : Nat) (h : Homing) (ref : Int) : State :=
  if h.chatterMax < h.edges then endHoming a n St.homingChatter h
  else if planEnd (a.axis n).segs 0 ≤ a.cyc.t0 then
    (finish (referenced a n h ref) Cmd.home n St.ok (t48 (t24 ref))).onAxis n (fun x => startQueued (referenced a n h ref) n a.cyc.t0 x)
  else a

section homing
variable (hp : (s.axis n).prof = .homing) (hh : (s.axis n).homing = some h)
include hp hh

section found
variable {ref : Int} (hs : h.phase = .stopFound) (hf : h.found = some ref)
include hs hf

theorem homingReferenceShift_eq (dt : Nat) : exec (.homingReferenceShift dt n) s = .next (referenceShift (advance dt s) n h ref) := by
  rw [← axis_advance dt] at hp hh
  show execHomingReferenceShift dt n s = _
  unfold execHomingReferenceShift referenceShift
  generalize advance dt s = a at hp hh ⊢
  dsimp only
  rw [hp, hh]
  dsimp only
  rw [hs, hf]
  dsimp only
  split
  · rfl
  · split
    · rfl
    · rfl

theorem homingReferenceShift_homes (he : planEnd (s.axis n).segs 0 ≤ s.cyc.t0) (hc : h.edges ≤ h.chatterMax) (hq : (s.axis n).queue = []) :
    Runs (.homingReferenceShift dt n) s (fun t => (t.axis n).homed = true ∧ (t.axis n).prof = .idle ∧ (t.axis n).homing = none ∧
      isPending t Cmd.home n = false ∧
      (t.axis n).kin = { x := wrapPos (modQ s n) ((planLast (s.axis n).kin (s.axis n).segs).x + (h.offset - ref)) } ∧
      (t.axis n).xfb = wrapPos (modQ s n) ((s.axis n).xfb + (h.offset - ref))) := by
  have hrun := homingReferenceShift_eq hp hh hs hf dt
  rw [referenceShift, if_neg (Nat.not_lt.mpr hc), if_pos (by rwa [axis_advance, advance_cyc])] at hrun
  have hpend := isPending_finish (referenced (advance dt s) n h ref) Cmd.home n St.ok (t48 (t24 ref))
  have hq' : ((referenced (advance dt s) n h ref).axis n).queue = [] := by
    rw [referenced_axis]
    exact hq
  refine ⟨_, hrun, ?_⟩
  beta_reduce
  rw [axis_onAxis_self, finish_axis, startQueued_nil hq', referenced_axis]
  exact ⟨rfl, rfl, rfl, hpend, rfl, rfl⟩

theorem homingReferenceShift_chatters (hc : h.chatterMax < h.edges) :
    Runs (.homingReferenceShift dt n) s (fun t => (t.axis n).homed = false ∧ (t.axis n).prof = .stopping ∧ (t.axis n).homing = none ∧
      isPending t Cmd.home n = false) := by
  obtain ⟨hprof, hhoming, hhomed, hpend⟩ := endHoming_ends (advance dt s) n St.homingChatter h
  exact ⟨_, (homingReferenceShift_eq hp hh hs hf dt).trans (congrArg _ (if_pos hc)), hhomed, hprof, hhoming, hpend⟩

end found

theorem homingNotFound_ends (hl : legMoves h = true) (h0 : h.distMax ≠ 0) (hd : h.distMax.natAbs ≤ ((s.axis n).kin.x - h.legStart).natAbs) :
    Runs (.homingNotFound dt n) s (fun t => (t.axis n).prof = .stopping ∧ (t.axis n).homing = none ∧ (t.axis n).homed = false ∧
      isPending t Cmd.home n = false) := by
  refine ⟨_, ?_, endHoming_ends (advance dt s) n St.homingNotFound h⟩
  show execHomingNotFound dt n s = _
  unfold execHomingNotFound
  dsimp only
  rw [axis_advance, hh]
  exact if_pos ⟨hp, hl, h0, hd⟩

theorem homingChatter_ends (hc : h.chatterMax < h.edges) :
    Runs (.homingChatter dt n) s (fun t => (t.axis n).prof = .stopping ∧ (t.axis n).homing = none ∧ (t.axis n).homed = false ∧
      isPending t Cmd.home n = false) := by
  refine ⟨_, ?_, endHoming_ends (advance dt s) n St.homingChatter h⟩
  show execHomingChatter dt n s = _
  unfold execHomingChatter
  dsimp only
  rw [axis_advance, hh]
  exact if_pos ⟨hp, hc⟩

end homing

/-! ### Qualified switches (R250, R252, R264 to R267) -/

/-- The three switch inputs of an axis. -/
def Axis.switches (x : Axis) : SwitchSt × SwitchSt × SwitchSt := (x.limPos, x.limNeg, x.homeSw)

theorem switchOf_of_switches {y : Axis} (h : y.switches = x.switches) (sw : Switch) : switchOf y sw = switchOf x sw := by
  obtain ⟨hpos, h⟩ := Prod.mk.inj h
  obtain ⟨hneg, hhome⟩ := Prod.mk.inj h
  cases sw with
  | limPos => exact hpos
  | limNeg => exact hneg
  | home => exact hhome

theorem switchOf_putSwitch (x : Axis) (w : SwitchSt) (sw : Switch) : switchOf (putSwitch x w sw) sw = w := by cases sw <;> rfl

/-- No switch input of an axis differs. -/
structure SameSwitches (s t : State) : Prop where
  axis : ∀ b, (t.axis b).switches = (s.axis b).switches

theorem SameSwitches.refl (s : State) : SameSwitches s s := ⟨fun _ => rfl⟩

theorem SameSwitches.trans {s t u : State} (h : SameSwitches s t) (k : SameSwitches t u) : SameSwitches s u :=
  ⟨fun b => (k.axis b).trans (h.axis b)⟩

theorem sameSwitches_of_axis {s t : State} (h : ∀ b, t.axis b = s.axis b) : SameSwitches s t := ⟨fun b => congrArg _ (h b)⟩

theorem SameSwitches.onAxis {s t : State} {f : Axis → Axis} (k : SameSwitches s t) (h : ∀ x, (f x).switches = x.switches) :
    SameSwitches s (t.onAxis n f) := by
  refine ⟨fun b => ?_⟩
  by_cases hb : b = n
  · rw [hb, axis_onAxis_self, h, k.axis n]
  · rw [axis_onAxis_other _ _ _ _ hb, k.axis b]

theorem endHoming_sameSwitches (s : State) (n status : Nat) (h : Homing) : SameSwitches s (endHoming s n status h) := by
  unfold endHoming
  refine .trans ?_ (sameSwitches_of_axis fun _ => finish_axis ..)
  exact .onAxis (.refl s) fun _ => rfl

/-- What an edge does to a homing leaves the inputs. -/
theorem homingEdge_sameSwitches (s : State) (n : Nat) (sw : Switch) (w : SwitchSt) (h0 : Homing) : SameSwitches s (homingEdge s n sw w h0) := by
  unfold homingEdge
  dsimp only
  generalize (if (isLimit sw && w.qualified && !isReference h0 sw) = true then _ else h0) = h
  split
  · exact .refl s
  · split
    · split
      · split
        · exact .onAxis (.onAxis (.refl s) fun _ => rfl) fun _ => rfl
        · exact .onAxis (.onAxis (.refl s) fun _ => rfl) fun _ => rfl
      · exact .onAxis (.onAxis (.refl s) fun _ => rfl) fun _ => rfl
      · exact .onAxis (.refl s) fun _ => rfl
    · split
      · split
        · exact endHoming_sameSwitches ..
        · exact .onAxis (.refl s) fun _ => rfl
      · exact .refl s

/-- The stop at a limit leaves the inputs. -/
theorem limitStop_sameSwitches (s : State) (n : Nat) (v : Int) (sw : Switch) : SameSwitches s (limitStop s n v sw) := by
  have hw : SameSwitches s (raiseWarn s Ev.limitStop Kind.axis n) := sameSwitches_of_axis (raiseOnly_told ..).axis
  refine iteInduction (motive := SameSwitches s) (fun _ => ?_) fun _ => .refl s
  split
  · exact hw.trans (sameSwitches_of_axis fun _ => waitGroup_axis ..)
  · exact .onAxis hw fun _ => rfl

/-- The input takes its raw level as the qualified one. -/
def levelTaken (a : State) (n : Nat) (sw : Switch) : State :=
  a.onAxis n (fun x => putSwitch x { switchOf (a.axis n) sw with qualified := (switchOf (a.axis n) sw).raw } sw)

/-- What a qualified level leads to, in a homing or at a limit, leaves the level taken. -/
theorem switchQualified_levelTaken (hr : (switchOf (s.axis n) sw).raw ≠ (switchOf (s.axis n) sw).qualified)
    (ht : (switchOf (s.axis n) sw).edgeAt + parN s Par.swFilter n * 1000 * nsU ≤ (advance dt s).time.now) :
    Runs (.switchQualified dt n sw) s (SameSwitches (levelTaken (advance dt s) n sw)) := by
  have hc : (switchOf ((advance dt s).axis n) sw).raw ≠ (switchOf ((advance dt s).axis n) sw).qualified ∧
      (switchOf ((advance dt s).axis n) sw).edgeAt + parN (advance dt s) Par.swFilter n * 1000 * nsU ≤ (advance dt s).time.now := by
    rw [axis_advance, parN_advance]
    exact ⟨hr, ht⟩
  show ∃ t, execSwitchQualified dt n sw s = .next t ∧ SameSwitches _ t
  unfold execSwitchQualified
  dsimp only
  rw [if_pos hc]
  split
  · exact ⟨_, rfl, homingEdge_sameSwitches ..⟩
  · split
    · exact ⟨_, rfl, limitStop_sameSwitches ..⟩
    · exact ⟨_, rfl, .refl _⟩

theorem switchQualified_takes (hr : (switchOf (s.axis n) sw).raw ≠ (switchOf (s.axis n) sw).qualified)
    (ht : (switchOf (s.axis n) sw).edgeAt + parN s Par.swFilter n * 1000 * nsU ≤ (advance dt s).time.now) :
    Runs (.switchQualified dt n sw) s (fun t => (switchOf (t.axis n) sw).qualified = (switchOf (s.axis n) sw).raw) := by
  obtain ⟨t, hrun, hsame⟩ := switchQualified_levelTaken hr ht
  refine ⟨t, hrun, ?_⟩
  beta_reduce
  rw [switchOf_of_switches (hsame.axis n), levelTaken, axis_onAxis_self, switchOf_putSwitch, axis_advance]

theorem switchQualified_settled (hr : (switchOf (s.axis n) sw).raw = (switchOf (s.axis n) sw).qualified) :
    Runs (.switchQualified dt n sw) s (fun t => t = advance dt s) :=
  ⟨_, if_neg (by rw [axis_advance]; exact fun hc => hc.1 hr), rfl⟩

/-! ### Steppers at standstill (R271, R272) -/

theorem attendedNow_advance (dt : Nat) (s : State) (n : Nat) : attendedNow (advance dt s) n = attendedNow s n := by
  rw [attendedNow, axis_advance, par_advance, advance_dev, attendedNow]

/-- What the coils of a stepper at standstill go over to (R271). -/
def restCoil (s : State) (n : Nat) : Coil :=
  if attendedNow s n then .holdCurrent else if par s Par.stbyMode n = 0 then .off else .shorted

theorem restCoil_advance (dt : Nat) (s : State) (n : Nat) : restCoil (advance dt s) n = restCoil s n := by
  rw [restCoil, attendedNow_advance, par_advance, restCoil]

theorem holdDelayExpiry_rests {t0 : Nat} (hs : (s.axis n).stillSince = some t0) (h6 : par s Par.axisMode n = 6)
    (ht : t0 + parN s Par.holdDelay n * 1000000 * nsU ≤ (advance dt s).time.now) :
    Runs (.stepperHoldDelayExpiry dt n) s (fun t => ∃ c, t.axis n = { s.axis n with coil := c } ∧
      (attendedNow s n = true → c = .holdCurrent) ∧
      (attendedNow s n = false → c = if par s Par.stbyMode n = 0 then .off else .shorted)) := by
  have hrun : exec (.stepperHoldDelayExpiry dt n) s = .next ((advance dt s).onAxis n (fun x => { x with coil := restCoil (advance dt s) n })) := by
    show execStepperHoldDelayExpiry dt n s = _
    unfold execStepperHoldDelayExpiry
    dsimp only
    rw [axis_advance, hs, par_advance, parN_advance]
    exact if_pos ⟨h6, ht⟩
  refine ⟨_, hrun, restCoil s n, ?_, fun h => if_pos h, fun h => if_neg (ne_true_of_eq_false h)⟩
  rw [axis_onAxis_self, axis_advance, restCoil_advance]

theorem wakeDone_starts {t0 : Nat} (hw : (s.axis n).wake = some t0) (hm : (s.axis n).wakeMove = some m)
    (ht : t0 + parN s Par.wakeTime n * 1000000 * nsU ≤ (advance dt s).time.now) :
    Runs (.stepperWakeDone dt n) s (fun t => (t.axis n).prof = .moving ∧ (t.axis n).wake = none ∧ (t.axis n).wakeMove = none ∧
      (t.axis n).target = (s.axis n).kin.x + moveDelta (modQ s n) m (s.axis n).kin.x) := by
  have hrun : ∃ l start, exec (.stepperWakeDone dt n) s = .next ((advance dt s).onAxis n (fun x =>
      startMove (modQ s n) l start m { x with wake := none, wakeMove := none })) := by
    change ∃ l start, execStepperWakeDone dt n s = _
    unfold execStepperWakeDone
    dsimp only
    rw [axis_advance, hw, hm, parN_advance, modQ_advance]
    exact ⟨_, _, if_pos ht⟩
  obtain ⟨l, start, hrun⟩ := hrun
  refine ⟨_, hrun, ?_⟩
  beta_reduce
  rw [axis_onAxis_self, axis_advance]
  exact ⟨rfl, rfl, rfl, rfl⟩

/-- Settles O29: each row has one equation where its guard holds, and what follows on it keeps what the statement names. -/
theorem motionEvents : Obligations.MotionEvents := by
  intro s dt n t0 sw m rest later h ref a x now free w
  exact ⟨fun hp hk he => ⟨moveComplete_idle hp hk he, fun hq hw hl h6 => moveComplete_queued hp hk he hl h6 hq hw,
      fun hq hw hl h6 => moveComplete_joined hp hk he hl h6 hq hw⟩,
    groupMoveComplete_idle, switchQualified_takes, switchQualified_settled,
    fun hp hh => ⟨homingReferenceShift_homes hp hh, homingReferenceShift_chatters hp hh, homingNotFound_ends hp hh, homingChatter_ends hp hh⟩,
    holdDelayExpiry_rests, wakeDone_starts⟩

end Sys2Proof.Machine
end

