-- ==== Sys2Proof/Proofs/FlowPlaces.lean ====
section
/-! The placement of a flow (R297, R302, R303): O20. -/

namespace Sys2Proof.Machine

variable {s t u a : State} {f e g dt : Nat} {q : Request}

/-! ### What follows a placement leaves the plan in force and the flows -/

/-- Both states have the same active plan and the same flows. -/
structure SamePlaces (s t : State) : Prop where
  active : t.plan.active = s.plan.active
  flows : t.disp.flows = s.disp.flows

theorem SamePlaces.refl (s : State) : SamePlaces s s := ⟨rfl, rfl⟩

theorem SamePlaces.trans (h : SamePlaces s t) (k : SamePlaces t u) : SamePlaces s u := ⟨k.active.trans h.active, k.flows.trans h.flows⟩

theorem SamePlaces.flow (h : SamePlaces s t) (g : Nat) : t.flow g = s.flow g := congrArg (fun x : Table Flow => tget x {} g) h.flows

theorem Told.samePlaces (h : Told s t) : SamePlaces s t := by
  obtain ⟨_, _, _, rfl⟩ := h
  exact ⟨rfl, rfl⟩

theorem fillNext_samePlaces (s : State) (e : Nat) (k : PTask) : SamePlaces s (fillNext s e k) := by
  unfold fillNext
  dsimp only
  split <;> exact ⟨rfl, rfl⟩

theorem refill_samePlaces (s : State) : SamePlaces s (refill s) := by
  unfold refill
  refine SamePlaces.trans (List.foldlRecOn (motive := SamePlaces s) _ _ (.refl s) fun t ht e _ => ht.trans ?_) ⟨rfl, rfl⟩
  dsimp only
  generalize (if serves t e = true then candidate t e else none) = c
  have displaced : SamePlaces t (t.onEngine e (displace t.time.now)) := ⟨rfl, rfl⟩
  split
  · exact .refl t
  · split
    · exact displaced.trans (fillNext_samePlaces ..)
    · exact displaced

theorem noteUse_samePlaces (s : State) (use : Nat × Nat) (fresh : Bool) : SamePlaces s (noteUse s use fresh) := by
  have noted : SamePlaces s { s with plan := { s.plan with budgetUse := usePct use, marginLow := overMargin use } } := ⟨rfl, rfl⟩
  unfold noteUse
  dsimp only
  split
  · exact noted.trans (raiseOnly_told ..).samePlaces
  · exact noted

/-! ### The move of a flow (R297, R302) -/

theorem moveFlow_stays (h : (s.flow f).engine = some e) : moveFlow s f e = s := if_pos h

theorem moveFlow_atOnce (h : (s.flow f).engine ≠ some e) (hs : (s.flow f).service = none) (hf : flowSettled s f = true) :
    moveFlow s f e = s.onFlow f (fun x => { x with engine := some e, epoch := (x.epoch + 1) % 256 }) :=
  (if_neg h).trans (if_pos (by rw [hs, hf]; rfl))

theorem moveFlow_drains (h : (s.flow f).engine ≠ some e) (hb : (s.flow f).service ≠ none ∨ flowSettled s f = false) :
    moveFlow s f e = s.onFlow f (fun x => { x with drainTo := some e }) := by
  refine (if_neg h).trans (if_neg fun hc => ?_)
  obtain ⟨hs, hf⟩ := Bool.and_eq_true_iff.mp hc
  rcases hb with hb | hb
  · exact hb (Option.isNone_iff_eq_none.mp hs)
  · exact Bool.false_ne_true (hb.symm.trans hf)

theorem moveFlow_active (s : State) (f e : Nat) : (moveFlow s f e).plan.active = s.plan.active := by
  unfold moveFlow
  dsimp only
  split
  · rfl
  · split <;> rfl

theorem moveFlow_placed (s : State) (f e : Nat) : ((moveFlow s f e).flow f).placed = (s.flow f).placed := by
  unfold moveFlow
  dsimp only
  split
  · rfl
  · split <;> rw [onFlow_flow]

theorem moveFlow_other (s : State) (e : Nat) (h : g ≠ f) : (moveFlow s f e).flow g = s.flow g := by
  unfold moveFlow
  dsimp only
  split
  · rfl
  · split <;> exact onFlow_other _ h

/-! ### A placement that has passed its test -/

/-- The flow carries the mark of a placement away from its home engine. -/
def State.marked (s : State) (f e : Nat) : State := s.onFlow f (fun x => { x with placed := placedAway s f e })

theorem marked_flow (s : State) (f e : Nat) : (s.marked f e).flow f = { s.flow f with placed := placedAway s f e } := onFlow_flow ..

/-- The state after the placement: the flow is marked and moves, the new budget use is noted, and the next slots follow their candidates. -/
def State.placedAt (s : State) (f e : Nat) (use : Nat × Nat) : State := refill (noteUse (moveFlow (s.marked f e) f e) use false)

section placedAt
variable (s : State) (f e : Nat) (use : Nat × Nat)

theorem placedAt_samePlaces : SamePlaces (moveFlow (s.marked f e) f e) (s.placedAt f e use) := (noteUse_samePlaces ..).trans (refill_samePlaces _)

theorem placedAt_active : (s.placedAt f e use).plan.active = s.plan.active := (placedAt_samePlaces ..).active.trans (moveFlow_active ..)

theorem placedAt_placed : ((s.placedAt f e use).flow f).placed = placedAway s f e := by
  rw [(placedAt_samePlaces ..).flow, moveFlow_placed, marked_flow]

theorem placedAt_other (h : g ≠ f) : (s.placedAt f e use).flow g = s.flow g := by
  rw [(placedAt_samePlaces ..).flow, moveFlow_other _ _ h]
  exact onFlow_other _ h

theorem placedAt_stays (h : (s.flow f).engine = some e) : (s.placedAt f e use).flow f = { s.flow f with placed := placedAway s f e } := by
  rw [(placedAt_samePlaces ..).flow, moveFlow_stays (by rw [marked_flow, h]), marked_flow]

theorem placedAt_atOnce (h : (s.flow f).engine ≠ some e) (hs : (s.flow f).service = none) (hf : flowSettled s f = true) :
    (s.placedAt f e use).flow f =
      { s.flow f with placed := placedAway s f e, engine := some e, epoch := ((s.flow f).epoch + 1) % 256 } := by
  have hm : moveFlow (s.marked f e) f e = _ := moveFlow_atOnce (by rwa [marked_flow]) (by rwa [marked_flow]) hf
  rw [(placedAt_samePlaces ..).flow, hm, onFlow_flow, marked_flow]

theorem placedAt_drains (h : (s.flow f).engine ≠ some e) (hb : (s.flow f).service ≠ none ∨ flowSettled s f = false) :
    (s.placedAt f e use).flow f = { s.flow f with placed := placedAway s f e, drainTo := some e } := by
  have hm : moveFlow (s.marked f e) f e = _ := moveFlow_drains (by rwa [marked_flow]) (by rw [marked_flow]; exact hb)
  rw [(placedAt_samePlaces ..).flow, hm, onFlow_flow, marked_flow]

end placedAt

/-! ### FLOW_PLACE (R303) -/

theorem refusedBytes_length (r : Refused) : (refusedBytes r).length = 16 := by
  simp [refusedBytes, b8, b16, b32, leBytes_length]

section body
variable {t : Nat}

theorem flowPlaceBody_badParam (h : uAt q.payload 3 1 ≠ 0 ∨ pflow a.image (uAt q.payload 0 2) = none ∨
      bitOf (flowAffinity a.image (uAt q.payload 0 2)) (uAt q.payload 2 1) = false) : flowPlaceBody a q t = .err St.badParam [] := by
  refine need_neg (Bool.and_eq_false_iff.mpr ?_) _
  rcases h with h | h | h
  · exact .inl (Bool.and_eq_false_iff.mpr (.inl (beq_eq_false_iff_ne.mpr h)))
  · exact .inl (Bool.and_eq_false_iff.mpr (.inr (by rw [h]; rfl)))
  · exact .inr h

variable (hr : uAt q.payload 3 1 = 0) (hp : (pflow a.image (uAt q.payload 0 2)).isSome = true)
  (ha : bitOf (flowAffinity a.image (uAt q.payload 0 2)) (uAt q.payload 2 1) = true)
include hr hp ha

theorem flowPlace_fields : (resv q.payload 3 1 && (pflow a.image (uAt q.payload 0 2)).isSome &&
    bitOf (flowAffinity a.image (uAt q.payload 0 2)) (uAt q.payload 2 1)) = true := by
  rw [resv_of_eq hr, hp, ha]
  rfl

theorem flowPlaceBody_badState (h : serves a (uAt q.payload 2 1) = false ∨ (a.flow (uAt q.payload 0 2)).drainTo ≠ none) :
    flowPlaceBody a q t = .err St.badState [] := by
  refine (need_pos (flowPlace_fields hr hp ha) _).trans (orElse_neg (Bool.and_eq_false_iff.mpr (h.imp_right fun hd => ?_)) _ _)
  exact Bool.eq_false_iff.mpr fun hn => hd (Option.isNone_iff_eq_none.mp hn)

variable (hs : serves a (uAt q.payload 2 1) = true) (hd : (a.flow (uAt q.payload 0 2)).drainTo = none)
include hs hd

theorem flowPlaceBody_places {use : Nat × Nat} (ht : placeTest a (placesWith a (uAt q.payload 0 2) (uAt q.payload 2 1)) = .ok use) :
    flowPlaceBody a q t = .ok (a.placedAt (uAt q.payload 0 2) (uAt q.payload 2 1) use) [] := by
  refine (need_pos (flowPlace_fields hr hp ha) _).trans ((orElse_pos (by rw [hs, hd]; rfl) _ _).trans ?_)
  dsimp only
  rw [ht]
  rfl

theorem flowPlaceBody_refuses {r : Refused} (ht : placeTest a (placesWith a (uAt q.payload 0 2) (uAt q.payload 2 1)) = .error r) :
    flowPlaceBody a q t = .err St.planBudget (refusedBytes r) := by
  refine (need_pos (flowPlace_fields hr hp ha) _).trans ((orElse_pos (by rw [hs, hd]; rfl) _ _).trans ?_)
  dsimp only
  rw [ht]

end body

/-- Settles O20: behind its checks the command marks the flow and moves it, and what follows on that leaves the flows. -/
theorem flowPlacement : Obligations.FlowPlacement := by
  intro s dt g q use r u0 f e x
  refine ⟨fun h hr hp ha hs hd => ⟨fun ht => ?placed, fun ht => ?budget⟩, fun h hr hp ha hx => ?state, fun h hx => ?param⟩
  case placed =>
    refine answers_ok (body := flowPlaceBody) rfl h (flowPlaceBody_places hr hp ha hs hd ht)
      ⟨rfl, placedAt_active .., placedAt_placed .., placedAt_other _ _ _ _, fun he => ?_, fun he hn hf => ?_, fun he hb => ?_⟩
    · rw [placedAt_stays _ _ _ _ he]
      exact ⟨he, rfl, hd⟩
    · rw [placedAt_atOnce _ _ _ _ he hn hf]
      exact ⟨rfl, rfl, hd⟩
    · rw [placedAt_drains _ _ _ _ he hb]
      exact ⟨rfl, rfl, rfl⟩
  case budget => exact answers_err (body := flowPlaceBody) rfl h (flowPlaceBody_refuses hr hp ha hs hd ht) ⟨rfl, refusedBytes_length r⟩
  case state => exact refuses (body := flowPlaceBody) rfl h (flowPlaceBody_badState hr hp ha hx)
  case param => exact refuses (body := flowPlaceBody) rfl h (flowPlaceBody_badParam hx)

end Sys2Proof.Machine
end

