-- ==== Sys2Proof/Proofs/UnitReports.lean ====
section
/-! The reports of the units and the probe queue (R305 to R307, R435, R500, R557, R590, R617, R636, R679, R680): O22. -/

namespace Sys2Proof.Machine

variable {s a : State} {n dt : Nat} {q : Request}

/-! ### What a request's bookkeeping leaves of the units -/

section atStamp
variable (code dt : Nat) (q : Request) (s : State) (n : Nat)

theorem chan_atStamp : (atStamp code dt q s).chan n = s.chan n := by rw [State.chan, atStamp_dma, State.chan]
theorem fn_atStamp : (atStamp code dt q s).fn n = s.fn n := by rw [State.fn, atStamp_safe, State.fn]
theorem conn_atStamp : (atStamp code dt q s).conn n = s.conn n := by rw [State.conn, atStamp_safe, State.conn]
theorem probe_atStamp : (atStamp code dt q s).probe n = s.probe n := by rw [State.probe, atStamp_loc, State.probe]
theorem records_atStamp : (atStamp code dt q s).ev.records = s.ev.records := by
  obtain ⟨_, _, _, _, e⟩ := atStamp_frame code dt q s
  rw [e]

end atStamp

/-! ### Payloads -/

/-- A field stays where it is as the payload goes on. -/
theorem Field.append {p : Bytes} {o k v : Nat} (h : Field p o k v) (hl : o + k ≤ p.length) (r : Bytes) : Field (p ++ r) o k v := by
  have hs : slice (p ++ r) o k = slice p o k := by
    unfold slice
    rw [List.drop_append_of_le_length (by omega), List.take_append_of_le_length (by rw [List.length_drop]; omega)]
  unfold Field uAt at h ⊢
  rw [hs, h]

/-- Each number of the front of a payload is the field behind those before it. -/
theorem field_of_front {l : List (Nat × Nat)} {i k v : Nat} (h : l[i]? = some (k, v)) (r : Bytes) :
    Field (numbers l ++ r) ((l.take i).map Prod.fst).sum k v := by
  refine (field_of_numbers h).append ?_ r
  have hs : ((l.take (i + 1)).map Prod.fst).sum = ((l.take i).map Prod.fst).sum + k := by rw [List.take_add_one, h]; simp
  rw [numbers_length, ← hs, ← List.sum_take_add_sum_drop (l.map Prod.fst) (i + 1), List.map_take]
  exact Nat.le_add_right ..

/-- Each byte of the front of a payload is a field of its own. -/
theorem field_of_byte {l : List Nat} {i v : Nat} (h : l[i]? = some v) (r : Bytes) : Field (l.flatMap b8 ++ r) i 1 v := by
  have hf := field_of_front (l := l.map (1, ·)) (i := i) (k := 1) (v := v) (by rw [List.getElem?_map, h]; rfl) r
  obtain ⟨hi, -⟩ := List.getElem?_eq_some_iff.mp h
  have ho : (((l.map (1, ·)).take i).map Prod.fst).sum = i := by
    rw [← List.map_take, List.map_map]
    simp [Function.comp_def, Nat.min_eq_left hi.le]
  rwa [ho, numbers, List.flatMap_map] at hf

theorem slice_inside {b : Bytes} {o k : Nat} (h : o + k ≤ b.length) : slice b o k = (b.drop o).take k := by
  have hl : ((b.drop o).take k).length = k := by rw [List.length_take, List.length_drop]; omega
  unfold slice
  dsimp only
  rw [hl, Nat.sub_self, List.replicate_zero, List.append_nil]

theorem evBytes_length (x : EvRec) : (evBytes x).length = 32 := by
  simp [evBytes, timeBytes, b8, b16, b32, leBytes_length, slice_length]

/-! ### A report's own checks -/

theorem inst_pos {full have_ : Nat} (hf : n < full) (hh : n < have_) (r : Reply) : inst n full have_ r = r :=
  (if_neg (Nat.not_le.mpr hf)).trans (if_neg (Nat.not_le.mpr hh))

theorem engineCount_le (v : Variant) : engineCount v ≤ 16 := by cases v <;> decide

theorem slotCount_le (v : Variant) : slotCount v ≤ 8 := by cases v <;> decide

/-- A read in which ECC finds nothing is the command's own. -/
theorem withRead_clean {code t : Nat} {body : State → Request → Nat → Reply} {lost : State → Request → State} {p : Bytes}
    (he : q.ecc = .clean) (hb : body a q t = .ok a p) : withRead code body lost a q t = .ok a p := by
  unfold withRead
  rw [hb, he]

/-- A command that only the full part has is served on the full part (R5, R371). -/
theorem isFull_of_served {code : Nat} {row : CmdRow} (h : Served code dt q s) (hc : cmdRow code = some row) (hv : row.var = 2) :
    isFull (atStamp code dt q s).var = true := by
  obtain ⟨-, hp, -⟩ := h
  unfold preCheck at hp
  rw [hc] at hp
  dsimp only at hp
  by_contra hf
  have hu : (row.var = 1 ∧ !hasLocal (atStamp code dt q s).var) ∨ (row.var = 2 ∧ !isFull (atStamp code dt q s).var) :=
    .inr ⟨hv, by simpa using hf⟩
  rw [if_pos hu] at hp
  repeat' split at hp
  all_goals cases hp

/-! ### Calipers (R500, R505) and DMA (R518, R522) -/

theorem calStatusBody_eq (t : Nat) : calStatusBody a q t = .ok a (numbers [(1, a.cal.state), (1, a.cal.stopReason), (1, a.cal.syncState), (1, 0),
    (4, a.cal.segments), (8, a.cal.spilled), (4, twos 32 (fieldVal 24 a.cal.syncOffset))]) := by
  simp [calStatusBody, numbers, b8, b32, b64, zeros, c24, sleBytes, leBytes]

theorem calStatus_reports (h : Served Cmd.calStatus dt q s) : Reports (.calStatus dt q) Cmd.calStatus dt q s (fun p => p.length = 20 ∧
    Field p 0 1 s.cal.state ∧ Field p 1 1 s.cal.stopReason ∧ Field p 2 1 s.cal.syncState ∧ Field p 4 4 s.cal.segments ∧
    Field p 8 8 s.cal.spilled) := by
  refine reports (body := calStatusBody) rfl h (calStatusBody_eq _) ?_
  rw [atStamp_cal]
  exact ⟨numbers_length _, field_of_numbers (i := 0) rfl, field_of_numbers (i := 1) rfl, field_of_numbers (i := 2) rfl,
    field_of_numbers (i := 4) rfl, field_of_numbers (i := 5) rfl⟩

theorem calRead_reports {g : CalSeg} (h : Served Cmd.calRead dt q s) (he : q.ecc = .clean) (hr : uAt q.payload 9 3 = 0)
    (hg : s.cal.done.find? (fun g => g.number == uAt q.payload 0 4) = some g) (h1 : 1 ≤ uAt q.payload 8 1) (h224 : uAt q.payload 8 1 ≤ 224)
    (hl : uAt q.payload 4 4 + uAt q.payload 8 1 ≤ g.len) : Reports (.calRead dt q) Cmd.calRead dt q s (fun p =>
      p = memRead (if g.inDdr then s.mem.ddr else s.mem.capture) (g.addr + uAt q.payload 4 4) (uAt q.payload 8 1)) := by
  refine reports (body := withRead Cmd.calRead calReadBody) rfl h (withRead_clean he ?_) rfl
  unfold calReadBody
  dsimp only
  rw [atStamp_cal, hg, atStamp_mem]
  exact need_pos (by rw [resv_of_eq hr, Nat.ble_eq.mpr h1, Nat.ble_eq.mpr h224, Nat.ble_eq.mpr hl]; rfl) _

theorem dmaStatusBody_eq (hp : uAt q.payload 0 1 = n) (h24 : 24 ≤ n) (h32 : n < 32) (hr : uAt q.payload 1 3 = 0) (t : Nat) :
    dmaStatusBody a q t = .ok a (numbers [(8, (a.chan n).src), (8, (a.chan n).dst), (4, (a.chan n).count), (4, (a.chan n).ctrl),
      (8, (a.chan n).list), (2, (a.chan n).tail), (1, (a.chan n).state), (1, 0), (2, (a.chan n).status), (2, 0), (8, (a.chan n).bytes),
      (4, (a.chan n).result)]) := by
  unfold dmaStatusBody
  dsimp only
  rw [withChan_pos hp h24 h32, need_pos (resv_of_eq hr)]
  simp [numbers, b8, b16, b32, b64, zeros, leBytes]

theorem dmaStatus_reports (h : Served Cmd.dmaStatus dt q s) (hr : uAt q.payload 1 3 = 0) (hp : uAt q.payload 0 1 = n) (h24 : 24 ≤ n) (h32 : n < 32) :
    Reports (.dmaStatus dt q) Cmd.dmaStatus dt q s (fun p => p.length = 52 ∧ Field p 0 8 (s.chan n).src ∧
      Field p 8 8 (s.chan n).dst ∧ Field p 16 4 (s.chan n).count ∧ Field p 24 8 (s.chan n).list ∧ Field p 32 2 (s.chan n).tail ∧
      Field p 34 1 (s.chan n).state ∧ Field p 36 2 (s.chan n).status ∧ Field p 40 8 (s.chan n).bytes) := by
  refine reports (body := dmaStatusBody) rfl h (dmaStatusBody_eq hp h24 h32 hr _) ?_
  rw [chan_atStamp]
  exact ⟨numbers_length _, field_of_numbers (i := 0) rfl, field_of_numbers (i := 1) rfl, field_of_numbers (i := 2) rfl,
    field_of_numbers (i := 4) rfl, field_of_numbers (i := 5) rfl, field_of_numbers (i := 6) rfl, field_of_numbers (i := 8) rfl,
    field_of_numbers (i := 10) rfl⟩

/-! ### Safety (R557) -/

/-- The bytes of SAFETY_STATUS up to the states of the functions (R679). -/
def safetyHead (s : State) : List Nat :=
  [s.safe.state, s.safe.faultCause, bit (resetLevel s), 0] ++ (List.range 8).map (pairCode s) ++ (List.range 16).map (fun f => (s.fn f).state)

theorem safetyHead_fn {f : Nat} (s : State) (hf : f < 16) : (safetyHead s)[12 + f]? = some (s.fn f).state := by
  unfold safetyHead
  rw [List.getElem?_append_right (by simp)]
  simp [hf]

theorem safetyStatusBody_eq (t : Nat) : safetyStatusBody a q t =
    .ok a ((safetyHead a).flatMap b8 ++ ((List.range soutCount).flatMap (fun n => b8 (soutCode a n)) ++ zeros 2)) := by
  simp [safetyStatusBody, safetyHead, List.flatMap_map, zeros, b8, leBytes]

theorem safetyStatus_reports (h : Served Cmd.safetyStatus dt q s) : Reports (.safetyStatus dt q) Cmd.safetyStatus dt q s (fun p =>
    Field p 0 1 s.safe.state ∧ Field p 1 1 s.safe.faultCause ∧ ∀ f, f < 16 → Field p (12 + f) 1 (s.fn f).state) := by
  refine reports (body := safetyStatusBody) rfl h (safetyStatusBody_eq _) ?_
  rw [← atStamp_safe Cmd.safetyStatus dt q s]
  refine ⟨field_of_byte (i := 0) rfl _, field_of_byte (i := 1) rfl _, fun f hf => ?_⟩
  rw [← fn_atStamp Cmd.safetyStatus dt q s f]
  exact field_of_byte (safetyHead_fn _ hf) _

theorem safetyImageRead_reports (h : Served Cmd.safetyImageRead dt q s) (hr : uAt q.payload 5 3 = 0) (h1 : 1 ≤ uAt q.payload 4 1)
    (h224 : uAt q.payload 4 1 ≤ 224) (hl : uAt q.payload 0 4 + uAt q.payload 4 1 ≤ s.safe.image.length) :
    Reports (.safetyImageRead dt q) Cmd.safetyImageRead dt q s (fun p => p = (s.safe.image.drop (uAt q.payload 0 4)).take (uAt q.payload 4 1)) := by
  refine reports (body := safetyImageReadBody) rfl h ?_ (slice_inside hl)
  unfold safetyImageReadBody
  dsimp only
  rw [atStamp_safe]
  exact need_pos (by rw [resv_of_eq hr, Nat.ble_eq.mpr h1, Nat.ble_eq.mpr h224, Nat.ble_eq.mpr hl]; rfl) _

theorem safetyConnStatusBody_eq (hr : uAt q.payload 1 3 = 0) (hp : uAt q.payload 0 1 = n) (hn : n < 128) (t : Nat) :
    safetyConnStatusBody a q t = .ok a (numbers [(2, parN a Par.connId n), (1, (a.conn n).state), (1, 0), (2, (a.conn n).seq), (2, 0),
      (6, (a.conn n).lastEcho / 1000000000), (4, (a.conn n).lastEcho % 1000000000), (2, 0), (4, (a.conn n).crcErrors), (4, (a.conn n).seqErrors),
      (4, (a.conn n).timeouts)]) := by
  unfold safetyConnStatusBody
  dsimp only
  rw [hp, need_pos (by rw [resv_of_eq hr, Nat.blt_eq.mpr hn]; rfl)]
  simp [numbers, b8, b16, b32, zeros, timeBytes, leBytes]

theorem safetyConnStatus_reports (h : Served Cmd.safetyConnStatus dt q s) (hr : uAt q.payload 1 3 = 0) (hp : uAt q.payload 0 1 = n) (hn : n < 128) :
    Reports (.safetyConnStatus dt q) Cmd.safetyConnStatus dt q s (fun p => p.length = 32 ∧ Field p 2 1 (s.conn n).state ∧
      Field p 4 2 (s.conn n).seq ∧ Field p 20 4 (s.conn n).crcErrors ∧ Field p 24 4 (s.conn n).seqErrors ∧ Field p 28 4 (s.conn n).timeouts) := by
  refine reports (body := safetyConnStatusBody) rfl h (safetyConnStatusBody_eq hr hp hn _) ?_
  rw [conn_atStamp]
  exact ⟨numbers_length _, field_of_numbers (i := 1) rfl, field_of_numbers (i := 3) rfl, field_of_numbers (i := 8) rfl,
    field_of_numbers (i := 9) rfl, field_of_numbers (i := 10) rfl⟩

/-! ### The pair (R590) -/

theorem pairStatusBody_eq (hf : isFull a.var = true) (t : Nat) : pairStatusBody a q t = .ok a (numbers [(1, a.pair.state), (1, bit a.pair.grip),
    (1, partnerFlags a), (1, 0), (4, a.pair.epoch), (4, a.pair.leaseEnd % 4294967296), (4, (clampI a.pair.tie 0 32000).toNat % 2 ^ 24),
    (4, twos 32 (fieldVal 24 (clampI a.pair.offset (-8388608) 8388607))), (4, a.pair.divergences), (4, a.pair.skipped)]) := by
  unfold pairStatusBody
  dsimp only
  rw [orElse_pos hf]
  simp [numbers, b8, b32, zeros, cu24, c24, sleBytes, leBytes]

theorem pairStatus_reports (h : Served Cmd.pairStatus dt q s) : Reports (.pairStatus dt q) Cmd.pairStatus dt q s (fun p => p.length = 28 ∧
    Field p 0 1 s.pair.state ∧ Field p 1 1 (bit s.pair.grip) ∧ Field p 4 4 s.pair.epoch ∧ Field p 20 4 s.pair.divergences) := by
  refine reports (body := pairStatusBody) rfl h (pairStatusBody_eq (isFull_of_served h rfl rfl) _) ?_
  rw [atStamp_pair]
  exact ⟨numbers_length _, field_of_numbers (i := 0) rfl, field_of_numbers (i := 1) rfl, field_of_numbers (i := 4) rfl,
    field_of_numbers (i := 8) rfl⟩

/-! ### Events and the record (R617) -/

theorem eventRead_reports (h : Served Cmd.eventRead dt q s) : Reports (.eventRead dt q) Cmd.eventRead dt q s (fun p =>
    let l := (recordsFrom s.ev.records (uAt q.payload 0 4)).take 7
    p.length = 4 + 32 * l.length ∧ p = b8 l.length ++ zeros 3 ++ l.flatMap evBytes) := by
  refine reports (body := eventReadBody) rfl h rfl ?_
  rw [records_atStamp]
  generalize (recordsFrom s.ev.records (uAt q.payload 0 4)).take 7 = l
  refine ⟨?_, rfl⟩
  have hl : (l.flatMap evBytes).length = 32 * l.length := by simp [List.length_flatMap, evBytes_length, Nat.mul_comm]
  rw [List.length_append, hl]
  rfl

theorem shavingsStatusBody_eq (t : Nat) : ∃ r, r.length = 8 ∧
    shavingsStatusBody a q t = .ok a (memRead a.mem.mram 0 56 ++ (memRead a.mem.mram 589824 56 ++ r)) := by
  refine ⟨b16 a.ev.records.length ++ (b16 a.ev.rows.length ++ (b8 a.ev.mbs.length ++ zeros 3)), rfl, ?_⟩
  unfold shavingsStatusBody
  simp only [List.append_assoc]
  rfl

theorem shavingsStatus_reports (h : Served Cmd.shavingsStatus dt q s) (he : q.ecc = .clean) :
    Reports (.shavingsStatus dt q) Cmd.shavingsStatus dt q s (fun p => p.length = 120 ∧
      p.take 56 = memRead s.mem.mram 0 56 ∧ (p.drop 56).take 56 = memRead s.mem.mram 589824 56) := by
  obtain ⟨r, hr, hb⟩ := shavingsStatusBody_eq (a := atStamp Cmd.shavingsStatus dt q s) (q := q) (stampOf Cmd.shavingsStatus dt q s)
  refine reports (body := withRead Cmd.shavingsStatus shavingsStatusBody damageRead) rfl h (withRead_clean he hb) ?_
  rw [atStamp_mem]
  refine ⟨?_, List.take_left' (memRead_length ..), ?_⟩
  · simp only [List.length_append, memRead_length, hr]
  · rw [List.drop_left' (memRead_length ..), List.take_left' (memRead_length ..)]

theorem shavingsReadBody_eq (hs : uAt q.payload 0 1 < 2) (h1 : 1 ≤ uAt q.payload 1 1) (h224 : uAt q.payload 1 1 ≤ 224) (hr : uAt q.payload 2 2 = 0)
    (hl : uAt q.payload 4 4 + uAt q.payload 1 1 ≤ 589824) (t : Nat) : shavingsReadBody a q t =
    .ok a (memRead a.mem.mram (uAt q.payload 0 1 * 589824 + uAt q.payload 4 4) (uAt q.payload 1 1)) :=
  need_pos (by rw [resv_of_eq hr, Nat.blt_eq.mpr hs, Nat.ble_eq.mpr h1, Nat.ble_eq.mpr h224, Nat.ble_eq.mpr hl]; rfl) _

theorem shavingsRead_reports (h : Served Cmd.shavingsRead dt q s) (he : q.ecc = .clean) (hs : uAt q.payload 0 1 < 2) (h1 : 1 ≤ uAt q.payload 1 1)
    (h224 : uAt q.payload 1 1 ≤ 224) (hr : uAt q.payload 2 2 = 0) (hl : uAt q.payload 4 4 + uAt q.payload 1 1 ≤ 589824) :
    Reports (.shavingsRead dt q) Cmd.shavingsRead dt q s (fun p =>
      p = memRead s.mem.mram (uAt q.payload 0 1 * 589824 + uAt q.payload 4 4) (uAt q.payload 1 1)) := by
  refine reports (body := withRead Cmd.shavingsRead shavingsReadBody damageRead) rfl h
    (withRead_clean he (shavingsReadBody_eq hs h1 h224 hr hl _)) ?_
  rw [atStamp_mem]

/-! ### The dispatcher (R305 to R307) -/

theorem dispatchEngineStats_answers (h : Served Cmd.dispatchEngineStats dt q s) (hr : uAt q.payload 1 3 = 0)
    (hn : uAt q.payload 0 1 < engineCount s.board.variant) :
    Answers (.dispatchEngineStats dt q) Cmd.dispatchEngineStats dt q s St.ok (fun u p =>
      u = atStamp Cmd.dispatchEngineStats dt q s ∧ ∀ w, tfind s.disp.snap.engines (uAt q.payload 0 1) = some w → p = w) := by
  have hv : uAt q.payload 0 1 < engineCount (atStamp Cmd.dispatchEngineStats dt q s).var := by rwa [var_atStamp]
  refine answers_ok (body := dispatchEngineStatsBody) rfl h
    ((inst_pos (hn.trans_le (engineCount_le _)) hv _).trans (need_pos (resv_of_eq hr) _)) ⟨rfl, fun w hw => ?_⟩
  rw [atStamp_disp, hw]
  rfl

theorem dispatchLevelStats_reports (h : Served Cmd.dispatchLevelStats dt q s) :
    Reports (.dispatchLevelStats dt q) Cmd.dispatchLevelStats dt q s (fun p => p = slice s.disp.snap.levels 0 64) :=
  reports (body := dispatchLevelStatsBody) rfl h rfl (by rw [atStamp_disp])

theorem dispatchFlowStats_answers (h : Served Cmd.dispatchFlowStats dt q s) (hr : uAt q.payload 2 2 = 0)
    (hf : (pflow s.image (uAt q.payload 0 2)).isSome = true) :
    Answers (.dispatchFlowStats dt q) Cmd.dispatchFlowStats dt q s St.ok (fun u p =>
      u = atStamp Cmd.dispatchFlowStats dt q s ∧ ∀ w, tfind s.disp.snap.flows (uAt q.payload 0 2) = some w → p = w) := by
  refine answers_ok (body := dispatchFlowStatsBody) rfl h (need_pos (by rw [image_atStamp, hf, resv_of_eq hr]; rfl) _) ⟨rfl, fun w hw => ?_⟩
  rw [atStamp_disp, hw]
  rfl

/-! ### Truing (R636) -/

theorem truingStatusBody_eq (hr : uAt q.payload 1 3 = 0) (t : Nat) : ∃ r, truingStatusBody a q t = .ok a (numbers [(4, a.tru.derating),
    (4, twos 32 (fieldVal 24 a.tru.slowdown)), (2, a.tru.mvReq), (2, a.tru.mvRead), (2, a.tru.lifeRemaining), (1, truingCode a),
    (1, ((a.tru.history.drop (uAt q.payload 0 1)).take 16).length), (4, a.tru.passes)] ++ r) := by
  refine ⟨c24 a.tru.minSlack ++ ((List.range 16).flatMap (fun e => b16 (if e < engineCount a.var then tget a.tru.fMax 0 e else 0)) ++
    ((a.tru.history.drop (uAt q.payload 0 1)).take 16).flatMap (fun h => b32 h.1 ++ c24 h.2)), ?_⟩
  refine (need_pos (resv_of_eq hr) _).trans (congrArg (Reply.ok a) ?_)
  simp [numbers, b8, b16, b32, c24, sleBytes, leBytes]

theorem truingStatus_reports (h : Served Cmd.truingStatus dt q s) (hr : uAt q.payload 1 3 = 0) :
    Reports (.truingStatus dt q) Cmd.truingStatus dt q s (fun p =>
      Field p 0 4 s.tru.derating ∧ Field p 8 2 s.tru.mvReq ∧ Field p 10 2 s.tru.mvRead ∧ Field p 16 4 s.tru.passes) := by
  obtain ⟨r, hb⟩ := truingStatusBody_eq (a := atStamp Cmd.truingStatus dt q s) hr (stampOf Cmd.truingStatus dt q s)
  refine reports (body := truingStatusBody) rfl h hb ?_
  rw [atStamp_tru]
  exact ⟨field_of_front (i := 0) rfl r, field_of_front (i := 2) rfl r, field_of_front (i := 3) rfl r, field_of_front (i := 7) rfl r⟩

/-! ### The probe queue (R435) -/

theorem onProbe_probe (s : State) (k : Nat) (f : ProbeSt → ProbeSt) : (s.onProbe k f).probe k = f (s.probe k) := tget_tmod_self ..

/-- The records that one PROBE_READ takes. -/
def probeTaken (s : State) (k : Nat) : List ProbeRec := (doneFront (s.probe k).queue).take 9

theorem probeReadBody_eq (hr : uAt q.payload 1 3 = 0) (hp : uAt q.payload 0 1 = n) (hn : n < slotCount a.var) (t : Nat) : probeReadBody a q t =
    .ok (a.onProbe n (fun x => { x with queue := x.queue.drop (probeTaken a n).length }))
      (b8 (probeTaken a n).length ++ zeros 3 ++ (probeTaken a n).flatMap probeBytes) := by
  unfold probeReadBody
  dsimp only
  rw [hp, inst_pos (hn.trans_le (slotCount_le _)) hn, need_pos (resv_of_eq hr)]
  rfl

theorem probeRead_answers (h : Served Cmd.probeRead dt q s) (hr : uAt q.payload 1 3 = 0) (hp : uAt q.payload 0 1 = n)
    (hn : n < slotCount s.board.variant) :
    Answers (.probeRead dt q) Cmd.probeRead dt q s St.ok (fun u p =>
      let l := (doneFront (s.probe n).queue).take 9
      p = b8 l.length ++ zeros 3 ++ l.flatMap probeBytes ∧ (u.probe n).queue = (s.probe n).queue.drop l.length) := by
  refine answers_ok (body := probeReadBody) rfl h (probeReadBody_eq hr hp (by rwa [var_atStamp]) _) ?_
  rw [onProbe_probe, probeTaken, probe_atStamp]
  exact ⟨rfl, rfl⟩

/-- Settles O22: behind its checks each report is a payload of numbers or of stored bytes, none of which the bookkeeping of the request touches. -/
theorem unitReports : Obligations.UnitReports := by
  intro s dt n q g v
  exact ⟨calStatus_reports, calRead_reports, dmaStatus_reports, safetyStatus_reports, safetyImageRead_reports, safetyConnStatus_reports,
    pairStatus_reports, eventRead_reports, shavingsStatus_reports, shavingsRead_reports, dispatchEngineStats_answers, dispatchLevelStats_reports,
    dispatchFlowStats_answers, truingStatus_reports, probeRead_answers⟩

end Sys2Proof.Machine
end

