-- ==== Sys2Proof/Proofs/EngineResults.lean ====
section
/-! What the operations of a loop engine leave: the results of products, accumulators, words and comparisons, O45 to O50. -/

namespace Sys2Proof.Machine

/-! ### Flags (R316, R325, R326) -/

/-- A sticky bit is none of N, Z and G. -/
theorem esStick_nzg (es : BitVec 8) {i j : Nat} (hi : i < 2) (hl : 2 ≤ j) (hj : j < 8) (b : Bool) :
    (esStick es i b).getLsbD j = es.getLsbD j := by
  rw [esStick_bit _ _ _ _ (by omega) hj, decide_eq_false (by omega), Bool.and_false, Bool.or_false]

section stick
variable {es old : BitVec 8} {i : Nat} (hi : i < 2) (b : Bool)
include hi

theorem SameNZG.stick (h : SameNZG es old) : SameNZG (esStick es i b) old := by
  obtain ⟨hn, hz, hg⟩ := h
  refine ⟨?_, ?_, ?_⟩ <;> rw [esStick_nzg es hi (by decide) (by decide)] <;> assumption

theorem FlagsOf56.stick {v : W56} (h : FlagsOf56 es v) : FlagsOf56 (esStick es i b) v := by
  obtain ⟨hn, hz, hg⟩ := h
  refine ⟨?_, ?_, ?_⟩ <;> rw [esStick_nzg es hi (by decide) (by decide)] <;> assumption

theorem FlagsOf24.stick {v : W24} (h : FlagsOf24 es v) : FlagsOf24 (esStick es i b) v := by
  obtain ⟨hn, hz, hg⟩ := h
  refine ⟨?_, ?_, ?_⟩ <;> rw [esStick_nzg es hi (by decide) (by decide)] <;> assumption

end stick

/-- An operation without flags leaves N, Z and G, whatever its stores do. -/
theorem sameNZG_stick {es old : BitVec 8} {b : Bool} (h : es = esStick old esSST b) : SameNZG es old :=
  h ▸ SameNZG.stick (by decide) b ⟨rfl, rfl, rfl⟩

theorem esAcc_flags (es : BitVec 8) (v : W56) : FlagsOf56 (esAcc es v) v := by
  obtain ⟨hn, hz, hg, -⟩ := esAcc_bits es v
  exact ⟨hn, hz, hg⟩

theorem esAcc_sac (es : BitVec 8) (v : W56) : (esAcc es v).getLsbD esSAC = es.getLsbD esSAC := by
  obtain ⟨-, -, -, -, hs⟩ := esAcc_bits es v
  exact hs

theorem esPut_same (es : BitVec 8) {i : Nat} (hi : i < 8) (v : Bool) : (esPut es i v).getLsbD i = v :=
  (esPut_bit _ _ _ _ hi hi).trans (if_pos rfl)

theorem esPut_other (es : BitVec 8) {i j : Nat} (hi : i < 8) (hj : j < 8) (h : i ≠ j) (v : Bool) : (esPut es i v).getLsbD j = es.getLsbD j :=
  (esPut_bit _ _ _ _ hi hj).trans (if_neg h)

/-- N, Z and G of ES once all three are set. -/
theorem esNZG_bits (es : BitVec 8) (n z g : Bool) :
    (esPut (esPut (esPut es esN n) esZ z) esG g).getLsbD esN = n ∧ (esPut (esPut (esPut es esN n) esZ z) esG g).getLsbD esZ = z ∧
    (esPut (esPut (esPut es esN n) esZ z) esG g).getLsbD esG = g := by
  refine ⟨?_, ?_, esPut_same _ (by decide) g⟩
  · rw [esPut_other _ (by decide) (by decide) (by decide), esPut_other _ (by decide) (by decide) (by decide), esPut_same _ (by decide)]
  · rw [esPut_other _ (by decide) (by decide) (by decide), esPut_same _ (by decide)]

theorem esWord_flags (es : BitVec 8) (v : W24) : FlagsOf24 (esWord es v) v := by
  obtain ⟨hn, hz, hg⟩ := esNZG_bits es v.msb (v == 0) false
  exact ⟨hn, hz.trans (Bool.beq_eq_decide_eq v 0), hg⟩

/-- SST is set by the clamp of the operation, whatever the stores do. -/
theorem esStick_sst (es : BitVec 8) {p : Prop} [Decidable p] (hp : p) (b : Bool) :
    (esStick (esStick es esSST (decide p)) esSST b).getLsbD esSST = true := by
  rw [esStick_bit _ _ _ _ (by decide) (by decide), esStick_bit _ _ _ _ (by decide) (by decide), decide_eq_true hp]
  simp

/-- The flag of a saturated store is not SAC. -/
theorem esStick_sst_sac (es : BitVec 8) (v : Bool) : (esStick es esSST v).getLsbD esSAC = es.getLsbD esSAC := by
  rw [esStick_bit _ _ _ _ (by decide) (by decide), decide_eq_false (by decide), Bool.and_false, Bool.or_false]

theorem esStick_sac (es : BitVec 8) (v : Bool) : (esStick es esSAC v).getLsbD esSAC = (es.getLsbD esSAC || v) := by
  rw [esStick_bit _ _ _ _ (by decide) (by decide), decide_eq_true rfl, Bool.and_true]

/-! ### What one operation leaves -/

section single
variable {op : EOp} {m1 m2 : Move} {c : ECore}

/-- An instruction whose operation wrote the accumulator `ad`: its value, the flags before a store that saturates, and IX. -/
structure AccWrite (ad : Acc) (w : W56) (es : BitVec 8) (ix : BitVec 17) (m1 m2 : Move) (a b : ECore) : Prop where
  pc : b.pc = a.pc + 1
  moves : MovesOnly m1 m2 a b
  value : b.regs.ar ad.val = w
  flags : ∃ sat, b.regs.es = esStick es esSST sat
  special : SameSpecial b.regs a.regs
  index : b.regs.ix = ix
  others : a.landing = [] → b.regs.x = a.regs.x ∧ ∀ j : Acc, j ≠ ad → b.regs.ar j.val = a.regs.ar j.val

theorem acc_write (hr : RegsOk c.regs) {ad : Acc} {w : W56} {es : BitVec 8} {ix : BitVec 17}
    (ho : runOp op 0 c.regs = { regs := { c.regs.setA ad.val w with es := es, ix := ix }, wa := some ad.val }) :
    AccWrite ad w es ix m1 m2 c { singleCore op m1 m2 0 c with pc := c.pc + 1 } := by
  obtain ⟨-, ha, -⟩ := hr
  have hs := singleCore_regs op m1 m2 0 c
  simp only [ho] at hs
  obtain ⟨hx, hacc, hm, hl, hlc, hix, hbx, hst, hes⟩ := hs
  refine ⟨rfl, singleCore_moves (by rw [ho]; rfl) _, ?_, ⟨_, hes⟩, ⟨hm, hl, hlc, hbx, hst⟩, hix, fun hn => ⟨?_, fun j hj => ?_⟩⟩
  · rw [ERegs.ar, hacc, landAll_wa _ _ _ _ _ _ rfl]
    simp [ERegs.setA, ha]
  · rw [hx, hn]
    rfl
  · have hne : ad.val ≠ j.val := fun hv => hj (Fin.ext hv.symm)
    rw [ERegs.ar, hacc, hn]
    simp [landAll, ERegs.setA, ERegs.ar, hne]

/-- A load does not land in the X register that the operation wrote. -/
theorem landAll_wx (l : List Landing) (wa : Option Nat) (x : List W24) (a : List W56) (i : Nat) :
    (landAll l (some i) wa x a).1[i]? = x[i]? := by
  unfold landAll
  induction l generalizing x a with
  | nil => rfl
  | cons e r ih =>
    rw [List.foldl_cons]
    cases e with
    | x q v =>
      dsimp only
      split
      · exact ih _ _
      next hq =>
        have hne : q ≠ i := fun h => hq (congrArg some h.symm)
        rw [ih, List.getElem?_set_ne hne]
    | lower q v => dsimp only; split <;> exact ih _ _
    | upper q v => dsimp only; split <;> exact ih _ _

theorem word_result (hr : RegsOk c.regs) {xd : XReg} {v : W24} {es : BitVec 8}
    (ho : runOp op 0 c.regs = { regs := { c.regs.setX xd.val v with es := es }, wx := some xd.val }) :
    WordResult xd v m1 m2 c { singleCore op m1 m2 0 c with pc := c.pc + 1 } ∧
    ∃ sat, (singleCore op m1 m2 0 c).regs.es = esStick es esSST sat := by
  obtain ⟨hlen, -⟩ := hr
  have hs := singleCore_regs op m1 m2 0 c
  simp only [ho] at hs
  obtain ⟨hx, hacc, hm, hl, hlc, hix, hbx, hst, hes⟩ := hs
  refine ⟨⟨rfl, singleCore_moves (by rw [ho]; rfl) _, ?_, ⟨hm, hl, hlc, hbx, hst⟩, hix, fun hn => ⟨?_, fun j hj => ?_⟩⟩, _, hes⟩
  · rw [ERegs.xr, hx, landAll_wx]
    simp [ERegs.setX, hlen]
  · rw [hacc, hn]
    rfl
  · have hne : xd.val ≠ j.val := fun hv => hj (Fin.ext hv.symm)
    rw [ERegs.xr, hx, hn]
    simp [landAll, ERegs.setX, ERegs.xr, hne]

theorem no_result {es : BitVec 8} {bx : BitVec 7} (ho : runOp op 0 c.regs = { regs := { c.regs with es := es, bx := bx } }) :
    NoResult m1 m2 c { singleCore op m1 m2 0 c with pc := c.pc + 1 } ∧ (singleCore op m1 m2 0 c).regs.bx = bx ∧
    ∃ sat, (singleCore op m1 m2 0 c).regs.es = esStick es esSST sat := by
  have hs := singleCore_regs op m1 m2 0 c
  simp only [ho] at hs
  obtain ⟨hx, hacc, hm, hl, hlc, hix, hbx, hst, hes⟩ := hs
  refine ⟨⟨rfl, singleCore_moves (by rw [ho]) _, hm, hl, hlc, hst, hix, fun hn => ⟨?_, ?_⟩⟩, hbx, _, hes⟩
  · rw [hx, hn]
    rfl
  · rw [hacc, hn]
    rfl

end single

/-! ### Instructions of a ready engine -/

section ready
variable {i : Instr} {op : EOp} {e : Nat} {s : State} {m1 m2 : Move}

theorem EngineReady.regs (h : EngineReady e s) : RegsOk (s.core e).regs := by
  obtain ⟨-, -, -, -, -, -, -, -, -, hr⟩ := h
  exact hr

theorem EngineReady.branch (h : EngineReady e s) : (s.core e).branch = none := by
  obtain ⟨-, -, -, -, -, -, -, -, hb, -⟩ := h
  exact hb

theorem EngineReady.fault (h : EngineReady e s) : (s.core e).fault = none := by
  obtain ⟨-, -, hf, -⟩ := h
  exact hf

/-- An operation that sets an accumulator to an integer. -/
theorem runsCore_acc {ad : Acc} {v : Int} (hi : exec i s = runRow e op m1 m2 s) (hp : slotIllegal op = false) (h : EngineReady e s)
    (hm : MovesOk e m1 m2 s) (ho : runOp op 0 (s.core e).regs = putAcc (s.core e).regs ad.val v) :
    RunsCore i e s (AccResult ad v m1 m2 (s.core e)) :=
  runsCore_plain hi h hm hp (by rw [ho]; rfl) (acc_result h.regs ad v ho)

/-- An operation that writes an accumulator otherwise. -/
theorem runsCore_accWrite {ad : Acc} {w : W56} {es : BitVec 8} {ix : BitVec 17} {R : ECore → Prop} (hi : exec i s = runRow e op m1 m2 s)
    (hp : slotIllegal op = false) (h : EngineReady e s) (hm : MovesOk e m1 m2 s)
    (ho : runOp op 0 (s.core e).regs = { regs := { (s.core e).regs.setA ad.val w with es := es, ix := ix }, wa := some ad.val })
    (hR : ∀ c, AccWrite ad w es ix m1 m2 (s.core e) c → R c) : RunsCore i e s R :=
  runsCore_plain hi h hm hp (by rw [ho]) (hR _ (acc_write h.regs ho))

theorem runsCore_word {xd : XReg} {v : W24} {es : BitVec 8} {R : ECore → Prop} (hi : exec i s = runRow e op m1 m2 s)
    (hp : slotIllegal op = false) (h : EngineReady e s) (hm : MovesOk e m1 m2 s)
    (ho : runOp op 0 (s.core e).regs = { regs := { (s.core e).regs.setX xd.val v with es := es }, wx := some xd.val })
    (hR : ∀ c sat, WordResult xd v m1 m2 (s.core e) c → c.regs.es = esStick es esSST sat → R c) : RunsCore i e s R := by
  obtain ⟨hw, sat, hes⟩ := word_result (m1 := m1) (m2 := m2) h.regs ho
  exact runsCore_plain hi h hm hp (by rw [ho]) (hR _ sat hw hes)

theorem runsCore_none {es : BitVec 8} {bx : BitVec 7} {R : ECore → Prop} (hi : exec i s = runRow e op m1 m2 s)
    (hp : slotIllegal op = false) (h : EngineReady e s) (hm : MovesOk e m1 m2 s)
    (ho : runOp op 0 (s.core e).regs = { regs := { (s.core e).regs with es := es, bx := bx } })
    (hR : ∀ c sat, NoResult m1 m2 (s.core e) c → c.regs.bx = bx → c.regs.es = esStick es esSST sat → R c) : RunsCore i e s R := by
  obtain ⟨hn, hbx, sat, hes⟩ := no_result (m1 := m1) (m2 := m2) ho
  exact runsCore_plain hi h hm hp (by rw [ho]) (hR _ sat hn hbx hes)

/-- What an engine without an open repeat leaves is what the flow of its instruction leaves: no halt is asked. -/
theorem runsCore_flow {R : ECore → Prop} (hi : exec i s = runRow e op m1 m2 s) (h : EngineReady e s)
    (hR : R (execFlow op m1 m2 (s.core e))) : RunsCore i e s R := by
  have hasked : (execFlow op m1 m2 (s.core e)).haltAsked = false := by
    obtain ⟨-, -, -, -, -, ha, -⟩ := h
    exact (congrArg Prod.snd (execFlow_hold op m1 m2 (s.core e))).trans ha
  exact ⟨_, hi.trans (runRow_ready h op m1 m2), by rwa [takeHalt_id hasked]⟩

/-- A law fault of the instruction leaves the engine as it was but for the fault (R338). -/
theorem runsCore_fail {k : Nat} (hi : exec i s = runRow e op m1 m2 s) (h : EngineReady e s)
    (hf : execFlow op m1 m2 (s.core e) = (s.core e).fail k) :
    RunsCore i e s (fun c => c = { s.core e with fault := some (k, (s.core e).pc) }) :=
  runsCore_flow hi h hf

theorem execFlow_fail {k : Nat} {c : ECore} (hb : c.branch = none) (hf : execSingle op m1 m2 0 c = c.fail k) :
    execFlow op m1 m2 c = c.fail k := by
  simp [execFlow, hb, hf, ECore.fail]

theorem execSingle_opFault {k : Nat} (hm : MovesOk e m1 m2 s) (ho : (runOp op 0 (s.core e).regs).fault = some k) :
    execSingle op m1 m2 0 (s.core e) = (s.core e).fail k := by
  obtain ⟨hc, h1, h2⟩ := hm
  simp [execSingle, hc, h1, h2, ho]

/-- A fault of the operation itself. -/
theorem runsCore_opFault {k : Nat} (hi : exec i s = runRow e op m1 m2 s) (h : EngineReady e s) (hm : MovesOk e m1 m2 s)
    (ho : (runOp op 0 (s.core e).regs).fault = some k) :
    RunsCore i e s (fun c => c = { s.core e with fault := some (k, (s.core e).pc) }) :=
  runsCore_fail hi h (execFlow_fail h.branch (execSingle_opFault hm ho))

end ready

/-! ### Products (R323, R324) -/

theorem product_signed (r : ERegs) (neg : Bool) (xa xb : XReg) :
    product r false neg xa.val xb.val = (if neg then -1 else 1) * (r.xI xa * r.xI xb * 2) := by
  cases neg <;> simp [product, ERegs.xI]

theorem product_unsigned (r : ERegs) (neg : Bool) (xa xb : XReg) :
    product r true neg xa.val xb.val = (if neg then -1 else 1) * (r.xI xa * ((r.xr xb.val).toNat : Int) * 2) := by
  cases neg <;> simp [product, ERegs.xI]

/-- Settles O45: each form sets its accumulator to the product, or to the sum with it. -/
theorem engineProductsSetTheirAccumulator : Obligations.EngineProductsSetTheirAccumulator := by
  unfold Obligations.EngineProductsSetTheirAccumulator
  intro s e ad neg xa xb m1 m2 h hm
  dsimp only
  rw [← product_signed, ← product_unsigned]
  exact ⟨runsCore_acc rfl rfl h hm rfl, runsCore_acc rfl rfl h hm rfl, runsCore_acc rfl rfl h hm rfl, runsCore_acc rfl rfl h hm rfl⟩

/-- The low word of a rounded value is 0 (R324). -/
theorem setWidth_rnd24 (v : Int) : (BitVec.ofInt 56 (rnd24 v)).setWidth 24 = 0#24 := by
  apply BitVec.eq_of_toNat_eq
  rw [BitVec.toNat_setWidth, BitVec.toNat_ofInt, rnd24]
  simp only [BitVec.toNat_ofNat]
  omega

/-- The accumulator `ad` holds `v` saturated, rounded and saturated again, and SAC is set where either saturation changed it. -/
def RoundedResult (ad : Acc) (v : Int) (m1 m2 : Move) (a b : ECore) : Prop :=
  let w : W56 := BitVec.ofInt 56 (sat56 (rnd24 (sat56 v)))
  b.pc = a.pc + 1 ∧ MovesOnly m1 m2 a b ∧ b.regs.ar ad.val = w ∧
  (sat56 (rnd24 (sat56 v)) = rnd24 (sat56 v) → w.setWidth 24 = 0#24) ∧ FlagsOf56 b.regs.es w ∧ SameSpecial b.regs a.regs ∧
  b.regs.es.getLsbD esSAC = (a.regs.es.getLsbD esSAC || decide (sat56 v ≠ v) || decide (sat56 (rnd24 (sat56 v)) ≠ rnd24 (sat56 v)))

section rounded
variable {i : Instr} {e : Nat} {s : State} {m1 m2 : Move} {acc uns neg : Bool} {ad : Acc} {xa xb : Nat}

theorem runOp_rounded {r : ERegs} {v : Int} {k : Nat}
    (hv : (if acc then r.accI ad + product r uns neg xa xb else product r uns neg xa xb) = v) :
    runOp (.prod acc uns true ad.val neg xa xb) k r =
      { regs := { r.setA ad.val (BitVec.ofInt 56 (sat56 (rnd24 (sat56 v)))) with
          es := esStick (esStick (esAcc r.es (BitVec.ofInt 56 (sat56 (rnd24 (sat56 v))))) esSAC
            (decide (sat56 (rnd24 (sat56 v)) ≠ rnd24 (sat56 v)))) esSAC (decide (sat56 v ≠ v)) },
        wa := some ad.val } := by
  subst hv
  rfl

theorem runsCore_rounded {v : Int} (hi : exec i s = runRow e (.prod acc uns true ad.val neg xa xb) m1 m2 s) (h : EngineReady e s)
    (hm : MovesOk e m1 m2 s)
    (hv : (if acc then (s.core e).regs.accI ad + product (s.core e).regs uns neg xa xb else product (s.core e).regs uns neg xa xb) = v) :
    RunsCore i e s (RoundedResult ad v m1 m2 (s.core e)) := by
  refine runsCore_accWrite hi rfl h hm (runOp_rounded hv) (fun c hc => ?_)
  obtain ⟨sat, hes⟩ := hc.flags
  refine ⟨hc.pc, hc.moves, hc.value, fun hw => by rw [hw, setWidth_rnd24], ?_, hc.special, ?_⟩
  · rw [hes]
    exact (((esAcc_flags _ _).stick (by decide) _).stick (by decide) _).stick (by decide) sat
  · rw [hes, esStick_sst_sac, esStick_sac, esStick_sac, esAcc_sac, Bool.or_right_comm]

end rounded

/-- Settles O46: what is rounded is the saturated product or sum. -/
theorem engineRoundedProductsSetTheirAccumulator : Obligations.EngineRoundedProductsSetTheirAccumulator := by
  unfold Obligations.EngineRoundedProductsSetTheirAccumulator
  intro s e ad neg xa xb m1 m2 h hm
  dsimp only
  rw [← product_signed, ← product_unsigned]
  exact ⟨runsCore_rounded rfl h hm rfl, runsCore_rounded rfl h hm rfl, runsCore_rounded rfl h hm rfl, runsCore_rounded rfl h hm rfl⟩

/-! ### Accumulators (R325, R328) -/

theorem xWide_eq (r : ERegs) (xa : XReg) : xWide r xa.val = r.xI xa * 2 ^ 24 := rfl

/-- Settles O47: each instruction sets its accumulator to one integer. -/
theorem engineAccumulatorArithmetic : Obligations.EngineAccumulatorArithmetic := by
  unfold Obligations.EngineAccumulatorArithmetic
  intro s e ad ar xa m1 m2 h hm
  dsimp only
  rw [← xWide_eq]
  exact ⟨runsCore_acc rfl rfl h hm rfl, runsCore_acc rfl rfl h hm rfl, runsCore_acc rfl rfl h hm rfl, runsCore_acc rfl rfl h hm rfl,
    runsCore_acc rfl rfl h hm rfl, runsCore_acc rfl rfl h hm rfl, runsCore_acc rfl rfl h hm rfl, runsCore_acc rfl rfl h hm rfl,
    runsCore_acc rfl rfl h hm rfl⟩

section shifts
variable {e : Nat} {s : State} {ad : Acc} {m1 m2 : Move}

theorem runOp_asat (r : ERegs) (k : Nat) : runOp (.asat ad.val) k r =
    { regs := { r.setA ad.val (BitVec.ofInt 56 (sat56 (sat48 (r.accI ad)))) with
        es := esStick (esStick (esAcc r.es (BitVec.ofInt 56 (sat56 (sat48 (r.accI ad))))) esSAC
          (decide (sat56 (sat48 (r.accI ad)) ≠ sat48 (r.accI ad)))) esSST (decide (sat48 (r.accI ad) ≠ r.accI ad)) },
      wa := some ad.val } := rfl

theorem asat_runs (h : EngineReady e s) (hm : MovesOk e m1 m2 s) : RunsCore (.asat e ad m1 m2) e s (fun c =>
    AccResult ad (sat48 ((s.core e).regs.accI ad)) m1 m2 (s.core e) c ∧
    (sat48 ((s.core e).regs.accI ad) ≠ (s.core e).regs.accI ad → c.regs.es.getLsbD esSST = true)) := by
  refine runsCore_accWrite rfl rfl h hm (runOp_asat _ 0) (fun c hc => ?_)
  obtain ⟨sat, hes⟩ := hc.flags
  refine ⟨⟨hc.pc, hc.moves, hc.value, ?_, ?_, hc.special, hc.index, hc.others⟩, fun hs => ?_⟩
  · rw [hes]
    exact (((esAcc_flags _ _).stick (by decide) _).stick (by decide) _).stick (by decide) sat
  · rw [hes, esStick_sst_sac, esStick_sst_sac, esStick_sac, esAcc_sac]
  · rw [hes]
    exact esStick_sst _ hs sat

end shifts

/-- Settles O48: each instruction sets its accumulator to one integer, which ASAT saturates to 48 bits; a shift above 55 faults. -/
theorem engineShiftsAndRounding : Obligations.EngineShiftsAndRounding := by
  unfold Obligations.EngineShiftsAndRounding
  intro s e ad sh m1 m2 h hm
  refine ⟨runsCore_acc rfl rfl h hm rfl, asat_runs h hm, fun hs => ?_, fun hs => ?_, fun hs => ⟨?_, ?_⟩, fun hb => ?_, fun hb => ?_⟩
  · exact runsCore_acc (op := .ashl ad.val sh) rfl rfl h hm (if_neg (Nat.not_lt.mpr hs))
  · exact runsCore_acc (op := .ashr ad.val sh) rfl rfl h hm (if_neg (Nat.not_lt.mpr hs))
  · exact runsCore_opFault (op := .ashl ad.val sh) rfl h hm (congrArg OpOut.fault (if_pos hs))
  · exact runsCore_opFault (op := .ashr ad.val sh) rfl h hm (congrArg OpOut.fault (if_pos hs))
  · exact runsCore_acc (op := .sclb ad.val) rfl rfl h hm (congrArg (putAcc _ _) (if_pos hb))
  · exact runsCore_acc (op := .sclb ad.val) rfl rfl h hm (congrArg (putAcc _ _) (if_neg (Int.not_le.mpr hb)))

/-! ### Words (R325, R328, R331) -/

section words
variable {i : Instr} {op : EOp} {e : Nat} {s : State} {m1 m2 : Move} {xd : XReg}

/-- An operation that sets an X register with N and Z of the word. -/
theorem runsCore_putX {v : W24} (hi : exec i s = runRow e op m1 m2 s) (hp : slotIllegal op = false) (h : EngineReady e s)
    (hm : MovesOk e m1 m2 s) (ho : runOp op 0 (s.core e).regs = putX (s.core e).regs xd.val v) :
    RunsCore i e s (fun c => WordResult xd v m1 m2 (s.core e) c ∧ FlagsOf24 c.regs.es v) := by
  refine runsCore_word hi hp h hm ho (fun c sat hw hes => ⟨hw, ?_⟩)
  rw [hes]
  exact (esWord_flags _ v).stick (by decide) sat

/-- An operation that moves a field of a value saturated to 48 bits. -/
theorem runsCore_xferX {w : Int} {up : Bool} (hi : exec i s = runRow e op m1 m2 s) (hp : slotIllegal op = false) (h : EngineReady e s)
    (hm : MovesOk e m1 m2 s) (ho : runOp op 0 (s.core e).regs = xferX (s.core e).regs xd.val w up) :
    RunsCore i e s (fun c =>
      WordResult xd (BitVec.ofInt 24 (if up then sat48 w / 2 ^ 24 else sat48 w)) m1 m2 (s.core e) c ∧
      SameNZG c.regs.es (s.core e).regs.es ∧ (sat48 w ≠ w → c.regs.es.getLsbD esSST = true)) := by
  refine runsCore_word hi hp h hm ho (fun c sat hw hes => ⟨hw, ?_, fun hs => ?_⟩)
  · rw [hes]
    exact (sameNZG_stick rfl).stick (by decide) sat
  · rw [hes]
    exact esStick_sst _ hs sat

theorem sclbx_grows {xa : XReg} (h : EngineReady e s) (hm : MovesOk e m1 m2 s) (hb : 0 ≤ (s.core e).regs.bx.toInt) :
    let w := ((s.core e).regs.xr xa.val).toInt * (2 ^ (s.core e).regs.bx.toInt.toNat : Nat)
    RunsCore (.sclbx e xd xa m1 m2) e s (fun c =>
      (WordResult xd (BitVec.ofInt 24 (sat24 w)) m1 m2 (s.core e) c ∧ FlagsOf24 c.regs.es (BitVec.ofInt 24 (sat24 w))) ∧
      (sat24 w ≠ w → c.regs.es.getLsbD esSST = true)) := by
  intro w
  refine runsCore_word (op := .sclbx xd.val xa.val) rfl rfl h hm (if_pos hb) (fun c sat hw hes => ⟨⟨hw, ?_⟩, fun hs => ?_⟩)
  · rw [hes]
    exact ((esWord_flags _ _).stick (by decide) _).stick (by decide) sat
  · rw [hes]
    exact esStick_sst _ hs sat

end words

/-- Settles O49: a word is written with its flags, a field of an accumulator with the flag of its clamp alone. -/
theorem engineWordResults : Obligations.EngineWordResults := by
  unfold Obligations.EngineWordResults
  intro s e ad xd xa xb m1 m2 h hm
  exact ⟨runsCore_putX rfl rfl h hm rfl, runsCore_putX rfl rfl h hm rfl, runsCore_putX rfl rfl h hm rfl, runsCore_putX rfl rfl h hm rfl,
    runsCore_putX rfl rfl h hm rfl, runsCore_putX rfl rfl h hm rfl, runsCore_xferX (up := true) rfl rfl h hm rfl,
    runsCore_xferX (up := true) rfl rfl h hm rfl, runsCore_xferX (up := false) rfl rfl h hm rfl, sclbx_grows h hm,
    fun hb => runsCore_putX (op := .sclbx xd.val xa.val) rfl rfl h hm (if_neg (Int.not_le.mpr hb))⟩

/-! ### Comparisons, the block exponent, extrema and division (R326, R330 to R332) -/

section compare
variable {i : Instr} {op : EOp} {e : Nat} {s : State} {m1 m2 : Move} {ad : Acc} {xa : XReg}

theorem runsCore_cmpAcc {d : Int} (hi : exec i s = runRow e op m1 m2 s) (hp : slotIllegal op = false) (h : EngineReady e s)
    (hm : MovesOk e m1 m2 s) (ho : runOp op 0 (s.core e).regs = cmpAcc (s.core e).regs d) :
    RunsCore i e s (fun c => NoResult m1 m2 (s.core e) c ∧ c.regs.bx = (s.core e).regs.bx ∧
      FlagsOf56 c.regs.es (BitVec.ofInt 56 (sat56 d)) ∧ c.regs.es.getLsbD esSAC = (s.core e).regs.es.getLsbD esSAC) := by
  refine runsCore_none hi hp h hm ho (fun c sat hn hbx hes => ⟨hn, hbx, ?_, ?_⟩)
  · rw [hes]
    exact (esAcc_flags _ _).stick (by decide) sat
  · rw [hes, esStick_sst_sac, esAcc_sac]

theorem xbit_runs {b : Nat} (h : EngineReady e s) (hm : MovesOk e m1 m2 s) (hb : b < 24) :
    RunsCore (.xbit e xa b m1 m2) e s (fun c => NoResult m1 m2 (s.core e) c ∧ c.regs.bx = (s.core e).regs.bx ∧
      c.regs.es.getLsbD esZ = !((s.core e).regs.xr xa.val).getLsbD b ∧ c.regs.es.getLsbD esN = false ∧ c.regs.es.getLsbD esG = false) := by
  refine runsCore_none (op := .xbit xa.val b) rfl rfl h hm (if_neg (by omega)) (fun c sat hn hbx hes => ?_)
  obtain ⟨kn, kz, kg⟩ := sameNZG_stick hes
  obtain ⟨bn, bz, bg⟩ := esNZG_bits (s.core e).regs.es false (!((s.core e).regs.xr xa.val).getLsbD b) false
  exact ⟨hn, hbx, kz.trans bz, kn.trans bn, kg.trans bg⟩

theorem signRunGo_le (v : Nat) (top : Bool) (n : Nat) : signRun.go v top n ≤ n := by
  induction n with
  | zero => exact Nat.le_refl 0
  | succ n ih =>
    unfold signRun.go
    split <;> omega

theorem signRun_le (w v : Nat) : signRun w v ≤ w - 1 := signRunGo_le ..

/-- The least of BX and a bound that seven bits hold. -/
theorem runsCore_minBX {k : Int} (hi : exec i s = runRow e op m1 m2 s) (hp : slotIllegal op = false) (h : EngineReady e s)
    (hm : MovesOk e m1 m2 s) (ho : runOp op 0 (s.core e).regs = minBX (s.core e).regs k) (hk : -64 ≤ k ∧ k < 64) :
    RunsCore i e s (fun c => NoResult m1 m2 (s.core e) c ∧ SameNZG c.regs.es (s.core e).regs.es ∧
      c.regs.bx.toInt = min (s.core e).regs.bx.toInt k) := by
  refine runsCore_none hi hp h hm ho (fun c sat hn hbx hes => ⟨hn, sameNZG_stick hes, ?_⟩)
  rw [hbx]
  split
  next hlt =>
    rw [min_eq_right hlt.le, BitVec.toInt_ofInt]
    exact Int.bmod_eq_of_le (by omega) (by omega)
  next hge => exact (min_eq_left (Int.not_lt.mp hge)).symm

/-- The operand is taken as the new extremum, or nothing is written (R330). -/
theorem runsCore_extreme {up take : Bool} (hi : exec i s = runRow e op m1 m2 s) (hp : slotIllegal op = false) (h : EngineReady e s)
    (hm : MovesOk e m1 m2 s) (ho : runOp op 0 (s.core e).regs = extreme (s.core e).regs 0 ad.val xa.val up)
    (ht : take = decide (if up then (s.core e).regs.accI ad < xWide (s.core e).regs xa.val else xWide (s.core e).regs xa.val < (s.core e).regs.accI ad)) :
    RunsCore i e s (fun c => c.pc = (s.core e).pc + 1 ∧ MovesOnly m1 m2 (s.core e) c ∧ SameNZG c.regs.es (s.core e).regs.es ∧
      SameSpecial c.regs (s.core e).regs ∧
      (if take then c.regs.ar ad.val = BitVec.ofInt 56 (xWide (s.core e).regs xa.val) ∧ c.regs.ix = 0
        else c.regs.ix = (s.core e).regs.ix ∧ ((s.core e).landing = [] → c.regs.a = (s.core e).regs.a))) := by
  subst ht
  by_cases hx : if up then (s.core e).regs.accI ad < xWide (s.core e).regs xa.val else xWide (s.core e).regs xa.val < (s.core e).regs.accI ad
  · rw [decide_eq_true hx]
    refine runsCore_accWrite hi hp h hm (ho.trans (if_pos hx)) (fun c hc => ?_)
    obtain ⟨sat, hes⟩ := hc.flags
    exact ⟨hc.pc, hc.moves, sameNZG_stick hes, hc.special, hc.value, hc.index⟩
  · rw [decide_eq_false hx]
    refine runsCore_none hi hp h hm (ho.trans (if_neg hx)) (fun c sat hn hbx hes => ?_)
    obtain ⟨hpc, hmv, hrm, hrl, hlc, hst, hix, hland⟩ := hn
    exact ⟨hpc, hmv, sameNZG_stick hes, ⟨hrm, hrl, hlc, hbx, hst⟩, hix, fun hl => (hland hl).2⟩

/-- One step of the restoring division compares and subtracts at bit 24 (R332). -/
theorem qstep_value (d : W56) (x : W24) : (if x.toNat ≤ d.toNat / 16777216 then d - BitVec.ofNat 56 (x.toNat * 16777216) + 1 else d) =
    if x.toNat ≤ (d >>> 24).toNat then d - (x.setWidth 56 <<< 24) + 1 else d := by
  have hd : (d >>> 24).toNat = d.toNat / 16777216 := by rw [BitVec.toNat_ushiftRight, Nat.shiftRight_eq_div_pow]
  have hx : BitVec.ofNat 56 (x.toNat * 16777216) = x.setWidth 56 <<< 24 := by
    apply BitVec.eq_of_toNat_eq
    simp [Nat.shiftLeft_eq]
  rw [hd, hx]

theorem qstep_runs (h : EngineReady e s) (hm : MovesOk e m1 m2 s) :
    let d : W56 := (s.core e).regs.ar ad.val <<< 1
    let x := (s.core e).regs.xr xa.val
    RunsCore (.qstep e ad xa m1 m2) e s (fun c => c.pc = (s.core e).pc + 1 ∧ MovesOnly m1 m2 (s.core e) c ∧
      SameNZG c.regs.es (s.core e).regs.es ∧ SameSpecial c.regs (s.core e).regs ∧
      c.regs.ar ad.val = if x.toNat ≤ (d >>> 24).toNat then d - (x.setWidth 56 <<< 24) + 1 else d) := by
  intro d x
  refine runsCore_accWrite (op := .qstep ad.val xa.val) rfl rfl h hm rfl (fun c hc => ?_)
  obtain ⟨sat, hes⟩ := hc.flags
  exact ⟨hc.pc, hc.moves, sameNZG_stick hes, hc.special, hc.value.trans (qstep_value d x)⟩

theorem bxset_runs {v : BitVec 7} (h : EngineReady e s) (hm : MovesOk e m1 m2 s) : RunsCore (.bxset e v m1 m2) e s (fun c =>
    NoResult m1 m2 (s.core e) c ∧ SameNZG c.regs.es (s.core e).regs.es ∧ c.regs.bx = v) :=
  runsCore_none (op := .bxset v) rfl rfl h hm rfl (fun _ _ hn hbx hes => ⟨hn, sameNZG_stick hes, hbx⟩)

theorem nop_runs (h : EngineReady e s) (hm : MovesOk e m1 m2 s) : RunsCore (.nop e m1 m2) e s (fun c =>
    NoResult m1 m2 (s.core e) c ∧ c.regs.bx = (s.core e).regs.bx ∧ SameNZG c.regs.es (s.core e).regs.es) :=
  runsCore_none (op := .nop) rfl rfl h hm rfl (fun _ _ hn hbx hes => ⟨hn, hbx, sameNZG_stick hes⟩)

end compare

/-- Settles O50: a comparison writes flags alone, an exponent BX alone, an extremum and a division step their accumulator. -/
theorem engineComparisonsAndSteps : Obligations.EngineComparisonsAndSteps := by
  unfold Obligations.EngineComparisonsAndSteps
  intro s e ad ar xa b v m1 m2 h hm
  have h24 := signRun_le 24 ((s.core e).regs.xr xa.val).toNat
  have h56 := signRun_le 56 ((s.core e).regs.ar ad.val).toNat
  exact ⟨runsCore_cmpAcc rfl rfl h hm rfl, runsCore_cmpAcc rfl rfl h hm rfl, xbit_runs h hm,
    runsCore_minBX (op := .bexp xa.val) rfl rfl h hm rfl (by omega), runsCore_minBX (op := .bexpa ad.val) rfl rfl h hm rfl (by omega),
    bxset_runs h hm, runsCore_extreme (up := true) rfl rfl h hm rfl rfl, runsCore_extreme (up := false) rfl rfl h hm rfl rfl,
    qstep_runs h hm, nop_runs h hm⟩

end Sys2Proof.Machine
end

