-- ==== Sys2Proof/Proofs/EngineFlow.lean ====
section
/-! Where execution continues, and the immediates and special registers of a loop engine: O51 and O52. -/

namespace Sys2Proof.Machine

section ready
variable {i : Instr} {op : EOp} {e : Nat} {s : State} {m1 m2 : Move}

theorem movesOk_none (e : Nat) (s : State) : MovesOk e .none .none s := ⟨rfl, rfl, rfl⟩

/-! ### Control flow (R327, R333, R334, R336, R343) -/

/-- What `execSingle` leaves on a ready engine. -/
theorem EngineReady.single (h : EngineReady e s) (hm : MovesOk e m1 m2 s) (ho : (runOp op 0 (s.core e).regs).fault = none) :
    execSingle op m1 m2 0 (s.core e) = singleCore op m1 m2 0 (s.core e) ∧ (singleCore op m1 m2 0 (s.core e)).fault.isSome = false :=
  ⟨execSingle_eq hm op 0 ho, congrArg Option.isSome h.fault⟩

theorem brc_runs {cc : Nat} {t : BitVec 14} {taken : Bool} (h : EngineReady e s)
    (hc : condHolds cc (s.core e).nzgOld (s.core e).regs.es = some taken) : RunsCore (.brc e cc t) e s (fun c =>
      (c.pc = (s.core e).pc + 1 ∧ c.branch = some (if taken then some t.toNat else none, 2) ∧ c.clocks = (s.core e).clocks + 1) ∧
      c.regs.stack = (s.core e).regs.stack) := by
  obtain ⟨hs, hf⟩ := h.single (op := .brc cc t) (movesOk_none e s) rfl
  refine runsCore_flow (op := .brc cc t) rfl h ?_
  simp only [execFlow, h.branch, hs, hf, hc]
  cases taken <;> exact ⟨⟨rfl, rfl, rfl⟩, rfl⟩

theorem condHolds_reserved {cc : Nat} (h : 11 ≤ cc) (nzg es : BitVec 8) : condHolds cc nzg es = none := by
  obtain ⟨k, rfl⟩ := Nat.exists_eq_add_of_le' h
  rfl

theorem brc_reserved {cc : Nat} {t : BitVec 14} (h : EngineReady e s) (hc : 11 ≤ cc) :
    RunsCore (.brc e cc t) e s (fun c => c = { s.core e with fault := some (1, (s.core e).pc) }) := by
  obtain ⟨hs, hf⟩ := h.single (op := .brc cc t) (movesOk_none e s) rfl
  refine runsCore_fail (op := .brc cc t) rfl h ?_
  simp [execFlow, h.branch, hs, hf, condHolds_reserved hc]

theorem call_runs {t : BitVec 14} (h : EngineReady e s) (hl : (s.core e).regs.stack.length < 4) : RunsCore (.call e t) e s (fun c =>
    (c.pc = (s.core e).pc + 1 ∧ c.branch = some (some t.toNat, 2) ∧ c.clocks = (s.core e).clocks + 1) ∧
    c.regs.stack = BitVec.ofNat 14 ((s.core e).pc + 3) :: (s.core e).regs.stack) := by
  obtain ⟨hs, hf⟩ := h.single (op := .call t) (movesOk_none e s) rfl
  refine runsCore_flow (op := .call t) rfl h ?_
  simp only [execFlow, h.branch, hs, hf, if_neg (Nat.not_le.mpr hl)]
  exact ⟨⟨rfl, rfl, rfl⟩, rfl⟩

theorem call_overflows {t : BitVec 14} (h : EngineReady e s) (hl : 4 ≤ (s.core e).regs.stack.length) :
    RunsCore (.call e t) e s (fun c => c = { s.core e with fault := some (5, (s.core e).pc) }) := by
  obtain ⟨hs, hf⟩ := h.single (op := .call t) (movesOk_none e s) rfl
  refine runsCore_fail (op := .call t) rfl h ?_
  simp [execFlow, h.branch, hs, hf, hl]

theorem ret_runs {a : BitVec 14} {rest : List (BitVec 14)} (h : EngineReady e s) (hl : (s.core e).regs.stack = a :: rest) :
    RunsCore (.ret e) e s (fun c =>
      (c.pc = (s.core e).pc + 1 ∧ c.branch = some (some a.toNat, 2) ∧ c.clocks = (s.core e).clocks + 1) ∧ c.regs.stack = rest) := by
  obtain ⟨hs, hf⟩ := h.single (op := .ret) (movesOk_none e s) rfl
  refine runsCore_flow (op := .ret) rfl h ?_
  simp only [execFlow, h.branch, hs, hf, hl]
  exact ⟨⟨rfl, rfl, rfl⟩, rfl⟩

theorem ret_underflows (h : EngineReady e s) (hl : (s.core e).regs.stack = []) :
    RunsCore (.ret e) e s (fun c => c = { s.core e with fault := some (5, (s.core e).pc) }) := by
  obtain ⟨hs, hf⟩ := h.single (op := .ret) (movesOk_none e s) rfl
  refine runsCore_fail (op := .ret) rfl h ?_
  simp [execFlow, h.branch, hs, hf, hl]

theorem decbr_runs {xn : XReg} {t : BitVec 14} (h : EngineReady e s) : RunsCore (.decbr e xn t) e s (fun c =>
    (c.pc = (s.core e).pc + 1 ∧ c.branch = some (if (s.core e).regs.xr xn.val - 1 = 0 then none else some t.toNat, 2) ∧
      c.clocks = (s.core e).clocks + 1) ∧
    c.regs.xr xn.val = (s.core e).regs.xr xn.val - 1 ∧ SameNZG c.regs.es (s.core e).regs.es) := by
  obtain ⟨hs, hf⟩ := h.single (op := .decbr xn.val t) (movesOk_none e s) rfl
  obtain ⟨⟨-, -, hx, -⟩, sat, hes⟩ := word_result (op := .decbr xn.val t) (m1 := .none) (m2 := .none) h.regs rfl
  refine runsCore_flow (op := .decbr xn.val t) rfl h ?_
  have hz : (s.core e).regs.xr xn.val = 1 ↔ (s.core e).regs.xr xn.val - 1 = 0 := sub_eq_zero.symm
  simp only [execFlow, h.branch, hs, hf, hz]
  exact ⟨⟨rfl, rfl, rfl⟩, hx, sameNZG_stick hes⟩

theorem rep_runs {n : Nat} (h : EngineReady e s) (hm : MovesOk e m1 m2 s) (hn : n ≤ 65536) : RunsCore (.rep e n m1 m2) e s (fun c =>
    c.pc = (s.core e).pc + 1 ∧ c.rep = some (n, 0) ∧ MovesOnly m1 m2 (s.core e) c) := by
  obtain ⟨hs, hf⟩ := h.single (op := .rep n) hm rfl
  refine runsCore_flow (op := .rep n) rfl h ?_
  simp only [execFlow, h.branch, hs, hf, if_neg (Nat.not_lt.mpr hn)]
  exact ⟨rfl, rfl, singleCore_moves rfl 0⟩

theorem done_runs (h : EngineReady e s) (hm : MovesOk e m1 m2 s) : RunsCore (.done e m1 m2) e s (fun c =>
    c.done = true ∧ c.pc = (s.core e).pc + 1 ∧ MovesOnly m1 m2 (s.core e) c) := by
  obtain ⟨hs, hf⟩ := h.single (op := .done) hm rfl
  refine runsCore_flow (op := .done) rfl h ?_
  simp only [execFlow, h.branch, hs, hf]
  exact ⟨rfl, rfl, singleCore_moves rfl 0⟩

/-! ### Immediates and special registers (R328, R329) -/

/-- A move leaves the pointer that the operation wrote. -/
theorem bumpPtr_written (old : ERegs) (p : Nat) (m : Move) (r : ERegs) : (bumpPtr old (some p) m r).pr p = r.pr p := by
  unfold bumpPtr
  split
  next q md _ =>
    split
    · rfl
    next hk =>
      have hne : q ≠ p := fun hq => hk (.inr (congrArg some hq.symm))
      simp [ERegs.setP, ERegs.pr, hne]
  · rfl

theorem singleCore_pointer {p : Nat} {c : ECore} (hw : (runOp op 0 c.regs).wp = some p) :
    (singleCore op m1 m2 0 c).regs.pr p = (runOp op 0 c.regs).regs.pr p := by
  unfold singleCore
  dsimp only
  rw [hw, bumpPtr_written, bumpPtr_written]
  rfl

theorem getD_set {α : Type} {l : List α} {n : Nat} (hl : l.length = n) (k : Fin n) (v d : α) : ((l.set k.val v)[k.val]?).getD d = v := by
  simp [hl]

theorem ximm_runs {xd : XReg} {v : W24} (h : EngineReady e s) : RunsCore (.ximm e xd v) e s (fun c =>
    WordResult xd v .none .none (s.core e) c ∧ c.regs.es = (s.core e).regs.es) := by
  obtain ⟨hw, -⟩ := word_result (op := .ximm xd.val v) (m1 := .none) (m2 := .none) h.regs rfl
  exact runsCore_plain (op := .ximm xd.val v) rfl h (movesOk_none e s) rfl rfl ⟨hw, rfl⟩

theorem pimm_runs {p : PReg} {w : BitVec 16} (h : EngineReady e s) : RunsCore (.pimm e p w) e s (fun c =>
    c.pc = (s.core e).pc + 1 ∧ c.regs.pr p.val = w ∧ ∀ j : PReg, j ≠ p → c.regs.pr j.val = (s.core e).regs.pr j.val) := by
  obtain ⟨-, -, hp, -⟩ := h.regs
  refine runsCore_plain (op := .pimm p.val w) rfl h (movesOk_none e s) rfl rfl ⟨rfl, getD_set hp p w 0, fun j hj => ?_⟩
  have hne : p.val ≠ j.val := fun hv => hj (Fin.ext hv.symm)
  exact congrArg (Option.getD · 0) (List.getElem?_set_ne hne)

theorem mimm_runs {p : PReg} {w : BitVec 16} (h : EngineReady e s) : RunsCore (.mimm e p w) e s (fun c =>
    c.pc = (s.core e).pc + 1 ∧ c.regs.mr p.val = w ∧ c.regs.p = (s.core e).regs.p) := by
  obtain ⟨-, -, -, hm, -⟩ := h.regs
  exact runsCore_plain (op := .mimm p.val w) rfl h (movesOk_none e s) rfl rfl ⟨rfl, getD_set hm p w 0, rfl⟩

theorem limm_runs {p : PReg} {w : BitVec 16} (h : EngineReady e s) (hw : w.toNat < 16384) : RunsCore (.limm e p w) e s (fun c =>
    c.pc = (s.core e).pc + 1 ∧ (c.regs.lr p.val).toNat = w.toNat) := by
  obtain ⟨-, -, -, -, hl⟩ := h.regs
  have ho : runOp (.limm p.val w) 0 (s.core e).regs =
      { regs := { (s.core e).regs with l := (s.core e).regs.l.set p.val (w.setWidth 14) } } := if_neg (Nat.not_le.mpr hw)
  refine runsCore_plain (op := .limm p.val w) rfl h (movesOk_none e s) rfl (by rw [ho]) ⟨rfl, ?_⟩
  obtain ⟨-, -, -, hls, -⟩ := singleCore_regs (.limm p.val w) .none .none 0 (s.core e)
  rw [ho] at hls
  rw [ERegs.lr, hls, getD_set hl, BitVec.toNat_setWidth]
  exact Nat.mod_eq_of_lt hw

/-- SREG reads a special register, whose value is `x`, into an X register. -/
theorem sreg_reads {xn : XReg} {sel : Nat} {p : PReg} {x : W24} (h : EngineReady e s) (hm : MovesOk e m1 m2 s)
    (ho : sregOp (s.core e).regs xn.val sel p.val false = { regs := (s.core e).regs.setX xn.val x, wx := some xn.val }) :
    RunsCore (.sreg e xn sel p false m1 m2) e s (fun c =>
      WordResult xn x m1 m2 (s.core e) c ∧ SameNZG c.regs.es (s.core e).regs.es) :=
  runsCore_word (op := .sreg xn.val sel p.val false) rfl rfl h hm ho (fun _ _ hw hes => ⟨hw, sameNZG_stick hes⟩)

/-- SREG writes a special register other than a pointer. -/
theorem sreg_writes {xn : XReg} {sel : Nat} {p : PReg} {g : ERegs} {R : ECore → Prop} (h : EngineReady e s) (hm : MovesOk e m1 m2 s)
    (ho : sregOp (s.core e).regs xn.val sel p.val true = { regs := g })
    (hR : ∀ c : ECore, c.pc = (s.core e).pc + 1 → c.regs.m = g.m → c.regs.l = g.l → c.regs.ix = g.ix → c.regs.bx = g.bx → R c) :
    RunsCore (.sreg e xn sel p true m1 m2) e s R := by
  have hs := singleCore_regs (.sreg xn.val sel p.val true) m1 m2 0 (s.core e)
  rw [show runOp (.sreg xn.val sel p.val true) 0 (s.core e).regs = { regs := g } from ho] at hs
  obtain ⟨-, -, hrm, hrl, -, hix, hbx, -, -⟩ := hs
  exact runsCore_plain (op := .sreg xn.val sel p.val true) rfl h hm rfl (congrArg OpOut.fault ho) (hR _ rfl hrm hrl hix hbx)

theorem sreg_writesPointer {xn : XReg} {p : PReg} (h : EngineReady e s) (hm : MovesOk e m1 m2 s) :
    RunsCore (.sreg e xn 0 p true m1 m2) e s (fun c =>
      c.pc = (s.core e).pc + 1 ∧ c.regs.pr p.val = ((s.core e).regs.xr xn.val).setWidth 16) := by
  obtain ⟨-, -, hp, -⟩ := h.regs
  have ho : runOp (.sreg xn.val 0 p.val true) 0 (s.core e).regs =
      { regs := (s.core e).regs.setP p.val (((s.core e).regs.xr xn.val).setWidth 16), wp := some p.val } := by simp [runOp, sregOp]
  refine runsCore_plain (op := .sreg xn.val 0 p.val true) rfl h hm rfl (by rw [ho]) ⟨rfl, ?_⟩
  rw [singleCore_pointer (by rw [ho]), ho]
  exact getD_set hp p _ 0

theorem sreg_writesStatus {xn : XReg} (h : EngineReady e s) : RunsCore (.sreg e xn 6 0 true .none .none) e s (fun c =>
    c.pc = (s.core e).pc + 1 ∧ c.regs.es = (((s.core e).regs.xr xn.val).setWidth 5).setWidth 8) :=
  runsCore_plain (op := .sreg xn.val 6 0 true) rfl h (movesOk_none e s) rfl rfl ⟨rfl, rfl⟩

theorem sreg_illegal {xn : XReg} {sel : Nat} {p : PReg} {dir : Bool} (h : EngineReady e s) (hm : MovesOk e m1 m2 s)
    (hi : 7 ≤ sel ∨ (dir ∧ sel = 3) ∨ (3 ≤ sel ∧ p.val ≠ 0)) :
    RunsCore (.sreg e xn sel p dir m1 m2) e s (fun c => c = { s.core e with fault := some (1, (s.core e).pc) }) :=
  runsCore_opFault (op := .sreg xn.val sel p.val dir) rfl h hm (congrArg OpOut.fault (if_pos hi))

end ready

/-- Settles O51: each control instruction leaves the next address and the branch that waits, unless it faults. -/
theorem engineControlFlow : Obligations.EngineControlFlow := by
  unfold Obligations.EngineControlFlow
  intro s e cc n t xn m1 m2 h hm
  exact ⟨fun _ => brc_runs h, brc_reserved h, call_runs h, call_overflows h, fun _ _ => ret_runs h, ret_underflows h, decbr_runs h,
    rep_runs h hm, done_runs h hm⟩

/-- Settles O52: an immediate and a special register each move one word, and what R329 does not allow faults. -/
theorem engineImmediatesAndSpecialRegisters : Obligations.EngineImmediatesAndSpecialRegisters := by
  unfold Obligations.EngineImmediatesAndSpecialRegisters
  intro s e xn p v w sel dir m1 m2 h hm
  obtain ⟨-, -, -, hM, hL⟩ := h.regs
  refine ⟨ximm_runs h, pimm_runs h, mimm_runs h, limm_runs h,
    fun hw => runsCore_opFault (op := .limm p.val w) rfl h (movesOk_none e s) (congrArg OpOut.fault (if_pos hw)),
    sreg_reads h hm ?_, sreg_reads h hm ?_, sreg_reads h hm ?_, sreg_reads h hm rfl, sreg_reads h hm rfl, sreg_reads h hm rfl,
    sreg_reads h hm rfl, sreg_writes h hm rfl ?_, sreg_writes h hm rfl ?_, sreg_writesPointer h hm, ?_, ?_, sreg_writesStatus h,
    fun hs => sreg_illegal h hm (.inl hs), sreg_illegal h hm (.inr (.inl ⟨rfl, rfl⟩))⟩
  · simp [sregOp]
  · simp [sregOp]
  · simp [sregOp]
  · exact fun c hpc _ _ hix _ => ⟨hpc, hix⟩
  · exact fun c hpc _ _ _ hbx => ⟨hpc, hbx⟩
  · refine sreg_writes h hm (g := { (s.core e).regs with m := (s.core e).regs.m.set p.val (((s.core e).regs.xr xn.val).setWidth 16) })
      (by simp [sregOp]) (fun c hpc hm' _ _ _ => ⟨hpc, ?_⟩)
    rw [ERegs.mr, hm', getD_set hM]
  · refine sreg_writes h hm (g := { (s.core e).regs with l := (s.core e).regs.l.set p.val (((s.core e).regs.xr xn.val).setWidth 14) })
      (by simp [sregOp]) (fun c hpc _ hl' _ _ => ⟨hpc, ?_⟩)
    rw [ERegs.lr, hl', getD_set hL]

end Sys2Proof.Machine
end

