-- ==== Sys2Proof/Proofs/EngineRepeats.lean ====
section
/-! Repeated instructions and illegal moves of a loop engine: O53. -/

namespace Sys2Proof.Machine

/-! ### Repeats (R333) -/

section repeats
variable {i : Instr} {op : EOp} {e n : Nat} {s : State} {m1 m2 : Move} {c : ECore} {xd xa : XReg}

/-- An engine in service executes the instruction of its row. -/
theorem runsCore_instr {R : ECore → Prop} (hi : exec i s = runRow e op m1 m2 s) (he : e < engineCount s.var)
    (hs : (s.engine e).state = .inService) (hR : R (execInstr op m1 m2 (s.core e))) : RunsCore i e s R :=
  ⟨_, hi.trans ((if_pos ⟨he, hs⟩).trans (congrArg Host.Outcome.next (onEngine_congr rfl))), hR⟩

/-- A core in front of an instruction that a REP repeats `n` times, where no load is to land. -/
def ECore.repeats (c : ECore) (n : Nat) : ECore := { c with rep := some (n, 0), landing := [] }

def State.repeats (s : State) (e n : Nat) : State := s.onEngine e (fun g => { g with core := (s.core e).repeats n })

theorem repeats_core (s : State) (e n : Nat) : (s.repeats e n).core e = (s.core e).repeats n := congrArg Engine.core (onEngine_engine ..)

/-- A repeated instruction that does not fault leaves LC 0 and goes on behind itself. -/
theorem execInstr_repeats {k : Nat} (hfault : c.fault = none) (hdone : c.done = false) (hhalted : c.halted = false)
    (hasked : c.haltAsked = false) (hpc : c.pc < 0x3FF0) (hrep : c.rep = some (n, k)) (hop : repeatable op = true)
    (hf : (repeatRun op m1 m2 n n c).fault = none) : execInstr op m1 m2 c =
      { repeatRun op m1 m2 n n c with regs := { (repeatRun op m1 m2 n n c).regs with lc := 0 }, rep := none, pc := c.pc + 1 } := by
  have ha : (repeatRun op m1 m2 n n c).haltAsked = false := (congrArg Prod.snd (repeatRun_hold op m1 m2 n n c)).trans hasked
  unfold execInstr
  rw [if_neg (by simp [hfault, hdone, hhalted]), if_neg (Nat.not_le.mpr hpc), hrep]
  dsimp only
  rw [if_neg (by simp [hop]), if_neg (by simp [hf])]
  exact takeHalt_id ha

theorem runsCore_repeats {R : ECore → Prop} (hi : exec i (s.repeats e n) = runRow e op m1 m2 (s.repeats e n)) (h : EngineReady e s)
    (hop : repeatable op = true) {c1 : ECore} (h1 : repeatRun op m1 m2 n n ((s.repeats e n).core e) = c1) (hf : c1.fault = none)
    (hR : R { c1 with regs := { c1.regs with lc := 0 }, rep := none, pc := (s.core e).pc + 1 }) : RunsCore i e (s.repeats e n) R := by
  subst h1
  obtain ⟨he, hs, hfault, hdone, hhalted, hasked, hpc, -, -, -⟩ := h
  refine runsCore_instr hi he ((congrArg Engine.state (onEngine_engine ..)).trans hs) ?_
  rw [repeats_core] at hf hR ⊢
  rwa [execInstr_repeats (c := (s.core e).repeats n) hfault hdone hhalted hasked hpc rfl hop hf]

theorem aadd_skipped {ad ar : Acc} (h : EngineReady e s) : RunsCore (.aadd e ad ar .none .none) e (s.repeats e 0) (fun c =>
    c.regs.a = (s.core e).regs.a ∧ c.regs.x = (s.core e).regs.x ∧ c.regs.lc = 0 ∧ c.rep = none ∧ c.pc = (s.core e).pc + 1) :=
  runsCore_repeats (op := .aadd ad.val ar.val) rfl h rfl (repeats_core s e 0) h.fault ⟨rfl, rfl, rfl, rfl, rfl⟩

/-- The X register `xd` holds `v` after `k` clocks, with 1 in `xa` to subtract and no load to land. -/
structure CountsDown (xd xa : XReg) (v : W24) (k : Nat) (c : ECore) : Prop where
  fault : c.fault = none
  landing : c.landing = []
  length : c.regs.x.length = 16
  one : c.regs.xr xa.val = 1
  value : c.regs.xr xd.val = v
  clocks : c.clocks = k

theorem execSingle_none (idx : Nat) (ho : (runOp op idx c.regs).fault = none) :
    execSingle op .none .none idx c = singleCore op .none .none idx c := by
  simp [execSingle, clash, moveModifies, moveDest, moveAddr, movePtr, ho, singleCore]

theorem CountsDown.step {v : W24} {k : Nat} (hc : CountsDown xd xa v k c) (hne : xa ≠ xd) (idx : Nat) :
    CountsDown xd xa (v - 1) (k + 1) (execSingle (.xsub xd.val xd.val xa.val) .none .none idx c) := by
  have hv : xd.val ≠ xa.val := fun h => hne (Fin.ext h.symm)
  have hx : (singleCore (.xsub xd.val xd.val xa.val) .none .none idx c).regs.x = c.regs.x.set xd.val (v - 1) := by
    obtain ⟨hx, -⟩ := singleCore_regs (.xsub xd.val xd.val xa.val) .none .none idx c
    rw [hx, hc.landing, ← hc.one, ← hc.value]
    rfl
  rw [execSingle_none idx rfl]
  refine ⟨hc.fault, rfl, ?_, ?_, ?_, congrArg (· + 1) hc.clocks⟩
  · rw [hx, List.length_set, hc.length]
  · rw [ERegs.xr, hx, List.getElem?_set_ne hv]
    exact hc.one
  · rw [ERegs.xr, hx, getD_set hc.length]

theorem repeatRun_succ {left : Nat} (hf : c.fault = none) : repeatRun op m1 m2 n (left + 1) c =
    repeatRun op m1 m2 n left (execSingle op m1 m2 (n - (left + 1)) { c with regs := { c.regs with lc := BitVec.ofNat 17 (left + 1) } }) :=
  if_neg (by simp [hf])

/-- Each repetition counts one down. -/
theorem CountsDown.repeatRun {v : W24} {k : Nat} (hne : xa ≠ xd) (hc : CountsDown xd xa v k c) (left : Nat) :
    CountsDown xd xa (v - BitVec.ofNat 24 left) (k + left)
      (repeatRun (.xsub xd.val xd.val xa.val) .none .none n left c) := by
  induction left generalizing c v k with
  | zero => exact (sub_zero v).symm ▸ hc
  | succ left ih =>
    have hlc : CountsDown xd xa v k { c with regs := { c.regs with lc := BitVec.ofNat 17 (left + 1) } } :=
      ⟨hc.fault, hc.landing, hc.length, hc.one, hc.value, hc.clocks⟩
    have hnext := ih (hlc.step hne (n - (left + 1)))
    have hv : v - BitVec.ofNat 24 (left + 1) = v - 1 - BitVec.ofNat 24 left := by
      rw [BitVec.ofNat_add, sub_sub, add_comm]
      rfl
    rw [repeatRun_succ hc.fault, hv, show k + (left + 1) = k + 1 + left by omega]
    exact hnext

theorem xsub_counts {v : W24} (h : EngineReady e s) (hd : (s.core e).regs.xr xd.val = v) (hne : xa ≠ xd) (h1 : (s.core e).regs.xr xa.val = 1) :
    RunsCore (.xsub e xd xd xa .none .none) e (s.repeats e n) (fun c => c.regs.xr xd.val = v - BitVec.ofNat 24 n ∧ c.regs.lc = 0 ∧
      c.rep = none ∧ c.pc = (s.core e).pc + 1 ∧ c.clocks = (s.core e).clocks + n) := by
  have hc : CountsDown xd xa v (s.core e).clocks ((s.repeats e n).core e) := by
    obtain ⟨hx, -⟩ := h.regs
    rw [repeats_core]
    exact ⟨h.fault, rfl, hx, h1, hd, rfl⟩
  have hrun := hc.repeatRun (n := n) hne n
  exact runsCore_repeats (op := .xsub xd.val xd.val xa.val) rfl h rfl rfl hrun.fault ⟨hrun.value, rfl, rfl, rfl, hrun.clocks⟩

end repeats

/-! ### Moves that may not stand (R335, R338) -/

section illegal
variable {i : Instr} {op : EOp} {e : Nat} {s : State} {m1 m2 : Move}

theorem runsCore_clash (hi : exec i s = runRow e op m1 m2 s) (h : EngineReady e s) (hc : clash m1 m2 = true) :
    RunsCore i e s (fun c => c = { s.core e with fault := some (2, (s.core e).pc) }) :=
  runsCore_fail hi h (execFlow_fail h.branch (if_pos hc))

theorem runsCore_outside (hi : exec i s = runRow e op m1 m2 s) (h : EngineReady e s) (hc : clash m1 m2 = false)
    (ha : (moveAddr (s.core e).regs m1).any (Nat.ble 0x3F00) = true ∨ (moveAddr (s.core e).regs m2).any (Nat.ble 0x3F00) = true) :
    RunsCore i e s (fun c => c = { s.core e with fault := some (3, (s.core e).pc) }) :=
  runsCore_fail hi h (execFlow_fail h.branch ((if_neg (by rw [hc]; exact Bool.false_ne_true)).trans (if_pos (Bool.or_eq_true_iff.mpr ha))))

end illegal

/-- Settles O53: a repetition is an induction on the runs that are left; an illegal move faults before its operation runs. -/
theorem engineRepeatsAndIllegalMoves : Obligations.EngineRepeatsAndIllegalMoves := by
  unfold Obligations.EngineRepeatsAndIllegalMoves
  intro s e n ad ar m1 m2 h
  refine ⟨?_, fun _ xd v hd xa hne h1 => xsub_counts h hd hne h1, fun hc => ⟨runsCore_clash (op := .nop) rfl h hc,
    runsCore_clash (op := .aadd ad.val ar.val) rfl h hc⟩,
    fun hc ha => ⟨runsCore_outside (op := .nop) rfl h hc ha, runsCore_outside (op := .aadd ad.val ar.val) rfl h hc ha⟩⟩
  rintro rfl
  exact aadd_skipped h

end Sys2Proof.Machine
end

