-- ==== Sys2Proof/Proofs/LawBlocks.lean ====
section
/-! Law blocks: LAW_LOAD and the checks that follow it, LAW_UNLOAD, LAW_COEF_WRITE and LAW_TEST (R345, R671, R675, R682): O54. -/

namespace Sys2Proof.Machine

variable {s a : State} {dt l : Nat} {q : Request} {b : Bytes} {rest : List (Bytes × Bool)} {k : PTask}

/-! ### LAW_LOAD (R345, R671) -/

/-- The segments that stand staged before the one that a LAW_LOAD brings. -/
def loadBase (s : State) (q : Request) : Bytes := if uAt q.payload 4 4 = 0 then [] else s.disp.staged

theorem loadBase_atStamp (code dt : Nat) (q : Request) (s : State) : loadBase (atStamp code dt q s) q = loadBase s q := by
  rw [loadBase, atStamp_disp, loadBase]

theorem lawLoad_stages (h : Served Cmd.lawLoad dt q s) (hr : uAt q.payload 1 3 = 0) (ho : uAt q.payload 4 4 = (loadBase s q).length)
    (hf : uAt q.payload 0 1 = 0) : Answers (.lawLoad dt q) Cmd.lawLoad dt q s St.ok (fun u p => p = [] ∧
      u.disp = { s.disp with staged := loadBase s q ++ q.payload.drop 8 }) := by
  have hb : lawLoadBody (atStamp Cmd.lawLoad dt q s) q (stampOf Cmd.lawLoad dt q s) =
      .ok { atStamp Cmd.lawLoad dt q s with disp := { s.disp with staged := loadBase s q ++ q.payload.drop 8 } } [] := by
    rw [← loadBase_atStamp Cmd.lawLoad dt, ← atStamp_disp Cmd.lawLoad dt q s]
    rw [← loadBase_atStamp Cmd.lawLoad dt] at ho
    exact (need_pos (decide_eq_true ⟨by omega, resv_of_eq hr, ho⟩) _).trans (if_neg (by omega))
  exact answers_ok (body := lawLoadBody) rfl h hb ⟨rfl, rfl⟩

theorem lawLoad_pends (h : Served Cmd.lawLoad dt q s) (hr : uAt q.payload 1 3 = 0) (ho : uAt q.payload 4 4 = (loadBase s q).length)
    (hf : uAt q.payload 0 1 = 1) : Answers (.lawLoad dt q) Cmd.lawLoad dt q s St.pend (fun u p => p = [] ∧
      isPending u Cmd.lawLoad 0 = true ∧
      u.disp = { s.disp with staged := [], loading := s.disp.loading ++ [(loadBase s q ++ q.payload.drop 8, false)] }) := by
  have hb : lawLoadBody (atStamp Cmd.lawLoad dt q s) q (stampOf Cmd.lawLoad dt q s) =
      .pend (addPend { atStamp Cmd.lawLoad dt q s with disp := { s.disp with
        staged := [], loading := s.disp.loading ++ [(loadBase s q ++ q.payload.drop 8, false)] } } Cmd.lawLoad q) := by
    rw [← loadBase_atStamp Cmd.lawLoad dt, ← atStamp_disp Cmd.lawLoad dt q s]
    rw [← loadBase_atStamp Cmd.lawLoad dt] at ho
    exact (need_pos (decide_eq_true ⟨by omega, resv_of_eq hr, ho⟩) _).trans (if_pos hf)
  exact answers_pend (body := lawLoadBody) rfl h hb ⟨rfl, isPending_addPend .., rfl⟩

theorem lawLoad_refuses (h : Served Cmd.lawLoad dt q s) (ho : uAt q.payload 4 4 ≠ (loadBase s q).length) :
    Refuses (.lawLoad dt q) Cmd.lawLoad dt q s St.badParam := by
  rw [← loadBase_atStamp Cmd.lawLoad dt] at ho
  refine refuses (body := lawLoadBody) rfl h (need_neg (decide_eq_false fun hn => ?_) _)
  obtain ⟨-, -, hoff⟩ := hn
  exact ho hoff

/-! ### LAW_LOAD_DONE (R345, R682) -/

theorem finishOne_disp (s : State) (code status : Nat) (p : Bytes) : (finishOne s code status p).disp = s.disp := by
  unfold finishOne
  split
  next c _ =>
    obtain ⟨_, _, e, -⟩ := notify_frame { s with pend := dropFirst code s.pend } c.code c.tag status (b8 c.mb ++ zeros 3 ++ p)
    rw [e]
  · rfl

/-- The block whose checks end is taken off the list, whatever they find. -/
def State.loadTaken (s : State) (rest : List (Bytes × Bool)) : State := { s with disp := { s.disp with loading := rest } }

theorem blockOverlaps_advance (dt : Nat) (s : State) (h : LawBlock) : blockOverlaps (advance dt s) h = blockOverlaps s h := by
  rw [blockOverlaps, advance_disp, blockOverlaps]

theorem lawLoadDone_passes (hl : s.disp.loading = (b, false) :: rest) (hf : blockFormat b = true) (ho : blockOverlaps s (blockHead b) = false)
    (hw : firstBad b = none) : Runs (.lawLoadDone dt) s (fun t => t.disp.loading = rest ∧ t.disp.blocks = s.disp.blocks ++ [blockHead b] ∧
      ∀ i, i < (blockHead b).wordCount → tfind t.disp.prog ((blockHead b).loadAddr + i) = some (BitVec.ofNat 48 (codeWord b i))) := by
  rw [← advance_disp dt] at hl ⊢
  rw [← blockOverlaps_advance dt] at ho
  have he : ∃ u, exec (.lawLoadDone dt) s = .next (finishOne u Cmd.lawLoad St.ok) ∧ u.disp = { (advance dt s).disp with
      loading := rest, blocks := (advance dt s).disp.blocks ++ [blockHead b],
      prog := (List.range (blockHead b).wordCount).foldl
        (fun t i => tput t ((blockHead b).loadAddr + i) (BitVec.ofNat 48 (codeWord b i))) (advance dt s).disp.prog } := by
    show ∃ u, execLawLoadDone dt s = _ ∧ _
    unfold execLawLoadDone
    dsimp only
    rw [hl]
    dsimp only
    rw [hf, if_neg (by decide), ho, if_neg (by decide), hw]
    exact ⟨_, rfl, rfl⟩
  obtain ⟨u, hu, hd⟩ := he
  refine ⟨_, hu, ?_⟩
  dsimp only
  rw [finishOne_disp, hd]
  exact ⟨rfl, rfl, fun i hi => tfind_putRun_self (fun i => BitVec.ofNat 48 (codeWord b i)) _ _ hi⟩

theorem lawLoadDone_fails (hl : s.disp.loading = (b, false) :: rest)
    (hx : blockFormat b = false ∨ blockOverlaps s (blockHead b) = true ∨ (firstBad b).isSome = true) :
    Runs (.lawLoadDone dt) s (fun t => t.disp = { s.disp with loading := rest }) := by
  rw [← advance_disp dt] at hl ⊢
  rw [← blockOverlaps_advance dt] at hx
  have he : ∃ status p, exec (.lawLoadDone dt) s = .next (finishOne ((advance dt s).loadTaken rest) Cmd.lawLoad status p) := by
    show ∃ status p, execLawLoadDone dt s = _
    unfold execLawLoadDone
    dsimp only
    rw [hl]
    dsimp only
    split
    · exact ⟨_, _, rfl⟩
    next hf =>
      split
      · exact ⟨_, _, rfl⟩
      next ho =>
        split
        · exact ⟨_, _, rfl⟩
        next hw =>
          rw [hw] at hx
          rcases hx with hx | hx | hx
          · exact absurd (congrArg Bool.not hx) hf
          · exact absurd hx ho
          · cases hx
  obtain ⟨status, p, hu⟩ := he
  exact ⟨_, hu, finishOne_disp ..⟩

/-! ### LAW_UNLOAD (R345, R682) -/

theorem lawUnload_fields (hl : uAt q.payload 0 2 = l) (hr : uAt q.payload 2 2 = 0) (hu : 0x8000 ≤ l)
    (hb : a.disp.blocks.any (fun b => b.lawId == l) = true) (t : Nat) : lawUnloadBody a q t =
    orElse (!planUses a.image l && !(a.plan.standbySt != .empty && planUses a.plan.standby l)) St.lawInUse (.ok { a with disp := { a.disp with
      blocks := a.disp.blocks.filter (fun b => b.lawId != l),
      loading := a.disp.loading.map (fun e => if (blockHead e.1).lawId = l then (e.1, true) else e) } } []) := by
  subst hl
  exact need_pos (decide_eq_true ⟨resv_of_eq hr, Nat.ble_eq.mpr hu, Bool.or_eq_true_iff.mpr (.inl hb)⟩) _

theorem lawUnload_frees (h : Served Cmd.lawUnload dt q s) (hl : uAt q.payload 0 2 = l) (hr : uAt q.payload 2 2 = 0) (hu : 0x8000 ≤ l)
    (hb : s.disp.blocks.any (fun b => b.lawId == l) = true) (hp : planUses s.image l = false) (hs : s.plan.standbySt = .empty) :
    Answers (.lawUnload dt q) Cmd.lawUnload dt q s St.ok (fun u p => p = [] ∧
      u.disp.blocks = s.disp.blocks.filter (fun b => b.lawId != l) ∧ u.disp.prog = s.disp.prog) := by
  rw [← atStamp_disp Cmd.lawUnload dt q s] at hb ⊢
  refine answers_ok (body := lawUnloadBody) rfl h ((lawUnload_fields hl hr hu hb _).trans (orElse_pos ?_ _ _)) ⟨rfl, rfl, rfl⟩
  rw [image_atStamp, atStamp_plan, hp, hs]
  rfl

theorem lawUnload_inUse (h : Served Cmd.lawUnload dt q s) (hl : uAt q.payload 0 2 = l) (hr : uAt q.payload 2 2 = 0) (hu : 0x8000 ≤ l)
    (hb : s.disp.blocks.any (fun b => b.lawId == l) = true) (hp : planUses s.image l = true) :
    Refuses (.lawUnload dt q) Cmd.lawUnload dt q s St.lawInUse := by
  rw [← atStamp_disp Cmd.lawUnload dt q s] at hb
  refine refuses (body := lawUnloadBody) rfl h ((lawUnload_fields hl hr hu hb _).trans (orElse_neg ?_ _ _))
  rw [image_atStamp, hp]
  rfl

/-! ### LAW_COEF_WRITE (R345, R675) -/

/-- The words that a LAW_COEF_WRITE brings. -/
def coefWords (q : Request) : List Int :=
  (List.range (uAt q.payload 4 1)).filterMap (fun i => contVal .s24 (slice q.payload (8 + 4 * i) 4))

theorem lawCoefWrite_waits (h : Served Cmd.lawCoefWrite dt q s) (hp : s.plan.active.isSome = true)
    (hk : ptask s.image (uAt q.payload 0 2) = some k) (h1 : 1 ≤ uAt q.payload 4 1) (h60 : uAt q.payload 4 1 ≤ 60)
    (hr : uAt q.payload 5 3 = 0) (hv : (coefWords q).length = uAt q.payload 4 1)
    (hi : uAt q.payload 2 2 + uAt q.payload 4 1 ≤ k.inLen) (ha : k.axis = 255 ∨ 24 ≤ uAt q.payload 2 2) :
    Answers (.lawCoefWrite dt q) Cmd.lawCoefWrite dt q s St.ok (fun u p => p = [] ∧ u.disp = { s.disp with coefs := s.disp.coefs ++
      [(stampOf Cmd.lawCoefWrite dt q s, k.base + 4 * uAt q.payload 2 2, (coefWords q).map (BitVec.ofInt 24))] }) := by
  rw [← atStamp_disp Cmd.lawCoefWrite dt q s]
  rw [← atStamp_plan Cmd.lawCoefWrite dt q s] at hp
  rw [← image_atStamp Cmd.lawCoefWrite dt q s] at hk
  have hb : lawCoefWriteBody (atStamp Cmd.lawCoefWrite dt q s) q (stampOf Cmd.lawCoefWrite dt q s) =
      .ok { atStamp Cmd.lawCoefWrite dt q s with disp := { (atStamp Cmd.lawCoefWrite dt q s).disp with
        coefs := (atStamp Cmd.lawCoefWrite dt q s).disp.coefs ++
          [(stampOf Cmd.lawCoefWrite dt q s, k.base + 4 * uAt q.payload 2 2, (coefWords q).map (BitVec.ofInt 24))] } } [] := by
    refine (orElse_pos hp _ _).trans ?_
    rw [hk]
    exact need_pos (decide_eq_true ⟨h1, h60, resv_of_eq hr, hv, hi, ha⟩) _
  exact answers_ok (body := lawCoefWriteBody) rfl h hb ⟨rfl, rfl⟩

/-! ### LAW_TEST (R345, R348, R675) -/

/-- The task that a LAW_TEST names. -/
def testTask (q : Request) : PTask := taskAt (cellsFrom 0 (slice q.payload 8 16)) 0 0

/-- The core of an engine as a LAW_TEST enters its task. -/
def testEntry (a : State) (q : Request) : ECore :=
  entryCore a (testTask q).entry (testTask q).base (testTask q).inLen (testTask q).stLen (testTask q).outLen 0

/-- The core as the test leaves it, where a halt may be asked. -/
def testCore (a : State) (q : Request) (asked : Bool) : ECore :=
  runTest a (uAt q.payload 4 4) (takeHalt { testEntry a q with haltAsked := asked })

/-- The state once the test has run on its engine. -/
def testRan (a : State) (q : Request) (c : ECore) : State :=
  { a.onEngine (uAt q.payload 0 1) (fun g => { g with core := c }) with free := a.free + 1 }

/-- The code and the address of a law fault, or how the test ended without one. -/
def ECore.verdict (c : ECore) : Nat × Nat :=
  match c.fault with
  | some f => f
  | none => if c.done then (0, 0) else (0xFF, 0)

/-- What a LAW_TEST asks of its request and of its engine. -/
structure Testable (a : State) (q : Request) : Prop where
  engine : uAt q.payload 0 1 < engineCount a.board.variant
  reserved : uAt q.payload 1 3 = 0
  limit : 1 ≤ uAt q.payload 4 4 ∧ uAt q.payload 4 4 ≤ 1000000
  window : (testTask q).base + 4 * ((testTask q).inLen + (testTask q).stLen + (testTask q).outLen) ≤ sramSize
  service : (a.engine (uAt q.payload 0 1)).state = .inService
  free : a.disp.test = none

theorem lawTestBody_eq (h : Testable a q) (t : Nat) : lawTestBody a q t =
    (let c := testCore a q ((a.core (uAt q.payload 0 1)).haltAsked || (a.core (uAt q.payload 0 1)).halted)
     if c.halted then .later { testRan a q c with disp := { (testRan a q c).disp with
       test := some (uAt q.payload 0 1, q.mb, (testTask q).base, uAt q.payload 4 4) } }
     else .ok (testEnd (testRan a q c) (testTask q).base c).1 (testEnd (testRan a q c) (testTask q).base c).2) := by
  obtain ⟨he, hr, hl, hw, hs, hf⟩ := h
  refine (inst_pos (he.trans_le (engineCount_le _)) he _).trans ((need_pos (decide_eq_true ⟨resv_of_eq hr, hl⟩) _).trans
    ((need_pos (decide_eq_true hw) _).trans ((orElse_pos ?_ _ _).trans (orElse_pos ?_ _ _))))
  · rw [hs]
    rfl
  · rw [hf]
    rfl

theorem runClocks_halted (a : State) (limit n : Nat) {c : ECore} (h : c.halted = true) : runClocks a limit n c = c := by
  cases n with
  | zero => rfl
  | succ n => exact if_pos (by simp [h])

/-- A halt that is asked for at the entry is taken there: no instruction runs. -/
theorem testCore_asked (a : State) (q : Request) : testCore a q true = { testEntry a q with halted := true } :=
  runClocks_halted _ _ _ rfl

theorem testCore_free (a : State) (q : Request) : testCore a q false = runTest a (uAt q.payload 4 4) (testEntry a q) := rfl

theorem testCore_runs (a : State) (q : Request) : (testCore a q false).halted = false := runTest_runs _ _ rfl rfl

theorem verdict_unfaulted {c : ECore} (h : c.fault = none) : c.verdict = if c.done then (0, 0) else (0xFF, 0) := by
  rw [ECore.verdict, h]

theorem verdict_faulted {c : ECore} {f : Nat × Nat} (h : c.fault = some f) : c.verdict = f := by
  rw [ECore.verdict, h]

theorem testEnd_payload (a : State) (base : Nat) (c : ECore) : (testEnd a base c).2 =
    numbers [(4, c.clocks), (1, c.regs.es.toNat), (1, c.verdict.1), (2, c.verdict.2)] := by
  have h : (testEnd a base c).2 = b32 c.clocks ++ b8 c.regs.es.toNat ++ b8 c.verdict.1 ++ b16 c.verdict.2 := rfl
  rw [h]
  simp [numbers, b8, b16, b32]

theorem Field.of_eq {p : Bytes} {o n v w : Nat} (h : Field p o n v) (e : v = w) : Field p o n w := e ▸ h

theorem testEnd_engine (a : State) (base : Nat) (c : ECore) (e : Nat) : (testEnd a base c).1.engine e = a.engine e := by
  unfold testEnd
  dsimp only
  split <;> rfl

theorem testRan_core (a : State) (q : Request) (c : ECore) : (testRan a q c).core (uAt q.payload 0 1) = c :=
  congrArg Engine.core (onEngine_engine ..)

theorem engine_atStamp (code dt : Nat) (q : Request) (s : State) (e : Nat) : (atStamp code dt q s).engine e = s.engine e := by
  rw [State.engine, atStamp_disp, State.engine]

theorem core_atStamp (code dt : Nat) (q : Request) (s : State) (e : Nat) : (atStamp code dt q s).core e = s.core e :=
  congrArg Engine.core (engine_atStamp ..)

section test
variable (h : Served Cmd.lawTest dt q s) (ht : Testable (atStamp Cmd.lawTest dt q s) q)
include h ht

theorem lawTest_halts (hh : (s.core (uAt q.payload 0 1)).halted = true ∨ (s.core (uAt q.payload 0 1)).haltAsked = true) :
    Runs (.lawTest dt q) s (fun t =>
      t.disp.test = some (uAt q.payload 0 1, q.mb, (testTask q).base, uAt q.payload 4 4) ∧ (t.core (uAt q.payload 0 1)).halted = true ∧
      (t.core (uAt q.payload 0 1)).clocks = 0 ∧ (tfind t.host.running q.mb).isSome = true) := by
  have hasked : ((s.core (uAt q.payload 0 1)).haltAsked || (s.core (uAt q.payload 0 1)).halted) = true := Bool.or_eq_true_iff.mpr hh.symm
  have hb := lawTestBody_eq ht (stampOf Cmd.lawTest dt q s)
  rw [core_atStamp, hasked, testCore_asked] at hb
  have hs := serve_eq h (body := lawTestBody)
  rw [hb] at hs
  have hc := testRan_core (atStamp Cmd.lawTest dt q s) q { testEntry (atStamp Cmd.lawTest dt q s) q with halted := true }
  exact ⟨_, congrArg Host.Outcome.next hs, rfl, congrArg ECore.halted hc, congrArg ECore.clocks hc, congrArg Option.isSome (tfind_tput_self ..)⟩

theorem lawTest_answers (hh : (s.core (uAt q.payload 0 1)).halted = false) (ha : (s.core (uAt q.payload 0 1)).haltAsked = false) :
    let c := runTest (atStamp Cmd.lawTest dt q s) (uAt q.payload 4 4) (testEntry (atStamp Cmd.lawTest dt q s) q)
    Answers (.lawTest dt q) Cmd.lawTest dt q s St.ok (fun u p => u.core (uAt q.payload 0 1) = c ∧ p.length = 8 ∧ Field p 0 4 c.clocks ∧
      Field p 4 1 c.regs.es.toNat ∧ (c.fault = none → c.done = true → Field p 5 1 0) ∧
      (c.fault = none → c.done = false → Field p 5 1 0xFF) ∧ (∀ f, c.fault = some f → Field p 5 1 f.1 ∧ Field p 6 2 f.2)) := by
  intro c
  have hb := lawTestBody_eq ht (stampOf Cmd.lawTest dt q s)
  rw [core_atStamp, hh, ha, Bool.or_false] at hb
  refine answers_ok (body := lawTestBody) rfl h (hb.trans (if_neg (by rw [testCore_runs]; exact Bool.false_ne_true))) ⟨?_, ?_⟩
  · exact (congrArg Engine.core (testEnd_engine ..)).trans (testRan_core ..)
  · rw [testEnd_payload, testCore_free]
    have hcode : Field (numbers [(4, c.clocks), (1, c.regs.es.toNat), (1, c.verdict.1), (2, c.verdict.2)]) 5 1 c.verdict.1 :=
      field_of_numbers (i := 2) rfl
    refine ⟨numbers_length _, field_of_numbers (i := 0) rfl, field_of_numbers (i := 1) rfl, fun hf hd => hcode.of_eq ?_,
      fun hf hd => hcode.of_eq ?_, fun f hf => ⟨hcode.of_eq ?_, Field.of_eq (field_of_numbers (i := 3) rfl) ?_⟩⟩
    · rw [verdict_unfaulted hf, if_pos hd]
    · rw [verdict_unfaulted hf, if_neg (by rw [hd]; exact Bool.false_ne_true)]
    · rw [verdict_faulted hf]
    · rw [verdict_faulted hf]

end test

/-- Settles O54: each command of a law block is one change of the dispatcher's store of blocks, and LAW_TEST one run of an engine. -/
theorem lawBlocks : Obligations.LawBlocks := by
  unfold Obligations.LawBlocks
  intro s dt l b rest k q
  refine ⟨fun h hr ho => ⟨lawLoad_stages h hr ho, lawLoad_pends h hr ho⟩, lawLoad_refuses, lawLoadDone_passes, lawLoadDone_fails,
    fun h hl hr hu hb => ⟨lawUnload_frees h hl hr hu hb, lawUnload_inUse h hl hr hu hb⟩, lawCoefWrite_waits, ?_⟩
  dsimp only
  intro h he hr h1 h2 hw hs hf
  have ht : Testable (atStamp Cmd.lawTest dt q s) q := by
    refine ⟨?_, hr, ⟨h1, h2⟩, hw, ?_, ?_⟩
    · rwa [atStamp_board]
    · rwa [engine_atStamp]
    · rwa [atStamp_disp]
  exact ⟨lawTest_halts h ht, lawTest_answers h ht⟩

end Sys2Proof.Machine
end
